-- ==== Sys2Proof/Word.lean ====
section
/-!
DEFINITION. The word types of the Zizin Z8 (03 R88: a general register holds 64 bits).
-/
namespace Sys2Proof

/-- A general register, a program counter, a system register value: 64 bits (R88). -/
abbrev Word := BitVec 64
/-- A byte of memory. -/
abbrev Byte := BitVec 8
/-- A 128-byte line of memory (R175), byte k in bits [8k+7:8k]. -/
abbrev Line := BitVec 1024

end Sys2Proof
end

