-- ==== Sys2Proof/Config.lean ====
section
/-!
DEFINITION. What the spec fixes for the part, what the model chooses, and the free values of what the spec leaves open.
An opaque constant has no body that Lean can unfold: nothing can be proved of its value.
-/
namespace Sys2Proof.Config

/-- Numbers of the part (00 R1, R12). -/
def simtCores : Nat := 384
def coresPerDie : Nat := 48
def simtDies : Nat := 8
def latencyCores : Nat := 128
def harts : Nat := 256
def herpinPorts : Nat := 32
/-- Ultra Ethernet ports, four on each latency die (00 R2, R12). -/
def ethernetPorts : Nat := 8
/-- The SIMT die of a Herpin port, and the latency die of an Ultra Ethernet port (00 R12). -/
def portDie (p : Nat) : Nat := p / 4
def ethernetDie (p : Nat) : Nat := p / 4
def hbmStacks : Nat := 16
def networkEngines : Nat := 2
/-- Bytes of installed HBM: 1 TiB (00 R2, 06 R176). -/
def hbmBytes : Nat := 2 ^ 40
/-- The host's agent id (06 R175). -/
def hostAgent : Nat := 512
/-- Physical addresses of host memory and of control space (12 R325, R326). -/
def hostBase : Nat := 2 ^ 48
def ctlBase : Nat := 2 ^ 49

/-- DESIGN CHOICE (log 1; unsafe): the entry address in the firmware's signed header, which R301 loads into the PC of
hardware thread 0. The spec states no value. -/
def entryPc : Word := 0x10000

/-- The n-th free value drawn (log 6): a value the spec calls unpredictable or does not state. -/
opaque freeValue : Nat → BitVec 64

/-- The value that a source register at or above a thread's allotment contributes to a cross-lane instruction that the
thread skips by its guard (01 R38; log 33): the spec states none. -/
opaque beyondAllotment (n thread register : Nat) : BitVec 64

/-- The counters of a ring or circular buffer after a program stored to its descriptor (04 R134, 08 R224; log 6), by the word the
hardware last left and the word that stands there. -/
opaque scrambled (left stored : BitVec 64) : BitVec 64

/-- How many cycles the cyc of die `d` advances in the n-th step (00 R5; log 7): the spec gives no step a length. -/
opaque cycles (d n : Nat) : Nat

/-- How many SIMT cycles pass on SIMT die `d` in the n-th step (00 R4; log 7). -/
opaque simtCycles (d n : Nat) : Nat

/-- The device key's signature over a digest, 132 bytes of r and s (11 R321, 12 R343). -/
opaque sign : List Byte → List Byte
/-- Whether a signature over a digest with this key id is accepted (11 R322). -/
opaque verify (digest signature keyId : List Byte) : Bool
/-- The id of the device key (11 R321). -/
opaque deviceKeyId : BitVec 64
/-- The CRC-128 of the first 240 bytes of a flit (12 R332); the spec gives no polynomial. -/
opaque crc128 : List Byte → BitVec 128
/-- Whether the boot ROM accepts the first-stage firmware, and what it reports otherwise: stage and cause (12 R343). -/
opaque firmwareAccepted : Bool
opaque bootReport : BitVec 64
/-- The set of a slice's directory that holds an entry (06 R182): its number modulo 1 024; the spec gives no index
function. -/
opaque directorySet (base cls : Nat) : Nat
/-- The set of a TLB that holds the translation of a page (05 R161): its number modulo the sets of the TLB; the spec gives no
index function. -/
opaque tlbSet (asid page size : Nat) : Nat
/-- Whether a later stage of firmware is accepted by the stage before it, and what is reported otherwise (12 R343). -/
opaque stageAccepted : Nat → Bool
opaque stageReport : Nat → BitVec 64
/-- The answer of an SPDM session that reports the measurement registers, by stage, with the device key (12 R343). -/
opaque spdmAnswer (session : Nat) (measurements : List (Nat × BitVec 512)) (keyId : BitVec 64) : List Byte
/-- Measurement of firmware stage `k` (12 R343). -/
opaque measurement : Nat → BitVec 512

end Sys2Proof.Config
end

