-- ==== Sys2Proof/Syntax.lean ====
section
/-!
DEFINITION. The instructions and the other steps of the Zizin Z8: one constructor of `Instr` for each row of
spec/opcode_table.json. The first part is the instruction set (09 R246 to R266, chapters 17 to 20); the second
part is the steps of the other agents (95), which have no instruction word and carry the name of what they act on.
-/
namespace Sys2Proof

/-- A general register number (R247). -/
abbrev Reg := BitVec 6
/-- A predicate number, a join register number (R251). -/
abbrev Pred := BitVec 3

/-- The guard of an instruction (R248): predicate number and negation. -/
structure Guard where
  p : BitVec 3
  neg : Bool
  deriving DecidableEq, Repr

/-- Condition codes of PCMP and PCMPI (R255). -/
inductive Cond where
  | eq | ne | lt | ge | ltu | geu | le | gt | leu | gtu
  deriving DecidableEq, Repr

/-- Conditions of FCMP (R255). -/
inductive FCond where
  | eq | ne | lt | le | un
  deriving DecidableEq, Repr

/-- Formats of floating-point arithmetic (R256). -/
inductive FType where
  | s | d | h | bf
  deriving DecidableEq, Repr

/-- Float codes of conversions and FCMP (R257). -/
inductive FloatCode where
  | s | d | h | bf | e4m3 | e5m2
  deriving DecidableEq, Repr

/-- Integer codes of ICVT (R257); `n` codes are unsigned. -/
inductive IntCode where
  | s8 | n8 | s16 | n16 | s32 | n32 | s64 | n64
  deriving DecidableEq, Repr

/-- Packed codes (R257). -/
inductive PackedCode where
  | p2s | p4h | p4bf | p8e4m3 | p8e5m2 | p8s8 | p8n8 | p4s16 | p4n16 | p2s32 | p2n32
  deriving DecidableEq, Repr

/-- The rm field (R91). -/
inductive Rm where
  | dyn | rne | rtz | rdn | rup | rna
  deriving DecidableEq, Repr

/-- Modes of SHFL (R258). -/
inductive ShflMode where
  | idx | up | down | xor
  deriving DecidableEq, Repr

/-- Modes of VOTE (R258). -/
inductive VoteMode where
  | all | any | ballot | uni
  deriving DecidableEq, Repr

/-- Operations of REDB and SCANB (R258). -/
inductive RedOp where
  | add | min | max | minu | maxu | and | or | xor | fadd
  deriving DecidableEq, Repr

/-- Sizes of LD and ST (R250). -/
inductive MemSize where
  | b | h | w | d | q
  deriving DecidableEq, Repr

/-- Sizes of AMO and CAS (R250). -/
inductive AmoSize where
  | w | d
  deriving DecidableEq, Repr

/-- Order annotations (R197). -/
inductive Ord where
  | plain | acq | rel | ar | racq | inv
  deriving DecidableEq, Repr

/-- Scopes (R195). -/
inductive Scope where
  | cw | co | gg | di | dv | sy
  deriving DecidableEq, Repr

/-- Kinds of PREF (R259). -/
inductive PrefKind where
  | ld | st | l2
  deriving DecidableEq, Repr

/-- Branch hints of BR (R371). -/
inductive BrHint where
  | none | t | nt
  deriving DecidableEq, Repr

/-- Hints of JALR (R407). -/
inductive JalrHint where
  | none | call | ret
  deriving DecidableEq, Repr

/-- The fence specification of FENCE (R201). -/
structure FenceSpec where
  io : Bool
  xv : Bool
  en : Bool
  st : Bool
  ld : Bool
  sc : Scope
  deriving DecidableEq, Repr

/-- The system registers (R267). -/
inductive SysReg where
  | tid | lane | gang | gsize | crew | core | die
  | tstat | tvec | tepc | tcause | tval | tscratch
  | fflags | ftrapen | frm | fid | fidcap | regcnt | loambase | loamva
  | ocLd | ocSt | ocCp | ocTile | kquota | kused
  | hbase | hlimit | hoff | hattr | pgroot
  | hzc0 | hzc1 | hzc2 | hzc3 | cyc
  deriving DecidableEq, Repr

/-- The fields of an MMA (R218) besides its guard and its two registers. -/
structure MmaFields where
  ring : BitVec 2
  z : Bool
  adv : Bool
  fid : BitVec 4
  fa : BitVec 4
  fb : BitVec 4
  deriving DecidableEq, Repr

/-- The instructions and steps of the Z8: the rows of spec/opcode_table.json, in its order but for the last ones,
which take no operands. -/
inductive Instr where
  -- integer register forms (R253)
  | add (g : Guard) (d a b : Reg)
  | sub (g : Guard) (d a b : Reg)
  | addw (g : Guard) (d a b : Reg)
  | subw (g : Guard) (d a b : Reg)
  | and (g : Guard) (d a b : Reg)
  | or (g : Guard) (d a b : Reg)
  | xor (g : Guard) (d a b : Reg)
  | shl (g : Guard) (d a b : Reg)
  | shr (g : Guard) (d a b : Reg)
  | sra (g : Guard) (d a b : Reg)
  | min (g : Guard) (d a b : Reg)
  | max (g : Guard) (d a b : Reg)
  | minu (g : Guard) (d a b : Reg)
  | maxu (g : Guard) (d a b : Reg)
  | slt (g : Guard) (d a b : Reg)
  | sltu (g : Guard) (d a b : Reg)
  | sel (g : Guard) (d a b : Reg) (n : Pred)
  | lea (g : Guard) (d a b : Reg) (sh : BitVec 3)
  | sext (g : Guard) (d a : Reg) (n : BitVec 6)
  | zext (g : Guard) (d a : Reg) (n : BitVec 6)
  | clz (g : Guard) (d a : Reg)
  | popc (g : Guard) (d a : Reg)
  | brev (g : Guard) (d a : Reg)
  | bfx (g : Guard) (d a : Reg) (pos len : BitVec 6)
  | bfi (g : Guard) (d a b : Reg) (pos len : BitVec 6)
  | mul (g : Guard) (d a b : Reg)
  | mulh (g : Guard) (d a b : Reg)
  | mulhu (g : Guard) (d a b : Reg)
  | div (g : Guard) (d a b : Reg)
  | divu (g : Guard) (d a b : Reg)
  | rem (g : Guard) (d a b : Reg)
  | remu (g : Guard) (d a b : Reg)
  -- immediate forms (R254)
  | addi (g : Guard) (d a : Reg) (imm : BitVec 32)
  | andi (g : Guard) (d a : Reg) (imm : BitVec 32)
  | ori (g : Guard) (d a : Reg) (imm : BitVec 32)
  | xori (g : Guard) (d a : Reg) (imm : BitVec 32)
  | shli (g : Guard) (d a : Reg) (n : BitVec 6)
  | shri (g : Guard) (d a : Reg) (n : BitVec 6)
  | srai (g : Guard) (d a : Reg) (n : BitVec 6)
  | slti (g : Guard) (d a : Reg) (imm : BitVec 32)
  | movi (g : Guard) (d : Reg) (imm : BitVec 32)
  | movhi (g : Guard) (d : Reg) (imm : BitVec 32)
  -- predicates and comparisons (R255)
  | pcmp (g : Guard) (cc : Cond) (d : Pred) (a b : Reg)
  | pcmpi (g : Guard) (cc : Cond) (d : Pred) (a : Reg) (imm : BitVec 32)
  | plop (g : Guard) (d a b c : Pred) (lut : BitVec 8)
  | fcmp (g : Guard) (cc : FCond) (t : FloatCode) (d : Pred) (a b : Reg)
  -- floating point (R256)
  | fadd (g : Guard) (t : FType) (rm : Rm) (d a b : Reg)
  | fsub (g : Guard) (t : FType) (rm : Rm) (d a b : Reg)
  | fmul (g : Guard) (t : FType) (rm : Rm) (d a b : Reg)
  | ffma (g : Guard) (t : FType) (rm : Rm) (d a b c : Reg)
  | fmin (g : Guard) (t : FType) (d a b : Reg)
  | fmax (g : Guard) (t : FType) (d a b : Reg)
  | fdiv (g : Guard) (t : FType) (rm : Rm) (d a b : Reg)
  | fsqrt (g : Guard) (t : FType) (rm : Rm) (d a : Reg)
  | frcp (g : Guard) (t : FType) (rm : Rm) (d a : Reg)
  | frsq (g : Guard) (t : FType) (rm : Rm) (d a : Reg)
  | fexp2 (g : Guard) (t : FType) (rm : Rm) (d a : Reg)
  | flog2 (g : Guard) (t : FType) (rm : Rm) (d a : Reg)
  | fclass (g : Guard) (t : FType) (d a : Reg)
  -- conversions and packed arithmetic (R257)
  | fcvt (g : Guard) (dst src : FloatCode) (rm : Rm) (d a : Reg)
  | icvt (g : Guard) (toFloat : Bool) (f : FloatCode) (ic : IntCode) (rm : Rm) (d a : Reg)
  | pcvt (g : Guard) (dst src : PackedCode) (rm : Rm) (part : BitVec 3) (d a : Reg)
  | pfma (g : Guard) (t : PackedCode) (rm : Rm) (d a b c : Reg)
  | pdot (g : Guard) (t : PackedCode) (rm : Rm) (d a b c : Reg)
  -- cross-lane (R258)
  | shfl (g : Guard) (m : ShflMode) (d a b c : Reg)
  | vote (g : Guard) (m : VoteMode) (ps : Pred) (d a c : Reg)
  | redb (g : Guard) (op : RedOp) (dbl : Bool) (rm : Rm) (d a c : Reg)
  | scanb (g : Guard) (exc : Bool) (op : RedOp) (dbl : Bool) (rm : Rm) (d a c : Reg)
  -- memory (R259, R260)
  | ld (g : Guard) (sz : MemSize) (sx : Bool) (o : Ord) (sc : Scope) (d a : Reg) (off : BitVec 24)
  | st (g : Guard) (sz : MemSize) (o : Ord) (sc : Scope) (d a : Reg) (off : BitVec 24)
  | amoAdd (g : Guard) (sz : AmoSize) (o : Ord) (sc : Scope) (d a b : Reg)
  | amoAnd (g : Guard) (sz : AmoSize) (o : Ord) (sc : Scope) (d a b : Reg)
  | amoOr (g : Guard) (sz : AmoSize) (o : Ord) (sc : Scope) (d a b : Reg)
  | amoXor (g : Guard) (sz : AmoSize) (o : Ord) (sc : Scope) (d a b : Reg)
  | amoMin (g : Guard) (sz : AmoSize) (o : Ord) (sc : Scope) (d a b : Reg)
  | amoMax (g : Guard) (sz : AmoSize) (o : Ord) (sc : Scope) (d a b : Reg)
  | amoMinu (g : Guard) (sz : AmoSize) (o : Ord) (sc : Scope) (d a b : Reg)
  | amoMaxu (g : Guard) (sz : AmoSize) (o : Ord) (sc : Scope) (d a b : Reg)
  | amoSwap (g : Guard) (sz : AmoSize) (o : Ord) (sc : Scope) (d a b : Reg)
  | amoFadd (g : Guard) (o : Ord) (sc : Scope) (d a b : Reg)
  | cas (g : Guard) (sz : AmoSize) (o : Ord) (sc : Scope) (d a b c : Reg)
  | pref (g : Guard) (k : PrefKind) (a : Reg) (off : BitVec 24)
  -- fences and cache operations (R264, R259)
  | fence (g : Guard) (f : FenceSpec)
  | tfence (g : Guard)
  | opfence (g : Guard)
  | ifence (g : Guard)
  | cwb (g : Guard) (sc : Scope) (a : Reg) (off : BitVec 24)
  | cinv (g : Guard) (sc : Scope) (a : Reg) (off : BitVec 24)
  | icinv (g : Guard) (sc : Scope) (a : Reg) (off : BitVec 24)
  -- control flow (R261)
  | br (g : Guard) (h : BrHint) (off : BitVec 32)
  | jal (g : Guard) (call : Bool) (d : Reg) (off : BitVec 32)
  | jalr (g : Guard) (h : JalrHint) (d a : Reg) (imm : BitVec 32)
  -- threads and crews (R262)
  | joinEnr (g : Guard) (n : Pred)
  | joinWait (g : Guard) (n : Pred)
  | joinStrike (g : Guard) (n : Pred)
  | joinRst (g : Guard) (n : Pred)
  | yield (g : Guard)
  | yieldH (g : Guard)
  | exit (g : Guard)
  | bkoff (g : Guard)
  | nop (g : Guard)
  | waitc (g : Guard) (ld st : BitVec 6) (cp tile : BitVec 4)
  | cbwait (g : Guard) (d : Reg) (k : BitVec 4)
  | cbwaitProd (g : Guard) (d : Reg) (k : BitVec 4)
  | cbpop (g : Guard) (k : BitVec 4)
  | cbpush (g : Guard) (k : BitVec 4)
  | migrateTosimt (g : Guard) (d a : Reg)
  | migrateTolat (g : Guard) (d : Reg)
  | gbar (g : Guard)
  | gbarClose (seq core : Nat)
  | grow (g : Guard) (n8 : BitVec 3)
  | growGrant (k : Nat)
  | shrink (g : Guard) (n8 : BitVec 3)
  | shmap (g : Guard) (d a : Reg) (t : Reg) (count : BitVec 5)
  | setf (g : Guard) (d a : Reg)
  | takef (g : Guard) (d a : Reg)
  | scall (g : Guard) (n : BitVec 12)
  | scallOv (g : Guard) (n : BitVec 12) (v : BitVec 20)
  | scallNs (g : Guard) (n : BitVec 12)
  | scallReply (num : BitVec 48) (v : Word)
  | serviceTimeout (k : Nat)
  | fidset (g : Guard) (n : BitVec 4)
  -- matrix, Kaolin, engines (R218, R225, R238, R263)
  | mmaT (g : Guard) (m : MmaFields) (a b : Reg)
  | mmaK (g : Guard) (m : MmaFields) (a b : Reg)
  | mmaStart (core : Nat)
  | mmaCompletion (core : Nat)
  | horizonRailSwitch (core : Nat)
  | radv (g : Guard) (ring : BitVec 2)
  | radvCloseStart (core : Nat)
  | radvCfg (g : Guard) (d : Reg) (ring : BitVec 2) (ln : BitVec 2)
  | radvTail (g : Guard) (d : Reg) (ring : BitVec 2)
  | radvRel (g : Guard) (ring : BitVec 2)
  | radvFree (g : Guard) (ring : BitVec 2)
  | kalloc (g : Guard) (crew ar : Bool) (d a : Reg)
  | kfill (g : Guard) (d a b : Reg)
  | fillStart (core : Nat)
  | fillCompletion (core : Nat)
  | kpin (g : Guard) (a : Reg)
  | kpinOff (g : Guard) (a : Reg)
  | krev (g : Guard) (a : Reg)
  | kstat (g : Guard) (d a : Reg)
  | cbkld (g : Guard) (d a b : Reg) (slot : BitVec 6)
  | engoCopy (g : Guard) (sc : Scope) (a : Reg)
  | engoEpi (g : Guard) (sc : Scope) (a : Reg)
  | engoNet (g : Guard) (die1 : Bool) (sc : Scope) (a : Reg)
  | engq (g : Guard) (d a : Reg)
  -- system (R264)
  | sysrd (g : Guard) (r : SysReg) (d : Reg)
  | syswr (g : Guard) (r : SysReg) (a : Reg)
  | eret (g : Guard)
  | trap (g : Guard) (n : BitVec 16)
  | bkpt (g : Guard) (n : BitVec 16)
  | tlbinvPg (g : Guard) (a b : Reg) (sz : BitVec 3)
  | tlbinvAs (g : Guard) (b : Reg)
  | tlbinvAll (g : Guard)
  | tlbinvPga (g : Guard) (a : Reg) (sz : BitVec 3)
  | sleep (g : Guard)
  -- traps, boundaries and issue
  | escalation (k : Nat)
  | signalDelivery (k : Nat)
  | intr (hart : Nat)
  | watchdog (crew : Nat)
  | regroup (core : Nat)
  | bkoffHoldExpiry (k : Nat)
  | yieldHExpiry (k : Nat)
  -- the memory path
  | loadSectorReturn (id : Nat)
  | atomicReply (id : Nat)
  | storePerformed (id : Nat)
  -- gangs, placement, pre-emption
  | fanIn (seq : Nat)
  | gangPlacement (seq : Nat)
  | handlerTaskPlacement (task : Nat)
  | preemption (core asid : Nat)
  | shadowSwitch (core : Nat)
  | drainingSwitch (core : Nat)
  | leachSpill (core : Nat)
  | leachPrefill (core asid : Nat)
  | pageFaultSave (crew : Nat)
  | faultWordClear (asid : Nat) (region : Word)
  | crewRestore (crew : Nat)
  -- chains
  | chainUnblock (chain : Nat)
  | copy (chain : Nat)
  | gather (chain : Nat)
  | scatter (chain : Nat)
  | loop (chain : Nat)
  | ifEntry (chain : Nat)
  | signal (chain : Nat)
  | endEntry (chain : Nat)
  | take (chain : Nat)
  | release (chain : Nat)
  | scale (chain : Nat)
  | bias (chain : Nat)
  | act (chain : Nat)
  | cvt (chain : Nat)
  | store (chain : Nat)
  | nsend (chain : Nat)
  | nput (chain : Nat)
  | nget (chain : Nat)
  | chainEnd (chain : Nat)
  | packetAck (pkt : Nat)
  | transportTimeout (pkt : Nat)
  | memoryTimeout (access : Nat)
  -- the coherence home and its agents
  | gets (m : Nat)
  | getm (m : Nat)
  | upg (m : Nat)
  | kget (m : Nat)
  | rdonce (m : Nat)
  | wr (m : Nat)
  | homeAtomic (m : Nat)
  | putm (arrive : Bool) (agent line : Nat)
  | puto (arrive : Bool) (agent line : Nat)
  | pute (arrive : Bool) (agent line : Nat)
  | puts (arrive : Bool) (agent line : Nat)
  | putack (m : Nat)
  | fwds (m : Nat)
  | fwdm (m : Nat)
  | fwddone (m : Nat)
  | nodata (m : Nat)
  | wbpending (m : Nat)
  | invalidation (m : Nat)
  | acknowledgement (m : Nat)
  | grant (m : Nat)
  | retry (m : Nat)
  | queuedRequestDequeue (line : Nat)
  | promote (m : Nat)
  -- page migration and the Silt tier
  | migstart (die : Nat) (v : Word)
  | migrationLineCopy (die : Nat)
  | migrel (die : Nat) (v : Word)
  | siltCompress (unit : Nat)
  | siltExpansion (unit : Nat)
  -- package
  | coreWake (core : Nat)
  -- control-space stores with a row of their own
  | rcinv (die : Nat) (v : Word)
  | returnStore (die : Nat) (v : Word)
  | sigctl (die : Nat) (v : Word)
  | htload (by' : Nat) (hart : Nat) (v : Word)
  | iset (hart : Nat) (v : Word)
  | hostdb (v : Word)
  | reply (num : Word) (v : Word)
  | counterClear (off : Nat) (v : Word)
  | controlRegisterWrite (off : Nat) (v : Word)
  | reservedMajorOpcode (w : BitVec 64)
  | packetNack (pkt : Nat)
  | transportRetransmission (pkt : Nat)
  | suspendedContextResume (net asid : Nat)
  | asidFlush (core asid : Nat)
  -- steps that take their data from the head of the package's outside inputs, or that act on every unit of a kind
  | resetRelease
  | quiesce
  | quiesceComplete
  | image
  | restore
  | resume
  | herpinFlit
  | linkTimeout
  | herpinPortUp
  | spdmRequest
  | temperatureLimit
  | powerThrottle
  | packetPlacement
  | activeMessageArrival
  | ngetRequest
  | quietEpoch
  | schedulingTick
  | timerCompare
  deriving DecidableEq, Repr

end Sys2Proof
end

