-- ==== Sys2Proof/WellFormed.lean ====
section
/-!
DEFINITION. Which terms of `Instr` are instructions that the encodings of 09 R246 to R268 and chapters 17 to 20 admit.
A step of another agent (a row without an instruction word) is not well-formed in this sense: it has no encoding.
-/
namespace Sys2Proof

/-- g = 0 with gn = 1 is reserved (R248). -/
def Guard.wf (g : Guard) : Bool := !(g.p == 0 && g.neg)

/-- Order annotations that LD accepts (R197). -/
def Ord.forLd : Ord → Bool
  | .plain | .acq | .racq | .inv => true
  | .rel | .ar => false

/-- Order annotations that ST accepts (R197). -/
def Ord.forSt : Ord → Bool
  | .plain | .rel => true
  | .acq | .ar | .racq | .inv => false

/-- Order annotations that AMO and CAS accept (R197). -/
def Ord.forAmo : Ord → Bool
  | .inv => false
  | .plain | .acq | .rel | .ar | .racq => true

/-- The sx bit is allowed with sizes b, h and w only (R417). -/
def MemSize.sxOk (sz : MemSize) (sx : Bool) : Bool :=
  match sz with
  | .b | .h | .w => true
  | .d | .q => !sx

/-- A q-size access needs d at most 62 (R259). -/
def MemSize.regOk (sz : MemSize) (d : Reg) : Bool :=
  match sz with
  | .q => d != 63
  | .b | .h | .w | .d => true

/-- Lanes of a packed code (R257). -/
def PackedCode.lanes : PackedCode → Nat
  | .p2s | .p2s32 | .p2n32 => 2
  | .p4h | .p4bf | .p4s16 | .p4n16 => 4
  | .p8e4m3 | .p8e5m2 | .p8s8 | .p8n8 => 8

/-- Packed codes of integer lanes (R257). -/
def PackedCode.isInt : PackedCode → Bool
  | .p8s8 | .p8n8 | .p4s16 | .p4n16 | .p2s32 | .p2n32 => true
  | .p2s | .p4h | .p4bf | .p8e4m3 | .p8e5m2 => false

/-- Codes of PFMA (R435). -/
def PackedCode.forPfma : PackedCode → Bool
  | .p8e4m3 | .p8e5m2 => false
  | .p2s | .p4h | .p4bf | .p8s8 | .p8n8 | .p4s16 | .p4n16 | .p2s32 | .p2n32 => true

/-- Codes of PDOT (R435). -/
def PackedCode.forPdot : PackedCode → Bool
  | .p4h | .p4bf | .p8e4m3 | .p8e5m2 | .p8s8 | .p8n8 => true
  | .p2s | .p4s16 | .p4n16 | .p2s32 | .p2n32 => false

/-- rm is zero for integer-only forms (R433, R435). -/
def rmOk (intOnly : Bool) (rm : Rm) : Bool := !intOnly || rm == .dyn

/-- A part below max(ns, nd) / min(ns, nd) (R433). -/
def partOk (dst src : PackedCode) (part : BitVec 3) : Bool :=
  decide (part.toNat < Nat.max src.lanes dst.lanes / Nat.min src.lanes dst.lanes)

/-- The kinds, type and rounding of REDB and SCANB (R443). -/
def redOk (op : RedOp) (dbl : Bool) (rm : Rm) : Bool :=
  match op with
  | .fadd => true
  | _ => !dbl && rm == .dyn

/-- A fence names a kind, and io goes with scope sy (R201). -/
def FenceSpec.wf (f : FenceSpec) : Bool :=
  (f.io || f.xv || f.en || f.st || f.ld) && (!f.io || f.sc == .sy)

/-- Fidelity field 0 to 3 or 0xF, format checks 0 to 7 (R218, R101). -/
def MmaFields.wf (m : MmaFields) : Bool :=
  (decide (m.fid.toNat ≤ 3) || m.fid == 15) && decide (m.fa.toNat ≤ 7) && decide (m.fb.toNat ≤ 7)

/-- Registers whose SYSWR raises ILLEGAL for every thread (R267). -/
def SysReg.readOnly : SysReg → Bool
  | .tid | .lane | .gang | .gsize | .crew | .core | .die | .fidcap | .regcnt | .loambase | .loamva
  | .ocLd | .ocSt | .ocCp | .ocTile | .kquota | .kused | .cyc => true
  | .tstat | .tvec | .tepc | .tcause | .tval | .tscratch | .fflags | .ftrapen | .frm | .fid
  | .hbase | .hlimit | .hoff | .hattr | .pgroot | .hzc0 | .hzc1 | .hzc2 | .hzc3 => false

/-- Major opcodes that the map of R252 assigns. -/
def majorAssigned (op : BitVec 8) : Bool :=
  let n := op.toNat
  (decide (1 ≤ n) && decide (n ≤ 2)) || (decide (0x10 ≤ n) && decide (n ≤ 0x19)) ||
  (decide (0x20 ≤ n) && decide (n ≤ 0x23)) || n == 0x30 || n == 0x40 || n == 0x41 || n == 0x50 ||
  (decide (0x60 ≤ n) && decide (n ≤ 0x64)) || (decide (0x70 ≤ n) && decide (n ≤ 0x76)) ||
  (decide (0x80 ≤ n) && decide (n ≤ 0x87)) || (decide (0x90 ≤ n) && decide (n ≤ 0x93)) ||
  (decide (0xA0 ≤ n) && decide (n ≤ 0xA8)) || (decide (0xB0 ≤ n) && decide (n ≤ 0xB7)) ||
  n == 0xC0 || n == 0xC1 || (decide (0xD0 ≤ n) && decide (n ≤ 0xD6))

/-- A word whose guard field is g = 0, gn = 1 (R248). -/
def guardReserved (w : BitVec 64) : Bool := w.extractLsb' 53 3 == 0 && w.extractLsb' 52 1 == 1

/-- The terms that have an instruction word. -/
def WellFormed : Instr → Bool
  | .add g _ _ _ | .sub g _ _ _ | .addw g _ _ _ | .subw g _ _ _ | .and g _ _ _ | .or g _ _ _ | .xor g _ _ _
  | .shl g _ _ _ | .shr g _ _ _ | .sra g _ _ _ | .min g _ _ _ | .max g _ _ _ | .minu g _ _ _ | .maxu g _ _ _
  | .slt g _ _ _ | .sltu g _ _ _ | .mul g _ _ _ | .mulh g _ _ _ | .mulhu g _ _ _ | .div g _ _ _ | .divu g _ _ _
  | .rem g _ _ _ | .remu g _ _ _ => g.wf
  | .sel g _ _ _ _ => g.wf
  | .lea g _ _ _ _ => g.wf
  | .sext g _ _ _ => g.wf
  | .zext g _ _ _ => g.wf
  | .clz g _ _ => g.wf
  | .popc g _ _ => g.wf
  | .brev g _ _ => g.wf
  | .bfx g _ _ pos len => g.wf && decide (pos.toNat + (len.toNat + 1) ≤ 64)
  | .bfi g _ _ _ pos len => g.wf && decide (pos.toNat + (len.toNat + 1) ≤ 64)
  | .addi g _ _ _ | .andi g _ _ _ | .ori g _ _ _ | .xori g _ _ _ | .slti g _ _ _ => g.wf
  | .shli g _ _ _ | .shri g _ _ _ | .srai g _ _ _ => g.wf
  | .movi g _ _ | .movhi g _ _ => g.wf
  | .pcmp g _ _ _ _ => g.wf
  | .pcmpi g _ _ _ _ => g.wf
  | .plop g _ _ _ _ _ => g.wf
  | .fcmp g _ _ _ _ _ => g.wf
  | .fadd g _ _ _ _ _ | .fsub g _ _ _ _ _ | .fmul g _ _ _ _ _ | .fdiv g _ _ _ _ _ => g.wf
  | .ffma g _ _ _ _ _ _ => g.wf
  | .fmin g _ _ _ _ | .fmax g _ _ _ _ => g.wf
  | .fsqrt g _ _ _ _ | .frcp g _ _ _ _ | .frsq g _ _ _ _ | .fexp2 g _ _ _ _ | .flog2 g _ _ _ _ => g.wf
  | .fclass g _ _ _ => g.wf
  | .fcvt g _ _ _ _ _ => g.wf
  | .icvt g _ _ _ _ _ _ => g.wf
  | .pcvt g dst src rm part _ _ => g.wf && rmOk (dst.isInt && src.isInt) rm && partOk dst src part
  | .pfma g t rm _ _ _ _ => g.wf && t.forPfma && rmOk t.isInt rm
  | .pdot g t rm _ _ _ _ => g.wf && t.forPdot && rmOk t.isInt rm
  | .shfl g _ _ _ _ _ => g.wf
  | .vote g m ps _ a _ => g.wf && (match m with | .uni => ps == 0 | _ => a == 0)
  | .redb g op dbl rm _ _ _ => g.wf && redOk op dbl rm
  | .scanb g _ op dbl rm _ _ _ => g.wf && redOk op dbl rm
  | .ld g sz sx o _ d _ _ => g.wf && sz.sxOk sx && o.forLd && sz.regOk d
  | .st g sz o _ d _ _ => g.wf && o.forSt && sz.regOk d
  | .amoAdd g _ o _ _ _ _ | .amoAnd g _ o _ _ _ _ | .amoOr g _ o _ _ _ _ | .amoXor g _ o _ _ _ _
  | .amoMin g _ o _ _ _ _ | .amoMax g _ o _ _ _ _ | .amoMinu g _ o _ _ _ _ | .amoMaxu g _ o _ _ _ _
  | .amoSwap g _ o _ _ _ _ => g.wf && o.forAmo
  | .amoFadd g o _ _ _ _ => g.wf && o.forAmo
  | .cas g _ o _ _ _ _ _ => g.wf && o.forAmo
  | .pref g _ _ _ => g.wf
  | .fence g f => g.wf && f.wf
  | .tfence g | .opfence g | .ifence g => g.wf
  | .cwb g _ _ _ | .cinv g _ _ _ | .icinv g _ _ _ => g.wf
  | .br g _ _ => g.wf
  | .jal g _ _ _ => g.wf
  | .jalr g _ _ _ _ => g.wf
  | .joinEnr g _ | .joinWait g _ | .joinStrike g _ | .joinRst g _ => g.wf
  | .yield g | .yieldH g | .exit g | .bkoff g | .nop g => g.wf
  | .waitc g _ _ _ _ => g.wf
  | .cbwait g _ _ | .cbwaitProd g _ _ => g.wf
  | .cbpop g _ | .cbpush g _ => g.wf
  | .migrateTosimt g _ _ => g.wf
  | .migrateTolat g _ => g.wf
  | .gbar g => g.wf
  | .grow g n8 | .shrink g n8 => g.wf && decide (1 ≤ n8.toNat) && decide (n8.toNat ≤ 6)
  | .shmap g _ _ _ count => g.wf && decide (count.toNat ≤ 16)
  | .setf g _ _ | .takef g _ _ => g.wf
  | .scall g _ => g.wf
  | .scallOv g _ _ => g.wf
  | .scallNs g _ => g.wf
  | .fidset g _ => g.wf
  | .mmaT g m _ _ | .mmaK g m _ _ => g.wf && m.wf
  | .radv g _ | .radvRel g _ | .radvFree g _ => g.wf
  | .radvCfg g _ _ _ => g.wf
  | .radvTail g _ _ => g.wf
  | .kalloc g _ _ _ _ => g.wf
  | .kfill g _ _ _ => g.wf
  | .kpin g _ | .kpinOff g _ | .krev g _ => g.wf
  | .kstat g _ _ => g.wf
  | .cbkld g _ _ _ _ => g.wf
  | .engoCopy g _ _ | .engoEpi g _ _ => g.wf
  | .engoNet g _ _ _ => g.wf
  | .engq g _ _ => g.wf
  | .sysrd g _ _ => g.wf
  | .syswr g r _ => g.wf && !r.readOnly
  | .eret g => g.wf
  | .trap g _ | .bkpt g _ => g.wf
  | .tlbinvPg g _ _ sz => g.wf && sz != 0
  | .tlbinvAs g _ => g.wf
  | .tlbinvAll g => g.wf
  | .tlbinvPga g _ sz => g.wf && sz != 0
  | .sleep g => g.wf
  | .reservedMajorOpcode w => !majorAssigned (w.extractLsb' 56 8) && !guardReserved w
  | .gbarClose .. | .growGrant .. | .scallReply .. | .serviceTimeout .. | .mmaStart .. | .mmaCompletion ..
  | .horizonRailSwitch .. | .radvCloseStart .. | .fillStart .. | .fillCompletion .. | .escalation ..
  | .signalDelivery .. | .intr .. | .watchdog .. | .regroup .. | .bkoffHoldExpiry .. | .yieldHExpiry ..
  | .loadSectorReturn .. | .atomicReply .. | .storePerformed .. | .fanIn .. | .gangPlacement ..
  | .handlerTaskPlacement .. | .schedulingTick | .preemption .. | .shadowSwitch .. | .drainingSwitch ..
  | .leachSpill .. | .leachPrefill .. | .pageFaultSave .. | .faultWordClear .. | .crewRestore ..
  | .chainUnblock .. | .copy .. | .gather .. | .scatter .. | .loop .. | .ifEntry .. | .signal .. | .endEntry ..
  | .take .. | .release .. | .scale .. | .bias .. | .act .. | .cvt .. | .store .. | .nsend .. | .nput .. | .nget ..
  | .chainEnd .. | .packetAck .. | .packetPlacement | .activeMessageArrival | .transportTimeout ..
  | .memoryTimeout .. | .gets .. | .getm .. | .upg .. | .kget .. | .rdonce .. | .wr .. | .homeAtomic .. | .putm ..
  | .puto .. | .pute .. | .puts .. | .putack .. | .fwds .. | .fwdm .. | .fwddone .. | .nodata .. | .wbpending ..
  | .invalidation .. | .acknowledgement .. | .grant .. | .retry .. | .queuedRequestDequeue .. | .promote ..
  | .quietEpoch | .migstart .. | .migrationLineCopy .. | .migrel .. | .siltCompress .. | .siltExpansion ..
  | .coreWake .. | .temperatureLimit | .powerThrottle | .resetRelease | .herpinFlit | .linkTimeout
  | .quiesce | .quiesceComplete | .image | .restore | .resume | .rcinv .. | .returnStore .. | .sigctl .. | .htload ..
  | .iset .. | .hostdb .. | .timerCompare | .reply .. | .counterClear .. | .controlRegisterWrite ..
  | .spdmRequest | .herpinPortUp | .packetNack .. | .transportRetransmission .. | .ngetRequest
  | .suspendedContextResume .. | .asidFlush .. => false

end Sys2Proof
end

