-- ==== Sys2Proof/Decode.lean ====
section
/-!
DEFINITION. The decoder, total on every 64-bit word, and the encoder (09 R246 to R268; 02 R71, R76; 05 R162; 07 R201,
R208; 08 R218, R225, R238; 11 R303; chapters 17 to 20). A word that the spec makes ILLEGAL at decode is rejected by
name; a word with a reserved major opcode is the row RESERVED_MAJOR_OPCODE.
-/
namespace Sys2Proof

/-- Why a word is not an instruction (R18, R248, R249 check 1, R251). -/
inductive DecodeError where
  /-- g = 0 with gn = 1 (R248) -/
  | reservedGuard
  /-- a minor function that the major's table does not list (R253 and others) -/
  | reservedFunction
  /-- a nonzero bit in a field that is zero in this form (R18) -/
  | reservedField
  /-- a reserved value of a field: size, order, scope, rounding, format, code, register number (R18) -/
  | reservedValue
  /-- no bytes, or not a whole word -/
  | truncated
  deriving DecidableEq, Repr

/-! ### Fields of a word (R247, R250) -/

def fOp (w : BitVec 64) : BitVec 8 := w.extractLsb' 56 8
def fGuard (w : BitVec 64) : Guard := ⟨w.extractLsb' 53 3, w.extractLsb' 52 1 == 1⟩
def fD (w : BitVec 64) : BitVec 6 := w.extractLsb' 46 6
def fA (w : BitVec 64) : BitVec 6 := w.extractLsb' 40 6
def fB (w : BitVec 64) : BitVec 6 := w.extractLsb' 34 6
-- format R
def fC (w : BitVec 64) : BitVec 6 := w.extractLsb' 28 6
def fFn (w : BitVec 64) : BitVec 8 := w.extractLsb' 20 8
def fRm (w : BitVec 64) : BitVec 4 := w.extractLsb' 16 4
def fTy (w : BitVec 64) : BitVec 4 := w.extractLsb' 12 4
def fMod (w : BitVec 64) : BitVec 12 := w.extractLsb' 0 12
-- formats I and B
def fTop2 (w : BitVec 64) : BitVec 2 := w.extractLsb' 32 2
def fImm (w : BitVec 64) : BitVec 32 := w.extractLsb' 0 32
-- format M
def fSz (w : BitVec 64) : BitVec 3 := w.extractLsb' 31 3
def fSx (w : BitVec 64) : BitVec 1 := w.extractLsb' 30 1
def fOrd (w : BitVec 64) : BitVec 3 := w.extractLsb' 27 3
def fSc (w : BitVec 64) : BitVec 3 := w.extractLsb' 24 3
def fOff (w : BitVec 64) : BitVec 24 := w.extractLsb' 0 24
-- format A
def fASz (w : BitVec 64) : BitVec 3 := w.extractLsb' 17 3
def fAOrd (w : BitVec 64) : BitVec 3 := w.extractLsb' 14 3
def fASc (w : BitVec 64) : BitVec 3 := w.extractLsb' 11 3
def fALow (w : BitVec 64) : BitVec 11 := w.extractLsb' 0 11
-- format X
def fRing (w : BitVec 64) : BitVec 2 := w.extractLsb' 26 2
def fFlags (w : BitVec 64) : BitVec 6 := w.extractLsb' 20 6
def fImm16 (w : BitVec 64) : BitVec 16 := w.extractLsb' 0 16
-- format S
def fSys (w : BitVec 64) : BitVec 12 := w.extractLsb' 22 12
def fImm22 (w : BitVec 64) : BitVec 22 := w.extractLsb' 0 22

/-! ### Words of the formats (R250) -/

def bit (b : Bool) : BitVec 1 := if b then 1 else 0

def wPre (op : BitVec 8) (g : Guard) (d a b : BitVec 6) (low : BitVec 34) : BitVec 64 :=
  op ++ g.p ++ bit g.neg ++ d ++ a ++ b ++ low

def wR (op : BitVec 8) (g : Guard) (d a b c : BitVec 6) (fn : BitVec 8) (rm ty : BitVec 4) (m : BitVec 12) :
    BitVec 64 := wPre op g d a b (c ++ fn ++ rm ++ ty ++ m)

def wI (op : BitVec 8) (g : Guard) (d a b : BitVec 6) (imm : BitVec 32) : BitVec 64 :=
  wPre op g d a b ((0 : BitVec 2) ++ imm)

def wB (op : BitVec 8) (g : Guard) (d : BitVec 6) (hint : BitVec 2) (off : BitVec 32) : BitVec 64 :=
  wPre op g d 0 0 (hint ++ off)

def wM (op : BitVec 8) (g : Guard) (d a : BitVec 6) (sz : BitVec 3) (sx : BitVec 1) (o sc : BitVec 3)
    (off : BitVec 24) : BitVec 64 := wPre op g d a 0 (sz ++ sx ++ o ++ sc ++ off)

def wA (op : BitVec 8) (g : Guard) (d a b c : BitVec 6) (fn : BitVec 8) (sz o sc : BitVec 3) : BitVec 64 :=
  wPre op g d a b (c ++ fn ++ sz ++ o ++ sc ++ (0 : BitVec 11))

def wX (op : BitVec 8) (g : Guard) (a b : BitVec 6) (ring : BitVec 2) (flags : BitVec 6) (fid : BitVec 4)
    (imm16 : BitVec 16) : BitVec 64 := wPre op g 0 a b ((0 : BitVec 6) ++ ring ++ flags ++ fid ++ imm16)

def wS (op : BitVec 8) (g : Guard) (d a : BitVec 6) (sys : BitVec 12) : BitVec 64 :=
  wPre op g d a 0 (sys ++ (0 : BitVec 22))

/-! ### Codes of the enumerated fields -/

/-- R255. -/
def Cond.code : Cond → Nat
  | .eq => 1 | .ne => 2 | .lt => 3 | .ge => 4 | .ltu => 5 | .geu => 6 | .le => 7 | .gt => 8 | .leu => 9 | .gtu => 10

def Cond.ofCode : Nat → Option Cond
  | 1 => some .eq | 2 => some .ne | 3 => some .lt | 4 => some .ge | 5 => some .ltu | 6 => some .geu
  | 7 => some .le | 8 => some .gt | 9 => some .leu | 10 => some .gtu | _ => none

def FCond.code : FCond → Nat
  | .eq => 1 | .ne => 2 | .lt => 3 | .le => 4 | .un => 5

def FCond.ofCode : Nat → Option FCond
  | 1 => some .eq | 2 => some .ne | 3 => some .lt | 4 => some .le | 5 => some .un | _ => none

/-- R256. -/
def FType.code : FType → Nat
  | .s => 0 | .d => 1 | .h => 2 | .bf => 3

def FType.ofCode : Nat → Option FType
  | 0 => some .s | 1 => some .d | 2 => some .h | 3 => some .bf | _ => none

/-- R257. -/
def FloatCode.code : FloatCode → Nat
  | .s => 0 | .d => 1 | .h => 2 | .bf => 3 | .e4m3 => 4 | .e5m2 => 5

def FloatCode.ofCode : Nat → Option FloatCode
  | 0 => some .s | 1 => some .d | 2 => some .h | 3 => some .bf | 4 => some .e4m3 | 5 => some .e5m2 | _ => none

def IntCode.code : IntCode → Nat
  | .s8 => 0 | .n8 => 1 | .s16 => 2 | .n16 => 3 | .s32 => 4 | .n32 => 5 | .s64 => 6 | .n64 => 7

def IntCode.ofCode : Nat → Option IntCode
  | 0 => some .s8 | 1 => some .n8 | 2 => some .s16 | 3 => some .n16 | 4 => some .s32 | 5 => some .n32
  | 6 => some .s64 | 7 => some .n64 | _ => none

def PackedCode.code : PackedCode → Nat
  | .p2s => 0 | .p4h => 2 | .p4bf => 3 | .p8e4m3 => 4 | .p8e5m2 => 5 | .p8s8 => 8 | .p8n8 => 9
  | .p4s16 => 10 | .p4n16 => 11 | .p2s32 => 12 | .p2n32 => 13

def PackedCode.ofCode : Nat → Option PackedCode
  | 0 => some .p2s | 2 => some .p4h | 3 => some .p4bf | 4 => some .p8e4m3 | 5 => some .p8e5m2
  | 8 => some .p8s8 | 9 => some .p8n8 | 10 => some .p4s16 | 11 => some .p4n16 | 12 => some .p2s32
  | 13 => some .p2n32 | _ => none

/-- R91. -/
def Rm.code : Rm → Nat
  | .dyn => 0 | .rne => 1 | .rtz => 2 | .rdn => 3 | .rup => 4 | .rna => 5

def Rm.ofCode : Nat → Option Rm
  | 0 => some .dyn | 1 => some .rne | 2 => some .rtz | 3 => some .rdn | 4 => some .rup | 5 => some .rna | _ => none

/-- R258. -/
def ShflMode.code : ShflMode → BitVec 2
  | .idx => 0 | .up => 1 | .down => 2 | .xor => 3

def ShflMode.ofCode (c : BitVec 2) : ShflMode :=
  if c = 0 then .idx else if c = 1 then .up else if c = 2 then .down else .xor

def VoteMode.code : VoteMode → BitVec 2
  | .all => 0 | .any => 1 | .ballot => 2 | .uni => 3

def VoteMode.ofCode (c : BitVec 2) : VoteMode :=
  if c = 0 then .all else if c = 1 then .any else if c = 2 then .ballot else .uni

def RedOp.code : RedOp → Nat
  | .add => 0 | .min => 1 | .max => 2 | .minu => 3 | .maxu => 4 | .and => 5 | .or => 6 | .xor => 7 | .fadd => 8

def RedOp.ofCode : Nat → Option RedOp
  | 0 => some .add | 1 => some .min | 2 => some .max | 3 => some .minu | 4 => some .maxu | 5 => some .and
  | 6 => some .or | 7 => some .xor | 8 => some .fadd | _ => none

/-- R250. -/
def MemSize.code : MemSize → Nat
  | .b => 0 | .h => 1 | .w => 2 | .d => 3 | .q => 4

def MemSize.ofCode : Nat → Option MemSize
  | 0 => some .b | 1 => some .h | 2 => some .w | 3 => some .d | 4 => some .q | _ => none

def AmoSize.code : AmoSize → Nat
  | .w => 2 | .d => 3

def AmoSize.ofCode : Nat → Option AmoSize
  | 2 => some .w | 3 => some .d | _ => none

/-- R197. -/
def Ord.code : Ord → Nat
  | .plain => 0 | .acq => 1 | .rel => 2 | .ar => 3 | .racq => 4 | .inv => 6

def Ord.ofCode : Nat → Option Ord
  | 0 => some .plain | 1 => some .acq | 2 => some .rel | 3 => some .ar | 4 => some .racq | 6 => some .inv | _ => none

/-- R195. -/
def Scope.code : Scope → Nat
  | .cw => 0 | .co => 1 | .gg => 2 | .di => 3 | .dv => 4 | .sy => 5

def Scope.ofCode : Nat → Option Scope
  | 0 => some .cw | 1 => some .co | 2 => some .gg | 3 => some .di | 4 => some .dv | 5 => some .sy | _ => none

/-- R439. -/
def PrefKind.code : PrefKind → Nat
  | .ld => 0 | .st => 1 | .l2 => 2

def PrefKind.ofCode : Nat → Option PrefKind
  | 0 => some .ld | 1 => some .st | 2 => some .l2 | _ => none

/-- R371. -/
def BrHint.code : BrHint → Nat
  | .none => 0 | .t => 1 | .nt => 2

def BrHint.ofCode : Nat → Option BrHint
  | 0 => some .none | 1 => some .t | 2 => some .nt | _ => Option.none

/-- R407. -/
def JalrHint.code : JalrHint → Nat
  | .none => 0 | .call => 1 | .ret => 2

def JalrHint.ofCode : Nat → Option JalrHint
  | 0 => some .none | 1 => some .call | 2 => some .ret | _ => Option.none

/-- R267. -/
def SysReg.code : SysReg → Nat
  | .tid => 0x001 | .lane => 0x002 | .gang => 0x003 | .gsize => 0x004 | .crew => 0x005 | .core => 0x006
  | .die => 0x007 | .tstat => 0x010 | .tvec => 0x011 | .tepc => 0x012 | .tcause => 0x013 | .tval => 0x014
  | .tscratch => 0x015 | .fflags => 0x020 | .ftrapen => 0x021 | .frm => 0x022 | .fid => 0x030 | .fidcap => 0x031
  | .regcnt => 0x040 | .loambase => 0x041 | .loamva => 0x042 | .ocLd => 0x050 | .ocSt => 0x051 | .ocCp => 0x052
  | .ocTile => 0x053 | .kquota => 0x060 | .kused => 0x061 | .hbase => 0x100 | .hlimit => 0x101 | .hoff => 0x102
  | .hattr => 0x103 | .pgroot => 0x104 | .hzc0 => 0x200 | .hzc1 => 0x201 | .hzc2 => 0x202 | .hzc3 => 0x203
  | .cyc => 0x300

def SysReg.ofCode : Nat → Option SysReg
  | 0x001 => some .tid | 0x002 => some .lane | 0x003 => some .gang | 0x004 => some .gsize | 0x005 => some .crew
  | 0x006 => some .core | 0x007 => some .die | 0x010 => some .tstat | 0x011 => some .tvec | 0x012 => some .tepc
  | 0x013 => some .tcause | 0x014 => some .tval | 0x015 => some .tscratch | 0x020 => some .fflags
  | 0x021 => some .ftrapen | 0x022 => some .frm | 0x030 => some .fid | 0x031 => some .fidcap
  | 0x040 => some .regcnt | 0x041 => some .loambase | 0x042 => some .loamva | 0x050 => some .ocLd
  | 0x051 => some .ocSt | 0x052 => some .ocCp | 0x053 => some .ocTile | 0x060 => some .kquota
  | 0x061 => some .kused | 0x100 => some .hbase | 0x101 => some .hlimit | 0x102 => some .hoff
  | 0x103 => some .hattr | 0x104 => some .pgroot | 0x200 => some .hzc0 | 0x201 => some .hzc1
  | 0x202 => some .hzc2 | 0x203 => some .hzc3 | 0x300 => some .cyc | _ => none

/-- A predicate number in a 6-bit register field (R251). -/
def predReg (p : Pred) : BitVec 6 := (0 : BitVec 3) ++ p

/-! ### Decoding -/

/-- A decoder's answer. -/
abbrev Decoded := Except DecodeError Instr

def need (c : Bool) (e : DecodeError) (k : Decoded) : Decoded := if c then k else .error e

/-- The fields that a form marks zero are zero. -/
def zeros (c : Bool) (k : Decoded) : Decoded := need c .reservedField k

/-- A field holds one of its assigned values. -/
def code {α : Type} (o : Option α) (k : α → Decoded) : Decoded :=
  match o with
  | some x => k x
  | none => .error .reservedValue

/-- A predicate number in a register field: the upper bits are zero (R251). -/
def pred (r : BitVec 6) (k : Pred → Decoded) : Decoded :=
  need (r.extractLsb' 3 3 == 0) .reservedValue (k (r.extractLsb' 0 3))

/-- Major 0x01 (R253). -/
def decodeInt (w : BitVec 64) (g : Guard) : Decoded :=
  let d := fD w; let a := fA w; let b := fB w; let m := fMod w
  zeros (fC w == 0 && fRm w == 0 && fTy w == 0) <|
  match (fFn w).toNat with
  | 0x01 => zeros (m == 0) (.ok (.add g d a b))
  | 0x02 => zeros (m == 0) (.ok (.sub g d a b))
  | 0x03 => zeros (m == 0) (.ok (.addw g d a b))
  | 0x04 => zeros (m == 0) (.ok (.subw g d a b))
  | 0x05 => zeros (m == 0) (.ok (.and g d a b))
  | 0x06 => zeros (m == 0) (.ok (.or g d a b))
  | 0x07 => zeros (m == 0) (.ok (.xor g d a b))
  | 0x08 => zeros (m == 0) (.ok (.shl g d a b))
  | 0x09 => zeros (m == 0) (.ok (.shr g d a b))
  | 0x0A => zeros (m == 0) (.ok (.sra g d a b))
  | 0x0B => zeros (m == 0) (.ok (.min g d a b))
  | 0x0C => zeros (m == 0) (.ok (.max g d a b))
  | 0x0D => zeros (m == 0) (.ok (.minu g d a b))
  | 0x0E => zeros (m == 0) (.ok (.maxu g d a b))
  | 0x0F => zeros (m == 0) (.ok (.slt g d a b))
  | 0x10 => zeros (m == 0) (.ok (.sltu g d a b))
  | 0x11 => zeros (m.extractLsb' 3 9 == 0) (.ok (.sel g d a b (m.extractLsb' 0 3)))
  | 0x12 => zeros (m.extractLsb' 3 9 == 0) (.ok (.lea g d a b (m.extractLsb' 0 3)))
  | 0x13 => zeros (b == 0 && m.extractLsb' 6 6 == 0) (.ok (.sext g d a (m.extractLsb' 0 6)))
  | 0x14 => zeros (b == 0 && m.extractLsb' 6 6 == 0) (.ok (.zext g d a (m.extractLsb' 0 6)))
  | 0x15 => zeros (b == 0 && m == 0) (.ok (.clz g d a))
  | 0x16 => zeros (b == 0 && m == 0) (.ok (.popc g d a))
  | 0x17 => zeros (b == 0 && m == 0) (.ok (.brev g d a))
  | 0x18 => zeros (b == 0) <|
      need (decide ((m.extractLsb' 0 6).toNat + ((m.extractLsb' 6 6).toNat + 1) ≤ 64)) .reservedValue
        (.ok (.bfx g d a (m.extractLsb' 0 6) (m.extractLsb' 6 6)))
  | 0x19 =>
      need (decide ((m.extractLsb' 0 6).toNat + ((m.extractLsb' 6 6).toNat + 1) ≤ 64)) .reservedValue
        (.ok (.bfi g d a b (m.extractLsb' 0 6) (m.extractLsb' 6 6)))
  | _ => .error .reservedFunction

/-- Major 0x02 (R253). -/
def decodeMuldiv (w : BitVec 64) (g : Guard) : Decoded :=
  let d := fD w; let a := fA w; let b := fB w
  zeros (fC w == 0 && fRm w == 0 && fTy w == 0 && fMod w == 0) <|
  match (fFn w).toNat with
  | 0x01 => .ok (.mul g d a b)
  | 0x02 => .ok (.mulh g d a b)
  | 0x03 => .ok (.mulhu g d a b)
  | 0x04 => .ok (.div g d a b)
  | 0x05 => .ok (.divu g d a b)
  | 0x06 => .ok (.rem g d a b)
  | 0x07 => .ok (.remu g d a b)
  | _ => .error .reservedFunction

/-- An immediate form with b and bits [33:32] zero (R254). -/
def immForm (w : BitVec 64) (k : Decoded) : Decoded := zeros (fB w == 0 && fTop2 w == 0) k

/-- A shift by an immediate: imm[31:6] zero (R458). -/
def shiftForm (w : BitVec 64) (k : BitVec 6 → Decoded) : Decoded :=
  immForm w (zeros ((fImm w).extractLsb' 6 26 == 0) (k ((fImm w).extractLsb' 0 6)))

/-- Majors 0x20 to 0x23 (R255). -/
def decodePcmp (w : BitVec 64) (g : Guard) : Decoded :=
  zeros (fC w == 0 && fRm w == 0 && fTy w == 0 && fMod w == 0) <|
  code (Cond.ofCode (fFn w).toNat) fun cc => pred (fD w) fun d => .ok (.pcmp g cc d (fA w) (fB w))

def decodePcmpi (w : BitVec 64) (g : Guard) : Decoded :=
  zeros (fTop2 w == 0) <|
  code (Cond.ofCode (fB w).toNat) fun cc => pred (fD w) fun d => .ok (.pcmpi g cc d (fA w) (fImm w))

def decodePlop (w : BitVec 64) (g : Guard) : Decoded :=
  zeros (fFn w == 0 && fRm w == 0 && fTy w == 0 && (fMod w).extractLsb' 8 4 == 0) <|
  pred (fD w) fun d => pred (fA w) fun a => pred (fB w) fun b => pred (fC w) fun c =>
    .ok (.plop g d a b c ((fMod w).extractLsb' 0 8))

def decodeFcmp (w : BitVec 64) (g : Guard) : Decoded :=
  zeros (fC w == 0 && fRm w == 0 && fMod w == 0) <|
  code (FCond.ofCode (fFn w).toNat) fun cc => code (FloatCode.ofCode (fTy w).toNat) fun t =>
    pred (fD w) fun d => .ok (.fcmp g cc t d (fA w) (fB w))

/-- Major 0x30 (R256, R387). -/
def decodeFp (w : BitVec 64) (g : Guard) : Decoded :=
  let d := fD w; let a := fA w; let b := fB w; let c := fC w
  zeros (fMod w == 0) <|
  code (FType.ofCode (fTy w).toNat) fun t => code (Rm.ofCode (fRm w).toNat) fun rm =>
  match (fFn w).toNat with
  | 0x01 => zeros (c == 0) (.ok (.fadd g t rm d a b))
  | 0x02 => zeros (c == 0) (.ok (.fsub g t rm d a b))
  | 0x03 => zeros (c == 0) (.ok (.fmul g t rm d a b))
  | 0x04 => .ok (.ffma g t rm d a b c)
  | 0x05 => zeros (c == 0 && rm == .dyn) (.ok (.fmin g t d a b))
  | 0x06 => zeros (c == 0 && rm == .dyn) (.ok (.fmax g t d a b))
  | 0x07 => zeros (c == 0) (.ok (.fdiv g t rm d a b))
  | 0x08 => zeros (c == 0 && b == 0) (.ok (.fsqrt g t rm d a))
  | 0x09 => zeros (c == 0 && b == 0) (.ok (.frcp g t rm d a))
  | 0x0A => zeros (c == 0 && b == 0) (.ok (.frsq g t rm d a))
  | 0x0B => zeros (c == 0 && b == 0) (.ok (.fexp2 g t rm d a))
  | 0x0C => zeros (c == 0 && b == 0) (.ok (.flog2 g t rm d a))
  | 0x0D => zeros (c == 0 && b == 0 && rm == .dyn) (.ok (.fclass g t d a))
  | _ => .error .reservedFunction

/-- Major 0x40 (R257, R393, R433). -/
def decodeCvt (w : BitVec 64) (g : Guard) : Decoded :=
  let d := fD w; let a := fA w; let m := fMod w
  zeros (fB w == 0 && fC w == 0) <|
  code (Rm.ofCode (fRm w).toNat) fun rm =>
  match (fFn w).toNat with
  | 0x01 => zeros (m.extractLsb' 4 8 == 0) <|
      code (FloatCode.ofCode (fTy w).toNat) fun dst => code (FloatCode.ofCode (m.extractLsb' 0 4).toNat) fun src =>
        .ok (.fcvt g dst src rm d a)
  | 0x02 => zeros (m.extractLsb' 5 7 == 0) <|
      code (FloatCode.ofCode (fTy w).toNat) fun f => code (IntCode.ofCode (m.extractLsb' 0 4).toNat) fun ic =>
        .ok (.icvt g (m.extractLsb' 4 1 == 1) f ic rm d a)
  | 0x03 => zeros (m.extractLsb' 7 5 == 0) <|
      code (PackedCode.ofCode (fTy w).toNat) fun dst => code (PackedCode.ofCode (m.extractLsb' 0 4).toNat) fun src =>
        need (rmOk (dst.isInt && src.isInt) rm && partOk dst src (m.extractLsb' 4 3)) .reservedValue
          (.ok (.pcvt g dst src rm (m.extractLsb' 4 3) d a))
  | _ => .error .reservedFunction

/-- Major 0x41 (R257, R435). -/
def decodePack (w : BitVec 64) (g : Guard) : Decoded :=
  zeros (fMod w == 0) <|
  code (Rm.ofCode (fRm w).toNat) fun rm => code (PackedCode.ofCode (fTy w).toNat) fun t =>
  match (fFn w).toNat with
  | 0x01 => need (t.forPfma && rmOk t.isInt rm) .reservedValue (.ok (.pfma g t rm (fD w) (fA w) (fB w) (fC w)))
  | 0x02 => need (t.forPdot && rmOk t.isInt rm) .reservedValue (.ok (.pdot g t rm (fD w) (fA w) (fB w) (fC w)))
  | _ => .error .reservedFunction

/-- The type field of REDB and SCANB: 0 FP32, 1 FP64 (R443). -/
def redType : Nat → Option Bool
  | 0 => some false
  | 1 => some true
  | _ => none

/-- Major 0x50 (R258, R443, R451, R456, R474). -/
def decodeXlane (w : BitVec 64) (g : Guard) : Decoded :=
  let d := fD w; let a := fA w; let b := fB w; let c := fC w; let m := fMod w
  match (fFn w).toNat with
  | 0x01 => zeros (fRm w == 0 && fTy w == 0 && m.extractLsb' 2 10 == 0)
      (.ok (.shfl g (ShflMode.ofCode (m.extractLsb' 0 2)) d a b c))
  | 0x02 => zeros (fRm w == 0 && fTy w == 0 && b == 0 && m.extractLsb' 5 7 == 0 &&
        (match VoteMode.ofCode (m.extractLsb' 0 2) with | .uni => m.extractLsb' 2 3 == 0 | _ => a == 0))
      (.ok (.vote g (VoteMode.ofCode (m.extractLsb' 0 2)) (m.extractLsb' 2 3) d a c))
  | 0x03 => zeros (b == 0 && m.extractLsb' 4 8 == 0) <|
      code (RedOp.ofCode (m.extractLsb' 0 4).toNat) fun op => code (redType (fTy w).toNat) fun dbl =>
      code (Rm.ofCode (fRm w).toNat) fun rm =>
        need (redOk op dbl rm) .reservedValue (.ok (.redb g op dbl rm d a c))
  | 0x04 => zeros (b == 0 && m.extractLsb' 5 7 == 0) <|
      code (RedOp.ofCode (m.extractLsb' 0 4).toNat) fun op => code (redType (fTy w).toNat) fun dbl =>
      code (Rm.ofCode (fRm w).toNat) fun rm =>
        need (redOk op dbl rm) .reservedValue (.ok (.scanb g (m.extractLsb' 4 1 == 1) op dbl rm d a c))
  | _ => .error .reservedFunction

/-- Majors 0x60, 0x61, 0x64 (R417, R464, R439). -/
def decodeLd (w : BitVec 64) (g : Guard) : Decoded :=
  zeros (fB w == 0) <|
  code (MemSize.ofCode (fSz w).toNat) fun sz => code (Ord.ofCode (fOrd w).toNat) fun o =>
  code (Scope.ofCode (fSc w).toNat) fun sc =>
    need (sz.sxOk (fSx w == 1) && o.forLd && sz.regOk (fD w)) .reservedValue
      (.ok (.ld g sz (fSx w == 1) o sc (fD w) (fA w) (fOff w)))

def decodeSt (w : BitVec 64) (g : Guard) : Decoded :=
  zeros (fB w == 0 && fSx w == 0) <|
  code (MemSize.ofCode (fSz w).toNat) fun sz => code (Ord.ofCode (fOrd w).toNat) fun o =>
  code (Scope.ofCode (fSc w).toNat) fun sc =>
    need (o.forSt && sz.regOk (fD w)) .reservedValue (.ok (.st g sz o sc (fD w) (fA w) (fOff w)))

def decodePref (w : BitVec 64) (g : Guard) : Decoded :=
  zeros (fB w == 0 && fD w == 0 && fSx w == 0 && fOrd w == 0 && fSc w == 0) <|
  code (PrefKind.ofCode (fSz w).toNat) fun k => .ok (.pref g k (fA w) (fOff w))

/-- Majors 0x62 and 0x63 (R365, R372). -/
def decodeAmo (w : BitVec 64) (g : Guard) : Decoded :=
  let d := fD w; let a := fA w; let b := fB w
  zeros (fC w == 0 && fALow w == 0) <|
  code (AmoSize.ofCode (fASz w).toNat) fun sz => code (Ord.ofCode (fAOrd w).toNat) fun o =>
  code (Scope.ofCode (fASc w).toNat) fun sc => need o.forAmo .reservedValue <|
  match (fFn w).toNat with
  | 0x01 => .ok (.amoAdd g sz o sc d a b)
  | 0x02 => .ok (.amoAnd g sz o sc d a b)
  | 0x03 => .ok (.amoOr g sz o sc d a b)
  | 0x04 => .ok (.amoXor g sz o sc d a b)
  | 0x05 => .ok (.amoMin g sz o sc d a b)
  | 0x06 => .ok (.amoMax g sz o sc d a b)
  | 0x07 => .ok (.amoMinu g sz o sc d a b)
  | 0x08 => .ok (.amoMaxu g sz o sc d a b)
  | 0x09 => .ok (.amoSwap g sz o sc d a b)
  | 0x0A => need (sz == .w) .reservedValue (.ok (.amoFadd g o sc d a b))
  | _ => .error .reservedFunction

def decodeCas (w : BitVec 64) (g : Guard) : Decoded :=
  zeros (fFn w == 0 && fALow w == 0) <|
  code (AmoSize.ofCode (fASz w).toNat) fun sz => code (Ord.ofCode (fAOrd w).toNat) fun o =>
  code (Scope.ofCode (fASc w).toNat) fun sc => need o.forAmo .reservedValue
    (.ok (.cas g sz o sc (fD w) (fA w) (fB w) (fC w)))

/-- Majors 0x70 to 0x73 (R201, R303, R208, R405). -/
def decodeFence (w : BitVec 64) (g : Guard) : Decoded :=
  let y := fSys w
  zeros (fD w == 0 && fA w == 0 && fB w == 0 && fImm22 w == 0 && y.extractLsb' 8 4 == 0) <|
  code (Scope.ofCode (y.extractLsb' 0 3).toNat) fun sc =>
    let f : FenceSpec := ⟨y.extractLsb' 7 1 == 1, y.extractLsb' 6 1 == 1, y.extractLsb' 5 1 == 1,
      y.extractLsb' 4 1 == 1, y.extractLsb' 3 1 == 1, sc⟩
    need f.wf .reservedValue (.ok (.fence g f))

/-- A word whose bits [51:0] are all zero (OPFENCE, IFENCE, EXIT, BKOFF, NOP, GBAR, ERET, SLEEP, TFENCE). -/
def bare (w : BitVec 64) (i : Instr) : Decoded := zeros (w.extractLsb' 0 52 == 0) (.ok i)

/-- Majors 0x74 to 0x76 (R377, R403). -/
def decodeCacheOp (w : BitVec 64) (k : Scope → Instr) : Decoded :=
  zeros (fD w == 0 && fB w == 0 && fSz w == 0 && fSx w == 0 && fOrd w == 0) <|
  code (Scope.ofCode (fSc w).toNat) fun sc => .ok (k sc)

/-- Majors 0x80 to 0x82 (R371, R406, R407). -/
def decodeBr (w : BitVec 64) (g : Guard) : Decoded :=
  zeros (fD w == 0 && fA w == 0 && fB w == 0) <|
  code (BrHint.ofCode (fTop2 w).toNat) fun h => .ok (.br g h (fImm w))

def decodeJal (w : BitVec 64) (g : Guard) : Decoded :=
  zeros (fA w == 0 && fB w == 0) <|
  need (fTop2 w == 0 || fTop2 w == 1) .reservedValue (.ok (.jal g (fTop2 w == 1) (fD w) (fImm w)))

def decodeJalr (w : BitVec 64) (g : Guard) : Decoded :=
  zeros (fTop2 w == 0 && (fB w).extractLsb' 2 4 == 0) <|
  code (JalrHint.ofCode ((fB w).extractLsb' 0 2).toNat) fun h => .ok (.jalr g h (fD w) (fA w) (fImm w))

/-- Major 0x83 (R408). -/
def decodeJoin (w : BitVec 64) (g : Guard) : Decoded :=
  let n : Pred := (fMod w).extractLsb' 0 3
  zeros (fD w == 0 && fA w == 0 && fB w == 0 && fC w == 0 && fRm w == 0 && fTy w == 0 &&
    (fMod w).extractLsb' 3 9 == 0) <|
  match (fFn w).toNat with
  | 0x01 => .ok (.joinEnr g n)
  | 0x02 => .ok (.joinWait g n)
  | 0x03 => .ok (.joinStrike g n)
  | 0x04 => .ok (.joinRst g n)
  | _ => .error .reservedFunction

/-- A format-I word with d, a, b and bits [33:32] zero. -/
def immOnly (w : BitVec 64) (k : BitVec 32 → Decoded) : Decoded :=
  zeros (fD w == 0 && fA w == 0 && fB w == 0 && fTop2 w == 0) (k (fImm w))

def decodeYield (w : BitVec 64) (g : Guard) : Decoded :=
  immOnly w fun imm => zeros (imm.extractLsb' 1 31 == 0)
    (.ok (if imm.extractLsb' 0 1 == 1 then .yieldH g else .yield g))

def decodeWaitc (w : BitVec 64) (g : Guard) : Decoded :=
  immOnly w fun imm => zeros (imm.extractLsb' 20 12 == 0)
    (.ok (.waitc g (imm.extractLsb' 0 6) (imm.extractLsb' 6 6) (imm.extractLsb' 12 4) (imm.extractLsb' 16 4)))

/-- Majors 0x91 to 0x93 (R374). -/
def decodeCbwait (w : BitVec 64) (g : Guard) : Decoded :=
  let imm := fImm w
  zeros (fA w == 0 && fB w == 0 && fTop2 w == 0 && imm.extractLsb' 5 27 == 0)
    (.ok (if imm.extractLsb' 4 1 == 1 then .cbwaitProd g (fD w) (imm.extractLsb' 0 4)
      else .cbwait g (fD w) (imm.extractLsb' 0 4)))

def decodeCb (w : BitVec 64) (k : BitVec 4 → Instr) : Decoded :=
  immOnly w fun imm => zeros (imm.extractLsb' 4 28 == 0) (.ok (k (imm.extractLsb' 0 4)))

/-- Major 0xA0 (R422). -/
def decodeMigrate (w : BitVec 64) (g : Guard) : Decoded :=
  zeros (fB w == 0 && fC w == 0 && fRm w == 0 && fTy w == 0 && fMod w == 0) <|
  match (fFn w).toNat with
  | 0x01 => .ok (.migrateTosimt g (fD w) (fA w))
  | 0x02 => zeros (fA w == 0) (.ok (.migrateTolat g (fD w)))
  | _ => .error .reservedFunction

/-- Majors 0xA2 and 0xA3 (R71): n is 8, 16, 24, 32, 40 or 48. -/
def decodeGrow (w : BitVec 64) (k : BitVec 3 → Instr) : Decoded :=
  immOnly w fun imm =>
    let n8 := imm.extractLsb' 3 3
    need (imm.extractLsb' 6 26 == 0 && imm.extractLsb' 0 3 == 0 && decide (1 ≤ n8.toNat) && decide (n8.toNat ≤ 6))
      .reservedValue (.ok (k n8))

/-- Major 0xA4 (R460, R76). -/
def decodeShmap (w : BitVec 64) (g : Guard) : Decoded :=
  let imm := fImm w
  zeros (fB w == 0 && fTop2 w == 0 && imm.extractLsb' 14 18 == 0 && imm.extractLsb' 5 3 == 0) <|
  need (decide ((imm.extractLsb' 0 5).toNat ≤ 16)) .reservedValue
    (.ok (.shmap g (fD w) (fA w) (imm.extractLsb' 8 6) (imm.extractLsb' 0 5)))

/-- Majors 0xA5 and 0xA6 (R454). -/
def decodeSetf (w : BitVec 64) (k : Reg → Reg → Instr) : Decoded :=
  zeros (w.extractLsb' 0 40 == 0) (.ok (k (fD w) (fA w)))

/-- Major 0xA7 (R447). -/
def decodeScall (w : BitVec 64) (g : Guard) : Decoded :=
  let n : BitVec 12 := (fImm w).extractLsb' 20 12
  let v : BitVec 20 := (fImm w).extractLsb' 0 20
  let b := fB w
  zeros (fD w == 0 && fA w == 0 && fTop2 w == 0 && b.extractLsb' 2 4 == 0) <|
  if b.extractLsb' 0 2 == 0 then zeros (v == 0) (.ok (.scall g n))
  else if b.extractLsb' 0 2 == 1 then zeros (v == 0) (.ok (.scallNs g n))
  else if b.extractLsb' 0 2 == 2 then .ok (.scallOv g n v)
  else .error .reservedValue

def decodeFidset (w : BitVec 64) (g : Guard) : Decoded :=
  immOnly w fun imm => zeros (imm.extractLsb' 4 28 == 0) (.ok (.fidset g (imm.extractLsb' 0 4)))

/-- Major 0xB0 (R218, R219). -/
def decodeMma (w : BitVec 64) (g : Guard) : Decoded :=
  let fl := fFlags w; let i16 := fImm16 w
  zeros (fD w == 0 && fC w == 0 && fl.extractLsb' 3 3 == 0 && i16.extractLsb' 8 8 == 0) <|
  let m : MmaFields := ⟨fRing w, fl.extractLsb' 2 1 == 1, fl.extractLsb' 1 1 == 1, fRm w,
    i16.extractLsb' 0 4, i16.extractLsb' 4 4⟩
  need m.wf .reservedValue
    (.ok (if fl.extractLsb' 0 1 == 1 then .mmaK g m (fA w) (fB w) else .mmaT g m (fA w) (fB w)))

/-- Major 0xB1 (R225, R441). -/
def decodeRadv (w : BitVec 64) (g : Guard) : Decoded :=
  let m := fMod w
  let ring : BitVec 2 := m.extractLsb' 0 2
  zeros (fA w == 0 && fB w == 0 && fC w == 0 && fRm w == 0 && fTy w == 0 && m.extractLsb' 4 8 == 0) <|
  match (fFn w).toNat with
  | 0x01 => zeros (fD w == 0 && m.extractLsb' 2 2 == 0) (.ok (.radv g ring))
  | 0x02 => .ok (.radvCfg g (fD w) ring (m.extractLsb' 2 2))
  | 0x03 => zeros (m.extractLsb' 2 2 == 0) (.ok (.radvTail g (fD w) ring))
  | 0x04 => zeros (fD w == 0 && m.extractLsb' 2 2 == 0) (.ok (.radvRel g ring))
  | 0x05 => zeros (fD w == 0 && m.extractLsb' 2 2 == 0) (.ok (.radvFree g ring))
  | _ => .error .reservedFunction

/-- Majors 0xB2 to 0xB7 (R238): c, fn, rm and ty zero. -/
def kForm (w : BitVec 64) (k : Decoded) : Decoded :=
  zeros (fC w == 0 && fFn w == 0 && fRm w == 0 && fTy w == 0) k

def decodeKalloc (w : BitVec 64) (g : Guard) : Decoded :=
  let m := fMod w
  kForm w (zeros (fB w == 0 && m.extractLsb' 2 10 == 0)
    (.ok (.kalloc g (m.extractLsb' 1 1 == 1) (m.extractLsb' 0 1 == 1) (fD w) (fA w))))

def decodeKpin (w : BitVec 64) (g : Guard) : Decoded :=
  let m := fMod w
  kForm w (zeros (fD w == 0 && fB w == 0 && m.extractLsb' 1 11 == 0)
    (.ok (if m.extractLsb' 0 1 == 1 then .kpinOff g (fA w) else .kpin g (fA w))))

def decodeCbkld (w : BitVec 64) (g : Guard) : Decoded :=
  let m := fMod w
  kForm w (zeros (m.extractLsb' 6 6 == 0) (.ok (.cbkld g (fD w) (fA w) (fB w) (m.extractLsb' 0 6))))

/-- Major 0xC0 (R379). -/
def decodeEngo (w : BitVec 64) (g : Guard) : Decoded :=
  let y := fSys w
  zeros (fD w == 0 && fB w == 0 && fImm22 w == 0 && y.extractLsb' 6 6 == 0) <|
  code (Scope.ofCode (y.extractLsb' 0 3).toNat) fun sc =>
  if y.extractLsb' 3 2 == 0 then need (y.extractLsb' 5 1 == 0) .reservedValue (.ok (.engoCopy g sc (fA w)))
  else if y.extractLsb' 3 2 == 1 then need (y.extractLsb' 5 1 == 0) .reservedValue (.ok (.engoEpi g sc (fA w)))
  else if y.extractLsb' 3 2 == 2 then .ok (.engoNet g (y.extractLsb' 5 1 == 1) sc (fA w))
  else .error .reservedValue

/-- Major 0xC1 (R382). -/
def decodeEngq (w : BitVec 64) (g : Guard) : Decoded :=
  zeros (fB w == 0 && fSys w == 0 && fImm22 w == 0) (.ok (.engq g (fD w) (fA w)))

/-- Majors 0xD0 and 0xD1 (R469). -/
def decodeSysrd (w : BitVec 64) (g : Guard) : Decoded :=
  zeros (fA w == 0 && fB w == 0 && fImm22 w == 0) <|
  code (SysReg.ofCode (fSys w).toNat) fun r => .ok (.sysrd g r (fD w))

def decodeSyswr (w : BitVec 64) (g : Guard) : Decoded :=
  zeros (fD w == 0 && fB w == 0 && fImm22 w == 0) <|
  code (SysReg.ofCode (fSys w).toNat) fun r => need (!r.readOnly) .reservedValue (.ok (.syswr g r (fA w)))

/-- Majors 0xD3 and 0xD4 (R303). -/
def decodeTrap (w : BitVec 64) (k : BitVec 16 → Instr) : Decoded :=
  immOnly w fun imm => zeros (imm.extractLsb' 16 16 == 0) (.ok (k (imm.extractLsb' 0 16)))

/-- Major 0xD5 (R162). -/
def decodeTlbinv (w : BitVec 64) (g : Guard) : Decoded :=
  let sz : BitVec 3 := (fMod w).extractLsb' 0 3
  zeros (fD w == 0 && fC w == 0 && fRm w == 0 && fTy w == 0 && (fMod w).extractLsb' 3 9 == 0) <|
  match (fFn w).toNat with
  | 0x01 => need (sz != 0) .reservedValue (.ok (.tlbinvPg g (fA w) (fB w) sz))
  | 0x02 => zeros (fA w == 0 && sz == 0) (.ok (.tlbinvAs g (fB w)))
  | 0x03 => zeros (fA w == 0 && fB w == 0 && sz == 0) (.ok (.tlbinvAll g))
  | 0x04 => zeros (fB w == 0) (need (sz != 0) .reservedValue (.ok (.tlbinvPga g (fA w) sz)))
  | _ => .error .reservedFunction

/-- The major opcodes of R252. -/
def decodeMajor (w : BitVec 64) (g : Guard) : Decoded :=
  let d := fD w; let a := fA w; let imm := fImm w
  match (fOp w).toNat with
  | 0x01 => decodeInt w g
  | 0x02 => decodeMuldiv w g
  | 0x10 => immForm w (.ok (.addi g d a imm))
  | 0x11 => immForm w (.ok (.andi g d a imm))
  | 0x12 => immForm w (.ok (.ori g d a imm))
  | 0x13 => immForm w (.ok (.xori g d a imm))
  | 0x14 => shiftForm w fun n => .ok (.shli g d a n)
  | 0x15 => shiftForm w fun n => .ok (.shri g d a n)
  | 0x16 => shiftForm w fun n => .ok (.srai g d a n)
  | 0x17 => immForm w (.ok (.slti g d a imm))
  | 0x18 => immForm w (zeros (a == 0) (.ok (.movi g d imm)))
  | 0x19 => immForm w (zeros (a == 0) (.ok (.movhi g d imm)))
  | 0x20 => decodePcmp w g
  | 0x21 => decodePcmpi w g
  | 0x22 => decodePlop w g
  | 0x23 => decodeFcmp w g
  | 0x30 => decodeFp w g
  | 0x40 => decodeCvt w g
  | 0x41 => decodePack w g
  | 0x50 => decodeXlane w g
  | 0x60 => decodeLd w g
  | 0x61 => decodeSt w g
  | 0x62 => decodeAmo w g
  | 0x63 => decodeCas w g
  | 0x64 => decodePref w g
  | 0x70 => decodeFence w g
  | 0x71 => bare w (.tfence g)
  | 0x72 => bare w (.opfence g)
  | 0x73 => bare w (.ifence g)
  | 0x74 => decodeCacheOp w fun sc => .cwb g sc a (fOff w)
  | 0x75 => decodeCacheOp w fun sc => .cinv g sc a (fOff w)
  | 0x76 => decodeCacheOp w fun sc => .icinv g sc a (fOff w)
  | 0x80 => decodeBr w g
  | 0x81 => decodeJal w g
  | 0x82 => decodeJalr w g
  | 0x83 => decodeJoin w g
  | 0x84 => decodeYield w g
  | 0x85 => bare w (.exit g)
  | 0x86 => bare w (.bkoff g)
  | 0x87 => bare w (.nop g)
  | 0x90 => decodeWaitc w g
  | 0x91 => decodeCbwait w g
  | 0x92 => decodeCb w fun k => .cbpop g k
  | 0x93 => decodeCb w fun k => .cbpush g k
  | 0xA0 => decodeMigrate w g
  | 0xA1 => bare w (.gbar g)
  | 0xA2 => decodeGrow w fun n8 => .grow g n8
  | 0xA3 => decodeGrow w fun n8 => .shrink g n8
  | 0xA4 => decodeShmap w g
  | 0xA5 => decodeSetf w fun d a => .setf g d a
  | 0xA6 => decodeSetf w fun d a => .takef g d a
  | 0xA7 => decodeScall w g
  | 0xA8 => decodeFidset w g
  | 0xB0 => decodeMma w g
  | 0xB1 => decodeRadv w g
  | 0xB2 => decodeKalloc w g
  | 0xB3 => kForm w (zeros (fMod w == 0) (.ok (.kfill g d a (fB w))))
  | 0xB4 => decodeKpin w g
  | 0xB5 => kForm w (zeros (d == 0 && fB w == 0 && fMod w == 0) (.ok (.krev g a)))
  | 0xB6 => kForm w (zeros (fB w == 0 && fMod w == 0) (.ok (.kstat g d a)))
  | 0xB7 => decodeCbkld w g
  | 0xC0 => decodeEngo w g
  | 0xC1 => decodeEngq w g
  | 0xD0 => decodeSysrd w g
  | 0xD1 => decodeSyswr w g
  | 0xD2 => bare w (.eret g)
  | 0xD3 => decodeTrap w fun n => .trap g n
  | 0xD4 => decodeTrap w fun n => .bkpt g n
  | 0xD5 => decodeTlbinv w g
  | 0xD6 => bare w (.sleep g)
  | _ => .ok (.reservedMajorOpcode w)

/-- The instruction that a word holds, or why it holds none (R246 to R252). -/
def decode (w : BitVec 64) : Decoded :=
  need (!guardReserved w) .reservedGuard (decodeMajor w (fGuard w))

/-- Bytes as they stand in memory, first at the lowest address, as a number (R19). -/
def bytesToNat : List Byte → Nat
  | [] => 0
  | b :: bs => b.toNat + 256 * bytesToNat bs

/-- Decoding from bytes: eight bytes make one word (R246); fewer are rejected. -/
def decodeBytes (bs : List Byte) : Decoded :=
  need (decide (8 ≤ bs.length)) .truncated (decode (BitVec.ofNat 64 (bytesToNat (bs.take 8))))

/-- A word of the table's width, lowest byte first in memory, as the decoder reads it. -/
def wordBytes (w : Nat) : List Byte := (List.range 8).map fun k => BitVec.ofNat 8 (w / 256 ^ k)

/-- The instruction the decoder reads from an instruction whose bits are `w` (its bits above `nbits` are zero). -/
def decodeTableWord (nbits w : Nat) : Option Instr :=
  match decodeBytes (wordBytes (w % 2 ^ nbits)) with
  | .ok i => some i
  | .error _ => none

/-! ### Encoding -/

/-- A fence specification as the sys field holds it (R201). -/
def FenceSpec.code (f : FenceSpec) : BitVec 12 :=
  (0 : BitVec 4) ++ bit f.io ++ bit f.xv ++ bit f.en ++ bit f.st ++ bit f.ld ++ BitVec.ofNat 3 f.sc.code

/-- The word of an MMA (R218). -/
def encodeMma (g : Guard) (k : Bool) (m : MmaFields) (a b : Reg) : BitVec 64 :=
  wX 0xB0 g a b m.ring ((0 : BitVec 3) ++ bit m.z ++ bit m.adv ++ bit k) m.fid ((0 : BitVec 8) ++ m.fb ++ m.fa)

/-- The word of an ENGO (R379). -/
def encodeEngo (g : Guard) (die1 : Bool) (e : BitVec 2) (sc : Scope) (a : Reg) : BitVec 64 :=
  wS 0xC0 g 0 a ((0 : BitVec 6) ++ bit die1 ++ e ++ BitVec.ofNat 3 sc.code)

def encInt (fn : BitVec 8) (g : Guard) (d a b : Reg) (m : BitVec 12) : BitVec 64 := wR 0x01 g d a b 0 fn 0 0 m
def encMul (fn : BitVec 8) (g : Guard) (d a b : Reg) : BitVec 64 := wR 0x02 g d a b 0 fn 0 0 0
def encFp (fn : BitVec 8) (g : Guard) (t : FType) (rm : Rm) (d a b c : Reg) : BitVec 64 :=
  wR 0x30 g d a b c fn (BitVec.ofNat 4 rm.code) (BitVec.ofNat 4 t.code) 0
def encAmo (fn : BitVec 8) (g : Guard) (sz : AmoSize) (o : Ord) (sc : Scope) (d a b : Reg) : BitVec 64 :=
  wA 0x62 g d a b 0 fn (BitVec.ofNat 3 sz.code) (BitVec.ofNat 3 o.code) (BitVec.ofNat 3 sc.code)
def encCacheOp (op : BitVec 8) (g : Guard) (sc : Scope) (a : Reg) (off : BitVec 24) : BitVec 64 :=
  wM op g 0 a 0 0 0 (BitVec.ofNat 3 sc.code) off
def encJoin (fn : BitVec 8) (g : Guard) (n : Pred) : BitVec 64 := wR 0x83 g 0 0 0 0 fn 0 0 ((0 : BitVec 9) ++ n)
def encBare (op : BitVec 8) (g : Guard) : BitVec 64 := wPre op g 0 0 0 0
def encRadv (fn : BitVec 8) (g : Guard) (d : Reg) (ln ring : BitVec 2) : BitVec 64 :=
  wR 0xB1 g d 0 0 0 fn 0 0 ((0 : BitVec 8) ++ ln ++ ring)
def encTlbinv (fn : BitVec 8) (g : Guard) (a b : Reg) (sz : BitVec 3) : BitVec 64 :=
  wR 0xD5 g 0 a b 0 fn 0 0 ((0 : BitVec 9) ++ sz)

/-- The word of a well-formed instruction. A step without an instruction word answers the all-zero word, which is
no encoding of it (WellFormed refuses it). -/
def encode : Instr → BitVec 64
  | .add g d a b => encInt 0x01 g d a b 0
  | .sub g d a b => encInt 0x02 g d a b 0
  | .addw g d a b => encInt 0x03 g d a b 0
  | .subw g d a b => encInt 0x04 g d a b 0
  | .and g d a b => encInt 0x05 g d a b 0
  | .or g d a b => encInt 0x06 g d a b 0
  | .xor g d a b => encInt 0x07 g d a b 0
  | .shl g d a b => encInt 0x08 g d a b 0
  | .shr g d a b => encInt 0x09 g d a b 0
  | .sra g d a b => encInt 0x0A g d a b 0
  | .min g d a b => encInt 0x0B g d a b 0
  | .max g d a b => encInt 0x0C g d a b 0
  | .minu g d a b => encInt 0x0D g d a b 0
  | .maxu g d a b => encInt 0x0E g d a b 0
  | .slt g d a b => encInt 0x0F g d a b 0
  | .sltu g d a b => encInt 0x10 g d a b 0
  | .sel g d a b n => encInt 0x11 g d a b ((0 : BitVec 9) ++ n)
  | .lea g d a b sh => encInt 0x12 g d a b ((0 : BitVec 9) ++ sh)
  | .sext g d a n => encInt 0x13 g d a 0 ((0 : BitVec 6) ++ n)
  | .zext g d a n => encInt 0x14 g d a 0 ((0 : BitVec 6) ++ n)
  | .clz g d a => encInt 0x15 g d a 0 0
  | .popc g d a => encInt 0x16 g d a 0 0
  | .brev g d a => encInt 0x17 g d a 0 0
  | .bfx g d a pos len => encInt 0x18 g d a 0 (len ++ pos)
  | .bfi g d a b pos len => encInt 0x19 g d a b (len ++ pos)
  | .mul g d a b => encMul 0x01 g d a b
  | .mulh g d a b => encMul 0x02 g d a b
  | .mulhu g d a b => encMul 0x03 g d a b
  | .div g d a b => encMul 0x04 g d a b
  | .divu g d a b => encMul 0x05 g d a b
  | .rem g d a b => encMul 0x06 g d a b
  | .remu g d a b => encMul 0x07 g d a b
  | .addi g d a imm => wI 0x10 g d a 0 imm
  | .andi g d a imm => wI 0x11 g d a 0 imm
  | .ori g d a imm => wI 0x12 g d a 0 imm
  | .xori g d a imm => wI 0x13 g d a 0 imm
  | .shli g d a n => wI 0x14 g d a 0 ((0 : BitVec 26) ++ n)
  | .shri g d a n => wI 0x15 g d a 0 ((0 : BitVec 26) ++ n)
  | .srai g d a n => wI 0x16 g d a 0 ((0 : BitVec 26) ++ n)
  | .slti g d a imm => wI 0x17 g d a 0 imm
  | .movi g d imm => wI 0x18 g d 0 0 imm
  | .movhi g d imm => wI 0x19 g d 0 0 imm
  | .pcmp g cc d a b => wR 0x20 g (predReg d) a b 0 (BitVec.ofNat 8 cc.code) 0 0 0
  | .pcmpi g cc d a imm => wI 0x21 g (predReg d) a (BitVec.ofNat 6 cc.code) imm
  | .plop g d a b c lut =>
      wR 0x22 g (predReg d) (predReg a) (predReg b) (predReg c) 0 0 0 ((0 : BitVec 4) ++ lut)
  | .fcmp g cc t d a b => wR 0x23 g (predReg d) a b 0 (BitVec.ofNat 8 cc.code) 0 (BitVec.ofNat 4 t.code) 0
  | .fadd g t rm d a b => encFp 0x01 g t rm d a b 0
  | .fsub g t rm d a b => encFp 0x02 g t rm d a b 0
  | .fmul g t rm d a b => encFp 0x03 g t rm d a b 0
  | .ffma g t rm d a b c => encFp 0x04 g t rm d a b c
  | .fmin g t d a b => encFp 0x05 g t .dyn d a b 0
  | .fmax g t d a b => encFp 0x06 g t .dyn d a b 0
  | .fdiv g t rm d a b => encFp 0x07 g t rm d a b 0
  | .fsqrt g t rm d a => encFp 0x08 g t rm d a 0 0
  | .frcp g t rm d a => encFp 0x09 g t rm d a 0 0
  | .frsq g t rm d a => encFp 0x0A g t rm d a 0 0
  | .fexp2 g t rm d a => encFp 0x0B g t rm d a 0 0
  | .flog2 g t rm d a => encFp 0x0C g t rm d a 0 0
  | .fclass g t d a => encFp 0x0D g t .dyn d a 0 0
  | .fcvt g dst src rm d a =>
      wR 0x40 g d a 0 0 0x01 (BitVec.ofNat 4 rm.code) (BitVec.ofNat 4 dst.code) (BitVec.ofNat 12 src.code)
  | .icvt g toFloat f ic rm d a =>
      wR 0x40 g d a 0 0 0x02 (BitVec.ofNat 4 rm.code) (BitVec.ofNat 4 f.code)
        ((0 : BitVec 7) ++ bit toFloat ++ BitVec.ofNat 4 ic.code)
  | .pcvt g dst src rm part d a =>
      wR 0x40 g d a 0 0 0x03 (BitVec.ofNat 4 rm.code) (BitVec.ofNat 4 dst.code)
        ((0 : BitVec 5) ++ part ++ BitVec.ofNat 4 src.code)
  | .pfma g t rm d a b c => wR 0x41 g d a b c 0x01 (BitVec.ofNat 4 rm.code) (BitVec.ofNat 4 t.code) 0
  | .pdot g t rm d a b c => wR 0x41 g d a b c 0x02 (BitVec.ofNat 4 rm.code) (BitVec.ofNat 4 t.code) 0
  | .shfl g m d a b c => wR 0x50 g d a b c 0x01 0 0 ((0 : BitVec 10) ++ m.code)
  | .vote g m ps d a c => wR 0x50 g d a 0 c 0x02 0 0 ((0 : BitVec 7) ++ ps ++ m.code)
  | .redb g op dbl rm d a c =>
      wR 0x50 g d a 0 c 0x03 (BitVec.ofNat 4 rm.code) ((0 : BitVec 3) ++ bit dbl)
        ((0 : BitVec 8) ++ BitVec.ofNat 4 op.code)
  | .scanb g exc op dbl rm d a c =>
      wR 0x50 g d a 0 c 0x04 (BitVec.ofNat 4 rm.code) ((0 : BitVec 3) ++ bit dbl)
        ((0 : BitVec 7) ++ bit exc ++ BitVec.ofNat 4 op.code)
  | .ld g sz sx o sc d a off =>
      wM 0x60 g d a (BitVec.ofNat 3 sz.code) (bit sx) (BitVec.ofNat 3 o.code) (BitVec.ofNat 3 sc.code) off
  | .st g sz o sc d a off =>
      wM 0x61 g d a (BitVec.ofNat 3 sz.code) 0 (BitVec.ofNat 3 o.code) (BitVec.ofNat 3 sc.code) off
  | .amoAdd g sz o sc d a b => encAmo 0x01 g sz o sc d a b
  | .amoAnd g sz o sc d a b => encAmo 0x02 g sz o sc d a b
  | .amoOr g sz o sc d a b => encAmo 0x03 g sz o sc d a b
  | .amoXor g sz o sc d a b => encAmo 0x04 g sz o sc d a b
  | .amoMin g sz o sc d a b => encAmo 0x05 g sz o sc d a b
  | .amoMax g sz o sc d a b => encAmo 0x06 g sz o sc d a b
  | .amoMinu g sz o sc d a b => encAmo 0x07 g sz o sc d a b
  | .amoMaxu g sz o sc d a b => encAmo 0x08 g sz o sc d a b
  | .amoSwap g sz o sc d a b => encAmo 0x09 g sz o sc d a b
  | .amoFadd g o sc d a b => encAmo 0x0A g .w o sc d a b
  | .cas g sz o sc d a b c =>
      wA 0x63 g d a b c 0 (BitVec.ofNat 3 sz.code) (BitVec.ofNat 3 o.code) (BitVec.ofNat 3 sc.code)
  | .pref g k a off => wM 0x64 g 0 a (BitVec.ofNat 3 k.code) 0 0 0 off
  | .fence g f => wS 0x70 g 0 0 f.code
  | .tfence g => encBare 0x71 g
  | .opfence g => encBare 0x72 g
  | .ifence g => encBare 0x73 g
  | .cwb g sc a off => encCacheOp 0x74 g sc a off
  | .cinv g sc a off => encCacheOp 0x75 g sc a off
  | .icinv g sc a off => encCacheOp 0x76 g sc a off
  | .br g h off => wB 0x80 g 0 (BitVec.ofNat 2 h.code) off
  | .jal g call d off => wB 0x81 g d ((0 : BitVec 1) ++ bit call) off
  | .jalr g h d a imm => wI 0x82 g d a ((0 : BitVec 4) ++ BitVec.ofNat 2 h.code) imm
  | .joinEnr g n => encJoin 0x01 g n
  | .joinWait g n => encJoin 0x02 g n
  | .joinStrike g n => encJoin 0x03 g n
  | .joinRst g n => encJoin 0x04 g n
  | .yield g => wI 0x84 g 0 0 0 0
  | .yieldH g => wI 0x84 g 0 0 0 1
  | .exit g => encBare 0x85 g
  | .bkoff g => encBare 0x86 g
  | .nop g => encBare 0x87 g
  | .waitc g ld st cp tile => wI 0x90 g 0 0 0 ((0 : BitVec 12) ++ tile ++ cp ++ st ++ ld)
  | .cbwait g d k => wI 0x91 g d 0 0 ((0 : BitVec 28) ++ k)
  | .cbwaitProd g d k => wI 0x91 g d 0 0 ((0 : BitVec 27) ++ (1 : BitVec 1) ++ k)
  | .cbpop g k => wI 0x92 g 0 0 0 ((0 : BitVec 28) ++ k)
  | .cbpush g k => wI 0x93 g 0 0 0 ((0 : BitVec 28) ++ k)
  | .migrateTosimt g d a => wR 0xA0 g d a 0 0 0x01 0 0 0
  | .migrateTolat g d => wR 0xA0 g d 0 0 0 0x02 0 0 0
  | .gbar g => encBare 0xA1 g
  | .grow g n8 => wI 0xA2 g 0 0 0 ((0 : BitVec 26) ++ n8 ++ (0 : BitVec 3))
  | .shrink g n8 => wI 0xA3 g 0 0 0 ((0 : BitVec 26) ++ n8 ++ (0 : BitVec 3))
  | .shmap g d a t count => wI 0xA4 g d a 0 ((0 : BitVec 18) ++ t ++ (0 : BitVec 3) ++ count)
  | .setf g d a => wPre 0xA5 g d a 0 0
  | .takef g d a => wPre 0xA6 g d a 0 0
  | .scall g n => wI 0xA7 g 0 0 0 (n ++ (0 : BitVec 20))
  | .scallOv g n v => wI 0xA7 g 0 0 2 (n ++ v)
  | .scallNs g n => wI 0xA7 g 0 0 1 (n ++ (0 : BitVec 20))
  | .fidset g n => wI 0xA8 g 0 0 0 ((0 : BitVec 28) ++ n)
  | .mmaT g m a b => encodeMma g false m a b
  | .mmaK g m a b => encodeMma g true m a b
  | .radv g ring => encRadv 0x01 g 0 0 ring
  | .radvCfg g d ring ln => encRadv 0x02 g d ln ring
  | .radvTail g d ring => encRadv 0x03 g d 0 ring
  | .radvRel g ring => encRadv 0x04 g 0 0 ring
  | .radvFree g ring => encRadv 0x05 g 0 0 ring
  | .kalloc g crew ar d a => wR 0xB2 g d a 0 0 0 0 0 ((0 : BitVec 10) ++ bit crew ++ bit ar)
  | .kfill g d a b => wR 0xB3 g d a b 0 0 0 0 0
  | .kpin g a => wR 0xB4 g 0 a 0 0 0 0 0 0
  | .kpinOff g a => wR 0xB4 g 0 a 0 0 0 0 0 1
  | .krev g a => wR 0xB5 g 0 a 0 0 0 0 0 0
  | .kstat g d a => wR 0xB6 g d a 0 0 0 0 0 0
  | .cbkld g d a b slot => wR 0xB7 g d a b 0 0 0 0 ((0 : BitVec 6) ++ slot)
  | .engoCopy g sc a => encodeEngo g false 0 sc a
  | .engoEpi g sc a => encodeEngo g false 1 sc a
  | .engoNet g die1 sc a => encodeEngo g die1 2 sc a
  | .engq g d a => wS 0xC1 g d a 0
  | .sysrd g r d => wS 0xD0 g d 0 (BitVec.ofNat 12 r.code)
  | .syswr g r a => wS 0xD1 g 0 a (BitVec.ofNat 12 r.code)
  | .eret g => encBare 0xD2 g
  | .trap g n => wI 0xD3 g 0 0 0 ((0 : BitVec 16) ++ n)
  | .bkpt g n => wI 0xD4 g 0 0 0 ((0 : BitVec 16) ++ n)
  | .tlbinvPg g a b sz => encTlbinv 0x01 g a b sz
  | .tlbinvAs g b => encTlbinv 0x02 g 0 b 0
  | .tlbinvAll g => encTlbinv 0x03 g 0 0 0
  | .tlbinvPga g a sz => encTlbinv 0x04 g a 0 sz
  | .sleep g => encBare 0xD6 g
  | .reservedMajorOpcode w => w
  | _ => 0

end Sys2Proof
end

