-- ==== Sys2Proof/Machine/State.lean ====
section
/-!
DEFINITION. The state of the package, plain data, and its value at reset (R301). INVENTORY.md, under State, names for
each field the rule that gives it and its reset value.
-/
namespace Sys2Proof.Machine

/-- A table by number, in rising order of the numbers, each at most once (operations: Machine/Map.lean). -/
abbrev AMap (β : Type) := List (Nat × β)

/-- Bytes by address: rising addresses, no entry equal to zero, which an unlisted address reads as (R151; log 4). -/
abbrev Memory := List Host.Cell

/-! ### Threads (01 R24 to R28) -/

/-- Who the thread is: tid, gang index, gang sequence number, gsize, lane, crew index and gang core index. -/
structure ThreadIds where
  tid : Word
  gang : BitVec 32
  seq : Nat
  gsize : BitVec 32
  lane : Nat
  cidx : Nat
  gci : Nat
  deriving DecidableEq, Repr

/-- tstat, tvec, tepc, tcause, tval, tscratch (R292, R293). -/
structure TrapRegs where
  ta : Bool
  sup : Bool
  sigp : Bool
  engp : Bool
  tvec : Word
  tepc : Word
  tcause : Word
  tval : Word
  tscratch : Word
  /-- second cause and value of a DOUBLE (R25, R298) -/
  cause2 : BitVec 8
  tval2 : Word
  deriving DecidableEq, Repr

/-- fflags (OF bit and the rest as R95 numbers them), ftrapen, frm, fid (R95 to R97, R111). -/
structure FpRegs where
  fflags : BitVec 6
  ftrapen : BitVec 6
  frm : BitVec 3
  fid : BitVec 4
  deriving DecidableEq, Repr

/-- oc.ld, oc.st, oc.cp, oc.tile (R126). -/
structure Counters where
  ld : Nat
  st : Nat
  cp : Nat
  tile : Nat
  deriving DecidableEq, Repr

/-- The kind of wait (R26 PARK). -/
inductive Park where
  | none
  | join (n : BitVec 3)
  | xlane
  | setf
  | cb
  | grow
  | gbar
  | counters
  deriving DecidableEq, Repr

/-- Speculation past a service call (R50). -/
inductive SpecMode where
  | normal | speculating | waiting
  deriving DecidableEq, Repr

/-- Where an access goes once resolved (R116): physical memory, or a Loam offset of a core. -/
inductive Target where
  | phys (pa key : Nat) (tracked : Bool) (vset : Nat) (remote : Option Nat) (ro : Bool) (rset : Nat)
  /-- an offset of a window; `reg` is the thread, register and byte that it named at issue (R75) -/
  | loam (core off : Nat) (reg : Option (Nat × Nat × Nat))
  deriving DecidableEq, Repr

/-- A store held in the speculative store buffer (R50): address, where its translation and checks at issue sent it, bytes,
order, scope and PC. -/
structure BufferedStore where
  addr : Word
  target : Target
  data : List Byte
  rel : Bool
  sc : Scope
  pc : Word
  deriving DecidableEq, Repr

structure Spec where
  mode : SpecMode
  number : Nat
  predicted : Word
  pc : Word
  buf : List BufferedStore
  deriving DecidableEq, Repr

/-- What a thread waits to hand over: a page fault of its crew (R164: cause word and address), or an escalation that has
no room yet (R299: cause word and trap value). -/
inductive Pending where
  | none
  | fault (cause va : Word)
  | esc (cause value : Word)
  /-- a trap held in speculation state W: cause, sub-cause, value and return address (R50, R297) -/
  | trap (cause sub : Nat) (value ret : Word)
  deriving DecidableEq, Repr

/-- Frame status (R26) and issue state (R31, R59, R61, R462). -/
structure ThreadStatus where
  poison : Bool
  gwait : Bool
  away : Bool
  reissue : Bool
  park : Park
  /-- resident and allowed to issue; cleared while the crew stands stopped, the thread escalates or its core is switched -/
  live : Bool
  pending : Pending
  level : Nat
  held : Bool
  lowered : Bool
  age : Nat
  sleeping : Bool
  /-- the instruction that parked the thread, with the stamp of its parking (R80, R135: retries in order) -/
  again : Option Instr
  stamp : Nat
  deriving DecidableEq, Repr

structure Thread where
  regs : Vector Word 64
  preds : BitVec 8
  pc : Word
  ids : ThreadIds
  trap : TrapRegs
  fp : FpRegs
  regcnt : Nat
  loambase : Nat
  /-- 32-bit words of the registers that have bad parity, bit 2n the low word of register n (R84) -/
  parity : BitVec 128
  oc : Counters
  st : ThreadStatus
  spec : Spec
  /-- held signals, first arrived first (R298) -/
  signals : List Word
  /-- chains recorded as failed and not yet taken, by window address (R143) -/
  failures : List Word
  /-- the model's own: how often the thread has gone on to an instruction, which tells whether an access in flight belongs
  to the latest one (R295; log 24); and that number at the last regroup, which tells whether it issued since (R60) -/
  issued : Nat
  seen : Nat
  /-- bytes that the thread, outside any gang, has promised by invariant loads since its latest MIGRATE, with the time of
  the first (R205) -/
  invs : List (Nat × Nat)
  deriving DecidableEq, Repr

/-! ### Crews and gangs -/

/-- A join register (R34). -/
structure Join where
  e : BitVec 32
  v : BitVec 32
  deriving DecidableEq, Repr

/-- A cross-lane arrival set (R37). -/
structure ArrivalSet where
  pc : Word
  members : BitVec 32
  arrived : BitVec 32
  deriving DecidableEq, Repr

/-- A shared-register mapping (R76): target crew, its index in its gang, first local and target register, count. -/
structure ShMap where
  target : Nat
  tcidx : Nat
  d : Nat
  t : Nat
  count : Nat
  deriving DecidableEq, Repr

/-- Where a crew stands: in its slot; in its slot, stopped for a page fault; in a frame of the save area (R164, R304). -/
inductive CrewPlace where
  | resident
  | stopping
  | parkedFault
  | spilling
  /-- loaded into the bank that is not active (R304, R356) -/
  | shadow
  | saved (frame : Nat)
  deriving DecidableEq, Repr

/-- A command of the engine queue (R220): MMA, RADV or fill, with row set, level, and its operand words (R310). -/
structure Cmd where
  word : Word
  crew : Nat
  rows : BitVec 32
  level : Nat
  a : Word
  b : Word
  /-- PC of the instruction, which a trap at re-entry names (R221, R355) -/
  pc : Word
  /-- of an MMA.K in progress: the Kaolin slot that it reads (R304 step 3) -/
  slot : Option Nat
  /-- of an accepted MMA: codebook contents that a CBKLD replaced since, by slot (R242), and the bytes of its records and
  operands as they stood at its acceptance (R209) -/
  older : List (Nat × List (BitVec 16))
  early : List (List Byte)
  /-- of an MMA in progress: the level at which the rails stood when it started (R109), and its accumulator slot then (R209) -/
  ran : Nat
  slotEarly : List Byte
  /-- the issuing threads' mode, by which a command's operands are translated (R159, R222) -/
  sup : Bool
  deriving DecidableEq, Repr

structure Crew where
  core : Nat
  part : Nat
  slot : Nat
  cidx : Nat
  gci : Nat
  size : Nat
  lsg : Nat
  region : Word
  asid : Nat
  seq : Nat
  /-- Loam offset of its scratch allocation, within its bank -/
  base : Nat
  bank : Bool
  place : CrewPlace
  joins : Vector Join 8
  sets : List ArrivalSet
  maps : List ShMap
  /-- full/empty bits by lane (R79) -/
  full : AMap (BitVec 64)
  cbSlots : BitVec 64
  watchdog : Nat
  /-- commands saved with the crew (R221) -/
  saved : List Cmd
  /-- address of the crew frame reserved for it in the die's save area (R304), 0 when there is none -/
  frame : Nat
  /-- saved or held for a page fault, until its region's fault word is cleared (R164, R166) -/
  faulted : Bool
  /-- windows of lanes whose threads have exited, held until the crew's resources are released (R385): lane, offset, bytes -/
  spent : List (Nat × Nat × Nat)
  deriving DecidableEq, Repr

/-- Sixteen fields of a gang descriptor (R42), its words as read. -/
structure GangDesc where
  entry : Word
  shape : Word
  region : Word
  tidBase : Word
  completion : Word
  wsTable : Word
  deriving DecidableEq, Repr

/-- A gang (R43), placed or waiting; a handler task is a gang of one crew (R342). -/
structure Gang where
  desc : GangDesc
  count : Nat
  asid : Nat
  cores : List Nat
  live : Nat
  /-- gang indexes that have arrived at the open barrier instance (R399) -/
  arrived : List Nat
  /-- cores that the close notice of a completed barrier has not reached (R399) -/
  closing : List Nat
  /-- caller frame address and die, destination register, and the core the caller left (R43, R47) -/
  caller : Nat
  callerDie : Nat
  callerTid : Word
  gd : Nat
  callerHart : Nat
  fid : BitVec 4
  sup : Bool
  waiting : Bool
  /-- of a handler task: network engine, handler index, instance number (R342) -/
  task : Option (Nat × Nat × Nat)
  status : Nat
  /-- context registers of the caller (R481) -/
  ctx : List Word
  /-- when it was created, and the bytes that its threads have promised by invariant loads (R205) -/
  start : Nat
  invs : List Nat
  deriving DecidableEq, Repr

/-! ### SIMT cores -/

/-- Context registers (R481). -/
structure Ctx where
  pgroot : Word
  hbase : Word
  hlimit : Word
  hoff : Word
  hattr : Word
  loamva : Word
  deriving DecidableEq, Repr

/-- A formed bundle (R32): its partition, formation stamp and threads in lane order. -/
structure Bundle where
  part : Nat
  stamp : Nat
  members : List Nat
  deriving DecidableEq, Repr

inductive ResState where
  | empty | filling | valid | stale | dropped
  deriving DecidableEq, Repr

/-- A handle-table entry (R235, R241). -/
structure Handle where
  alloc : Bool
  asid : Nat
  gen : Nat
  slot : Option Nat
  cbslot : Nat
  scaled : Bool
  fmt : Nat
  crewFlag : Bool
  ar : Bool
  pin : Bool
  state : ResState
  owner : Nat
  region : Word
  source : List Word
  /-- the context registers that the source is resolved by -/
  ctx : Ctx
  /-- source lines of the last fill, and whether one was invalidated during it (R237) -/
  lines : List Nat
  touched : Bool
  /-- source lines of an alias: line, viewset id, key id (R148) -/
  views : List (Nat × Nat × Nat)
  deriving DecidableEq, Repr

/-- A Kaolin slot: 16 KiB of data and 2 KiB of scale bytes, sparse (R235). -/
structure KSlot where
  data : Memory
  scales : Memory
  deriving DecidableEq, Repr

structure Codebook where
  entries : List (BitVec 16)
  valid : Bool
  asid : Nat
  deriving DecidableEq, Repr

/-- The contents of one bank besides the registers of its threads (R65, R83). -/
structure Bank where
  bytes : Memory
  tags : AMap (Nat × Bool)
  /-- rings as the hardware holds them, by the offset of their descriptor: configuration and counters (R224) -/
  rings : AMap (Word × Word)
  /-- circular buffers as the hardware last left them, by the offset of their descriptor: configuration, counters (R134) -/
  cbs : AMap (Word × Word)
  deriving DecidableEq, Repr

/-- Counters a core keeps for every context (R84, R114, R222). -/
structure CoreCounters where
  hzc0 : Nat
  hzc1 : Nat
  hzc2 : Nat
  hzc3 : Nat
  parity : Nat
  poison : Nat
  deriving DecidableEq, Repr

structure CoreEngines where
  queue : List Cmd
  current : Option Cmd
  fill : Option Cmd
  railLevel : Nat
  codebooks : AMap Codebook
  handles : AMap Handle
  kslots : AMap KSlot
  deriving DecidableEq, Repr

/-- Core-cycles of a region that the core has not posted yet (R281). -/
structure Charge where
  asid : Nat
  region : Word
  amount : Rat
  deriving DecidableEq, Repr

/-- A switch under way (R304): the outgoing context, and the waiting work that comes in: its context and leaf region. -/
structure Switch where
  out : Nat
  asid : Nat
  region : Word
  deriving DecidableEq, Repr

structure Core where
  partWord : Word
  bank0 : Bank
  bank1 : Bank
  counters : CoreCounters
  engines : CoreEngines
  predictor : AMap Word
  /-- context registers of the contexts on the core, by ASID (R481) -/
  ctxs : AMap Ctx
  regroups : Nat
  /-- by 3 · partition + slot: the formation index of the slot's last issue, 15 where none is listed (R288, R347), and its
  greedy bundle (R287): its stamp, and how often the core had regrouped when it issued -/
  rr : AMap Nat
  greedy : AMap (Nat × Nat)
  bundles : List Bundle
  asleep : Bool
  switch : Option Switch
  /-- charges not posted, and the die's SIMT cycles up to which they are counted (R281) -/
  charges : List Charge
  chargedAt : Word
  /-- the horizon in which the next MMA takes a soft error (R113) -/
  soft : Option Nat
  /-- offsets (bank, offset) of Loam words with bad parity (R84) -/
  badParity : List (Bool × Nat)
  deriving DecidableEq, Repr

/-! ### Latency hardware threads (11 R300) -/

structure Hart where
  run : Bool
  htsave : Word
  htsup : Word
  rej : Bool
  ipend : BitVec 8
  ien : Word
  tcmp : Word
  rgn : Word
  ctx : Ctx
  /-- frame named by an HTLOAD that the running thread stored, taken at its next boundary -/
  load : Option Nat
  /-- its thread has executed YIELD, which the supervisor is told of (R479) -/
  yielded : Bool
  deriving DecidableEq, Repr

/-! ### Memory, caches, coherence, translation -/

inductive Moesi where
  | m | o | e | s
  deriving DecidableEq, Repr

/-- A copy of a line in a cache (R175, R190, R193); a line of an alias is a line of its own (R148). -/
structure Copy where
  agent : Nat
  line : Nat
  st : Moesi
  tracked : Bool
  asid : Nat
  data : Line
  dirty : BitVec 128
  key : Nat
  /-- viewset id of the page, for a line of a column or tile alias -/
  vset : Nat
  deriving DecidableEq, Repr

/-- Key id of a line's tag, and poison (R151). -/
structure LineMeta where
  key : Nat
  poison : Bool
  deriving DecidableEq, Repr

inductive HomeState where
  | hs | hx | ho
  deriving DecidableEq, Repr

/-- A sharer pointer (R181): the agent and the K flag. -/
structure Pointer where
  k : Bool
  agent : Nat
  deriving DecidableEq, Repr

/-- A directory entry (R180): base line and size class, with the fields of the state word. -/
structure DirEntry where
  base : Nat
  cls : Nat
  hst : HomeState
  coarse : Bool
  kany : Bool
  hostc : Bool
  owner : Option Nat
  quiet : Nat
  ptrs : List Pointer
  vec : BitVec 64
  deriving DecidableEq, Repr

/-- What a message of the coherence protocol is (R185 to R188). -/
inductive MsgKind where
  | gets | getm | upg | kget | rdonce | wr | atomic
  | putm | puto | pute | puts | putack
  | fwds | fwdm | fwddone | nodata | wbpending
  | inv | ack | grant | retry | promote
  /-- what an owner sends to the requester when it gives a line up (R185); and the home's own recall of an entry that it
  evicts (R182) -/
  | data | recall
  deriving DecidableEq, Repr

/-- An atomic that the home performs (R185, R366, R372): the instruction, its size, its offset in the line, operands. -/
structure AtomicAct where
  i : Instr
  size : Nat
  off : Nat
  b : Word
  c : Word
  deriving DecidableEq, Repr

/-- A message in flight: sender, line, requester on whose behalf it travels, its data, and which bytes of them are written
and not yet in L2 (R190). -/
structure Msg where
  kind : MsgKind
  line : Nat
  src : Nat
  dst : Nat
  req : Nat
  data : Line
  mask : BitVec 128
  /-- grants: the state granted; an invalidation of a residency: some state when it names the cached copy too -/
  st : Option Moesi
  /-- grants: the requester keeps its own data or takes the owner's; forwards that take the line away: a recall; invalidations: of a residency; Puts: the copy is retained -/
  flag : Bool
  act : Option AtomicAct
  key : Nat
  /-- viewset id, for a line of an alias -/
  vset : Nat
  /-- in a Retry: the request to send again (R179); in a forward to an owner that may keep the line: the request served -/
  again : Option MsgKind
  deriving DecidableEq, Repr

/-- A transient line at its home (R178). -/
inductive Transient where
  | hb | hf | hw | hr
  deriving DecidableEq, Repr

structure Txn where
  kind : Transient
  req : Msg
  acks : Nat
  /-- the owner whose answer is awaited -/
  owner : Option Nat
  /-- the owner has sent its data to the requester (R185) -/
  sent : Bool
  /-- of a recall for an eviction: base and class of the entry whose lines are recalled one after another (R182) -/
  region : Option (Nat × Nat)
  deriving DecidableEq, Repr

/-- The TLBs of the package (R161): of a SIMT core's partition, of the core, of its die; of a latency core the first level
for instructions or data, and the second. -/
inductive TlbUnit where
  | part (core p : Nat)
  | core (n : Nat)
  | die (d : Nat)
  | latFirst (m : Nat) (fetch : Bool)
  | latSecond (m : Nat)
  deriving DecidableEq, Repr

/-- A TLB entry (R161): the page as a walk read it. -/
structure TlbEntry where
  unit : TlbUnit
  asid : Nat
  vbase : Nat
  sz : Nat
  w0 : Word
  w1 : Word
  leaf : Nat
  deriving DecidableEq, Repr

/-- A walker-cache entry (R161): a table pointer of level 0, 1 or 2 found under a root, and the table that it names. -/
structure WalkEntry where
  die : Nat
  asid : Nat
  root : Nat
  level : Nat
  vbase : Nat
  table : Nat
  deriving DecidableEq, Repr

/-- An instruction-cache line (R349, R404). -/
structure ILine where
  core : Nat
  line : Nat
  data : Line
  deriving DecidableEq, Repr

inductive AccessKind where
  | load (size : Nat) (sx : Bool) (d : Nat)
  | store (data : List Byte)
  | atomic (i : Instr) (size : Nat) (d : Nat) (b c : Word)
  | cwb
  | cinv
  deriving DecidableEq, Repr

/-- An access of a SIMT thread that has issued and not returned (R126). -/
structure Access where
  thread : Nat
  va : Word
  target : Target
  kind : AccessKind
  acq : Bool
  rel : Bool
  sc : Scope
  crewKey : Nat
  /-- PC of the instruction, and the turn of its issue: accesses of one bundle's instruction share it (R124) -/
  pc : Word
  turn : Nat
  /-- bytes that the thread's store buffer gives a load: index in the value, byte (R50) -/
  overlay : List (Nat × Byte)
  /-- issued past a service call; and its value is dropped because that speculation was squashed (R50) -/
  spec : Bool
  drop : Bool
  /-- what a load or atomic found at its target when it issued; and `Thread.issued` then (R295, R75; log 24) -/
  early : List Byte
  count : Nat
  /-- the ASID that it was translated under (R162) -/
  asid : Nat
  deriving DecidableEq, Repr

/-! ### Engine chains and network -/

/-- A working or output tile of the epilogue engine (R229). -/
structure Tiles where
  taken : Bool
  w : List (BitVec 32)
  out : Option (Nat × Bool)
  o : List Byte
  scales : List Byte
  deriving DecidableEq, Repr

structure Chain where
  engine : Nat
  /-- SIMT core number, or 384 + latency die -/
  unit : Nat
  addr : Word
  crew : Option Nat
  /-- threads that count the chain -/
  counting : List Nat
  asid : Nat
  sup : Bool
  ctx : Ctx
  scope : Scope
  state : Nat
  idx : Nat
  order : Nat
  cause : Nat
  zsub : Nat
  fault : Word
  done : Nat
  tiles : Tiles
  deriving DecidableEq, Repr

/-- A packet of a network chain (R338). -/
structure Packet where
  chain : Nat
  entry : Nat
  /-- the number of the first packet of the same run of that entry (R339) -/
  batch : Nat
  kind : Nat
  ordered : Bool
  peer : Nat
  addr : Word
  len : Nat
  data : List Byte
  tag : Word
  hidx : Nat
  acked : Bool
  sent : Bool
  deriving DecidableEq, Repr

/-- A link: a Herpin port, or an on-package UCIe link by its two dies, 16 · a + b (R314, R318; log 18). -/
inductive Link where
  | herpin (port : Nat)
  | ucie (dies : Nat)
  deriving DecidableEq, Repr

/-- A Herpin flit as it arrives at a receiver (R332). -/
structure Flit where
  seq : BitVec 16
  ack : BitVec 16
  kind : BitVec 8
  head : BitVec 88
  payload : BitVec 1792
  crc : BitVec 128
  deriving DecidableEq, Repr

structure Port where
  up : Bool
  replays : Nat
  fails : Nat
  downcnt : Nat
  lto : Word
  /-- receiver: last delivered sequence number, flits kept at quiesce, flits delivered to the package -/
  last : BitVec 16
  kept : List Flit
  delivered : List Flit
  /-- transmitter: number of the last flit sent, flits sent and not acknowledged; retry requests sent by the receiver -/
  sent : BitVec 16
  retry : List Flit
  retryReqs : Nat
  deriving DecidableEq, Repr

structure NetEngine where
  ctxbase : Word
  tto : Word
  notgt : Nat
  nevt : BitVec 2
  /-- handler tasks of suspended contexts, in ring order (R341): ASID, slot address -/
  suspended : List (Nat × Word)
  deriving DecidableEq, Repr

/-! ### Dies, stacks, package controller -/

/-- A cached region control block (R277): its address, the context that it was read in, and its 32 words, of which the HW
fields are live here. -/
structure RegionBlock where
  addr : Word
  ctx : Ctx
  words : List Word
  deriving DecidableEq, Repr

/-- A page migration (R169). -/
structure Migration where
  desc : Nat
  src : Nat
  dst : Nat
  len : Nat
  skey : Nat
  dkey : Nat
  sweep : Bool
  leaf : Nat
  w0 : Word
  lines : Nat
  poisoned : Nat
  state : Nat
  deriving DecidableEq, Repr

/-- A handler task waiting to be placed (R341, R342). -/
structure Task where
  net : Nat
  asid : Nat
  slot : Word
  hidx : Nat
  deriving DecidableEq, Repr

structure Die where
  savebase : Word
  savelen : Word
  fqbase : Word
  fqHead : Nat
  fqTail : Nat
  fqLog : Nat
  malcnt : Nat
  rcAddr : Word
  sigtid : Word
  sigResult : Nat
  contexts : AMap Ctx
  regions : List RegionBlock
  /-- regions with waiting work, head first (R276) -/
  ring : List Word
  /-- leaf regions that won in the last service, and regions that expired then (R282) -/
  grants : List Word
  expired : List Word
  /-- SIMT cycles at the last scheduling tick (R281) -/
  tickAt : Word
  /-- save-area frames in use: (address, length in bytes) -/
  frames : List (Nat × Nat)
  /-- escalated threads' frames: (frame, thread) (R299) -/
  escalated : List (Nat × Nat)
  /-- threads whose RETURN came while their crew stood saved -/
  returning : List Nat
  tasks : List Task
  migration : Option Migration
  hot : Bool
  mhz : Nat
  cyc : Word
  /-- SIMT cycles of the die (R5, R19) -/
  simtCyc : Word
  deriving DecidableEq, Repr

structure Stack where
  vset : AMap Word
  siltmap : Word
  cold : Word
  poolbase : Word
  poollen : Word
  throt : Nat
  verr : Nat
  spol : Nat
  actlim : Word
  /-- compressed units, and units that stand in a pool frame, by unit number within the stack (R167, R168) -/
  compressed : List Nat
  expanded : List Nat
  /-- cyc of the latest access to a unit while the cold interval is set, and cyc when it was set (R167) -/
  touched : AMap Word
  coldAt : Word
  deriving DecidableEq, Repr

structure Pkg where
  qbusy : Bool
  qsd : Bool
  qresult : Nat
  sigreq : Bool
  qcmd : Nat
  qbuf : Word
  qlen : Word
  qlist : Word
  pkgid : Word
  rstab : Word
  escbase : Word
  escHead : Nat
  escTail : Nat
  escLog : Nat
  tocnt : Nat
  hostdb : Word
  tidreg : Word
  pkgevt : BitVec 3
  svctab : Word
  dist : Memory
  /-- a failed verification holds the package in reset; the measurement registers, by stage (R343) -/
  inReset : Bool
  measured : AMap (BitVec 512)
  deriving DecidableEq, Repr

/-- What comes from outside the package (12): flits, packets, temperature, power, SPDM requests. -/
inductive Input where
  | flit (port : Nat) (f : Flit)
  | linkTimeout (port : Nat)
  | portUp (port : Nat)
  | spdm (session : Nat)
  | temperature (die : Nat) (celsius : Nat)
  | power (die : Nat) (mhz : Nat)
  /-- the activates allowed in a stack's window (R152) -/
  | activates (stack limit : Nat)
  /-- a packet of a peer's NPUT for a virtual address of an ASID's context (R338) -/
  | put (net asid : Nat) (addr : Word) (data : List Byte)
  /-- the bytes that answer packet `pkt` of an NGET -/
  | got (pkt : Nat) (data : List Byte)
  | activeMessage (net asid hidx : Nat) (tag : Word) (sender : BitVec 128) (payload : List Byte)
  | getRequest (net asid : Nat) (addr : Word) (len : Nat)
  | remoteLost (pkg : Nat)
  /-- a peer's answer that an entry fails: cause 0x21 or 0x23 (R339) -/
  | refusal (pkt cause : Nat)
  deriving DecidableEq, Repr

/-- What the package sends out: acknowledgements, answers, flits, SPDM answers. -/
inductive Output where
  | ack (net : Nat)
  | nack (net : Nat)
  | noTarget (net : Nat)
  | refused (net : Nat)
  | bytes (net : Nat) (data : List Byte)
  | retryRequest (port : Nat)
  | spdm (answer : List Byte)
  /-- a failed verification at the release of reset (R343) -/
  | bootFailure (report : Word)
  /-- a packet of a network chain leaves, the first time or again -/
  | packet (pkt : Nat)
  /-- a flit leaves over a link, the first time or again; a UCIe receiver asks for a replay -/
  | flit (link : Link) (f : Flit)
  | linkRetry (dies : Nat)
  /-- what the host's load returns, none for poison; what the management interface reads -/
  | hostData (data : Option (List Byte))
  /-- what a peer package's load or atomic returns, none for poison -/
  | peerData (data : Option (List Byte))
  | entry (w : BitVec 96)
  deriving DecidableEq, Repr

/-- Who issues an instruction: a latency hardware thread, or a bundle of a SIMT partition by its formation index. -/
inductive Issuer where
  | hart (n : Nat)
  | bundle (core part idx : Nat)
  deriving DecidableEq, Repr

/-- What the world outside does to the package beside the rows of the table (log 5): an upset of a word of Loam, of a
register or of a line's integrity tag (R84, R151), a soft error in a horizon of the next MMA (R113), an agent whose next
access stays unanswered (R296); what the host, the management interface and the links do. -/
inductive Outside where
  | upsetLoam (core : Nat) (bank : Bool) (off : Nat)
  | upsetRegister (thread word : Nat)
  | upsetLine (line : Nat)
  | softError (core horizon : Nat)
  | unanswered (agent : Nat)
  /-- the host's loads, stores and evictions through its HDM decoder, by offset from the decoder's base (R175, R324) -/
  | hostLoad (x size : Nat)
  | hostStore (x : Nat) (data : List Byte)
  | hostEvict (x : Nat)
  /-- the host's load of control space, by offset in BAR 0 (R326) -/
  | hostControl (x size : Nat)
  /-- another package's load, store or atomic on this package's memory, with the key id of its leaf (R172, R333); a store or atomic that the ROOT switch of a
  replica set replicates into this package's member comes so too (R334) -/
  | peerLoad (pa key size : Nat)
  | peerStore (pa key : Nat) (data : List Byte)
  | peerAtomic (pa key : Nat) (act : AtomicAct)
  /-- a later stage of firmware is verified by the stage before it and measured (R343) -/
  | stage (n : Nat)
  /-- a throttle event of a stack controller (R152) -/
  | throttled (stack : Nat)
  /-- the supervisor tears down the fault domain of a gang (R46, R138, R166) -/
  | tearDown (seq : Nat)
  /-- the management interface reads the directory entry of a line (R180) -/
  | readEntry (line : Nat)
  /-- the package sends a flit over a Herpin port or an on-package link; a flit arrives over such a link (R314) -/
  | sendFlit (link : Link) (f : Flit)
  | linkFlit (dies : Nat) (f : Flit)
  deriving DecidableEq, Repr

/-- What happens in one step (log 5). -/
inductive Turn where
  | issue (i : Issuer)
  | event (e : Instr)
  | outside (o : Outside)
  deriving DecidableEq, Repr

/-- The numbers handed out next: gangs, service requests (R43, R448), and the model's own keys. -/
structure Next where
  gang : Nat
  request : Nat
  crew : Nat
  access : Nat
  msg : Nat
  chain : Nat
  packet : Nat
  age : Nat
  deriving DecidableEq, Repr

/-- Memory as the agents see it. -/
structure MemSys where
  bytes : Memory
  lines : AMap LineMeta
  copies : List Copy
  dir : List DirEntry
  txns : AMap Txn
  /-- requests waiting at the home, by line, in arrival order (R179) -/
  queued : List Msg
  msgs : AMap Msg
  /-- lines in an agent's write-back buffer until PutAck: (agent, line, data) (R188) -/
  wbufs : List Copy
  tlb : List TlbEntry
  walker : List WalkEntry
  icache : List ILine
  inflight : AMap Access
  /-- remote packages that do not answer, and agents whose next access no unit answers (R296) -/
  lost : List Nat
  mute : List Nat
  /-- while a promise of R205 may be open: writes, newest first: when, which byte, and what it held before -/
  past : List (Nat × Nat × Byte)
  deriving DecidableEq, Repr

structure State where
  threads : AMap Thread
  /-- latency threads that stand in no hardware thread while something of theirs is outstanding, by 2^64 + tid: their
  counters, signals, chain failures and promises (R48, R205, R300, R357, R380; log 61) -/
  absent : AMap Thread
  crews : AMap Crew
  gangs : AMap Gang
  cores : AMap Core
  harts : AMap Hart
  dies : AMap Die
  latDies : AMap Word
  stks : AMap Stack
  nets : AMap NetEngine
  ports : AMap Port
  /-- on-package links (R314) -/
  links : AMap Port
  pkg : Pkg
  mem : MemSys
  chains : AMap Chain
  packets : AMap Packet
  /-- next slot of each receive ring, by the physical address of the ring (R340) -/
  cursors : AMap Nat
  nxt : Next
  inputs : List Input
  outputs : List Output
  agenda : List Turn
  cur : Issuer
  free : Nat
  deriving DecidableEq, Repr

/-- Why the machine stops. -/
inductive Fault where
  /-- Raised by step when the turn names a hardware thread at or above 256, a core at or above 384 or a partition at
  or above 4: there is no such agent. Safe: the hardware has no such step. -/
  | noSuchAgent
  deriving DecidableEq, Repr

/-- Why an instruction has no meaning here. -/
inductive Refusal where
  /-- The arm of `exec` for an instruction that has no meaning in this model. Safe: nothing is claimed of it. -/
  | notModelled (mnemonic : String)
  deriving DecidableEq, Repr

/-! ### Reset -/

def Ctx.zero : Ctx := ⟨0, 0, 0, 0, 0, 0⟩
def Counters.zero : Counters := ⟨0, 0, 0, 0⟩
def ThreadIds.zero : ThreadIds := ⟨0, 0, 0, 0, 0, 0, 0⟩
def TrapRegs.zero : TrapRegs := ⟨false, false, false, false, 0, 0, 0, 0, 0, 0, 0⟩
/-- A thread register set at the reset values of the field tables (R95 to R97, R111). -/
def FpRegs.initial : FpRegs := ⟨0, 0, 1, 0xF⟩
/-- The floating-point registers of the frame that hardware thread 0 is loaded from (R301): fid zero; frm loads as 1,
since R97 admits no zero (log 2). -/
def FpRegs.boot : FpRegs := ⟨0, 0, 1, 0⟩
def Spec.idle : Spec := ⟨.normal, 0, 0, 0, []⟩
def ThreadStatus.ready : ThreadStatus :=
  ⟨false, false, false, false, .none, true, .none, 0, false, false, 0, false, none, 0⟩

/-- A thread with every register zero. -/
def Thread.zero : Thread :=
  { regs := Vector.replicate 64 0, preds := 1, pc := 0, ids := .zero, trap := .zero, fp := .boot, regcnt := 64,
    loambase := 0, parity := 0, oc := .zero, st := .ready, spec := .idle, signals := [], failures := [], issued := 0, seen := 0,
    invs := [] }

/-- The thread that R301 loads into hardware thread 0. -/
def Thread.boot : Thread := { Thread.zero with pc := Config.entryPc, trap := { TrapRegs.zero with sup := true } }

def Bank.zero : Bank := ⟨[], [], [], []⟩
def CoreCounters.zero : CoreCounters := ⟨0, 0, 0, 0, 0, 0⟩
def CoreEngines.zero : CoreEngines := ⟨[], none, none, 0, [], [], []⟩
/-- A SIMT core at reset: it holds no context (R301). -/
def Core.zero : Core :=
  { partWord := 0, bank0 := .zero, bank1 := .zero, counters := .zero, engines := .zero, predictor := [], ctxs := [],
    regroups := 0, rr := [], greedy := [], bundles := [], asleep := false, switch := none, charges := [], chargedAt := 0,
    soft := none, badParity := [] }
/-- A hardware thread at reset (R301): idle. -/
def Hart.zero : Hart := ⟨false, 0, 0, false, 0, 0, 0, 0, .zero, none, false⟩
def Die.zero : Die :=
  { savebase := 0, savelen := 0, fqbase := 0, fqHead := 0, fqTail := 0, fqLog := 0, malcnt := 0, rcAddr := 0,
    sigtid := 0, sigResult := 0, contexts := [], regions := [], ring := [], grants := [], expired := [], tickAt := 0, frames := [], escalated := [], returning := [],
    tasks := [], migration := none, hot := false, mhz := 3300, cyc := 0, simtCyc := 0 }
def Stack.zero : Stack := ⟨[], 0, 0, 0, 0, 0, 0, 0, 0, [], [], [], 0⟩
def NetEngine.zero : NetEngine := ⟨0, 0, 0, 0, []⟩
def Port.zero : Port := ⟨true, 0, 0, 0, 0, 0, [], [], 0, [], 0⟩
def Pkg.zero : Pkg :=
  { qbusy := false, qsd := false, qresult := 0, sigreq := false, qcmd := 0, qbuf := 0, qlen := 0, qlist := 0, pkgid := 0,
    rstab := 0, escbase := 0, escHead := 0, escTail := 0, escLog := 0, tocnt := 0, hostdb := 0, tidreg := 0,
    pkgevt := 0, svctab := 0, dist := [], inReset := false, measured := [] }
def MemSys.zero : MemSys :=
  { bytes := [], lines := [], copies := [], dir := [], txns := [], queued := [], msgs := [], wbufs := [], tlb := [],
    walker := [], icache := [], inflight := [], lost := [], mute := [], past := [] }
/-- DESIGN CHOICE (log 3): the first gang and the first service request have number 1. -/
def Next.initial : Next := ⟨1, 1, 0, 0, 0, 0, 0, 0⟩

/-- The package right after the release of reset (R301): hardware thread 0 runs the firmware in supervisor mode, every
other hardware thread is idle, no SIMT core holds a context, memory reads zero. A unit that a table does not list is
at its zero value. -/
def State.reset : State :=
  { threads := [(0, Thread.boot)], absent := [], crews := [], gangs := [], cores := [], harts := [(0, { Hart.zero with run := true })],
    dies := [], latDies := [], stks := [], nets := [], ports := [], links := [], pkg := .zero, mem := .zero, chains := [],
    packets := [], cursors := [], nxt := .initial, inputs := [], outputs := [], agenda := [], cur := .hart 0, free := 0 }

end Sys2Proof.Machine
end

