-- ==== Sys2Proof/Machine/Map.lean ====
section
/-!
DEFINITION. Tables by number (AMap) and byte memories: look-up, insertion that keeps the rising order, removal, and
little-endian reads and writes (00 R19).
-/
namespace Sys2Proof.Machine

variable {β : Type}

/-- The entry of number `k`. -/
def AMap.find : AMap β → Nat → Option β
  | [], _ => none
  | (i, b) :: r, k => if i = k then some b else AMap.find r k

def AMap.get (m : AMap β) (k : Nat) (dflt : β) : β := (m.find k).getD dflt

/-- Number `k` now holds `v`. -/
def AMap.set : AMap β → Nat → β → AMap β
  | [], k, v => [(k, v)]
  | (i, b) :: r, k, v =>
    if k < i then (k, v) :: (i, b) :: r
    else if k = i then (k, v) :: r
    else (i, b) :: AMap.set r k v

/-- Number `k` holds nothing. -/
def AMap.del (m : AMap β) (k : Nat) : AMap β := m.filter fun e => e.1 != k

/-- The entry of `k` changed by `f`, if there is one. -/
def AMap.update (m : AMap β) (k : Nat) (f : β → β) : AMap β :=
  match m.find k with
  | some v => m.set k (f v)
  | none => m

/-- The canonical form of a table: rising numbers. -/
def AMap.sorted (m : AMap β) : Bool := decide (m.Pairwise fun x y => x.1 < y.1)

/-- The canonical form of a byte memory: rising addresses and no entry equal to the zero of an unlisted address. -/
def Memory.wf (m : Memory) : Bool := AMap.sorted m && m.all fun c => c.2 != 0

/-- The byte at `a`; an unlisted address reads zero (R151). -/
def Memory.byte (m : Memory) (a : Nat) : Byte := AMap.get m a 0

/-- The byte at `a` becomes `b`; writing zero removes the entry. -/
def Memory.put (m : Memory) (a : Nat) (b : Byte) : Memory :=
  if b = 0 then AMap.del m a else AMap.set m a b

/-- `n` bytes from `a` upward. -/
def Memory.bytes (m : Memory) (a n : Nat) : List Byte := (List.range n).map fun k => m.byte (a + k)

/-- The bytes `bs` from `a` upward. -/
def Memory.puts (m : Memory) : Nat → List Byte → Memory
  | _, [] => m
  | a, b :: bs => Memory.puts (m.put a b) (a + 1) bs

/-- The little-endian number of `n` bytes at `a`. -/
def Memory.nat (m : Memory) (a n : Nat) : Nat := bytesToNat (m.bytes a n)

/-- `n` bytes of a number, lowest first. -/
def natBytes (n v : Nat) : List Byte := (List.range n).map fun k => BitVec.ofNat 8 (v / 256 ^ k)

/-- A 64-bit word at `a`. -/
def Memory.word (m : Memory) (a : Nat) : Word := BitVec.ofNat 64 (m.nat a 8)

def Memory.putWord (m : Memory) (a : Nat) (w : Word) : Memory := m.puts a (natBytes 8 w.toNat)

/-- The bytes `a` to `a + n − 1` become zero. -/
def Memory.clear (m : Memory) (a n : Nat) : Memory := m.filter fun c => !(decide (a ≤ c.1) && decide (c.1 < a + n))

end Sys2Proof.Machine
end

