-- ==== Sys2Proof/Machine/Bits.lean ====
section
/-!
DEFINITION. Bit-field, sign-extension and line helpers.
-/
namespace Sys2Proof.Machine

/-- Bits `[hi:lo]` of a word as a number. -/
def fld (w : Word) (hi lo : Nat) : Nat := w.toNat / 2 ^ lo % 2 ^ (hi + 1 - lo)

def bitAt (w : Word) (k : Nat) : Bool := w.toNat / 2 ^ k % 2 == 1

/-- A word with `v` in bits `[hi:lo]`, its other bits kept. -/
def setFld (w : Word) (hi lo v : Nat) : Word :=
  let n := hi + 1 - lo
  let mask : Word := BitVec.ofNat 64 ((2 ^ n - 1) * 2 ^ lo)
  (w &&& ~~~mask) ||| (BitVec.ofNat 64 (v % 2 ^ n * 2 ^ lo))

def boolBit (b : Bool) : Nat := if b then 1 else 0

/-- The low `n` bits of a number as two's complement, in a word (0 for n = 0). -/
def sextNat (n v : Nat) : Word :=
  let x := v % 2 ^ n
  if n = 0 then 0 else if 2 ^ (n - 1) ≤ x then BitVec.ofInt 64 ((x : Int) - 2 ^ n) else BitVec.ofNat 64 x

/-- The low `n` bits of a number as a two's-complement integer. -/
def toSigned (n v : Nat) : Int :=
  let x := v % 2 ^ n
  if n = 0 then 0 else if 2 ^ (n - 1) ≤ x then (x : Int) - 2 ^ n else x

/-- A virtual address: bits [63:57] of an address register are ignored (R116). -/
def va57 (w : Word) : Nat := w.toNat % 2 ^ 57

/-- A 57-bit value in a word. -/
def low57 (w : Word) : Word := BitVec.ofNat 64 (w.toNat % 2 ^ 57)

/-- PC of the next instruction, modulo 2^57 (R246, R371). -/
def nextPc (pc : Word) : Word := BitVec.ofNat 64 ((pc.toNat + 8) % 2 ^ 57)

/-- The line that holds a byte address (R175). -/
def lineOf (a : Nat) : Nat := a / 128

/-- Byte `k` of a line. -/
def lineByte (l : Line) (k : Nat) : Byte := l.extractLsb' (8 * k) 8

/-- A line with byte `k` replaced. -/
def setLineByte (l : Line) (k : Nat) (b : Byte) : Line :=
  (l &&& ~~~((255#1024) <<< (8 * k))) ||| ((b.setWidth 1024) <<< (8 * k))

def lineOfBytes (bs : List Byte) : Line := BitVec.ofNat 1024 (bytesToNat bs)

def lineBytes (l : Line) : List Byte := (List.range 128).map (lineByte l)

/-- A line of storage. -/
def Memory.line (m : Memory) (l : Nat) : Line := lineOfBytes (m.bytes (128 * l) 128)

/-- A line written to storage, only the bytes of `mask`. -/
def Memory.putLine (m : Memory) (l : Nat) (d : Line) (mask : BitVec 128) : Memory :=
  (List.range 128).foldl (fun m k => if mask.getLsbD k then m.put (128 * l + k) (lineByte d k) else m) m

def fullMask : BitVec 128 := BitVec.allOnes 128

/-- Ceiling of a quotient. -/
def ceilDiv (a b : Nat) : Nat := (a + b - 1) / b

/-- A counter that saturates at 2^48 − 1 (R329). -/
def satInc48 (n : Nat) : Nat := if n + 1 < 2 ^ 48 then n + 1 else 2 ^ 48 - 1

/-- Number of one bits. -/
def popcount (n v : Nat) : Nat := (List.range n).foldl (fun s k => s + v / 2 ^ k % 2) 0

end Sys2Proof.Machine
end

