-- ==== Sys2Proof/Machine/Fp.lean ====
section
/-!
DEFINITION. Floating-point arithmetic (03 R88 to R99; 18 R386 to R394, R398): every operation computes its exact
result and rounds it once.
-/
namespace Sys2Proof.Machine

/-- A floating-point format (R89): exponent bits, trailing significand bits, bias; `fp8` selects the overflow rule of
conversions (R99), `hasInf` is false for E4M3. -/
structure Fmt where
  ebits : Nat
  sbits : Nat
  bias : Nat
  fp8 : Bool
  hasInf : Bool
  deriving DecidableEq, Repr

def fmtOf : FloatCode → Fmt
  | .d => ⟨11, 52, 1023, false, true⟩
  | .s => ⟨8, 23, 127, false, true⟩
  | .h => ⟨5, 10, 15, false, true⟩
  | .bf => ⟨8, 7, 127, false, true⟩
  | .e5m2 => ⟨5, 2, 15, true, true⟩
  | .e4m3 => ⟨4, 3, 7, true, false⟩

def codeOf : FType → FloatCode
  | .s => .s | .d => .d | .h => .h | .bf => .bf

def Fmt.width (f : Fmt) : Nat := 1 + f.ebits + f.sbits
def Fmt.signBit (f : Fmt) : Nat := 2 ^ (f.ebits + f.sbits)
def Fmt.expOnes (f : Fmt) : Nat := 2 ^ f.ebits - 1

/-- The canonical NaN (R89). -/
def Fmt.nan (f : Fmt) : Nat :=
  if f.hasInf then f.expOnes * 2 ^ f.sbits + 2 ^ (f.sbits - 1) else 2 ^ (f.ebits + f.sbits) - 1

def Fmt.withSign (f : Fmt) (neg : Bool) (v : Nat) : Nat := v + boolBit neg * f.signBit
def Fmt.inf (f : Fmt) (neg : Bool) : Nat := f.withSign neg (f.expOnes * 2 ^ f.sbits)
/-- Largest finite magnitude (R89). -/
def Fmt.maxFinite (f : Fmt) (neg : Bool) : Nat :=
  f.withSign neg (if f.hasInf then f.expOnes * 2 ^ f.sbits - 1 else 2 ^ (f.ebits + f.sbits) - 2)

/-- The value of a pattern: a NaN, an infinity, or ±m × 2^e. -/
inductive FVal where
  | nan (signalling : Bool)
  | inf (neg : Bool)
  | fin (neg : Bool) (m : Nat) (e : Int)
  deriving DecidableEq, Repr

/-- The value that a pattern of the format has (R89). -/
def Fmt.decode (f : Fmt) (v : Nat) : FVal :=
  let v := v % 2 ^ f.width
  let neg := v / f.signBit == 1
  let ex := v / 2 ^ f.sbits % 2 ^ f.ebits
  let sig := v % 2 ^ f.sbits
  if f.hasInf && ex == f.expOnes then
    if sig = 0 then .inf neg else .nan (decide (sig < 2 ^ (f.sbits - 1)))
  else if !f.hasInf && ex == f.expOnes && sig == 2 ^ f.sbits - 1 then .nan false
  else if ex = 0 then .fin neg sig (1 - (f.bias : Int) - f.sbits)
  else .fin neg (2 ^ f.sbits + sig) ((ex : Int) - f.bias - f.sbits)

/-- A result pattern with the flags it sets (R95: IX NV DZ OF UF NX from bit 5 down). -/
structure FpResult where
  bits : Nat
  flags : BitVec 6
  deriving DecidableEq, Repr

def flagIX : BitVec 6 := 0x20
def flagNV : BitVec 6 := 0x10
def flagDZ : BitVec 6 := 0x08
def flagOF : BitVec 6 := 0x04
def flagUF : BitVec 6 := 0x02
def flagNX : BitVec 6 := 0x01

/-- Rounding modes (R91, R97): 1 rne, 2 rtz, 3 rdn, 4 rup, 5 rna. -/
inductive Mode where
  | rne | rtz | rdn | rup | rna
  deriving DecidableEq, Repr

def Mode.ofFrm (frm : BitVec 3) : Mode :=
  match frm.toNat with
  | 2 => .rtz | 3 => .rdn | 4 => .rup | 5 => .rna | _ => .rne

/-- The mode that an rm field selects (R91). -/
def rmMode (rm : Rm) (frm : BitVec 3) : Mode :=
  match rm with
  | .dyn => Mode.ofFrm frm
  | .rne => .rne | .rtz => .rtz | .rdn => .rdn | .rup => .rup | .rna => .rna

/-- Whether the magnitude n + r/2^sh (r below 2^sh, plus a sticky part) is rounded up. -/
def Mode.roundsUp (mode : Mode) (neg : Bool) (n r sh : Nat) (sticky : Bool) : Bool :=
  let inexact := r != 0 || sticky
  let half := 2 ^ sh
  match mode with
  | .rne => decide (half < 2 * r) || (2 * r == half && (sticky || n % 2 == 1))
  | .rtz => false
  | .rdn => neg && inexact
  | .rup => !neg && inexact
  | .rna => decide (half ≤ 2 * r) && inexact

/-- m × 2^e (plus a part below one unit when `sticky`) rounded to a multiple of 2^q: the multiple and whether the
result is inexact. -/
def roundAt (mode : Mode) (neg : Bool) (m : Nat) (e q : Int) (sticky : Bool) : Nat × Bool :=
  if q ≤ e then (m * 2 ^ (e - q).toNat, sticky)
  else
    let sh := (q - e).toNat
    let n := m / 2 ^ sh
    let r := m % 2 ^ sh
    (n + boolBit (mode.roundsUp neg n r sh sticky), r != 0 || sticky)

/-- What replaces a result beyond the largest finite value (R94; R99 for FP8). -/
def Fmt.overflow (f : Fmt) (mode : Mode) (neg : Bool) : Nat :=
  if f.fp8 then f.maxFinite neg
  else match mode with
    | .rne | .rna => f.inf neg
    | .rtz => f.maxFinite neg
    | .rdn => if neg then f.inf true else f.maxFinite false
    | .rup => if neg then f.maxFinite true else f.inf false

/-- The nonzero value ±m × 2^e (and a sticky part) rounded once to the format, with its flags (R92 to R94). -/
def Fmt.round (f : Fmt) (mode : Mode) (neg : Bool) (m : Nat) (e : Int) (sticky : Bool) : FpResult :=
  if m = 0 then ⟨f.withSign neg 0, 0⟩
  else
    let top : Int := e + Nat.log2 m
    let emin : Int := 1 - f.bias
    let unb := roundAt mode neg m e (top - f.sbits) sticky
    let tiny : Bool := decide (top < emin) && !(decide (top + 1 = emin) && unb.1 == 2 ^ (f.sbits + 1))
    let q : Int := max top emin - f.sbits
    let r := roundAt mode neg m e q sticky
    let n := if r.1 = 2 ^ (f.sbits + 1) then 2 ^ f.sbits else r.1
    let q' : Int := if r.1 = 2 ^ (f.sbits + 1) then q + 1 else q
    let biased : Nat := (q' + f.sbits + f.bias).toNat
    let mag : Nat := if n < 2 ^ f.sbits then n else biased * 2 ^ f.sbits + (n - 2 ^ f.sbits)
    if decide (f.maxFinite false < mag) then ⟨f.overflow mode neg, flagOF ||| flagNX⟩
    else ⟨f.withSign neg mag, (if r.2 then flagNX else 0) ||| (if tiny && r.2 then flagUF else 0)⟩

def Fmt.nanResult (f : Fmt) (nv : Bool) : FpResult := ⟨f.nan, if nv then flagNV else 0⟩

/-- An exact value v × 2^e rounded; an exact zero has the sign that R92 gives sums (`zneg` when its sign is decided). -/
def Fmt.roundInt (f : Fmt) (mode : Mode) (v : Int) (e : Int) (zneg : Option Bool) : FpResult :=
  if v = 0 then ⟨f.withSign (zneg.getD (mode == .rdn)) 0, 0⟩
  else f.round mode (decide (v < 0)) v.natAbs e false

def signed (neg : Bool) (m : Nat) : Int := if neg then -(m : Int) else m

/-- The exact sum of two finite values, as v × 2^e. -/
def exactAdd (n1 : Bool) (m1 : Nat) (e1 : Int) (n2 : Bool) (m2 : Nat) (e2 : Int) : Int × Int :=
  let e := min e1 e2
  (signed n1 (m1 * 2 ^ (e1 - e).toNat) + signed n2 (m2 * 2 ^ (e2 - e).toNat), e)

def FVal.isNan : FVal → Bool
  | .nan _ => true
  | _ => false

def FVal.isSnan : FVal → Bool
  | .nan s => s
  | _ => false

/-- The canonical NaN of an operation that reads these operands, if one of them is a NaN (R90). -/
def Fmt.nanOf (f : Fmt) (xs : List FVal) : Option FpResult :=
  if xs.any FVal.isNan then some (f.nanResult (xs.any FVal.isSnan)) else none

/-- The sum of two values (R389, R92, R90). -/
def Fmt.addVal (f : Fmt) (mode : Mode) (x y : FVal) : FpResult :=
  match x, y with
  | .nan _, _ => f.nanResult false
  | _, .nan _ => f.nanResult false
  | .inf a, .inf b => if a == b then ⟨f.inf a, 0⟩ else f.nanResult true
  | .inf a, .fin _ _ _ => ⟨f.inf a, 0⟩
  | .fin _ _ _, .inf b => ⟨f.inf b, 0⟩
  | .fin n1 m1 e1, .fin n2 m2 e2 =>
    let s := exactAdd n1 m1 e1 n2 m2 e2
    f.roundInt mode s.1 s.2 (if n1 == n2 then some n1 else none)

def FVal.negate : FVal → FVal
  | .inf n => .inf (!n)
  | .fin n m e => .fin (!n) m e
  | .nan s => .nan s

def Fmt.add (f : Fmt) (mode : Mode) (x y : Nat) : FpResult :=
  let a := f.decode x
  let b := f.decode y
  (f.nanOf [a, b]).getD (f.addVal mode a b)

def Fmt.sub (f : Fmt) (mode : Mode) (x y : Nat) : FpResult :=
  let a := f.decode x
  let b := f.decode y
  (f.nanOf [a, b]).getD (f.addVal mode a b.negate)

def Fmt.mul (f : Fmt) (mode : Mode) (x y : Nat) : FpResult :=
  let a := f.decode x
  let b := f.decode y
  (f.nanOf [a, b]).getD <|
  match a, b with
  | .inf n1, .inf n2 => ⟨f.inf (n1 != n2), 0⟩
  | .inf n1, .fin n2 m _ => if m = 0 then f.nanResult true else ⟨f.inf (n1 != n2), 0⟩
  | .fin n1 m _, .inf n2 => if m = 0 then f.nanResult true else ⟨f.inf (n1 != n2), 0⟩
  | .fin n1 m1 e1, .fin n2 m2 e2 => f.round mode (n1 != n2) (m1 * m2) (e1 + e2) false
  | _, _ => f.nanResult false

/-- The exact product of two values, `none` when it is 0 × ∞. -/
def exactMul (a b : FVal) : Option FVal :=
  match a, b with
  | .inf n1, .inf n2 => some (.inf (n1 != n2))
  | .inf n1, .fin n2 m _ => if m = 0 then none else some (.inf (n1 != n2))
  | .fin n1 m _, .inf n2 => if m = 0 then none else some (.inf (n1 != n2))
  | .fin n1 m1 e1, .fin n2 m2 e2 => some (.fin (n1 != n2) (m1 * m2) (e1 + e2))
  | _, _ => some (.nan false)

/-- x × y + z rounded once; 0 × ∞ sets NV even when z is a quiet NaN (R388). -/
def Fmt.fma (f : Fmt) (mode : Mode) (x y z : Nat) : FpResult :=
  let a := f.decode x
  let b := f.decode y
  let c := f.decode z
  let snan := [a, b, c].any FVal.isSnan
  if a.isNan || b.isNan then f.nanResult snan
  else match exactMul a b with
    | none => f.nanResult true
    | some p => if c.isNan then f.nanResult snan else f.addVal mode p c

def Fmt.div (f : Fmt) (mode : Mode) (x y : Nat) : FpResult :=
  let a := f.decode x
  let b := f.decode y
  (f.nanOf [a, b]).getD <|
  match a, b with
  | .inf _, .inf _ => f.nanResult true
  | .inf n1, .fin n2 _ _ => ⟨f.inf (n1 != n2), 0⟩
  | .fin n1 _ _, .inf n2 => ⟨f.withSign (n1 != n2) 0, 0⟩
  | .fin n1 m1 e1, .fin n2 m2 e2 =>
    if m2 = 0 then if m1 = 0 then f.nanResult true else ⟨f.inf (n1 != n2), flagDZ⟩
    else if m1 = 0 then ⟨f.withSign (n1 != n2) 0, 0⟩
    else
      let k := 128 + Nat.log2 m2
      f.round mode (n1 != n2) (m1 * 2 ^ k / m2) (e1 - e2 - k) (m1 * 2 ^ k % m2 != 0)
  | _, _ => f.nanResult false

/-- Integer square root by Newton steps from above, `fuel` of them. -/
def isqrtLoop : Nat → Nat → Nat → Nat
  | 0, _, r => r
  | fuel + 1, n, r =>
    let r' := (r + n / r) / 2
    if r' < r then isqrtLoop fuel n r' else r

/-- The integer square root. -/
def isqrt (n : Nat) : Nat := if n = 0 then 0 else isqrtLoop 600 n (2 ^ (Nat.log2 n / 2 + 1))

def Fmt.sqrt (f : Fmt) (mode : Mode) (x : Nat) : FpResult :=
  match f.decode x with
  | .nan s => f.nanResult s
  | .inf n => if n then f.nanResult true else ⟨f.inf false, 0⟩
  | .fin n m e =>
    if m = 0 then ⟨f.withSign n 0, 0⟩
    else if n then f.nanResult true
    else
      let k : Nat := 256 + (e % 2).toNat
      let v := m * 2 ^ k
      let r := isqrt v
      f.round mode false r ((e - k) / 2) (r * r != v)

def Fmt.rcp (f : Fmt) (mode : Mode) (x : Nat) : FpResult :=
  match f.decode x with
  | .nan s => f.nanResult s
  | .inf n => ⟨f.withSign n 0, 0⟩
  | .fin n m e =>
    if m = 0 then ⟨f.inf n, flagDZ⟩
    else
      let k := 128 + Nat.log2 m
      f.round mode n (2 ^ k / m) (-e - k) (2 ^ k % m != 0)

def Fmt.rsq (f : Fmt) (mode : Mode) (x : Nat) : FpResult :=
  match f.decode x with
  | .nan s => f.nanResult s
  | .inf n => if n then f.nanResult true else ⟨f.withSign false 0, 0⟩
  | .fin n m e =>
    if m = 0 then ⟨f.inf n, flagDZ⟩
    else if n then f.nanResult true
    else
      let m' := m * 2 ^ (e % 2).toNat
      let e' := e - e % 2
      let k := 200 + Nat.log2 m'
      let r := isqrt (2 ^ (2 * k) / m')
      f.round mode false r (-(e' / 2) - k) (r * r * m' != 2 ^ (2 * k))

/-- ln 2 × 2^360, from the series of 1 / (k 2^k) (log 15). -/
def ln2Scaled : Nat := (List.range 360).foldl (fun s k => s + 2 ^ 360 / ((k + 1) * 2 ^ (k + 1))) 0

/-- e^t × 2^320 for t × 2^320 given, by the exponential series. -/
def expScaled (t : Nat) : Nat :=
  ((List.range 80).foldl (fun (p : Nat × Nat) k => (p.1 + p.2, p.2 * t / ((k + 1) * 2 ^ 320))) (0, 2 ^ 320)).1

/-- 2^x, correctly rounded: the exact value is irrational for every x that is not an integer, so a truncation to 320
bits with a sticky part decides the rounding (log 15). -/
def Fmt.exp2 (f : Fmt) (mode : Mode) (x : Nat) : FpResult :=
  match f.decode x with
  | .nan s => f.nanResult s
  | .inf n => if n then ⟨f.withSign false 0, 0⟩ else ⟨f.inf false, 0⟩
  | .fin neg m e =>
    if m = 0 then f.round mode false 1 0 false
    else if decide (e + Nat.log2 m ≥ 14) then
      if neg then f.round mode false 1 (-20000) true else f.round mode false 1 20000 true
    else if decide (e + Nat.log2 m < -80) then
      if neg then f.round mode false (2 ^ 128 - 1) (-128) true else f.round mode false (2 ^ 128) (-128) true
    else
      let b : Nat := 1100
      let v : Int := signed neg (m * 2 ^ (e + b).toNat)
      let n : Int := v / 2 ^ b
      let fr : Nat := (v % 2 ^ b).toNat
      if fr = 0 then f.round mode false 1 n false
      else f.round mode false (expScaled (fr * ln2Scaled / 2 ^ (b + 40))) (n - 320) true

/-- Binary digits of log2 of y × 2^-400, y from 2^400 up to 2^401, by repeated squaring: the number of the digits. -/
def log2Digits : Nat → Nat → Nat → Nat
  | 0, _, acc => acc
  | k + 1, y, acc =>
    let z := y * y / 2 ^ 400
    if z < 2 ^ 401 then log2Digits k z (2 * acc) else log2Digits k (z / 2) (2 * acc + 1)

/-- log2 x, correctly rounded (log 15). -/
def Fmt.log2 (f : Fmt) (mode : Mode) (x : Nat) : FpResult :=
  match f.decode x with
  | .nan s => f.nanResult s
  | .inf n => if n then f.nanResult true else ⟨f.inf false, 0⟩
  | .fin n m e =>
    if m = 0 then ⟨f.inf true, flagDZ⟩
    else if n then f.nanResult true
    else
      let k : Int := e + Nat.log2 m
      let y := m * 2 ^ (400 - Nat.log2 m)
      if y = 2 ^ 400 then f.roundInt mode k 0 (some false)
      else
        -- the value lies strictly between d and d + 1 units of 2^-300
        let d : Int := k * 2 ^ 300 + log2Digits 300 y 0
        if decide (0 ≤ d) then f.round mode false d.natAbs (-300) true
        else f.round mode true (-d - 1).natAbs (-300) true

/-- Order of two finite or infinite values, zeros of both signs equal. -/
def FVal.lt (x y : FVal) : Bool :=
  match x, y with
  | .inf a, .inf b => a && !b
  | .inf a, .fin _ _ _ => a
  | .fin _ _ _, .inf b => !b
  | .fin n1 m1 e1, .fin n2 m2 e2 => decide ((exactAdd n1 m1 e1 (!n2) m2 e2).1 < 0)
  | _, _ => false

def FVal.sign : FVal → Bool
  | .inf n => n
  | .fin n _ _ => n
  | .nan _ => false

/-- Order with −0 below +0 (R90). -/
def FVal.below (x y : FVal) : Bool := x.lt y || (!y.lt x && x.sign && !y.sign)

/-- FMIN and FMAX (R398): the pattern of the operand, never rounded. -/
def Fmt.minmax (f : Fmt) (isMax : Bool) (x y : Nat) : FpResult :=
  let a := f.decode x
  let b := f.decode y
  let fl := if a.isSnan || b.isSnan then flagNV else 0
  let x := x % 2 ^ f.width
  let y := y % 2 ^ f.width
  if a.isNan && b.isNan then ⟨f.nan, fl⟩
  else if a.isNan then ⟨y, fl⟩
  else if b.isNan then ⟨x, fl⟩
  else ⟨if a.below b != isMax then x else y, fl⟩

/-- The class mask of R256: −∞, −normal, −subnormal, −0, +0, +subnormal, +normal, +∞, signalling NaN, quiet NaN from
bit 0 upward. -/
def Fmt.classMask (f : Fmt) (x : Nat) : Nat :=
  match f.decode x with
  | .nan s => if s then 0x100 else 0x200
  | .inf n => if n then 0x001 else 0x080
  | .fin n m _ =>
    if m = 0 then if n then 0x008 else 0x010
    else if m < 2 ^ f.sbits then if n then 0x004 else 0x020
    else if n then 0x002 else 0x040

/-- FCMP (R255, R392): the condition and whether NV is set. -/
def Fmt.compare (f : Fmt) (cc : FCond) (x y : Nat) : Bool × Bool :=
  let a := f.decode x
  let b := f.decode y
  let un := a.isNan || b.isNan
  let sn := a.isSnan || b.isSnan
  match cc with
  | .eq => (!un && !a.lt b && !b.lt a, sn)
  | .ne => (un || a.lt b || b.lt a, sn)
  | .lt => (!un && a.lt b, un)
  | .le => (!un && !b.lt a, un)
  | .un => (un, sn)

/-! ### Conversions (R99) -/

/-- A value rounded to a destination format; infinities of E4M3 destinations become the largest finite with NV. -/
def Fmt.ofVal (f : Fmt) (mode : Mode) (x : FVal) : FpResult :=
  match x with
  | .nan s => f.nanResult s
  | .inf n => if f.hasInf then ⟨f.inf n, 0⟩ else ⟨f.maxFinite n, flagNV⟩
  | .fin n m e => f.round mode n m e false

/-- FCVT (R393): between equal formats the value is copied, but a NaN becomes the canonical NaN only when signalling. -/
def convertFF (dst src : FloatCode) (mode : Mode) (x : Nat) : FpResult :=
  let f := fmtOf src
  let v := f.decode x
  if dst = src then if v.isSnan then f.nanResult true else ⟨x % 2 ^ f.width, 0⟩
  else (fmtOf dst).ofVal mode v

def intCodeWidth : IntCode → Nat
  | .s8 | .n8 => 8 | .s16 | .n16 => 16 | .s32 | .n32 => 32 | .s64 | .n64 => 64

def intCodeSigned : IntCode → Bool
  | .s8 | .s16 | .s32 | .s64 => true
  | .n8 | .n16 | .n32 | .n64 => false

/-- The ends of an integer range. -/
def intMin (w : Nat) (sg : Bool) : Int := if sg then -(2 ^ (w - 1)) else 0
def intMax (w : Nat) (sg : Bool) : Int := if sg then 2 ^ (w - 1) - 1 else 2 ^ w - 1

/-- An integer as a `w`-bit pattern. -/
def intBits (w : Nat) (v : Int) : Nat := (v % 2 ^ w).toNat

/-- Float to integer (R99). -/
def toInt (mode : Mode) (w : Nat) (sg : Bool) (x : FVal) : FpResult :=
  match x with
  | .nan _ => ⟨0, flagNV⟩
  | .inf n => ⟨intBits w (if n then intMin w sg else intMax w sg), flagNV⟩
  | .fin n m e =>
    let r := roundAt mode n m e 0 false
    let v := Machine.signed n r.1
    if v < intMin w sg then ⟨intBits w (intMin w sg), flagNV⟩
    else if intMax w sg < v then ⟨intBits w (intMax w sg), flagNV⟩
    else ⟨intBits w v, if r.2 then flagNX else 0⟩

/-- Integer to float (R99). -/
def ofInt (f : Fmt) (mode : Mode) (v : Int) : FpResult := f.roundInt mode v 0 (some false)

/-- The integer that a `w`-bit pattern holds. -/
def intOf (w : Nat) (sg : Bool) (x : Nat) : Int := if sg then toSigned w x else ((x % 2 ^ w : Nat) : Int)

end Sys2Proof.Machine
end

