-- ==== Sys2Proof/Machine/Views.lean ====
section
/-!
DEFINITION. Column and tile aliases of view-capable regions (04 R145 to R149): where an alias byte lies; and lines under
migration (05 R170).
-/
namespace Sys2Proof.Machine

/-- Where a die's migration unit has copied the line of an address to, and under which key. -/
def Die.movedTo (d : Die) (pa : Nat) : Option (Nat × Nat) :=
  match d.migration with
  | some g => if decide (g.src ≤ pa) && decide (pa < g.src + 128 * g.lines) && (g.state == 0 || g.state == 1)
      then some (g.dst + (pa - g.src), g.dkey) else none
  | none => none

/-- One hop after another, at most one for each die's unit. -/
def State.forwardFrom (s : State) : Nat → Nat → Nat → Nat × Nat
  | 0, pa, key => (pa, key)
  | fuel + 1, pa, key =>
    match s.dies.findSome? fun e => e.2.movedTo pa with
    | some r => State.forwardFrom s fuel r.1 r.2
    | none => (pa, key)

/-- A line under migration that has been copied is reached at its destination, under the destination key, and one that was
copied on at the last destination (R170). -/
def State.forward (s : State) (pa key : Nat) : Nat × Nat := s.forwardFrom 8 pa key

/-- Geometry of a view-capable region from its entry (R145): base, row length, rows, element size; `none` when the
entry is not valid or holds a reserved value. -/
def viewGeometry (stack : Nat) (w : Word) : Option (Nat × Nat × Nat × Nat) :=
  let size := 2 ^ (fld w 46 43 + 21)
  let rowLen := 2 ^ (fld w 51 47 + 12)
  let base := fld w 42 21 * 2 ^ 21
  if !bitAt w 63 || fld w 53 52 == 3 || decide (14 ≤ fld w 46 43) || decide (size < rowLen)
      || base / 2 ^ 36 != stack || decide ((stack + 1) * 2 ^ 36 < base + size) then none
  else some (base, rowLen, size / rowLen, 2 ^ fld w 53 52)

/-- Row-view byte of an alias byte (R147): `some none` is padding of a short tile view, `none` is outside the span
(R149). -/
def viewByte (view base rowLen rows e off : Nat) : Option (Option Nat) :=
  let j := off % e
  if view = 1 then
    if rows * rowLen ≤ off then none
    else
      let c := off / (rows * e)
      let r := off % (rows * e) / e
      some (some (base + r * rowLen + c * e + j))
  else
    let el := off / e
    let cols := rowLen / e
    let r := el / (32 * cols) * 32 + el % 1024 / 32
    let c := el % (32 * cols) / 1024 * 32 + el % 32
    let span := if rows < 32 then 32 * rowLen else rows * rowLen
    if span ≤ off then none
    else if rows ≤ r then some none
    else some (some (base + r * rowLen + c * e + j))

/-- The row-view byte that alias byte `pa` reaches by viewset entry `vset`, for a page of key id `key`. -/
def State.viewAt (s : State) (vset key pa : Nat) : Option (Option Nat) :=
  let low := pa % 2 ^ 50
  let st := low / 2 ^ 36 % 16
  let w := (s.stks.get st .zero).vset.get vset 0
  match viewGeometry st w with
  | none => none
  | some (base, rowLen, rows, e) =>
    if fld w 59 54 ≠ key ∨ low < base then none
    else viewByte (pa / 2 ^ 50 % 4) base rowLen rows e (low - base)

/-- A line of a column or tile alias. -/
def aliasLine (line : Nat) : Bool := line / 2 ^ 43 % 4 == 1 || line / 2 ^ 43 % 4 == 2

/-- A line inside the row view of a valid viewset entry. -/
def State.rowOfView (s : State) (line : Nat) : Bool :=
  let pa := 128 * line
  let st := pa / 2 ^ 36
  decide (st < 16) && (s.stks.get st .zero).vset.any fun e => match viewGeometry st e.2 with
    | some (base, rowLen, rows, _) => decide (base ≤ pa) && decide (pa < base + rowLen * rows)
    | none => false

/-- Bytes of `b` where `mask` is set, of `a` elsewhere. -/
def mergeLine (a b : Line) (mask : BitVec 128) : Line :=
  (List.range 128).foldl (fun l k => if mask.getLsbD k then setLineByte l k (lineByte b k) else l) a

/-- View errors of the stack controller (R147, R149). -/
def State.viewError (s : State) (pa : Nat) : State :=
  let st := pa % 2 ^ 50 / 2 ^ 36 % 16
  let k := s.stks.get st .zero
  { s with stks := s.stks.set st { k with verr := satInc48 k.verr } }

end Sys2Proof.Machine
end

