-- ==== Sys2Proof/Machine/Loam.lean ====
section
/-!
DEFINITION. Units of the package by number, the keys of threads, and the Loam pool: register windows, scratch,
speculation areas and rings as the windows reach them (02 R64 to R75, 04 R119 to R122, 08 R224).
-/
namespace Sys2Proof.Machine

/-! ### Units -/

def State.core (s : State) (n : Nat) : Core := s.cores.get n .zero
def State.hart (s : State) (n : Nat) : Hart := s.harts.get n .zero
def State.die (s : State) (d : Nat) : Die := s.dies.get d .zero
def State.stk (s : State) (n : Nat) : Stack := s.stks.get n .zero
def State.net (s : State) (n : Nat) : NetEngine := s.nets.get n .zero
def State.port (s : State) (n : Nat) : Port := s.ports.get n .zero
def State.thread (s : State) (k : Nat) : Thread := s.threads.get k .zero

/-- QUIESCE has reached the units, or the package is quiesced: no unit starts anything (R312, R313). -/
def State.halted (s : State) : Bool := s.pkg.qsd || (s.pkg.qbusy && s.pkg.qcmd == 1) || s.pkg.inReset

def State.setCore (s : State) (n : Nat) (c : Core) : State := { s with cores := s.cores.set n c }
def State.setHart (s : State) (n : Nat) (h : Hart) : State := { s with harts := s.harts.set n h }
def State.setDie (s : State) (n : Nat) (d : Die) : State := { s with dies := s.dies.set n d }
def State.setStk (s : State) (n : Nat) (d : Stack) : State := { s with stks := s.stks.set n d }
def State.setNet (s : State) (n : Nat) (d : NetEngine) : State := { s with nets := s.nets.set n d }
def State.setPort (s : State) (n : Nat) (d : Port) : State := { s with ports := s.ports.set n d }
def State.setThread (s : State) (k : Nat) (t : Thread) : State := { s with threads := s.threads.set k t }
def State.modThread (s : State) (k : Nat) (f : Thread → Thread) : State := s.setThread k (f (s.thread k))
def State.modCore (s : State) (n : Nat) (f : Core → Core) : State := s.setCore n (f (s.core n))
def State.modHart (s : State) (n : Nat) (f : Hart → Hart) : State := s.setHart n (f (s.hart n))
def State.modDie (s : State) (n : Nat) (f : Die → Die) : State := s.setDie n (f (s.die n))
def State.modCrew (s : State) (c : Nat) (f : Crew → Crew) : State := { s with crews := s.crews.update c f }
def State.modGang (s : State) (c : Nat) (f : Gang → Gang) : State := { s with gangs := s.gangs.update c f }

/-! ### Keys of threads: hardware thread n has key n, lane l of crew c has key 256 + 32c + l -/

def laneKey (crew lane : Nat) : Nat := 256 + 32 * crew + lane
def isLat (k : Nat) : Bool := decide (k < 256)
def crewOf (k : Nat) : Nat := (k - 256) / 32
def laneOf (k : Nat) : Nat := (k - 256) % 32

/-- The crew of a SIMT thread. -/
def State.crewAt (s : State) (k : Nat) : Option Crew := if isLat k then none else s.crews.find (crewOf k)

/-- The SIMT core of a thread's crew. -/
def State.coreOf (s : State) (k : Nat) : Nat :=
  match s.crewAt k with
  | some c => c.core
  | none => 0

/-- The context registers of an ASID on a SIMT core (R481). -/
def Core.ctxOf (c : Core) (asid : Nat) : Ctx := c.ctxs.get asid .zero

/-- The context registers a thread runs under (R481). -/
def State.ctxOf (s : State) (k : Nat) : Ctx :=
  if isLat k then (s.hart k).ctx
  else match s.crewAt k with
    | some c => (s.core c.core).ctxOf c.asid
    | none => .zero

def Ctx.asid (c : Ctx) : Nat := fld c.pgroot 15 0

/-- The cache agent of a thread (R175): its SIMT core, or 384 + its latency core. -/
def State.agentOf (s : State) (k : Nat) : Nat := if isLat k then 384 + k / 2 else s.coreOf k

/-- The lanes of a crew that hold a thread, in lane order. -/
def State.laneKeys (s : State) (c : Nat) : List Nat :=
  (((List.range 32).map (laneKey c)).filter fun k => (s.threads.find k).isSome)

/-- Crews resident on a core (in a slot, stopped or not). -/
def CrewPlace.onCore : CrewPlace → Bool
  | .resident | .stopping | .parkedFault | .spilling | .shadow => true
  | .saved _ => false

def State.crewsOn (s : State) (core : Nat) : List (Nat × Crew) :=
  s.crews.filter fun e => e.2.core == core && e.2.place.onCore

/-! ### Loam bytes -/

def granule : Nat := 16384

def Core.bank (c : Core) (b : Bool) : Bank := if b then c.bank1 else c.bank0
def Core.setBank (c : Core) (b : Bool) (k : Bank) : Core := if b then { c with bank1 := k } else { c with bank0 := k }

/-- Bytes of the scratch, speculation and ring portions of a bank. -/
def State.loamBytes (s : State) (core : Nat) (b : Bool) (off n : Nat) : List Byte :=
  ((s.core core).bank b).bytes.bytes off n

/-- Words that a write covers whole have good parity again (R84). -/
def Core.goodParity (c : Core) (b : Bool) (off n : Nat) : Core :=
  { c with badParity := c.badParity.filter fun e => !(e.1 == b && decide (off ≤ e.2) && decide (e.2 + 4 ≤ off + n)) }

def State.putLoam (s : State) (core : Nat) (b : Bool) (off : Nat) (bs : List Byte) : State :=
  s.modCore core fun c => (c.setBank b { c.bank b with bytes := (c.bank b).bytes.puts off bs }).goodParity b off bs.length

/-- What a bank keeps beside the bytes of a range is gone: tags, and what the hardware holds of descriptors. -/
def Bank.forget (b : Bank) (base n : Nat) : Bank :=
  let out := fun {β : Type} (e : Nat × β) => decide (e.1 < base) || decide (base + n ≤ e.1)
  { b with tags := b.tags.filter fun e => out (e.1 * granule, ()), rings := b.rings.filter out, cbs := b.cbs.filter out }

/-- Offset of the speculation area of a crew (R67). -/
def Crew.specBase (c : Crew) : Nat := c.base + c.lsg * granule

/-- Whether some 32-bit word of a Loam range has bad parity (R84). -/
def Core.badIn (c : Core) (b : Bool) (off n : Nat) : Bool :=
  c.badParity.any fun e => e.1 == b && decide (off / 4 * 4 ≤ e.2) && decide (e.2 < off + n)

/-- Every Loam parity error raises the core's counter (R84). -/
def State.countParity (s : State) (core : Nat) : State :=
  s.modCore core fun c => { c with counters := { c.counters with parity := satInc48 c.counters.parity } }

/-- Offsets of the words of bad parity among `n` bytes of the crew's speculation area. -/
def State.specBad (s : State) (c : Crew) (off n : Nat) : List Nat :=
  ((List.range (n / 4)).map fun i => c.specBase + off + 4 * i).filter fun a => (s.core c.core).badIn c.bank a 4

/-- A word at an offset of the crew's speculation area, as the hardware reads it: zero for a half of bad parity (R84). -/
def State.specWord (s : State) (c : Crew) (off : Nat) : Word :=
  let w := BitVec.ofNat 64 (bytesToNat (s.loamBytes c.core c.bank (c.specBase + off) 8))
  match s.specBad c off 8 with
  | [] => w
  | bad => w &&& (if bad.contains (c.specBase + off) then 0 else 0xFFFFFFFF)
      ||| w &&& (if bad.contains (c.specBase + off + 4) then 0 else 0xFFFFFFFF00000000)

/-- The hardware counts the bad words of a descriptor that it read (R84). -/
def State.countSpec (s : State) (c : Crew) (off n : Nat) : State :=
  (s.specBad c off n).foldl (fun s _ => s.countParity c.core) s

def State.putSpecWord (s : State) (c : Crew) (off : Nat) (w : Word) : State :=
  s.putLoam c.core c.bank (c.specBase + off) (natBytes 8 w.toNat)

/-- Offset of ring k's descriptor in the crew's bank (R224). -/
def Crew.ringAt (c : Crew) (k : Nat) : Nat := c.specBase + 0x7D00 + 32 * k

/-- Ring k as the hardware holds it: VALID, LSLOT and SBASE are read-only to the program (R224). -/
def State.ringCfg (s : State) (c : Crew) (k : Nat) : Word := ((((s.core c.core).bank c.bank).rings.get (c.ringAt k) (0, 0))).1

/-- Counters of a ring within their ranges: HEAD and TAIL below the slots, CLOSED up to them (R224). -/
def ringInRange (cfg w : Word) : Word :=
  let n := 2 ^ fld cfg 33 32
  BitVec.ofNat 64 (fld w 18 16 % n * 2 ^ 16 + fld w 14 12 % n * 2 ^ 12 + fld w 11 8 % (n + 1) * 2 ^ 8)

/-- Ring k's counters: unpredictable once the program has stored to its descriptor (R224), but for zeros in the place of bad
words (R84). -/
def State.ringCtr (s : State) (c : Crew) (k : Nat) : Word :=
  let left := ((((s.core c.core).bank c.bank).rings.get (c.ringAt k) (0, 0)))
  let cfg := s.specWord c (0x7D00 + 32 * k)
  let w := s.specWord c (0x7D00 + 32 * k + 8)
  if cfg = left.1 ∧ w = left.2 then w
  else if !(s.specBad c (0x7D00 + 32 * k) 16).isEmpty then ringInRange left.1 w
  else ringInRange left.1 (Config.scrambled left.2 (if cfg = left.1 then w else cfg))

/-- Ring k's descriptor written by the hardware (R224). -/
def State.putRing (s : State) (c : Crew) (k : Nat) (cfg w : Word) : State :=
  let s1 := s.modCore c.core fun x => x.setBank c.bank { x.bank c.bank with
    rings := if cfg = 0 then (x.bank c.bank).rings.del (c.ringAt k) else (x.bank c.bank).rings.set (c.ringAt k) (cfg, w) }
  (s1.putSpecWord c (0x7D00 + 32 * k) cfg).putSpecWord c (0x7D00 + 32 * k + 8) w

/-- Whether `n` bytes at offset `off` lie in a ring slot of the crew (R74). -/
def State.inRings (s : State) (c : Crew) (off n : Nat) : Bool :=
  (List.range 4).any fun k =>
    let w := s.ringCfg c k
    let b := fld w 21 0
    bitAt w 63 && decide (b ≤ off) && decide (off + n ≤ b + 2 ^ fld w 33 32 * granule)

/-- The thread of the crew in whose register window `off` lies (R68, R74). -/
def State.windowThread (s : State) (crew off : Nat) : Option Nat :=
  (s.laneKeys crew).find? fun k =>
    let t := s.thread k
    decide (t.loambase ≤ off) && decide (off < t.loambase + 8 * t.regcnt)

/-- What an offset of a core's active bank reaches for a crew (R74), or for a gang window (R121). -/
inductive LoamSpot where
  | bytes (bank : Bool)
  | reg (thread n sub : Nat)
  | nothing
  deriving DecidableEq, Repr

def Crew.inScratch (c : Crew) (off n : Nat) : Bool := decide (c.base ≤ off) && decide (off + n ≤ c.base + c.lsg * granule)
def Crew.inAlloc (c : Crew) (off n : Nat) : Bool :=
  decide (c.base ≤ off) && decide (off + n ≤ c.base + (c.lsg + 2) * granule)

/-- The Loam window of the executing thread's own core (R74). -/
def State.ownSpot (s : State) (crew off n : Nat) : LoamSpot :=
  match s.crews.find crew with
  | none => .nothing
  | some c =>
    if c.inAlloc off n || s.inRings c off n then .bytes c.bank
    else match s.windowThread crew off with
      | some k =>
        let t := s.thread k
        if decide (off + n ≤ t.loambase + 8 * t.regcnt) then .reg k ((off - t.loambase) / 8) ((off - t.loambase) % 8)
        else .nothing
      | none => .nothing

/-- The gang window onto core `core` (R121): scratch of the gang's crews there. -/
def State.gangSpot (s : State) (seq core off n : Nat) : LoamSpot :=
  match (s.crewsOn core).find? fun e => e.2.seq == seq && e.2.bank == bitAt (s.core core).partWord 41 && e.2.inScratch off n with
  | some e => .bytes e.2.bank
  | none => .nothing

/-- Bytes of a thread's registers from register `n`, byte `sub`; g0 reads zero. -/
def State.regBytes (s : State) (k n sub len : Nat) : List Byte :=
  let t := s.thread k
  (List.range len).map fun i =>
    let j := 8 * n + sub + i
    if j / 8 = 0 then 0 else (t.regs.toList.getD (j / 8) 0).extractLsb' (8 * (j % 8)) 8

/-- One byte of a register replaced; g0 stays zero. -/
def Thread.putRegByte (t : Thread) (j : Nat) (b : Byte) : Thread :=
  if h : j / 8 < 64 then
    if j / 8 = 0 then t
    else
      let old := t.regs[j / 8]
      let sh := 8 * (j % 8)
      { t with regs := t.regs.set (j / 8) ((old &&& ~~~((255 : Word) <<< sh)) ||| ((b.setWidth 64) <<< sh)) }
  else t

def State.putRegBytes (s : State) (k n sub : Nat) (bs : List Byte) : State :=
  let first := 8 * n + sub
  let whole := fun (w : Nat) => decide (first ≤ 4 * w) && decide (4 * w + 4 ≤ first + bs.length)
  let good := (List.range 128).foldl (fun (m : BitVec 128) w => if whole w then m &&& ~~~(1#128 <<< w) else m) (BitVec.allOnes 128)
  s.modThread k fun t =>
    let t1 := (bs.foldl (fun (p : Thread × Nat) b => (p.1.putRegByte p.2 b, p.2 + 1)) (t, first)).1
    { t1 with parity := t1.parity &&& good }

def State.readSpot (s : State) (core : Nat) (sp : LoamSpot) (off n : Nat) : List Byte :=
  match sp with
  | .bytes b => s.loamBytes core b off n
  | .reg k r sub => s.regBytes k r sub n
  | .nothing => List.replicate n 0

def State.writeSpot (s : State) (core : Nat) (sp : LoamSpot) (off : Nat) (bs : List Byte) : State :=
  match sp with
  | .bytes b => s.putLoam core b off bs
  | .reg k r sub => s.putRegBytes k r sub bs
  | .nothing => s

/-- The offsets `off` to `off + n` that stand in words of a register window with bad parity; the first word begins at
register byte `b`. -/
def Thread.badBytes (t : Thread) (b n : Nat) : List Nat :=
  (List.range n).filter fun i => t.parity.getLsbD ((b + i) / 4)

/-- Bytes of a Loam range, by index, that stand in words of bad parity (R84). -/
def State.spotBad (s : State) (core : Nat) (sp : LoamSpot) (off n : Nat) : List Nat :=
  match sp with
  | .bytes b => (List.range n).filter fun i => (s.core core).badIn b ((off + i) / 4 * 4) 1
  | .reg k r sub => (s.thread k).badBytes (8 * r + sub) n
  | .nothing => []

/-- The 32-bit words, by number of the word, that those bytes stand in. -/
def badWordsOf (off : Nat) (bad : List Nat) : List Nat := (bad.map fun i => (off + i) / 4).dedup

/-- Loam bytes that an engine reads: words of bad parity read zero and are counted (R84, R143). The third part names
each such word. -/
def State.engineLoam (s : State) (core off n : Nat) (sp : LoamSpot) : State × List Byte × List Nat :=
  let bad := s.spotBad core sp off n
  let words := badWordsOf off bad
  let bs := (s.readSpot core sp off n).zipIdx.map fun e => if bad.contains e.2 then 0 else e.1
  (words.foldl (fun s _ => s.countParity core) s, bs, words.map fun w => 2 ^ 60 + core * 2 ^ 24 + 4 * w)

/-- Format tag and scaled bit of the granule that holds an offset (R132). -/
def State.tag (s : State) (core : Nat) (b : Bool) (off : Nat) : Nat × Bool :=
  ((s.core core).bank b).tags.get (off / granule) (0, false)

def State.setTag (s : State) (core : Nat) (b : Bool) (off : Nat) (t : Nat × Bool) : State :=
  s.modCore core fun c => c.setBank b { c.bank b with
    tags := if t.1 = 0 && !t.2 then (c.bank b).tags.del (off / granule) else (c.bank b).tags.set (off / granule) t }

end Sys2Proof.Machine
end

