-- ==== Sys2Proof/Machine/Coherence.lean ====
section
/-!
DEFINITION. The coherence directory (06 R175 to R194): homes and their entries, the messages between agents and a line's
home, and the copies that agents hold. Each row GETS to PROMOTE of the table is one message taken by its receiver; a
memory access posts its request and lets the messages that follow run to their end (`settle`).
-/
namespace Sys2Proof.Machine

/-! ### Atomic operations (R365, R367, R372) -/

/-- The new value of an AMO or CAS on `n` bits, from the old value, the operand and the comparand. -/
def atomicNew (i : Instr) (n old v c : Nat) : Nat :=
  let old := old % 2 ^ n
  let v := v % 2 ^ n
  match i with
  | .amoAdd .. => (old + v) % 2 ^ n
  | .amoAnd .. => old &&& v
  | .amoOr .. => old ||| v
  | .amoXor .. => old ^^^ v
  | .amoMin .. => if toSigned n old ≤ toSigned n v then old else v
  | .amoMax .. => if toSigned n old ≤ toSigned n v then v else old
  | .amoMinu .. => min old v
  | .amoMaxu .. => max old v
  | .amoSwap .. => v
  | .amoFadd .. => ((fmtOf .s).add .rne old v).bits
  | .cas .. => if old = c % 2 ^ n then v else old
  | _ => old

/-! ### Homes (R176) -/

/-- The SIMT die that is a line's home: two stacks each. An alias line has its home where its row-view address, the alias
bits off, would place it. -/
def homeDie (line : Nat) : Nat := 128 * line / 2 ^ 37 % 8

/-- The slice within that die: PA[10:7] XOR PA[14:11] XOR PA[18:15] XOR PA[22:19]. -/
def homeSlice (line : Nat) : Nat :=
  let f := fun (b : Nat) => 128 * line / 2 ^ b % 16
  f 7 ^^^ f 11 ^^^ f 15 ^^^ f 19

/-- The id under which a line's home takes and sends messages (not an agent id of R14). -/
def homeOf (line : Nat) : Nat := 1024 + 16 * homeDie line + homeSlice line

/-! ### Copies, storage and tags -/

def MemSys.findCopy (m : MemSys) (agent line : Nat) : Option Copy :=
  m.copies.find? fun c => c.agent == agent && c.line == line

def MemSys.dropCopy (m : MemSys) (agent line : Nat) : MemSys :=
  { m with copies := m.copies.filter fun c => !(c.agent == agent && c.line == line) }

def MemSys.putCopy (m : MemSys) (c : Copy) : MemSys :=
  { m with copies := c :: (m.dropCopy c.agent c.line).copies }

def MemSys.lineMeta (m : MemSys) (line : Nat) : LineMeta := m.lines.get line ⟨0, false⟩

/-- Whether a line of storage is poisoned when read under key id `key` (R151). -/
def MemSys.poisoned (m : MemSys) (line key : Nat) : Bool :=
  let t := m.lineMeta line
  t.poison || t.key != key

/-- The bytes of `mask` written to a line under a key id: a whole line gets a new tag; a partial store to a poisoned
line is dropped (R151). -/
def MemSys.writeLine (m : MemSys) (line : Nat) (d : Line) (mask : BitVec 128) (key : Nat) : MemSys :=
  if mask = fullMask then
    { m with bytes := m.bytes.putLine line d mask,
             lines := if key = 0 then m.lines.del line else m.lines.set line ⟨key, false⟩ }
  else if m.poisoned line key then m
  else { m with bytes := m.bytes.putLine line d mask }

/-- The bytes of a copy that its agent wrote reach L2 (R190 to R192): no byte that it did not write changes there. -/
def MemSys.writeBack (m : MemSys) (c : Copy) : MemSys :=
  if c.dirty = 0 then m else m.writeLine c.line c.data c.dirty c.key

/-- The copy of a tracked line that may hold a value newer than storage. -/
def MemSys.ownerCopy (m : MemSys) (line : Nat) : Option Copy :=
  m.copies.find? fun c => c.line == line && c.tracked && (c.st == .m || c.st == .o)

/-- Where a tracked line's value stands when it is not in storage: the owner's copy, or a write-back in flight. -/
def MemSys.newest (m : MemSys) (line : Nat) : Option Copy :=
  (m.ownerCopy line).or (m.wbufs.find? fun c => c.line == line && c.dirty != 0)

/-- A row-view line's present value (RdOnce, R175, R185). -/
def MemSys.peekLine (m : MemSys) (line : Nat) : Line :=
  match m.newest line with
  | some c => c.data
  | none => m.bytes.line line

/-- Whether a line's present value is poisoned for a reader under key id `key`: it was written under another (R151). -/
def MemSys.peekPoisoned (m : MemSys) (line key : Nat) : Bool :=
  match m.newest line with
  | some c => c.key != key
  | none => m.poisoned line key

/-- An alias line as its home serves it, by the viewset entry that stands now: each byte from its row-view home; `none` is
a poisoned line (R149, R151). -/
def State.viewLine (s : State) (vset key line : Nat) : Option Line :=
  let byte := fun (i : Nat) => match s.viewAt vset key (128 * line + i) with
    | some (some a) =>
      let f := s.forward a key
      if s.mem.poisoned (lineOf f.1) f.2 then none else some (s.mem.bytes.byte f.1)
    | some none => some (0 : Byte)
    | none => none
  let bs := (List.range 128).map byte
  if bs.any Option.isNone then none else some (lineOfBytes (bs.map fun b => b.getD 0))

/-- A line of either kind as storage holds it; zero where an alias line is poisoned. -/
def State.storedLine (s : State) (line vset key : Nat) : Line :=
  if aliasLine line then (s.viewLine vset key line).getD 0 else s.mem.bytes.line line

/-- The value of a line that an RdOnce takes, without any effect on copies; `none` is poison (R149, R151, R175, R185). -/
def State.readOnce (s : State) (line vset key : Nat) : Option Line :=
  if aliasLine line then
    match s.mem.newest line with
    | some c => if c.key = key then some c.data else none
    | none => s.viewLine vset key line
  else if s.mem.peekPoisoned line key then none
  else some (s.mem.peekLine line)

/-- Whether a line reads as poison for an agent, which reads its own copy first. -/
def State.readPoisoned (s : State) (agent line vset key : Nat) : Bool :=
  match s.mem.findCopy agent line with
  | some c => c.key != key
  | none => (s.readOnce line vset key).isNone

/-! ### Directory entries -/

def DirEntry.covers (e : DirEntry) (line : Nat) : Bool :=
  decide (e.base ≤ line) && decide (line < e.base + 2 ^ e.cls)

/-- The entry of a line: no two entries overlap (R351). -/
def MemSys.entry (m : MemSys) (line : Nat) : Option DirEntry := m.dir.find? (·.covers line)

def DirEntry.same (a b : DirEntry) : Bool := a.base == b.base && a.cls == b.cls

/-- An entry with no copy is freed (R177). -/
def DirEntry.isEmpty (e : DirEntry) : Bool := e.owner.isNone && e.ptrs.isEmpty && (!e.coarse || (e.vec == 0 && !e.hostc))

def MemSys.putEntry (m : MemSys) (e : DirEntry) : MemSys :=
  let rest := m.dir.filter fun x => !x.same e
  { m with dir := if e.isEmpty then rest else e :: rest }

def MemSys.dropEntry (m : MemSys) (line : Nat) : MemSys := { m with dir := m.dir.filter fun e => !e.covers line }

/-- The agents that the entry names as sharers (R181): pointers, or every agent of the set groups. -/
def DirEntry.sharers (e : DirEntry) : List Pointer :=
  if e.coarse then
    ((List.range 512).filter fun a => e.vec.getLsbD (a / 8)).map (fun a => ⟨e.kany, a⟩)
      ++ (if e.hostc then [⟨false, Config.hostAgent⟩] else [])
  else e.ptrs

/-- The stable state that owner and sharers give (R177). -/
def DirEntry.settleState (e : DirEntry) : DirEntry :=
  let sharers := !e.ptrs.isEmpty || (e.coarse && (e.vec != 0 || e.hostc))
  { e with hst := match e.owner, sharers with
      | some _, true => .ho
      | some _, false => .hx
      | none, _ => .hs }

/-- An exact sharer in pointer form (R186). -/
def DirEntry.exact (e : DirEntry) (q : Nat) : Bool := !e.coarse && e.ptrs.any fun p => p.agent == q && !p.k

/-- A coarse vector with an agent's group set; the host has a flag of its own. -/
def DirEntry.mark (e : DirEntry) (p : Pointer) : DirEntry :=
  if p.agent = Config.hostAgent then { e with hostc := true }
  else { e with vec := e.vec ||| (1#64 <<< (p.agent / 8)), kany := e.kany || p.k }

/-- A new sharer (R181): a fifth pointer turns the entry to coarse form. -/
def DirEntry.addSharer (e : DirEntry) (p : Pointer) : DirEntry :=
  if e.coarse then e.mark p
  else if e.ptrs.contains p then e
  else if e.ptrs.length < 4 then { e with ptrs := e.ptrs ++ [p] }
  else (e.ptrs ++ [p]).foldl DirEntry.mark { e with coarse := true, ptrs := [], vec := 0, kany := false, hostc := false }

/-- An entry owned by `q` alone (HX). -/
def DirEntry.owned (base cls q : Nat) : DirEntry := ⟨base, cls, .hx, false, false, false, some q, 0, [], 0⟩

/-- The entry after a GetM or Upg of `q`: HX, pointer form, no sharers (R185); only a conflict or split clears QUIET
(R184). -/
def DirEntry.ownedBy (e : DirEntry) (q : Nat) : DirEntry := { DirEntry.owned e.base e.cls q with quiet := e.quiet }

/-- SHR of the state word: four pointers, or the coarse vector (R181). -/
def DirEntry.shr (e : DirEntry) : Nat :=
  if e.coarse then e.vec.toNat
  else e.ptrs.zipIdx.foldl (fun n p => n + (2 ^ 15 + 2 ^ 14 * boolBit p.1.k + p.1.agent % 1024) * 2 ^ (16 * p.2)) 0

def HomeState.code : HomeState → Nat
  | .hs => 1 | .hx => 2 | .ho => 3

/-- The 96-bit state word of an entry, as the management interface reads it (R180). -/
def DirEntry.stateWord (e : DirEntry) : BitVec 96 :=
  BitVec.ofNat 96 (e.cls * 2 ^ 92 + e.hst.code * 2 ^ 90 + boolBit e.coarse * 2 ^ 89 + boolBit (e.coarse && e.kany) * 2 ^ 88
    + boolBit (e.coarse && e.hostc) * 2 ^ 87 + boolBit e.owner.isSome * 2 ^ 84 + e.owner.getD 0 % 1024 * 2 ^ 74
    + e.quiet % 8 * 2 ^ 64 + e.shr)

/-- Splitting an entry down to the single line, every half keeping the old fields with QUIET = 0 (R183). -/
def splitEntry : Nat → DirEntry → Nat → List DirEntry
  | 0, e, _ => [{ e with quiet := 0 }]
  | c + 1, e, line =>
    let half := 2 ^ c
    let lo := { e with cls := c, quiet := 0 }
    let hi := { e with base := e.base + half, cls := c, quiet := 0 }
    if line < e.base + half then hi :: splitEntry c lo line else lo :: splitEntry c hi line

/-- Whether a request conflicts with an entry of class above 0 (R183). -/
def DirEntry.conflicts (e : DirEntry) (k : MsgKind) (q : Nat) : Bool :=
  decide (0 < e.cls) &&
  ((match e.owner with | some o => o != q | none => false)
   || ((k == .getm || k == .upg) && e.sharers.any (fun p => p.agent != q))
   || ((k == .wr || k == .atomic) && (e.owner.isSome || !e.sharers.isEmpty)))

/-- The class of a new entry for a line (R183, R351): the largest, up to 9, whose aligned region overlaps no entry. -/
def MemSys.freshClass (m : MemSys) (line : Nat) : Nat :=
  let fits := fun (c : Nat) =>
    let b := line / 2 ^ c * 2 ^ c
    m.dir.all fun e => decide (e.base + 2 ^ e.cls ≤ b) || decide (b + 2 ^ c ≤ e.base)
  ((List.range 10).reverse.find? fits).getD 0

/-- The entry that a request allocates for a line which no entry covers (R183). -/
def MemSys.newEntry (m : MemSys) (x : Msg) : Option DirEntry :=
  let c := m.freshClass x.line
  let base := x.line / 2 ^ c * 2 ^ c
  match x.kind with
  | .gets | .getm | .upg => some (.owned base c x.req)
  | .kget => some { DirEntry.owned base c x.req with owner := none, hst := .hs, ptrs := [⟨true, x.req⟩] }
  | _ => none

/-- What a request changes in the directory before it is handled: the entry that goes, and the entries that come: the
pieces of a split, or a new entry. -/
def MemSys.reshape (m : MemSys) (x : Msg) : Option DirEntry × List DirEntry :=
  match m.entry x.line with
  | none => (none, (m.newEntry x).toList)
  | some e => if e.conflicts x.kind x.req then (some e, splitEntry e.cls e x.line) else (none, [])

def MemSys.reshaped (m : MemSys) (x : Msg) : MemSys :=
  let r := m.reshape x
  { m with dir := r.2.reverse ++ m.dir.filter fun e => some e != r.1 }

/-- The entry in use becomes the most recently used of its set. -/
def MemSys.touch (m : MemSys) (line : Nat) : MemSys :=
  match m.entry line with
  | some e => { m with dir := e :: m.dir.filter (· != e) }
  | none => m

/-! ### Messages -/

def State.post (s : State) (m : Msg) : State :=
  { s with mem := { s.mem with msgs := s.mem.msgs.set s.nxt.msg m }, nxt := { s.nxt with msg := s.nxt.msg + 1 } }

def State.postAll (s : State) (ms : List Msg) : State := ms.foldl State.post s

def State.unpost (s : State) (id : Nat) : State :=
  { s with mem := { s.mem with msgs := s.mem.msgs.del id } }

def State.withMem (s : State) (m : MemSys) : State := { s with mem := m }

def Msg.plain (k : MsgKind) (line src dst req : Nat) : Msg :=
  ⟨k, line, src, dst, req, 0, 0, none, false, none, 0, 0, none⟩

/-- A request of an agent for a line, under a key id and the viewset id of its page. -/
def Msg.ask (k : MsgKind) (line agent key vset : Nat) : Msg :=
  { Msg.plain k line agent (homeOf line) agent with key := key, vset := vset }

/-- The home grants request `m` a state, or answers it without one, with the line as L2 holds it; `own`: the requester
keeps its own data, or takes those that the owner sends. -/
def State.grant (s : State) (m : Msg) (st : Option Moesi) (own : Bool) : State :=
  s.post { Msg.plain .grant m.line (homeOf m.line) m.req m.req with
    data := s.storedLine m.line m.vset m.key, st := st, flag := own, vset := m.vset }

/-- Kaolin residencies of a core that were filled from some lines become stale (R189); a fill under way notes it
(R237). -/
def Core.stale (p : Handle → Bool) (c : Core) : Core :=
  let one := fun (h : Handle) =>
    if h.alloc && p h then { h with touched := true, state := if h.state == .valid then .stale else h.state } else h
  { c with engines := { c.engines with handles := c.engines.handles.map fun e => (e.1, one e.2) } }

def State.staleLine (s : State) (core line : Nat) : State :=
  { s with cores := s.cores.update core (Core.stale fun h => h.lines.contains line) }

/-- Residencies of every core. -/
def State.staleEverywhere (s : State) (p : Handle → Bool) : State :=
  { s with cores := s.cores.map fun e => (e.1, e.2.stale p) }

/-! ### Writes at a home, and the other views of the bytes (R148) -/

/-- The bytes of an alias line, by the viewset entry that stands now, under which bytes of a row-view line lie. -/
def State.viewHits (s : State) (vset key aline line : Nat) (mask : BitVec 128) : BitVec 128 :=
  (List.range 128).foldl (fun (m : BitVec 128) i => match s.viewAt vset key (128 * aline + i) with
    | some (some a) =>
      let f := (s.forward a key).1
      if lineOf f = line ∧ mask.getLsbD (f % 128) then m ||| (1#128 <<< i) else m
    | _ => m) 0

/-- A change to the bytes that are written and not yet in L2: in write-back buffers and in the Puts in flight. -/
def MemSys.inBuffers (m : MemSys) (f : Nat → Nat → Nat → BitVec 128 → BitVec 128) : MemSys :=
  let put := fun (x : Msg) => match x.kind with
    | .putm | .puto => { x with mask := f x.line x.vset x.key x.mask }
    | _ => x
  { m with wbufs := m.wbufs.map fun (c : Copy) => { c with dirty := f c.line c.vset c.key c.dirty },
           msgs := m.msgs.map fun e => (e.1, put e.2) }

/-- What the copies and write-back buffers of a row line hold written is taken out of them, the tracked copies with it;
residencies filled from the line become stale. -/
def State.surrender (s : State) (row : Nat) : State × List Copy :=
  let dirty := (s.mem.copies.filter fun c => c.tracked && c.line == row) ++ s.mem.wbufs.filter fun c => c.line == row
  if dirty.isEmpty then (s.staleEverywhere fun h => h.lines.contains row, [])
  else
    let m := { s.mem with copies := s.mem.copies.filter fun c => !(c.tracked && c.line == row) }
    ((s.withMem (m.inBuffers fun l _ _ d => if l = row then 0 else d)).staleEverywhere fun h => h.lines.contains row, dirty)

/-- Data under way to an agent take a byte of their line. -/
def MemSys.carry (m : MemSys) (line off : Nat) (b : Byte) : MemSys :=
  let one := fun (x : Msg) =>
    if x.line == line && (x.kind == .grant || x.kind == .data) then { x with data := setLineByte x.data off b } else x
  { m with msgs := m.msgs.map fun e => (e.1, one e.2) }

/-- Written bytes of a row line reach the data of alias lines under way to an agent. -/
def State.carryViews (s : State) (line : Nat) (d : Line) (mask : BitVec 128) : State :=
  let one := fun (x : Msg) =>
    if aliasLine x.line && (x.kind == .grant || x.kind == .data) then
      let data := (List.range 128).foldl (fun (l : Line) i => match s.viewAt x.vset x.key (128 * x.line + i) with
        | some (some a) =>
          let f := (s.forward a x.key).1
          if lineOf f = line ∧ mask.getLsbD (f % 128) then setLineByte l i (lineByte d (f % 128)) else l
        | _ => l) x.data
      { x with data := data }
    else x
  s.withMem { s.mem with msgs := s.mem.msgs.map fun e => (e.1, one e.2) }

/-- A write of row bytes invalidates the tracked lines of the other views that cover the written bytes (R148), and leaves
untracked copies alone (R190): the lines taken, those bytes struck from what they hold written. `self` is the alias line
through which the write came. Residencies filled through such a line become stale. -/
def State.strike (s : State) (line : Nat) (d : Line) (mask : BitVec 128) (self : Nat) : State × List Copy :=
  let hit := fun (c : Copy) => c.tracked && aliasLine c.line && c.line != self && s.viewHits c.vset c.key c.line line mask != 0
  let taken := s.mem.copies.filter hit
  let rest := fun (c : Copy) => { c with dirty := c.dirty &&& ~~~(s.viewHits c.vset c.key c.line line mask) }
  let m := if taken.isEmpty then s.mem else { s.mem with copies := s.mem.copies.filter fun c => !hit c }
  let m1 := if m.wbufs.isEmpty then m
    else m.inBuffers fun l vs k d => if aliasLine l && l != self then d &&& ~~~(s.viewHits vs k l line mask) else d
  let reached := fun (h : Handle) => h.views.any fun v => s.viewHits v.2.1 v.2.2 v.1 line mask != 0
  (((s.withMem m1).carryViews line d mask).staleEverywhere reached, taken.map rest)

/-- Bytes of a line performed at its home. Those of an alias line are performed one by one at their row-view homes, whose
copies give up what they hold written first; padding and what lies outside the view is dropped, and counted once (R147, R149).
Other lines that a write invalidates write their remaining bytes back. -/
def State.storeHome : Nat → State → Nat → Line → BitVec 128 → Nat → Nat → Nat → State
  | 0, s, _, _, _, _, _, _ => s
  | fuel + 1, s, line, d, mask, key, vset, self =>
    if mask = 0 then s
    else if aliasLine line then
      let put := fun (q : State × Bool) (i : Nat) =>
        if !mask.getLsbD i then q
        else match q.1.viewAt vset key (128 * line + i) with
          | some (some a) =>
            let f := q.1.forward a key
            let r := q.1.surrender (lineOf f.1)
            let s1 := r.2.foldl (fun s c => State.storeHome fuel s c.line c.data c.dirty c.key 0 line) r.1
            let s2 := State.storeHome fuel s1 (lineOf f.1) (setLineByte 0 (f.1 % 128) (lineByte d i)) (1#128 <<< (f.1 % 128)) f.2 0 line
            (s2.withMem (s2.mem.carry (lineOf f.1) (f.1 % 128) (lineByte d i)), q.2)
          | _ => (q.1, true)
      let r := (List.range 128).foldl put (s, false)
      if r.2 then r.1.viewError (128 * line) else r.1
    else
      let r := (s.withMem (s.mem.writeLine line d mask key)).strike line d mask self
      r.2.foldl (fun s c => State.storeHome fuel s c.line c.data c.dirty c.key c.vset c.line) r.1

/-- How deep write-backs of lines of other views can follow from each other. -/
def MemSys.viewDepth (m : MemSys) : Nat := 2 * (m.copies.length + m.wbufs.length) + 3

def State.homeStore (s : State) (line : Nat) (d : Line) (mask : BitVec 128) (key vset : Nat) : State :=
  s.storeHome s.mem.viewDepth line d mask key vset (if aliasLine line then line else 0)

/-- What a tracked copy holds written is performed at its home; the copy stays, clean. -/
def State.flushCopy (s : State) (c : Copy) : State :=
  let clean := fun (x : Copy) => if x.agent == c.agent && x.line == c.line then { x with dirty := 0 } else x
  (s.withMem { s.mem with copies := s.mem.copies.map clean }).homeStore c.line c.data c.dirty c.key c.vset

/-- Before an atomic at a home, what other views hold written of its bytes is performed, so that it reads the value which
its own write follows (R148, R198). -/
def State.gatherViews (s : State) (line : Nat) (mask : BitVec 128) (key vset : Nat) : State :=
  let bytes : List (Nat × BitVec 128) :=
    if !aliasLine line then [(line, mask)]
    else (List.range 128).filterMap fun i => if !mask.getLsbD i then none else match s.viewAt vset key (128 * line + i) with
      | some (some a) => let f := (s.forward a key).1; some (lineOf f, 1#128 <<< (f % 128))
      | _ => none
  bytes.foldl (fun s b =>
    let s1 := if !aliasLine line then s
      else let r := s.surrender b.1; r.2.foldl (fun s c => s.homeStore c.line c.data c.dirty c.key 0) r.1
    (s1.mem.copies.filter fun c => c.tracked && aliasLine c.line && c.line != line && c.dirty != 0
      && s1.viewHits c.vset c.key c.line b.1 b.2 != 0).foldl State.flushCopy s1) s

/-! ### Room in the directory (R182) -/

/-- Two entries of one set of one slice; a region's entry stands in the slice of its first line. -/
def DirEntry.sameSet (a b : DirEntry) : Bool :=
  homeOf a.base == homeOf b.base && Config.directorySet a.base a.cls % 1024 == Config.directorySet b.base b.cls % 1024

/-- The entries of an entry's set, the most recently used first. -/
def MemSys.setOf (m : MemSys) (e : DirEntry) : List DirEntry := m.dir.filter (DirEntry.sameSet e)

/-- An entry of a set that the request would overfill: a set has 16 ways. -/
def MemSys.overfull (m : MemSys) (x : Msg) : Option DirEntry :=
  let r := m.reshape x
  if m.dir.length + r.2.length ≤ 16 then none
  else r.2.find? fun e => decide (16 < ((m.reshaped x).setOf e).length)

/-- The region that is being recalled for an eviction and covers the line. -/
def MemSys.evicting (m : MemSys) (line : Nat) : Bool :=
  m.txns.any fun t => match t.2.region with
    | some (b, c) => decide (b ≤ line) && decide (line < b + 2 ^ c)
    | none => false

/-- A line in a transient state: a request for it waits (R178, R179). -/
def MemSys.transient (m : MemSys) (line : Nat) : Bool := (m.txns.find line).isSome || m.evicting line

/-- The entry that a full set evicts: the least recently used of those with no line in a transient state; none while an
eviction of the set is under way. -/
def State.victim (s : State) (line : Nat) (e : DirEntry) : Option DirEntry :=
  let m := s.mem
  let busy := m.txns.any fun t => t.2.region.isSome && (m.entry t.1).any e.sameSet
  let free := fun (v : DirEntry) => !v.covers line && !(m.txns.any fun t => v.covers t.1)
  if busy then none else ((m.setOf e).filter free).getLast?

/-- The recall of one line of an entry (HR): invalidations to its sharers, and a forward that takes the line from its
owner (R182, R185). -/
def State.recallFor (s : State) (e : DirEntry) (m : Msg) (region : Option (Nat × Nat)) : State :=
  let named := fun (p : Pointer) => { Msg.plain .inv m.line (homeOf m.line) p.agent p.agent with
    flag := p.k, st := if e.coarse then some .s else none }
  let invs := e.sharers.map named
  let fwd : List Msg := match e.owner with
    | some o => [{ Msg.plain .fwdm m.line (homeOf m.line) o (homeOf m.line) with flag := true }]
    | none => []
  (s.withMem { s.mem with txns := s.mem.txns.set m.line ⟨.hr, m, invs.length, e.owner, false, region⟩ }).postAll (invs ++ fwd)

/-- The eviction of an entry begins with the first line of its region. -/
def State.startEviction (s : State) (v : DirEntry) : State :=
  s.recallFor v (Msg.plain .recall v.base (homeOf v.base) (homeOf v.base) (homeOf v.base)) (some (v.base, v.cls))

/-- After one line of an evicted region, the next, while the entry still names an agent; then the entry is free. -/
def State.nextEviction (s : State) (line base cls : Nat) : State :=
  match s.mem.dir.find? fun e => e.base == base && e.cls == cls with
  | none => s
  | some e =>
    if line + 1 < base + 2 ^ cls then
      s.recallFor e (Msg.plain .recall (line + 1) (homeOf line) (homeOf line) (homeOf line)) (some (base, cls))
    else s.withMem { s.mem with dir := s.mem.dir.filter fun x => !x.same e }

/-! ### What the agents hold -/

/-- Whether an agent still awaits a grant of the line that is on its way, so that it holds forwards and invalidations
(R185). -/
def MemSys.awaitsGrant (m : MemSys) (agent line : Nat) : Bool :=
  m.msgs.any fun e => e.2.kind == .grant && e.2.dst == agent && e.2.line == line

/-- Whether an agent's PutM or PutO for a line has not been acknowledged yet (R188). -/
def MemSys.putInFlight (m : MemSys) (agent line : Nat) : Bool :=
  m.wbufs.any fun c => c.agent == agent && c.line == line && (c.st == .m || c.st == .o)

/-- Whether an agent holds a tracked copy, in one of some states, of a line of an entry's region other than `line`, or has
one in its write-back buffer. -/
def MemSys.holdsOther (m : MemSys) (e : DirEntry) (agent line : Nat) (p : Moesi → Bool) : Bool :=
  (m.copies ++ m.wbufs).any fun c => c.agent == agent && c.tracked && e.covers c.line && c.line != line && p c.st

/-- OWNER cleared. A region entry keeps an owner that still owns another line of the region (R177: an entry is freed with
its last copy). -/
def MemSys.clearOwner (m : MemSys) (e : DirEntry) (line : Nat) : DirEntry :=
  match e.owner with
  | some o => if m.holdsOther e o line (· != .s) then e else { e with owner := none }
  | none => e

/-! ### Requests at the home -/

/-- A write or atomic performed in L2 at the home, with its reply (R185). -/
def State.performHome (s : State) (m : Msg) : State :=
  match m.act with
  | some a =>
    let mask := BitVec.ofNat 128 ((2 ^ a.size - 1) * 2 ^ a.off)
    let s := s.gatherViews m.line mask m.key m.vset
    let line := s.storedLine m.line m.vset m.key
    let old := bytesToNat ((List.range a.size).map fun k => lineByte line (a.off + k))
    let new := atomicNew a.i (8 * a.size) old a.b.toNat a.c.toNat
    let bad := if aliasLine m.line then (s.viewLine m.vset m.key m.line).isNone else s.mem.poisoned m.line m.key
    let d := BitVec.ofNat 1024 (new * 2 ^ (8 * a.off))
    let s1 := if bad then s else s.homeStore m.line d mask m.key m.vset
    s1.post { Msg.plain .grant m.line (homeOf m.line) m.req m.req with data := BitVec.ofNat 1024 old, flag := bad }
  | none =>
    (s.homeStore m.line m.data m.mask m.key m.vset).post (Msg.plain .grant m.line (homeOf m.line) m.req m.req)

/-- The invalidations of a request (R181, R185): one to every agent named, but the requester. In coarse form an agent
applies it to its cache and its Kaolin store, in pointer form to what the pointer names. -/
def invMsgs (e : DirEntry) (line : Nat) (except' : Nat) : List Msg :=
  (e.sharers.filter fun p => p.agent != except').map fun p =>
    { Msg.plain .inv line (homeOf line) p.agent p.agent with flag := p.k, st := if e.coarse then some .s else none }

/-- A forward to the owner on behalf of a request that shares or reads the line. -/
def State.forwardShared (s : State) (m : Msg) (o : Nat) : State :=
  (s.withMem { s.mem with txns := s.mem.txns.set m.line ⟨.hf, m, 0, some o, false, none⟩ }).post
    { Msg.plain .fwds m.line (homeOf m.line) o m.req with again := some m.kind }

/-- A request handled on the entry of its line, with which it does not conflict (R183, R185, R186). -/
def State.serveFrom (s : State) (e : DirEntry) (m : Msg) : State :=
  let q := m.req
  match m.kind with
  | .gets =>
    match e.owner with
    | none => (s.withMem (s.mem.putEntry (e.addSharer ⟨false, q⟩).settleState)).grant m (some .s) false
    | some o => s.forwardShared m o
  | .kget =>
    match e.owner with
    | none => (s.withMem (s.mem.putEntry (e.addSharer ⟨true, q⟩).settleState)).grant m none false
    | some o => s.forwardShared m o
  | .rdonce =>
    match e.owner with
    | none => s.grant m none false
    | some o => s.forwardShared m o
  | .getm | .upg =>
    -- the owner, which stores to a line it holds in O, is sent no data (R352)
    let exact' := (m.kind == .upg && e.exact q) || e.owner == some q
    let invs := invMsgs e m.line q
    let fwd : List Msg := match e.owner with
      | some o => if o = q then [] else [Msg.plain .fwdm m.line (homeOf m.line) o q]
      | none => []
    if invs.isEmpty && fwd.isEmpty then
      (s.withMem (s.mem.putEntry (e.ownedBy q))).grant m (some .m) exact'
    else
      let t : Txn := ⟨if invs.isEmpty then .hf else .hb, { m with flag := exact' }, invs.length,
        if fwd.isEmpty then none else e.owner, false, none⟩
      (s.withMem { s.mem with txns := s.mem.txns.set m.line t }).postAll (invs ++ fwd)
  | .wr | .atomic => s.recallFor e m none
  | _ => s

/-- A request handled at the home (R183, R185), when its line is in no transient state and the directory has room for
what it changes there. -/
def State.homeHandle (s0 : State) (m : Msg) : State :=
  let s := s0.withMem ((s0.mem.reshaped m).touch m.line)
  match s0.mem.entry m.line, s.mem.entry m.line with
  | some _, some e => s.serveFrom e m
  | _, _ => match m.kind with
    | .gets => s.grant m (some .e) false
    | .getm | .upg => s.grant m (some .m) false
    | .kget | .rdonce => s.grant m none false
    | .wr | .atomic => s.performHome m
    | _ => s

/-- A request that must wait: behind another of its line, for a line in a transient state, or for room (R179, R182). -/
def State.mustWait (s : State) (m : Msg) : Bool :=
  s.mem.transient m.line || s.mem.queued.any (fun x => x.line == m.line) || (s.mem.overfull m).isSome

/-- A request arriving at the home (R179): it waits in its slice's queue, which holds 256, or is refused. -/
def State.homeRequest (s : State) (m : Msg) : State :=
  if !s.mustWait m then s.homeHandle m
  else if decide (256 ≤ (s.mem.queued.filter fun x => homeOf x.line == homeOf m.line).length) then
    s.post { m with kind := .retry, src := homeOf m.line, dst := m.req, again := some m.kind }
  else s.withMem { s.mem with queued := s.mem.queued ++ [m] }

/-- A transaction whose answers have all arrived ends (R178, R185). -/
def State.finishTxn (s : State) (line : Nat) : State :=
  match s.mem.txns.find line with
  | none => s
  | some t =>
    if t.acks ≠ 0 || t.owner.isSome then s
    else
      let s := s.withMem { s.mem with txns := s.mem.txns.del line }
      match t.req.kind with
      | .getm | .upg =>
        let e := match s.mem.entry line with
          | some e => e.ownedBy t.req.req
          | none => DirEntry.owned line 0 t.req.req
        (s.withMem (s.mem.putEntry e)).grant t.req (some .m) (t.req.flag || t.sent)
      | .wr | .atomic => (s.withMem (s.mem.dropEntry line)).performHome t.req
      | .recall => match t.region with
        | some (b, c) => s.nextEviction line b c
        | none => s
      | _ => s

/-- A shared or read line after its owner's answer: the requester becomes a sharer, and the owner is cleared when it held
E, and stays a sharer, or held nothing (R185). DESIGN CHOICE (log 64): a new sharer takes the lowest free pointer, the requester
of a forward before the former owner, and the pointers after one that is removed move down; R181 names no order, which the
management interface sees in SHR (R180). -/
def State.shareAfterForward (s : State) (t : Txn) (line : Nat) (clear wasE : Bool) : State :=
  match s.mem.entry line with
  | none => s
  | some e =>
    let e1 := if clear then s.mem.clearOwner e line else e
    let e2 := match t.req.kind with
      | .gets => e1.addSharer ⟨false, t.req.req⟩
      | .kget => e1.addSharer ⟨true, t.req.req⟩
      | _ => e1
    let e3 := match t.owner with
      | some o => if wasE && e1.owner.isNone then e2.addSharer ⟨false, o⟩ else e2
      | none => e2
    s.withMem (s.mem.putEntry e3.settleState)

/-- The owner's answer to the forward of a line's transaction: it has sent its data to the requester (`sent`), or L2 now
holds the value. -/
def State.ownerAnswered (s : State) (line : Nat) (t : Txn) (sent clear wasE : Bool) : State :=
  let done := s.withMem { s.mem with txns := s.mem.txns.del line }
  match t.req.kind with
  | .gets =>
    let s1 := done.shareAfterForward t line clear wasE
    if sent then s1 else s1.grant t.req (some .s) false
  | .kget =>
    let s1 := done.shareAfterForward t line clear wasE
    if sent then s1 else s1.grant t.req none false
  | .rdonce => if sent then done else done.grant t.req none false
  | _ => (s.withMem { s.mem with txns := s.mem.txns.set line { t with owner := none, sent := sent } }).finishTxn line

/-- The transaction of a line that awaits an answer of agent `q` to a forward on behalf of `req`. -/
def MemSys.awaiting (m : MemSys) (line q req : Nat) : Option Txn :=
  match m.txns.find line with
  | some t => if t.owner = some q ∧ (t.req.req = req ∨ t.kind = .hr) then some t else none
  | none => none

/-- FWDDONE at the home: the owner has sent the data (R185); `m.flag` says it held E. -/
def State.takeFwdDone (s : State) (m : Msg) : State :=
  match s.mem.awaiting m.line m.src m.req with
  | none => s
  | some t => s.ownerAnswered m.line t true m.flag m.flag

/-- NODATA at the home: the owner held no copy; data come from L2 (R185, R187). -/
def State.takeNoData (s : State) (m : Msg) : State :=
  match s.mem.awaiting m.line m.src m.req with
  | none => s
  | some t => s.ownerAnswered m.line t false true false

/-- WBPENDING at the home (R188): it waits in HW for the Put. One that comes after the Put is consumed. -/
def State.takeWbPending (s : State) (m : Msg) : State :=
  match s.mem.awaiting m.line m.src m.req with
  | none => s
  | some t => s.withMem { s.mem with txns := s.mem.txns.set m.line { t with kind := .hw } }

/-- An acknowledgement at the home (R178). -/
def State.takeAck (s : State) (m : Msg) : State :=
  match s.mem.txns.find m.line with
  | none => s
  | some t => (s.withMem { s.mem with txns := s.mem.txns.set m.line { t with acks := t.acks - 1 } }).finishTxn m.line

/-- A Put's data taken into L2 from the write-back buffer. -/
def State.takeData (s : State) (m : Msg) : State :=
  let taken := fun (c : Copy) => if c.agent == m.src && c.line == m.line then { c with dirty := 0 } else c
  let s1 := s.homeStore m.line m.data m.mask m.key m.vset
  s1.withMem { s1.mem with wbufs := s1.mem.wbufs.map taken }

/-- What a Put changes in the entry of a line that no transaction holds (R185, R192). -/
def State.putDone (s : State) (m : Msg) (e : DirEntry) : State :=
  let q := m.src
  if m.kind == .puts then
    if e.coarse || s.mem.holdsOther e q m.line (fun _ => true) then s
    else s.withMem (s.mem.putEntry { e with ptrs := e.ptrs.filter fun p => !(p.agent == q && !p.k) }.settleState)
  else if e.owner == some q then
    let s1 := if m.kind == .pute then s else s.takeData m
    -- a Put of an M copy that is retained leaves its agent the owner of a clean line, one of an O copy a sharer
    let e1 := if m.flag && m.kind == .putm then e else s1.mem.clearOwner e m.line
    let e2 := if m.flag && m.kind == .puto then e1.addSharer ⟨false, q⟩ else e1
    s1.withMem (s1.mem.putEntry e2.settleState)
  else s

/-- What a Put changes in the directory, if an entry covers its line. -/
def State.putEntryDone (s : State) (m : Msg) : State :=
  match s.mem.entry m.line with
  | none => s
  | some e => s.putDone m e

/-- A Put arriving at the home, consumed at once (R179, R185, R188). When a forward of the line awaits its agent's answer,
the Put's data serve the request; an agent that retains its copy stays a sharer. -/
def State.takePut (s : State) (m : Msg) : State :=
  let ack := Msg.plain .putack m.line (homeOf m.line) m.src m.src
  match s.mem.txns.find m.line with
  | some t =>
    if (m.kind == .putm || m.kind == .puto) && t.owner == some m.src then
      let s1 := if t.req.kind == .rdonce then s.putEntryDone m else s.takeData m
      (s1.ownerAnswered m.line t false true m.flag).post ack
    else (s.putEntryDone m).post ack
  | none => (s.putEntryDone m).post ack

/-! ### Messages at the agents -/

/-- PUTACK at the agent: its write-back buffer entry is free. -/
def State.takePutAck (s : State) (m : Msg) : State :=
  s.withMem { s.mem with wbufs := s.mem.wbufs.filter fun c => !(c.agent == m.dst && c.line == m.line) }

/-- What an owner without the line answers to a forward (R187, R188). -/
def State.noCopy (s : State) (m : Msg) : State :=
  s.post (Msg.plain (if s.mem.putInFlight m.dst m.line then .wbpending else .nodata) m.line m.dst (homeOf m.line) m.req)

/-- The copy by which an agent owns a tracked line. -/
def MemSys.ownedCopy (m : MemSys) (agent line : Nat) : Option Copy :=
  match m.findCopy agent line with
  | some c => if c.tracked && c.st != .s then some c else none
  | none => none

def putKind (st : Moesi) : MsgKind :=
  match st with
  | .m => .putm | .o => .puto | .e => .pute | .s => .puts

/-- The Put of a copy, its data in the write-back buffer until PutAck (R188). -/
def State.sendPut (s : State) (c : Copy) (retain : Bool) : State :=
  (s.withMem { s.mem with wbufs := c :: s.mem.wbufs }).post { Msg.ask (putKind c.st) c.line c.agent c.key c.vset with
    data := c.data, mask := c.dirty, flag := retain }

/-- FWDS at the owner (R185, R187, R188): M becomes O, E becomes S. The host, which holds no O, writes its M copy back and
keeps S (R175). A RdOnce changes no copy. An owner whose Put is in flight answers WbPending; what it retained becomes S. -/
def State.takeFwdS (s : State) (m : Msg) : State :=
  match s.mem.ownedCopy m.dst m.line with
  | none => s.noCopy m
  | some c =>
    if s.mem.putInFlight m.dst m.line then
      (if m.again = some .rdonce then s else s.withMem (s.mem.putCopy { c with st := .s })).noCopy m
    else
    let wasE := c.st == .e
    let give := fun (s : State) => s.post { Msg.plain .grant m.line m.dst m.req m.req with
      data := c.data, st := if m.again = some .gets then some .s else none, vset := c.vset }
    if m.again = some .rdonce then (give s).post { Msg.plain .fwddone m.line m.dst (homeOf m.line) m.req with flag := wasE }
    else if c.agent = Config.hostAgent ∧ c.st = .m then
      (s.withMem (s.mem.putCopy { c with st := .s, dirty := 0 })).sendPut c true
    else
      let st : Moesi := if wasE then .s else .o
      (give (s.withMem (s.mem.putCopy { c with st := st }))).post
        { Msg.plain .fwddone m.line m.dst (homeOf m.line) m.req with flag := wasE }

/-- FWDM at the owner: it sends its data to the requester and gives the line up, or writes it back for a recall (R185, R187,
R188). A residency of its own that was filled from the line becomes stale (R189): a region that it came to own names it no
longer as a K sharer. -/
def State.takeFwdM (s : State) (m : Msg) : State :=
  let s := s.staleLine m.dst m.line
  match s.mem.ownedCopy m.dst m.line with
  | none =>
    let stale := match s.mem.findCopy m.dst m.line with
      | some c => c.tracked
      | none => false
    (if stale then s.withMem (s.mem.dropCopy m.dst m.line) else s).noCopy m
  | some c =>
    let s1 := s.withMem (s.mem.dropCopy m.dst m.line)
    if s.mem.putInFlight m.dst m.line then s1.noCopy m
    else if m.flag then if c.st == .e then s1.noCopy m else s1.sendPut c false
    else
      (s1.post { Msg.plain .data m.line m.dst m.req m.req with data := c.data, mask := c.dirty, key := c.key, vset := c.vset }).post
        (Msg.plain .fwddone m.line m.dst (homeOf m.line) m.req)

/-- An invalidation at an agent: a residency becomes stale, a shared copy is dropped, and it is acknowledged in any case
(R181, R186, R187, R189). What the agent owns leaves it by a forward only. -/
def State.takeInv (s : State) (m : Msg) : State :=
  let s1 := if m.flag then s.staleLine m.dst m.line else s
  let drop := (!m.flag || m.st.isSome) && (match s1.mem.findCopy m.dst m.line with
    | some c => c.tracked && c.st == .s
    | none => false)
  let s2 := if drop then s1.withMem (s1.mem.dropCopy m.dst m.line) else s1
  s2.post (Msg.plain .ack m.line m.dst (homeOf m.line) m.req)

/-- The data that an owner has sent an agent for a line. -/
def MemSys.dataFor (m : MemSys) (agent line : Nat) : Option (Nat × Msg) :=
  m.msgs.find? fun e => e.2.kind == .data && e.2.dst == agent && e.2.line == line

/-- A grant at the requester: it now holds the line in the granted state, with its own data, the former owner's, or those
of L2. A line that it will write makes its own residencies stale (R189). -/
def State.takeGrant (s : State) (m : Msg) : State :=
  match m.st with
  | none => s
  | some st =>
    let s1 := if st = .m then s.staleLine m.dst m.line else s
    let fresh : Copy := ⟨m.dst, m.line, st, true, 0, m.data, 0, (s.mem.lineMeta m.line).key, m.vset⟩
    if !m.flag then s1.withMem (s1.mem.putCopy fresh)
    else match s1.mem.dataFor m.dst m.line with
      | some x => ((s1.unpost x.1).withMem
          ((s1.unpost x.1).mem.putCopy { fresh with data := x.2.data, dirty := x.2.mask, key := x.2.key, vset := x.2.vset }))
      | none => match s1.mem.findCopy m.dst m.line with
        | some c => s1.withMem (s1.mem.putCopy { c with st := st, tracked := true })
        | none => s1.withMem (s1.mem.putCopy fresh)

/-- Of a line's forwards and PutAcks to one agent, an earlier one is still on its way. -/
def MemSys.behind (m : MemSys) (id : Nat) (x : Msg) : Bool :=
  m.msgs.any fun e => decide (e.1 < id) && e.2.dst == x.dst && e.2.line == x.line
    && (e.2.kind == .fwds || e.2.kind == .fwdm || e.2.kind == .putack)

/-- Whether a message may be taken now: a forward or an invalidation waits for a grant still awaited (R185), and what a home
sends an agent of one line arrives in order; an owner's data are taken with the grant; a promote is taken by its own row
(R204). -/
def MemSys.takable (m : MemSys) (id : Nat) (x : Msg) : Bool :=
  match x.kind with
  | .fwds | .fwdm => !m.awaitsGrant x.dst x.line && !m.behind id x
  | .putack => !m.behind id x
  | .inv => !m.awaitsGrant x.dst x.line
  | .data | .promote | .recall => false
  | _ => true

/-- One message taken by its receiver. -/
def State.takeMsg (s : State) (id : Nat) : State :=
  match s.mem.msgs.find id with
  | none => s
  | some m =>
    if !s.mem.takable id m then s
    else
      let s := s.unpost id
      match m.kind with
      | .gets | .getm | .upg | .kget | .rdonce | .wr | .atomic => s.homeRequest m
      | .putm | .puto | .pute | .puts => s.takePut m
      | .putack => s.takePutAck m
      | .fwds => s.takeFwdS m
      | .fwdm => s.takeFwdM m
      | .fwddone => s.takeFwdDone m
      | .nodata => s.takeNoData m
      | .wbpending => s.takeWbPending m
      | .inv => s.takeInv m
      | .ack => s.takeAck m
      | .grant => s.takeGrant m
      | .retry => s.post { m with kind := m.again.getD .gets, src := m.dst, dst := homeOf m.line, again := none }
      | .data | .promote | .recall => s

/-! ### Queued requests -/

/-- Whether a queued request can be taken up: its line is in no transient state, and there is room for it or an entry that
can be evicted (R179, R182). -/
def State.canStart (s : State) (x : Msg) : Bool :=
  !s.mem.transient x.line && (s.mem.queued.find? fun y => y.line == x.line) == some x && (match s.mem.overfull x with
    | none => true
    | some e => (s.victim x.line e).isSome)

/-- A queued request is handled, or the eviction that it needs begins. -/
def State.startQueued (s : State) (x : Msg) : State :=
  match s.mem.overfull x with
  | none => (s.withMem { s.mem with queued := s.mem.queued.erase x }).homeHandle x
  | some e => match s.victim x.line e with
    | some v => s.startEviction v
    | none => s

/-- The first queued request of a line is taken up once no transaction of it runs (R179). -/
def State.dequeue (s : State) (line : Nat) : State :=
  match s.mem.queued.find? fun x => x.line == line with
  | some x => if s.canStart x then s.startQueued x else s
  | none => s

/-! ### Messages run to their end -/

/-- The lowest-numbered message that may be taken, of those that `p` names; a Retry after all others. -/
def MemSys.nextMsg (m : MemSys) (p : Nat → Msg → Bool) (retry : Bool) : Option Nat :=
  (m.msgs.find? fun e => p e.1 e.2 && (e.2.kind == .retry) == retry && m.takable e.1 e.2).map (·.1)

/-- A request for a line still waits: in the queue of its home, or refused. -/
def MemSys.waitsFor (m : MemSys) (line : Nat) : Bool :=
  m.queued.any (fun x => x.line == line) || m.msgs.any fun e => e.2.kind == .retry && e.2.line == line

/-- The message taken next for a line: one of its own, or of those sent since message `first`. -/
def MemSys.chosen (m : MemSys) (line first : Nat) : Option Nat :=
  m.nextMsg (fun id x => x.line == line || decide (first ≤ id)) false

/-- When there is none, and no queued request can start: while a request of the line waits for another line's transaction,
any message; else a Retry. -/
def MemSys.chosenLate (m : MemSys) (line first : Nat) : Option Nat :=
  let ours := fun (id : Nat) (x : Msg) => x.line == line || decide (first ≤ id)
  (if m.waitsFor line then m.nextMsg (fun _ _ => true) false else none).or (m.nextMsg ours true)

/-- The messages of a line, and all that follow from them, are taken in the order of their sending until `stop` holds or
nothing is left. -/
def State.settle (stop : MemSys → Bool) (line first : Nat) : Nat → State → State
  | 0, s => s
  | fuel + 1, s =>
    if stop s.mem then s
    else match s.mem.chosen line first with
      | some id => State.settle stop line first fuel (s.takeMsg id)
      | none => match s.mem.queued.find? s.canStart with
        | some x => State.settle stop line first fuel (s.startQueued x)
        | none => match s.mem.chosenLate line first with
          | some id => State.settle stop line first fuel (s.takeMsg id)
          | none => s

/-- Messages that one request causes at most: those of the 512 lines of ten evicted regions, up to 1 100 a line. -/
def settleFuel : Nat := 2 ^ 23

/-- What is left of a line's messages runs to its end. -/
def State.settleRest (s : State) (line first : Nat) : State := s.settle (fun _ => false) line first settleFuel

/-- A request posted, and everything that follows from it. -/
def State.request (s : State) (m : Msg) : State := (s.post m).settleRest m.line s.nxt.msg

/-- A request posted, and what follows until the agent holds what it asked for. -/
def State.obtain (s : State) (m : Msg) (p : Copy → Bool) : State :=
  (s.post m).settle (fun x => (x.findCopy m.req m.line).any p) m.line s.nxt.msg settleFuel

/-! ### Copies given up (R175, R192) -/

/-- The dirty bytes of an untracked copy reach L2; those of a line that has been forwarded reach its destination
(R170). -/
def State.writeBackCopy (s : State) (c : Copy) : State :=
  let f := s.forward (128 * c.line) c.key
  if aliasLine c.line then s.homeStore c.line c.data c.dirty c.key c.vset
  else s.homeStore (lineOf f.1) c.data c.dirty f.2 0

/-- The agent gives up a copy (R175): dirty and exclusive tracked lines by a Put, an S line silently from a Loam cache and
by PutS from a latency core or the host; an untracked line writes its dirty bytes. `retain` keeps a clean copy: M becomes
E, O becomes S (CWB, R192). -/
def State.giveUp (s : State) (c : Copy) (retain : Bool) : State :=
  if !c.tracked then
    let s1 := s.writeBackCopy c
    s1.withMem (if retain then s1.mem.putCopy { c with dirty := 0 } else s1.mem.dropCopy c.agent c.line)
  else if retain then
    match c.st with
    | .m => (s.withMem (s.mem.putCopy { c with st := .e, dirty := 0 })).sendPut c true
    | .o => (s.withMem (s.mem.putCopy { c with st := .s, dirty := 0 })).sendPut c true
    | .e | .s => s
  else
    let s1 := s.withMem (s.mem.dropCopy c.agent c.line)
    if c.st == .s && decide (c.agent < 384) then s1 else s1.sendPut c false

/-- The same, and what follows from it. -/
def State.putLine (s : State) (agent line : Nat) (retain : Bool) : State :=
  match s.mem.findCopy agent line with
  | none => s
  | some c => (s.giveUp c retain).settleRest line s.nxt.msg

/-- Lines that an agent's cache holds (00 R2; 02 R64, R85): the cache granules of a SIMT core, at least four; the 2 MiB of a
latency core's second level. The host's is not the package's. -/
def State.cacheLines (s : State) (agent : Nat) : Nat :=
  if agent < 384 then 128 * max 4 (fld (s.core agent).partWord 31 24) else if agent < 512 then 16384 else 2 ^ 33

/-- Whether a context has a crew running on a core. -/
def State.runsOn (s : State) (core asid : Nat) : Bool :=
  decide (384 ≤ core) || (s.crewsOn core).any fun e => e.2.asid == asid

/-- CINV: the copy is written back as by CWB, and then dropped (R192). -/
def State.dropLine (s : State) (agent line : Nat) : State := (s.putLine agent line true).putLine agent line false

/-- Replacement (R194): a full cache gives up the copy unused for longest of a context that is not running, else of
any. -/
def State.makeWay (s : State) (agent : Nat) : State :=
  let mine := s.mem.copies.filter fun c => c.agent == agent
  if mine.length < s.cacheLines agent then s
  else
    match (mine.filter fun c => !s.runsOn agent c.asid).getLast?.or mine.getLast? with
    | some c => s.putLine agent c.line false
    | none => s

/-! ### What an agent's access does -/

/-- An agent uses a copy of a line only once its Put of the line has been acknowledged (R188): DESIGN CHOICE (log 65). -/
def State.afterPut (s : State) (agent line : Nat) : State :=
  if s.mem.putInFlight agent line then s.settleRest line s.nxt.msg else s

/-- The agent obtains a copy it may read: a hit, or by GetS; an untracked line is filled from L2 (R185, R190). -/
def State.forRead (s : State) (agent line asid key vset : Nat) (tracked : Bool) : State :=
  let s0 := s.afterPut agent line
  match s0.mem.findCopy agent line with
  | some c => s0.withMem (s0.mem.putCopy { c with asid := asid })
  | none =>
    let s := s0.makeWay agent
    if tracked then
      let s1 := s.obtain (Msg.ask .gets line agent key vset) (fun _ => true)
      match s1.mem.findCopy agent line with
      | some c => s1.withMem (s1.mem.putCopy { c with asid := asid, key := key })
      | none => s1
    else s.withMem (s.mem.putCopy ⟨agent, line, .e, false, asid, s.storedLine line vset key, 0, key, vset⟩)

/-- A copy that takes a tracked store without any message: M or E (R175). -/
def Copy.writable (c : Copy) : Bool := c.tracked && (c.st == .m || c.st == .e)

/-- The agent obtains a copy it may write: M or E, or by GetM or Upg (R175, R185, R186, R352). Through an untracked mapping
it asks for nothing: a copy of its own takes the store as it stands, one in S as an untracked copy (R190, R191). -/
def State.forWrite (s : State) (agent line asid key vset : Nat) (tracked : Bool) : State :=
  let s0 := s.afterPut agent line
  let ask := fun (s : State) (k : MsgKind) =>
    let s1 := s.obtain (Msg.ask k line agent key vset) Copy.writable
    match s1.mem.findCopy agent line with
    | some c => s1.withMem (s1.mem.putCopy { c with asid := asid, key := key })
    | none => s1
  match s0.mem.findCopy agent line with
  | some c =>
    if c.writable || !c.tracked then s0.withMem (s0.mem.putCopy { c with asid := asid, key := key })
    else if tracked then ask s0 (if c.st == .s then .upg else .getm)
    else s0.withMem (s0.mem.putCopy { c with asid := asid, key := key, tracked := c.st == .o, st := if c.st == .o then .o else .e })
  | none =>
    let s := s0.makeWay agent
    if tracked then ask s .getm
    else s.withMem (s.mem.putCopy ⟨agent, line, .e, false, asid, s.storedLine line vset key, 0, key, vset⟩)

/-- Bytes written into a line from offset `off`. -/
def spliceLine (l : Line) (off : Nat) (bs : List Byte) : Line :=
  (bs.foldl (fun (p : Line × Nat) b => (setLineByte p.1 p.2 b, p.2 + 1)) (l, off)).1

/-- The mask of `n` bytes from offset `off`. -/
def spanMask (off n : Nat) : BitVec 128 := BitVec.ofNat 128 ((2 ^ n - 1) * 2 ^ off)

/-- The agent's store, of the bytes of `mask`, into a copy that it holds; residencies of its own core that were filled from
the line become stale (R189). Without a copy the store is performed at the home. -/
def State.writeCopy (s : State) (agent line off : Nat) (bs : List Byte) (mask : BitVec 128) (key vset : Nat) : State :=
  match s.mem.findCopy agent line with
  | none => s.request { Msg.ask .wr line agent key vset with data := spliceLine 0 off bs, mask := mask }
  | some c =>
    let s1 := s.withMem (s.mem.putCopy { c with
      st := if c.st == .o then .o else .m, data := mergeLine c.data (spliceLine c.data off bs) mask, dirty := c.dirty ||| mask })
    if c.tracked then s1.staleLine agent line else s1

/-- A read by an agent with a cache: its copy's bytes, or what an RdOnce finds when it could keep no copy. -/
def State.readCopy (s : State) (agent line asid key vset : Nat) (tracked : Bool) : State × Line :=
  let s1 := s.forRead agent line asid key vset tracked
  let d := match s1.mem.findCopy agent line with
    | some c => c.data
    | none => (s1.readOnce line vset key).getD 0
  (s1.settleRest line s.nxt.msg, d)

/-- A store by an agent with a cache; the messages still under way follow it (R185). -/
def State.storeCopy (s : State) (agent line asid key vset : Nat) (tracked : Bool) (off : Nat) (bs : List Byte)
    (mask : BitVec 128) : State :=
  ((s.forWrite agent line asid key vset tracked).writeCopy agent line off bs mask key vset).settleRest line s.nxt.msg

/-- Bytes of a line written at its home (Wr: engines, walkers, hardware writes), after the recall of R185. -/
def State.homeWrite (s : State) (agent line off : Nat) (bs : List Byte) (key vset : Nat) : State :=
  s.request { Msg.ask .wr line agent key vset with data := spliceLine 0 off bs, mask := spanMask off bs.length }

/-- Every copy of a line is recalled to the home: a Wr of no byte. -/
def State.recallLine (s : State) (agent line : Nat) : State := s.request (Msg.ask .wr line agent 0 0)

/-- A RdOnce of a unit that holds no copy: it changes an entry only where it splits one (R175, R183, R185). -/
def State.readHome (s : State) (agent line key vset : Nat) : State :=
  if (s.mem.entry line).isNone && !s.mem.transient line then s else s.request (Msg.ask .rdonce line agent key vset)

/-- A FENCE with xv (R206, R358): what any cache, write-back buffer or message holds written of an alias line, or of a row
line that has aliases, is performed at its home, wherever the thread's bytes have gone since; that invalidates the lines of
the other aliases over the bytes. The agent's untracked copies of such lines, which no home invalidates, are dropped. -/
def State.crossViews (s : State) (agent : Nat) : State :=
  let viewed := fun (s : State) (line : Nat) => aliasLine line || s.rowOfView line
  let s1 := (s.mem.copies.filter fun c => c.tracked && c.dirty != 0 && viewed s c.line).foldl (fun (s : State) c =>
    match s.mem.findCopy c.agent c.line with
    | some x => s.flushCopy x
    | none => s) s
  let bufs := s1.mem.wbufs.filter fun c => c.dirty != 0 && viewed s1 c.line
  let empty := s1.mem.inBuffers fun l _ _ d => if viewed s1 l then 0 else d
  let s2 := bufs.foldl (fun (s : State) c => s.homeStore c.line c.data c.dirty c.key c.vset) (if bufs.isEmpty then s1 else s1.withMem empty)
  let sent := s2.mem.msgs.filter fun e => e.2.kind == .data && e.2.mask != 0 && viewed s2 e.2.line
  let clean := fun (e : Nat × Msg) => if e.2.kind == .data && viewed s2 e.2.line then (e.1, { e.2 with mask := 0 }) else e
  let s3 := sent.foldl (fun (s : State) e => s.homeStore e.2.line e.2.data e.2.mask e.2.key e.2.vset)
    (if sent.isEmpty then s2 else s2.withMem { s2.mem with msgs := s2.mem.msgs.map clean })
  (s3.mem.copies.filter fun c => c.agent == agent && !c.tracked && viewed s3 c.line).foldl
    (fun (s : State) c => s.putLine agent c.line false) s3

/-- The sixteen or fewer bytes at `off` of a line. -/
def lineSlice (l : Line) (off n : Nat) : List Byte := (List.range n).map fun k => lineByte l (off + k)

end Sys2Proof.Machine
end

