-- ==== Sys2Proof/Machine/Xlat.lean ====
section
/-!
DEFINITION. Resolution of addresses (04 R116, R117; 05 R153 to R163, R172, R173; 11 R301) and of physical addresses
(04 R145 to R149, 06 R176, 12 R325, R326).
-/
namespace Sys2Proof.Machine

/-- On whose behalf an address is resolved. -/
structure Who where
  agent : Nat
  ctx : Ctx
  sup : Bool
  lat : Bool
  crew : Nat
  seq : Nat
  deriving DecidableEq, Repr

def State.who (s : State) (k : Nat) : Who :=
  { agent := s.agentOf k, ctx := s.ctxOf k, sup := (s.thread k).trap.sup, lat := isLat k,
    crew := if isLat k then 0 else crewOf k, seq := (s.thread k).ids.seq }

inductive AccKind where
  | load | store
  /-- an atomic; `simple` for the five that a replica set takes (R174) -/
  | atomic (simple : Bool)
  | fetch
  deriving DecidableEq, Repr

/-- A page as an access uses it: the physical address of the byte and the attributes of R156. -/
structure Page where
  pa : Nat
  key : Nat
  trk : Bool
  view : Nat
  vset : Nat
  fmt : Nat
  scaled : Bool
  /-- package of a remote page, and whether it may be cached (W = 0, R172) -/
  remote : Option Nat
  ro : Bool
  rset : Nat
  /-- physical address of the leaf entry, 0 when there is none -/
  leaf : Nat
  deriving DecidableEq, Repr

inductive Resolved where
  | page (p : Page)
  | window (off : Nat)
  | fault (cause sub : Nat)
  deriving DecidableEq, Repr

/-! ### Trap causes (R294) -/

def cILLEGAL : Nat := 0x01
def cPRIV : Nat := 0x02
def cMISALIGN : Nat := 0x03
def cPAGE_NP : Nat := 0x04
def cPAGE_PERM : Nat := 0x05
def cLOAM_BOUNDS : Nat := 0x06
def cREG_ALLOT : Nat := 0x07
def cPOISON : Nat := 0x08
def cRES_STALE : Nat := 0x09
def cRES_HANDLE : Nat := 0x0A
def cRES_QUOTA : Nat := 0x0B
def cFORMAT : Nat := 0x0C
def cARITH : Nat := 0x0D
def cWATCHDOG : Nat := 0x0E
def cSIGNAL : Nat := 0x0F
def cBKPT : Nat := 0x10
def cTRAP : Nat := 0x11
def cENGINE : Nat := 0x12
def cJOIN : Nat := 0x13
def cDOUBLE : Nat := 0x14
def cSCALL : Nat := 0x15
def cINTR : Nat := 0x16

/-! ### Physical addresses -/

inductive PhysKind where
  | hbm | host | control | aliased (view : Nat) | absent
  deriving DecidableEq, Repr

/-- What a 52-bit physical address reaches (R146, R176, R325, R326). -/
def physKind (pa : Nat) : PhysKind :=
  let v := pa / 2 ^ 50 % 4
  if v = 1 ∨ v = 2 then .aliased v
  else if v = 3 then .absent
  else if pa < Config.hbmBytes then .hbm
  else if Config.hostBase ≤ pa ∧ pa < Config.ctlBase then .host
  else if Config.ctlBase ≤ pa ∧ pa < Config.ctlBase + 2 ^ 32 then .control
  else .absent

/-- Key of a byte of package `p`'s memory in the storage of the model. -/
def remoteKey (p pa : Nat) : Nat := (p + 1) * 2 ^ 52 + pa

/-- The row-view byte that alias byte `pa` of a page reaches (R145 to R149). -/
def State.aliasByte (s : State) (p : Page) (pa : Nat) : Option (Option Nat) := s.viewAt p.vset p.key pa

/-! ### The walk -/

/-- log2 of the page size of a size class (R155). -/
def sizeLog (sz : Nat) : Nat :=
  match sz with
  | 1 => 12 | 2 => 14 | 3 => 16 | 4 => 21 | 5 => 25 | 6 => 30 | 7 => 34 | _ => 0

def levelShift (l : Nat) : Nat := match l with | 0 => 44 | 1 => 30 | 2 => 21 | _ => 12
def levelBits (l : Nat) : Nat := match l with | 0 => 13 | 1 => 14 | 2 => 9 | _ => 9
/-- Alignment of the table that a pointer of level `l` names (R154). -/
def nextTableLog (l : Nat) : Nat := match l with | 0 => 18 | _ => 13

/-- Leaf size classes of a level (R154). -/
def leafAllowed (l sz : Nat) : Bool :=
  match l with
  | 1 => sz == 6 || sz == 7
  | 2 => sz == 4 || sz == 5
  | 3 => sz == 1 || sz == 2 || sz == 3
  | _ => false

/-- A malformed present entry (R157). -/
def malformed (l : Nat) (w0 w1 : Word) : Bool :=
  let sz := fld w0 11 9
  let pa := fld w0 51 12 * 4096
  let view := fld w1 19 18
  if sz = 0 then
    l == 3 || pa % 2 ^ nextTableLog l != 0 || pa / 2 ^ 50 != 0 || fld w0 63 52 != 0 || fld w0 2 1 != 0
  else
    !leafAllowed l sz || pa % 2 ^ sizeLog sz != 0 || fld w0 63 52 != 0 || fld w0 2 1 != 0
    || fld w1 47 42 != 0 || fld w1 9 0 != 0 || decide (4096 ≤ fld w1 63 48)
    || (view == 0 && pa / 2 ^ 50 != 0) || (view != 0 && pa / 2 ^ 50 != view - 1)
    || (bitAt w1 41 && view != 0)

/-- A 64-bit word of tracked memory under key id 0 as a coherent read returns it, at its destination when its line has been
forwarded (R163, R170). -/
def State.peekWord (s : State) (pa : Nat) : Word :=
  let f := (s.forward pa 0).1
  BitVec.ofNat 64 (bytesToNat (lineSlice (s.mem.peekLine (lineOf f)) (f % 128) 8))

/-- Whether the line of a table entry is poisoned under key id 0 (R159). -/
def State.tablePoisoned (s : State) (pa : Nat) : Bool :=
  let f := s.forward pa 0
  s.mem.peekPoisoned (lineOf f.1) f.2

/-- The end of a walk. -/
inductive Walk where
  | leaf (entry level : Nat) (w0 w1 : Word)
  | fault (sub : Nat)
  deriving DecidableEq, Repr

/-- A walk from level `l` whose table is at `table` (R154, R157, R159, R160), with the levels and entries that it read. A
table entry that lies outside HBM (in host memory, in control space, at no address) reads as a line that fails its tag: DESIGN
CHOICE (log 52); R160 names no such case. -/
def State.walkFrom (s : State) (va : Nat) : Nat → Nat → Nat → Walk × List (Nat × Nat)
  | 0, _, _ => (.fault 0x01, [])
  | fuel + 1, l, table =>
    let e := table + 16 * (va / 2 ^ levelShift l % 2 ^ levelBits l)
    if physKind e != .hbm || s.tablePoisoned e then (.fault 0x05, [(l, e)])
    else
      let w0 := s.peekWord e
      let w1 := s.peekWord (e + 8)
      if !bitAt w0 0 then (.fault 0x00, [(l, e)])
      else if malformed l w0 w1 then (.fault 0x01, [(l, e)])
      else if fld w0 11 9 ≠ 0 then (.leaf e l w0 w1, [(l, e)])
      else
        let r := State.walkFrom s va fuel (l + 1) (fld w0 51 12 * 4096)
        (r.1, (l, e) :: r.2)

/-! ### Silt units (R150, R167, R168) -/

/-- The die whose stacks' controllers the stack belongs to (R12). -/
def stackDie (st : Nat) : Nat := st / 2

/-- An access to HBM: a compressed unit is expanded into a free frame of the pool, or there is none (check 10 of R160); while
the cold interval is set the access is noted. `counts`: an access through an entry with SE = 0. -/
def State.siltExpand (s : State) (pa : Nat) (counts : Bool) : Option State :=
  if physKind pa != .hbm then some s
  else
    let st := pa / 2 ^ 36
    let unit := pa % 2 ^ 36 / 65536
    let k := s.stk st
    let seen := fun (k : Stack) =>
      if fld k.cold 31 0 = 0 then k else { k with touched := k.touched.set unit (s.die (stackDie st)).cyc }
    if !k.compressed.contains unit then some (if fld k.cold 31 0 = 0 then s else s.setStk st (seen k))
    else if fld k.poollen 31 0 ≤ k.expanded.length then none
    else some (s.setStk st (seen { k with
      compressed := k.compressed.filter (· != unit), expanded := unit :: k.expanded,
      spol := if counts then satInc48 k.spol else k.spol }))

/-- Hardware writes or reads a line, which waits for its unit's expansion: with no free frame it is performed in the
compressed unit (log 36). -/
def State.siltTouch (s : State) (pa : Nat) : State := (s.siltExpand pa false).getD s

/-- Whether the unit of a line stands expanded, or there is a frame to expand it into: else an access to it waits (R168). -/
def State.siltReady (s : State) (pa : Nat) : Bool := (s.siltExpand pa false).isSome

/-- Id under which the package's own hardware (scheduler, package controller, walkers, engine writes) sends its requests: it
holds no copy (R175). DESIGN CHOICE (log 64): R14 reserves the id and gives these units none. -/
def hwAgent : Nat := 515

/-! ### TLBs and walker caches (R161) -/

/-- The TLBs that an agent looks in, nearest first: a thread's of a SIMT core that of its partition, then the core's and the
die's; of a latency core the first level for instructions or data, and the second. What is no core keeps no translation. -/
def State.tlbPath (s : State) (w : Who) (acc : AccKind) : List TlbUnit :=
  if w.agent < 384 then
    (match s.crews.find w.crew with
      | some c => if c.core = w.agent ∧ !w.lat then [.part w.agent c.part] else []
      | none => []) ++ [.core w.agent, .die (w.agent / Config.coresPerDie)]
  else if w.agent < 512 then [.latFirst (w.agent - 384) (acc == .fetch), .latSecond (w.agent - 384)]
  else []

def TlbUnit.ways : TlbUnit → Nat
  | .part .. => 64 | .core _ => 8 | .die _ => 16 | .latFirst _ fetch => if fetch then 64 else 96 | .latSecond _ => 8

/-- 2 048, 1 024 and 2 048 entries; the first levels are fully associative. -/
def TlbUnit.sets : TlbUnit → Nat
  | .core _ => 256 | .die _ => 64 | .latSecond _ => 256 | _ => 1

/-- The TLBs that belong to an agent, or to its die. -/
def TlbUnit.serves (u : TlbUnit) (agent : Nat) : Bool :=
  match u with
  | .part c _ | .core c => c == agent
  | .die d => decide (agent < 384) && agent / Config.coresPerDie == d
  | .latFirst m _ | .latSecond m => 384 + m == agent

def TlbEntry.set (e : TlbEntry) : Nat := Config.tlbSet e.asid e.vbase e.sz % e.unit.sets

def TlbEntry.covers (e : TlbEntry) (va : Nat) : Bool := va / 2 ^ sizeLog e.sz == e.vbase

/-- A translation enters a TLB; a full set gives up the one that entered first (log 12). -/
def MemSys.fillTlb (m : MemSys) (t : TlbEntry) : MemSys :=
  let rest := m.tlb.filter fun e => !(e.unit == t.unit && e.asid == t.asid && e.sz == t.sz && e.vbase == t.vbase)
  if (rest.filter fun e => e.unit == t.unit).length < t.unit.ways then { m with tlb := t :: rest }
  else
    let mine := rest.filter fun e => e.unit == t.unit && e.set == t.set
    let out := if mine.length < t.unit.ways then none else mine.getLast?
    { m with tlb := t :: rest.filter fun e => some e != out }

def State.fillPath (s : State) (path : List TlbUnit) (t : TlbEntry) : State :=
  s.withMem (path.foldl (fun m u => m.fillTlb { t with unit := u }) s.mem)

/-- The walker whose cache an agent's walks use: its SIMT die's. DESIGN CHOICE (log 52): R161 gives walkers to the SIMT dies
only; the walks of the cores of latency die e use a walker cache of their own, numbered 8 + e, and those of other units a
last one. -/
def walkerOf (agent : Nat) : Nat :=
  if agent < 384 then agent / Config.coresPerDie else if agent < 512 then 8 + (agent - 384) / 64 else 10

/-- Where a walk starts: after the deepest table pointer, of level 2, 1 or 0, that the walker has cached for the address
(R161; whose cache a latency core uses: `walkerOf`, log 52). -/
def State.walkStart (s : State) (agent asid va root : Nat) : Nat × Nat :=
  let at' := fun (l : Nat) => s.mem.walker.find? fun e => e.die == walkerOf agent && e.asid == asid && e.root == root
    && e.level == l && e.vbase == va / 2 ^ levelShift l
  match (at' 2).or ((at' 1).or (at' 0)) with
  | some e => (e.level + 1, e.table)
  | none => (0, root)

/-- The table pointers that a walk read are cached by its walker. -/
def State.cacheWalk (s : State) (agent asid root va : Nat) (read : List (Nat × Nat)) : State :=
  let ptr := fun (r : Nat × Nat) => (⟨walkerOf agent, asid, root, r.1, va / 2 ^ levelShift r.1, fld (s.peekWord r.2) 51 12 * 4096⟩ : WalkEntry)
  let new := (read.dropLast.map ptr).filter fun e => !s.mem.walker.contains e
  if new.isEmpty then s else s.withMem { s.mem with walker := new ++ s.mem.walker }

/-- The translation of an address: a TLB hit, or a walk; it enters every TLB looked in without a hit (R154, R161, R163). Of
copies that differ of a page with several entries (R158), the one that the walk's address indexes is used, and a cached one
before it: DESIGN CHOICE (log 52); the spec calls it unpredictable. -/
def State.findLeaf (s : State) (w : Who) (va : Nat) (acc : AccKind) : State × Walk :=
  let asid := w.ctx.asid
  let path := s.tlbPath w acc
  let look := fun (u : TlbUnit) => s.mem.tlb.find? fun e => e.unit == u && e.asid == asid && e.covers va
  match path.findSome? look with
  | some e => (s.fillPath (path.takeWhile (· != e.unit)) e, .leaf e.leaf 0 e.w0 e.w1)
  | none =>
    let root := fld w.ctx.pgroot 51 17 * 2 ^ 17
    let st := s.walkStart w.agent asid va root
    let r := s.walkFrom va 4 st.1 st.2
    -- the lines that the walk reads stand in expanded units (R168); each is read by RdOnce (R175)
    match r.2.foldlM (fun (s : State) e => s.siltExpand e.2 false) s with
    | none => (s, .fault 0x02)
    | some s0 =>
      let s1 := r.2.foldl (fun (s : State) e => let f := (s.forward e.2 0).1; s.readHome hwAgent (lineOf f) 0 0) s0
      match r.1 with
      | .fault sub => (s1, .fault sub)
      | .leaf e l w0 w1 =>
        let sz := fld w0 11 9
        let t : TlbEntry := ⟨.die 0, asid, va / 2 ^ sizeLog sz, sz, w0, w1, e⟩
        ((s1.cacheWalk w.agent asid root va r.2).fillPath path t, .leaf e l w0 w1)

/-- What the agent's TLBs and its die's hold of an address is discarded. -/
def State.dropLeaf (s : State) (w : Who) (va : Nat) : State :=
  let mine := fun (e : TlbEntry) => e.unit.serves w.agent && e.asid == w.ctx.asid && e.covers va
  s.withMem { s.mem with tlb := s.mem.tlb.filter fun e => !mine e }

/-- A bit of a leaf entry set at its home (R159), if it is clear there; the agent's TLB entries of the page take it. -/
def State.setLeafBit (s0 : State) (agent leaf word bit : Nat) : State :=
  let a := leaf + 8 * word
  let s := s0.siltTouch a
  let old := s.peekWord a
  let f := s.forward a 0
  let s1 := if bitAt old bit then s
    else s.homeWrite agent (lineOf f.1) (f.1 % 128) (natBytes 8 (setFld old bit bit 1).toNat) f.2 0
  let learn := fun (e : TlbEntry) =>
    if e.leaf == leaf && e.unit.serves agent then
      if word = 0 then { e with w0 := setFld e.w0 bit bit 1 } else { e with w1 := setFld e.w1 bit bit 1 }
    else e
  s1.withMem { s1.mem with tlb := s1.mem.tlb.map learn }

/-- RS set in word 1 of the leaf of an address (R159): the entry as it stands is compared with what was read, which is walked
for again when it has changed. -/
def State.markSourcePage (s : State) (w : Who) (va : Nat) : State :=
  let set' := fun (s : State) (e : Nat) (w1 : Word) => if bitAt w1 12 then s else s.setLeafBit w.agent e 1 12
  match s.findLeaf w va .load with
  | (s1, .fault _) => s1
  | (s1, .leaf e _ w0 w1) =>
    if bitAt w1 12 || (s1.peekWord e == w0 && s1.peekWord (e + 8) == w1) then set' s1 e w1
    else match (s1.dropLeaf w va).findLeaf w va .load with
      | (s2, .leaf e' _ _ w1') => set' s2 e' w1'
      | (s2, .fault _) => s2

/-! ### Replica sets (R173) -/

structure Member where
  pkg : Nat
  base : Nat
  deriving DecidableEq, Repr

/-- Members of a replica set and the index of the local one; `none` when the entry is not valid. -/
def State.replicaSet (s : State) (rset : Nat) : Option (List Member × Nat) :=
  let e := fld s.pkg.rstab 51 12 * 4096 + 128 * rset
  let w := s.peekWord e
  let n := fld w 19 16
  if !bitAt w 63 || n == 0 || decide (8 < n) then none
  else
    some ((List.range n).map (fun k =>
      let m := s.peekWord (e + 8 + 8 * k)
      ⟨fld m 60 52, fld m 51 0⟩), fld w 15 12)

/-- The member that serves a load (R174): the local one, else the nearest, ties to the lowest index. DESIGN CHOICE (log 66): a
LOCAL other than 0xF that is no member's index, of which R173 says nothing, is as 0xF. -/
def State.servingMember (s : State) (ms : List Member) (local' : Nat) : Member × Bool :=
  match ms[local']? with
  | some m => (m, true)
  | none =>
    let dist := fun (m : Member) => (s.pkg.dist.byte m.pkg).toNat
    match ms with
    | [] => (⟨0, 0⟩, false)
    | m :: r => (r.foldl (fun b m => if dist m < dist b then m else b) m, false)

/-! ### Resolution -/

def inSpan (c : Ctx) (va : Nat) : Bool :=
  let b := c.loamva.toNat % 2 ^ 57
  decide (b ≤ va) && decide (va < b + 2 ^ 26)

def inHeap (c : Ctx) (va : Nat) : Bool :=
  bitAt c.hattr 15 && decide (fld c.hbase 56 34 * 2 ^ 34 ≤ va) && decide (va < fld c.hlimit 56 34 * 2 ^ 34)

/-- Where a heap's physical address lies: installed HBM, or no memory at all, whose lines are poisoned (R118); never an alias,
host memory or control space. -/
def heapAddr (pa : Nat) : Nat := if pa < Config.hbmBytes then pa else 3 * 2 ^ 50 + pa % 2 ^ 50

/-- The heap byte's page (R117). -/
def heapPage (c : Ctx) (va : Nat) : Page :=
  { pa := heapAddr ((va + fld c.hoff 63 34 * 2 ^ 34) % 2 ^ 52), key := fld c.hattr 9 4, trk := bitAt c.hattr 3, view := 0, vset := 0,
    fmt := fld c.hattr 13 10, scaled := bitAt c.hattr 14, remote := none, ro := false, rset := 0, leaf := 0 }

/-- Denials of hattr (R117, R160). -/
def heapDenied (c : Ctx) (acc : AccKind) : Option Nat :=
  match acc with
  | .load => if bitAt c.hattr 0 then none else some 0x00
  | .store => if bitAt c.hattr 1 then none else some 0x01
  | .atomic _ => if !bitAt c.hattr 0 then some 0x00 else if !bitAt c.hattr 1 then some 0x01 else none
  | .fetch => if bitAt c.hattr 2 then none else some 0x02

/-- Checks 5 to 9 of R160 on a leaf. DESIGN CHOICE (log 66): a fetch from a leaf with REMOTE = 1 is denied also when PKG is the
package's own number, of which R172 says that it maps local memory and R160 only that a remote page gives no fetch. -/
def leafDenied (sup : Bool) (acc : AccKind) (w0 w1 : Word) : Option Nat :=
  let rset := fld w1 63 48
  let atomic := match acc with | .atomic _ => true | _ => false
  if !bitAt w0 8 && !sup then some 0x03
  else if (acc == .load || atomic) && !bitAt w0 3 then some 0x00
  else if (acc == .store || atomic) && !bitAt w0 4 then some 0x01
  else if acc == .fetch && (!bitAt w0 5 || fld w1 19 18 != 0 || bitAt w1 41 || rset != 0
      || physKind (fld w0 51 12 * 4096) == .control) then some 0x02
  else if rset != 0 && acc == .atomic false then some 0x04
  else none

/-- Accesses that set D (R159). -/
def AccKind.writes : AccKind → Bool
  | .store | .atomic _ => true
  | _ => false

/-- Checks 4 to 11 of R160 on a leaf found, then its A and D bits, and the page. -/
def State.useLeaf (s : State) (w : Who) (va : Nat) (acc : AccKind) (entry : Nat) (w0 w1 : Word) : State × Resolved :=
  let rset := fld w1 63 48
  let set' := if rset = 0 then none else s.replicaSet rset
  if rset ≠ 0 ∧ set'.isNone then (s, .fault cPAGE_NP 0x03)
  else match leafDenied w.sup acc w0 w1 with
    | some sub => (s, .fault cPAGE_PERM sub)
    | none =>
      let size := 2 ^ sizeLog (fld w0 11 9)
      let off := va % size
      let base : Nat × Option Nat × Bool := match set' with
        | some (ms, l) =>
          let m := s.servingMember ms l
          (m.1.base, if m.1.pkg = fld s.pkg.pkgid 8 0 then none else some m.1.pkg, !m.2)
        | none => (fld w0 51 12 * 4096,
            if bitAt w1 41 && fld w1 40 32 != fld s.pkg.pkgid 8 0 then some (fld w1 40 32) else none, !bitAt w0 4)
      let pa := base.1 + off
      match (if base.2.1.isNone then s.siltExpand pa (!bitAt w1 11) else some s) with
      | none => (s, .fault cPAGE_NP 0x02)
      | some s1 =>
        let lost := match base.2.1 with | some p => s.mem.lost.contains p | none => false
        if lost then (s1, .fault cPAGE_NP 0x04)
        else
          let s2 := if bitAt w0 6 then s1 else s1.setLeafBit w.agent entry 0 6
          let s3 := if acc.writes && !bitAt w0 7 then s2.setLeafBit w.agent entry 0 7 else s2
          (s3, .page { pa := pa, key := fld w1 31 26, trk := bitAt w1 10, view := fld w1 19 18, vset := fld w1 25 20,
                       fmt := fld w1 16 13, scaled := bitAt w1 17, remote := base.2.1, ro := base.2.2, rset := rset,
                       leaf := entry })

/-- A translated access (R153 to R160). One that must set A or D compares word 0 as it stands with what was read, and walks
again when it has changed (R159). -/
def State.translate (s : State) (w : Who) (va : Nat) (acc : AccKind) : State × Resolved :=
  if w.ctx.pgroot = 0 then (s, .fault cPAGE_NP 0x00)
  else match s.findLeaf w va acc with
    | (s1, .fault sub) => (s1, .fault cPAGE_NP sub)
    | (s1, .leaf e _ w0 w1) =>
      if (!bitAt w0 6 || (acc.writes && !bitAt w0 7)) && s1.peekWord e != w0 then
        match (s1.dropLeaf w va).findLeaf w va acc with
        | (s2, .fault sub) => (s2, .fault cPAGE_NP sub)
        | (s2, .leaf e' _ w0' w1') => s2.useLeaf w va acc e' w0' w1'
      else s1.useLeaf w va acc e w0 w1

/-- An untranslated page of a supervisor thread whose pgroot is 0 (R301). -/
def flatPage (va : Nat) : Page :=
  { pa := va, key := 0, trk := true, view := 0, vset := 0, fmt := 0, scaled := false, remote := none, ro := false,
    rset := 0, leaf := 0 }

/-- A page without an entry: its Silt unit is expanded, or the pool has no free frame (R150, R168). -/
def State.usePage (s : State) (p : Page) : State × Resolved :=
  match s.siltExpand p.pa false with
  | some s1 => (s1, .page p)
  | none => (s, .fault cPAGE_NP 0x02)

/-- Resolution of a virtual address in the order of R116, or without translation (R301). -/
def State.resolve (s : State) (w : Who) (va : Nat) (acc : AccKind) : State × Resolved :=
  if w.sup && w.ctx.pgroot == 0 then
    if va < 2 ^ 52 then s.usePage (flatPage va) else (s, .fault cPAGE_NP 0x00)
  else if inSpan w.ctx va then (s, .window (va - w.ctx.loamva.toNat % 2 ^ 57))
  else if inHeap w.ctx va then
    match heapDenied w.ctx acc with
    | some sub => (s, .fault cPAGE_PERM sub)
    | none => s.usePage (heapPage w.ctx va)
  else s.translate w va acc

end Sys2Proof.Machine
end

