-- ==== Sys2Proof/Machine/Phys.lean ====
section
/-!
DEFINITION. Reads and writes of physical memory: through a page by an agent's cache, by engines without a copy, by
hardware structures; aliases, remote pages and replica sets (04 R124, R147 to R151; 05 R172, R174; 06 R175, R190).
-/
namespace Sys2Proof.Machine

/-- Consecutive pieces of a range, each within one line: (address, length). -/
def linePieces : Nat → Nat → Nat → List (Nat × Nat)
  | 0, _, _ => []
  | fuel + 1, a, n =>
    if n = 0 then []
    else
      let k := min n (128 - a % 128)
      (a, k) :: linePieces fuel (a + k) (n - k)

/-- The bytes of HBM, host memory or a remote package as an RdOnce finds them; those of forwarded lines at their
destination (R170). -/
def State.peekBytes (s : State) (a n : Nat) : List Byte :=
  (linePieces (n + 1) a n).flatMap fun p =>
    let f := (s.forward p.1 0).1
    lineSlice (s.mem.peekLine (lineOf f)) (f % 128) p.2

/-- Bytes that hardware writes at a home (Wr), under key id `key`; those of forwarded lines at their destination (R170). -/
def State.pokeBytes (s : State) (agent a : Nat) (bs : List Byte) (key : Nat) : State :=
  ((linePieces (bs.length + 1) a bs.length).foldl (fun (p : State × List Byte) e =>
    let f := p.1.forward e.1 key
    (p.1.homeWrite agent (lineOf f.1) (f.1 % 128) (p.2.take e.2) f.2 0, p.2.drop e.2)) (s, bs)).1

/-- Structures that hardware reads and writes at physical addresses are held under key id 0 (log 8). -/
def State.hwWord (s : State) (a : Nat) : Word := s.peekWord a

def State.hwPut (s : State) (a : Nat) (bs : List Byte) : State := (s.siltTouch a).pokeBytes hwAgent a bs 0

def State.hwPutWord (s : State) (a : Nat) (w : Word) : State := s.hwPut a (natBytes 8 w.toNat)

/-! ### Invariant loads (R205) -/

/-- Whether a promise may be open: a gang lives, or a thread has executed an invariant load. -/
def State.promising (s : State) : Bool :=
  !s.gangs.isEmpty || (s.threads.any fun e => !e.2.invs.isEmpty) || s.absent.any fun e => !e.2.invs.isEmpty

/-- What bytes hold, by their keys, is noted before a write, while a promise may be open. -/
def State.notePast (s : State) (old : List (Nat × Byte)) : State :=
  if s.promising then s.withMem { s.mem with past := old.map (fun e => (s.free, e.1, e.2)) ++ s.mem.past }
  else if s.mem.past.isEmpty then s
  else s.withMem { s.mem with past := [] }

/-- The byte of storage behind an address of a page: a remote package's apart, an alias byte's in the row view (R148). -/
def State.byteKey (s : State) (vset key : Nat) (remote : Option Nat) (pa : Nat) : Nat :=
  match remote with
  | some k => remoteKey k pa
  | none => if aliasLine (lineOf pa) then match s.viewAt vset key pa with
      | some (some a) => a
      | _ => pa
    else pa

/-- The bytes of a page from `pa`, each by its key, as they stand. -/
def State.pageBytes (s : State) (p : Page) (pa n : Nat) : List (Nat × Byte) :=
  if !s.promising then []
  else (List.range n).map fun i =>
    let k := s.byteKey p.vset p.key p.remote (pa + i)
    (k, if p.remote.isSome then s.mem.bytes.byte k else (s.peekBytes k 1).headD 0)

/-! ### Accesses that no unit answers (R296; log 5) -/

/-- The next access of the agent stays unanswered; it is the next one no longer. -/
def State.silent (s : State) (agent : Nat) : Bool := s.mem.mute.contains agent
def State.answered (s : State) (agent : Nat) : State := s.withMem { s.mem with mute := s.mem.mute.erase agent }

/-- The package controller's time-out counter (R296). -/
def State.countTimeout (s : State) : State := { s with pkg := { s.pkg with tocnt := satInc48 s.pkg.tocnt } }

/-! ### Accesses through a page -/

/-- The line of HBM or of an alias that an agent's access reaches, its offset there and its key id; a forwarded line at its
destination, but for an untracked copy that the agent has of it, which no recall reaches (R170); a unit without copies asks as
`hwAgent`. -/
def State.lineAt (s : State) (agent : Nat) (p : Page) (pa : Nat) : Nat × Nat × Nat :=
  let own := (s.mem.findCopy agent (lineOf pa)).any fun c => !c.tracked
  if aliasLine (lineOf pa) || own then (lineOf pa, pa % 128, p.key)
  else let f := s.forward pa p.key; (lineOf f.1, f.1 % 128, f.2)

/-- A page whose copies the directory tracks: TRK = 1, and every replica-set page, whose stores reach every copy of the
local member (R210). -/
def Page.tracked (p : Page) : Bool := p.trk || p.rset != 0

/-- A read of at most one line's bytes by an agent with a cache; `none` is poison (R151). -/
def State.readPage (s : State) (agent asid : Nat) (p : Page) (pa n : Nat) : State × Option (List Byte) :=
  match p.remote with
  | some k => (s, some (s.mem.bytes.bytes (remoteKey k pa) n))
  | none =>
    match physKind pa with
    | .hbm | .aliased _ =>
      let l := s.lineAt agent p pa
      if s.readPoisoned agent l.1 p.vset l.2.2 then (s, none)
      else
        let r := s.readCopy agent l.1 asid l.2.2 p.vset p.tracked
        (r.1, some (lineSlice r.2 l.2.1 n))
    | .host => (s, some (s.mem.bytes.bytes pa n))
    | .control => (s, some (List.replicate n 0))
    | .absent => (s, none)

/-- Bytes written to every member of a replica set (R174). -/
def State.writeReplicas (s : State) (p : Page) (off : Nat) (bs : List Byte) : State :=
  match s.replicaSet p.rset with
  | none => s
  | some (ms, _) => ms.foldl (fun s m =>
      if m.pkg = fld s.pkg.pkgid 8 0 then s.pokeBytes hwAgent (m.base + off) bs p.key
      else s.withMem { s.mem with bytes := s.mem.bytes.puts (remoteKey m.pkg (m.base + off)) bs }) s

/-- Offset of an address in its replica-set page: from the base of the member it was resolved to. -/
def State.replicaOffset (s : State) (p : Page) (pa : Nat) : Nat :=
  match s.replicaSet p.rset with
  | none => 0
  | some (ms, l) => pa - (s.servingMember ms l).1.base

/-- The bytes of a store that have storage: all of a row line's; through an alias not padding, nor what lies outside the
view (R147, R149). -/
def State.storable (s : State) (p : Page) (pa n : Nat) : BitVec 128 :=
  if aliasLine (lineOf pa) then
    (List.range n).foldl (fun (m : BitVec 128) i => match s.aliasByte p (pa + i) with
      | some (some _) => m ||| (1#128 <<< ((pa + i) % 128))
      | _ => m) 0
  else spanMask (pa % 128) n

/-- A store of at most one line's bytes to local memory by an agent with a cache. A partial store to a poisoned line is
dropped (R151); bytes of an alias that have no storage are dropped, and the store counted (R147, R149). -/
def State.storeLocal (s0 : State) (agent asid : Nat) (p : Page) (pa : Nat) (bs : List Byte) : State :=
  let mask := s0.storable p pa bs.length
  let s := if mask = spanMask (pa % 128) bs.length then s0 else s0.viewError pa
  let l := s.lineAt agent p pa
  let mask' := if aliasLine l.1 then mask else spanMask l.2.1 bs.length
  if mask' = 0 || (s.readPoisoned agent l.1 p.vset l.2.2 && mask' != fullMask) then s
  else s.storeCopy agent l.1 asid l.2.2 p.vset p.trk l.2.1 bs mask'

/-- A store of at most one line's bytes by an agent with a cache. -/
def State.writePage (s0 : State) (agent asid : Nat) (p : Page) (pa : Nat) (bs : List Byte) : State :=
  let s := s0.notePast (s0.pageBytes p pa bs.length)
  if p.rset ≠ 0 then s.writeReplicas p (s.replicaOffset p pa) bs
  else match p.remote with
    | some k => s.withMem { s.mem with bytes := s.mem.bytes.puts (remoteKey k pa) bs }
    | none =>
      match physKind pa with
      | .hbm | .aliased _ => s.storeLocal agent asid p pa bs
      | .host => s.withMem { s.mem with bytes := s.mem.bytes.puts pa bs }
      | .control => s
      | .absent => s

/-- An atomic on storage that no cache of the package holds a copy of: host memory, a remote package's. -/
def State.atomicAt (s : State) (key size : Nat) (i : Instr) (b c : Word) : State × Option Nat :=
  let old := s.mem.bytes.nat key size
  (s.withMem { s.mem with bytes := s.mem.bytes.puts key (natBytes size (atomicNew i (8 * size) old b.toNat c.toNat)) }, some old)

/-- An atomic at the home of a line (R366): by a request, or in L2 for untracked memory, the agent's own copy written back
first (R190). The old value, or poison. -/
def State.atomicLine (s0 : State) (agent : Nat) (p : Page) (pa size : Nat) (i : Instr) (b c : Word) : State × Option Nat :=
  let l := s0.lineAt hwAgent p pa
  let s := s0.gatherViews l.1 (spanMask l.2.1 size) l.2.2 p.vset
  let act : AtomicAct := ⟨i, size, l.2.1, b, c⟩
  let m := { Msg.ask .atomic l.1 agent l.2.2 p.vset with act := some act }
  let value := fun (d : Line) => bytesToNat (lineSlice d l.2.1 size)
  if p.trk then (s.request m, (s.readOnce l.1 p.vset l.2.2).map value)
  else
    let s1 := (s.putLine agent (lineOf pa) false).putLine agent l.1 false
    let old := if aliasLine l.1 then s1.viewLine p.vset l.2.2 l.1
      else if s1.mem.poisoned l.1 l.2.2 then none else some (s1.mem.bytes.line l.1)
    let s2 := s1.performHome m
    -- the reply has arrived
    (s2.unpost s1.nxt.msg, old.map value)

/-- An atomic through a page (R366): at the home, at the remote home, at member 0 of a replica set. The old value, or
poison. -/
def State.atomicPage (s0 : State) (agent : Nat) (p : Page) (pa size : Nat) (i : Instr) (b c : Word) :
    State × Option Nat :=
  let s := s0.notePast (s0.pageBytes p pa size)
  if p.rset ≠ 0 then
    match s.replicaSet p.rset with
    | some (m :: _, _) =>
      let off := s.replicaOffset p pa
      let old := if m.pkg = fld s.pkg.pkgid 8 0 then bytesToNat (s.peekBytes (m.base + off) size)
        else s.mem.bytes.nat (remoteKey m.pkg (m.base + off)) size
      (s.writeReplicas p off (natBytes size (atomicNew i (8 * size) old b.toNat c.toNat)), some old)
    | _ => (s, some 0)
  else match p.remote with
    | some k => s.atomicAt (remoteKey k pa) size i b c
    | none =>
      match physKind pa with
      | .hbm | .aliased _ => s.atomicLine agent p pa size i b c
      | .host => s.atomicAt pa size i b c
      | .control => (s, some 0)
      | .absent => (s, none)

/-! ### Reads and writes of engines through a page (RdOnce, Wr; R175) -/

/-- One line's bytes by RdOnce; of an untracked page what L2 holds, which causes no snoop (R190). `none` is poison. -/
def State.engineLine (s : State) (agent : Nat) (p : Page) (pa n : Nat) : State × Option (List Byte) :=
  let l := s.lineAt hwAgent p pa
  let slice := fun (d : Line) => lineSlice d l.2.1 n
  if p.tracked then
    (s.request (Msg.ask .rdonce l.1 agent l.2.2 p.vset), (s.readOnce l.1 p.vset l.2.2).map slice)
  else if aliasLine l.1 then (s, (s.viewLine p.vset l.2.2 l.1).map slice)
  else (s, if s.mem.poisoned l.1 l.2.2 then none else some (slice (s.mem.bytes.line l.1)))

/-- Bytes read by an engine, lines that are poisoned or that no unit answers for as zeros, with the addresses of such lines
(R143, R222, R296). -/
def State.engineRead (s : State) (agent : Nat) (p : Page) (pa n : Nat) : State × List Byte × List Nat :=
  if s.silent agent then
    (s.answered agent, List.replicate n 0, (linePieces (n + 1) pa n).map fun e => lineOf e.1 * 128)
  else match p.remote with
  | some k => (s, s.mem.bytes.bytes (remoteKey k pa) n, [])
  | none =>
    match physKind pa with
    | .hbm | .aliased _ =>
      (linePieces (n + 1) pa n).foldl (fun (acc : State × List Byte × List Nat) e =>
        match acc.1.engineLine agent p e.1 e.2 with
        | (s1, some bs) => (s1, acc.2.1 ++ bs, acc.2.2)
        | (s1, none) => (s1, acc.2.1 ++ List.replicate e.2 0, acc.2.2 ++ [lineOf e.1 * 128])) (s, [], [])
    | .host => (s, s.mem.bytes.bytes pa n, [])
    | .control => (s, List.replicate n 0, [])
    | .absent => (s, List.replicate n 0, [lineOf pa * 128])

/-- One line's bytes written by an engine: a Wr at the home; through an untracked mapping in L2 itself (R190). Bytes of an
alias that have no storage are dropped, and the store counted. -/
def State.engineStore (s0 : State) (agent : Nat) (p : Page) (pa : Nat) (bs : List Byte) : State :=
  let mask := s0.storable p pa bs.length
  let s := if mask = spanMask (pa % 128) bs.length then s0 else s0.viewError pa
  let l := s.lineAt hwAgent p pa
  let mask' := if aliasLine l.1 then mask else spanMask l.2.1 bs.length
  let d := spliceLine 0 l.2.1 bs
  if p.trk then s.request { Msg.ask .wr l.1 agent l.2.2 p.vset with data := d, mask := mask' }
  else s.homeStore l.1 d mask' l.2.2 p.vset

def State.engineWrite (s0 : State) (agent : Nat) (p : Page) (pa : Nat) (bs : List Byte) : State :=
  if s0.silent agent then (s0.answered agent).countTimeout
  else
  let s := s0.notePast (s0.pageBytes p pa bs.length)
  if p.rset ≠ 0 then s.writeReplicas p (s.replicaOffset p pa) bs
  else match p.remote with
    | some k => s.withMem { s.mem with bytes := s.mem.bytes.puts (remoteKey k pa) bs }
    | none =>
      match physKind pa with
      | .hbm | .aliased _ =>
        ((linePieces (bs.length + 1) pa bs.length).foldl (fun (q : State × List Byte) e =>
          (q.1.engineStore agent p e.1 (q.2.take e.2), q.2.drop e.2)) (s, bs)).1
      | .host => s.withMem { s.mem with bytes := s.mem.bytes.puts pa bs }
      | .control => s
      | .absent => s

/-! ### Instruction fetch (R246, R349) -/

inductive Fetched where
  | word (w : Word)
  | fault (cause sub : Nat)
  deriving DecidableEq, Repr

/-- Lines of a latency core's first-level instruction cache: 64 KiB (00 R2). -/
def icacheLines : Nat := 512

/-- A line enters an instruction cache; a full one of a latency core gives up the line that entered first (log 13). -/
def MemSys.fillIcache (m : MemSys) (l : ILine) : MemSys :=
  let mine := m.icache.filter fun x => x.core == l.core
  let out := if 384 ≤ l.core ∧ icacheLines ≤ mine.length then mine.getLast? else none
  { m with icache := l :: m.icache.filter fun x => some x != out }

/-- A line in a core's instruction cache, which holds no directory copy (R349). -/
def State.fetchLine (s : State) (core pa key : Nat) : State × Option Line :=
  let line := lineOf pa
  match s.mem.icache.find? fun l => l.core == core && l.line == line with
  | some l => (s, some l.data)
  | none =>
    if s.mem.poisoned line key then (s, none)
    else
      let d := s.mem.bytes.line line
      (s.withMem (s.mem.fillIcache ⟨core, line, d⟩), some d)

/-- The word at a PC, or the fault that every thread which would execute it takes (R246). -/
def State.fetch (s : State) (w : Who) (pc : Nat) : State × Fetched :=
  match s.resolve w pc .fetch with
  | (s1, .fault c sub) => (s1, .fault c sub)
  | (s1, .window _) => (s1, .fault cPAGE_PERM 0x02)
  | (s1, .page p) =>
    match physKind p.pa with
    | .control => (s1, .fault cPAGE_PERM 0x02)
    | .absent => (s1, .fault cPOISON 0)
    | .hbm =>
      let f := s1.forward p.pa p.key
      match s1.fetchLine w.agent f.1 f.2 with
      | (s2, none) => (s2, .fault cPOISON 0)
      | (s2, some d) => (s2, .word (BitVec.ofNat 64 (bytesToNat (lineSlice d (f.1 % 128) 8))))
    | .host => (s1, .word (BitVec.ofNat 64 (s1.mem.bytes.nat p.pa 8)))
    | .aliased _ => (s1, .fault cPAGE_PERM 0x02)

end Sys2Proof.Machine
end

