-- ==== Sys2Proof/Machine/Flags.lean ====
section
/-!
DEFINITION. The exception flags (R95, R96, R98): every instruction that sets one does it here.
-/
namespace Sys2Proof.Machine

/-- Sticky flags: a flag once set stays set until SYSWR clears it (R95). -/
def FpRegs.raise (r : FpRegs) (f : BitVec 6) : FpRegs := { r with fflags := r.fflags ||| f }

def Thread.raise (t : Thread) (f : BitVec 6) : Thread := { t with fp := t.fp.raise f }

def State.raiseFlags (s : State) (k : Nat) (f : BitVec 6) : State := s.modThread k fun t => t.raise f

/-- fflags AND ftrapen, the value of ARITH (R98). -/
def FpRegs.enabled (r : FpRegs) : BitVec 6 := r.fflags &&& r.ftrapen

/-- The mode of an instruction's rm field for a thread (R91, R97). -/
def State.mode (s : State) (k : Nat) (rm : Rm) : Mode := rmMode rm (s.thread k).fp.frm

end Sys2Proof.Machine
end

