-- ==== Sys2Proof/Machine/Operands.lean ====
section
/-!
DEFINITION. Operands: guards (R248), predicates (R251), general registers with g0 and the shared-register mappings
(R69, R77, R360), immediates and effective addresses.
-/
namespace Sys2Proof.Machine

/-- p[g] XOR gn; p0 reads true (R248, R251). -/
def Thread.pred (t : Thread) (p : Pred) : Bool := p == 0 || t.preds.getLsbD p.toNat

def Thread.guard (t : Thread) (g : Guard) : Bool := t.pred g.p != g.neg

/-- A predicate written; p0 discards (R251). -/
def Thread.setPred (t : Thread) (p : Pred) (v : Bool) : Thread :=
  if p = 0 then t
  else { t with preds := if v then t.preds ||| (1#8 <<< p.toNat) else t.preds &&& ~~~(1#8 <<< p.toNat) }

def Thread.reg (t : Thread) (n : Nat) : Word := if h : n < 64 then t.regs[n] else 0

/-- Both words of a register. -/
def regMask (n : Nat) : BitVec 128 := 3#128 <<< (2 * n)

/-- A register written, with good parity (R84); g0 discards (R360). -/
def Thread.setReg (t : Thread) (n : Nat) (v : Word) : Thread :=
  if h : n < 64 then if n = 0 then t else { t with regs := t.regs.set n v, parity := t.parity &&& ~~~regMask n } else t

/-- The mapping of a crew that covers local register `n` (R76). -/
def Crew.mapping (c : Crew) (n : Nat) : Option ShMap :=
  c.maps.find? fun m => decide (m.d ≤ n) && decide (n < m.d + m.count)

/-- The physical register that a register number names: the thread's own, or the target thread's in a mapped range on
a lane whose target lane holds a thread (R77). DESIGN CHOICE (log 52): while the target crew stands saved off the core, the
access reads and writes the register that the saved thread's record holds, and its restore discards what was written. -/
def State.physReg (s : State) (k n : Nat) : Nat × Nat :=
  match s.crewAt k with
  | none => (k, n)
  | some c =>
    match c.mapping n with
    | none => (k, n)
    | some m =>
      let tk := laneKey m.target (laneOf k)
      if (s.threads.find tk).isSome then (tk, m.t + (n - m.d)) else (k, n)

/-- A read of a general register; g0 reads zero (R360). -/
def State.readReg (s : State) (k : Nat) (r : Reg) : Word :=
  if r = 0 then 0
  else
    let p := s.physReg k r.toNat
    (s.thread p.1).reg p.2

/-- A write of a general register; a write to g0 is discarded (R360). -/
def State.writeReg (s : State) (k : Nat) (r : Reg) (v : Word) : State :=
  if r = 0 then s
  else
    let p := s.physReg k r.toNat
    s.modThread p.1 fun t => t.setReg p.2 v

/-- A named register at or above regcnt, or a mapped one whose target number is at or above the target's (R69, R77). -/
def State.regBad (s : State) (k : Nat) (r : Nat) : Bool :=
  r != 0 &&
  (decide ((s.thread k).regcnt ≤ r) ||
    (let p := s.physReg k r
     decide ((s.thread p.1).regcnt ≤ p.2)))

/-- A named register has a word of bad parity (R84). -/
def State.parityBad (s : State) (k r : Nat) : Bool :=
  r != 0 && (let p := s.physReg k r; (s.thread p.1).parity &&& regMask p.2 != 0)

/-- Window address of the first bad word of a register: loamva + its offset (R84). -/
def State.parityAddr (s : State) (k r : Nat) : Word :=
  let p := s.physReg k r
  let t := s.thread p.1
  (s.ctxOf k).loamva + BitVec.ofNat 64 (t.loambase + 8 * p.2 + if t.parity.getLsbD (2 * p.2) then 0 else 4)

/-- The general registers that an instruction reads (R84). -/
def readsOf : Instr → List Reg
  | .add _ _ a b | .sub _ _ a b | .addw _ _ a b | .subw _ _ a b | .and _ _ a b | .or _ _ a b | .xor _ _ a b
  | .shl _ _ a b | .shr _ _ a b | .sra _ _ a b | .min _ _ a b | .max _ _ a b | .minu _ _ a b | .maxu _ _ a b
  | .slt _ _ a b | .sltu _ _ a b | .sel _ _ a b _ | .lea _ _ a b _ | .bfi _ _ a b _ _ | .mul _ _ a b | .mulh _ _ a b
  | .mulhu _ _ a b | .div _ _ a b | .divu _ _ a b | .rem _ _ a b | .remu _ _ a b => [a, b]
  | .sext _ _ a _ | .zext _ _ a _ | .clz _ _ a | .popc _ _ a | .brev _ _ a | .bfx _ _ a _ _ | .addi _ _ a _
  | .andi _ _ a _ | .ori _ _ a _ | .xori _ _ a _ | .shli _ _ a _ | .shri _ _ a _ | .srai _ _ a _ | .slti _ _ a _ => [a]
  | .movhi _ d _ => [d]
  | .pcmp _ _ _ a b | .fcmp _ _ _ _ a b => [a, b]
  | .pcmpi _ _ _ a _ => [a]
  | .fadd _ _ _ _ a b | .fsub _ _ _ _ a b | .fmul _ _ _ _ a b | .fdiv _ _ _ _ a b | .fmin _ _ _ a b | .fmax _ _ _ a b => [a, b]
  | .ffma _ _ _ _ a b c | .pfma _ _ _ _ a b c | .pdot _ _ _ _ a b c => [a, b, c]
  | .fsqrt _ _ _ _ a | .frcp _ _ _ _ a | .frsq _ _ _ _ a | .fexp2 _ _ _ _ a | .flog2 _ _ _ _ a | .fclass _ _ _ a
  | .fcvt _ _ _ _ _ a | .icvt _ _ _ _ _ _ a => [a]
  | .pcvt _ _ _ _ _ d a => [a, d]
  | .shfl _ _ _ a b c => [a, b, c]
  | .vote _ _ _ _ a c | .redb _ _ _ _ _ a c | .scanb _ _ _ _ _ _ a c => [a, c]
  | .ld _ _ _ _ _ _ a _ | .pref _ _ a _ | .cwb _ _ a _ | .cinv _ _ a _ | .icinv _ _ a _ => [a]
  | .st _ sz _ _ d a _ => if sz = .q then [a, d, d + 1] else [a, d]
  | .amoAdd _ _ _ _ _ a b | .amoAnd _ _ _ _ _ a b | .amoOr _ _ _ _ _ a b | .amoXor _ _ _ _ _ a b | .amoMin _ _ _ _ _ a b
  | .amoMax _ _ _ _ _ a b | .amoMinu _ _ _ _ _ a b | .amoMaxu _ _ _ _ _ a b | .amoSwap _ _ _ _ _ a b
  | .amoFadd _ _ _ _ a b => [a, b]
  | .cas _ _ _ _ _ a b c => [a, b, c]
  | .jalr _ _ _ a _ | .migrateTosimt _ _ a | .shmap _ _ a _ _ | .setf _ _ a | .takef _ _ a => [a]
  | .scall _ _ | .scallOv _ _ _ | .scallNs _ _ => [10, 11, 12, 13, 14, 15, 16, 17]
  | .mmaT _ _ a b | .mmaK _ _ a b | .kfill _ _ a b | .cbkld _ _ a b _ => [a, b]
  | .kalloc _ _ _ _ a | .kpin _ a | .kpinOff _ a | .krev _ a | .kstat _ _ a => [a]
  | .engoCopy _ _ a | .engoEpi _ _ a | .engoNet _ _ _ a | .engq _ _ a | .syswr _ _ a => [a]
  | .tlbinvPg _ a b _ => [a, b]
  | .tlbinvAs _ b => [b]
  | .tlbinvPga _ a _ => [a]
  | _ => []

/-- The 32-bit immediate of formats I and B, sign-extended (R250). -/
def imm64 (i : BitVec 32) : Word := i.signExtend 64

/-- g[a] + sext(off24), bits [63:57] ignored (R116, R417). -/
def State.effAddr (s : State) (k : Nat) (a : Reg) (off : BitVec 24) : Nat :=
  va57 (s.readReg k a + off.signExtend 64)

/-- Bytes of a memory size (R250). -/
def memBytes : MemSize → Nat
  | .b => 1 | .h => 2 | .w => 4 | .d => 8 | .q => 16

def amoBytes : AmoSize → Nat
  | .w => 4 | .d => 8

end Sys2Proof.Machine
end

