-- ==== Sys2Proof/Machine/Ops.lean ====
section
/-!
DEFINITION. The shared operations of the machine: bundles, frames, taking an exception and handing a thread to the
supervisor (11 R292 to R302), and the issue of one instruction by its threads (09 R248, R249; 01 R29, R30, R33).
-/
namespace Sys2Proof.Machine

abbrev Out := Host.Outcome State Fault Refusal

/-! ### Bundles (R32, R33) -/

/-- A thread taken out of its bundle; an empty bundle is gone. -/
def Core.leave (c : Core) (k : Nat) : Core :=
  let bs := c.bundles.map fun b => { b with members := b.members.filter (· != k) }
  { c with bundles := bs.filter fun b => !b.members.isEmpty }

def State.leaveBundle (s : State) (k : Nat) : State :=
  if isLat k then s else s.modCore (s.coreOf k) fun c => c.leave k

/-- The bundle of a partition with a formation index (R32). -/
def State.bundle (s : State) (core part idx : Nat) : Option Bundle :=
  (s.core core).bundles.find? fun b => b.part == part && b.stamp % 16 == idx

/-- A thread that may issue: resident, not parked, not held, not waiting in speculation (R30, R50, R61). -/
def Thread.ready (t : Thread) : Bool :=
  t.st.live && t.st.pending == .none && t.st.park == .none && !t.st.held && !t.st.sleeping
    && !(t.spec.mode == .waiting)

/-- A latency thread that waits in WAITC looks at its counters again in every step (R477). -/
def Thread.looks (t : Thread) : Bool := t.st.park == .counters && { t with st := { t.st with park := .none } }.ready

/-- A thread parks with a kind of wait; `i` is the instruction (R26, R27). -/
def State.parkThread (s : State) (k : Nat) (p : Park) (i : Instr) : State :=
  let s1 := s.modThread k fun t => { t with st := { t.st with park := p, again := some i, stamp := s.nxt.age } }
  { s1 with nxt := { s1.nxt with age := s1.nxt.age + 1 } }

/-- The thread goes on at `pc`. -/
def Thread.goTo (t : Thread) (pc : Word) : Thread := { t with pc := pc, issued := t.issued + 1 }

def State.goTo (s : State) (k : Nat) (pc : Word) : State := s.modThread k fun t => t.goTo pc

/-- A parked thread becomes ready at the instruction after its parking instruction. -/
def Thread.unparked (t : Thread) : Thread :=
  { t with pc := nextPc t.pc, issued := t.issued + 1, st := { t.st with park := .none, again := none } }

/-- Each counter at or below its field (R477). -/
def Counters.within (c : Counters) (ld st cp tile : Nat) : Bool :=
  decide (c.ld ≤ ld) && decide (c.st ≤ st) && decide (c.cp ≤ cp) && decide (c.tile ≤ tile)

/-- A recorded chain failure that WAITC or EXIT takes now (R143, R298). -/
def Thread.dueFailure (t : Thread) : Option Word := if t.trap.ta then none else t.failures.head?

/-- A thread parked in WAITC goes on to the next instruction as soon as its counters satisfy it (R345, R477); one that has a
chain failure to take does not. -/
def Thread.settled (t : Thread) : Thread :=
  match t.st.park, t.st.again with
  | .counters, some (.waitc _ ld st cp tile) =>
    if t.dueFailure.isNone && t.oc.within ld.toNat st.toNat cp.toNat tile.toNat then t.unparked else t
  | _, _ => t

/-- A parked thread stands at its parking instruction again, ready to execute it (R27). -/
def Thread.retrying (t : Thread) : Thread := { t with st := { t.st with park := .none, again := none } }

/-- The threads that the present turn's issuer issues for, in lane order. -/
def State.issuing (s : State) : List Nat :=
  match s.cur with
  | .hart n => [n]
  | .bundle c p i => match s.bundle c p i with
    | some b => b.members
    | none => []

/-! ### Thread frames (R25, R26) -/

def tstatWord (r : TrapRegs) : Word :=
  BitVec.ofNat 64 (boolBit r.ta + 2 * boolBit r.sup + 64 * boolBit r.sigp + 128 * boolBit r.engp)

def Park.code : Park → Nat
  | .none => 0 | .join _ => 1 | .xlane => 2 | .setf => 3 | .cb => 4 | .grow => 5 | .gbar => 6 | .counters => 7

def Park.jidx : Park → Nat
  | .join n => n.toNat
  | _ => 0

/-- The frame status word (R26). -/
def statusWord (t : Thread) (lat : Bool) (part slot lane : Nat) : Word :=
  BitVec.ofNat 64 (2 ^ 31 + 2 ^ 30 * boolBit t.st.poison + 2 ^ 29 * boolBit t.st.gwait + 2 ^ 28 * boolBit t.st.away
    + 2 ^ 27 * boolBit t.st.reissue + 2 ^ 26 * boolBit lat + 2 ^ 23 * t.st.park.code + 2 ^ 20 * t.st.park.jidx
    + 2 ^ 18 * part + 2 ^ 14 * slot + 2 ^ 9 * lane + (t.preds ||| 1).toNat)

/-- The 128 words of a thread's frame (R25); `cap` is the effective fidelity cap at the save. -/
def frameWords (t : Thread) (status : Word) (cap : Nat) : List Word :=
  let regs := (List.range 64).map fun n => if n = 0 ∨ t.regcnt ≤ n then 0 else t.reg n
  let w := fun (n : Nat) => BitVec.ofNat 64 n
  regs ++
  [ t.pc, status, t.ids.tid, w (t.ids.gsize.toNat * 2 ^ 32 + t.ids.gang.toNat), w (t.ids.seq % 2 ^ 48),
    tstatWord t.trap, t.trap.tvec, t.trap.tepc, t.trap.tcause, t.trap.tval, t.trap.tscratch,
    w (t.fp.frm.toNat * 2 ^ 16 + t.fp.ftrapen.toNat * 2 ^ 8 + t.fp.fflags.toNat),
    w (cap * 2 ^ 8 + t.fp.fid.toNat), w (t.loambase * 2 ^ 16 + t.regcnt),
    w (t.oc.tile * 2 ^ 24 + t.oc.cp * 2 ^ 16 + t.oc.st * 2 ^ 8 + t.oc.ld),
    w t.trap.cause2.toNat, t.trap.tval2 ]
  ++ List.replicate 46 0 ++ [1]

def wordsBytes (ws : List Word) : List Byte := ws.flatMap fun w => natBytes 8 w.toNat

/-- PARK and JIDX of a status word. -/
def parkOf (w : Word) : Park :=
  match fld w 25 23 with
  | 1 => .join (BitVec.ofNat 3 (fld w 22 20))
  | 2 => .xlane | 3 => .setf | 4 => .cb | 5 => .grow | 6 => .gbar | 7 => .counters
  | _ => .none

/-- frm as a frame gives it: 0, 6 and 7 load as 1, as a SYSWR of them stores (R97; log 2). -/
def loadFrm (v : Nat) : BitVec 3 := if v = 0 ∨ 6 ≤ v then 1 else BitVec.ofNat 3 v

/-- fid as a frame gives it: 4 to 14 load as 0xF (R111). -/
def loadFid (v : Nat) : BitVec 4 := if 4 ≤ v ∧ v ≤ 14 then 0xF else BitVec.ofNat 4 v

/-- The thread that a frame's words hold (R25, R300). -/
def threadOfFrame (ws : List Word) : Thread :=
  let w := fun (off : Nat) => ws.getD (off / 8) 0
  let st := w 0x208
  let ts := w 0x228
  { regs := Vector.ofFn fun n : Fin 64 => if n.val = 0 then 0 else ws.getD n.val 0
    preds := BitVec.ofNat 8 (fld st 7 0) ||| 1
    pc := BitVec.ofNat 64 (fld (w 0x200) 56 3 * 8)
    ids := { tid := w 0x210, gang := BitVec.ofNat 32 (fld (w 0x218) 31 0), seq := fld (w 0x220) 47 0,
             gsize := BitVec.ofNat 32 (fld (w 0x218) 63 32), lane := 0, cidx := 0, gci := 0 }
    trap := { ta := bitAt ts 0, sup := bitAt ts 1, sigp := bitAt ts 6, engp := bitAt ts 7, tvec := w 0x230 &&& 0x01FFFFFFFFFFFFF9,
              tepc := w 0x238 &&& 0x01FFFFFFFFFFFFF8, tcause := w 0x240 &&& 0xFFFF, tval := w 0x248, tscratch := w 0x250,
              cause2 := BitVec.ofNat 8 (fld (w 0x278) 7 0), tval2 := w 0x280 }
    fp := { fflags := BitVec.ofNat 6 (fld (w 0x258) 5 0), ftrapen := BitVec.ofNat 6 (fld (w 0x258) 13 8),
            frm := loadFrm (fld (w 0x258) 18 16), fid := loadFid (fld (w 0x260) 3 0) }
    regcnt := fld (w 0x268) 6 0
    loambase := fld (w 0x268) 37 16, parity := 0
    oc := ⟨fld (w 0x270) 5 0, fld (w 0x270) 13 8, fld (w 0x270) 19 16, fld (w 0x270) 27 24⟩
    st := { ThreadStatus.ready with poison := bitAt st 30, gwait := bitAt st 29, away := bitAt st 28,
                                    reissue := bitAt st 27, park := parkOf st }
    spec := .idle, signals := [], failures := [], issued := 0, seen := 0, invs := [] }

/-- 128 words of a frame in memory. -/
def State.frameAt (s : State) (a : Nat) : List Word := (List.range 128).map fun k => s.hwWord (a + 8 * k)

def State.putFrame (s : State) (a : Nat) (ws : List Word) : State := s.hwPut a (wordsBytes ws)

/-! ### The region of a thread (R54 to R56, R267) -/

/-- A word of a region control block, as a coherent read in the context returns it; blocks are named by addresses of
the context (R57), and one that no unit answers for cannot be read. -/
def State.regionWord (s : State) (w : Who) (block : Word) (off : Nat) : Option Word :=
  if s.silent hwAgent then none
  else match s.resolve { w with sup := true } (va57 block + off) .load with
  | (_, .page p) => if s.mem.peekPoisoned (lineOf p.pa) p.key then none else some (s.hwWord p.pa)
  | _ => none

/-- The blocks from a leaf up to the root, leaf first, read through a reader of words; `none` for a broken path (R57:
a loop, sixteen blocks, an unreadable block). -/
def pathFrom (rd : Word → Nat → Option Word) : Nat → Word → List Word → Option (List Word)
  | 0, _, _ => none
  | fuel + 1, b, seen =>
    if seen.contains b then none
    else match rd b 0 with
      | none => none
      | some parent =>
        if parent = 0 then some (seen ++ [b]) else pathFrom rd fuel parent (seen ++ [b])

/-- A word of a block as die `d` sees it: its cached copy, or memory (R56, R277). -/
def State.cachedWord (s : State) (w : Who) (d : Nat) (block : Word) (off : Nat) : Option Word :=
  match (s.die d).regions.find? (·.addr == block) with
  | some r => some (r.words.getD (off / 8) 0)
  | none => s.regionWord w block off

def State.regionPath (s : State) (w : Who) (d : Nat) (leaf : Word) : Option (List Word) :=
  pathFrom (s.cachedWord w d) 16 leaf []

/-- A field's effective value: from the nearest block, going up, whose inherit bit for it is clear (R55). -/
def effectiveField (rd : Word → Nat → Option Word) (bit : Nat) (get : Word → Nat) : List Word → Nat
  | [] => 0
  | [b] => get b
  | b :: rest =>
    match rd b 0x58 with
    | some m => if bitAt m bit then effectiveField rd bit get rest else get b
    | none => get b

/-- The effective fidelity cap: the lowest FCAP along the path (R56). -/
def State.fidCap (s : State) (w : Who) (d : Nat) (leaf : Word) : Nat :=
  if leaf = 0 then 0
  else match s.regionPath w d leaf with
    | none => 0
    | some p => (p.map fun b => fld ((s.cachedWord w d b 0x08).getD 0) 5 4).foldl min 3

/-- The die whose scheduler answers for a thread: its SIMT die, and die 0 for a latency thread. -/
def State.dieOf (s : State) (k : Nat) : Nat := if isLat k then 0 else s.coreOf k / Config.coresPerDie

/-- The leaf region of a thread (R410, R267): a gang's, or what RGN of its hardware thread names. -/
def State.regionOf (s : State) (k : Nat) : Word :=
  match s.gangs.find (s.thread k).ids.seq with
  | some g => if (s.thread k).ids.seq = 0 then (s.hart k).rgn else g.desc.region
  | none => if isLat k then (s.hart k).rgn else 0

def State.capOf (s : State) (k : Nat) : Nat := s.fidCap (s.who k) (s.dieOf k) (s.regionOf k)

/-! ### Escalation queue, save area (R299, R304, R328, R329) -/

def State.escFull (s : State) : Bool :=
  (s.pkg.escHead + 65536 - s.pkg.escTail) % 65536 == 2 ^ s.pkg.escLog

/-- A record appended to the escalation queue (R299); the caller has tested that there is room. -/
def State.escRecord (s : State) (frame : Nat) (cause value tid : Word) : State :=
  let a := fld s.pkg.escbase 51 12 * 4096 + 32 * (s.pkg.escHead % 2 ^ s.pkg.escLog)
  let s := s.hwPut a (wordsBytes [BitVec.ofNat 64 frame, cause, value, tid])
  { s with pkg := { s.pkg with escHead := (s.pkg.escHead + 1) % 65536 } }

/-- The lowest free run of `len` bytes, aligned, in a die's save area, other than the frames in use. -/
def Die.findRoom (d : Die) (len align : Nat) : Option Nat :=
  let base := fld d.savebase 51 12 * 4096
  let size := fld d.savelen 47 12 * 4096
  let free := fun (a : Nat) => decide (a + len ≤ base + size) && decide (base ≤ a) &&
    d.frames.all fun f => decide (a + len ≤ f.1) || decide (f.1 + f.2 ≤ a)
  let starts := base :: d.frames.map fun f => ceilDiv (f.1 + f.2) align * align
  (starts.filter free).foldl (fun b a => match b with | none => some a | some x => some (min x a)) none

def Die.take (d : Die) (a len : Nat) : Die := { d with frames := (a, len) :: d.frames }
def Die.free (d : Die) (a : Nat) : Die := { d with frames := d.frames.filter fun f => f.1 != a }

/-- The escalated frame of a held lane is free, and its escalation over. -/
def State.dropEscalated (s : State) (k : Nat) : State :=
  let drop := fun (e : Nat × Die) =>
    let mine := e.2.escalated.filter fun x => x.2 == k
    let rest := e.2.escalated.filter fun x => x.2 != k
    (e.1, mine.foldl (fun (d : Die) x => d.free x.1) { e.2 with escalated := rest })
  { s with dies := s.dies.map drop }

/-! ### Hardware threads (R300) -/

/-- The held lane of an AWAY thread with this identity (R49). -/
def State.heldLane (s : State) (t : Thread) : Option Nat :=
  (s.threads.find? fun e => decide (256 ≤ e.1) && e.2.st.away && e.2.ids.seq == t.ids.seq
    && e.2.ids.gang == t.ids.gang).map (·.1)

/-- The hardware thread that runs the thread of a held lane (R49). -/
def State.awayHart (s : State) (l : Nat) : Option Nat :=
  if (s.thread l).st.away then
    (s.threads.find? fun e => isLat e.1 && e.2.st.away && e.2.ids.seq == (s.thread l).ids.seq
      && e.2.ids.gang == (s.thread l).ids.gang).map (·.1)
  else none

/-- The key of a latency thread's identity: one that is not AWAY is told by its tid, whichever hardware thread runs it and
while it stands in a frame (DEDUCED, log 61). -/
def tidKey (t : Thread) : Nat := 2 ^ 64 + t.ids.tid.toNat

/-- The key under which a chain or command counts a thread: a SIMT thread's lane, an AWAY thread's held lane, another
latency thread's identity (R49, R357, R380). -/
def State.countKey (s : State) (k : Nat) : Nat :=
  if !isLat k then k
  else match if (s.thread k).st.away then s.heldLane (s.thread k) else none with
    | some l => l
    | none => tidKey (s.thread k)

/-- The hardware thread that runs the thread counted under a key. -/
def State.hartOf (s : State) (key : Nat) : Option Nat :=
  (s.threads.find? fun e => isLat e.1 && s.countKey e.1 == key).map (·.1)

/-- A change to what is counted for a thread (R49, R126, R300): where the thread runs, in its held lane, or in what is kept
of it while it stands in a frame; nothing for a thread that has exited. -/
def State.modCounted (s : State) (key : Nat) (f : Thread → Thread) : State :=
  match s.hartOf key with
  | some n => s.modThread n f
  | none =>
    if (s.threads.find key).isSome then s.modThread key f else { s with absent := s.absent.update key f }

/-- Held signals and recorded failures, with SIGP and ENGP as they say (R292). -/
def Thread.withHeld (t : Thread) (signals failures : List Word) : Thread :=
  { t with signals := signals, failures := failures,
           trap := { t.trap with sigp := !signals.isEmpty, engp := !failures.isEmpty } }

/-- Of a frame whose SIGP or ENGP the package knows nothing more of, the signal's number or the chain's address is a free
value (log 61). -/
def Thread.unknownHeld (t : Thread) (n : Nat) : Thread :=
  t.withHeld (if t.trap.sigp then [Config.freeValue n] else []) (if t.trap.engp then [Config.freeValue (n + 1)] else [])

/-- Something of the thread is not over that no frame holds: commands and chains that count it, signals and failures that it
holds, promises. -/
def Thread.outstanding (t : Thread) : Bool :=
  t.oc != .zero || !t.signals.isEmpty || !t.failures.isEmpty || !t.invs.isEmpty

/-- What a thread that leaves its hardware thread keeps beside its frame: an AWAY thread in its lane (R49). -/
def State.keepCounters (s : State) (n : Nat) : State :=
  let t := s.thread n
  let l := s.countKey n
  if l < 2 ^ 64 then s.modThread l fun h => { h.withHeld t.signals t.failures with oc := t.oc }
  else if t.outstanding then
    let kept : Thread := { Thread.zero with
      ids := { ThreadIds.zero with tid := t.ids.tid }, oc := t.oc, signals := t.signals, failures := t.failures, invs := t.invs }
    { s with absent := s.absent.set l kept }
  else s

/-- A hardware thread's thread is gone for good: it has exited, or stands in its lane again. -/
def State.vacate (s : State) (n : Nat) : State := { s with threads := s.threads.del n }

/-- A hardware thread becomes idle. -/
def State.idleHart (s : State) (n : Nat) : State :=
  ((s.keepCounters n).modHart n fun h => { h with run := false, load := none, yielded := false }).vacate n

/-- A thread as a frame gives it, with what it holds beside the frame: an AWAY thread's identity within its crew and what
it holds are the held lane's (R49), another's stands as it was kept (R48, R300). -/
def State.arriving (s : State) (t : Thread) : Thread :=
  match if t.st.away then s.heldLane t else none with
  | some l =>
    let h := s.thread l
    { t.withHeld h.signals h.failures with
      ids := { t.ids with lane := h.ids.lane, cidx := h.ids.cidx, gci := h.ids.gci }, loambase := h.loambase, oc := h.oc }
  | none => match s.absent.find (tidKey t) with
    | some r => { t.withHeld r.signals r.failures with loambase := 0, oc := r.oc, invs := r.invs }
    | none => { t.unknownHeld s.free with loambase := 0 }

/-- A hardware thread loads the frame at `a`: every field but regcnt, which is 64 on a latency core (R69, R300). The room
of a caller frame, or of a moved thread's frame, is free once loaded (R47). -/
def State.loadHart (s : State) (n a : Nat) : State :=
  let s := s.keepCounters n
  let t := threadOfFrame (s.frameAt a)
  let t1 := s.arriving t
  let t2 := { t1 with regcnt := 64, st := { t1.st with park := .none } }
  let free := fun (e : Nat × Die) => (e.1, if e.2.escalated.any fun x => x.1 == a then e.2 else e.2.free a)
  let s1 := { s with dies := s.dies.map free, free := s.free + 2, absent := s.absent.del (tidKey t) }
  (s1.setThread n t2).modHart n fun h => { h with run := true, load := none, yielded := false }

/-- VALID of the frame at `a` (R26). -/
def State.frameValid (s : State) (a : Nat) : Bool := bitAt (s.hwWord (a + 0x208)) 31

/-- The hardware thread loads HTSUP, or is idle when it is 0 or holds no thread (R300). -/
def State.loadSup (s : State) (n : Nat) : State :=
  let f := fld (s.hart n).htsup 51 10 * 1024
  if f = 0 ∨ !s.frameValid f then s.idleHart n else s.loadHart n f

/-- The outgoing frame of a hardware thread, with the AWAY thread's place in its crew (R26). -/
def State.hartFrame (s : State) (n : Nat) : List Word :=
  let t := s.thread n
  let place : Nat × Nat × Nat := match if t.st.away then s.heldLane t else none with
    | some l => match s.crewAt l with
        | some c => (c.part, c.slot, laneOf l)
        | none => (0, 0, 0)
    | none => (0, 0, 0)
  frameWords t (statusWord t true place.1 place.2.1 place.2.2) (s.capOf n)

def htSaveAddr (h : Hart) : Nat := fld h.htsave 51 10 * 1024

/-- The escalation of a hardware thread's thread, once the queue has room (R299, R300). -/
def State.escalateHart (s : State) (n : Nat) (cause value : Word) : State :=
  let a := htSaveAddr (s.hart n)
  let tid := (s.thread n).ids.tid
  let s := if a = 0 then s else s.putFrame a (s.hartFrame n)
  (s.escRecord a cause value tid).loadSup n

/-! ### SIMT threads handed over (R164, R299) -/

/-- Accesses of a thread that have not returned (R126). -/
def State.pendingOf (s : State) (k : Nat) : List (Nat × Access) := s.mem.inflight.filter fun e => e.2.thread == k

/-- Words of bad parity read zero as the scheduler or the leach engine copies a thread's registers (R84). -/
def Thread.scrubbed (t : Thread) : Thread :=
  let half := fun (w : Nat) => if t.parity.getLsbD w then (0 : Word) else 0xFFFFFFFF
  let clean := fun (n : Nat) => t.reg n &&& (half (2 * n) ||| (half (2 * n + 1) <<< 32))
  { t with regs := Vector.ofFn fun n : Fin 64 => clean n.val, parity := 0 }

/-- A thread's registers made fit to be copied: each bad word is counted and reads zero (R84). -/
def State.scrub (s : State) (k : Nat) : State :=
  let bad := (List.range (2 * (s.thread k).regcnt)).filter fun w => (s.thread k).parity.getLsbD w
  (bad.foldl (fun s _ => s.countParity (s.coreOf k)) s).modThread k Thread.scrubbed

/-- The frame of a SIMT thread (R25, R26). -/
def State.laneFrame (s : State) (k : Nat) : List Word :=
  let t := s.thread k
  let c := match s.crewAt k with
    | some c => (c.part, c.slot)
    | none => (0, 0)
  frameWords t (statusWord t false c.1 c.2 (laneOf k)) (s.capOf k)

/-- The escalation of a SIMT thread: frame to the save area, lane held, AWAY; it waits while its accesses, the queue or
the save area are not ready (R299, R213). -/
def State.escalateLane (s : State) (k : Nat) (cause value : Word) : State :=
  let d := s.dieOf k
  match (s.die d).findRoom 1024 1024 with
  | none => s
  | some a =>
    if s.escFull || !(s.pendingOf k).isEmpty then s
    else
      let s := (s.scrub k).modThread k fun t => { t with st := { t.st with away := true, pending := .none, live := false } }
      let s := s.putFrame a (s.laneFrame k)
      let s := s.modDie d fun x => { (x.take a 1024) with escalated := (a, k) :: x.escalated }
      s.escRecord a cause value (s.thread k).ids.tid

/-- To escalate (R299): at once when there is room, else the thread stands pending until the row ESCALATION finds
room. `ret` is the PC that the frame keeps. -/
def State.escalate (s : State) (k : Nat) (cause value ret : Word) : State :=
  let s := (s.leaveBundle k).modThread k fun t =>
    { t with pc := ret, st := { t.st with pending := .esc cause value } }
  if isLat k then
    if s.escFull then s
    else (s.modThread k fun t => { t with st := { t.st with pending := .none } }).escalateHart k cause value
  else s.escalateLane k cause value

/-- Every thread of a crew leaves its bundle. -/
def State.stopCrew (s : State) (c : Nat) : State := (s.laneKeys c).foldl State.leaveBundle s

/-- A page fault on a SIMT core: the crew stops, to be saved by the scheduler (R164 step 1), in whichever bank it stands
(R87). -/
def State.pageFault (s : State) (k : Nat) (cause va : Word) : State :=
  let s := s.modThread k fun t => { t with st := { t.st with pending := .fault cause va } }
  (s.stopCrew (crewOf k)).modCrew (crewOf k) fun c =>
    { c with place := if c.place.onCore then .stopping else c.place }

/-! ### Taking an exception (R297, R298) -/

def causeWord (cause sub : Nat) : Word := BitVec.ofNat 64 (sub * 256 + cause)

/-- Entry at the thread's own handler. -/
def Thread.enter (t : Thread) (cause value ret : Word) : Thread :=
  { t with
    pc := BitVec.ofNat 64 (fld t.trap.tvec 56 3 * 8), issued := t.issued + 1
    trap := { t.trap with ta := true, tepc := BitVec.ofNat 64 (fld ret 56 3 * 8), tcause := cause, tval := value } }

/-- The first recorded chain failure is taken (R143, R298). -/
def Thread.popFailure (t : Thread) : Thread :=
  { t with failures := t.failures.drop 1, trap := { t.trap with engp := t.trap.engp && decide (1 < t.failures.length) } }

/-- A trap with a cause, sub-cause, value and return address (R297): the one operation by which every exception is
taken. -/
def State.takeTrap (s : State) (k cause sub : Nat) (value ret : Word) : State :=
  let cw := causeWord cause sub
  let s := if cause = cENGINE then s.modThread k Thread.popFailure else s
  let t := s.thread k
  if cause = cPAGE_NP ∨ cause = cPAGE_PERM then
    if isLat k then s.escalate k cw value ret else s.pageFault k cw value
  else if cause = cSCALL ∨ cause = cINTR then s.escalate k cw value ret
  else if t.trap.ta then
    let s := s.modThread k fun t =>
      { t with trap := { t.trap with cause2 := BitVec.ofNat 8 cause, tval2 := value } }
    s.escalate k (causeWord cDOUBLE 0) value t.pc
  else if !bitAt t.trap.tvec 0 then s.escalate k cw value ret
  else (s.leaveBundle k).setThread k (t.enter cw value ret)

/-- A trap that came for an AWAY thread in its lane `h` while no hardware thread ran it is taken once it is back (R355). -/
def State.takeHeldTrap (s : State) (k : Nat) (h : Thread) : State :=
  match h.st.pending with
  | .trap c sub v ret => s.takeTrap k c sub v ret
  | _ => s

/-- The return from an exception (R303, R383): PC := tepc, TA := 0. -/
def Thread.returned (t : Thread) : Thread :=
  { t with pc := BitVec.ofNat 64 (fld t.trap.tepc 56 3 * 8), trap := { t.trap with ta := false } }

/-! ### Issue of an instruction (R248, R249, R29, R30, R33) -/

/-- What a thread does next: the next instruction, a jump, it stays with its bundle at this PC, it leaves the bundle at
this PC (parked, held), or it is gone. -/
inductive Flow where
  | next
  | stay
  | jump (pc : Word)
  | hold
  | gone
  deriving DecidableEq, Repr

/-- What an instruction does for one thread, or one crew's threads. -/
inductive Res where
  | go (s : State) (f : Flow)
  /-- the bundle waits at issue: nothing is performed (R360) -/
  | wait
  /-- a trap with cause, sub-cause, value; `after` puts the return address behind the instruction -/
  | trap (cause sub : Nat) (value : Word) (after : Bool)
  /-- such a trap at the instruction, with a change of state that stays (R84) -/
  | failed (s : State) (cause sub : Nat) (value : Word)

/-- On which core kinds an instruction executes (R266), and whether it is privileged (R249). -/
structure Kind where
  simt : Bool
  lat : Bool
  priv : Bool
  deriving DecidableEq, Repr

def anyCore : Kind := ⟨true, true, false⟩
def simtOnly : Kind := ⟨true, false, false⟩
def privileged : Kind := ⟨true, true, true⟩

/-- Checks 1 to 3 of R249 for an executing thread. DESIGN CHOICE (log 62): of several registers beyond the allotment, the
first in the order of `regs`, an instruction's sources a, b, c and then its destination, gives tval. -/
def State.fit (s : State) (k : Nat) (i : Instr) (kind : Kind) (regs : List Nat) : Option Res :=
  if (isLat k && !kind.lat) || (!isLat k && !kind.simt) then some (.trap cILLEGAL 0 (encode i) false)
  else if kind.priv && !(s.thread k).trap.sup then some (.trap cPRIV 0 (encode i) false)
  else (regs.find? (s.regBad k)).map fun r => .trap cREG_ALLOT 0 (BitVec.ofNat 64 r) false

/-- A register that a thread reads for an instruction with bad parity: POISON, counted (R84). -/
def State.badRead (s : State) (k : Nat) (i : Instr) : Option Res :=
  ((readsOf i).find? fun r => s.parityBad k r.toNat).map fun r =>
    .failed (s.countParity (s.coreOf k)) cPOISON 0 (s.parityAddr k r.toNat)

/-- The checks of R249, then a register that the thread reads with bad parity (R84). -/
def State.check (s : State) (k : Nat) (i : Instr) (kind : Kind) (regs : List Nat) : Option Res :=
  (s.fit k i kind regs).or (s.badRead k i)

/-- The instructions that a thread in speculation state S holds unperformed (R50, R361; the memory and system entries
name theirs). -/
inductive SpecRule where
  | runs | holds
  deriving DecidableEq, Repr

/-- A thread that holds its instruction in W (R50). -/
def State.holdSpec (s : State) (k : Nat) : State :=
  s.modThread k fun t => { t with spec := { t.spec with mode := .waiting } }

/-- A thread that holds a trap in W (R50, R297). -/
def State.holdTrap (s : State) (k cause sub : Nat) (value ret : Word) : State :=
  (s.leaveBundle k).modThread k fun t =>
    { t with spec := { t.spec with mode := .waiting }, st := { t.st with pending := .trap cause sub value ret } }

/-- A trap taken, or held in W by a speculating thread (R50, R297). -/
def State.raise (s : State) (k cause sub : Nat) (value ret : Word) : State :=
  if (s.thread k).spec.mode == .normal then s.takeTrap k cause sub value ret else s.holdTrap k cause sub value ret

/-- A thread's next PC and the flow applied; a trap is taken, or held in W by a speculating thread (R50, R297). -/
def State.applyRes (s : State) (k : Nat) (r : Res) : State × Bool :=
  let pc := (s.thread k).pc
  match r with
  | .go s' .next => (s'.goTo k (nextPc pc), true)
  | .go s' (.jump p) => (s'.goTo k p, true)
  | .go s' .stay => (s', true)
  | .go s' .hold => (s'.leaveBundle k, false)
  | .go s' .gone => (s'.leaveBundle k, false)
  | .wait => (s, false)
  | .trap c sub v after => (s.raise k c sub v (if after then nextPc pc else pc), false)
  | .failed s' c sub v => (s'.raise k c sub v pc, false)

/-- One thread's part of an instruction: guard, the checks `chk`, then `body`. -/
def State.guardedPart (s : State) (k : Nat) (g : Guard) (chk : Option Res) (sp : SpecRule) (body : Nat → State → Res) : Res :=
  if !(s.thread k).guard g then .go s .next
  else match chk with
    | some r => r
    | none =>
      if sp == .holds && (s.thread k).spec.mode == .speculating then .go (s.holdSpec k) .hold
      else body k s

/-- One thread's part of an instruction that acts on each thread by itself. -/
def State.threadPart (s : State) (k : Nat) (g : Guard) (i : Instr) (kind : Kind) (regs : List Nat) (sp : SpecRule)
    (body : Nat → State → Res) : Res := s.guardedPart k g (s.check k i kind regs) sp body

def Res.waits : Res → Bool
  | .wait => true
  | _ => false

/-- A wait that holds only its own thread or crew. -/
def Res.alone (s : State) : Res → Res
  | .wait => .go s .stay
  | r => r

/-- The threads of a bundle one after another, in lane order: the state after them, and the threads that stay with the
bundle. `none` when one of them waits at issue. -/
def runThreads (f : State → Nat → Res) : List Nat → State → List Nat → Option (State × List Nat)
  | [], s, kept => some (s, kept)
  | k :: ks, s, kept =>
    match f s k with
    | .wait => none
    | r =>
      let p := s.applyRes k r
      runThreads f ks p.1 (if p.2 then kept ++ [k] else kept)

/-- After an issue the bundle keeps the threads at the lowest next PC (R33). -/
def State.splitBundle (s : State) (kept : List Nat) : State :=
  let low := kept.foldl (fun b k => match b with
    | none => some (s.thread k).pc.toNat
    | some x => some (min x (s.thread k).pc.toNat)) none
  kept.foldl (fun s' k => if some (s.thread k).pc.toNat == low then s' else s'.leaveBundle k) s

/-- The threads of a bundle that could each issue, but not all of them at once: those that can go on do, and the others wait
at the instruction (log 63). -/
def State.issueApart (s : State) (f : State → Nat → Res) : State :=
  if s.issuing.any fun k => (f s k).waits then s
  else match runThreads (fun s k => (f s k).alone s) s.issuing s [] with
    | none => s
    | some (s', kept) => s'.splitBundle kept

/-- An instruction that acts on each executing thread by itself. -/
def State.issue (s : State) (i : Instr) (g : Guard) (regs : List Nat) (kind : Kind) (sp : SpecRule)
    (body : Nat → State → Res) : State :=
  let f := fun (s : State) k => s.threadPart k g i kind regs sp body
  match runThreads f s.issuing s [] with
  | none => s.issueApart f
  | some (s', kept) => s'.splitBundle kept

/-- The meaning of such an instruction. -/
def perThread (s : State) (i : Instr) (g : Guard) (regs : List Nat) (kind : Kind) (sp : SpecRule)
    (body : Nat → State → Res) : Host.Outcome State Fault Refusal := .next (s.issue i g regs kind sp body)

/-! ### Instructions that act once per crew (R29, R360) -/

/-- Executing threads grouped by crew, each group in lane order; a latency thread is a group by itself. -/
def groups (ks : List Nat) : List (List Nat) :=
  ks.foldl (fun gs k =>
    if gs.any fun g => g.any fun j => !isLat j && !isLat k && crewOf j == crewOf k then
      gs.map fun g => if g.any fun j => !isLat j && !isLat k && crewOf j == crewOf k then g ++ [k] else g
    else gs ++ [[k]]) []

/-- One result applied to every thread of a group. -/
def State.applyGroup (s : State) (grp : List Nat) (r : Res) : State × List Nat :=
  match r with
  | .go s' fl =>
    grp.foldl (fun (p : State × List Nat) k =>
      let q := p.1.applyRes k (.go p.1 fl)
      (q.1, if q.2 then p.2 ++ [k] else p.2)) (s', [])
  | .wait => (s, [])
  | .trap c sub v after =>
    grp.foldl (fun (p : State × List Nat) k => ((p.1.applyRes k (.trap c sub v after)).1, p.2)) (s, [])
  | .failed s' c sub v =>
    grp.foldl (fun (p : State × List Nat) k => ((p.1.applyRes k (.trap c sub v false)).1, p.2)) (s', [])

def runGroups (body : List Nat → State → Res) : List (List Nat) → State → List Nat → Option (State × List Nat)
  | [], s, kept => some (s, kept)
  | grp :: rest, s, kept =>
    match body grp s with
    | .wait => none
    | r =>
      let p := s.applyGroup grp r
      runGroups body rest p.1 (kept ++ p.2)

/-- One crew's part: only the registers of its lowest executing lane are read, and bad parity in one of them is taken by the
whole crew (R84, R217, R219, R360). -/
def crewPart (i : Instr) (body : List Nat → State → Res) (grp : List Nat) (s : State) : Res :=
  match s.badRead (grp.headD 0) i with
  | some r => r
  | none => body grp s

/-- The crews of a bundle one after another; crews that could each issue, but not all at once, wait apart (log 63). -/
def runCrews (body : List Nat → State → Res) (gs : List (List Nat)) (s : State) : Option (State × List Nat) :=
  match runGroups body gs s [] with
  | some r => some r
  | none => if gs.any fun g => (body g s).waits then none else runGroups (fun g s => (body g s).alone s) gs s []

/-- An instruction that acts once per crew of the bundle, over the crew's executing threads that pass the checks. -/
def State.issueCrews (s : State) (i : Instr) (g : Guard) (regs : List Nat) (kind : Kind) (sp : SpecRule)
    (body : List Nat → State → Res) : State :=
  -- guards, checks and speculation first, thread by thread
  let mark := fun (s : State) k =>
    s.guardedPart k g (s.fit k i kind regs) sp fun _ s => .go s .stay
  let exec := s.issuing.filter fun k =>
    (s.thread k).guard g && (s.fit k i kind regs).isNone
      && !(sp == .holds && (s.thread k).spec.mode == .speculating)
  match runThreads mark s.issuing s [] with
  | none => s
  | some (s1, kept1) =>
    match runCrews (crewPart i body) (groups exec) s1 with
    | none => s
    | some (s2, kept2) => s2.splitBundle (kept1.filter (fun k => !exec.contains k) ++ kept2)

def perCrew (s : State) (i : Instr) (g : Guard) (regs : List Nat) (kind : Kind) (sp : SpecRule)
    (body : List Nat → State → Res) : Host.Outcome State Fault Refusal := .next (s.issueCrews i g regs kind sp body)

/-- A free value drawn (log 6). -/
def State.draw (s : State) : Word × State := (Config.freeValue s.free, { s with free := s.free + 1 })

end Sys2Proof.Machine
end

