-- ==== Sys2Proof/Machine/Boundary.lean ====
section
/-!
DEFINITION. What happens around an instruction: time, the threads that may issue, interrupts and signals at the
boundary, fetch faults and words that are no instruction.
-/
namespace Sys2Proof.Machine

/-! ### Interrupts and signals (R298, R302) -/

/-- The latency die of a hardware thread (R12), and its cyc. -/
def latDieOf (n : Nat) : Nat := n / 128
def State.latCyc (s : State) (n : Nat) : Word := s.latDies.get (latDieOf n) 0

/-- IPEND as it reads (R302): the level bits are present conditions, the edge bits are held. -/
def State.ipend (s : State) (n : Nat) : Word :=
  let esc := s.pkg.escHead != s.pkg.escTail
  let fq := s.dies.any fun e => e.2.fqHead != e.2.fqTail
  let tm := (s.hart n).tcmp != 0 && decide ((s.hart n).tcmp.toNat ≤ (s.latCyc n).toNat)
  BitVec.ofNat 64 (boolBit esc + 2 * boolBit fq + 4 * boolBit tm + fld ((s.hart n).ipend.setWidth 64) 7 3 * 8)

/-- IPEND AND IEN of a hardware thread. -/
def State.enabledInts (s : State) (n : Nat) : Word := s.ipend n &&& (s.hart n).ien

/-- Whether an enabled interrupt acts at this boundary: on a running user thread, on a sleeping one, or on an idle
hardware thread that has a supervisor frame (R302, R462). -/
def State.interruptDue (s : State) (n : Nat) : Bool :=
  s.enabledInts n != 0 &&
  (if (s.hart n).run then (!(s.thread n).trap.sup || (s.thread n).st.sleeping) && (s.thread n).st.pending == .none
   else fld (s.hart n).htsup 51 10 != 0)

/-- A signal that is delivered at the thread's next boundary (R63, R298). -/
def State.signalDue (s : State) (k : Nat) : Bool :=
  let t := s.thread k
  !t.signals.isEmpty && !t.trap.ta && t.st.pending == .none && t.spec.mode == .normal && t.st.live

/-- An edge interrupt is set in every hardware thread at once (R302). -/
def State.edgeAll (s : State) (bit : Nat) : State :=
  (List.range Config.harts).foldl (fun s n => s.modHart n fun h => { h with ipend := h.ipend ||| (1#8 <<< bit) }) s

/-- An event of a network engine: its NEVT bit and IPEND bit 5 of every hardware thread (R331, R302). -/
def State.netEvent (s : State) (net bit : Nat) : State :=
  (s.setNet net { s.net net with nevt := (s.net net).nevt ||| (1#2 <<< bit) }).edgeAll 5

/-- A package event: its PKGEVT bit and IPEND bit 6 (R328, R302). -/
def State.pkgEvent (s : State) (bit : Nat) : State :=
  { s with pkg := { s.pkg with pkgevt := s.pkg.pkgevt ||| (1#3 <<< bit) } }.edgeAll 6

/-- A frame that the running thread asked for by HTLOAD: its own frame goes to HTSUP, then the frame is loaded
(R300). -/
def State.enterBoundary (s : State) : State :=
  match s.cur with
  | .hart n =>
    match (s.hart n).load with
    | some f =>
      let sup := fld (s.hart n).htsup 51 10 * 1024
      let s := if sup = 0 then s else s.putFrame sup (s.hartFrame n)
      s.loadHart n f
    | none => s
  | .bundle _ _ _ => s

/-- Time passes on every die (R5; log 7): eight SIMT dies and two latency dies, which are numbers 8 and 9. -/
def State.tick (s : State) : State :=
  { s with
    dies := (List.range Config.simtDies).foldl (fun m d =>
      let x := m.get d Die.zero
      m.set d { x with cyc := x.cyc + BitVec.ofNat 64 (Config.cycles d s.free),
                       simtCyc := x.simtCyc + BitVec.ofNat 64 (Config.simtCycles d s.free) }) s.dies
    latDies := (List.range 2).foldl (fun m d => m.set d (m.get d 0 + BitVec.ofNat 64 (Config.cycles (8 + d) s.free))) s.latDies
    free := s.free + 1 }

/-- The issuer names an agent of the part. -/
def Issuer.exists' : Issuer → Bool
  | .hart n => decide (n < Config.harts)
  | .bundle c p i => decide (c < Config.simtCores) && decide (p < 4) && decide (i < 16)

/-- The threads that would issue now: the hardware thread's, or the bundle's. -/
def State.ready (s : State) (ks : List Nat) : Bool :=
  !ks.isEmpty && ks.all fun k => (s.threads.find k).isSome && ((s.thread k).ready || (isLat k && (s.thread k).looks))

/-- The issue slot of an instruction word by its major opcode (R285): X, Y, Z. -/
def slotOf (w : BitVec 64) : Nat :=
  let m := fld w 63 56
  if m < 0x24 ∨ m = 0x30 ∨ m = 0x40 ∨ m = 0x41 ∨ m = 0x50 then 0
  else if (0x60 ≤ m ∧ m ≤ 0x64) ∨ (0x74 ≤ m ∧ m ≤ 0x76) then 1 else 2

/-- Some thread of the issuer is changed: an instruction that only waits at issue changes none (R360). -/
def State.issuedSince (s0 s : State) : Bool := s0.issuing.any fun k => s.threads.find k != s0.threads.find k

/-- Once the bundle of `s0` has issued a word, the slot takes note of it: its formation index, and that it is the slot's greedy
bundle (R287, R288; log 55). -/
def State.noteIssue (s0 s : State) (w : BitVec 64) : State :=
  match s0.cur with
  | .hart _ => s
  | .bundle core part idx =>
    match s0.bundle core part idx with
    | none => s
    | some b =>
      if !s0.issuedSince s then s
      else s.modCore core fun c => { c with
        rr := c.rr.set (3 * part + slotOf w) idx
        greedy := c.greedy.set (3 * part + slotOf w) (b.stamp, c.regroups) }

/-- A fetch fault is taken by every thread that would execute the word (R246), or held by one past a service call. -/
def State.fetchFault (s : State) (ks : List Nat) (cause sub : Nat) : State :=
  ks.foldl (fun s k => s.raise k cause sub (s.thread k).pc (s.thread k).pc) s

/-- A word that is no instruction: ILLEGAL in every executing thread, and in every thread of the bundle for a reserved
guard (R248, R249). -/
def State.illegalWord (s : State) (w : BitVec 64) : State :=
  let all := guardReserved w
  let f := fun (s : State) k =>
    if all || (s.thread k).guard (fGuard w) then Res.trap cILLEGAL 0 w false else Res.go s .next
  match runThreads f s.issuing s [] with
  | none => s
  | some (s', kept) => s'.splitBundle kept

/-- What comes before the instruction at a boundary of the issuer: an interrupt (R302) or a held signal (R298). -/
def State.boundary (s : State) : Option Instr :=
  match s.cur with
  | .hart n =>
    if s.interruptDue n then some (.intr n)
    else if s.signalDue n then some (.signalDelivery n) else none
  | .bundle _ _ _ => (s.issuing.find? s.signalDue).map fun k => .signalDelivery k

end Sys2Proof.Machine
end

