-- ==== Sys2Proof/Machine/Crew.lean ====
section
/-!
DEFINITION. Crew state: join registers (01 R34 to R36), cross-lane arrival sets (R37 to R40), the gang barrier (R41, 18
R399, R400), full/empty bits (02 R76 to R80), the end of a thread (01 R62, 17 R384, R385) and the release of a crew.
-/
namespace Sys2Proof.Machine

/-- A parked thread becomes ready behind its parking instruction. -/
def State.unpark (s : State) (k : Nat) : State := s.modThread k Thread.unparked

def laneBit (l : Nat) : BitVec 32 := 1#32 <<< l

/-- Whether an access writes, or orders later ones (R200). -/
def Access.ordering (a : Access) : Bool :=
  a.acq || (match a.kind with
    | .load .. => false
    | _ => true)

def Access.isLoam (a : Access) : Bool :=
  match a.target with
  | .loam .. => true
  | .phys .. => false

/-- A thread has stores, atomics or acquires in flight, which an ENGO or an MMA comes after (R207, R208). -/
def State.ordersPending (s : State) (k : Nat) : Bool := (s.pendingOf k).any fun e => e.2.ordering

/-- A thread has Loam accesses in flight, which CBPUSH and CBPOP release (R376). -/
def State.loamPending (s : State) (k : Nat) : Bool := (s.pendingOf k).any fun e => e.2.isLoam

/-! ### Join registers -/

/-- The release condition (R35). -/
def Join.released (j : Join) : Bool := j.e != 0 && j.v == j.e

def Join.clear (j : Join) (l : Nat) : Join := ⟨j.e &&& ~~~laneBit l, j.v &&& ~~~laneBit l⟩

def Crew.setJoin (c : Crew) (n : BitVec 3) (j : Join) : Crew :=
  { c with joins := c.joins.set n.toNat j (by have := n.isLt; omega) }

def Crew.join (c : Crew) (n : BitVec 3) : Join := c.joins[n.toNat]'(by have := n.isLt; omega)

/-- Threads of a crew parked on a join register. -/
def State.waiters (s : State) (c : Nat) (n : BitVec 3) : List Nat :=
  (s.laneKeys c).filter fun k => (s.thread k).st.park == .join n

/-- The release of one join register: its waiters become ready and V is cleared, E kept (R35). A saved crew's registers
are evaluated when it is restored. -/
def State.evalJoin (s : State) (c : Nat) (n : BitVec 3) : State :=
  match s.crews.find c with
  | none => s
  | some cr =>
    if (cr.join n).released && cr.place.onCore then
      let s1 := (s.waiters c n).foldl State.unpark s
      s1.modCrew c fun cr => cr.setJoin n { cr.join n with v := 0 }
    else s

/-- All eight registers of a crew evaluated. -/
def State.evalJoins (s : State) (c : Nat) : State :=
  ((List.range 8).map (BitVec.ofNat 3)).foldl (fun s n => s.evalJoin c n) s

/-- The crews of some threads, each once. -/
def crewsOf (ks : List Nat) : List Nat := ((ks.filter fun k => !isLat k).map crewOf).dedup

/-! ### Cross-lane arrival sets -/

/-- Lanes of a mask. -/
def lanesOf (m : BitVec 32) : List Nat := (List.range 32).filter fun l => m.getLsbD l

def Crew.dropSet (c : Crew) (pc : Word) : Crew := { c with sets := c.sets.filter fun x => x.pc != pc }

/-- Every arrived member of a set raises JOIN with the mask, and the set is gone (R39). -/
def State.failSet (s : State) (c : Nat) (a : ArrivalSet) : State :=
  let s1 := s.modCrew c fun cr => cr.dropSet a.pc
  (lanesOf a.arrived).foldl (fun s l =>
    let k := laneKey c l
    (s.modThread k Thread.retrying).raise k cJOIN 0 (a.members.setWidth 64) a.pc) s1

/-- Sets that name a lane which strikes itself out or exits fail (R39); those of a saved crew when it is restored. -/
def State.failSets (s : State) (c lane : Nat) : State :=
  match s.crews.find c with
  | none => s
  | some cr => if cr.place.onCore then (cr.sets.filter fun a => a.members.getLsbD lane).foldl (fun s a => s.failSet c a) s
    else s

/-! ### Gangs -/

/-- Gang threads on a core that a barrier close releases: parked in GBAR, with no arrival in the open instance. -/
def State.gbarReleased (s : State) (seq : Nat) (g : Gang) (core : Nat) : List Nat :=
  (s.threads.filter fun e => decide (256 ≤ e.1) && e.2.ids.seq == seq && e.2.st.park == .gbar
    && s.coreOf e.1 == core && !g.arrived.contains e.2.ids.gang.toNat).map (·.1)

/-- The barrier closes when every live thread of the gang has arrived: a new instance opens, and a close notice goes to
each core of the gang (R399). -/
def State.gbarCheck (s : State) (seq : Nat) : State :=
  match s.gangs.find seq with
  | none => s
  | some g =>
    if decide (0 < g.arrived.length) && g.arrived.length == g.live then
      s.modGang seq fun g => { g with arrived := [], closing := g.cores }
    else s

/-- A thread's arrival is withdrawn when it takes a signal, WATCHDOG, or ends (R36, R40, R400). It then stands at the
parking instruction; after a closed barrier, behind it. -/
def State.withdraw (s : State) (k : Nat) : State :=
  let c := crewOf k
  let l := laneOf k
  let s1 := match (s.thread k).st.park with
    | .join n => s.modCrew c fun cr => cr.setJoin n { cr.join n with v := (cr.join n).v &&& ~~~laneBit l }
    | .xlane => s.modCrew c fun cr =>
        let drop := fun (a : ArrivalSet) => { a with arrived := a.arrived &&& ~~~laneBit l }
        { cr with sets := (cr.sets.map drop).filter fun a => a.arrived != 0 }
    | .gbar => s.modGang (s.thread k).ids.seq fun g =>
        { g with arrived := g.arrived.filter (· != (s.thread k).ids.gang.toNat) }
    | _ => s
  let closed := (s.thread k).st.park == .gbar && (match s.gangs.find (s.thread k).ids.seq with
    | some g => g.closing.contains (s.coreOf k) && !g.arrived.contains (s.thread k).ids.gang.toNat
    | none => false)
  s1.modThread k fun t => if closed then t.unparked else t.retrying

/-! ### Shared registers -/

def Crew.fullBit (c : Crew) (lane n : Nat) : Bool := (c.full.get lane 0).getLsbD n

def Crew.setFull (c : Crew) (lane n : Nat) (v : Bool) : Crew :=
  let w := c.full.get lane 0
  let w' := if v then w ||| (1#64 <<< n) else w &&& ~~~(1#64 <<< n)
  { c with full := if w' = 0 then c.full.del lane else c.full.set lane w' }

/-- Whether a register of a crew is shared: in a local mapped range, or the target of a live mapping onto the crew on
that lane's thread (R79). -/
def State.sharedReg (s : State) (k n : Nat) : Bool :=
  match s.crewAt k with
  | none => false
  | some c =>
    (c.mapping n).isSome ||
    s.crews.any fun e => e.2.maps.any fun m => m.target == crewOf k && decide (m.t ≤ n) && decide (n < m.t + m.count)

/-! ### The end of threads and crews -/

/-! ### Words of a context, and the Kaolin quota -/

/-- A word that hardware reads at a virtual address of a context, as a supervisor's load would; `none` is a fault, or no answer
in time (R57, R296). -/
def State.ctxWord (s : State) (w : Who) (va : Nat) : Option Word :=
  if s.silent hwAgent then none
  else match s.resolve { w with sup := true } va .load with
  | (_, .page p) => match (s.readPage hwAgent w.ctx.asid p p.pa 8).2 with
    | some bs => some (BitVec.ofNat 64 (bytesToNat bs))
    | none => none
  | _ => none

/-- What such a read leaves behind: the walk's fills, and A in the entries that it used (R159). -/
def State.touchCtx (s : State) (w : Who) (va : Nat) : State := (s.resolve { w with sup := true } va .load).1

/-- Bytes that hardware writes at a virtual address of a context, line by line; a line that does not translate is left
out. -/
def State.ctxPut (s : State) (w : Who) (va : Nat) (bs : List Byte) : State :=
  ((linePieces (bs.length + 1) va bs.length).foldl (fun (q : State × List Byte) e =>
    (match q.1.resolve { w with sup := true } e.1 .store with
      | (s1, .page p) => s1.engineWrite hwAgent p p.pa (q.2.take e.2)
      | _ => q.1, q.2.drop e.2)) (s, bs)).1

def State.ctxPutWord (s : State) (w : Who) (va : Nat) (v : Word) : State := s.ctxPut w va (natBytes 8 v.toNat)

/-- Hardware of the package acting in a context (R57, R482). -/
def hwWho (c : Ctx) : Who := { agent := hwAgent, ctx := c, sup := true, lat := true, crew := 0, seq := 0 }

/-- kused of a block in memory (R54, R482). -/
def State.kused (s : State) (c : Ctx) (block : Word) : Nat :=
  fld ((s.ctxWord (hwWho c) (va57 block + 0x28)).getD 0) 31 16

def State.putKused (s : State) (c : Ctx) (block : Word) (n : Nat) : State :=
  let w := (s.ctxWord (hwWho c) (va57 block + 0x28)).getD 0
  s.ctxPutWord (hwWho c) (va57 block + 0x28) (setFld w 31 16 n)

/-- The effective value of a field at every block of a path, from the leaf up (R55). -/
def effectiveAlong (rd : Word → Nat → Option Word) (bit : Nat) (get : Word → Nat) : List Word → List (Word × Nat)
  | [] => []
  | b :: rest => (b, effectiveField rd bit get (b :: rest)) :: effectiveAlong rd bit get rest

/-- kquota of a block as its own field (R54). -/
def State.kcapField (s : State) (w : Who) (d : Nat) (b : Word) : Nat := fld ((s.cachedWord w d b 0x28).getD 0) 15 0

/-- One unit charged to a leaf and every ancestor; `none` when a cap would be passed (R56, R239, R482). -/
def State.chargeKaolin (s : State) (c : Ctx) (d : Nat) (leaf : Word) : Option State :=
  let w := hwWho c
  match s.regionPath w d leaf with
  | none => none
  | some path =>
    if (effectiveAlong (s.cachedWord w d) 9 (s.kcapField w d) path).any fun e => decide (e.2 < s.kused c e.1 + 1) then none
    else some (path.foldl (fun s b => s.putKused c b (s.kused c b + 1)) s)

/-- One unit returned (R414). -/
def State.returnKaolin (s : State) (c : Ctx) (d : Nat) (leaf : Word) : State :=
  match s.regionPath (hwWho c) d leaf with
  | none => s
  | some path => path.foldl (fun s b => s.putKused c b (s.kused c b - 1)) s

def ringValid (cfg : Word) : Bool := bitAt cfg 63
def ringSlots (cfg : Word) : Nat := 2 ^ fld cfg 33 32
def ringBase (cfg : Word) : Nat := fld cfg 21 0

/-! ### Region control blocks as the schedulers hold them (R277) -/

/-- The copy of a block that some die caches: the live copy of its HW fields (R277; log 30). -/
def State.liveBlock (s : State) (b : Word) : Option RegionBlock := s.dies.findSome? fun e => e.2.regions.find? (·.addr == b)

/-- A HW word of a block: the live copy, or memory. -/
def State.liveWord (s : State) (c : Ctx) (b : Word) (off : Nat) : Word :=
  match s.liveBlock b with
  | some r => r.words.getD (off / 8) 0
  | none => (s.ctxWord (hwWho c) (va57 b + off)).getD 0

/-- A HW word of a block changed: every cached copy takes it, or memory where no die caches the block. -/
def State.putRegionWord (s : State) (c : Ctx) (b : Word) (off : Nat) (v : Word) : State :=
  let put := fun (r : RegionBlock) => if r.addr == b then { r with words := r.words.set (off / 8) v } else r
  if (s.liveBlock b).isSome then
    { s with dies := s.dies.map fun (e : Nat × Die) => (e.1, { e.2 with regions := e.2.regions.map put }) }
  else s.ctxPutWord (hwWho c) (va57 b + off) v

/-- The HW fields of a cached block go to memory: deficit, use, charge (R54, R277). -/
def State.writeBackBlock (s : State) (r : RegionBlock) : State :=
  [0x18, 0x40, 0x48].foldl (fun s off => s.ctxPutWord (hwWho r.ctx) (va57 r.addr + off) (r.words.getD (off / 8) 0)) s

/-- The write-back of a placement change: the blocks of a path that a die caches (R277). -/
def State.writeBackPath (s : State) (c : Ctx) (d : Nat) (leaf : Word) : State :=
  match s.regionPath (hwWho c) d leaf with
  | none => s
  | some path => ((s.die d).regions.filter fun r => path.contains r.addr).foldl State.writeBackBlock s

/-- Every cached block written back (R277). -/
def State.writeBackAll (s : State) : State :=
  (s.dies.flatMap fun e => e.2.regions).foldl State.writeBackBlock s

/-- A field's effective value for a region (R55). -/
def State.regionField (s : State) (c : Ctx) (d : Nat) (b : Word) (bit : Nat) (get : Word → Nat) : Nat :=
  match s.regionPath (hwWho c) d b with
  | none => 0
  | some path => effectiveField (s.cachedWord (hwWho c) d) bit get path

def State.prioOf (s : State) (c : Ctx) (d : Nat) (b : Word) : Nat :=
  s.regionField c d b 0 fun x => fld ((s.cachedWord (hwWho c) d x 0x08).getD 0) 1 0

def State.weightOf (s : State) (c : Ctx) (d : Nat) (b : Word) : Nat :=
  s.regionField c d b 6 fun x => fld ((s.cachedWord (hwWho c) d x 0x10).getD 0) 31 0

def State.parentOf (s : State) (c : Ctx) (d : Nat) (b : Word) : Word := (s.cachedWord (hwWho c) d b 0).getD 0

/-- The effective priority of a crew's region. -/
def State.crewPrio (s : State) (cr : Crew) : Nat :=
  s.prioOf ((s.core cr.core).ctxOf cr.asid) (cr.core / Config.coresPerDie) cr.region

/-! ### Charges (R281) -/

/-- Deficits saturate at ±2^62 (R282). -/
def clampDeficit (v : Int) : Int := max (-(2 ^ 62)) (min v (2 ^ 62))

def State.deficit (s : State) (c : Ctx) (b : Word) : Int := (s.liveWord c b 0x18).toInt

def State.putDeficit (s : State) (c : Ctx) (b : Word) (v : Int) : State :=
  s.putRegionWord c b 0x18 (BitVec.ofInt 64 (clampDeficit v))

/-- A charge posted to a leaf and every ancestor: to the core-cycles charged, and off the deficit. -/
def State.postCharge (s : State) (c : Ctx) (d : Nat) (leaf : Word) (n : Nat) : State :=
  match s.regionPath (hwWho c) d leaf with
  | none => s
  | some path => path.foldl (fun s b =>
      (s.putRegionWord c b 0x48 (s.liveWord c b 0x48 + BitVec.ofNat 64 n)).putDeficit c b (s.deficit c b - n)) s

/-- Whom a cycle of a core is charged to, with each share: during a switch the incoming region; else the resident
contexts equally, and within a context its regions equally (R281; log 48). -/
def State.shares (s : State) (core : Nat) : List Charge :=
  match (s.core core).switch with
  | some w => [⟨w.asid, w.region, 1⟩]
  | none =>
    let here := ((s.crewsOn core).filter fun e => e.2.place != .shadow && e.2.place != .spilling).map (·.2)
    let asids := (here.map (·.asid)).dedup
    asids.flatMap fun a =>
      let regions := ((here.filter fun c => c.asid == a).map (·.region)).dedup
      regions.map fun r => ⟨a, r, 1 / ((asids.length : Rat) * (regions.length : Rat))⟩

/-- A charge added to those that a core holds. -/
def addCharge (l : List Charge) (x : Charge) : List Charge :=
  if l.any fun c => c.asid == x.asid && c.region == x.region then
    l.map fun c => if c.asid = x.asid ∧ c.region = x.region then { c with amount := c.amount + x.amount } else c
  else l ++ [x]

/-- The SIMT cycles of a core since its charges were last counted, charged to whom they belong: before who is resident
changes, and before a posting. -/
def State.accrue (s : State) (core : Nat) : State :=
  let now := (s.die (core / Config.coresPerDie)).simtCyc
  let n := (now - (s.core core).chargedAt).toNat
  let new := (s.shares core).map fun (x : Charge) => { x with amount := x.amount * (n : Rat) }
  s.modCore core fun c => { c with chargedAt := now, charges := if n = 0 then c.charges else new.foldl addCharge c.charges }

/-- The context in which a die's scheduler reads an ASID's blocks: its record (R481), or a core's copy. -/
def State.ctxFor (s : State) (core asid : Nat) : Ctx :=
  ((s.die (core / Config.coresPerDie)).contexts.find asid).getD ((s.core core).ctxOf asid)

/-- The whole core-cycles of one charge posted; the fraction stays for the next posting. -/
def State.postOne (s : State) (core : Nat) (x : Charge) : State :=
  let n := x.amount.floor.toNat
  let s1 := s.postCharge (s.ctxFor core x.asid) (core / Config.coresPerDie) x.region n
  s1.modCore core fun c => { c with charges := c.charges.map fun (y : Charge) =>
    if y = x then { y with amount := y.amount - (n : Rat) } else y }

/-- The charges of a core that a test picks, posted. -/
def State.postCharges (s : State) (core : Nat) (p : Charge → Bool) : State :=
  let s1 := s.accrue core
  ((s1.core core).charges.filter p).foldl (fun s x => s.postOne core x) s1

/-- The posting when the last crew of a region leaves a core (R281). -/
def State.postLeaving (s : State) (core asid : Nat) (region : Word) : State :=
  if (s.crewsOn core).any fun e => e.2.asid == asid && e.2.region == region then s
  else s.postCharges core fun x => x.asid == asid && x.region == region

/-- Loam granules charged to a region and its ancestors (R56, R226); `n` may be negative. -/
def State.chargeLoam (s : State) (c : Ctx) (d : Nat) (leaf : Word) (n : Int) : State :=
  match s.regionPath (hwWho c) d leaf with
  | none => s
  | some path => path.foldl (fun s b =>
      let w := s.liveWord c b 0x40
      s.putRegionWord c b 0x40 (setFld w 47 16 ((fld w 47 16 : Int) + n).toNat)) s

/-- The SIMT cores that hold a crew of a region or of one below it (R56). -/
def State.coresHeld (s : State) (c : Ctx) (d : Nat) (b : Word) : List Nat :=
  let below := fun (e : Nat × Crew) => e.2.place.onCore &&
    (match s.regionPath (hwWho c) d e.2.region with
      | some path => path.contains b
      | none => false)
  ((s.crews.filter below).map fun e => e.2.core).dedup

/-- The cores in use of a region and its ancestors, counted again. -/
def State.recount (s : State) (c : Ctx) (d : Nat) (leaf : Word) : State :=
  match s.regionPath (hwWho c) d leaf with
  | none => s
  | some path => path.foldl (fun s b =>
      let w := s.liveWord c b 0x40
      s.putRegionWord c b 0x40 (setFld w 15 0 (s.coresHeld c d b).length)) s

/-- The regions of a path that no longer hold cores leave their rings, and their deficits become 0, unless work of theirs
waits (R276; log 53). -/
def State.leaveRings (s : State) (c : Ctx) (d : Nat) (leaf : Word) : State :=
  match s.regionPath (hwWho c) d leaf with
  | none => s
  | some path =>
    let gone := fun (b : Word) => (s.coresHeld c d b).isEmpty && !s.dies.any fun e => e.2.ring.contains b
    (path.filter gone).foldl (fun s b => s.putDeficit c b 0) s

/-- Whether every cap on the path admits some more granules, and some more cores, which may differ from block to block
(R56). -/
def State.capsAdmit (s : State) (c : Ctx) (d : Nat) (leaf : Word) (cores : Word → Nat) (granules : Nat) : Bool :=
  let w := hwWho c
  match s.regionPath w d leaf with
  | none => false
  | some path =>
    let own := fun (b : Word) => (s.cachedWord w d b 0x20).getD 0
    let coreCaps := effectiveAlong (s.cachedWord w d) 7 (fun b => fld (own b) 15 0) path
    let loamCaps := effectiveAlong (s.cachedWord w d) 8 (fun b => fld (own b) 47 16) path
    coreCaps.all (fun e => decide (fld (s.liveWord c e.1 0x40) 15 0 + cores e.1 ≤ e.2))
      && loamCaps.all fun e => decide (fld (s.liveWord c e.1 0x40) 47 16 + granules ≤ e.2)

/-- Those of some cores that a block does not hold yet. -/
def State.newCores (s : State) (c : Ctx) (d : Nat) (cores : List Nat) (b : Word) : Nat :=
  (cores.filter fun n => !(s.coresHeld c d b).contains n).length

/-! ### Commands of the engine queue -/

/-- Bit 20 of an MMA word: MMA.K; a fill's word has major 0xB3 (R218, R238). -/
def Cmd.isFill (c : Cmd) : Bool := fld c.word 63 56 == 0xB3
def Cmd.isMma (c : Cmd) : Bool := fld c.word 63 56 == 0xB0
def Cmd.isK (c : Cmd) : Bool := c.isMma && bitAt c.word 20
def Cmd.isRadv (c : Cmd) : Bool := fld c.word 63 56 == 0xB1

/-- The ring of an MMA or RADV command (R218, R225), and whether it closes the head slot (R219, R227). -/
def Cmd.ring (c : Cmd) : Nat := if c.isMma then fld c.word 27 26 else fld c.word 1 0
def Cmd.closes (c : Cmd) : Bool := c.isRadv || (c.isMma && bitAt c.word 21)

def ringHead (w : Word) : Nat := fld w 18 16

/-- Granules that a crew holds: scratch, speculation area and rings. -/
def State.crewGranules (s : State) (c : Crew) : Nat :=
  (List.range 4).foldl (fun n k => if ringValid (s.ringCfg c k) then n + ringSlots (s.ringCfg c k) else n) (c.lsg + 2)

/-- Accepted commands of a crew on the matrix engines, a fill on another core among them (R220, R221, R244). -/
def State.commandsOf (s : State) (c : Nat) : Nat :=
  match s.crews.find c with
  | none => 0
  | some cr =>
    let on := fun (e : CoreEngines) => (e.queue.filter (·.crew == c)).length + (if e.current.any (·.crew == c) then 1 else 0)
      + (if e.fill.any (·.crew == c) then 1 else 0)
    (s.cores.map fun e => on e.2.engines).sum + cr.saved.length

/-- Loam offsets of the accumulator slots that the accepted MMAs of a crew write: each the head slot at its turn (R209). -/
def State.busySlots (s : State) (c : Nat) : List Nat :=
  match s.crews.find c with
  | none => []
  | some cr =>
    let e := (s.core cr.core).engines
    let mine := (e.current.toList ++ e.queue).filter fun x => x.crew == c && !x.isFill
    mine.zipIdx.filterMap fun x =>
      if x.1.isMma then
        let cfg := s.ringCfg cr x.1.ring
        let ahead := ((mine.take x.2).filter fun y => y.closes && y.ring == x.1.ring).length
        some (ringBase cfg + granule * ((ringHead (s.ringCtr cr x.1.ring) + ahead) % ringSlots cfg))
      else none

/-- Chains of a crew that have not ended (R136, R142). -/
def State.chainsOf (s : State) (c : Nat) : List (Nat × Chain) := s.chains.filter fun e => e.2.crew == some c

/-- A handle freed with its slot (R236, R244). -/
def Handle.free (h : Handle) : Handle :=
  { h with alloc := false, slot := none, crewFlag := false, ar := false, pin := false, state := .empty, owner := 0,
           lines := [], touched := false, source := [] }

/-- The CREW residencies of a crew are freed on every core, each with its unit of quota (R237, R244). -/
def State.freeCrewHandles (s : State) (c : Nat) : State :=
  let own := s.cores.flatMap fun e =>
    (e.2.engines.handles.filter fun h => h.2.alloc && h.2.crewFlag && h.2.owner == c).map fun h => (e.1, h)
  own.foldl (fun s x =>
    let e := x.2
    let s := s.modCore x.1 fun k => { k with engines := { k.engines with handles := k.engines.handles.set e.1 e.2.free } }
    s.returnKaolin e.2.ctx (x.1 / Config.coresPerDie) e.2.region) s

/-- The resources of a crew go back: slot, Loam, rings, residencies, its charges and its reserved room (R62, R244,
R56). -/
def State.releaseCrew (s : State) (c : Nat) : State :=
  match s.crews.find c with
  | none => s
  | some cr =>
    let d := cr.core / Config.coresPerDie
    let ctx := (s.core cr.core).ctxOf cr.asid
    let s1 := (s.accrue cr.core).freeCrewHandles c
    let s2 := if cr.place.onCore then s1.chargeLoam ctx d cr.region (-(s.crewGranules cr : Int)) else s1
    let s3 := s2.modDie d fun x => x.free cr.frame
    let s4 := ({ s3 with crews := s3.crews.del c }).recount ctx d cr.region
    ((s4.postLeaving cr.core cr.asid cr.region).leaveRings ctx d cr.region).writeBackPath ctx d cr.region

/-- A crew all of whose threads have exited, without commands and chains, is released. -/
def State.reapCrew (s : State) (c : Nat) : State :=
  if (s.laneKeys c).isEmpty && s.commandsOf c == 0 && (s.chainsOf c).isEmpty then s.releaseCrew c else s

/-- The exit of an AWAY thread whose crew stands saved reaches the crew's frame: its lane holds no thread, and it is struck out
of the joins, the arrivals and, with the crew's last thread, the mappings (R310, R384, R385). -/
def State.patchExit (s : State) (f lane : Nat) (last : Bool) : State :=
  let put := fun (s : State) (a hi lo v : Nat) => s.hwPutWord a (setFld (s.hwWord a) hi lo v)
  let clear := fun (s : State) (a : Nat) => put (put s a lane lane 0) a (32 + lane) (32 + lane) 0
  let s1 := put (clear (put s (f + 0x800 + 1024 * lane + 0x208) 31 31 0) (f + 0x028)) (f + 0x030) lane lane 0
  let s2 := (List.range 8).foldl (fun s n => clear s (f + 0x040 + 8 * n)) s1
  let s3 := (List.range 32).foldl (fun (s : State) i =>
    let a := f + 0x540 + 16 * i + 8
    if !bitAt (s.hwWord a) lane then s
    else if fld (s.hwWord a) 31 0 = 2 ^ lane then s.hwPutWord a 0 else put s a lane lane 0) s2
  if last then (s3.hwPutWord (f + 0x180) 0).hwPutWord (f + 0x190) 0 else s3

/-- The end of a SIMT thread or of an AWAY thread's lane: struck out of every join register and arrival set, out of the
barrier count, and gone (R384). Its window stays with the crew until the crew's resources are released (R385). -/
def State.endThread (s : State) (k : Nat) : State :=
  let c := crewOf k
  let l := laneOf k
  let t := s.thread k
  let s := s.leaveBundle k
  let drop := fun (a : ArrivalSet) => { a with arrived := a.arrived &&& ~~~laneBit l }
  let strike := fun (cr : Crew) =>
    let js := cr.joins.map fun j => j.clear l
    let ss := (cr.sets.map drop).filter fun a => a.arrived != 0
    let spent := if cr.place.onCore then (l, t.loambase, 8 * t.regcnt) :: cr.spent else []
    { cr with joins := js, sets := ss, spent := spent }
  let s := s.modCrew c strike
  let s : State := match (s.crews.find c).map Crew.place with
    | some (.saved f) => s.patchExit f l (s.laneKeys c == [k])
    | _ => s.failSets c l
  -- the mappings of a crew end with its last thread (R77)
  let s := if s.laneKeys c = [k] then s.modCrew c fun cr => { cr with maps := [] } else s
  let s := s.modGang t.ids.seq fun g =>
    { g with live := g.live - 1, arrived := g.arrived.filter (· != t.ids.gang.toNat) }
  ({ s with threads := s.threads.del k }).dropEscalated k

/-- What follows the exits of one step: releases, barriers, crews that are done (R384). -/
def State.afterExits (s : State) (cs seqs : List Nat) : State :=
  let s := cs.foldl State.evalJoins s
  let s := seqs.foldl State.gbarCheck s
  cs.foldl State.reapCrew s

end Sys2Proof.Machine
end

