-- ==== Sys2Proof/Machine/XLane.lean ====
section
/-!
DEFINITION. Cross-lane instructions, major 0x50 (01 R37 to R40; 09 R258; 19 R443, R444; 20 R451, R452, R456, R457, R475).
-/
namespace Sys2Proof.Machine



/-- What a completed instruction gives the member on a lane: its result and flags. -/
abbrev XResult := State → List Nat → Nat → Word × BitVec 6

/-- The members of a set take their results in one step (R37); guarded-off members keep theirs (R38). -/
def State.completeSet (s : State) (c : Nat) (g : Guard) (d : Reg) (members : List Nat) (res : XResult) : State :=
  let rs := members.map fun k => (k, res s members k)
  let pc := (s.thread (members.headD 0)).pc
  rs.foldl (fun s' e =>
    let w := if (s.thread e.1).guard g then (s'.writeReg e.1 d e.2.1).raiseFlags e.1 e.2.2 else s'
    (w.leaveBundle e.1).unpark e.1) (s.modCrew c fun cr => cr.dropSet pc)

/-- One thread's arrival (R37, R39). -/
def State.arrive (s : State) (k : Nat) (i : Instr) (g : Guard) (d c : Reg) (res : XResult) : Res :=
  let cr := crewOf k
  let l := laneOf k
  let mask : BitVec 32 := (s.readReg k c).setWidth 32
  let pc := (s.thread k).pc
  let old : Option ArrivalSet := match s.crews.find cr with
    | some x => x.sets.find? fun (a : ArrivalSet) => a.pc == pc
    | none => none
  -- every arrived member of the set that waits at this PC fails with it (R39)
  let failOld := fun (s : State) => match old with
    | some a => s.failSet cr a
    | none => s
  let fails := fun (s : State) => Res.go ((failOld s).takeTrap k cJOIN 0 (mask.setWidth 64) pc) .gone
  -- a thread that the waiting set names presents its mask, whatever it is
  if !mask.getLsbD l && !(old.any fun a => a.members.getLsbD l) then
    if (s.thread k).guard g then .go (s.takeTrap k cJOIN 0 (mask.setWidth 64) pc) .gone else .go s .next
  else if (s.thread k).spec.mode == .speculating then .go (s.holdSpec k) .hold
  else
    let a : ArrivalSet := match old with
      | some a => { a with arrived := a.arrived ||| laneBit l }
      | none => ⟨pc, mask, laneBit l⟩
    let absent := (lanesOf mask).any fun j => (s.threads.find (laneKey cr j)).isNone
    if a.members ≠ mask ∨ absent then fails s
    else
      let s0 := (s.leaveBundle k).parkThread k .xlane i
      let s1 := s0.modCrew cr fun x => { x with sets := a :: (x.dropSet pc).sets }
      if a.arrived = a.members then
        .go (s1.completeSet cr g d ((lanesOf a.members).map (laneKey cr)) res) .gone
      else .go s1 .gone

/-- A cross-lane instruction over its bundle: members arrive whatever their guards (R38, R457), and one past a service call
holds the instruction (R50, R416, R446); a skipped thread whose mask register lies beyond its allotment presents no mask
(log 33). -/
def xlane (s : State) (i : Instr) (g : Guard) (regs : List Reg) (d c : Reg) (res : XResult) : Out :=
  let f := fun (s : State) k =>
    if (s.thread k).guard g then
      match s.check k i simtOnly (regs.map (·.toNat)) with
      | some r => r
      | none =>
        if (s.thread k).spec.mode == .speculating then .go (s.holdSpec k) .hold else s.arrive k i g d c res
    else if isLat k || s.regBad k c.toNat then .go s .next
    else s.arrive k i g d c res
  match runThreads f s.issuing s [] with
  | none => .next s
  | some (s', kept) => .next (s'.splitBundle kept)

/-! ### Results -/

/-- The source operand that a member contributes (R38): of a register beyond its allotment, which only a skipped thread may
name, a free value (log 33). -/
def State.contribution (s : State) (k : Nat) (r : Reg) : Word :=
  if s.regBad k r.toNat then Config.beyondAllotment s.free k r.toNat else s.readReg k r

/-- SHFL (R457). -/
def shflResult (m : ShflMode) (a b : Reg) : XResult := fun s members k =>
  let l := laneOf k
  let n := (s.readReg k b).toNat % 32
  let src : Option Nat := match m with
    | .idx => some n
    | .up => if n ≤ l then some (l - n) else none
    | .down => if l + n < 32 then some (l + n) else none
    | .xor => some (l ^^^ n)
  let from' := match src with
    | some j => (members.find? fun x => laneOf x == j).getD k
    | none => k
  (s.contribution from' a, 0)

/-- VOTE (R475). -/
def voteResult (m : VoteMode) (ps : Pred) (a : Reg) : XResult := fun s members k =>
  let holds := fun x => (s.thread x).pred ps
  let v : Word := match m with
    | .all => if members.all holds then 1 else 0
    | .any => if members.any holds then 1 else 0
    | .ballot => BitVec.ofNat 64 ((members.filter holds).foldl (fun n x => n + 2 ^ laneOf x) 0)
    | .uni => if members.all fun x => s.contribution x a == s.contribution k a then 1 else 0
  (v, 0)

/-- One integer step of REDB and SCANB (R444). -/
def redStep (op : RedOp) (x y : Word) : Word :=
  match op with
  | .add => x + y
  | .min => if x.slt y then x else y
  | .max => if x.slt y then y else x
  | .minu => if x.ult y then x else y
  | .maxu => if x.ult y then y else x
  | .and => x &&& y
  | .or => x ||| y
  | .xor => x ^^^ y
  | .fadd => x

/-- The value over no members (R258). -/
def redIdentity (op : RedOp) : Word :=
  match op with
  | .add | .or | .xor | .maxu | .fadd => 0
  | .min => 0x7FFFFFFFFFFFFFFF
  | .max => 0x8000000000000000
  | .minu | .and => BitVec.allOnes 64

/-- The operation over values in lane order; the first value stands unchanged (R444, R452). -/
def redOver (op : RedOp) (dbl : Bool) (mode : Mode) : List Word → Word × BitVec 6
  | [] => (redIdentity op, 0)
  | v :: vs =>
    match op with
    | .fadd =>
      let f := fmtOf (if dbl then .d else .s)
      let r := vs.foldl (fun (p : Nat × BitVec 6) w =>
        let q := f.add mode p.1 w.toNat
        (q.bits, p.2 ||| q.flags)) (v.toNat % 2 ^ f.width, 0)
      (BitVec.ofNat 64 r.1, r.2)
    | _ => (vs.foldl (redStep op) v, 0)

/-- The mode of a collective: rm, or frm of the lowest member (R444). -/
def redMode (s : State) (members : List Nat) (rm : Rm) : Mode := s.mode (members.headD 0) rm

def redbResult (op : RedOp) (dbl : Bool) (rm : Rm) (a : Reg) : XResult := fun s members _ =>
  redOver op dbl (redMode s members rm) (members.map fun x => s.contribution x a)

def scanbResult (exc : Bool) (op : RedOp) (dbl : Bool) (rm : Rm) (a : Reg) : XResult := fun s members k =>
  let part := members.filter fun x => decide (laneOf x < laneOf k) || (!exc && x == k)
  redOver op dbl (redMode s members rm) (part.map fun x => s.contribution x a)

/-! ### The instructions -/

def execShfl (g : Guard) (m : ShflMode) (d a b c : Reg) (s : State) : Out :=
  xlane s (.shfl g m d a b c) g [a, b, c, d] d c (shflResult m a b)

def execVote (g : Guard) (m : VoteMode) (ps : Pred) (d a c : Reg) (s : State) : Out :=
  xlane s (.vote g m ps d a c) g [a, c, d] d c (voteResult m ps a)

def execRedb (g : Guard) (op : RedOp) (dbl : Bool) (rm : Rm) (d a c : Reg) (s : State) : Out :=
  xlane s (.redb g op dbl rm d a c) g [a, c, d] d c (redbResult op dbl rm a)

def execScanb (g : Guard) (exc : Bool) (op : RedOp) (dbl : Bool) (rm : Rm) (d a c : Reg) (s : State) : Out :=
  xlane s (.scanb g exc op dbl rm d a c) g [a, c, d] d c (scanbResult exc op dbl rm a)

end Sys2Proof.Machine
end

