-- ==== Sys2Proof/Machine/CrewInstr.lean ====
section
/-!
DEFINITION. Instructions on crew state: JOIN (01 R34 to R36; 18 R408, R409), GBAR (18 R399, R400), GROW and SHRINK (02
R70 to R72; 18 R402; 20 R461), SHMAP, SETF and TAKEF (02 R76 to R80; 20 R454, R460), CBWAIT, CBPUSH and CBPOP (04 R134,
R135; 17 R374 to R376).
-/
namespace Sys2Proof.Machine

/-! ### JOIN -/

/-- A JOIN over its bundle; the release condition is evaluated once, after every lane (R409). -/
def joinInstr (s : State) (i : Instr) (g : Guard) (body : Nat → State → Res) : Out :=
  .next ((crewsOf s.issuing).foldl State.evalJoins (s.issue i g [] simtOnly .holds body))

def State.modJoin (s : State) (k : Nat) (n : BitVec 3) (f : Join → Join) : State :=
  s.modCrew (crewOf k) fun c => c.setJoin n (f (c.join n))

def State.joinAt (s : State) (k : Nat) (n : BitVec 3) : Join :=
  match s.crewAt k with
  | some c => c.join n
  | none => ⟨0, 0⟩

def execJoinEnr (g : Guard) (n : Pred) (s : State) : Out :=
  joinInstr s (.joinEnr g n) g fun k s =>
    let b := laneBit (laneOf k)
    .go (s.modJoin k n fun j => ⟨j.e ||| b, j.v &&& ~~~b⟩) .next

def execJoinWait (g : Guard) (n : Pred) (s : State) : Out :=
  joinInstr s (.joinWait g n) g fun k s =>
    let l := laneOf k
    if !(s.joinAt k n).e.getLsbD l then .trap cJOIN 0 (n.setWidth 64) false
    else .go ((s.modJoin k n fun j => ⟨j.e, j.v ||| laneBit l⟩).parkThread k (.join n) (.joinWait g n)) .hold

/-- The strike fails every cross-lane set that waits for the lane (R39). -/
def execJoinStrike (g : Guard) (n : Pred) (s : State) : Out :=
  joinInstr s (.joinStrike g n) g fun k s =>
    .go ((s.modJoin k n fun j => j.clear (laneOf k)).failSets (crewOf k) (laneOf k)) .next

def execJoinRst (g : Guard) (n : Pred) (s : State) : Out :=
  joinInstr s (.joinRst g n) g fun k s =>
    if !(s.waiters (crewOf k) n).isEmpty then .trap cJOIN 0 (n.setWidth 64) false
    else .go (s.modJoin k n fun _ => ⟨0, 0⟩) .next

/-! ### GBAR -/

/-- An arrival in the open instance; a second one changes nothing (R399). -/
def execGbar (g : Guard) (s : State) : Out :=
  let s1 := s.issue (.gbar g) g [] simtOnly .holds fun k s =>
    let ix := (s.thread k).ids.gang.toNat
    let arrive := fun (x : Gang) => { x with arrived := if x.arrived.contains ix then x.arrived else ix :: x.arrived }
    .go ((s.modGang (s.thread k).ids.seq arrive).parkThread k .gbar (.gbar g)) .hold
  .next ((s.issuing.map fun k => (s.thread k).ids.seq).dedup.foldl State.gbarCheck s1)

/-- A saved thread's frames after a close: its bit at 0x030 cleared, PARK := 0, its PC advanced by 8 (R400). -/
def State.patchSaved (s : State) (k : Nat) : State :=
  match s.crewAt k with
  | some cr => match cr.place with
    | .saved f =>
      let a := f + 0x800 + 1024 * laneOf k
      let s1 := s.hwPutWord (f + 0x030) (setFld (s.hwWord (f + 0x030)) (laneOf k) (laneOf k) 0)
      let s2 := s1.hwPutWord (a + 0x200) (nextPc (s1.hwWord (a + 0x200)))
      s2.hwPutWord (a + 0x208) (setFld (s2.hwWord (a + 0x208)) 25 23 0)
    | _ => s
  | none => s

/-- The close notice reaches a core: its threads that stand in the closed instance go on (R399, R400). -/
def execGbarClose (seq core : Nat) (s : State) : Out :=
  match s.gangs.find seq with
  | none => .next s
  | some g =>
    if g.closing.contains core then
      let s1 := (s.gbarReleased seq g core).foldl (fun s k => (s.unpark k).patchSaved k) s
      let left := g.closing.filter (· != core)
      .next (s1.modGang seq fun g => { g with closing := left })
    else .next s

/-! ### GROW and SHRINK -/

/-- Partition words (R64). -/
def Core.regg (c : Core) : Nat := fld c.partWord 7 0
def Core.scrg (c : Core) : Nat := fld c.partWord 15 8
def Core.ringg (c : Core) : Nat := fld c.partWord 23 16
def Core.cacheg (c : Core) : Nat := fld c.partWord 31 24
def Core.shadow (c : Core) : Bool := bitAt c.partWord 40
def Core.actb (c : Core) : Bool := bitAt c.partWord 41

/-- Slice of a home lane: its first offset and its length in bytes (R68). -/
def Core.slice (c : Core) (part lane : Nat) : Nat × Nat := ((32 * part + lane) * c.regg * 128, c.regg * 128)

/-- Register windows in one lane slice of a bank: (offset, bytes), those of AWAY lanes included (R68), and of exited lanes
until their crew's resources are released (R385). -/
def State.windowsIn (s : State) (core part lane : Nat) (bank : Bool) : List (Nat × Nat) :=
  (s.crewsOn core).flatMap fun e =>
    if e.2.part == part && e.2.bank == bank then
      ((s.threads.find (laneKey e.1 lane)).map fun t => (t.loambase, 8 * t.regcnt)).toList
        ++ (e.2.spent.filter fun x => x.1 == lane).map (·.2)
    else []

/-- The lowest free aligned run of a region that overlaps none of the runs in use. DESIGN CHOICE (log 68): where R71 and the
placement rules say only a free run, the lowest is taken. -/
def findRun (base size len align : Nat) (used : List (Nat × Nat)) : Option Nat :=
  let free := fun (a : Nat) => decide (a + len ≤ base + size) && used.all fun u =>
    decide (a + len ≤ u.1) || decide (u.1 + u.2 ≤ a)
  let starts := base :: (used.map fun u => ceilDiv (u.1 + u.2) align * align)
  (starts.filter fun a => decide (base ≤ a) && free a).foldl (fun b a => match b with
    | none => some a
    | some x => some (min x a)) none

/-- GROW at issue: the two limits, then the thread parks with its request (R71). -/
def execGrow (g : Guard) (n8 : BitVec 3) (s : State) : Out :=
  perThread s (.grow g n8) g [] anyCore .holds fun k s =>
    let new := (s.thread k).regcnt + 8 * n8.toNat
    if decide (64 < new) || decide ((s.core (s.coreOf k)).regg * 128 < new * 8) then
      .trap cREG_ALLOT 0 (BitVec.ofNat 64 new) false
    else .go (s.parkThread k .grow (.grow g n8)) .hold

/-- The registers asked for by a thread parked in GROW. -/
def growWanted (t : Thread) : Nat :=
  match t.st.again with
  | some (.grow _ n8) => t.regcnt + 8 * n8.toNat
  | _ => t.regcnt

/-- Requests of one slice of a bank, by the threads that stand there, are granted in the order they were made (R71). -/
def State.firstInSlice (s : State) (k : Nat) : Bool :=
  let same := s.threads.filter fun e => decide (256 ≤ e.1) && e.2.st.park == .grow && e.2.st.live && s.coreOf e.1 == s.coreOf k
    && laneOf e.1 == laneOf k
    && (s.crewAt e.1).any (fun c => c.place == .resident && (s.crewAt k).any fun d => c.part == d.part && c.bank == d.bank)
  same.all fun e => decide ((s.thread k).st.stamp ≤ e.2.st.stamp)

/-- The grant: the window grows in place, or moves once oc.ld is zero; new registers read zero (R71, R402). -/
def execGrowGrant (k : Nat) (s : State) : Out :=
  match s.crewAt k with
  | none => .next s
  | some c =>
    let t := s.thread k
    if s.halted || t.st.park != .grow || !t.st.live || !s.firstInSlice k then .next s
    else
      let new := growWanted t
      let core := s.core c.core
      let sl := core.slice c.part (laneOf k)
      let others := (s.windowsIn c.core c.part (laneOf k) c.bank).filter fun u => u.1 != t.loambase
      let inPlace := decide (t.loambase + 8 * new ≤ sl.1 + sl.2) && others.all fun u =>
        decide (t.loambase + 8 * new ≤ u.1) || decide (u.1 + u.2 ≤ t.loambase)
      let grown := fun (base : Nat) (t : Thread) =>
        let rs := Vector.ofFn fun n : Fin 64 => if n.val < t.regcnt then t.regs[n] else 0
        { t with regs := rs, regcnt := new, loambase := base }.unparked
      -- nothing but the registers' own parity speaks of the words of a window
      let clean := fun (s : State) (a : Nat) => s.modCore c.core fun x => x.goodParity c.bank a (8 * new)
      if inPlace then .next (clean (s.modThread k (grown t.loambase)) t.loambase)
      else if t.oc.ld ≠ 0 then .next s
      else match findRun sl.1 sl.2 (8 * new) 64 (s.windowsIn c.core c.part (laneOf k) c.bank) with
        | some a => .next (clean (s.modThread k (grown a)) a)
        | none => .next s

/-- The crew of a thread; of an AWAY thread, that of its held lane (R72). -/
def State.ownCrew (s : State) (k : Nat) : Option Crew :=
  if isLat k && (s.thread k).st.away then (s.heldLane (s.thread k)).bind s.crewAt else s.crewAt k

/-- SHRINK (R71, R72): on a latency core it checks and completes without effect. -/
def execShrink (g : Guard) (n8 : BitVec 3) (s : State) : Out :=
  perThread s (.shrink g n8) g [] anyCore .holds fun k s =>
    let t := s.thread k
    let n := 8 * n8.toNat
    let new := t.regcnt - n
    let covers := (s.ownCrew k).any fun c => c.maps.any fun m => decide (new < m.d + m.count)
    if t.regcnt < 16 + n ∨ covers then .trap cREG_ALLOT 0 (BitVec.ofInt 64 ((t.regcnt : Int) - n)) false
    else if isLat k then .go s .next
    else if t.oc.ld ≠ 0 then .go (s.parkThread k .counters (.shrink g n8)) .hold
    else
      let rs := Vector.ofFn fun r : Fin 64 => if r.val < new then t.regs[r] else 0
      .go (s.modThread k fun t => { t with regs := rs, regcnt := new, parity := t.parity &&& BitVec.ofNat 128 (2 ^ (2 * new) - 1) }) .next

/-! ### SHMAP -/

/-- The crew of the executing crew's context in a partition and slot of this core's active bank, running or stopped (R76,
R164). -/
def State.crewInSlot (s : State) (core asid part slot : Nat) : Option Nat :=
  ((s.crewsOn core).find? fun e => e.2.asid == asid && e.2.part == part && e.2.slot == slot
    && e.2.bank == (s.core core).actb && e.2.place != .shadow).map (·.1)

/-- SHMAP for one crew, with the operands of its lowest executing lane (R76, R460). -/
def State.shmap (s : State) (k : Nat) (d a t : Reg) (count : Nat) : Res :=
  match s.crewAt k with
  | none => .wait
  | some c =>
    let me := crewOf k
    let w := s.readReg k a
    let target := if w.toNat / 64 = 0 then s.crewInSlot c.core c.asid (fld w 5 4) (fld w 3 0) else none
    match target with
    | none => .trap cILLEGAL 0 w false
    | some tk =>
      let dn := d.toNat
      let tn := t.toNat
      if tk = me then .trap cILLEGAL 0 w false
      else if count = 0 then
        .go (s.modCrew me fun c => { c with maps := c.maps.filter fun m => !(decide (m.d ≤ dn) && decide (dn < m.d + m.count)) }) .next
      else if dn = 0 ∨ tn = 0 ∨ 64 < dn + count ∨ 64 < tn + count then .trap cILLEGAL 0 (BitVec.ofNat 64 dn) false
      else
        let keep := c.maps.filter fun m => decide (m.d + m.count ≤ dn) || decide (dn + count ≤ m.d)
        if 2 ≤ keep.length then .trap cILLEGAL 0 (BitVec.ofNat 64 dn) false
        else if (s.thread k).regcnt < dn + count then
          .trap cREG_ALLOT 0 (BitVec.ofNat 64 (max dn (s.thread k).regcnt)) false
        else
          let tc := (s.crews.find tk).map (·.cidx) |>.getD 0
          let s1 := s.modCrew me fun c => { c with maps := keep ++ [⟨tk, tc, dn, tn, count⟩] }
          let empty := fun (x : Crew) => (List.range 32).foldl (fun x l =>
            (List.range count).foldl (fun (x : Crew) r => x.setFull l (tn + r) false) x) x
          .go (s1.modCrew tk empty) .next

/-- Count above 16 and reserved bits are no instruction words (decode). -/
def execShmap (g : Guard) (d a : Reg) (t : Reg) (count : BitVec 5) (s : State) : Out :=
  perCrew s (.shmap g d a t count) g [a.toNat] simtOnly .holds fun grp s =>
    s.shmap (grp.headD 0) d a t count.toNat

/-! ### SETF and TAKEF -/

/-- The crew, lane and number of the physical register behind a register number. -/
def State.physFull (s : State) (k n : Nat) : Bool :=
  let p := s.physReg k n
  (s.crewAt p.1).any fun c => c.fullBit (laneOf p.1) p.2

def State.putFull (s : State) (k n : Nat) (v : Bool) : State :=
  let p := s.physReg k n
  s.modCrew (crewOf p.1) fun c => c.setFull (laneOf p.1) p.2 v

/-- The formation stamp of the bundle that a thread issues in (R32). -/
def State.stampOf (s : State) (k : Nat) : Nat :=
  (((s.core (s.coreOf k)).bundles.find? fun b => b.members.contains k).map (·.stamp)).getD 0

/-- A SETF or TAKEF parks with the formation stamp of its bundle, by which retries proceed (R80). -/
def State.parkShared (s : State) (k : Nat) (i : Instr) : State :=
  s.modThread k fun t => { t with st := { t.st with park := .setf, again := some i, stamp := s.stampOf k } }

/-- One try of SETF or TAKEF: done, or still waiting (R79, R80). -/
def State.setfTry (s : State) (k : Nat) (d a : Reg) : Option State :=
  if s.physFull k d.toNat then none else some ((s.writeReg k d (s.readReg k a)).putFull k d.toNat true)

def State.takefTry (s : State) (k : Nat) (d a : Reg) : Option State :=
  if !s.physFull k a.toNat then none else some ((s.writeReg k d (s.readReg k a)).putFull k a.toNat false)

def execSetf (g : Guard) (d a : Reg) (s : State) : Out :=
  perThread s (.setf g d a) g [a.toNat, d.toNat] simtOnly .holds fun k s =>
    if !s.sharedReg k d.toNat then .trap cILLEGAL 0 (d.setWidth 64) false
    else match s.setfTry k d a with
      | some s' => .go s' .next
      | none => .go (s.parkShared k (.setf g d a)) .hold

def execTakef (g : Guard) (d a : Reg) (s : State) : Out :=
  perThread s (.takef g d a) g [a.toNat, d.toNat] simtOnly .holds fun k s =>
    if !s.sharedReg k a.toNat then .trap cILLEGAL 0 (a.setWidth 64) false
    else match s.takefTry k d a with
      | some s' => .go s' .next
      | none => .go (s.parkShared k (.takef g d a)) .hold

/-! ### Circular buffers -/

def cbOffset (k : Nat) : Nat := 0x7E00 + 32 * k

/-- A descriptor's configuration and counter words (R134). -/
def State.cbCfg (s : State) (c : Crew) (k : Nat) : Word := s.specWord c (cbOffset k)

def cbSlots (cfg : Word) : Nat := 2 ^ fld cfg 58 56
def cbSize (cfg : Word) : Nat := fld cfg 55 32
def cbBase (cfg : Word) : Nat := fld cfg 23 0

/-- A chain of the crew runs or is blocked. -/
def State.chainRuns (s : State) (c : Crew) : Bool :=
  s.chains.any fun e => (e.2.state == 1 || e.2.state == 2) && (match e.2.crew with
    | some k => s.crews.find k == some c
    | none => false)

/-- Nothing uses a buffer: no slot is filled, and none claimed but by a chain that has failed since. `left`: the configuration
and counters that the hardware last left. -/
def State.cbUnused (s : State) (c : Crew) (left : Word × Word) : Bool :=
  fld left.2 31 16 == 0 && (fld left.2 15 0 == cbSlots left.1 || !s.chainRuns c)

/-- The counter word of buffer k. A program may set it up while nothing uses the buffer. A store to it while it is in use
leaves the counters unpredictable (R134); bad words read zero (R84). -/
def State.cbCtr (s : State) (c : Crew) (k : Nat) : Word :=
  let w := s.specWord c (cbOffset k + 8)
  match ((s.core c.core).bank c.bank).cbs.find (c.specBase + cbOffset k) with
  | some left =>
    if w = left.2 ∨ s.cbUnused c left ∨ !(s.specBad c (cbOffset k) 16).isEmpty then w else Config.scrambled left.2 w
  | none => w

/-- The counter word written by the hardware. -/
def State.putCbCtr (s : State) (c : Crew) (k : Nat) (w : Word) : State :=
  (s.modCore c.core fun x => x.setBank c.bank { x.bank c.bank with
    cbs := (x.bank c.bank).cbs.set (c.specBase + cbOffset k) (s.cbCfg c k, w) }).putSpecWord c (cbOffset k + 8) w

/-- A descriptor that every use accepts (R134). -/
def cbValid (c : Crew) (cfg : Word) : Bool :=
  bitAt cfg 63 && decide (cbBase cfg + cbSlots cfg * cbSize cfg ≤ c.lsg * granule) && decide (128 ≤ cbSize cfg)
    && cbSize cfg % 128 == 0 && cbBase cfg % 128 == 0

def cbFree (w : Word) : Nat := fld w 15 0
def cbFilled (w : Word) : Nat := fld w 31 16
def cbWidx (w : Word) : Nat := fld w 47 32
def cbRidx (w : Word) : Nat := fld w 63 48

def cbWord (ridx widx filled free : Nat) : Word :=
  BitVec.ofNat 64 (ridx % 65536 * 2 ^ 48 + widx % 65536 * 2 ^ 32 + filled % 65536 * 2 ^ 16 + free % 65536)

/-- Window address of an offset of the crew's scratch. -/
def State.windowAddr (s : State) (c : Crew) (off : Nat) : Nat := ((s.core c.core).ctxOf c.asid).loamva.toNat % 2 ^ 57 + c.base + off

/-- What an instruction of the buffer family does at one try: a fault, still waiting, or done. -/
inductive CbTry where
  | bad (addr : Nat)
  /-- a word of the descriptor has bad parity: POISON, counted (R84) -/
  | spoiled (s : State) (addr : Nat)
  | waits
  | done (s : State)

/-- A use of buffer k by a crew's instruction: bad parity in the descriptor, then what every use fails by (R84, R134). -/
def State.cbUse (s : State) (grp : List Nat) (k : Nat) (f : Crew → Word → Word → CbTry) : CbTry :=
  match s.crewAt (grp.headD 0) with
  | none => .waits
  | some c =>
    match s.specBad c (cbOffset k) 16 with
    | a :: _ => .spoiled (s.countParity c.core) (s.windowAddr c (a - c.base))
    | [] =>
      if cbValid c (s.cbCfg c k) then f c (s.cbCfg c k) (s.cbCtr c k)
      else .bad (s.windowAddr c (c.lsg * granule + cbOffset k))

/-- CBWAIT: every executing thread of the crew receives the slot's window address (R375). -/
def State.cbwaitTry (s : State) (grp : List Nat) (prod : Bool) (d : Reg) (k : Nat) : CbTry :=
  s.cbUse grp k fun c cfg w =>
    if (if prod then cbFree w else cbFilled w) = 0 then .waits
    else
      let slot := if prod then cbWidx w else cbRidx w
      let a := BitVec.ofNat 64 (s.windowAddr c (cbBase cfg + slot * cbSize cfg))
      .done (grp.foldl (fun s k => s.writeReg k d a) s)

/-- CBPUSH (R375). -/
def State.cbpushTry (s : State) (grp : List Nat) (k : Nat) : CbTry :=
  s.cbUse grp k fun c cfg w =>
    if cbFree w = 0 then .waits
    else .done (s.putCbCtr c k (cbWord (cbRidx w) ((cbWidx w + 1) % cbSlots cfg) (cbFilled w + 1) (cbFree w - 1)))

/-- CBPOP (R375). -/
def State.cbpopTry (s : State) (grp : List Nat) (k : Nat) : CbTry :=
  s.cbUse grp k fun c cfg w =>
    if cbFilled w = 0 then .waits
    else .done (s.putCbCtr c k (cbWord ((cbRidx w + 1) % cbSlots cfg) (cbWidx w) (cbFilled w - 1) (cbFree w + 1)))

/-- The subset parks together: one stamp for its threads (R375). -/
def State.parkGroup (s : State) (grp : List Nat) (p : Park) (i : Instr) : State :=
  let st := s.nxt.age
  let s1 := grp.foldl (fun (s : State) k =>
    s.modThread k fun t => { t with st := { t.st with park := p, again := some i, stamp := st } }) s
  { s1 with nxt := { s1.nxt with age := st + 1 } }

/-- `rel` for the forms that release the threads' earlier Loam accesses (R376). -/
def cbInstr (s : State) (i : Instr) (g : Guard) (regs : List Nat) (rel : Bool) (f : List Nat → State → CbTry) : Out :=
  perCrew s i g regs simtOnly .holds fun grp s =>
    if rel && grp.any s.loamPending then .wait
    else match f grp s with
    | .bad a => .trap cLOAM_BOUNDS 0 (BitVec.ofNat 64 a) false
    | .spoiled s' a => .failed s' cPOISON 0 (BitVec.ofNat 64 a)
    | .waits => .go (s.parkGroup grp .cb i) .hold
    | .done s' => .go s' .next

def execCbwait (g : Guard) (d : Reg) (k : BitVec 4) (s : State) : Out :=
  cbInstr s (.cbwait g d k) g [d.toNat] false fun grp s => s.cbwaitTry grp false d k.toNat
def execCbwaitProd (g : Guard) (d : Reg) (k : BitVec 4) (s : State) : Out :=
  cbInstr s (.cbwaitProd g d k) g [d.toNat] false fun grp s => s.cbwaitTry grp true d k.toNat
def execCbpop (g : Guard) (k : BitVec 4) (s : State) : Out :=
  cbInstr s (.cbpop g k) g [] true fun grp s => s.cbpopTry grp k.toNat
def execCbpush (g : Guard) (k : BitVec 4) (s : State) : Out :=
  cbInstr s (.cbpush g k) g [] true fun grp s => s.cbpushTry grp k.toNat

end Sys2Proof.Machine
end

