-- ==== Sys2Proof/Machine/FlowInstr.lean ====
section
/-!
DEFINITION. Control flow, back-off, yielding, waiting and ending (09 R261, R262; 17 R369, R371, R384, R385; 18 R406,
R407; 19 R429; 20 R476, R477, R479; 01 R58 to R62), with the expiry of a hold (R61, R59).
-/
namespace Sys2Proof.Machine

/-- PC + 8 × sext(off), modulo 2^57 (R371, R406). -/
def branchTarget (pc : Word) (off : BitVec 32) : Word := low57 (pc + (off.signExtend 64) * 8)

/-- The guard is the condition; the hint acts on timing only (R371). -/
def execBr (g : Guard) (h : BrHint) (off : BitVec 32) (s : State) : Out :=
  perThread s (.br g h off) g [] anyCore .runs fun k s => .go s (.jump (branchTarget (s.thread k).pc off))

def execJal (g : Guard) (call : Bool) (d : Reg) (off : BitVec 32) (s : State) : Out :=
  perThread s (.jal g call d off) g [d.toNat] anyCore .runs fun k s =>
    let pc := (s.thread k).pc
    .go (s.writeReg k d (nextPc pc)) (.jump (branchTarget pc off))

def execJalr (g : Guard) (h : JalrHint) (d a : Reg) (imm : BitVec 32) (s : State) : Out :=
  perThread s (.jalr g h d a imm) g [a.toNat, d.toNat] anyCore .runs fun k s =>
    let target := low57 (s.readReg k a + imm64 imm)
    if target.toNat % 8 ≠ 0 then .trap cMISALIGN 0 target false
    else .go (s.writeReg k d (nextPc (s.thread k).pc)) (.jump target)

def execNop (g : Guard) (s : State) : Out := perThread s (.nop g) g [] anyCore .runs fun _ s => .go s .next

/-- The watchdog counter of a thread's crew restarts (R60). -/
def State.resetWatchdog (s : State) (k : Nat) : State :=
  if isLat k then s else s.modCrew (crewOf k) fun c => { c with watchdog := 0 }

/-- The youngest age of the partition (R59). -/
def State.youngest (s : State) (k : Nat) : State :=
  let s1 := s.modThread k fun t => { t with st := { t.st with age := s.nxt.age } }
  { s1 with nxt := { s1.nxt with age := s1.nxt.age + 1 } }

/-- The youngest in its partition, its watchdog restarted; on a latency core a notice to the supervisor (R479; log 60). -/
def execYield (g : Guard) (s : State) : Out :=
  perThread s (.yield g) g [] anyCore .holds fun k s =>
    .go (if isLat k then s.modHart k fun h => { h with yielded := true } else (s.youngest k).resetWatchdog k) .next

/-- Lowered for 64 cycles; a latency thread pauses (R59, R479). -/
def execYieldH (g : Guard) (s : State) : Out :=
  perThread s (.yieldH g) g [] anyCore .holds fun k s =>
    let s1 := s.modThread k fun t => { t with st := { t.st with lowered := true, held := t.st.held || isLat k } }
    .go (s1.resetWatchdog k) .next

def execYieldHExpiry (k : Nat) (s : State) : Out :=
  .next (if (s.thread k).st.lowered then
    s.modThread k fun t => { t with st := { t.st with lowered := false, held := t.st.held && !isLat k } } else s)

/-- BKOFF acts on every thread of the bundle: a false guard clears the level (R30, R61, R369). -/
def execBkoff (g : Guard) (s : State) : Out :=
  let f := fun (s : State) k =>
    if (s.thread k).guard g then
      Res.go (s.modThread k fun t => { t.goTo (nextPc t.pc) with st := { t.st with level := min (t.st.level + 1) 6, held := true } }) .hold
    else Res.go (s.modThread k fun t => { t with st := { t.st with level := 0 } }) .next
  match runThreads f s.issuing s [] with
  | none => .next s
  | some (s', kept) => .next (s'.splitBundle kept)

def execBkoffHoldExpiry (k : Nat) (s : State) : Out :=
  .next (if (s.thread k).st.held then s.modThread k fun t => { t with st := { t.st with held := false } } else s)

/-! ### WAITC -/

def execWaitc (g : Guard) (ld st : BitVec 6) (cp tile : BitVec 4) (s : State) : Out :=
  perThread s (.waitc g ld st cp tile) g [] anyCore .runs fun k s =>
    let s := s.modThread k Thread.retrying
    match (s.thread k).dueFailure with
    | some a => .failed s cENGINE 0 a
    | none =>
      if (s.thread k).oc.within ld.toNat st.toNat cp.toNat tile.toNat then .go s .next
      else .go (s.parkThread k .counters (.waitc g ld st cp tile)) .hold

/-! ### EXIT -/

/-- The frame that an EXIT leaves at HTSAVE: VALID = 0 (R300). -/
def State.exitFrame (s : State) (n : Nat) : State :=
  let a := htSaveAddr (s.hart n)
  let ws := s.hartFrame n
  if a = 0 then s else s.putFrame a (ws.set 65 (setFld (ws.getD 65 0) 31 31 0))

/-- The exit of a latency thread that belongs to no gang (R385). -/
def State.exitHart (s : State) (n : Nat) : State :=
  (((s.exitFrame n).escRecord (htSaveAddr (s.hart n)) (causeWord 0x00 0x03) 0 (s.thread n).ids.tid).vacate n).loadSup n

/-- What one thread's EXIT does once it may exit. -/
def State.exitThread (s : State) (k : Nat) : Res :=
  if isLat k then
    match s.heldLane (s.thread k) with
    | some l =>
      if (s.thread k).st.away then
        let t := s.thread l
        let s1 := ((s.exitFrame k).endThread l).afterExits [crewOf l] [t.ids.seq]
        .go ((s1.vacate k).loadSup k) .gone
      else if s.escFull then .wait else .go (s.exitHart k) .gone
    | none => if s.escFull then .wait else .go (s.exitHart k) .gone
  else .go (s.endThread k) .gone

/-- EXIT (R384): a recorded chain failure first, then the wait for oc.ld and oc.st. -/
def execExit (g : Guard) (s : State) : Out :=
  let seqs := (s.issuing.map fun k => (s.thread k).ids.seq).dedup
  let cs := crewsOf s.issuing
  .next ((s.issue (.exit g) g [] anyCore .holds fun k s =>
    match (s.thread k).dueFailure with
    | some a => .trap cENGINE 0 a false
    | none =>
      let oc := (s.thread k).oc
      if oc.ld ≠ 0 ∨ oc.st ≠ 0 then .wait else s.exitThread k).afterExits cs seqs)

end Sys2Proof.Machine
end

