-- ==== Sys2Proof/Machine/Inflight.lean ====
section
/-!
DEFINITION. Accesses of SIMT threads that have issued and not returned (04 R126), and the words that hardware reads and
writes on behalf of a context.
-/
namespace Sys2Proof.Machine

/-- What an access that no unit answers comes to (R296): PAGE_NP for a remote page, else POISON. -/
def Target.unanswered : Target → Nat × Nat
  | .phys _ _ _ _ (some _) _ _ => (cPAGE_NP, 0x04)
  | _ => (cPOISON, 0)

/-- A resolved page as the target of an access. -/
def Page.target (p : Page) : Target := .phys p.pa p.key p.trk p.vset p.remote p.ro p.rset

/-- The page of a target again; attributes that no access in flight uses are zero. -/
def pageOf (pa key : Nat) (trk : Bool) (vset : Nat) (remote : Option Nat) (ro : Bool) (rset : Nat) : Page :=
  { pa := pa, key := key, trk := trk, view := 0, vset := vset, fmt := 0, scaled := false, remote := remote, ro := ro,
    rset := rset, leaf := 0 }

/-- An access sent (R126): its counter rises at issue. -/
def State.send (s : State) (a : Access) : State :=
  let raise := fun (t : Thread) => match a.kind with
    | .load .. | .atomic .. => { t with oc := { t.oc with ld := t.oc.ld + 1 } }
    | .store .. | .cwb | .cinv => { t with oc := { t.oc with st := t.oc.st + 1 } }
  let s1 := s.modThread a.thread raise
  { s1 with mem := { s1.mem with inflight := s1.mem.inflight.set s1.nxt.access a }
            nxt := { s1.nxt with access := s1.nxt.access + 1 } }

end Sys2Proof.Machine
end

