-- ==== Sys2Proof/Machine/Scall.lean ====
section
/-!
DEFINITION. Service calls (01 R50 to R53; 20 R447 to R450): the request, speculation past it, the reply and the time-out.
-/
namespace Sys2Proof.Machine

/-- Entry of the service table for an ASID: its address and two words (R448). -/
def State.svcEntry (s : State) (asid : Nat) : Nat × Word × Word :=
  let a := fld s.pkg.svctab 51 4 * 16 + 16 * asid
  (a, s.hwWord a, s.hwWord (a + 8))

/-- The predictor of a core for a call site (R50). -/
def Core.predicted (c : Core) (pc : Word) : Word := c.predictor.get (fld pc 10 3) 0
def Core.predict (c : Core) (pc v : Word) : Core := { c with predictor := c.predictor.set (fld pc 10 3) v }

/-- The registers that a thread's numbers name and that exist: each with the number that names it (R67, R69, R77). -/
def State.namedRegs (s : State) (k : Nat) : List Nat :=
  ((List.range 64).drop 1).filter fun n => !s.regBad k n

/-- A register as the checkpoint takes it, a word of bad parity as zero (R84). -/
def State.soundReg (s : State) (k n : Nat) : Word :=
  let p := s.physReg k n
  let t := s.thread p.1
  let half := fun (w : Nat) => if t.parity.getLsbD w then (0 : Word) else 0xFFFFFFFF
  t.reg p.2 &&& (half (2 * p.2) ||| (half (2 * p.2 + 1) <<< 32))

/-- The checkpoint of a thread in its crew's speculation area (R67): g0 to g63 as it names them, and its predicates. -/
def State.checkpointBytes (s : State) (k : Nat) : List Byte :=
  let rs := s.namedRegs k
  wordsBytes ((List.range 64).map fun n => if rs.contains n then s.soundReg k n else 0)
    ++ natBytes 8 ((s.thread k).preds ||| 1).toNat

def State.checkpointAt (c : Crew) (lane : Nat) : Nat := c.specBase + 520 * lane

def State.putCheckpoint (s : State) (k : Nat) : State :=
  match s.crewAt k with
  | some c =>
    let bad := (s.namedRegs k).filter fun n => s.parityBad k n
    (bad.foldl (fun s _ => s.countParity c.core) s).putLoam c.core c.bank (State.checkpointAt c (laneOf k)) (s.checkpointBytes k)
  | none => s

/-- Registers and predicates back from the checkpoint (R50), each into the register that its number names; the hidden register
of a mapping whose target has gone meanwhile never changed (R77). Words of bad parity come back as zero, counted (R84). -/
def State.restoreCheckpoint (s : State) (k : Nat) : State :=
  match s.crewAt k with
  | none => s
  | some c =>
    let a := State.checkpointAt c (laneOf k)
    let r := s.engineLoam c.core a 520 (.bytes c.bank)
    let word := fun (n : Nat) => BitVec.ofNat 64 (bytesToNat ((r.2.1.drop (8 * n)).take 8))
    let names := (s.namedRegs k).filter fun n => (c.mapping n).isNone || s.physReg k n != (k, n)
    let s1 := names.foldl (fun s n => s.writeReg k (BitVec.ofNat 6 n) (word n)) r.1
    s1.modThread k fun t => { t with preds := BitVec.ofNat 8 (word 64).toNat ||| 1 }

/-- The request slot written with its eight argument registers, then word 0, and PIDX advanced (R448). -/
def State.writeRequest (s : State) (w : Who) (slot : Nat) (e : Nat × Word × Word) (k num : Nat) (ns : Bool)
    (n : BitVec 12) : State :=
  let args := (List.range 8).map fun j => s.readReg k (BitVec.ofNat 6 (10 + j))
  let reply := if ns then s.readReg k 11 else 0
  let body := [BitVec.ofNat 64 num, (s.thread k).ids.tid, (s.thread k).pc, reply] ++ args ++ [0, 0, 0]
  let s := s.ctxPut w (slot + 8) (wordsBytes body)
  let s := s.ctxPutWord w slot (BitVec.ofNat 64 (2 ^ 63 + 2 ^ 16 * boolBit ns + n.toNat))
  let pidx := (fld e.2.2 15 0 + 1) % 2 ^ fld e.2.1 3 0
  s.hwPutWord (e.1 + 8) (setFld e.2.2 15 0 pidx)

/-- One thread's SCALL (R450), whose request is a release: it comes after every earlier access (R212). `pred` gives the predicted value from the predictor. -/
def State.scall (s : State) (k : Nat) (n : BitVec 12) (ns : Bool) (pred : Word → Word) : Res :=
  let value := n.setWidth 64
  if isLat k then if s.escFull then .wait else .trap cSCALL 0 value true
  else
    let w := s.who k
    let e := s.svcEntry w.ctx.asid
    if !bitAt e.2.1 63 then .trap cSCALL 0 value true
    else
      let slot := fld e.2.1 56 12 * 4096 + 128 * fld e.2.2 15 0
      match s.resolve w slot .store with
      | (_, .fault c sub) => .trap c sub (BitVec.ofNat 64 slot) false
      | (_, .window _) => .trap cLOAM_BOUNDS 0 (BitVec.ofNat 64 slot) false
      | (s, .page p) =>
        if ns && (s.readReg k 11).toNat % 8 != 0 then .trap cMISALIGN 0 (s.readReg k 11) false
        else if bitAt (s.peekWord p.pa) 63 || !(s.pendingOf k).isEmpty then .wait
        else
          let num := s.nxt.request
          let pc := (s.thread k).pc
          let next := { s with nxt := { s.nxt with request := (s.nxt.request + 1) % 2 ^ 48 } }
          if ns then .go ((next.writeRequest w slot e k num true n).edgeAll 7) .next
          else
            let v := pred ((s.core (s.coreOf k)).predicted pc)
            let s1 := ((next.putCheckpoint k).writeRequest w slot e k num false n).edgeAll 7
            let s2 := s1.modThread k fun t =>
              { t with spec := ⟨.speculating, num, v, pc, []⟩, st := { t.st with reissue := false } }
            .go (s2.writeReg k 10 v) .next

def execScall (g : Guard) (n : BitVec 12) (s : State) : Out :=
  perThread s (.scall g n) g [] anyCore .holds fun k s => s.scall k n false id

/-- The override value replaces the prediction (R447, R450). -/
def execScallOv (g : Guard) (n : BitVec 12) (v : BitVec 20) (s : State) : Out :=
  perThread s (.scallOv g n v) g [] anyCore .holds fun k s => s.scall k n false fun _ => v.signExtend 64

def execScallNs (g : Guard) (n : BitVec 12) (s : State) : Out :=
  perThread s (.scallNs g n) g [] anyCore .holds fun k s => s.scall k n true id

/-! ### Reply and time-out -/

def BufferedStore.access (b : BufferedStore) (k asid : Nat) : Access :=
  { thread := k, va := b.addr, target := b.target, kind := .store b.data, acq := false, rel := b.rel, sc := b.sc,
    crewKey := crewOf k, pc := b.pc, turn := 0, overlay := [], spec := false, drop := false, early := [], count := 0,
    asid := asid }

/-- Loads issued in the speculation write no register after a squash; they stay counted (R50). After a commit they are
like any other. -/
def State.settleSpecLoads (s : State) (k : Nat) (squashed : Bool) : State :=
  { s with mem := { s.mem with inflight := s.mem.inflight.map fun (e : Nat × Access) =>
    if e.2.thread = k ∧ e.2.spec then (e.1, { e.2 with spec := false, drop := e.2.drop || squashed }) else e } }

/-- Buffered stores enter the memory system in program order, with their counter, each where it was sent when the thread executed
it (R50, R75, R465). -/
def State.commitBuffer (s : State) (k : Nat) : State :=
  (s.thread k).spec.buf.foldl (fun s b => s.send (b.access k (s.ctxOf k).asid)) s

def State.withdrawIfParked (s : State) (k : Nat) : State :=
  if (s.thread k).st.park = .none then s else s.withdraw k

/-- The SCALL is discarded and sent again when the thread next issues (R50, R52). -/
def State.squash (s : State) (k : Nat) : State :=
  let pc := (s.thread k).spec.pc
  let s := (((s.leaveBundle k).withdrawIfParked k).restoreCheckpoint k).settleSpecLoads k true
  let calm := fun (p : Pending) => match p with
    | .trap .. => Pending.none
    | p => p
  s.modThread k fun t => { t with pc := pc, spec := .idle, st := { t.st with reissue := true, pending := calm t.st.pending } }

/-- The thread that waits for a request number (R449, R52). -/
def State.caller (s : State) (num : Nat) : Option Nat :=
  (s.threads.find? fun e => e.2.spec.mode != .normal && e.2.spec.number == num).map (·.1)

/-- A reply with its number (R50, R450): commit when it equals the prediction, else restore. -/
def State.reply (s : State) (num : Nat) (v : Word) : State :=
  match s.caller num with
  | none => s
  | some k =>
    let sp := (s.thread k).spec
    let s := s.modCore (s.coreOf k) fun c => c.predict sp.pc v
    if v = sp.predicted then
      let s := ((s.commitBuffer k).settleSpecLoads k false).modThread k fun t => { t with spec := .idle }
      -- a trap that waits in W proceeds
      match (s.thread k).st.pending with
      | .trap cause sub value ret =>
        (s.modThread k fun t => { t with st := { t.st with pending := .none } }).takeTrap k cause sub value ret
      | _ => s
    else
      let s := (s.squash k).modThread k fun t => { t with pc := nextPc sp.pc, st := { t.st with reissue := false } }
      s.writeReg k 10 v

def execScallReply (num : BitVec 48) (v : Word) (s : State) : Out := .next (s.reply num.toNat v)

def execServiceTimeout (k : Nat) (s : State) : Out :=
  .next (if (s.thread k).spec.mode = .normal then s else s.squash k)

end Sys2Proof.Machine
end

