-- ==== Sys2Proof/Machine/Tile.lean ====
section
/-!
DEFINITION. Addresses as engines and matrix units reach them, tile records (04 R129 to R133) and the element formats of
the matrix engine (03 R101 to R106).
-/
namespace Sys2Proof.Machine

/-! ### Where an address lies (R116, R119, R121) -/

inductive Place where
  | page (p : Page)
  | loam (core off : Nat) (spot : LoamSpot)
  | bad (cause sub : Nat)
  deriving DecidableEq, Repr

/-- The window span as a crew sees it. -/
def State.windowPlace (s : State) (w : Who) (off n : Nat) : Place :=
  if w.lat then .bad cLOAM_BOUNDS 0
  else
    let core := w.agent
    let r : Nat × Nat × LoamSpot :=
      if off < 2 ^ 22 then (core, off, s.ownSpot w.crew off n)
      else
        let k := off / 2 ^ 22 - 1
        let o := off % 2 ^ 22
        match (s.gangs.find w.seq).bind fun g => if k < 8 then g.cores[k]? else none with
        | some c => (c, o, s.gangSpot w.seq c o n)
        | none => (core, o, .nothing)
    match r.2.2 with
    | .nothing => .bad cLOAM_BOUNDS 0
    | sp => .loam r.1 r.2.1 sp

/-- An address of a context resolved for `n` bytes. -/
def State.place (s : State) (w : Who) (va n : Nat) (acc : AccKind) : State × Place :=
  match s.resolve w va acc with
  | (s1, .page p) => (s1, .page p)
  | (s1, .window off) => (s1, s1.windowPlace w off n)
  | (s1, .fault c sub) => (s1, .bad c sub)

/-- The bank that a spot stands in: a register's is its crew's. -/
def State.spotBank (s : State) (sp : LoamSpot) : Bool :=
  match sp with
  | .bytes b => b
  | .reg k _ _ => (s.crewAt k).any (·.bank)
  | .nothing => false

/-- A load or atomic in flight that will still write a physical register (R75, R127). -/
def State.returning (s : State) (k n : Nat) : Bool :=
  let hits := fun (e : Nat × Access) (d : Nat) => d != 0 && s.physReg e.2.thread d == (k, n)
  s.mem.inflight.any fun e => !e.2.drop && (match e.2.kind with
    | .load size _ d => hits e d || (size == 16 && hits e (d + 1))
    | .atomic _ _ d _ _ => hits e d
    | _ => false)

/-- Bytes that a load of thread `k` takes from a spot. Unpredictable are those of a register that a load in flight will
still write (R75), and those of an accumulator slot that an accepted MMA of its crew writes (R209). -/
def State.readLoam (s : State) (k core : Nat) (sp : LoamSpot) (off n : Nat) : State × List Byte :=
  let busy := s.busySlots (crewOf k)
  let unsure : Nat → Bool := match sp with
    | .reg t r sub => fun i => s.returning t ((8 * r + sub + i) / 8)
    | .bytes b => fun i => (s.crewAt k).any fun c => c.core == core && c.bank == b
        && busy.any fun a => decide (a ≤ off + i) && decide (off + i < a + granule)
    | .nothing => fun _ => false
  ({ s with free := s.free + n }, (s.readSpot core sp off n).zipIdx.map fun e =>
    if unsure e.2 then (Config.freeValue (s.free + e.2)).setWidth 8 else e.1)

/-- A remote access of an engine that is not answered in time faults (R160 row 11, R296). -/
def State.remoteSilent (s : State) (agent : Nat) (p : Page) : Bool := p.remote.isSome && s.silent agent

/-- Bytes that an engine reads at an address, the words or lines read as zero, and a fault. -/
def State.engineGet (s : State) (w : Who) (va n : Nat) : State × List Byte × List Nat × Option (Nat × Nat) :=
  match s.place w va n .load with
  | (s1, .page p) =>
    if s1.remoteSilent w.agent p then (s1.answered w.agent, List.replicate n 0, [], some (cPAGE_NP, 0x04))
    else let r := s1.engineRead w.agent p p.pa n; (r.1, r.2.1, r.2.2, none)
  | (s1, .loam c off sp) => let r := s1.engineLoam c off n sp; (r.1, r.2.1, r.2.2, none)
  | (s1, .bad c sub) => (s1, List.replicate n 0, [], some (c, sub))

/-- Bytes that an engine writes. -/
def State.enginePut (s : State) (w : Who) (agent va : Nat) (bs : List Byte) : State × Option (Nat × Nat) :=
  match s.place w va bs.length .store with
  | (s1, .page p) =>
    if s1.remoteSilent agent p then (s1.answered agent, some (cPAGE_NP, 0x04)) else (s1.engineWrite agent p p.pa bs, none)
  | (s1, .loam c off sp) => (s1.writeSpot c sp off bs, none)
  | (s1, .bad c sub) => (s1, some (c, sub))

/-- A load that is complete when it retires, with precise faults (R242, R43, R296): bytes, or cause and sub-cause. -/
def State.loadNow (s : State) (k va n : Nat) : State × (List Byte ⊕ (Nat × Nat)) :=
  match s.place (s.who k) va n .load with
  | (s1, .page p) =>
    if s1.silent (s1.agentOf k) then (s1.answered (s1.agentOf k), .inr p.target.unanswered)
    else match s1.readPage (s1.agentOf k) (s1.ctxOf k).asid p p.pa n with
    | (s2, some bs) => (s2, .inl bs)
    | (s2, none) => (s2, .inr (cPOISON, 0))
  | (s1, .loam c off sp) =>
    if (s1.spotBad c sp off n).isEmpty then let r := s1.readLoam k c sp off n; (r.1, .inl r.2)
    else (s1.countParity c, .inr (cPOISON, 0))
  | (s1, .bad c sub) => (s1, .inr (c, sub))

/-! ### Records -/

structure TileRec where
  base : Nat
  stride : Nat
  rowlen : Nat
  span : Nat
  cbslot : Nat
  scaled : Bool
  fmt : Nat
  view : Nat
  space : Nat
  rows : Nat
  scalep : Nat
  deriving DecidableEq, Repr

/-- The record of four words (R129). -/
def tileOf (w0 w1 w2 w3 : Word) : TileRec :=
  { base := fld w0 56 0, stride := fld w1 63 32, rowlen := fld w1 23 0, span := fld w2 38 36, cbslot := fld w2 30 25,
    scaled := bitAt w2 24, fmt := fld w2 23 20, view := fld w2 19 18, space := fld w2 17 16, rows := fld w2 15 0,
    scalep := fld w3 56 0 }

def tileOfBytes (bs : List Byte) : TileRec :=
  let w := fun k => BitVec.ofNat 64 (bytesToNat ((bs.drop (8 * k)).take 8))
  tileOf (w 0) (w 1) (w 2) (w 3)

/-- Address of the byte at column offset x of row r (R130). -/
def TileRec.byteAddr (t : TileRec) (r x : Nat) : Nat := (t.base + r * t.stride + (x ^^^ (16 * (r % 2 ^ t.span)))) % 2 ^ 57

/-- K-blocks of a row (R102, R130). -/
def rowBlocks (rowlen fmt : Nat) : Nat := if fmt = 6 then rowlen / 8 else rowlen / 16

/-- First and last-plus-one address of the rows, and of the scales. -/
def TileRec.range (t : TileRec) : Nat × Nat := (t.base, t.base + (t.rows - 1) * t.stride + t.rowlen)
def TileRec.scaleRange (t : TileRec) (fmt : Nat) : Nat × Nat := (t.scalep, t.scalep + t.rows * rowBlocks t.rowlen fmt)

/-- Why a record is refused: an instruction traps with the record's address (a page fault with the byte's), a chain fails
with a cause (R131, R138). -/
inductive RecErr where
  | malformed
  | bounds
  | format
  | page (cause sub va : Nat)
  deriving DecidableEq, Repr

/-- The shape checks (R131), and a reserved format code (R18). -/
def TileRec.shapeBad (t : TileRec) : Bool :=
  t.rows == 0 || decide (t.rowlen < 16) || t.rowlen % 16 != 0 || t.stride % 16 != 0 || t.base % 16 != 0
    || t.rowlen % (16 * 2 ^ t.span) != 0 || t.space == 3 || (t.view != 0 && t.space != 0) || decide (8 ≤ t.fmt)

/-- A virtual range inside the crew's own scratch through its window (R131, SPACE = 1). -/
def State.inOwnScratch (s : State) (w : Who) (r : Nat × Nat) : Bool :=
  let l := w.ctx.loamva.toNat % 2 ^ 57
  decide (l ≤ r.1) && (match s.crews.find w.crew with
    | some c => c.inScratch (r.1 - l) (r.2 - r.1)
    | none => false)

/-- Inside one allowed gang-window allocation (SPACE = 2). -/
def State.inGangScratch (s : State) (w : Who) (r : Nat × Nat) : Bool :=
  let l := w.ctx.loamva.toNat % 2 ^ 57
  decide (l + 2 ^ 22 ≤ r.1) && (match s.windowPlace w (r.1 - l) (r.2 - r.1) with
    | .loam .. => decide ((r.1 - l) / 2 ^ 22 = (r.2 - 1 - l) / 2 ^ 22)
    | _ => false)

/-- No byte in the window span (SPACE = 0). -/
def offSpan (c : Ctx) (r : Nat × Nat) : Bool :=
  let l := c.loamva.toNat % 2 ^ 57
  decide (r.2 ≤ l) || decide (l + 2 ^ 26 ≤ r.1)

def State.rangeOk (s : State) (w : Who) (space : Nat) (r : Nat × Nat) : Bool :=
  match space with
  | 0 => offSpan w.ctx r
  | 1 => s.inOwnScratch w r
  | _ => s.inGangScratch w r

/-- Addresses at which a range enters a page of 4 KiB, the smallest size: its start and every multiple of 4 KiB in it. -/
def pageStarts (a n : Nat) : List Nat :=
  a :: ((List.range (n / 4096 + 2)).map fun k => (a / 4096 + 1 + k) * 4096).filter fun x => decide (x < a + n)

/-- The pages that some addresses reach, each resolved (the attributes are the last state's). -/
def State.pagesOf (s : State) (w : Who) (acc : AccKind) : List Nat → State × (List Page ⊕ (Nat × Nat × Nat))
  | [] => (s, .inl [])
  | a :: as =>
    match s.resolve w a acc with
    | (s1, .page p) =>
      match State.pagesOf s1 w acc as with
      | (s2, .inl ps) => (s2, .inl (p :: ps))
      | r => r
    | (s1, .window _) => (s1, .inr (cLOAM_BOUNDS, 0, a))
    | (s1, .fault c sub) => (s1, .inr (c, sub, a))

/-- Addresses of the pages that the rows of a record enter. -/
def TileRec.rowPages (t : TileRec) : List Nat :=
  ((List.range t.rows).flatMap fun r => pageStarts (t.base + r * t.stride) t.rowlen).dedup

/-- The format and scaled bit of a Loam record (R132). -/
def State.loamFormat (s : State) (w : Who) (t : TileRec) : Nat × Bool :=
  if t.fmt ≠ 0 then (t.fmt, t.scaled)
  else match s.place w t.base 1 .load with
    | (_, .loam c off sp) => s.tag c (s.spotBank sp) off
    | _ => (0, false)

/-- Whether an address resolves to a page. -/
def State.resolves (s : State) (w : Who) (acc : AccKind) (a : Nat) : Bool :=
  match (s.resolve w a acc).2 with
  | .page _ => true
  | _ => false

/-- The checks of a record by R131 and R132 that no absent page stops: the attributes of the pages that resolve are
compared. `cmpScaled` compares SCALED (all uses but copies). The answer is the format and scaled bit, `none` when no page
of a memory record resolves. -/
def State.checkRecAttr (s : State) (w : Who) (t : TileRec) (acc : AccKind) (cmpScaled : Bool) :
    State × Option (Nat × Bool) × Option RecErr :=
  let bad := fun (s : State) e => (s, (none : Option (Nat × Bool)), some e)
  let wrong := fun (f : Nat × Bool) => (t.fmt != 0 && t.fmt != f.1) || (cmpScaled && t.scaled != f.2)
  if t.shapeBad then bad s .malformed
  else if !s.rangeOk w t.space t.range then bad s .bounds
  else if t.space = 0 then
    match s.pagesOf w acc (t.rowPages.filter (s.resolves w acc)) with
    | (s1, .inl (p :: ps)) =>
      if t.scaled && !s1.rangeOk w 0 (t.scaleRange p.fmt) then bad s1 .bounds
      else if (p :: ps).any fun q => q.view != t.view || q.fmt != p.fmt || q.scaled != p.scaled then bad s1 .format
      else if wrong (p.fmt, p.scaled) then bad s1 .format
      else (s1, some (p.fmt, p.scaled), none)
    | (s1, _) => (s1, none, none)
  else
    let f := s.loamFormat w t
    if t.scaled && !s.rangeOk w t.space (t.scaleRange f.1) then bad s .bounds
    else if wrong f then bad s .format
    else (s, some f, none)

/-- The memory pages of a record's rows, then of its scales, translated: the first fault, with its address (R219,
R240). -/
def State.translateRec (s : State) (w : Who) (t : TileRec) (f : Nat × Bool) (acc : AccKind) :
    State × Option (Nat × Nat × Nat) :=
  let scales := if f.2 then let r := t.scaleRange f.1; pageStarts r.1 (r.2 - r.1) else []
  if t.space ≠ 0 then (s, none)
  else match s.pagesOf w acc (t.rowPages ++ scales) with
    | (s1, .inr e) => (s1, some e)
    | (s1, .inl _) => (s1, none)

/-- A chain's record: its page faults come when the row is reached. -/
def State.checkRecLate (s : State) (w : Who) (t : TileRec) (acc : AccKind) : State × (Nat × Bool) × Option RecErr :=
  let r := s.checkRecAttr w t acc false
  (r.1, r.2.1.getD (t.fmt, t.scaled), r.2.2)

/-- The format and scaled bit of a record that has been checked. -/
def State.recFormat (s : State) (w : Who) (t : TileRec) : Nat × Bool :=
  (s.checkRecAttr w t .load true).2.1.getD (t.fmt, t.scaled)

/-- The bytes of row r, in increasing column offset, with the zeroed words and lines. -/
def State.tileRow (s : State) (w : Who) (t : TileRec) (r : Nat) : State × List Byte × List Nat × Option (Nat × Nat × Nat) :=
  (List.range (t.rowlen / 16)).foldl (fun (acc : State × List Byte × List Nat × Option (Nat × Nat × Nat)) g =>
    match acc.2.2.2 with
    | some _ => acc
    | none =>
      let va := t.byteAddr r (16 * g)
      let q := acc.1.engineGet w va 16
      match q.2.2.2 with
      | some f => (q.1, acc.2.1, acc.2.2.1, some (f.1, f.2, va))
      | none => (q.1, acc.2.1 ++ q.2.1, acc.2.2.1 ++ q.2.2.1, none)) (s, [], [], none)

/-- The scale bytes of row r. -/
def State.tileScales (s : State) (w : Who) (t : TileRec) (fmt r : Nat) : State × List Byte × List Nat :=
  let n := rowBlocks t.rowlen fmt
  let q := s.engineGet w ((t.scalep + r * n) % 2 ^ 57) n
  (q.1, q.2.1, q.2.2.1)

/-! ### Elements (R101 to R104) -/

/-- K of one MMA (R215). -/
def kOf (fmt : Nat) : Nat := match fmt with | 1 | 2 => 64 | 6 => 256 | _ => 128

/-- The value of element k of a row's bytes. -/
def elemVal (fmt : Nat) (cb : List (BitVec 16)) (bs : List Byte) (k : Nat) : FVal :=
  let byte := fun j => (bs.getD j 0).toNat
  match fmt with
  | 1 => (fmtOf .bf).decode (byte (2 * k) + 256 * byte (2 * k + 1))
  | 2 => (fmtOf .h).decode (byte (2 * k) + 256 * byte (2 * k + 1))
  | 3 => (fmtOf .e4m3).decode (byte k)
  | 4 => (fmtOf .e5m2).decode (byte k)
  | 5 => let v := toSigned 8 (byte k); .fin (decide (v < 0)) v.natAbs 0
  | 6 => (fmtOf .bf).decode (cb.getD (byte (k / 2) / 16 ^ (k % 2) % 16) 0).toNat
  | _ => .nan false

/-- A value times the SE8 scale byte s (R103). -/
def scaleVal (v : FVal) (s : Byte) : FVal :=
  if s = 0xFF then .nan false
  else match v with
    | .fin n m e => .fin n m (e + (s.toNat : Int) - 127)
    | x => x

/-- The decoded K elements of a row (scales included). -/
def rowVals (fmt : Nat) (scaled : Bool) (cb : List (BitVec 16)) (bs scales : List Byte) : List FVal :=
  (List.range (kOf fmt)).map fun k =>
    let v := elemVal fmt cb bs k
    if scaled then scaleVal v (scales.getD (k / 16) 0) else v

/-- floor(log2 |v|) of a nonzero finite value. -/
def FVal.log2 : FVal → Int
  | .fin _ m e => (Nat.log2 m : Int) + e
  | _ => 0

def FVal.isInf : FVal → Bool
  | .inf _ => true
  | _ => false

def FVal.isZero : FVal → Bool
  | .fin _ m _ => m == 0
  | _ => false

/-- A finite value in units of 2^u, rounded toward minus infinity. -/
def FVal.units (v : FVal) (u : Int) : Int :=
  match v with
  | .fin n m e =>
    let x := signed n m
    if u ≤ e then x * 2 ^ (e - u).toNat else x / 2 ^ (u - e).toNat
  | _ => 0

/-- One K-block (R106): its value, and for a finite nonzero block the unit exponent and register. -/
inductive Block where
  | special (v : FVal)
  | sum (u : Int) (register : Int)
  deriving DecidableEq, Repr

def blockOf (int8 : Bool) (ps : List (Option FVal)) : Block :=
  let vs := ps.filterMap id
  if ps.any Option.isNone || vs.any FVal.isNan
      || (vs.any (· == .inf false) && vs.any (· == .inf true)) then .special (.nan false)
  else match vs.find? FVal.isInf with
    | some v => .special v
    | none =>
      let nz := vs.filter fun v => !v.isZero
      match nz with
      | [] => .special (.fin false 0 0)
      | v :: r =>
        let e := if int8 then 48 else r.foldl (fun m x => max m x.log2) v.log2
        .sum (e - 48) (nz.foldl (fun t x => t + x.units (e - 48)) 0)

/-- The block's value with an error of `err` units (R108; zero at F0 and in special blocks). -/
def Block.value (b : Block) (err : Int) : FVal :=
  match b with
  | .special v => v
  | .sum u r => .fin (decide (r + err < 0)) (r + err).natAbs u

/-- The accumulator after a block: one rounding to nearest even (R106). -/
def accAdd (acc : BitVec 32) (v : FVal) : BitVec 32 :=
  BitVec.ofNat 32 ((fmtOf .s).addVal .rne ((fmtOf .s).decode acc.toNat) v).bits

end Sys2Proof.Machine
end

