-- ==== Sys2Proof/Machine/Kaolin.lean ====
section
/-!
DEFINITION. Kaolin residencies and codebooks (08 R235 to R243; 17 R373; 18 R410 to R415; 19 R482; 13 R355, R357).
-/
namespace Sys2Proof.Machine

def Handle.zero : Handle :=
  { alloc := false, asid := 0, gen := 0, slot := none, cbslot := 0, scaled := false, fmt := 0, crewFlag := false,
    ar := false, pin := false, state := .empty, owner := 0, region := 0, source := [], ctx := .zero, lines := [],
    touched := false, views := [] }

def Core.handle (c : Core) (i : Nat) : Handle := c.engines.handles.get i Handle.zero

def State.putHandle (s : State) (core i : Nat) (h : Handle) : State :=
  s.modCore core fun c => { c with engines := { c.engines with handles := c.engines.handles.set i h } }

/-- A handle value that is valid for a context: core, index and entry (R236). -/
def State.findHandle (s : State) (asid : Nat) (v : Word) : Option (Nat × Nat × Handle) :=
  let core := fld v 24 16
  let i := fld v 7 0
  let h := (s.core core).handle i
  if v.toNat / 2 ^ 25 = 0 ∧ core < Config.simtCores ∧ h.alloc ∧ h.gen = fld v 15 8 ∧ h.asid = asid then some (core, i, h)
  else none

/-- The lowest free slot of a core's Kaolin store; the MMA in progress keeps the slot that it reads. -/
def Core.freeSlot (c : Core) : Option Nat :=
  (List.range 64).find? fun n => !(c.engines.handles.any fun e => e.2.alloc && e.2.slot == some n)
    && !(c.engines.current.any fun x => x.slot == some n)

/-- The lowest free index of a core's handle table. -/
def Core.freeIndex (c : Core) : Option Nat := (List.range 256).find? fun i => !(c.handle i).alloc

/-- The executing threads of a group receive a result. -/
def State.writeAll (s : State) (grp : List Nat) (d : Reg) (v : Word) : State := grp.foldl (fun s k => s.writeReg k d v) s

/-- KALLOC (R239, R410, R411). -/
def State.kalloc (s : State) (grp : List Nat) (word : Word) (crew ar : Bool) (d a : Reg) : Res :=
  let k := grp.headD 0
  let v := s.readReg k a
  let core := v.toNat
  if crew && isLat k then .trap cILLEGAL 0 word false
  else if Config.simtCores ≤ core then .trap cILLEGAL 0 v false
  else if s.regionOf k = 0 then .trap cRES_QUOTA 0 v false
  else match s.chargeKaolin (s.ctxOf k) (s.dieOf k) (s.regionOf k) with
    | none => .trap cRES_QUOTA 0 v false
    | some charged =>
      match (s.core core).freeIndex, (s.core core).freeSlot with
      | some i, some n =>
        let old := (s.core core).handle i
        let gen := if old.gen = 255 then 1 else old.gen + 1
        let h : Handle := { Handle.zero with
          alloc := true, asid := (s.ctxOf k).asid, gen := gen, slot := some n, crewFlag := crew, ar := ar,
          owner := crewOf k, region := s.regionOf k, ctx := s.ctxOf k }
        .go ((charged.putHandle core i h).writeAll grp d (BitVec.ofNat 64 (core * 2 ^ 16 + gen * 2 ^ 8 + i))) .next
      | _, _ => .go (s.writeAll grp d 0) .next

def execKalloc (g : Guard) (crew ar : Bool) (d a : Reg) (s : State) : Out :=
  perCrew s (.kalloc g crew ar d a) g [a.toNat, d.toNat] anyCore .holds fun grp s =>
    s.kalloc grp (encode (.kalloc g crew ar d a)) crew ar d a

/-! ### Fills -/

/-- Formats that stand on their own as an operand (R101, R105). -/
def fmtAllowed (fmt : Nat) (scaled : Bool) : Bool :=
  match fmt with
  | 1 | 2 | 5 => !scaled
  | 3 | 4 => true
  | 6 => scaled
  | _ => false

/-- The crew under which a latency thread's fill is counted; its level field holds the key that the thread is counted
under plus one (R357, R49; `State.countKey`), and zero for an auto-refill, which no thread counts (R243). -/
def noCrew : Nat := 2 ^ 32

def rowMask (grp : List Nat) : BitVec 32 := grp.foldl (fun m k => m ||| (1#32 <<< laneOf k)) 0

/-- The threads that count a command. -/
def Cmd.threads (c : Cmd) : List Nat :=
  if c.crew = noCrew then if c.level = 0 then [] else [c.level - 1]
  else ((List.range 32).filter fun l => c.rows.getLsbD l).map (laneKey c.crew)

/-- A command as it enters the queue. -/
def Cmd.new (word : Word) (crew : Nat) (rows : BitVec 32) (level : Nat) (a b pc : Word) (sup : Bool) : Cmd :=
  { word := word, crew := crew, rows := rows, level := level, a := a, b := b, pc := pc, slot := none, older := [], early := [],
    ran := 0, slotEarly := [], sup := sup }

def State.raiseTile (s : State) (ks : List Nat) : State :=
  ks.foldl (fun s k => s.modThread k fun t => { t with oc := { t.oc with tile := t.oc.tile + 1 } }) s

/-- oc.tile of the threads that count a command falls; a thread that has exited has none (R244). -/
def State.lowerTile (s : State) (ks : List Nat) : State :=
  ks.foldl (fun s k => s.modCounted k fun t => { t with oc := { t.oc with tile := t.oc.tile - 1 } }.settled) s

def State.enqueue (s : State) (core : Nat) (c : Cmd) : State :=
  s.modCore core fun k => { k with engines := { k.engines with queue := k.engines.queue ++ [c] } }

/-- How a record's failure traps (R131, R219). -/
def RecErr.trap (e : RecErr) (addr : Word) : Res :=
  match e with
  | .malformed => .trap cILLEGAL 0 addr false
  | .bounds => .trap cLOAM_BOUNDS 0 addr false
  | .format => .trap cFORMAT 0 addr false
  | .page c sub va => .trap c sub (BitVec.ofNat 64 va) false

/-- The residency-source bit of the pages that a fill reads, scales among them (R159, R240). -/
def State.markSource (s : State) (w : Who) (t : TileRec) (f : Nat × Bool) : State :=
  let scales := if f.2 then let r := t.scaleRange f.1; pageStarts r.1 (r.2 - r.1) else []
  (t.rowPages ++ scales).foldl (fun s a => if inHeap w.ctx a || (w.sup && w.ctx.pgroot == 0) then s else s.markSourcePage w a) s

/-- A fill accepted: state, source and format recorded, and queued behind the core's commands (R240). -/
def State.acceptFill (s : State) (w : Who) (core i : Nat) (h : Handle) (slot : Nat) (t : TileRec) (f : Nat × Bool)
    (src : List Word) (c : Cmd) : State :=
  let h' : Handle := { h with
    state := .filling, slot := some slot, source := src, ctx := w.ctx, fmt := f.1, scaled := f.2, cbslot := t.cbslot,
    lines := [], views := [], touched := false }
  ((s.markSource w t f).putHandle core i h').enqueue core c

def kfillWord (d a b : Reg) : Word := encode (.kfill ⟨0, false⟩ d a b)

/-- A store or atomic of the thread to some bytes that is not performed: a plain load of its own waits for it (R199). -/
def State.ownPending (s : State) (k a n : Nat) : Bool :=
  (s.pendingOf k).any fun e => e.2.ordering && decide (va57 e.2.va < a + n) && decide (a < va57 e.2.va + 16)

/-- The format by which a fill's record is judged first (R105, R240): its own, or that of the page it begins in. -/
def State.fillFormat (s : State) (w : Who) (t : TileRec) : Option (Nat × Bool) :=
  if t.fmt ≠ 0 then some (t.fmt, t.scaled)
  else match (s.resolve w t.base .load).2 with
    | .page p => some (p.fmt, p.scaled)
    | _ => none

/-- KFILL (R240, R412). DESIGN CHOICE (log 69): a record that lies in the Loam window outside the crew's scratch, for which R240
names no trap, is read as any load of the thread would read it. -/
def State.kfill (s : State) (grp : List Nat) (d a b : Reg) : Res :=
  let k := grp.headD 0
  let addr := s.readReg k b
  let hv := s.readReg k a
  let w := s.who k
  if addr.toNat % 32 ≠ 0 then .trap cMISALIGN 0 addr false
  else if s.ownPending k (va57 addr) 32 then .wait
  else match s.loadNow k (va57 addr) 32 with
    | (s1, .inr (c, sub)) => .failed s1 c sub (low57 addr)
    | (s1, .inl bs) =>
      let t := tileOfBytes bs
      let r := s1.checkRecAttr w t .load true
      if t.space ≠ 0 ∨ t.rows ≠ 128 ∨ t.rowlen ≠ 128 ∨ (s1.fillFormat w t).any (fun f => !fmtAllowed f.1 f.2) then .trap cFORMAT 0 addr false
      else match r.2.2 with
      | some e => e.trap addr
      | none =>
        let s2 := r.1
        if r.2.1.any fun f => !fmtAllowed f.1 f.2 then .trap cFORMAT 0 addr false
        else match s2.findHandle w.ctx.asid hv with
        | none => .trap cRES_HANDLE 0 hv false
        | some (core, i, h) =>
          if h.state = .filling then .wait
          else
            let f := r.2.1.getD (t.fmt, t.scaled)
            match s2.translateRec w t f .load with
            | (_, some (c, sub, va)) => .trap c sub (BitVec.ofNat 64 va) false
            | (s3, none) =>
              if 8 ≤ (s3.core core).engines.queue.length ∨ grp.any (fun j => decide (15 ≤ (s3.thread j).oc.tile)) then .wait
              else match h.slot.or (s3.core core).freeSlot with
                | none => .go (s3.writeAll grp d 1) .next
                | some slot =>
                  let src := (List.range 4).map fun j => BitVec.ofNat 64 (bytesToNat ((bs.drop (8 * j)).take 8))
                  let c : Cmd := if isLat k then Cmd.new (kfillWord d a b) noCrew 0 (s.countKey k + 1) addr hv (s.thread k).pc w.sup
                    else Cmd.new (kfillWord d a b) (crewOf k) (rowMask grp) 0 addr hv (s.thread k).pc w.sup
                  .go (((s3.acceptFill w core i h slot t f src c).raiseTile grp).writeAll grp d 0) .next

def execKfill (g : Guard) (d a b : Reg) (s : State) : Out :=
  perCrew s (.kfill g d a b) g [a.toNat, b.toNat, d.toNat] anyCore .holds fun grp s => s.kfill grp d a b

/-- The record that a residency's source words hold. -/
def Handle.record (h : Handle) : TileRec :=
  tileOf (h.source.getD 0 0) (h.source.getD 1 0) (h.source.getD 2 0) (h.source.getD 3 0)

/-- A KGet of the line of an address: the core becomes a K sharer of a tracked line (R148, R189, R240), which is named with its
viewset and key ids, a forwarded one at its destination (R171). -/
def State.kgetLine (s : State) (w : Who) (core va : Nat) : State × List (Nat × Nat × Nat) :=
  match s.resolve w va .load with
  | (s1, .page p) =>
    let held := match physKind p.pa with
      | .hbm | .aliased _ => p.tracked && p.remote.isNone
      | _ => false
    if held then
      let l := s1.lineAt hwAgent p p.pa
      (s1.request (Msg.ask .kget l.1 core l.2.2 p.vset), [(l.1, p.vset, l.2.2)])
    else (s1, [])
  | (s1, _) => (s1, [])

/-- One KGet of each line of a range, whichever page the line lies in. -/
def State.kgetRange (s : State) (w : Who) (core va n : Nat) : State × List (Nat × Nat × Nat) :=
  (linePieces (n + 1) va n).foldl (fun (q : State × List (Nat × Nat × Nat)) e =>
    let r := q.1.kgetLine w core e.1
    (r.1, q.2 ++ r.2)) (s, [])

/-- A fill reads its data and scale lines into the slot (R240). -/
def State.fillRead (s : State) (core i : Nat) : State :=
  let h := (s.core core).handle i
  let t := h.record
  let w : Who := { hwWho h.ctx with agent := core }
  match h.slot with
  | none => s
  | some slot =>
    let step := fun (q : State × KSlot × List (Nat × Nat × Nat) × List Nat) r =>
      let rowVa := t.base + r * t.stride
      let g := q.1.kgetRange w core rowVa t.rowlen
      let d := g.1.tileRow w t r
      let n := rowBlocks t.rowlen h.fmt
      let sc : State × List Byte × List Nat × List (Nat × Nat × Nat) := if h.scaled then
          let g2 := d.1.kgetRange w core (t.scalep + r * n) n
          let x := g2.1.tileScales w t h.fmt r
          (x.1, x.2.1, x.2.2, g2.2)
        else (d.1, [], [], [])
      let slot' : KSlot := ⟨q.2.1.data.puts (128 * r) d.2.1, q.2.1.scales.puts (16 * r) sc.2.1⟩
      (sc.1, slot', q.2.2.1 ++ g.2 ++ sc.2.2.2, q.2.2.2 ++ d.2.2.1 ++ sc.2.2.1)
    let r := (List.range 128).foldl step (s, ⟨[], []⟩, [], [])
    let s1 := r.1.modCore core fun c =>
      let n := min (c.counters.poison + r.2.2.2.dedup.length) (2 ^ 48 - 1)
      { c with counters := { c.counters with poison := n }, engines := { c.engines with kslots := c.engines.kslots.set slot r.2.1 } }
    s1.putHandle core i { h with
      lines := (r.2.2.1.map (·.1)).dedup, views := (r.2.2.1.filter fun l => aliasLine l.1).dedup, touched := false }

/-- A fill ends (R237): VALID, or STALE when a source line was taken meanwhile. -/
def State.fillDone (s : State) (core : Nat) (c : Cmd) : State :=
  let i := fld c.b 7 0
  let h := (s.core core).handle i
  let s1 := if h.alloc && h.state == .filling then
      s.putHandle core i { h with state := if h.touched then .stale else .valid, touched := false } else s
  s1.lowerTile c.threads

/-! ### Pins, release, state, codebooks -/

/-- An instruction on a valid handle (R236). -/
def handleInstr (s : State) (k : Nat) (a : Reg) (f : Nat → Nat → Handle → Res) : Res :=
  let v := s.readReg k a
  match s.findHandle (s.ctxOf k).asid v with
  | none => .trap cRES_HANDLE 0 v false
  | some (core, i, h) => f core i h

def execKpin (g : Guard) (a : Reg) (s : State) : Out :=
  perCrew s (.kpin g a) g [a.toNat] anyCore .holds fun grp s =>
    handleInstr s (grp.headD 0) a fun core i h => .go (s.putHandle core i { h with pin := true }) .next

def execKpinOff (g : Guard) (a : Reg) (s : State) : Out :=
  perCrew s (.kpinOff g a) g [a.toNat] anyCore .holds fun grp s =>
    handleInstr s (grp.headD 0) a fun core i h => .go (s.putHandle core i { h with pin := false }) .next

/-- Whether an accepted command of the core uses a residency. -/
def Core.usesHandle (c : Core) (i : Nat) : Bool :=
  let uses := fun (x : Cmd) => (x.isFill || x.isK) && fld x.b 7 0 == i
  c.engines.queue.any uses || c.engines.current.any uses || c.engines.fill.any uses

/-- KREV (R414): it waits while an accepted MMA or fill uses the residency. -/
def execKrev (g : Guard) (a : Reg) (s : State) : Out :=
  perCrew s (.krev g a) g [a.toNat] anyCore .holds fun grp s =>
    handleInstr s (grp.headD 0) a fun core i h =>
      if h.state = .filling ∨ (s.core core).usesHandle i then .wait
      else .go ((s.putHandle core i h.free).returnKaolin h.ctx (core / Config.coresPerDie) h.region) .next

def ResState.code : ResState → Nat
  | .empty => 1 | .filling => 2 | .valid => 3 | .stale => 4 | .dropped => 5

/-- The word of KSTAT (R241). -/
def kstatWord (h : Handle) : Word :=
  BitVec.ofNat 64 ((h.slot.getD 255) * 2 ^ 32 + (if h.fmt = 6 then h.cbslot else 0) * 2 ^ 26 + boolBit h.scaled * 2 ^ 25
    + h.fmt * 2 ^ 21 + boolBit h.crewFlag * 2 ^ 20 + boolBit h.ar * 2 ^ 19 + boolBit h.pin * 2 ^ 18 + h.state.code)

def execKstat (g : Guard) (d a : Reg) (s : State) : Out :=
  perThread s (.kstat g d a) g [a.toNat, d.toNat] anyCore .runs fun k s =>
    match s.findHandle (s.ctxOf k).asid (s.readReg k a) with
    | none => .go (s.writeReg k d 0) .next
    | some (_, _, h) => .go (s.writeReg k d (kstatWord h)) .next

/-- Whether a context has crews or residencies on a core. -/
def State.contextOn (s : State) (core asid : Nat) : Bool :=
  (s.crewsOn core).any (fun e => e.2.asid == asid) || (s.core core).engines.handles.any fun e => e.2.alloc && e.2.asid == asid

/-- A crew's record of the codebook slots it used (R310). -/
def State.markCb (s : State) (k slot : Nat) : State :=
  if isLat k then s else s.modCrew (crewOf k) fun c => { c with cbSlots := c.cbSlots ||| (1#64 <<< slot) }

/-- The commands of a core that are accepted, with a change to each. -/
def Core.mapCommands (c : Core) (f : Cmd → Cmd) : Core :=
  { c with engines := { c.engines with queue := c.engines.queue.map f, current := c.engines.current.map f } }

/-- CBKLD (R242, R373): an MMA accepted before may read what the slot held. -/
def State.cbkld (s : State) (grp : List Nat) (d a b : Reg) (slot : Nat) : Res :=
  let k := grp.headD 0
  let cv := s.readReg k b
  let addr := s.readReg k a
  let asid := (s.ctxOf k).asid
  if Config.simtCores ≤ cv.toNat then .trap cILLEGAL 0 cv false
  else if addr.toNat % 32 ≠ 0 then .trap cMISALIGN 0 addr false
  else if s.ownPending k (va57 addr) 32 then .wait
  else match s.loadNow k (va57 addr) 32 with
    | (s1, .inr (c, sub)) => .failed s1 c sub (low57 addr)
    | (s1, .inl bs) =>
      let core := cv.toNat
      let old := (s1.core core).engines.codebooks.find slot
      if old.any fun o => o.valid && o.asid != asid && s1.contextOn core o.asid then .go (s1.writeAll grp d 1) .next
      else
        let es := (List.range 16).map fun j => BitVec.ofNat 16 (bytesToNat ((bs.drop (2 * j)).take 2))
        let keep := fun (x : Cmd) => if x.isMma then { x with older := (slot, (old.map (·.entries)).getD []) :: x.older } else x
        let s2 := s1.modCore core fun c =>
          { c.mapCommands keep with engines := { (c.mapCommands keep).engines with
            codebooks := c.engines.codebooks.set slot ⟨es, true, asid⟩ } }
        .go ((s2.markCb k slot).writeAll grp d 0) .next

def execCbkld (g : Guard) (d a b : Reg) (slot : BitVec 6) (s : State) : Out :=
  perCrew s (.cbkld g d a b slot) g [a.toNat, b.toNat, d.toNat] anyCore .holds fun grp s =>
    s.cbkld grp d a b slot.toNat

end Sys2Proof.Machine
end

