-- ==== Sys2Proof/Machine/Matrix.lean ====
section
/-!
DEFINITION. The matrix engine: MMA, its queue and completion, accumulator rings, fidelity (08 R215 to R228; 03 R105 to
R115; 19 R425, R426, R441, R442).
-/
namespace Sys2Proof.Machine

/-! ### Rings (R223 to R228) -/

def ringTail (w : Word) : Nat := fld w 14 12
def ringClosed (w : Word) : Nat := fld w 11 8
def ringWord (head tail closed : Nat) : Word := BitVec.ofNat 64 (head * 2 ^ 16 + tail * 2 ^ 12 + closed * 2 ^ 8)

def State.putRingCtr (s : State) (c : Crew) (k : Nat) (w : Word) : State := s.putRing c k (s.ringCfg c k) w

/-- The head slot is closed (R227). -/
def State.closeHead (s : State) (c : Crew) (k : Nat) : State :=
  let w := s.ringCtr c k
  s.putRingCtr c k (ringWord ((ringHead w + 1) % ringSlots (s.ringCfg c k)) (ringTail w) (ringClosed w + 1))

/-- The tail slot is released (R227). -/
def State.releaseTail (s : State) (c : Crew) (k : Nat) : State :=
  let w := s.ringCtr c k
  s.putRingCtr c k (ringWord (ringHead w) ((ringTail w + 1) % ringSlots (s.ringCfg c k)) (ringClosed w - 1))

/-- Held by the tail (R228). -/
def State.headHeld (s : State) (c : Crew) (k : Nat) : Bool := ringClosed (s.ringCtr c k) == ringSlots (s.ringCfg c k)

def headOffset (cfg ctr : Word) : Nat := ringBase cfg + granule * ringHead ctr
def tailOffset (cfg ctr : Word) : Nat := ringBase cfg + granule * ringTail ctr

/-- Ring granules in use in a bank: (offset, bytes). -/
def State.ringRuns (s : State) (core : Nat) (bank : Bool) : List (Nat × Nat) :=
  ((s.crewsOn core).filter fun e => e.2.bank == bank).flatMap fun e =>
    (List.range 4).filterMap fun k =>
      let w := s.ringCfg e.2 k
      if ringValid w then some (ringBase w, ringSlots w * granule) else none

/-- RADV.CFG (R226). -/
def State.radvCfg (s : State) (grp : List Nat) (d : Reg) (ring : Nat) (ln : Nat) : Res :=
  let k := grp.headD 0
  match s.crewAt k with
  | none => .wait
  | some c =>
    let core := s.core c.core
    let n := 2 ^ ln
    let start := (core.regg + core.scrg) * granule
    if ringValid (s.ringCfg c ring) then .go (s.writeAll grp d 2) .next
    else match findRun start (core.ringg * granule) (n * granule) granule (s.ringRuns c.core c.bank) with
      | none => .go (s.writeAll grp d 1) .next
      | some a =>
        if !s.capsAdmit (s.ctxOf k) (s.dieOf k) (s.regionOf k) (fun _ => 0) n then .go (s.writeAll grp d 3) .next
        else
          let clear := fun (x : Core) => (x.setBank c.bank { (x.bank c.bank).forget a (n * granule) with
            bytes := (x.bank c.bank).bytes.clear a (n * granule) }).goodParity c.bank a (n * granule)
          let s1 := (s.modCore c.core clear).putRing c ring (BitVec.ofNat 64 (2 ^ 63 + ln * 2 ^ 32 + a)) 0
          .go ((s1.chargeLoam (s.ctxOf k) (s.dieOf k) (s.regionOf k) n).writeAll grp d 0) .next

def execRadvCfg (g : Guard) (d : Reg) (ring : BitVec 2) (ln : BitVec 2) (s : State) : Out :=
  perCrew s (.radvCfg g d ring ln) g [d.toNat] simtOnly .holds fun grp s => s.radvCfg grp d ring.toNat ln.toNat

/-- A form on a configured ring; ILLEGAL with the ring number otherwise (R226). A descriptor word of bad parity is read as any
thread instruction reads one (R84). -/
def State.onRing (s : State) (grp : List Nat) (ring : BitVec 2) (f : Crew → Word → Word → Res) : Res :=
  match s.crewAt (grp.headD 0) with
  | none => .wait
  | some c =>
    let cfg := s.ringCfg c ring.toNat
    match s.specBad c (0x7D00 + 32 * ring.toNat) 16 with
    | off :: _ =>
      .failed (s.countParity c.core) cPOISON 0 (BitVec.ofNat 64 ((s.ctxOf (grp.headD 0)).loamva.toNat % 2 ^ 57 + off))
    | [] => if ringValid cfg then f c cfg (s.ringCtr c ring.toNat) else .trap cILLEGAL 0 (ring.setWidth 64) false

/-- RADV enters the queue, and waits while it is full (R442). -/
def execRadv (g : Guard) (ring : BitVec 2) (s : State) : Out :=
  perCrew s (.radv g ring) g [] simtOnly .holds fun grp s =>
    s.onRing grp ring fun c _ _ =>
      if 8 ≤ (s.core c.core).engines.queue.length then .wait
      else .go (s.enqueue c.core (Cmd.new (encode (.radv ⟨0, false⟩ ring)) (crewOf (grp.headD 0)) (rowMask grp) 0 0 0
        (s.thread (grp.headD 0)).pc (s.thread (grp.headD 0)).trap.sup)) .next

def execRadvTail (g : Guard) (d : Reg) (ring : BitVec 2) (s : State) : Out :=
  perCrew s (.radvTail g d ring) g [d.toNat] simtOnly .holds fun grp s =>
    s.onRing grp ring fun _ cfg w =>
      let l := (s.ctxOf (grp.headD 0)).loamva.toNat % 2 ^ 57
      .go (s.writeAll grp d (if ringClosed w = 0 then 0 else BitVec.ofNat 64 (l + tailOffset cfg w))) .next

/-- The release of the tail slot is a release at crew scope: it waits for the threads' Loam accesses (R228). -/
def execRadvRel (g : Guard) (ring : BitVec 2) (s : State) : Out :=
  perCrew s (.radvRel g ring) g [] simtOnly .holds fun grp s =>
    if grp.any s.loamPending then .wait
    else s.onRing grp ring fun c _ w => .go (if ringClosed w = 0 then s else s.releaseTail c ring.toNat) .next

def Cmd.usesRing (x : Cmd) (crew ring : Nat) : Bool := !x.isFill && x.crew == crew && x.ring == ring

def execRadvFree (g : Guard) (ring : BitVec 2) (s : State) : Out :=
  perCrew s (.radvFree g ring) g [] simtOnly .holds fun grp s =>
    s.onRing grp ring fun c cfg _ =>
      let k := grp.headD 0
      let e := (s.core c.core).engines
      let uses := fun (x : Cmd) => x.usesRing (crewOf k) ring.toNat
      if e.queue.any uses || e.current.any uses then .wait
      else
        .go ((s.putRing c ring.toNat 0 0).chargeLoam (s.ctxOf k) (s.dieOf k) (s.regionOf k) (-(ringSlots cfg : Int))) .next

/-! ### Issue of an MMA (R219) -/

/-- An operand record found and checked (R131, R216): its format and scaled bit, unless no page of it resolves. -/
def State.operand (s : State) (k : Nat) (addr : Word) (rows : Nat) : State × (TileRec × Option (Nat × Bool) ⊕ Res) :=
  let w := s.who k
  let off := va57 addr - w.ctx.loamva.toNat % 2 ^ 57
  if addr.toNat % 32 ≠ 0 then (s, .inr (.trap cMISALIGN 0 addr false))
  else if !s.inOwnScratch w (va57 addr, va57 addr + 32) then (s, .inr (.trap cLOAM_BOUNDS 0 addr false))
  else
    let c := s.coreOf k
    let bank := (s.crewAt k).any (·.bank)
    if (s.core c).badIn bank off 32 then (s, .inr (.failed (s.countParity c) cPOISON 0 addr))
    else
      let t := tileOfBytes (s.loamBytes c bank off 32)
      match s.checkRecAttr w t .load true with
      | (s1, _, some e) => (s1, .inr (e.trap addr))
      | (s1, f, none) =>
        if t.rows ≠ rows ∨ t.rowlen ≠ 128 then (s1, .inr (.trap cFORMAT 0 addr false)) else (s1, .inl (t, f))

/-- The codebook slot of a CB4 operand holds a codebook of this context (R219, R242). -/
def State.cbOk (s : State) (core asid slot : Nat) : Bool :=
  match (s.core core).engines.codebooks.find slot with
  | some b => b.valid && b.asid == asid
  | none => false

/-- Pairs of operand formats (R105). -/
def pairAllowed (a b : Nat) : Bool := a == b || ((a == 3 || a == 4) && (b == 3 || b == 4))

/-- Formats against the encoding and each other (R105); `va` and `vb` are the trap values of A and B. A format that no
page gives yet is not compared: its operand faults in translation. -/
def formatTrap (fa fb : Nat) (a b : Option (Nat × Bool)) (va vb : Word) : Option Res :=
  let wrong := fun (f : Option (Nat × Bool)) => f.any fun f => !fmtAllowed f.1 f.2
  let named := fun (n : Nat) (f : Option (Nat × Bool)) => f.any fun f => n != 0 && n != f.1
  if wrong a then some (.trap cFORMAT 0 va false)
  else if wrong b then some (.trap cFORMAT 0 vb false)
  else if a.any fun x => b.any fun y => !pairAllowed x.1 y.1 then some (.trap cFORMAT 0 vb false)
  else if named fa a then some (.trap cFORMAT 0 va false)
  else if named fb b then some (.trap cFORMAT 0 vb false)
  else none

/-- The effective fidelity level (R110). -/
def State.mmaLevel (s : State) (k : Nat) (fid : BitVec 4) : Nat :=
  let cap := s.capOf k
  let own := (s.thread k).fp.fid.toNat
  let req := if fid.toNat < 4 then fid.toNat else if own < 4 then own else cap
  min req cap

/-- An auto-refill of a residency (R243), in the mode of the thread whose MMA finds it: `none` when no slot is free. -/
def State.refill (s : State) (core i : Nat) (h : Handle) (sup : Bool) : Option State :=
  (h.slot.or (s.core core).freeSlot).map fun slot =>
    let c := Cmd.new (kfillWord 0 0 0) noCrew 0 0 0 (BitVec.ofNat 64 (core * 2 ^ 16 + h.gen * 2 ^ 8 + i)) 0 sup
    (s.putHandle core i { h with state := .filling, slot := some slot, touched := false, lines := [] }).enqueue core c

/-- The residency check of MMA.K (R236, R243): its entry, or what happens instead. A refill translates its source as
KFILL by this thread would; `full` says that the queue has no room for it at issue. DESIGN CHOICE (log 59): a residency with
auto-refill that was dropped before any KFILL has no source to read again, which the spec does not speak of; its record reads as
zeros. -/
def State.residency (s : State) (k : Nat) (hv : Word) (full : Bool) : (Nat × Handle) ⊕ Res :=
  match s.findHandle (s.ctxOf k).asid hv with
  | none => .inr (.trap cRES_HANDLE 0 hv false)
  | some (core, i, h) =>
    if core ≠ s.coreOf k then .inr (.trap cRES_HANDLE 0 hv false)
    else match h.state with
      | .valid => .inl (i, h)
      | .filling => .inr .wait
      | .empty => .inr (.trap cRES_STALE 0 hv false)
      | .stale | .dropped =>
        if !h.ar then .inr (.trap cRES_STALE 0 hv false)
        else match s.translateRec { s.who k with ctx := h.ctx } h.record (h.fmt, h.scaled) .load with
          | (_, some (c, sub, a)) => .inr (.trap c sub (BitVec.ofNat 64 a) false)
          | (s1, none) =>
            if full then .inr .wait
            else match s1.refill core i h (s.thread k).trap.sup with
              | none => .inr (.trap cRES_STALE 0 hv false)
              | some s2 => .inr (.go s2 .stay)

/-- The engine queue of a core has no room (R220). -/
def State.queueFull (s : State) (core : Nat) : Bool := decide (8 ≤ (s.core core).engines.queue.length)

/-- The bytes of a record's rows and scales as the tile fetch unit would read them now (R209). -/
def State.operandBytes (s : State) (w : Who) (t : TileRec) (f : Nat × Bool) (rows : List Nat) : List (List Byte) :=
  rows.flatMap fun r => [(s.tileRow w t r).2.1, if f.2 then (s.tileScales w t f.1 r).2.1 else []]

/-- The bytes of a record, words of bad parity as zeros (R222). -/
def State.recordBytes (s : State) (w : Who) (bank : Bool) (a : Word) : State × List Byte × List Nat :=
  s.engineLoam w.agent (va57 a - w.ctx.loamva.toNat % 2 ^ 57) 32 (.bytes bank)

/-- Each accepted MMA of a crew takes note of the bytes of its accumulator slot, the head slot, as they stand now (R209). -/
def State.noteSlots (s : State) (core crew : Nat) : State :=
  match s.crews.find crew with
  | none => s
  | some cr =>
    let note := fun (c : Cmd) => if c.crew == crew && c.isMma then
      { c with slotEarly := s.loamBytes core cr.bank (headOffset (s.ringCfg cr c.ring) (s.ringCtr cr c.ring)) granule } else c
    s.modCore core fun k => { k with engines := { k.engines with queue := k.engines.queue.map note } }

/-- Acceptance of a checked MMA (R219, R220). -/
def State.acceptMma (s : State) (grp : List Nat) (c : Cmd) : Res :=
  let core := s.coreOf (grp.headD 0)
  if s.queueFull core ∨ grp.any (fun j => decide (15 ≤ (s.thread j).oc.tile) || s.ordersPending j) then .wait
  else .go (((s.enqueue core c).noteSlots core c.crew).raiseTile grp) .next

/-- The B operand of an MMA: a record, or a residency by its entry. -/
abbrev OperandB := TileRec ⊕ Handle

/-- What follows the checks of the operands themselves (R219): formats and codebooks, then the translation of A's pages
and B's, the level, and the queue. -/
def State.mmaRest (s : State) (grp : List Nat) (word : Word) (m : MmaFields) (va vb : Word) (ta : TileRec)
    (fA : Option (Nat × Bool)) (b : OperandB) (fB : Option (Nat × Bool)) : Res :=
  let k := grp.headD 0
  let w := s.who k
  let core := s.coreOf k
  let cbB := match b with
    | .inl t => t.cbslot
    | .inr h => h.cbslot
  match formatTrap m.fa.toNat m.fb.toNat fA fB va vb with
  | some r => r
  | none =>
    if fA.any (·.1 == 6) && !s.cbOk core w.ctx.asid ta.cbslot then .trap cFORMAT 0 va false
    else if fB.any (·.1 == 6) && !s.cbOk core w.ctx.asid cbB then .trap cFORMAT 0 vb false
    else match s.translateRec w ta (fA.getD (ta.fmt, ta.scaled)) .load with
      | (_, some (c, sub, a)) => .trap c sub (BitVec.ofNat 64 a) false
      | (s1, none) =>
        let r := match b with
          | .inl t => s1.translateRec w t (fB.getD (t.fmt, t.scaled)) .load
          | .inr _ => (s1, none)
        match r with
        | (_, some (c, sub, a)) => .trap c sub (BitVec.ofNat 64 a) false
        | (s2, none) =>
          let s3 := if fA.any (·.1 == 6) then (s2.markCb k ta.cbslot).markCb k cbB else s2
          let bank := (s3.crewAt k).any (·.bank)
          let early := (s3.recordBytes w bank va).2.1 :: (match b with
              | .inl _ => (s3.recordBytes w bank vb).2.1
              | .inr _ => []) :: s3.operandBytes w ta (s3.recFormat w ta) (lanesOf (rowMask grp)) ++
            (match b with
              | .inl t => s3.operandBytes w t (s3.recFormat w t) (List.range 128)
              | .inr _ => [])
          let c := Cmd.new word (crewOf k) (rowMask grp) (s3.mmaLevel k m.fid) va vb (s3.thread k).pc w.sup
          s3.acceptMma grp { c with early := early }

/-- MMA.T for one crew. -/
def State.mmaT (s : State) (grp : List Nat) (word : Word) (m : MmaFields) (a b : Reg) : Res :=
  let k := grp.headD 0
  s.onRing grp m.ring fun _ _ _ =>
    let va := s.readReg k a
    let vb := s.readReg k b
    match s.operand k va 32 with
    | (_, .inr r) => r
    | (s1, .inl (ta, fA)) =>
      match s1.operand k vb 128 with
      | (_, .inr r) => r
      | (s2, .inl (tb, fB)) => s2.mmaRest grp word m va vb ta fA (.inl tb) fB

/-- MMA.K for one crew. -/
def State.mmaK (s : State) (grp : List Nat) (word : Word) (m : MmaFields) (a b : Reg) : Res :=
  let k := grp.headD 0
  s.onRing grp m.ring fun _ _ _ =>
    let va := s.readReg k a
    let vb := s.readReg k b
    match s.operand k va 32 with
    | (_, .inr r) => r
    | (s1, .inl (ta, fA)) =>
      match s1.residency k vb (s1.queueFull (s1.coreOf k)) with
      | .inr r => r
      | .inl (_, h) => s1.mmaRest grp word m va vb ta fA (.inr h) (some (h.fmt, h.scaled))

/-- Only the elected lane's registers are read (R217). -/
def execMmaT (g : Guard) (m : MmaFields) (a b : Reg) (s : State) : Out :=
  perCrew s (.mmaT g m a b) g [a.toNat, b.toNat] simtOnly .holds fun grp s =>
    s.mmaT grp (encode (.mmaT g m a b)) m a b

def execMmaK (g : Guard) (m : MmaFields) (a b : Reg) (s : State) : Out :=
  perCrew s (.mmaK g m a b) g [a.toNat, b.toNat] simtOnly .holds fun grp s =>
    s.mmaK grp (encode (.mmaK g m a b)) m a b

/-! ### The queue (R220) -/

/-- The level at which an MMA runs: exact while its die is hot (R109). -/
def State.runLevel (s : State) (core : Nat) (c : Cmd) : Nat :=
  if (s.die (core / Config.coresPerDie)).hot then 0 else c.level

/-- The two cases in which a command is passed over (R220): its ring has no free head slot, or its residency is
filling. -/
def State.passedOver (s : State) (core : Nat) (c : Cmd) : Bool :=
  !c.isFill && match s.crews.find c.crew with
    | none => true
    | some cr => s.headHeld cr c.ring || (c.isK && ((s.core core).handle (fld c.b 7 0)).state == .filling)

/-- Whether the unit that performs a command is idle: fills run beside MMAs. -/
def State.unitIdle (s : State) (core : Nat) (c : Cmd) : Bool :=
  let e := (s.core core).engines
  if c.isFill then e.fill.isNone else e.current.isNone

/-- The command that starts next: in order of acceptance, other crews' commands going past one that is passed over. -/
def State.nextCmd (s : State) (core : Nat) : Option Cmd :=
  if s.halted then none else go (s.core core).engines.queue []
where
  go : List Cmd → List Nat → Option Cmd
    | [], _ => none
    | c :: cs, passed =>
      if passed.contains c.crew then go cs passed
      else if s.passedOver core c then go cs (c.crew :: passed)
      else if s.unitIdle core c then some c else none

def State.dequeueCmd (s : State) (core : Nat) (c : Cmd) : State :=
  s.modCore core fun k => { k with engines := { k.engines with queue := k.engines.queue.erase c } }

def State.setCurrent (s : State) (core : Nat) (c : Option Cmd) : State :=
  s.modCore core fun k => { k with engines := { k.engines with current := c } }

def State.setFill (s : State) (core : Nat) (c : Option Cmd) : State :=
  s.modCore core fun k => { k with engines := { k.engines with fill := c } }

def execMmaStart (core : Nat) (s : State) : Out :=
  .next (match s.nextCmd core with
    | some c =>
      if c.isMma && s.runLevel core c == (s.core core).engines.railLevel then
        let slot := if c.isK then ((s.core core).handle (fld c.b 7 0)).slot else none
        (s.dequeueCmd core c).setCurrent core (some { c with slot := slot, ran := s.runLevel core c })
      else s
    | none => s)

/-- The rails settle at the level of the MMA that waits to start (R112). -/
def execHorizonRailSwitch (core : Nat) (s : State) : Out :=
  .next (match s.nextCmd core with
    | some c =>
      if c.isMma then
        s.modCore core fun k => { k with engines := { k.engines with railLevel := s.runLevel core c } }
      else s
    | none => s)

/-- A started RADV closes the head slot (R227, R442). -/
def execRadvCloseStart (core : Nat) (s : State) : Out :=
  .next (match s.nextCmd core with
    | some c =>
      match s.crews.find c.crew with
      | some cr => if c.isRadv then ((((s.dequeueCmd core c).countSpec cr (0x7D00 + 32 * c.ring) 16).closeHead cr c.ring).noteSlots core c.crew).reapCrew c.crew else s
      | none => s
    | none => s)

def execFillStart (core : Nat) (s : State) : Out :=
  .next (match s.nextCmd core with
    | some c => if c.isFill then ((s.dequeueCmd core c).setFill core (some c)).fillRead core (fld c.b 7 0) else s
    | none => s)

def execFillCompletion (core : Nat) (s : State) : Out :=
  .next (match (s.core core).engines.fill with
    | some c => ((s.fillDone core c).setFill core none).reapCrew c.crew
    | none => s)

/-! ### Completion (R219, R106, R108, R113) -/

/-- Bytes read at two instants, one or the other of each that differs (R209): the free values start at `base`. -/
def mixBytes (base : Nat) (early late : List Byte) : List Byte :=
  late.zipIdx.map fun e => let o := early.getD e.2 e.1; if o = e.1 ∨ (Config.freeValue (base + e.2)).getLsbD 0 then e.1 else o

/-- The entries of a codebook as an MMA reads them: of each, the present one or one that a CBKLD replaced since the MMA
was accepted (R242). -/
def Core.bookFor (core : Core) (c : Cmd) (slot base : Nat) : List (BitVec 16) :=
  let now := ((core.engines.codebooks.find slot).map (·.entries)).getD []
  let old := (c.older.filter fun e => e.1 == slot).map (·.2)
  now.zipIdx.map fun e => match old[(Config.freeValue (base + e.2)).toNat % (old.length + 1)]? with
    | some o => o.getD e.2 e.1
    | none => e.1

/-- Rows of an operand as values, with the zeroed lines and words; `early` are its bytes at acceptance. -/
def State.operandVals (s : State) (w : Who) (cb : List (BitVec 16)) (t : TileRec) (f : Nat × Bool) (rows : List Nat)
    (early : List (List Byte)) : State × List (Nat × List FVal) × List Nat :=
  rows.zipIdx.foldl (fun (q : State × List (Nat × List FVal) × List Nat) e =>
    let d := q.1.tileRow w t e.1
    let sc : State × List Byte × List Nat := if f.2 then d.1.tileScales w t f.1 e.1 else (d.1, [], [])
    let row := mixBytes sc.1.free (early.getD (2 * e.2) []) d.2.1
    let scales := mixBytes (sc.1.free + 128) (early.getD (2 * e.2 + 1) []) sc.2.1
    ({ sc.1 with free := sc.1.free + 256 }, q.2.1 ++ [(e.1, rowVals f.1 f.2 cb row scales)], q.2.2 ++ d.2.2.1 ++ sc.2.2))
    (s, [], [])

/-- The columns of the slot that an MMA.K reads, as values. -/
def residentVals (c : Core) (slot : Nat) (cb : List (BitVec 16)) (h : Handle) : List (List FVal) :=
  let k := c.engines.kslots.get slot ⟨[], []⟩
  (List.range 128).map fun j =>
    rowVals h.fmt h.scaled cb (k.data.bytes (128 * j) 128) (k.scales.bytes (16 * j) 16)

/-- The error of horizon h in a block (R107, R108): a free value of magnitude below 2^12 at a level that lets the horizon
err, or where a soft error falls (R113); zero otherwise. -/
def horizonErr (level h : Nat) (soft : Bool) (free : Word) : Int :=
  if h < level || soft then (free.toNat % 8191 : Int) - 4095 else 0

/-- Counts of four horizons. -/
structure Misses where
  h0 : Nat
  h1 : Nat
  h2 : Nat
  h3 : Nat
  deriving DecidableEq, Repr

def Misses.add (a b : Misses) : Misses := ⟨a.h0 + b.h0, a.h1 + b.h1, a.h2 + b.h2, a.h3 + b.h3⟩

/-- One element through its K-blocks (R106): the accumulator, and the mismatches of the four horizons' checkers, which run
at every level (R113). `soft` is the horizon in which the first block takes a soft error. DESIGN CHOICE (log 5): R113 says
neither where a soft error falls nor how large it is; one falls in the first K-block of the first column of the first row of the
next MMA, with a magnitude of at most 4095 units of its horizon. -/
def elementSum (int8 : Bool) (level : Nat) (soft : Option Nat) (free : Nat → Word) (as bs : List FVal) (acc : BitVec 32) :
    BitVec 32 × Misses :=
  (List.range (as.length / 16)).foldl (fun (q : BitVec 32 × Misses) b =>
    let ps := (List.range 16).map fun k => exactMul (as.getD (16 * b + k) (.fin false 0 0)) (bs.getD (16 * b + k) (.fin false 0 0))
    let blk := blockOf int8 ps
    let e : Nat → Int := fun h => match blk with
      | .special _ => 0
      | .sum _ _ => horizonErr level h (b == 0 && soft == some h) (free (4 * b + h))
    let miss : Nat → Nat := fun h => if e h % 7 = 0 then 0 else 1
    (accAdd q.1 (blk.value (e 0 + e 1 * 2 ^ 12 + e 2 * 2 ^ 24 + e 3 * 2 ^ 36)), q.2.add ⟨miss 0, miss 1, miss 2, miss 3⟩))
    (acc, ⟨0, 0, 0, 0⟩)

def clamp48 (n : Nat) : Nat := min n (2 ^ 48 - 1)

def CoreCounters.addMisses (c : CoreCounters) (m : Misses) : CoreCounters :=
  { c with hzc0 := clamp48 (c.hzc0 + m.h0), hzc1 := clamp48 (c.hzc1 + m.h1), hzc2 := clamp48 (c.hzc2 + m.h2),
           hzc3 := clamp48 (c.hzc3 + m.h3) }

/-- One row of the result written into the slot; the free values of the row start at `base`. Slot words of bad parity read
zero and are counted (R222); a byte that the program changed while the MMA was accepted, `early` before it, is read old or new
(R209). -/
def State.mmaRow (s : State) (cr : Crew) (slot : Nat) (z int8 : Bool) (level : Nat) (soft : Option Nat) (base : Nat)
    (early : List Byte) (as : List FVal) (cols : List (List FVal)) (row : Nat) : State :=
  let old : State × List Byte × List Nat := if z then (s, [], []) else s.engineLoam cr.core (slot + 512 * row) 512 (.bytes cr.bank)
  let accs := mixBytes (base + 8192) ((early.drop (512 * row)).take 512) old.2.1
  let elems := (List.range 128).map fun j =>
    let acc : BitVec 32 := if z then 0 else BitVec.ofNat 32 (bytesToNat ((accs.drop (4 * j)).take 4))
    elementSum int8 level (if j = 0 then soft else none) (fun n => Config.freeValue (base + 64 * j + n)) as (cols.getD j []) acc
  let s1 := old.1.putLoam cr.core cr.bank (slot + 512 * row) (elems.flatMap fun e => natBytes 4 e.1.toNat)
  let miss := elems.foldl (fun (m : Misses) e => m.add e.2) ⟨0, 0, 0, 0⟩
  s1.modCore cr.core fun c => { c with counters :=
    { c.counters.addMisses miss with poison := clamp48 (c.counters.poison + old.2.2.length) } }

/-- The records, the operands and the accumulator slot are read again, each byte that changed since acceptance old or new
(R209), and the head slot's rows of the row set updated, at the level at which the rails stood when the MMA started, or exactly
while the die is hot (R109); ADV closes the slot; oc.tile falls (R219). -/
def State.completeMma (s : State) (core : Nat) (c : Cmd) (cr : Crew) : State :=
  let w : Who := { agent := core, ctx := (s.core core).ctxOf cr.asid, sup := c.sup, lat := false, crew := c.crew, seq := cr.seq }
  let recAt := fun (s : State) (a : Word) (early : List Byte) =>
    let r := s.recordBytes w cr.bank a
    ({ r.1 with free := r.1.free + 32 }, tileOfBytes (mixBytes r.1.free early r.2.1), r.2.2)
  let ra := recAt s c.a (c.early.getD 0 [])
  let ta := ra.2.1
  let fA := ra.1.recFormat w ta
  let rows := lanesOf c.rows
  let books := fun (slot : Nat) => (s.core core).bookFor c slot ra.1.free
  let qa := ({ ra.1 with free := ra.1.free + 16 }).operandVals w (books ta.cbslot) ta fA rows (c.early.drop 2)
  let qb : State × List (List FVal) × List Nat :=
    if c.isK then
      let h := (s.core core).handle (fld c.b 7 0)
      (qa.1, residentVals (s.core core) (c.slot.getD 64) (books h.cbslot) h, [])
    else
      let rb := recAt qa.1 c.b (c.early.getD 1 [])
      let tb := rb.2.1
      let q := rb.1.operandVals w (books tb.cbslot) tb (rb.1.recFormat w tb) (List.range 128) (c.early.drop (2 + 2 * rows.length))
      (q.1, q.2.1.map (·.2), rb.2.2 ++ q.2.2)
  let level := if (s.die (core / Config.coresPerDie)).hot then 0 else c.ran
  let soft := (s.core core).soft
  let s0 := qb.1
  let slot := headOffset (s0.ringCfg cr c.ring) (s0.ringCtr cr c.ring)
  let s1 := (qa.2.1.zipIdx).foldl (fun (s : State) e =>
    s.mmaRow cr slot (bitAt c.word 22) (fA.1 == 5) level (if e.2 = 0 then soft else none) (s0.free + 8704 * e.1.1) c.slotEarly
      e.1.2 qb.2.1 e.1.1) s0
  let s2 := { s1 with free := s1.free + 8704 * 32 }
  let zeros := (ra.2.2 ++ qa.2.2 ++ qb.2.2).dedup.length + (s.specBad cr (0x7D00 + 32 * c.ring) 16).length
  let s3 := (s2.countSpec cr (0x7D00 + 32 * c.ring) 16).modCore core fun k =>
    { k with soft := none, counters := { k.counters with poison := clamp48 (k.counters.poison + zeros) } }
  let s4 := if bitAt c.word 21 then s3.closeHead cr c.ring else s3
  (s4.noteSlots core c.crew).lowerTile c.threads

def execMmaCompletion (core : Nat) (s : State) : Out :=
  .next (match (s.core core).engines.current with
    | none => s
    | some c =>
      match s.crews.find c.crew with
      | none => s.setCurrent core none
      | some cr => ((s.completeMma core c cr).setCurrent core none).reapCrew c.crew)

end Sys2Proof.Machine
end

