-- ==== Sys2Proof/Machine/Engine.lean ====
section
/-!
DEFINITION. Command chains: ENGO and ENGQ, the chain header, running an entry, and the entries common to all engines and
of the copy engine (04 R136 to R144; 17 R379 to R382).
-/
namespace Sys2Proof.Machine

/-! ### Chains -/

def Tiles.none : Tiles := ⟨false, [], Option.none, [], []⟩

def Chain.lat (c : Chain) : Bool := decide (384 ≤ c.unit)

/-- On whose behalf a chain acts. -/
def State.chainWho (s : State) (c : Chain) : Who :=
  match c.crew.bind s.crews.find with
  | some cr => { agent := cr.core, ctx := (s.core cr.core).ctxOf cr.asid, sup := c.sup, lat := false,
                 crew := c.crew.getD 0, seq := cr.seq }
  | none => { agent := 513 + (c.unit - 384), ctx := c.ctx, sup := c.sup, lat := true, crew := 0, seq := 0 }

/-- Window address of a crew's scratch, or the chain's own address on a latency core: offsets count from it (R136,
R335). -/
def State.chainBase (s : State) (c : Chain) : Nat :=
  match c.crew.bind s.crews.find with
  | some cr => s.windowAddr cr 0
  | none => va57 c.addr

/-- Bytes that offsets may reach. -/
def State.chainArea (s : State) (c : Chain) : Nat :=
  match c.crew.bind s.crews.find with
  | some cr => cr.lsg * granule
  | none => 2 ^ 22

/-- Offset of the header. -/
def State.headerOff (s : State) (c : Chain) : Nat := va57 c.addr - s.chainBase c

/-- Cause of a failed entry for a fault of its access (R138). -/
def chainCause (cause : Nat) : Nat := if cause = cLOAM_BOUNDS then 0x02 else if cause = cPAGE_PERM then 0x04 else 0x03

/-- `n` bytes at an offset of the chain's area: bytes and zeroed words, or a cause. -/
def State.areaGet (s : State) (c : Chain) (off n : Nat) : State × (List Byte × Nat ⊕ Nat) :=
  if s.chainArea c < off + n then (s, .inr 0x02)
  else match s.engineGet (s.chainWho c) (s.chainBase c + off) n with
    | (s1, _, _, some f) => (s1, .inr (chainCause f.1))
    | (s1, bs, z, none) => (s1, .inl (bs, z.dedup.length))

/-- Bytes put at an offset of the chain's area. -/
def State.areaPut (s : State) (c : Chain) (off : Nat) (bs : List Byte) : State :=
  if s.chainArea c < off + bs.length then s
  else (s.enginePut (s.chainWho c) hwAgent (s.chainBase c + off) bs).1

def wordOf (bs : List Byte) (off : Nat) : Word := BitVec.ofNat 64 (bytesToNat ((bs.drop off).take 8))

/-- The status word (R136). -/
def Chain.status (c : Chain) : Word :=
  BitVec.ofNat 64 (c.idx % 65536 * 2 ^ 48 + c.cause * 2 ^ 40 + min c.zsub 65535 * 2 ^ 24 + c.state)

/-- Status word, fault address and bytes completed, written by the engine. -/
def State.writeHeader (s : State) (c : Chain) : State :=
  s.areaPut c (s.headerOff c) (wordsBytes [c.status, c.fault, BitVec.ofNat 64 c.done])

def State.putChain (s : State) (id : Nat) (c : Chain) : State := { s with chains := s.chains.set id c }

/-- Whether a chain is next on its engine among its crew's or thread's chains (R142), and its crew stands in its slot. -/
def State.chainTurn (s : State) (id : Nat) (c : Chain) : Bool :=
  (match c.crew with
    | some k => match s.crews.find k with
      | some cr => cr.place == .resident
      | none => false
    | none => true)
  && !s.halted
  -- the epilogue engine runs four chains at once (R229)
  && (c.engine != 1 || (c.state != 0 && c.state != 5) || decide (((s.chains.filter fun e => e.2.engine == 1 && e.2.unit == c.unit
      && (e.2.state == 1 || e.2.state == 2)).length) < 4))
  && s.chains.all fun e => decide (id ≤ e.1) || e.2.engine != c.engine || e.2.unit != c.unit || e.2.crew != c.crew
      || (c.crew.isNone && e.2.counting != c.counting)

/-- What an entry does. -/
inductive EntryRes where
  | go (s : State) (c : Chain)
  /-- blocked on a buffer or ring, with the words of its descriptor read as zero -/
  | block (s : State) (zsub : Nat)
  | fail (s : State) (cause : Nat) (fault : Nat) (done : Nat) (zsub : Nat)
  /-- not its turn yet: nothing happens -/
  | skip

/-- Types that an engine runs (R137). -/
def typeAllowed (engine ty : Nat) : Bool :=
  ty == 1 || ty == 5 || ty == 6 || ty == 7
    || (engine == 0 && decide (2 ≤ ty) && decide (ty ≤ 4))
    || (engine == 1 && decide (0x10 ≤ ty) && decide (ty ≤ 0x16))
    || (engine == 2 && decide (0x20 ≤ ty) && decide (ty ≤ 0x22))

/-- The bits of the four words that an entry type defines (R139, R140, R230, R337). DESIGN CHOICE (log 49): COPY has no
ITAB, so a nonzero ITAB of it is reserved; IF accepts the fields of its other KIND. -/
def entryMask (ty : Nat) : Word × Word × Word × Word :=
  let o : Word := 0x3FFFFF
  match ty with
  | 0x01 => (0xFF, 0, 0, 0)
  | 0x02 => (0x1FFF, o, o, 0)
  | 0x03 | 0x04 => (0x1FFF, o, o, o)
  | 0x05 => (0xFFFF01FF, 0xFFFFFFFF, 0xFFFFFFFF, 0)
  | 0x06 => (0xFFFFFFFF, o, BitVec.allOnes 64, 0)
  | 0x07 => (0x1FFF, o, BitVec.allOnes 64, 0)
  | 0x10 => (0x7FF, 0, 0, 0)
  | 0x11 => (0x3FF, 0, 0, 0)
  | 0x12 | 0x13 => (0xFF, o, 0, 0)
  | 0x14 => (0x3FF, o, BitVec.allOnes 64, 0xFF)
  | 0x15 => (0x3FFFFF, 0, 0, 0)
  | 0x16 => (0xFF, o, 0, 0)
  | 0x20 => (0xFFFFFF01FF, o, BitVec.allOnes 64, 0)
  | 0x21 | 0x22 => (0xFFFF05FF, o, 0x1FFFFFFFFFFFFFF, 0)
  | _ => (0, 0, 0, 0)

def entryReserved (ty : Nat) (w0 w1 w2 w3 : Word) : Bool :=
  let m := entryMask ty
  w0 &&& ~~~m.1 != 0 || w1 &&& ~~~m.2.1 != 0 || w2 &&& ~~~m.2.2.1 != 0 || w3 &&& ~~~m.2.2.2 != 0

/-- A failed entry stops its chain (R143). -/
def State.failEntry (s : State) (id : Nat) (c : Chain) (cause fault done zsub : Nat) : State :=
  s.putChain id { c with state := 4, cause := cause, fault := BitVec.ofNat 64 fault, done := done, zsub := c.zsub + zsub }

/-- The entry of type `ty` at IDX, read when it is reached (R141): the row of another type is not taken. DESIGN CHOICE
(log 49): R136 does not say when the engine writes STATE and IDX of a chain that runs or is blocked into the header; the status
word in Loam stays zero from the start of the chain until it ends or stops. -/
def runEntry (s : State) (id ty : Nat) (body : State → Chain → Word × Word × Word × Word → EntryRes) : Out :=
  .next (match s.chains.find id with
  | none => s
  | some c0 =>
    if (c0.state != 0 && c0.state != 1) || !s.chainTurn id c0 then s
    else
      -- the engine writes the header as zero before it reads entry 0 (R136)
      let first := c0.state == 0
      let c := { c0 with state := 1 }
      let s1 := if first then s.areaPut c (s.headerOff c) (List.replicate 24 0) else s
      let off := s.headerOff c + 32 + 32 * c.idx
      if 65535 < c.idx then s1.failEntry id c 0x01 off 0 0
      else match s1.areaGet c off 32 with
        | (s2, .inr cause) => s2.failEntry id c cause off 0 0
        | (s2, .inl (bs, z)) =>
          let w0 := wordOf bs 0
          let t := fld w0 7 0
          let ws := (w0, wordOf bs 8, wordOf bs 16, wordOf bs 24)
          if !typeAllowed c.engine t || entryReserved t ws.1 ws.2.1 ws.2.2.1 ws.2.2.2 then s2.failEntry id c 0x01 off 0 z
          else if t ≠ ty then s
          else match body s2 { c with zsub := c.zsub + z } ws with
            | .go s3 c' => s3.putChain id c'
            | .block s3 zs => s3.putChain id { c with state := 2, zsub := c.zsub + zs }
            | .fail s3 cause fault done zs => s3.failEntry id c cause fault done (z + zs)
            | .skip => s)

def Chain.next (c : Chain) : Chain := { c with idx := c.idx + 1 }

/-! ### ENGO and ENGQ -/

/-- ENGO for one crew, or one latency thread (R380); a release, which comes after every earlier access (R207). -/
def State.engo (s : State) (grp : List Nat) (engine ld : Nat) (sc : Scope) (a : Reg) : Res :=
  let k := grp.headD 0
  let addr := s.readReg k a
  let w := s.who k
  let unit := if engine = 2 then 384 + ld else s.coreOf k
  let counting := grp.map s.countKey
  let mine := if isLat k then s.chains.filter fun e => e.2.crew.isNone && e.2.counting == counting else s.chainsOf (crewOf k)
  if addr.toNat % 32 ≠ 0 then .trap cMISALIGN 0 addr false
  else if !isLat k && !s.inOwnScratch w (va57 addr, va57 addr + 32) then .trap cLOAM_BOUNDS 0 addr false
  else if grp.any (fun j => decide (15 ≤ (s.thread j).oc.cp) || !(s.pendingOf j).isEmpty) ∨ 16 ≤ mine.length then .wait
  else
    let c : Chain :=
      { engine := engine, unit := unit, addr := low57 addr, crew := if isLat k then none else some (crewOf k),
        counting := counting, asid := w.ctx.asid, sup := w.sup, ctx := w.ctx, scope := sc, state := 0, idx := 0,
        order := s.nxt.chain, cause := 0, zsub := 0, fault := 0, done := 0, tiles := .none }
    let s1 := grp.foldl (fun s j => s.modThread j fun t => { t with oc := { t.oc with cp := t.oc.cp + 1 } }) s
    .go { s1 with chains := s1.chains.set s1.nxt.chain c, nxt := { s1.nxt with chain := s1.nxt.chain + 1 } } .next

def execEngoCopy (g : Guard) (sc : Scope) (a : Reg) (s : State) : Out :=
  perCrew s (.engoCopy g sc a) g [a.toNat] simtOnly .holds fun grp s => s.engo grp 0 0 sc a
def execEngoEpi (g : Guard) (sc : Scope) (a : Reg) (s : State) : Out :=
  perCrew s (.engoEpi g sc a) g [a.toNat] simtOnly .holds fun grp s => s.engo grp 1 0 sc a
def execEngoNet (g : Guard) (die1 : Bool) (sc : Scope) (a : Reg) (s : State) : Out :=
  perCrew s (.engoNet g die1 sc a) g [a.toNat] anyCore .holds fun grp s => s.engo grp 2 (boolBit die1) sc a

/-- A chain that the thread started, or its crew on a SIMT core (R382). -/
def State.ownChain (s : State) (k : Nat) (c : Chain) : Bool :=
  c.counting.contains (s.countKey k) || (!isLat k && c.crew == some (crewOf k))

/-- The status of a chain as the engine holds it: one that has reached its end and has not ended, since packets of it are not
acknowledged, is running (R338, R382). -/
def Chain.shown (c : Chain) : Chain := if c.state == 3 || c.state == 4 then { c with state := 1, cause := 0 } else c

/-- ENGQ: the status word as the engine holds it, or the eight bytes at A (R382). -/
def execEngq (g : Guard) (d a : Reg) (s : State) : Out :=
  perThread s (.engq g d a) g [a.toNat, d.toNat] anyCore .runs fun k s =>
    let addr := s.readReg k a
    let w := s.who k
    if addr.toNat % 32 ≠ 0 then .trap cMISALIGN 0 addr false
    else if !isLat k && !s.inOwnScratch w (va57 addr, va57 addr + 8) then .trap cLOAM_BOUNDS 0 addr false
    else
      match s.chains.find? fun e => e.2.addr == low57 addr && s.ownChain k e.2 with
      | some e => .go (s.writeReg k d e.2.shown.status) .next
      | none => match s.loadNow k (va57 addr) 8 with
        | (s1, .inl bs) => .go (s1.writeReg k d (wordOf bs 0)) .next
        | (s1, .inr (c, sub)) => .failed s1 c sub (low57 addr)

/-! ### Entries of all engines (R140) -/

def execEndEntry (chain : Nat) (s : State) : Out :=
  runEntry s chain 0x01 fun s c _ => .go s { c with state := 3 }

/-- LOOP keeps ARMED and REMAIN in its entry. -/
def execLoop (chain : Nat) (s : State) : Out :=
  runEntry s chain 0x05 fun s c (w0, w1, w2, _) =>
    let off := s.headerOff c + 32 + 32 * c.idx
    let back := fld w0 31 16
    if back = 0 ∨ c.idx < back then .fail s 0x01 off 0 0
    else
      let remain := if bitAt w0 8 then fld w2 31 0 else fld w1 31 0
      let store := fun (armed : Bool) (n : Nat) =>
        (s.areaPut c off (natBytes 8 (setFld w0 8 8 (boolBit armed)).toNat)).areaPut c (off + 16) (natBytes 8 (setFld w2 31 0 n).toNat)
      if 0 < remain then .go (store true (remain - 1)) { c with idx := c.idx - back }
      else .go (store false 0) c.next

/-- The crew of a chain and a buffer of it that every use accepts (R134). -/
def State.chainBuffer (s : State) (c : Chain) (k : Nat) : Option (Crew × Word × Word) :=
  match c.crew.bind s.crews.find with
  | some cr => if cbValid cr (s.cbCfg cr k) then some (cr, s.cbCfg cr k, s.cbCtr cr k) else none
  | none => none

/-- The words of bad parity in a descriptor of the chain's crew that the engine reads: each is counted and read as zero (R84,
R143). -/
def State.countChain (s : State) (c : Chain) (off : Nat) : State × Nat :=
  match c.crew.bind s.crews.find with
  | some cr => (s.countSpec cr off 16, (s.specBad cr off 16).length)
  | none => (s, 0)

def cmpHolds (cmp x y : Nat) : Bool :=
  match cmp with
  | 0 => x == y
  | 1 => x != y
  | 2 => decide (y ≤ x)
  | _ => decide (x < y)

def execIfEntry (chain : Nat) (s : State) : Out :=
  runEntry s chain 0x06 fun s c (w0, w1, w2, _) =>
    let go := fun (s : State) (z x y : Nat) =>
      let idx := if cmpHolds (fld w0 15 14) x y then c.idx + 1 else c.idx + 1 + fld w0 31 16
      EntryRes.go s { c with idx := idx, zsub := c.zsub + z }
    if bitAt w0 8 then
      let off := fld w1 21 0
      if off % 8 ≠ 0 then .fail s 0x05 off 0 0
      else match s.areaGet c off 8 with
        | (s1, .inr cause) => .fail s1 cause off 0 0
        | (s1, .inl (bs, z)) => go s1 z (wordOf bs 0).toNat w2.toNat
    else
      let q := s.countChain c (cbOffset (fld w0 12 9))
      match s.chainBuffer c (fld w0 12 9) with
      | none => .fail q.1 0x02 (s.headerOff c + 32 + 32 * c.idx) 0 q.2
      | some (_, _, w) => go q.1 q.2 (if bitAt w0 13 then cbFilled w else cbFree w) (fld w2 15 0)

/-- Rows of an NGET of the chain have not been placed yet. -/
def State.gettingRows (s : State) (chain : Nat) : Bool := s.packets.any fun e => e.2.chain == chain && e.2.kind == 0x22 && !e.2.acked

/-- SIGNAL, a release of the engine's earlier writes, those of NGET entries among them, for which it waits (R207). DESIGN CHOICE
(log 49): with KIND = 0 a nonzero word 2 is reserved. -/
def execSignal (chain : Nat) (s : State) : Out :=
  runEntry s chain 0x07 fun s c (w0, w1, w2, _) =>
    let here := s.headerOff c + 32 + 32 * c.idx
    if s.gettingRows chain then .skip
    else if bitAt w0 8 then
      let off := fld w1 21 0
      if off % 8 ≠ 0 then .fail s 0x05 off 0 0
      else match s.areaGet c off 8 with
        | (s1, .inr cause) => .fail s1 cause off 0 0
        | (s1, .inl (bs, z)) =>
          .go (s1.areaPut c off (natBytes 8 (wordOf bs 0 + w2).toNat)) { c.next with zsub := c.zsub + z }
    else
      let n := fld w1 21 0
      if n = 0 ∨ 128 < n ∨ w2 ≠ 0 then .fail s 0x01 here 0 0
      else
        let q := s.countChain c (cbOffset (fld w0 12 9))
        match s.chainBuffer c (fld w0 12 9) with
        | none => .fail q.1 0x02 here 0 q.2
        | some (cr, cfg, w) =>
          if cbSlots cfg < cbFree w + cbFilled w + n then .fail q.1 0x08 here 0 q.2
          else .go (q.1.putCbCtr cr (fld w0 12 9) (cbWord (cbRidx w) (cbWidx w) (cbFilled w + n) (cbFree w)))
            { c.next with zsub := c.zsub + q.2 }

/-! ### Copies (R139) -/

/-- A tile record at an offset of the area. -/
def State.recordAt (s : State) (c : Chain) (off : Nat) : State × (TileRec × Nat ⊕ Nat) :=
  if off % 32 ≠ 0 then (s, .inr 0x05)
  else match s.areaGet c off 32 with
    | (s1, .inr cause) => (s1, .inr cause)
    | (s1, .inl (bs, z)) => (s1, .inl (tileOfBytes bs, z))

def RecErr.cause (e : RecErr) : Nat :=
  match e with
  | .malformed => 0x01
  | .bounds => 0x02
  | .format => 0x06
  | .page c _ _ => chainCause c

/-- Progress of a row-by-row transfer: state, bytes done, zeroed, failure (cause, address). -/
structure Move where
  s : State
  done : Nat
  /-- words and lines that the entry's own record reads found as zero, and those that its rows met -/
  before : Nat
  zeros : List Nat
  bad : Option (Nat × Nat)

/-- What the entry adds to ZSUB: each poisoned line or word once (R143). -/
def Move.zsub (m : Move) : Nat := m.before + m.zeros.dedup.length

/-- The tag of the granule that holds a Loam byte (R132). -/
def State.tagAt (s : State) (w : Who) (va : Nat) (f : Nat × Bool) : State :=
  match s.place w va 1 .store with
  | (s1, .loam c off sp) => s1.setTag c (s1.spotBank sp) off f
  | _ => s

/-- The first `n` 16-byte granules of a row, in order, in runs that `addr` places in one line. -/
def lineRuns (addr : Nat → Nat) (n : Nat) : List (List Nat) :=
  (List.range n).foldr (fun g rs => match rs with
    | (h :: t) :: rest => if lineOf (addr g) = lineOf (addr h) then (g :: h :: t) :: rest else [g] :: rs
    | _ => [g] :: rs) []

/-- The granules fill a whole line, which an engine then stores as one, with a new tag (R151). -/
def fillsLine (addr : Nat → Nat) (gs : List Nat) : Bool :=
  gs.length == 8 && (List.range 8).all fun p => gs.any fun g => addr g % 128 == 16 * p

/-- The bytes of a line whose granules stand where `addr` says. -/
def lineOfGranules (addr : Nat → Nat) (data : Nat → List Byte) (gs : List Nat) : List Byte :=
  (List.range 8).flatMap fun p => data ((gs.find? fun g => addr g % 128 == 16 * p).getD 0)

/-- One 16-byte granule of a row moved, unchanged; a destination granule of Loam takes the source's format (R132). -/
def Move.granule (m : Move) (w : Who) (src dst : TileRec) (f : Nat × Bool) (r r' g : Nat) : Move :=
  match m.bad with
  | some _ => m
  | none =>
    let sa := src.byteAddr r (16 * g)
    let da := dst.byteAddr r' (16 * g)
    let q := m.s.engineGet w sa 16
    match q.2.2.2 with
    | some e => { m with s := q.1, bad := some (chainCause e.1, sa) }
    | none =>
      match q.1.enginePut w hwAgent da q.2.1 with
      | (s1, some e) => { m with s := s1, bad := some (chainCause e.1, da) }
      | (s1, none) =>
        let s2 := if dst.space = 0 then s1 else s1.tagAt w da f
        { m with s := s2, done := m.done + 16, zeros := m.zeros ++ q.2.2.1 }

/-- The granules of a run read: the state, their bytes, what was read as zero, and whether one faulted. -/
def State.readRun (s : State) (w : Who) (src : TileRec) (r : Nat) (gs : List Nat) : State × AMap (List Byte) × List Nat × Bool :=
  gs.foldl (fun q g =>
    let x := q.1.engineGet w (src.byteAddr r (16 * g)) 16
    (x.1, (g, x.2.1) :: q.2.1, q.2.2.1 ++ x.2.2.1, q.2.2.2 || x.2.2.2.isSome)) (s, [], [], false)

/-- A run of granules moved: a whole line of memory as one store, where no granule faults. -/
def Move.run (m : Move) (w : Who) (src dst : TileRec) (f : Nat × Bool) (r r' : Nat) (gs : List Nat) : Move :=
  let addr := fun (g : Nat) => dst.byteAddr r' (16 * g)
  let each := gs.foldl (fun m g => m.granule w src dst f r r' g) m
  if m.bad.isSome || dst.space != 0 || !fillsLine addr gs then each
  else
    let q := m.s.readRun w src r gs
    if q.2.2.2 then each
    else match q.1.enginePut w hwAgent (addr (gs.headD 0) / 128 * 128) (lineOfGranules addr (fun g => q.2.1.get g []) gs) with
      | (_, some _) => each
      | (s1, none) => { m with s := s1, done := m.done + 128, zeros := m.zeros ++ q.2.2.1 }

/-- One row moved, its bytes in increasing order (R139). -/
def Move.row (m : Move) (w : Who) (src dst : TileRec) (f : Nat × Bool) (r r' : Nat) : Move :=
  (lineRuns (fun g => dst.byteAddr r' (16 * g)) (src.rowlen / 16)).foldl (fun m gs => m.run w src dst f r r' gs) m

/-- An index of a gather or scatter table, with the words of it read as zero. -/
def State.tableIndex (s : State) (c : Chain) (tab k : Nat) : State × (Nat × Nat ⊕ Nat) :=
  match s.areaGet c (tab + 4 * k) 4 with
  | (s1, .inr cause) => (s1, .inr cause)
  | (s1, .inl (bs, z)) => (s1, .inl (bytesToNat bs, z))

/-- The rows of an entry: pairs (source row, destination row), an index read when its row is reached. `pick k` is the
pair for the plain form; `gather` and `scatter` take one side from the table. -/
def moveRows (c : Chain) (w : Who) (ty tab : Nat) (src dst : TileRec) (f : Nat × Bool) (count : Nat) (m : Move) : Move :=
  (List.range count).foldl (fun (m : Move) k =>
    match m.bad with
    | some _ => m
    | none =>
      if ty = 0x02 then m.row w src dst f k k
      else match m.s.tableIndex c tab k with
        | (s1, .inr cause) => { m with s := s1, bad := some (cause, tab + 4 * k) }
        | (s1, .inl (ix, z)) =>
          let limit := if ty = 0x03 then src.rows else dst.rows
          let m1 := { m with s := s1, before := m.before + z }
          if limit ≤ ix then { m1 with bad := some (0x07, tab + 4 * k) }
          else if ty = 0x03 then m1.row w src dst f ix k
          else m1.row w src dst f k ix) m

/-- COPY, GATHER and SCATTER. DESIGN CHOICE (log 49): an entry whose buffer has no space blocks before its records and
table are checked. -/
def copyEntry (s : State) (chain ty : Nat) : Out :=
  runEntry s chain ty fun s0 c (w0, w1, w2, w3) =>
    let w := s0.chainWho c
    let qc : State × Nat := if bitAt w0 8 then s0.countChain c (cbOffset (fld w0 12 9)) else (s0, 0)
    let s := qc.1
    let z0 := qc.2
    let here := s.headerOff c + 32 + 32 * c.idx
    let so := fld w1 21 0
    let dO := fld w2 21 0
    let tab := fld w3 21 0
    let buf := if bitAt w0 8 then s0.chainBuffer c (fld w0 12 9) else none
    if bitAt w0 8 && buf.isNone then .fail s 0x02 here 0 z0
    else if buf.any fun b => cbFree b.2.2 == 0 then .block s z0
    else if ty ≠ 0x02 ∧ tab % 4 ≠ 0 then .fail s 0x05 tab 0 z0
    else match s.recordAt c so with
      | (s1, .inr cause) => .fail s1 cause so 0 z0
      | (s1, .inl (src, zr)) =>
        let z1 := z0 + zr
        match s1.recordAt c dO with
        | (s2, .inr cause) => .fail s2 cause dO 0 z1
        | (s2, .inl (d0, z2)) =>
          let dst : TileRec := match buf with
            | some (cr, cfg, ctr) => { d0 with base := s2.windowAddr cr (cbBase cfg + cbWidx ctr * cbSize cfg) }
            | none => d0
          if src.rowlen ≠ dst.rowlen ∨ (ty = 0x02 ∧ src.rows ≠ dst.rows) then .fail s2 0x01 here 0 (z1 + z2)
          else if buf.any fun b => decide (cbSize b.2.1 < dst.range.2 - dst.range.1) then .fail s2 0x02 here 0 (z1 + z2)
          else match s2.checkRecLate w src .load with
            | (s3, _, some e) => .fail s3 e.cause so 0 (z1 + z2)
            | (s3, f, none) =>
              match s3.checkRecLate w dst .store with
              | (s4, _, some e) => .fail s4 e.cause dO 0 (z1 + z2)
              | (s4, _, none) =>
                -- the claim: FREE − 1, WIDX + 1 (R135)
                let s5 := match buf with
                  | some (cr, cfg, ctr) => s4.putCbCtr cr (fld w0 12 9)
                      (cbWord (cbRidx ctr) ((cbWidx ctr + 1) % cbSlots cfg) (cbFilled ctr) (cbFree ctr - 1))
                  | none => s4
                let count := if ty = 0x04 then src.rows else dst.rows
                let m := moveRows c w ty tab src dst f count ⟨s5, 0, z1 + z2, [], none⟩
                match m.bad with
                | some (cause, fault) => .fail m.s cause fault m.done m.zsub
                | none => .go m.s { c.next with zsub := c.zsub + m.zsub }

def execCopy (chain : Nat) (s : State) : Out := copyEntry s chain 0x02
def execGather (chain : Nat) (s : State) : Out := copyEntry s chain 0x03
def execScatter (chain : Nat) (s : State) : Out := copyEntry s chain 0x04

/-! ### Blocking and the end of a chain -/

/-- What a blocked chain's entry waits for has come: buffer space, or a closed slot (R135, R231); an entry that has
become bad goes on too, to fail. -/
def State.unblocked (s : State) (c : Chain) : Bool :=
  match s.areaGet c (s.headerOff c + 32 + 32 * c.idx) 32 with
  | (_, .inr _) => true
  | (_, .inl (bs, _)) =>
    let w0 := wordOf bs 0
    match fld w0 7 0, c.crew.bind s.crews.find with
    | 0x10, some cr =>
      !ringValid (s.ringCfg cr (fld w0 9 8)) || ringClosed (s.ringCtr cr (fld w0 9 8)) != 0
    | _, _ => match s.chainBuffer c (fld w0 12 9) with
      | some (_, _, w) => cbFree w != 0
      | none => true

def execChainUnblock (chain : Nat) (s : State) : Out :=
  .next (match s.chains.find chain with
    | some c =>
      if s.chainTurn chain c && (c.state == 5 || (c.state == 2 && s.unblocked c)) then s.putChain chain { c with state := 1 }
      else s
    | none => s)

/-- A thread's failure record (R143): ENGP stands while it awaits delivery (R292). A thread parked in WAITC takes it at
once, at the next look at its counters. -/
def Thread.recordFailure (t : Thread) (addr : Word) : Thread :=
  { t with failures := t.failures ++ [addr], trap := { t.trap with engp := true } }

/-- Every packet of the chain has been acknowledged (R338). -/
def State.allAcked (s : State) (id : Nat) : Bool := s.packets.all fun e => e.2.chain != id || e.2.acked

/-- The crew of a chain stands on its core, where its header and its threads' counters are (R142); a chain without a crew needs
none. -/
def State.crewPresent (s : State) (c : Chain) : Bool :=
  match c.crew.bind s.crews.find with
  | some cr => cr.place.onCore
  | none => true

/-- A chain ended as done or failed, with every packet of the entries that are complete acknowledged: the header first, then
oc.cp of every thread that counted it (R142, R143, R338). The blocked chain of a crew whose threads have all exited ends as failed with cause 0x14 (R244). A failed network chain is an
event of its engine (R331). -/
def execChainEnd (chain : Nat) (s : State) : Out :=
  .next (match s.chains.find chain with
    | none => s
    | some c =>
      let orphan := c.state == 2 && (match c.crew with
        | some k => (s.laneKeys k).isEmpty && s.commandsOf k == 0 && !s.unblocked c
        | none => false)
      let c := if orphan then { c with state := 4, cause := 0x14 } else c
      if (c.state != 3 && c.state != 4) || !s.allAcked chain || !s.crewPresent c then s
      else
        let s1 := s.writeHeader c
        let drop := fun (s : State) k => s.modCounted k fun t =>
          let t := { t with oc := { t.oc with cp := t.oc.cp - 1 } }
          if c.state == 4 && !orphan then t.recordFailure c.addr else t.settled
        let s2 := c.counting.foldl drop s1
        let s2 := if c.engine == 2 && c.state == 4 then s2.netEvent (c.unit - 384) 1 else s2
        let s3 := { s2 with chains := s2.chains.del chain, packets := s2.packets.filter fun e => e.2.chain != chain }
        match c.crew with
        | some k => s3.reapCrew k
        | none => s3)

end Sys2Proof.Machine
end

