-- ==== Sys2Proof/Machine/Epilogue.lean ====
section
/-!
DEFINITION. Entries of the epilogue engine (08 R229 to R234): the working tile of 32 × 128 FP32 values, its arithmetic,
the conversion to an output tile and its store.
-/
namespace Sys2Proof.Machine

/-! ### Taking and releasing slots (R231) -/

/-- The 32-bit words of `n` bytes of Loam as an engine reads them, with the count of words read as zero. -/
def State.loamWords (s : State) (core off n : Nat) (sp : LoamSpot) : State × List (BitVec 32) × Nat :=
  let step := fun (q : State × List (BitVec 32) × Nat) (j : Nat) =>
    let r := q.1.engineLoam core (off + 4 * j) 4 sp
    (r.1, q.2.1 ++ [BitVec.ofNat 32 (bytesToNat r.2.1)], q.2.2 + r.2.2.length)
  (List.range (n / 4)).foldl step (s, [], 0)

/-- The crew of a chain with ring k's words, when the ring is configured. -/
def State.chainRing (s : State) (c : Chain) (k : Nat) : Option (Crew × Word × Word) :=
  match c.crew.bind s.crews.find with
  | some cr => if ringValid (s.ringCfg cr k) then some (cr, s.ringCfg cr k, s.ringCtr cr k) else none
  | none => none

def Chain.here (s : State) (c : Chain) : Nat := s.headerOff c + 32 + 32 * c.idx

def execTake (chain : Nat) (s : State) : Out :=
  runEntry s chain 0x10 fun s c (w0, _, _, _) =>
    let k := fld w0 9 8
    match s.chainRing c k with
    | none => .fail s 0x11 (c.here s) 0 0
    | some (cr, cfg, ctr) =>
      let q := s.countChain c (0x7D00 + 32 * k)
      if ringClosed ctr = 0 then .block q.1 q.2
      else
        let r := q.1.loamWords cr.core (tailOffset cfg ctr) granule (.bytes cr.bank)
        let s1 := if bitAt w0 10 then r.1.releaseTail cr k else r.1
        .go s1 { c.next with zsub := c.zsub + q.2 + r.2.2, tiles := ⟨true, r.2.1, none, [], []⟩ }

def execRelease (chain : Nat) (s : State) : Out :=
  runEntry s chain 0x11 fun s c (w0, _, _, _) =>
    let k := fld w0 9 8
    match s.chainRing c k with
    | none => .fail s 0x11 (c.here s) 0 0
    | some (cr, _, ctr) =>
      let q := s.countChain c (0x7D00 + 32 * k)
      if ringClosed ctr = 0 then .fail q.1 0x12 (c.here s) 0 q.2
      else .go (q.1.releaseTail cr k) { c.next with zsub := c.zsub + q.2 }

/-! ### Arithmetic on the working tile -/

/-- An entry that reads W: cause 0x10 before the first TAKE. -/
def onTile (s : State) (c : Chain) (f : List (BitVec 32) → EntryRes) : EntryRes :=
  if c.tiles.taken then f c.tiles.w else .fail s 0x10 (c.here s) 0 0

/-- Every element with its column. -/
def mapTile (w : List (BitVec 32)) (f : Nat → BitVec 32 → BitVec 32) : List (BitVec 32) :=
  w.zipIdx.map fun e => f (e.2 % 128) e.1

def Chain.withW (c : Chain) (w : List (BitVec 32)) : Chain := { c.next with tiles := { c.tiles with w := w } }

/-- `n` elements of `size` bytes at an offset that is a multiple of the size. -/
def State.areaElems (s : State) (c : Chain) (off n size : Nat) : State × (List Nat × Nat ⊕ Nat) :=
  if off % size ≠ 0 then (s, .inr 0x05)
  else match s.areaGet c off (n * size) with
    | (s1, .inr cause) => (s1, .inr cause)
    | (s1, .inl (bs, z)) => (s1, .inl ((List.range n).map fun j => bytesToNat ((bs.drop (size * j)).take size), z))

/-- SCALE and BIAS: one rounding to nearest even per element, no flags. -/
def vecEntry (s : State) (chain ty : Nat) (op : Nat → Nat → FpResult) : Out :=
  runEntry s chain ty fun s c (_, w1, _, _) =>
    onTile s c fun w =>
      let off := fld w1 21 0
      match s.areaElems c off 128 4 with
      | (s1, .inr cause) => .fail s1 cause off 0 0
      | (s1, .inl (v, z)) =>
        .go s1 { c.withW (mapTile w fun j x => BitVec.ofNat 32 (op x.toNat (v.getD j 0)).bits) with zsub := c.zsub + z }

def execScale (chain : Nat) (s : State) : Out := vecEntry s chain 0x12 ((fmtOf .s).mul .rne)
def execBias (chain : Nat) (s : State) : Out := vecEntry s chain 0x13 ((fmtOf .s).add .rne)

def fp32Nan : BitVec 32 := BitVec.ofNat 32 (fmtOf .s).nan

/-- ReLU: x > 0 stays, a NaN becomes canonical, all else is +0. -/
def relu (x : BitVec 32) : BitVec 32 :=
  match (fmtOf .s).decode x.toNat with
  | .nan _ => fp32Nan
  | .inf n => if n then 0 else x
  | .fin n m _ => if n || m == 0 then 0 else x

/-- min(max(x, LO), HI). -/
def clampElem (lo hi : Nat) (x : BitVec 32) : BitVec 32 :=
  let f := fmtOf .s
  if (f.decode x.toNat).isNan then fp32Nan
  else BitVec.ofNat 32 (f.minmax false (f.minmax true x.toNat lo).bits hi).bits

/-- Interpolation between two entries with weight q / 2^16, q > 0 (R232). -/
def interpolate (a b : FVal) (q : Nat) : BitVec 32 :=
  let f := fmtOf .s
  match a, b with
  | .fin n1 m1 e1, .fin n2 m2 e2 =>
    let d := exactAdd n2 m2 e2 (!n1) m1 e1
    let t := d.1 * (q : Int)
    let sum := exactAdd n1 m1 e1 (decide (t < 0)) t.natAbs (d.2 - 16)
    BitVec.ofNat 32 (f.roundInt .rne sum.1 sum.2 (some false)).bits
  | .fin _ _ _, .inf n => BitVec.ofNat 32 (f.inf n)
  | _, _ => fp32Nan

/-- The table function (R232): `tab` holds the BF16 entries, `sh` the signed step exponent. DEDUCED (log 58): an infinite X0
counts by its sign in the difference x - X0, as the rule's pseudocode computes it. -/
def tableElem (tab : List Nat) (x0 : FVal) (sh : Int) (x : BitVec 32) : BitVec 32 :=
  let entry := fun (k : Nat) => (fmtOf .bf).decode (tab.getD k 0)
  let pick := fun (k : Nat) => BitVec.ofNat 32 ((fmtOf .s).ofVal .rne (entry k)).bits
  match (fmtOf .s).decode x.toNat, x0 with
  | .nan _, _ => fp32Nan
  | .inf a, .inf b => if a = b then fp32Nan else if a then pick 0 else pick 255
  | .inf a, _ => if a then pick 0 else pick 255
  | _, .inf b => if b then pick 255 else pick 0
  | .fin n1 m1 e1, .fin n2 m2 e2 =>
    let d := exactAdd n1 m1 e1 (!n2) m2 e2
    let e := d.2 + sh + 16
    -- floor (t × 2^16)
    let n : Int := if 0 ≤ e then d.1 * 2 ^ e.toNat else d.1 / 2 ^ (-e).toNat
    if d.1 ≤ 0 then pick 0
    else if 255 * 65536 ≤ n then pick 255
    else
      let k := n.toNat / 65536
      let q := n.toNat % 65536
      if q = 0 then pick k else interpolate (entry k) (entry (k + 1)) q
  | _, .nan _ => fp32Nan

def execAct (chain : Nat) (s : State) : Out :=
  runEntry s chain 0x14 fun s c (w0, w1, w2, w3) =>
    onTile s c fun w =>
      let f := fmtOf .s
      let lo := fld w2 31 0
      let hi := fld w2 63 32
      match fld w0 9 8 with
      | 0 => .go s c.next
      | 1 => .go s (c.withW (w.map relu))
      | 2 =>
        let a := f.decode lo
        let b := f.decode hi
        if a.isNan || b.isNan || b.lt a then .fail s 0x01 (c.here s) 0 0
        else .go s (c.withW (w.map (clampElem lo hi)))
      | _ =>
        let off := fld w1 21 0
        if (f.decode lo).isNan then .fail s 0x01 (c.here s) 0 0
        else match s.areaElems c off 256 2 with
          | (s1, .inr cause) => .fail s1 cause off 0 0
          | (s1, .inl (tab, z)) =>
            .go s1 { c.withW (w.map (tableElem tab (f.decode lo) (toSigned 8 (fld w3 7 0)))) with zsub := c.zsub + z }

/-! ### Conversion (R233) -/

/-- Magnitudes m × 2^e in order. -/
def magLe (a b : Nat × Int) : Bool :=
  let e := min a.2 b.2
  decide (a.1 * 2 ^ (a.2 - e).toNat ≤ b.1 * 2 ^ (b.2 - e).toNat)

def FVal.mag : FVal → Nat × Int
  | .fin _ m e => (m, e)
  | _ => (0, 0)

def FVal.isFin : FVal → Bool
  | .fin _ _ _ => true
  | _ => false

/-- The value as it stands times 2^k. -/
def FVal.times (v : FVal) (k : Int) : FVal :=
  match v with
  | .fin n m e => .fin n m (e + k)
  | x => x

/-- The largest of some magnitudes. -/
def maxMag (xs : List (Nat × Int)) : Nat × Int := xs.foldl (fun b x => if magLe x b then b else x) (0, 0)

/-- Scale of a K-block: the smallest s from 0 to 254 with m ≤ M × 2^(s − 127), or 254; 127 for m = 0. DESIGN CHOICE (log 58):
R233 names no m for a block without a finite element; it counts as m = 0. -/
def chooseScale (top : Nat × Int) (block : List FVal) : Nat :=
  let m := maxMag ((block.filter FVal.isFin).map FVal.mag)
  if m.1 = 0 then 127
  else ((List.range 255).find? fun (s : Nat) => magLe m (top.1, top.2 + (s : Int) - 127)).getD 254

/-- Exact distance of two finite values. -/
def distOf (a b : FVal) : Nat × Int :=
  match a, b with
  | .fin n1 m1 e1, .fin n2 m2 e2 => let d := exactAdd n1 m1 e1 (!n2) m2 e2; (d.1.natAbs, d.2)
  | _, _ => (0, 0)

/-- The first index, among those of `xs`, whose element no other one beats. -/
def bestIndex (better : FVal → FVal → Bool) (xs : List (FVal × Nat)) : Option Nat :=
  (xs.foldl (fun (b : Option (FVal × Nat)) x => match b with
    | none => some x
    | some y => if better x.1 y.1 then some x else some y) none).map (·.2)

/-- The CB4 code of a scaled value. -/
def cb4Code (book : List FVal) (v : FVal) : Nat :=
  let ix := book.zipIdx
  let fins := ix.filter fun e => e.1.isFin
  match v with
  | .nan _ => ((ix.find? fun e => e.1.isNan).map (·.2)).getD 0
  | .inf n =>
    match ix.find? fun e => e.1 == .inf n with
    | some e => e.2
    | none =>
      let same := fins.filter fun e => e.1.sign == n
      if same.isEmpty then (bestIndex (fun x y => if n then x.lt y else y.lt x) fins).getD 0
      else (bestIndex (fun x y => !magLe x.mag y.mag) same).getD 0
  | .fin _ _ _ => (bestIndex (fun x y => !magLe (distOf y v) (distOf x v)) fins).getD 0

/-- The float code of a CVT format. -/
def cvtCode : Nat → FloatCode
  | 1 => .bf | 2 => .h | 3 => .e4m3 | 4 => .e5m2 | _ => .s

/-- Bytes of a list of four-bit codes, even elements in the low half (R104). -/
def packNibbles : List Nat → List Byte
  | a :: b :: r => BitVec.ofNat 8 (a + 16 * b) :: packNibbles r
  | [a] => [BitVec.ofNat 8 a]
  | [] => []

/-- The codebook of a chain's context in a slot of its core, when CVT can use it. -/
def State.chainBook (s : State) (c : Chain) (slot : Nat) : Option (List FVal) :=
  match (s.core c.unit).engines.codebooks.find slot with
  | some b =>
    let vs := b.entries.map fun e => (fmtOf .bf).decode e.toNat
    if b.valid && b.asid == c.asid && vs.any (fun v => v.isFin && !v.isZero) then some vs else none
  | none => none

/-- The output tile: bytes and scale bytes. -/
def convertTile (fmt : Nat) (scl : Bool) (mode : Mode) (book : List FVal) (w : List (BitVec 32)) : List Byte × List Byte :=
  let code := cvtCode fmt
  let blocks := (List.range 256).map fun b => (w.drop (16 * b)).take 16
  let vals := fun (b : List (BitVec 32)) => b.map fun x => (fmtOf .s).decode x.toNat
  let top : Nat × Int := if fmt = 6 then maxMag ((book.filter FVal.isFin).map FVal.mag)
    else ((fmtOf code).decode ((fmtOf code).maxFinite false)).mag
  let scaleOf := fun (b : List (BitVec 32)) => if scl then chooseScale top (vals b) else 127
  let conv := fun (b : List (BitVec 32)) =>
    let k : Int := 127 - (scaleOf b : Int)
    if fmt = 6 then packNibbles ((vals b).map fun v => cb4Code book (v.times k))
    else if scl then (vals b).flatMap fun v => natBytes ((fmtOf code).width / 8) ((fmtOf code).ofVal mode (v.times k)).bits
    else b.flatMap fun x => natBytes ((fmtOf code).width / 8) (convertFF code .s mode x.toNat).bits
  (blocks.flatMap conv, if scl then blocks.map fun b => BitVec.ofNat 8 (scaleOf b) else [])

def execCvt (chain : Nat) (s : State) : Out :=
  runEntry s chain 0x15 fun s c (w0, _, _, _) =>
    onTile s c fun w =>
      let fmt := fld w0 11 8
      let rm := fld w0 14 12
      let scl := bitAt w0 15
      let slot := fld w0 21 16
      let badFmt := fmt = 0 ∨ fmt = 5 ∨ 8 ≤ fmt
      if badFmt ∨ rm = 0 ∨ 6 ≤ rm ∨ (fmt = 6 ∧ !scl) ∨ (scl ∧ fmt ≠ 3 ∧ fmt ≠ 4 ∧ fmt ≠ 6) then .fail s 0x01 (c.here s) 0 0
      else
        let mode := Mode.ofFrm (BitVec.ofNat 3 rm)
        let done := fun (s : State) (book : List FVal) =>
          let o := convertTile fmt scl mode book w
          EntryRes.go s { c.next with tiles := { c.tiles with out := some (fmt, scl), o := o.1, scales := o.2 } }
        if fmt = 6 then
          match s.chainBook c slot with
          | none => .fail s 0x13 (c.here s) 0 0
          | some book =>
            let mark := fun (x : Crew) => { x with cbSlots := x.cbSlots ||| (1#64 <<< slot) }
            done (match c.crew with | some k => s.modCrew k mark | none => s) book
        else done s []

/-! ### STORE (R231, R132) -/

/-- Bytes of a row of 128 elements. -/
def rowBytesOf (fmt : Nat) : Nat := match fmt with | 6 => 64 | 3 | 4 => 128 | 7 => 512 | _ => 256

/-- The failure of a destination record, if it has one: 0x01 for its shape, 0x02 for its range, 0x06 for a format. -/
def State.storeBad (s : State) (w : Who) (t : TileRec) (fmt : Nat) (scl : Bool) : Option Nat :=
  if t.shapeBad || t.rows != 32 || t.rowlen != rowBytesOf fmt then some 0x01
  else if !s.rangeOk w t.space t.range || (scl && !s.rangeOk w t.space (t.scaleRange fmt)) then some 0x02
  else if t.scaled != scl || (t.fmt != 0 && t.fmt != fmt) then some 0x06
  else if t.space = 0 then
    match s.pagesOf w .store (t.rowPages.filter (s.resolves w .store)) with
    | (_, .inl ps) => if ps.any fun p => p.view != t.view || p.fmt != fmt || p.scaled != scl then some 0x06 else none
    | _ => none
  else none

/-- Bytes written in pieces of sixteen; Loam granules take the stored format. -/
def Move.put (m : Move) (w : Who) (loam : Bool) (f : Nat × Bool) (va : Nat) (bs : List Byte) : Move :=
  match m.bad with
  | some _ => m
  | none => match m.s.enginePut w hwAgent va bs with
    | (s1, some e) => { m with s := s1, bad := some (chainCause e.1, va) }
    | (s1, none) => { m with s := if loam then s1.tagAt w va f else s1, done := m.done + bs.length }

/-- The granules of a row that stand in one line written: a whole line of memory as one store (R151). -/
def Move.putRun (m : Move) (w : Who) (t : TileRec) (f : Nat × Bool) (r : Nat) (row : List Byte) (gs : List Nat) : Move :=
  let addr := fun (g : Nat) => t.byteAddr r (16 * g)
  let piece := fun (g : Nat) => (row.drop (16 * g)).take 16
  let each := gs.foldl (fun (m : Move) g => m.put w (t.space != 0) f (addr g) (piece g)) m
  if t.space != 0 || !fillsLine addr gs then each
  else
    let q := m.put w false f (addr (gs.headD 0) / 128 * 128) (lineOfGranules addr piece gs)
    if q.bad.isSome then each else q

/-- A row written through its record. -/
def Move.putRow (m : Move) (w : Who) (t : TileRec) (f : Nat × Bool) (r : Nat) (row : List Byte) : Move :=
  (lineRuns (fun g => t.byteAddr r (16 * g)) (t.rowlen / 16)).foldl (fun m gs => m.putRun w t f r row gs) m

def storeRow (w : Who) (t : TileRec) (f : Nat × Bool) (row scales : List Byte) (r : Nat) (m : Move) : Move :=
  let m1 := m.putRow w t f r row
  let n := rowBlocks t.rowlen f.1
  if f.2 then m1.put w false f ((t.scalep + r * n) % 2 ^ 57) scales else m1

def execStore (chain : Nat) (s : State) : Out :=
  runEntry s chain 0x16 fun s c (_, w1, _, _) =>
    onTile s c fun w =>
      let off := fld w1 21 0
      let out := c.tiles.out.getD (7, false)
      let bytes := if c.tiles.out.isSome then c.tiles.o else w.flatMap fun x => natBytes 4 x.toNat
      match s.recordAt c off with
      | (s1, .inr cause) => .fail s1 cause off 0 0
      | (s1, .inl (t, z)) =>
        let who := s1.chainWho c
        match s1.storeBad who t out.1 out.2 with
        | some cause => .fail s1 cause off 0 z
        | none =>
          let n := rowBlocks t.rowlen out.1
          let m := (List.range 32).foldl (fun (m : Move) r =>
            storeRow who t out ((bytes.drop (t.rowlen * r)).take t.rowlen) ((c.tiles.scales.drop (n * r)).take n) r m)
            ⟨s1, 0, z, [], none⟩
          match m.bad with
          | some (cause, fault) => .fail m.s cause fault m.done m.zsub
          | none => .go m.s { c.next with zsub := c.zsub + m.zsub }

end Sys2Proof.Machine
end

