-- ==== Sys2Proof/Machine/Rings.lean ====
section
/-!
DEFINITION. Waiting work and the rings of a die scheduler (10 R276, R277, R282): what waits, its members in a die's
rings, and their order of service.
-/
namespace Sys2Proof.Machine

/-! ### The region cache (R277) -/

/-- The words of a block as the scheduler fetches it: memory, with the HW fields of a copy that another die holds. -/
def State.blockWords (s : State) (c : Ctx) (b : Word) : List Word :=
  (List.range 32).map fun k =>
    if k = 3 ∨ k = 8 ∨ k = 9 then s.liveWord c b (8 * k) else (s.ctxWord (hwWho c) (va57 b + 8 * k)).getD 0

/-- Blocks of a path fetched into a die's region cache, at most 256; what falls out is written back. -/
def State.cachePath (s : State) (c : Ctx) (d : Nat) (leaf : Word) : State :=
  match s.regionPath (hwWho c) d leaf with
  | none => s
  | some path => path.foldl (fun s b =>
      if (s.die d).regions.any (·.addr == b) then s
      else
        let s := s.touchCtx (hwWho c) (va57 b)
        let all := ⟨b, c, s.blockWords c b⟩ :: (s.die d).regions
        (all.drop 256).foldl State.writeBackBlock (s.modDie d fun x => { x with regions := all.take 256 })) s

/-! ### Waiting work (R276) -/

/-- Words of context registers, as a gang keeps its caller's. -/
def ctxWords (c : Ctx) : List Word := [c.pgroot, c.hbase, c.hlimit, c.hoff, c.hattr, c.loamva]
def ctxOfWords (ws : List Word) : Ctx :=
  ⟨ws.getD 0 0, ws.getD 1 0, ws.getD 2 0, ws.getD 3 0, ws.getD 4 0, ws.getD 5 0⟩

/-- The region control block that receives a context's handler tasks (R336). -/
def State.netRegion (s : State) (net asid : Nat) : Word :=
  s.hwWord ((s.net net).ctxbase.toNat % 2 ^ 52 + 32 * asid + 24)

/-- The context registers of an ASID: a die's record, or a latency hardware thread that holds them (R481). -/
def State.ctxByAsid (s : State) (asid : Nat) : Option Ctx :=
  match s.dies.findSome? fun e => e.2.contexts.find asid with
  | some c => some c
  | none => s.harts.findSome? fun e => if e.2.ctx.asid == asid && e.2.ctx.pgroot != 0 then some e.2.ctx else none

/-- Context registers that a die holds for an ASID. -/
def State.dieCtx (s : State) (d asid : Nat) : Ctx := (s.die d).contexts.get asid .zero

/-- A piece of waiting work: a gang not yet placed, a handler task (R342), a context whose crews stand saved off a core, or in
its shadow bank (R356). -/
inductive Work where
  | gang (seq : Nat)
  | task (t : Task)
  | context (core asid : Nat)
  deriving DecidableEq, Repr

/-- Waiting work with its leaf region and the context that names the region. -/
structure Waiting where
  work : Work
  region : Word
  ctx : Ctx
  deriving DecidableEq, Repr

/-- Crews of a context that wait for a core, by key: saved, with their region's fault word clear. -/
def State.waitingCrews (s : State) (core asid : Nat) : List (Nat × Crew) :=
  s.crews.filter fun e => e.2.core == core && e.2.asid == asid && !e.2.faulted && !e.2.place.onCore

/-- The work that waits on a die; gangs and handler tasks are held by die 0 (R43, R342). -/
def State.waiting (s : State) (d : Nat) : List Waiting :=
  let gangs := if d = 0 then (s.gangs.filter fun e => e.2.waiting).map fun e =>
      (⟨.gang e.1, e.2.desc.region, ctxOfWords e.2.ctx⟩ : Waiting) else []
  let tasks := if d = 0 then (s.die 0).tasks.filterMap fun t =>
      (s.ctxByAsid t.asid).map fun c => (⟨.task t, s.netRegion t.net t.asid, c⟩ : Waiting) else []
  let waits := fun (c : Crew) => !c.place.onCore || (c.place == .shadow && (s.core c.core).switch.isNone)
  let saved := (s.crews.filter fun e => waits e.2 && !e.2.faulted && e.2.core / Config.coresPerDie == d).map fun e =>
    (⟨.context e.2.core e.2.asid, e.2.region, s.dieCtx d e.2.asid⟩ : Waiting)
  gangs ++ tasks ++ saved.dedup

/-- Every block with waiting work at or below it. -/
def State.waitingBlocks (s : State) (d : Nat) : List (Word × Ctx) :=
  ((s.waiting d).flatMap fun e => ((s.regionPath (hwWho e.ctx) d e.region).getD []).map fun b => (b, e.ctx)).dedup

/-- The cores whose regions a die's rings serve: its own; for die 0, which places gangs on every die, all of them. -/
def serves (d core : Nat) : Bool := d == 0 || core / Config.coresPerDie == d

/-- A crew by which its region holds its core: one of a pre-filled context does not. -/
def State.holds (s : State) (c : Crew) : Bool := c.place.onCore && !(c.place == .shadow && (s.core c.core).switch.isNone)

/-- Blocks at or above a crew that holds one of those cores. -/
def State.holdingBlocks (s : State) (d : Nat) : List (Word × Ctx) :=
  ((s.crews.filter fun e => s.holds e.2 && serves d e.2.core).flatMap fun e =>
    let c := (s.core e.2.core).ctxOf e.2.asid
    ((s.regionPath (hwWho c) d e.2.region).getD []).map fun b => (b, c)).dedup

/-- The context in which a block is read: that of its cached copy. -/
def State.blockCtx (s : State) (b : Word) : Ctx := ((s.liveBlock b).map (·.ctx)).getD .zero

/-- The deficit of a region that leaves its ring becomes 0; one that holds cores has not left (R276; log 53). -/
def State.resetDeficit (s : State) (d : Nat) (b : Word) : State :=
  let c := s.blockCtx b
  if (s.coresHeld c d b).isEmpty then s.putDeficit c b 0 else s

/-- The members of a die's rings as work comes and goes: those with waiting work enter at the tail, and those that
neither wait nor have expired leave. -/
def State.refreshRing (s : State) (d : Nat) : State :=
  let s1 := (s.waiting d).foldl (fun (s : State) w => s.cachePath w.ctx d w.region) s
  let now := ((s1.waitingBlocks d).map (·.1)).dedup
  let ring := (s1.die d).ring
  let stays := fun (b : Word) => now.contains b || (s1.die d).expired.contains b
  let s2 := (ring.filter fun b => !stays b).foldl (fun s b => s.resetDeficit d b) s1
  s2.modDie d fun x => { x with ring := ring.filter stays ++ now.filter fun b => !ring.contains b }

/-! ### Service (R282) -/

/-- Whether two regions stand in one ring: the same parent and effective priority. -/
def State.sameRing (s : State) (d : Nat) (x y : Word × Ctx) : Bool :=
  s.parentOf x.2 d x.1 == s.parentOf y.2 d y.1 && s.prioOf x.2 d x.1 == s.prioOf y.2 d y.1

/-- The members of a die's rings, head first. -/
def State.members (s : State) (d : Nat) : List (Word × Ctx) :=
  let all := (s.waitingBlocks d) ++ (s.holdingBlocks d).filter fun h => (s.die d).expired.contains h.1
  (s.die d).ring.filterMap fun b => all.find? fun x => x.1 == b

/-- The members whose parent is a block, ring after ring in falling priority (R283); 0 stands above the roots. -/
def State.below (s : State) (d : Nat) (m : List (Word × Ctx)) (parent : Word) : List (Word × Ctx) :=
  [3, 2, 1, 0].flatMap fun p => m.filter fun e => s.parentOf e.2 d e.1 == parent && s.prioOf e.2 d e.1 == p

/-- The regions below a block in order of service: each before those below it (R276). -/
def State.regionOrder (s : State) (d : Nat) (m : List (Word × Ctx)) : Nat → Word → List Word
  | 0, _ => []
  | fuel + 1, parent => (s.below d m parent).flatMap fun e => e.1 :: State.regionOrder s d m fuel e.1

/-- A die's waiting work in order of service: strictly by effective priority, and within one the winners of the last tick first
(R282, R283). -/
def State.workOrder (s : State) (d : Nat) : List Waiting :=
  let order := ((s.die d).grants ++ s.regionOrder d (s.members d) 16 0).dedup
  let ws := order.flatMap fun b => (s.waiting d).filter fun w => w.region == b
  [3, 2, 1, 0].flatMap fun p => ws.filter fun w => s.prioOf w.ctx d w.region == p

def GangDesc.count (g : GangDesc) : Nat := fld g.shape 14 0
def GangDesc.csz (g : GangDesc) : Nat := if fld g.shape 35 31 = 0 then 32 else fld g.shape 35 31
def GangDesc.maxc (g : GangDesc) : Nat := if fld g.shape 39 36 = 0 then 8 else fld g.shape 39 36
def GangDesc.crews (g : GangDesc) : Nat := ceilDiv g.count g.csz
/-- Cores of a gang (R278 step 1). -/
def GangDesc.cores (g : GangDesc) : Nat := min g.maxc g.crews

def State.coresAsked (s : State) (w : Work) : Nat :=
  match w with
  | .gang seq => ((s.gangs.find seq).map fun g => g.desc.cores).getD 0
  | .task _ | .context _ _ => 1

end Sys2Proof.Machine
end

