-- ==== Sys2Proof/Machine/Network.lean ====
section
/-!
DEFINITION. The network engines (12 R335 to R342): the entries NSEND, NPUT and NGET, the answers to their packets, and
what arrives from peers. An entry sends one packet for each row of its record, NSEND one packet in all.
-/
namespace Sys2Proof.Machine

/-! ### Tables of an engine (R336) -/

/-- Physical address of the context-table entry of an ASID. -/
def State.netCtx (s : State) (net asid : Nat) : Nat := (s.net net).ctxbase.toNat % 2 ^ 52 + 32 * asid

/-- STATE of a context: 0 gone, 1 running, 2 suspended, 3 tearing down. -/
def State.netState (s : State) (net asid : Nat) : Nat := fld (s.hwWord (s.netCtx net asid)) 63 62
def State.netHcnt (s : State) (net asid : Nat) : Nat := fld (s.hwWord (s.netCtx net asid)) 55 48
def State.netEcnt (s : State) (net asid : Nat) : Nat := fld (s.hwWord (s.netCtx net asid)) 47 32

/-- VALID of endpoint `p`. -/
def State.endpointValid (s : State) (net asid p : Nat) : Bool :=
  bitAt (s.hwWord (fld (s.hwWord (s.netCtx net asid + 8)) 51 0 + 32 * p + 16)) 24

/-- Word k of handler entry `h`. -/
def State.handlerWord (s : State) (net asid h k : Nat) : Word :=
  s.hwWord (fld (s.hwWord (s.netCtx net asid + 16)) 51 0 + 32 * h + 8 * k)

/-! ### Sending (R337, R338) -/

/-- An entry's packet queued and sent. -/
def State.sendPacket (s : State) (p : Packet) : State :=
  let id := s.nxt.packet
  { s with packets := s.packets.set id p, nxt := { s.nxt with packet := id + 1 }, outputs := s.outputs ++ [.packet id] }

/-- The rows of a record as the engine reads them: bytes per row, words and lines read as zero, and a fault (cause, address). -/
def State.payloadRows (s : State) (w : Who) (t : TileRec) : State × List (List Byte) × List Nat × Option (Nat × Nat) :=
  (List.range t.rows).foldl (fun (q : State × List (List Byte) × List Nat × Option (Nat × Nat)) r =>
    match q.2.2.2 with
    | some _ => q
    | none =>
      let d := q.1.tileRow w t r
      match d.2.2.2 with
      | some f => (d.1, q.2.1, q.2.2.1 ++ d.2.2.1, some (chainCause f.1, f.2.2))
      | none => (d.1, q.2.1 ++ [d.2.1], q.2.2.1 ++ d.2.2.1, none)) (s, [], [], none)

/-- What the three entries share: the ORD wait, the peer, the record and its checks. `f` sends. -/
def netEntry (s : State) (chain ty : Nat) (acc : AccKind)
    (f : State → Chain → TileRec → Word × Word × Word × Word → Nat → EntryRes) : Out :=
  runEntry s chain ty fun s c ws =>
    let w0 := ws.1
    let net := c.unit - 384
    let off := fld ws.2.1 21 0
    let peer := fld w0 31 16
    -- what the chain has sent so far are the packets of its earlier entries
    if bitAt w0 8 && !s.allAcked chain then .skip
    else if s.netEcnt net c.asid ≤ peer ∨ !s.endpointValid net c.asid peer then
      .fail s 0x25 (if ty = 0x20 then c.here s else fld ws.2.2.1 56 0) 0 0
    else if ty ≠ 0x20 ∧ fld ws.2.2.1 3 0 ≠ 0 then .fail s 0x05 (fld ws.2.2.1 56 0) 0 0
    else match s.recordAt c off with
      | (s1, .inr cause) => .fail s1 cause off 0 0
      | (s1, .inl (t, z)) =>
        match s1.checkRecLate (s1.chainWho c) t acc with
        | (s2, _, some e) => .fail s2 e.cause off 0 z
        | (s2, _, none) => f s2 c t ws z

/-- One active message (RUD mode always). -/
def execNsend (chain : Nat) (s : State) : Out :=
  netEntry s chain 0x20 .load fun s c t ws z =>
    let hidx := fld ws.1 39 32
    if 4064 < t.rows * t.rowlen then .fail s 0x24 (c.here s) 0 z
    else if s.netHcnt (c.unit - 384) c.asid ≤ hidx then .fail s 0x25 (c.here s) 0 z
    else match s.payloadRows (s.chainWho c) t with
      | (s1, _, z1, some (cause, fault)) => .fail s1 cause fault 0 (z + z1.dedup.length)
      | (s1, rows, z1, none) =>
        let data := rows.flatten
        let p : Packet := ⟨chain, c.idx, s1.nxt.packet, 0x20, bitAt ws.1 8, fld ws.1 31 16, 0, data.length, data, ws.2.2.1, hidx, false, true⟩
        .go (s1.sendPacket p) { c.next with zsub := c.zsub + z + z1.dedup.length }

def execNput (chain : Nat) (s : State) : Out :=
  netEntry s chain 0x21 .load fun s c t ws z =>
    match s.payloadRows (s.chainWho c) t with
    | (s1, _, z1, some (cause, fault)) => .fail s1 cause fault 0 (z + z1.dedup.length)
    | (s1, rows, z1, none) =>
      let addr := fld ws.2.2.1 56 0
      let one := fun (r : List Byte × Nat) =>
        (⟨chain, c.idx, s1.nxt.packet, 0x21, bitAt ws.1 8, fld ws.1 31 16, BitVec.ofNat 64 (addr + t.rowlen * r.2), t.rowlen, r.1, 0, 0,
          false, true⟩ : Packet)
      .go ((rows.zipIdx.map one).foldl State.sendPacket s1) { c.next with zsub := c.zsub + z + z1.dedup.length }

/-- The packet of an NGET row keeps its record's 32 bytes and its row number. -/
def execNget (chain : Nat) (s : State) : Out :=
  netEntry s chain 0x22 .store fun s c t ws z =>
    match s.areaGet c (fld ws.2.1 21 0) 32 with
    | (s1, .inr cause) => .fail s1 cause (fld ws.2.1 21 0) 0 z
    | (s1, .inl (bs, _)) =>
      let addr := fld ws.2.2.1 56 0
      let one := fun (r : Nat) =>
        (⟨chain, c.idx, s1.nxt.packet, 0x22, bitAt ws.1 8, fld ws.1 31 16, BitVec.ofNat 64 (addr + t.rowlen * r), t.rowlen, bs, 0, r,
          false, true⟩ : Packet)
      .go (((List.range t.rows).map one).foldl State.sendPacket s1) { c.next with zsub := c.zsub + z }

/-! ### Answers to packets (R338, R339, R341) -/

def State.setPacket (s : State) (id : Nat) (p : Packet) : State := { s with packets := s.packets.set id p }

/-- The packet stands acknowledged. -/
def State.acknowledge (s : State) (pkt : Nat) : State :=
  match s.packets.find pkt with
  | some p => s.setPacket pkt { p with acked := true }
  | none => s

def execPacketAck (pkt : Nat) (s : State) : Out :=
  .next (match s.packets.find pkt with
    | some p => if p.kind = 0x22 then s else s.acknowledge pkt
    | none => s)

/-- The entry of a packet fails (R339): bytes acknowledged, and the lowest remote address not acknowledged; the chain is
stopped at that entry, and ends once the entries before it are complete (R143). -/
def State.failPacket (s : State) (pkt cause : Nat) : State :=
  match s.packets.find pkt with
  | none => s
  | some p =>
    match s.chains.find p.chain with
    | none => s
    | some c =>
      let mine := (s.packets.filter fun e => e.2.chain == p.chain && e.2.batch == p.batch).map (·.2)
      let done := (mine.filter (·.acked)).foldl (fun n e => n + e.len) 0
      let open' := (mine.filter fun e => !e.acked).map fun e => e.addr.toNat
      let low := open'.foldl min (open'.headD 0)
      let s1 := s.putChain p.chain { c with state := 4, cause := cause, idx := p.entry, fault := BitVec.ofNat 64 low, done := done }
      { s1 with packets := s1.packets.filter fun e => e.2.chain != p.chain || decide (e.2.batch < p.batch) }

/-- A NACK: the message is sent again (R341); or a peer's answer that the entry fails (R339). -/
def execPacketNack (pkt : Nat) (s : State) : Out :=
  .next (match s.packets.find pkt with
    | none => s
    | some p =>
      if p.acked then s
      else match s.inputs with
        | .refusal k cause :: rest =>
          if k = pkt ∧ (cause = 0x21 ∨ cause = 0x23) then ({ s with inputs := rest }).failPacket pkt cause else s
        | _ =>
          if p.kind = 0x20 then { s.setPacket pkt { p with sent := false } with outputs := s.outputs ++ [.packet pkt] } else s)

/-- The peer stayed unreachable, or full, past the transport time-out. -/
def execTransportTimeout (pkt : Nat) (s : State) : Out :=
  .next (match s.packets.find pkt with
    | some p => if p.acked then s else s.failPacket pkt (if p.sent then 0x20 else 0x22)
    | none => s)

/-- The transport sends a packet again that has had no acknowledgement (R315). -/
def execTransportRetransmission (pkt : Nat) (s : State) : Out :=
  .next (match s.packets.find pkt with
    | some p => if p.acked then s else { s with outputs := s.outputs ++ [.packet pkt] }
    | none => s)

/-! ### Arrivals -/

def State.answer (s : State) (o : Output) : State := { s with outputs := s.outputs ++ [o] }

/-- A message dropped for a context that is gone or being torn down (R331, R341). -/
def State.dropNoTarget (s : State) (net : Nat) : State :=
  (((s.setNet net { s.net net with notgt := satInc48 (s.net net).notgt }).netEvent net 0)).answer (.noTarget net)

/-- On whose behalf a peer's access to a context is made: a user access, without a window. -/
def peerWho (c : Ctx) : Who := { agent := hwAgent, ctx := c, sup := false, lat := true, crew := 0, seq := 0 }

/-- Every page of a remote access, when none is unmapped, denied, in the window span, or an alias (R339). -/
def State.peerPages (s : State) (c : Ctx) (acc : AccKind) (va n : Nat) : Option State :=
  match s.pagesOf (peerWho c) acc (pageStarts va n) with
  | (s1, .inl ps) => if ps.any fun p => p.view != 0 then none else some s1
  | _ => none

/-- A placed packet's bytes, written line by line as Wr requests. -/
def State.peerPut (s : State) (c : Ctx) (va : Nat) (bs : List Byte) : State :=
  ((linePieces (bs.length + 1) va bs.length).foldl (fun (q : State × List Byte) e =>
    ((q.1.enginePut (peerWho c) hwAgent e.1 (q.2.take e.2)).1, q.2.drop e.2)) (s, bs)).1

/-- The returned bytes of an NGET row placed through its record; granules take the record's format (R132). -/
def State.placeGot (s : State) (pkt : Nat) (data : List Byte) : State :=
  match s.packets.find pkt with
  | none => s
  | some p =>
    match s.chains.find p.chain with
    | none => s
    | some c =>
      let t := tileOfBytes p.data
      let w := s.chainWho c
      let m := Move.putRow ⟨s, 0, 0, [], none⟩ w t (t.fmt, t.scaled) p.hidx data
      match m.bad with
      | some (cause, _) => m.s.failPacket pkt cause
      | none => m.s.acknowledge pkt

/-- An NPUT packet of a peer, or the bytes that answer an NGET, placed and acknowledged; dropped by a quiesced package
(R315, R338); bytes for a crew that is off its core are dropped too, and come again. -/
def execPacketPlacement (s : State) : Out :=
  .next (match s.inputs with
    | .put net asid addr data :: rest =>
      let s := { s with inputs := rest }
      if s.halted then s
      else if s.netState net asid = 0 ∨ s.netState net asid = 3 then s.dropNoTarget net
      else match (s.ctxByAsid asid).bind fun c => (s.peerPages c .store (va57 addr) data.length).map fun s1 => (c, s1) with
        | none => s.answer (.refused net)
        | some (c, s1) => (s1.peerPut c (va57 addr) data).answer (.ack net)
    | .got pkt data :: rest =>
      let s := { s with inputs := rest }
      match s.packets.find pkt with
      | some p =>
        if s.halted || p.kind != 0x22 || p.acked || !(s.chains.find p.chain).any s.crewPresent then s else s.placeGot pkt data
      | none => s
    | _ => s)

/-- Bytes of a context as an engine reads them; poisoned lines read zero. -/
def State.contextBytes (s : State) (w : Who) (va n : Nat) : State × List Byte :=
  (linePieces (n + 1) va n).foldl (fun (q : State × List Byte) e =>
    let r := q.1.engineGet w e.1 e.2
    (r.1, q.2 ++ r.2.1)) (s, [])

/-- An NGET of a peer served, or refused with cause 0x23 (R339). -/
def execNgetRequest (s : State) : Out :=
  .next (match s.inputs with
    | .getRequest net asid addr len :: rest =>
      let s := { s with inputs := rest }
      if s.halted then s
      else if s.netState net asid = 0 ∨ s.netState net asid = 3 then s.dropNoTarget net
      else match (s.ctxByAsid asid).bind fun c => (s.peerPages c .load (va57 addr) len).map fun s1 => (c, s1) with
        | none => s.answer (.refused net)
        | some (c, s1) => let r := s1.contextBytes (peerWho c) (va57 addr) len; r.1.answer (.bytes net r.2)
    | _ => s)

/-- A handler task enqueued as waiting work (R341). -/
def State.enqueueTask (s : State) (net asid : Nat) (slot : Word) : State :=
  let hidx := match s.ctxByAsid asid with
    | some c => fld ((s.ctxWord (hwWho c) slot.toNat).getD 0) 23 16
    | none => 0
  (s.modDie 0 fun d => { d with tasks := d.tasks ++ [⟨net, asid, slot, hidx⟩] }).refreshRing 0

/-- The tasks of the slots that were filled while the context was suspended are enqueued, in ring order (R341). -/
def State.resumeTasks (s : State) (net asid : Nat) : State :=
  let mine := (s.net net).suspended.filter fun e => e.1 == asid
  let s1 := s.setNet net { s.net net with suspended := (s.net net).suspended.filter fun e => e.1 != asid }
  mine.foldl (fun s e => s.enqueueTask net asid e.2) s1

/-- A context that is gone or torn down leaves no tasks behind. -/
def State.forgetTasks (s : State) (net asid : Nat) : State :=
  s.setNet net { s.net net with suspended := (s.net net).suspended.filter fun e => e.1 != asid }

/-- The receive ring of a context: its address and number of slots, as the region's inherit bit for it says (R55, R340). -/
def State.receiveRing (s : State) (c : Ctx) (net asid : Nat) : Option (Nat × Nat) :=
  let field := fun (off : Nat) => s.regionField c 0 (s.netRegion net asid) 10 fun b =>
    ((s.cachedWord (hwWho c) 0 b off).getD 0).toNat
  let a := va57 (BitVec.ofNat 64 (field 0x30)) / 4096 * 4096
  if a = 0 then none else some (a, 2 ^ (field 0x38 % 16))

/-- A message written into its slot, VALID last. -/
def State.putMessage (s : State) (c : Ctx) (slot hidx : Nat) (tag : Word) (sender : BitVec 128) (payload : List Byte) : State :=
  let s1 := s.ctxPut (hwWho c) (slot + 8) (natBytes 8 tag.toNat ++ natBytes 16 sender.toNat ++ payload)
  s1.ctxPutWord (hwWho c) slot (BitVec.ofNat 64 (2 ^ 63 + hidx % 256 * 2 ^ 16 + payload.length))

/-- An arriving NSEND (R341). The cursor belongs to the ring, whichever engine the message comes through (R340); a ring page
that the hardware may not write is no page that translates. -/
def State.arriveMessage (s : State) (net asid hidx : Nat) (tag : Word) (sender : BitVec 128) (payload : List Byte) : State :=
  let st := s.netState net asid
  if st = 0 ∨ st = 3 then (s.forgetTasks net asid).dropNoTarget net
  else match s.ctxByAsid asid with
    | none => s.answer (.nack net)
    | some c =>
      match s.receiveRing c net asid with
      | none => s.answer (.nack net)
      | some (base, n) =>
        match (s.resolve (hwWho c) base .load).2 with
        | .page ring =>
          let k := s.cursors.get ring.pa 0 % n
          let slot := base + 4096 * k
          match s.ctxWord (hwWho c) slot with
          | none => s.answer (.nack net)
          | some w =>
            if bitAt w 63 || !s.resolves (hwWho c) .store slot then s.answer (.nack net)
            else
              let s1 := s.putMessage c slot hidx tag sender payload
              let s2 := { s1 with cursors := s1.cursors.set ring.pa ((k + 1) % n) }
              let a := BitVec.ofNat 64 slot
              let s3 := if st = 1 then (s2.resumeTasks net asid).enqueueTask net asid a
                else s2.setNet net { s2.net net with suspended := (s2.net net).suspended ++ [(asid, a)] }
              s3.answer (.ack net)
        | _ => s.answer (.nack net)

def execActiveMessageArrival (s : State) : Out :=
  .next (match s.inputs with
    | .activeMessage net asid hidx tag sender payload :: rest =>
      let s := { s with inputs := rest }
      if s.halted then s else s.arriveMessage net asid hidx tag sender payload
    | _ => s)

/-- The supervisor has set STATE to 1: the tasks of the waiting slots are enqueued, in ring order (R341); to 0 or 3: there are
none any more. -/
def execSuspendedContextResume (net asid : Nat) (s : State) : Out :=
  .next (match s.netState net asid with
    | 1 => s.resumeTasks net asid
    | 2 => s
    | _ => s.forgetTasks net asid)

end Sys2Proof.Machine
end

