-- ==== Sys2Proof/Machine/Frames.lean ====
section
/-!
DEFINITION. Crew frames (11 R306 to R311; 05 R164): a crew written to memory with its threads, its state and its Loam,
and read back into a slot (10 R278 to R280; 13 R354, R355).
-/
namespace Sys2Proof.Machine

/-! ### Engines of a crew that leaves and returns (R144, R221, R355) -/

/-- Running and blocked chains stop, with STATE = 5 in their headers; a network chain at its END that awaits acknowledgements
runs still, and stops there. -/
def State.stopChains (s : State) (c : Nat) : State :=
  (s.chainsOf c).foldl (fun s e =>
    if e.2.state == 1 || e.2.state == 2 || (e.2.state == 3 && !s.allAcked e.1) then
      let ch := { e.2 with state := 5 }
      (s.putChain e.1 ch).writeHeader ch
    else s) s

/-- Stopped chains resume at IDX; the epilogue engine takes up a fifth chain only when one of its four ends (R229). -/
def State.resumeChains (s : State) (c : Nat) : State :=
  (s.chainsOf c).foldl (fun s e =>
    if e.2.state == 5 && s.chainTurn e.1 e.2 then s.putChain e.1 { e.2 with state := 1 } else s) s

/-- Commands that have not started leave the queue and stand with their crew, in order. -/
def State.saveCommands (s : State) (c : Nat) : State :=
  match s.crews.find c with
  | none => s
  | some cr =>
    let q := (s.core cr.core).engines.queue
    let s1 := s.modCore cr.core fun k =>
      { k with engines := { k.engines with queue := k.engines.queue.filter fun x => x.crew != c } }
    s1.modCrew c fun cr => { cr with saved := cr.saved ++ q.filter fun x => x.crew == c }

/-- A command dropped with a trap in its row set: tepc is the PC after the instruction (R221, R355). A parked thread's arrival
is withdrawn first; an AWAY thread takes the trap on its hardware thread, or when it is back in its lane. -/
def State.dropCmd (s : State) (x : Cmd) (cause sub : Nat) (value : Word) : State :=
  let ret := nextPc x.pc
  (x.threads.filter fun k => (s.threads.find k).isSome).foldl (fun (s : State) k =>
    if !(s.thread k).st.away then (s.withdrawIfParked k).takeTrap k cause sub value ret
    else match s.awayHart k with
      | some n => s.takeTrap n cause sub value ret
      | none => s.modThread k fun t => { t with st := { t.st with pending := .trap cause sub value ret } }) (s.lowerTile x.threads)

/-- Put back at the tail of the queue, whatever its length: a crew's saved commands come before any it issues. -/
def State.requeue (s : State) (core : Nat) (x : Cmd) : State := s.enqueue core x

/-- An operand record of a saved command, its checks and its pages (R221, R355): what stops it, if anything does. -/
def State.reenterOperand (s : State) (k : Nat) (addr : Word) (rows : Nat) : State × Option Res :=
  match s.operand k addr rows with
  | (s1, .inr r) => (s1, some r)
  | (s1, .inl (t, f)) =>
    match s1.translateRec (s1.who k) t (f.getD (t.fmt, t.scaled)) .load with
    | (s2, some (c, sub, a)) => (s2, some (.trap c sub (BitVec.ofNat 64 a) false))
    | (s2, none) => (s2, none)

/-- What becomes of a saved command whose check answers: a trap drops it, and anything else leaves it in the queue, behind
a refill that the check has started (R243). -/
def State.settleCmd (s : State) (core : Nat) (x : Cmd) : Res → State
  | .trap c sub v _ => s.dropCmd x c sub v
  | .failed s' c sub v => s'.dropCmd x c sub v
  | .go s' _ => s'.requeue core x
  | .wait => s.requeue core x

/-- A saved fill re-enters (R355): its residency is FILLING, or is taken up again from the source that it records.
One that was revoked drops the fill as it drops an MMA (R414). DESIGN CHOICE (log 59): a DROPPED residency that finds no
free slot stays DROPPED (R237), and the fill ends without a trap. -/
def State.reenterFill (s : State) (core asid : Nat) (x : Cmd) : State :=
  match s.findHandle asid x.b with
  | none => s.dropCmd x cRES_HANDLE 0 x.b
  | some (on, i, h) =>
    if h.state == .filling then s.requeue core x
    else match h.slot.or (s.core on).freeSlot with
      | none => s.lowerTile x.threads
      | some n =>
        (s.putHandle on i { h with state := .filling, slot := some n, lines := [], views := [], touched := false }).requeue core x

/-- One saved command re-enters: residencies and operand translations are checked again (R221, R355). -/
def State.reenterCmd (s : State) (core : Nat) (x : Cmd) : State :=
  let k := x.threads.headD 0
  if x.isFill then s.reenterFill core (s.ctxOf k).asid x
  else if !x.isMma then s.requeue core x
  else match s.reenterOperand k x.a 32 with
    | (s1, some r) => s1.settleCmd core x r
    | (s1, none) =>
      if x.isK then
        match s1.residency k x.b false with
        | .inl _ => s1.requeue core x
        | .inr r => s1.settleCmd core x r
      else match s1.reenterOperand k x.b 128 with
        | (s2, some r) => s2.settleCmd core x r
        | (s2, none) => s2.requeue core x

def State.reenter (s : State) (c : Nat) : State :=
  match s.crews.find c with
  | none => s
  | some cr => cr.saved.foldl (fun s x => s.reenterCmd cr.core x) (s.modCrew c fun cr => { cr with saved := [] })

/-! ### Writing a crew frame (R310) -/

/-- Bytes of a crew's frame, in whole units of 4 KiB. -/
def frameLen (granules : Nat) : Nat := ceilDiv (0x8800 + granule * granules) 4096 * 4096

/-- The frame of an AWAY lane. -/
def awayFrame (t : Thread) (c : Crew) (lane : Nat) : List Word :=
  let w := fun (n : Nat) => BitVec.ofNat 64 n
  List.replicate 65 0 ++
  [ w (2 ^ 31 + 2 ^ 30 * boolBit t.st.poison + 2 ^ 28 + c.part * 2 ^ 18 + c.slot * 2 ^ 14 + lane * 2 ^ 9 + 1), t.ids.tid,
    w (t.ids.gsize.toNat * 2 ^ 32 + t.ids.gang.toNat), w (t.ids.seq % 2 ^ 48) ]
  ++ List.replicate 8 0 ++ [w (t.loambase * 2 ^ 16 + t.regcnt)] ++ List.replicate 50 0

/-- The frame of lane `l`: VALID = 0 when it holds no thread. -/
def State.crewLane (s : State) (c : Nat) (cr : Crew) (l : Nat) : List Word :=
  match s.threads.find (laneKey c l) with
  | none => List.replicate 128 0
  | some t => if t.st.away then awayFrame t cr l else s.laneFrame (laneKey c l)

def scopeOfCode (n : Nat) : Scope := (Scope.ofCode n).getD .sy

/-- A chain's cursor: two words. -/
def State.cursorWords (s : State) (e : (Nat × Chain) × Nat) : List Word :=
  let c := e.1.2
  [ BitVec.ofNat 64 (2 ^ 63 + e.2 % 256 * 2 ^ 28 + c.scope.code * 2 ^ 25 + (if c.engine = 2 then c.unit - 384 else 0) % 2 * 2 ^ 24
      + c.engine * 2 ^ 22 + s.headerOff c % 2 ^ 22),
    BitVec.ofNat 64 (c.counting.foldl (fun m k => m ||| (laneBit (laneOf k)).toNat) 0) ]

def padTo (n : Nat) (ws : List Word) : List Word := (ws ++ List.replicate n 0).take n

/-- The header: 256 words. -/
def State.crewHeader (s : State) (c : Nat) (cr : Crew) (len : Nat) : List Word :=
  let w := fun (n : Nat) => BitVec.ofNat 64 n
  let ts := (List.range 32).map fun l => s.threads.find (laneKey c l)
  let mask := fun (p : Thread → Bool) => (List.range 32).foldl (fun m l =>
    if (ts.getD l none).any p then m + 2 ^ l else m) 0
  let arrived := match s.gangs.find cr.seq with
    | some g => mask fun t => g.arrived.contains t.ids.gang.toNat
    | none => 0
  let ages := (List.range 32).map fun l => (((ts.getD l none).map fun t => t.st.age).getD 0) % 2 ^ 32
  let pairs := (List.range 16).map fun i => w (ages.getD (2 * i) 0 + 2 ^ 32 * ages.getD (2 * i + 1) 0)
  let mapWord := fun (m : ShMap) => [w (2 ^ 63 + m.tcidx * 2 ^ 17 + m.count * 2 ^ 12 + m.t * 2 ^ 6 + m.d), 0]
  let cmdWords := fun (x : Cmd) => [x.word, w (x.level * 2 ^ 32 + x.rows.toNat), x.a, x.b]
  let setWords := fun (a : ArrivalSet) => [a.pc, w (a.members.toNat * 2 ^ 32 + a.arrived.toNat)]
  let ring := fun (k : Nat) => let cfg := s.ringCfg cr k; if ringValid cfg then w (2 ^ 63 + ringSlots cfg) else 0
  [ w (1 + len / 4096 * 2 ^ 16), w (cr.seq % 2 ^ 48),
    w (cr.core + cr.part * 2 ^ 9 + cr.slot * 2 ^ 11 + cr.cidx * 2 ^ 15 + cr.lsg * 2 ^ 24 + (cr.size - 1) * 2 ^ 32 + cr.gci * 2 ^ 37),
    cr.region, w cr.asid,
    w (mask (fun _ => true) + 2 ^ 32 * mask (·.st.away)), w arrived, cr.cbSlots ]
  ++ cr.joins.toList.map (fun j => w (j.v.toNat * 2 ^ 32 + j.e.toNat))
  ++ List.replicate 32 0
  ++ padTo 4 (cr.maps.flatMap mapWord)
  ++ (List.range 32).map (fun l => cr.full.get l 0)
  ++ pairs
  ++ padTo 32 ((s.chainsOf c).zipIdx.flatMap s.cursorWords)
  ++ padTo 32 (cr.saved.flatMap cmdWords)
  ++ (List.range 4).map ring
  ++ padTo 64 (cr.sets.flatMap setWords)
  ++ List.replicate 24 0

/-- A Loam range as the leach engine copies it: words of bad parity read zero, each counted (R84). -/
def State.leachBytes (s : State) (core : Nat) (b : Bool) (off n : Nat) : State × List Byte :=
  let bad := (s.core core).badParity.filter fun e => e.1 == b && decide (off ≤ e.2) && decide (e.2 < off + n)
  let zero := fun (bs : List Byte) (e : Bool × Nat) => bs.take (e.2 - off) ++ [0, 0, 0, 0] ++ bs.drop (e.2 - off + 4)
  (bad.foldl (fun s _ => s.countParity core) s, bad.foldl zero (s.loamBytes core b off n))

/-- The crew's Loam as its frame holds it: the allocation, then its ring slots, ring 0 first. -/
def State.crewLoam (s : State) (cr : Crew) : State × List Byte :=
  let rings := (List.range 4).filterMap fun k =>
    let cfg := s.ringCfg cr k
    if ringValid cfg then some (ringBase cfg, ringSlots cfg * granule) else none
  ((cr.base, (cr.lsg + 2) * granule) :: rings).foldl (fun (q : State × List Byte) r =>
    let x := q.1.leachBytes cr.core cr.bank r.1 r.2
    (x.1, q.2 ++ x.2)) (s, [])

/-- Whether every load, store and atomic of a crew has returned, its commands in progress are done, and its chains stand
stopped: those that have ended are counted off first (R142, R164, R306). -/
def State.crewDrained (s : State) (c : Nat) : Bool :=
  (s.chainsOf c).all (fun e => e.2.state != 3 && e.2.state != 4)
  && (s.laneKeys c).all (fun k => (s.pendingOf k).isEmpty && (s.thread k).oc.ld == 0 && (s.thread k).oc.st == 0)
  && (match s.crews.find c with
    | some cr => let e := (s.core cr.core).engines
      !e.current.any (·.crew == c) && !e.fill.any (·.crew == c)
    | none => true)

/-- No thread of a crew stands past a service call (R52). -/
def State.speechless (s : State) (c : Nat) : Bool := (s.laneKeys c).all fun k => (s.thread k).spec.mode == .normal

/-- The crew stands stopped: back-off levels discarded (R308), its threads in no bundle, its commands with it and its
chains stopped. Threads past a service call are squashed `now`, or else by their reply or the time-out (R52). -/
def State.haltCrew (s : State) (c : Nat) (now : Bool) : State :=
  let calm := fun (t : Thread) =>
    { t with st := { t.st with live := false, level := 0, held := false, lowered := false, sleeping := false } }
  let s1 := (s.laneKeys c).foldl (fun s k =>
    let s := if now && (s.thread k).spec.mode != .normal then s.squash k else s
    (s.leaveBundle k).modThread k calm) s
  (s1.stopChains c).saveCommands c

/-- The crew written to its frame; its slot and Loam are free, and the charges of a region that leaves are posted
(R281). -/
def State.writeCrew (s : State) (c frame : Nat) : State :=
  match s.crews.find c with
  | none => s
  | some cr =>
    let d := cr.core / Config.coresPerDie
    let ctx := (s.core cr.core).ctxOf cr.asid
    let s0 := (s.laneKeys c).foldl State.scrub (s.accrue cr.core)
    let g := s0.crewGranules cr
    let lanes := (List.range 32).flatMap fun l => wordsBytes (s0.crewLane c cr l)
    let r := s0.crewLoam cr
    let s1 := r.1.hwPut frame (wordsBytes (s0.crewHeader c cr (frameLen g)) ++ lanes ++ r.2)
    let s2 := (s1.chargeLoam ctx d cr.region (-(g : Int))).modCrew c fun cr => { cr with place := .saved frame, spent := [] }
    ((s2.recount ctx d cr.region).postLeaving cr.core cr.asid cr.region).writeBackPath ctx d cr.region

/-! ### Room on a core (R278, R279, R280, R354) -/

/-- Where a crew goes: slot, scratch offset and the window of each lane. -/
structure Room where
  part : Nat
  slot : Nat
  base : Nat
  lsg : Nat
  windows : List Nat
  regs : List Nat
  deriving DecidableEq, Repr

/-- The lowest free crew slot of a partition in a bank. -/
def State.freeSlot (s : State) (core part : Nat) (bank : Bool) (taken : List Room) : Option Nat :=
  (List.range 16).find? fun n =>
    !((s.crewsOn core).any fun e => e.2.part == part && e.2.slot == n && e.2.bank == bank)
    && !(taken.any fun r => r.part == part && r.slot == n)

/-- Scratch allocations of a bank: (offset, bytes). -/
def State.scratchRuns (s : State) (core : Nat) (bank : Bool) : List (Nat × Nat) :=
  ((s.crewsOn core).filter fun e => e.2.bank == bank).map fun e => (e.2.base, (e.2.lsg + 2) * granule)

/-- Room for one crew of `lsg` granules in a partition, with `regs` the register allotment of each lane (0 for a lane
without a thread), beside rooms already taken. `word` is the partition word that governs. -/
def State.roomFor (s : State) (core part : Nat) (bank : Bool) (word : Word) (lsg : Nat) (regs : List Nat)
    (taken : List Room) : Option Room :=
  let c := { s.core core with partWord := word }
  match s.freeSlot core part bank taken with
  | none => none
  | some slot =>
    let used := s.scratchRuns core bank ++ taken.map fun r => (r.base, (r.lsg + 2) * granule)
    match findRun (c.regg * granule) (c.scrg * granule) ((lsg + 2) * granule) granule used with
    | none => none
    | some base =>
      let wins := regs.zipIdx.map fun e =>
        if e.1 = 0 then some 0
        else
          let sl := c.slice part e.2
          let mine := taken.filterMap fun r =>
            if r.part = part ∧ r.regs.getD e.2 0 ≠ 0 then some (r.windows.getD e.2 0, 8 * r.regs.getD e.2 0) else none
          findRun sl.1 sl.2 (8 * e.1) 64 (s.windowsIn core part e.2 bank ++ mine)
      if wins.all Option.isSome then some ⟨part, slot, base, lsg, wins.map (·.getD 0), regs⟩ else none

/-- Crews complete in the shadow bank (R304, R356). -/
def State.shadowed (s : State) (core : Nat) : List Nat :=
  ((s.crewsOn core).filter fun e => e.2.place == .shadow).map (·.1)

/-- The last crew of the running context has exited while a pre-empted context stands complete in the shadow bank: the core
switches to that one (R356), and takes no other. -/
def State.flips (s : State) (core : Nat) : Bool :=
  let c := s.core core
  c.switch.isNone && !(s.shadowed core).isEmpty
    && !(s.crewsOn core).any fun e => e.2.bank == c.actb && !(s.laneKeys e.1).isEmpty

/-- The bank into which a placement or a restore goes: the active one, or on a core that is switching with a free shadow
bank that one (R304). -/
def State.fillBank (s : State) (core : Nat) : Bool × Bool :=
  let act := (s.core core).actb
  if (s.core core).shadow && (s.core core).switch.isSome then (!act, true) else (act, false)

/-- Whether a core can take crews now: not switching, or switching with an empty shadow bank. -/
def State.canFill (s : State) (core : Nat) : Bool :=
  ((s.core core).switch.isNone && !s.flips core)
  || ((s.core core).shadow && !(s.crewsOn core).any fun e => e.2.bank != (s.core core).actb)

/-- The partition word for `k` crews of `regs` registers and `lsg` granules, or `none` when they do not fit (R279). -/
def partitionWord (k lsg regs : Nat) (shadow : Bool) : Option Word :=
  let q := ceilDiv k 4
  let regg := min 64 (max 32 (2 * ceilDiv (q * regs * 8) 128))
  let bank := regg + k * (lsg + 2) + 2 * k
  let banks := if shadow then 2 else 1
  if 256 < banks * bank + 4 then none
  else some (BitVec.ofNat 64 (2 ^ 40 * boolBit shadow + (256 - banks * bank) * 2 ^ 24 + 2 * k * 2 ^ 16 + k * (lsg + 2) * 2 ^ 8 + regg))

/-! ### Reading a crew frame back (R311) -/

/-- The context record of a die reaches a core at a switch-in (R481). -/
def State.switchInCtx (s : State) (core asid : Nat) : State :=
  match (s.die (core / Config.coresPerDie)).contexts.find asid with
  | some c => s.modCore core fun k => { k with ctxs := k.ctxs.set asid c }
  | none => s

/-- The crew of a gang with an index, on a core. -/
def State.crewByIndex (s : State) (core seq cidx : Nat) : Option Nat :=
  (s.crews.find? fun e => e.2.core == core && e.2.seq == seq && e.2.cidx == cidx).map (·.1)

def hdr (ws : List Word) (off : Nat) : Word := ws.getD (off / 8) 0

/-- The crew that a header holds; `old` keeps what no header word holds. DESIGN CHOICE (log 51): a mapping names its target
by CIDX alone; a target of the crew's own gang on the core is found again, and any other mapping is dropped. -/
def State.crewOfHeader (s : State) (ws : List Word) (old : Crew) : Crew :=
  let id := hdr ws 0x010
  let seq := fld (hdr ws 0x008) 47 0
  let core := fld id 8 0
  let low := fun (w : Word) => BitVec.ofNat 32 (fld w 31 0)
  let high := fun (w : Word) => BitVec.ofNat 32 (fld w 63 32)
  let maps := (List.range 2).filterMap fun i =>
    let m := hdr ws (0x180 + 16 * i)
    if bitAt m 63 then (s.crewByIndex core seq (fld m 25 17)).map fun t => (⟨t, fld m 25 17, fld m 5 0, fld m 11 6, fld m 16 12⟩ : ShMap)
    else none
  let full := (List.range 32).foldl (fun (m : AMap (BitVec 64)) l =>
    let w := hdr ws (0x1A0 + 8 * l)
    if w = 0 then m else m.set l w) []
  let cmds := (List.range 8).filterMap fun i =>
    let a := 0x420 + 32 * i
    let w := hdr ws a
    let o := old.saved.getD i (Cmd.new 0 0 0 0 0 0 0 false)
    if w = 0 then none
    else some { o with word := w, rows := low (hdr ws (a + 8)), level := fld (hdr ws (a + 8)) 33 32, a := hdr ws (a + 16),
                       b := hdr ws (a + 24), slot := none }
  let sets := (List.range 32).filterMap fun i =>
    let w := hdr ws (0x540 + 16 * i + 8)
    if w = 0 then none else some (⟨low57 (hdr ws (0x540 + 16 * i)), high w, low w⟩ : ArrivalSet)
  { old with
    core := core, part := fld id 10 9, slot := fld id 14 11, cidx := fld id 23 15, lsg := fld id 31 24,
    size := fld id 36 32 + 1, gci := fld id 39 37, region := hdr ws 0x018, asid := fld (hdr ws 0x020) 15 0, seq := seq,
    joins := Vector.ofFn fun i : Fin 8 => let w := hdr ws (0x040 + 8 * i.val); ⟨low w, high w⟩,
    sets := sets, maps := maps, full := full, cbSlots := hdr ws 0x038, saved := cmds, watchdog := 0 }

/-- A lane's thread from its frame: home, window and order of age; what no frame word holds stays as it was. A thread
that waits in a join, an arrival set or a barrier stands there still; any other parked thread executes its instruction
again (R27, R311). -/
def Thread.ofLane (ws : List Word) (old : Option Thread) (cr : Crew) (lane base age : Nat) : Thread :=
  let t := threadOfFrame ws
  let stays := match t.st.park with
    | .join _ | .xlane | .gbar => (match old with | some o => o.st.park == t.st.park && o.pc == t.pc | none => true)
    | _ => false
  let o := old.getD t
  { t with
    ids := { t.ids with lane := lane, cidx := cr.cidx, gci := cr.gci }
    loambase := base
    st := { t.st with live := !t.st.away, park := if stays then t.st.park else .none,
                      again := if stays then o.st.again else none, stamp := o.st.stamp, age := age,
                      pending := match o.st.pending with | .esc c v => .esc c v | _ => .none }
    signals := o.signals, failures := o.failures }

/-- Whether a frame may be restored: no POISON, and a register allotment that exists (R87, R311). -/
def laneOk (ws : List Word) : Bool :=
  let st := hdr ws 0x208
  let r := fld (hdr ws 0x268) 6 0
  !bitAt st 31 || (!bitAt st 30 && decide (16 ≤ r) && decide (r ≤ 64) && r % 8 == 0)

/-- Register allotments of the lanes of a saved crew. -/
def laneRegs (lanes : List (List Word)) : List Nat :=
  lanes.map fun ws => if bitAt (hdr ws 0x208) 31 then fld (hdr ws 0x268) 6 0 else 0

def State.frameHeader (s : State) (f : Nat) : List Word := (List.range 256).map fun k => s.hwWord (f + 8 * k)
def State.frameLanes (s : State) (f : Nat) : List (List Word) := (List.range 32).map fun l => s.frameAt (f + 0x800 + 1024 * l)

/-- Ring granules in use in a bank by crews other than `skip`. -/
def State.otherRings (s : State) (core : Nat) (bank : Bool) (skip : Nat) : List (Nat × Nat) :=
  ((s.crewsOn core).filter fun e => e.2.bank == bank && e.1 != skip).flatMap fun e =>
    (List.range 4).filterMap fun k =>
      let w := s.ringCfg e.2 k
      if ringValid w then some (ringBase w, ringSlots w * granule) else none

/-- Runs for the rings of a crew that returns, by their slot counts (0 for none). -/
def ringRooms (c : Core) (used : List (Nat × Nat)) : List Nat → Option (List Nat)
  | [] => some []
  | 0 :: r => (ringRooms c used r).map (0 :: ·)
  | n :: r =>
    match findRun ((c.regg + c.scrg) * granule) (c.ringg * granule) (n * granule) granule used with
    | some a => (ringRooms c ((a, n * granule) :: used) r).map (a :: ·)
    | none => none

/-- Slot counts of the rings in a header. -/
def ringCounts (ws : List Word) : List Nat :=
  (List.range 4).map fun k => let w := hdr ws (0x520 + 8 * k); if bitAt w 63 then fld w 3 0 else 0

/-- A run of Loam handed to a crew: what stood there is gone. -/
def State.forgetLoam (s : State) (core : Nat) (b : Bool) (a n : Nat) : State :=
  s.modCore core fun x => x.setBank b ((x.bank b).forget a n)

/-- The Loam of a crew read back from its frame: the allocation, and the ring slots into fresh runs, whose offsets the
descriptors take; the counters are those that the frame's descriptors hold. -/
def State.loadCrewLoam (s : State) (cr : Crew) (f : Nat) (counts bases : List Nat) : State :=
  let n := (cr.lsg + 2) * granule
  let s1 := (s.forgetLoam cr.core cr.bank cr.base n).putLoam cr.core cr.bank cr.base (s.peekBytes (f + 0x8800) n)
  ((List.range 4).foldl (fun (q : State × Nat) k =>
    let len := counts.getD k 0 * granule
    if len = 0 then q
    else
      let a := bases.getD k 0
      let cfg := BitVec.ofNat 64 (2 ^ 63 + Nat.log2 (counts.getD k 0) * 2 ^ 32 + a)
      let s2 := (q.1.forgetLoam cr.core cr.bank a len).putLoam cr.core cr.bank a (s.peekBytes (f + q.2) len)
      (s2.putRing cr k cfg (ringInRange cfg (s1.specWord cr (0x7D00 + 32 * k + 8))), q.2 + len))
    (s1, f + 0x8800 + n)).1

/-- What the restore of a crew needs on its core: the bank, whether that is the shadow bank, room, rings, and the
partition word to install when the core holds no context. -/
structure Fit where
  bank : Bool
  shadow : Bool
  word : Word
  room : Room
  rings : List Nat
  deriving DecidableEq, Repr

/-- Effective SHADOW of a region (R54, R55). -/
def State.shadowOf (s : State) (c : Ctx) (d : Nat) (leaf : Word) : Bool :=
  match s.regionPath (hwWho c) d leaf with
  | none => false
  | some path => effectiveField (s.cachedWord (hwWho c) d) 4
      (fun b => boolBit (bitAt ((s.cachedWord (hwWho c) d b 0x08).getD 0) 8)) path == 1

/-- Whether a block on the path holds a reserved value or cannot be read (R57): POL and PCM of 2 and 3. -/
def State.pathBad (s : State) (c : Ctx) (d : Nat) (leaf : Word) : Bool :=
  match s.regionPath (hwWho c) d leaf with
  | none => true
  | some path => path.any fun b =>
      let w := (s.cachedWord (hwWho c) d b 0x08).getD 0
      decide (2 ≤ fld w 3 2) || decide (2 ≤ fld w 7 6)

/-- Where the scratch of a returning crew lies in a bank that holds no crew of another context: by its rank among the crews
of its context on the core, if that run is free (R354). -/
def State.rankBase (s : State) (c f : Nat) (bank : Bool) (word : Word) : Option Nat :=
  let ws := s.frameHeader f
  let id := hdr ws 0x010
  let core := fld id 8 0
  let cidx := fld id 23 15
  let asid := fld (hdr ws 0x020) 15 0
  let n := (fld id 31 24 + 2) * granule
  let k := { s.core core with partWord := word }
  let lower := s.crews.filter fun e => e.2.core == core && e.2.asid == asid
    && (decide (e.2.cidx < cidx) || (e.2.cidx == cidx && decide (e.1 < c)))
  let base := k.regg * granule + lower.length * n
  if (s.crewsOn core).any (fun e => e.2.bank == bank && e.2.asid != asid) || decide ((k.regg + k.scrg) * granule < base + n) then none
  else findRun base n n granule (s.scratchRuns core bank)

/-- Where a saved crew fits now, if it does: slot, scratch, windows and rings (R280). -/
def State.crewFit (s : State) (c f : Nat) (bank shadow : Bool) : Option Fit :=
  let ws := s.frameHeader f
  let lanes := s.frameLanes f
  let id := hdr ws 0x010
  let core := fld id 8 0
  let lsg := fld id 31 24
  let d := core / Config.coresPerDie
  let asid := fld (hdr ws 0x020) 15 0
  let regs := laneRegs lanes
  if !lanes.all laneOk then none
  else
    let empty := (s.crewsOn core).isEmpty
    let bank := bank && !empty
    let word : Option Word :=
      if empty then
        partitionWord (max 1 (s.waitingCrews core asid).length) lsg (regs.foldl max 16)
          (s.shadowOf (s.dieCtx d asid) d (hdr ws 0x018))
      else some (s.core core).partWord
    match word with
    | none => none
    | some w =>
      match s.roomFor core (fld id 10 9) bank w lsg regs [] with
      | none => none
      | some room =>
        match ringRooms { s.core core with partWord := w } (s.otherRings core bank c) (ringCounts ws) with
        | none => none
        | some rings => some ⟨bank, shadow, w, { room with base := (s.rankBase c f bank w).getD room.base }, rings⟩

/-- The slots of a partition that receives its first context start afresh: RR pointers at 15, no greedy bundle (R347). -/
def State.freshPartition (s : State) (core part : Nat) : State :=
  if (s.crewsOn core).any fun e => e.2.part == part then s
  else
    s.modCore core fun c => { c with rr := c.rr.filter fun e => e.1 / 3 != part, greedy := c.greedy.filter fun e => e.1 / 3 != part }

/-- New ages for the lanes, in the order recorded, behind every thread (R311): the rank of lane `l`. -/
def ageRank (ws : List Word) (l : Nat) : Nat :=
  let age := fun (k : Nat) => fld (hdr ws (0x2A0 + 8 * (k / 2))) (32 * (k % 2) + 31) (32 * (k % 2))
  ((List.range 32).filter fun k => age k < age l || (age k == age l && k < l)).length

/-- The crew loaded from its frame into the room found: threads, crew state, Loam, context registers. -/
def State.loadCrew (s : State) (c f : Nat) (fit : Fit) (old : Crew) : State :=
  let ws := s.frameHeader f
  let lanes := s.frameLanes f
  let cr0 := s.crewOfHeader ws old
  let own := fun (x : Cmd) => { x with crew := c }
  let cr : Crew := { cr0 with
    slot := fit.room.slot, base := fit.room.base, bank := fit.bank, place := if fit.shadow then .shadow else .resident,
    saved := cr0.saved.map own, frame := f, faulted := false }
  let s1 := (s.freshPartition cr.core cr.part).modCore cr.core fun k => { k with partWord := fit.word }
  -- a chain's header keeps its offset in the scratch (R136)
  let moved := fun (e : Nat × Chain) => if e.2.crew = some c then
    (e.1, { e.2 with addr := e.2.addr + BitVec.ofNat 64 cr.base - BitVec.ofNat 64 old.base }) else e
  let s2 := { s1 with crews := s1.crews.set c cr, chains := s1.chains.map moved }
  let s3 := lanes.zipIdx.foldl (fun (s : State) e =>
    let k := laneKey c e.2
    if !bitAt (hdr e.1 0x208) 31 then { s with threads := s.threads.del k }
    else
      let old := s.threads.find k
      let t := Thread.ofLane e.1 old cr e.2 (fit.room.windows.getD e.2 0) (s.nxt.age + ageRank ws e.2)
      let t := if old.isNone then t.unknownHeld (s.free + 2 * e.2) else t
      -- an AWAY lane keeps only what its frame holds
      let held := old.getD t
      let t := if t.st.away then { held with loambase := t.loambase, regcnt := t.regcnt,
                                             st := { held.st with away := true, live := false, poison := t.st.poison, age := t.st.age } } else t
      s.setThread k { t with st := { t.st with live := t.st.live && !fit.shadow } }) s2
  let s4 := { s3 with nxt := { s3.nxt with age := s3.nxt.age + 32 }, free := s3.free + 64 }
  let s5 := s4.loadCrewLoam cr f (ringCounts ws) fit.rings
  s5.switchInCtx cr.core cr.asid

/-- The frames of a crew take its new slot, windows and ring offsets (R280, R311). -/
def State.rewriteFrame (s : State) (f : Nat) (fit : Fit) : State :=
  let lsg := fld (s.hwWord (f + 0x010)) 31 24
  let counts := ringCounts (s.frameHeader f)
  let put := fun (s : State) (a hi lo v : Nat) => s.hwPutWord a (setFld (s.hwWord a) hi lo v)
  let s1 := (List.range 32).foldl (fun (s : State) l =>
    let a := f + 0x800 + 1024 * l
    if bitAt (s.hwWord (a + 0x208)) 31 then
      put (put s (a + 0x208) 17 14 fit.room.slot) (a + 0x268) 37 16 (fit.room.windows.getD l 0)
    else s) s
  (List.range 4).foldl (fun s k =>
    if counts.getD k 0 = 0 then s
    else put s (f + 0x8800 + lsg * granule + 0x7D00 + 32 * k) 21 0 (fit.rings.getD k 0)) s1

/-- A crew of a save area loaded, and charged to its region. -/
def State.readCrew (s : State) (c f : Nat) (fit : Fit) (old : Crew) : State :=
  let s1 := ((s.accrue old.core).rewriteFrame f fit).loadCrew c f fit old
  match s1.crews.find c with
  | none => s1
  | some cr =>
    let d := cr.core / Config.coresPerDie
    let ctx := s1.dieCtx d cr.asid
    ((s1.chargeLoam ctx d cr.region (s1.crewGranules cr)).recount ctx d cr.region).writeBackPath ctx d cr.region

/-- Whether a region's path lets a saved crew return: no malformed block (R57), and caps that admit its granules and its
core (R56). -/
def State.pathAdmits (s : State) (c : Ctx) (d : Nat) (cr : Crew) (f : Nat) : Bool :=
  let g := (ringCounts (s.frameHeader f)).foldl (· + ·) (cr.lsg + 2)
  cr.region == 0 || (!s.pathBad c d cr.region && s.capsAdmit c d cr.region (s.newCores c d [cr.core]) g)

/-- Threads that have waited for a restored crew's slot: arrivals whose barrier has closed go on (R400), sets that name a
lane without a thread fail (R39), released joins release (R35). -/
def State.settleCrew (s : State) (c : Nat) : State :=
  match s.crews.find c with
  | none => s
  | some cr =>
    let s1 := (s.laneKeys c).foldl (fun (s : State) k =>
      let t := s.thread k
      let open' := match s.gangs.find t.ids.seq with
        | some g => g.arrived.contains t.ids.gang.toNat
        | none => false
      if t.st.park == .gbar && !open' then s.unpark k else s) s
    let gone := cr.sets.filter fun a => (lanesOf a.members).any fun l => (s1.threads.find (laneKey c l)).isNone
    (gone.foldl (fun s a => s.failSet c a) s1).evalJoins c

/-- An escalated thread back in its held lane, at the PC in the frame, with what its lane holds (R299), a trap that came for
it meanwhile among it. -/
def State.rejoinLane (s : State) (k f : Nat) : State :=
  let t := threadOfFrame (s.frameAt f)
  let h := s.thread k
  let back : Thread := { t.withHeld h.signals h.failures with
    regcnt := h.regcnt, loambase := h.loambase, ids := h.ids, oc := h.oc
    st := { ThreadStatus.ready with age := h.st.age } }
  ((s.setThread k back).dropEscalated k).takeHeldTrap k h

/-- Returns recorded while the crew stood saved (R299). -/
def State.makeReturns (s : State) (c : Nat) : State :=
  match s.crews.find c with
  | none => s
  | some cr =>
    let d := cr.core / Config.coresPerDie
    let mine := (s.die d).returning.filter fun k => crewOf k == c
    let s1 := s.modDie d fun x => { x with returning := x.returning.filter fun k => crewOf k != c }
    mine.foldl (fun s k => match (s.die d).escalated.find? fun e => e.2 == k with
      | some e => s.rejoinLane k e.1
      | none => s) s1

/-- The crew runs: commands re-enter, chains resume, recorded returns are made. -/
def State.startCrew (s : State) (c : Nat) : State :=
  let go := fun (t : Thread) => { t with st := { t.st with live := !t.st.away } }
  let s1 := (s.laneKeys c).foldl (fun s k => s.modThread k go) s
  let s2 := s1.modCrew c fun cr => { cr with place := .resident }
  (((s2.settleCrew c).makeReturns c).reenter c).resumeChains c

end Sys2Proof.Machine
end

