-- ==== Sys2Proof/Machine/Gang.lean ====
section
/-!
DEFINITION. Gangs (01 R42 to R49; 19 R422 to R424; 10 R278, R279): creation by MIGRATE, placement, fan-in, the movement of
a thread to a latency core and back, and the crews of handler tasks (12 R342).
-/
namespace Sys2Proof.Machine

/-! ### The descriptor (R42) -/

def GangDesc.regs (g : GangDesc) : Nat := fld g.shape 22 16
def GangDesc.lsg (g : GangDesc) : Nat := fld g.shape 30 23
def GangDesc.fid (g : GangDesc) : Nat := fld g.shape 43 40
def GangDesc.wsn (g : GangDesc) : Nat := fld g.shape 48 44
/-- Threads of crew c. -/
def GangDesc.crewSize (g : GangDesc) (c : Nat) : Nat := min g.csz (g.count - c * g.csz)

/-- A field out of range or misaligned, or more crews than the cores have slots (R43, R278 step 2). -/
def GangDesc.bad (g : GangDesc) : Bool :=
  g.entry.toNat % 8 != 0 || g.region.toNat % 256 != 0 || g.completion.toNat % 8 != 0
    || (g.wsn != 0 && g.wsTable.toNat % 16 != 0)
    || g.count == 0 || decide (16384 < g.count) || decide (g.regs < 16) || decide (64 < g.regs) || g.regs % 8 != 0
    || decide (8 < g.maxc) || decide (16 < g.wsn) || decide (64 * g.cores < g.crews)

/-- Crews of gang core index i (R278 step 3). -/
def GangDesc.share (g : GangDesc) (i : Nat) : List Nat := (List.range g.crews).filter fun c => c % g.cores == i

/-! ### Registration (R44) -/

/-- A single entry of the tid table holds the range for the ASID (R44). -/
def State.tidsRegistered (s : State) (asid base count : Nat) : Bool :=
  let t := fld s.pkg.tidreg 51 12 * 4096
  t != 0 && (List.range 256).any fun k =>
    let w0 := s.peekWord (t + 32 * k)
    let first := (s.peekWord (t + 32 * k + 8)).toNat
    let n := (s.peekWord (t + 32 * k + 16)).toNat
    bitAt w0 63 && fld w0 15 0 == asid && decide (first ≤ base) && decide (base + count ≤ first + n)
      && decide (1 ≤ n) && decide (n ≤ 2 ^ 48)

/-! ### Working sets (R42, R43) -/

/-- An entry: source, length, destination offset. -/
def State.wsEntry (s : State) (w : Who) (table k : Nat) : Option (Nat × Nat × Nat) :=
  match s.ctxWord w (table + 16 * k), s.ctxWord w (table + 16 * k + 8) with
  | some a, some b => some (va57 a, fld b 21 0, fld b 43 22)
  | _, _ => none

def State.wsEntries (s : State) (w : Who) (g : GangDesc) : List (Option (Nat × Nat × Nat)) :=
  (List.range g.wsn).map (s.wsEntry w (va57 g.wsTable))

/-- An entry's bytes staged into a crew's scratch, line by line: nothing more after a page that fails, zeros for a
poisoned line. -/
def State.stage (s : State) (w : Who) (cr : Crew) (e : Nat × Nat × Nat) : State :=
  ((List.range (e.2.1 / 128)).foldl (fun (q : State × Bool) j =>
    if q.2 then q
    else
      let r := q.1.engineGet w (e.1 + 128 * j) 128
      match r.2.2.2 with
      | some _ => (r.1, true)
      | none => (r.1.putLoam cr.core cr.bank (cr.base + e.2.2 + 128 * j) r.2.1, false)) (s, false)).1

/-! ### Candidate cores (R278, R279) -/

/-- Rooms for a share of crews on a core, one after another. -/
def State.planShare (s : State) (g : GangDesc) (core : Nat) (bank : Bool) (word : Word) :
    List Nat → List Room → Option (List Room)
  | [], acc => some acc
  | c :: cs, acc =>
    let regs := List.replicate (g.crewSize c) g.regs
    match s.roomFor core (c / g.cores % 4) bank word g.lsg regs acc with
    | some r => State.planShare s g core bank word cs (acc ++ [r])
    | none => none

/-- The bank and the partition word under which a core would take a share. -/
def State.shareWord (s : State) (ctx : Ctx) (g : GangDesc) (core k : Nat) : Option (Bool × Bool × Word) :=
  if !s.canFill core then none
  else if (s.crewsOn core).isEmpty then
    (partitionWord k g.lsg g.regs (s.shadowOf ctx 0 g.region)).map fun w => (false, false, w)
  else
    let b := s.fillBank core
    some (b.1, b.2, (s.core core).partWord)

/-- A core that can take the largest share. -/
def State.candidate (s : State) (ctx : Ctx) (g : GangDesc) (core : Nat) : Bool :=
  let share := g.share 0
  match s.shareWord ctx g core share.length with
  | some (b, _, w) => (s.planShare g core b w share []).isSome
  | none => false

/-- Cores of a die in order of their number. -/
def coresOfDie (d : Nat) : List Nat := (List.range Config.coresPerDie).map fun i => d * Config.coresPerDie + i

/-- Insertion by fewest resident crews, lowest number first among equals. -/
def insertCore (s : State) (c : Nat) : List Nat → List Nat
  | [] => [c]
  | x :: xs => if (s.crewsOn c).length < (s.crewsOn x).length then c :: x :: xs else x :: insertCore s c xs

/-- The n candidates of a die with the fewest crews, in ascending order of number. -/
def State.pickCores (s : State) (ctx : Ctx) (g : GangDesc) (d : Nat) : Option (List Nat) :=
  let cs := (coresOfDie d).filter (s.candidate ctx g)
  if cs.length < g.cores then none
  else
    let chosen := (cs.foldl (fun l c => insertCore s c l) []).take g.cores
    some (cs.filter chosen.contains)

/-- Room reserved in a die's save area, 4 KiB aligned, for frames of the given lengths, then for a caller frame. -/
def Die.reserve (d : Die) : List Nat → Option (Die × List Nat)
  | [] => some (d, [])
  | n :: ns =>
    match d.findRoom n 4096 with
    | none => none
    | some a =>
      match (d.take a n).reserve ns with
      | none => none
      | some (d', as) => some (d', a :: as)

/-- Length of the room kept for one crew: its Loam and as many ring granules as it can hold (R304). -/
def State.crewRoom (s : State) (ctx : Ctx) (g : GangDesc) (core : Nat) : Nat :=
  let word := match s.shareWord ctx g core (g.share 0).length with
    | some (_, _, w) => w
    | none => 0
  frameLen (g.lsg + 2 + min 32 (fld word 23 16))

/-- Frame rooms of a gang on a die: for every crew, and the caller's. -/
def State.reserveGang (s : State) (ctx : Ctx) (g : GangDesc) (d : Nat) (cores : List Nat) (caller : Bool) :
    Option (Die × List Nat × Nat) :=
  let lens := (List.range g.crews).map fun c => s.crewRoom ctx g (cores.getD (c % g.cores) 0)
  match (s.die d).reserve lens with
  | none => none
  | some (x, as) =>
    if !caller then some (x, as, 0)
    else match x.findRoom 1024 1024 with
      | some a => some (x.take a 1024, as, a)
      | none => none

/-- The die that takes a gang: the one with the most empty cores among those with enough candidates and room (R278). -/
def State.pickDie (s : State) (ctx : Ctx) (g : GangDesc) (caller : Bool) : Option (Nat × List Nat) :=
  let empty := fun (d : Nat) => ((coresOfDie d).filter fun c => (s.crewsOn c).isEmpty).length
  let able := (List.range Config.simtDies).filterMap fun d =>
    match s.pickCores ctx g d with
    | none => none
    | some cs => if (s.reserveGang ctx g d cs caller).isSome then some (d, cs) else none
  able.foldl (fun (b : Option (Nat × List Nat)) x => match b with
    | none => some x
    | some y => if empty y.1 < empty x.1 then some x else some y) none

/-! ### Creation of crews and threads -/

/-- A gang thread at its start (R43), from the caller's frame. -/
def gangThread (caller : Thread) (g : Gang) (seq cidx gci lane base age : Nat) : Thread :=
  let i := cidx * g.desc.csz + lane
  let w := fun (n : Nat) => BitVec.ofNat 64 n
  let regs := Vector.ofFn fun n : Fin 64 =>
    if n.val = 1 then w i else if n.val = 2 then w g.desc.count
    else if n.val < g.desc.regs then caller.regs[n] else 0
  { regs := regs, preds := caller.preds, pc := BitVec.ofNat 64 (fld g.desc.entry 56 3 * 8),
    ids := { tid := g.desc.tidBase + w i, gang := BitVec.ofNat 32 i, seq := seq, gsize := BitVec.ofNat 32 g.desc.count,
             lane := lane, cidx := cidx, gci := gci },
    trap := { TrapRegs.zero with sup := g.sup, tvec := caller.trap.tvec, tscratch := caller.trap.tscratch },
    fp := { fflags := 0, ftrapen := caller.fp.ftrapen, frm := caller.fp.frm, fid := g.fid },
    regcnt := g.desc.regs, loambase := base, oc := .zero, st := { ThreadStatus.ready with age := age }, spec := .idle,
    signals := [], failures := [], parity := 0, issued := 0, seen := 0, invs := [] }

/-- A crew created in its room, with zeroed scratch and tags; its threads by `mk lane window age`. -/
def State.createCrew (s : State) (cr : Crew) (room : Room) (word : Word) (shadow : Bool) (mk : Nat → Nat → Nat → Thread) : State :=
  let key := s.nxt.crew
  let n := (cr.lsg + 2) * granule
  let s0 := ((s.accrue cr.core).freshPartition cr.core cr.part).forgetLoam cr.core cr.bank cr.base n
  let clear := fun (c : Core) =>
    let b := c.bank cr.bank
    { (c.setBank cr.bank { b with bytes := b.bytes.clear cr.base n }).goodParity cr.bank cr.base n with partWord := word }
  let s1 := s0.modCore cr.core clear
  let s2 := { s1 with crews := s1.crews.set key cr, nxt := { s1.nxt with crew := key + 1, age := s1.nxt.age + cr.size } }
  let s3 := (List.range cr.size).foldl (fun s l =>
    let t := mk l (room.windows.getD l 0) (s1.nxt.age + l)
    s.setThread (laneKey key l) { t with st := { t.st with live := !shadow } }) s2
  let d := cr.core / Config.coresPerDie
  let s4 := s3.switchInCtx cr.core cr.asid
  let c := s4.dieCtx d cr.asid
  ((s4.chargeLoam c d cr.region (cr.lsg + 2)).recount c d cr.region).writeBackPath c d cr.region

/-- A crew's own fields at creation (R28). -/
def freshCrew (g : Gang) (seq core gci cidx : Nat) (room : Room) (bank shadow : Bool) (frame : Nat) : Crew :=
  { core := core, part := room.part, slot := room.slot, cidx := cidx, gci := gci, size := g.desc.crewSize cidx,
    lsg := g.desc.lsg, region := g.desc.region, asid := g.asid, seq := seq, base := room.base, bank := bank,
    place := if shadow then .shadow else .resident, joins := Vector.replicate 8 ⟨0, 0⟩, sets := [], maps := [], full := [],
    cbSlots := 0, watchdog := 0, saved := [], frame := frame, faulted := false, spent := [] }

/-- The share of one core placed: its crews, then their working sets. DESIGN CHOICE (log 50): the working-set table of a
gang that waited is read again when it is placed, and its ranges are not checked again. -/
def State.placeShare (s : State) (ctx : Ctx) (g : Gang) (seq core gci : Nat) (frames : List Nat)
    (mk : Nat → Nat → Nat → Nat → Thread) : State :=
  let share := g.desc.share gci
  match s.shareWord ctx g.desc core share.length with
  | none => s
  | some (bank, shadow, word) =>
    match s.planShare g.desc core bank word share [] with
    | none => s
    | some rooms =>
      let ws := s.wsEntries (hwWho ctx) g.desc
      (share.zip rooms).foldl (fun (s : State) e =>
        let cr := freshCrew g seq core gci e.1 e.2 bank shadow (frames.getD e.1 0)
        let s1 := s.createCrew cr e.2 word shadow (mk e.1)
        ws.foldl (fun s x => match x with | some x => s.stage { hwWho ctx with sup := g.sup } cr x | none => s) s1) s

/-- A gang placed on cores of a die: rooms reserved, context record, crews and threads. `mk cidx lane window age` makes a
thread. -/
def State.placeGang (s : State) (ctx : Ctx) (g : Gang) (seq d : Nat) (cores frames : List Nat) (die : Die)
    (mk : Nat → Nat → Nat → Nat → Nat → Thread) : State :=
  let s1 := s.setDie d { die with contexts := die.contexts.set g.asid ctx }
  let s2 := s1.cachePath ctx d g.desc.region
  let s3 := cores.zipIdx.foldl (fun s e => s.placeShare ctx g seq e.1 e.2 frames (fun c l b a => mk c e.2 l b a)) s2
  { s3 with gangs := s3.gangs.set seq { g with cores := cores, callerDie := d, waiting := false } }

/-- The caller's frame (R43): GWAIT, KIND = 1, PC behind the MIGRATE. -/
def State.callerWords (s : State) (n : Nat) : List Word :=
  let t := s.thread n
  let t1 := { t with pc := nextPc t.pc, st := { t.st with gwait := true } }
  frameWords t1 (statusWord t1 true 0 0 0) (s.capOf n)

/-- The caller leaves its hardware thread (R43, R300). -/
def State.leaveCaller (s : State) (n frame : Nat) : State :=
  (s.escRecord frame (causeWord 0x00 0x02) 0 (s.thread n).ids.tid).loadSup n

/-- Counts a block that is malformed, or that could not be read (R57): no access waits for its answer any more. -/
def State.countMalformed (s : State) (d : Nat) : State :=
  (s.answered hwAgent).modDie d fun x => { x with malcnt := satInc48 x.malcnt }

/-- The gang that a checked descriptor makes. -/
def State.newGang (s : State) (n : Nat) (g : GangDesc) (d : Reg) : Gang :=
  let ctx := s.ctxOf n
  let t := s.thread n
  { desc := g, count := g.count, asid := ctx.asid, cores := [], live := g.count, arrived := [], closing := [], caller := 0,
    callerDie := 0, callerTid := t.ids.tid, gd := d.toNat, callerHart := n,
    fid := if g.fid = 15 then t.fp.fid else BitVec.ofNat 4 g.fid, sup := t.trap.sup, waiting := false, task := none,
    status := 0, ctx := ctxWords ctx, start := s.free, invs := [] }

/-- MIGRATE.TOSIMT with a descriptor on a latency core (R43, R278). DESIGN CHOICE (log 50): the test of the caps, which comes
before any die is chosen, counts every core of the gang as one that no block of the path holds yet. -/
def State.launch (s : State) (n : Nat) (d : Reg) (ga : Word) : Res :=
  let status := fun (s : State) (v : Word) => Res.go (s.writeReg n d v) .next
  if ga.toNat % 128 ≠ 0 then .trap cMISALIGN 0 ga false
  else match s.loadNow n (va57 ga) 128 with
    | (s1, .inr (c, sub)) => .failed s1 c sub (low57 ga)
    | (s1, .inl bs) =>
      let g : GangDesc := ⟨wordOf bs 0, wordOf bs 8, wordOf bs 16, wordOf bs 24, wordOf bs 32, wordOf bs 40⟩
      let ctx := s1.ctxOf n
      if 4 ≤ g.fid ∧ g.fid ≤ 14 then .trap cILLEGAL 0 ga false
      else if g.bad then status s1 1
      else
        let s2 := s1.cachePath ctx 0 g.region
        if s2.pathBad ctx 0 g.region then status (s2.countMalformed 0) 8
        else if !s2.capsAdmit ctx 0 g.region (fun _ => g.cores) (g.crews * (g.lsg + 2)) then status s2 2
        else if !s2.tidsRegistered ctx.asid g.tidBase.toNat g.count then status s2 3
        else
          let ws := s2.wsEntries { hwWho ctx with sup := (s2.thread n).trap.sup } g
          match ws.findIdx? Option.isNone with
          | some k =>
            match (s2.resolve (s2.who n) (va57 g.wsTable + 16 * k) .load).2 with
            | .fault c sub => .failed s2 c sub (BitVec.ofNat 64 (va57 g.wsTable + 16 * k))
            | _ => .failed s2 cPOISON 0 (BitVec.ofNat 64 (va57 g.wsTable + 16 * k))
          | none =>
            let es := ws.filterMap id
            if es.any fun e => decide (g.lsg * granule < e.2.2 + e.2.1) then status s2 7
            else if es.any fun e => e.2.1 == 0 || e.2.1 % 128 != 0 || e.2.2 % 128 != 0 then status s2 1
            else if (partitionWord (g.share 0).length g.lsg g.regs (s2.shadowOf ctx 0 g.region)).isNone
                && (List.range Config.simtDies).all fun di => (s2.pickCores ctx g di).isNone then status s2 2
            else if s2.escFull then .wait
            else
              let seq := s2.nxt.gang
              let gang := s2.newGang n g d
              let s3 := { s2 with nxt := { s2.nxt with gang := (seq + 1) % 2 ^ 48 } }
              let frame := s2.callerWords n
              let mk := fun cidx gci lane base age => gangThread (s2.thread n) gang seq cidx gci lane base age
              match s3.pickDie ctx g true with
              | some (di, cores) =>
                match s3.reserveGang ctx g di cores true with
                | some (die, frames, a) =>
                  let s4 := (s3.placeGang ctx { gang with caller := a } seq di cores frames die mk).putFrame a frame
                  .go (s4.leaveCaller n a) .gone
                | none => .wait
              | none =>
                match (s3.die 0).findRoom 1024 1024 with
                | none => .wait
                | some a =>
                  let s4 := (s3.modDie 0 fun x => x.take a 1024).putFrame a frame
                  let s5 := { s4 with gangs := s4.gangs.set seq { gang with caller := a, waiting := true } }
                  .go ((s5.refreshRing 0).leaveCaller n a) .gone

/-! ### Fan-in (R47, R48) -/

/-- Contexts that no crew of a die holds any more leave the die's records (R481). -/
def State.dropContexts (s : State) (d : Nat) : State :=
  let used := fun (e : Nat × Ctx) => s.crews.any fun c => c.2.asid == e.1 && c.2.core / Config.coresPerDie == d
  s.modDie d fun x => { x with contexts := x.contexts.filter used }

/-- The caller's frame with its status, ready to run. -/
def State.resumeWords (s : State) (g : Gang) : State :=
  let st := s.hwWord (g.caller + 0x208)
  let s1 := if g.gd = 0 then s else s.hwPutWord (g.caller + 8 * g.gd) (BitVec.ofNat 64 g.status)
  s1.hwPutWord (g.caller + 0x208) (setFld st 29 29 0)

/-- The idle hardware thread of a latency core, the lower number first. -/
def State.idleOn (s : State) (core : Nat) : Option Nat := [2 * core, 2 * core + 1].find? fun n => !(s.hart n).run

/-- Once every thread has exited and every crew is released. -/
def execFanIn (seq : Nat) (s : State) : Out :=
  .next (match s.gangs.find seq with
    | none => s
    | some g =>
      if g.waiting || g.live != 0 || s.crews.any (fun e => e.2.seq == seq) then s
      else
        let gone := fun (s : State) => ({ s with gangs := s.gangs.del seq }).dropContexts g.callerDie
        if g.task.isSome then gone s
        else match s.idleOn (g.callerHart / 2) with
          | none =>
            if s.escFull then s
            else
              let s1 := s.ctxPutWord (hwWho (ctxOfWords g.ctx)) (va57 g.desc.completion) (BitVec.ofNat 64 (g.status * 2 ^ 48 + seq))
              gone ((s1.resumeWords g).escRecord g.caller (causeWord 0x00 0x01) 0 g.callerTid)
          | some h =>
            let s1 := s.ctxPutWord (hwWho (ctxOfWords g.ctx)) (va57 g.desc.completion) (BitVec.ofNat 64 (g.status * 2 ^ 48 + seq))
            gone ((s1.resumeWords g).loadHart h g.caller))

/-! ### Moving a thread (R49, R424) -/

/-- The registers a moved thread arrives with: 64, zero from its allotment upward, gd zero. -/
def Thread.arrived (t : Thread) (d : Reg) : Thread :=
  let t1 := { t with pc := nextPc t.pc, st := { t.st with away := true, park := .none } }
  t1.setReg d.toNat 0

/-- The lane stays held. -/
def State.holdLane (s : State) (k : Nat) : State :=
  s.modThread k fun t => { t with st := { t.st with away := true, live := false } }

/-- A free hardware thread, which the supervisor chooses: a free value picks it among the idle ones (log 6). -/
def State.freeHart (s : State) : State × Option Nat :=
  let idle := (List.range Config.harts).filter fun n => !(s.hart n).run
  if idle.isEmpty then (s, none)
  else let q := s.draw; (q.2, idle[q.1.toNat % idle.length]?)

/-- TOLAT of one thread; one that finds no room waits at issue on its own (R424). -/
def State.moveToLat (s : State) (k : Nat) (d : Reg) : Res :=
  match (s.thread k).dueFailure with
  | some a => .trap cENGINE 0 a false
  | none =>
    if (s.thread k).oc ≠ .zero then .wait
    else
      let s := s.scrub k
      let t := (s.thread k).arrived d
      match s.freeHart with
      | (s1, some n) =>
        let t1 := { t with regcnt := 64 }
        .go (((s1.holdLane k).setThread n t1).modHart n fun h => { h with run := true, load := none, yielded := false }) .gone
      | (s1, none) =>
        let di := s1.dieOf k
        match (s1.die di).findRoom 1024 1024 with
        | none => .go s1 .stay
        | some a =>
          if s1.escFull then .go s1 .stay
          else
            let s2 := s1.setThread k t
            let s3 := (s2.modDie di fun x => x.take a 1024).putFrame a (s2.laneFrame k)
            .go ((s3.holdLane k).escRecord a (causeWord 0x00 0x00) 0 t.ids.tid) .gone

/-- The return of an AWAY thread to its held lane, which waits while the crew is not resident. -/
def State.returnToLane (s : State) (n : Nat) (d : Reg) : Res :=
  match s.heldLane (s.thread n) with
  | none => .go (s.writeReg n d 5) .next
  | some l =>
    if !(s.crewAt l).any (fun c => c.place == .resident) then .wait
    else
      let t := s.thread n
      let h := s.thread l
      let regs := Vector.ofFn fun r : Fin 64 => if r.val < h.regcnt then t.regs[r] else 0
      let back : Thread := { t with
        regs := regs, pc := nextPc t.pc, regcnt := h.regcnt, loambase := h.loambase, ids := h.ids,
        st := { ThreadStatus.ready with age := h.st.age } }
      let s1 := s.setThread l (back.setReg d.toNat 0)
      .go ((((s1.dropEscalated l).takeHeldTrap l h).vacate n).loadSup n) .gone

def execMigrateTosimt (g : Guard) (d a : Reg) (s : State) : Out :=
  perThread s (.migrateTosimt g d a) g [a.toNat, d.toNat] anyCore .holds fun k s =>
    let ga := s.readReg k a
    let away := (s.thread k).st.away
    let status := fun (v : Word) => Res.go (s.writeReg k d v) .next
    if ga = 0 then if isLat k && away then s.returnToLane k d else status 5
    else if !isLat k || away then status 6
    else s.launch k d ga

def execMigrateTolat (g : Guard) (d : Reg) (s : State) : Out :=
  perThread s (.migrateTolat g d) g [d.toNat] anyCore .holds fun k s =>
    if isLat k then .go (s.writeReg k d 6) .next else s.moveToLat k d

/-! ### Handler tasks (R342) -/

/-- A thread of a handler task. -/
def taskThread (entry base : Word) (seq i size len : Nat) (tag : Word) (regs lane win age : Nat) : Thread :=
  let w := fun (n : Nat) => BitVec.ofNat 64 n
  let file := (((Vector.replicate 64 (0 : Word)).set 1 (w lane)).set 2 (w size)).set 3 (w len)
  { regs := file.set 4 tag, preds := 0, pc := BitVec.ofNat 64 (fld entry 56 3 * 8),
    ids := { tid := base + w (32 * i + lane), gang := BitVec.ofNat 32 lane, seq := seq, gsize := BitVec.ofNat 32 size,
             lane := lane, cidx := 0, gci := 0 },
    trap := .zero, fp := .initial, regcnt := regs, loambase := win, oc := .zero,
    st := { ThreadStatus.ready with age := age }, spec := .idle, signals := [], failures := [], parity := 0, issued := 0, seen := 0, invs := [] }

/-- Instances of a handler that run now. -/
def State.instances (s : State) (net asid hidx : Nat) : List Nat :=
  s.gangs.filterMap fun e => match e.2.task with
    | some (n, h, i) => if n = net ∧ h = hidx ∧ e.2.asid = asid then some i else none
    | none => none

/-- A task placed: a gang of one crew with the payload in its scratch; the slot's VALID is cleared. -/
def State.placeTask (s : State) (t : Task) (c : Ctx) (inst : Nat) : Option State :=
  let hw := fun k => s.handlerWord t.net t.asid t.hidx k
  let desc : GangDesc := ⟨hw 0, hw 1, s.netRegion t.net t.asid, hw 2, 0, 0⟩
  let size := desc.csz
  if desc.bad || desc.count != size || desc.lsg == 0 || desc.wsn != 0
      || !s.capsAdmit c 0 desc.region (fun _ => 1) (desc.lsg + 2) then none
  else match s.pickDie c desc false with
    | none => none
    | some (di, cores) =>
      match s.reserveGang c desc di cores false with
      | none => none
      | some (die, frames, _) =>
        let seq := s.nxt.gang
        let slot := va57 t.slot
        let s := s.touchCtx (hwWho c) slot
        let word := (s.ctxWord (hwWho c) slot).getD 0
        let tag := (s.ctxWord (hwWho c) (slot + 8)).getD 0
        let len := fld word 12 0
        let gang : Gang := {
          desc := desc, count := size, asid := t.asid, cores := [], live := size, arrived := [], closing := [], caller := 0,
          callerDie := di, callerTid := 0, gd := 0, callerHart := 0, fid := 0xF, sup := false, waiting := false,
          task := some (t.net, t.hidx, inst), status := 0, ctx := ctxWords c, start := s.free, invs := [] }
        let mk := fun _ _ lane base age => taskThread desc.entry desc.tidBase seq inst size len tag desc.regs lane base age
        let s1 := { s with nxt := { s.nxt with gang := (seq + 1) % 2 ^ 48 } }
        let s2 := s1.placeGang c gang seq di cores frames die mk
        let s3 := match s2.crews.find? fun e => e.2.seq == seq with
          | some e =>
            let r := s2.contextBytes (hwWho c) (slot + 32) len
            r.1.putLoam e.2.core e.2.bank e.2.base r.2
          | none => s2
        some (s3.ctxPutWord (hwWho c) slot (setFld word 63 63 0))

end Sys2Proof.Machine
end

