-- ==== Sys2Proof/Machine/Service.lean ====
section
/-!
DEFINITION. Who receives cores (10 R278 to R283): the placement of waiting gangs and handler tasks and the return of saved
crews, in the service order of the rings, the service of a tick, and the work for which a running context is pre-empted.
-/
namespace Sys2Proof.Machine

/-! ### Where waiting work goes -/

/-- Where a waiting gang goes now (R278): its die and cores, with the rooms kept there; `none` when too few cores are free
or a cap refuses them (R56). -/
def State.gangPlan (s : State) (g : Gang) : Option (Nat × List Nat × Die × List Nat × Nat) :=
  let ctx := ctxOfWords g.ctx
  let s0 := s.modDie 0 fun x => x.free g.caller
  match s0.pickDie ctx g.desc true with
  | none => none
  | some (di, cores) =>
    if s0.capsAdmit ctx di g.desc.region (s0.newCores ctx di cores) (g.desc.crews * (g.desc.lsg + 2)) then
      (s0.reserveGang ctx g.desc di cores true).map fun r => (di, cores, r)
    else none

/-- A waiting gang placed (R278 step 8); its caller frame moves with it. -/
def State.placeWaiting (s : State) (seq : Nat) : State :=
  match s.gangs.find seq with
  | none => s
  | some g =>
    match s.gangPlan g with
    | none => s
    | some (di, cores, die, frames, a) =>
      let words := s.frameAt g.caller
      let caller := threadOfFrame words
      let mk := fun cidx gci lane base age => gangThread caller g seq cidx gci lane base age
      let s0 := s.modDie 0 fun x => x.free g.caller
      ((s0.placeGang (ctxOfWords g.ctx) { g with caller := a } seq di cores frames die mk).putFrame a words).refreshRing 0

/-- A handler task placed, unless its handler does not exist or runs often enough, or no core takes it (R342). -/
def State.taskPlan (s : State) (t : Task) : Option State :=
  match s.ctxByAsid t.asid with
  | none => none
  | some c =>
    let busy := s.instances t.net t.asid t.hidx
    let limit := fld (s.handlerWord t.net t.asid t.hidx 3) 15 0
    if s.pathBad c 0 (s.netRegion t.net t.asid) || decide (s.netHcnt t.net t.asid ≤ t.hidx) || decide (limit ≤ busy.length)
    then none
    else
      let inst := ((List.range (busy.length + 1)).find? fun i => !busy.contains i).getD 0
      let s0 := (s.cachePath c 0 (s.netRegion t.net t.asid)).modDie 0 fun x => { x with tasks := x.tasks.erase t }
      (s0.placeTask t c inst).map fun s1 => s1.refreshRing 0

/-- Where a saved crew goes on its core now (R280), if its region's path admits it. -/
def State.restorePlan (s : State) (c : Nat) (cr : Crew) (f : Nat) : Option Fit :=
  let d := cr.core / Config.coresPerDie
  if s.pathAdmits (s.dieCtx d cr.asid) d cr f then s.crewFit c f (s.core cr.core).actb false else none

/-- A saved crew comes back (R280, R311). -/
def State.restoreCrew (s : State) (c : Nat) : State :=
  match s.crews.find c with
  | none => s
  | some cr =>
    match cr.place with
    | .saved f =>
      let d := cr.core / Config.coresPerDie
      if cr.faulted || s.halted || (s.core cr.core).switch.isSome || s.flips cr.core then s
      else match s.restorePlan c cr f with
        | none => s
        | some fit =>
          let s1 := s.cachePath (s.dieCtx d cr.asid) d cr.region
          ((s1.readCrew c f fit cr).startCrew c).refreshRing d
    | _ => s

/-- Whether a piece of waiting work could have its cores now; a pre-filled context takes its own by a switch (R356). -/
def State.placeable (s : State) (w : Work) : Bool :=
  match w with
  | .gang seq => ((s.gangs.find seq).bind s.gangPlan).isSome
  | .task t => (s.taskPlan t).isSome
  | .context core asid =>
    if (s.crewsOn core).any fun e => e.2.place == .shadow && e.2.asid == asid then s.flips core
    else (s.core core).switch.isNone && !s.flips core && (s.waitingCrews core asid).any fun e => match e.2.place with
      | .saved f => (s.restorePlan e.1 e.2 f).isSome
      | _ => false

/-- Whether it is a piece of work's turn: nothing before it in the order of service could have its cores (R278, R283). -/
def State.turnOf (s : State) (d : Nat) (w : Work) : Bool :=
  ((s.workOrder d).takeWhile fun x => x.work != w).all fun x => !s.placeable x.work

/-! ### The rows of placement and restore -/

/-- A waiting gang is placed when its cores are free and its turn has come (R278 step 8). -/
def execGangPlacement (seq : Nat) (s : State) : Out :=
  .next (match s.gangs.find seq with
    | none => s
    | some g => if !g.waiting || s.halted || !s.turnOf 0 (.gang seq) then s else s.placeWaiting seq)

/-- The task with an index among those that wait: a malformed block on its path is counted, and it waits on (R57). -/
def execHandlerTaskPlacement (task : Nat) (s : State) : Out :=
  .next (match (s.die 0).tasks[task]? with
    | none => s
    | some t =>
      if s.halted then s
      else if (s.ctxByAsid t.asid).any fun c => s.pathBad c 0 (s.netRegion t.net t.asid) then s.countMalformed 0
      else if s.turnOf 0 (.task t) then (s.taskPlan t).getD s else s)

/-- A saved crew's turn: a malformed block on the path is counted, and the crew waits on (R57). -/
def execCrewRestore (crew : Nat) (s : State) : Out :=
  .next (match s.crews.find crew with
    | none => s
    | some cr =>
      let d := cr.core / Config.coresPerDie
      if cr.place.onCore || cr.faulted || s.halted then s
      else if cr.region != 0 && s.pathBad (s.dieCtx d cr.asid) d cr.region then s.countMalformed d
      else if s.turnOf d (.context cr.core cr.asid) then s.restoreCrew crew else s)

/-! ### For whom a context is pre-empted (R282, R283) -/

/-- The contexts that run, by core and ASID. -/
def State.running (s : State) : List (Nat × Nat) :=
  ((s.crews.filter fun e => e.2.place == .resident).map fun e => (e.2.core, e.2.asid)).dedup

/-- Crews of a context on a core. -/
def State.contextCrews (s : State) (x : Nat × Nat) : List Crew :=
  ((s.crewsOn x.1).filter fun e => e.2.asid == x.2).map (·.2)

/-- The effective priority of a running context: the highest of its crews' regions. -/
def State.contextPrio (s : State) (x : Nat × Nat) : Nat := ((s.contextCrews x).map s.crewPrio).foldl max 0

/-- The blocks of a region's path. -/
def State.pathOf (s : State) (c : Ctx) (d : Nat) (leaf : Word) : List Word := (s.regionPath (hwWho c) d leaf).getD []

/-- The expired region by which a crew's core may go to a region: one that stands in a ring with a block of that region's path
(R276, R282). -/
def State.lapsedBlock (s : State) (d : Nat) (ctx : Ctx) (c : Crew) (w : Ctx) (leaf : Word) : Option Word :=
  (s.pathOf ctx d c.region).find? fun b => (s.die d).expired.contains b
    && (s.pathOf w d leaf).any fun a => a != b && s.sameRing d (b, ctx) (a, w)

/-- The lowest deficit of the expired regions by which a context may lose its core to a region; `none` unless every crew of it
stands in such a region (R282). -/
def State.lapsed (s : State) (d : Nat) (w : Ctx) (leaf : Word) (x : Nat × Nat) : Option Int :=
  let ctx := (s.core x.1).ctxOf x.2
  let ds := (s.contextCrews x).map fun c => (s.lapsedBlock d ctx c w leaf).map (s.deficit ctx)
  if ds.any Option.isNone then none
  else (ds.filterMap id).foldl (fun m v => match m with
    | none => some v
    | some u => some (min u v)) none

/-- Whether waiting work could use a core: a context returns to its own, a gang or a task takes any. -/
def Work.wants (w : Work) (core : Nat) : Bool :=
  match w with
  | .context c _ => c == core
  | _ => true

/-! ### The service of a tick (R282) -/

/-- One service of the head of a ring: it gains its weight; it wins with a deficit above zero, and goes to the tail
otherwise. A region of weight 0 wins only alone in its ring. Answers the state and whether it won. -/
def State.serve (s : State) (d : Nat) (e : Word × Ctx) (alone : Bool) : State × Bool :=
  let w := s.weightOf e.2 d e.1
  let v := clampDeficit (s.deficit e.2 e.1 + (w * 1024 : Nat))
  let won := if w = 0 then alone else decide (0 < v)
  let s1 := s.putDeficit e.2 e.1 v
  let move := fun (x : Die) => { x with ring := x.ring.filter (· != e.1) ++ [e.1] }
  (if won then s1 else s1.modDie d move, won)

/-- A service under way: the state, the leaf regions that have won, and the freed cores that are left, free ones first. -/
structure Service where
  state : State
  won : List Word
  left : List Nat

/-- Whether a core could go to a region: no crew stands on it, or a context there may lose it to that region. -/
def State.yields (s : State) (d : Nat) (w : Ctx) (leaf : Word) (core : Nat) : Bool :=
  let here := ((s.crewsOn core).map fun e => e.2.asid).dedup
  here.isEmpty || here.any fun a => (s.lapsed d w leaf (core, a)).isSome

/-- The cores that crews at or below a block hold. -/
def State.heldUnder (s : State) (d : Nat) (b : Word) : List Nat :=
  ((s.crews.filter fun e => s.holds e.2 && (s.pathOf ((s.core e.2.core).ctxOf e.2.asid) d e.2.region).contains b).map
    fun e => e.2.core).dedup

/-- Of the cores that are left, those that a region takes when it wins: those it holds, as an expired region, those its
contexts return to, and others for its gangs and tasks. -/
def State.coresTaken (s : State) (d : Nat) (e : Word × Ctx) (left : List Nat) : List Nat :=
  let mine := (s.waiting d).filter fun w => w.region == e.1
  let kept := if (s.die d).expired.contains e.1 then left.filter (s.heldUnder d e.1).contains else []
  let usable := left.filter (s.yields d e.2 e.1)
  let own := usable.filter fun n => mine.any fun w => match w.work with
    | .context c _ => c == n
    | _ => false
  let more := (mine.map fun w => match w.work with
    | .context _ _ => 0
    | x => s.coresAsked x).sum
  let sure := (kept ++ own).dedup
  sure ++ (usable.filter fun n => !sure.contains n).take more

/-- A region has a use for one of the cores that are left: for waiting work at or below it, or to keep it. -/
def State.useful (s : State) (d : Nat) (b : Word) (left : List Nat) : Bool :=
  ((s.waiting d).any fun w => (s.pathOf w.ctx d w.region).contains b
      && left.any fun n => w.work.wants n && s.yields d w.ctx w.region n)
    || ((s.die d).expired.contains b && left.any (s.heldUnder d b).contains)

/-- The rings below a block served from their heads, each member once while cores that it can use are left; a winner's own
rings are served in its turn (R276). A winner has not expired any more. The roots stand in no ring. -/
def serveBelow (d : Nat) (m : List (Word × Ctx)) : Nat → Word → Service → Service
  | 0, _, q => q
  | fuel + 1, parent, q => (q.state.below d m parent).foldl (fun (q : Service) e =>
      if !q.state.useful d e.1 q.left then q
      else
        let alone := !(m.any fun x => x.1 != e.1 && q.state.sameRing d x e)
        let r := if parent = 0 then (q.state, true) else q.state.serve d e alone
        if !r.2 then { q with state := r.1 }
        else
          let taken := r.1.coresTaken d e q.left
          let s := r.1.modDie d fun x => { x with expired := x.expired.filter (· != e.1) }
          serveBelow d m fuel e.1 ⟨s, if taken.isEmpty then q.won else q.won ++ [e.1], q.left.filter fun n => !taken.contains n⟩) q

/-- The regions that have expired: they hold cores, have no deficit left, and others of their ring wait. -/
def State.expiring (s : State) (d : Nat) : List (Word × Ctx) :=
  let wait := s.waitingBlocks d
  (s.holdingBlocks d).filter fun h => decide (s.deficit h.2 h.1 ≤ 0)
    && wait.any fun x => x.1 != h.1 && s.parentOf x.2 d x.1 != 0 && s.sameRing d x h

/-- SIMT cycles between two scheduling ticks (R281). -/
def tickCycles : Nat := 16384

/-- The tick of one die, when its time has come: charges posted, expired regions to the tails of their rings, and the
rings served; the winners stand in `grants`, and an expired region that wins keeps its cores. -/
def State.tickDie (s : State) (d : Nat) : State :=
  let x := s.die d
  let n := (x.simtCyc - x.tickAt).toNat / tickCycles
  if n = 0 then s
  else
    let charged := (s.cores.filter fun e => e.1 / Config.coresPerDie == d).map (·.1)
    let s1 := (charged.foldl (fun s c => s.postCharges c fun _ => true) s).refreshRing d
    let old := ((s1.expiring d).map (·.1)).dedup
    let late := fun (x : Die) => { x with
      ring := x.ring ++ old.filter fun b => !x.ring.contains b
      expired := old
      tickAt := x.tickAt + BitVec.ofNat 64 (n * tickCycles) }
    let s2 := s1.modDie d late
    let freeCores := (List.range Config.simtCores).filter fun c => serves d c && (s2.crewsOn c).isEmpty
    let lent := (old.flatMap (s2.heldUnder d)).dedup.filter (serves d)
    let r := serveBelow d (s2.members d) 16 0 ⟨s2, [], freeCores ++ lent⟩
    r.state.modDie d fun x => { x with grants := r.won }

/-! ### Pre-emption (R283) -/

/-- A running context that waiting work may take a core from: one of lower priority, or, when its region won the last tick, one
that may lose its core to it. -/
def State.claimable (s : State) (d : Nat) (w : Waiting) (x : Nat × Nat) : Bool :=
  let p := s.prioOf w.ctx d w.region
  s.running.contains x && serves d x.1 && w.work.wants x.1 && w.work != .context x.1 x.2
    && (decide (s.contextPrio x < p)
      || (decide (s.contextPrio x ≤ p) && (s.die d).grants.contains w.region && (s.lapsed d w.ctx w.region x).isSome))

/-- Whether waiting work takes its core from a running context: one of lower priority, the lowest first; else an expired one,
that of the lowest deficit first. -/
def State.claims (s : State) (d : Nat) (w : Waiting) (x : Nat × Nat) : Bool :=
  let all := s.running.filter (s.claimable d w)
  let lower := all.filter fun y => decide (s.contextPrio y < s.prioOf w.ctx d w.region)
  all.contains x &&
  if !lower.isEmpty then lower.contains x && lower.all fun y => decide (s.contextPrio x ≤ s.contextPrio y)
  else all.all fun y => match s.lapsed d w.ctx w.region x, s.lapsed d w.ctx w.region y with
    | some v, some u => decide (v ≤ u)
    | _, _ => true

/-- The state as it would be without the crews of some contexts on their cores, and with no switch on some cores. -/
def State.without (s : State) (gone : Nat → Nat → Bool) (settled : Nat → Bool) : State :=
  { s with
    crews := s.crews.filter fun e => !(e.2.place.onCore && gone e.2.core e.2.asid)
    cores := s.cores.map fun e => if settled e.1 then (e.1, { e.2 with switch := none }) else e }

/-- Whether waiting work lacks nothing but cores that it may take, beside those that are being switched for it already
(R283). -/
def State.lacksCores (s : State) (d : Nat) (w : Waiting) : Bool :=
  let coming := fun (core : Nat) => (s.core core).switch.any fun x => x.asid == w.ctx.asid && x.region == w.region
  let s0 := s.without (fun core asid => coming core && ((s.core core).switch.any fun x => x.out == asid)) coming
  !s.placeable w.work && !s0.placeable w.work
    && (s0.without (fun core asid => s.claimable d w (core, asid)) fun _ => false).placeable w.work

/-- The waiting work for which a running context is pre-empted now, with the die that holds the work: the first in order
of service that lacks cores and claims this context's. -/
def State.cause (s : State) (x : Nat × Nat) : Option (Nat × Waiting) :=
  [0, x.1 / Config.coresPerDie].dedup.findSome? fun d =>
    ((s.workOrder d).find? fun w => s.lacksCores d w && s.claims d w x).map fun w => (d, w)

end Sys2Proof.Machine
end

