-- ==== Sys2Proof/Machine/System.lean ====
section
/-!
DEFINITION. System registers (09 R267, R268; 20 R469, R470), traps and returns (11 R303; 17 R370, R383; 20 R471, R473),
FIDSET (18 R397), TLBINV (05 R162, R163; 20 R472) and SLEEP (20 R462; 02 R85).
-/
namespace Sys2Proof.Machine

/-! ### System registers -/

def word (n : Nat) : Word := BitVec.ofNat 64 n

/-- The gang index and size, zero for a thread that is no gang thread (R267). -/
def ThreadIds.gangPart (t : ThreadIds) (v : BitVec 32) : Word := if t.seq = 0 then 0 else v.setWidth 64

/-- kquota and kused of the thread's region (R54, R267, R410). -/
def State.kquotaOf (s : State) (k : Nat) : Nat :=
  let w := s.who k
  let leaf := s.regionOf k
  if leaf = 0 then 0
  else match s.regionPath w (s.dieOf k) leaf with
    | none => 0
    | some path =>
      effectiveField (s.cachedWord w (s.dieOf k)) 9 (fun b => fld ((s.cachedWord w (s.dieOf k) b 0x28).getD 0) 15 0) path

def State.kusedOf (s : State) (k : Nat) : Nat :=
  let leaf := s.regionOf k
  if leaf = 0 then 0 else fld ((s.regionWord (s.who k) leaf 0x28).getD 0) 31 16

/-- Core and die numbers (R12, R268). -/
def State.coreReg (s : State) (k : Nat) : Nat := if isLat k then 2 ^ 15 + k / 2 else s.coreOf k
def State.dieReg (s : State) (k : Nat) : Nat := if isLat k then 8 + k / 128 else s.coreOf k / Config.coresPerDie

/-- The cyc of the die of the executing core (R5). -/
def State.cycOf (s : State) (k : Nat) : Word :=
  if isLat k then s.latDies.get (k / 128) 0 else (s.die (s.coreOf k / Config.coresPerDie)).cyc

/-- The horizon counters of the thread's core; a latency core has none (R114). -/
def State.horizon (s : State) (k : Nat) (get : CoreCounters → Nat) : Word :=
  if isLat k then 0 else word (get (s.core (s.coreOf k)).counters)

/-- A system register as a SYSRD returns it, reserved bits zero (R267, R470). -/
def State.sysRead (s : State) (k : Nat) (r : SysReg) : Word :=
  let t := s.thread k
  let c := s.ctxOf k
  match r with
  | .tid => t.ids.tid
  | .lane => word t.ids.lane
  | .gang => t.ids.gangPart t.ids.gang
  | .gsize => t.ids.gangPart t.ids.gsize
  | .crew => word (t.ids.gci * 2 ^ 16 + t.ids.cidx)
  | .core => word (s.coreReg k)
  | .die => word (s.dieReg k)
  | .tstat => tstatWord t.trap
  | .tvec => t.trap.tvec
  | .tepc => t.trap.tepc
  | .tcause => t.trap.tcause
  | .tval => t.trap.tval
  | .tscratch => t.trap.tscratch
  | .fflags => t.fp.fflags.setWidth 64
  | .ftrapen => t.fp.ftrapen.setWidth 64
  | .frm => t.fp.frm.setWidth 64
  | .fid => t.fp.fid.setWidth 64
  | .fidcap => word (s.capOf k)
  | .regcnt => word t.regcnt
  | .loambase => word t.loambase
  | .loamva => c.loamva
  | .ocLd => word t.oc.ld
  | .ocSt => word t.oc.st
  | .ocCp => word t.oc.cp
  | .ocTile => word t.oc.tile
  | .kquota => word (s.kquotaOf k)
  | .kused => word (s.kusedOf k)
  | .hbase => c.hbase
  | .hlimit => c.hlimit
  | .hoff => c.hoff
  | .hattr => c.hattr
  | .pgroot => c.pgroot
  | .hzc0 => s.horizon k (·.hzc0)
  | .hzc1 => s.horizon k (·.hzc1)
  | .hzc2 => s.horizon k (·.hzc2)
  | .hzc3 => s.horizon k (·.hzc3)
  | .cyc => s.cycOf k

/-- The bits of a value that a field occupies; the others are reserved and read zero (R18). -/
def keepBits (w : Word) (hi lo : Nat) : Word := word (fld w hi lo * 2 ^ lo)

/-- tstat: TA by any thread, SUP by a supervisor, SIGP and ENGP never (R292, R470). -/
def TrapRegs.writeStat (r : TrapRegs) (v : Word) : TrapRegs :=
  { r with ta := bitAt v 0, sup := if r.sup then bitAt v 1 else r.sup }

/-- A context register of a thread changed: on a latency hardware thread in its own copy; on a SIMT core in that core's
copy, and that register in the record of its die (R481). -/
def State.writeCtx (s : State) (k : Nat) (f : Ctx → Ctx) : State :=
  if isLat k then s.modHart k fun h => { h with ctx := f h.ctx }
  else match s.crewAt k with
    | none => s
    | some c =>
      let own := (s.core c.core).ctxOf c.asid
      let s1 := s.modCore c.core fun q => { q with ctxs := q.ctxs.set c.asid (f own) }
      s1.modDie (c.core / Config.coresPerDie) fun d =>
        { d with contexts := d.contexts.set c.asid (f ((d.contexts.find c.asid).getD own)) }

/-- A horizon counter written; a latency core ignores the write (R114, R267). -/
def State.writeHorizon (s : State) (k : Nat) (f : CoreCounters → CoreCounters) : State :=
  if isLat k then s else s.modCore (s.coreOf k) fun c => { c with counters := f c.counters }

def State.modTrap (s : State) (k : Nat) (f : TrapRegs → TrapRegs) : State :=
  s.modThread k fun t => { t with trap := f t.trap }

def State.modFp (s : State) (k : Nat) (f : FpRegs → FpRegs) : State :=
  s.modThread k fun t => { t with fp := f t.fp }

/-- A SYSWR by the field rules of each register (R267, R470); a read-only register has no SYSWR. -/
def State.sysWrite (s : State) (k : Nat) (r : SysReg) (v : Word) : State :=
  match r with
  | .tstat => s.modTrap k fun t => t.writeStat v
  | .tvec => s.modTrap k fun t => { t with tvec := keepBits v 56 3 ||| keepBits v 0 0 }
  | .tepc => s.modTrap k fun t => { t with tepc := keepBits v 56 3 }
  | .tcause => s.modTrap k fun t => { t with tcause := keepBits v 15 0 }
  | .tval => s.modTrap k fun t => { t with tval := v }
  | .tscratch => s.modTrap k fun t => { t with tscratch := v }
  | .fflags => s.modFp k fun f => { f with fflags := v.setWidth 6 }
  | .ftrapen => s.modFp k fun f => { f with ftrapen := v.setWidth 6 }
  | .frm => s.modFp k fun f => { f with frm := loadFrm (fld v 2 0) }
  | .fid => s.modFp k fun f => { f with fid := loadFid (fld v 3 0) }
  | .hbase => s.writeCtx k fun c => { c with hbase := keepBits v 56 34 }
  | .hlimit => s.writeCtx k fun c => { c with hlimit := keepBits v 56 34 }
  | .hoff => s.writeCtx k fun c => { c with hoff := keepBits v 63 34 }
  | .hattr => s.writeCtx k fun c => { c with hattr := keepBits v 15 0 }
  | .pgroot => s.writeCtx k fun c => { c with pgroot := keepBits v 51 17 ||| keepBits v 15 0 }
  | .hzc0 => s.writeHorizon k fun c => { c with hzc0 := fld v 47 0 }
  | .hzc1 => s.writeHorizon k fun c => { c with hzc1 := fld v 47 0 }
  | .hzc2 => s.writeHorizon k fun c => { c with hzc2 := fld v 47 0 }
  | .hzc3 => s.writeHorizon k fun c => { c with hzc3 := fld v 47 0 }
  | .tid | .lane | .gang | .gsize | .crew | .core | .die | .fidcap | .regcnt | .loambase | .loamva
  | .ocLd | .ocSt | .ocCp | .ocTile | .kquota | .kused | .cyc => s

/-- Registers marked Sup as a whole (R267). -/
def supRegister : SysReg → Bool
  | .hbase | .hlimit | .hoff | .hattr | .pgroot | .hzc0 | .hzc1 | .hzc2 | .hzc3 => true
  | _ => false

def execSysrd (g : Guard) (r : SysReg) (d : Reg) (s : State) : Out :=
  perThread s (.sysrd g r d) g [d.toNat] anyCore .runs fun k s => .go (s.writeReg k d (s.sysRead k r)) .next

/-- A register marked RO has no SYSWR (R469): ILLEGAL. -/
def execSyswr (g : Guard) (r : SysReg) (a : Reg) (s : State) : Out :=
  perThread s (.syswr g r a) g (if r.readOnly then [] else [a.toNat]) { anyCore with priv := supRegister r } .holds fun k s =>
    if r.readOnly then .trap cILLEGAL 0 (encode (.syswr g r a)) false
    else .go (s.sysWrite k r (s.readReg k a)) .next

/-! ### Traps and returns -/

def execTrap (g : Guard) (n : BitVec 16) (s : State) : Out :=
  perThread s (.trap g n) g [] anyCore .holds fun _ _ => .trap cTRAP 0 (n.setWidth 64) true

def execBkpt (g : Guard) (n : BitVec 16) (s : State) : Out :=
  perThread s (.bkpt g n) g [] anyCore .runs fun _ _ => .trap cBKPT 0 (n.setWidth 64) false

def execEret (g : Guard) (s : State) : Out :=
  perThread s (.eret g) g [] anyCore .runs fun k s =>
    let t := s.thread k
    if !t.trap.ta then .trap cILLEGAL 0 (encode (.eret g)) false
    else .go (s.setThread k t.returned) (.jump t.returned.pc)

/-- ARITH when an enabled flag is set (R98, R471). -/
def execTfence (g : Guard) (s : State) : Out :=
  perThread s (.tfence g) g [] anyCore .holds fun k s =>
    let v := (s.thread k).fp.enabled
    if v = 0 then .go s .next else .trap cARITH 0 (v.setWidth 64) true

def execFidset (g : Guard) (n : BitVec 4) (s : State) : Out :=
  perThread s (.fidset g n) g [] anyCore .holds fun k s =>
    .go (s.modFp k fun f => { f with fid := loadFid n.toNat }) .next

/-! ### TLBINV -/

/-- What an invalidation names: an ASID (every one without), and a page with its size class (every one without). -/
structure InvName where
  asid : Option Nat
  page : Option (Nat × Nat)
  deriving DecidableEq, Repr

def InvName.drops (n : InvName) (e : TlbEntry) : Bool :=
  (match n.asid with | some a => e.asid == a | none => true)
  && (match n.page with | some (va, sz) => e.sz == sz && e.vbase == va / 2 ^ sizeLog sz | none => true)

/-- Whether the translation of an address under an ASID may have used an entry that is named. -/
def InvName.covers (n : InvName) (asid : Nat) (addr : Word) : Bool :=
  (match n.asid with | some x => asid == x | none => true)
  && (match n.page with | some (va, sz) => va57 addr / 2 ^ sizeLog sz == va / 2 ^ sizeLog sz | none => true)

/-- Whether an access in flight may have used such an entry when it issued. -/
def InvName.usedBy (n : InvName) (a : Access) : Bool := !a.isLoam && n.covers a.asid a.va

/-- Whether a store that some thread holds back past a service call may have used such an entry (R50). -/
def State.heldStores (s : State) (n : InvName) : Bool :=
  s.threads.any fun e => e.2.spec.buf.any fun b => (match b.target with | .phys .. => true | .loam .. => false)
    && n.covers (s.ctxOf e.1).asid b.addr

def MemSys.invalidate (m : MemSys) (n : InvName) : MemSys :=
  { m with
    tlb := m.tlb.filter fun e => !n.drops e
    walker := m.walker.filter fun e => match n.asid with | some a => e.asid != a | none => false }

/-- Whether the thread has stores or atomics that are not performed. -/
def State.storesPending (s : State) (k : Nat) : Bool :=
  (s.pendingOf k).any fun e => match e.2.kind with | .load .. => false | _ => true

/-- It waits for the thread's earlier stores and for every access that used a named entry (R162). -/
def State.tlbinv (s : State) (k : Nat) (n : InvName) : Res :=
  if s.storesPending k || s.heldStores n || s.mem.inflight.any fun e => n.usedBy e.2 then .wait
  else .go (s.withMem (s.mem.invalidate n)) .next

def State.asidArg (s : State) (k : Nat) (b : Reg) : Nat := fld (s.readReg k b) 15 0

def execTlbinvPg (g : Guard) (a b : Reg) (sz : BitVec 3) (s : State) : Out :=
  perThread s (.tlbinvPg g a b sz) g [a.toNat, b.toNat] privileged .holds fun k s =>
    s.tlbinv k ⟨some (s.asidArg k b), some (va57 (s.readReg k a), sz.toNat)⟩

def execTlbinvAs (g : Guard) (b : Reg) (s : State) : Out :=
  perThread s (.tlbinvAs g b) g [b.toNat] privileged .holds fun k s => s.tlbinv k ⟨some (s.asidArg k b), none⟩

def execTlbinvAll (g : Guard) (s : State) : Out :=
  perThread s (.tlbinvAll g) g [] privileged .holds fun k s => s.tlbinv k ⟨none, none⟩

def execTlbinvPga (g : Guard) (a : Reg) (sz : BitVec 3) (s : State) : Out :=
  perThread s (.tlbinvPga g a sz) g [a.toNat] privileged .holds fun k s =>
    s.tlbinv k ⟨none, some (va57 (s.readReg k a), sz.toNat)⟩

/-! ### SLEEP -/

/-- Every line of an agent's cache is written back and dropped. -/
def State.flushCache (s : State) (agent : Nat) : State :=
  let ls := (s.mem.copies.filter fun c => c.agent == agent).map (·.line)
  ls.foldl (fun s l => s.putLine agent l false) s

/-- One try of a buffer instruction for a parked subset. -/
def State.cbRetry (s : State) (grp : List Nat) (i : Instr) : CbTry :=
  match i with
  | .cbwait _ d k => s.cbwaitTry grp false d k.toNat
  | .cbwaitProd _ d k => s.cbwaitTry grp true d k.toNat
  | .cbpop _ k => if grp.any s.loamPending then .waits else s.cbpopTry grp k.toNat
  | .cbpush _ k => if grp.any s.loamPending then .waits else s.cbpushTry grp k.toNat
  | _ => .waits

/-- The register that a buffer instruction writes, whose allotment is checked at each try (R77). -/
def cbDest : Instr → List Nat
  | .cbwait _ d _ | .cbwaitProd _ d _ => [d.toNat]
  | _ => []

/-- A parked thread for which the next regroup has something to do is ready (R345, R375). -/
def State.couldGo (s : State) (k : Nat) : Bool :=
  let t := s.thread k
  match t.st.again with
  | some (.waitc _ ld st cp tile) => t.dueFailure.isSome || t.oc.within ld.toNat st.toNat cp.toNat tile.toNat
  | some (.shrink _ _) => t.oc.ld == 0
  | some (.setf _ d a) => s.regBad k d.toNat || !s.sharedReg k d.toNat || (s.setfTry k d a).isSome
  | some (.takef _ d a) => s.regBad k a.toNat || !s.sharedReg k a.toNat || (s.takefTry k d a).isSome
  | some i => (s.fit k i simtOnly (cbDest i)).isSome || (match s.cbRetry [k] i with
    | .waits => false
    | _ => true)
  | none => false

/-- A core whose threads all sleep, park or are held by BKOFF, with no command, chain or switch under way, and one that sleeps
(R462; log 38). -/
def State.mayDoze (s : State) (core : Nat) : Bool :=
  let c := s.core core
  let crews := s.crewsOn core
  let ks := crews.flatMap fun e => s.laneKeys e.1
  let still := fun (k : Nat) => let t := s.thread k
    !t.st.live || t.st.away || t.st.sleeping || t.st.held || (t.st.park != .none && !s.couldGo k) || t.spec.mode == .waiting
  c.switch.isNone && !c.asleep
  && ks.any (fun k => (s.thread k).st.sleeping) && ks.all still
  && c.engines.queue.isEmpty && c.engines.current.isNone && c.engines.fill.isNone
  && crews.all fun e => (s.chainsOf e.1).isEmpty

/-- The core sleeps: its cache lines are written back and dropped (R85, R462). -/
def State.doze (s : State) (core : Nat) : State :=
  if s.mayDoze core then (s.flushCache core).modCore core fun c => { c with asleep := true, bundles := [] } else s

def execSleep (g : Guard) (s : State) : Out :=
  let s1 := s.issue (.sleep g) g [] privileged .holds fun k s =>
    .go (s.modThread k fun t => { t with st := { t.st with sleeping := true } }) .hold
  .next (match s.cur with
    | .hart _ => s1
    | .bundle core _ _ => s1.doze core)

end Sys2Proof.Machine
end

