-- ==== Sys2Proof/Machine/Sched.lean ====
section
/-!
DEFINITION. What a die's scheduler and a core do by themselves: regroups (01 R31, R32), signals, watchdog, escalations
that waited (11 R298, R299), page-fault saves (05 R164 to R166), pre-emption and its switches (11 R304 to R311; 13 R356),
charging and deficit round-robin (10 R281, R282), core wake (02 R85 to R87).
-/
namespace Sys2Proof.Machine

/-! ### Retries of parked threads at a regroup (R80, R135, R375, R477) -/

/-- What a parked thread does that finds its instruction no longer fit to execute: it traps at the instruction. -/
def State.trapParked (s : State) (k cause : Nat) (value : Word) : State :=
  (s.modThread k Thread.retrying).raise k cause 0 value (s.thread k).pc

/-- A subset of a buffer instruction: a thread whose destination has left its allotment traps (R77), the others try again. -/
def State.retrySubset (s : State) (grp : List Nat) : State :=
  match (s.thread (grp.headD 0)).st.again with
  | none => s
  | some i =>
    let bad := grp.filterMap fun k => match s.fit k i simtOnly (cbDest i) with
      | some (.trap c _ v _) => some (k, c, v)
      | _ => none
    let ks := grp.filter fun k => !bad.any fun e => e.1 == k
    let s := bad.foldl (fun s e => s.trapParked e.1 e.2.1 e.2.2) s
    if ks.isEmpty then s
    else match s.cbRetry ks i with
    | .bad a => ks.foldl (fun s k => s.trapParked k cLOAM_BOUNDS (BitVec.ofNat 64 a)) s
    | .spoiled s' a => ks.foldl (fun s k => s.trapParked k cPOISON (BitVec.ofNat 64 a)) s'
    | .waits => s
    | .done s' => ks.foldl State.unpark s'

/-- SETF and TAKEF: their checks are made again (R77, R84). -/
def State.retryShared (s : State) (k : Nat) : State :=
  let go := fun (i : Instr) (d a n : Reg) (r : Option State) => match s.check k i simtOnly [a.toNat, d.toNat] with
    | some (.trap c _ v _) => s.trapParked k c v
    | some (.failed s' c _ v) => s'.trapParked k c v
    | _ =>
      if !s.sharedReg k n.toNat then s.trapParked k cILLEGAL (n.setWidth 64)
      else match r with
        | some s' => s'.unpark k
        | none => s
  match (s.thread k).st.again with
  | some (.setf g d a) => go (.setf g d a) d a d (s.setfTry k d a)
  | some (.takef g d a) => go (.takef g d a) d a a (s.takefTry k d a)
  | _ => s

/-- The physical register whose full/empty bit a parked SETF or TAKEF tests. -/
def State.sharedOf (s : State) (k : Nat) : Nat × Nat :=
  match (s.thread k).st.again with
  | some (.setf _ d _) => s.physReg k d.toNat
  | some (.takef _ _ a) => s.physReg k a.toNat
  | _ => (k, 0)

def State.fullAt (s : State) (p : Nat × Nat) : Bool := (s.crewAt p.1).any fun c => c.fullBit (laneOf p.1) p.2

/-- SETF and TAKEF that retry in one clock, in order: of those on one register one proceeds, the others park again (R80). -/
def State.retryFull (s : State) (ks : List Nat) : State :=
  (ks.foldl (fun (q : State × List (Nat × Nat)) k =>
    let p := q.1.sharedOf k
    if q.2.contains p then q
    else
      let s1 := q.1.retryShared k
      (s1, if s1.fullAt p == q.1.fullAt p then q.2 else p :: q.2)) (s, [])).1

/-- WAITC and SHRINK. -/
def State.retryCounters (s : State) (k : Nat) : State :=
  let t := s.thread k
  match t.st.again with
  | some (.waitc _ ld st cp tile) =>
    match t.dueFailure with
    | some a => s.trapParked k cENGINE a
    | none => if t.oc.within ld.toNat st.toNat cp.toNat tile.toNat then s.unpark k else s
  | some (.shrink _ _) => if t.oc.ld = 0 then s.modThread k Thread.retrying else s
  | _ => s

/-- Threads of a core's resident crews. -/
def State.threadsOn (s : State) (core : Nat) : List Nat :=
  ((s.crewsOn core).filter fun e => e.2.place == .resident).flatMap fun e => (s.laneKeys e.1).filter fun k => (s.thread k).st.live

/-- Insertion by a key, equal keys in order of arrival. -/
def insertBy (f : Nat → Nat) (k : Nat) : List Nat → List Nat
  | [] => [k]
  | x :: xs => if f k < f x then k :: x :: xs else x :: insertBy f k xs

def sortBy (f : Nat → Nat) (ks : List Nat) : List Nat := ks.foldl (fun l k => insertBy f k l) []

/-- Subsets that parked together. -/
def State.subsets (s : State) (ks : List Nat) : List (List Nat) :=
  let stamps := (ks.map fun k => (crewOf k, (s.thread k).st.stamp)).dedup
  stamps.map fun e => ks.filter fun k => crewOf k == e.1 && (s.thread k).st.stamp == e.2

def State.retryAll (s : State) (core : Nat) : State :=
  let parked := fun (p : Park) => (s.threadsOn core).filter fun k => (s.thread k).st.park == p
  let stamp := fun k => (s.thread k).st.stamp
  let s1 := (s.subsets (sortBy stamp (parked .cb))).foldl State.retrySubset s
  -- the older formation stamp first, then the lower partition (R80, R290)
  let part := fun k => ((s1.crewAt k).map (·.part)).getD 0
  let s2 := s1.retryFull (sortBy stamp (sortBy part (parked .setf)))
  (parked .counters).foldl State.retryCounters s2

/-! ### Regroup (R31, R32) -/

/-- Threads of a partition in PC-table order: by PC, at one PC by context with the oldest thread, then by age. -/
def State.pcTable (s : State) (core part : Nat) : List Nat :=
  let ks := (s.threadsOn core).filter fun k => (s.thread k).ready && (s.crewAt k).any fun c => c.part == part
  let asid := fun k => ((s.crewAt k).map (·.asid)).getD 0
  let pc := fun k => (s.thread k).pc.toNat
  let age := fun k => (s.thread k).st.age
  let oldest := fun k => (ks.filter fun j => pc j == pc k && asid j == asid k).foldl (fun m j => min m (age j)) (age k)
  sortBy pc (sortBy oldest (sortBy age ks))

/-- Runs of equal PC and context. -/
def State.runs (s : State) (ks : List Nat) : List (List Nat) :=
  let key := fun k => ((s.thread k).pc, ((s.crewAt k).map (·.asid)).getD 0)
  ks.foldl (fun (rs : List (List Nat)) k =>
    match rs.getLast? with
    | some r => if (r.head?.map key) = some (key k) then rs.dropLast ++ [r ++ [k]] else rs ++ [[k]]
    | none => [[k]]) []

/-- Bundles of one run: the j-th takes the j-th oldest thread of each lane. -/
def layers : Nat → List Nat → List (List Nat)
  | 0, _ => []
  | fuel + 1, ks =>
    if ks.isEmpty then []
    else
      let first := ks.foldl (fun (l : List Nat) k => if l.any fun j => laneOf j == laneOf k then l else l ++ [k]) []
      sortBy laneOf first :: layers fuel (ks.filter fun k => !first.contains k)

/-- The bundles of a partition, at most sixteen. -/
def State.formBundles (s : State) (core part : Nat) : List Bundle :=
  let n := (s.core core).regroups + 1
  let groups := ((s.runs (s.pcTable core part)).flatMap (layers 64)).take 16
  groups.zipIdx.map fun e => ⟨part, n * 16 + e.2, e.1⟩

/-- A formed bundle counts as lowered while its oldest thread is (R346). -/
def State.loweredBundle (s : State) (b : Bundle) : Bool :=
  (sortBy (fun k => (s.thread k).st.age) b.members).head?.any fun k => (s.thread k).st.lowered

/-- Of some threads, one goes unissued in every cycle of a regroup period: none of them is ready, or they stand in one bundle
that has issued, else (R60; log 54). -/
def State.unissued (s : State) (core : Nat) (ks : List Nat) : Bool :=
  let rs := ks.filter fun k => (s.thread k).ready
  !rs.isEmpty && !(rs.all (fun k => decide ((s.thread k).seen < (s.thread k).issued))
    && (s.core core).bundles.any fun b => rs.all b.members.contains)

/-- A resident crew's watchdog over the four cycles of a regroup period: it advances while a crew of equal or higher
priority in its partition has a ready thread that goes unissued, is zero when none has, and stands while all its own
threads are parked or held by BKOFF (R60, R291, R369; log 54). -/
def State.watch (s : State) (core : Nat) (e : Nat × Crew) : State :=
  let rivals := (s.crewsOn core).filter fun o => o.1 != e.1 && o.2.part == e.2.part && o.2.place == .resident
    && decide (s.crewPrio e.2 ≤ s.crewPrio o.2)
  let waits := s.unissued core (rivals.flatMap fun o => s.laneKeys o.1)
  let parked := (s.laneKeys e.1).all fun k => (s.thread k).st.park != .none || (s.thread k).st.held
  s.modCrew e.1 fun c => { c with watchdog := if !waits then 0 else if parked then c.watchdog else c.watchdog + 4 }

/-- The watchdogs of a core, but for crews of a context that is being switched (R291), and the count from which the next period
looks. -/
def State.watchAll (s : State) (core : Nat) : State :=
  let crews := (s.crewsOn core).filter fun e => e.2.place == .resident
  let counted := crews.filter fun e => !(s.core core).switch.any fun w => w.out == e.2.asid || w.asid == e.2.asid
  let s1 := counted.foldl (fun s e => s.watch core e) s
  (crews.flatMap fun e => s.laneKeys e.1).foldl (fun s k => s.modThread k fun t => { t with seen := t.issued }) s1

/-- The greedy bundle of each slot at a regroup: the new bundle that holds the oldest thread of the former one (R287), where that
one issued since the last regroup (R347; log 55). -/
def State.greedyNow (s : State) (core : Nat) (new : List Bundle) : AMap (Nat × Nat) :=
  let c := s.core core
  let age := fun k => (s.thread k).st.age
  c.greedy.filterMap fun e =>
    if e.2.2 != c.regroups then none
    else match (c.bundles.find? fun b => b.stamp == e.2.1 && b.part == e.1 / 3).map fun b => sortBy age b.members with
    | some (k :: _) => (new.find? fun b => b.members.contains k).map fun b => (e.1, (b.stamp, e.2.2))
    | _ => none

/-- A regroup of all four partitions: watchdogs, then parked subsets retry, bundles are dissolved and formed anew. A
sleeping or quiesced core makes none. -/
def execRegroup (core : Nat) (s : State) : Out :=
  .next (if (s.core core).asleep || s.halted then s
    else
      let s1 := (s.watchAll core).retryAll core
      let bs := (List.range 4).flatMap (s1.formBundles core)
      let greedy := s1.greedyNow core bs
      (s1.modCore core fun c => { c with bundles := bs, greedy := greedy, regroups := c.regroups + 1 }).doze core)

/-! ### Signals, interrupts, watchdog, escalations that waited -/

/-- SIGNAL at the thread's boundary (R63, R298): a parked thread wakes with its arrival withdrawn; a sleeping one stands
behind its SLEEP (R462). -/
def State.takeSignal (s : State) (k : Nat) : State :=
  let v := (s.thread k).signals.headD 0
  let s1 := if (s.thread k).st.park = .none then s else s.withdraw k
  let wake := fun (t : Thread) => if t.st.sleeping then
      { t with pc := nextPc t.pc, st := { t.st with sleeping := false } } else t
  let pop := fun (t : Thread) =>
    { t with signals := t.signals.drop 1, st := { t.st with held := false },
             trap := { t.trap with sigp := decide (1 < t.signals.length) } }
  let s2 := s1.modThread k fun t => pop (wake t)
  s2.takeTrap k cSIGNAL 0 v (s2.thread k).pc

def execSignalDelivery (k : Nat) (s : State) : Out :=
  .next (if (s.threads.find k).isSome && s.signalDue k && !(s.core (s.coreOf k)).asleep && !s.halted then s.takeSignal k else s)

/-- INTR (R302): a user thread escalates; a sleeping supervisor thread goes on; an idle hardware thread loads HTSUP. -/
def execIntr (hart : Nat) (s : State) : Out :=
  .next (if !s.interruptDue hart || s.halted then s
    else if !(s.hart hart).run then s.loadSup hart
    else if (s.thread hart).st.sleeping && (s.thread hart).trap.sup then
      s.modThread hart fun t => { t with pc := nextPc t.pc, st := { t.st with sleeping := false } }
    else s.takeTrap hart cINTR 0 (s.enabledInts hart) (s.thread hart).pc)

/-- WATCHDOG for one thread, unless it is parked; a thread past a service call holds it in W (R50), and a sleeping one is not
trapped (R462). An AWAY thread takes it where it runs, or when it is back in its lane. -/
def State.bark (s : State) (k : Nat) : State :=
  let t := s.thread k
  if t.st.away then match s.awayHart k with
    | some n =>
      if (s.thread n).ready then s.takeTrap n cWATCHDOG 0 0 (s.thread n).pc else s
    | none =>
      if t.st.pending == .none then s.modThread k fun t => { t with st := { t.st with pending := .trap cWATCHDOG 0 0 t.pc } } else s
  else if t.st.live && t.st.park == .none && t.st.pending == .none && !t.st.sleeping then s.raise k cWATCHDOG 0 0 t.pc
  else s

/-- WATCHDOG in every thread of the crew that is not parked, once its counter has reached 2^24 (R60). -/
def execWatchdog (crew : Nat) (s : State) : Out :=
  .next (match s.crews.find crew with
    | none => s
    | some cr =>
      if cr.place != .resident || s.halted || decide (cr.watchdog < 2 ^ 24) then s
      else ((s.laneKeys crew).foldl State.bark s).modCrew crew fun c => { c with watchdog := 0 })

/-- A thread whose escalation waited for room is handed over (R299). -/
def execEscalation (k : Nat) (s : State) : Out :=
  .next (match (s.thread k).st.pending with
    | .esc cause value =>
      if (s.threads.find k).isNone || s.pkg.qsd then s
      else if isLat k then
        if s.escFull then s
        else (s.modThread k fun t => { t with st := { t.st with pending := .none } }).escalateHart k cause value
      else if (s.crewAt k).any fun c => c.place == .resident then s.escalateLane k cause value else s
    | _ => s)

/-! ### Page-fault saves (R164 to R166) -/

def State.faultQueueFull (s : State) (d : Nat) : Bool :=
  ((s.die d).fqHead + 65536 - (s.die d).fqTail) % 65536 == 2 ^ (s.die d).fqLog

/-- A fault record appended (R165). -/
def State.faultRecord (s : State) (d frame : Nat) (va cause : Word) (mask : Nat) (seq core : Nat) : State :=
  let x := s.die d
  let a := fld x.fqbase 51 12 * 4096 + 32 * (x.fqHead % 2 ^ x.fqLog)
  let w2 := BitVec.ofNat 64 (mask * 2 ^ 32 + cause.toNat % 65536)
  let s1 := s.hwPut a (wordsBytes [BitVec.ofNat 64 frame, va, w2, BitVec.ofNat 64 (seq % 2 ^ 48 * 2 ^ 16 + core)])
  s1.modDie d fun x => { x with fqHead := (x.fqHead + 1) % 65536 }

/-- A fault word that reads zero: the region's crews held in place go on, and saved ones may be restored (R166). One held in
place whose threads the sweep has marked is saved first (R87). -/
def State.clearFaulted (s : State) (asid : Nat) (region : Word) : State :=
  (s.crews.filter fun e => e.2.faulted && e.2.asid == asid && e.2.region == region).foldl (fun s e =>
    let s1 := s.modCrew e.1 fun c => { c with faulted := false }
    if e.2.place != .parkedFault then s1.refreshRing (e.2.core / Config.coresPerDie)
    else if (s1.laneKeys e.1).any fun k => (s1.thread k).st.poison then s1.modCrew e.1 fun c => { c with place := .stopping }
    else s1.startCrew e.1) s

/-- The region's fault word rises by one (R164 step 5); it is held in memory only. A zero that the supervisor has stored there
is seen before (R166). -/
def State.raiseFaultWord (s : State) (c : Ctx) (region : Word) : State :=
  let a := va57 region + 0x50
  let old := (s.ctxWord (hwWho c) a).getD 0
  let s1 := if old = 0 then s.clearFaulted c.asid region else s
  s1.ctxPutWord (hwWho c) a (old + 1)

/-- Lanes that fault, with the cause and address of the lowest. -/
def State.faulting (s : State) (c : Nat) : List (Nat × Word × Word) :=
  (s.laneKeys c).filterMap fun k => match (s.thread k).st.pending with
    | .fault cause va => some (k, cause, va)
    | _ => none

/-- Whether the room kept for a crew's frame lies in the save area as it stands. -/
def State.frameRoom (s : State) (cr : Crew) : Bool :=
  let d := s.die (cr.core / Config.coresPerDie)
  let base := fld d.savebase 51 12 * 4096
  cr.frame != 0 && d.frames.any (fun f => f.1 == cr.frame && decide (frameLen (s.crewGranules cr) ≤ f.2)
    && decide (base ≤ f.1) && decide (f.1 + f.2 ≤ base + fld d.savelen 47 12 * 4096))

/-- The threads' faults stand in the frames and the record; they wait no longer. -/
def State.clearFaults (s : State) (c : Nat) : State :=
  (s.laneKeys c).foldl (fun s k => s.modThread k fun t => { t with st := { t.st with
    pending := match t.st.pending with | .fault _ _ => .none | p => p } }) s

def execPageFaultSave (crew : Nat) (s : State) : Out :=
  .next (match s.crews.find crew with
    | none => s
    | some cr =>
      let d := cr.core / Config.coresPerDie
      if cr.place != .stopping || !s.crewDrained crew || s.faultQueueFull d then s
      else
        let fs := s.faulting crew
        let low := fs.headD (0, 0, 0)
        let mask := fs.foldl (fun m e => m + 2 ^ laneOf e.1) 0
        let ctx := (s.core cr.core).ctxOf cr.asid
        let room := s.frameRoom cr
        let s1 := (s.haltCrew crew true).clearFaults crew
        let s2 := if room then s1.writeCrew crew cr.frame else s1.modCrew crew fun c => { c with place := .parkedFault }
        let s3 := s2.faultRecord d (if room then cr.frame else 0) low.2.2 low.2.1 mask cr.seq cr.core
        ((s3.raiseFaultWord ctx cr.region).modCrew crew fun c => { c with faulted := true }).leaveRings ctx d cr.region)

/-- A fault word that the supervisor has cleared: crews held in place go on; saved ones may be restored (R166). -/
def execFaultWordClear (asid : Nat) (region : Word) (s : State) : Out :=
  let mine := s.crews.filter fun e => e.2.faulted && e.2.asid == asid && e.2.region == region
  let clear := mine.any fun e =>
    let d := e.2.core / Config.coresPerDie
    s.ctxWord (hwWho (s.dieCtx d asid)) (va57 region + 0x50) == some 0
  .next (if clear then s.clearFaulted asid region else s)

/-! ### Pre-emption (R304 to R311) -/

/-- The residencies that the accepted commands of exited crews use, which complete (R244, R309). -/
def State.keptHandles (s : State) (core : Nat) : List Nat :=
  let e := (s.core core).engines
  let gone := fun (c : Cmd) => (s.crews.find c.crew).isSome && (s.laneKeys c.crew).isEmpty && (c.isFill || c.isK)
  ((e.queue ++ e.current.toList ++ e.fill.toList).filter gone).map fun c => fld c.b 7 0

/-- Unpinned residencies of a context become DROPPED, their fills abandoned (R237, R308); the MMA in progress keeps the slot
that it reads (R304 step 3), and what an exited crew's commands use stands (R309). -/
def State.dropResidencies (s : State) (core asid : Nat) : State :=
  let e := (s.core core).engines
  let kept := s.keptHandles core
  let lost := fun (i : Nat) (h : Handle) => h.alloc && h.asid == asid && !h.pin && h.state != .dropped && !kept.contains i
  let fills := fun (c : Cmd) => c.isFill && lost (fld c.b 7 0) ((s.core core).handle (fld c.b 7 0))
  let gone := (e.queue.filter fills) ++ (e.fill.toList.filter fills)
  let drop := fun (x : Nat × Handle) =>
    if lost x.1 x.2 then (x.1, { x.2 with state := ResState.dropped, slot := none, lines := [], touched := false }) else x
  let clear := fun (k : Core) => { k with engines := { k.engines with
    queue := k.engines.queue.filter fun c => !fills c
    fill := k.engines.fill.filter fun c => !fills c
    handles := k.engines.handles.map drop } }
  gone.foldl (fun s c => (s.lowerTile c.threads).reapCrew c.crew) (s.modCore core clear)

/-- Crews of a context that run on a core; a crew whose last thread has exited is not pre-empted (R309). -/
def State.runningCrews (s : State) (core asid : Nat) : List Nat :=
  ((s.crewsOn core).filter fun e => e.2.asid == asid && e.2.place == .resident && !(s.laneKeys e.1).isEmpty).map (·.1)

/-- The decision (R283, R304): for waiting work that claims its core, a context's crews stop. Pre-emption for work of
priority 3 squashes the threads past a service call at once (R52). -/
def execPreemption (core asid : Nat) (s : State) : Out :=
  let out := s.runningCrews core asid
  .next (if out.isEmpty || (s.core core).switch.isSome || s.halted then s
    else match s.cause (core, asid) with
      | none => s
      | some (d, w) =>
        let now := s.prioOf w.ctx d w.region == 3
        let s1 := (s.accrue core).dropResidencies core asid
        let s2 := out.foldl (fun s c => (s.haltCrew c now).modCrew c fun cr => { cr with place := .spilling }) s1
        s2.modCore core fun c => { c with predictor := [], switch := some ⟨asid, w.ctx.asid, w.region⟩ })

/-- Effective PCM of a region: 1 keeps a context's cache lines in place (R54, R193, R194). -/
def State.pcmOf (s : State) (c : Ctx) (d : Nat) (leaf : Word) : Nat :=
  match s.regionPath (hwWho c) d leaf with
  | none => 0
  | some path => effectiveField (s.cachedWord (hwWho c) d) 3 (fun b => fld ((s.cachedWord (hwWho c) d b 0x08).getD 0) 7 6) path

/-- Every line of a context in a core's cache is written back and dropped. -/
def State.flushAsid (s : State) (core asid : Nat) : State :=
  let ls := (s.mem.copies.filter fun c => c.agent == core && c.asid == asid).map (·.line)
  ls.foldl (fun s l => s.putLine core l false) s

/-- The flush that a save makes under PCM = 0 (R193). -/
def State.saveFlush (s : State) (core : Nat) (cr : Crew) : State :=
  if s.pcmOf ((s.core core).ctxOf cr.asid) (core / Config.coresPerDie) cr.region = 1 then s else s.flushAsid core cr.asid

/-- Crews of a core that wait to be written, in a bank. -/
def State.spilling (s : State) (core : Nat) (bank : Bool) : List (Nat × Crew) :=
  (s.crewsOn core).filter fun e => e.2.place == .spilling && e.2.bank == bank

def State.writeOne (s : State) (core : Nat) (e : Nat × Crew) : State := (s.writeCrew e.1 e.2.frame).saveFlush core e.2

/-- Crews that a switch still waits for: they drain, or a thread of theirs awaits a reply (R52). -/
def State.unsettled (s : State) (e : Nat × Crew) : Bool := !s.crewDrained e.1 || !s.speechless e.1

/-- The crews that a shadow switch of the core brings in: of a switch under way, those of its incoming context (R304); else the
context that waits in the shadow bank (R356). -/
def State.incoming (s : State) (core : Nat) : List Nat :=
  match (s.core core).switch with
  | some w => (s.shadowed core).filter fun k => (s.crews.find k).any fun c => c.asid == w.asid
  | none => s.shadowed core

/-- A shadow switch (R305, R356): ACTB inverts, the incoming crews run. -/
def execShadowSwitch (core : Nat) (s : State) : Out :=
  let c := s.core core
  let inn := s.incoming core
  let out := (s.spilling core c.actb).map (·.1)
  let busy := c.engines.current.any (fun x => out.contains x.crew) || out.any fun k => !s.speechless k
  -- a crew whose last thread has exited does not hold the switch up (R309)
  let active := (s.crewsOn core).any fun e => e.2.bank == c.actb && e.2.place != .spilling && !(s.laneKeys e.1).isEmpty
  .next (if !c.shadow || inn.isEmpty || busy || active || (s.halted && c.switch.isNone) || s.pkg.qsd then s
    else
      let flip := fun (k : Core) => { k with
        partWord := setFld k.partWord 41 41 (boolBit (!k.actb)), switch := none, bundles := [] }
      let asids := (inn.filterMap fun k => (s.crews.find k).map (·.asid)).dedup
      inn.foldl State.startCrew (asids.foldl (fun s a => s.switchInCtx core a) ((s.accrue core).modCore core flip)))

/-- The context that a core takes up after a switch: its crews that fit, in rising order (R307 step 4). -/
def State.fillFrom (s : State) (core asid : Nat) : State :=
  (s.waitingCrews core asid).foldl (fun s e => s.restoreCrew e.1) s

/-- A draining switch (R307), once every outgoing crew has drained: frames written, lines flushed, incoming crews
filled. -/
def execDrainingSwitch (core : Nat) (s : State) : Out :=
  let c := s.core core
  .next (match c.switch with
    | none => s
    | some w =>
      let crews := s.spilling core c.actb
      let stopping := (s.crewsOn core).any fun e => e.2.asid == w.out && e.2.place == .stopping
      if !(s.incoming core).isEmpty || stopping || crews.any s.unsettled then s
      else
        let s1 := crews.foldl (fun s e => s.writeOne core e) s
        let s2 := (s1.accrue core).modCore core fun c => { c with switch := none, bundles := [] }
        (s2.fillFrom core w.asid).refreshRing (core / Config.coresPerDie))

/-- After a shadow switch the leach engine writes the crews of the former bank that have drained (R306). -/
def execLeachSpill (core : Nat) (s : State) : Out :=
  let c := s.core core
  .next ((((s.spilling core (!c.actb)).filter fun e => !s.unsettled e).foldl (fun s e => s.writeOne core e) s).refreshRing
    (core / Config.coresPerDie))

/-- The scheduler's next context for a core: the first work in order of service that wants the core. -/
def State.nextFor (s : State) (core : Nat) : Option Work :=
  [0, core / Config.coresPerDie].dedup.findSome? fun d => ((s.workOrder d).find? fun w => w.work.wants core).map (·.work)

/-- The crews that a pre-fill loads: those of a context that is off the core as a whole, and that is the core's next one (R304,
R356). -/
def State.prefillCrews (s : State) (core asid : Nat) : List (Nat × Crew) :=
  if (s.crewsOn core).any (fun e => e.2.asid == asid) || s.nextFor core != some (.context core asid) then []
  else s.waitingCrews core asid

/-- A pre-empted context loaded into the free bank (R304, R356), its crews in rising order (R354), where their regions'
paths admit them; a malformed block is counted (R57). -/
def execLeachPrefill (core asid : Nat) (s : State) : Out :=
  let c := s.core core
  let d := core / Config.coresPerDie
  let wait := s.prefillCrews core asid
  let free := !(s.crewsOn core).any fun e => e.2.bank != c.actb
  .next (if !c.shadow || !free || wait.isEmpty || (s.crewsOn core).isEmpty || s.halted then s
    else if wait.any fun e => e.2.region != 0 && s.pathBad (s.dieCtx d asid) d e.2.region then s.countMalformed d
    else
      let one := fun (q : Option State) (e : Nat × Crew) => q.bind fun s =>
        match e.2.place with
        | .saved f =>
          if s.pathAdmits (s.dieCtx d asid) d e.2 f then
            (s.crewFit e.1 f (!c.actb) true).map fun fit => (s.cachePath (s.dieCtx d asid) d e.2.region).readCrew e.1 f fit e.2
          else none
        | _ => none
      ((wait.foldl one (some s)).map fun s => s.refreshRing d).getD s)

/-- A supervisor flush of an ASID (R194). -/
def execAsidFlush (core asid : Nat) (s : State) : Out := .next (s.flushAsid core asid)

/-! ### Core wake (R85 to R87) -/

/-- Threads that a bad word marks (R86): the owner of a register window, or every thread of a crew whose scratch,
speculation area or rings hold it. -/
def State.marked (s : State) (core : Nat) (bank : Bool) (off : Nat) : List Nat :=
  ((s.crewsOn core).filter fun e => e.2.bank == bank).flatMap fun e =>
    if e.2.inAlloc off 4 || s.inRings e.2 off 4 then s.laneKeys e.1
    else (s.laneKeys e.1).filter fun k => decide ((s.thread k).loambase ≤ off) && decide (off < (s.thread k).loambase + 8 * (s.thread k).regcnt)

/-- What wakes a sleeping core: a signal for one of its threads, or a crew placed or restored there (R462). -/
def State.mayWake (s : State) (core : Nat) : Bool :=
  (s.core core).asleep && (((s.crewsOn core).flatMap fun e => s.laneKeys e.1).any fun k =>
    !(s.thread k).signals.isEmpty || (s.thread k).ready)

/-- The core wakes and its parity sweep counts and marks; crews with marked threads are saved by the path of a page fault.
The address that their fault record gives is a free value (log 6). -/
def execCoreWake (core : Nat) (s : State) : Out :=
  .next (if !s.mayWake core then s
    else
      let bad := (s.core core).badParity
      let own := ((s.crewsOn core).flatMap fun e => s.laneKeys e.1).filter fun k => (s.thread k).parity != 0
      let words := own.flatMap fun k => (List.range 128).filter fun n => (s.thread k).parity.getLsbD n
      let s1 := s.modCore core fun c => { c with asleep := false }
      let s2 := words.foldl (fun s _ => s.countParity core) (bad.foldl (fun s _ => s.countParity core) s1)
      let ks := ((bad.flatMap fun e => s.marked core e.1 e.2) ++ own).dedup
      let q := s2.draw
      let s3 := if ks.isEmpty then s2 else q.2
      ks.foldl (fun s k =>
        (s.modThread k fun t => { t with st := { t.st with poison := true } }).pageFault k (causeWord cPOISON 0) q.1) s3)

/-! ### The scheduling tick (R281, R282) -/

def execSchedulingTick (s : State) : Out :=
  .next (if s.halted then s else (List.range Config.simtDies).foldl State.tickDie s)

end Sys2Proof.Machine
end

