-- ==== Sys2Proof/Machine/Migrate.lean ====
section
/-!
DEFINITION. Page migration (05 R169 to R171) and the Silt tier (04 R150; 05 R167, R168).
-/
namespace Sys2Proof.Machine

/-! ### Migration -/

/-- Word 0x18 of the descriptor: state, lines and poisoned lines copied (R169). -/
def Migration.status (g : Migration) : Word :=
  BitVec.ofNat 64 (g.state * 2 ^ 62 + min g.poisoned 255 * 2 ^ 40 + g.lines % 2 ^ 37)

/-- The unit's migration, and its word in the descriptor. -/
def State.putMigration (s : State) (d : Nat) (g : Migration) : State :=
  (s.modDie d fun x => { x with migration := some g }).hwPutWord (g.desc + 0x18) g.status

/-- Lines of a copy that is given up in the source range: dirty bytes written back, the line dropped (R170). -/
def State.sweep (s : State) (g : Migration) : State :=
  let mine := s.mem.copies.filter fun c =>
    decide (c.agent < Config.hostAgent) && decide (g.src ≤ 128 * c.line) && decide (128 * c.line < g.src + g.len)
  mine.foldl (fun s c => s.putLine c.agent c.line false) s

/-- A descriptor with a reserved bit set, or whose ranges overlap (R169, R170). DESIGN CHOICE (log 52): R169 names only
these; a descriptor whose addresses or length are misaligned or too long, or with bits 63:52 of word 0x20 set, ends in state
failed too. -/
def migrationBad (w : Nat → Word) (len : Nat) : Bool :=
  let src := (w 0).toNat
  let dst := (w 8).toNat
  src % 4096 != 0 || decide (2 ^ 50 ≤ src) || dst % 4096 != 0 || decide (2 ^ 50 ≤ dst)
    || len % 4096 != 0 || decide (2 ^ 34 < len) || fld (w 0x10) 47 35 != 0 || fld (w 0x10) 55 54 != 0
    || bitAt (w 0x10) 62 || fld (w 0x20) 63 52 != 0 || w 0x30 != 0 || w 0x38 != 0
    || (decide (src < dst + len) && decide (dst < src + len))

/-- When every line is copied: the named entry takes its new word, and the state becomes forwarding (R170). -/
def State.endCopy (s : State) (d : Nat) (g : Migration) : State :=
  if 128 * g.lines < g.len then s.putMigration d g
  else
    let s1 := if g.leaf = 0 then s else s.hwPutWord g.leaf g.w0
    s1.putMigration d { g with state := 1 }

/-- A store to MIGSTART (R169). A unit whose migration is not released takes no other one. -/
def State.startMigration (s : State) (d : Nat) (v : Word) : State :=
  let busy := match (s.die d).migration with
    | some g => g.state == 0 || g.state == 1
    | none => false
  if busy then s
  else
    let a := fld v 51 6 * 64
    let w := fun (off : Nat) => s.hwWord (a + off)
    let len := fld (w 0x10) 34 0
    let g : Migration := {
      desc := a, src := (w 0).toNat, dst := (w 8).toNat, len := len, skey := fld (w 0x10) 53 48, dkey := fld (w 0x10) 61 56,
      sweep := bitAt (w 0x10) 63, leaf := fld (w 0x20) 51 0, w0 := w 0x28, lines := 0, poisoned := 0, state := 0 }
    if migrationBad w len then s.putMigration d { g with state := 3 }
    else
      let s1 := if g.sweep then s.sweep g else s
      s1.endCopy d g

def execMigstart (die : Nat) (v : Word) (s : State) : Out :=
  .next (if decide (die < Config.simtDies) then s.startMigration die v else s)

/-- One line copied (R170): source and destination are recalled, and the destination takes the value under its key, or
the poison; a line of a compressed Silt unit waits for the unit's expansion (R168). -/
def State.copyLine (s : State) (g : Migration) : State × Bool :=
  let a := lineOf g.src + g.lines
  let b := lineOf g.dst + g.lines
  let s1 := (((s.siltTouch (128 * a)).siltTouch (128 * b)).recallLine hwAgent a).recallLine hwAgent b
  if s1.mem.poisoned a g.skey then (s1.withMem { s1.mem with lines := s1.mem.lines.set b ⟨g.dkey, true⟩ }, true)
  else (s1.withMem (s1.mem.writeLine b (s1.mem.bytes.line a) fullMask g.dkey), false)

def execMigrationLineCopy (die : Nat) (s : State) : Out :=
  .next (match (s.die die).migration with
    | none => s
    | some g =>
      let ready := s.siltReady (128 * (lineOf g.src + g.lines)) && s.siltReady (128 * (lineOf g.dst + g.lines))
      if g.state != 0 || s.halted || !ready then s
      else
        let r := s.copyLine g
        r.1.endCopy die { g with lines := g.lines + 1, poisoned := if r.2 then min (g.poisoned + 1) 255 else g.poisoned })

/-- A store to MIGREL (R170): with SWEEP a second sweep, then forwarding ends. -/
def State.releaseMigration (s : State) (d : Nat) (v : Word) : State :=
  match (s.die d).migration with
  | none => s
  | some g =>
    if g.state != 1 || g.desc != fld v 51 6 * 64 then s
    else
      let s1 := if g.sweep then s.sweep g else s
      s1.putMigration d { g with state := 2 }

def execMigrel (die : Nat) (v : Word) (s : State) : Out := .next (s.releaseMigration die v)

/-! ### Silt -/

/-- Units of a stack: 64 KiB in 64 GiB. -/
def unitsPerStack : Nat := 2 ^ 20

/-- The unit's bit in the eligibility map is set, and the unit has had no access for the cold interval, in cycles of 2.2 GHz
(R167; SILTMAP and COLD of R330, a COLD of 0 stopping compression). Before the interval was set no access was noted. -/
def State.siltEligible (s : State) (st u : Nat) : Bool :=
  let k := s.stk st
  let byte := (s.peekBytes (fld k.siltmap 51 12 * 4096 + u / 8) 1).headD 0
  let since := (k.touched.find u).getD k.coldAt
  fld k.cold 31 0 != 0 && byte.getLsbD (u % 8)
    && decide (fld k.cold 31 0 * 2200 ≤ ((s.die (stackDie st)).cyc - since).toNat)

/-- A unit inside a valid viewset entry (R145, R167). -/
def State.inViewset (s : State) (st u : Nat) : Bool :=
  let a := st * 2 ^ 36 + u * 65536
  (s.stk st).vset.any fun e => match viewGeometry st e.2 with
    | some (base, rowLen, rows, _) => decide (base < a + 65536) && decide (a < base + rowLen * rows)
    | none => false

/-- Dirty copies of a range are written back, and stay clean. -/
def State.cleanRange (s : State) (a n : Nat) : State :=
  let mine := s.mem.copies.filter fun c => decide (a ≤ 128 * c.line) && decide (128 * c.line < a + n)
  mine.foldl (fun s c => s.putLine c.agent c.line true) s

/-- A cold eligible unit is compressed (R167): no value that an access reads changes. -/
def execSiltCompress (unit : Nat) (s : State) : Out :=
  let st := unit / unitsPerStack
  let u := unit % unitsPerStack
  let k := s.stk st
  .next (if decide (Config.hbmStacks ≤ st) || k.compressed.contains u || !s.siltEligible st u || s.inViewset st u || s.halted then s
    else
      let s1 := s.cleanRange (st * 2 ^ 36 + u * 65536) 65536
      let k1 := s1.stk st
      s1.setStk st { k1 with compressed := u :: k1.compressed, expanded := k1.expanded.filter (· != u) })

/-- A compressed unit stands in a free frame of the pool (R150, R168). -/
def execSiltExpansion (unit : Nat) (s : State) : Out :=
  let st := unit / unitsPerStack
  let u := unit % unitsPerStack
  let k := s.stk st
  .next (if !k.compressed.contains u || decide (fld k.poollen 31 0 ≤ k.expanded.length) then s
    else s.setStk st { k with compressed := k.compressed.filter (· != u), expanded := u :: k.expanded })

end Sys2Proof.Machine
end

