-- ==== Sys2Proof/Machine/Ctl.lean ====
section
/-!
DEFINITION. Control space (12 R326 to R331): the unit directory, the registers of every unit, and the stores that act:
RCINV (10 R277), RETURN (11 R299), SIGCTL (13 R353), the hardware-thread blocks (11 R300, R302), QCTL (11 R312), REPLY
(20 R449) and the counters.
-/
namespace Sys2Proof.Machine

/-! ### The unit directory (R327; log 16) -/

inductive CtlUnit where
  | pkg
  | die (d : Nat)
  | stack (n : Nat)
  | net (n : Nat)
  | port (n : Nat)
  deriving DecidableEq, Repr

/-- The units in the order of their entries. -/
def ctlUnits : List CtlUnit :=
  .pkg :: ((List.range Config.simtDies).map .die ++ (List.range Config.hbmStacks).map .stack
    ++ (List.range Config.networkEngines).map .net ++ (List.range Config.herpinPorts).map .port)

def CtlUnit.code : CtlUnit → Nat × Nat
  | .pkg => (1, 0) | .die d => (2, d) | .stack n => (3, n) | .net n => (4, n) | .port n => (5, n)

def blockBytes : Nat := 65536

/-- The unit and the offset in its block that an offset of control space names. -/
def ctlPlace (off : Nat) : Option (CtlUnit × Nat) :=
  if off < blockBytes then none else (ctlUnits[off / blockBytes - 1]?).map fun u => (u, off % blockBytes)

/-- A word of the directory. -/
def directoryWord (off : Nat) : Word :=
  match ctlUnits[off / 16]? with
  | some u => if off % 16 = 0 then word (u.code.1 + u.code.2 * 65536) else word ((off / 16 + 1) * blockBytes)
  | none => 0

/-! ### Reads -/

/-- SIGCTL's BUSY (R353): a resident thread of the die has a signal that it takes at its next boundary. -/
def State.sigBusy (s : State) (d : Nat) : Bool :=
  s.threads.any fun e => decide (256 ≤ e.1) && s.signalDue e.1 && (s.crewAt e.1).any fun c =>
    c.core / Config.coresPerDie == d && c.place == .resident

def queueWord (head tail log : Nat) : Word := word (head % 65536 * 2 ^ 48 + tail % 65536 * 2 ^ 32 + log % 16)

def State.readHart (s : State) (n off : Nat) : Word :=
  let h := s.hart n
  match off with
  | 0x00 => h.htsave
  | 0x08 => h.htsup
  | 0x18 => word (boolBit h.run + 2 * boolBit h.rej)
  | 0x20 => s.ipend n
  | 0x28 => h.ien
  | 0x30 => h.tcmp
  | _ => 0

def State.readPkg (s : State) (off : Nat) : Word :=
  let p := s.pkg
  match off with
  | 0x000 => word (boolBit p.qbusy * 2 ^ 63 + boolBit p.qsd * 2 ^ 62 + p.qresult % 256 * 2 ^ 48 + boolBit p.sigreq * 256)
  | 0x008 => p.qbuf
  | 0x010 => p.qlen
  | 0x018 => p.qlist
  | 0x020 => p.pkgid
  | 0x028 => p.rstab
  | 0x030 => p.escbase
  | 0x038 => queueWord p.escHead p.escTail p.escLog
  | 0x040 => word p.tocnt
  | 0x048 => p.hostdb
  | 0x050 => p.tidreg
  | 0x058 => p.pkgevt.setWidth 64
  | 0xA00 => p.svctab
  | _ =>
    if 0x200 ≤ off ∧ off < 0xA00 then (s.hart ((off - 0x200) / 8)).rgn
    else if 0xB00 ≤ off ∧ off < 0xD00 then p.dist.word (off - 0xB00)
    else if 0x1000 ≤ off ∧ off < 0x5000 then s.readHart ((off - 0x1000) / 64) (off % 64)
    else 0

def State.readDie (s : State) (d off : Nat) : Word :=
  let x := s.die d
  match off with
  | 0x000 => x.savebase
  | 0x008 => x.savelen
  | 0x010 => x.fqbase
  | 0x018 => queueWord x.fqHead x.fqTail x.fqLog
  | 0x030 => word x.malcnt
  | 0x100 => x.rcAddr
  | 0x110 => x.sigtid
  | 0x118 => word (boolBit (s.sigBusy d) * 2 ^ 63 + x.sigResult % 4 * 2 ^ 56)
  | _ =>
    if 0x1000 ≤ off ∧ off < 0x1000 + 64 * Config.coresPerDie then
      let c := (s.core (d * Config.coresPerDie + (off - 0x1000) / 64)).counters
      match off % 64 with
      | 0 => word c.parity
      | 8 => word c.poison
      | _ => 0
    else 0

/-- A stack controller's registers (R330): the viewset table (R145), SILTMAP and COLD, which gate compression (R167), the pool
(R168), the counters of throttle events (R152), view errors (R149) and Silt-policy events (R168), and ACTLIM. -/
def State.readStack (s : State) (n off : Nat) : Word :=
  let k := s.stk n
  match off with
  | 0x200 => k.siltmap
  | 0x208 => k.cold
  | 0x210 => k.poolbase
  | 0x218 => k.poollen
  | 0x220 => word k.throt
  | 0x228 => word k.verr
  | 0x230 => word k.spol
  | 0x238 => k.actlim
  | _ => if off < 0x200 then k.vset.get (off / 8) 0 else 0

def State.readNet (s : State) (n off : Nat) : Word :=
  let e := s.net n
  match off with
  | 0x000 => e.ctxbase
  | 0x008 => e.tto
  | 0x010 => word e.notgt
  | 0x018 => e.nevt.setWidth 64
  | _ => 0

def State.readPort (s : State) (n off : Nat) : Word :=
  let p := s.port n
  match off with
  | 0x000 => word (boolBit p.up + 2 * boolBit s.pkg.qsd + p.replays % 2 ^ 32 * 2 ^ 16)
  | 0x008 => word p.downcnt
  | 0x010 => p.lto
  | _ => 0

/-- The register at an offset of control space, as an 8-byte load reads it; zero where there is none. -/
def State.ctlRead (s : State) (off : Nat) : Word :=
  if off < 4096 then directoryWord off
  else match ctlPlace off with
    | some (.pkg, o) => s.readPkg o
    | some (.die d, o) => s.readDie d o
    | some (.stack n, o) => s.readStack n o
    | some (.net n, o) => s.readNet n o
    | some (.port n, o) => s.readPort n o
    | none => 0

/-! ### Stores that act -/

/-- HTLOAD (R300): `by'` is the thread that stores. -/
def State.htLoad (s : State) (by' n : Nat) (v : Word) : State :=
  let f := fld v 51 10 * 1024
  if !s.frameValid f then s.modHart n fun h => { h with rej := true }
  else if by' = n then s.modHart n fun h => { h with load := some f, rej := false }
  else if (s.hart n).run then s.modHart n fun h => { h with rej := true }
  else (s.modHart n fun h => { h with rej := false }).loadHart n f

/-- ISET (R300). -/
def State.setSoft (s : State) (n : Nat) (v : Word) : State :=
  if bitAt v 3 then s.modHart n fun h => { h with ipend := h.ipend ||| 8#8 } else s

/-- IPEND, write one to clear; a level bit ignores it (R302). -/
def State.clearPending (s : State) (n : Nat) (v : Word) : State :=
  s.modHart n fun h => { h with ipend := h.ipend &&& ~~~(v.setWidth 8 &&& 0xF8#8) }

/-- QCTL (R312): SIGREQ, and a command that runs. -/
def State.writeQctl (s : State) (v : Word) : State :=
  if s.pkg.qbusy then s
  else
    let c := fld v 3 0
    let p := { s.pkg with sigreq := bitAt v 8 }
    { s with pkg := if 1 ≤ c ∧ c ≤ 4 then { p with qbusy := true, qcmd := c } else p }

/-- A thread whose escalation or page-fault save has begun is not resident (R353); a trap that waits on a service call keeps
it so (R50). -/
def Pending.stays : Pending → Bool
  | .none | .trap .. => true
  | .fault .. | .esc .. => false

/-- SIGCTL (R353): the signal goes to the resident thread with SIGTID; while a delivery is in progress the write is ignored. -/
def State.sendSignal (s : State) (d : Nat) (v : Word) : State :=
  let tid := (s.die d).sigtid
  let here := fun (e : Nat × Thread) => decide (256 ≤ e.1) && e.2.ids.tid == tid && !e.2.st.away && e.2.st.pending.stays
    && (match s.crewAt e.1 with
      | some c => c.core / Config.coresPerDie == d && c.place == .resident
      | none => false)
  let result := fun (s : State) (r : Nat) => s.modDie d fun x => { x with sigResult := r }
  if s.sigBusy d then s
  else match s.threads.find? here with
  | none => result s 1
  | some e =>
    let sig := word (fld v 15 0)
    -- SIGP stands while a signal awaits delivery (R292)
    result (s.modThread e.1 fun t => { t with signals := t.signals ++ [sig], trap := { t.trap with sigp := true } }) 0

/-- RETURN (R299): an escalated thread goes back into its held lane, or is recorded while its crew does not run. -/
def State.returnThread (s : State) (d : Nat) (v : Word) : State :=
  match (s.die d).escalated.find? fun e => word e.1 == v with
  | none => s
  | some (f, k) =>
    let ws := s.frameAt f
    if !bitAt (hdr ws 0x208) 31 || fld (hdr ws 0x268) 6 0 != (s.thread k).regcnt then s
    else if (s.crewAt k).any fun c => c.place == .resident then s.rejoinLane k f
    else s.modDie d fun x => { x with returning := if x.returning.contains k then x.returning else x.returning ++ [k] }

/-! ### RCINV (R277, R57) -/

/-- Reserved POL or PCM of a control word keeps its previous value (R57). -/
def keepReserved (old new : Word) : Word :=
  let a := if 2 ≤ fld new 3 2 then setFld new 3 2 (fld old 3 2) else new
  if 2 ≤ fld new 7 6 then setFld a 7 6 (fld old 7 6) else a

/-- Whether a block can be read now (R57). -/
def State.readable (s : State) (c : Ctx) (b : Word) : Bool :=
  (List.range 32).all fun k => (s.ctxWord (hwWho c) (va57 b + 8 * k)).isSome

/-- One cached block invalidated (R277): the charges of the cores that hold it are posted, its HW fields are written back,
and it is dropped. A block whose region holds a placement is fetched again at once: its reserved fields keep their values,
one that cannot be read keeps them all, and one that would break a path keeps its parent; each is counted (R57). -/
def State.invalidateBlock (s : State) (d : Nat) (r : RegionBlock) (held : Bool) : State :=
  let s1 := (s.coresHeld r.ctx d r.addr).foldl (fun s c => s.postCharges c fun _ => true) s
  let now := ((s1.die d).regions.find? fun x => x.addr == r.addr).getD r
  let s2 := s1.writeBackBlock now
  let rest := (s2.die d).regions.filter fun x => x.addr != r.addr
  if !held then s2.modDie d fun x => { x with regions := rest }
  else if !s2.readable r.ctx r.addr then s2.countMalformed d
  else
    let s2 := s2.touchCtx (hwWho r.ctx) (va57 r.addr)
    let new := s2.blockWords r.ctx r.addr
    let w := new.getD 1 0
    let bad := decide (2 ≤ fld w 3 2) || decide (2 ≤ fld w 7 6)
    let ws := new.set 1 (keepReserved (now.words.getD 1 0) w)
    let put := fun (ws : List Word) => s2.modDie d fun x => { x with regions := { now with words := ws } :: rest }
    let leaves := ((s.crews.filter fun e => e.2.place.onCore && e.2.core / Config.coresPerDie == d).map fun e => e.2.region).dedup
    let broken := (leaves.filter (s.pathOf r.ctx d · |>.contains r.addr)).any fun l =>
      ((put ws).regionPath (hwWho r.ctx) d l).isNone
    let s3 := put (if broken then ws.set 0 (now.words.getD 0 0) else ws)
    if bad || broken then s3.countMalformed d else s3

/-- The contexts whose region left PCM = 1 write back and drop the lines that they keep in a core's cache, a saved context
too (R194). -/
def State.flushLeft (s0 s : State) (d : Nat) : State :=
  let ons := s.crews.filter fun e => e.2.core / Config.coresPerDie == d
  ons.foldl (fun s e =>
    let c := s.dieCtx d e.2.asid
    if s0.pcmOf c d e.2.region = 1 ∧ s.pcmOf c d e.2.region ≠ 1 then s.flushAsid e.2.core e.2.asid else s) s

/-- A store to RCINV. -/
def State.invalidateRegions (s : State) (d : Nat) (v : Word) : State :=
  let addr := keepBits v 56 8
  let named := fun (r : RegionBlock) => bitAt v 0 || r.addr == addr
  let held := ((s.holdingBlocks d).map (·.1))
  let s1 := ((s.die d).regions.filter named).foldl (fun s r => s.invalidateBlock d r (held.contains r.addr)) s
  (s.flushLeft s1 d).modDie d fun x => { x with rcAddr := addr }

/-! ### Stores to registers -/

/-- A "write zero to clear" counter (R327). -/
def clearIf (old : Nat) (v : Word) : Nat := if v = 0 then 0 else old

def State.writeHart (s : State) (by' n off : Nat) (v : Word) : State :=
  match off with
  | 0x00 => s.modHart n fun h => { h with htsave := keepBits v 51 10 }
  | 0x08 => s.modHart n fun h => { h with htsup := keepBits v 51 10 }
  | 0x10 => s.htLoad by' n v
  | 0x20 => s.clearPending n v
  | 0x28 => s.modHart n fun h => { h with ien := keepBits v 7 0 }
  | 0x30 => s.modHart n fun h => { h with tcmp := v }
  | 0x38 => s.setSoft n v
  | _ => s

def State.writePkg (s : State) (by' off : Nat) (v : Word) : State :=
  let p := s.pkg
  match off with
  | 0x000 => s.writeQctl v
  | 0x008 => { s with pkg := { p with qbuf := v } }
  | 0x010 => { s with pkg := { p with qlen := v } }
  | 0x018 => { s with pkg := { p with qlist := v } }
  | 0x020 => { s with pkg := { p with pkgid := keepBits v 8 0 } }
  | 0x028 => { s with pkg := { p with rstab := keepBits v 51 12 } }
  | 0x030 => { s with pkg := { p with escbase := keepBits v 51 12 } }
  | 0x038 => { s with pkg := { p with escTail := fld v 47 32, escLog := fld v 3 0 } }
  | 0x040 => { s with pkg := { p with tocnt := clearIf p.tocnt v } }
  | 0x048 => { s with pkg := { p with hostdb := v } }.edgeAll 4
  | 0x050 => { s with pkg := { p with tidreg := keepBits v 51 12 } }
  | 0x058 => { s with pkg := { p with pkgevt := p.pkgevt &&& ~~~(v.setWidth 3) } }
  | 0xA00 => { s with pkg := { p with svctab := keepBits v 51 4 } }
  | _ =>
    if 0x200 ≤ off ∧ off < 0xA00 then s.modHart ((off - 0x200) / 8) fun h => { h with rgn := v }
    else if 0xB00 ≤ off ∧ off < 0xD00 then { s with pkg := { p with dist := p.dist.putWord (off - 0xB00) v } }
    else if 0x1000 ≤ off ∧ off < 0x5000 then s.writeHart by' ((off - 0x1000) / 64) (off % 64) v
    else s

def State.writeDie (s : State) (d off : Nat) (v : Word) : State :=
  match off with
  | 0x000 => s.modDie d fun x => { x with savebase := keepBits v 51 12 }
  | 0x008 => s.modDie d fun x => { x with savelen := keepBits v 47 12 }
  | 0x010 => s.modDie d fun x => { x with fqbase := keepBits v 51 12 }
  | 0x018 => s.modDie d fun x => { x with fqTail := fld v 47 32, fqLog := fld v 3 0 }
  | 0x020 => s.startMigration d v
  | 0x028 => s.releaseMigration d v
  | 0x030 => s.modDie d fun x => { x with malcnt := clearIf x.malcnt v }
  | 0x100 => s.invalidateRegions d v
  | 0x108 => s.returnThread d v
  | 0x110 => s.modDie d fun x => { x with sigtid := v }
  | 0x118 => s.sendSignal d v
  | _ => s

/-- A store to a stack controller's register (R330): reserved bits of a viewset entry stay zero, a counter is cleared by
writing zero, and ACTLIM is read-only. -/
def State.writeStack (s : State) (n off : Nat) (v : Word) : State :=
  let k := s.stk n
  match off with
  | 0x200 => s.setStk n { k with siltmap := keepBits v 51 12 }
  | 0x208 => s.setStk n { k with cold := keepBits v 31 0, coldAt := (s.die (stackDie n)).cyc, touched := [] }
  | 0x210 => s.setStk n { k with poolbase := keepBits v 51 16 }
  | 0x218 => s.setStk n { k with poollen := keepBits v 31 0 }
  | 0x220 => s.setStk n { k with throt := clearIf k.throt v }
  | 0x228 => s.setStk n { k with verr := clearIf k.verr v }
  | 0x230 => s.setStk n { k with spol := clearIf k.spol v }
  | _ => if off < 0x200 then s.setStk n { k with vset := k.vset.set (off / 8) (keepBits v 63 63 ||| keepBits v 59 21) } else s

def State.writeNet (s : State) (n off : Nat) (v : Word) : State :=
  let e := s.net n
  match off with
  | 0x000 => s.setNet n { e with ctxbase := v }
  | 0x008 => s.setNet n { e with tto := keepBits v 31 0 }
  | 0x010 => s.setNet n { e with notgt := clearIf e.notgt v }
  | 0x018 => s.setNet n { e with nevt := e.nevt &&& ~~~(v.setWidth 2) }
  | _ => s

def State.writePort (s : State) (n off : Nat) (v : Word) : State :=
  let p := s.port n
  match off with
  | 0x008 => s.setPort n { p with downcnt := clearIf p.downcnt v }
  | 0x010 => s.setPort n { p with lto := keepBits v 31 0 }
  | _ => s

/-- An 8-byte store to control space by `by'`; one that names no register does nothing (R327). -/
def State.ctlWrite (s : State) (by' off : Nat) (v : Word) : State :=
  match ctlPlace off with
  | some (.pkg, o) => s.writePkg by' o v
  | some (.die d, o) => s.writeDie d o v
  | some (.stack n, o) => s.writeStack n o v
  | some (.net n, o) => s.writeNet n o v
  | some (.port n, o) => s.writePort n o v
  | none => s

/-- A load of control space: 8 bytes read a register, any other size zero (R327). -/
def State.ctlLoad (s : State) (pa n : Nat) : List Byte :=
  if n = 8 then natBytes 8 (s.ctlRead (pa - Config.ctlBase)).toNat else List.replicate n 0

/-- The offset of REPLY. -/
def replyOffset : Nat := blockBytes + 0xA10

/-- A store to control space: 8 bytes write a register, 16 bytes REPLY, any other size nothing (R327, R449). -/
def State.ctlStore (s : State) (by' pa : Nat) (bs : List Byte) : State :=
  let off := pa - Config.ctlBase
  if bs.length = 8 then s.ctlWrite by' off (word (bytesToNat bs))
  else if bs.length = 16 ∧ off = replyOffset then
    s.reply (bytesToNat (bs.take 8) % 2 ^ 48) (word (bytesToNat (bs.drop 8)))
  else s

/-! ### The rows: a store arrives at its register, from a thread, the host or the management interface -/

/-- The number under which a store by no thread acts. -/
def noThread : Nat := 2 ^ 64

def execRcinv (die : Nat) (v : Word) (s : State) : Out := .next (if die < Config.simtDies then s.invalidateRegions die v else s)
def execReturnStore (die : Nat) (v : Word) (s : State) : Out := .next (s.returnThread die v)
def execSigctl (die : Nat) (v : Word) (s : State) : Out := .next (if die < Config.simtDies then s.sendSignal die v else s)
def execHtload (by' hart : Nat) (v : Word) (s : State) : Out := .next (if hart < Config.harts then s.htLoad by' hart v else s)
def execIset (hart : Nat) (v : Word) (s : State) : Out := .next (if hart < Config.harts then s.setSoft hart v else s)
def execHostdb (v : Word) (s : State) : Out := .next (s.writePkg noThread 0x048 v)
def execReply (num v : Word) (s : State) : Out := .next (s.reply (fld num 47 0) v)

/-- The counters that a store of zero clears. -/
def isCounter : Option (CtlUnit × Nat) → Bool
  | some (.pkg, o) => o == 0x040
  | some (.die _, o) => o == 0x030
  | some (.stack _, o) => o == 0x220 || o == 0x228 || o == 0x230
  | some (.net _, o) => o == 0x010
  | some (.port _, o) => o == 0x008
  | none => false

def execCounterClear (off : Nat) (v : Word) (s : State) : Out :=
  .next (if isCounter (ctlPlace off) then s.ctlWrite noThread off v else s)

/-- Registers whose store has a row of its own. -/
def ownRow : Option (CtlUnit × Nat) → Bool
  | some (.pkg, o) => o == 0x048 || (decide (0x1000 ≤ o) && decide (o < 0x5000) && (o % 64 == 0x10 || o % 64 == 0x38))
  | some (.die _, o) => o == 0x020 || o == 0x028 || o == 0x100 || o == 0x108 || o == 0x118
  | _ => false

def execControlRegisterWrite (off : Nat) (v : Word) (s : State) : Out :=
  .next (if isCounter (ctlPlace off) || ownRow (ctlPlace off) then s else s.ctlWrite noThread off v)

/-- cyc has reached TCMP (R302): the level bit stands in IPEND, and an idle hardware thread with the bit enabled loads its
supervisor frame. -/
def execTimerCompare (s : State) : Out :=
  let due := (List.range Config.harts).filter fun n => bitAt (s.ipend n) 2 && !(s.hart n).run && s.interruptDue n
  .next (if s.halted then s else due.foldl State.loadSup s)

end Sys2Proof.Machine
end

