-- ==== Sys2Proof/Machine/MemOps.lean ====
section
/-!
DEFINITION. Loads, stores, atomics and prefetches (04 R116 to R128; 17 R365 to R368, R372; 19 R417 to R419, R439, R440;
20 R464 to R467). On a latency core an access is performed when it issues (R128). On a SIMT core it resolves and is
checked at issue, counts, and is performed by the row of its return: LOAD_SECTOR_RETURN, ATOMIC_REPLY, STORE_PERFORMED or
MEMORY_TIMEOUT (11 R296). Here also the rows PROMOTE (07 R204) and the order of a thread's accesses (07 R199, R200).
-/
namespace Sys2Proof.Machine

/-! ### An access at its target -/

/-- Where a window offset of an access in flight lies now: a register that it named stays that register while the thread
has it, wherever its window moves (R75). `none`: what the offset named is gone. -/
def State.spotNow (s : State) (k off n : Nat) (reg : Option (Nat × Nat × Nat)) : Option (Nat × Nat × LoamSpot) :=
  match reg with
  | some (t, r, sub) =>
    if (s.threads.find t).isSome && decide (8 * r + sub + n ≤ 8 * (s.thread t).regcnt) then
      some (s.coreOf t, (s.thread t).loambase + 8 * r + sub, .reg t r sub)
    else none
  | none => match s.windowPlace (s.who k) off n with
    | .loam c o sp => some (c, o, sp)
    | _ => none

/-- What an access in flight names exists no more. -/
def State.targetGone (s : State) (k : Nat) (t : Target) (n : Nat) : Bool :=
  match t with
  | .loam _ off reg => (s.spotNow k off n reg).isNone
  | .phys .. => false

/-- The key of a byte of a core's Loam, apart from every byte of memory. -/
def loamKey (core off : Nat) : Nat := 2 ^ 70 + core * 2 ^ 22 + off

/-- What bytes of a Loam spot hold is noted before a write, while a promise may be open (R205). -/
def State.noteLoam (s : State) (core off : Nat) (sp : LoamSpot) (n : Nat) : State :=
  s.notePast (if s.promising then (s.readSpot core sp off n).zipIdx.map fun e => (loamKey core (off + e.2), e.1) else [])

/-- Bytes read at a target by a thread; `none` is poison or bad parity (R84, R151). An access to a Silt unit expands it first
(R168). -/
def State.readTarget (s : State) (k : Nat) (t : Target) (n : Nat) : State × Option (List Byte) :=
  match t with
  | .phys pa key trk vset remote ro rset =>
    if remote.isNone && rset == 0 && physKind pa == .control then (s, some (s.ctlLoad pa n))
    else (if remote.isNone then s.siltTouch pa else s).readPage (s.agentOf k) (s.ctxOf k).asid (pageOf pa key trk vset remote ro rset) pa n
  | .loam _ off reg =>
    match s.spotNow k off n reg with
    | some (c, o, sp) =>
      if (s.spotBad c sp o n).isEmpty then let r := s.readLoam k c sp o n; (r.1, some r.2) else (s.countParity c, none)
    | none => (s, some (List.replicate n 0))

/-- A store at its target; one to an address that no unit serves is dropped and counted (R296), one to a heap line above
installed HBM, which is poisoned, dropped only (R118, R151). -/
def State.writeTarget (s : State) (k : Nat) (t : Target) (bs : List Byte) : State :=
  match t with
  | .phys pa key trk vset remote ro rset =>
    if remote.isNone && rset == 0 && physKind pa == .control then s.ctlStore k pa bs
    else if remote.isNone && rset == 0 && physKind pa == .absent then if pa < 3 * 2 ^ 50 then s.countTimeout else s
    else (if remote.isNone then s.siltTouch pa else s).writePage (s.agentOf k) (s.ctxOf k).asid
      (pageOf pa key trk vset remote ro rset) pa bs
  | .loam _ off reg =>
    match s.spotNow k off bs.length reg with
    | some (c, o, sp) => (s.noteLoam c o sp bs.length).writeSpot c sp o bs
    | none => s

/-- An atomic at its place of performance (R366): the old value, or poison. -/
def State.atomicTarget (s : State) (k : Nat) (t : Target) (size : Nat) (i : Instr) (b c : Word) : State × Option Nat :=
  match t with
  | .phys pa key trk vset remote ro rset =>
    (if remote.isNone then s.siltTouch pa else s).atomicPage (s.agentOf k) (pageOf pa key trk vset remote ro rset) pa size i b c
  | .loam _ off reg =>
    match s.spotNow k off size reg with
    | some (core, o, sp) =>
      if (s.spotBad core sp o size).isEmpty then
        let r := s.readLoam k core sp o size
        let old := bytesToNat r.2
        ((r.1.noteLoam core o sp size).writeSpot core sp o (natBytes size (atomicNew i (8 * size) old b.toNat c.toNat)), some old)
      else (s.countParity core, none)
    | none => (s, some 0)

/-! ### Promises of invariant loads (R205) -/

/-- Since when a byte is promised to a thread, if it is: by its gang, or by itself. -/
def State.promiseStart (s : State) (k a : Nat) : Option Nat :=
  match s.gangs.find (s.thread k).ids.seq with
  | some g => if g.invs.contains a then some g.start else none
  | none => ((s.thread k).invs.find? fun e => e.1 == a).map (·.2)

/-- The keys of the bytes behind a target: whatever the view through which they are reached (R148). -/
def State.targetKeys (s : State) (k : Nat) (t : Target) (n : Nat) : List Nat :=
  match t with
  | .phys pa key _ vset remote _ _ => (List.range n).map fun i => s.byteKey vset key remote (pa + i)
  | .loam _ off reg => match s.spotNow k off n reg with
    | some (c, o, _) => (List.range n).map fun i => loamKey c (o + i)
    | none => []

/-- An invariant load promises its bytes: for the whole gang since its creation, for another thread from now on. -/
def State.promise (s : State) (k : Nat) (t : Target) (n : Nat) : State :=
  let bytes := s.targetKeys k t n
  if (s.gangs.find (s.thread k).ids.seq).isSome then
    s.modGang (s.thread k).ids.seq fun g => { g with invs := bytes.filter (fun b => !g.invs.contains b) ++ g.invs }
  else s.modThread k fun th =>
    { th with invs := ((bytes.filter fun b => !th.invs.any fun e => e.1 == b).map fun b => (b, s.free)) ++ th.invs }

/-- The bytes that a load takes: of one whose promise a write has broken, the present value or any that the byte held since
the promise began, which no one is a free choice. -/
def State.promised (s : State) (k : Nat) (t : Target) (bs : List Byte) : State × List Byte :=
  match s.mem.past with
  | [] => (s, bs)
  | _ :: _ =>
    let keys := s.targetKeys k t bs.length
    let older := fun (b : Nat) => match s.promiseStart k b with
      | none => []
      | some t0 => s.mem.past.filterMap fun e => if e.2.1 = b ∧ t0 ≤ e.1 then some e.2.2 else none
    let pick := fun (v : Byte) (i : Nat) =>
      let vs := v :: older (keys.getD i 0)
      vs.getD ((Config.freeValue (s.free + i)).toNat % vs.length) v
    ({ s with free := s.free + bs.length }, bs.zipIdx.map fun e => pick e.1 e.2)

/-! ### Values into registers -/

/-- A loaded value, extended (R418). -/
def loadedWord (size : Nat) (sx : Bool) (bs : List Byte) : Word :=
  if sx then sextNat (8 * size) (bytesToNat bs) else word (bytesToNat bs)

/-- The registers that a load or atomic writes, with their values (R418, R366). -/
def loadWrites (size : Nat) (sx : Bool) (d : Nat) (bs : List Byte) : List (Nat × Word) :=
  if size = 16 then [(d, word (bytesToNat (bs.take 8))), (d + 1, word (bytesToNat (bs.drop 8)))]
  else [(d, loadedWord size sx bs)]

def State.writeRegs (s : State) (k : Nat) (ws : List (Nat × Word)) : State :=
  ws.foldl (fun s e => s.writeReg k (BitVec.ofNat 6 e.1) e.2) s

/-- The same values in the checkpoint of a speculating thread, for a load that issued before its service call. -/
def State.writeCheckpoint (s : State) (k : Nat) (ws : List (Nat × Word)) : State :=
  match s.crewAt k with
  | none => s
  | some c => ws.foldl (fun s e =>
      if e.1 = 0 then s
      else s.putLoam c.core c.bank (State.checkpointAt c (laneOf k) + 8 * (e.1 % 64)) (natBytes 8 e.2.toNat)) s

/-! ### Resolution at issue -/

/-- What an address gives at issue: a target, or the trap of R116, R160, R74, R121. -/
def State.target (s : State) (k addr n : Nat) (acc : AccKind) : State × (Target ⊕ (Nat × Nat)) :=
  match s.resolve (s.who k) addr acc with
  | (s1, .fault c sub) => (s1, .inr (c, sub))
  | (s1, .page p) => (s1, .inl p.target)
  | (s1, .window off) =>
    match s1.windowPlace (s1.who k) off n with
    | .loam _ _ sp => (s1, .inl (.loam (s1.coreOf k) off (match sp with
        | .reg t r sub => some (t, r, sub)
        | _ => none)))
    | .bad c sub => (s1, .inr (c, sub))
    | .page _ => (s1, .inr (cLOAM_BOUNDS, 0))

def Ord.acquires : Ord → Bool
  | .acq | .ar | .racq => true
  | _ => false

def Ord.releases : Ord → Bool
  | .rel | .ar => true
  | _ => false

/-- Bytes of an address range that a thread's store buffer holds, newest first (R50). -/
def bufferedByte (buf : List BufferedStore) (a : Nat) : Option Byte :=
  buf.foldl (fun r b =>
    let base := va57 b.addr
    if base ≤ a ∧ a < base + b.data.length then b.data[a - base]? else r) none

def Thread.overlayOf (t : Thread) (addr n : Nat) : List (Nat × Byte) :=
  if t.spec.mode = .normal then []
  else (List.range n).filterMap fun i => (bufferedByte t.spec.buf (addr + i)).map fun b => (i, b)

def applyOverlay (bs : List Byte) (o : List (Nat × Byte)) : List Byte :=
  o.foldl (fun (l : List Byte) e => l.set e.1 e.2) bs

/-- An access of thread `k` at its present instruction. -/
def State.access (s : State) (k addr : Nat) (t : Target) (kind : AccessKind) (o : Ord) (sc : Scope) : Access :=
  let th := s.thread k
  { thread := k, va := word addr, target := t, kind := kind, acq := Ord.acquires o, rel := Ord.releases o, sc := sc,
    crewKey := crewOf k, pc := th.pc, turn := s.free,
    overlay := match kind with | .load size _ _ => th.overlayOf addr size | _ => [],
    spec := th.spec.mode != .normal, drop := false, early := [], count := th.issued, asid := (s.ctxOf k).asid }

/-- A load or atomic, with what it found at its target when it issued. -/
def Access.found (a : Access) (bs : List Byte) : Access := { a with early := bs }

/-- The thread has gone on to no further instruction since the access: a trap at it is precise (R295). -/
def State.latest (s : State) (a : Access) : Bool := decide ((s.thread a.thread).issued ≤ a.count + 1)

/-! ### Promote (R204) -/

/-- The other agent that owns a tracked line. -/
def State.otherOwner (s : State) (agent : Nat) (t : Target) : Option (Nat × Nat) :=
  match t with
  | .phys pa key true _ none _ 0 =>
    let line := if aliasLine (lineOf pa) then lineOf pa else lineOf (s.forward pa key).1
    match s.mem.entry line with
    | some e => match e.owner with
      | some o => if o = agent then none else some (o, line)
      | none => none
    | none => none
  | _ => none

/-- A remote acquire that finds its line owned sends a promote through the home to the owner. -/
def State.sendPromote (s : State) (k : Nat) (o : Ord) (t : Target) : State :=
  if o = .racq then
    match s.otherOwner (s.agentOf k) t with
    | some (owner, line) => s.post (Msg.plain .promote line (homeOf line) owner (s.agentOf k))
    | none => s
  else s

/-- A promote for the line of an access, on behalf of its agent, is under way. -/
def State.promoteUnderWay (s : State) (a : Access) : Bool :=
  match a.target with
  | .phys pa key .. => s.mem.msgs.any fun e =>
      e.2.kind == .promote && e.2.req == s.agentOf a.thread && e.2.line == lineOf (s.forward pa key).1
  | .loam .. => false

/-! ### The order of accesses (R199, R200, R124) -/

/-- The bytes of an access: where, and how many. -/
def Access.span (a : Access) : Nat :=
  match a.kind with
  | .load size _ _ => size
  | .store data => data.length
  | .atomic _ size _ _ _ => size
  | .cwb | .cinv => 128

def Target.overlaps (t : Target) (n : Nat) (u : Target) (m : Nat) : Bool :=
  match t, u with
  | .phys pa _ _ _ r _ _, .phys pb _ _ _ q _ _ => r == q && decide (pa < pb + m) && decide (pb < pa + n)
  | .loam c o _, .loam e p _ => c == e && decide (o < p + m) && decide (p < o + n)
  | _, _ => false

def Access.overlaps (a b : Access) : Bool := a.target.overlaps a.span b.target b.span

def Access.isStore (a : Access) : Bool :=
  match a.kind with
  | .store _ => true
  | _ => false

def Access.isLoad (a : Access) : Bool :=
  match a.kind with
  | .load .. => true
  | _ => false

/-- Accesses of one bundle's instruction that go together: stores to one line of memory or of a crew's window are one
request (R124), loads of one line's sector return at once (R124, R125). -/
def Access.sameRequest (a b : Access) : Bool :=
  let near := fun (x y : Nat) => (a.isStore && b.isStore && lineOf x == lineOf y) || (a.isLoad && b.isLoad && x / 32 == y / 32)
  a.turn != 0 && a.turn == b.turn && a.pc == b.pc &&
  match a.target, b.target with
  | .phys pa ka _ _ r _ _, .phys pb kb _ _ q _ _ => ka == kb && r == q && near pa pb
  | .loam c o _, .loam e p _ => a.crewKey == b.crewKey && c == e && near o p
  | _, _ => false

/-- A release at crew or core scope. -/
def Access.narrowRelease (a : Access) : Bool := a.rel && (a.sc == .cw || a.sc == .co)

/-- Of the stores to memory that a core has issued. -/
def State.coreStore (s : State) (agent : Nat) (a : Access) : Bool :=
  s.agentOf a.thread == agent && !a.isLoam && a.isStore

/-- The unit of a local line in flight stands expanded, or can be (R168). -/
def State.expandable (s : State) (t : Target) : Bool :=
  match t with
  | .phys pa _ _ _ none _ _ => s.siltReady pa
  | _ => true

/-- An access is performed after the thread's earlier acquires, after every earlier access when it is a release, and after
an earlier one to the same bytes; of one bundle's stores to one byte the higher lane's is the last. A core-scope release is
performed after every store that its core issued before it: DESIGN CHOICE (log 67), so that its line can be given up at any
time, as R204 asks; the part may write the line earlier. An access to a Silt unit waits for a frame (R168). -/
def State.mayPerform (s : State) (id : Nat) (a : Access) : Bool :=
  !s.promoteUnderWay a && s.expandable a.target &&
  s.mem.inflight.all fun e =>
    decide (id ≤ e.1) || a.sameRequest e.2 ||
    (if e.2.thread = a.thread then !(e.2.acq || a.rel || e.2.overlaps a)
     else !(a.isStore && e.2.isStore && e.2.turn == a.turn && a.turn != 0 && e.2.pc == a.pc && e.2.overlaps a)
       && !(a.narrowRelease && s.coreStore (s.agentOf a.thread) e.2))

/-! ### Performance -/

/-- The access has returned: its counter falls (R126). -/
def State.finish (s : State) (id : Nat) (a : Access) : State :=
  let lower := fun (c : Counters) => match a.kind with
    | .load .. | .atomic .. => { c with ld := c.ld - 1 }
    | .store .. | .cwb | .cinv => { c with st := c.st - 1 }
  ({ s with mem := { s.mem with inflight := s.mem.inflight.del id } }).modThread a.thread fun t => { t with oc := lower t.oc }.settled

/-- A trap that an access raises when it returns or is not answered: the thread stands at the
access again, and takes the trap or holds it in W (R295, R296, R50; log 24). What a later instruction waits to hand
over is withdrawn. -/
def State.lateTrap (s : State) (a : Access) (cause sub : Nat) : State :=
  let k := a.thread
  let s1 := (s.withdrawIfParked k).modThread k fun t =>
    { t with pc := a.pc, st := { t.st with sleeping := false, pending := .none } }
  let faults := (s1.laneKeys (crewOf k)).any fun j => match (s1.thread j).st.pending with
    | .fault .. => true
    | _ => false
  (s1.modCrew (crewOf k) fun c => { c with place := if c.place == .stopping && !faults then .resident else c.place }).raise
    k cause sub a.va a.pc

/-- The value of a load or atomic written to its registers, unless its speculation was squashed. DESIGN CHOICE (log 52): of
several writes to a register with a load to it in flight, which R127 leaves unpredictable, the returning load's stands. -/
def State.deliver (s : State) (a : Access) (ws : List (Nat × Word)) : State :=
  if a.drop then s
  else
    let s1 := s.writeRegs a.thread ws
    if (s.thread a.thread).spec.mode != .normal && !a.spec then s1.writeCheckpoint a.thread ws else s1

/-- A load or atomic that finds poison when it returns: the precise trap if its thread has gone no further; otherwise
what it found at its issue is its value (R295; log 24). -/
def State.spoiled (s : State) (a : Access) (ws : List (Nat × Word)) : State :=
  if a.drop then s else if s.latest a then s.lateTrap a cPOISON 0 else s.deliver a ws

def State.performLoad (s : State) (id : Nat) (a : Access) (size : Nat) (sx : Bool) (d : Nat) : State :=
  let s0 := s.finish id a
  let writes := fun (bs : List Byte) => loadWrites size sx d (applyOverlay bs a.overlay)
  if s0.targetGone a.thread a.target size then s0.deliver a (writes a.early)
  else match s0.readTarget a.thread a.target size with
    | (s1, some bs) => let p := s1.promised a.thread a.target bs; p.1.deliver a (writes p.2)
    | (s1, none) => s1.spoiled a (writes a.early)

/-- CWB and CINV at their line (R192, R378): scopes crew and core of a SIMT thread act on no copy. Of a replica-set page
the local member's line is meant. -/
def State.performCacheOp (s : State) (k : Nat) (t : Target) (sc : Scope) (drop : Bool) : State :=
  let narrow := !isLat k && (sc == .cw || sc == .co)
  match t with
  | .phys pa key trk vset none ro rset =>
    let line := (s.lineAt (s.agentOf k) (pageOf pa key trk vset none ro rset) pa).1
    if narrow then s else if drop then s.dropLine (s.agentOf k) line else s.putLine (s.agentOf k) line true
  | _ => s

/-- A store, CWB or CINV performed, and counted. -/
def State.performStore (s : State) (id : Nat) (a : Access) : State :=
  match a.kind with
  | .store data => (s.writeTarget a.thread a.target data).finish id a
  | .cwb => (s.performCacheOp a.thread a.target a.sc false).finish id a
  | .cinv => (s.performCacheOp a.thread a.target a.sc true).finish id a
  | _ => s

def State.performAtomic (s : State) (id : Nat) (a : Access) (i : Instr) (size d : Nat) (b c : Word) : State :=
  let s0 := s.finish id a
  let writes := fun (old : Nat) => [(d, word (old % 2 ^ (8 * size)))]
  if s0.targetGone a.thread a.target size then s0.deliver a (writes (bytesToNat a.early))
  else match s0.atomicTarget a.thread a.target size i b c with
    | (s1, some old) => s1.deliver a (writes old)
    | (s1, none) => s1.spoiled a (writes (bytesToNat a.early))

/-- The accesses that go with one, in lane order. -/
def State.coalesced (s : State) (id : Nat) (a : Access) : List (Nat × Access) :=
  s.mem.inflight.filter fun e => e.1 == id || a.sameRequest e.2

/-- The bytes of a whole line, when the stores of a request give all of them. -/
def wholeLine (req : List (Nat × Access)) : Option (List Byte) :=
  let put := fun (l : List (Option Byte)) (e : Nat × Access) => match e.2.kind, e.2.target with
    | .store data, .phys pa .. =>
      (data.foldl (fun (p : List (Option Byte) × Nat) b => (p.1.set (p.2 % 128) (some b), p.2 + 1)) (l, pa)).1
    | _, _ => l
  let bytes := req.foldl put (List.replicate 128 none)
  if bytes.all Option.isSome then some (bytes.map fun b => b.getD 0) else none

/-- A sector returned: the loads of one bundle's instruction in it write their destinations together (R124, R125). -/
def State.returnSector (s : State) (id : Nat) (a : Access) : State :=
  let req := s.coalesced id a
  if !(req.all fun e => s.mayPerform e.1 e.2) then s
  else req.foldl (fun s e => match e.2.kind with
    | .load size sx d => s.performLoad e.1 e.2 size sx d
    | _ => s) s

/-- A request of stores performed: a whole line of HBM at once (R151), else each thread's bytes. -/
def State.performRequest (s : State) (id : Nat) (a : Access) : State :=
  let req := s.coalesced id a
  if !(req.all fun e => s.mayPerform e.1 e.2) then s
  else match a.target, wholeLine req with
    | .phys pa key trk vset none ro 0, some bs =>
      if physKind pa == .hbm then
        let s1 := s.writeTarget a.thread (.phys (lineOf pa * 128) key trk vset none ro 0) bs
        req.foldl (fun s e => s.finish e.1 e.2) s1
      else req.foldl (fun s e => s.performStore e.1 e.2) s
    | _, _ => req.foldl (fun s e => s.performStore e.1 e.2) s

def execLoadSectorReturn (id : Nat) (s : State) : Out :=
  .next (match s.mem.inflight.find id with
    | none => s
    | some a => match a.kind with
      | .load .. => s.returnSector id a
      | _ => s)

def execAtomicReply (id : Nat) (s : State) : Out :=
  .next (match s.mem.inflight.find id with
    | none => s
    | some a => match a.kind with
      | .atomic i size d b c => if s.mayPerform id a then s.performAtomic id a i size d b c else s
      | _ => s)

def execStorePerformed (id : Nat) (s : State) : Out :=
  .next (match s.mem.inflight.find id with
    | none => s
    | some a => match a.kind with
      | .store _ | .cwb | .cinv => s.performRequest id a
      | _ => s)

/-- An access that is not answered within 20 µs (R296): the trap of a load or atomic, at which its thread stands again, whatever
it executed since (log 24); a store is dropped and counted, to a remote page too (R467). -/
def execMemoryTimeout (access : Nat) (s : State) : Out :=
  .next (match s.mem.inflight.find access with
    | none => s
    | some a =>
      let remote := match a.target with
        | .phys _ _ _ _ r _ _ => r.isSome
        | .loam .. => false
      match a.kind with
      | .load .. | .atomic .. =>
        if a.drop then s.finish access a
        else if remote then (s.finish access a).lateTrap a cPAGE_NP 0x04
        else (s.finish access a).lateTrap a cPOISON 0
      | .store _ => (s.finish access a).countTimeout
      | .cwb | .cinv => s.finish access a)

/-! ### Promote taken by its owner -/

/-- The owner answers a promote (R204): what its core issued before the releases that it has written is performed, since a
core-scope release is performed after it (`State.mayPerform`). -/
def execPromote (m : Nat) (s : State) : Out :=
  .next (match s.mem.msgs.find m with
    | some x => if x.kind = .promote then s.unpost m else s
    | none => s)

/-! ### LD, ST -/

def State.trapAt (c : Nat × Nat) (addr : Nat) : Res := .trap c.1 c.2 (word addr) false

/-- A load by a latency thread; the promote of a racq is answered within it (R204). -/
def State.loadLat (s : State) (k addr size : Nat) (sx : Bool) (d : Nat) (t : Target) : Res :=
  if s.silent (s.agentOf k) then .failed (s.answered (s.agentOf k)) t.unanswered.1 t.unanswered.2 (word addr)
  else match s.readTarget k t size with
    | (s2, some bs) => let p := s2.promised k t bs; .go (p.1.writeRegs k (loadWrites size sx d p.2)) .next
    | (s2, none) => .failed s2 cPOISON 0 (word addr)

/-- One thread's load (R418). -/
def State.ld (s : State) (k : Nat) (sz : MemSize) (sx : Bool) (o : Ord) (sc : Scope) (d a : Reg) (off : BitVec 24) : Res :=
  let addr := s.effAddr k a off
  let size := memBytes sz
  if addr % size ≠ 0 then .trap cMISALIGN 0 (word addr) false
  else match s.target k addr size .load with
    | (_, .inr c) => State.trapAt c addr
    | (s0, .inl t) =>
      let s1 := if o = .inv then s0.promise k t size else s0
      if isLat k then s1.loadLat k addr size sx d.toNat t
      else match s1.readTarget k t size with
        | (s2, none) => .failed (match t with | .loam .. => s2 | .phys .. => s1) cPOISON 0 (word addr)
        | (_, some bs) =>
          if 63 ≤ (s1.thread k).oc.ld then .wait
          else .go ((s1.sendPromote k o t).send ((s1.access k addr t (.load size sx d.toNat) o sc).found bs)) .next

/-- Registers that an LD or ST names (R69). -/
def memRegs (sz : MemSize) (d a : Reg) : List Nat := [a.toNat, d.toNat] ++ (if sz = .q then [d.toNat + 1] else [])

def execLd (g : Guard) (sz : MemSize) (sx : Bool) (o : Ord) (sc : Scope) (d a : Reg) (off : BitVec 24) (s : State) : Out :=
  perThread s (.ld g sz sx o sc d a off) g (memRegs sz d a) anyCore .runs fun k s => s.ld k sz sx o sc d a off

/-- The data of a store (R465). -/
def State.storeData (s : State) (k : Nat) (sz : MemSize) (d : Reg) : List Byte :=
  match sz with
  | .q => natBytes 8 (s.readReg k d).toNat ++ natBytes 8 (s.readReg k (d + 1)).toNat
  | _ => natBytes (memBytes sz) (s.readReg k d).toNat

/-- Entries of the store buffer in use (R50). -/
def bufferEntries (buf : List BufferedStore) : Nat := buf.foldl (fun n b => n + (if 8 < b.data.length then 2 else 1)) 0

/-- A store into the store buffer, or held when it does not fit (R50). -/
def State.bufferStore (s : State) (k : Nat) (b : BufferedStore) : Res :=
  let t := s.thread k
  if 8 < bufferEntries (t.spec.buf ++ [b]) then .go (s.holdSpec k) .hold
  else .go (s.modThread k fun t => { t with spec := { t.spec with buf := t.spec.buf ++ [b] } }) .next

/-- A store by a latency thread; one that is not answered is dropped and counted, to a remote page too (R296, R467). -/
def State.storeLat (s : State) (k : Nat) (t : Target) (data : List Byte) : Res :=
  let a := s.agentOf k
  if s.silent a then .go (s.answered a).countTimeout .next else .go (s.writeTarget k t data) .next

/-- One thread's store (R465). -/
def State.st (s : State) (k : Nat) (sz : MemSize) (o : Ord) (sc : Scope) (d a : Reg) (off : BitVec 24) : Res :=
  let addr := s.effAddr k a off
  let data := s.storeData k sz d
  if addr % memBytes sz ≠ 0 then .trap cMISALIGN 0 (word addr) false
  else match s.target k addr (memBytes sz) .store with
    | (_, .inr c) => State.trapAt c addr
    | (s1, .inl t) =>
      if isLat k then s1.storeLat k t data
      else if (s1.thread k).spec.mode == .speculating then
        s1.bufferStore k ⟨word addr, t, data, Ord.releases o, sc, (s1.thread k).pc⟩
      else if 63 ≤ (s1.thread k).oc.st then .wait
      else .go (s1.send (s1.access k addr t (.store data) o sc)) .next

def execSt (g : Guard) (sz : MemSize) (o : Ord) (sc : Scope) (d a : Reg) (off : BitVec 24) (s : State) : Out :=
  perThread s (.st g sz o sc d a off) g (memRegs sz d a) anyCore .runs fun k s => s.st k sz o sc d a off

/-! ### AMO, CAS -/

/-- The five atomics that a replica-set page takes (R174). -/
def simpleAtomic : Instr → Bool
  | .amoAdd .. | .amoMin .. | .amoMax .. | .amoMinu .. | .amoMaxu .. => true
  | _ => false

/-- One thread's atomic (R366, R372): `b` is the operand or new value, `c` the comparand. -/
def State.amo (s : State) (k : Nat) (i : Instr) (size : Nat) (o : Ord) (sc : Scope) (d a : Reg) (b c : Word) : Res :=
  let addr := va57 (s.readReg k a)
  if addr % size ≠ 0 then .trap cMISALIGN 0 (word addr) false
  else match s.target k addr size (.atomic (simpleAtomic i)) with
    | (_, .inr e) => State.trapAt e addr
    | (s1, .inl t) =>
      if isLat k then
        if s1.silent (s1.agentOf k) then .failed (s1.answered (s1.agentOf k)) t.unanswered.1 t.unanswered.2 (word addr)
        else match s1.atomicTarget k t size i b c with
        | (s3, some old) => .go (s3.writeReg k d (word (old % 2 ^ (8 * size)))) .next
        | (s3, none) => .failed s3 cPOISON 0 (word addr)
      else match s1.readTarget k t size with
        | (s2, none) => .failed (match t with | .loam .. => s2 | .phys .. => s1) cPOISON 0 (word addr)
        | (_, some bs) =>
          if 63 ≤ (s1.thread k).oc.ld then .wait
          else .go ((s1.sendPromote k o t).send ((s1.access k addr t (.atomic i size d.toNat b c) o sc).found bs)) .next

/-- An AMO of the table: g[d] := old, the operand in g[b]. -/
def State.amoInstr (s : State) (i : Instr) (g : Guard) (sz : AmoSize) (o : Ord) (sc : Scope) (d a b : Reg) : Out :=
  perThread s i g [a.toNat, b.toNat, d.toNat] anyCore .holds fun k s =>
    s.amo k i (amoBytes sz) o sc d a (s.readReg k b) 0

def execAmoAdd (g : Guard) (sz : AmoSize) (o : Ord) (sc : Scope) (d a b : Reg) (s : State) : Out :=
  s.amoInstr (.amoAdd g sz o sc d a b) g sz o sc d a b
def execAmoAnd (g : Guard) (sz : AmoSize) (o : Ord) (sc : Scope) (d a b : Reg) (s : State) : Out :=
  s.amoInstr (.amoAnd g sz o sc d a b) g sz o sc d a b
def execAmoOr (g : Guard) (sz : AmoSize) (o : Ord) (sc : Scope) (d a b : Reg) (s : State) : Out :=
  s.amoInstr (.amoOr g sz o sc d a b) g sz o sc d a b
def execAmoXor (g : Guard) (sz : AmoSize) (o : Ord) (sc : Scope) (d a b : Reg) (s : State) : Out :=
  s.amoInstr (.amoXor g sz o sc d a b) g sz o sc d a b
def execAmoMin (g : Guard) (sz : AmoSize) (o : Ord) (sc : Scope) (d a b : Reg) (s : State) : Out :=
  s.amoInstr (.amoMin g sz o sc d a b) g sz o sc d a b
def execAmoMax (g : Guard) (sz : AmoSize) (o : Ord) (sc : Scope) (d a b : Reg) (s : State) : Out :=
  s.amoInstr (.amoMax g sz o sc d a b) g sz o sc d a b
def execAmoMinu (g : Guard) (sz : AmoSize) (o : Ord) (sc : Scope) (d a b : Reg) (s : State) : Out :=
  s.amoInstr (.amoMinu g sz o sc d a b) g sz o sc d a b
def execAmoMaxu (g : Guard) (sz : AmoSize) (o : Ord) (sc : Scope) (d a b : Reg) (s : State) : Out :=
  s.amoInstr (.amoMaxu g sz o sc d a b) g sz o sc d a b
def execAmoSwap (g : Guard) (sz : AmoSize) (o : Ord) (sc : Scope) (d a b : Reg) (s : State) : Out :=
  s.amoInstr (.amoSwap g sz o sc d a b) g sz o sc d a b
def execAmoFadd (g : Guard) (o : Ord) (sc : Scope) (d a b : Reg) (s : State) : Out :=
  s.amoInstr (.amoFadd g o sc d a b) g .w o sc d a b

def execCas (g : Guard) (sz : AmoSize) (o : Ord) (sc : Scope) (d a b c : Reg) (s : State) : Out :=
  perThread s (.cas g sz o sc d a b c) g [a.toNat, b.toNat, c.toNat, d.toNat] anyCore .holds fun k s =>
    s.amo k (.cas g sz o sc d a b c) (amoBytes sz) o sc d a (s.readReg k b) (s.readReg k c)

/-! ### PREF (R440) -/

/-- The page that a prefetch may touch: no trap, no A, D or RS bit, no remote or replica-set page. -/
def State.prefPage (s : State) (k addr : Nat) (acc : AccKind) : Option Page :=
  let w := s.who k
  if w.sup && w.ctx.pgroot == 0 then if addr < 2 ^ 52 then some (flatPage addr) else none
  else if inSpan w.ctx addr then none
  else if inHeap w.ctx addr then if (heapDenied w.ctx acc).isNone then some (heapPage w.ctx addr) else none
  else if w.ctx.pgroot = 0 then none
  else match (s.findLeaf w addr acc).2 with
    | .fault _ => none
    | .leaf _ _ w0 w1 =>
      let pa := fld w0 51 12 * 4096 + addr % 2 ^ sizeLog (fld w0 11 9)
      if !bitAt w0 6 || (leafDenied w.sup acc w0 w1).isSome || fld w1 63 48 != 0 || bitAt w1 41 then none
      else some { pa := pa, key := fld w1 31 26, trk := bitAt w1 10, view := fld w1 19 18, vset := fld w1 25 20, fmt := 0,
                  scaled := false, remote := none, ro := false, rset := 0, leaf := 0 }

/-- A key id that no page has: a poisoned line that a prefetch brings in is held under it, and read as poison. -/
def poisonKey : Nat := 64

/-- A prefetch; one of a compressed unit is dropped. A poisoned line comes in as poisoned. -/
def State.pref (s : State) (k : Nat) (kind : PrefKind) (addr : Nat) : State :=
  match s.prefPage k addr (if kind = .st then .store else .load) with
  | none => s
  | some p =>
    let agent := s.agentOf k
    let l := s.lineAt agent p p.pa
    let silt := (s.stk (p.pa / 2 ^ 36)).compressed.contains (p.pa % 2 ^ 36 / 65536)
    let held := match physKind p.pa with | .hbm | .aliased _ => true | _ => false
    let key := if s.readPoisoned agent l.1 p.vset l.2.2 then poisonKey else l.2.2
    if !held || (physKind p.pa == .hbm && silt) then s
    else match kind with
      | .ld => (s.readCopy agent l.1 (s.ctxOf k).asid key p.vset p.trk).1
      | .st => (s.forWrite agent l.1 (s.ctxOf k).asid key p.vset p.trk).settleRest l.1 s.nxt.msg
      | .l2 => s

def execPref (g : Guard) (kind : PrefKind) (a : Reg) (off : BitVec 24) (s : State) : Out :=
  perThread s (.pref g kind a off) g [a.toNat] anyCore .runs fun k s => .go (s.pref k kind (s.effAddr k a off)) .next

end Sys2Proof.Machine
end

