-- ==== Sys2Proof/Machine/Fence.lean ====
section
/-!
DEFINITION. Fences and cache operations (07 R201, R206, R208; 17 R377, R378; 18 R395, R396, R403 to R405; 19 R430).
-/
namespace Sys2Proof.Machine

/-! ### FENCE, OPFENCE, IFENCE -/

def AccessKind.loads : AccessKind → Bool
  | .load .. | .atomic .. => true
  | _ => false

def AccessKind.stores : AccessKind → Bool
  | .store .. | .atomic .. => true
  | _ => false

/-- Whether what a FENCE waits for is done: `ld` for bound loads and atomics, `st` and `xv` for every earlier access,
`io` for stores and atomics, `en` for chains and matrix operations (R201, R206, R396). -/
def State.fenceDone (s : State) (k : Nat) (f : FenceSpec) : Bool :=
  let p := (s.pendingOf k).map fun e => e.2.kind
  (!f.ld || !p.any AccessKind.loads) && (!(f.st || f.xv) || p.isEmpty) && (!f.io || !p.any AccessKind.stores)
    && (!f.en || ((s.thread k).oc.cp == 0 && (s.thread k).oc.tile == 0))

def execFence (g : Guard) (f : FenceSpec) (s : State) : Out :=
  perThread s (.fence g f) g [] anyCore .holds fun k s =>
    if s.fenceDone k f then .go (if f.xv then s.crossViews (s.agentOf k) else s) .next else .wait

/-- Loam stores of a crew that are not performed. -/
def State.loamStores (s : State) (c : Nat) : Bool :=
  s.mem.inflight.any fun e => decide (256 ≤ e.2.thread) && e.2.crewKey == c && e.2.isLoam && e.2.kind.stores

def execOpfence (g : Guard) (s : State) : Out :=
  perThread s (.opfence g) g [] simtOnly .holds fun k s => if s.loamStores (crewOf k) then .wait else .go s .next

/-- Every earlier ICINV is performed when it issues, and no fetch buffer holds words: the next fetch is anew. -/
def execIfence (g : Guard) (s : State) : Out := perThread s (.ifence g) g [] anyCore .holds fun _ s => .go s .next

/-! ### CWB, CINV -/

/-- One thread's CWB or CINV (R378): nothing in the window span; otherwise translated as a load, counted, performed. -/
def State.cacheOp (s : State) (k addr : Nat) (sc : Scope) (drop : Bool) : Res :=
  match s.resolve (s.who k) addr .load with
  | (_, .fault c sub) => .trap c sub (word addr) false
  | (_, .window _) => .go s .next
  | (s1, .page p) =>
    let line := { p with pa := p.pa / 128 * 128 }
    if isLat k then .go (s1.performCacheOp k line.target sc drop) .next
    else if 63 ≤ (s1.thread k).oc.st then .wait
    else .go (s1.send (s1.access k addr line.target (if drop then .cinv else .cwb) .plain sc)) .next

def execCwb (g : Guard) (sc : Scope) (a : Reg) (off : BitVec 24) (s : State) : Out :=
  perThread s (.cwb g sc a off) g [a.toNat] anyCore .holds fun k s => s.cacheOp k (s.effAddr k a off) sc false

def execCinv (g : Guard) (sc : Scope) (a : Reg) (off : BitVec 24) (s : State) : Out :=
  perThread s (.cinv g sc a off) g [a.toNat] anyCore .holds fun k s => s.cacheOp k (s.effAddr k a off) sc true

/-! ### ICINV (R404) -/

/-- The line an ICINV names: denied only when neither RD nor X is set. -/
def State.icinvPage (s : State) (w : Who) (va : Nat) : State × Resolved :=
  if w.sup && w.ctx.pgroot == 0 then s.resolve w va .load
  else if inSpan w.ctx va then (s, .window (va - w.ctx.loamva.toNat % 2 ^ 57))
  else if inHeap w.ctx va then
    if bitAt w.ctx.hattr 0 || bitAt w.ctx.hattr 2 then (s, .page (heapPage w.ctx va)) else (s, .fault cPAGE_PERM 0x00)
  else if w.ctx.pgroot = 0 then (s, .fault cPAGE_NP 0x00)
  else match s.findLeaf w va .load with
    | (s1, .fault sub) => (s1, .fault cPAGE_NP sub)
    | (s1, .leaf e _ w0 w1) =>
      if !bitAt w0 3 && !bitAt w0 5 then (s1, .fault cPAGE_PERM 0x00)
      else s1.useLeaf { w with sup := true } va .load e (setFld w0 3 3 1) w1

/-- The instruction caches that a scope names. -/
def State.icacheNamed (s : State) (k : Nat) (sc : Scope) (core : Nat) : Bool :=
  if isLat k then true
  else match sc with
    | .cw | .co => core == s.coreOf k
    | .gg => match s.gangs.find (s.thread k).ids.seq with
      | some g => g.cores.contains core
      | none => core == s.coreOf k
    | .di => decide (core < Config.simtCores) && core / Config.coresPerDie == s.dieOf k
    | .dv | .sy => true

def State.icinv (s : State) (k addr : Nat) (sc : Scope) : Res :=
  match s.icinvPage (s.who k) addr with
  | (_, .fault c sub) => .trap c sub (word addr) false
  | (_, .window _) => .go s .next
  | (s1, .page p) =>
    let line := lineOf (s1.forward p.pa p.key).1
    let keep := s1.mem.icache.filter fun l => !(l.line == line && s1.icacheNamed k sc l.core)
    .go (s1.withMem { s1.mem with icache := keep }) .next

def execIcinv (g : Guard) (sc : Scope) (a : Reg) (off : BitVec 24) (s : State) : Out :=
  perThread s (.icinv g sc a off) g [a.toNat] anyCore .holds fun k s => s.icinv k (s.effAddr k a off) sc

end Sys2Proof.Machine
end

