-- ==== Sys2Proof/Machine/IntReg.lean ====
section
/-!
DEFINITION. Integer instructions on registers: majors 0x01 and 0x02 (17 R362, R363; 19 R420, R421, R428, R431, R438,
R445; 20 R453, R455, R459, R463, R468, R478; 03 R100).
-/
namespace Sys2Proof.Machine



/-- A register instruction with two sources: g[d] := f g[a] g[b]. -/
def alu2 (s : State) (i : Instr) (g : Guard) (d a b : Reg) (f : Word → Word → Word) : Out :=
  perThread s i g [a.toNat, b.toNat, d.toNat] anyCore .runs fun k s =>
    .go (s.writeReg k d (f (s.readReg k a) (s.readReg k b))) .next

/-- With one source. -/
def alu1 (s : State) (i : Instr) (g : Guard) (d a : Reg) (f : Word → Word) : Out :=
  perThread s i g [a.toNat, d.toNat] anyCore .runs fun k s => .go (s.writeReg k d (f (s.readReg k a))) .next

/-- Division and remainder (R100, R363, R445): `f` gives the result, and IX is set for a zero divisor. -/
def divide (s : State) (i : Instr) (g : Guard) (d a b : Reg) (f : Word → Word → Word) : Out :=
  perThread s i g [a.toNat, b.toNat, d.toNat] anyCore .runs fun k s =>
    let y := s.readReg k b
    let s1 := s.writeReg k d (f (s.readReg k a) y)
    .go (if y = 0 then s1.raiseFlags k flagIX else s1) .next

/-! ### The functions -/

def wordAddW (x y : Word) : Word := ((x + y).setWidth 32).signExtend 64
def wordSubW (x y : Word) : Word := ((x - y).setWidth 32).signExtend 64
def wordShl (x y : Word) : Word := x <<< (y.toNat % 64)
def wordShr (x y : Word) : Word := x >>> (y.toNat % 64)
def wordSra (x y : Word) : Word := x.sshiftRight (y.toNat % 64)
def wordMin (x y : Word) : Word := if x.slt y then x else y
def wordMax (x y : Word) : Word := if x.slt y then y else x
def wordMinu (x y : Word) : Word := if x.ult y then x else y
def wordMaxu (x y : Word) : Word := if x.ult y then y else x
def wordSlt (x y : Word) : Word := if x.slt y then 1 else 0
def wordSltu (x y : Word) : Word := if x.ult y then 1 else 0
/-- g[a] + g[b] × 2^s (R420). -/
def wordLea (sh : BitVec 3) (x y : Word) : Word := x + (y <<< sh.toNat)
/-- The low n bits sign- or zero-extended, n one more than the field (R455). -/
def wordSext (n : BitVec 6) (x : Word) : Word := sextNat (n.toNat + 1) x.toNat
def wordZext (n : BitVec 6) (x : Word) : Word := BitVec.ofNat 64 (x.toNat % 2 ^ (n.toNat + 1))
/-- Leading zeros, 64 for zero (R363). -/
def wordClz (x : Word) : Word := if x = 0 then 64 else BitVec.ofNat 64 (63 - Nat.log2 x.toNat)
def wordPopc (x : Word) : Word := BitVec.ofNat 64 (popcount 64 x.toNat)
def wordBrev (x : Word) : Word := x.reverse
/-- (g[a] >> pos) zero-extended from len bits, len one more than the field (R363). -/
def wordBfx (pos len : BitVec 6) (x : Word) : Word := BitVec.ofNat 64 (x.toNat / 2 ^ pos.toNat % 2 ^ (len.toNat + 1))
/-- len low bits of g[b] inserted at pos (R363). -/
def wordBfi (pos len : BitVec 6) (x y : Word) : Word :=
  let mask : Word := BitVec.ofNat 64 ((2 ^ (len.toNat + 1) - 1) * 2 ^ pos.toNat)
  (x &&& ~~~mask) ||| ((y <<< pos.toNat) &&& mask)
def wordMulh (x y : Word) : Word := BitVec.ofInt 64 ((x.toInt * y.toInt) / 2 ^ 64)
def wordMulhu (x y : Word) : Word := BitVec.ofNat 64 (x.toNat * y.toNat / 2 ^ 64)
/-- Quotient rounded toward zero; 0 for a zero divisor; −2^63 by −1 wraps to itself (R100). -/
def wordDiv (x y : Word) : Word := if y = 0 then 0 else BitVec.ofInt 64 (x.toInt.tdiv y.toInt)
def wordDivu (x y : Word) : Word := if y = 0 then 0 else BitVec.ofNat 64 (x.toNat / y.toNat)
def wordRem (x y : Word) : Word := if y = 0 then x else BitVec.ofInt 64 (x.toInt.tmod y.toInt)
def wordRemu (x y : Word) : Word := if y = 0 then x else BitVec.ofNat 64 (x.toNat % y.toNat)

/-! ### The instructions -/

def execAdd (g : Guard) (d a b : Reg) (s : State) : Out := alu2 s (.add g d a b) g d a b (· + ·)
def execSub (g : Guard) (d a b : Reg) (s : State) : Out := alu2 s (.sub g d a b) g d a b (· - ·)
def execAddw (g : Guard) (d a b : Reg) (s : State) : Out := alu2 s (.addw g d a b) g d a b wordAddW
def execSubw (g : Guard) (d a b : Reg) (s : State) : Out := alu2 s (.subw g d a b) g d a b wordSubW
def execAnd (g : Guard) (d a b : Reg) (s : State) : Out := alu2 s (.and g d a b) g d a b (· &&& ·)
def execOr (g : Guard) (d a b : Reg) (s : State) : Out := alu2 s (.or g d a b) g d a b (· ||| ·)
def execXor (g : Guard) (d a b : Reg) (s : State) : Out := alu2 s (.xor g d a b) g d a b (· ^^^ ·)
def execShl (g : Guard) (d a b : Reg) (s : State) : Out := alu2 s (.shl g d a b) g d a b wordShl
def execShr (g : Guard) (d a b : Reg) (s : State) : Out := alu2 s (.shr g d a b) g d a b wordShr
def execSra (g : Guard) (d a b : Reg) (s : State) : Out := alu2 s (.sra g d a b) g d a b wordSra
def execMin (g : Guard) (d a b : Reg) (s : State) : Out := alu2 s (.min g d a b) g d a b wordMin
def execMax (g : Guard) (d a b : Reg) (s : State) : Out := alu2 s (.max g d a b) g d a b wordMax
def execMinu (g : Guard) (d a b : Reg) (s : State) : Out := alu2 s (.minu g d a b) g d a b wordMinu
def execMaxu (g : Guard) (d a b : Reg) (s : State) : Out := alu2 s (.maxu g d a b) g d a b wordMaxu
def execSlt (g : Guard) (d a b : Reg) (s : State) : Out := alu2 s (.slt g d a b) g d a b wordSlt
def execSltu (g : Guard) (d a b : Reg) (s : State) : Out := alu2 s (.sltu g d a b) g d a b wordSltu

/-- g[d] := p[N] ? g[a] : g[b] (R453). -/
def execSel (g : Guard) (d a b : Reg) (n : Pred) (s : State) : Out :=
  perThread s (.sel g d a b n) g [a.toNat, b.toNat, d.toNat] anyCore .runs fun k s =>
    .go (s.writeReg k d (if (s.thread k).pred n then s.readReg k a else s.readReg k b)) .next

def execLea (g : Guard) (d a b : Reg) (sh : BitVec 3) (s : State) : Out := alu2 s (.lea g d a b sh) g d a b (wordLea sh)
def execSext (g : Guard) (d a : Reg) (n : BitVec 6) (s : State) : Out := alu1 s (.sext g d a n) g d a (wordSext n)
def execZext (g : Guard) (d a : Reg) (n : BitVec 6) (s : State) : Out := alu1 s (.zext g d a n) g d a (wordZext n)
def execClz (g : Guard) (d a : Reg) (s : State) : Out := alu1 s (.clz g d a) g d a wordClz
def execPopc (g : Guard) (d a : Reg) (s : State) : Out := alu1 s (.popc g d a) g d a wordPopc
def execBrev (g : Guard) (d a : Reg) (s : State) : Out := alu1 s (.brev g d a) g d a wordBrev
def execBfx (g : Guard) (d a : Reg) (pos len : BitVec 6) (s : State) : Out :=
  alu1 s (.bfx g d a pos len) g d a (wordBfx pos len)
def execBfi (g : Guard) (d a b : Reg) (pos len : BitVec 6) (s : State) : Out :=
  alu2 s (.bfi g d a b pos len) g d a b (wordBfi pos len)
def execMul (g : Guard) (d a b : Reg) (s : State) : Out := alu2 s (.mul g d a b) g d a b (· * ·)
def execMulh (g : Guard) (d a b : Reg) (s : State) : Out := alu2 s (.mulh g d a b) g d a b wordMulh
def execMulhu (g : Guard) (d a b : Reg) (s : State) : Out := alu2 s (.mulhu g d a b) g d a b wordMulhu
def execDiv (g : Guard) (d a b : Reg) (s : State) : Out := divide s (.div g d a b) g d a b wordDiv
def execDivu (g : Guard) (d a b : Reg) (s : State) : Out := divide s (.divu g d a b) g d a b wordDivu
def execRem (g : Guard) (d a b : Reg) (s : State) : Out := divide s (.rem g d a b) g d a b wordRem
def execRemu (g : Guard) (d a b : Reg) (s : State) : Out := divide s (.remu g d a b) g d a b wordRemu

end Sys2Proof.Machine
end

