-- ==== Sys2Proof/Machine/IntImm.lean ====
section
/-!
DEFINITION. Integer instructions with an immediate: majors 0x10 to 0x19 (09 R254; 17 R364; 19 R427, R431; 20 R459, R463,
R478).
-/
namespace Sys2Proof.Machine

def execAddi (g : Guard) (d a : Reg) (imm : BitVec 32) (s : State) : Out :=
  alu1 s (.addi g d a imm) g d a (· + imm64 imm)
def execAndi (g : Guard) (d a : Reg) (imm : BitVec 32) (s : State) : Out :=
  alu1 s (.andi g d a imm) g d a (· &&& imm64 imm)
def execOri (g : Guard) (d a : Reg) (imm : BitVec 32) (s : State) : Out :=
  alu1 s (.ori g d a imm) g d a (· ||| imm64 imm)
def execXori (g : Guard) (d a : Reg) (imm : BitVec 32) (s : State) : Out :=
  alu1 s (.xori g d a imm) g d a (· ^^^ imm64 imm)
def execShli (g : Guard) (d a : Reg) (n : BitVec 6) (s : State) : Out :=
  alu1 s (.shli g d a n) g d a (wordShl · (n.setWidth 64))
def execShri (g : Guard) (d a : Reg) (n : BitVec 6) (s : State) : Out :=
  alu1 s (.shri g d a n) g d a (wordShr · (n.setWidth 64))
def execSrai (g : Guard) (d a : Reg) (n : BitVec 6) (s : State) : Out :=
  alu1 s (.srai g d a n) g d a (wordSra · (n.setWidth 64))
def execSlti (g : Guard) (d a : Reg) (imm : BitVec 32) (s : State) : Out :=
  alu1 s (.slti g d a imm) g d a (wordSlt · (imm64 imm))

/-- g[d] := sext(imm, 32) (R427). -/
def execMovi (g : Guard) (d : Reg) (imm : BitVec 32) (s : State) : Out :=
  perThread s (.movi g d imm) g [d.toNat] anyCore .runs fun k s => .go (s.writeReg k d (imm64 imm)) .next

/-- g[d] := imm × 2^32 + g[d][31:0] (R427). -/
def wordMovhi (imm : BitVec 32) (x : Word) : Word := imm ++ x.setWidth 32

def execMovhi (g : Guard) (d : Reg) (imm : BitVec 32) (s : State) : Out :=
  perThread s (.movhi g d imm) g [d.toNat] anyCore .runs fun k s =>
    .go (s.writeReg k d (wordMovhi imm (s.readReg k d))) .next

end Sys2Proof.Machine
end

