-- ==== Sys2Proof/Machine/Pred.lean ====
section
/-!
DEFINITION. Predicates and comparisons: majors 0x20 to 0x23 (09 R255; 18 R392; 19 R432, R437).
-/
namespace Sys2Proof.Machine

/-- The condition codes of PCMP (R255). -/
def condHolds (cc : Cond) (x y : Word) : Bool :=
  match cc with
  | .eq => x == y
  | .ne => x != y
  | .lt => x.slt y
  | .ge => !x.slt y
  | .ltu => x.ult y
  | .geu => !x.ult y
  | .le => !y.slt x
  | .gt => y.slt x
  | .leu => !y.ult x
  | .gtu => y.ult x

/-- A predicate destination written. -/
def State.writePred (s : State) (k : Nat) (d : Pred) (v : Bool) : State := s.modThread k fun t => t.setPred d v

def execPcmp (g : Guard) (cc : Cond) (d : Pred) (a b : Reg) (s : State) : Out :=
  perThread s (.pcmp g cc d a b) g [a.toNat, b.toNat] anyCore .runs fun k s =>
    .go (s.writePred k d (condHolds cc (s.readReg k a) (s.readReg k b))) .next

def execPcmpi (g : Guard) (cc : Cond) (d : Pred) (a : Reg) (imm : BitVec 32) (s : State) : Out :=
  perThread s (.pcmpi g cc d a imm) g [a.toNat] anyCore .runs fun k s =>
    .go (s.writePred k d (condHolds cc (s.readReg k a) (imm64 imm))) .next

/-- Bit 4 × pA + 2 × pB + pC of the table (R437). -/
def plopValue (lut : BitVec 8) (x y z : Bool) : Bool := lut.getLsbD (4 * boolBit x + 2 * boolBit y + boolBit z)

def execPlop (g : Guard) (d a b c : Pred) (lut : BitVec 8) (s : State) : Out :=
  perThread s (.plop g d a b c lut) g [] anyCore .runs fun k s =>
    let t := s.thread k
    .go (s.writePred k d (plopValue lut (t.pred a) (t.pred b) (t.pred c))) .next

def execFcmp (g : Guard) (cc : FCond) (t : FloatCode) (d : Pred) (a b : Reg) (s : State) : Out :=
  perThread s (.fcmp g cc t d a b) g [a.toNat, b.toNat] anyCore .runs fun k s =>
    let r := (fmtOf t).compare cc (s.readReg k a).toNat (s.readReg k b).toNat
    .go ((s.writePred k d r.1).raiseFlags k (if r.2 then flagNV else 0)) .next

end Sys2Proof.Machine
end

