-- ==== Sys2Proof/Machine/Float.lean ====
section
/-!
DEFINITION. Scalar floating point and conversions: majors 0x30 and 0x40 (09 R256, R257; 18 R387 to R394, R398).
-/
namespace Sys2Proof.Machine

/-- A result of a scalar form: the pattern with zero above it, and its flags (R88, R388). -/
def State.fpResult (s : State) (k : Nat) (d : Reg) (r : FpResult) : State :=
  (s.writeReg k d (BitVec.ofNat 64 r.bits)).raiseFlags k r.flags

/-- Two sources. -/
def fp2 (s : State) (i : Instr) (g : Guard) (t : FType) (rm : Rm) (d a b : Reg)
    (f : Fmt → Mode → Nat → Nat → FpResult) : Out :=
  perThread s i g [a.toNat, b.toNat, d.toNat] anyCore .runs fun k s =>
    .go (s.fpResult k d (f (fmtOf (codeOf t)) (s.mode k rm) (s.readReg k a).toNat (s.readReg k b).toNat)) .next

/-- One source. -/
def fp1 (s : State) (i : Instr) (g : Guard) (t : FType) (rm : Rm) (d a : Reg)
    (f : Fmt → Mode → Nat → FpResult) : Out :=
  perThread s i g [a.toNat, d.toNat] anyCore .runs fun k s =>
    .go (s.fpResult k d (f (fmtOf (codeOf t)) (s.mode k rm) (s.readReg k a).toNat)) .next

def execFadd (g : Guard) (t : FType) (rm : Rm) (d a b : Reg) (s : State) : Out :=
  fp2 s (.fadd g t rm d a b) g t rm d a b Fmt.add
def execFsub (g : Guard) (t : FType) (rm : Rm) (d a b : Reg) (s : State) : Out :=
  fp2 s (.fsub g t rm d a b) g t rm d a b Fmt.sub
def execFmul (g : Guard) (t : FType) (rm : Rm) (d a b : Reg) (s : State) : Out :=
  fp2 s (.fmul g t rm d a b) g t rm d a b Fmt.mul
def execFdiv (g : Guard) (t : FType) (rm : Rm) (d a b : Reg) (s : State) : Out :=
  fp2 s (.fdiv g t rm d a b) g t rm d a b Fmt.div
def execFmin (g : Guard) (t : FType) (d a b : Reg) (s : State) : Out :=
  fp2 s (.fmin g t d a b) g t .dyn d a b fun f _ x y => f.minmax false x y
def execFmax (g : Guard) (t : FType) (d a b : Reg) (s : State) : Out :=
  fp2 s (.fmax g t d a b) g t .dyn d a b fun f _ x y => f.minmax true x y

def execFfma (g : Guard) (t : FType) (rm : Rm) (d a b c : Reg) (s : State) : Out :=
  perThread s (.ffma g t rm d a b c) g [a.toNat, b.toNat, c.toNat, d.toNat] anyCore .runs fun k s =>
    .go (s.fpResult k d ((fmtOf (codeOf t)).fma (s.mode k rm) (s.readReg k a).toNat (s.readReg k b).toNat
      (s.readReg k c).toNat)) .next

def execFsqrt (g : Guard) (t : FType) (rm : Rm) (d a : Reg) (s : State) : Out :=
  fp1 s (.fsqrt g t rm d a) g t rm d a Fmt.sqrt
def execFrcp (g : Guard) (t : FType) (rm : Rm) (d a : Reg) (s : State) : Out :=
  fp1 s (.frcp g t rm d a) g t rm d a Fmt.rcp
def execFrsq (g : Guard) (t : FType) (rm : Rm) (d a : Reg) (s : State) : Out :=
  fp1 s (.frsq g t rm d a) g t rm d a Fmt.rsq
def execFexp2 (g : Guard) (t : FType) (rm : Rm) (d a : Reg) (s : State) : Out :=
  fp1 s (.fexp2 g t rm d a) g t rm d a Fmt.exp2
def execFlog2 (g : Guard) (t : FType) (rm : Rm) (d a : Reg) (s : State) : Out :=
  fp1 s (.flog2 g t rm d a) g t rm d a Fmt.log2

/-- The class mask; no flag (R391). -/
def execFclass (g : Guard) (t : FType) (d a : Reg) (s : State) : Out :=
  fp1 s (.fclass g t d a) g t .dyn d a fun f _ x => ⟨f.classMask x, 0⟩

def execFcvt (g : Guard) (dst src : FloatCode) (rm : Rm) (d a : Reg) (s : State) : Out :=
  perThread s (.fcvt g dst src rm d a) g [a.toNat, d.toNat] anyCore .runs fun k s =>
    .go (s.fpResult k d (convertFF dst src (s.mode k rm) (s.readReg k a).toNat)) .next

/-- ICVT (R393, R394): to float when `toFloat`, else to integer. -/
def convertI (toFloat : Bool) (f : FloatCode) (ic : IntCode) (mode : Mode) (x : Nat) : FpResult :=
  if toFloat then ofInt (fmtOf f) mode (intOf (intCodeWidth ic) (intCodeSigned ic) x)
  else toInt mode (intCodeWidth ic) (intCodeSigned ic) ((fmtOf f).decode x)

def execIcvt (g : Guard) (toFloat : Bool) (f : FloatCode) (ic : IntCode) (rm : Rm) (d a : Reg) (s : State) : Out :=
  perThread s (.icvt g toFloat f ic rm d a) g [a.toNat, d.toNat] anyCore .runs fun k s =>
    .go (s.fpResult k d (convertI toFloat f ic (s.mode k rm) (s.readReg k a).toNat)) .next

end Sys2Proof.Machine
end

