-- ==== Sys2Proof/Machine/Home.lean ====
section
/-!
DEFINITION. The rows of the coherence directory (06 R178 to R188): each message in flight taken by its receiver, copies
given up, the request queue and the merge epoch.
-/
namespace Sys2Proof.Machine

/-- Message `id`, if it is of this kind, is taken by its receiver (Machine/Coherence.lean). -/
def State.takeKind (s : State) (k : MsgKind) (id : Nat) : State :=
  match s.mem.msgs.find id with
  | some m => if m.kind = k then s.takeMsg id else s
  | none => s

def execGets (m : Nat) (s : State) : Host.Outcome State Fault Refusal := .next (s.takeKind .gets m)
def execGetm (m : Nat) (s : State) : Host.Outcome State Fault Refusal := .next (s.takeKind .getm m)
def execUpg (m : Nat) (s : State) : Host.Outcome State Fault Refusal := .next (s.takeKind .upg m)
def execKget (m : Nat) (s : State) : Host.Outcome State Fault Refusal := .next (s.takeKind .kget m)
def execRdonce (m : Nat) (s : State) : Host.Outcome State Fault Refusal := .next (s.takeKind .rdonce m)
def execWr (m : Nat) (s : State) : Host.Outcome State Fault Refusal := .next (s.takeKind .wr m)
def execHomeAtomic (m : Nat) (s : State) : Host.Outcome State Fault Refusal := .next (s.takeKind .atomic m)
def execPutack (m : Nat) (s : State) : Host.Outcome State Fault Refusal := .next (s.takeKind .putack m)
def execFwds (m : Nat) (s : State) : Host.Outcome State Fault Refusal := .next (s.takeKind .fwds m)
def execFwdm (m : Nat) (s : State) : Host.Outcome State Fault Refusal := .next (s.takeKind .fwdm m)
def execFwddone (m : Nat) (s : State) : Host.Outcome State Fault Refusal := .next (s.takeKind .fwddone m)
def execNodata (m : Nat) (s : State) : Host.Outcome State Fault Refusal := .next (s.takeKind .nodata m)
def execWbpending (m : Nat) (s : State) : Host.Outcome State Fault Refusal := .next (s.takeKind .wbpending m)
def execInvalidation (m : Nat) (s : State) : Host.Outcome State Fault Refusal := .next (s.takeKind .inv m)
def execAcknowledgement (m : Nat) (s : State) : Host.Outcome State Fault Refusal := .next (s.takeKind .ack m)
def execGrant (m : Nat) (s : State) : Host.Outcome State Fault Refusal := .next (s.takeKind .grant m)
def execRetry (m : Nat) (s : State) : Host.Outcome State Fault Refusal := .next (s.takeKind .retry m)

/-- The first queued request of a line starts when the line is in no transient state (R179). -/
def execQueuedRequestDequeue (line : Nat) (s : State) : Host.Outcome State Fault Refusal := .next (s.dequeue line)

/-! ### Copies given up (R175, R185) -/

/-- The Put message of an agent for a line, in flight. -/
def State.putMsg (s : State) (k : MsgKind) (agent line : Nat) : Option Nat :=
  (s.mem.msgs.find? fun e => e.2.kind == k && e.2.src == agent && e.2.line == line).map (·.1)

/-- The state from which a Put of this kind leaves. -/
def putState : MsgKind → Moesi
  | .putm => .m
  | .puto => .o
  | .pute => .e
  | _ => .s

/-- An agent evicts a copy: the Put goes out and its data stand in the write-back buffer; a Loam cache drops an S copy
silently; an untracked copy writes its dirty bytes. -/
def State.evict (s : State) (k : MsgKind) (agent line : Nat) : State :=
  match s.mem.findCopy agent line with
  | none => s
  | some c => if c.tracked && c.st != putState k then s else s.giveUp c false

/-- The row of a Put: it leaves its agent, or arrives at the home. -/
def State.putRow (s : State) (k : MsgKind) (arrive : Bool) (agent line : Nat) : State :=
  if arrive then
    match s.putMsg k agent line with
    | some id => s.takeMsg id
    | none => s
  else s.evict k agent line

def execPutm (arrive : Bool) (agent line : Nat) (s : State) : Host.Outcome State Fault Refusal :=
  .next (s.putRow .putm arrive agent line)
def execPuto (arrive : Bool) (agent line : Nat) (s : State) : Host.Outcome State Fault Refusal :=
  .next (s.putRow .puto arrive agent line)
def execPute (arrive : Bool) (agent line : Nat) (s : State) : Host.Outcome State Fault Refusal :=
  .next (s.putRow .pute arrive agent line)
def execPuts (arrive : Bool) (agent line : Nat) (s : State) : Host.Outcome State Fault Refusal :=
  .next (s.putRow .puts arrive agent line)

/-! ### The merge epoch (R184) -/

/-- Two sibling entries that may merge. -/
def MemSys.mergeable (m : MemSys) (a b : DirEntry) : Bool :=
  let quiet := fun (e : DirEntry) => e.quiet == 5 && !m.txns.any fun t => e.covers t.1
  decide (a.cls < 9) && a.cls == b.cls && a.base / 2 ^ a.cls % 2 == 0 && b.base == a.base + 2 ^ a.cls
    && quiet a && quiet b
    && ((a.owner.isNone && b.owner.isNone) || (a.owner == b.owner && a.sharers.isEmpty && b.sharers.isEmpty))

/-- The merged entry: the union of the sharers, in coarse form above four pointers. -/
def DirEntry.merge (a b : DirEntry) : DirEntry :=
  let base : DirEntry := { a with cls := a.cls + 1, quiet := 0 }
  let e := if b.coarse && !a.coarse then
      a.ptrs.foldl DirEntry.mark { base with coarse := true, ptrs := [], vec := b.vec, kany := b.kany, hostc := b.hostc }
    else if b.coarse then { base with vec := a.vec ||| b.vec, kany := a.kany || b.kany, hostc := a.hostc || b.hostc }
    else b.ptrs.foldl DirEntry.addSharer base
  e.settleState

/-- The set of the merged entry holds it once the two halves are gone (R182). -/
def MemSys.mergeFits (m : MemSys) (a b up : DirEntry) : Bool :=
  decide (((m.dir.filter fun x => x != a && x != b).filter up.sameSet).length < 16)

/-- Two siblings merge. A full set evicts an entry first (R182): the recall begins, and the pair merges once there is room. -/
def State.mergePair (s : State) (a : DirEntry) : State :=
  match s.mem.dir.find? fun b => s.mem.mergeable a b with
  | none => s
  | some b =>
    let up := a.merge b
    if !s.mem.dir.contains a then s
    else if s.mem.mergeFits a b up then s.withMem { s.mem with dir := up :: s.mem.dir.filter fun x => x != a && x != b }
    else match s.victim a.base up with
      | none => s
      | some v =>
        let s1 := (s.startEviction v).settleRest v.base s.nxt.msg
        if s1.mem.dir.contains a && s1.mem.dir.contains b && s1.mem.mergeable a b && s1.mem.mergeFits a b up then
          s1.withMem { s1.mem with dir := up :: s1.mem.dir.filter fun x => x != a && x != b }
        else s1

/-- Every pair of quiet siblings merges once; a merged entry has QUIET = 0 and waits for later epochs. -/
def State.mergeAll (s : State) : State := s.mem.dir.foldl State.mergePair s

def execQuietEpoch (s : State) : Host.Outcome State Fault Refusal :=
  let older := s.mem.dir.map fun (e : DirEntry) => { e with quiet := min (e.quiet + 1) 5 }
  .next (s.withMem { s.mem with dir := older }).mergeAll

end Sys2Proof.Machine
end

