-- ==== Sys2Proof/Machine/Package.lean ====
section
/-!
DEFINITION. Steps of the package as a whole: the release of reset (11 R301; 04 R151), Herpin ports (12 R331, R332),
attestation (12 R343), temperature and power (00 R7, R11; 03 R109; 04 R152), and words of a reserved opcode (09 R252).
-/
namespace Sys2Proof.Machine

/-! ### Release of reset -/

/-- Bytes of host memory and of other packages, which a reset of this package does not touch. -/
def outside (m : Memory) : Memory := m.filter fun c => decide (Config.hostBase ≤ c.1)

/-- The release of reset (R301): the boot ROM verifies the first-stage firmware, every line of the stacks reads zero and
hardware thread 0 starts. A failed verification holds the package in reset and is reported (R343). -/
def execResetRelease (s : State) : Out :=
  .next (if Config.firmwareAccepted then
    let kept := { MemSys.zero with bytes := outside s.mem.bytes, lost := s.mem.lost }
    { State.reset with mem := kept, inputs := s.inputs, outputs := s.outputs, agenda := s.agenda, free := s.free }
  else { s with pkg := { s.pkg with inReset := true }, outputs := s.outputs ++ [.bootFailure Config.bootReport] })

/-- A later stage of firmware: verified by the stage before it and measured; a failed verification holds the package in reset
and is reported (R343). -/
def State.verifyStage (s : State) (n : Nat) : State :=
  if Config.stageAccepted n then { s with pkg := { s.pkg with measured := s.pkg.measured.set n (Config.measurement n) } }
  else { s with pkg := { s.pkg with inReset := true }, outputs := s.outputs ++ [.bootFailure (Config.stageReport n)] }

/-- A word whose major opcode is reserved, the all-zero word included: ILLEGAL in its executing threads (R249, R252). -/
def execReservedMajorOpcode (w : BitVec 64) (s : State) : Out :=
  .next (if majorAssigned (w.extractLsb' 56 8) then s else s.illegalWord w)

/-! ### Herpin ports -/

/-- The first 240 bytes of a flit (R332). -/
def Flit.bytes (f : Flit) : List Byte :=
  natBytes 2 f.seq.toNat ++ natBytes 2 f.ack.toNat ++ natBytes 1 f.kind.toNat ++ natBytes 11 f.head.toNat
    ++ natBytes 224 f.payload.toNat

def Flit.good (f : Flit) : Bool := Config.crc128 f.bytes == f.crc

/-- Packages that no port reaches, as the inputs that follow a change of a port name them. -/
def lostOf : List Input → List Nat × List Input
  | .remoteLost p :: r => let q := lostOf r; (p :: q.1, q.2)
  | r => ([], r)

/-- The packages that are reached no longer, which the next inputs name: accesses to them time out (R160, R332). -/
def State.lose (s : State) : State :=
  let q := lostOf s.inputs
  { s with inputs := q.2, mem := { s.mem with lost := q.1 ++ s.mem.lost } }

/-- The port goes down: counted, and a package event (R332). -/
def State.portDown (s : State) (n : Nat) : State :=
  let p := s.port n
  if !p.up then s
  else (s.setPort n { p with up := false, fails := 0, downcnt := satInc48 p.downcnt }).lose.pkgEvent 2

/-- Flits that the other side has received leave the retry buffer; that ends a run of failed replays. -/
def Port.acked (p : Port) (a : BitVec 16) : Port :=
  match p.retry.findIdx? fun f => f.seq == a with
  | some i => { p with retry := p.retry.drop (i + 1), fails := 0 }
  | none => p

/-- A link of the package: a Herpin port, or an on-package link between two of its dies, SIMT dies 0 to 7 and latency dies 8
and 9 (R12, R314; log 18). -/
def Link.exists' : Link → Bool
  | .herpin n => decide (n < Config.herpinPorts)
  | .ucie d => decide (d / 16 < d % 16) && decide (d % 16 < 10)

/-- The dies on which a link ends: a Herpin port stands on one (R12). -/
def Link.dies : Link → List Nat
  | .herpin n => [Config.portDie n]
  | .ucie d => [d / 16, d % 16]

def State.link (s : State) : Link → Port
  | .herpin n => s.port n
  | .ucie d => s.links.get d .zero

def State.setLink (s : State) (l : Link) (p : Port) : State :=
  match l with
  | .herpin n => s.setPort n p
  | .ucie d => { s with links := s.links.set d p }

/-- The transmitter sends every flit again that is not acknowledged, in order (R314, R332). -/
def State.resend (s : State) (l : Link) : State :=
  let p := s.link l
  if p.retry.isEmpty then s
  else { (s.setLink l { p with replays := (p.replays + 1) % 2 ^ 32 }) with
    outputs := s.outputs ++ p.retry.map fun f => .flit l f }

/-- A retry request of the other side: the transmitter replays; the 64th failure in a row takes a Herpin port down. -/
def State.replay (s : State) (l : Link) : State :=
  let p := s.link l
  let s1 := { (s.setLink l { p with replays := (p.replays + 1) % 2 ^ 32, fails := p.fails + 1 }) with
    outputs := s.outputs ++ p.retry.map fun f => .flit l f }
  match l with
  | .herpin n => if 64 ≤ p.fails + 1 then s1.portDown n else s1
  | .ucie _ => s1

/-- A flit sent: the next number, the number last delivered in return, and the CRC; it stays in the retry buffer of 512 flits
until it is acknowledged. A full buffer holds the transmitter. -/
def State.sendFlit (s : State) (l : Link) (f : Flit) : State :=
  let p := s.link l
  if !p.up || decide (512 ≤ p.retry.length) then s
  else
    let g := { f with seq := p.sent + 1, ack := p.last }
    let g := { g with crc := Config.crc128 g.bytes }
    { (s.setLink l { p with sent := p.sent + 1, retry := p.retry ++ [g] }) with outputs := s.outputs ++ [.flit l g] }

/-- A receiver asks for a replay. -/
def State.askRetry (s : State) (l : Link) : State :=
  let p := s.link l
  { (s.setLink l { p with retryReqs := p.retryReqs + 1 }) with outputs := s.outputs ++ [match l with
    | .herpin n => .retryRequest n
    | .ucie d => .linkRetry d] }

/-- A flit in front of the receiver: one that is damaged or out of order is asked for again, and nothing in a damaged one
counts; one already delivered is discarded, the next one is delivered, unless its type is reserved (log 18). -/
def State.receive (s : State) (l : Link) (f : Flit) : State :=
  if !f.good then s.askRetry l
  else
  let s1 := s.setLink l ((s.link l).acked f.ack)
  let p := s1.link l
  if f.kind = 4 then s1.replay l
  else if f.seq = p.last + 1 then
    s1.setLink l { p with last := f.seq, delivered := if f.kind.toNat < 4 then p.delivered ++ [f] else p.delivered }
  else if (p.last - f.seq).toNat < 2 ^ 15 then s1
  else s1.askRetry l

/-- A flit that arrives over a link; a quiesced package keeps it (R314), a port that is down loses it. -/
def State.arriveFlit (s : State) (l : Link) (f : Flit) : State :=
  let p := s.link l
  if !p.up then s
  else if s.halted then s.setLink l { p with kept := p.kept ++ [f] }
  else s.receive l f

def execHerpinFlit (s : State) : Out :=
  .next (match s.inputs with
    | .flit port f :: rest => if port < Config.herpinPorts then { s with inputs := rest }.arriveFlit (.herpin port) f else { s with inputs := rest }
    | _ => s)

/-- A peer has held back-pressure past LTO (R331): the port goes down, and packages that only it reached are lost. -/
def execLinkTimeout (s : State) : Out :=
  .next (match s.inputs with
    | .linkTimeout port :: rest =>
      let s1 := { s with inputs := rest }
      (if port < Config.herpinPorts then s1.portDown port else s1).lose
    | _ => s)

/-- A port comes up: PSTAT reads up, and only the packages that the inputs name stay lost. -/
def execHerpinPortUp (s : State) : Out :=
  .next (match s.inputs with
    | .portUp port :: rest =>
      let q := lostOf rest
      let s1 := { s with inputs := q.2, mem := { s.mem with lost := q.1 } }
      if port < Config.herpinPorts then s1.setPort port { s1.port port with up := true, fails := 0 } else s1
    | _ => s)

/-! ### Attestation, temperature, power -/

/-- An SPDM request is answered with the measurement registers and the device key (R343). -/
def execSpdmRequest (s : State) : Out :=
  .next (match s.inputs with
    | .spdm n :: rest =>
      let answer := Config.spdmAnswer n s.pkg.measured Config.deviceKeyId
      { s with inputs := rest, outputs := s.outputs ++ [.spdm answer] }
    | _ => s)

/-- The rails of every core of a die stand at F0 (R109). -/
def State.railsToF0 (s : State) (d : Nat) : State :=
  let cool := fun (e : Nat × Core) =>
    if e.1 / Config.coresPerDie = d then (e.1, { e.2 with engines := { e.2.engines with railLevel := 0 } }) else e
  { s with cores := s.cores.map cool }

/-- Above 95 °C the die is hot, below 90 °C no longer (R109). -/
def execTemperatureLimit (s : State) : Out :=
  .next (match s.inputs with
    | .temperature d c :: rest =>
      let s1 := { s with inputs := rest }
      if Config.simtDies ≤ d then s1
      else if 95 < c ∧ (s1.die d).hot = false then ((s1.modDie d fun x => { x with hot := true }).railsToF0 d).pkgEvent 1
      else if c < 90 then s1.modDie d fun x => { x with hot := false }
      else s1
    | _ => s)

/-- The clock of a SIMT die, or the activation limit of a stack, within the power budget (R7, R11, R152). -/
def execPowerThrottle (s : State) : Out :=
  .next (match s.inputs with
    | .power d mhz :: rest =>
      let s1 := { s with inputs := rest }
      if d < Config.simtDies then s1.modDie d fun x => { x with mhz := min mhz 3300 } else s1
    | .activates st n :: rest =>
      let s1 := { s with inputs := rest }
      if st < Config.hbmStacks then s1.setStk st { s1.stk st with actlim := word (n % 65536) } else s1
    | _ => s)

end Sys2Proof.Machine
end

