-- ==== Sys2Proof/Machine/Packed.lean ====
section
/-!
DEFINITION. Packed conversions and arithmetic: PCVT, PFMA, PDOT (19 R433 to R436).
-/
namespace Sys2Proof.Machine

/-- What a lane of a packed code holds (R257): a float of a format, or an integer. -/
inductive LaneType where
  | float (c : FloatCode)
  | int (w : Nat) (sg : Bool)
  deriving DecidableEq, Repr

def laneType : PackedCode → LaneType
  | .p2s => .float .s | .p4h => .float .h | .p4bf => .float .bf | .p8e4m3 => .float .e4m3 | .p8e5m2 => .float .e5m2
  | .p8s8 => .int 8 true | .p8n8 => .int 8 false | .p4s16 => .int 16 true | .p4n16 => .int 16 false
  | .p2s32 => .int 32 true | .p2n32 => .int 32 false

/-- Lane `i` of a word with lanes of `w` bits. -/
def lane (w : Nat) (x : Word) (i : Nat) : Nat := x.toNat / 2 ^ (w * i) % 2 ^ w

/-- The conversion of one lane (R99, R434). -/
def convertLane (dst src : LaneType) (mode : Mode) (x : Nat) : FpResult :=
  match src, dst with
  | .float a, .float b =>
    let v := (fmtOf a).decode x
    if a = b then if v.isNan then (fmtOf b).nanResult v.isSnan else ⟨x, 0⟩ else (fmtOf b).ofVal mode v
  | .float a, .int w sg => toInt mode w sg ((fmtOf a).decode x)
  | .int w sg, .float b => ofInt (fmtOf b) mode (intOf w sg x)
  | .int w sg, .int w' sg' => ⟨intBits w' (max (intMin w' sg') (min (intMax w' sg') (intOf w sg x))), 0⟩

/-- A word with lane `j` of `w` bits replaced. -/
def putLane (w : Nat) (x : Word) (j v : Nat) : Word := setFld x (w * j + w - 1) (w * j) v

/-- PCVT (R434): the converted lanes over the old destination, and the flags of every lane. -/
def packedConvert (dst src : PackedCode) (part : Nat) (mode : Mode) (old x : Word) : Word × BitVec 6 :=
  let ns := src.lanes
  let nd := dst.lanes
  let n := min ns nd
  (List.range n).foldl (fun (acc : Word × BitVec 6) k =>
    let i := if nd ≤ ns then part * n + k else k
    let j := if nd ≤ ns then k else part * n + k
    let r := convertLane (laneType dst) (laneType src) mode (lane (64 / ns) x i)
    (putLane (64 / nd) acc.1 j r.bits, acc.2 ||| r.flags)) (old, 0)

def execPcvt (g : Guard) (dst src : PackedCode) (rm : Rm) (part : BitVec 3) (d a : Reg) (s : State) : Out :=
  perThread s (.pcvt g dst src rm part d a) g [a.toNat, d.toNat] anyCore .runs fun k s =>
    let r := packedConvert dst src part.toNat (s.mode k rm) (s.readReg k d) (s.readReg k a)
    .go ((s.writeReg k d r.1).raiseFlags k r.2) .next

/-- One lane of PFMA (R436). -/
def pfmaLane (t : LaneType) (mode : Mode) (x y z : Nat) : FpResult :=
  match t with
  | .float c => (fmtOf c).fma mode x y z
  | .int w _ => ⟨(x * y + z) % 2 ^ w, 0⟩

def packedFma (t : PackedCode) (mode : Mode) (x y z : Word) : Word × BitVec 6 :=
  let w := 64 / t.lanes
  (List.range t.lanes).foldl (fun (acc : Word × BitVec 6) i =>
    let r := pfmaLane (laneType t) mode (lane w x i) (lane w y i) (lane w z i)
    (putLane w acc.1 i r.bits, acc.2 ||| r.flags)) (0, 0)

def execPfma (g : Guard) (t : PackedCode) (rm : Rm) (d a b c : Reg) (s : State) : Out :=
  perThread s (.pfma g t rm d a b c) g [a.toNat, b.toNat, c.toNat, d.toNat] anyCore .runs fun k s =>
    let r := packedFma t (s.mode k rm) (s.readReg k a) (s.readReg k b) (s.readReg k c)
    .go ((s.writeReg k d r.1).raiseFlags k r.2) .next

/-- An exact sum of terms, each ±m × 2^e: the sum as v × 2^e. -/
def exactSum (ts : List (Bool × Nat × Int)) : Int × Int :=
  ts.foldl (fun (acc : Int × Int) t =>
    let e := min acc.2 t.2.2
    (acc.1 * 2 ^ (acc.2 - e).toNat + signed t.1 (t.2.1 * 2 ^ (t.2.2 - e).toNat), e)) (0, 0)

def finiteTerm : FVal → Option (Bool × Nat × Int)
  | .fin n m e => some (n, m, e)
  | _ => none

/-- PDOT on float lanes: one FP32 rounding of the exact sum, special values by the rules of R436. -/
def floatDot (c : FloatCode) (mode : Mode) (pairs : List (Nat × Nat)) (z : Nat) : FpResult :=
  let f := fmtOf c
  let ops := pairs.map fun p => (f.decode p.1, f.decode p.2)
  let acc := (fmtOf .s).decode z
  let snan := acc.isSnan || ops.any fun p => p.1.isSnan || p.2.isSnan
  let prods := ops.map fun p => if p.1.isNan || p.2.isNan then some (FVal.nan false) else exactMul p.1 p.2
  let zeroInf := prods.any fun p => p.isNone
  let terms := acc :: prods.filterMap id
  let infP := terms.any fun t => t == .inf false
  let infN := terms.any fun t => t == .inf true
  let out := fmtOf .s
  if zeroInf || terms.any FVal.isNan then out.nanResult (snan || zeroInf)
  else if infP && infN then out.nanResult true
  else if infP then ⟨out.inf false, 0⟩
  else if infN then ⟨out.inf true, 0⟩
  else
    let fin := terms.filterMap finiteTerm
    let sum := exactSum fin
    out.roundInt mode sum.1 sum.2 (if fin.all fun t => t.1 && t.2.1 == 0 then some true else none)

/-- PDOT (R436). -/
def packedDot (t : PackedCode) (mode : Mode) (x y z : Word) : FpResult :=
  let w := 64 / t.lanes
  let pairs := (List.range t.lanes).map fun i => (lane w x i, lane w y i)
  match laneType t with
  | .float c => floatDot c mode pairs (z.toNat % 2 ^ 32)
  | .int w sg =>
    ⟨intBits 32 (pairs.foldl (fun acc p => acc + intOf w sg p.1 * intOf w sg p.2) ((z.toNat % 2 ^ 32 : Nat) : Int)), 0⟩

def execPdot (g : Guard) (t : PackedCode) (rm : Rm) (d a b c : Reg) (s : State) : Out :=
  perThread s (.pdot g t rm d a b c) g [a.toNat, b.toNat, c.toNat, d.toNat] anyCore .runs fun k s =>
    .go (s.fpResult k d (packedDot t (s.mode k rm) (s.readReg k a) (s.readReg k b) (s.readReg k c))) .next

end Sys2Proof.Machine
end

