-- ==== Sys2Proof/Machine/Image.lean ====
section
/-!
DEFINITION. The auger image (11 R317 to R321): its sections, built from the state. Where the spec names what a section
holds without a layout (the scheduler's cursors, the network engines, the kept flits), the model's layout stands (log 18).
-/
namespace Sys2Proof.Machine

structure Section where
  type : Nat
  unit : Nat
  bytes : List Byte
  deriving DecidableEq, Repr

def padBytes (n : Nat) (bs : List Byte) : List Byte := bs ++ List.replicate (n - bs.length) 0

/-- Bytes in whole units of `n`. -/
def roundBytes (n : Nat) (bs : List Byte) : List Byte := padBytes (ceilDiv bs.length n * n) bs

def flagWord (b : Bool) : Word := word (boolBit b)

/-- A list with its length in front. -/
def counted (xs : List (List Word)) : List Word := word xs.length :: xs.flatten

/-! ### Latency cores and contexts -/

/-- The frame of a hardware thread; VALID = 0 when it is free. -/
def State.hartWords (s : State) (n : Nat) : List Word :=
  if (s.hart n).run then s.hartFrame n else List.replicate 128 0

def State.latSections (s : State) : List Section :=
  ((List.range Config.latencyCores).filter fun m => (s.hart (2 * m)).run || (s.hart (2 * m + 1)).run).map fun m =>
    ⟨1, m, wordsBytes (s.hartWords (2 * m) ++ s.hartWords (2 * m + 1))⟩

/-- Context records of the package, one for each ASID. -/
def State.imageContexts (s : State) : AMap Ctx :=
  let gangs := s.gangs.map fun e => (e.2.asid, ctxOfWords e.2.ctx)
  let harts := (s.harts.filter fun e => e.2.run && e.2.ctx.pgroot != 0).map fun e => (e.2.ctx.asid, e.2.ctx)
  ((s.dies.flatMap fun e => e.2.contexts) ++ gangs ++ harts).foldl (fun (m : AMap Ctx) e => if (m.find e.1).isSome then m else m.set e.1 e.2) []

def State.ctxSections (s : State) : List Section := s.imageContexts.map fun e => ⟨2, e.1, wordsBytes (ctxWords e.2)⟩

/-! ### SIMT cores (R319) -/

def codebookBytes (c : Option Codebook) : List Byte :=
  match c with
  | none => List.replicate 48 0
  | some c => padBytes 32 (c.entries.flatMap fun e => natBytes 2 e.toNat) ++ wordsBytes [word (boolBit c.valid * 2 ^ 16 + c.asid), 0]

def State.handleWords (s : State) (h : Option Handle) : List Word :=
  match h with
  | none => List.replicate 8 0
  | some h =>
    let owner := ((s.crews.find h.owner).map (·.cidx)).getD 0
    [ word (h.asid * 2 ^ 48 + h.gen % 256 * 2 ^ 40 + (if h.alloc then (kstatWord h).toNat % 2 ^ 40 else 0)), word owner ]
      ++ padTo 4 h.source ++ [0, 0]

/-- Crews in their slots, in rising partition and slot. -/
def State.imageCrews (s : State) (core : Nat) : List (Nat × Crew) :=
  (List.range 64).flatMap fun i => (s.crewsOn core).filter fun e => e.2.part == i / 16 && e.2.slot == i % 16

/-- A crew's frame (R310), with the commands that it has in its core's queue. -/
def State.crewBytes (s : State) (x : Nat × Crew) : List Byte :=
  let mine := (s.core x.2.core).engines.queue.filter fun q => q.crew == x.1
  let e := (x.1, { x.2 with saved := x.2.saved ++ mine })
  let len := frameLen (s.crewGranules e.2)
  let s1 := (s.laneKeys x.1).foldl State.scrub s
  let lanes := (List.range 32).flatMap fun l => wordsBytes (s1.crewLane e.1 e.2 l)
  padBytes len (wordsBytes (s1.crewHeader e.1 e.2 len) ++ lanes ++ (s1.crewLoam e.2).2)

def State.simtBytes (s : State) (n : Nat) : List Byte :=
  let c := s.core n
  let k := c.counters
  let crews := s.imageCrews n
  let head := [c.partWord, word c.engines.railLevel, word k.hzc0, word k.hzc1, word k.hzc2, word k.hzc3, word k.parity,
    word k.poison, word crews.length]
  let books := (List.range 64).flatMap fun i => codebookBytes (c.engines.codebooks.find i)
  let handles := (List.range 256).flatMap fun i => wordsBytes (s.handleWords (c.engines.handles.find i))
  padBytes 0x5000 (padBytes 0x80 (wordsBytes head) ++ books ++ handles) ++ crews.flatMap s.crewBytes

def State.simtSections (s : State) : List Section := s.cores.map fun e => ⟨0x10, e.1, s.simtBytes e.1⟩

/-! ### Dies (R318; log 18) -/

def State.callerFrame (s : State) (g : Gang) : List Word := if g.caller = 0 then List.replicate 128 0 else s.frameAt g.caller

/-- Up to four core numbers in a word, nine bits each. -/
def coresWord (cs : List Nat) : Word := word ((cs.take 4).zipIdx.foldl (fun n e => n + e.1 * 2 ^ (9 * e.2)) 0)
def coresOfWord (w : Word) : List Nat := (List.range 4).map fun i => fld w (9 * i + 8) (9 * i)

/-- What a gang's record holds: 24 words. -/
def gangWords (seq : Nat) (g : Gang) : List Word :=
  let d := g.desc
  let t := match g.task with
    | some (n, h, i) => [word 1, word n, word h, word i]
    | none => [0, 0, 0, 0]
  [ word seq, word g.count, word g.asid, word g.caller, word g.callerDie, g.callerTid, word g.gd, word g.callerHart,
    g.fid.setWidth 64, flagWord g.sup, word g.status, word g.live ] ++ t
  ++ [ d.entry, d.shape, d.region, d.tidBase, d.completion, d.wsTable, coresWord g.cores, coresWord (g.cores.drop 4) ]

def descWords (d : GangDesc) : List Word := padTo 16 [d.entry, d.shape, d.region, d.tidBase, d.completion, d.wsTable]

/-- A thread by its gang sequence number and gang index. -/
def State.threadName (s : State) (k : Nat) : List Word := [word (s.thread k).ids.seq, (s.thread k).ids.gang.setWidth 64]

/-- What threads of a die hold that their frames do not: held signals, or chain failures (R143, R298). -/
def State.heldWords (s : State) (d : Nat) (get : Thread → List Word) : List (List Word) :=
  let mine := s.threads.filter fun e => decide (256 ≤ e.1) && s.coreOf e.1 / Config.coresPerDie == d
  let now := fun (e : Nat × Thread) => if !e.2.st.away then e.2 else
    ((s.threads.find? fun h => decide (h.1 < 256) && h.2.st.away && h.2.ids.seq == e.2.ids.seq
      && h.2.ids.gang == e.2.ids.gang).map (·.2)).getD e.2
  mine.flatMap fun e => (get (now e)).map fun v => s.threadName e.1 ++ [v]

/-- Bytes as `n` words. -/
def bytesWords (n : Nat) (bs : List Byte) : List Word :=
  padTo n ((chunks 8 (bs.length + 1) bs).map fun b => word (bytesToNat b))

/-- The working and output tile of an epilogue chain, which a stop keeps (R144, R229): gang, crew, offset of the header,
format and scaled bit of the output tile, lengths, and the bytes. -/
def tileWords : Nat := 4134
def State.chainTileWords (s : State) (e : Nat × Chain) : List Word :=
  let cr := (e.2.crew.bind s.crews.find).map fun cr => (cr.seq, cr.cidx)
  let t := e.2.tiles
  [ word (cr.getD (0, 0)).1, word (cr.getD (0, 0)).2, word (s.headerOff e.2),
    (match t.out with | none => 0 | some f => word (2 * f.1 + 2 + boolBit f.2)), word t.o.length, word t.scales.length ]
  ++ bytesWords 2048 (t.w.flatMap fun x => natBytes 4 x.toNat) ++ bytesWords 2048 t.o ++ bytesWords 32 t.scales

def State.dieWords (s : State) (d : Nat) : List Word :=
  let x := s.die d
  let waiting := s.gangs.filter fun e => e.2.waiting && d == 0
  let live := s.gangs.filter fun e => !e.2.waiting && e.2.callerDie == d
  let saved := s.crews.filterMap fun e => match e.2.place with
    | .saved f => if e.2.core / Config.coresPerDie = d then some [word f, flagWord e.2.faulted] else none
    | _ => none
  let rooms := s.crews.filterMap fun e =>
    if e.2.place.onCore && e.2.core / Config.coresPerDie == d then
      some [word e.2.seq, word e.2.cidx, word e.2.frame, flagWord e.2.faulted] else none
  counted (waiting.map fun e => descWords e.2.desc ++ s.callerFrame e.2)
  ++ counted (live.map fun e => word e.1 :: s.callerFrame e.2)
  ++ [queueWord x.fqHead x.fqTail x.fqLog]
  ++ counted (x.frames.map fun f => [word f.1, word f.2])
  ++ counted (waiting.map fun e => gangWords e.1 e.2)
  ++ counted (live.map fun e => gangWords e.1 e.2)
  ++ counted saved
  ++ counted (x.escalated.map fun e => word e.1 :: s.threadName e.2)
  ++ counted (x.returning.map s.threadName)
  ++ counted (x.tasks.map fun t => [word t.net, word t.asid, t.slot, word t.hidx])
  ++ counted rooms
  ++ counted (s.heldWords d (·.signals)) ++ counted (s.heldWords d (·.failures))
  ++ counted ((s.chains.filter fun e => e.2.engine == 1 && e.2.tiles.taken && e.2.unit / Config.coresPerDie == d).map s.chainTileWords)

def State.dieSections (s : State) : List Section := s.dies.map fun e => ⟨0x20, e.1, wordsBytes (s.dieWords e.1)⟩

/-! ### Ports, network engines, memory -/

def flitBytes (f : Flit) : List Byte :=
  natBytes 2 f.seq.toNat ++ natBytes 2 f.ack.toNat ++ natBytes 1 f.kind.toNat ++ natBytes 11 f.head.toNat
    ++ natBytes 224 f.payload.toNat ++ natBytes 16 f.crc.toNat

def flitOf (bs : List Byte) : Flit :=
  let n := fun (off len : Nat) => bytesToNat ((bs.drop off).take len)
  ⟨BitVec.ofNat 16 (n 0 2), BitVec.ofNat 16 (n 2 2), BitVec.ofNat 8 (n 4 1), BitVec.ofNat 88 (n 5 11),
    BitVec.ofNat 1792 (n 16 224), BitVec.ofNat 128 (n 240 16)⟩

def portBytes (p : Port) : List Byte :=
  wordsBytes [word (p.last.toNat + p.sent.toNat * 2 ^ 16), word p.kept.length, word p.retry.length] ++ p.kept.flatMap flitBytes ++ p.retry.flatMap flitBytes

def State.portSections (s : State) : List Section := s.ports.map fun e => ⟨0x30, e.1, portBytes e.2⟩

/-- On-package links, numbered by their two dies (log 18). -/
def State.linkSections (s : State) : List Section := s.links.map fun e => ⟨0x31, e.1, portBytes e.2⟩

/-- The thread that a chain counts: a latency thread by its tid, a SIMT thread by its gang. -/
def State.keyWords (s : State) (k : Nat) : List Word :=
  if 2 ^ 64 ≤ k then [0, word (k - 2 ^ 64), 0] else 1 :: s.threadName k

/-- Chains that a hardware thread started on a network engine. -/
def State.hartChains (s : State) (e : Nat) : List (Nat × Chain) :=
  s.chains.filter fun c => c.2.crew.isNone && c.2.unit == 384 + e

/-- A chain of a hardware thread: 20 words. -/
def State.chainWords (s : State) (c : Chain) : List Word :=
  c.addr :: s.keyWords (c.counting.headD 0)
  ++ [ word c.asid, flagWord c.sup, word c.scope.code, word c.state, word c.idx, word c.order, word c.cause, word c.zsub,
    c.fault, word c.done ] ++ ctxWords c.ctx

/-- The chain of a packet: by its place among those of hardware threads, or by its crew and header. -/
def State.chainName (s : State) (e : Nat) (p : Packet) : List Word :=
  match (s.hartChains e).zipIdx.find? fun c => c.1.1 == p.chain, s.chains.find p.chain with
  | some c, _ => [0, word c.2, 0, 0]
  | none, some c =>
    let cr := ((c.crew.bind s.crews.find).map fun cr => (cr.seq, cr.cidx)).getD (0, 0)
    [1, word cr.1, word cr.2, word (s.headerOff c)]
  | none, none => [2, 0, 0, 0]

/-- A packet with its chain, and the place of the first packet of its run among those of the section. -/
def State.packetWords (s : State) (e batch : Nat) (p : Packet) : List Word :=
  s.chainName e p
  ++ [ word p.entry, word batch, word p.kind, flagWord p.ordered, word p.peer, p.addr, word p.len, p.tag, word p.hidx,
    flagWord p.acked, word p.data.length ] ++ (chunks 8 (p.data.length + 1) p.data).map fun b => word (bytesToNat b)

/-- Latency threads that are not AWAY, on a hardware thread or off it, with what no frame of theirs holds. -/
def State.latThreads (s : State) : List Thread :=
  s.absent.map (·.2) ++ (s.threads.filter fun e => isLat e.1 && !e.2.st.away && e.2.outstanding).map (·.2)

/-- Held signals or chain failures of those threads, by tid. -/
def heldByTid (ts : List Thread) (get : Thread → List Word) : List (List Word) :=
  ts.flatMap fun t => (get t).map fun v => [t.ids.tid, v]

/-- What a network engine's section holds (R318; log 18). Engine 0's also holds the receive-ring cursors, and what
stands beside the frames of latency threads. -/
def State.netWords (s : State) (e : Nat) : List Word :=
  let cs := s.hartChains e
  let mine := s.packets.filter fun p => (s.chains.find p.2.chain).any fun c => c.unit == 384 + e
  let place := fun (p : Packet) => mine.findIdx fun q => q.2.chain == p.chain && q.2.batch == p.batch
  let ts := if e = 0 then s.latThreads else []
  counted (cs.map fun c => s.chainWords c.2) ++ counted (mine.map fun p => s.packetWords e (place p.2) p.2)
  ++ counted ((s.net e).suspended.map fun x => [word x.1, x.2])
  ++ counted (if e = 0 then s.cursors.map fun x => [word x.1, word x.2] else [])
  ++ counted (ts.map fun t => [t.ids.tid, word t.oc.ld, word t.oc.st, word t.oc.cp, word t.oc.tile])
  ++ counted (heldByTid ts (·.signals)) ++ counted (heldByTid ts (·.failures))

def State.netSections (s : State) : List Section :=
  (List.range Config.networkEngines).map fun e => ⟨0x32, e, wordsBytes (s.netWords e)⟩

/-- The physical address of the image buffer. -/
def State.imageBase (s : State) : Nat := fld s.pkg.qbuf 51 0

/-- Entries of the page list: (physical address, size class, key id). -/
def State.pageList (s : State) : List (Nat × Nat × Nat) :=
  let a := fld s.pkg.qlist 51 4 * 16
  if s.pkg.qlist = 0 then []
  else (List.range (s.hwWord a).toNat).map fun i =>
    let w := s.hwWord (a + 8 + 16 * i)
    (fld w 51 0, fld w 63 61, (s.hwWord (a + 16 + 16 * i)).toNat)

/-- A list that IMAGE does not accept (R320): a reserved bit, a misaligned page, or an overlap with the buffer. -/
def State.pageListBad (s : State) : Bool :=
  let a := s.pkg.qlist.toNat
  let n := (s.hwWord a).toNat
  let q := s.imageBase
  s.pkg.qlist != 0 && (a % 16 != 0 || (decide (a < q + s.pkg.qlen.toNat) && decide (q < a + 8 + 16 * n))
    || (List.range n).any fun i =>
      let w := s.hwWord (a + 8 + 16 * i)
      let k := s.hwWord (a + 16 + 16 * i)
      fld w 63 61 == 0 || fld w 60 52 != 0 || fld k 63 6 != 0 || fld w 51 0 % 2 ^ sizeLog (fld w 63 61) != 0)

/-- A page's record: head and bytes as the stack controller decrypts them; a poisoned line reads zero. -/
def State.pageRecord (s : State) (e : Nat × Nat × Nat) : List Byte :=
  let n := 2 ^ sizeLog e.2.1
  let p : Page := { flatPage e.1 with key := e.2.2 }
  wordsBytes [word (e.2.1 * 2 ^ 61 + e.1), word e.2.2, word n, 0] ++ (s.engineRead hwAgent p e.1 n).2.1

def State.memSections (s : State) : List Section :=
  let ps := s.pageList
  ((List.range Config.hbmStacks).filter fun st => ps.any fun p => p.1 / 2 ^ 36 == st).map fun st =>
    ⟨0x40, st, (ps.filter fun p => p.1 / 2 ^ 36 == st).flatMap s.pageRecord⟩

/-! ### The whole image -/

def State.sections (s : State) : List Section :=
  s.latSections ++ s.ctxSections ++ s.simtSections ++ s.dieSections ++ s.portSections ++ s.linkSections ++ s.netSections ++ s.memSections

/-- Sections one after another, each from a multiple of 4 KiB: their bytes, and (offset, length) of each. -/
def layOut : Nat → List Section → List Byte × List (Nat × Nat)
  | _, [] => ([], [])
  | off, x :: xs =>
    let b := roundBytes 4096 x.bytes
    let r := layOut (off + b.length) xs
    (b ++ r.1, (off, x.bytes.length) :: r.2)

def sectionWords (x : Section) (p : Nat × Nat) : List Word :=
  [word (2 ^ 32 + x.unit % 65536 * 65536 + x.type), word p.1, word p.2, 0]

/-- "YZZ81T" (R317). -/
def partCode : Word := 0x543138_5A5A59

/-- Bits of the units of a type. -/
def unitMask (xs : List Section) (type : Nat) : Nat := xs.foldl (fun m x => if x.type = type then m ||| 2 ^ x.unit else m) 0

/-- Offsets of the section table and the digest, and the image length, for a body of `body` bytes and `n` sections. -/
def tailOffsets (body n : Nat) : Nat × Nat × Nat :=
  let table := 4096 + body
  (table, table + 32 * n, table + 32 * n + 64 + 140)

def State.imageHeader (s : State) (xs : List Section) (body : Nat) : List Byte :=
  let t := tailOffsets body xs.length
  let mem := xs.any fun x => x.type == 0x40
  padBytes 256
    (wordsBytes [ word (0x5A5A4155 + 2 ^ 32 + 256 * 2 ^ 48), partCode, word t.2.2, word (s.nxt.gang % 2 ^ 48),
      word (2 + boolBit mem), word xs.length, word t.1, word t.2.1 ]
    ++ natBytes 48 (unitMask xs 0x10) ++ natBytes 16 (unitMask xs 1))

/-- The image: header, sections, section table, digest, signature and key id (R317 to R321); always signed (log 18). -/
def State.image (s : State) : List Byte :=
  let xs := s.sections
  let l := layOut 4096 xs
  let signed := padBytes 4096 (s.imageHeader xs l.1.length) ++ l.1
    ++ (xs.zip l.2).flatMap fun e => wordsBytes (sectionWords e.1 e.2)
  let d := sha512 signed
  signed ++ d ++ (padBytes 132 (Config.sign d)).take 132 ++ natBytes 8 Config.deviceKeyId.toNat

end Sys2Proof.Machine
end

