-- ==== Sys2Proof/Machine/Quiesce.lean ====
section
/-!
DEFINITION. The quiesce commands (11 R312 to R316, R322): QUIESCE and its end, IMAGE, RESTORE, RESUME.
-/
namespace Sys2Proof.Machine

/-- A quiesce command of the package controller runs. -/
def State.command (s : State) (n : Nat) : Bool := s.pkg.qbusy && s.pkg.qcmd == n

/-- The command ends with a result, and a package event (R312, R328). -/
def State.endCommand (s : State) (result : Nat) : State :=
  { s with pkg := { s.pkg with qbusy := false, qresult := result } }.pkgEvent 0

/-! ### QUIESCE (R313) -/

/-- Every chain stops; a chain of a crew that is saved has stopped before. -/
def State.stopAllChains (s : State) : State :=
  s.chains.foldl (fun s e =>
    if e.2.state == 1 || e.2.state == 2 || (e.2.state == 3 && !s.allAcked e.1) then
      let c := { e.2 with state := 5 }
      (s.putChain e.1 c).writeHeader c
    else s) s

/-- A crew that only waits in a shadow bank is saved, as before its pre-fill. -/
def State.abandonPrefill (s : State) (e : Nat × Crew) : State :=
  if e.2.place != .shadow || (s.core e.2.core).switch.isSome then s
  else
    let d := e.2.core / Config.coresPerDie
    let c := s.dieCtx d e.2.asid
    let s1 := s.chargeLoam c d e.2.region (-(s.crewGranules e.2 : Int))
    ((s1.modCrew e.1 fun cr => { cr with place := .saved e.2.frame }).recount c d e.2.region).refreshRing d

/-- The stop reaches every unit: speculation is squashed, chains stop, a pre-fill is abandoned. From here `State.halted`
keeps every unit from starting anything. -/
def execQuiesce (s : State) : Out :=
  .next (if !s.command 1 then s
    else
      let spec := (s.threads.filter fun e => decide (256 ≤ e.1) && e.2.spec.mode != .normal).map (·.1)
      let s1 := (spec.foldl State.squash s).stopAllChains
      s1.crews.foldl State.abandonPrefill s1)

/-- Whether everything that had begun is done: accesses, the commands in progress, saves, switches, escalations, barrier
closes. -/
def State.drained (s : State) : Bool :=
  s.mem.inflight.isEmpty && s.mem.msgs.isEmpty
  && (s.cores.all fun e => e.2.engines.current.isNone && e.2.engines.fill.isNone && e.2.switch.isNone)
  && (s.crews.all fun e => match e.2.place with
    | .stopping | .spilling | .shadow => false
    | _ => true)
  && (s.gangs.all fun e => e.2.closing.isEmpty)
  && (s.threads.all fun e => match e.2.st.pending with
    | .esc _ _ => false
    | _ => true)
  && s.threads.all (fun e => e.2.spec.mode == .normal)
  && s.chains.all fun e => e.2.state == 0 || e.2.state == 5

/-- Lines of every core's cache are written back and dropped. -/
def State.flushAll (s : State) : State :=
  let agents := ((s.mem.copies.filter fun c => decide (c.agent < Config.hostAgent)).map (·.agent)).dedup
  agents.foldl State.flushCache s

def execQuiesceComplete (s : State) : Out :=
  .next (if s.command 1 && s.drained then
      -- charges are posted, and every region block is written back (R277, R281, R318)
      let posted := ((s.cores.map (·.1)).foldl (fun s c => s.postCharges c fun _ => true) s).writeBackAll
      let s1 := posted.flushAll
      { s1 with pkg := { s1.pkg with qsd := true } }.endCommand 0
    else s)

/-! ### IMAGE (R316, R320) -/

/-- `n` bytes that the spec leaves unpredictable (log 6). -/
def State.freeBytes (s : State) (n : Nat) : List Byte × State :=
  ((List.range n).map fun i => (Config.freeValue (s.free + i)).setWidth 8, { s with free := s.free + n })

/-- The fills of hardware threads that have not started are in no crew frame: in the image they stand abandoned (R237). -/
def State.withoutFills (s : State) : State :=
  s.cores.foldl (fun s e => (e.2.engines.queue.filter fun x => x.crew == noCrew).foldl (fun s x => s.lowerTile x.threads) s) s

def execImage (s : State) : Out :=
  .next (if !s.command 2 then s
    else if !s.pkg.qsd then s.endCommand 1
    else if s.pageListBad then s.endCommand 3
    else
      let bs := s.withoutFills.image
      if s.pkg.qlen.toNat < bs.length then
        let q := s.freeBytes s.pkg.qlen.toNat
        (q.2.hwPut s.imageBase q.1).endCommand 2
      else (s.hwPut s.imageBase bs).endCommand 0)

/-! ### RESTORE: the checks (R316, R322) -/

def State.imageWord (s : State) (off : Nat) : Word := s.peekWord (s.imageBase + off)
def State.imageBytes (s : State) (off n : Nat) : List Byte := s.peekBytes (s.imageBase + off) n

/-- The result of the first check that fails, 0 when none does. -/
def State.imageCheck (s : State) : Nat :=
  let h := s.imageWord 0
  let len := (s.imageWord 0x10).toNat
  let dig := (s.imageWord 0x38).toNat
  let signed := bitAt (s.imageWord 0x20) 1
  let digest := s.imageBytes dig 64
  if fld h 31 0 ≠ 0x5A5A4155 then 3
  else if fld h 47 32 ≠ 1 then 6
  else if fld h 63 48 ≠ 256 then 3
  else if len ≠ dig + 64 + (if signed then 140 else 0) ∨ s.pkg.qlen.toNat < len then 3
  else if sha512 (s.imageBytes 0 dig) ≠ digest then 4
  else if (s.pkg.sigreq || signed) && !(signed && Config.verify digest (s.imageBytes (dig + 64) 132) (s.imageBytes (dig + 196) 8))
    then 5
  else if s.imageWord 8 ≠ partCode then 6
  else 0

/-- The package holds no context on its SIMT dies. -/
def State.holdsNothing (s : State) : Bool := s.crews.isEmpty && s.gangs.isEmpty

/-! ### RESTORE: the sections -/

/-- A section as the table names it: type, unit, offset, length. -/
structure Placed where
  type : Nat
  unit : Nat
  off : Nat
  len : Nat
  deriving DecidableEq, Repr

/-- The sections of a type, in the order of the table. -/
def State.placedOf (s : State) (type : Nat) : List Placed :=
  let table := (s.imageWord 0x30).toNat
  let all := (List.range (s.imageWord 0x28).toNat).map fun i =>
    let w := s.imageWord (table + 32 * i)
    (⟨fld w 15 0, fld w 31 16, (s.imageWord (table + 32 * i + 8)).toNat, (s.imageWord (table + 32 * i + 16)).toNat⟩ : Placed)
  all.filter fun p => p.type == type

def State.placedWords (s : State) (p : Placed) : List Word :=
  (List.range (ceilDiv p.len 8)).map fun i => s.imageWord (p.off + 8 * i)

/-- A counted list of items of `k` words, and what follows it. -/
def takeCounted (k : Nat) (ws : List Word) : List (List Word) × List Word :=
  let n := min (ws.headD 0).toNat ws.length
  ((List.range n).map fun i => (ws.drop (1 + k * i)).take k, ws.drop (1 + k * n))

/-- Context records (type 2), on every die; dies that use none drop it at the end. -/
def State.restoreContexts (s : State) : State :=
  let ps := s.placedOf 2
  let recs := ps.map fun p => (p.unit, ctxOfWords (s.placedWords p))
  (List.range Config.simtDies).foldl (fun s d =>
    s.modDie d fun x => { x with contexts := recs.foldl (fun (m : AMap Ctx) e => m.set e.1 e.2) [] }) s

def nat (ws : List Word) (i : Nat) : Nat := (ws.getD i 0).toNat

def gangOfWords (ws : List Word) (ctx : Ctx) (waiting : Bool) : Gang :=
  let w := fun i => ws.getD i 0
  let desc : GangDesc := ⟨w 16, w 17, w 18, w 19, w 20, w 21⟩
  let cores := if waiting then [] else (coresOfWord (w 22) ++ coresOfWord (w 23)).take desc.cores
  { desc := desc, count := nat ws 1, asid := nat ws 2, cores := cores, live := nat ws 11, arrived := [], closing := [],
    caller := nat ws 3, callerDie := nat ws 4, callerTid := w 5, gd := nat ws 6, callerHart := nat ws 7,
    fid := (w 8).setWidth 4, sup := w 9 != 0, waiting := waiting,
    task := if w 12 = 0 then none else some (nat ws 13, nat ws 14, nat ws 15), status := nat ws 10, ctx := ctxWords ctx,
    start := 0, invs := [] }

/-- What a die's section holds, read. -/
structure DieImage where
  waiting : List (List Word)
  live : List (List Word)
  queue : Word
  frames : List (List Word)
  waitingGangs : List (List Word)
  liveGangs : List (List Word)
  saved : List (List Word)
  escalated : List (List Word)
  returning : List (List Word)
  tasks : List (List Word)
  rooms : List (List Word)
  signals : List (List Word)
  failures : List (List Word)
  tiles : List (List Word)
  deriving DecidableEq, Repr

def dieImage (ws : List Word) : DieImage :=
  let a := takeCounted 144 ws
  let b := takeCounted 129 a.2
  let c := takeCounted 2 (b.2.drop 1)
  let d := takeCounted 24 c.2
  let e := takeCounted 24 d.2
  let f := takeCounted 2 e.2
  let g := takeCounted 3 f.2
  let h := takeCounted 2 g.2
  let i := takeCounted 4 h.2
  let j := takeCounted 4 i.2
  let k := takeCounted 3 j.2
  let l := takeCounted 3 k.2
  let m := takeCounted tileWords l.2
  ⟨a.1, b.1, b.2.headD 0, c.1, d.1, e.1, f.1, g.1, h.1, i.1, j.1, k.1, l.1, m.1⟩

/-- The tiles that a record of `chainTileWords` holds. -/
def tilesOfWords (w : List Word) : Tiles :=
  let bytes := fun (off n k : Nat) => (((w.drop off).take n).flatMap fun x => natBytes 8 x.toNat).take k
  { taken := true, w := (chunks 4 4097 (bytes 6 2048 16384)).map fun b => BitVec.ofNat 32 (bytesToNat b),
    out := if nat w 3 = 0 then none else some (nat w 3 / 2 - 1, nat w 3 % 2 == 1),
    o := bytes 2054 2048 (nat w 4), scales := bytes 4102 32 (nat w 5) }

def State.putGang (s : State) (ws : List Word) (frame : List Word) (waiting : Bool) : State :=
  let asid := nat ws 2
  let g : Gang := { gangOfWords ws (s.dieCtx 0 asid) waiting with start := s.free }
  let s1 := { s with gangs := s.gangs.set (nat ws 0) g }
  if g.caller = 0 then s1 else s1.putFrame g.caller frame

/-- Gangs, cursors and waiting work of a die (type 0x20). -/
def State.restoreDie (s : State) (d : Nat) (x : DieImage) : State :=
  let frames := x.frames.map fun f => (nat f 0, nat f 1)
  let tasks := x.tasks.map fun t => (⟨nat t 0, nat t 1, t.getD 2 0, nat t 3⟩ : Task)
  let s1 := s.modDie d fun y => { y with
    fqHead := fld x.queue 63 48, fqTail := fld x.queue 47 32, fqLog := fld x.queue 3 0, frames := frames, tasks := tasks }
  let s2 := (x.waitingGangs.zip x.waiting).foldl (fun (s : State) e => s.putGang e.1 (e.2.drop 16) true) s1
  (x.liveGangs.zip x.live).foldl (fun (s : State) e => s.putGang e.1 (e.2.drop 1) false) s2

/-! #### SIMT cores -/

/-- A crew of which nothing is known yet. -/
def Crew.blank : Crew :=
  { core := 0, part := 0, slot := 0, cidx := 0, gci := 0, size := 0, lsg := 0, region := 0, asid := 0, seq := 0, base := 0,
    bank := false, place := .resident, joins := Vector.replicate 8 ⟨0, 0⟩, sets := [], maps := [], full := [], cbSlots := 0,
    watchdog := 0, saved := [], frame := 0, faulted := false, spent := [] }

/-- The crew that a handle-table entry names by ASID and owner CIDX: one of the core, on it or saved, before one of another
core (R237, R319). DESIGN CHOICE (log 18): the lowest such crew; of an entry whose owner the image does not hold, the owner is
no crew and the region none. -/
def State.ownerOf (s : State) (core asid cidx : Nat) : Option (Nat × Crew) :=
  let named := s.crews.filter fun e => e.2.asid == asid && e.2.cidx == cidx
  (named.find? fun e => e.2.core == core).or named.head?

/-- A handle-table entry: DROPPED, with its source record and without a slot (R237, R322). -/
def State.handleOfWords (s : State) (core : Nat) (ws : List Word) : Handle :=
  let w := ws.getD 0 0
  let asid := fld w 63 48
  let owner := s.ownerOf core asid (fld (ws.getD 1 0) 8 0)
  let h := { Handle.zero with gen := fld w 47 40, asid := asid }
  if fld w 2 0 = 0 then h
  else { h with
    alloc := true, cbslot := fld w 31 26, scaled := bitAt w 25, fmt := fld w 24 21, crewFlag := bitAt w 20, ar := bitAt w 19,
    pin := bitAt w 18, state := .dropped, owner := (owner.map (·.1)).getD noCrew, region := (owner.map (·.2.region)).getD 0,
    source := (ws.drop 2).take 4, ctx := s.dieCtx (core / Config.coresPerDie) asid }

def codebookOf (bs : List Byte) : Codebook :=
  let w := BitVec.ofNat 64 (bytesToNat ((bs.drop 32).take 8))
  ⟨(List.range 16).map fun j => BitVec.ofNat 16 (bytesToNat ((bs.drop (2 * j)).take 2)), bitAt w 16, fld w 15 0⟩

/-- No header word holds the PC of a saved command's instruction: it is a free value (log 18); the mode is that of the
command's lowest thread. -/
def State.namePcs (s : State) (c : Nat) : State :=
  let name := fun (e : Cmd × Nat) =>
    { e.1 with pc := Config.freeValue (s.free + e.2)
               sup := (s.thread (laneKey c (((lanesOf e.1.rows).head?).getD 0))).trap.sup }
  { s.modCrew c fun cr => { cr with saved := cr.saved.zipIdx.map name } with free := s.free + 8 }

/-- A crew read from the frame at `f`, when it fits; its scratch lies by the crew's rank (R354). -/
def State.installCrew (s : State) (f : Nat) (room frame : Nat) (faulted : Bool) : State :=
  let ws := s.frameHeader f
  let id := hdr ws 0x010
  let core := fld id 8 0
  let word := (s.core core).partWord
  let bank := bitAt word 41
  let regs := laneRegs (s.frameLanes f)
  let key := s.nxt.crew
  match s.roomFor core (fld id 10 9) bank word (fld id 31 24) regs [],
      ringRooms (s.core core) (s.otherRings core bank key) (ringCounts ws) with
  | some r, some rings =>
    let r := { r with base := (s.rankBase key f bank word).getD r.base }
    let s1 := { s with nxt := { s.nxt with crew := key + 1 } }
    let s2 := s1.loadCrew key f ⟨bank, false, word, r, rings⟩ Crew.blank
    s2.modCrew key fun c => { c with
      frame := if room = 0 then frame else room, faulted := faulted, place := if faulted then .parkedFault else .resident }
  | _, _ => s

/-- A chain of a crew from its cursor, stopped; its header gives IDX. -/
def State.installChain (s : State) (c : Nat) (w0 w1 : Word) : State :=
  match s.crews.find c with
  | none => s
  | some cr =>
    let off := fld w0 21 0
    let engine := fld w0 23 22
    let h := BitVec.ofNat 64 (bytesToNat (s.loamBytes cr.core cr.bank (cr.base + off) 8))
    let ks := (lanesOf (BitVec.ofNat 32 (fld w1 31 0))).map (laneKey c)
    let ch : Chain :=
      { engine := engine, unit := if engine = 2 then 384 + fld w0 24 24 else cr.core, addr := word (s.windowAddr cr off),
        crew := some c, counting := ks, asid := cr.asid, sup := (s.thread (ks.headD 0)).trap.sup,
        ctx := s.dieCtx (cr.core / Config.coresPerDie) cr.asid, scope := scopeOfCode (fld w0 27 25), state := 5,
        idx := fld h 63 48, order := s.nxt.chain, cause := 0, zsub := fld h 39 24, fault := 0, done := 0, tiles := .none }
    { s with chains := s.chains.set s.nxt.chain ch, nxt := { s.nxt with chain := s.nxt.chain + 1 } }

/-- What a header says of a crew once every crew of its core is there: its mappings, its chains and its arrivals. -/
def State.finishCrew (s : State) (c f : Nat) : State :=
  match s.crews.find c with
  | none => s
  | some cr =>
    let ws := s.frameHeader f
    let maps := (s.crewOfHeader ws cr).maps
    let s1 := s.modCrew c fun x => { x with maps := maps }
    let cursors := (List.range 16).map fun i => (hdr ws (0x320 + 16 * i), hdr ws (0x328 + 16 * i))
    let order := fun (i : Nat) => fld (cursors.getD i (0, 0)).1 35 28
    let open' := (List.range 16).filter fun i => bitAt (cursors.getD i (0, 0)).1 63
    let s2 := (sortBy order open').foldl (fun (s : State) i =>
      let w := cursors.getD i (0, 0)
      s.installChain c w.1 w.2) s1
    let arrived := (lanesOf (BitVec.ofNat 32 (fld (hdr ws 0x030) 31 0))).map fun l => (s2.thread (laneKey c l)).ids.gang.toNat
    s2.modGang cr.seq fun g => { g with arrived := g.arrived ++ arrived }

/-- Addresses of the crew frames of a core's section. -/
def State.frameAddrs (s : State) : Nat → Nat → List Nat
  | 0, _ => []
  | n + 1, a => a :: State.frameAddrs s n (a + fld (s.peekWord a) 31 16 * 4096)

/-- A core's section (type 0x10; R319), but for its handles, with each crew's key and the frame that it came from. -/
def State.restoreCore (s : State) (p : Placed) (rooms : List (List Word)) : State × List (Nat × Nat) :=
  let n := p.unit
  let w := fun (off : Nat) => s.imageWord (p.off + off)
  let base := s.imageBase + p.off
  let low := fun (off : Nat) => fld (w off) 47 0
  let books := (List.range 64).map fun i => (i, codebookOf (s.peekBytes (base + 0x80 + 48 * i) 48))
  let counters : CoreCounters := ⟨low 0x10, low 0x18, low 0x20, low 0x28, (w 0x30).toNat, (w 0x38).toNat⟩
  let s1 := s.modCore n fun c => { Core.zero with
    partWord := w 0, counters := counters, regroups := c.regroups,
    engines := { CoreEngines.zero with railLevel := fld (w 8) 1 0, codebooks := (books.filter fun b => b.2.valid) } }
  -- in rising order of CIDX (R354)
  let frames := sortBy (fun f => fld (hdr (s1.frameHeader f) 0x010) 23 15) (s1.frameAddrs (w 0x40).toNat (base + 0x5000))
  frames.foldl (fun (q : State × List (Nat × Nat)) f =>
    let ws := q.1.frameHeader f
    let mine := rooms.find? fun r => nat r 0 == fld (hdr ws 0x008) 47 0 && nat r 1 == fld (hdr ws 0x010) 23 15
    let s2 := q.1.installCrew f (((mine.map fun r => nat r 2)).getD 0) 0 ((mine.map fun r => nat r 3 != 0).getD false)
    (s2, if s2.nxt.crew = q.1.nxt.crew then q.2 else q.2 ++ [(q.1.nxt.crew, f)])) (s1, [])

/-- A core's handle table, once every crew is there. -/
def State.restoreHandles (s : State) (p : Placed) : State :=
  let handles := (List.range 256).filterMap fun i =>
    let ws := (List.range 8).map fun j => s.imageWord (p.off + 0xC80 + 64 * i + 8 * j)
    if ws.getD 0 0 = 0 then none else some (i, s.handleOfWords p.unit ws)
  s.modCore p.unit fun c => { c with engines := { c.engines with handles := handles } }

/-! #### Saved crews, escalated threads, ports, network engines, memory, latency cores -/

/-- A crew that stood in a frame of the save area. -/
def State.installSaved (s : State) (f : Nat) (faulted : Bool) : State :=
  let ws := s.frameHeader f
  let key := s.nxt.crew
  let cr0 := s.crewOfHeader ws Crew.blank
  let cr := { cr0 with place := .saved f, frame := f, faulted := faulted }
  let s1 := { s with crews := s.crews.set key cr, nxt := { s.nxt with crew := key + 1 } }
  (s.frameLanes f).zipIdx.foldl (fun (s : State) e =>
    if !bitAt (hdr e.1 0x208) 31 then s
    else
      let t := Thread.ofLane e.1 none cr e.2 0 (s.nxt.age + ageRank ws e.2)
      s.setThread (laneKey key e.2) { t with st := { t.st with live := false } }) s1

/-- The SIMT thread of a gang with a gang index. -/
def State.laneByName (s : State) (seq gang : Nat) : Option Nat :=
  (s.threads.find? fun e => decide (256 ≤ e.1) && e.2.ids.seq == seq && e.2.ids.gang.toNat == gang).map (·.1)

/-- The saved crews of a die. -/
def State.restoreSaved (s : State) (x : DieImage) : State :=
  x.saved.foldl (fun (s : State) e => s.installSaved (nat e 0) (nat e 1 != 0)) s

/-- Mappings, chains, arrivals and commands of crews, once every crew is there: each with the frame that it came from. -/
def State.finishCrews (s : State) (frames : List (Nat × Nat)) : State :=
  frames.foldl (fun (s : State) e => (s.finishCrew e.1 e.2).namePcs e.1) s

/-- What stands in a die's lists about single threads. -/
def State.restoreThreads (s : State) (d : Nat) (x : DieImage) : State :=
  let esc := x.escalated.filterMap fun e => (s.laneByName (nat e 1) (nat e 2)).map fun k => (nat e 0, k)
  let ret := x.returning.filterMap fun e => s.laneByName (nat e 0) (nat e 1)
  let s2 := s.modDie d fun y => { y with escalated := esc, returning := ret }
  -- the image says what the threads of a die hold
  let mine := (s2.threads.filter fun x => !isLat x.1 && s2.coreOf x.1 / Config.coresPerDie == d).map (·.1)
  let s3 := mine.foldl (fun s k => s.modThread k fun t => t.withHeld [] []) s2
  let hold := fun (f : Thread → Word → Thread) (s : State) (e : List Word) =>
    let named := s.threads.filter fun x => x.2.ids.seq == nat e 0 && x.2.ids.gang.toNat == nat e 1
    (named.map (·.1)).foldl (fun (s : State) k => s.modThread k fun t => f t (e.getD 2 0)) s
  let s4 := x.signals.foldl (hold fun t v => t.withHeld (t.signals ++ [v]) t.failures) s3
  let s5 := x.failures.foldl (hold fun t v => t.withHeld t.signals (t.failures ++ [v])) s4
  -- the tiles of the epilogue chains that a stop has interrupted (R229, R322)
  x.tiles.foldl (fun (s : State) w =>
    let named := s.chains.filter fun e => e.2.engine == 1 && s.headerOff e.2 == nat w 2
      && ((e.2.crew.bind s.crews.find).any fun cr => cr.seq == nat w 0 && cr.cidx == nat w 1)
    named.foldl (fun s e => s.putChain e.1 { e.2 with tiles := tilesOfWords w }) s) s5

def State.restoreLink (s : State) (l : Link) (p : Placed) : State :=
  let w := s.placedWords p
  let flit := fun (i : Nat) => flitOf (s.imageBytes (p.off + 24 + 256 * i) 256)
  let k := nat w 1
  s.setLink l { s.link l with
    last := (w.getD 0 0).setWidth 16, sent := BitVec.ofNat 16 (nat w 0 / 2 ^ 16), kept := (List.range k).map flit, retry := (List.range (nat w 2)).map fun i => flit (k + i) }

/-- The key of the thread that a chain counts, from its name in the image. -/
def State.keyOfWords (s : State) (w : List Word) : List Nat :=
  if nat w 0 = 0 then [2 ^ 64 + nat w 1] else (s.laneByName (nat w 1) (nat w 2)).toList

/-- A chain that a hardware thread started, stopped as it was. -/
def State.chainOfWords (s : State) (e : Nat) (w : List Word) (order : Nat) : Chain :=
  { engine := 2, unit := 384 + e, addr := w.getD 0 0, crew := none, counting := s.keyOfWords (w.drop 1), asid := nat w 4,
    sup := w.getD 5 0 != 0, ctx := ctxOfWords (w.drop 14), scope := scopeOfCode (nat w 6), state := nat w 7, idx := nat w 8,
    order := order, cause := nat w 10, zsub := nat w 11, fault := w.getD 12 0, done := nat w 13, tiles := .none }

/-- The chain that a packet names: `base` is the key of the section's first chain. -/
def State.chainNamed (s : State) (base : Nat) (w : List Word) : Nat :=
  if nat w 0 = 0 then base + nat w 1
  else ((s.chains.find? fun e => e.2.engine == 2 && s.headerOff e.2 == nat w 3
    && (e.2.crew.bind s.crews.find).any fun cr => cr.seq == nat w 1 && cr.cidx == nat w 2).map (·.1)).getD base

/-- Packets of a section, one after another. -/
def State.packetsOf (s : State) (base : Nat) : Nat → List Word → List Packet × List Word
  | 0, w => ([], w)
  | n + 1, w =>
    let len := nat w 14
    let k := ceilDiv len 8
    let data := ((w.drop 15).take k).flatMap fun x => natBytes 8 x.toNat
    let p : Packet := ⟨s.chainNamed base w, nat w 4, s.nxt.packet + nat w 5, nat w 6, w.getD 7 0 != 0, nat w 8, w.getD 9 0, nat w 10,
      data.take len, w.getD 11 0, nat w 12, w.getD 13 0 != 0, true⟩
    let r := State.packetsOf s base n (w.drop (15 + k))
    (p :: r.1, r.2)

/-- What stands beside the frame of a latency thread. -/
def State.absentWith (s : State) (tid : Word) (f : Thread → Thread) : State :=
  let k := 2 ^ 64 + tid.toNat
  { s with absent := s.absent.set k (f (s.absent.get k { Thread.zero with ids := { ThreadIds.zero with tid := tid } })) }

/-- A network engine's section. -/
def State.restoreNet (s : State) (p : Placed) : State :=
  let cs := takeCounted 20 (s.placedWords p)
  let base := s.nxt.chain
  let s1 := cs.1.foldl (fun (s : State) w =>
    { s with chains := s.chains.set s.nxt.chain (s.chainOfWords p.unit w s.nxt.chain), nxt := { s.nxt with chain := s.nxt.chain + 1 } }) s
  let ps := s1.packetsOf base (min (nat cs.2 0) cs.2.length) (cs.2.drop 1)
  let s2 := ps.1.foldl (fun (s : State) x =>
    { s with packets := s.packets.set s.nxt.packet x, nxt := { s.nxt with packet := s.nxt.packet + 1 } }) s1
  let sus := takeCounted 2 ps.2
  let cur := takeCounted 2 sus.2
  let oc := takeCounted 5 cur.2
  let sig := takeCounted 2 oc.2
  let fail := takeCounted 2 sig.2
  let s3 := s2.setNet p.unit { s2.net p.unit with suspended := sus.1.map fun e => (nat e 0, e.getD 1 0) }
  let s4 := { s3 with cursors := cur.1.foldl (fun (m : AMap Nat) e => m.set (nat e 0) (nat e 1)) s3.cursors }
  let s5 := oc.1.foldl (fun (s : State) e => s.absentWith (e.getD 0 0) fun t => { t with oc := ⟨nat e 1, nat e 2, nat e 3, nat e 4⟩ }) s4
  let s6 := sig.1.foldl (fun (s : State) e => s.absentWith (e.getD 0 0) fun t => { t with signals := t.signals ++ [e.getD 1 0] }) s5
  fail.1.foldl (fun (s : State) e => s.absentWith (e.getD 0 0) fun t => { t with failures := t.failures ++ [e.getD 1 0] }) s6

/-- The page records of a section: (physical address, key id, offset of the bytes, length). -/
def State.pagesIn (s : State) (last : Nat) : Nat → Nat → List (Nat × Nat × Nat × Nat)
  | 0, _ => []
  | fuel + 1, off =>
    if last ≤ off then []
    else
      let n := (s.imageWord (off + 16)).toNat
      (fld (s.imageWord off) 51 0, fld (s.imageWord (off + 8)) 5 0, off + 32, n) :: State.pagesIn s last fuel (off + 32 + n)

def State.restoreMemory (s : State) (p : Placed) : State :=
  let ps := s.pagesIn (p.off + p.len) (p.len / 32) p.off
  ps.foldl (fun (s' : State) e => s'.pokeBytes hwAgent e.1 (s.imageBytes e.2.2.1 e.2.2.2) e.2.1) s

/-- A latency core's two hardware threads. -/
def State.restoreHarts (s : State) (p : Placed) : State :=
  [0, 1].foldl (fun (s : State) j =>
    let f := s.imageBase + p.off + 1024 * j
    if s.frameValid f then s.loadHart (2 * p.unit + j) f else s) s

/-- The image installed (R322). Page records are written before what stands in a save area is read; then come the crews,
saved and on their cores, what names a crew, and last the hardware threads and the members of the rings. -/
def State.install (s : State) : State :=
  let dies := (s.placedOf 0x20).map fun p => (p.unit, dieImage (s.placedWords p))
  let lats := s.placedOf 1
  let s1 := { s with nxt := { s.nxt with gang := fld (s.imageWord 0x18) 47 0 } }.restoreContexts
  let s2 := (s1.placedOf 0x40).foldl State.restoreMemory s1
  let s3 := dies.foldl (fun (s : State) e => s.restoreDie e.1 e.2) s2
  let s4 := dies.foldl (fun (s : State) e => s.restoreSaved e.2) s3
  let saved := s4.crews.map fun e => (e.1, e.2.frame)
  let rooms := fun (p : Placed) => ((dies.find? fun e => e.1 == p.unit / Config.coresPerDie).map fun e => e.2.rooms).getD []
  let q := (s4.placedOf 0x10).foldl (fun (q : State × List (Nat × Nat)) p =>
    let r := q.1.restoreCore p (rooms p)
    (r.1, q.2 ++ r.2)) (s4, saved)
  let s5 := (q.1.placedOf 0x10).foldl State.restoreHandles (q.1.finishCrews q.2)
  let s6 := dies.foldl (fun (s : State) e => s.restoreThreads e.1 e.2) s5
  let s7 := (s6.placedOf 0x30).foldl (fun (s : State) p => s.restoreLink (.herpin p.unit) p) s6
  let s8 := (s7.placedOf 0x31).foldl (fun (s : State) p => s.restoreLink (.ucie p.unit) p) s7
  let idle := (List.range Config.harts).foldl State.idleHart s8
  let s9 := (idle.placedOf 0x32).foldl State.restoreNet { idle with absent := [] }
  let s10 := lats.foldl State.restoreHarts s9
  let s11 := (List.range Config.simtDies).foldl State.dropContexts s10
  (List.range Config.simtDies).foldl State.refreshRing s11

def execRestore (s : State) : Out :=
  .next (if !s.command 3 then s
    else if !s.pkg.qsd then s.endCommand 1
    else if !s.holdsNothing then s.endCommand 7
    else
      let r := s.imageCheck
      if r = 0 then s.install.endCommand 0 else s.endCommand r)

/-! ### RESUME (R314, R316) -/

/-- Flits kept at the stop are delivered first, in order; then the transmitter replays from the last number acknowledged. -/
def State.deliverKept (s : State) (l : Link) : State :=
  let p := s.link l
  (p.kept.foldl (fun (s : State) f => s.receive l f) (s.setLink l { p with kept := [] })).resend l

/-- A resident crew goes on: the commands that an image gave it enter the queue, its chains run. -/
def State.goOn (s : State) (e : Nat × Crew) : State :=
  if e.2.place == .resident then (s.reenter e.1).resumeChains e.1 else s

/-- Chains of hardware threads run on. -/
def State.resumeHartChains (s : State) : State :=
  s.chains.foldl (fun (s : State) e =>
    if e.2.crew.isNone && e.2.state == 5 then s.putChain e.1 { e.2 with state := 1 } else s) s

def execResume (s : State) : Out :=
  .next (if !s.command 4 then s
    else if !s.pkg.qsd then s.endCommand 1
    else
      let s1 := { s with pkg := { s.pkg with qsd := false } }.endCommand 0
      let links := (s1.ports.map fun e => Link.herpin e.1) ++ s1.links.map fun e => Link.ucie e.1
      let s2 := links.foldl State.deliverKept s1
      (s2.crews.foldl State.goOn s2).resumeHartChains)

end Sys2Proof.Machine
end

