-- ==== Sys2Proof/Machine/Dispatch.lean ====
section
/-!
DEFINITION. The meaning of every constructor of `Instr`, one arm each: spec/opcode_table.json row by row.
-/
namespace Sys2Proof.Machine

def exec (i : Instr) (s : State) : Host.Outcome State Fault Refusal :=
  match i with
  | .add g d a b => Sys2Proof.Machine.execAdd g d a b s
  | .sub g d a b => Sys2Proof.Machine.execSub g d a b s
  | .addw g d a b => Sys2Proof.Machine.execAddw g d a b s
  | .subw g d a b => Sys2Proof.Machine.execSubw g d a b s
  | .and g d a b => Sys2Proof.Machine.execAnd g d a b s
  | .or g d a b => Sys2Proof.Machine.execOr g d a b s
  | .xor g d a b => Sys2Proof.Machine.execXor g d a b s
  | .shl g d a b => Sys2Proof.Machine.execShl g d a b s
  | .shr g d a b => Sys2Proof.Machine.execShr g d a b s
  | .sra g d a b => Sys2Proof.Machine.execSra g d a b s
  | .min g d a b => Sys2Proof.Machine.execMin g d a b s
  | .max g d a b => Sys2Proof.Machine.execMax g d a b s
  | .minu g d a b => Sys2Proof.Machine.execMinu g d a b s
  | .maxu g d a b => Sys2Proof.Machine.execMaxu g d a b s
  | .slt g d a b => Sys2Proof.Machine.execSlt g d a b s
  | .sltu g d a b => Sys2Proof.Machine.execSltu g d a b s
  | .sel g d a b n => Sys2Proof.Machine.execSel g d a b n s
  | .lea g d a b sh => Sys2Proof.Machine.execLea g d a b sh s
  | .sext g d a n => Sys2Proof.Machine.execSext g d a n s
  | .zext g d a n => Sys2Proof.Machine.execZext g d a n s
  | .clz g d a => Sys2Proof.Machine.execClz g d a s
  | .popc g d a => Sys2Proof.Machine.execPopc g d a s
  | .brev g d a => Sys2Proof.Machine.execBrev g d a s
  | .bfx g d a pos len => Sys2Proof.Machine.execBfx g d a pos len s
  | .bfi g d a b pos len => Sys2Proof.Machine.execBfi g d a b pos len s
  | .mul g d a b => Sys2Proof.Machine.execMul g d a b s
  | .mulh g d a b => Sys2Proof.Machine.execMulh g d a b s
  | .mulhu g d a b => Sys2Proof.Machine.execMulhu g d a b s
  | .div g d a b => Sys2Proof.Machine.execDiv g d a b s
  | .divu g d a b => Sys2Proof.Machine.execDivu g d a b s
  | .rem g d a b => Sys2Proof.Machine.execRem g d a b s
  | .remu g d a b => Sys2Proof.Machine.execRemu g d a b s
  | .addi g d a imm => Sys2Proof.Machine.execAddi g d a imm s
  | .andi g d a imm => Sys2Proof.Machine.execAndi g d a imm s
  | .ori g d a imm => Sys2Proof.Machine.execOri g d a imm s
  | .xori g d a imm => Sys2Proof.Machine.execXori g d a imm s
  | .shli g d a n => Sys2Proof.Machine.execShli g d a n s
  | .shri g d a n => Sys2Proof.Machine.execShri g d a n s
  | .srai g d a n => Sys2Proof.Machine.execSrai g d a n s
  | .slti g d a imm => Sys2Proof.Machine.execSlti g d a imm s
  | .movi g d imm => Sys2Proof.Machine.execMovi g d imm s
  | .movhi g d imm => Sys2Proof.Machine.execMovhi g d imm s
  | .pcmp g cc d a b => Sys2Proof.Machine.execPcmp g cc d a b s
  | .pcmpi g cc d a imm => Sys2Proof.Machine.execPcmpi g cc d a imm s
  | .plop g d a b c lut => Sys2Proof.Machine.execPlop g d a b c lut s
  | .fcmp g cc t d a b => Sys2Proof.Machine.execFcmp g cc t d a b s
  | .fadd g t rm d a b => Sys2Proof.Machine.execFadd g t rm d a b s
  | .fsub g t rm d a b => Sys2Proof.Machine.execFsub g t rm d a b s
  | .fmul g t rm d a b => Sys2Proof.Machine.execFmul g t rm d a b s
  | .ffma g t rm d a b c => Sys2Proof.Machine.execFfma g t rm d a b c s
  | .fmin g t d a b => Sys2Proof.Machine.execFmin g t d a b s
  | .fmax g t d a b => Sys2Proof.Machine.execFmax g t d a b s
  | .fdiv g t rm d a b => Sys2Proof.Machine.execFdiv g t rm d a b s
  | .fsqrt g t rm d a => Sys2Proof.Machine.execFsqrt g t rm d a s
  | .frcp g t rm d a => Sys2Proof.Machine.execFrcp g t rm d a s
  | .frsq g t rm d a => Sys2Proof.Machine.execFrsq g t rm d a s
  | .fexp2 g t rm d a => Sys2Proof.Machine.execFexp2 g t rm d a s
  | .flog2 g t rm d a => Sys2Proof.Machine.execFlog2 g t rm d a s
  | .fclass g t d a => Sys2Proof.Machine.execFclass g t d a s
  | .fcvt g dst src rm d a => Sys2Proof.Machine.execFcvt g dst src rm d a s
  | .icvt g toFloat f ic rm d a => Sys2Proof.Machine.execIcvt g toFloat f ic rm d a s
  | .pcvt g dst src rm part d a => Sys2Proof.Machine.execPcvt g dst src rm part d a s
  | .pfma g t rm d a b c => Sys2Proof.Machine.execPfma g t rm d a b c s
  | .pdot g t rm d a b c => Sys2Proof.Machine.execPdot g t rm d a b c s
  | .shfl g m d a b c => Sys2Proof.Machine.execShfl g m d a b c s
  | .vote g m ps d a c => Sys2Proof.Machine.execVote g m ps d a c s
  | .redb g op dbl rm d a c => Sys2Proof.Machine.execRedb g op dbl rm d a c s
  | .scanb g exc op dbl rm d a c => Sys2Proof.Machine.execScanb g exc op dbl rm d a c s
  | .ld g sz sx o sc d a off => Sys2Proof.Machine.execLd g sz sx o sc d a off s
  | .st g sz o sc d a off => Sys2Proof.Machine.execSt g sz o sc d a off s
  | .amoAdd g sz o sc d a b => Sys2Proof.Machine.execAmoAdd g sz o sc d a b s
  | .amoAnd g sz o sc d a b => Sys2Proof.Machine.execAmoAnd g sz o sc d a b s
  | .amoOr g sz o sc d a b => Sys2Proof.Machine.execAmoOr g sz o sc d a b s
  | .amoXor g sz o sc d a b => Sys2Proof.Machine.execAmoXor g sz o sc d a b s
  | .amoMin g sz o sc d a b => Sys2Proof.Machine.execAmoMin g sz o sc d a b s
  | .amoMax g sz o sc d a b => Sys2Proof.Machine.execAmoMax g sz o sc d a b s
  | .amoMinu g sz o sc d a b => Sys2Proof.Machine.execAmoMinu g sz o sc d a b s
  | .amoMaxu g sz o sc d a b => Sys2Proof.Machine.execAmoMaxu g sz o sc d a b s
  | .amoSwap g sz o sc d a b => Sys2Proof.Machine.execAmoSwap g sz o sc d a b s
  | .amoFadd g o sc d a b => Sys2Proof.Machine.execAmoFadd g o sc d a b s
  | .cas g sz o sc d a b c => Sys2Proof.Machine.execCas g sz o sc d a b c s
  | .pref g k a off => Sys2Proof.Machine.execPref g k a off s
  | .fence g f => Sys2Proof.Machine.execFence g f s
  | .tfence g => Sys2Proof.Machine.execTfence g s
  | .opfence g => Sys2Proof.Machine.execOpfence g s
  | .ifence g => Sys2Proof.Machine.execIfence g s
  | .cwb g sc a off => Sys2Proof.Machine.execCwb g sc a off s
  | .cinv g sc a off => Sys2Proof.Machine.execCinv g sc a off s
  | .icinv g sc a off => Sys2Proof.Machine.execIcinv g sc a off s
  | .br g h off => Sys2Proof.Machine.execBr g h off s
  | .jal g call d off => Sys2Proof.Machine.execJal g call d off s
  | .jalr g h d a imm => Sys2Proof.Machine.execJalr g h d a imm s
  | .joinEnr g n => Sys2Proof.Machine.execJoinEnr g n s
  | .joinWait g n => Sys2Proof.Machine.execJoinWait g n s
  | .joinStrike g n => Sys2Proof.Machine.execJoinStrike g n s
  | .joinRst g n => Sys2Proof.Machine.execJoinRst g n s
  | .yield g => Sys2Proof.Machine.execYield g s
  | .yieldH g => Sys2Proof.Machine.execYieldH g s
  | .exit g => Sys2Proof.Machine.execExit g s
  | .bkoff g => Sys2Proof.Machine.execBkoff g s
  | .nop g => Sys2Proof.Machine.execNop g s
  | .waitc g ld st cp tile => Sys2Proof.Machine.execWaitc g ld st cp tile s
  | .cbwait g d k => Sys2Proof.Machine.execCbwait g d k s
  | .cbwaitProd g d k => Sys2Proof.Machine.execCbwaitProd g d k s
  | .cbpop g k => Sys2Proof.Machine.execCbpop g k s
  | .cbpush g k => Sys2Proof.Machine.execCbpush g k s
  | .migrateTosimt g d a => Sys2Proof.Machine.execMigrateTosimt g d a s
  | .migrateTolat g d => Sys2Proof.Machine.execMigrateTolat g d s
  | .gbar g => Sys2Proof.Machine.execGbar g s
  | .gbarClose seq core => Sys2Proof.Machine.execGbarClose seq core s
  | .grow g n8 => Sys2Proof.Machine.execGrow g n8 s
  | .growGrant k => Sys2Proof.Machine.execGrowGrant k s
  | .shrink g n8 => Sys2Proof.Machine.execShrink g n8 s
  | .shmap g d a t count => Sys2Proof.Machine.execShmap g d a t count s
  | .setf g d a => Sys2Proof.Machine.execSetf g d a s
  | .takef g d a => Sys2Proof.Machine.execTakef g d a s
  | .scall g n => Sys2Proof.Machine.execScall g n s
  | .scallOv g n v => Sys2Proof.Machine.execScallOv g n v s
  | .scallNs g n => Sys2Proof.Machine.execScallNs g n s
  | .scallReply num v => Sys2Proof.Machine.execScallReply num v s
  | .serviceTimeout k => Sys2Proof.Machine.execServiceTimeout k s
  | .fidset g n => Sys2Proof.Machine.execFidset g n s
  | .mmaT g m a b => Sys2Proof.Machine.execMmaT g m a b s
  | .mmaK g m a b => Sys2Proof.Machine.execMmaK g m a b s
  | .mmaStart core => Sys2Proof.Machine.execMmaStart core s
  | .mmaCompletion core => Sys2Proof.Machine.execMmaCompletion core s
  | .horizonRailSwitch core => Sys2Proof.Machine.execHorizonRailSwitch core s
  | .radv g ring => Sys2Proof.Machine.execRadv g ring s
  | .radvCloseStart core => Sys2Proof.Machine.execRadvCloseStart core s
  | .radvCfg g d ring ln => Sys2Proof.Machine.execRadvCfg g d ring ln s
  | .radvTail g d ring => Sys2Proof.Machine.execRadvTail g d ring s
  | .radvRel g ring => Sys2Proof.Machine.execRadvRel g ring s
  | .radvFree g ring => Sys2Proof.Machine.execRadvFree g ring s
  | .kalloc g crew ar d a => Sys2Proof.Machine.execKalloc g crew ar d a s
  | .kfill g d a b => Sys2Proof.Machine.execKfill g d a b s
  | .fillStart core => Sys2Proof.Machine.execFillStart core s
  | .fillCompletion core => Sys2Proof.Machine.execFillCompletion core s
  | .kpin g a => Sys2Proof.Machine.execKpin g a s
  | .kpinOff g a => Sys2Proof.Machine.execKpinOff g a s
  | .krev g a => Sys2Proof.Machine.execKrev g a s
  | .kstat g d a => Sys2Proof.Machine.execKstat g d a s
  | .cbkld g d a b slot => Sys2Proof.Machine.execCbkld g d a b slot s
  | .engoCopy g sc a => Sys2Proof.Machine.execEngoCopy g sc a s
  | .engoEpi g sc a => Sys2Proof.Machine.execEngoEpi g sc a s
  | .engoNet g die1 sc a => Sys2Proof.Machine.execEngoNet g die1 sc a s
  | .engq g d a => Sys2Proof.Machine.execEngq g d a s
  | .sysrd g r d => Sys2Proof.Machine.execSysrd g r d s
  | .syswr g r a => Sys2Proof.Machine.execSyswr g r a s
  | .eret g => Sys2Proof.Machine.execEret g s
  | .trap g n => Sys2Proof.Machine.execTrap g n s
  | .bkpt g n => Sys2Proof.Machine.execBkpt g n s
  | .tlbinvPg g a b sz => Sys2Proof.Machine.execTlbinvPg g a b sz s
  | .tlbinvAs g b => Sys2Proof.Machine.execTlbinvAs g b s
  | .tlbinvAll g => Sys2Proof.Machine.execTlbinvAll g s
  | .tlbinvPga g a sz => Sys2Proof.Machine.execTlbinvPga g a sz s
  | .sleep g => Sys2Proof.Machine.execSleep g s
  | .escalation k => Sys2Proof.Machine.execEscalation k s
  | .signalDelivery k => Sys2Proof.Machine.execSignalDelivery k s
  | .intr hart => Sys2Proof.Machine.execIntr hart s
  | .watchdog crew => Sys2Proof.Machine.execWatchdog crew s
  | .regroup core => Sys2Proof.Machine.execRegroup core s
  | .bkoffHoldExpiry k => Sys2Proof.Machine.execBkoffHoldExpiry k s
  | .yieldHExpiry k => Sys2Proof.Machine.execYieldHExpiry k s
  | .loadSectorReturn id => Sys2Proof.Machine.execLoadSectorReturn id s
  | .atomicReply id => Sys2Proof.Machine.execAtomicReply id s
  | .storePerformed id => Sys2Proof.Machine.execStorePerformed id s
  | .fanIn seq => Sys2Proof.Machine.execFanIn seq s
  | .gangPlacement seq => Sys2Proof.Machine.execGangPlacement seq s
  | .handlerTaskPlacement task => Sys2Proof.Machine.execHandlerTaskPlacement task s
  | .preemption core asid => Sys2Proof.Machine.execPreemption core asid s
  | .shadowSwitch core => Sys2Proof.Machine.execShadowSwitch core s
  | .drainingSwitch core => Sys2Proof.Machine.execDrainingSwitch core s
  | .leachSpill core => Sys2Proof.Machine.execLeachSpill core s
  | .leachPrefill core asid => Sys2Proof.Machine.execLeachPrefill core asid s
  | .pageFaultSave crew => Sys2Proof.Machine.execPageFaultSave crew s
  | .faultWordClear asid region => Sys2Proof.Machine.execFaultWordClear asid region s
  | .crewRestore crew => Sys2Proof.Machine.execCrewRestore crew s
  | .chainUnblock chain => Sys2Proof.Machine.execChainUnblock chain s
  | .copy chain => Sys2Proof.Machine.execCopy chain s
  | .gather chain => Sys2Proof.Machine.execGather chain s
  | .scatter chain => Sys2Proof.Machine.execScatter chain s
  | .loop chain => Sys2Proof.Machine.execLoop chain s
  | .ifEntry chain => Sys2Proof.Machine.execIfEntry chain s
  | .signal chain => Sys2Proof.Machine.execSignal chain s
  | .endEntry chain => Sys2Proof.Machine.execEndEntry chain s
  | .take chain => Sys2Proof.Machine.execTake chain s
  | .release chain => Sys2Proof.Machine.execRelease chain s
  | .scale chain => Sys2Proof.Machine.execScale chain s
  | .bias chain => Sys2Proof.Machine.execBias chain s
  | .act chain => Sys2Proof.Machine.execAct chain s
  | .cvt chain => Sys2Proof.Machine.execCvt chain s
  | .store chain => Sys2Proof.Machine.execStore chain s
  | .nsend chain => Sys2Proof.Machine.execNsend chain s
  | .nput chain => Sys2Proof.Machine.execNput chain s
  | .nget chain => Sys2Proof.Machine.execNget chain s
  | .chainEnd chain => Sys2Proof.Machine.execChainEnd chain s
  | .packetAck pkt => Sys2Proof.Machine.execPacketAck pkt s
  | .transportTimeout pkt => Sys2Proof.Machine.execTransportTimeout pkt s
  | .memoryTimeout access => Sys2Proof.Machine.execMemoryTimeout access s
  | .gets m => Sys2Proof.Machine.execGets m s
  | .getm m => Sys2Proof.Machine.execGetm m s
  | .upg m => Sys2Proof.Machine.execUpg m s
  | .kget m => Sys2Proof.Machine.execKget m s
  | .rdonce m => Sys2Proof.Machine.execRdonce m s
  | .wr m => Sys2Proof.Machine.execWr m s
  | .homeAtomic m => Sys2Proof.Machine.execHomeAtomic m s
  | .putm arrive agent line => Sys2Proof.Machine.execPutm arrive agent line s
  | .puto arrive agent line => Sys2Proof.Machine.execPuto arrive agent line s
  | .pute arrive agent line => Sys2Proof.Machine.execPute arrive agent line s
  | .puts arrive agent line => Sys2Proof.Machine.execPuts arrive agent line s
  | .putack m => Sys2Proof.Machine.execPutack m s
  | .fwds m => Sys2Proof.Machine.execFwds m s
  | .fwdm m => Sys2Proof.Machine.execFwdm m s
  | .fwddone m => Sys2Proof.Machine.execFwddone m s
  | .nodata m => Sys2Proof.Machine.execNodata m s
  | .wbpending m => Sys2Proof.Machine.execWbpending m s
  | .invalidation m => Sys2Proof.Machine.execInvalidation m s
  | .acknowledgement m => Sys2Proof.Machine.execAcknowledgement m s
  | .grant m => Sys2Proof.Machine.execGrant m s
  | .retry m => Sys2Proof.Machine.execRetry m s
  | .queuedRequestDequeue line => Sys2Proof.Machine.execQueuedRequestDequeue line s
  | .promote m => Sys2Proof.Machine.execPromote m s
  | .migstart die v => Sys2Proof.Machine.execMigstart die v s
  | .migrationLineCopy die => Sys2Proof.Machine.execMigrationLineCopy die s
  | .migrel die v => Sys2Proof.Machine.execMigrel die v s
  | .siltCompress unit => Sys2Proof.Machine.execSiltCompress unit s
  | .siltExpansion unit => Sys2Proof.Machine.execSiltExpansion unit s
  | .coreWake core => Sys2Proof.Machine.execCoreWake core s
  | .rcinv die v => Sys2Proof.Machine.execRcinv die v s
  | .returnStore die v => Sys2Proof.Machine.execReturnStore die v s
  | .sigctl die v => Sys2Proof.Machine.execSigctl die v s
  | .htload by' hart v => Sys2Proof.Machine.execHtload by' hart v s
  | .iset hart v => Sys2Proof.Machine.execIset hart v s
  | .hostdb v => Sys2Proof.Machine.execHostdb v s
  | .reply num v => Sys2Proof.Machine.execReply num v s
  | .counterClear off v => Sys2Proof.Machine.execCounterClear off v s
  | .controlRegisterWrite off v => Sys2Proof.Machine.execControlRegisterWrite off v s
  | .reservedMajorOpcode w => Sys2Proof.Machine.execReservedMajorOpcode w s
  | .packetNack pkt => Sys2Proof.Machine.execPacketNack pkt s
  | .transportRetransmission pkt => Sys2Proof.Machine.execTransportRetransmission pkt s
  | .suspendedContextResume net asid => Sys2Proof.Machine.execSuspendedContextResume net asid s
  | .asidFlush core asid => Sys2Proof.Machine.execAsidFlush core asid s
  | .resetRelease => Sys2Proof.Machine.execResetRelease s
  | .quiesce => Sys2Proof.Machine.execQuiesce s
  | .quiesceComplete => Sys2Proof.Machine.execQuiesceComplete s
  | .image => Sys2Proof.Machine.execImage s
  | .restore => Sys2Proof.Machine.execRestore s
  | .resume => Sys2Proof.Machine.execResume s
  | .herpinFlit => Sys2Proof.Machine.execHerpinFlit s
  | .linkTimeout => Sys2Proof.Machine.execLinkTimeout s
  | .herpinPortUp => Sys2Proof.Machine.execHerpinPortUp s
  | .spdmRequest => Sys2Proof.Machine.execSpdmRequest s
  | .temperatureLimit => Sys2Proof.Machine.execTemperatureLimit s
  | .powerThrottle => Sys2Proof.Machine.execPowerThrottle s
  | .packetPlacement => Sys2Proof.Machine.execPacketPlacement s
  | .activeMessageArrival => Sys2Proof.Machine.execActiveMessageArrival s
  | .ngetRequest => Sys2Proof.Machine.execNgetRequest s
  | .quietEpoch => Sys2Proof.Machine.execQuietEpoch s
  | .schedulingTick => Sys2Proof.Machine.execSchedulingTick s
  | .timerCompare => Sys2Proof.Machine.execTimerCompare s

end Sys2Proof.Machine
end

