-- ==== Sys2Proof/Machine/Outside.lean ====
section
/-!
DEFINITION. What the outside does to the package beside the rows of the table (log 5): upsets and soft errors (02 R84; 03 R113;
04 R151), accesses that no unit answers (11 R296), throttle events (04 R152), the host's accesses to HBM (06 R175; 12 R324),
its loads of control space (12 R326), the accesses of other packages (05 R172; 12 R333, R334), the management interface's reads of
directory entries (06 R180), flits over links (11 R314), stages of firmware (12 R343), and a gang that the supervisor ends
(01 R46; 04 R138; 05 R166).
-/
namespace Sys2Proof.Machine

/-- The host's access through its HDM decoder (R324): offset x of the decoder is row-view physical address x, within one
line of installed HBM. -/
def hostReaches (x n : Nat) : Bool := decide (x + n ≤ Config.hbmBytes) && decide (x % 128 + n ≤ 128) && n != 0

/-- Such an access that need not wait for a frame of the Silt pool (R168). -/
def State.outerReach (s : State) (x n : Nat) : Bool := hostReaches x n && s.siltReady x

/-- The host loads as agent 512, which keeps a copy in S or E (R175); the lines are read under key id 0 (log 56). -/
def State.hostLoad (s : State) (x n : Nat) : State :=
  if !s.outerReach x n then s
  else
    let r := (s.siltTouch x).readPage Config.hostAgent 0 (flatPage x) x n
    { r.1 with outputs := r.1.outputs ++ [.hostData r.2] }

/-- The host stores into a copy that it holds in M (R175). -/
def State.hostStore (s : State) (x : Nat) (bs : List Byte) : State :=
  if s.outerReach x bs.length then (s.siltTouch x).writePage Config.hostAgent 0 (flatPage x) x bs else s

/-- The host loads a register, or the unit directory, through BAR 0 (R326, R327). -/
def State.hostControl (s : State) (x n : Nat) : State :=
  let v : Word := if n = 8 ∧ x % 8 = 0 ∧ x < 2 ^ 32 then s.ctlRead x else 0
  { s with outputs := s.outputs ++ [.hostData (some (natBytes n v.toNat))] }

/-! ### Accesses of other packages, at their home (R172, R333, R334) -/

/-- The page of a peer's access: memory of this package, by the key id of the peer's leaf. -/
def peerPage (pa key : Nat) : Page := { flatPage pa with key := key }

def State.peerLoad (s : State) (pa key n : Nat) : State :=
  if !s.outerReach pa n then s
  else
    let r := (s.siltTouch pa).engineLine hwAgent (peerPage pa key) pa n
    { r.1 with outputs := r.1.outputs ++ [.peerData r.2] }

def State.peerStore (s : State) (pa key : Nat) (bs : List Byte) : State :=
  if s.outerReach pa bs.length then (s.siltTouch pa).engineWrite hwAgent (peerPage pa key) pa bs else s

def State.peerAtomic (s : State) (pa key : Nat) (act : AtomicAct) : State :=
  if !s.outerReach pa act.size then s
  else
    let r := (s.siltTouch pa).atomicPage hwAgent (peerPage pa key) pa act.size act.i act.b act.c
    { r.1 with outputs := r.1.outputs ++ [.peerData (r.2.map fun v => natBytes act.size v)] }

/-! ### A gang that the supervisor ends (R46, R138, R166; log 57) -/

/-- A crew given up: its chains end as failed with cause 0x09, its threads are gone, wherever they run, and its frame and
its other resources go back. -/
def State.abortCrew (s : State) (c : Nat) : State :=
  let hs := (s.laneKeys c).filterMap s.awayHart
  let mine := fun (e : Nat × Chain) => e.2.crew == some c || e.2.counting.any fun k => (s.laneKeys c).contains k
  let seen := fun (e : Nat × Chain) => e.2.lat || (s.crews.find c).any fun cr => cr.place.onCore
  let cs := s.chains.filter mine
  let s1 := (cs.filter seen).foldl (fun s e => s.writeHeader { e.2 with state := 4, cause := 0x09 }) s
  let s2 := { s1 with
    chains := s1.chains.filter (!mine ·), packets := s1.packets.filter fun p => !cs.any fun e => e.1 == p.2.chain }
  -- each network chain among them has failed (R331)
  let s2 := (cs.filter fun e => e.2.engine == 2).foldl (fun s e => s.netEvent (e.2.unit - 384) 1) s2
  ((s2.laneKeys c).foldl State.endThread (hs.foldl State.loadSup s2)).releaseCrew c

/-- The gang ends with status 0x04 once none of its crews runs; the fault word stays as it is. DESIGN CHOICE (log 57): the
spec names no register by which the supervisor tears a fault domain down, nor what becomes of crews that run. -/
def State.tearDown (s : State) (seq : Nat) : State :=
  let mine := s.crews.filter fun e => e.2.seq == seq
  let rests := fun (e : Nat × Crew) => (match e.2.place with | .saved _ | .parkedFault => true | _ => false)
    && ((s.laneKeys e.1).filterMap s.awayHart).all fun n => (s.pendingOf n).isEmpty
  match s.gangs.find seq with
  | some g =>
    if g.waiting || !mine.all rests then s
    else
      let s1 := (mine.foldl (fun s e => s.abortCrew e.1) s).modGang seq fun g =>
        { g with status := 0x04, live := 0, arrived := [], closing := [] }
      (List.range Config.simtDies).foldl State.refreshRing s1
  | none => s

/-- An upset of a 32-bit word of Loam (R84): within a register window, of the half of a register that it holds. -/
def State.upsetLoam (s : State) (core : Nat) (bank : Bool) (off : Nat) : State :=
  let holds := fun (e : Nat × Thread) => !isLat e.1 && decide (e.2.loambase ≤ off) && decide (off < e.2.loambase + 8 * e.2.regcnt)
    && (s.crewAt e.1).any fun c => c.core == core && c.bank == bank && c.place.onCore
  match s.threads.find? holds with
  | some e => s.modThread e.1 fun t => { t with parity := t.parity ||| (1#128 <<< ((off - t.loambase) / 4)) }
  | none =>
    s.modCore core fun c => { c with badParity := (bank, off / 4 * 4) :: c.badParity.filter (· != (bank, off / 4 * 4)) }

/-- What the outside does. -/
def State.outside (s : State) : Outside → State
  | .upsetLoam core bank off =>
    if core < Config.simtCores then s.upsetLoam core bank off else s
  | .upsetRegister k n =>
    if (s.threads.find k).isSome && !isLat k && decide (n < 2 * (s.thread k).regcnt) then s.modThread k fun t => { t with parity := t.parity ||| (1#128 <<< n) } else s
  | .upsetLine line => s.withMem { s.mem with lines := s.mem.lines.set line { s.mem.lines.get line ⟨0, false⟩ with poison := true } }
  | .softError core h => if core < Config.simtCores ∧ h < 4 then s.modCore core fun c => { c with soft := some h } else s
  | .unanswered agent => s.withMem { s.mem with mute := agent :: s.mem.mute }
  | .hostLoad x n => if s.halted then s else s.hostLoad x n
  | .hostStore x bs => if s.halted then s else s.hostStore x bs
  | .hostControl x n => if s.halted then s else s.hostControl x n
  | .peerLoad pa key n => if s.halted then s else s.peerLoad pa key n
  | .peerStore pa key bs => if s.halted then s else s.peerStore pa key bs
  | .peerAtomic pa key act => if s.halted then s else s.peerAtomic pa key act
  | .stage n => if s.pkg.inReset || n == 0 then s else s.verifyStage n
  | .hostEvict x => if s.halted then s else s.putLine Config.hostAgent (lineOf x) false
  | .throttled st =>
    if st < Config.hbmStacks then s.setStk st { s.stk st with throt := satInc48 (s.stk st).throt } else s
  | .tearDown seq => if s.halted then s else s.tearDown seq
  | .readEntry line => { s with outputs := s.outputs ++ [.entry (((s.mem.entry line).map DirEntry.stateWord).getD 0)] }
  | .sendFlit l f => if l.exists' && !s.halted then s.sendFlit l f else s
  | .linkFlit dies f => if (Link.ucie dies).exists' then s.arriveFlit (.ucie dies) f else s

end Sys2Proof.Machine
end

