-- ==== Sys2Proof/Machine/Step.lean ====
section
/-!
DEFINITION. One step: the next turn of the agenda (an event, or an issuer's instruction), interrupts and held signals
first at an instruction boundary (R298, R302), then fetch, decode and the instruction (R246, R249).
-/
namespace Sys2Proof.Machine

/-- An issuer's instruction: fetch at the PC, decode, and `exec`. -/
def issueStep (s : State) : Host.Outcome State Fault Refusal :=
  let ks := s.issuing
  if !s.ready ks then .next s
  else
    let k := ks.headD 0
    match s.fetch (s.who k) (s.thread k).pc.toNat with
    | (s1, .fault c sub) => .next (s1.fetchFault ks c sub)
    | (s1, .word w) =>
      match decode w with
      | .ok i => match exec i s1 with
        | .next s2 => .next (s1.noteIssue s2 w)
        | o => o
      | .error _ => .next (s1.illegalWord w)

/-- One step. -/
def step (s0 : State) : Host.Outcome State Fault Refusal :=
  let s := s0.tick
  match s.agenda with
  | .event e :: rest =>
    -- only the release of reset acts on a package that a failed verification holds in reset (R343)
    if s.pkg.inReset && e != .resetRelease then .next { s with agenda := rest } else exec e { s with agenda := rest }
  | .outside o :: rest => .next ({ s with agenda := rest }.outside o)
  | .issue i :: rest => if i.exists' then stepIssuer { s with agenda := rest, cur := i } else .fault .noSuchAgent
  | [] => if s.cur.exists' then stepIssuer s else .fault .noSuchAgent
where
  stepIssuer (s : State) : Host.Outcome State Fault Refusal :=
    if s.halted then .next s
    else
      let s := s.enterBoundary
      match s.boundary with
      | some e => exec e s
      | none => issueStep s

/-- The state with the eight bytes of an instruction stored where `step` fetches next: at the PC of hardware thread 0
(physical, or translated when it translates), in storage, with no instruction-cache line in the way. -/
def State.withFetchWord (s : State) (nbits w : Nat) : State :=
  let k := match s.cur with
    | .hart n => n
    | .bundle _ _ _ => s.issuing.headD 0
  let pc := (s.thread k).pc.toNat
  let pa := match s.resolve (s.who k) pc .fetch with
    | (_, .page p) => p.pa
    | _ => pc
  s.withMem { s.mem with
    bytes := s.mem.bytes.puts pa (wordBytes (w % 2 ^ nbits))
    icache := s.mem.icache.filter fun l => l.line != lineOf pa }

end Sys2Proof.Machine
end

