-- ==== Sys2Proof/Safety.lean ====
section
/-!
DEFINITION. The terms of the statements: what a safe run is, which threads execute an instruction and when it passes its
checks, and what each instruction of a family writes, as the rules of spec/ give it.
-/
namespace Sys2Proof.Machine

/-! ### Runs -/

/-- The canonical form of storage (log 4). -/
def State.memWf (s : State) : Bool := s.mem.bytes.wf

/-- Every agent that the state's turn or agenda names is an agent of the part. -/
def State.turnsExist (s : State) : Bool :=
  s.cur.exists' && s.agenda.all fun t => match t with
    | .issue i => i.exists'
    | .event _ | .outside _ => true

/-- `n` steps from `s` all answer a next state. -/
def safeRun : Nat → State → Prop
  | 0, _ => True
  | n + 1, s => ∃ s', step s = .next s' ∧ safeRun n s'

/-! ### Execution of an instruction (R248, R249, R266) -/

/-- Thread `k` passes checks 1 to 3 of R249 for an instruction of a kind that names `regs`, no register that it could read
has bad parity (R84), and it is not past a service call when the instruction is one that R50 holds there. -/
def State.passes (s : State) (k : Nat) (kind : Kind) (sp : SpecRule) (regs : List Nat) : Prop :=
  (if isLat k then kind.lat else kind.simt) = true ∧ (kind.priv = true → (s.thread k).trap.sup = true)
  ∧ (∀ r ∈ regs, s.regBad k r = false) ∧ (∀ n < 64, s.parityBad k n = false) ∧ (sp = .holds → (s.thread k).spec.mode ≠ .speculating)

/-- The issuing threads are threads of the state, each once, and every one whose guard holds passes them. -/
def State.admits (s : State) (g : Guard) (kind : Kind) (sp : SpecRule) (regs : List Nat) : Prop :=
  s.issuing.Nodup ∧ ∀ k ∈ s.issuing, (s.threads.find k).isSome = true ∧
    ((s.thread k).guard g = true → s.passes k kind sp regs)

/-- Thread `k` is the only one that issues, its guard holds, and it passes. -/
def State.executes (s : State) (k : Nat) (g : Guard) (kind : Kind) (sp : SpecRule) (regs : List Nat) : Prop :=
  s.issuing = [k] ∧ (s.thread k).guard g = true ∧ s.passes k kind sp regs

/-- PC := PC + 8 (R246). -/
def State.advance (s : State) (k : Nat) : State := s.goTo k (nextPc (s.thread k).pc)

/-- The threads of the bundle in lane order: those whose guard holds take their effect, and every PC advances; then the
bundle keeps the threads at the lowest PC (R248, R29, R33). -/
def State.laneByLane (s : State) (g : Guard) (f : Nat → State → State) : State :=
  (s.issuing.foldl (fun s k => (if (s.thread k).guard g then f k s else s).goTo k (nextPc (s.thread k).pc)) s).splitBundle s.issuing

/-! ### What the register forms do, as the rules give it

Each table answers, for the instructions of its family, what one executing thread does. A form is the guard, the general
registers that the instruction names, the register and the predicate that it writes, and the effect on the thread. -/

structure RegForm where
  g : Guard
  regs : List Reg
  dest : Option Reg
  pdest : Option Pred
  eff : Nat → State → State

/-- A form that writes a value to `g[d]`. -/
def writes (g : Guard) (regs : List Reg) (d : Reg) (val : State → Nat → Word) : Option RegForm :=
  some ⟨g, regs ++ [d], some d, none, fun k s => s.writeReg k d (val s k)⟩

/-- The 64 bits of a word from a function of their positions. -/
def wordOfBits (f : Nat → Bool) : Word := BitVec.ofNat 64 ((List.range 64).foldl (fun n j => n + if f j then 2 ^ j else 0) 0)

/-- Integer register forms (R362, R363, R420, R421, R428, R431, R438, R453, R455, R459, R463, R468, R478). -/
def intForm (i : Instr) : Option RegForm :=
  let two := fun (g : Guard) (d a b : Reg) (f : Word → Word → Word) =>
    writes g [a, b] d fun s k => f (s.readReg k a) (s.readReg k b)
  let one := fun (g : Guard) (d a : Reg) (f : Word → Word) => writes g [a] d fun s k => f (s.readReg k a)
  match i with
  | .add g d a b => two g d a b fun x y => BitVec.ofNat 64 (x.toNat + y.toNat)
  | .sub g d a b => two g d a b fun x y => BitVec.ofInt 64 (x.toInt - y.toInt)
  | .addw g d a b => two g d a b fun x y => (BitVec.ofNat 32 (x.toNat + y.toNat)).signExtend 64
  | .subw g d a b => two g d a b fun x y => (BitVec.ofInt 32 (x.toInt - y.toInt)).signExtend 64
  | .and g d a b => two g d a b fun x y => wordOfBits fun j => x.getLsbD j && y.getLsbD j
  | .or g d a b => two g d a b fun x y => wordOfBits fun j => x.getLsbD j || y.getLsbD j
  | .xor g d a b => two g d a b fun x y => wordOfBits fun j => x.getLsbD j != y.getLsbD j
  | .shl g d a b => two g d a b fun x y => BitVec.ofNat 64 (x.toNat * 2 ^ (y.toNat % 64))
  | .shr g d a b => two g d a b fun x y => BitVec.ofNat 64 (x.toNat / 2 ^ (y.toNat % 64))
  | .sra g d a b => two g d a b fun x y => BitVec.ofInt 64 (x.toInt / 2 ^ (y.toNat % 64))
  | .min g d a b => two g d a b fun x y => BitVec.ofInt 64 (min x.toInt y.toInt)
  | .max g d a b => two g d a b fun x y => BitVec.ofInt 64 (max x.toInt y.toInt)
  | .minu g d a b => two g d a b fun x y => BitVec.ofNat 64 (min x.toNat y.toNat)
  | .maxu g d a b => two g d a b fun x y => BitVec.ofNat 64 (max x.toNat y.toNat)
  | .slt g d a b => two g d a b fun x y => if x.toInt < y.toInt then 1 else 0
  | .sltu g d a b => two g d a b fun x y => if x.toNat < y.toNat then 1 else 0
  | .sel g d a b n => writes g [a, b] d fun s k => s.readReg k (if (s.thread k).pred n then a else b)
  | .lea g d a b sh => two g d a b fun x y => BitVec.ofNat 64 (x.toNat + y.toNat * 2 ^ sh.toNat)
  | .sext g d a n => one g d a fun x => (BitVec.ofNat (n.toNat + 1) x.toNat).signExtend 64
  | .zext g d a n => one g d a fun x => (BitVec.ofNat (n.toNat + 1) x.toNat).setWidth 64
  | .clz g d a => one g d a fun x => BitVec.ofNat 64 ((List.range 64).takeWhile fun j => !x.getLsbD (63 - j)).length
  | .popc g d a => one g d a fun x => BitVec.ofNat 64 ((List.range 64).countP fun j => x.getLsbD j)
  | .brev g d a => one g d a fun x => wordOfBits fun j => x.getLsbD (63 - j)
  | .bfx g d a pos len => one g d a fun x => (BitVec.ofNat (len.toNat + 1) (x.toNat / 2 ^ pos.toNat)).setWidth 64
  | .bfi g d a b pos len => two g d a b fun x y => wordOfBits fun j =>
      if pos.toNat ≤ j ∧ j < pos.toNat + len.toNat + 1 then y.getLsbD (j - pos.toNat) else x.getLsbD j
  | .mul g d a b => two g d a b fun x y => BitVec.ofNat 64 (x.toNat * y.toNat)
  | .mulh g d a b => two g d a b fun x y => BitVec.ofInt 64 (x.toInt * y.toInt / 2 ^ 64)
  | .mulhu g d a b => two g d a b fun x y => BitVec.ofNat 64 (x.toNat * y.toNat / 2 ^ 64)
  | _ => none

/-- A sign-extended 32-bit immediate as an integer (R250). -/
def immInt (imm : BitVec 32) : Int := if imm.toNat < 2 ^ 31 then imm.toNat else (imm.toNat : Int) - 2 ^ 32

/-- Immediate forms (R364, R427, R431, R459, R463, R478). -/
def immForm (i : Instr) : Option RegForm :=
  let one := fun (g : Guard) (d a : Reg) (f : Word → Word) => writes g [a] d fun s k => f (s.readReg k a)
  let bits := fun (imm : BitVec 32) (j : Nat) => imm.getLsbD (min j 31)
  match i with
  | .addi g d a imm => one g d a fun x => BitVec.ofInt 64 (x.toInt + immInt imm)
  | .andi g d a imm => one g d a fun x => wordOfBits fun j => x.getLsbD j && bits imm j
  | .ori g d a imm => one g d a fun x => wordOfBits fun j => x.getLsbD j || bits imm j
  | .xori g d a imm => one g d a fun x => wordOfBits fun j => x.getLsbD j != bits imm j
  | .shli g d a n => one g d a fun x => BitVec.ofNat 64 (x.toNat * 2 ^ n.toNat)
  | .shri g d a n => one g d a fun x => BitVec.ofNat 64 (x.toNat / 2 ^ n.toNat)
  | .srai g d a n => one g d a fun x => BitVec.ofInt 64 (x.toInt / 2 ^ n.toNat)
  | .slti g d a imm => one g d a fun x => if x.toInt < immInt imm then 1 else 0
  | .movi g d imm => writes g [] d fun _ _ => BitVec.ofInt 64 (immInt imm)
  | .movhi g d imm => writes g [] d fun s k => BitVec.ofNat 64 (imm.toNat * 2 ^ 32 + (s.readReg k d).toNat % 2 ^ 32)
  | _ => none

/-- Division and remainder (R100): the result, and IX for a zero divisor. -/
def divForm (i : Instr) : Option RegForm :=
  let two := fun (g : Guard) (d a b : Reg) (zero : Word → Word) (f : Word → Word → Word) =>
    some (⟨g, [a, b, d], some d, none, fun k s =>
      let x := s.readReg k a
      let y := s.readReg k b
      if y = 0 then (s.writeReg k d (zero x)).raiseFlags k flagIX else s.writeReg k d (f x y)⟩ : RegForm)
  match i with
  | .div g d a b => two g d a b (fun _ => 0) fun x y => BitVec.ofInt 64 (x.toInt.tdiv y.toInt)
  | .divu g d a b => two g d a b (fun _ => 0) fun x y => BitVec.ofNat 64 (x.toNat / y.toNat)
  | .rem g d a b => two g d a b id fun x y => BitVec.ofInt 64 (x.toInt - y.toInt * x.toInt.tdiv y.toInt)
  | .remu g d a b => two g d a b id fun x y => BitVec.ofNat 64 (x.toNat % y.toNat)
  | _ => none

/-- Conditions of comparisons on integers (R255): signed, unsigned. -/
def condTrue (cc : Cond) (x y : Int) (u v : Nat) : Bool :=
  match cc with
  | .eq => decide (u = v) | .ne => decide (u ≠ v)
  | .lt => decide (x < y) | .ge => decide (y ≤ x) | .le => decide (x ≤ y) | .gt => decide (y < x)
  | .ltu => decide (u < v) | .geu => decide (v ≤ u) | .leu => decide (u ≤ v) | .gtu => decide (v < u)

/-- A word and its flags written as a floating-point result (R88, R388): the pattern with zeros above it, flags added. -/
def givesFp (g : Guard) (regs : List Reg) (d : Reg) (val : State → Nat → FpResult) : Option RegForm :=
  some ⟨g, regs ++ [d], some d, none, fun k s =>
    let r := val s k
    (s.writeReg k d (BitVec.ofNat 64 r.bits)).modThread k fun t =>
      { t with fp := { t.fp with fflags := t.fp.fflags ||| r.flags } }⟩

/-- The rounding mode of an rm field: its own, or the thread's frm (R91, R97). -/
def modeOf (s : State) (k : Nat) (rm : Rm) : Mode :=
  match rm with
  | .rne => .rne | .rtz => .rtz | .rdn => .rdn | .rup => .rup | .rna => .rna
  | .dyn => Mode.ofFrm (s.thread k).fp.frm

/-- Scalar floating point (R256, R387 to R391): the operation of the format on the low bits of the sources. -/
def floatForm (i : Instr) : Option RegForm :=
  let two := fun (g : Guard) (t : FType) (d a b : Reg) (rm : Rm) (f : Fmt → Mode → Nat → Nat → FpResult) =>
    givesFp g [a, b] d fun s k => f (fmtOf (codeOf t)) (modeOf s k rm) (s.readReg k a).toNat (s.readReg k b).toNat
  let one := fun (g : Guard) (t : FType) (d a : Reg) (rm : Rm) (f : Fmt → Mode → Nat → FpResult) =>
    givesFp g [a] d fun s k => f (fmtOf (codeOf t)) (modeOf s k rm) (s.readReg k a).toNat
  match i with
  | .fadd g t rm d a b => two g t d a b rm Fmt.add
  | .fsub g t rm d a b => two g t d a b rm Fmt.sub
  | .fmul g t rm d a b => two g t d a b rm Fmt.mul
  | .fdiv g t rm d a b => two g t d a b rm Fmt.div
  | .ffma g t rm d a b c => givesFp g [a, b, c] d fun s k =>
      (fmtOf (codeOf t)).fma (modeOf s k rm) (s.readReg k a).toNat (s.readReg k b).toNat (s.readReg k c).toNat
  | .fmin g t d a b => two g t d a b .dyn fun f _ x y => f.minmax false x y
  | .fmax g t d a b => two g t d a b .dyn fun f _ x y => f.minmax true x y
  | .fsqrt g t rm d a => one g t d a rm Fmt.sqrt
  | .frcp g t rm d a => one g t d a rm Fmt.rcp
  | .frsq g t rm d a => one g t d a rm Fmt.rsq
  | .fexp2 g t rm d a => one g t d a rm Fmt.exp2
  | .flog2 g t rm d a => one g t d a rm Fmt.log2
  | .fclass g t d a => one g t d a .dyn fun f _ x => ⟨f.classMask x, 0⟩
  | _ => none

/-- Conversions (R257, R393, R394, R398). -/
def convForm (i : Instr) : Option RegForm :=
  match i with
  | .fcvt g dst src rm d a => givesFp g [a] d fun s k => convertFF dst src (modeOf s k rm) (s.readReg k a).toNat
  | .icvt g true f ic rm d a => givesFp g [a] d fun s k =>
      ofInt (fmtOf f) (modeOf s k rm) (intOf (intCodeWidth ic) (intCodeSigned ic) (s.readReg k a).toNat)
  | .icvt g false f ic rm d a => givesFp g [a] d fun s k =>
      toInt (modeOf s k rm) (intCodeWidth ic) (intCodeSigned ic) ((fmtOf f).decode (s.readReg k a).toNat)
  | _ => none

/-- Packed conversions and arithmetic (R433 to R436). -/
def packedForm (i : Instr) : Option RegForm :=
  let gives := fun (g : Guard) (regs : List Reg) (d : Reg) (val : State → Nat → Word × BitVec 6) =>
    some (⟨g, regs ++ [d], some d, none, fun k s => let r := val s k; (s.writeReg k d r.1).raiseFlags k r.2⟩ : RegForm)
  match i with
  | .pcvt g dst src rm part d a => gives g [a] d fun s k =>
      packedConvert dst src part.toNat (modeOf s k rm) (s.readReg k d) (s.readReg k a)
  | .pfma g t rm d a b c => gives g [a, b, c] d fun s k =>
      packedFma t (modeOf s k rm) (s.readReg k a) (s.readReg k b) (s.readReg k c)
  | .pdot g t rm d a b c => gives g [a, b, c] d fun s k =>
      let r := packedDot t (modeOf s k rm) (s.readReg k a) (s.readReg k b) (s.readReg k c)
      (BitVec.ofNat 64 r.bits, r.flags)
  | _ => none

/-- Forms that write a predicate (R255, R392, R432, R437): p0 discards (R251). -/
def predForm (i : Instr) : Option RegForm :=
  let sets := fun (k : Nat) (s : State) (d : Pred) (v : Bool) => s.modThread k fun t => t.setPred d v
  match i with
  | .pcmp g cc d a b => some ⟨g, [a, b], none, some d, fun k s =>
      let x := s.readReg k a
      let y := s.readReg k b
      sets k s d (condTrue cc x.toInt y.toInt x.toNat y.toNat)⟩
  | .pcmpi g cc d a imm => some ⟨g, [a], none, some d, fun k s =>
      let x := s.readReg k a
      sets k s d (condTrue cc x.toInt (immInt imm) x.toNat (immInt imm % 2 ^ 64).toNat)⟩
  | .plop g d a b c lut => some ⟨g, [], none, some d, fun k s =>
      let t := s.thread k
      sets k s d (lut.getLsbD ((if t.pred a then 4 else 0) + (if t.pred b then 2 else 0) + if t.pred c then 1 else 0))⟩
  | .fcmp g cc t d a b => some ⟨g, [a, b], none, some d, fun k s =>
      let r := (fmtOf t).compare cc (s.readReg k a).toNat (s.readReg k b).toNat
      let s1 := sets k s d r.1
      if r.2 then s1.raiseFlags k flagNV else s1⟩
  | _ => none

/-- The instructions that act on a thread's registers, predicates and flags alone. -/
def regForm (i : Instr) : Option RegForm :=
  (intForm i).or <| (immForm i).or <| (divForm i).or <| (floatForm i).or <| (convForm i).or <| (packedForm i).or (predForm i)

/-! ### Groups of instructions -/

/-- Instructions that a latency core excludes (R266, R40, R408, R425, R380), but GBAR. -/
def simtInstr : Instr → Option Guard
  | .shfl g _ _ _ _ _ | .vote g _ _ _ _ _ | .redb g _ _ _ _ _ _ | .scanb g _ _ _ _ _ _ _ => some g
  | .opfence g | .joinEnr g _ | .joinWait g _ | .joinStrike g _ | .joinRst g _ => some g
  | .cbwait g _ _ | .cbwaitProd g _ _ | .cbpop g _ | .cbpush g _ | .shmap g _ _ _ _ | .setf g _ _ | .takef g _ _ => some g
  | .mmaT g _ _ _ | .mmaK g _ _ _ | .radv g _ | .radvCfg g _ _ _ | .radvTail g _ _ | .radvRel g _ | .radvFree g _ => some g
  | .engoCopy g _ _ | .engoEpi g _ _ => some g
  | _ => none

/-- Privileged instructions, SYSWR of the registers marked Sup among them (R162, R267). -/
def supInstr : Instr → Option Guard
  | .tlbinvPg g _ _ _ | .tlbinvAs g _ | .tlbinvAll g | .tlbinvPga g _ _ => some g
  | .syswr g r _ => if supRegister r then some g else none
  | _ => none

/-- Instructions whose guarded-off threads only go on: all but the cross-lane ones (R38), BKOFF (R61), and those that
end, sleep or close a barrier beside. -/
def plainInstr : Instr → Option Guard
  | .ld g _ _ _ _ _ _ _ | .st g _ _ _ _ _ _ | .pref g _ _ _ | .cas g _ _ _ _ _ _ _ => some g
  | .amoAdd g _ _ _ _ _ _ | .amoAnd g _ _ _ _ _ _ | .amoOr g _ _ _ _ _ _ | .amoXor g _ _ _ _ _ _ | .amoMin g _ _ _ _ _ _
  | .amoMax g _ _ _ _ _ _ | .amoMinu g _ _ _ _ _ _ | .amoMaxu g _ _ _ _ _ _ | .amoSwap g _ _ _ _ _ _ => some g
  | .amoFadd g _ _ _ _ _ => some g
  | .fence g _ | .tfence g | .opfence g | .ifence g | .cwb g _ _ _ | .cinv g _ _ _ | .icinv g _ _ _ => some g
  | .br g _ _ | .jal g _ _ _ | .jalr g _ _ _ _ | .yield g | .yieldH g | .nop g | .waitc g _ _ _ _ => some g
  | .cbwait g _ _ | .cbwaitProd g _ _ | .cbpop g _ | .cbpush g _ | .migrateTosimt g _ _ | .migrateTolat g _ => some g
  | .grow g _ | .shrink g _ | .shmap g _ _ _ _ | .setf g _ _ | .takef g _ _ => some g
  | .scall g _ | .scallOv g _ _ | .scallNs g _ | .fidset g _ => some g
  | .mmaT g _ _ _ | .mmaK g _ _ _ | .radv g _ | .radvCfg g _ _ _ | .radvTail g _ _ | .radvRel g _ | .radvFree g _ => some g
  | .kalloc g _ _ _ _ | .kfill g _ _ _ | .kpin g _ | .kpinOff g _ | .krev g _ | .kstat g _ _ | .cbkld g _ _ _ _ => some g
  | .engoCopy g _ _ | .engoEpi g _ _ | .engoNet g _ _ _ | .engq g _ _ => some g
  | .sysrd g _ _ | .syswr g _ _ | .eret g | .trap g _ | .bkpt g _ => some g
  | .tlbinvPg g _ _ _ | .tlbinvAs g _ | .tlbinvAll g | .tlbinvPga g _ _ => some g
  | i => (regForm i).map (·.g)

/-- The fields of an AMO (R366): guard, bytes, order, scope, destination, address register, operand register. -/
def amoForm : Instr → Option (Guard × Nat × Ord × Scope × Reg × Reg × Reg)
  | .amoAdd g sz o sc d a b | .amoAnd g sz o sc d a b | .amoOr g sz o sc d a b | .amoXor g sz o sc d a b
  | .amoMin g sz o sc d a b | .amoMax g sz o sc d a b | .amoMinu g sz o sc d a b | .amoMaxu g sz o sc d a b
  | .amoSwap g sz o sc d a b => some (g, amoBytes sz, o, sc, d, a, b)
  | .amoFadd g o sc d a b => some (g, 4, o, sc, d, a, b)
  | _ => none

/-- The new value of an atomic on n bits (R366, R367, R372) from the old one, the operand and the comparand. -/
def atomicValue (i : Instr) (n old v c : Nat) : Nat :=
  let m := 2 ^ n
  let o := old % m
  let w := v % m
  match i with
  | .amoAdd .. => (o + w) % m
  | .amoAnd .. => o &&& w
  | .amoOr .. => o ||| w
  | .amoXor .. => o ^^^ w
  | .amoMin .. => if toSigned n w < toSigned n o then w else o
  | .amoMax .. => if toSigned n o < toSigned n w then w else o
  | .amoMinu .. => min o w
  | .amoMaxu .. => max o w
  | .amoSwap .. => w
  | .amoFadd .. => ((fmtOf .s).add .rne o w).bits
  | .cas .. => if o = c % m then w else o
  | _ => o

/-- Bytes of host memory (R176, R326): every one of some bytes lies in it. -/
def inHost (a n : Nat) : Prop := 2 ^ 48 ≤ a ∧ a + n ≤ 2 ^ 49

/-- What an untranslated access to host memory reaches (R301, R326). -/
def hostTarget (a : Nat) : Target := (flatPage a).target

/-- The context of thread `k` addresses memory without translation (R301). -/
def State.untranslated (s : State) (k : Nat) : Prop := (s.thread k).trap.sup = true ∧ (s.ctxOf k).pgroot = 0

/-! ### Cross-lane instructions (R258, R444, R451, R452, R456, R457, R475) -/

/-- A cross-lane instruction: its guard, the registers that it names, destination, mask register, and what a member receives
from the members of its set, in lane order. -/
structure CrossForm where
  g : Guard
  regs : List Reg
  d : Reg
  mask : Reg
  value : State → List Nat → Nat → Word × BitVec 6

/-- A reduction of values in lane order (R444). -/
def reduceTo (op : RedOp) (dbl : Bool) (mode : Mode) (vs : List Word) : Word × BitVec 6 :=
  match op with
  | .add => (BitVec.ofNat 64 ((vs.map (·.toNat)).foldl (· + ·) 0), 0)
  | .min => (BitVec.ofInt 64 ((vs.map (·.toInt)).foldl min (2 ^ 63 - 1)), 0)
  | .max => (BitVec.ofInt 64 ((vs.map (·.toInt)).foldl max (-(2 ^ 63))), 0)
  | .minu => (BitVec.ofNat 64 ((vs.map (·.toNat)).foldl min (2 ^ 64 - 1)), 0)
  | .maxu => (BitVec.ofNat 64 ((vs.map (·.toNat)).foldl max 0), 0)
  | .and => (wordOfBits fun j => vs.all fun v => v.getLsbD j, 0)
  | .or => (wordOfBits fun j => vs.any fun v => v.getLsbD j, 0)
  | .xor => (wordOfBits fun j => vs.countP (fun v => v.getLsbD j) % 2 == 1, 0)
  | .fadd => redOver .fadd dbl mode vs

def crossForm : Instr → Option CrossForm
  | .shfl g m d a b c => some ⟨g, [a, b, c, d], d, c, fun s members k =>
      let l := laneOf k
      let n := (s.readReg k b).toNat % 32
      let from' := members.find? fun j => match m with
        | .idx => laneOf j == n
        | .up => laneOf j + n == l
        | .down => laneOf j == l + n
        | .xor => laneOf j == l ^^^ n
      (s.readReg (from'.getD k) a, 0)⟩
  | .vote g m ps d a c => some ⟨g, [a, c, d], d, c, fun s members k =>
      let holds := fun x => (s.thread x).pred ps
      (match m with
        | .all => if ∀ x ∈ members, holds x = true then 1 else 0
        | .any => if ∃ x ∈ members, holds x = true then 1 else 0
        | .ballot => wordOfBits fun j => members.any fun x => laneOf x == j && holds x
        | .uni => if ∀ x ∈ members, s.readReg x a = s.readReg k a then 1 else 0, 0)⟩
  | .redb g op dbl rm d a c => some ⟨g, [a, c, d], d, c, fun s members _ =>
      reduceTo op dbl (modeOf s (members.headD 0) rm) (members.map fun x => s.readReg x a)⟩
  | .scanb g exc op dbl rm d a c => some ⟨g, [a, c, d], d, c, fun s members k =>
      let before := members.filter fun x => decide (laneOf x < laneOf k) || (laneOf x == laneOf k && !exc)
      reduceTo op dbl (modeOf s (members.headD 0) rm) (before.map fun x => s.readReg x a)⟩
  | _ => none

/-- The writable bits of a system register whose SYSWR stores them as they are (R267, R470). -/
def storedBits : SysReg → Option Word
  | .tvec => some 0x01FFFFFFFFFFFFF9
  | .tepc => some 0x01FFFFFFFFFFFFF8
  | .tcause => some 0xFFFF
  | .tval | .tscratch => some 0xFFFFFFFFFFFFFFFF
  | .fflags | .ftrapen => some 0x3F
  | .hbase | .hlimit => some 0x01FFFFFC00000000
  | .hoff => some 0xFFFFFFFC00000000
  | .hattr => some 0xFFFF
  | .pgroot => some 0x000FFFFFFFFEFFFF
  | .hzc0 | .hzc1 | .hzc2 | .hzc3 => some 0x0000FFFFFFFFFFFF
  | _ => none

/-! ### Loads that are complete when they retire, and operands in Loam (R43, R131, R216, R242, R382, R412) -/

/-- `n` bytes at `va` lie in the window of thread `k`'s own crew: inside the crew's allocation, of good parity, in no
accumulator slot that an accepted MMA of the crew writes. -/
def State.ownWindow (s : State) (k : Nat) (c : Crew) (va n : Nat) : Prop :=
  let base := (s.ctxOf k).loamva.toNat % 2 ^ 57
  s.crewAt k = some c ∧ ¬ s.untranslated k ∧ base ≤ va ∧ va - base + n ≤ 2 ^ 22 ∧ c.inAlloc (va - base) n = true
    ∧ (s.core c.core).badIn c.bank (va - base) n = false ∧ s.busySlots (crewOf k) = []

/-- A load of `n` bytes at `va` that is complete when it retires gives `bs`, in host memory or in the own window; `s1` is the
state after it. -/
def State.reads (s : State) (k va n : Nat) (s1 : State) (bs : List Byte) : Prop :=
  (s.untranslated k ∧ inHost va n ∧ s.silent (s.agentOf k) = false ∧ s1 = s ∧ bs = s.mem.bytes.bytes va n)
  ∨ ∃ c, s.ownWindow k c va n ∧ s1 = { s with free := s.free + n }
    ∧ bs = s.loamBytes c.core c.bank (va - (s.ctxOf k).loamva.toNat % 2 ^ 57) n

/-- The tile record at a window address of thread `k`'s own crew (R129). -/
def State.ownRecord (s : State) (k : Nat) (c : Crew) (va : Word) : TileRec :=
  tileOfBytes (s.loamBytes c.core c.bank (va57 va - (s.ctxOf k).loamva.toNat % 2 ^ 57) 32)

/-- The operand record of an MMA at `va` stands in the crew's scratch and describes a tile there of its own format, with a
codebook of the context for CB4 (R101, R131, R216, R219, R242). -/
def State.ownOperand (s : State) (k : Nat) (c : Crew) (va : Word) (rows : Nat) : Prop :=
  let t := s.ownRecord k c va
  va.toNat % 32 = 0 ∧ s.inOwnScratch (s.who k) (va57 va, va57 va + 32) = true
    ∧ (s.core c.core).badIn c.bank (va57 va - (s.ctxOf k).loamva.toNat % 2 ^ 57) 32 = false
    ∧ t.space = 1 ∧ t.shapeBad = false ∧ t.rows = rows ∧ t.rowlen = 128 ∧ s.inOwnScratch (s.who k) t.range = true
    ∧ (t.scaled = true → s.inOwnScratch (s.who k) (t.scaleRange t.fmt) = true)
    ∧ t.fmt ≠ 0 ∧ fmtAllowed t.fmt t.scaled = true
    ∧ (t.fmt = 6 → s.cbOk c.core (s.ctxOf k).asid t.cbslot = true)

/-- An MMA's encoding names the format of its operand, or none (R105). -/
def namesFormat (named fmt : Nat) : Prop := named = 0 ∨ named = fmt

/-! ### Chains (R136, R141) -/

/-- Chain `id` reads an entry of type `ty` at its IDX, and may run it: `c` is the chain as it runs on, `s'` the state after the
read, and `ws` are the words of the entry. -/
def State.atEntry (s : State) (id ty : Nat) (c : Chain) (s' : State) (ws : Word × Word × Word × Word) : Prop :=
  ∃ c0 z bs s1, s.chains.find id = some c0 ∧ (c0.state = 0 ∨ c0.state = 1) ∧ s.chainTurn id c0 = true
    ∧ c = { c0 with state := 1, zsub := c0.zsub + z } ∧ c.idx < 65536
    ∧ s1 = (if c0.state = 0 then s.areaPut c0 (s.headerOff c0) (List.replicate 24 0) else s)
    ∧ s1.areaGet c0 (s.headerOff c0 + 32 + 32 * c0.idx) 32 = (s', .inl (bs, z))
    ∧ ws = (wordOf bs 0, wordOf bs 8, wordOf bs 16, wordOf bs 24)
    ∧ fld ws.1 7 0 = ty ∧ typeAllowed c.engine ty = true ∧ entryReserved ty ws.1 ws.2.1 ws.2.2.1 ws.2.2.2 = false

/-- Chain `id` of a crew that stands in its slot runs, and it is its turn on its engine; the crew's Loam has no bad word, and
its window lies inside the address space. -/
def State.crewChain (s : State) (id : Nat) (c : Chain) (cr : Crew) : Prop :=
  let ctx := (s.core cr.core).ctxOf cr.asid
  s.chains.find id = some c ∧ c.state = 1 ∧ s.chainTurn id c = true ∧ c.crew.bind s.crews.find = some cr
    ∧ (c.sup = false ∨ ctx.pgroot ≠ 0) ∧ (s.core cr.core).badParity = [] ∧ cr.base + (cr.lsg + 2) * 16384 ≤ 2 ^ 22
    ∧ ctx.loamva.toNat % 2 ^ 57 + 2 ^ 26 ≤ 2 ^ 57 ∧ s.chainBase c ≤ va57 c.addr

/-- Bytes at an offset of a crew's scratch. -/
def State.scratch (s : State) (cr : Crew) (off n : Nat) : List Byte := s.loamBytes cr.core cr.bank (cr.base + off) n

/-- Bytes stored at an offset of a crew's scratch. -/
def State.putScratch (s : State) (cr : Crew) (off : Nat) (bs : List Byte) : State :=
  s.putLoam cr.core cr.bank (cr.base + off) bs

/-- `n` elements of `size` bytes at an offset of a crew's scratch. -/
def State.scratchElems (s : State) (cr : Crew) (off n size : Nat) : List Nat :=
  (List.range n).map fun j => bytesToNat (s.scratch cr (off + size * j) size)

/-- The entry at the IDX of a crew's chain stands in the crew's scratch, is of type `ty`, which the engine runs, and has the
words `w0` to `w3`, no reserved bit among them. -/
def State.entryIs (s : State) (c : Chain) (cr : Crew) (ty : Nat) (w0 w1 w2 w3 : Word) : Prop :=
  let off := s.headerOff c + 32 + 32 * c.idx
  let bs := s.scratch cr off 32
  c.idx < 65536 ∧ off + 32 ≤ cr.lsg * 16384 ∧ w0 = wordOf bs 0 ∧ w1 = wordOf bs 8 ∧ w2 = wordOf bs 16 ∧ w3 = wordOf bs 24
    ∧ fld w0 7 0 = ty ∧ typeAllowed c.engine ty = true ∧ entryReserved ty w0 w1 w2 w3 = false

/-- The record at an offset of a crew's scratch describes an unscaled tile there, rows apart from each other (R129 to R131). -/
def State.tileAt (s : State) (c : Chain) (cr : Crew) (off : Nat) (t : TileRec) : Prop :=
  off % 32 = 0 ∧ off + 32 ≤ cr.lsg * 16384 ∧ t = tileOfBytes (s.scratch cr off 32) ∧ t.space = 1 ∧ t.shapeBad = false
    ∧ t.scaled = false ∧ t.rowlen ≤ t.stride ∧ s.inOwnScratch (s.chainWho c) t.range = true

/-- Offset, in its core's Loam, of the byte at column offset `x` of row `r` of a tile in a crew's scratch. -/
def State.tileOff (s : State) (cr : Crew) (t : TileRec) (r x : Nat) : Nat :=
  t.byteAddr r x - ((s.core cr.core).ctxOf cr.asid).loamva.toNat % 2 ^ 57

/-- The bytes of row `r` of a tile in a crew's scratch, by their column offsets. -/
def State.tileBytes (s : State) (cr : Crew) (t : TileRec) (r : Nat) : List Byte :=
  (List.range t.rowlen).flatMap fun x => s.loamBytes cr.core cr.bank (s.tileOff cr t r x) 1

end Sys2Proof.Machine
end

