-- ==== Sys2Proof/Certificates/Slice0/Obligations.lean ====
section
/-!
DEFINITION. The statements for the provers. Each names in its docstring the rules of spec/ that it formalises, and the log
entry of a choice it rests on. `State.executes s k …` says that thread k issues alone and passes the checks of R249;
`s'.goTo k pc` is s' with the PC of thread k at pc.
-/
open Sys2Proof Sys2Proof.Machine

/-! ### Encoding -/

/-- R246 to R268, chapters 17 to 20: no bit of an encoding is dropped. -/
def Obligations.DecodeEncode : Prop := ∀ i : Instr, WellFormed i = true → decode (encode i) = .ok i

/-- R249, R250: the decoder accepts only words of instructions, and each word has one meaning. -/
def Obligations.EncodeDecode : Prop :=
  ∀ (w : BitVec 64) (i : Instr), decode w = .ok i → WellFormed i = true ∧ encode i = w

/-- Words that the entries of chapters 17 to 20 write out. -/
def Obligations.WordsDecode : Prop :=
  let on : Guard := ⟨0, false⟩
  decode 0x0101_9768_0120_0003 = .ok (.lea on 6 23 26 3)
  ∧ decode 0x1201_0400_0000_0001 = .ok (.ori on 4 4 1)
  ∧ decode 0x8030_0000_FFFF_FFFD = .ok (.br ⟨1, true⟩ .none 0xFFFFFFFD)
  ∧ decode 0x5001_4620_7010_0003 = .ok (.shfl on .xor 5 6 8 7)
  ∧ decode 0x5002_4000_7020_000A = .ok (.vote on .ballot 2 9 0 7)
  ∧ decode 0x7000_0000_1480_0000 = .ok (.fence on ⟨false, true, false, true, false, .gg⟩)
  ∧ decode 0x7400_0600_0500_0000 = .ok (.cwb on .sy 6 0)
  ∧ decode 0x8300_0000_0030_0003 = .ok (.joinStrike on 3)
  ∧ decode 0x9000_0000_0000_0FFF = .ok (.waitc on 63 63 0 0)
  ∧ decode 0xA000_C400_0010_0000 = .ok (.migrateTosimt on 3 4)
  ∧ decode 0xB000_0824_0C42_0033 = .ok (.mmaT on ⟨3, true, false, 2, 3, 3⟩ 8 9)
  ∧ decode 0xD300_0000_0000_0007 = .ok (.trap on 7)
  ∧ decode 0x4101_461C_5020_4000 = .ok (.pdot on .p8e4m3 .dyn 5 6 7 5)

/-- R248, R249, R252: a reserved guard is no instruction; a reserved major opcode, the all-zero word among them, is
the instruction that raises ILLEGAL with the word as its value. -/
def Obligations.ReservedWords : Prop :=
  (∀ w : BitVec 64, guardReserved w = true → ∃ e, decode w = .error e)
  ∧ (∀ w : BitVec 64, guardReserved w = false → majorAssigned (w.extractLsb' 56 8) = false →
      decode w = .ok (.reservedMajorOpcode w))
  ∧ decode 0 = .ok (.reservedMajorOpcode 0)
  ∧ ∀ (s : State) (k : Nat) (w : BitVec 64), majorAssigned (w.extractLsb' 56 8) = false → s.issuing = [k] →
      (s.thread k).guard (fGuard w) = true → (s.thread k).spec.mode = .normal →
      exec (.reservedMajorOpcode w) s = .next (s.takeTrap k cILLEGAL 0 w (s.thread k).pc)

/-! ### The step -/

/-- R246, R249, R298, R302: when no interrupt and no signal stands at the boundary and the fetched word decodes to an
instruction, the step is that instruction's `exec`, after the time of every die has gone on and a requested frame is
loaded; then its bundle is noted in the issue slot (R288). An event of the agenda is its `exec`, and an event of the world
outside acts on the state; of a package that a failed verification holds in reset only the release of reset acts (R343).
The agenda is the model's (log 5). -/
def Obligations.StepRunsDecoded : Prop :=
  (∀ (s0 s b s1 t : State) (w : Word) (i : Instr),
    ((s0.agenda = [] ∧ s = s0.tick) ∨
      ∃ a rest, s0.agenda = .issue a :: rest ∧ s = { s0.tick with agenda := rest, cur := a }) →
    s.cur.exists' = true → s.halted = false → b = s.enterBoundary → b.boundary = none → b.ready b.issuing = true →
    b.fetch (b.who (b.issuing.headD 0)) (b.thread (b.issuing.headD 0)).pc.toNat = (s1, .word w) → decode w = .ok i →
    exec i s1 = .next t → step s0 = .next (s1.noteIssue t w))
  ∧ (∀ (s0 : State) (e : Instr) (rest : List Turn), s0.agenda = .event e :: rest →
      step s0 = if s0.tick.pkg.inReset = true ∧ e ≠ .resetRelease then .next { s0.tick with agenda := rest }
        else exec e { s0.tick with agenda := rest })
  ∧ ∀ (s0 : State) (o : Outside) (rest : List Turn), s0.agenda = .outside o :: rest →
      step s0 = .next ({ s0.tick with agenda := rest }.outside o)

/-- R246, R349: an untranslated fetch from a local line that no instruction cache of the core holds, in a stack where
Silt has compressed nothing and is off, reads the eight bytes at the PC in storage; it changes nothing but that
instruction cache, in which a latency core's 513th line takes the place of its oldest (R2, log 13). R246, R249: a fetch
fault, and a word that is no instruction, are taken by the threads that would execute the word. -/
def Obligations.Fetch : Prop :=
  (∀ (s : State) (w : Who) (pc : Nat), w.sup = true → w.ctx.pgroot = 0 → pc < 2 ^ 40 → pc % 8 = 0 →
    s.forward pc 0 = (pc, 0) → (s.stk (pc / 2 ^ 36)).compressed = [] → fld (s.stk (pc / 2 ^ 36)).cold 31 0 = 0 →
    s.mem.icache.find? (fun l => l.core == w.agent && l.line == pc / 128) = none →
    s.mem.poisoned (pc / 128) 0 = false →
    let mine := s.mem.icache.filter fun l => l.core == w.agent
    let kept := if 384 ≤ w.agent ∧ 512 ≤ mine.length then s.mem.icache.filter fun l => some l != mine.getLast? else s.mem.icache
    s.fetch w pc = ({ s with mem := { s.mem with icache := ⟨w.agent, pc / 128, s.mem.bytes.line (pc / 128)⟩ :: kept } },
      .word (s.mem.bytes.word pc)))
  ∧ (∀ (s0 s b s1 : State),
    ((s0.agenda = [] ∧ s = s0.tick) ∨
      ∃ a rest, s0.agenda = .issue a :: rest ∧ s = { s0.tick with agenda := rest, cur := a }) →
    s.cur.exists' = true → s.halted = false → b = s.enterBoundary → b.boundary = none → b.ready b.issuing = true →
    (∀ cause sub, b.fetch (b.who (b.issuing.headD 0)) (b.thread (b.issuing.headD 0)).pc.toNat = (s1, .fault cause sub) →
      step s0 = .next (b.issuing.foldl (fun s k => s.raise k cause sub (s.thread k).pc (s.thread k).pc) s1))
    ∧ ∀ w e, b.fetch (b.who (b.issuing.headD 0)) (b.thread (b.issuing.headD 0)).pc.toNat = (s1, .word w) →
      decode w = .error e → step s0 = .next (s1.illegalWord w))

/-- Every instruction and every event answers a next state, and so does a step whose turn names an agent of the part;
the one fault of a step is a turn that names none (the model's own, log 5). -/
def Obligations.StepAnswers : Prop :=
  (∀ (i : Instr) (s : State), ∃ t, exec i s = .next t)
  ∧ ∀ s : State, (∃ t, step s = .next t) ∨ (step s = .fault .noSuchAgent ∧ s.turnsExist = false)

/-! ### Reset -/

/-- R301: after reset hardware thread 0 runs in supervisor mode at the firmware's entry address with every register of
the frame zero, every other hardware thread is idle with its registers zero, no SIMT core holds a context, nothing is
translated, and memory reads zero. (The entry address is the constant of log 1; frm loads as 1, log 2.) -/
def Obligations.ResetState : Prop :=
  let s := State.reset
  (s.thread 0).pc = Config.entryPc ∧ (s.thread 0).trap.sup = true ∧ (s.thread 0).trap.ta = false
  ∧ (∀ n, (s.thread 0).reg n = 0) ∧ (∀ p : Pred, p ≠ 0 → (s.thread 0).pred p = false)
  ∧ (s.thread 0).trap.tvec = 0 ∧ (s.thread 0).fp.fflags = 0 ∧ (s.thread 0).fp.ftrapen = 0
  ∧ (s.hart 0).run = true
  ∧ (∀ n, n ≠ 0 → (s.hart n).run = false)
  ∧ (∀ n, (s.hart n).htsave = 0 ∧ (s.hart n).htsup = 0 ∧ (s.hart n).ien = 0 ∧ (s.hart n).tcmp = 0
      ∧ (s.hart n).ctx = ⟨0, 0, 0, 0, 0, 0⟩)
  ∧ s.crews = [] ∧ s.gangs = [] ∧ (∀ n, (s.core n).ctxs = [] ∧ (s.core n).bundles = [])
  ∧ ∀ a, s.mem.bytes.byte a = 0

/-- The reset state meets the invariant of StepKeepsMemory (log 4). -/
def Obligations.ResetMemory : Prop := State.reset.memWf = true

/-- Storage keeps its canonical form in every step: rising addresses and no entry equal to the zero that an unlisted
address reads as (R151, log 4), so that equal contents are equal data. -/
def Obligations.StepKeepsMemory : Prop :=
  ∀ s t : State, s.memWf = true → step s = .next t → t.memWf = true

/-! ### Registers and predicates -/

/-- R360: a write to g0 is discarded, and a read of g0 gives zero; R251: p0 reads true and discards a write. A write
to another register of a thread that maps none is read back, and changes no other register of it. R77: in a range that
the crew maps onto another crew, a register number names the register of the target crew's thread on the same lane. -/
def Obligations.Registers : Prop :=
  (∀ (s : State) (k : Nat), s.readReg k 0 = 0)
  ∧ (∀ (s : State) (k : Nat) (v : Word), s.writeReg k 0 v = s)
  ∧ (∀ t : Thread, t.pred 0 = true)
  ∧ (∀ (t : Thread) (v : Bool), t.setPred 0 v = t)
  ∧ (∀ (t : Thread) (p q : Pred) (v : Bool), p ≠ 0 → (t.setPred p v).pred q = if q = p then v else t.pred q)
  ∧ (∀ (s : State) (k : Nat) (r q : Reg) (v : Word), r ≠ 0 →
      (s.crewAt k = none ∨ ∃ c, s.crewAt k = some c ∧ c.maps = []) →
      (s.writeReg k r v).readReg k q = if q = r then v else s.readReg k q)
  ∧ ∀ (s : State) (k : Nat) (c : Crew) (m : ShMap) (r : Reg) (v : Word), s.crewAt k = some c → c.mapping r.toNat = some m →
      r ≠ 0 → (s.threads.find (laneKey m.target (laneOf k))).isSome = true → m.t + (r.toNat - m.d) < 64 →
      m.t + (r.toNat - m.d) ≠ 0 →
      s.readReg k r = (s.thread (laneKey m.target (laneOf k))).reg (m.t + (r.toNat - m.d))
      ∧ ((s.writeReg k r v).thread (laneKey m.target (laneOf k))).reg (m.t + (r.toNat - m.d)) = v

/-- R100: addition, subtraction, multiplication and shifts wrap, ADDW and SUBW sign-extend 32 bits, and division and
remainder give the results of its table, IX for a zero divisor and no other flag; with the other integer forms, on
registers and on immediates. Each executing thread of the bundle in lane order (R248, R360). -/
def Obligations.IntegerForms : Prop :=
  ∀ (i : Instr) (f : RegForm) (s : State), intForm i = some f ∨ immForm i = some f ∨ divForm i = some f →
    s.admits f.g anyCore .runs (f.regs.map (·.toNat)) → exec i s = .next (s.laneByLane f.g f.eff)

/-- R88, R91, R256, R257, R387 to R394, R398, R433 to R436: the scalar floating-point forms on the rounding mode of
R91, conversions, packed conversions and packed arithmetic. -/
def Obligations.FloatForms : Prop :=
  ∀ (i : Instr) (f : RegForm) (s : State), floatForm i = some f ∨ convForm i = some f ∨ packedForm i = some f →
    s.admits f.g anyCore .runs (f.regs.map (·.toNat)) → exec i s = .next (s.laneByLane f.g f.eff)

/-- R251, R255, R392, R432, R437: comparisons and the predicate table. -/
def Obligations.PredicateForms : Prop :=
  ∀ (i : Instr) (f : RegForm) (s : State), predForm i = some f →
    s.admits f.g anyCore .runs (f.regs.map (·.toNat)) → exec i s = .next (s.laneByLane f.g f.eff)

/-- R90, R391, R92: an operand that is a signalling NaN sets NV and a NaN operand gives the canonical NaN in FADD,
FSUB, FMUL, FDIV and FSQRT; FMIN and FMAX return the other operand when exactly one is a NaN; FCLASS gives exactly one
of its ten bits, and no flag; rounding a value that the format holds changes nothing and sets no flag, in every mode.
-/
def Obligations.FloatResults : Prop :=
  (∀ (c : FloatCode) (m : Mode) (x y : Nat) (sn : Bool), (fmtOf c).decode x = .nan sn →
    ∃ fl : BitVec 6, fl = (if sn || ((fmtOf c).decode y).isSnan then flagNV else 0)
      ∧ (fmtOf c).add m x y = ⟨(fmtOf c).nan, fl⟩ ∧ (fmtOf c).sub m x y = ⟨(fmtOf c).nan, fl⟩
      ∧ (fmtOf c).mul m x y = ⟨(fmtOf c).nan, fl⟩ ∧ (fmtOf c).div m x y = ⟨(fmtOf c).nan, fl⟩)
  ∧ (∀ (c : FloatCode) (m : Mode) (x : Nat) (sn : Bool), (fmtOf c).decode x = .nan sn →
      (fmtOf c).sqrt m x = ⟨(fmtOf c).nan, if sn then flagNV else 0⟩)
  ∧ (∀ (c : FloatCode) (x y : Nat), ((fmtOf c).decode x).isNan = true → ((fmtOf c).decode y).isNan = false →
      ((fmtOf c).minmax false x y).bits = y % 2 ^ (fmtOf c).width ∧ ((fmtOf c).minmax true x y).bits = y % 2 ^ (fmtOf c).width)
  ∧ (∀ (t : FType) (x : Nat), ∃ n, n < 10 ∧ (fmtOf (codeOf t)).classMask x = 2 ^ n)
  ∧ ∀ (c : FloatCode) (mode : Mode) (v m : Nat) (n : Bool) (e : Int), (fmtOf c).decode v = .fin n m e →
      (fmtOf c).round mode n m e false = ⟨v % 2 ^ (fmtOf c).width, 0⟩

/-- What a register form leaves: everything but the PCs of the bundle, the destination registers, predicates and
fflags, and the bundle's membership (R30, R248, R33). -/
def Obligations.RegisterFormsFrame : Prop :=
  ∀ (i : Instr) (f : RegForm) (s t : State), regForm i = some f →
    s.admits f.g anyCore .runs (f.regs.map (·.toNat)) → exec i s = .next t →
    t.mem = s.mem ∧ t.crews = s.crews ∧ t.gangs = s.gangs ∧ t.harts = s.harts ∧ t.dies = s.dies ∧ t.pkg = s.pkg
    ∧ t.chains = s.chains ∧ t.nxt = s.nxt ∧ t.agenda = s.agenda ∧ t.free = s.free ∧ t.stks = s.stks ∧ t.nets = s.nets
    ∧ t.ports = s.ports ∧ t.links = s.links ∧ t.latDies = s.latDies ∧ t.packets = s.packets ∧ t.inputs = s.inputs ∧ t.outputs = s.outputs
    ∧ t.absent = s.absent ∧ t.cursors = s.cursors
    ∧ (∀ n, (t.core n).engines = (s.core n).engines ∧ (t.core n).bank0 = (s.core n).bank0
        ∧ (t.core n).bank1 = (s.core n).bank1 ∧ (t.core n).counters = (s.core n).counters ∧ (t.core n).ctxs = (s.core n).ctxs)
    ∧ (∀ k, (t.thread k).trap = (s.thread k).trap ∧ (t.thread k).oc = (s.thread k).oc ∧ (t.thread k).st = (s.thread k).st
        ∧ (t.thread k).ids = (s.thread k).ids ∧ (t.thread k).regcnt = (s.thread k).regcnt
        ∧ (t.thread k).loambase = (s.thread k).loambase ∧ (t.thread k).spec = (s.thread k).spec
        ∧ (t.thread k).fp.frm = (s.thread k).fp.frm ∧ (t.thread k).fp.ftrapen = (s.thread k).fp.ftrapen
        ∧ (t.thread k).fp.fid = (s.thread k).fp.fid)
    ∧ (∀ k, k ∉ s.issuing → (t.thread k).pc = (s.thread k).pc)
    ∧ (∀ k ∈ s.issuing, (t.thread k).pc = nextPc (s.thread k).pc)
    ∧ (∀ k, ¬(k ∈ s.issuing ∧ (s.thread k).guard f.g = true) →
        (t.thread k).preds = (s.thread k).preds ∧ (t.thread k).fp = (s.thread k).fp)
    ∧ (∀ k, (t.thread k).fp.fflags &&& (s.thread k).fp.fflags = (s.thread k).fp.fflags)
    ∧ (∀ k q, f.pdest ≠ some q → (t.thread k).pred q = (s.thread k).pred q)
    ∧ ∀ k n, (∀ j ∈ s.issuing, (s.thread j).guard f.g = true → ∀ d, f.dest = some d → d ≠ 0 → (k, n) ≠ s.physReg j d.toNat) →
        (t.thread k).reg n = (s.thread k).reg n

/-! ### Checks, traps and returns -/

/-- R266, R40, R249 (check 1): an instruction that a latency core excludes raises ILLEGAL there with the word as its
value. GBAR too; the barrier of the thread's gang is looked at beside. -/
def Obligations.IllegalOnLatency : Prop :=
  (∀ (i : Instr) (g : Guard) (s : State) (k : Nat), simtInstr i = some g → isLat k = true → s.issuing = [k] →
    (s.thread k).guard g = true → (s.thread k).spec.mode = .normal →
    exec i s = .next (s.takeTrap k cILLEGAL 0 (encode i) (s.thread k).pc))
  ∧ ∀ (g : Guard) (s : State) (k : Nat), isLat k = true → s.issuing = [k] → (s.thread k).guard g = true →
    (s.thread k).spec.mode = .normal →
    exec (.gbar g) s = .next ((s.takeTrap k cILLEGAL 0 (encode (.gbar g)) (s.thread k).pc).gbarCheck (s.thread k).ids.seq)

/-- R249 (check 2), R162, R267: a privileged instruction, or a SYSWR of a register marked Sup, from a thread in user
mode raises PRIV with the word as its value; SLEEP so on a latency core. -/
def Obligations.PrivilegedInUserMode : Prop :=
  (∀ (i : Instr) (g : Guard) (s : State) (k : Nat), supInstr i = some g → s.issuing = [k] →
    (s.thread k).guard g = true → (s.thread k).trap.sup = false → (s.thread k).spec.mode = .normal →
    exec i s = .next (s.takeTrap k cPRIV 0 (encode i) (s.thread k).pc))
  ∧ ∀ (g : Guard) (s : State) (k : Nat), s.cur = .hart k → k < 256 → (s.thread k).guard g = true →
    (s.thread k).trap.sup = false → (s.thread k).spec.mode = .normal →
    exec (.sleep g) s = .next (s.takeTrap k cPRIV 0 (encode (.sleep g)) (s.thread k).pc)

/-- R249 (check 3), R69: the first named register at or above regcnt raises REG_ALLOT with its number. R84: a register
that is read with a word of bad parity is counted and raises POISON with the word's window address. -/
def Obligations.RegisterBound : Prop :=
  ∀ (i : Instr) (f : RegForm) (s : State) (k : Nat) (r : Reg), regForm i = some f → s.issuing = [k] →
    (s.thread k).guard f.g = true → (s.thread k).spec.mode = .normal →
    (f.regs.find? (fun r => s.regBad k r.toNat) = some r →
      exec i s = .next (s.takeTrap k cREG_ALLOT 0 (r.toNat : Word) (s.thread k).pc)
      ∧ (s.crewAt k = none → (s.thread k).regcnt ≤ r.toNat ∧ r ≠ 0))
    ∧ (f.regs.find? (fun r => s.regBad k r.toNat) = none → (readsOf i).find? (fun r => s.parityBad k r.toNat) = some r →
      exec i s = .next ((s.countParity (s.coreOf k)).takeTrap k cPOISON 0 (s.parityAddr k r.toNat) (s.thread k).pc))

/-- R30, R248: a guarded-off thread only goes on to the next instruction. -/
def Obligations.GuardedOff : Prop :=
  ∀ (i : Instr) (g : Guard) (s : State) (k : Nat), plainInstr i = some g → s.issuing = [k] →
    (s.thread k).guard g = false → exec i s = .next (s.advance k)

/-- R297: a trap that the thread's own handler takes saves the return address, cause and value, sets TA and goes to
tvec; no general register, predicate, fflags, fid or counter changes, and nothing of another thread or of memory.
ENGINE takes the first recorded chain failure with it (R143). -/
def Obligations.TrapEntry : Prop :=
  (∀ (s t : State) (k sub : Nat) (value ret : Word), (s.thread k).trap.ta = false →
    bitAt (s.thread k).trap.tvec 0 = true → t = s.takeTrap k cENGINE sub value ret →
    (t.thread k).pc = BitVec.ofNat 64 (fld (s.thread k).trap.tvec 56 3 * 8) ∧ (t.thread k).trap.ta = true
    ∧ (t.thread k).trap.tcause = BitVec.ofNat 64 (sub * 256 + cENGINE) ∧ (t.thread k).trap.tval = value
    ∧ (t.thread k).failures = (s.thread k).failures.drop 1 ∧ (t.thread k).regs = (s.thread k).regs ∧ t.mem = s.mem)
  ∧ ∀ (s t : State) (k cause sub : Nat) (value ret : Word),
    cause ∉ [cPAGE_NP, cPAGE_PERM, cSCALL, cINTR, cENGINE] → (s.thread k).trap.ta = false →
    bitAt (s.thread k).trap.tvec 0 = true → t = s.takeTrap k cause sub value ret →
    (t.thread k).pc = BitVec.ofNat 64 (fld (s.thread k).trap.tvec 56 3 * 8)
    ∧ (t.thread k).trap = { (s.thread k).trap with
        ta := true, tepc := BitVec.ofNat 64 (fld ret 56 3 * 8), tcause := BitVec.ofNat 64 (sub * 256 + cause), tval := value }
    ∧ (t.thread k).regs = (s.thread k).regs ∧ (t.thread k).preds = (s.thread k).preds ∧ (t.thread k).fp = (s.thread k).fp
    ∧ (t.thread k).oc = (s.thread k).oc ∧ (t.thread k).ids = (s.thread k).ids
    ∧ (∀ j, j ≠ k → t.thread j = s.thread j)
    ∧ t.mem = s.mem ∧ t.crews = s.crews ∧ t.gangs = s.gangs ∧ t.harts = s.harts ∧ t.pkg = s.pkg ∧ t.dies = s.dies
    ∧ (isLat k = false → ∀ b ∈ (t.core (s.coreOf k)).bundles, k ∉ b.members)

/-- R297, R298, R164: SCALL and INTR escalate, and so does every cause while tvec.EN = 0; a page fault escalates on a
latency core, and on a SIMT core it stops the crew of the thread: the cause and address stand with the thread, the
crew's threads leave their bundles with nothing else of them changed, and the crew, when it is on its core, is
stopping; a trap while TA = 1 keeps its cause and value as the second ones and escalates as DOUBLE from where the
thread stands. R50, R297: a thread past a service call holds its trap in W, with nothing else of it changed, until the
reply. -/
def Obligations.TrapHandedOver : Prop :=
  (∀ (s : State) (k cause sub : Nat) (value ret : Word),
    ((s.thread k).spec.mode = .normal → s.raise k cause sub value ret = s.takeTrap k cause sub value ret)
    ∧ ((s.thread k).spec.mode ≠ .normal → ∃ t, s.raise k cause sub value ret = t ∧ (t.thread k).spec.mode = .waiting
        ∧ (t.thread k).st.pending = .trap cause sub value ret ∧ (t.thread k).pc = (s.thread k).pc
        ∧ (t.thread k).regs = (s.thread k).regs ∧ (t.thread k).trap = (s.thread k).trap ∧ t.mem = s.mem))
  ∧ ∀ (s : State) (k cause sub : Nat) (value ret : Word), cause ≠ cENGINE →
    let cw := BitVec.ofNat 64 (sub * 256 + cause)
    ((cause = cSCALL ∨ cause = cINTR) → s.takeTrap k cause sub value ret = s.escalate k cw value ret)
    ∧ ((cause = cPAGE_NP ∨ cause = cPAGE_PERM) → isLat k = true →
        s.takeTrap k cause sub value ret = s.escalate k cw value ret)
    ∧ ((cause = cPAGE_NP ∨ cause = cPAGE_PERM) → isLat k = false →
        ∃ t, s.takeTrap k cause sub value ret = t ∧ (t.thread k).st.pending = .fault cw value
          ∧ (∀ j ∈ s.laneKeys (crewOf k), ∀ b ∈ (t.core (s.coreOf j)).bundles, j ∉ b.members)
          ∧ (∀ c, s.crewAt k = some c → t.crewAt k = some { c with place := if c.place.onCore then .stopping else c.place })
          ∧ (∀ j, (t.thread j).pc = (s.thread j).pc ∧ (t.thread j).regs = (s.thread j).regs
              ∧ (t.thread j).preds = (s.thread j).preds ∧ (t.thread j).fp = (s.thread j).fp ∧ (t.thread j).trap = (s.thread j).trap
              ∧ (j ≠ k → t.thread j = s.thread j))
          ∧ t.mem = s.mem ∧ t.harts = s.harts ∧ t.pkg = s.pkg ∧ t.gangs = s.gangs)
    ∧ (cause ∉ [cPAGE_NP, cPAGE_PERM, cSCALL, cINTR] → (s.thread k).trap.ta = true →
        s.takeTrap k cause sub value ret
          = (s.modThread k fun t => { t with trap := { t.trap with cause2 := BitVec.ofNat 8 cause, tval2 := value } }).escalate k
              (BitVec.ofNat 64 cDOUBLE) value (s.thread k).pc)
    ∧ (cause ∉ [cPAGE_NP, cPAGE_PERM, cSCALL, cINTR] → (s.thread k).trap.ta = false → bitAt (s.thread k).trap.tvec 0 = false →
        s.takeTrap k cause sub value ret = s.escalate k cw value ret)

/-- R299, R300: the escalation of a latency thread with no supervisor frame to load: the head of the escalation queue
moves on, and the hardware thread is idle and empty; with a full queue it stands pending, PC at the return address. No
other thread changes but the held lane of an AWAY thread, which takes its counters back (R49). The row ESCALATION: once
the queue has room, and the package is not quiesced, a pending latency thread is handed over; and a pending lane of a
resident crew, with no access in flight and room in its die's save area, becomes an AWAY lane whose frame stands there,
and the head of the queue moves on. -/
def Obligations.LatencyEscalation : Prop :=
  (∀ (s t : State) (k : Nat) (cause value ret : Word), isLat k = true → t = s.escalate k cause value ret →
    (s.escFull = true → (t.thread k).st.pending = .esc cause value ∧ (t.thread k).pc = ret ∧ t.pkg = s.pkg ∧ t.mem = s.mem
      ∧ t.harts = s.harts)
    ∧ (s.escFull = false → fld (s.hart k).htsup 51 10 = 0 →
        t.pkg.escHead = (s.pkg.escHead + 1) % 65536 ∧ (t.hart k).run = false ∧ t.threads.find k = none
        ∧ (∀ l, s.countKey k = l → l < 2 ^ 64 → l ≠ k → (t.thread l).oc = (s.thread k).oc)
        ∧ ∀ j, j ≠ k → j ≠ s.countKey k → t.thread j = s.thread j))
  ∧ ∀ (s : State) (k : Nat) (cause value : Word), (s.thread k).st.pending = .esc cause value →
    (s.threads.find k).isSome = true → s.pkg.qsd = false → s.escFull = false →
    (isLat k = true → exec (.escalation k) s
      = .next ((s.modThread k fun t => { t with st := { t.st with pending := .none } }).escalateHart k cause value))
    ∧ ∀ c a, isLat k = false → s.crewAt k = some c → c.place = .resident → s.pendingOf k = [] →
        (s.die (s.dieOf k)).findRoom 1024 1024 = some a →
        ∃ t, exec (.escalation k) s = .next t ∧ (t.thread k).st.away = true ∧ (t.thread k).st.pending = .none
          ∧ (t.thread k).st.live = false ∧ t.pkg.escHead = (s.pkg.escHead + 1) % 65536
          ∧ (a, k) ∈ (t.die (s.dieOf k)).escalated ∧ (a, 1024) ∈ (t.die (s.dieOf k)).frames
          ∧ t.crews = s.crews ∧ t.harts = s.harts ∧ ∀ j, j ≠ k → t.thread j = s.thread j

/-- R303, R383: ERET with TA = 1 goes to tepc and clears TA, and changes nothing else; with TA = 0 it raises ILLEGAL.
-/
def Obligations.ReturnFromTrap : Prop :=
  ∀ (g : Guard) (s : State) (k : Nat), s.executes k g anyCore .runs [] →
    ((s.thread k).trap.ta = true →
      ∃ t, exec (.eret g) s = .next t ∧ (t.thread k).pc = BitVec.ofNat 64 (fld (s.thread k).trap.tepc 56 3 * 8)
        ∧ (t.thread k).trap = { (s.thread k).trap with ta := false } ∧ (t.thread k).regs = (s.thread k).regs
        ∧ (t.thread k).preds = (s.thread k).preds ∧ (t.thread k).fp = (s.thread k).fp ∧ (t.thread k).st = (s.thread k).st
        ∧ (t.thread k).oc = (s.thread k).oc ∧ (∀ j, j ≠ k → t.thread j = s.thread j)
        ∧ t.mem = s.mem ∧ t.crews = s.crews ∧ t.gangs = s.gangs ∧ t.harts = s.harts ∧ t.pkg = s.pkg)
    ∧ ((s.thread k).trap.ta = false →
      exec (.eret g) s = .next (s.raise k cILLEGAL 0 (encode (.eret g)) (s.thread k).pc))

/-- R303, R370, R471, R473, R98: TRAP returns behind the instruction, BKPT at it, both with tval := n; TFENCE takes
ARITH with fflags AND ftrapen while an enabled flag is set, and goes on otherwise. -/
def Obligations.TrapInstructions : Prop :=
  (∀ (g : Guard) (n : BitVec 16) (s : State) (k : Nat), s.executes k g anyCore .holds [] →
    exec (.trap g n) s = .next (s.raise k cTRAP 0 (n.setWidth 64) (nextPc (s.thread k).pc)))
  ∧ (∀ (g : Guard) (n : BitVec 16) (s : State) (k : Nat), s.executes k g anyCore .runs [] →
    exec (.bkpt g n) s = .next (s.raise k cBKPT 0 (n.setWidth 64) (s.thread k).pc))
  ∧ ∀ (g : Guard) (s : State) (k : Nat), s.executes k g anyCore .holds [] →
    let v := (s.thread k).fp.fflags &&& (s.thread k).fp.ftrapen
    exec (.tfence g) s = .next (if v = 0 then s.advance k
      else s.raise k cARITH 0 (v.setWidth 64) (nextPc (s.thread k).pc))

/-! ### Loads, stores and atomics -/

/-- R116, R128, R417, R418, R465: an untranslated load and store of a latency thread in host memory: the load gives
the bytes, zero- or sign-extended (a q load two registers); the store writes the register's low bytes; each advances
the PC, and every other byte of memory reads as before. R205: a load with inv promises its bytes. R296: an access that no
unit answers gives POISON for a load, and a store is counted. R418: the registers that a load writes: sign- or
zero-extended bytes, least significant first; a q load the pair. -/
def Obligations.HostLoadStore : Prop :=
  (∀ (s : State) (k : Nat) (g : Guard) (sz : MemSize) (sc : Scope) (d a : Reg) (off : BitVec 24) (addr : Nat), isLat k = true →
    s.untranslated k → addr = (s.readReg k a + off.signExtend 64).toNat % 2 ^ 57 →
    inHost addr (memBytes sz) → addr % memBytes sz = 0 →
    (∀ sx o, s.executes k g anyCore .runs (memRegs sz d a) →
      let s1 := if o = .inv then s.promise k (hostTarget addr) (memBytes sz) else s
      (s.silent (s.agentOf k) = false → s.mem.past = [] →
        exec (.ld g sz sx o sc d a off) s = .next ((s1.writeRegs k (loadWrites (memBytes sz) sx d.toNat
          (s.mem.bytes.bytes addr (memBytes sz)))).goTo k (nextPc (s.thread k).pc)))
      ∧ (s.silent (s.agentOf k) = true →
        exec (.ld g sz sx o sc d a off) s
          = .next ((s1.answered (s.agentOf k)).raise k cPOISON 0 (BitVec.ofNat 64 addr) (s.thread k).pc)))
    ∧ (∀ o, s.executes k g anyCore .runs (memRegs sz d a) →
      (s.silent (s.agentOf k) = false → ∃ t, exec (.st g sz o sc d a off) s = .next t
        ∧ t.mem.bytes.bytes addr (memBytes sz) = s.storeData k sz d
        ∧ (∀ x, x < addr ∨ addr + memBytes sz ≤ x → t.mem.bytes.byte x = s.mem.bytes.byte x)
        ∧ t.threads = (s.advance k).threads ∧ t.crews = s.crews ∧ t.pkg = s.pkg ∧ t.harts = s.harts)
      ∧ (s.silent (s.agentOf k) = true →
        exec (.st g sz o sc d a off) s = .next ((s.answered (s.agentOf k)).countTimeout.goTo k (nextPc (s.thread k).pc)))))
  ∧ ((∀ (n d : Nat) (bs : List Byte), bs.length = n → n ∈ [1, 2, 4, 8] →
    loadWrites n false d bs = [(d, BitVec.ofNat 64 (bytesToNat bs))])
  ∧ (∀ (n d : Nat) (bs : List Byte), bs.length = n → n ∈ [1, 2, 4] →
    loadWrites n true d bs = [(d, (BitVec.ofNat (8 * n) (bytesToNat bs)).signExtend 64)])
  ∧ (∀ (d : Nat) (bs : List Byte), bs.length = 16 →
    loadWrites 16 false d bs = [(d, BitVec.ofNat 64 (bytesToNat (bs.take 8))), (d + 1, BitVec.ofNat 64 (bytesToNat (bs.drop 8)))])
  ∧ ∀ (n v : Nat), v < 256 ^ n → bytesToNat (natBytes n v) = v)

/-- R123, R249 (check 4): a misaligned LD, ST, AMO or CAS raises MISALIGN with the address. -/
def Obligations.MisalignedAccess : Prop :=
  ∀ (s : State) (k : Nat) (g : Guard),
    (∀ sz sx o sc d a off, s.executes k g anyCore .runs (memRegs sz d a) → s.effAddr k a off % memBytes sz ≠ 0 →
      exec (.ld g sz sx o sc d a off) s = .next (s.raise k cMISALIGN 0 (s.effAddr k a off : Word) (s.thread k).pc)
      ∧ exec (.st g sz o sc d a off) s = .next (s.raise k cMISALIGN 0 (s.effAddr k a off : Word) (s.thread k).pc))
    ∧ (∀ i n o sc d a b, amoForm i = some (g, n, o, sc, d, a, b) →
      s.executes k g anyCore .holds [a.toNat, b.toNat, d.toNat] → (s.readReg k a).toNat % 2 ^ 57 % n ≠ 0 →
      exec i s = .next (s.raise k cMISALIGN 0 ((s.readReg k a).toNat % 2 ^ 57 : Nat) (s.thread k).pc))
    ∧ ∀ sz o sc d a b c, s.executes k g anyCore .holds [a.toNat, b.toNat, c.toNat, d.toNat] →
      (s.readReg k a).toNat % 2 ^ 57 % amoBytes sz ≠ 0 →
      exec (.cas g sz o sc d a b c) s = .next (s.raise k cMISALIGN 0 ((s.readReg k a).toNat % 2 ^ 57 : Nat) (s.thread k).pc)

/-- R126, R128: where the address resolves to a target, a latency thread's load reads it and its store writes it at
once; a SIMT thread's access issues, raising its counter, and the register or memory changes with its return. R50: past a
service call a store goes to the store buffer. R204: a SIMT thread's load with racq sends a promote. -/
def Obligations.LoadStoreIssue : Prop :=
  ∀ (s s0 : State) (k : Nat) (g : Guard) (sz : MemSize) (o : Ord) (sc : Scope) (d a : Reg) (off : BitVec 24) (t : Target),
    s.executes k g anyCore .runs (memRegs sz d a) → s.effAddr k a off % memBytes sz = 0 →
    (∀ s1 sx s2 bs, s.target k (s.effAddr k a off) (memBytes sz) .load = (s0, .inl t) →
      s1 = (if o = .inv then s0.promise k t (memBytes sz) else s0) →
      (isLat k = true → s1.silent (s1.agentOf k) = false → s1.readTarget k t (memBytes sz) = (s2, some bs) →
        exec (.ld g sz sx o sc d a off) s
          = .next (((s2.promised k t bs).1.writeRegs k (loadWrites (memBytes sz) sx d.toNat (s2.promised k t bs).2)).goTo k
              (nextPc (s.thread k).pc)))
      ∧ (isLat k = false → s1.readTarget k t (memBytes sz) = (s2, some bs) → (s1.thread k).oc.ld < 63 →
        exec (.ld g sz sx o sc d a off) s
          = .next (((s1.sendPromote k o t).send ((s1.access k (s.effAddr k a off) t (.load (memBytes sz) sx d.toNat) o sc).found
              bs)).goTo k (nextPc (s.thread k).pc))))
    ∧ (s.target k (s.effAddr k a off) (memBytes sz) .store = (s0, .inl t) →
      (isLat k = true → s0.silent (s0.agentOf k) = false → exec (.st g sz o sc d a off) s
        = .next ((s0.writeTarget k t (s.storeData k sz d)).goTo k (nextPc (s.thread k).pc)))
      ∧ (isLat k = false → (s0.thread k).spec.mode ≠ .speculating → (s0.thread k).oc.st < 63 →
        exec (.st g sz o sc d a off) s
        = .next ((s0.send (s0.access k (s.effAddr k a off) t (.store (s.storeData k sz d)) o sc)).goTo k
            (nextPc (s.thread k).pc)))
      ∧ ∀ b : BufferedStore, isLat k = false → (s0.thread k).spec.mode = .speculating →
        b = ⟨BitVec.ofNat 64 (s.effAddr k a off), t, s.storeData k sz d, o = .rel ∨ o = .ar, sc, (s0.thread k).pc⟩ →
        bufferEntries ((s0.thread k).spec.buf ++ [b]) ≤ 8 →
        exec (.st g sz o sc d a off) s = .next ((s0.modThread k fun t =>
          { t with spec := { t.spec with buf := t.spec.buf ++ [b] } }).goTo k (nextPc (s.thread k).pc)))

/-- R366, R367, R372: an atomic of a latency thread in host memory: g[d] takes the old value and the place the new
one, which for a CAS that fails is the old one; every other byte reads as before. -/
def Obligations.HostAtomics : Prop :=
  ∀ (s : State) (k : Nat) (g : Guard) (n : Nat) (o : Ord) (sc : Scope) (d a b c : Reg) (i : Instr) (regs : List Nat) (cv : Word),
    isLat k = true → s.untranslated k → s.silent (s.agentOf k) = false →
    ((amoForm i = some (g, n, o, sc, d, a, b) ∧ regs = [a.toNat, b.toNat, d.toNat] ∧ cv = 0)
      ∨ ∃ sz, n = amoBytes sz ∧ i = .cas g sz o sc d a b c ∧ regs = [a.toNat, b.toNat, c.toNat, d.toNat] ∧ cv = s.readReg k c) →
    s.executes k g anyCore .holds regs →
    let addr := (s.readReg k a).toNat % 2 ^ 57
    inHost addr n → addr % n = 0 →
    let old := bytesToNat (s.mem.bytes.bytes addr n)
    ∃ t, exec i s = .next t
      ∧ t.threads = ((s.writeReg k d (BitVec.ofNat 64 old)).goTo k (nextPc (s.thread k).pc)).threads
      ∧ bytesToNat (t.mem.bytes.bytes addr n) = atomicValue i (8 * n) old (s.readReg k b).toNat cv.toNat % 256 ^ n
      ∧ (∀ x, x < addr ∨ addr + n ≤ x → t.mem.bytes.byte x = s.mem.bytes.byte x)
      ∧ t.crews = s.crews ∧ t.pkg = s.pkg

/-- R366, R372: an atomic of a SIMT thread issues as one access that raises oc.ld; one with racq sends a promote
(R204). -/
def Obligations.AtomicIssue : Prop :=
  ∀ (s s1 s2 : State) (k : Nat) (g : Guard) (n : Nat) (o : Ord) (sc : Scope) (d a b c : Reg) (i : Instr) (regs : List Nat)
    (cv : Word) (t : Target) (bs : List Byte), isLat k = false →
    ((amoForm i = some (g, n, o, sc, d, a, b) ∧ regs = [a.toNat, b.toNat, d.toNat] ∧ cv = 0)
      ∨ ∃ sz, n = amoBytes sz ∧ i = .cas g sz o sc d a b c ∧ regs = [a.toNat, b.toNat, c.toNat, d.toNat] ∧ cv = s.readReg k c) →
    s.executes k g anyCore .holds regs →
    let addr := (s.readReg k a).toNat % 2 ^ 57
    addr % n = 0 → s.target k addr n (.atomic (simpleAtomic i)) = (s1, .inl t) → s1.readTarget k t n = (s2, some bs) →
    (s1.thread k).oc.ld < 63 →
    exec i s = .next (((s1.sendPromote k o t).send ((s1.access k addr t (.atomic i n d.toNat (s.readReg k b) cv) o sc).found bs)).goTo k
      (nextPc (s.thread k).pc))

/-- R126, R296, R366, R418, R465: an access that issues raises its thread's counter and stands among the accesses in
flight under a new number; the rows that return an access perform it and lower its counter: a load and an atomic write
their registers, a store its bytes, CWB and CINV act on their line; an access that is not answered ends by R296. -/
def Obligations.AccessReturns : Prop :=
  (∀ (s : State) (a : Access),
    (s.send a).mem.inflight.find s.nxt.access = some a ∧ (s.send a).nxt.access = s.nxt.access + 1
    ∧ (s.send a).mem.bytes = s.mem.bytes
    ∧ ((s.send a).thread a.thread).regs = (s.thread a.thread).regs
    ∧ (match a.kind with
      | .load .. | .atomic .. => ((s.send a).thread a.thread).oc.ld = (s.thread a.thread).oc.ld + 1
          ∧ ((s.send a).thread a.thread).oc.st = (s.thread a.thread).oc.st
      | _ => ((s.send a).thread a.thread).oc.st = (s.thread a.thread).oc.st + 1
          ∧ ((s.send a).thread a.thread).oc.ld = (s.thread a.thread).oc.ld))
  ∧ ∀ (s : State) (id : Nat) (a : Access), s.mem.inflight.find id = some a →
    (∀ size sx d s1 bs, a.kind = .load size sx d → s.mayPerform id a = true → s.coalesced id a = [(id, a)] →
      (s.finish id a).targetGone a.thread a.target size = false →
      (s.finish id a).readTarget a.thread a.target size = (s1, some bs) →
      exec (.loadSectorReturn id) s = .next ((s1.promised a.thread a.target bs).1.deliver a
        (loadWrites size sx d (applyOverlay (s1.promised a.thread a.target bs).2 a.overlay))))
    ∧ (∀ i size d b c s0 s1 old, a.kind = .atomic i size d b c → s.mayPerform id a = true →
      s0 = s.finish id a → s0.targetGone a.thread a.target size = false →
      s0.atomicTarget a.thread a.target size i b c = (s1, some old) →
      exec (.atomicReply id) s = .next (s1.deliver a [(d, BitVec.ofNat 64 (old % 2 ^ (8 * size)))]))
    ∧ ((∀ size sx d, a.kind ≠ .load size sx d) → (∀ i size d b c, a.kind ≠ .atomic i size d b c) → s.mayPerform id a = true →
      s.coalesced id a = [(id, a)] → wholeLine [(id, a)] = none →
      exec (.storePerformed id) s = .next (s.performStore id a))
    ∧ (∀ data, a.kind = .store data → s.performStore id a = (s.writeTarget a.thread a.target data).finish id a)
    ∧ (a.kind = .cwb → s.performStore id a = (s.performCacheOp a.thread a.target a.sc false).finish id a)
    ∧ (a.kind = .cinv → s.performStore id a = (s.performCacheOp a.thread a.target a.sc true).finish id a)
    ∧ (∀ data, a.kind = .store data → ∃ t, exec (.memoryTimeout id) s = .next t
      ∧ t.pkg.tocnt = min (s.pkg.tocnt + 1) (2 ^ 48 - 1) ∧ t.mem.bytes = s.mem.bytes ∧ t.mem.inflight.find id = none
      ∧ (t.thread a.thread).oc.st = (s.thread a.thread).oc.st - 1)
    ∧ (∀ size sx d, a.kind = .load size sx d → a.drop = false →
      ((∀ pa key tr v r ro rs, a.target ≠ .phys pa key tr v (some r) ro rs) →
        exec (.memoryTimeout id) s = .next ((s.finish id a).lateTrap a cPOISON 0))
      ∧ ∀ pa key tr v r ro rs, a.target = .phys pa key tr v (some r) ro rs →
        exec (.memoryTimeout id) s = .next ((s.finish id a).lateTrap a cPAGE_NP 0x04))
    -- one access in flight, to host memory
    ∧ (∀ pa n, s.mem.inflight = [(id, a)] → s.mem.msgs = [] → s.mem.past = [] → a.drop = false → a.overlay = [] →
      (s.thread a.thread).spec.mode = .normal → a.target = hostTarget pa → inHost pa n →
      (∀ sx d, a.kind = .load n sx d → ∃ t, exec (.loadSectorReturn id) s = .next t ∧ t.mem.inflight = []
        ∧ (t.thread a.thread).oc.ld = (s.thread a.thread).oc.ld - 1 ∧ t.mem.bytes = s.mem.bytes
        ∧ t.threads = ((s.finish id a).writeRegs a.thread (loadWrites n sx d (s.mem.bytes.bytes pa n))).threads)
      ∧ (∀ i d b c, a.kind = .atomic i n d b c → ∃ t, exec (.atomicReply id) s = .next t ∧ t.mem.inflight = []
        ∧ (t.thread a.thread).oc.ld = (s.thread a.thread).oc.ld - 1
        ∧ t.threads = ((s.finish id a).writeReg a.thread (BitVec.ofNat 6 d)
            (BitVec.ofNat 64 (bytesToNat (s.mem.bytes.bytes pa n)))).threads
        ∧ bytesToNat (t.mem.bytes.bytes pa n)
            = atomicValue i (8 * n) (bytesToNat (s.mem.bytes.bytes pa n)) b.toNat c.toNat % 256 ^ n
        ∧ ∀ x, x < pa ∨ pa + n ≤ x → t.mem.bytes.byte x = s.mem.bytes.byte x)
      ∧ (∀ data, a.kind = .store data → data.length = n → n ≤ 16 → ∃ t, exec (.storePerformed id) s = .next t
        ∧ t.mem.inflight = [] ∧ (t.thread a.thread).oc.st = (s.thread a.thread).oc.st - 1
        ∧ t.mem.bytes.bytes pa n = data ∧ ∀ x, x < pa ∨ pa + n ≤ x → t.mem.bytes.byte x = s.mem.bytes.byte x))

/-! ### Fences, cache operations, translation -/

/-- R201, R206, R208, R395, R396, R430: a FENCE completes once what its kinds name is done, and waits, changing
nothing, while it is not; xv performs at their homes what any cache, buffer or message
holds written of lines that several views reach. OPFENCE waits for the crew's Loam
stores. IFENCE goes on. -/
def Obligations.Fences : Prop :=
  (∀ (g : Guard) (f : FenceSpec) (s : State) (k : Nat), s.executes k g anyCore .holds [] →
    let p := (s.pendingOf k).map fun e => e.2.kind
    let done := (f.ld = true → p.any AccessKind.loads = false) ∧ ((f.st = true ∨ f.xv = true) → p = [])
      ∧ (f.io = true → p.any AccessKind.stores = false)
      ∧ (f.en = true → (s.thread k).oc.cp = 0 ∧ (s.thread k).oc.tile = 0)
    (done → exec (.fence g f) s
      = .next ((if f.xv then s.crossViews (s.agentOf k) else s).goTo k (nextPc (s.thread k).pc)))
    ∧ (¬done → exec (.fence g f) s = .next s))
  ∧ (∀ (g : Guard) (s : State) (k : Nat), s.executes k g simtOnly .holds [] →
    (s.loamStores (crewOf k) = false → exec (.opfence g) s = .next (s.advance k))
    ∧ (s.loamStores (crewOf k) = true → exec (.opfence g) s = .next s))
  ∧ ∀ (g : Guard) (s : State) (k : Nat), s.executes k g anyCore .holds [] → exec (.ifence g) s = .next (s.advance k)

/-- R378, R404, R440: CWB, CINV and ICINV do nothing to an address in the window span; elsewhere they act on the
128-byte line of the resolved address, CWB and CINV of a SIMT thread as an access that raises oc.st, ICINV by dropping
the line from the instruction caches that its scope names. PREF of an address that no page answers does nothing. -/
def Obligations.CacheOperations : Prop :=
  ∀ (s s1 : State) (k : Nat) (g : Guard) (sc : Scope) (a : Reg) (off : BitVec 24),
    (s.executes k g anyCore .holds [a.toNat] →
      (∀ x, s.resolve (s.who k) (s.effAddr k a off) .load = (s1, .window x) →
        exec (.cwb g sc a off) s = .next (s.advance k) ∧ exec (.cinv g sc a off) s = .next (s.advance k))
      ∧ (∀ p, s.resolve (s.who k) (s.effAddr k a off) .load = (s1, .page p) →
        let t := { p with pa := p.pa / 128 * 128 }.target
        (isLat k = true →
          exec (.cwb g sc a off) s = .next ((s1.performCacheOp k t sc false).goTo k (nextPc (s.thread k).pc))
          ∧ exec (.cinv g sc a off) s = .next ((s1.performCacheOp k t sc true).goTo k (nextPc (s.thread k).pc)))
        ∧ (isLat k = false → (s1.thread k).oc.st < 63 →
          exec (.cwb g sc a off) s
            = .next ((s1.send (s1.access k (s.effAddr k a off) t .cwb .plain sc)).goTo k (nextPc (s.thread k).pc))
          ∧ exec (.cinv g sc a off) s
            = .next ((s1.send (s1.access k (s.effAddr k a off) t .cinv .plain sc)).goTo k (nextPc (s.thread k).pc))))
      ∧ (∀ p, s.icinvPage (s.who k) (s.effAddr k a off) = (s1, .page p) →
        ∃ t, exec (.icinv g sc a off) s = .next t
          ∧ (∀ l ∈ t.mem.icache, l ∈ s1.mem.icache
              ∧ ¬(l.line = (s1.forward p.pa p.key).1 / 128 ∧ s1.icacheNamed k sc l.core = true))
          ∧ (∀ l ∈ s1.mem.icache, ¬(l.line = (s1.forward p.pa p.key).1 / 128 ∧ s1.icacheNamed k sc l.core = true) →
              l ∈ t.mem.icache)
          ∧ t.mem.bytes = s1.mem.bytes ∧ t.mem.copies = s1.mem.copies))
    ∧ (∀ kind, s.executes k g anyCore .runs [a.toNat] →
        exec (.pref g kind a off) s = .next ((s.pref k kind (s.effAddr k a off)).goTo k (nextPc (s.thread k).pc))
        ∧ ∀ acc, acc = (if kind = .st then AccKind.store else .load) → s.prefPage k (s.effAddr k a off) acc = none →
            exec (.pref g kind a off) s = .next (s.advance k))

/-- R162, R163, R472: TLBINV drops the translations that it names from every TLB, with the walkers' cached entries of
the ASID, and changes nothing else but its PC; it waits while the thread has stores in flight, while an access in
flight used a named entry, and while a store held back past a service call did. -/
def Obligations.TlbInvalidate : Prop :=
  ∀ (s : State) (k : Nat) (g : Guard) (a b : Reg) (sz : BitVec 3),
    let page := (va57 (s.readReg k a), sz.toNat)
    let asid := (s.readReg k b).toNat % 65536
    let quiet := fun (n : InvName) => s.storesPending k = false ∧ s.heldStores n = false
      ∧ s.mem.inflight.all (fun e => !n.usedBy e.2) = true
    let dropped := fun (n : InvName) => { s.mem with
      tlb := s.mem.tlb.filter fun e => !n.drops e
      walker := s.mem.walker.filter fun e => match n.asid with | some x => e.asid != x | none => false }
    let after := fun (n : InvName) => { s with mem := dropped n }.goTo k (nextPc (s.thread k).pc)
    (s.executes k g privileged .holds [a.toNat, b.toNat] →
      (quiet ⟨some asid, some page⟩ → exec (.tlbinvPg g a b sz) s = .next (after ⟨some asid, some page⟩))
      ∧ (¬quiet ⟨some asid, some page⟩ → exec (.tlbinvPg g a b sz) s = .next s))
    ∧ (s.executes k g privileged .holds [b.toNat] →
      (quiet ⟨some asid, none⟩ → exec (.tlbinvAs g b) s = .next (after ⟨some asid, none⟩))
      ∧ (¬quiet ⟨some asid, none⟩ → exec (.tlbinvAs g b) s = .next s))
    ∧ (s.executes k g privileged .holds [] →
      (quiet ⟨none, none⟩ → exec (.tlbinvAll g) s = .next (after ⟨none, none⟩))
      ∧ (¬quiet ⟨none, none⟩ → exec (.tlbinvAll g) s = .next s))
    ∧ (s.executes k g privileged .holds [a.toNat] →
      (quiet ⟨none, some page⟩ → exec (.tlbinvPga g a sz) s = .next (after ⟨none, some page⟩))
      ∧ (¬quiet ⟨none, some page⟩ → exec (.tlbinvPga g a sz) s = .next s))

/-! ### Control flow, waiting, ending -/

/-- R371, R406, R407, R429: a branch takes the executing threads to PC + 8 × off and the others to PC + 8; JAL and
JALR write the address of the next instruction first, JALR raising MISALIGN at a target that is no multiple of 8; NOP
goes on. R371, R33: a branch over a bundle: each thread goes to its own next PC, and the bundle keeps those at the
lowest. -/
def Obligations.ControlFlow : Prop :=
  (∀ (s : State) (k : Nat) (g : Guard),
    let here := (s.thread k).pc
    let next := BitVec.ofNat 64 ((here.toNat + 8) % 2 ^ 57)
    let target := fun (off : BitVec 32) => BitVec.ofInt 64 ((here.toInt + 8 * immInt off) % 2 ^ 57)
    (s.executes k g anyCore .runs [] →
      (∀ h off, exec (.br g h off) s = .next (s.goTo k (target off))) ∧ exec (.nop g) s = .next (s.goTo k next))
    ∧ (∀ call d off, s.executes k g anyCore .runs [d.toNat] →
      exec (.jal g call d off) s = .next ((s.writeReg k d next).goTo k (target off)))
    ∧ ∀ h d a imm, s.executes k g anyCore .runs [a.toNat, d.toNat] →
      let dest := BitVec.ofInt 64 (((s.readReg k a).toInt + immInt imm) % 2 ^ 57)
      (dest.toNat % 8 = 0 → exec (.jalr g h d a imm) s = .next ((s.writeReg k d next).goTo k dest))
      ∧ (dest.toNat % 8 ≠ 0 →
        exec (.jalr g h d a imm) s = .next (s.raise k cMISALIGN 0 dest here)))
  ∧ (∀ (s : State) (g : Guard) (h : BrHint) (off : BitVec 32) (t : State), s.admits g anyCore .runs [] →
    exec (.br g h off) s = .next t →
    (∀ k ∈ s.issuing, (t.thread k).pc = if (s.thread k).guard g then branchTarget (s.thread k).pc off else nextPc (s.thread k).pc)
    ∧ (∀ k, k ∉ s.issuing → t.thread k = s.thread k)
    ∧ (∀ c p ix, s.cur = .bundle c p ix → (∀ k ∈ s.issuing, isLat k = false ∧ s.coreOf k = c) →
        ∀ k ∈ s.issuing, (∃ j ∈ s.issuing, (t.thread j).pc.toNat < (t.thread k).pc.toNat) →
          ∀ b ∈ (t.core c).bundles, k ∉ b.members))

/-- R59, R61, R369, R477, R479: YIELD makes a SIMT thread the youngest and restarts its crew's watchdog, and posts the
notice of a latency thread (log 60); YIELD.H lowers the thread until the expiry, and holds a latency thread; BKOFF
raises the level, to at most 6, and holds the thread until its expiry, and a false guard clears the level; WAITC goes
on once every counter is within its field, and parks otherwise. -/
def Obligations.Waiting : Prop :=
  ∀ (s : State) (k : Nat) (g : Guard),
    (s.executes k g anyCore .holds [] →
      exec (.yield g) s = .next ((if isLat k then s.modHart k fun h => { h with yielded := true }
        else (s.youngest k).resetWatchdog k).goTo k (nextPc (s.thread k).pc))
      ∧ exec (.yieldH g) s = .next (((s.modThread k fun t =>
          { t with st := { t.st with lowered := true, held := t.st.held || isLat k } }).resetWatchdog k).goTo k (nextPc (s.thread k).pc)))
    ∧ (s.issuing = [k] → (s.thread k).guard g = true →
      exec (.bkoff g) s = .next ((s.modThread k fun t =>
        { t with pc := nextPc t.pc, issued := t.issued + 1, st := { t.st with level := min (t.st.level + 1) 6, held := true } }).leaveBundle k))
    ∧ (s.issuing = [k] → (s.thread k).guard g = false →
      exec (.bkoff g) s = .next ((s.modThread k fun t => { t with st := { t.st with level := 0 } }).goTo k
        (nextPc (s.thread k).pc)))
    ∧ ((s.thread k).st.held = true →
      exec (.bkoffHoldExpiry k) s = .next (s.modThread k fun t => { t with st := { t.st with held := false } }))
    ∧ ((s.thread k).st.lowered = true →
      exec (.yieldHExpiry k) s
        = .next (s.modThread k fun t => { t with st := { t.st with lowered := false, held := t.st.held && !isLat k } }))
    ∧ ∀ ld st cp tile, s.executes k g anyCore .runs [] → (s.thread k).dueFailure = none →
      let oc := (s.thread k).oc
      let within := oc.ld ≤ ld.toNat ∧ oc.st ≤ st.toNat ∧ oc.cp ≤ cp.toNat ∧ oc.tile ≤ tile.toNat
      (within → exec (.waitc g ld st cp tile) s = .next ((s.modThread k Thread.retrying).goTo k (nextPc (s.thread k).pc)))
      ∧ (¬within → exec (.waitc g ld st cp tile) s
        = .next (((s.modThread k Thread.retrying).parkThread k .counters (.waitc g ld st cp tile)).leaveBundle k))

/-- R62, R384: an EXIT of a SIMT thread without loads and stores in flight ends it: the thread is gone, struck out of
its crew's join registers, and its gang counts one less; with some in flight it waits. A latency thread that belongs
to no gang is handed to the supervisor (R385), and an AWAY thread ends with its held lane; HTSAVE takes a frame that is
not valid (R300). R34, R62, R384: what the end of a SIMT thread leaves: no such thread,
its lane in no join register of its crew, its arrivals withdrawn and its gang's live count one lower, when no arrival
set waits for its lane. -/
def Obligations.Exits : Prop :=
  (∀ (s : State) (k : Nat) (g : Guard), s.executes k g anyCore .holds [] → (s.thread k).dueFailure = none →
    ((s.thread k).oc.ld ≠ 0 ∨ (s.thread k).oc.st ≠ 0 →
      exec (.exit g) s = .next (s.afterExits (crewsOf [k]) [(s.thread k).ids.seq]))
    ∧ ((s.thread k).oc.ld = 0 → (s.thread k).oc.st = 0 → isLat k = false →
      exec (.exit g) s = .next (((s.endThread k).leaveBundle k).afterExits (crewsOf [k]) [(s.thread k).ids.seq]))
    ∧ ((s.thread k).oc.ld = 0 → (s.thread k).oc.st = 0 → isLat k = true →
      (s.heldLane (s.thread k) = none ∨ (s.thread k).st.away = false) → s.escFull = false →
      exec (.exit g) s = .next ((s.exitHart k).afterExits [] [(s.thread k).ids.seq]))
    ∧ ∀ l, (s.thread k).oc.ld = 0 → (s.thread k).oc.st = 0 → isLat k = true → s.heldLane (s.thread k) = some l →
      (s.thread k).st.away = true →
      exec (.exit g) s = .next ((((((s.exitFrame k).endThread l).afterExits [crewOf l] [(s.thread l).ids.seq]).vacate k).loadSup
        k).afterExits [] [(s.thread k).ids.seq]))
  ∧ (∀ (s t : State) (k : Nat) (c : Crew) (x : Gang), isLat k = false → s.crewAt k = some c → k = laneKey (crewOf k) (laneOf k) →
    s.gangs.find (s.thread k).ids.seq = some x → (∀ a ∈ c.sets, a.members.getLsbD (laneOf k) = false) → t = s.endThread k →
    t.threads.find k = none
    ∧ (∃ c', t.crews.find (crewOf k) = some c' ∧ (∀ n, (c'.join n).e.getLsbD (laneOf k) = false ∧ (c'.join n).v.getLsbD (laneOf k) = false)
        ∧ ∀ n l, l ≠ laneOf k → (c'.join n).e.getLsbD l = (c.join n).e.getLsbD l)
    ∧ (∃ x', t.gangs.find (s.thread k).ids.seq = some x' ∧ x'.live = x.live - 1
        ∧ (s.thread k).ids.gang.toNat ∉ x'.arrived)
    ∧ ∀ j, j ≠ k → t.threads.find j = s.threads.find j)

/-! ### Crews and gangs -/

/-- R34, R35, R408, R409: JOIN.ENR sets the lane's E and clears its V; JOIN.WAIT sets V and parks, raising JOIN when
not enrolled; JOIN.STRIKE clears both and fails the sets that wait for the lane; JOIN.RST clears the register when
nobody waits. After each the release condition is evaluated. -/
def Obligations.Joins : Prop :=
  ∀ (s : State) (k : Nat) (g : Guard) (n : Pred), s.executes k g simtOnly .holds [] →
    let b : BitVec 32 := 1#32 <<< laneOf k
    exec (.joinEnr g n) s = .next
      (((s.modJoin k n fun j => ⟨j.e ||| b, j.v &&& ~~~b⟩).goTo k (nextPc (s.thread k).pc)).evalJoins (crewOf k))
    ∧ ((s.joinAt k n).e.getLsbD (laneOf k) = true → exec (.joinWait g n) s = .next
      ((((s.modJoin k n fun j => ⟨j.e, j.v ||| b⟩).parkThread k (.join n) (.joinWait g n)).leaveBundle k).evalJoins (crewOf k)))
    ∧ ((s.joinAt k n).e.getLsbD (laneOf k) = false → exec (.joinWait g n) s = .next
      ((s.raise k cJOIN 0 (n.setWidth 64) (s.thread k).pc).evalJoins (crewOf k)))
    ∧ exec (.joinStrike g n) s = .next
      ((((s.modJoin k n fun j => ⟨j.e &&& ~~~b, j.v &&& ~~~b⟩).failSets (crewOf k) (laneOf k)).goTo k
        (nextPc (s.thread k).pc)).evalJoins (crewOf k))
    ∧ (s.waiters (crewOf k) n = [] → exec (.joinRst g n) s = .next
      (((s.modJoin k n fun _ => ⟨0, 0⟩).goTo k (nextPc (s.thread k).pc)).evalJoins (crewOf k)))
    ∧ (s.waiters (crewOf k) n ≠ [] → exec (.joinRst g n) s = .next
      ((s.raise k cJOIN 0 (n.setWidth 64) (s.thread k).pc).evalJoins (crewOf k)))

/-- R35: when E ≠ 0 and V = E in a crew that stands on its core, every thread parked on the register becomes ready at
the instruction after its JOIN.WAIT, V := 0 and E is kept; otherwise nothing changes. -/
def Obligations.JoinRelease : Prop :=
  ∀ (s t : State) (c : Nat) (cr : Crew) (n : BitVec 3), s.crews.find c = some cr → cr.place.onCore = true →
    t = s.evalJoin c n →
    (¬((cr.join n).e ≠ 0 ∧ (cr.join n).v = (cr.join n).e) → t = s)
    ∧ ((cr.join n).e ≠ 0 → (cr.join n).v = (cr.join n).e →
      (∃ cr', t.crews.find c = some cr' ∧ (cr'.join n).e = (cr.join n).e ∧ (cr'.join n).v = 0
        ∧ ∀ m, m ≠ n → cr'.join m = cr.join m)
      ∧ (∀ l, l < 32 → (s.threads.find (laneKey c l)).isSome = true → (s.thread (laneKey c l)).st.park = .join n →
          (t.thread (laneKey c l)).st.park = .none ∧ (t.thread (laneKey c l)).pc = nextPc (s.thread (laneKey c l)).pc)
      ∧ ∀ k, (s.thread k).st.park ≠ .join n → t.thread k = s.thread k)

/-- R41, R399, R400: GBAR records the arrival and parks; the barrier opens a new instance when every live thread of
the gang has arrived, and a close notice to a core lets its threads that stand in the closed instance go on. -/
def Obligations.GangBarrier : Prop :=
  (∀ (s : State) (k : Nat) (g : Guard), s.executes k g simtOnly .holds [] →
    let seq := (s.thread k).ids.seq
    let ix := (s.thread k).ids.gang.toNat
    exec (.gbar g) s = .next ((((s.modGang seq fun x => { x with arrived := if x.arrived.contains ix then x.arrived else ix :: x.arrived }
      ).parkThread k .gbar (.gbar g)).leaveBundle k).gbarCheck seq))
  ∧ (∀ (s : State) (seq : Nat) (x : Gang), s.gangs.find seq = some x →
    (x.arrived ≠ [] → x.arrived.length = x.live → ∃ x', (s.gbarCheck seq).gangs.find seq = some x' ∧ x'.arrived = [] ∧ x'.closing = x.cores)
    ∧ (x.arrived.length ≠ x.live → s.gbarCheck seq = s))
  ∧ ∀ (s : State) (seq core : Nat) (x : Gang), s.gangs.find seq = some x → core ∈ x.closing → x.arrived = [] →
    (∀ e ∈ s.crews, ∀ f, e.2.place ≠ .saved f) →
    ∃ t, exec (.gbarClose seq core) s = .next t
      ∧ (∀ k ∈ s.gbarReleased seq x core, (t.thread k).st.park = .none)
      ∧ (∀ k, k ∉ s.gbarReleased seq x core → t.thread k = s.thread k)
      ∧ ∃ x', t.gangs.find seq = some x' ∧ x'.closing = x.closing.filter (· != core)

/-! ### Cross-lane instructions, shared registers, allotments, buffers -/

/-- R37 to R40, R443, R444, R451, R452, R456, R457, R475: a member arrives, whatever its guard, and parks; the last
arrival completes the set (the only one does at once), and every member goes on with its result, a guarded-off one
keeping its destination; a thread that neither its mask nor a waiting set names raises JOIN, and one whose mask differs
from the waiting set's raises it with every arrived member. -/
def Obligations.CrossLane : Prop :=
  ∀ (i : Instr) (f : CrossForm) (s : State) (k : Nat) (c : Crew), crossForm i = some f → s.issuing = [k] →
    s.passes k simtOnly .holds (f.regs.map (·.toNat)) → s.crewAt k = some c →
    let m : BitVec 32 := (s.readReg k f.mask).setWidth 32
    let l := laneOf k
    let pc := (s.thread k).pc
    let present := ∀ j, j < 32 → m.getLsbD j = true → (s.threads.find (laneKey (crewOf k) j)).isSome = true
    let waiting := c.sets.find? (fun a => a.pc == pc)
    (m.getLsbD l = false → (∀ a, waiting = some a → a.members.getLsbD l = false) → (s.thread k).guard f.g = true →
      exec i s = .next ((s.takeTrap k cJOIN 0 (m.setWidth 64) pc).leaveBundle k))
    ∧ (∀ a, m.getLsbD l = true ∨ a.members.getLsbD l = true → waiting = some a → m ≠ a.members →
      exec i s = .next (((s.failSet (crewOf k) a).takeTrap k cJOIN 0 (m.setWidth 64) pc).leaveBundle k))
    ∧ (m.getLsbD l = true → present → waiting = none → m ≠ 1#32 <<< l →
      exec i s = .next ((((s.leaveBundle k).parkThread k .xlane i).modCrew (crewOf k) fun x =>
        { x with sets := ⟨pc, m, 1#32 <<< l⟩ :: x.sets.filter fun a => a.pc != pc }).leaveBundle k))
    ∧ (m.getLsbD l = true → present → ((waiting = none ∧ m = 1#32 <<< l)
        ∨ ∃ a, waiting = some a ∧ m = a.members ∧ a.arrived ||| 1#32 <<< l = m) →
      k = laneKey (crewOf k) l → l < 32 → c.maps = [] →
      (∀ j, j < 32 → m.getLsbD j = true → ∀ r ∈ f.regs, s.regBad (laneKey (crewOf k) j) r.toNat = false) →
      ∃ t, exec i s = .next t ∧ t.mem = s.mem
        ∧ ∀ j, j < 32 → m.getLsbD j = true →
          let x := laneKey (crewOf k) j
          let members := ((List.range 32).filter fun j => m.getLsbD j).map (laneKey (crewOf k))
          (t.thread x).pc = nextPc (s.thread x).pc ∧ (t.thread x).st.park = .none
          ∧ ((s.thread x).guard f.g = true → f.d ≠ 0 → (t.thread x).reg f.d.toNat = (f.value s members x).1)
          ∧ ((s.thread x).guard f.g = true → (t.thread x).fp.fflags = (s.thread x).fp.fflags ||| (f.value s members x).2)
          ∧ ((s.thread x).guard f.g = false → (t.thread x).regs = (s.thread x).regs ∧ (t.thread x).fp = (s.thread x).fp)
          ∧ ∀ q, q ≠ f.d.toNat → (t.thread x).reg q = (s.thread x).reg q)

/-- R76 to R80, R454, R460: SETF writes an empty shared register and sets its bit, TAKEF takes a full one and clears
it; each parks while the bit says otherwise, and raises ILLEGAL at a register that is not shared. SHMAP with count 0
removes the mapping that covers d; with a count it maps the range and empties the target's bits. -/
def Obligations.SharedRegisters : Prop :=
  ∀ (s : State) (k : Nat) (g : Guard) (d a : Reg),
    (s.executes k g simtOnly .holds [a.toNat, d.toNat] →
      (s.sharedReg k d.toNat = true → s.physFull k d.toNat = false →
        exec (.setf g d a) s
          = .next (((s.writeReg k d (s.readReg k a)).putFull k d.toNat true).goTo k (nextPc (s.thread k).pc)))
      ∧ (s.sharedReg k d.toNat = true → s.physFull k d.toNat = true →
        exec (.setf g d a) s = .next ((s.parkShared k (.setf g d a)).leaveBundle k))
      ∧ (s.sharedReg k d.toNat = false →
        exec (.setf g d a) s = .next (s.raise k cILLEGAL 0 (d.setWidth 64) (s.thread k).pc))
      ∧ (s.sharedReg k a.toNat = true → s.physFull k a.toNat = true →
        exec (.takef g d a) s
          = .next (((s.writeReg k d (s.readReg k a)).putFull k a.toNat false).goTo k (nextPc (s.thread k).pc)))
      ∧ (s.sharedReg k a.toNat = true → s.physFull k a.toNat = false →
        exec (.takef g d a) s = .next ((s.parkShared k (.takef g d a)).leaveBundle k))
      ∧ (s.sharedReg k a.toNat = false →
        exec (.takef g d a) s = .next (s.raise k cILLEGAL 0 (a.setWidth 64) (s.thread k).pc)))
    ∧ (∀ (n : Nat) (v : Bool), (s.crewAt (s.physReg k n).1).isSome = true → (s.physReg k n).2 < 64 →
        (s.putFull k n v).physFull k n = v)
    ∧ ∀ (t : Reg) (c : Crew) (tk : Nat), s.executes k g simtOnly .holds [a.toNat] → s.crewAt k = some c →
      (s.readReg k a).toNat < 64 →
      s.crewInSlot c.core c.asid (fld (s.readReg k a) 5 4) (fld (s.readReg k a) 3 0) = some tk → tk ≠ crewOf k →
      (exec (.shmap g d a t 0) s = .next ((s.modCrew (crewOf k) fun x => { x with
          maps := x.maps.filter fun m => !(decide (m.d ≤ d.toNat) && decide (d.toNat < m.d + m.count)) }).advance k))
      ∧ ∀ (count : BitVec 5), count ≠ 0 → count.toNat ≤ 16 → d ≠ 0 → t ≠ 0 → d.toNat + count.toNat ≤ 64 →
          t.toNat + count.toNat ≤ 64 → d.toNat + count.toNat ≤ (s.thread k).regcnt →
          (c.maps.filter fun m => decide (m.d + m.count ≤ d.toNat) || decide (d.toNat + count.toNat ≤ m.d)).length < 2 →
          ∃ r, exec (.shmap g d a t count) s = .next r
            ∧ (∃ x, r.crews.find (crewOf k) = some x ∧ ∀ q, d.toNat ≤ q → q < d.toNat + count.toNat →
                ∃ m, x.mapping q = some m ∧ m.target = tk ∧ m.t + (q - m.d) = t.toNat + (q - d.toNat))
            ∧ (∀ x, s.crews.find tk = some x → ∃ y, r.crews.find tk = some y ∧ ∀ l n, l < 32 → t.toNat ≤ n →
                n < t.toNat + count.toNat → y.fullBit l n = false)
            ∧ r.mem = s.mem ∧ (r.thread k).pc = nextPc (s.thread k).pc

/-- R71, R72, R402, R461: GROW parks with its request, and raises REG_ALLOT beyond 64 registers or the lane's slice;
the grant in place keeps the registers and gives zeros above them; SHRINK gives back registers, waits for oc.ld on a
SIMT core, has no effect on a latency core, and raises REG_ALLOT below 16 or in a mapped range. -/
def Obligations.Allotments : Prop :=
  (∀ (s : State) (k : Nat) (g : Guard) (n8 : BitVec 3) (c : Crew), s.crewAt k = some c → s.halted = false →
    (s.thread k).st.park = .grow → (s.thread k).st.live = true → (s.thread k).st.again = some (.grow g n8) →
    s.firstInSlice k = true →
    let new := (s.thread k).regcnt + 8 * n8.toNat
    let base := (s.thread k).loambase
    let sl := (s.core c.core).slice c.part (laneOf k)
    base + 8 * new ≤ sl.1 + sl.2 →
    (∀ u ∈ s.windowsIn c.core c.part (laneOf k) c.bank, u.1 ≠ base → base + 8 * new ≤ u.1 ∨ u.1 + u.2 ≤ base) →
    ∃ t, exec (.growGrant k) s = .next t ∧ (t.thread k).regcnt = new ∧ (t.thread k).loambase = base
      ∧ (t.thread k).st.park = .none ∧ (t.thread k).pc = nextPc (s.thread k).pc
      ∧ (∀ r, r < 64 → (t.thread k).reg r = if r < (s.thread k).regcnt then (s.thread k).reg r else 0)
      ∧ t.mem = s.mem ∧ ∀ j, j ≠ k → t.thread j = s.thread j)
  ∧ ∀ (s : State) (k : Nat) (g : Guard) (n8 : BitVec 3), s.executes k g anyCore .holds [] →
    let new := (s.thread k).regcnt + 8 * n8.toNat
    let n := 8 * n8.toNat
    let slice := (s.core (s.coreOf k)).regg * 128
    let covered := (s.ownCrew k).any (fun c => c.maps.any fun m => decide ((s.thread k).regcnt - n < m.d + m.count)) = true
    (new ≤ 64 → 8 * new ≤ slice → exec (.grow g n8) s = .next ((s.parkThread k .grow (.grow g n8)).leaveBundle k))
    ∧ (64 < new ∨ slice < 8 * new →
      exec (.grow g n8) s = .next (s.raise k cREG_ALLOT 0 (BitVec.ofNat 64 new) (s.thread k).pc))
    ∧ (16 + n ≤ (s.thread k).regcnt → ¬covered →
      (isLat k = true → exec (.shrink g n8) s = .next (s.advance k))
      ∧ (isLat k = false → (s.thread k).oc.ld ≠ 0 →
        exec (.shrink g n8) s = .next ((s.parkThread k .counters (.shrink g n8)).leaveBundle k))
      ∧ (isLat k = false → (s.thread k).oc.ld = 0 → ∃ t, exec (.shrink g n8) s = .next t
        ∧ (t.thread k).regcnt = (s.thread k).regcnt - n ∧ (t.thread k).pc = nextPc (s.thread k).pc
        ∧ (∀ r, r < 64 → (t.thread k).reg r = if r < (s.thread k).regcnt - n then (s.thread k).reg r else 0)
        ∧ t.mem = s.mem ∧ ∀ j, j ≠ k → t.thread j = s.thread j))
    ∧ ((s.thread k).regcnt < 16 + n ∨ covered →
      exec (.shrink g n8) s
        = .next (s.raise k cREG_ALLOT 0 (BitVec.ofInt 64 ((s.thread k).regcnt - n : Int)) (s.thread k).pc))

/-- R134, R135, R374 to R376: CBWAIT gives the window address of the slot at RIDX once FILLED is not zero, CBWAIT.PROD
that at WIDX once FREE is not zero; CBPUSH moves a slot from FREE to FILLED and CBPOP back; each parks while its count
is zero, and a bad descriptor raises LOAM_BOUNDS. CBPUSH and CBPOP wait for the thread's earlier Loam accesses. The
counter word is the one that the hardware holds: the stored one, unless the program stored another while the buffer was
in use (what holds then is the free value of log 6). R84: a descriptor that holds a word of bad parity raises POISON
with its address. -/
def Obligations.CircularBuffers : Prop :=
  ∀ (s : State) (k : Nat) (g : Guard) (n : BitVec 4) (d : Reg) (c : Crew), s.crewAt k = some c →
    let cfg := s.specWord c (0x7E00 + 32 * n.toNat)
    let w := s.cbCtr c n.toNat
    let stored := s.specWord c (0x7E00 + 32 * n.toNat + 8)
    let left := ((s.core c.core).bank c.bank).cbs.find (c.specBase + (0x7E00 + 32 * n.toNat))
    let bad := s.specBad c (0x7E00 + 32 * n.toNat) 16
    let free := fld w 15 0
    let filled := fld w 31 16
    let widx := fld w 47 32
    let ridx := fld w 63 48
    let slots := 2 ^ fld cfg 58 56
    let size := fld cfg 55 32
    let base := fld cfg 23 0
    let valid := bitAt cfg 63 = true ∧ base + slots * size ≤ c.lsg * 16384 ∧ 128 ≤ size ∧ size % 128 = 0 ∧ base % 128 = 0
    let va := fun (x : Nat) => (s.ctxOf k).loamva.toNat % 2 ^ 57 + c.base + x
    let counts := fun (ridx widx filled free : Nat) =>
      BitVec.ofNat 64 (ridx % 65536 * 2 ^ 48 + widx % 65536 * 2 ^ 32 + filled % 65536 * 2 ^ 16 + free % 65536)
    let traps := fun (i : Instr) => exec i s = .next (s.raise k cLOAM_BOUNDS 0
      (BitVec.ofNat 64 (va (c.lsg * 16384 + (0x7E00 + 32 * n.toNat)))) (s.thread k).pc)
    let spoils := fun (i : Instr) => ∀ x, bad.head? = some x → (s.thread k).spec.mode = .normal → exec i s = .next
      ((s.countParity c.core).takeTrap k cPOISON 0 (BitVec.ofNat 64 (va (x - c.base))) (s.thread k).pc)
    ((left = none ∨ ∃ x, left = some x ∧ (stored = x.2 ∨ fld x.2 31 16 = 0 ∧ fld x.2 15 0 = 2 ^ fld x.1 58 56)) → w = stored)
    ∧ (s.executes k g simtOnly .holds [d.toNat] → spoils (.cbwait g d n) ∧ spoils (.cbwaitProd g d n))
    ∧ (s.executes k g simtOnly .holds [] → s.loamPending k = false → spoils (.cbpush g n) ∧ spoils (.cbpop g n))
    ∧ (s.executes k g simtOnly .holds [d.toNat] → bad = [] → valid →
      (filled ≠ 0 → exec (.cbwait g d n) s = .next ((s.writeReg k d (BitVec.ofNat 64 (va (base + ridx * size)))).advance k))
      ∧ (filled = 0 → exec (.cbwait g d n) s = .next ((s.parkGroup [k] .cb (.cbwait g d n)).leaveBundle k))
      ∧ (free ≠ 0 → exec (.cbwaitProd g d n) s
        = .next ((s.writeReg k d (BitVec.ofNat 64 (va (base + widx * size)))).advance k))
      ∧ (free = 0 → exec (.cbwaitProd g d n) s = .next ((s.parkGroup [k] .cb (.cbwaitProd g d n)).leaveBundle k)))
    ∧ (s.executes k g simtOnly .holds [] → s.loamPending k = false → bad = [] → valid →
      (free ≠ 0 → exec (.cbpush g n) s
        = .next ((s.putCbCtr c n.toNat (counts ridx ((widx + 1) % slots) (filled + 1) (free - 1))).advance k))
      ∧ (free = 0 → exec (.cbpush g n) s = .next ((s.parkGroup [k] .cb (.cbpush g n)).leaveBundle k))
      ∧ (filled ≠ 0 → exec (.cbpop g n) s
        = .next ((s.putCbCtr c n.toNat (counts ((ridx + 1) % slots) widx (filled - 1) (free + 1))).advance k))
      ∧ (filled = 0 → exec (.cbpop g n) s = .next ((s.parkGroup [k] .cb (.cbpop g n)).leaveBundle k)))
    ∧ (s.executes k g simtOnly .holds [] → s.loamPending k = true →
      exec (.cbpush g n) s = .next s ∧ exec (.cbpop g n) s = .next s)
    ∧ (s.executes k g simtOnly .holds [] → s.loamPending k = false → bad = [] → ¬valid → traps (.cbpush g n) ∧ traps (.cbpop g n))
    ∧ (s.executes k g simtOnly .holds [d.toNat] → bad = [] → ¬valid → traps (.cbwait g d n) ∧ traps (.cbwaitProd g d n))

/-! ### Services, migration, system registers -/

/-- R50, R52, R447 to R450: SCALL on a latency core, and where the service entry is not valid, escalates with the
return address behind it. Elsewhere it writes the request slot under the next number and goes on speculating with the
predicted value in g10 (SCALL.OV: the override), once every earlier access of the thread has returned (R212); SCALL.NS
only writes the request. A reply that equals the prediction performs the buffered stores and takes a trap that waits in
W; another one restores the checkpoint and goes on behind the call with the value; a time-out sends the call again. -/
def Obligations.ServiceCalls : Prop :=
  (∀ (s : State) (k : Nat) (g : Guard) (n : BitVec 12) (v : BitVec 20), s.executes k g anyCore .holds [] →
    let value : Word := n.setWidth 64
    let escalates := fun (i : Instr) => exec i s = .next (s.raise k cSCALL 0 value (nextPc (s.thread k).pc))
    (isLat k = true → s.escFull = false → escalates (.scall g n) ∧ escalates (.scallOv g n v) ∧ escalates (.scallNs g n))
    ∧ (isLat k = false → bitAt (s.svcEntry (s.ctxOf k).asid).2.1 63 = false →
      escalates (.scall g n) ∧ escalates (.scallOv g n v) ∧ escalates (.scallNs g n))
    ∧ ∀ (e : Nat × Word × Word) (s1 : State) (p : Page), isLat k = false → e = s.svcEntry (s.ctxOf k).asid →
      bitAt e.2.1 63 = true →
      let slot := fld e.2.1 56 12 * 4096 + 128 * fld e.2.2 15 0
      s.resolve (s.who k) slot .store = (s1, .page p) → bitAt (s1.peekWord p.pa) 63 = false → s1.pendingOf k = [] →
      let next := { s1 with nxt := { s1.nxt with request := (s1.nxt.request + 1) % 2 ^ 48 } }
      let past := fun (v : Word) =>
        ((((((next.putCheckpoint k).writeRequest (s.who k) slot e k s1.nxt.request false n).edgeAll 7).modThread k fun t =>
          { t with spec := ⟨.speculating, s1.nxt.request, v, (s1.thread k).pc, []⟩, st := { t.st with reissue := false } }).writeReg
            k 10 v).goTo k (nextPc (s.thread k).pc))
      exec (.scall g n) s = .next (past ((s1.core (s1.coreOf k)).predicted (s1.thread k).pc))
      ∧ exec (.scallOv g n v) s = .next (past (v.signExtend 64))
      ∧ ((s1.readReg k 11).toNat % 8 = 0 → exec (.scallNs g n) s
        = .next (((next.writeRequest (s.who k) slot e k s1.nxt.request true n).edgeAll 7).goTo k (nextPc (s.thread k).pc))))
  ∧ (∀ (s : State) (num : BitVec 48) (hi : BitVec 16) (v : Word) (k : Nat), s.caller num.toNat = some k →
      let s1 := s.modCore (s.coreOf k) fun c => c.predict (s.thread k).spec.pc v
      let commits := ((s1.commitBuffer k).settleSpecLoads k false).modThread k fun t => { t with spec := .idle }
      let restores := ((s1.squash k).modThread k fun t =>
        { t with pc := nextPc (s.thread k).spec.pc, st := { t.st with reissue := false } }).writeReg k 10 v
      (v = (s.thread k).spec.predicted → (∀ c sub x r, (commits.thread k).st.pending ≠ .trap c sub x r) →
        exec (.scallReply num v) s = .next commits ∧ exec (.reply (hi ++ num) v) s = .next commits)
      ∧ (∀ c sub x r, v = (s.thread k).spec.predicted → (commits.thread k).st.pending = .trap c sub x r →
        exec (.scallReply num v) s = .next ((commits.modThread k fun t => { t with st := { t.st with pending := .none } }).takeTrap
          k c sub x r))
      ∧ (v ≠ (s.thread k).spec.predicted →
        exec (.scallReply num v) s = .next restores ∧ exec (.reply (hi ++ num) v) s = .next restores))
  ∧ ∀ (s : State) (k : Nat), (s.thread k).spec.mode ≠ .normal →
      ∃ t, exec (.serviceTimeout k) s = .next t ∧ t = s.squash k
        ∧ (t.thread k).pc = (s.thread k).spec.pc ∧ (t.thread k).spec.mode = .normal ∧ (t.thread k).st.reissue = true

/-- R45: MIGRATE.TOSIMT with a gang descriptor on a SIMT core, and MIGRATE.TOLAT on a latency core by a thread that is
not AWAY, write 0x06 and have no other effect. -/
def Obligations.WrongSideMigrate : Prop :=
  ∀ (s : State) (k : Nat) (g : Guard) (d a : Reg),
    (isLat k = false → s.executes k g anyCore .holds [a.toNat, d.toNat] → s.readReg k a ≠ 0 →
      exec (.migrateTosimt g d a) s = .next ((s.writeReg k d 6).goTo k (nextPc (s.thread k).pc)))
    ∧ (isLat k = true → s.executes k g anyCore .holds [d.toNat] → (s.thread k).st.away = false →
      exec (.migrateTolat g d) s = .next ((s.writeReg k d 6).goTo k (nextPc (s.thread k).pc)))

/-- R43, R47 to R49, R278, R342, R424: MIGRATE.TOSIMT from a latency core launches a gang: from a descriptor in memory
that passes the checks of R43 and R278, without working sets, the gang is placed at once where a die takes it, or else
waits with its caller's frame saved; either way the caller leaves its hardware thread. An AWAY thread goes back to its
held lane, which then runs behind the MIGRATE with gd zero; any other thread without a descriptor gets 5.
MIGRATE.TOLAT moves a quiet thread to an idle hardware thread, which one is a free value (log 6), its lane held. A
waiting gang is placed when its turn comes and cores admit it; when every thread has exited, fan-in writes the
completion word and resumes the caller; a handler task is placed, in its turn, under its instance limit. -/
def Obligations.GangLife : Prop :=
  (∀ (s : State) (k : Nat) (g : Guard) (d a : Reg), s.executes k g anyCore .holds [a.toNat, d.toNat] → isLat k = true →
    (∀ (va : Nat) (bs : List Byte) (gd : GangDesc), (s.thread k).st.away = false → s.untranslated k →
      s.silent (s.agentOf k) = false → s.mem.past = [] → va = va57 (s.readReg k a) → inHost va 128 →
      (s.readReg k a).toNat % 128 = 0 → bs = s.mem.bytes.bytes va 128 →
      gd = ⟨wordOf bs 0, wordOf bs 8, wordOf bs 16, wordOf bs 24, wordOf bs 32, wordOf bs 40⟩ →
      ¬(4 ≤ gd.fid ∧ gd.fid ≤ 14) → gd.bad = false → gd.wsn = 0 →
      let ctx := s.ctxOf k
      let s2 := s.cachePath ctx 0 gd.region
      let seq := s.nxt.gang
      let x := s2.newGang k gd d
      let s3 := { s2 with nxt := { s2.nxt with gang := (seq + 1) % 2 ^ 48 } }
      let words := s2.callerWords k
      s2.pathBad ctx 0 gd.region = false →
      s2.capsAdmit ctx 0 gd.region (fun _ => gd.cores) (gd.crews * (gd.lsg + 2)) = true →
      s2.tidsRegistered ctx.asid gd.tidBase.toNat gd.count = true → s2.escFull = false →
      ((partitionWord (gd.share 0).length gd.lsg gd.regs (s2.shadowOf ctx 0 gd.region)).isSome = true
        ∨ ∃ di < 8, (s2.pickCores ctx gd di).isSome = true) →
      (∀ di cores die frames room, s3.pickDie ctx gd true = some (di, cores) →
        s3.reserveGang ctx gd di cores true = some (die, frames, room) →
        exec (.migrateTosimt g d a) s = .next (((s3.placeGang ctx { x with caller := room } seq di cores frames die
          fun cidx gci lane base age => gangThread (s2.thread k) x seq cidx gci lane base age).putFrame room words).leaveCaller
            k room))
      ∧ (∀ room, s3.pickDie ctx gd true = none → (s3.die 0).findRoom 1024 1024 = some room →
        let kept := (s3.modDie 0 fun y => y.take room 1024).putFrame room words
        exec (.migrateTosimt g d a) s = .next ((State.refreshRing
          { kept with gangs := kept.gangs.set seq { x with caller := room, waiting := true } } 0).leaveCaller k room)))
    ∧ (s.readReg k a = 0 → (s.thread k).st.away = false →
      exec (.migrateTosimt g d a) s = .next ((s.writeReg k d 5).goTo k (nextPc (s.thread k).pc)))
    ∧ ∀ l c, s.readReg k a = 0 → (s.thread k).st.away = true → s.heldLane (s.thread k) = some l →
      s.crewAt l = some c → c.place = .resident →
      ∃ back, exec (.migrateTosimt g d a) s
          = .next (((((s.setThread l back).dropEscalated l).takeHeldTrap l (s.thread l)).vacate k).loadSup k)
        ∧ back.pc = nextPc (s.thread k).pc ∧ back.regcnt = (s.thread l).regcnt ∧ back.preds = (s.thread k).preds
        ∧ (d ≠ 0 → back.reg d.toNat = 0) ∧ back.st.live = true ∧ back.st.away = false
        ∧ ∀ r, r < 64 → r ≠ d.toNat → back.reg r = if r < (s.thread l).regcnt then (s.thread k).reg r else 0)
  ∧ (∀ (s : State) (k : Nat) (g : Guard) (d : Reg), s.executes k g anyCore .holds [d.toNat] → isLat k = false →
      (s.thread k).dueFailure = none → (s.thread k).oc = ⟨0, 0, 0, 0⟩ → (s.thread k).parity = 0 →
      (∃ m < Config.harts, (s.hart m).run = false) →
      ∃ t n, exec (.migrateTolat g d) s = .next t ∧ n < Config.harts ∧ (s.hart n).run = false ∧ (t.hart n).run = true
        ∧ (t.thread n).pc = nextPc (s.thread k).pc
        ∧ (d ≠ 0 → (t.thread n).reg d.toNat = 0) ∧ (∀ r, r < 64 → r ≠ d.toNat → (t.thread n).reg r = (s.thread k).reg r)
        ∧ (t.thread n).regcnt = 64 ∧ (t.thread n).st.away = true
        ∧ (t.thread k).st.away = true ∧ (t.thread k).st.live = false ∧ t.mem = s.mem)
  ∧ (∀ (s : State) (seq di room : Nat) (x : Gang) (cores frames : List Nat) (die : Die), s.gangs.find seq = some x →
      x.waiting = true → s.halted = false → s.turnOf 0 (.gang seq) = true →
      s.gangPlan x = some (di, cores, die, frames, room) →
      let words := s.frameAt x.caller
      exec (.gangPlacement seq) s = .next ((((s.modDie 0 fun y => y.free x.caller).placeGang (ctxOfWords x.ctx)
        { x with caller := room } seq di cores frames die
        fun cidx gci lane base age => gangThread (threadOfFrame words) x seq cidx gci lane base age).putFrame room
          words).refreshRing 0))
  ∧ (∀ (s : State) (seq : Nat) (x : Gang), s.gangs.find seq = some x → x.waiting = false → x.live = 0 →
      (∀ e ∈ s.crews, e.2.seq ≠ seq) →
      let done := fun (s : State) => ({ s with gangs := s.gangs.del seq }).dropContexts x.callerDie
      let s1 := (s.ctxPutWord (hwWho (ctxOfWords x.ctx)) (va57 x.desc.completion)
        (BitVec.ofNat 64 (x.status * 2 ^ 48 + seq))).resumeWords x
      (x.task.isSome = true → exec (.fanIn seq) s = .next (done s))
      ∧ (∀ h, x.task = none → s.idleOn (x.callerHart / 2) = some h →
        exec (.fanIn seq) s = .next (done (s1.loadHart h x.caller)))
      ∧ (x.task = none → s.idleOn (x.callerHart / 2) = none → s.escFull = false →
        exec (.fanIn seq) s = .next (done (s1.escRecord x.caller 0x100 0 x.callerTid))))
  ∧ ∀ (s : State) (n : Nat) (x : Task) (c : Ctx), (s.die 0).tasks[n]? = some x → s.ctxByAsid x.asid = some c →
      s.halted = false → s.pathBad c 0 (s.netRegion x.net x.asid) = false → s.turnOf 0 (.task x) = true →
      x.hidx < s.netHcnt x.net x.asid →
      (s.instances x.net x.asid x.hidx).length < fld (s.handlerWord x.net x.asid x.hidx 3) 15 0 →
      ∀ inst, (List.range ((s.instances x.net x.asid x.hidx).length + 1)).find?
          (fun i => !(s.instances x.net x.asid x.hidx).contains i) = some inst →
      let s1 := (s.cachePath c 0 (s.netRegion x.net x.asid)).modDie 0 fun y => { y with tasks := y.tasks.erase x }
      let hw := fun i => s1.handlerWord x.net x.asid x.hidx i
      let desc : GangDesc := ⟨hw 0, hw 1, s1.netRegion x.net x.asid, hw 2, 0, 0⟩
      desc.bad = false → desc.count = desc.csz → desc.lsg ≠ 0 → desc.wsn = 0 →
      s1.capsAdmit c 0 desc.region (fun _ => 1) (desc.lsg + 2) = true →
      (∃ di cores, s1.pickDie c desc false = some (di, cores) ∧ (s1.reserveGang c desc di cores false).isSome = true) →
      ∃ t, s1.placeTask x c inst = some t ∧ exec (.handlerTaskPlacement n) s = .next (t.refreshRing 0)

/-- R267, R268, R397, R469, R470: SYSRD gives the register, reserved bits zero; SYSWR stores the writable bits, which
a read gives back; a register marked RO raises ILLEGAL with the word; FIDSET stores levels 0 to 3, and 15 for the
values reserved. R462, R85, R87: SLEEP stops a thread, its core sleeping once every thread of it does, and a core
wakes for a signal or a new crew. -/
def Obligations.SystemRegisters : Prop :=
  (∀ (s : State) (k : Nat) (g : Guard) (r : SysReg) (d a : Reg),
    (s.executes k g anyCore .runs [d.toNat] →
      exec (.sysrd g r d) s = .next ((s.writeReg k d (s.sysRead k r)).goTo k (nextPc (s.thread k).pc)))
    ∧ (s.executes k g { anyCore with priv := supRegister r } .holds [a.toNat] → r.readOnly = false →
      exec (.syswr g r a) s = .next ((s.sysWrite k r (s.readReg k a)).goTo k (nextPc (s.thread k).pc)))
    ∧ (s.executes k g anyCore .holds [] → r.readOnly = true →
      exec (.syswr g r a) s = .next (s.raise k cILLEGAL 0 (encode (.syswr g r a)) (s.thread k).pc)))
  ∧ (∀ (s : State) (k : Nat) (r : SysReg) (v m : Word), storedBits r = some m → (s.threads.find k).isSome = true →
      (isLat k = true ∨ (s.crewAt k).isSome = true) → (isLat k = true → r ∉ [.hzc0, .hzc1, .hzc2, .hzc3]) →
      (s.sysWrite k r v).sysRead k r = v &&& m)
  ∧ (∀ (s : State) (k : Nat) (g : Guard) (n : BitVec 4), s.executes k g anyCore .holds [] →
      exec (.fidset g n) s = .next ((s.modThread k fun t =>
        { t with fp := { t.fp with fid := if 4 ≤ n.toNat ∧ n.toNat ≤ 14 then 15 else n } }).goTo k (nextPc (s.thread k).pc)))
  ∧ (∀ (s : State) (k : Nat) (g : Guard), s.executes k g privileged .holds [] →
      let t := (s.modThread k fun t => { t with st := { t.st with sleeping := true } }).leaveBundle k
      (∀ n, s.cur = .hart n → exec (.sleep g) s = .next t)
      ∧ (∀ c p ix, s.cur = .bundle c p ix → t.mayDoze c = false → exec (.sleep g) s = .next t)
      ∧ ∀ c p ix, s.cur = .bundle c p ix → t.mayDoze c = true →
        exec (.sleep g) s = .next ((t.flushCache c).modCore c fun x => { x with asleep := true, bundles := [] }))
  ∧ ∀ (s : State) (core : Nat), s.mayWake core = true → (s.core core).badParity = [] → (∀ k, (s.thread k).parity = 0) →
      exec (.coreWake core) s = .next (s.modCore core fun c => { c with asleep := false })

/-! ### Matrix engine and residencies -/

/-- R219, R220, R223 to R228, R425, R426, R441, R442: an MMA whose operand records stand in the crew's scratch and
describe tiles there, or whose B is a valid residency of the core, is queued under its level and raises oc.tile; on a
ring that is not configured it raises ILLEGAL, with a misaligned record MISALIGN. RADV is queued; RADV.CFG gives a ring
or a code, RADV.TAIL the closed tail slot's window address, RADV.REL releases it, RADV.FREE frees the ring. A ring
descriptor with a word of bad parity raises POISON (R84). The next command starts on an idle engine whose rails stand
at its level, RADV closing the head slot, and at its end an MMA leaves its engine idle. -/
def Obligations.MatrixCommands : Prop :=
  (∀ (s : State) (k : Nat) (g : Guard) (a b : Reg) (m : MmaFields) (c : Crew), s.crewAt k = some c →
    s.executes k g simtOnly .holds [a.toNat, b.toNat] →
    let va := s.readReg k a
    let vb := s.readReg k b
    let ta := s.ownRecord k c va
    let tb := s.ownRecord k c vb
    let ring := ringValid (s.ringCfg c m.ring.toNat)
    let bad := s.specBad c (0x7D00 + 32 * m.ring.toNat) 16
    let queued := fun (s' : State) (i : Instr) => ∃ early, exec i s = .next ((((s'.enqueue c.core
      { Cmd.new (encode i) (crewOf k) (1#32 <<< laneOf k) (s.mmaLevel k m.fid) va vb (s.thread k).pc (s.thread k).trap.sup with
        early := early }).noteSlots c.core (crewOf k)).raiseTile [k]).advance k)
    let room := s.queueFull c.core = false ∧ (s.thread k).oc.tile < 15 ∧ s.ordersPending k = false
    (bad = [] → ring = true → room → s.ownOperand k c va 32 → namesFormat m.fa.toNat ta.fmt →
      (s.ownOperand k c vb 128 → pairAllowed ta.fmt tb.fmt = true → namesFormat m.fb.toNat tb.fmt →
        queued (if ta.fmt = 6 then (s.markCb k ta.cbslot).markCb k tb.cbslot else s) (.mmaT g m a b))
      ∧ ∀ (n : Nat) (h : Handle), s.findHandle (s.ctxOf k).asid vb = some (c.core, n, h) → h.state = .valid →
        fmtAllowed h.fmt h.scaled = true → pairAllowed ta.fmt h.fmt = true → namesFormat m.fb.toNat h.fmt →
        (h.fmt = 6 → s.cbOk c.core (s.ctxOf k).asid h.cbslot = true) →
        queued (if ta.fmt = 6 then (s.markCb k ta.cbslot).markCb k h.cbslot else s) (.mmaK g m a b))
    ∧ (bad = [] → ring = true → va.toNat % 32 ≠ 0 →
      exec (.mmaT g m a b) s = .next (s.raise k cMISALIGN 0 va (s.thread k).pc)
      ∧ exec (.mmaK g m a b) s = .next (s.raise k cMISALIGN 0 va (s.thread k).pc))
    ∧ (bad = [] → ring = false → exec (.mmaT g m a b) s = .next (s.raise k cILLEGAL 0 (m.ring.setWidth 64) (s.thread k).pc)
      ∧ exec (.mmaK g m a b) s = .next (s.raise k cILLEGAL 0 (m.ring.setWidth 64) (s.thread k).pc))
    ∧ ∀ x, bad.head? = some x → (s.thread k).spec.mode = .normal →
      let t := (s.countParity c.core).takeTrap k cPOISON 0 (BitVec.ofNat 64 ((s.ctxOf k).loamva.toNat % 2 ^ 57 + x)) (s.thread k).pc
      exec (.mmaT g m a b) s = .next t ∧ exec (.mmaK g m a b) s = .next t)
  ∧ (∀ (s : State) (k : Nat) (g : Guard) (d : Reg) (ring ln : BitVec 2) (c : Crew), s.crewAt k = some c →
      let cfg := s.ringCfg c ring.toNat
      let w := s.ringCtr c ring.toNat
      let e := (s.core c.core).engines
      let uses := fun (x : Cmd) => x.usesRing (crewOf k) ring.toNat
      let bytes := 2 ^ ln.toNat * 16384
      let good := s.specBad c (0x7D00 + 32 * ring.toNat) 16 = []
      (s.executes k g simtOnly .holds [d.toNat] → bitAt cfg 63 = true →
        exec (.radvCfg g d ring ln) s = .next ((s.writeReg k d 2).advance k))
      ∧ (s.executes k g simtOnly .holds [d.toNat] → bitAt cfg 63 = false → ∀ a,
        findRun (((s.core c.core).regg + (s.core c.core).scrg) * 16384) ((s.core c.core).ringg * 16384) bytes 16384
          (s.ringRuns c.core c.bank) = some a →
        s.capsAdmit (s.ctxOf k) (s.dieOf k) (s.regionOf k) (fun _ => 0) (2 ^ ln.toNat) = true →
        exec (.radvCfg g d ring ln) s = .next (((((s.modCore c.core fun x => (x.setBank c.bank
            { (x.bank c.bank).forget a bytes with bytes := (x.bank c.bank).bytes.clear a bytes }).goodParity c.bank a bytes).putRing
              c ring.toNat (BitVec.ofNat 64 (2 ^ 63 + ln.toNat * 2 ^ 32 + a)) 0).chargeLoam (s.ctxOf k) (s.dieOf k)
                (s.regionOf k) (2 ^ ln.toNat : Nat)).writeReg k d 0).advance k))
      ∧ (s.executes k g simtOnly .holds [d.toNat] → good → bitAt cfg 63 = true →
        exec (.radvTail g d ring) s = .next ((s.writeReg k d (if fld w 11 8 = 0 then 0 else
          BitVec.ofNat 64 ((s.ctxOf k).loamva.toNat % 2 ^ 57 + (fld cfg 21 0 + 16384 * fld w 14 12)))).advance k))
      ∧ (s.executes k g simtOnly .holds [d.toNat] → good → bitAt cfg 63 = false →
        exec (.radvTail g d ring) s = .next (s.raise k cILLEGAL 0 (ring.setWidth 64) (s.thread k).pc))
      ∧ (s.executes k g simtOnly .holds [] → good → bitAt cfg 63 = true →
        (e.queue.length < 8 → exec (.radv g ring) s = .next ((s.enqueue c.core
          (Cmd.new (encode (.radv ⟨0, false⟩ ring)) (crewOf k) (1#32 <<< laneOf k) 0 0 0 (s.thread k).pc
            (s.thread k).trap.sup)).advance k))
        ∧ (s.loamPending k = false → fld w 11 8 ≠ 0 → exec (.radvRel g ring) s = .next ((s.putRing c ring.toNat cfg
            (BitVec.ofNat 64 (fld w 18 16 * 2 ^ 16 + (fld w 14 12 + 1) % 2 ^ fld cfg 33 32 * 2 ^ 12 + (fld w 11 8 - 1) * 2 ^ 8))).advance k))
        ∧ (s.loamPending k = false → fld w 11 8 = 0 → exec (.radvRel g ring) s = .next (s.advance k))
        ∧ (e.queue.any uses = false → e.current.any uses = false →
          exec (.radvFree g ring) s = .next (((s.putRing c ring.toNat 0 0).chargeLoam (s.ctxOf k) (s.dieOf k) (s.regionOf k)
              (-(2 ^ fld cfg 33 32 : Nat))).advance k)))
      ∧ (s.executes k g simtOnly .holds [] → good → bitAt cfg 63 = false →
        exec (.radv g ring) s = .next (s.raise k cILLEGAL 0 (ring.setWidth 64) (s.thread k).pc)
        ∧ (s.loamPending k = false →
          exec (.radvRel g ring) s = .next (s.raise k cILLEGAL 0 (ring.setWidth 64) (s.thread k).pc))
        ∧ exec (.radvFree g ring) s = .next (s.raise k cILLEGAL 0 (ring.setWidth 64) (s.thread k).pc)))
  ∧ ∀ (s : State) (core : Nat) (c : Cmd),
      (s.nextCmd core = some c → c.isMma = true →
        (s.runLevel core c = (s.core core).engines.railLevel →
          ∃ t, exec (.mmaStart core) s = .next t
            ∧ (t.core core).engines.current
              = some { c with
                slot := if c.isK then ((s.core core).handle (fld c.b 7 0)).slot else none, ran := s.runLevel core c }
            ∧ (t.core core).engines.queue = (s.core core).engines.queue.erase c ∧ t.mem = s.mem ∧ t.threads = s.threads)
        ∧ ∃ t, exec (.horizonRailSwitch core) s = .next t ∧ (t.core core).engines.railLevel = s.runLevel core c
            ∧ (t.core core).engines.queue = (s.core core).engines.queue ∧ t.mem = s.mem ∧ t.threads = s.threads)
      ∧ (∀ cr, s.nextCmd core = some c → c.isRadv = true → s.crews.find c.crew = some cr →
          let w := s.ringCtr cr c.ring
          s.specBad cr (0x7D00 + 32 * c.ring) 16 = [] →
          exec (.radvCloseStart core) s = .next ((((s.dequeueCmd core c).putRing cr c.ring (s.ringCfg cr c.ring)
            (BitVec.ofNat 64 ((fld w 18 16 + 1) % 2 ^ fld (s.ringCfg cr c.ring) 33 32 * 2 ^ 16 + fld w 14 12 * 2 ^ 12
              + (fld w 11 8 + 1) * 2 ^ 8))).noteSlots core c.crew).reapCrew c.crew))
      ∧ (∀ cr, (s.core core).engines.current = some c → s.crews.find c.crew = some cr →
          exec (.mmaCompletion core) s = .next (((s.completeMma core c cr).setCurrent core none).reapCrew c.crew))

/-- R236 to R243, R373, R410 to R415, R482: KALLOC charges a unit to every block of the region's path and gives a
handle of the next generation, or zero; KFILL queues a fill, raises oc.tile and writes zero; KPIN, KREV, KSTAT act on a
handle of the context and its core; CBKLD loads a codebook. KFILL and CBKLD wait for the thread's own stores to the
bytes that they read (R199). A fill that starts reads its lines into the slot, and ends as VALID, or STALE when a line
was taken meanwhile. -/
def Obligations.Residencies : Prop :=
  (∀ (s : State) (k : Nat) (g : Guard) (a d : Reg) (core n : Nat) (h : Handle),
    s.findHandle (s.ctxOf k).asid (s.readReg k a) = some (core, n, h) →
    (s.executes k g anyCore .holds [a.toNat] →
      exec (.kpin g a) s = .next ((s.putHandle core n { h with pin := true }).advance k)
      ∧ exec (.kpinOff g a) s = .next ((s.putHandle core n { h with pin := false }).advance k)
      ∧ (h.state ≠ .filling → (s.core core).usesHandle n = false → exec (.krev g a) s
        = .next (((s.putHandle core n h.free).returnKaolin h.ctx (core / 48) h.region).advance k))
      ∧ (h.state = .filling ∨ (s.core core).usesHandle n = true → exec (.krev g a) s = .next s))
    ∧ (s.executes k g anyCore .runs [a.toNat, d.toNat] →
      exec (.kstat g d a) s = .next ((s.writeReg k d (kstatWord h)).goTo k (nextPc (s.thread k).pc))))
  ∧ (∀ (s : State) (k : Nat) (g : Guard) (a d : Reg), s.findHandle (s.ctxOf k).asid (s.readReg k a) = none →
      (s.executes k g anyCore .holds [a.toNat] →
        let trapped := s.raise k cRES_HANDLE 0 (s.readReg k a) (s.thread k).pc
        exec (.kpin g a) s = .next trapped ∧ exec (.kpinOff g a) s = .next trapped ∧ exec (.krev g a) s = .next trapped)
      ∧ (s.executes k g anyCore .runs [a.toNat, d.toNat] →
        exec (.kstat g d a) s = .next ((s.writeReg k d 0).goTo k (nextPc (s.thread k).pc))))
  ∧ (∀ (s : State) (k : Nat) (g : Guard) (crew ar : Bool) (d a : Reg) (path : List Word),
      s.executes k g anyCore .holds [a.toNat, d.toNat] →
      let core := (s.readReg k a).toNat
      let ctx := s.ctxOf k
      let w := hwWho ctx
      let die := s.dieOf k
      core < 384 → (crew = true → isLat k = false) → s.regionOf k ≠ 0 → s.regionPath w die (s.regionOf k) = some path →
      (∀ e ∈ effectiveAlong (s.cachedWord w die) 9 (s.kcapField w die) path, s.kused ctx e.1 + 1 ≤ e.2) →
      (∀ i n, (s.core core).freeIndex = some i → (s.core core).freeSlot = some n →
        let old := ((s.core core).handle i).gen
        let gen := if old = 255 then 1 else old + 1
        ∃ h, exec (.kalloc g crew ar d a) s
            = .next ((((path.foldl (fun s b => s.putKused ctx b (s.kused ctx b + 1)) s).putHandle core i h).writeReg k d
            (BitVec.ofNat 64 (core * 2 ^ 16 + gen * 2 ^ 8 + i))).advance k)
          ∧ h.alloc = true ∧ h.gen = gen ∧ h.slot = some n ∧ h.state = .empty ∧ h.asid = ctx.asid ∧ h.crewFlag = crew
          ∧ h.ar = ar ∧ h.pin = false ∧ h.region = s.regionOf k)
      ∧ ((s.core core).freeIndex = none ∨ (s.core core).freeSlot = none →
        exec (.kalloc g crew ar d a) s = .next ((s.writeReg k d 0).advance k)))
  ∧ (∀ (s s1 : State) (k : Nat) (g : Guard) (d a b : Reg) (bs : List Byte) (core n : Nat) (h : Handle),
      s.executes k g anyCore .holds [a.toNat, b.toNat, d.toNat] → (s.readReg k b).toNat % 32 = 0 →
      (s.ownPending k (va57 (s.readReg k b)) 32 = true → exec (.kfill g d a b) s = .next s)
      ∧ (s.ownPending k (va57 (s.readReg k b)) 32 = false → s.reads k (va57 (s.readReg k b)) 32 s1 bs →
      let t := tileOfBytes bs
      let w := s.who k
      let word := encode (.kfill ⟨0, false⟩ d a b)
      let c := if isLat k then Cmd.new word noCrew 0 (s.countKey k + 1) (s.readReg k b) (s.readReg k a) (s.thread k).pc w.sup
        else Cmd.new word (crewOf k) (1#32 <<< laneOf k) 0 (s.readReg k b) (s.readReg k a) (s.thread k).pc w.sup
      t.space = 0 → t.rows = 128 → t.rowlen = 128 → t.shapeBad = false → t.view = 0 → t.scaled = false →
      offSpan w.ctx t.range = true → (w.sup = true → w.ctx.pgroot ≠ 0) →
      (∀ r, t.base ≤ r → r < t.range.2 → inHeap w.ctx r = true) → bitAt w.ctx.hattr 0 = true →
      (∀ e ∈ s.stks, e.2.compressed = [] ∧ fld e.2.cold 31 0 = 0) →
      bitAt w.ctx.hattr 14 = false → fmtAllowed (fld w.ctx.hattr 13 10) false = true →
      (t.fmt = 0 ∨ t.fmt = fld w.ctx.hattr 13 10) →
      s.findHandle w.ctx.asid (s.readReg k a) = some (core, n, h) → h.state ≠ .filling →
      (s.core core).engines.queue.length < 8 → (s.thread k).oc.tile < 15 →
      ∀ slot, h.slot.or (s.core core).freeSlot = some slot →
      exec (.kfill g d a b) s = .next (((((s1.putHandle core n { h with
          state := .filling, slot := some slot, source := (List.range 4).map fun j => wordOf bs (8 * j), ctx := w.ctx
          fmt := fld w.ctx.hattr 13 10, scaled := false, cbslot := t.cbslot, lines := [], views := [], touched := false }).enqueue
            core c).raiseTile [k]).writeReg k d 0).advance k)))
  ∧ (∀ (s s1 : State) (k : Nat) (g : Guard) (d a b : Reg) (slot : BitVec 6) (bs : List Byte),
      s.executes k g anyCore .holds [a.toNat, b.toNat, d.toNat] →
      let core := (s.readReg k b).toNat
      let asid := (s.ctxOf k).asid
      let old := (s.core core).engines.codebooks.find slot.toNat
      core < 384 → (s.readReg k a).toNat % 32 = 0 → s.ownPending k (va57 (s.readReg k a)) 32 = false →
      s.reads k (va57 (s.readReg k a)) 32 s1 bs →
      (∀ o, old = some o → o.valid = false ∨ o.asid = asid ∨ s.contextOn core o.asid = false) →
      let book : Codebook :=
        ⟨(List.range 16).map fun j => BitVec.ofNat 16 (bytesToNat ((bs.drop (2 * j)).take 2)), true, asid⟩
      let keep := fun (x : Cmd) =>
        if x.isMma then { x with older := (slot.toNat, (old.map (·.entries)).getD []) :: x.older } else x
      exec (.cbkld g d a b slot) s = .next ((((s1.modCore core fun c =>
          { c with engines := { c.engines with
            queue := c.engines.queue.map keep, current := c.engines.current.map keep
            codebooks := c.engines.codebooks.set slot.toNat book } }).markCb k slot.toNat).writeReg k d 0).advance k))
  ∧ ∀ (s : State) (core : Nat) (c : Cmd),
      (s.nextCmd core = some c → c.isFill = true →
        exec (.fillStart core) s = .next (((s.dequeueCmd core c).setFill core (some c)).fillRead core (fld c.b 7 0)))
      ∧ ((s.core core).engines.fill = some c → ((s.core core).handle (fld c.b 7 0)).alloc = true →
        ((s.core core).handle (fld c.b 7 0)).state = .filling →
        let h := (s.core core).handle (fld c.b 7 0)
        exec (.fillCompletion core) s = .next ((((s.putHandle core (fld c.b 7 0)
          { h with state := if h.touched then .stale else .valid, touched := false }).lowerTile c.threads).setFill core none).reapCrew c.crew))

/-! ### Command chains and the network -/

/-- R136, R137, R142, R143, R380 to R382: ENGO of an aligned header, after every earlier access of its thread, makes a
chain under the next number and raises oc.cp; ENGQ reads the status of a chain of its thread or crew that has not
ended, or the memory word; a chain that is done or failed, whose packets are acknowledged and whose crew stands on its
core, ends with its header written and oc.cp lower for each thread that counted it, which records a failure, an event
of a network engine (R331); and a blocked chain goes on once what it waits for has come. -/
def Obligations.ChainLife : Prop :=
  (∀ (s : State) (k : Nat) (g : Guard) (sc : Scope) (a : Reg), (s.readReg k a).toNat % 32 = 0 → (s.thread k).oc.cp < 15 →
    s.pendingOf k = [] →
    let addr := s.readReg k a
    let makes := fun (i : Instr) (engine unit : Nat) => ∃ c t, exec i s = .next t
      ∧ t.chains = s.chains.set s.nxt.chain c ∧ t.nxt.chain = s.nxt.chain + 1
      ∧ c.engine = engine ∧ c.unit = unit ∧ c.addr = addr &&& 0x01FFFFFFFFFFFFFF ∧ c.state = 0 ∧ c.idx = 0
      ∧ c.counting = [s.countKey k]
      ∧ c.scope = sc ∧ c.sup = (s.thread k).trap.sup ∧ c.crew = (if isLat k then none else some (crewOf k))
      ∧ (t.thread k).oc.cp = (s.thread k).oc.cp + 1 ∧ (t.thread k).pc = nextPc (s.thread k).pc ∧ t.mem = s.mem
    let inside := s.inOwnScratch (s.who k) (va57 addr, va57 addr + 32) = true
    (s.executes k g simtOnly .holds [a.toNat] → inside → (s.chainsOf (crewOf k)).length < 16 →
      makes (.engoCopy g sc a) 0 (s.coreOf k) ∧ makes (.engoEpi g sc a) 1 (s.coreOf k))
    ∧ (∀ die1 : Bool, s.executes k g anyCore .holds [a.toNat] →
      (isLat k = false → inside ∧ (s.chainsOf (crewOf k)).length < 16) →
      (isLat k = true → (s.chains.filter fun e => e.2.crew.isNone && e.2.counting == [s.countKey k]).length < 16) →
      makes (.engoNet g die1 sc a) 2 (if die1 then 385 else 384)))
  ∧ (∀ (s : State) (k : Nat) (g : Guard) (d a : Reg), s.executes k g anyCore .runs [a.toNat, d.toNat] →
      let addr := s.readReg k a
      let mine := fun (c : Chain) => c.addr == low57 addr
        && (c.counting.contains (s.countKey k) || (!isLat k && c.crew == some (crewOf k)))
      addr.toNat % 32 = 0 → (isLat k = false → s.inOwnScratch (s.who k) (va57 addr, va57 addr + 8) = true) →
      (∀ e, s.chains.find? (fun e => mine e.2) = some e →
        let over' := e.2.state = 3 ∨ e.2.state = 4
        exec (.engq g d a) s = .next ((s.writeReg k d (BitVec.ofNat 64 (e.2.idx % 65536 * 2 ^ 48
          + (if over' then 0 else e.2.cause) * 2 ^ 40 + min e.2.zsub 65535 * 2 ^ 24
          + if over' then 1 else e.2.state))).goTo k (nextPc (s.thread k).pc)))
      ∧ ∀ s1 bs, s.chains.find? (fun e => mine e.2) = none → s.reads k (va57 addr) 8 s1 bs →
        exec (.engq g d a) s
          = .next ((s1.writeReg k d (BitVec.ofNat 64 (bytesToNat (bs.take 8)))).goTo k (nextPc (s.thread k).pc)))
  ∧ (∀ (s : State) (id : Nat) (c : Chain), s.chains.find id = some c → c.state = 3 ∨ c.state = 4 →
      (∀ e ∈ s.packets, e.2.chain = id → e.2.acked = true) → s.crewPresent c = true →
      let ends := fun (t : Thread) => let t := { t with oc := { t.oc with cp := t.oc.cp - 1 } }
        if c.state = 4 then t.recordFailure c.addr else t.settled
      let t := c.counting.foldl (fun (s : State) k => s.modCounted k ends) (s.writeHeader c)
      let t := if c.engine = 2 ∧ c.state = 4 then t.netEvent (c.unit - 384) 1 else t
      let t' := { t with chains := t.chains.del id, packets := t.packets.filter fun e => e.2.chain != id }
      (c.crew = none → exec (.chainEnd id) s = .next t')
      ∧ ∀ k, c.crew = some k → exec (.chainEnd id) s = .next (t'.reapCrew k))
  ∧ ∀ (s : State) (id : Nat) (c : Chain), s.chains.find id = some c → s.chainTurn id c = true →
      (c.state = 5 ∨ (c.state = 2 ∧ s.unblocked c = true) →
        exec (.chainUnblock id) s = .next (s.putChain id { c with state := 1 }))
      ∧ (c.state = 2 → s.unblocked c = false → exec (.chainUnblock id) s = .next s)

/-- R139, R140, R229 to R233: the entry at IDX. END ends the chain; LOOP goes back while its count lasts; IF skips by
its comparison; SIGNAL adds to a word or fills buffer slots; COPY, GATHER and SCATTER move the rows of their records;
TAKE reads the tail slot into the working tile, RELEASE frees it, SCALE, BIAS and ACT work on its elements, CVT makes
the output tile and STORE writes it. Each then goes to its next entry. First for the chains of a crew whose entries,
records, tiles and tables stand in its scratch, then for every chain, by what its reads and record checks give. -/
def Obligations.ChainEntries : Prop :=
  (∀ (s : State) (id ty : Nat) (c : Chain) (cr : Crew) (w0 w1 w2 w3 : Word), s.crewChain id c cr →
    s.entryIs c cr ty w0 w1 w2 w3 →
    let off := fld w1 21 0
    let here := s.headerOff c + 32 + 32 * c.idx
    let room := cr.lsg * 16384
    let on := fun (s : State) (c : Chain) => (.next (s.putChain id { c with idx := c.idx + 1 }) : Host.Outcome State Fault Refusal)
    let moves := fun (i : Instr) (t : State) => exec i s = .next t ∧ t.chains = s.chains.set id { c with idx := c.idx + 1 }
      ∧ t.threads = s.threads ∧ t.crews = s.crews ∧ t.mem = s.mem
    let holds := fun (x y : Nat) => match fld w0 15 14 with
      | 0 => x == y
      | 1 => x != y
      | 2 => decide (y ≤ x)
      | _ => decide (x < y)
    let branch := fun (b : Bool) =>
      if b then on s c else .next (s.putChain id { c with idx := c.idx + 1 + fld w0 31 16 })
    let k := fld w0 12 9
    let ctr := s.cbCtr cr k
    let word := wordOf (s.scratch cr off 8) 0
    let ring := fld w0 9 8
    let cfg := s.ringCfg cr ring
    let rw := s.ringCtr cr ring
    let released := s.putRing cr ring cfg (BitVec.ofNat 64 (fld rw 18 16 * 2 ^ 16
      + (fld rw 14 12 + 1) % 2 ^ fld cfg 33 32 * 2 ^ 12 + (fld rw 11 8 - 1) * 2 ^ 8))
    let w := c.tiles.w
    (ty = 0x01 → exec (.endEntry id) s = .next (s.putChain id { c with state := 3 }))
    ∧ (ty = 0x05 → fld w0 31 16 ≠ 0 → fld w0 31 16 ≤ c.idx →
        let remain := if bitAt w0 8 then fld w2 31 0 else fld w1 31 0
        let put := fun (armed n : Nat) => (s.putScratch cr here (natBytes 8 (setFld w0 8 8 armed).toNat)).putScratch cr (here + 16)
          (natBytes 8 (setFld w2 31 0 n).toNat)
        (0 < remain → exec (.loop id) s = .next ((put 1 (remain - 1)).putChain id { c with idx := c.idx - fld w0 31 16 }))
        ∧ (remain = 0 → exec (.loop id) s = on (put 0 0) c))
    ∧ (ty = 0x06 → bitAt w0 8 = true → off % 8 = 0 → off + 8 ≤ room →
        exec (.ifEntry id) s = branch (holds word.toNat w2.toNat))
    ∧ (ty = 0x06 → bitAt w0 8 = false → cbValid cr (s.cbCfg cr k) = true →
        exec (.ifEntry id) s = branch (holds (if bitAt w0 13 then fld ctr 31 16 else fld ctr 15 0) (fld w2 15 0)))
    ∧ (ty = 0x07 → s.gettingRows id = false → bitAt w0 8 = true → off % 8 = 0 → off + 8 ≤ room →
        exec (.signal id) s = on (s.putScratch cr off (natBytes 8 (word + w2).toNat)) c)
    ∧ (ty = 0x07 → s.gettingRows id = false → bitAt w0 8 = false → 1 ≤ off → off ≤ 128 → w2 = 0 → cbValid cr (s.cbCfg cr k) = true →
        fld ctr 15 0 + fld ctr 31 16 + off ≤ 2 ^ fld (s.cbCfg cr k) 58 56 →
        exec (.signal id) s
          = on (s.putCbCtr cr k (cbWord (fld ctr 63 48) (fld ctr 47 32) (fld ctr 31 16 + off) (fld ctr 15 0))) c)
    ∧ (∀ (src dst : TileRec), s.tileAt c cr off src → s.tileAt c cr (fld w2 21 0) dst → src.rowlen = dst.rowlen →
        bitAt w0 8 = false → src.range.2 ≤ dst.range.1 ∨ dst.range.2 ≤ src.range.1 →
        (ty = 0x02 → src.rows = dst.rows → ∃ t, moves (.copy id) t
          ∧ ∀ r < src.rows, t.tileBytes cr dst r = s.tileBytes cr src r)
        ∧ ∀ (ix : Nat → Nat), (∀ j, ix j = bytesToNat (s.scratch cr (fld w3 21 0 + 4 * j) 4)) → fld w3 21 0 % 4 = 0 →
          let n := if ty = 0x03 then dst.rows else src.rows
          let table := s.windowAddr cr (fld w3 21 0)
          fld w3 21 0 + 4 * n ≤ room → table + 4 * n ≤ dst.range.1 ∨ dst.range.2 ≤ table →
          (ty = 0x03 → (∀ j < n, ix j < src.rows) → ∃ t, moves (.gather id) t
            ∧ ∀ j < n, t.tileBytes cr dst j = s.tileBytes cr src (ix j))
          ∧ (ty = 0x04 → (∀ j < n, ix j < dst.rows) → ((List.range n).map ix).Nodup → ∃ t, moves (.scatter id) t
            ∧ ∀ j < n, t.tileBytes cr dst (ix j) = s.tileBytes cr src j))
    ∧ (ty = 0x10 → ringValid cfg = true → fld rw 11 8 ≠ 0 →
        exec (.take id) s = on (if bitAt w0 10 then released else s) { c with tiles := ⟨true,
          (List.range 4096).map fun j => BitVec.ofNat 32 (bytesToNat (s.loamBytes cr.core cr.bank
            (fld cfg 21 0 + 16384 * fld rw 14 12 + 4 * j) 4)), none, [], []⟩ })
    ∧ (ty = 0x11 → ringValid cfg = true → fld rw 11 8 ≠ 0 → exec (.release id) s = on released c)
    ∧ (c.tiles.taken = true →
        let elem := fun (f : Nat → BitVec 32 → BitVec 32) =>
          on s { c with tiles := { c.tiles with w := w.zipIdx.map fun e => f (e.2 % 128) e.1 } }
        let vec := fun (j : Nat) => (s.scratchElems cr off 128 4).getD j 0
        (ty = 0x12 → off % 4 = 0 → off + 512 ≤ room →
          exec (.scale id) s = elem fun j x => BitVec.ofNat 32 ((fmtOf .s).mul .rne x.toNat (vec j)).bits)
        ∧ (ty = 0x13 → off % 4 = 0 → off + 512 ≤ room →
          exec (.bias id) s = elem fun j x => BitVec.ofNat 32 ((fmtOf .s).add .rne x.toNat (vec j)).bits)
        ∧ (ty = 0x14 → fld w0 9 8 = 0 → exec (.act id) s = on s c)
        ∧ (ty = 0x14 → fld w0 9 8 = 1 → exec (.act id) s = on s { c with tiles := { c.tiles with w := w.map relu } })
        ∧ (ty = 0x14 → fld w0 9 8 = 3 → off % 2 = 0 → off + 512 ≤ room →
          ((fmtOf .s).decode (fld w2 31 0)).isNan = false →
          exec (.act id) s = on s { c with tiles := { c.tiles with
            w := w.map (tableElem (s.scratchElems cr off 256 2) ((fmtOf .s).decode (fld w2 31 0)) (toSigned 8 (fld w3 7 0))) } })
        ∧ (ty = 0x15 → 1 ≤ fld w0 14 12 → fld w0 14 12 ≤ 5 → bitAt w0 15 = false → fld w0 11 8 ∈ [1, 2, 3, 4, 7] →
          let o := convertTile (fld w0 11 8) false (Mode.ofFrm (BitVec.ofNat 3 (fld w0 14 12))) [] w
          exec (.cvt id) s = on s { c with tiles := { c.tiles with out := some (fld w0 11 8, false), o := o.1, scales := o.2 } })
        ∧ ∀ (t : TileRec), ty = 0x16 → s.tileAt c cr off t →
          let f := c.tiles.out.getD (7, false)
          let bytes := if c.tiles.out.isSome then c.tiles.o else w.flatMap fun x => natBytes 4 x.toNat
          f.2 = false → t.rows = 32 → t.rowlen = rowBytesOf f.1 → (t.fmt = 0 ∨ t.fmt = f.1) → bytes.length = 32 * t.rowlen →
          ∃ t', moves (.store id) t' ∧ ∀ r < 32, t'.tileBytes cr t r = (bytes.drop (t.rowlen * r)).take t.rowlen))
  ∧ ∀ (s s1 : State) (id ty : Nat) (c : Chain) (w0 w1 w2 w3 : Word), s.atEntry id ty c s1 (w0, w1, w2, w3) →
    let off := fld w1 21 0
    let here := s1.headerOff c + 32 + 32 * c.idx
    let on := fun (s : State) (c : Chain) => (.next (s.putChain id { c with idx := c.idx + 1 }) : Host.Outcome State Fault Refusal)
    let w := c.tiles.w
    let holds := fun (x y : Nat) => match fld w0 15 14 with
      | 0 => x == y
      | 1 => x != y
      | 2 => decide (y ≤ x)
      | _ => decide (x < y)
    let branch := fun (s : State) (c : Chain) (b : Bool) =>
      if b then on s c else .next (s.putChain id { c with idx := c.idx + 1 + fld w0 31 16 })
    (ty = 0x01 → exec (.endEntry id) s = .next (s1.putChain id { c with state := 3 }))
    ∧ (ty = 0x05 → fld w0 31 16 ≠ 0 → fld w0 31 16 ≤ c.idx →
        let remain := if bitAt w0 8 then fld w2 31 0 else fld w1 31 0
        let put := fun (armed n : Nat) => (s1.areaPut c here (natBytes 8 (setFld w0 8 8 armed).toNat)).areaPut c (here + 16)
          (natBytes 8 (setFld w2 31 0 n).toNat)
        (0 < remain → exec (.loop id) s = .next ((put 1 (remain - 1)).putChain id { c with idx := c.idx - fld w0 31 16 }))
        ∧ (remain = 0 → exec (.loop id) s = on (put 0 0) c))
    ∧ (ty = 0x06 → bitAt w0 8 = true → off % 8 = 0 → ∀ s2 bs z, s1.areaGet c off 8 = (s2, .inl (bs, z)) →
        exec (.ifEntry id) s = branch s2 { c with zsub := c.zsub + z } (holds (wordOf bs 0).toNat w2.toNat))
    ∧ (ty = 0x06 → bitAt w0 8 = false → ∀ cr cfg ctr, s1.chainBuffer c (fld w0 12 9) = some (cr, cfg, ctr) →
        let q := s1.countChain c (0x7E00 + 32 * fld w0 12 9)
        exec (.ifEntry id) s = branch q.1 { c with zsub := c.zsub + q.2 } (holds (if bitAt w0 13 then fld ctr 31 16 else fld ctr 15 0) (fld w2 15 0)))
    ∧ (s1.gettingRows id = true → exec (.signal id) s = .next s)
    ∧ (ty = 0x07 → s1.gettingRows id = false → bitAt w0 8 = true → off % 8 = 0 → ∀ s2 bs z, s1.areaGet c off 8 = (s2, .inl (bs, z)) →
        exec (.signal id) s = on (s2.areaPut c off (natBytes 8 (wordOf bs 0 + w2).toNat)) { c with zsub := c.zsub + z })
    ∧ (ty = 0x07 → s1.gettingRows id = false → bitAt w0 8 = false → 1 ≤ off → off ≤ 128 → w2 = 0 →
        ∀ cr cfg ctr, s1.chainBuffer c (fld w0 12 9) = some (cr, cfg, ctr) →
        fld ctr 15 0 + fld ctr 31 16 + off ≤ 2 ^ fld cfg 58 56 →
        let q := s1.countChain c (0x7E00 + 32 * fld w0 12 9)
        exec (.signal id) s = on (q.1.putCbCtr cr (fld w0 12 9)
          (cbWord (fld ctr 63 48) (fld ctr 47 32) (fld ctr 31 16 + off) (fld ctr 15 0))) { c with zsub := c.zsub + q.2 })
    ∧ ((ty = 0x02 ∨ ty = 0x03 ∨ ty = 0x04) →
        let buf := if bitAt w0 8 then s1.chainBuffer c (fld w0 12 9) else none
        let i : Instr := if ty = 0x02 then .copy id else if ty = 0x03 then .gather id else .scatter id
        let q := if bitAt w0 8 then s1.countChain c (0x7E00 + 32 * fld w0 12 9) else (s1, 0)
        (bitAt w0 8 = true → buf.isSome = true) →
        ((∃ b, buf = some b ∧ fld b.2.2 15 0 = 0) → ∃ c', exec i s = .next (q.1.putChain id c') ∧ c'.state = 2 ∧ c'.idx = c.idx)
        ∧ ∀ s2 s3 s4 s5 src d0 dst z1 z2 f f2 m, (ty ≠ 0x02 → fld w3 21 0 % 4 = 0) →
          q.1.recordAt c off = (s2, .inl (src, z1)) → s2.recordAt c (fld w2 21 0) = (s3, .inl (d0, z2)) →
          dst = (match buf with
            | some b => { d0 with base := s3.windowAddr b.1 (fld b.2.1 23 0 + fld b.2.2 47 32 * fld b.2.1 55 32) }
            | none => d0) →
          src.rowlen = dst.rowlen → (ty = 0x02 → src.rows = dst.rows) →
          (∀ b, buf = some b → fld b.2.2 15 0 ≠ 0 ∧ dst.range.2 - dst.range.1 ≤ fld b.2.1 55 32) →
          s3.checkRecLate (s1.chainWho c) src .load = (s4, f, none) →
          s4.checkRecLate (s1.chainWho c) dst .store = (s5, f2, none) →
          m = moveRows c (s1.chainWho c) ty (fld w3 21 0) src dst f (if ty = 0x04 then src.rows else dst.rows)
            ⟨(match buf with
              | some b => s5.putCbCtr b.1 (fld w0 12 9) (cbWord (fld b.2.2 63 48)
                  ((fld b.2.2 47 32 + 1) % 2 ^ fld b.2.1 58 56) (fld b.2.2 31 16) (fld b.2.2 15 0 - 1))
              | none => s5), 0, q.2 + z1 + z2, [], none⟩ →
          m.bad = none → exec i s = on m.s { c with zsub := c.zsub + m.zsub })
    ∧ (ty = 0x10 → ∀ cr cfg ctr, s1.chainRing c (fld w0 9 8) = some (cr, cfg, ctr) →
        (fld ctr 11 8 ≠ 0 →
          let q := s1.countChain c (0x7D00 + 32 * fld w0 9 8)
          let r := q.1.loamWords cr.core (fld cfg 21 0 + 16384 * fld ctr 14 12) 16384 (.bytes cr.bank)
          exec (.take id) s = on (if bitAt w0 10 then r.1.releaseTail cr (fld w0 9 8) else r.1)
            { c with zsub := c.zsub + q.2 + r.2.2, tiles := ⟨true, r.2.1, none, [], []⟩ })
        ∧ (fld ctr 11 8 = 0 → ∃ c', exec (.take id) s = .next ((s1.countChain c (0x7D00 + 32 * fld w0 9 8)).1.putChain id c') ∧ c'.state = 2 ∧ c'.idx = c.idx))
    ∧ (ty = 0x11 → ∀ cr cfg ctr, s1.chainRing c (fld w0 9 8) = some (cr, cfg, ctr) → fld ctr 11 8 ≠ 0 →
        let q := s1.countChain c (0x7D00 + 32 * fld w0 9 8)
        exec (.release id) s = on (q.1.releaseTail cr (fld w0 9 8)) { c with zsub := c.zsub + q.2 })
    ∧ (c.tiles.taken = true →
        (∀ s2 v z, s1.areaElems c off 128 4 = (s2, .inl (v, z)) →
          let by' := fun (op : Nat → Nat → FpResult) => on s2 { c with zsub := c.zsub + z, tiles := { c.tiles with
            w := w.zipIdx.map fun e => BitVec.ofNat 32 (op e.1.toNat (v.getD (e.2 % 128) 0)).bits } }
          (ty = 0x12 → exec (.scale id) s = by' ((fmtOf .s).mul .rne)) ∧ (ty = 0x13 → exec (.bias id) s = by' ((fmtOf .s).add .rne)))
        ∧ (ty = 0x14 → fld w0 9 8 = 0 → exec (.act id) s = on s1 c)
        ∧ (ty = 0x14 → fld w0 9 8 = 1 → exec (.act id) s = on s1 { c with tiles := { c.tiles with w := w.map relu } })
        ∧ (ty = 0x14 → fld w0 9 8 = 2 → ((fmtOf .s).decode (fld w2 31 0)).isNan = false → ((fmtOf .s).decode (fld w2 63 32)).isNan = false →
          ((fmtOf .s).decode (fld w2 63 32)).lt ((fmtOf .s).decode (fld w2 31 0)) = false →
          exec (.act id) s = on s1 { c with tiles := { c.tiles with w := w.map (clampElem (fld w2 31 0) (fld w2 63 32)) } })
        ∧ (ty = 0x14 → fld w0 9 8 = 3 → ((fmtOf .s).decode (fld w2 31 0)).isNan = false →
          ∀ s2 tab z, s1.areaElems c off 256 2 = (s2, .inl (tab, z)) →
          exec (.act id) s = on s2 { c with zsub := c.zsub + z, tiles := { c.tiles with
            w := w.map (tableElem tab ((fmtOf .s).decode (fld w2 31 0)) (toSigned 8 (fld w3 7 0))) } })
        ∧ (ty = 0x15 → 1 ≤ fld w0 14 12 → fld w0 14 12 ≤ 5 →
          let fmt := fld w0 11 8
          let scl := bitAt w0 15
          let makes := fun (s : State) (book : List FVal) =>
            let o := convertTile fmt scl (Mode.ofFrm (BitVec.ofNat 3 (fld w0 14 12))) book w
            on s { c with tiles := { c.tiles with out := some (fmt, scl), o := o.1, scales := o.2 } }
          ((fmt ∈ [1, 2, 7] ∧ scl = false ∨ fmt ∈ [3, 4]) → exec (.cvt id) s = makes s1 [])
          ∧ ∀ book k, fmt = 6 → scl = true → s1.chainBook c (fld w0 21 16) = some book → c.crew = some k →
            exec (.cvt id) s
              = makes (s1.modCrew k fun x => { x with cbSlots := x.cbSlots ||| (1#64 <<< fld w0 21 16) }) book)
        ∧ (ty = 0x16 → ∀ s2 t z m, s1.recordAt c off = (s2, .inl (t, z)) →
          let f := c.tiles.out.getD (7, false)
          let bytes := if c.tiles.out.isSome then c.tiles.o else w.flatMap fun x => natBytes 4 x.toNat
          let n := rowBlocks t.rowlen f.1
          s2.storeBad (s2.chainWho c) t f.1 f.2 = none →
          m = (List.range 32).foldl (fun (m : Move) r => storeRow (s2.chainWho c) t f
            ((bytes.drop (t.rowlen * r)).take t.rowlen) ((c.tiles.scales.drop (n * r)).take n) r m) ⟨s2, 0, z, [], none⟩ →
          m.bad = none → exec (.store id) s = on m.s { c with zsub := c.zsub + m.zsub }))

/-- R315, R335 to R341, what each network row does when it completes. NSEND sends one packet with the rows of its
record, NPUT one with each row, NGET one that asks for each row, and the chain goes on to its next entry: first for the
chains of a crew whose entry, record and rows stand in its scratch, then for every chain; an ordered entry waits until
every packet of its chain is acknowledged. PACKET.ACK marks a packet that is not an NGET's; PACKET.NACK sends a message
again, or fails the entry; TRANSPORT.TIMEOUT fails it, at that entry, with the bytes acknowledged and the lowest remote
address that is not; TRANSPORT.RETRANSMISSION sends the packet again. What arrives from a peer for a context that is
gone or torn down is dropped; else PACKET.PLACEMENT places an NPUT's bytes, or an NGET's row, NGET.REQUEST answers with
the bytes, and ACTIVE.MESSAGE fills the ring's next slot and enqueues its handler, or keeps it while the context is
suspended. SUSPENDED.CONTEXT.RESUME enqueues the kept ones once STATE is 1, and forgets them when it is 0 or 3. -/
def Obligations.NetworkRows : Prop :=
  (∀ (s : State) (id ty : Nat) (c : Chain) (cr : Crew) (w0 w1 w2 w3 : Word) (t : TileRec), s.crewChain id c cr →
    s.entryIs c cr ty w0 w1 w2 w3 → s.tileAt c cr (fld w1 21 0) t →
    let net := c.unit - 384
    let peer := fld w0 31 16
    let ord := bitAt w0 8
    let addr := fld w2 56 0
    let on := fun (s : State) => (.next (s.putChain id { c with idx := c.idx + 1 }) : Host.Outcome State Fault Refusal)
    let rows := (List.range t.rows).map (s.tileBytes cr t)
    (ord = true → s.allAcked id = true) → peer < s.netEcnt net c.asid → s.endpointValid net c.asid peer = true →
    (ty = 0x20 → t.rows * t.rowlen ≤ 4064 → fld w0 39 32 < s.netHcnt net c.asid →
      exec (.nsend id) s = on (s.sendPacket
        ⟨id, c.idx, s.nxt.packet, 0x20, ord, peer, 0, t.rows * t.rowlen, rows.flatten, w2, fld w0 39 32, false, true⟩))
    ∧ (ty = 0x21 → fld w2 3 0 = 0 →
      exec (.nput id) s = on ((rows.zipIdx.map fun r => (⟨id, c.idx, s.nxt.packet, 0x21, ord, peer,
        BitVec.ofNat 64 (addr + t.rowlen * r.2), t.rowlen, r.1, 0, 0, false, true⟩ : Packet)).foldl State.sendPacket s))
    ∧ (ty = 0x22 → fld w2 3 0 = 0 →
      exec (.nget id) s = on (((List.range t.rows).map fun r => (⟨id, c.idx, s.nxt.packet, 0x22, ord, peer,
        BitVec.ofNat 64 (addr + t.rowlen * r), t.rowlen, s.scratch cr (fld w1 21 0) 32, 0, r, false, true⟩ : Packet)).foldl
          State.sendPacket s)))
  ∧ (∀ (s s1 s2 s3 : State) (id ty : Nat) (c : Chain) (w0 w1 w2 w3 : Word) (t : TileRec) (z : Nat) (f : Nat × Bool),
    s.atEntry id ty c s1 (w0, w1, w2, w3) →
    let net := c.unit - 384
    let peer := fld w0 31 16
    let addr := fld w2 56 0
    let on := fun (s : State) (c : Chain) (z : Nat) => (.next (s.putChain id { c with idx := c.idx + 1, zsub := c.zsub + z })
      : Host.Outcome State Fault Refusal)
    (bitAt w0 8 = true → s1.allAcked id = false →
      (ty = 0x20 → exec (.nsend id) s = .next s) ∧ (ty = 0x21 → exec (.nput id) s = .next s)
      ∧ (ty = 0x22 → exec (.nget id) s = .next s))
    ∧ ((bitAt w0 8 = true → s1.allAcked id = true) → peer < s1.netEcnt net c.asid → s1.endpointValid net c.asid peer = true →
    s1.recordAt c (fld w1 21 0) = (s2, .inl (t, z)) →
    (ty = 0x20 → s2.checkRecLate (s2.chainWho c) t .load = (s3, f, none) → t.rows * t.rowlen ≤ 4064 →
      fld w0 39 32 < s3.netHcnt net c.asid → ∀ s4 rows zs, s3.payloadRows (s3.chainWho c) t = (s4, rows, zs, none) →
      exec (.nsend id) s = on (s4.sendPacket ⟨id, c.idx, s4.nxt.packet, 0x20, bitAt w0 8, peer, 0, rows.flatten.length, rows.flatten,
        w2, fld w0 39 32, false, true⟩) c (z + zs.dedup.length))
    ∧ (ty = 0x21 → fld w2 3 0 = 0 → s2.checkRecLate (s2.chainWho c) t .load = (s3, f, none) →
      ∀ s4 rows zs, s3.payloadRows (s3.chainWho c) t = (s4, rows, zs, none) →
      exec (.nput id) s = on ((rows.zipIdx.map fun r => (⟨id, c.idx, s4.nxt.packet, 0x21, bitAt w0 8, peer,
        BitVec.ofNat 64 (addr + t.rowlen * r.2), t.rowlen, r.1, 0, 0, false, true⟩ : Packet)).foldl State.sendPacket s4) c
          (z + zs.dedup.length))
    ∧ (ty = 0x22 → fld w2 3 0 = 0 → s2.checkRecLate (s2.chainWho c) t .store = (s3, f, none) →
      ∀ s4 bs z', s3.areaGet c (fld w1 21 0) 32 = (s4, .inl (bs, z')) →
      exec (.nget id) s = on (((List.range t.rows).map fun r => (⟨id, c.idx, s4.nxt.packet, 0x22, bitAt w0 8, peer,
        BitVec.ofNat 64 (addr + t.rowlen * r), t.rowlen, bs, 0, r, false, true⟩ : Packet)).foldl State.sendPacket s4) c z)))
  ∧ (∀ (s : State) (n : Nat) (p : Packet), s.packets.find n = some p → p.acked = false →
      (p.kind ≠ 0x22 → exec (.packetAck n) s = .next { s with packets := s.packets.set n { p with acked := true } })
      ∧ (p.kind = 0x22 → exec (.packetAck n) s = .next s)
      ∧ (p.kind = 0x20 → (∀ k cause rest, s.inputs ≠ .refusal k cause :: rest) →
        exec (.packetNack n) s
          = .next { s with packets := s.packets.set n { p with sent := false }, outputs := s.outputs ++ [.packet n] })
      ∧ (∀ cause rest, cause = 0x21 ∨ cause = 0x23 → s.inputs = .refusal n cause :: rest →
        exec (.packetNack n) s = .next ({ s with inputs := rest }.failPacket n cause))
      ∧ exec (.transportTimeout n) s = .next (s.failPacket n (if p.sent then 0x20 else 0x22))
      ∧ exec (.transportRetransmission n) s = .next { s with outputs := s.outputs ++ [.packet n] }
      ∧ ∀ c cause, s.chains.find p.chain = some c →
          let mine := s.packets.filter fun e => e.2.chain == p.chain && e.2.batch == p.batch
          ∃ t c', s.failPacket n cause = t
            ∧ t.packets = (s.packets.filter fun e => e.2.chain != p.chain || decide (e.2.batch < p.batch))
            ∧ t.chains = s.chains.set p.chain c' ∧ c'.state = 4 ∧ c'.cause = cause ∧ c'.idx = p.entry
            ∧ c'.done = (mine.filter fun e => e.2.acked).foldl (fun n e => n + e.2.len) 0
            ∧ (∃ e ∈ mine, e.2.acked = false ∧ c'.fault = e.2.addr)
            ∧ ∀ e ∈ mine, e.2.acked = false → c'.fault.toNat ≤ e.2.addr.toNat)
  ∧ (∀ (s : State) (rest : List Input) (net asid : Nat), s.halted = false →
      let s0 := { s with inputs := rest }
      let gone := s.netState net asid = 0 ∨ s.netState net asid = 3
      (∀ addr data, s.inputs = .put net asid addr data :: rest →
        (gone → exec .packetPlacement s = .next (s0.dropNoTarget net))
        ∧ ∀ c, ¬gone → s0.ctxByAsid asid = some c →
          (s0.peerPages c .store (va57 addr) data.length = none → exec .packetPlacement s = .next (s0.answer (.refused net)))
          ∧ ∀ s1, s0.peerPages c .store (va57 addr) data.length = some s1 →
            exec .packetPlacement s = .next ((s1.peerPut c (va57 addr) data).answer (.ack net)))
      ∧ (∀ pkt data p ch, s.inputs = .got pkt data :: rest → s.packets.find pkt = some p → p.kind = 0x22 →
          p.acked = false → s.chains.find p.chain = some ch → s.crewPresent ch = true →
          exec .packetPlacement s = .next (s0.placeGot pkt data)
          ∧ ∀ cr t, ch.crew.bind s.crews.find = some cr →
            s.crewChain p.chain ch cr → t = tileOfBytes p.data → t.space = 1 → t.shapeBad = false →
            s.inOwnScratch (s.chainWho ch) t.range = true → p.hidx < t.rows → data.length = t.rowlen →
            ∃ t', s0.placeGot pkt data = t' ∧ t'.inputs = rest
              ∧ t'.packets = s.packets.set pkt { p with acked := true } ∧ t'.tileBytes cr t p.hidx = data ∧ t'.mem = s.mem)
      ∧ (∀ addr len, s.inputs = .getRequest net asid addr len :: rest →
        (gone → exec .ngetRequest s = .next (s0.dropNoTarget net))
        ∧ ∀ c, ¬gone → s0.ctxByAsid asid = some c →
          (s0.peerPages c .load (va57 addr) len = none → exec .ngetRequest s = .next (s0.answer (.refused net)))
          ∧ ∀ s1, s0.peerPages c .load (va57 addr) len = some s1 →
            let r := s1.contextBytes (peerWho c) (va57 addr) len
            exec .ngetRequest s = .next (r.1.answer (.bytes net r.2)))
      ∧ (∀ hidx tag sender payload, s.inputs = .activeMessage net asid hidx tag sender payload :: rest →
        (gone → exec .activeMessageArrival s = .next ((s0.forgetTasks net asid).dropNoTarget net))
        ∧ ∀ c base n w ring, ¬gone → s0.ctxByAsid asid = some c → s0.receiveRing c net asid = some (base, n) →
          (s0.resolve (hwWho c) base .load).2 = .page ring →
          let at' := s.cursors.get ring.pa 0 % n
          let slot := base + 4096 * at'
          s0.ctxWord (hwWho c) slot = some w →
          let u := s0.putMessage c slot hidx tag sender payload
          let v := { u with cursors := u.cursors.set ring.pa ((at' + 1) % n) }
          (bitAt w 63 = true ∨ s0.resolves (hwWho c) .store slot = false →
            exec .activeMessageArrival s = .next (s0.answer (.nack net)))
          ∧ (bitAt w 63 = false → s0.resolves (hwWho c) .store slot = true → exec .activeMessageArrival s
            = .next ((if s.netState net asid = 1 then (v.resumeTasks net asid).enqueueTask net asid (BitVec.ofNat 64 slot)
              else v.setNet net { v.net net with
                suspended := (v.net net).suspended ++ [(asid, BitVec.ofNat 64 slot)] }).answer (.ack net)))))
  ∧ ∀ (s : State) (net asid : Nat),
      let kept := s.setNet net { s.net net with suspended := (s.net net).suspended.filter fun e => e.1 != asid }
      (s.netState net asid = 1 → exec (.suspendedContextResume net asid) s
        = .next (((s.net net).suspended.filter fun e => e.1 == asid).foldl (fun s e => s.enqueueTask net asid e.2) kept))
      ∧ (s.netState net asid = 2 → exec (.suspendedContextResume net asid) s = .next s)
      ∧ (s.netState net asid = 0 ∨ s.netState net asid = 3 → exec (.suspendedContextResume net asid) s = .next kept)

/-! ### The scheduler -/

/-- R31, R32: a regroup forms bundles of ready threads of a partition's resident crews: the members of a bundle stand
at one PC, in one context, on lanes of their own, and a partition has at most sixteen bundles, each under an index of
its own. -/
def Obligations.RegroupBundles : Prop :=
  ∀ (s : State) (core : Nat), (s.core core).asleep = false → s.halted = false →
    ∃ t, exec (.regroup core) s = .next t ∧
      ∀ b ∈ (t.core core).bundles, b.part < 4
        ∧ (∀ k ∈ b.members, (t.thread k).ready = true ∧ ∃ c, t.crewAt k = some c ∧ c.part = b.part)
        ∧ (∀ j ∈ b.members, ∀ k ∈ b.members, (t.thread j).pc = (t.thread k).pc
          ∧ (t.crewAt j).map (·.asid) = (t.crewAt k).map (·.asid))
        ∧ (b.members.map laneOf).Nodup
        ∧ ((t.core core).bundles.filter fun x => x.part == b.part).length ≤ 16
        ∧ ∀ x ∈ (t.core core).bundles, x.part = b.part → x.stamp % 16 = b.stamp % 16 → x = b

/-- R60, R63, R298, R302, R462: a due signal is taken with SIGNAL and the value first sent, a parked thread leaving its
wait; an enabled interrupt takes INTR from a user thread, wakes a sleeping supervisor thread behind its SLEEP, and
loads an idle hardware thread's supervisor frame, the timer too; WATCHDOG is taken by the threads of its crew that are
neither parked nor asleep, once the crew's counter has reached 2^24, and the counter is then zero: an AWAY thread takes
it where it runs, or holds it for its return to the lane. R292: SIGP stands while another signal waits. -/
def Obligations.AsynchronousTraps : Prop :=
  (∀ (s : State) (k : Nat), (s.threads.find k).isSome = true → s.signalDue k = true → s.halted = false →
      (s.core (s.coreOf k)).asleep = false →
      ∃ u : State, exec (.signalDelivery k) s = .next (u.takeTrap k cSIGNAL 0 ((s.thread k).signals.headD 0) (u.thread k).pc)
        ∧ (u.thread k).signals = (s.thread k).signals.drop 1 ∧ (u.thread k).st.park = .none ∧ (u.thread k).st.sleeping = false
        ∧ (u.thread k).regs = (s.thread k).regs ∧ u.mem = s.mem
        ∧ (u.thread k).trap.sigp = decide (1 < (s.thread k).signals.length)
        ∧ ((s.thread k).st.park = .none →
          (u.thread k).pc = if (s.thread k).st.sleeping then nextPc (s.thread k).pc else (s.thread k).pc))
  ∧ (∀ (s : State) (n : Nat), s.interruptDue n = true → s.halted = false →
      ((s.hart n).run = false → exec (.intr n) s = .next (s.loadSup n))
      ∧ ((s.hart n).run = true → (s.thread n).trap.sup = false →
        exec (.intr n) s = .next (s.takeTrap n cINTR 0 (s.ipend n &&& (s.hart n).ien) (s.thread n).pc))
      ∧ ((s.hart n).run = true → (s.thread n).trap.sup = true →
        exec (.intr n) s = .next (s.modThread n fun t => { t with pc := nextPc t.pc, st := { t.st with sleeping := false } })))
  ∧ (∀ (s : State), s.halted = false → exec .timerCompare s = .next (((List.range 256).filter fun n =>
      bitAt (s.ipend n) 2 && !(s.hart n).run && s.interruptDue n).foldl State.loadSup s))
  ∧ ∀ (s : State) (c : Nat) (cr : Crew), s.crews.find c = some cr → cr.place = .resident → s.halted = false →
      (2 ^ 24 ≤ cr.watchdog →
        exec (.watchdog c) s = .next (((s.laneKeys c).foldl State.bark s).modCrew c fun x => { x with watchdog := 0 })
        ∧ ∀ (s : State) (k : Nat),
          let t := s.thread k
          (t.st.away = false → s.bark k = if t.st.live = true ∧ t.st.park = .none ∧ t.st.pending = .none ∧ t.st.sleeping = false
            then s.raise k cWATCHDOG 0 0 t.pc else s)
          ∧ (∀ n, t.st.away = true → s.awayHart k = some n →
            s.bark k = if (s.thread n).ready = true then s.takeTrap n cWATCHDOG 0 0 (s.thread n).pc else s)
          ∧ (t.st.away = true → s.awayHart k = none → t.st.pending = .none →
            s.bark k = s.modThread k fun t => { t with st := { t.st with pending := .trap cWATCHDOG 0 0 t.pc } }))
      ∧ (cr.watchdog < 2 ^ 24 → exec (.watchdog c) s = .next s)

/-- R164 to R166, R193, R194, R278 to R283, R304 to R311, R354, R356: a stopped crew that has drained is written to its
frame with a fault record, or held in place without room for the frame; once its fault word is cleared a held one goes
on, one with threads that the parity sweep marked being saved first (R87), and a saved one is restored, when its turn
comes and its core admits it; waiting work that claims a core stops a context's crews and drops its residencies; a
shadow switch runs the crews of the other bank, a draining switch writes the frames; the leach engine spills and
pre-fills; a flush writes the context's lines back; a tick charges the cores and serves the rings of every die. -/
def Obligations.SchedulerRows : Prop :=
  (∀ (s : State) (c : Nat) (cr : Crew), s.crews.find c = some cr → cr.place = .stopping → s.crewDrained c = true →
      s.faultQueueFull (cr.core / 48) = false →
      let fs := s.faulting c
      let low := fs.headD (0, 0, 0)
      let ctx := (s.core cr.core).ctxOf cr.asid
      let s1 := (s.haltCrew c true).clearFaults c
      let done := fun (s2 : State) (frame : Nat) =>
        ((((s2.faultRecord (cr.core / 48) frame low.2.2 low.2.1 (fs.foldl (fun m e => m + 2 ^ laneOf e.1) 0) cr.seq
          cr.core).raiseFaultWord ctx cr.region).modCrew c fun x => { x with faulted := true }).leaveRings ctx (cr.core / 48) cr.region)
      (s.frameRoom cr = true → exec (.pageFaultSave c) s = .next (done (s1.writeCrew c cr.frame) cr.frame))
      ∧ (s.frameRoom cr = false →
        exec (.pageFaultSave c) s = .next (done (s1.modCrew c fun x => { x with place := .parkedFault }) 0)))
  ∧ (∀ (s : State) (asid : Nat) (region : Word) (e : Nat × Crew),
      s.crews.filter (fun e => e.2.faulted && e.2.asid == asid && e.2.region == region) = [e] →
      s.ctxWord (hwWho (s.dieCtx (e.2.core / 48) asid)) (va57 region + 0x50) = some 0 →
      let s1 := s.modCrew e.1 fun c => { c with faulted := false }
      exec (.faultWordClear asid region) s
        = .next (if e.2.place ≠ .parkedFault then s1.refreshRing (e.2.core / 48)
          else if (s1.laneKeys e.1).any (fun k => (s1.thread k).st.poison) = true then
            s1.modCrew e.1 fun c => { c with place := .stopping }
          else s1.startCrew e.1))
  ∧ (∀ (s : State) (c f : Nat) (cr : Crew) fit, s.crews.find c = some cr → cr.place = .saved f → cr.faulted = false →
      s.halted = false → (s.core cr.core).switch = none → s.flips cr.core = false →
      let d := cr.core / 48
      let ctx := s.dieCtx d cr.asid
      (cr.region = 0 ∨ s.pathBad ctx d cr.region = false) → s.turnOf d (.context cr.core cr.asid) = true →
      s.pathAdmits ctx d cr f = true → s.crewFit c f (s.core cr.core).actb false = some fit →
      exec (.crewRestore c) s = .next ((((s.cachePath ctx d cr.region).readCrew c f fit cr).startCrew c).refreshRing d))
  ∧ (∀ (s : State) (core asid : Nat), s.halted = false →
      (∀ d w, s.runningCrews core asid ≠ [] → (s.core core).switch = none → s.cause (core, asid) = some (d, w) →
        exec (.preemption core asid) s = .next (((s.runningCrews core asid).foldl (fun s c =>
            (s.haltCrew c (s.prioOf w.ctx d w.region == 3)).modCrew c fun x => { x with place := .spilling })
              ((s.accrue core).dropResidencies core asid)).modCore core fun x =>
          { x with predictor := [], switch := some ⟨asid, w.ctx.asid, w.region⟩ }))
      ∧ (s.runningCrews core asid = [] ∨ s.cause (core, asid) = none → exec (.preemption core asid) s = .next s))
  ∧ (∀ (s : State) (core : Nat), (s.core core).shadow = true → s.incoming core ≠ [] → s.halted = false → s.pkg.qsd = false →
      (∀ x, (s.core core).engines.current = some x → ∀ e ∈ s.spilling core (s.core core).actb, e.1 ≠ x.crew) →
      (∀ e ∈ s.spilling core (s.core core).actb, s.speechless e.1 = true) →
      (∀ e ∈ s.crewsOn core, e.2.bank = (s.core core).actb → e.2.place = .spilling ∨ s.laneKeys e.1 = []) →
      exec (.shadowSwitch core) s = .next ((s.incoming core).foldl State.startCrew
        ((((s.incoming core).filterMap fun k => (s.crews.find k).map (·.asid)).dedup).foldl (fun s a => s.switchInCtx core a)
          ((s.accrue core).modCore core fun k => { k with
            partWord := setFld k.partWord 41 41 (boolBit (!k.actb)), switch := none, bundles := [] }))))
  ∧ (∀ (s : State) (core : Nat) (w : Switch), (s.core core).switch = some w → s.incoming core = [] →
      (∀ e ∈ s.crewsOn core, e.2.asid = w.out → e.2.place ≠ .stopping) →
      (∀ e ∈ s.spilling core (s.core core).actb, s.unsettled e = false) →
      exec (.drainingSwitch core) s = .next ((((((s.spilling core (s.core core).actb).foldl (fun s e =>
        s.writeOne core e) s).accrue core).modCore core fun c => { c with switch := none, bundles := [] }).fillFrom core
          w.asid).refreshRing (core / 48)))
  ∧ (∀ (s : State) (core : Nat), exec (.leachSpill core) s = .next ((((s.spilling core (!(s.core core).actb)).filter fun e =>
      s.crewDrained e.1 && s.speechless e.1).foldl (fun s e => s.writeOne core e) s).refreshRing (core / 48)))
  ∧ (∀ (s : State) (core asid f : Nat) (e : Nat × Crew) fit, (s.core core).shadow = true → s.halted = false →
      s.prefillCrews core asid = [e] → e.2.place = .saved f → s.crewsOn core ≠ [] →
      (∀ x ∈ s.crewsOn core, x.2.bank = (s.core core).actb) →
      let ctx := s.dieCtx (core / 48) asid
      (e.2.region ≠ 0 → s.pathBad ctx (core / 48) e.2.region = true →
        exec (.leachPrefill core asid) s = .next (s.countMalformed (core / 48)))
      ∧ ((e.2.region = 0 ∨ s.pathBad ctx (core / 48) e.2.region = false) → s.pathAdmits ctx (core / 48) e.2 f = true → s.crewFit e.1 f (!(s.core core).actb) true = some fit →
      exec (.leachPrefill core asid) s
        = .next (((s.cachePath ctx (core / 48) e.2.region).readCrew e.1 f fit e.2).refreshRing (core / 48))))
  ∧ (∀ (s : State) (core asid : Nat), exec (.asidFlush core asid) s = .next (((s.mem.copies.filter fun c =>
      c.agent == core && c.asid == asid).map (·.line)).foldl (fun s l => s.putLine core l false) s))
  ∧ ∀ (s : State), s.halted = false → exec .schedulingTick s = .next ((List.range 8).foldl State.tickDie s)

/-! ### Coherence -/

/-- R175 to R190: each row of the directory is a message of its kind taken by its receiver, and completes. At a home whose
directory has no entry a GetS allocates a class-9 entry and is granted E, a GetM or Upg M, a KGet a K pointer, with the
line's storage; a RdOnce is answered with it; a write is performed there, and an atomic, which answers the old value. A
GetS that finds a shared line is granted S and noted; one that finds an owner is forwarded to it. An owner in M that takes
a forward of a GetS keeps the line in O, and one that takes a FwdM gives it up; each sends its data to the requester and
FwdDone to the home. FwdDone or NoData ends a GetS's transaction, NoData with a grant from L2; WbPending leaves it in HW;
the last acknowledgement of a GetM's ends it with the grant of M. An invalidation drops a shared copy and is acknowledged;
a PutAck frees the write-back buffer; a grant is the agent's new copy; a refused request is sent again. An agent's Put
leaves with its copy; at a single-line entry its agent leaves the entry, the bytes of a PutM or PutO reach storage, and
PutAck answers. A queued request starts when it can; a promote is taken; the epoch ages the entries. -/
def Obligations.DirectoryRows : Prop :=
  (∀ (s : State) (n : Nat) (m : Msg), s.mem.msgs.find n = some m →
    let takes := fun (i : Instr) => exec i s = .next (s.takeMsg n)
    (m.kind = .gets → takes (.gets n)) ∧ (m.kind = .getm → takes (.getm n)) ∧ (m.kind = .upg → takes (.upg n))
    ∧ (m.kind = .kget → takes (.kget n)) ∧ (m.kind = .rdonce → takes (.rdonce n)) ∧ (m.kind = .wr → takes (.wr n))
    ∧ (m.kind = .atomic → takes (.homeAtomic n)) ∧ (m.kind = .putack → takes (.putack n)) ∧ (m.kind = .fwds → takes (.fwds n))
    ∧ (m.kind = .fwdm → takes (.fwdm n)) ∧ (m.kind = .fwddone → takes (.fwddone n)) ∧ (m.kind = .nodata → takes (.nodata n))
    ∧ (m.kind = .wbpending → takes (.wbpending n)) ∧ (m.kind = .inv → takes (.invalidation n))
    ∧ (m.kind = .ack → takes (.acknowledgement n)) ∧ (m.kind = .grant → takes (.grant n)) ∧ (m.kind = .retry → takes (.retry n))
    ∧ (m.kind = .promote → exec (.promote n) s = .next (s.unpost n)))
  ∧ (∀ (s : State) (n : Nat) (m : Msg), s.mem.msgs.find n = some m → aliasLine m.line = false →
      (∀ c ∈ s.mem.copies, aliasLine c.line = false) → s.mem.txns = [] → s.mem.queued = [] →
      let base := m.line / 512 * 512
      let stored := s.mem.bytes.line m.line
      let answers := fun (i : Instr) (st : Option Moesi) (e : List (Option Nat × List Pointer)) => ∃ t, exec i s = .next t
        ∧ (t.mem.msgs.find s.nxt.msg).map (fun g => (g.kind, g.dst, g.st, g.data)) = some (.grant, m.req, st, stored)
        ∧ t.mem.dir.map (fun e => (e.owner, e.ptrs)) = e ∧ (∀ e ∈ t.mem.dir, e.base = base ∧ e.cls = 9) ∧ t.mem.bytes = s.mem.bytes
      (s.mem.dir = [] →
        (m.kind = .gets → answers (.gets n) (some .e) [(some m.req, [])])
        ∧ (m.kind = .getm → answers (.getm n) (some .m) [(some m.req, [])])
        ∧ (m.kind = .upg → answers (.upg n) (some .m) [(some m.req, [])])
        ∧ (m.kind = .kget → answers (.kget n) none [(none, [⟨true, m.req⟩])])
        ∧ (m.kind = .rdonce → answers (.rdonce n) none [])
        ∧ (m.kind = .wr → m.act = none → s.mem.poisoned m.line m.key = false → ∃ t, exec (.wr n) s = .next t
          ∧ (∀ k < 128, t.mem.bytes.byte (128 * m.line + k)
            = if m.mask.getLsbD k then lineByte m.data k else s.mem.bytes.byte (128 * m.line + k))
          ∧ (∀ a, a / 128 ≠ m.line → t.mem.bytes.byte a = s.mem.bytes.byte a)
          ∧ (t.mem.msgs.find s.nxt.msg).map (fun g => (g.kind, g.dst)) = some (.grant, m.req))
        ∧ ∀ a, m.kind = .atomic → m.act = some a → a.size ∈ [4, 8] → a.off + a.size ≤ 128 →
          s.mem.poisoned m.line m.key = false →
          let old := bytesToNat ((List.range a.size).map fun k => lineByte stored (a.off + k))
          ∃ t, exec (.homeAtomic n) s = .next t
            ∧ bytesToNat ((List.range a.size).map fun k => lineByte (t.mem.bytes.line m.line) (a.off + k))
              = atomicValue a.i (8 * a.size) old a.b.toNat a.c.toNat % 2 ^ (8 * a.size)
            ∧ (∀ k < 128, k < a.off ∨ a.off + a.size ≤ k → lineByte (t.mem.bytes.line m.line) k = lineByte stored k)
            ∧ (t.mem.msgs.find s.nxt.msg).map (fun g => (g.kind, g.dst, g.data)) = some (.grant, m.req, BitVec.ofNat 1024 old))
      ∧ ∀ e, s.mem.dir = [e] → e.base = m.line → e.cls = 0 → m.kind = .gets →
        (e.owner = none → e.coarse = false → e.ptrs = [] → ∃ t, exec (.gets n) s = .next t
          ∧ t.mem.dir.map (fun x => (x.base, x.owner, x.ptrs)) = [(m.line, none, [⟨false, m.req⟩])]
          ∧ (t.mem.msgs.find s.nxt.msg).map (fun g => (g.kind, g.dst, g.st, g.data)) = some (.grant, m.req, some .s, stored)
          ∧ t.mem.bytes = s.mem.bytes)
        ∧ ∀ o, e.owner = some o → ∃ t, exec (.gets n) s = .next t ∧ t.mem.dir = s.mem.dir ∧ t.mem.bytes = s.mem.bytes
          ∧ (t.mem.txns.find m.line).map (fun x => (x.kind, x.req, x.owner)) = some (.hf, m, some o)
          ∧ (t.mem.msgs.find s.nxt.msg).map (fun g => (g.kind, g.dst, g.line, g.req)) = some (.fwds, o, m.line, m.req))
  ∧ (∀ (s : State) (n : Nat) (m : Msg), s.mem.msgs.find n = some m →
      (m.kind = .putack → s.mem.behind n m = false →
        ∃ t, exec (.putack n) s = .next t ∧ t.mem.bytes = s.mem.bytes ∧ t.mem.msgs.find n = none
        ∧ t.mem.wbufs = s.mem.wbufs.filter fun c => !(c.agent == m.dst && c.line == m.line))
      ∧ (s.mem.awaitsGrant m.dst m.line = false → ∀ c, s.mem.findCopy m.dst m.line = some c → c.tracked = true →
        (m.kind = .fwds → s.mem.behind n m = false → m.again = some .gets → c.st = .m → m.dst < 512 →
          s.mem.putInFlight m.dst m.line = false → ∃ t, exec (.fwds n) s = .next t
          ∧ t.mem.findCopy m.dst m.line = some { c with st := .o } ∧ t.mem.bytes = s.mem.bytes
          ∧ (t.mem.msgs.find s.nxt.msg).map (fun g => (g.kind, g.dst, g.st, g.data)) = some (.grant, m.req, some .s, c.data)
          ∧ (t.mem.msgs.find (s.nxt.msg + 1)).map (fun g => (g.kind, g.dst, g.flag)) = some (.fwddone, homeOf m.line, false))
        ∧ (m.kind = .fwdm → s.mem.behind n m = false → m.flag = false → c.st ≠ .s →
          s.mem.putInFlight m.dst m.line = false → ∃ t, exec (.fwdm n) s = .next t
          ∧ t.mem.findCopy m.dst m.line = none ∧ t.mem.bytes = s.mem.bytes
          ∧ (t.mem.msgs.find s.nxt.msg).map (fun g => (g.kind, g.dst, g.data, g.mask)) = some (.data, m.req, c.data, c.dirty)
          ∧ (t.mem.msgs.find (s.nxt.msg + 1)).map (fun g => (g.kind, g.dst)) = some (.fwddone, homeOf m.line))
        ∧ (m.kind = .inv → m.flag = false → c.st = .s → ∃ t, exec (.invalidation n) s = .next t
          ∧ t.mem.findCopy m.dst m.line = none ∧ t.mem.bytes = s.mem.bytes
          ∧ (t.mem.msgs.find s.nxt.msg).map (fun g => (g.kind, g.dst, g.line)) = some (.ack, homeOf m.line, m.line)))
      ∧ (∀ x, s.mem.txns.find m.line = some x → x.req.line = m.line →
        (x.owner = some m.src → x.req.req = m.req → x.req.kind = .gets →
          (m.kind = .fwddone → ∃ t, exec (.fwddone n) s = .next t ∧ t.mem.txns.find m.line = none ∧ t.mem.bytes = s.mem.bytes)
          ∧ (m.kind = .nodata → ∃ t, exec (.nodata n) s = .next t ∧ t.mem.txns.find m.line = none ∧ t.mem.bytes = s.mem.bytes
            ∧ (t.mem.msgs.find s.nxt.msg).map (fun g => (g.kind, g.dst, g.st)) = some (.grant, m.req, some .s))
          ∧ (m.kind = .wbpending → ∃ t, exec (.wbpending n) s = .next t ∧ t.mem.txns.find m.line = some { x with kind := .hw }
            ∧ t.mem.bytes = s.mem.bytes))
        ∧ (m.kind = .ack → x.acks = 1 → x.owner = none → x.req.kind = .getm → ∃ t, exec (.acknowledgement n) s = .next t
          ∧ t.mem.txns.find m.line = none ∧ t.mem.bytes = s.mem.bytes
          ∧ (t.mem.msgs.find s.nxt.msg).map (fun g => (g.kind, g.dst, g.st)) = some (.grant, x.req.req, some .m)))
      ∧ (∀ st, m.kind = .grant → m.st = some st → m.flag = false → ∃ t, exec (.grant n) s = .next t
        ∧ (t.mem.findCopy m.dst m.line).map (fun c => (c.st, c.tracked, c.data, c.dirty)) = some (st, true, m.data, 0)
        ∧ t.mem.bytes = s.mem.bytes)
      ∧ (m.kind = .retry → ∃ t, exec (.retry n) s = .next t ∧ t.mem.bytes = s.mem.bytes
        ∧ (t.mem.msgs.find s.nxt.msg).map (fun g => (g.kind, g.src, g.dst, g.line))
          = some (m.again.getD .gets, m.dst, homeOf m.line, m.line)))
  ∧ (∀ (s : State) (agent line : Nat) (k : MsgKind) (i : Bool → Instr), (k, i) ∈ [(MsgKind.putm, fun b => Instr.putm b agent line),
        (.puto, fun b => .puto b agent line), (.pute, fun b => .pute b agent line), (.puts, fun b => .puts b agent line)] →
      (∀ n m, s.mem.msgs.find? (fun e => e.2.kind == k && e.2.src == agent && e.2.line == line) = some (n, m) →
        exec (i true) s = .next (s.takeMsg n)
        ∧ ∀ e, s.mem.msgs.find n = some m → s.mem.txns.find line = none → s.mem.dir = [e] → e.base = line → e.cls = 0 →
          m.flag = false → aliasLine line = false → (∀ c ∈ s.mem.copies, aliasLine c.line = false) →
          s.mem.poisoned line m.key = false →
          ∃ t, exec (i true) s = .next t
            ∧ (t.mem.msgs.find s.nxt.msg).map (fun g => (g.kind, g.dst, g.line)) = some (.putack, agent, line)
            ∧ (k ≠ .puts → e.owner = some agent → ∀ e' ∈ t.mem.dir, e'.owner = none)
            ∧ (k = .puts → e.coarse = false → ∀ e' ∈ t.mem.dir, ∀ p ∈ e'.ptrs, p.agent = agent → p.k = true)
            ∧ ((k = .putm ∨ k = .puto) → e.owner = some agent → ∀ j < 128, t.mem.bytes.byte (128 * line + j)
              = if m.mask.getLsbD j then lineByte m.data j else s.mem.bytes.byte (128 * line + j)))
      ∧ ∀ c, s.mem.findCopy agent line = some c → c.tracked = true → c.st = putState k →
        (c.st = .s → agent < 384 → exec (i false) s = .next (s.withMem (s.mem.dropCopy agent line)))
        ∧ ((c.st ≠ .s ∨ 384 ≤ agent) →
          ∃ t, exec (i false) s = .next t ∧ t.mem.findCopy agent line = none
          ∧ ((k = .putm ∨ k = .puto) → t.mem.putInFlight agent line = true)
          ∧ (t.mem.msgs.find s.nxt.msg).map (fun g => (g.kind, g.src, g.line, g.data, g.mask)) = some (k, agent, line, c.data, c.dirty)
          ∧ t.mem.bytes = s.mem.bytes))
  ∧ (∀ (s : State) (m : Msg), s.mem.queued.find? (fun x => x.line == m.line) = some m →
      (s.canStart m = true → exec (.queuedRequestDequeue m.line) s = .next (s.startQueued m))
      ∧ (s.canStart m = false → exec (.queuedRequestDequeue m.line) s = .next s)
      ∧ (s.mem.queued = [m] → m.kind = .gets → s.mem.txns = [] → s.mem.dir = [] → aliasLine m.line = false →
        ∃ t, exec (.queuedRequestDequeue m.line) s = .next t ∧ t.mem.queued = [] ∧ t.mem.bytes = s.mem.bytes
          ∧ (t.mem.msgs.find s.nxt.msg).map (fun g => (g.kind, g.dst, g.st, g.data))
            = some (.grant, m.req, some .e, s.mem.bytes.line m.line)))
  ∧ ∀ (s : State), let older := s.mem.dir.map fun e => { e with quiet := min (e.quiet + 1) 5 }
      exec .quietEpoch s = .next (s.withMem { s.mem with dir := older }).mergeAll
      ∧ ((∀ a ∈ older, ∀ b ∈ older, s.mem.mergeable a b = false) →
        exec .quietEpoch s = .next (s.withMem { s.mem with dir := older }))

/-! ### Control space and the package -/

/-- R150, R167 to R171, R277, R299, R300, R302, R326 to R331, R353: the stores that act. MIGSTART takes a descriptor,
or ends with state 3 for a bad one (log 52); a line is copied at a time, and MIGREL ends the forwarding; Silt compresses a
cold eligible unit once its dirty lines are written back, and expands one into a free frame of the pool; RCINV of a die
that caches no block only notes its address; RETURN puts an escalated thread of a resident crew back into its lane; SIGCTL
gives the resident thread with SIGTID its signal, and does nothing while it is busy; HTLOAD starts a valid frame on an
idle hardware thread, notes it for the thread's own, and is refused for an invalid one; ISET sets the software bit; HOSTDB
sets bit 4 everywhere; zero clears a counter; any other register is written: SAVEBASE and ESCBASE take bits 51:12. -/
def Obligations.ControlStores : Prop :=
  (∀ (s : State) (d : Nat) (v : Word), d < 8 → (s.die d).migration = none →
      let a := fld v 51 6 * 64
      let w := fun (off : Nat) => s.hwWord (a + off)
      let len := fld (w 0x10) 34 0
      ∃ t, exec (.migstart d v) s = .next t ∧ ∃ g, (t.die d).migration = some g ∧ g.desc = a ∧ g.src = (w 0).toNat
        ∧ g.dst = (w 8).toNat ∧ g.len = len ∧ g.lines = 0
        ∧ (migrationBad w len = true → g.state = 3)
        ∧ (migrationBad w len = false → g.state = if len = 0 then 1 else 0))
  ∧ (∀ (s : State) (d : Nat) (g : Migration), (s.die d).migration = some g →
      (g.state = 0 → s.halted = false → s.siltReady (128 * (g.src / 128 + g.lines)) = true →
        s.siltReady (128 * (g.dst / 128 + g.lines)) = true → ∀ s1 b, s.copyLine g = (s1, b) →
        exec (.migrationLineCopy d) s = .next (s1.endCopy d
          { g with lines := g.lines + 1, poisoned := if b then min (g.poisoned + 1) 255 else g.poisoned }))
      ∧ ∀ v, g.state = 1 → g.desc = fld v 51 6 * 64 → ∃ t, exec (.migrel d v) s = .next t
          ∧ (t.die d).migration = some { g with state := 2 })
  ∧ (∀ (s : State) (unit : Nat), unit < 2 ^ 24 →
      let st := unit / 2 ^ 20
      let u := unit % 2 ^ 20
      ((s.stk st).compressed.contains u = false → s.siltEligible st u = true → s.inViewset st u = false → s.halted = false →
        let c := s.cleanRange (st * 2 ^ 36 + u * 65536) 65536
        exec (.siltCompress unit) s = .next (c.setStk st { c.stk st with
          compressed := u :: (c.stk st).compressed, expanded := (c.stk st).expanded.filter (· != u) })
        ∧ (s.mem.copies = [] → c = s))
      ∧ ((s.stk st).compressed.contains u = true → (s.stk st).expanded.length < fld (s.stk st).poollen 31 0 →
        ∃ t, exec (.siltExpansion unit) s = .next t ∧ (t.stk st).compressed = (s.stk st).compressed.filter (· != u)
          ∧ (t.stk st).expanded = u :: (s.stk st).expanded ∧ t.mem = s.mem ∧ t.threads = s.threads))
  ∧ (∀ (s : State) (d : Nat) (v : Word), d < 8 →
      ((s.die d).regions = [] → exec (.rcinv d v) s = .next (s.modDie d fun x => { x with rcAddr := v &&& 0x01FFFFFFFFFFFF00 }))
      ∧ (∀ f k c, (s.die d).escalated.find? (fun e => word e.1 == v) = some (f, k) → bitAt (hdr (s.frameAt f) 0x208) 31 = true →
        fld (hdr (s.frameAt f) 0x268) 6 0 = (s.thread k).regcnt → s.crewAt k = some c → c.place = .resident →
        exec (.returnStore d v) s = .next (s.rejoinLane k f))
      ∧ (s.sigBusy d = true → exec (.sigctl d v) s = .next s)
      ∧ (∀ e c, s.sigBusy d = false → s.threads.find? (fun e => decide (256 ≤ e.1) && e.2.ids.tid == (s.die d).sigtid && !e.2.st.away
          && e.2.st.pending.stays && (match s.crewAt e.1 with
            | some c => c.core / 48 == d && c.place == .resident
            | none => false)) = some e → s.crewAt e.1 = some c → s.thread e.1 = e.2 →
        ∃ t, exec (.sigctl d v) s = .next t ∧ (t.thread e.1).signals = e.2.signals ++ [BitVec.ofNat 64 (fld v 15 0)]
          ∧ (t.die d).sigResult = 0 ∧ t.mem = s.mem))
  ∧ (∀ (s : State) (by' n : Nat) (v : Word), n < 256 →
      let f := fld v 51 10 * 1024
      (s.frameValid f = false → ∃ t, exec (.htload by' n v) s = .next t ∧ (t.hart n).rej = true ∧ t.threads = s.threads)
      ∧ (s.frameValid f = true → by' = n → ∃ t, exec (.htload by' n v) s = .next t ∧ (t.hart n).load = some f
          ∧ (t.hart n).rej = false ∧ t.threads = s.threads)
      ∧ (s.frameValid f = true → by' ≠ n → (s.hart n).run = false → ∃ t, exec (.htload by' n v) s = .next t
          ∧ (t.hart n).run = true ∧ (t.hart n).rej = false ∧ (t.thread n).regcnt = 64
          ∧ ∀ r, 0 < r → r < 64 → (t.thread n).reg r = (s.frameAt f).getD r 0)
      ∧ (bitAt v 3 = true → ∃ t, exec (.iset n v) s = .next t ∧ (t.hart n).ipend = (s.hart n).ipend ||| 8#8 ∧ t.mem = s.mem
          ∧ ∀ m, m ≠ n → t.hart m = s.hart m)
      ∧ (bitAt v 3 = false → exec (.iset n v) s = .next s)
      ∧ ∃ t, exec (.hostdb v) s = .next t ∧ t.pkg.hostdb = v ∧ (t.hart n).ipend.getLsbD 4 = true ∧ t.mem = s.mem)
  ∧ (∀ (s : State) (off : Nat), isCounter (ctlPlace off) = true →
      ∃ t, exec (.counterClear off 0) s = .next t ∧ t.ctlRead off = 0 ∧ t.mem = s.mem)
  ∧ ∀ (s : State) (off : Nat) (v : Word), isCounter (ctlPlace off) = false → ownRow (ctlPlace off) = false →
      exec (.controlRegisterWrite off v) s = .next (s.ctlWrite (2 ^ 64) off v)
      ∧ (∀ d, d < 8 → ctlPlace off = some (.die d, 0) → (s.ctlWrite (2 ^ 64) off v).ctlRead off = v &&& 0x000FFFFFFFFFF000)
      ∧ (ctlPlace off = some (.pkg, 0x030) → (s.ctlWrite (2 ^ 64) off v).ctlRead off = v &&& 0x000FFFFFFFFFF000)

/-- R7, R11, R109, R151, R152, R301, R331, R332, R343: a release of reset with accepted firmware leaves the threads, the
hardware threads and the package registers of reset and no crew, its stacks cleared, and otherwise holds the package in
reset and reports the failure; a flit in order is delivered, and a damaged one, of which nothing counts, is asked for
again; a time-out takes a port down, counts it and raises the package event, and a port comes up; the measurement
registers and the device key answer an SPDM request; above 95 degrees a die is hot and its rails stand at F0, below 90
it is hot no longer; the clock and ACTLIM take what the power budget leaves. -/
def Obligations.PackageRows : Prop :=
  (∀ s : State,
      (Config.firmwareAccepted = true → ∃ t, exec .resetRelease s = .next t ∧ t.threads = State.reset.threads ∧ t.crews = []
        ∧ t.harts = State.reset.harts ∧ t.pkg = State.reset.pkg ∧ (∀ a, a < 2 ^ 48 → t.mem.bytes.byte a = 0)
        ∧ (s.memWf = true → ∀ a, 2 ^ 48 ≤ a → t.mem.bytes.byte a = s.mem.bytes.byte a))
      ∧ (Config.firmwareAccepted = false →
        exec .resetRelease s = .next { s with
          pkg := { s.pkg with inReset := true }, outputs := s.outputs ++ [.bootFailure Config.bootReport] }))
  ∧ (∀ (s : State) (n : Nat) (f : Flit) (rest : List Input), n < 32 → (s.port n).up = true → s.halted = false →
      s.inputs = .flit n f :: rest → (s.port n).retry = [] →
      (f.good = true → f.kind.toNat < 4 → f.seq = (s.port n).last + 1 → ∃ t, exec .herpinFlit s = .next t
        ∧ (t.port n).last = f.seq ∧ (t.port n).delivered = (s.port n).delivered ++ [f] ∧ t.mem = s.mem ∧ t.inputs = rest)
      ∧ (f.good = false → ∃ t, exec .herpinFlit s = .next t ∧ (t.port n).last = (s.port n).last
        ∧ (t.port n).delivered = (s.port n).delivered ∧ t.outputs = s.outputs ++ [.retryRequest n] ∧ t.mem = s.mem))
  ∧ (∀ (s : State) (n : Nat) (rest : List Input), n < 32 →
      (s.inputs = .linkTimeout n :: rest → (s.port n).up = true → ∃ t, exec .linkTimeout s = .next t ∧ (t.port n).up = false
        ∧ (t.port n).downcnt = min ((s.port n).downcnt + 1) (2 ^ 48 - 1) ∧ t.pkg.pkgevt.getLsbD 2 = true ∧ t.mem.bytes = s.mem.bytes)
      ∧ (s.inputs = .portUp n :: rest → ∃ t, exec .herpinPortUp s = .next t ∧ (t.port n).up = true ∧ t.mem.bytes = s.mem.bytes))
  ∧ (∀ (s : State) (n : Nat) (rest : List Input), s.inputs = .spdm n :: rest → exec .spdmRequest s = .next { s with
      inputs := rest, outputs := s.outputs ++ [.spdm (Config.spdmAnswer n s.pkg.measured Config.deviceKeyId)] })
  ∧ (∀ (s : State) (d c : Nat) (rest : List Input), d < 8 → s.inputs = .temperature d c :: rest →
      (95 < c → (s.die d).hot = false → ∃ t, exec .temperatureLimit s = .next t ∧ (t.die d).hot = true
        ∧ t.pkg.pkgevt.getLsbD 1 = true
        ∧ ∀ n, n / 48 = d → (t.core n).engines.railLevel = 0)
      ∧ (c < 90 → ∃ t, exec .temperatureLimit s = .next t ∧ (t.die d).hot = false)
      ∧ (90 ≤ c → c ≤ 95 → exec .temperatureLimit s = .next { s with inputs := rest }))
  ∧ ∀ (s : State) (d n : Nat) (rest : List Input),
      (d < 8 → s.inputs = .power d n :: rest → ∃ t, exec .powerThrottle s = .next t ∧ (t.die d).mhz = min n 3300 ∧ t.mem = s.mem)
      ∧ (d < 16 → s.inputs = .activates d n :: rest → ∃ t, exec .powerThrottle s = .next t
        ∧ (t.stk d).actlim = BitVec.ofNat 64 (n % 65536) ∧ t.mem = s.mem)

/-- R312 to R316, R322: a command runs while QBUSY holds it. QUIESCE squashes speculation, stops chains and abandons
pre-fills, and ends quiesced, a package event, once all is drained; IMAGE, RESTORE and RESUME need a quiesced package,
and end with result 1 without; IMAGE ends with result 3 for a bad page list, writes the image to the buffer, or ends
with result 2 when the buffer is too short; RESTORE ends with result 7 where the package holds crews or gangs, installs
an image that passes the checks, and gives the result of the first failed one; RESUME delivers the flits that were kept
and lets crews and chains go on. A quiesced package issues nothing. -/
def Obligations.QuiesceCommands : Prop :=
  (∀ s : State, s.agenda = [] → s.cur.exists' = true → s.pkg.qsd = true → step s = .next s.tick)
  ∧ (∀ s : State, s.pkg.qbusy = true →
      let ends := fun (i : Instr) (result : Nat) => exec i s = .next (s.endCommand result)
      (s.pkg.qcmd = 1 →
        (let spec := (s.threads.filter fun e => decide (256 ≤ e.1) && e.2.spec.mode != .normal).map (·.1)
         let s1 := (spec.foldl State.squash s).stopAllChains
         exec .quiesce s = .next (s1.crews.foldl State.abandonPrefill s1))
        ∧ (s.drained = true → ∃ t, exec .quiesceComplete s = .next t ∧ t.pkg.qsd = true ∧ t.pkg.qbusy = false ∧ t.pkg.qresult = 0
          ∧ t.pkg.pkgevt.getLsbD 0 = true)
        ∧ (s.drained = false → exec .quiesceComplete s = .next s))
      ∧ (s.pkg.qcmd = 2 →
        (s.pkg.qsd = false → ends .image 1)
        ∧ (s.pkg.qsd = true → s.pageListBad = true → ends .image 3)
        ∧ (s.pkg.qsd = true → s.pageListBad = false → s.withoutFills.image.length ≤ s.pkg.qlen.toNat →
          exec .image s = .next ((s.hwPut s.imageBase s.withoutFills.image).endCommand 0))
        ∧ (s.pkg.qsd = true → s.pageListBad = false → s.pkg.qlen.toNat < s.withoutFills.image.length →
          ∃ t, exec .image s = .next t ∧ t.pkg.qresult = 2 ∧ t.pkg.qbusy = false))
      ∧ (s.pkg.qcmd = 3 →
        (s.pkg.qsd = false → ends .restore 1)
        ∧ (s.pkg.qsd = true → (s.crews ≠ [] ∨ s.gangs ≠ []) → ends .restore 7)
        ∧ (s.pkg.qsd = true → s.crews = [] → s.gangs = [] →
          (s.imageCheck ≠ 0 → ends .restore s.imageCheck)
          ∧ (s.imageCheck = 0 → exec .restore s = .next (s.install.endCommand 0))))
      ∧ (s.pkg.qcmd = 4 →
        (s.pkg.qsd = false → ends .resume 1)
        ∧ (s.pkg.qsd = true →
          let s1 := { s with pkg := { s.pkg with qsd := false } }.endCommand 0
          let links := (s1.ports.map fun e => Link.herpin e.1) ++ s1.links.map fun e => Link.ucie e.1
          let s2 := links.foldl State.deliverKept s1
          exec .resume s = .next ((s2.crews.foldl State.goOn s2).resumeHartChains))))
end

