-- ==== Sys2Proof/Laws/Map.lean ====
section
/-!
SUPPORT. Tables and byte memories: what a look-up finds after a change, and that every change keeps the canonical form.
-/
namespace Sys2Proof.Machine

variable {β : Type}

@[simp] theorem AMap.find_nil (k : Nat) : AMap.find ([] : AMap β) k = none := rfl

theorem AMap.find_cons (e : Nat × β) (m : AMap β) (k : Nat) :
    AMap.find (e :: m) k = if e.1 = k then some e.2 else AMap.find m k := rfl

@[simp] theorem AMap.find_set_self (m : AMap β) (k : Nat) (v : β) : (AMap.set m k v).find k = some v := by
  induction m with
  | nil => simp [AMap.set, AMap.find_cons]
  | cons e m ih =>
    simp only [AMap.set]
    split
    · simp [AMap.find_cons]
    · split
      · simp [AMap.find_cons]
      · next h => simp [AMap.find_cons, ih, Ne.symm h]

/-- The second of two writes to one number stands. -/
@[simp] theorem AMap.set_set (m : AMap β) (k : Nat) (v w : β) : AMap.set (AMap.set m k v) k w = AMap.set m k w := by
  induction m with
  | nil => simp [AMap.set]
  | cons e r ih =>
    simp only [AMap.set]
    by_cases h : k < e.1
    · simp [h, AMap.set]
    · by_cases h' : k = e.1
      · subst h'; simp [AMap.set]
      · simp [h, h', AMap.set, ih]

theorem AMap.find_set_ne (m : AMap β) (k : Nat) (v : β) {j : Nat} (h : j ≠ k) :
    (AMap.set m k v).find j = m.find j := by
  induction m with
  | nil => simp [AMap.set, AMap.find_cons, h.symm]
  | cons e m ih =>
    simp only [AMap.set]
    split
    · simp [AMap.find_cons, h.symm]
    · split
      · next h2 => simp [AMap.find_cons, ← h2, h.symm]
      · simp [AMap.find_cons, ih]

theorem AMap.find_set (m : AMap β) (k : Nat) (v : β) (j : Nat) :
    (AMap.set m k v).find j = if j = k then some v else m.find j := by
  split
  · next h => subst h; simp
  · next h => exact AMap.find_set_ne m k v h

@[simp] theorem AMap.find_del_self (m : AMap β) (k : Nat) : (AMap.del m k).find k = none := by
  induction m with
  | nil => rfl
  | cons e m ih =>
    simp only [AMap.del, List.filter_cons] at ih ⊢
    split
    · next h => simp only [bne_iff_ne] at h; simp [AMap.find_cons, h, ih]
    · exact ih

theorem AMap.find_del_ne (m : AMap β) (k : Nat) {j : Nat} (h : j ≠ k) : (AMap.del m k).find j = m.find j := by
  induction m with
  | nil => rfl
  | cons e m ih =>
    simp only [AMap.del, List.filter_cons] at ih ⊢
    split
    · simp [AMap.find_cons, ih]
    · next h2 =>
      simp only [bne_iff_ne, ne_eq, not_not] at h2
      simp [AMap.find_cons, h2, h.symm, ih]

@[simp] theorem AMap.get_set_self (m : AMap β) (k : Nat) (v d : β) : (AMap.set m k v).get k d = v := by
  simp [AMap.get]

theorem AMap.get_set_ne (m : AMap β) (k : Nat) (v d : β) {j : Nat} (h : j ≠ k) :
    (AMap.set m k v).get j d = m.get j d := by simp [AMap.get, AMap.find_set_ne m k v h]

theorem AMap.get_set (m : AMap β) (k : Nat) (v d : β) (j : Nat) :
    (AMap.set m k v).get j d = if j = k then v else m.get j d := by
  split
  · next h => subst h; simp
  · next h => exact AMap.get_set_ne m k v d h

theorem AMap.get_del_ne (m : AMap β) (k : Nat) (d : β) {j : Nat} (h : j ≠ k) :
    (AMap.del m k).get j d = m.get j d := by simp [AMap.get, AMap.find_del_ne m k h]

@[simp] theorem AMap.get_del_self (m : AMap β) (k : Nat) (d : β) : (AMap.del m k).get k d = d := by simp [AMap.get]

theorem AMap.find_update (m : AMap β) (k : Nat) (f : β → β) (j : Nat) :
    (AMap.update m k f).find j = if j = k then (m.find k).map f else m.find j := by
  unfold AMap.update
  cases h : m.find k with
  | none => by_cases e : j = k <;> simp [e, h]
  | some v => simp [AMap.find_set]

/-! ### The canonical form of tables -/

/-- Every key of a changed table is an old key or the new one. -/
theorem AMap.mem_set (m : AMap β) (k : Nat) (v : β) {e : Nat × β} (h : e ∈ AMap.set m k v) : e = (k, v) ∨ e ∈ m := by
  induction m with
  | nil => simpa [AMap.set] using h
  | cons a m ih =>
    simp only [AMap.set] at h
    split at h
    · simpa using h
    · split at h
      · simp only [List.mem_cons] at h ⊢
        rcases h with h | h
        · exact .inl h
        · exact .inr (.inr h)
      · simp only [List.mem_cons] at h ⊢
        rcases h with h | h
        · exact .inr (.inl h)
        · exact (ih h).imp_right .inr

theorem AMap.sorted_iff (m : AMap β) : AMap.sorted m = true ↔ m.Pairwise fun x y => x.1 < y.1 := by simp [AMap.sorted]

theorem AMap.sorted_set (m : AMap β) (k : Nat) (v : β) (h : AMap.sorted m = true) : AMap.sorted (AMap.set m k v) = true := by
  rw [AMap.sorted_iff] at h ⊢
  induction m with
  | nil => simp [AMap.set]
  | cons a m ih =>
    rw [List.pairwise_cons] at h
    simp only [AMap.set]
    split
    · next hk =>
      refine List.pairwise_cons.2 ⟨fun y hy => ?_, List.pairwise_cons.2 h⟩
      rcases List.mem_cons.1 hy with rfl | hy
      · exact hk
      · exact Nat.lt_trans hk (h.1 y hy)
    · split
      · next hk => exact List.pairwise_cons.2 ⟨fun y hy => by have := h.1 y hy; simp only at this ⊢; omega, h.2⟩
      · refine List.pairwise_cons.2 ⟨fun y hy => ?_, ih h.2⟩
        rcases AMap.mem_set m k v hy with rfl | hy
        · show a.1 < k
          omega
        · exact h.1 y hy

theorem AMap.sorted_filter (m : AMap β) (p : Nat × β → Bool) (h : AMap.sorted m = true) :
    AMap.sorted (m.filter p : AMap β) = true := by
  rw [AMap.sorted_iff] at h ⊢
  exact h.filter p

theorem AMap.sorted_del (m : AMap β) (k : Nat) (h : AMap.sorted m = true) : AMap.sorted (AMap.del m k) = true :=
  AMap.sorted_filter m _ h

/-! ### Byte memories -/

theorem Memory.wf_iff (m : Memory) :
    Memory.wf m = true ↔ AMap.sorted m = true ∧ ∀ c ∈ m, c.2 ≠ 0 := by
  simp [Memory.wf, List.all_eq_true]

theorem Memory.wf_nil : Memory.wf [] = true := rfl

theorem Memory.wf_filter (m : Memory) (p : Nat × Byte → Bool) (h : Memory.wf m = true) :
    Memory.wf (m.filter p : Memory) = true := by
  rw [Memory.wf_iff] at h ⊢
  exact ⟨AMap.sorted_filter m p h.1, fun c hc => h.2 c (List.mem_of_mem_filter hc)⟩

theorem Memory.wf_put (m : Memory) (a : Nat) (b : Byte) (h : Memory.wf m = true) : Memory.wf (m.put a b) = true := by
  unfold Memory.put
  split
  · exact Memory.wf_filter m _ h
  · next hb =>
    rw [Memory.wf_iff] at h ⊢
    refine ⟨AMap.sorted_set m a b h.1, fun c hc => ?_⟩
    rcases AMap.mem_set m a b hc with rfl | hc
    · exact hb
    · exact h.2 c hc

theorem Memory.wf_puts (bs : List Byte) (m : Memory) (a : Nat) (h : Memory.wf m = true) :
    Memory.wf (m.puts a bs) = true := by
  induction bs generalizing m a with
  | nil => exact h
  | cons b bs ih => exact ih _ _ (Memory.wf_put m a b h)

theorem Memory.wf_putWord (m : Memory) (a : Nat) (w : Word) (h : Memory.wf m = true) :
    Memory.wf (m.putWord a w) = true := Memory.wf_puts _ m a h

theorem Memory.wf_clear (m : Memory) (a n : Nat) (h : Memory.wf m = true) : Memory.wf (m.clear a n) = true :=
  Memory.wf_filter m _ h

@[simp] theorem Memory.byte_put_self (m : Memory) (a : Nat) (b : Byte) : (m.put a b).byte a = b := by
  unfold Memory.put Memory.byte
  split
  · next h => simp [h]
  · simp

theorem Memory.byte_put_ne (m : Memory) (a : Nat) (b : Byte) {x : Nat} (h : x ≠ a) : (m.put a b).byte x = m.byte x := by
  unfold Memory.put Memory.byte
  split
  · exact AMap.get_del_ne m a 0 h
  · exact AMap.get_set_ne m a b 0 h

theorem Memory.byte_puts_outside (bs : List Byte) (m : Memory) (a : Nat) {x : Nat} (h : x < a ∨ a + bs.length ≤ x) :
    (m.puts a bs).byte x = m.byte x := by
  induction bs generalizing m a with
  | nil => rfl
  | cons b bs ih =>
    simp only [List.length_cons] at h
    rw [Memory.puts, ih _ _ (by omega), Memory.byte_put_ne _ _ _ (by omega)]

theorem Memory.byte_puts_inside (bs : List Byte) (m : Memory) (a i : Nat) (h : i < bs.length) :
    (m.puts a bs).byte (a + i) = bs[i] := by
  induction bs generalizing m a i with
  | nil => simp at h
  | cons b bs ih =>
    cases i with
    | zero => rw [Memory.puts, Nat.add_zero, Memory.byte_puts_outside _ _ _ (by omega)]; simp
    | succ i =>
      have e : a + (i + 1) = a + 1 + i := by omega
      rw [Memory.puts, e, ih _ _ _ (by simpa using h)]
      rfl

/-- A read after a write to the same place gives the bytes written. -/
theorem Memory.bytes_puts_self (bs : List Byte) (m : Memory) (a : Nat) : (m.puts a bs).bytes a bs.length = bs := by
  apply List.ext_getElem
  · simp [Memory.bytes]
  · intro i h1 h2
    simp only [Memory.bytes, List.getElem_map, List.getElem_range]
    exact Memory.byte_puts_inside bs m a i h2

/-- A write leaves every other place alone. -/
theorem Memory.bytes_puts_disjoint (bs : List Byte) (m : Memory) (a x n : Nat) (h : x + n ≤ a ∨ a + bs.length ≤ x) :
    (m.puts a bs).bytes x n = m.bytes x n := by
  simp only [Memory.bytes, List.map_inj_left, List.mem_range]
  intro i hi
  exact Memory.byte_puts_outside bs m a (by omega)

end Sys2Proof.Machine
end

