-- ==== Sys2Proof/Laws/State.lean ====
section
/-!
SUPPORT. What each update of the state leaves as it was, field by field, and what the accessors read after it.
-/
namespace Sys2Proof.Machine

/-! ### setThread -/

@[simp] theorem State.setThread_crews (s : State) (k : Nat) (t : Thread) : (s.setThread k t).crews = s.crews := rfl
@[simp] theorem State.setThread_gangs (s : State) (k : Nat) (t : Thread) : (s.setThread k t).gangs = s.gangs := rfl
@[simp] theorem State.setThread_cores (s : State) (k : Nat) (t : Thread) : (s.setThread k t).cores = s.cores := rfl
@[simp] theorem State.setThread_harts (s : State) (k : Nat) (t : Thread) : (s.setThread k t).harts = s.harts := rfl
@[simp] theorem State.setThread_dies (s : State) (k : Nat) (t : Thread) : (s.setThread k t).dies = s.dies := rfl
@[simp] theorem State.setThread_latDies (s : State) (k : Nat) (t : Thread) : (s.setThread k t).latDies = s.latDies := rfl
@[simp] theorem State.setThread_absent (s : State) (k : Nat) (t : Thread) : (s.setThread k t).absent = s.absent := rfl
@[simp] theorem State.setThread_cursors (s : State) (k : Nat) (t : Thread) : (s.setThread k t).cursors = s.cursors := rfl
@[simp] theorem State.setThread_stks (s : State) (k : Nat) (t : Thread) : (s.setThread k t).stks = s.stks := rfl
@[simp] theorem State.setThread_nets (s : State) (k : Nat) (t : Thread) : (s.setThread k t).nets = s.nets := rfl
@[simp] theorem State.setThread_ports (s : State) (k : Nat) (t : Thread) : (s.setThread k t).ports = s.ports := rfl
@[simp] theorem State.setThread_links (s : State) (k : Nat) (t : Thread) : (s.setThread k t).links = s.links := rfl
@[simp] theorem State.setThread_pkg (s : State) (k : Nat) (t : Thread) : (s.setThread k t).pkg = s.pkg := rfl
@[simp] theorem State.setThread_mem (s : State) (k : Nat) (t : Thread) : (s.setThread k t).mem = s.mem := rfl
@[simp] theorem State.setThread_chains (s : State) (k : Nat) (t : Thread) : (s.setThread k t).chains = s.chains := rfl
@[simp] theorem State.setThread_packets (s : State) (k : Nat) (t : Thread) : (s.setThread k t).packets = s.packets := rfl
@[simp] theorem State.setThread_nxt (s : State) (k : Nat) (t : Thread) : (s.setThread k t).nxt = s.nxt := rfl
@[simp] theorem State.setThread_inputs (s : State) (k : Nat) (t : Thread) : (s.setThread k t).inputs = s.inputs := rfl
@[simp] theorem State.setThread_outputs (s : State) (k : Nat) (t : Thread) : (s.setThread k t).outputs = s.outputs := rfl
@[simp] theorem State.setThread_agenda (s : State) (k : Nat) (t : Thread) : (s.setThread k t).agenda = s.agenda := rfl
@[simp] theorem State.setThread_cur (s : State) (k : Nat) (t : Thread) : (s.setThread k t).cur = s.cur := rfl
@[simp] theorem State.setThread_free (s : State) (k : Nat) (t : Thread) : (s.setThread k t).free = s.free := rfl

/-! ### modThread -/

@[simp] theorem State.modThread_crews (s : State) (k : Nat) (f : Thread → Thread) : (s.modThread k f).crews = s.crews := rfl
@[simp] theorem State.modThread_gangs (s : State) (k : Nat) (f : Thread → Thread) : (s.modThread k f).gangs = s.gangs := rfl
@[simp] theorem State.modThread_cores (s : State) (k : Nat) (f : Thread → Thread) : (s.modThread k f).cores = s.cores := rfl
@[simp] theorem State.modThread_harts (s : State) (k : Nat) (f : Thread → Thread) : (s.modThread k f).harts = s.harts := rfl
@[simp] theorem State.modThread_dies (s : State) (k : Nat) (f : Thread → Thread) : (s.modThread k f).dies = s.dies := rfl
@[simp] theorem State.modThread_latDies (s : State) (k : Nat) (f : Thread → Thread) : (s.modThread k f).latDies = s.latDies := rfl
@[simp] theorem State.modThread_absent (s : State) (k : Nat) (f : Thread → Thread) : (s.modThread k f).absent = s.absent := rfl
@[simp] theorem State.modThread_cursors (s : State) (k : Nat) (f : Thread → Thread) : (s.modThread k f).cursors = s.cursors := rfl
@[simp] theorem State.modThread_stks (s : State) (k : Nat) (f : Thread → Thread) : (s.modThread k f).stks = s.stks := rfl
@[simp] theorem State.modThread_nets (s : State) (k : Nat) (f : Thread → Thread) : (s.modThread k f).nets = s.nets := rfl
@[simp] theorem State.modThread_ports (s : State) (k : Nat) (f : Thread → Thread) : (s.modThread k f).ports = s.ports := rfl
@[simp] theorem State.modThread_links (s : State) (k : Nat) (f : Thread → Thread) : (s.modThread k f).links = s.links := rfl
@[simp] theorem State.modThread_pkg (s : State) (k : Nat) (f : Thread → Thread) : (s.modThread k f).pkg = s.pkg := rfl
@[simp] theorem State.modThread_mem (s : State) (k : Nat) (f : Thread → Thread) : (s.modThread k f).mem = s.mem := rfl
@[simp] theorem State.modThread_chains (s : State) (k : Nat) (f : Thread → Thread) : (s.modThread k f).chains = s.chains := rfl
@[simp] theorem State.modThread_packets (s : State) (k : Nat) (f : Thread → Thread) : (s.modThread k f).packets = s.packets := rfl
@[simp] theorem State.modThread_nxt (s : State) (k : Nat) (f : Thread → Thread) : (s.modThread k f).nxt = s.nxt := rfl
@[simp] theorem State.modThread_inputs (s : State) (k : Nat) (f : Thread → Thread) : (s.modThread k f).inputs = s.inputs := rfl
@[simp] theorem State.modThread_outputs (s : State) (k : Nat) (f : Thread → Thread) : (s.modThread k f).outputs = s.outputs := rfl
@[simp] theorem State.modThread_agenda (s : State) (k : Nat) (f : Thread → Thread) : (s.modThread k f).agenda = s.agenda := rfl
@[simp] theorem State.modThread_cur (s : State) (k : Nat) (f : Thread → Thread) : (s.modThread k f).cur = s.cur := rfl
@[simp] theorem State.modThread_free (s : State) (k : Nat) (f : Thread → Thread) : (s.modThread k f).free = s.free := rfl

/-! ### setCore -/

@[simp] theorem State.setCore_threads (s : State) (n : Nat) (c : Core) : (s.setCore n c).threads = s.threads := rfl
@[simp] theorem State.setCore_crews (s : State) (n : Nat) (c : Core) : (s.setCore n c).crews = s.crews := rfl
@[simp] theorem State.setCore_gangs (s : State) (n : Nat) (c : Core) : (s.setCore n c).gangs = s.gangs := rfl
@[simp] theorem State.setCore_harts (s : State) (n : Nat) (c : Core) : (s.setCore n c).harts = s.harts := rfl
@[simp] theorem State.setCore_dies (s : State) (n : Nat) (c : Core) : (s.setCore n c).dies = s.dies := rfl
@[simp] theorem State.setCore_latDies (s : State) (n : Nat) (c : Core) : (s.setCore n c).latDies = s.latDies := rfl
@[simp] theorem State.setCore_absent (s : State) (n : Nat) (c : Core) : (s.setCore n c).absent = s.absent := rfl
@[simp] theorem State.setCore_cursors (s : State) (n : Nat) (c : Core) : (s.setCore n c).cursors = s.cursors := rfl
@[simp] theorem State.setCore_stks (s : State) (n : Nat) (c : Core) : (s.setCore n c).stks = s.stks := rfl
@[simp] theorem State.setCore_nets (s : State) (n : Nat) (c : Core) : (s.setCore n c).nets = s.nets := rfl
@[simp] theorem State.setCore_ports (s : State) (n : Nat) (c : Core) : (s.setCore n c).ports = s.ports := rfl
@[simp] theorem State.setCore_links (s : State) (n : Nat) (c : Core) : (s.setCore n c).links = s.links := rfl
@[simp] theorem State.setCore_pkg (s : State) (n : Nat) (c : Core) : (s.setCore n c).pkg = s.pkg := rfl
@[simp] theorem State.setCore_mem (s : State) (n : Nat) (c : Core) : (s.setCore n c).mem = s.mem := rfl
@[simp] theorem State.setCore_chains (s : State) (n : Nat) (c : Core) : (s.setCore n c).chains = s.chains := rfl
@[simp] theorem State.setCore_packets (s : State) (n : Nat) (c : Core) : (s.setCore n c).packets = s.packets := rfl
@[simp] theorem State.setCore_nxt (s : State) (n : Nat) (c : Core) : (s.setCore n c).nxt = s.nxt := rfl
@[simp] theorem State.setCore_inputs (s : State) (n : Nat) (c : Core) : (s.setCore n c).inputs = s.inputs := rfl
@[simp] theorem State.setCore_outputs (s : State) (n : Nat) (c : Core) : (s.setCore n c).outputs = s.outputs := rfl
@[simp] theorem State.setCore_agenda (s : State) (n : Nat) (c : Core) : (s.setCore n c).agenda = s.agenda := rfl
@[simp] theorem State.setCore_cur (s : State) (n : Nat) (c : Core) : (s.setCore n c).cur = s.cur := rfl
@[simp] theorem State.setCore_free (s : State) (n : Nat) (c : Core) : (s.setCore n c).free = s.free := rfl

/-! ### modCore -/

@[simp] theorem State.modCore_threads (s : State) (n : Nat) (f : Core → Core) : (s.modCore n f).threads = s.threads := rfl
@[simp] theorem State.modCore_crews (s : State) (n : Nat) (f : Core → Core) : (s.modCore n f).crews = s.crews := rfl
@[simp] theorem State.modCore_gangs (s : State) (n : Nat) (f : Core → Core) : (s.modCore n f).gangs = s.gangs := rfl
@[simp] theorem State.modCore_harts (s : State) (n : Nat) (f : Core → Core) : (s.modCore n f).harts = s.harts := rfl
@[simp] theorem State.modCore_dies (s : State) (n : Nat) (f : Core → Core) : (s.modCore n f).dies = s.dies := rfl
@[simp] theorem State.modCore_latDies (s : State) (n : Nat) (f : Core → Core) : (s.modCore n f).latDies = s.latDies := rfl
@[simp] theorem State.modCore_absent (s : State) (n : Nat) (f : Core → Core) : (s.modCore n f).absent = s.absent := rfl
@[simp] theorem State.modCore_cursors (s : State) (n : Nat) (f : Core → Core) : (s.modCore n f).cursors = s.cursors := rfl
@[simp] theorem State.modCore_stks (s : State) (n : Nat) (f : Core → Core) : (s.modCore n f).stks = s.stks := rfl
@[simp] theorem State.modCore_nets (s : State) (n : Nat) (f : Core → Core) : (s.modCore n f).nets = s.nets := rfl
@[simp] theorem State.modCore_ports (s : State) (n : Nat) (f : Core → Core) : (s.modCore n f).ports = s.ports := rfl
@[simp] theorem State.modCore_links (s : State) (n : Nat) (f : Core → Core) : (s.modCore n f).links = s.links := rfl
@[simp] theorem State.modCore_pkg (s : State) (n : Nat) (f : Core → Core) : (s.modCore n f).pkg = s.pkg := rfl
@[simp] theorem State.modCore_mem (s : State) (n : Nat) (f : Core → Core) : (s.modCore n f).mem = s.mem := rfl
@[simp] theorem State.modCore_chains (s : State) (n : Nat) (f : Core → Core) : (s.modCore n f).chains = s.chains := rfl
@[simp] theorem State.modCore_packets (s : State) (n : Nat) (f : Core → Core) : (s.modCore n f).packets = s.packets := rfl
@[simp] theorem State.modCore_nxt (s : State) (n : Nat) (f : Core → Core) : (s.modCore n f).nxt = s.nxt := rfl
@[simp] theorem State.modCore_inputs (s : State) (n : Nat) (f : Core → Core) : (s.modCore n f).inputs = s.inputs := rfl
@[simp] theorem State.modCore_outputs (s : State) (n : Nat) (f : Core → Core) : (s.modCore n f).outputs = s.outputs := rfl
@[simp] theorem State.modCore_agenda (s : State) (n : Nat) (f : Core → Core) : (s.modCore n f).agenda = s.agenda := rfl
@[simp] theorem State.modCore_cur (s : State) (n : Nat) (f : Core → Core) : (s.modCore n f).cur = s.cur := rfl
@[simp] theorem State.modCore_free (s : State) (n : Nat) (f : Core → Core) : (s.modCore n f).free = s.free := rfl

/-! ### setHart -/

@[simp] theorem State.setHart_threads (s : State) (n : Nat) (h : Hart) : (s.setHart n h).threads = s.threads := rfl
@[simp] theorem State.setHart_crews (s : State) (n : Nat) (h : Hart) : (s.setHart n h).crews = s.crews := rfl
@[simp] theorem State.setHart_gangs (s : State) (n : Nat) (h : Hart) : (s.setHart n h).gangs = s.gangs := rfl
@[simp] theorem State.setHart_cores (s : State) (n : Nat) (h : Hart) : (s.setHart n h).cores = s.cores := rfl
@[simp] theorem State.setHart_dies (s : State) (n : Nat) (h : Hart) : (s.setHart n h).dies = s.dies := rfl
@[simp] theorem State.setHart_latDies (s : State) (n : Nat) (h : Hart) : (s.setHart n h).latDies = s.latDies := rfl
@[simp] theorem State.setHart_absent (s : State) (n : Nat) (h : Hart) : (s.setHart n h).absent = s.absent := rfl
@[simp] theorem State.setHart_cursors (s : State) (n : Nat) (h : Hart) : (s.setHart n h).cursors = s.cursors := rfl
@[simp] theorem State.setHart_stks (s : State) (n : Nat) (h : Hart) : (s.setHart n h).stks = s.stks := rfl
@[simp] theorem State.setHart_nets (s : State) (n : Nat) (h : Hart) : (s.setHart n h).nets = s.nets := rfl
@[simp] theorem State.setHart_ports (s : State) (n : Nat) (h : Hart) : (s.setHart n h).ports = s.ports := rfl
@[simp] theorem State.setHart_links (s : State) (n : Nat) (h : Hart) : (s.setHart n h).links = s.links := rfl
@[simp] theorem State.setHart_pkg (s : State) (n : Nat) (h : Hart) : (s.setHart n h).pkg = s.pkg := rfl
@[simp] theorem State.setHart_mem (s : State) (n : Nat) (h : Hart) : (s.setHart n h).mem = s.mem := rfl
@[simp] theorem State.setHart_chains (s : State) (n : Nat) (h : Hart) : (s.setHart n h).chains = s.chains := rfl
@[simp] theorem State.setHart_packets (s : State) (n : Nat) (h : Hart) : (s.setHart n h).packets = s.packets := rfl
@[simp] theorem State.setHart_nxt (s : State) (n : Nat) (h : Hart) : (s.setHart n h).nxt = s.nxt := rfl
@[simp] theorem State.setHart_inputs (s : State) (n : Nat) (h : Hart) : (s.setHart n h).inputs = s.inputs := rfl
@[simp] theorem State.setHart_outputs (s : State) (n : Nat) (h : Hart) : (s.setHart n h).outputs = s.outputs := rfl
@[simp] theorem State.setHart_agenda (s : State) (n : Nat) (h : Hart) : (s.setHart n h).agenda = s.agenda := rfl
@[simp] theorem State.setHart_cur (s : State) (n : Nat) (h : Hart) : (s.setHart n h).cur = s.cur := rfl
@[simp] theorem State.setHart_free (s : State) (n : Nat) (h : Hart) : (s.setHart n h).free = s.free := rfl

/-! ### modHart -/

@[simp] theorem State.modHart_threads (s : State) (n : Nat) (f : Hart → Hart) : (s.modHart n f).threads = s.threads := rfl
@[simp] theorem State.modHart_crews (s : State) (n : Nat) (f : Hart → Hart) : (s.modHart n f).crews = s.crews := rfl
@[simp] theorem State.modHart_gangs (s : State) (n : Nat) (f : Hart → Hart) : (s.modHart n f).gangs = s.gangs := rfl
@[simp] theorem State.modHart_cores (s : State) (n : Nat) (f : Hart → Hart) : (s.modHart n f).cores = s.cores := rfl
@[simp] theorem State.modHart_dies (s : State) (n : Nat) (f : Hart → Hart) : (s.modHart n f).dies = s.dies := rfl
@[simp] theorem State.modHart_latDies (s : State) (n : Nat) (f : Hart → Hart) : (s.modHart n f).latDies = s.latDies := rfl
@[simp] theorem State.modHart_absent (s : State) (n : Nat) (f : Hart → Hart) : (s.modHart n f).absent = s.absent := rfl
@[simp] theorem State.modHart_cursors (s : State) (n : Nat) (f : Hart → Hart) : (s.modHart n f).cursors = s.cursors := rfl
@[simp] theorem State.modHart_stks (s : State) (n : Nat) (f : Hart → Hart) : (s.modHart n f).stks = s.stks := rfl
@[simp] theorem State.modHart_nets (s : State) (n : Nat) (f : Hart → Hart) : (s.modHart n f).nets = s.nets := rfl
@[simp] theorem State.modHart_ports (s : State) (n : Nat) (f : Hart → Hart) : (s.modHart n f).ports = s.ports := rfl
@[simp] theorem State.modHart_links (s : State) (n : Nat) (f : Hart → Hart) : (s.modHart n f).links = s.links := rfl
@[simp] theorem State.modHart_pkg (s : State) (n : Nat) (f : Hart → Hart) : (s.modHart n f).pkg = s.pkg := rfl
@[simp] theorem State.modHart_mem (s : State) (n : Nat) (f : Hart → Hart) : (s.modHart n f).mem = s.mem := rfl
@[simp] theorem State.modHart_chains (s : State) (n : Nat) (f : Hart → Hart) : (s.modHart n f).chains = s.chains := rfl
@[simp] theorem State.modHart_packets (s : State) (n : Nat) (f : Hart → Hart) : (s.modHart n f).packets = s.packets := rfl
@[simp] theorem State.modHart_nxt (s : State) (n : Nat) (f : Hart → Hart) : (s.modHart n f).nxt = s.nxt := rfl
@[simp] theorem State.modHart_inputs (s : State) (n : Nat) (f : Hart → Hart) : (s.modHart n f).inputs = s.inputs := rfl
@[simp] theorem State.modHart_outputs (s : State) (n : Nat) (f : Hart → Hart) : (s.modHart n f).outputs = s.outputs := rfl
@[simp] theorem State.modHart_agenda (s : State) (n : Nat) (f : Hart → Hart) : (s.modHart n f).agenda = s.agenda := rfl
@[simp] theorem State.modHart_cur (s : State) (n : Nat) (f : Hart → Hart) : (s.modHart n f).cur = s.cur := rfl
@[simp] theorem State.modHart_free (s : State) (n : Nat) (f : Hart → Hart) : (s.modHart n f).free = s.free := rfl

/-! ### setDie -/

@[simp] theorem State.setDie_threads (s : State) (n : Nat) (d : Die) : (s.setDie n d).threads = s.threads := rfl
@[simp] theorem State.setDie_crews (s : State) (n : Nat) (d : Die) : (s.setDie n d).crews = s.crews := rfl
@[simp] theorem State.setDie_gangs (s : State) (n : Nat) (d : Die) : (s.setDie n d).gangs = s.gangs := rfl
@[simp] theorem State.setDie_cores (s : State) (n : Nat) (d : Die) : (s.setDie n d).cores = s.cores := rfl
@[simp] theorem State.setDie_harts (s : State) (n : Nat) (d : Die) : (s.setDie n d).harts = s.harts := rfl
@[simp] theorem State.setDie_latDies (s : State) (n : Nat) (d : Die) : (s.setDie n d).latDies = s.latDies := rfl
@[simp] theorem State.setDie_absent (s : State) (n : Nat) (d : Die) : (s.setDie n d).absent = s.absent := rfl
@[simp] theorem State.setDie_cursors (s : State) (n : Nat) (d : Die) : (s.setDie n d).cursors = s.cursors := rfl
@[simp] theorem State.setDie_stks (s : State) (n : Nat) (d : Die) : (s.setDie n d).stks = s.stks := rfl
@[simp] theorem State.setDie_nets (s : State) (n : Nat) (d : Die) : (s.setDie n d).nets = s.nets := rfl
@[simp] theorem State.setDie_ports (s : State) (n : Nat) (d : Die) : (s.setDie n d).ports = s.ports := rfl
@[simp] theorem State.setDie_links (s : State) (n : Nat) (d : Die) : (s.setDie n d).links = s.links := rfl
@[simp] theorem State.setDie_pkg (s : State) (n : Nat) (d : Die) : (s.setDie n d).pkg = s.pkg := rfl
@[simp] theorem State.setDie_mem (s : State) (n : Nat) (d : Die) : (s.setDie n d).mem = s.mem := rfl
@[simp] theorem State.setDie_chains (s : State) (n : Nat) (d : Die) : (s.setDie n d).chains = s.chains := rfl
@[simp] theorem State.setDie_packets (s : State) (n : Nat) (d : Die) : (s.setDie n d).packets = s.packets := rfl
@[simp] theorem State.setDie_nxt (s : State) (n : Nat) (d : Die) : (s.setDie n d).nxt = s.nxt := rfl
@[simp] theorem State.setDie_inputs (s : State) (n : Nat) (d : Die) : (s.setDie n d).inputs = s.inputs := rfl
@[simp] theorem State.setDie_outputs (s : State) (n : Nat) (d : Die) : (s.setDie n d).outputs = s.outputs := rfl
@[simp] theorem State.setDie_agenda (s : State) (n : Nat) (d : Die) : (s.setDie n d).agenda = s.agenda := rfl
@[simp] theorem State.setDie_cur (s : State) (n : Nat) (d : Die) : (s.setDie n d).cur = s.cur := rfl
@[simp] theorem State.setDie_free (s : State) (n : Nat) (d : Die) : (s.setDie n d).free = s.free := rfl

/-! ### modDie -/

@[simp] theorem State.modDie_threads (s : State) (n : Nat) (f : Die → Die) : (s.modDie n f).threads = s.threads := rfl
@[simp] theorem State.modDie_crews (s : State) (n : Nat) (f : Die → Die) : (s.modDie n f).crews = s.crews := rfl
@[simp] theorem State.modDie_gangs (s : State) (n : Nat) (f : Die → Die) : (s.modDie n f).gangs = s.gangs := rfl
@[simp] theorem State.modDie_cores (s : State) (n : Nat) (f : Die → Die) : (s.modDie n f).cores = s.cores := rfl
@[simp] theorem State.modDie_harts (s : State) (n : Nat) (f : Die → Die) : (s.modDie n f).harts = s.harts := rfl
@[simp] theorem State.modDie_latDies (s : State) (n : Nat) (f : Die → Die) : (s.modDie n f).latDies = s.latDies := rfl
@[simp] theorem State.modDie_absent (s : State) (n : Nat) (f : Die → Die) : (s.modDie n f).absent = s.absent := rfl
@[simp] theorem State.modDie_cursors (s : State) (n : Nat) (f : Die → Die) : (s.modDie n f).cursors = s.cursors := rfl
@[simp] theorem State.modDie_stks (s : State) (n : Nat) (f : Die → Die) : (s.modDie n f).stks = s.stks := rfl
@[simp] theorem State.modDie_nets (s : State) (n : Nat) (f : Die → Die) : (s.modDie n f).nets = s.nets := rfl
@[simp] theorem State.modDie_ports (s : State) (n : Nat) (f : Die → Die) : (s.modDie n f).ports = s.ports := rfl
@[simp] theorem State.modDie_links (s : State) (n : Nat) (f : Die → Die) : (s.modDie n f).links = s.links := rfl
@[simp] theorem State.modDie_pkg (s : State) (n : Nat) (f : Die → Die) : (s.modDie n f).pkg = s.pkg := rfl
@[simp] theorem State.modDie_mem (s : State) (n : Nat) (f : Die → Die) : (s.modDie n f).mem = s.mem := rfl
@[simp] theorem State.modDie_chains (s : State) (n : Nat) (f : Die → Die) : (s.modDie n f).chains = s.chains := rfl
@[simp] theorem State.modDie_packets (s : State) (n : Nat) (f : Die → Die) : (s.modDie n f).packets = s.packets := rfl
@[simp] theorem State.modDie_nxt (s : State) (n : Nat) (f : Die → Die) : (s.modDie n f).nxt = s.nxt := rfl
@[simp] theorem State.modDie_inputs (s : State) (n : Nat) (f : Die → Die) : (s.modDie n f).inputs = s.inputs := rfl
@[simp] theorem State.modDie_outputs (s : State) (n : Nat) (f : Die → Die) : (s.modDie n f).outputs = s.outputs := rfl
@[simp] theorem State.modDie_agenda (s : State) (n : Nat) (f : Die → Die) : (s.modDie n f).agenda = s.agenda := rfl
@[simp] theorem State.modDie_cur (s : State) (n : Nat) (f : Die → Die) : (s.modDie n f).cur = s.cur := rfl
@[simp] theorem State.modDie_free (s : State) (n : Nat) (f : Die → Die) : (s.modDie n f).free = s.free := rfl

/-! ### setStk -/

@[simp] theorem State.setStk_threads (s : State) (n : Nat) (d : Stack) : (s.setStk n d).threads = s.threads := rfl
@[simp] theorem State.setStk_crews (s : State) (n : Nat) (d : Stack) : (s.setStk n d).crews = s.crews := rfl
@[simp] theorem State.setStk_gangs (s : State) (n : Nat) (d : Stack) : (s.setStk n d).gangs = s.gangs := rfl
@[simp] theorem State.setStk_cores (s : State) (n : Nat) (d : Stack) : (s.setStk n d).cores = s.cores := rfl
@[simp] theorem State.setStk_harts (s : State) (n : Nat) (d : Stack) : (s.setStk n d).harts = s.harts := rfl
@[simp] theorem State.setStk_dies (s : State) (n : Nat) (d : Stack) : (s.setStk n d).dies = s.dies := rfl
@[simp] theorem State.setStk_latDies (s : State) (n : Nat) (d : Stack) : (s.setStk n d).latDies = s.latDies := rfl
@[simp] theorem State.setStk_absent (s : State) (n : Nat) (d : Stack) : (s.setStk n d).absent = s.absent := rfl
@[simp] theorem State.setStk_cursors (s : State) (n : Nat) (d : Stack) : (s.setStk n d).cursors = s.cursors := rfl
@[simp] theorem State.setStk_nets (s : State) (n : Nat) (d : Stack) : (s.setStk n d).nets = s.nets := rfl
@[simp] theorem State.setStk_ports (s : State) (n : Nat) (d : Stack) : (s.setStk n d).ports = s.ports := rfl
@[simp] theorem State.setStk_links (s : State) (n : Nat) (d : Stack) : (s.setStk n d).links = s.links := rfl
@[simp] theorem State.setStk_pkg (s : State) (n : Nat) (d : Stack) : (s.setStk n d).pkg = s.pkg := rfl
@[simp] theorem State.setStk_mem (s : State) (n : Nat) (d : Stack) : (s.setStk n d).mem = s.mem := rfl
@[simp] theorem State.setStk_chains (s : State) (n : Nat) (d : Stack) : (s.setStk n d).chains = s.chains := rfl
@[simp] theorem State.setStk_packets (s : State) (n : Nat) (d : Stack) : (s.setStk n d).packets = s.packets := rfl
@[simp] theorem State.setStk_nxt (s : State) (n : Nat) (d : Stack) : (s.setStk n d).nxt = s.nxt := rfl
@[simp] theorem State.setStk_inputs (s : State) (n : Nat) (d : Stack) : (s.setStk n d).inputs = s.inputs := rfl
@[simp] theorem State.setStk_outputs (s : State) (n : Nat) (d : Stack) : (s.setStk n d).outputs = s.outputs := rfl
@[simp] theorem State.setStk_agenda (s : State) (n : Nat) (d : Stack) : (s.setStk n d).agenda = s.agenda := rfl
@[simp] theorem State.setStk_cur (s : State) (n : Nat) (d : Stack) : (s.setStk n d).cur = s.cur := rfl
@[simp] theorem State.setStk_free (s : State) (n : Nat) (d : Stack) : (s.setStk n d).free = s.free := rfl

/-! ### setNet -/

@[simp] theorem State.setNet_threads (s : State) (n : Nat) (d : NetEngine) : (s.setNet n d).threads = s.threads := rfl
@[simp] theorem State.setNet_crews (s : State) (n : Nat) (d : NetEngine) : (s.setNet n d).crews = s.crews := rfl
@[simp] theorem State.setNet_gangs (s : State) (n : Nat) (d : NetEngine) : (s.setNet n d).gangs = s.gangs := rfl
@[simp] theorem State.setNet_cores (s : State) (n : Nat) (d : NetEngine) : (s.setNet n d).cores = s.cores := rfl
@[simp] theorem State.setNet_harts (s : State) (n : Nat) (d : NetEngine) : (s.setNet n d).harts = s.harts := rfl
@[simp] theorem State.setNet_dies (s : State) (n : Nat) (d : NetEngine) : (s.setNet n d).dies = s.dies := rfl
@[simp] theorem State.setNet_latDies (s : State) (n : Nat) (d : NetEngine) : (s.setNet n d).latDies = s.latDies := rfl
@[simp] theorem State.setNet_absent (s : State) (n : Nat) (d : NetEngine) : (s.setNet n d).absent = s.absent := rfl
@[simp] theorem State.setNet_cursors (s : State) (n : Nat) (d : NetEngine) : (s.setNet n d).cursors = s.cursors := rfl
@[simp] theorem State.setNet_stks (s : State) (n : Nat) (d : NetEngine) : (s.setNet n d).stks = s.stks := rfl
@[simp] theorem State.setNet_ports (s : State) (n : Nat) (d : NetEngine) : (s.setNet n d).ports = s.ports := rfl
@[simp] theorem State.setNet_links (s : State) (n : Nat) (d : NetEngine) : (s.setNet n d).links = s.links := rfl
@[simp] theorem State.setNet_pkg (s : State) (n : Nat) (d : NetEngine) : (s.setNet n d).pkg = s.pkg := rfl
@[simp] theorem State.setNet_mem (s : State) (n : Nat) (d : NetEngine) : (s.setNet n d).mem = s.mem := rfl
@[simp] theorem State.setNet_chains (s : State) (n : Nat) (d : NetEngine) : (s.setNet n d).chains = s.chains := rfl
@[simp] theorem State.setNet_packets (s : State) (n : Nat) (d : NetEngine) : (s.setNet n d).packets = s.packets := rfl
@[simp] theorem State.setNet_nxt (s : State) (n : Nat) (d : NetEngine) : (s.setNet n d).nxt = s.nxt := rfl
@[simp] theorem State.setNet_inputs (s : State) (n : Nat) (d : NetEngine) : (s.setNet n d).inputs = s.inputs := rfl
@[simp] theorem State.setNet_outputs (s : State) (n : Nat) (d : NetEngine) : (s.setNet n d).outputs = s.outputs := rfl
@[simp] theorem State.setNet_agenda (s : State) (n : Nat) (d : NetEngine) : (s.setNet n d).agenda = s.agenda := rfl
@[simp] theorem State.setNet_cur (s : State) (n : Nat) (d : NetEngine) : (s.setNet n d).cur = s.cur := rfl
@[simp] theorem State.setNet_free (s : State) (n : Nat) (d : NetEngine) : (s.setNet n d).free = s.free := rfl

/-! ### setPort -/

@[simp] theorem State.setPort_threads (s : State) (n : Nat) (p : Port) : (s.setPort n p).threads = s.threads := rfl
@[simp] theorem State.setPort_crews (s : State) (n : Nat) (p : Port) : (s.setPort n p).crews = s.crews := rfl
@[simp] theorem State.setPort_gangs (s : State) (n : Nat) (p : Port) : (s.setPort n p).gangs = s.gangs := rfl
@[simp] theorem State.setPort_cores (s : State) (n : Nat) (p : Port) : (s.setPort n p).cores = s.cores := rfl
@[simp] theorem State.setPort_harts (s : State) (n : Nat) (p : Port) : (s.setPort n p).harts = s.harts := rfl
@[simp] theorem State.setPort_dies (s : State) (n : Nat) (p : Port) : (s.setPort n p).dies = s.dies := rfl
@[simp] theorem State.setPort_latDies (s : State) (n : Nat) (p : Port) : (s.setPort n p).latDies = s.latDies := rfl
@[simp] theorem State.setPort_absent (s : State) (n : Nat) (p : Port) : (s.setPort n p).absent = s.absent := rfl
@[simp] theorem State.setPort_cursors (s : State) (n : Nat) (p : Port) : (s.setPort n p).cursors = s.cursors := rfl
@[simp] theorem State.setPort_stks (s : State) (n : Nat) (p : Port) : (s.setPort n p).stks = s.stks := rfl
@[simp] theorem State.setPort_nets (s : State) (n : Nat) (p : Port) : (s.setPort n p).nets = s.nets := rfl
@[simp] theorem State.setPort_pkg (s : State) (n : Nat) (p : Port) : (s.setPort n p).pkg = s.pkg := rfl
@[simp] theorem State.setPort_mem (s : State) (n : Nat) (p : Port) : (s.setPort n p).mem = s.mem := rfl
@[simp] theorem State.setPort_chains (s : State) (n : Nat) (p : Port) : (s.setPort n p).chains = s.chains := rfl
@[simp] theorem State.setPort_packets (s : State) (n : Nat) (p : Port) : (s.setPort n p).packets = s.packets := rfl
@[simp] theorem State.setPort_nxt (s : State) (n : Nat) (p : Port) : (s.setPort n p).nxt = s.nxt := rfl
@[simp] theorem State.setPort_inputs (s : State) (n : Nat) (p : Port) : (s.setPort n p).inputs = s.inputs := rfl
@[simp] theorem State.setPort_outputs (s : State) (n : Nat) (p : Port) : (s.setPort n p).outputs = s.outputs := rfl
@[simp] theorem State.setPort_agenda (s : State) (n : Nat) (p : Port) : (s.setPort n p).agenda = s.agenda := rfl
@[simp] theorem State.setPort_cur (s : State) (n : Nat) (p : Port) : (s.setPort n p).cur = s.cur := rfl
@[simp] theorem State.setPort_free (s : State) (n : Nat) (p : Port) : (s.setPort n p).free = s.free := rfl

/-! ### modCrew -/

@[simp] theorem State.modCrew_threads (s : State) (c : Nat) (f : Crew → Crew) : (s.modCrew c f).threads = s.threads := rfl
@[simp] theorem State.modCrew_gangs (s : State) (c : Nat) (f : Crew → Crew) : (s.modCrew c f).gangs = s.gangs := rfl
@[simp] theorem State.modCrew_cores (s : State) (c : Nat) (f : Crew → Crew) : (s.modCrew c f).cores = s.cores := rfl
@[simp] theorem State.modCrew_harts (s : State) (c : Nat) (f : Crew → Crew) : (s.modCrew c f).harts = s.harts := rfl
@[simp] theorem State.modCrew_dies (s : State) (c : Nat) (f : Crew → Crew) : (s.modCrew c f).dies = s.dies := rfl
@[simp] theorem State.modCrew_latDies (s : State) (c : Nat) (f : Crew → Crew) : (s.modCrew c f).latDies = s.latDies := rfl
@[simp] theorem State.modCrew_absent (s : State) (c : Nat) (f : Crew → Crew) : (s.modCrew c f).absent = s.absent := rfl
@[simp] theorem State.modCrew_cursors (s : State) (c : Nat) (f : Crew → Crew) : (s.modCrew c f).cursors = s.cursors := rfl
@[simp] theorem State.modCrew_stks (s : State) (c : Nat) (f : Crew → Crew) : (s.modCrew c f).stks = s.stks := rfl
@[simp] theorem State.modCrew_nets (s : State) (c : Nat) (f : Crew → Crew) : (s.modCrew c f).nets = s.nets := rfl
@[simp] theorem State.modCrew_ports (s : State) (c : Nat) (f : Crew → Crew) : (s.modCrew c f).ports = s.ports := rfl
@[simp] theorem State.modCrew_links (s : State) (c : Nat) (f : Crew → Crew) : (s.modCrew c f).links = s.links := rfl
@[simp] theorem State.modCrew_pkg (s : State) (c : Nat) (f : Crew → Crew) : (s.modCrew c f).pkg = s.pkg := rfl
@[simp] theorem State.modCrew_mem (s : State) (c : Nat) (f : Crew → Crew) : (s.modCrew c f).mem = s.mem := rfl
@[simp] theorem State.modCrew_chains (s : State) (c : Nat) (f : Crew → Crew) : (s.modCrew c f).chains = s.chains := rfl
@[simp] theorem State.modCrew_packets (s : State) (c : Nat) (f : Crew → Crew) : (s.modCrew c f).packets = s.packets := rfl
@[simp] theorem State.modCrew_nxt (s : State) (c : Nat) (f : Crew → Crew) : (s.modCrew c f).nxt = s.nxt := rfl
@[simp] theorem State.modCrew_inputs (s : State) (c : Nat) (f : Crew → Crew) : (s.modCrew c f).inputs = s.inputs := rfl
@[simp] theorem State.modCrew_outputs (s : State) (c : Nat) (f : Crew → Crew) : (s.modCrew c f).outputs = s.outputs := rfl
@[simp] theorem State.modCrew_agenda (s : State) (c : Nat) (f : Crew → Crew) : (s.modCrew c f).agenda = s.agenda := rfl
@[simp] theorem State.modCrew_cur (s : State) (c : Nat) (f : Crew → Crew) : (s.modCrew c f).cur = s.cur := rfl
@[simp] theorem State.modCrew_free (s : State) (c : Nat) (f : Crew → Crew) : (s.modCrew c f).free = s.free := rfl

/-! ### modGang -/

@[simp] theorem State.modGang_threads (s : State) (c : Nat) (f : Gang → Gang) : (s.modGang c f).threads = s.threads := rfl
@[simp] theorem State.modGang_crews (s : State) (c : Nat) (f : Gang → Gang) : (s.modGang c f).crews = s.crews := rfl
@[simp] theorem State.modGang_cores (s : State) (c : Nat) (f : Gang → Gang) : (s.modGang c f).cores = s.cores := rfl
@[simp] theorem State.modGang_harts (s : State) (c : Nat) (f : Gang → Gang) : (s.modGang c f).harts = s.harts := rfl
@[simp] theorem State.modGang_dies (s : State) (c : Nat) (f : Gang → Gang) : (s.modGang c f).dies = s.dies := rfl
@[simp] theorem State.modGang_latDies (s : State) (c : Nat) (f : Gang → Gang) : (s.modGang c f).latDies = s.latDies := rfl
@[simp] theorem State.modGang_absent (s : State) (c : Nat) (f : Gang → Gang) : (s.modGang c f).absent = s.absent := rfl
@[simp] theorem State.modGang_cursors (s : State) (c : Nat) (f : Gang → Gang) : (s.modGang c f).cursors = s.cursors := rfl
@[simp] theorem State.modGang_stks (s : State) (c : Nat) (f : Gang → Gang) : (s.modGang c f).stks = s.stks := rfl
@[simp] theorem State.modGang_nets (s : State) (c : Nat) (f : Gang → Gang) : (s.modGang c f).nets = s.nets := rfl
@[simp] theorem State.modGang_ports (s : State) (c : Nat) (f : Gang → Gang) : (s.modGang c f).ports = s.ports := rfl
@[simp] theorem State.modGang_links (s : State) (c : Nat) (f : Gang → Gang) : (s.modGang c f).links = s.links := rfl
@[simp] theorem State.modGang_pkg (s : State) (c : Nat) (f : Gang → Gang) : (s.modGang c f).pkg = s.pkg := rfl
@[simp] theorem State.modGang_mem (s : State) (c : Nat) (f : Gang → Gang) : (s.modGang c f).mem = s.mem := rfl
@[simp] theorem State.modGang_chains (s : State) (c : Nat) (f : Gang → Gang) : (s.modGang c f).chains = s.chains := rfl
@[simp] theorem State.modGang_packets (s : State) (c : Nat) (f : Gang → Gang) : (s.modGang c f).packets = s.packets := rfl
@[simp] theorem State.modGang_nxt (s : State) (c : Nat) (f : Gang → Gang) : (s.modGang c f).nxt = s.nxt := rfl
@[simp] theorem State.modGang_inputs (s : State) (c : Nat) (f : Gang → Gang) : (s.modGang c f).inputs = s.inputs := rfl
@[simp] theorem State.modGang_outputs (s : State) (c : Nat) (f : Gang → Gang) : (s.modGang c f).outputs = s.outputs := rfl
@[simp] theorem State.modGang_agenda (s : State) (c : Nat) (f : Gang → Gang) : (s.modGang c f).agenda = s.agenda := rfl
@[simp] theorem State.modGang_cur (s : State) (c : Nat) (f : Gang → Gang) : (s.modGang c f).cur = s.cur := rfl
@[simp] theorem State.modGang_free (s : State) (c : Nat) (f : Gang → Gang) : (s.modGang c f).free = s.free := rfl

/-! ### withMem -/

@[simp] theorem State.withMem_threads (s : State) (m : MemSys) : (s.withMem m).threads = s.threads := rfl
@[simp] theorem State.withMem_crews (s : State) (m : MemSys) : (s.withMem m).crews = s.crews := rfl
@[simp] theorem State.withMem_gangs (s : State) (m : MemSys) : (s.withMem m).gangs = s.gangs := rfl
@[simp] theorem State.withMem_cores (s : State) (m : MemSys) : (s.withMem m).cores = s.cores := rfl
@[simp] theorem State.withMem_harts (s : State) (m : MemSys) : (s.withMem m).harts = s.harts := rfl
@[simp] theorem State.withMem_dies (s : State) (m : MemSys) : (s.withMem m).dies = s.dies := rfl
@[simp] theorem State.withMem_latDies (s : State) (m : MemSys) : (s.withMem m).latDies = s.latDies := rfl
@[simp] theorem State.withMem_absent (s : State) (m : MemSys) : (s.withMem m).absent = s.absent := rfl
@[simp] theorem State.withMem_cursors (s : State) (m : MemSys) : (s.withMem m).cursors = s.cursors := rfl
@[simp] theorem State.withMem_stks (s : State) (m : MemSys) : (s.withMem m).stks = s.stks := rfl
@[simp] theorem State.withMem_nets (s : State) (m : MemSys) : (s.withMem m).nets = s.nets := rfl
@[simp] theorem State.withMem_ports (s : State) (m : MemSys) : (s.withMem m).ports = s.ports := rfl
@[simp] theorem State.withMem_links (s : State) (m : MemSys) : (s.withMem m).links = s.links := rfl
@[simp] theorem State.withMem_pkg (s : State) (m : MemSys) : (s.withMem m).pkg = s.pkg := rfl
@[simp] theorem State.withMem_chains (s : State) (m : MemSys) : (s.withMem m).chains = s.chains := rfl
@[simp] theorem State.withMem_packets (s : State) (m : MemSys) : (s.withMem m).packets = s.packets := rfl
@[simp] theorem State.withMem_nxt (s : State) (m : MemSys) : (s.withMem m).nxt = s.nxt := rfl
@[simp] theorem State.withMem_inputs (s : State) (m : MemSys) : (s.withMem m).inputs = s.inputs := rfl
@[simp] theorem State.withMem_outputs (s : State) (m : MemSys) : (s.withMem m).outputs = s.outputs := rfl
@[simp] theorem State.withMem_agenda (s : State) (m : MemSys) : (s.withMem m).agenda = s.agenda := rfl
@[simp] theorem State.withMem_cur (s : State) (m : MemSys) : (s.withMem m).cur = s.cur := rfl
@[simp] theorem State.withMem_free (s : State) (m : MemSys) : (s.withMem m).free = s.free := rfl
@[simp] theorem State.withMem_mem (s : State) (m : MemSys) : (s.withMem m).mem = m := rfl

/-! ### Accessors after an update of another table -/

@[simp] theorem State.setThread_get_core (s : State) (k : Nat) (t : Thread) (j : Nat) : (s.setThread k t).core j = s.core j := rfl
@[simp] theorem State.setThread_get_hart (s : State) (k : Nat) (t : Thread) (j : Nat) : (s.setThread k t).hart j = s.hart j := rfl
@[simp] theorem State.setThread_get_die (s : State) (k : Nat) (t : Thread) (j : Nat) : (s.setThread k t).die j = s.die j := rfl
@[simp] theorem State.setThread_get_stk (s : State) (k : Nat) (t : Thread) (j : Nat) : (s.setThread k t).stk j = s.stk j := rfl
@[simp] theorem State.setThread_get_net (s : State) (k : Nat) (t : Thread) (j : Nat) : (s.setThread k t).net j = s.net j := rfl
@[simp] theorem State.setThread_get_port (s : State) (k : Nat) (t : Thread) (j : Nat) : (s.setThread k t).port j = s.port j := rfl
@[simp] theorem State.setThread_halted (s : State) (k : Nat) (t : Thread) : (s.setThread k t).halted = s.halted := rfl
@[simp] theorem State.modThread_get_core (s : State) (k : Nat) (f : Thread → Thread) (j : Nat) : (s.modThread k f).core j = s.core j := rfl
@[simp] theorem State.modThread_get_hart (s : State) (k : Nat) (f : Thread → Thread) (j : Nat) : (s.modThread k f).hart j = s.hart j := rfl
@[simp] theorem State.modThread_get_die (s : State) (k : Nat) (f : Thread → Thread) (j : Nat) : (s.modThread k f).die j = s.die j := rfl
@[simp] theorem State.modThread_get_stk (s : State) (k : Nat) (f : Thread → Thread) (j : Nat) : (s.modThread k f).stk j = s.stk j := rfl
@[simp] theorem State.modThread_get_net (s : State) (k : Nat) (f : Thread → Thread) (j : Nat) : (s.modThread k f).net j = s.net j := rfl
@[simp] theorem State.modThread_get_port (s : State) (k : Nat) (f : Thread → Thread) (j : Nat) : (s.modThread k f).port j = s.port j := rfl
@[simp] theorem State.modThread_halted (s : State) (k : Nat) (f : Thread → Thread) : (s.modThread k f).halted = s.halted := rfl
@[simp] theorem State.setCore_get_thread (s : State) (n : Nat) (c : Core) (j : Nat) : (s.setCore n c).thread j = s.thread j := rfl
@[simp] theorem State.setCore_get_hart (s : State) (n : Nat) (c : Core) (j : Nat) : (s.setCore n c).hart j = s.hart j := rfl
@[simp] theorem State.setCore_get_die (s : State) (n : Nat) (c : Core) (j : Nat) : (s.setCore n c).die j = s.die j := rfl
@[simp] theorem State.setCore_get_stk (s : State) (n : Nat) (c : Core) (j : Nat) : (s.setCore n c).stk j = s.stk j := rfl
@[simp] theorem State.setCore_get_net (s : State) (n : Nat) (c : Core) (j : Nat) : (s.setCore n c).net j = s.net j := rfl
@[simp] theorem State.setCore_get_port (s : State) (n : Nat) (c : Core) (j : Nat) : (s.setCore n c).port j = s.port j := rfl
@[simp] theorem State.setCore_halted (s : State) (n : Nat) (c : Core) : (s.setCore n c).halted = s.halted := rfl
@[simp] theorem State.modCore_get_thread (s : State) (n : Nat) (f : Core → Core) (j : Nat) : (s.modCore n f).thread j = s.thread j := rfl
@[simp] theorem State.modCore_get_hart (s : State) (n : Nat) (f : Core → Core) (j : Nat) : (s.modCore n f).hart j = s.hart j := rfl
@[simp] theorem State.modCore_get_die (s : State) (n : Nat) (f : Core → Core) (j : Nat) : (s.modCore n f).die j = s.die j := rfl
@[simp] theorem State.modCore_get_stk (s : State) (n : Nat) (f : Core → Core) (j : Nat) : (s.modCore n f).stk j = s.stk j := rfl
@[simp] theorem State.modCore_get_net (s : State) (n : Nat) (f : Core → Core) (j : Nat) : (s.modCore n f).net j = s.net j := rfl
@[simp] theorem State.modCore_get_port (s : State) (n : Nat) (f : Core → Core) (j : Nat) : (s.modCore n f).port j = s.port j := rfl
@[simp] theorem State.modCore_halted (s : State) (n : Nat) (f : Core → Core) : (s.modCore n f).halted = s.halted := rfl
@[simp] theorem State.setHart_get_thread (s : State) (n : Nat) (h : Hart) (j : Nat) : (s.setHart n h).thread j = s.thread j := rfl
@[simp] theorem State.setHart_get_core (s : State) (n : Nat) (h : Hart) (j : Nat) : (s.setHart n h).core j = s.core j := rfl
@[simp] theorem State.setHart_get_die (s : State) (n : Nat) (h : Hart) (j : Nat) : (s.setHart n h).die j = s.die j := rfl
@[simp] theorem State.setHart_get_stk (s : State) (n : Nat) (h : Hart) (j : Nat) : (s.setHart n h).stk j = s.stk j := rfl
@[simp] theorem State.setHart_get_net (s : State) (n : Nat) (h : Hart) (j : Nat) : (s.setHart n h).net j = s.net j := rfl
@[simp] theorem State.setHart_get_port (s : State) (n : Nat) (h : Hart) (j : Nat) : (s.setHart n h).port j = s.port j := rfl
@[simp] theorem State.setHart_halted (s : State) (n : Nat) (h : Hart) : (s.setHart n h).halted = s.halted := rfl
@[simp] theorem State.modHart_get_thread (s : State) (n : Nat) (f : Hart → Hart) (j : Nat) : (s.modHart n f).thread j = s.thread j := rfl
@[simp] theorem State.modHart_get_core (s : State) (n : Nat) (f : Hart → Hart) (j : Nat) : (s.modHart n f).core j = s.core j := rfl
@[simp] theorem State.modHart_get_die (s : State) (n : Nat) (f : Hart → Hart) (j : Nat) : (s.modHart n f).die j = s.die j := rfl
@[simp] theorem State.modHart_get_stk (s : State) (n : Nat) (f : Hart → Hart) (j : Nat) : (s.modHart n f).stk j = s.stk j := rfl
@[simp] theorem State.modHart_get_net (s : State) (n : Nat) (f : Hart → Hart) (j : Nat) : (s.modHart n f).net j = s.net j := rfl
@[simp] theorem State.modHart_get_port (s : State) (n : Nat) (f : Hart → Hart) (j : Nat) : (s.modHart n f).port j = s.port j := rfl
@[simp] theorem State.modHart_halted (s : State) (n : Nat) (f : Hart → Hart) : (s.modHart n f).halted = s.halted := rfl
@[simp] theorem State.setDie_get_thread (s : State) (n : Nat) (d : Die) (j : Nat) : (s.setDie n d).thread j = s.thread j := rfl
@[simp] theorem State.setDie_get_core (s : State) (n : Nat) (d : Die) (j : Nat) : (s.setDie n d).core j = s.core j := rfl
@[simp] theorem State.setDie_get_hart (s : State) (n : Nat) (d : Die) (j : Nat) : (s.setDie n d).hart j = s.hart j := rfl
@[simp] theorem State.setDie_get_stk (s : State) (n : Nat) (d : Die) (j : Nat) : (s.setDie n d).stk j = s.stk j := rfl
@[simp] theorem State.setDie_get_net (s : State) (n : Nat) (d : Die) (j : Nat) : (s.setDie n d).net j = s.net j := rfl
@[simp] theorem State.setDie_get_port (s : State) (n : Nat) (d : Die) (j : Nat) : (s.setDie n d).port j = s.port j := rfl
@[simp] theorem State.setDie_halted (s : State) (n : Nat) (d : Die) : (s.setDie n d).halted = s.halted := rfl
@[simp] theorem State.modDie_get_thread (s : State) (n : Nat) (f : Die → Die) (j : Nat) : (s.modDie n f).thread j = s.thread j := rfl
@[simp] theorem State.modDie_get_core (s : State) (n : Nat) (f : Die → Die) (j : Nat) : (s.modDie n f).core j = s.core j := rfl
@[simp] theorem State.modDie_get_hart (s : State) (n : Nat) (f : Die → Die) (j : Nat) : (s.modDie n f).hart j = s.hart j := rfl
@[simp] theorem State.modDie_get_stk (s : State) (n : Nat) (f : Die → Die) (j : Nat) : (s.modDie n f).stk j = s.stk j := rfl
@[simp] theorem State.modDie_get_net (s : State) (n : Nat) (f : Die → Die) (j : Nat) : (s.modDie n f).net j = s.net j := rfl
@[simp] theorem State.modDie_get_port (s : State) (n : Nat) (f : Die → Die) (j : Nat) : (s.modDie n f).port j = s.port j := rfl
@[simp] theorem State.modDie_halted (s : State) (n : Nat) (f : Die → Die) : (s.modDie n f).halted = s.halted := rfl
@[simp] theorem State.setStk_get_thread (s : State) (n : Nat) (d : Stack) (j : Nat) : (s.setStk n d).thread j = s.thread j := rfl
@[simp] theorem State.setStk_get_core (s : State) (n : Nat) (d : Stack) (j : Nat) : (s.setStk n d).core j = s.core j := rfl
@[simp] theorem State.setStk_get_hart (s : State) (n : Nat) (d : Stack) (j : Nat) : (s.setStk n d).hart j = s.hart j := rfl
@[simp] theorem State.setStk_get_die (s : State) (n : Nat) (d : Stack) (j : Nat) : (s.setStk n d).die j = s.die j := rfl
@[simp] theorem State.setStk_get_net (s : State) (n : Nat) (d : Stack) (j : Nat) : (s.setStk n d).net j = s.net j := rfl
@[simp] theorem State.setStk_get_port (s : State) (n : Nat) (d : Stack) (j : Nat) : (s.setStk n d).port j = s.port j := rfl
@[simp] theorem State.setStk_halted (s : State) (n : Nat) (d : Stack) : (s.setStk n d).halted = s.halted := rfl
@[simp] theorem State.setNet_get_thread (s : State) (n : Nat) (d : NetEngine) (j : Nat) : (s.setNet n d).thread j = s.thread j := rfl
@[simp] theorem State.setNet_get_core (s : State) (n : Nat) (d : NetEngine) (j : Nat) : (s.setNet n d).core j = s.core j := rfl
@[simp] theorem State.setNet_get_hart (s : State) (n : Nat) (d : NetEngine) (j : Nat) : (s.setNet n d).hart j = s.hart j := rfl
@[simp] theorem State.setNet_get_die (s : State) (n : Nat) (d : NetEngine) (j : Nat) : (s.setNet n d).die j = s.die j := rfl
@[simp] theorem State.setNet_get_stk (s : State) (n : Nat) (d : NetEngine) (j : Nat) : (s.setNet n d).stk j = s.stk j := rfl
@[simp] theorem State.setNet_get_port (s : State) (n : Nat) (d : NetEngine) (j : Nat) : (s.setNet n d).port j = s.port j := rfl
@[simp] theorem State.setNet_halted (s : State) (n : Nat) (d : NetEngine) : (s.setNet n d).halted = s.halted := rfl
@[simp] theorem State.setPort_get_thread (s : State) (n : Nat) (p : Port) (j : Nat) : (s.setPort n p).thread j = s.thread j := rfl
@[simp] theorem State.setPort_get_core (s : State) (n : Nat) (p : Port) (j : Nat) : (s.setPort n p).core j = s.core j := rfl
@[simp] theorem State.setPort_get_hart (s : State) (n : Nat) (p : Port) (j : Nat) : (s.setPort n p).hart j = s.hart j := rfl
@[simp] theorem State.setPort_get_die (s : State) (n : Nat) (p : Port) (j : Nat) : (s.setPort n p).die j = s.die j := rfl
@[simp] theorem State.setPort_get_stk (s : State) (n : Nat) (p : Port) (j : Nat) : (s.setPort n p).stk j = s.stk j := rfl
@[simp] theorem State.setPort_get_net (s : State) (n : Nat) (p : Port) (j : Nat) : (s.setPort n p).net j = s.net j := rfl
@[simp] theorem State.setPort_halted (s : State) (n : Nat) (p : Port) : (s.setPort n p).halted = s.halted := rfl
@[simp] theorem State.modCrew_get_thread (s : State) (c : Nat) (f : Crew → Crew) (j : Nat) : (s.modCrew c f).thread j = s.thread j := rfl
@[simp] theorem State.modCrew_get_core (s : State) (c : Nat) (f : Crew → Crew) (j : Nat) : (s.modCrew c f).core j = s.core j := rfl
@[simp] theorem State.modCrew_get_hart (s : State) (c : Nat) (f : Crew → Crew) (j : Nat) : (s.modCrew c f).hart j = s.hart j := rfl
@[simp] theorem State.modCrew_get_die (s : State) (c : Nat) (f : Crew → Crew) (j : Nat) : (s.modCrew c f).die j = s.die j := rfl
@[simp] theorem State.modCrew_get_stk (s : State) (c : Nat) (f : Crew → Crew) (j : Nat) : (s.modCrew c f).stk j = s.stk j := rfl
@[simp] theorem State.modCrew_get_net (s : State) (c : Nat) (f : Crew → Crew) (j : Nat) : (s.modCrew c f).net j = s.net j := rfl
@[simp] theorem State.modCrew_get_port (s : State) (c : Nat) (f : Crew → Crew) (j : Nat) : (s.modCrew c f).port j = s.port j := rfl
@[simp] theorem State.modCrew_halted (s : State) (c : Nat) (f : Crew → Crew) : (s.modCrew c f).halted = s.halted := rfl
@[simp] theorem State.modGang_get_thread (s : State) (c : Nat) (f : Gang → Gang) (j : Nat) : (s.modGang c f).thread j = s.thread j := rfl
@[simp] theorem State.modGang_get_core (s : State) (c : Nat) (f : Gang → Gang) (j : Nat) : (s.modGang c f).core j = s.core j := rfl
@[simp] theorem State.modGang_get_hart (s : State) (c : Nat) (f : Gang → Gang) (j : Nat) : (s.modGang c f).hart j = s.hart j := rfl
@[simp] theorem State.modGang_get_die (s : State) (c : Nat) (f : Gang → Gang) (j : Nat) : (s.modGang c f).die j = s.die j := rfl
@[simp] theorem State.modGang_get_stk (s : State) (c : Nat) (f : Gang → Gang) (j : Nat) : (s.modGang c f).stk j = s.stk j := rfl
@[simp] theorem State.modGang_get_net (s : State) (c : Nat) (f : Gang → Gang) (j : Nat) : (s.modGang c f).net j = s.net j := rfl
@[simp] theorem State.modGang_get_port (s : State) (c : Nat) (f : Gang → Gang) (j : Nat) : (s.modGang c f).port j = s.port j := rfl
@[simp] theorem State.modGang_halted (s : State) (c : Nat) (f : Gang → Gang) : (s.modGang c f).halted = s.halted := rfl
@[simp] theorem State.withMem_get_thread (s : State) (m : MemSys) (j : Nat) : (s.withMem m).thread j = s.thread j := rfl
@[simp] theorem State.withMem_get_core (s : State) (m : MemSys) (j : Nat) : (s.withMem m).core j = s.core j := rfl
@[simp] theorem State.withMem_get_hart (s : State) (m : MemSys) (j : Nat) : (s.withMem m).hart j = s.hart j := rfl
@[simp] theorem State.withMem_get_die (s : State) (m : MemSys) (j : Nat) : (s.withMem m).die j = s.die j := rfl
@[simp] theorem State.withMem_get_stk (s : State) (m : MemSys) (j : Nat) : (s.withMem m).stk j = s.stk j := rfl
@[simp] theorem State.withMem_get_net (s : State) (m : MemSys) (j : Nat) : (s.withMem m).net j = s.net j := rfl
@[simp] theorem State.withMem_get_port (s : State) (m : MemSys) (j : Nat) : (s.withMem m).port j = s.port j := rfl
@[simp] theorem State.withMem_halted (s : State) (m : MemSys) : (s.withMem m).halted = s.halted := rfl

/-! ### Accessors after an update of their table -/

@[simp] theorem State.setThread_get_self (s : State) (k : Nat) (v : Thread) : (s.setThread k v).thread k = v := AMap.get_set_self _ _ _ _
theorem State.setThread_get_ne (s : State) (k : Nat) (v : Thread) {j : Nat} (h : j ≠ k) : (s.setThread k v).thread j = s.thread j :=
  AMap.get_set_ne _ _ _ _ h
@[simp] theorem State.modThread_get_self (s : State) (k : Nat) (f : Thread → Thread) : (s.modThread k f).thread k = f (s.thread k) :=
  AMap.get_set_self _ _ _ _
theorem State.modThread_get_ne (s : State) (k : Nat) (f : Thread → Thread) {j : Nat} (h : j ≠ k) : (s.modThread k f).thread j = s.thread j :=
  AMap.get_set_ne _ _ _ _ h
@[simp] theorem State.setCore_get_self (s : State) (k : Nat) (v : Core) : (s.setCore k v).core k = v := AMap.get_set_self _ _ _ _
theorem State.setCore_get_ne (s : State) (k : Nat) (v : Core) {j : Nat} (h : j ≠ k) : (s.setCore k v).core j = s.core j :=
  AMap.get_set_ne _ _ _ _ h
@[simp] theorem State.modCore_get_self (s : State) (k : Nat) (f : Core → Core) : (s.modCore k f).core k = f (s.core k) :=
  AMap.get_set_self _ _ _ _
theorem State.modCore_get_ne (s : State) (k : Nat) (f : Core → Core) {j : Nat} (h : j ≠ k) : (s.modCore k f).core j = s.core j :=
  AMap.get_set_ne _ _ _ _ h
@[simp] theorem State.setHart_get_self (s : State) (k : Nat) (v : Hart) : (s.setHart k v).hart k = v := AMap.get_set_self _ _ _ _
theorem State.setHart_get_ne (s : State) (k : Nat) (v : Hart) {j : Nat} (h : j ≠ k) : (s.setHart k v).hart j = s.hart j :=
  AMap.get_set_ne _ _ _ _ h
@[simp] theorem State.modHart_get_self (s : State) (k : Nat) (f : Hart → Hart) : (s.modHart k f).hart k = f (s.hart k) :=
  AMap.get_set_self _ _ _ _
theorem State.modHart_get_ne (s : State) (k : Nat) (f : Hart → Hart) {j : Nat} (h : j ≠ k) : (s.modHart k f).hart j = s.hart j :=
  AMap.get_set_ne _ _ _ _ h
@[simp] theorem State.setDie_get_self (s : State) (k : Nat) (v : Die) : (s.setDie k v).die k = v := AMap.get_set_self _ _ _ _
theorem State.setDie_get_ne (s : State) (k : Nat) (v : Die) {j : Nat} (h : j ≠ k) : (s.setDie k v).die j = s.die j :=
  AMap.get_set_ne _ _ _ _ h
@[simp] theorem State.modDie_get_self (s : State) (k : Nat) (f : Die → Die) : (s.modDie k f).die k = f (s.die k) :=
  AMap.get_set_self _ _ _ _
theorem State.modDie_get_ne (s : State) (k : Nat) (f : Die → Die) {j : Nat} (h : j ≠ k) : (s.modDie k f).die j = s.die j :=
  AMap.get_set_ne _ _ _ _ h
@[simp] theorem State.setStk_get_self (s : State) (k : Nat) (v : Stack) : (s.setStk k v).stk k = v := AMap.get_set_self _ _ _ _
theorem State.setStk_get_ne (s : State) (k : Nat) (v : Stack) {j : Nat} (h : j ≠ k) : (s.setStk k v).stk j = s.stk j :=
  AMap.get_set_ne _ _ _ _ h
@[simp] theorem State.setNet_get_self (s : State) (k : Nat) (v : NetEngine) : (s.setNet k v).net k = v := AMap.get_set_self _ _ _ _
theorem State.setNet_get_ne (s : State) (k : Nat) (v : NetEngine) {j : Nat} (h : j ≠ k) : (s.setNet k v).net j = s.net j :=
  AMap.get_set_ne _ _ _ _ h
@[simp] theorem State.setPort_get_self (s : State) (k : Nat) (v : Port) : (s.setPort k v).port k = v := AMap.get_set_self _ _ _ _
theorem State.setPort_get_ne (s : State) (k : Nat) (v : Port) {j : Nat} (h : j ≠ k) : (s.setPort k v).port j = s.port j :=
  AMap.get_set_ne _ _ _ _ h

theorem State.modCrew_find (s : State) (c : Nat) (f : Crew → Crew) (j : Nat) :
    (s.modCrew c f).crews.find j = if j = c then (s.crews.find c).map f else s.crews.find j := AMap.find_update _ _ _ _
theorem State.modGang_find (s : State) (c : Nat) (f : Gang → Gang) (j : Nat) :
    (s.modGang c f).gangs.find j = if j = c then (s.gangs.find c).map f else s.gangs.find j := AMap.find_update _ _ _ _

@[simp] theorem State.setThread_setThread (s : State) (k : Nat) (t u : Thread) :
    (s.setThread k t).setThread k u = s.setThread k u := by simp [State.setThread]

@[simp] theorem State.modThread_setThread (s : State) (k : Nat) (t : Thread) (f : Thread → Thread) :
    (s.setThread k t).modThread k f = s.setThread k (f t) := by simp [State.modThread]

/-- Two updates of one thread are one. -/
theorem State.modThread_modThread (s : State) (k : Nat) (f g : Thread → Thread) :
    (s.modThread k f).modThread k g = s.modThread k fun t => g (f t) := by simp [State.modThread]

/-! ### setLink -/

@[simp] theorem State.setLink_threads (s : State) (l : Link) (p : Port) : (s.setLink l p).threads = s.threads := by cases l <;> rfl
@[simp] theorem State.setLink_crews (s : State) (l : Link) (p : Port) : (s.setLink l p).crews = s.crews := by cases l <;> rfl
@[simp] theorem State.setLink_gangs (s : State) (l : Link) (p : Port) : (s.setLink l p).gangs = s.gangs := by cases l <;> rfl
@[simp] theorem State.setLink_cores (s : State) (l : Link) (p : Port) : (s.setLink l p).cores = s.cores := by cases l <;> rfl
@[simp] theorem State.setLink_harts (s : State) (l : Link) (p : Port) : (s.setLink l p).harts = s.harts := by cases l <;> rfl
@[simp] theorem State.setLink_dies (s : State) (l : Link) (p : Port) : (s.setLink l p).dies = s.dies := by cases l <;> rfl
@[simp] theorem State.setLink_latDies (s : State) (l : Link) (p : Port) : (s.setLink l p).latDies = s.latDies := by cases l <;> rfl
@[simp] theorem State.setLink_absent (s : State) (l : Link) (p : Port) : (s.setLink l p).absent = s.absent := by cases l <;> rfl
@[simp] theorem State.setLink_cursors (s : State) (l : Link) (p : Port) : (s.setLink l p).cursors = s.cursors := by cases l <;> rfl
@[simp] theorem State.setLink_stks (s : State) (l : Link) (p : Port) : (s.setLink l p).stks = s.stks := by cases l <;> rfl
@[simp] theorem State.setLink_nets (s : State) (l : Link) (p : Port) : (s.setLink l p).nets = s.nets := by cases l <;> rfl
@[simp] theorem State.setLink_pkg (s : State) (l : Link) (p : Port) : (s.setLink l p).pkg = s.pkg := by cases l <;> rfl
@[simp] theorem State.setLink_mem (s : State) (l : Link) (p : Port) : (s.setLink l p).mem = s.mem := by cases l <;> rfl
@[simp] theorem State.setLink_chains (s : State) (l : Link) (p : Port) : (s.setLink l p).chains = s.chains := by cases l <;> rfl
@[simp] theorem State.setLink_packets (s : State) (l : Link) (p : Port) : (s.setLink l p).packets = s.packets := by cases l <;> rfl
@[simp] theorem State.setLink_nxt (s : State) (l : Link) (p : Port) : (s.setLink l p).nxt = s.nxt := by cases l <;> rfl
@[simp] theorem State.setLink_inputs (s : State) (l : Link) (p : Port) : (s.setLink l p).inputs = s.inputs := by cases l <;> rfl
@[simp] theorem State.setLink_outputs (s : State) (l : Link) (p : Port) : (s.setLink l p).outputs = s.outputs := by cases l <;> rfl
@[simp] theorem State.setLink_agenda (s : State) (l : Link) (p : Port) : (s.setLink l p).agenda = s.agenda := by cases l <;> rfl
@[simp] theorem State.setLink_cur (s : State) (l : Link) (p : Port) : (s.setLink l p).cur = s.cur := by cases l <;> rfl
@[simp] theorem State.setLink_free (s : State) (l : Link) (p : Port) : (s.setLink l p).free = s.free := by cases l <;> rfl

end Sys2Proof.Machine
end

