-- ==== Sys2Proof/Laws/Issue.lean ====
section
/-!
SUPPORT. What the issue of an instruction does: for a thread that issues alone, by what its part answers, and for a whole
bundle whose threads all go on.
-/
namespace Sys2Proof.Machine

/-- A thread that passes has no trap from checks 1 to 3. -/
theorem State.fit_none {s : State} {k : Nat} {i : Instr} {kind : Kind} {sp : SpecRule} {regs : List Nat}
    (h : s.passes k kind sp regs) : s.fit k i kind regs = none := by
  obtain ⟨h1, h2, h3, -, -⟩ := h
  have e1 : ((isLat k && !kind.lat) || (!isLat k && !kind.simt)) = false := by
    cases hl : isLat k <;> simp_all
  have e2 : (kind.priv && !(s.thread k).trap.sup) = false := by
    cases hp : kind.priv <;> simp_all
  have e3 : regs.find? (s.regBad k) = none := by
    rw [List.find?_eq_none]
    intro r hr
    simp [h3 r hr]
  simp [State.fit, e1, e2, e3]

/-- A thread that passes reads no register of bad parity. -/
theorem State.badRead_none {s : State} {k : Nat} {kind : Kind} {sp : SpecRule} {regs : List Nat}
    (h : s.passes k kind sp regs) (i : Instr) : s.badRead k i = none := by
  have e : ((readsOf i).find? fun r => s.parityBad k r.toNat) = none := by
    rw [List.find?_eq_none]
    intro r _
    simp [h.2.2.2.1 r.toNat r.isLt]
  simp [State.badRead, e]

/-- A thread that passes its checks has no trap from them. -/
theorem State.check_none {s : State} {k : Nat} {i : Instr} {kind : Kind} {sp : SpecRule} {regs : List Nat}
    (h : s.passes k kind sp regs) : s.check k i kind regs = none := by
  simp [State.check, State.fit_none h, State.badRead_none h]

/-- A thread that passes is not held by its speculation. -/
theorem State.passes.unheld {s : State} {k : Nat} {kind : Kind} {sp : SpecRule} {regs : List Nat}
    (h : s.passes k kind sp regs) : (sp == .holds && (s.thread k).spec.mode == .speculating) = false := by
  have h4 := h.2.2.2.2
  cases hs : sp <;> simp_all

theorem State.guardedPart_run {s : State} {k : Nat} {g : Guard} {chk : Option Res} {kind : Kind} {sp : SpecRule}
    {regs : List Nat} {body : Nat → State → Res} (hg : (s.thread k).guard g = true) (h : s.passes k kind sp regs)
    (hc : chk = none) : s.guardedPart k g chk sp body = body k s := by
  simp [State.guardedPart, hg, hc, h.unheld]

theorem State.threadPart_run {s : State} {k : Nat} {g : Guard} {i : Instr} {kind : Kind} {regs : List Nat} {sp : SpecRule}
    {body : Nat → State → Res} (hg : (s.thread k).guard g = true) (h : s.passes k kind sp regs) :
    s.threadPart k g i kind regs sp body = body k s := State.guardedPart_run hg h (State.check_none h)

theorem State.threadPart_skip {s : State} {k : Nat} {g : Guard} {i : Instr} {kind : Kind} {regs : List Nat} {sp : SpecRule}
    {body : Nat → State → Res} (hg : (s.thread k).guard g = false) : s.threadPart k g i kind regs sp body = .go s .next := by
  simp [State.threadPart, State.guardedPart, hg]

theorem State.splitBundle_one (s : State) (k : Nat) : s.splitBundle [k] = s := by simp [State.splitBundle]
theorem State.splitBundle_nil (s : State) : s.splitBundle [] = s := rfl

variable {s s' : State} {k : Nat} {i : Instr} {g : Guard} {kind : Kind} {sp : SpecRule} {regs : List Nat}

/-! ### One thread -/

section one
variable {body : Nat → State → Res}

theorem issue_one (h : s.executes k g kind sp regs) (r : Res) (hb : body k s = r) (hw : r ≠ .wait) :
    perThread s i g regs kind sp body
      = .next ((s.applyRes k r).1.splitBundle (if (s.applyRes k r).2 then [k] else [])) := by
  obtain ⟨h1, h2, h3⟩ := h
  simp only [perThread, State.issue, h1, runThreads, State.threadPart_run h2 h3, hb]
  cases r <;> first | exact absurd rfl hw | (split <;> simp_all)

theorem perThread_next (h : s.executes k g kind sp regs) (hb : body k s = .go s' .next) :
    perThread s i g regs kind sp body = .next (s'.goTo k (nextPc (s.thread k).pc)) := by
  rw [issue_one h _ hb (by simp)]
  simp [State.applyRes, State.splitBundle_one, State.goTo]

theorem perThread_stay (h : s.executes k g kind sp regs) (hb : body k s = .go s' .stay) :
    perThread s i g regs kind sp body = .next s' := by
  rw [issue_one h _ hb (by simp)]
  simp [State.applyRes, State.splitBundle_one]

theorem perThread_jump (h : s.executes k g kind sp regs) {p : Word} (hb : body k s = .go s' (.jump p)) :
    perThread s i g regs kind sp body = .next (s'.goTo k p) := by
  rw [issue_one h _ hb (by simp)]
  simp [State.applyRes, State.splitBundle_one, State.goTo]

theorem perThread_hold (h : s.executes k g kind sp regs) (hb : body k s = .go s' .hold) :
    perThread s i g regs kind sp body = .next (s'.leaveBundle k) := by
  rw [issue_one h _ hb (by simp)]
  simp [State.applyRes, State.splitBundle_nil]

theorem perThread_gone (h : s.executes k g kind sp regs) (hb : body k s = .go s' .gone) :
    perThread s i g regs kind sp body = .next (s'.leaveBundle k) := by
  rw [issue_one h _ hb (by simp)]
  simp [State.applyRes, State.splitBundle_nil]

theorem perThread_wait (h : s.executes k g kind sp regs) (hb : body k s = .wait) :
    perThread s i g regs kind sp body = .next s := by
  obtain ⟨h1, h2, h3⟩ := h
  simp [perThread, State.issue, State.issueApart, h1, runThreads, State.threadPart_run h2 h3, hb, Res.waits]

theorem perThread_trap (h : s.executes k g kind sp regs) (hn : (s.thread k).spec.mode = .normal) {c sub : Nat}
    {v : Word} {after : Bool} (hb : body k s = .trap c sub v after) :
    perThread s i g regs kind sp body
      = .next (s.takeTrap k c sub v (if after then nextPc (s.thread k).pc else (s.thread k).pc)) := by
  rw [issue_one h _ hb (by simp)]
  simp [State.applyRes, State.splitBundle_nil, State.raise, hn]

/-- A trap at the instruction. -/
theorem perThread_trap_at (h : s.executes k g kind sp regs) (hn : (s.thread k).spec.mode = .normal) {c sub : Nat}
    {v : Word} (hb : body k s = .trap c sub v false) :
    perThread s i g regs kind sp body = .next (s.takeTrap k c sub v (s.thread k).pc) := by
  rw [perThread_trap h hn hb]; simp

/-- A trap whose return address is behind the instruction. -/
theorem perThread_trap_behind (h : s.executes k g kind sp regs) (hn : (s.thread k).spec.mode = .normal) {c sub : Nat}
    {v : Word} (hb : body k s = .trap c sub v true) :
    perThread s i g regs kind sp body = .next (s.takeTrap k c sub v (nextPc (s.thread k).pc)) := by
  rw [perThread_trap h hn hb]; simp

/-- A trap at the instruction after a change of state that stays. -/
theorem perThread_failed (h : s.executes k g kind sp regs) (hn : (s'.thread k).spec.mode = .normal) {c sub : Nat}
    {v : Word} (hb : body k s = .failed s' c sub v) :
    perThread s i g regs kind sp body = .next (s'.takeTrap k c sub v (s.thread k).pc) := by
  rw [issue_one h _ hb (by simp)]
  simp [State.applyRes, State.splitBundle_nil, State.raise, hn]

/-- An instruction that a thread holds performed under no speculation: it is not in speculation state S. -/
theorem State.executes.settled (h : s.executes k g kind .holds regs) : (s.thread k).spec.mode ≠ .speculating := h.2.2.2.2.2.2 rfl

/-- An instruction of the SIMT cores alone runs on no latency core. -/
theorem State.executes.onSimt (h : s.executes k g simtOnly sp regs) : isLat k = false := by
  have := h.2.2.1
  cases e : isLat k <;> simp_all [simtOnly]

/-- A thread whose guard is false only goes on. -/
theorem perThread_off (h1 : s.issuing = [k]) (hg : (s.thread k).guard g = false) :
    perThread s i g regs kind sp body = .next (s.advance k) := by
  simp only [perThread, State.issue, h1, runThreads, State.threadPart_skip hg]
  simp [State.applyRes, State.splitBundle_one, State.advance, State.goTo]

end one

/-! ### One crew, or one latency thread -/

section crew
variable {body : List Nat → State → Res}

theorem groups_one (k : Nat) : groups [k] = [[k]] := rfl

theorem issueCrews_one (h : s.executes k g kind sp regs) :
    s.issueCrews i g regs kind sp body = match runGroups (crewPart i body) [[k]] s [] with
      | none => s
      | some (s2, kept2) => s2.splitBundle kept2 := by
  obtain ⟨h1, h2, h3⟩ := h
  simp only [State.issueCrews, h1, runThreads, State.guardedPart_run (chk := none) h2 h3 rfl, State.applyRes, List.filter, h2,
    State.fit_none h3, h3.unheld, Option.isNone_none, Bool.not_false, Bool.and_true]
  rw [groups_one]
  simp only [runCrews]
  cases e : runGroups (crewPart i body) [[k]] s [] with
  | some r => simp
  | none =>
    have hw : (crewPart i body [k] s).waits = true := by
      simp only [runGroups] at e
      split at e <;> simp_all [Res.waits]
    simp [hw]

theorem crewPart_run (h : s.executes k g kind sp regs) : crewPart i body [k] s = body [k] s := by
  simp [crewPart, State.badRead_none h.2.2]

theorem perCrew_next (h : s.executes k g kind sp regs) (hb : body [k] s = .go s' .next) :
    perCrew s i g regs kind sp body = .next (s'.advance k) := by
  simp [perCrew, issueCrews_one h, runGroups, crewPart_run h, hb, State.applyGroup, State.applyRes, State.splitBundle_one, State.advance, State.goTo]

theorem perCrew_stay (h : s.executes k g kind sp regs) (hb : body [k] s = .go s' .stay) :
    perCrew s i g regs kind sp body = .next s' := by
  simp [perCrew, issueCrews_one h, runGroups, crewPart_run h, hb, State.applyGroup, State.applyRes, State.splitBundle_one]

theorem perCrew_hold (h : s.executes k g kind sp regs) (hb : body [k] s = .go s' .hold) :
    perCrew s i g regs kind sp body = .next (s'.leaveBundle k) := by
  simp [perCrew, issueCrews_one h, runGroups, crewPart_run h, hb, State.applyGroup, State.applyRes, State.splitBundle_nil]

theorem perCrew_wait (h : s.executes k g kind sp regs) (hb : body [k] s = .wait) :
    perCrew s i g regs kind sp body = .next s := by
  simp [perCrew, issueCrews_one h, runGroups, crewPart_run h, hb]

theorem perCrew_trap (h : s.executes k g kind sp regs) (hn : (s.thread k).spec.mode = .normal) {c sub : Nat} {v : Word}
    {after : Bool} (hb : body [k] s = .trap c sub v after) :
    perCrew s i g regs kind sp body
      = .next (s.takeTrap k c sub v (if after then nextPc (s.thread k).pc else (s.thread k).pc)) := by
  simp [perCrew, issueCrews_one h, runGroups, crewPart_run h, hb, State.applyGroup, State.applyRes, State.splitBundle_nil, State.raise, hn]

theorem perCrew_trap_at (h : s.executes k g kind sp regs) (hn : (s.thread k).spec.mode = .normal) {c sub : Nat} {v : Word}
    (hb : body [k] s = .trap c sub v false) :
    perCrew s i g regs kind sp body = .next (s.takeTrap k c sub v (s.thread k).pc) := by
  rw [perCrew_trap h hn hb]; simp

end crew

end Sys2Proof.Machine
end

