-- ==== Sys2Proof/Laws/Bundle.lean ====
section
/-!
SUPPORT. A bundle all of whose executing threads go on: the lanes one after another. An effect on a thread's registers,
predicates and flags leaves the checks of the other threads as they were.
-/
namespace Sys2Proof.Machine

/-- What the checks of R249 read is the same. -/
def SameChecks (s s' : State) : Prop :=
  s'.crews = s.crews ∧ ∀ j, (s'.threads.find j).isSome = (s.threads.find j).isSome
    ∧ (s'.thread j).regcnt = (s.thread j).regcnt ∧ (s'.thread j).trap.sup = (s.thread j).trap.sup
    ∧ (s'.thread j).spec.mode = (s.thread j).spec.mode
    ∧ ∀ m, (s.thread j).parity &&& m = 0 → (s'.thread j).parity &&& m = 0

theorem SameChecks.refl (s : State) : SameChecks s s := ⟨rfl, fun _ => ⟨rfl, rfl, rfl, rfl, fun _ h => h⟩⟩

theorem SameChecks.trans {s s' s'' : State} (h : SameChecks s s') (h' : SameChecks s' s'') : SameChecks s s'' :=
  ⟨h'.1.trans h.1, fun j =>
    ⟨(h'.2 j).1.trans (h.2 j).1, (h'.2 j).2.1.trans (h.2 j).2.1, (h'.2 j).2.2.1.trans (h.2 j).2.2.1,
      (h'.2 j).2.2.2.1.trans (h.2 j).2.2.2.1, fun m hm => (h'.2 j).2.2.2.2 m ((h.2 j).2.2.2.2 m hm)⟩⟩

theorem SameChecks.physReg {s s' : State} (h : SameChecks s s') (k n : Nat) : s'.physReg k n = s.physReg k n := by
  simp only [State.physReg, State.crewAt, h.1, (h.2 _).1]

theorem SameChecks.regBad {s s' : State} (h : SameChecks s s') (k r : Nat) : s'.regBad k r = s.regBad k r := by
  simp only [State.regBad, h.physReg, (h.2 _).2.1]

theorem SameChecks.parityBad {s s' : State} (h : SameChecks s s') {k r : Nat} (hr : s.parityBad k r = false) :
    s'.parityBad k r = false := by
  simp only [State.parityBad, h.physReg, Bool.and_eq_false_iff, bne_eq_false_iff_eq] at hr ⊢
  exact hr.imp id fun e => (h.2 _).2.2.2.2 _ e

theorem SameChecks.passes {s s' : State} (h : SameChecks s s') {k : Nat} {kind : Kind} {sp : SpecRule} {regs : List Nat}
    (hp : s.passes k kind sp regs) : s'.passes k kind sp regs := by
  obtain ⟨h1, h2, h3, h5, h4⟩ := hp
  refine ⟨h1, fun h0 => ?_, fun r hr => ?_, fun n hn => h.parityBad (h5 n hn), fun h0 => ?_⟩
  · rw [(h.2 k).2.2.1]; exact h2 h0
  · rw [h.regBad]; exact h3 r hr
  · rw [(h.2 k).2.2.2.1]; exact h4 h0

theorem find_isSome_modThread {s : State} {k : Nat} {f : Thread → Thread} (hk : (s.threads.find k).isSome = true) (j : Nat) :
    ((s.modThread k f).threads.find j).isSome = (s.threads.find j).isSome := by
  by_cases e : j = k
  · subst e; simp [State.modThread, State.setThread, AMap.find_set_self, hk]
  · simp [State.modThread, State.setThread, AMap.find_set_ne _ _ _ e]

/-- A thread as the checks see it, before and after. -/
def Thread.SameChecks (t t' : Thread) : Prop :=
  t'.regcnt = t.regcnt ∧ t'.trap.sup = t.trap.sup ∧ t'.spec.mode = t.spec.mode
  ∧ ∀ m, t.parity &&& m = 0 → t'.parity &&& m = 0

theorem sameChecks_modThread {s : State} {k : Nat} {f : Thread → Thread} (hk : (s.threads.find k).isSome = true)
    (hf : ∀ t : Thread, t.SameChecks (f t)) : SameChecks s (s.modThread k f) := by
  refine ⟨rfl, fun j => ⟨find_isSome_modThread hk j, ?_⟩⟩
  by_cases e : j = k
  · subst e; rw [State.modThread_get_self]; exact hf _
  · rw [State.modThread_get_ne _ _ _ e]; exact ⟨rfl, rfl, rfl, fun _ h => h⟩

theorem setReg_same (t : Thread) (n : Nat) (v : Word) : t.SameChecks (t.setReg n v) := by
  unfold Thread.setReg
  split
  · split
    · exact ⟨rfl, rfl, rfl, fun _ h => h⟩
    · refine ⟨rfl, rfl, rfl, fun m h => ?_⟩
      show t.parity &&& ~~~regMask n &&& m = 0
      rw [BitVec.and_assoc, BitVec.and_comm (~~~regMask n), ← BitVec.and_assoc, h]; exact BitVec.zero_and
  · exact ⟨rfl, rfl, rfl, fun _ h => h⟩

/-- A register number always names a register of a thread that is there. -/
theorem physReg_present {s : State} {k : Nat} (hk : (s.threads.find k).isSome = true) (n : Nat) :
    (s.threads.find (s.physReg k n).1).isSome = true := by
  unfold State.physReg
  split
  · exact hk
  · split
    · exact hk
    · dsimp only
      split
      · assumption
      · exact hk

theorem sameChecks_writeReg {s : State} {k : Nat} (hk : (s.threads.find k).isSome = true) (r : Reg) (v : Word) :
    SameChecks s (s.writeReg k r v) := by
  unfold State.writeReg
  split
  · exact SameChecks.refl s
  · exact sameChecks_modThread (physReg_present hk _) fun t => setReg_same t _ v

theorem sameChecks_raiseFlags {s : State} {k : Nat} (hk : (s.threads.find k).isSome = true) (f : BitVec 6) :
    SameChecks s (s.raiseFlags k f) := sameChecks_modThread hk fun _ => ⟨rfl, rfl, rfl, fun _ h => h⟩

theorem sameChecks_goTo {s : State} {k : Nat} (hk : (s.threads.find k).isSome = true) (pc : Word) :
    SameChecks s (s.goTo k pc) := sameChecks_modThread hk fun _ => ⟨rfl, rfl, rfl, fun _ h => h⟩

theorem SameChecks.present {s s' : State} (h : SameChecks s s') {k : Nat} (hk : (s.threads.find k).isSome = true) :
    (s'.threads.find k).isSome = true := by rw [(h.2 k).1]; exact hk

/-- An effect on thread `k`: it leaves the checks, and the predicates of the other threads. -/
def LaneEffect (k : Nat) (s s' : State) : Prop :=
  SameChecks s s' ∧ ∀ j, j ≠ k → (s'.thread j).preds = (s.thread j).preds

theorem LaneEffect.refl (k : Nat) (s : State) : LaneEffect k s s := ⟨SameChecks.refl s, fun _ _ => rfl⟩

theorem LaneEffect.trans {k : Nat} {s s' s'' : State} (h : LaneEffect k s s') (h' : LaneEffect k s' s'') :
    LaneEffect k s s'' := ⟨h.1.trans h'.1, fun j hj => (h'.2 j hj).trans (h.2 j hj)⟩

theorem LaneEffect.present {k : Nat} {s s' : State} (h : LaneEffect k s s') {j : Nat}
    (hj : (s.threads.find j).isSome = true) : (s'.threads.find j).isSome = true := h.1.present hj

theorem laneEffect_modThread {s : State} {k : Nat} {f : Thread → Thread} (hk : (s.threads.find k).isSome = true)
    (hf : ∀ t : Thread, t.SameChecks (f t)) :
    LaneEffect k s (s.modThread k f) :=
  ⟨sameChecks_modThread hk hf, fun j hj => by rw [State.modThread_get_ne _ _ _ hj]⟩

theorem setReg_preds (t : Thread) (n : Nat) (v : Word) : (t.setReg n v).preds = t.preds := by
  unfold Thread.setReg; split <;> (try split) <;> simp

theorem laneEffect_writeReg {s : State} {k : Nat} (hk : (s.threads.find k).isSome = true) (r : Reg) (v : Word) :
    LaneEffect k s (s.writeReg k r v) := by
  refine ⟨sameChecks_writeReg hk r v, fun j _ => ?_⟩
  unfold State.writeReg
  split
  · rfl
  · dsimp only
    by_cases e : j = (s.physReg k r.toNat).1
    · rw [e, State.modThread_get_self, setReg_preds]
    · rw [State.modThread_get_ne _ _ _ e]

theorem laneEffect_raiseFlags {s : State} {k : Nat} (hk : (s.threads.find k).isSome = true) (f : BitVec 6) :
    LaneEffect k s (s.raiseFlags k f) := laneEffect_modThread hk fun _ => ⟨rfl, rfl, rfl, fun _ h => h⟩

theorem laneEffect_goTo {s : State} {k : Nat} (hk : (s.threads.find k).isSome = true) (pc : Word) :
    LaneEffect k s (s.goTo k pc) := laneEffect_modThread hk fun _ => ⟨rfl, rfl, rfl, fun _ h => h⟩

theorem setPred_same (t : Thread) (p : Pred) (v : Bool) : t.SameChecks (t.setPred p v) := by
  unfold Thread.setPred; split <;> exact ⟨rfl, rfl, rfl, fun _ h => h⟩

theorem laneEffect_setPred {s : State} {k : Nat} (hk : (s.threads.find k).isSome = true) (p : Pred) (v : Bool) :
    LaneEffect k s (s.modThread k fun t => t.setPred p v) := laneEffect_modThread hk fun t => setPred_same t p v

section bundle
variable {g : Guard} {kind : Kind} {sp : SpecRule} {regs : List Nat} {body : Nat → State → Res} {eff : Nat → State → State}

/-- One lane's part. -/
def laneStep (g : Guard) (eff : Nat → State → State) (s : State) (k : Nat) : State :=
  (if (s.thread k).guard g then eff k s else s).goTo k (nextPc (s.thread k).pc)

theorem guard_of_preds {t t' : Thread} (h : t'.preds = t.preds) (g : Guard) : t'.guard g = t.guard g := by
  simp [Thread.guard, Thread.pred, h]

theorem laneEffect_laneStep (he : ∀ k s, (s.threads.find k).isSome = true → LaneEffect k s (eff k s)) {s : State} {k : Nat}
    (hk : (s.threads.find k).isSome = true) : LaneEffect k s (laneStep g eff s k) := by
  unfold laneStep
  split
  · exact (he k s hk).trans (laneEffect_goTo ((he k s hk).present hk) _)
  · exact laneEffect_goTo hk _

theorem runThreads_lanes {s0 : State} {i : Instr}
    (hb : ∀ k s, (s.threads.find k).isSome = true → body k s = .go (eff k s) .next)
    (he : ∀ k s, (s.threads.find k).isSome = true → LaneEffect k s (eff k s)) :
    ∀ (ks : List Nat) (s : State) (kept : List Nat), SameChecks s0 s → ks.Nodup →
      (∀ k ∈ ks, (s0.threads.find k).isSome = true ∧ ((s0.thread k).guard g = true → s0.passes k kind sp regs)) →
      (∀ k ∈ ks, (s.thread k).preds = (s0.thread k).preds) →
      runThreads (fun s k => s.threadPart k g i kind regs sp body) ks s kept
        = some (ks.foldl (laneStep g eff) s, kept ++ ks) := by
  intro ks
  induction ks with
  | nil => intro s kept _ _ _ _; simp [runThreads]
  | cons k ks ih =>
    intro s kept hs hn hk hg
    have hp := hs.present (hk k (by simp)).1
    have hgk := guard_of_preds (hg k (by simp)) g
    have h2 := laneEffect_laneStep (g := g) he hp
    have hrest : ∀ j ∈ ks, ((laneStep g eff s k).thread j).preds = (s0.thread j).preds := by
      intro j hj
      have : j ≠ k := by rintro rfl; exact (List.nodup_cons.mp hn).1 hj
      rw [h2.2 j this]; exact hg j (by simp [hj])
    have go := ih (laneStep g eff s k) (kept ++ [k]) (hs.trans h2.1) (List.nodup_cons.mp hn).2
      (fun j hj => hk j (by simp [hj])) hrest
    by_cases e : (s.thread k).guard g = true
    · have h1 : s.threadPart k g i kind regs sp body = .go (eff k s) .next := by
        rw [State.threadPart_run e (hs.passes ((hk k (by simp)).2 (hgk ▸ e)))]; exact hb k s hp
      have h3 : (eff k s).goTo k (nextPc (s.thread k).pc) = laneStep g eff s k := by
        simp [laneStep, e]
      simp only [runThreads, h1, State.applyRes, if_true, List.foldl_cons, h3, go, List.append_assoc, List.singleton_append]
    · have e' : (s.thread k).guard g = false := by simpa using e
      have h3 : s.goTo k (nextPc (s.thread k).pc) = laneStep g eff s k := by
        simp [laneStep, e']
      simp only [runThreads, State.threadPart_skip e', State.applyRes, if_true, List.foldl_cons, h3, go,
        List.append_assoc, List.singleton_append]

/-- A bundle whose executing threads all pass the checks of an instruction that acts on each thread's own registers. -/
theorem perThread_lanes {s : State} {i : Instr} (h : s.admits g kind sp regs)
    (hb : ∀ k s, (s.threads.find k).isSome = true → body k s = .go (eff k s) .next)
    (he : ∀ k s, (s.threads.find k).isSome = true → LaneEffect k s (eff k s)) :
    perThread s i g regs kind sp body = .next (s.laneByLane g eff) := by
  simp only [perThread, State.issue,
    runThreads_lanes hb he s.issuing s [] (SameChecks.refl s) h.1 h.2 (fun _ _ => rfl), List.nil_append]
  rfl

end bundle

end Sys2Proof.Machine
end

