-- ==== Sys2Proof/Laws/Encode.lean ====
section
/-!
SUPPORT. What each field of a word reads in a word built by the encoder, format by format (09 R247, R250), and that every code
of an enumerated field is read back.
-/
namespace Sys2Proof

theorem bit_toNat (b : Bool) : (bit b).toNat = if b then 1 else 0 := by cases b <;> rfl

@[simp] theorem bit_beq_one (b : Bool) : (bit b == 1#1) = b := by cases b <;> rfl

@[simp] theorem bit_eq_one (b : Bool) : (bit b = 1#1) = (b = true) := by cases b <;> simp [bit]

theorem append_toNat {v w : Nat} (x : BitVec v) (y : BitVec w) : (x ++ y).toNat = x.toNat * 2 ^ w + y.toNat := by
  rw [BitVec.toNat_append, Nat.shiftLeft_eq, ← Nat.shiftLeft_eq, Nat.shiftLeft_add_eq_or_of_lt y.isLt]

/-- A field of bits read as a number. -/
theorem field_toNat {w : Nat} (x : BitVec w) (start len : Nat) :
    (x.extractLsb' start len).toNat = x.toNat / 2 ^ start % 2 ^ len := by
  rw [BitVec.extractLsb'_toNat, Nat.shiftRight_eq_div_pow]

theorem guard_eq {g h : Guard} (h1 : g.p.toNat = h.p.toNat) (h2 : g.neg = h.neg) : g = h := by
  cases g; cases h; simp only [Guard.mk.injEq]; exact ⟨BitVec.eq_of_toNat_eq h1, h2⟩

section
variable (op : BitVec 8) (g : Guard) (d a b c : BitVec 6) (low : BitVec 34) (fn : BitVec 8) (rm ty : BitVec 4) (m : BitVec 12)
  (imm : BitVec 32) (hint : BitVec 2) (sz o sc : BitVec 3) (sx : BitVec 1) (off : BitVec 24) (ring : BitVec 2)
  (flags : BitVec 6) (fid : BitVec 4) (imm16 : BitVec 16) (sys : BitVec 12)

/-! ### The part that every format has -/

theorem wPre_toNat : (wPre op g d a b low).toNat = op.toNat * 2 ^ 56 + g.p.toNat * 2 ^ 53 + (if g.neg then 2 ^ 52 else 0)
    + d.toNat * 2 ^ 46 + a.toNat * 2 ^ 40 + b.toNat * 2 ^ 34 + low.toNat := by
  show (op ++ g.p ++ bit g.neg ++ d ++ a ++ b ++ low).toNat = _
  rw [append_toNat, append_toNat, append_toNat, append_toNat, append_toNat, append_toNat, bit_toNat]
  split <;> omega

@[simp] theorem fOp_wPre : fOp (wPre op g d a b low) = op := by
  apply BitVec.eq_of_toNat_eq
  have h1 := op.isLt; have h2 := g.p.isLt; have h3 := d.isLt; have h4 := a.isLt; have h5 := b.isLt; have h6 := low.isLt
  rw [fOp, field_toNat, wPre_toNat]
  split <;> omega

@[simp] theorem fD_wPre : fD (wPre op g d a b low) = d := by
  apply BitVec.eq_of_toNat_eq
  have h1 := op.isLt; have h2 := g.p.isLt; have h3 := d.isLt; have h4 := a.isLt; have h5 := b.isLt; have h6 := low.isLt
  rw [fD, field_toNat, wPre_toNat]
  split <;> omega

@[simp] theorem fA_wPre : fA (wPre op g d a b low) = a := by
  apply BitVec.eq_of_toNat_eq
  have h1 := op.isLt; have h2 := g.p.isLt; have h3 := d.isLt; have h4 := a.isLt; have h5 := b.isLt; have h6 := low.isLt
  rw [fA, field_toNat, wPre_toNat]
  split <;> omega

@[simp] theorem fB_wPre : fB (wPre op g d a b low) = b := by
  apply BitVec.eq_of_toNat_eq
  have h1 := op.isLt; have h2 := g.p.isLt; have h3 := d.isLt; have h4 := a.isLt; have h5 := b.isLt; have h6 := low.isLt
  rw [fB, field_toNat, wPre_toNat]
  split <;> omega

@[simp] theorem fGuard_wPre : fGuard (wPre op g d a b low) = g := by
  have h1 := op.isLt; have h2 := g.p.isLt; have h3 := d.isLt; have h4 := a.isLt; have h5 := b.isLt; have h6 := low.isLt
  refine guard_eq ?_ ?_
  · simp only [fGuard, field_toNat, wPre_toNat]
    split <;> omega
  · have e : ((wPre op g d a b low).extractLsb' 52 1).toNat = if g.neg then 1 else 0 := by
      rw [field_toNat, wPre_toNat]
      split <;> omega
    show ((wPre op g d a b low).extractLsb' 52 1 == 1) = g.neg
    rw [Bool.eq_iff_iff, beq_iff_eq, BitVec.toNat_eq, e]
    cases g.neg <;> decide

/-- The low 34 bits are the format's own. -/
theorem low_wPre (start len : Nat) (h : start + len ≤ 34) :
    (wPre op g d a b low).extractLsb' start len = low.extractLsb' start len := by
  apply BitVec.eq_of_toNat_eq
  rw [field_toNat, field_toNat, wPre_toNat]
  have e : 2 ^ 34 = 2 ^ start * (2 ^ len * 2 ^ (34 - start - len)) := by
    rw [← pow_add, ← pow_add]; congr 1; omega
  have : ∀ x : Nat, (x * 2 ^ 34 + low.toNat) / 2 ^ start % 2 ^ len = low.toNat / 2 ^ start % 2 ^ len := by
    intro x
    rw [e, show x * (2 ^ start * (2 ^ len * 2 ^ (34 - start - len))) = 2 ^ start * (2 ^ len * (x * 2 ^ (34 - start - len))) by ring,
      Nat.mul_add_div (by positivity), Nat.mul_add_mod]
  have e2 : ∃ x, op.toNat * 2 ^ 56 + g.p.toNat * 2 ^ 53 + (if g.neg then 2 ^ 52 else 0)
    + d.toNat * 2 ^ 46 + a.toNat * 2 ^ 40 + b.toNat * 2 ^ 34 + low.toNat = x * 2 ^ 34 + low.toNat :=
    ⟨op.toNat * 2 ^ 22 + g.p.toNat * 2 ^ 19 + (if g.neg then 2 ^ 18 else 0) + d.toNat * 2 ^ 12 + a.toNat * 2 ^ 6 + b.toNat,
      by split <;> omega⟩
  obtain ⟨x, e2⟩ := e2
  rw [e2, this x]

/-! ### Format R -/

theorem wR_low : (c ++ fn ++ rm ++ ty ++ m : BitVec 34).toNat = c.toNat * 2 ^ 28 + fn.toNat * 2 ^ 20 + rm.toNat * 2 ^ 16 + ty.toNat * 2 ^ 12 + m.toNat := by
  show (c ++ fn ++ rm ++ ty ++ m).toNat = _
  rw [append_toNat, append_toNat, append_toNat, append_toNat]
  omega

@[simp] theorem fOp_wR : fOp (wR op g d a b c fn rm ty m) = op := fOp_wPre _ _ _ _ _ _
@[simp] theorem fGuard_wR : fGuard (wR op g d a b c fn rm ty m) = g := fGuard_wPre _ _ _ _ _ _
@[simp] theorem fD_wR : fD (wR op g d a b c fn rm ty m) = d := fD_wPre _ _ _ _ _ _
@[simp] theorem fA_wR : fA (wR op g d a b c fn rm ty m) = a := fA_wPre _ _ _ _ _ _
@[simp] theorem fB_wR : fB (wR op g d a b c fn rm ty m) = b := fB_wPre _ _ _ _ _ _
@[simp] theorem fC_wR : fC (wR op g d a b c fn rm ty m) = c := by
  apply BitVec.eq_of_toNat_eq
  have h_c := c.isLt; have h_fn := fn.isLt; have h_rm := rm.isLt; have h_ty := ty.isLt; have h_m := m.isLt
  rw [fC, wR, low_wPre _ _ _ _ _ _ _ _ (by omega), field_toNat, wR_low]
  omega
@[simp] theorem fFn_wR : fFn (wR op g d a b c fn rm ty m) = fn := by
  apply BitVec.eq_of_toNat_eq
  have h_c := c.isLt; have h_fn := fn.isLt; have h_rm := rm.isLt; have h_ty := ty.isLt; have h_m := m.isLt
  rw [fFn, wR, low_wPre _ _ _ _ _ _ _ _ (by omega), field_toNat, wR_low]
  omega
@[simp] theorem fRm_wR : fRm (wR op g d a b c fn rm ty m) = rm := by
  apply BitVec.eq_of_toNat_eq
  have h_c := c.isLt; have h_fn := fn.isLt; have h_rm := rm.isLt; have h_ty := ty.isLt; have h_m := m.isLt
  rw [fRm, wR, low_wPre _ _ _ _ _ _ _ _ (by omega), field_toNat, wR_low]
  omega
@[simp] theorem fTy_wR : fTy (wR op g d a b c fn rm ty m) = ty := by
  apply BitVec.eq_of_toNat_eq
  have h_c := c.isLt; have h_fn := fn.isLt; have h_rm := rm.isLt; have h_ty := ty.isLt; have h_m := m.isLt
  rw [fTy, wR, low_wPre _ _ _ _ _ _ _ _ (by omega), field_toNat, wR_low]
  omega
@[simp] theorem fMod_wR : fMod (wR op g d a b c fn rm ty m) = m := by
  apply BitVec.eq_of_toNat_eq
  have h_c := c.isLt; have h_fn := fn.isLt; have h_rm := rm.isLt; have h_ty := ty.isLt; have h_m := m.isLt
  rw [fMod, wR, low_wPre _ _ _ _ _ _ _ _ (by omega), field_toNat, wR_low]
  omega

/-! ### Format I -/

theorem wI_low : ((0 : BitVec 2) ++ imm : BitVec 34).toNat = imm.toNat := by
  show ((0 : BitVec 2) ++ imm).toNat = _
  rw [append_toNat]
  simp only [BitVec.ofNat_eq_ofNat, BitVec.toNat_zero]; omega

@[simp] theorem fOp_wI : fOp (wI op g d a b imm) = op := fOp_wPre _ _ _ _ _ _
@[simp] theorem fGuard_wI : fGuard (wI op g d a b imm) = g := fGuard_wPre _ _ _ _ _ _
@[simp] theorem fD_wI : fD (wI op g d a b imm) = d := fD_wPre _ _ _ _ _ _
@[simp] theorem fA_wI : fA (wI op g d a b imm) = a := fA_wPre _ _ _ _ _ _
@[simp] theorem fB_wI : fB (wI op g d a b imm) = b := fB_wPre _ _ _ _ _ _
@[simp] theorem fTop2_wI : fTop2 (wI op g d a b imm) = 0 := by
  apply BitVec.eq_of_toNat_eq
  have h_imm := imm.isLt
  rw [fTop2, wI, low_wPre _ _ _ _ _ _ _ _ (by omega), field_toNat, wI_low]
  simp only [BitVec.ofNat_eq_ofNat, BitVec.toNat_zero]; omega
@[simp] theorem fImm_wI : fImm (wI op g d a b imm) = imm := by
  apply BitVec.eq_of_toNat_eq
  have h_imm := imm.isLt
  rw [fImm, wI, low_wPre _ _ _ _ _ _ _ _ (by omega), field_toNat, wI_low]
  omega

/-! ### Format B -/

theorem wB_low : (hint ++ imm : BitVec 34).toNat = hint.toNat * 2 ^ 32 + imm.toNat := by
  show (hint ++ imm).toNat = _
  rw [append_toNat]
  

@[simp] theorem fOp_wB : fOp (wB op g d hint imm) = op := fOp_wPre _ _ _ _ _ _
@[simp] theorem fGuard_wB : fGuard (wB op g d hint imm) = g := fGuard_wPre _ _ _ _ _ _
@[simp] theorem fD_wB : fD (wB op g d hint imm) = d := fD_wPre _ _ _ _ _ _
@[simp] theorem fA_wB : fA (wB op g d hint imm) = 0 := fA_wPre _ _ _ _ _ _
@[simp] theorem fB_wB : fB (wB op g d hint imm) = 0 := fB_wPre _ _ _ _ _ _
@[simp] theorem fTop2_wB : fTop2 (wB op g d hint imm) = hint := by
  apply BitVec.eq_of_toNat_eq
  have h_hint := hint.isLt; have h_imm := imm.isLt
  rw [fTop2, wB, low_wPre _ _ _ _ _ _ _ _ (by omega), field_toNat, wB_low]
  omega
@[simp] theorem fImm_wB : fImm (wB op g d hint imm) = imm := by
  apply BitVec.eq_of_toNat_eq
  have h_hint := hint.isLt; have h_imm := imm.isLt
  rw [fImm, wB, low_wPre _ _ _ _ _ _ _ _ (by omega), field_toNat, wB_low]
  omega

/-! ### Format M -/

theorem wM_low : (sz ++ sx ++ o ++ sc ++ off : BitVec 34).toNat = sz.toNat * 2 ^ 31 + sx.toNat * 2 ^ 30 + o.toNat * 2 ^ 27 + sc.toNat * 2 ^ 24 + off.toNat := by
  show (sz ++ sx ++ o ++ sc ++ off).toNat = _
  rw [append_toNat, append_toNat, append_toNat, append_toNat]
  omega

@[simp] theorem fOp_wM : fOp (wM op g d a sz sx o sc off) = op := fOp_wPre _ _ _ _ _ _
@[simp] theorem fGuard_wM : fGuard (wM op g d a sz sx o sc off) = g := fGuard_wPre _ _ _ _ _ _
@[simp] theorem fD_wM : fD (wM op g d a sz sx o sc off) = d := fD_wPre _ _ _ _ _ _
@[simp] theorem fA_wM : fA (wM op g d a sz sx o sc off) = a := fA_wPre _ _ _ _ _ _
@[simp] theorem fB_wM : fB (wM op g d a sz sx o sc off) = 0 := fB_wPre _ _ _ _ _ _
@[simp] theorem fSz_wM : fSz (wM op g d a sz sx o sc off) = sz := by
  apply BitVec.eq_of_toNat_eq
  have h_sz := sz.isLt; have h_sx := sx.isLt; have h_o := o.isLt; have h_sc := sc.isLt; have h_off := off.isLt
  rw [fSz, wM, low_wPre _ _ _ _ _ _ _ _ (by omega), field_toNat, wM_low]
  omega
@[simp] theorem fSx_wM : fSx (wM op g d a sz sx o sc off) = sx := by
  apply BitVec.eq_of_toNat_eq
  have h_sz := sz.isLt; have h_sx := sx.isLt; have h_o := o.isLt; have h_sc := sc.isLt; have h_off := off.isLt
  rw [fSx, wM, low_wPre _ _ _ _ _ _ _ _ (by omega), field_toNat, wM_low]
  omega
@[simp] theorem fOrd_wM : fOrd (wM op g d a sz sx o sc off) = o := by
  apply BitVec.eq_of_toNat_eq
  have h_sz := sz.isLt; have h_sx := sx.isLt; have h_o := o.isLt; have h_sc := sc.isLt; have h_off := off.isLt
  rw [fOrd, wM, low_wPre _ _ _ _ _ _ _ _ (by omega), field_toNat, wM_low]
  omega
@[simp] theorem fSc_wM : fSc (wM op g d a sz sx o sc off) = sc := by
  apply BitVec.eq_of_toNat_eq
  have h_sz := sz.isLt; have h_sx := sx.isLt; have h_o := o.isLt; have h_sc := sc.isLt; have h_off := off.isLt
  rw [fSc, wM, low_wPre _ _ _ _ _ _ _ _ (by omega), field_toNat, wM_low]
  omega
@[simp] theorem fOff_wM : fOff (wM op g d a sz sx o sc off) = off := by
  apply BitVec.eq_of_toNat_eq
  have h_sz := sz.isLt; have h_sx := sx.isLt; have h_o := o.isLt; have h_sc := sc.isLt; have h_off := off.isLt
  rw [fOff, wM, low_wPre _ _ _ _ _ _ _ _ (by omega), field_toNat, wM_low]
  omega

/-! ### Format A -/

theorem wA_low : (c ++ fn ++ sz ++ o ++ sc ++ (0 : BitVec 11) : BitVec 34).toNat = c.toNat * 2 ^ 28 + fn.toNat * 2 ^ 20 + sz.toNat * 2 ^ 17 + o.toNat * 2 ^ 14 + sc.toNat * 2 ^ 11 := by
  show (c ++ fn ++ sz ++ o ++ sc ++ (0 : BitVec 11)).toNat = _
  rw [append_toNat, append_toNat, append_toNat, append_toNat, append_toNat]
  simp only [BitVec.ofNat_eq_ofNat, BitVec.toNat_zero]; omega

@[simp] theorem fOp_wA : fOp (wA op g d a b c fn sz o sc) = op := fOp_wPre _ _ _ _ _ _
@[simp] theorem fGuard_wA : fGuard (wA op g d a b c fn sz o sc) = g := fGuard_wPre _ _ _ _ _ _
@[simp] theorem fD_wA : fD (wA op g d a b c fn sz o sc) = d := fD_wPre _ _ _ _ _ _
@[simp] theorem fA_wA : fA (wA op g d a b c fn sz o sc) = a := fA_wPre _ _ _ _ _ _
@[simp] theorem fB_wA : fB (wA op g d a b c fn sz o sc) = b := fB_wPre _ _ _ _ _ _
@[simp] theorem fC_wA : fC (wA op g d a b c fn sz o sc) = c := by
  apply BitVec.eq_of_toNat_eq
  have h_c := c.isLt; have h_fn := fn.isLt; have h_sz := sz.isLt; have h_o := o.isLt; have h_sc := sc.isLt
  rw [fC, wA, low_wPre _ _ _ _ _ _ _ _ (by omega), field_toNat, wA_low]
  omega
@[simp] theorem fFn_wA : fFn (wA op g d a b c fn sz o sc) = fn := by
  apply BitVec.eq_of_toNat_eq
  have h_c := c.isLt; have h_fn := fn.isLt; have h_sz := sz.isLt; have h_o := o.isLt; have h_sc := sc.isLt
  rw [fFn, wA, low_wPre _ _ _ _ _ _ _ _ (by omega), field_toNat, wA_low]
  omega
@[simp] theorem fASz_wA : fASz (wA op g d a b c fn sz o sc) = sz := by
  apply BitVec.eq_of_toNat_eq
  have h_c := c.isLt; have h_fn := fn.isLt; have h_sz := sz.isLt; have h_o := o.isLt; have h_sc := sc.isLt
  rw [fASz, wA, low_wPre _ _ _ _ _ _ _ _ (by omega), field_toNat, wA_low]
  omega
@[simp] theorem fAOrd_wA : fAOrd (wA op g d a b c fn sz o sc) = o := by
  apply BitVec.eq_of_toNat_eq
  have h_c := c.isLt; have h_fn := fn.isLt; have h_sz := sz.isLt; have h_o := o.isLt; have h_sc := sc.isLt
  rw [fAOrd, wA, low_wPre _ _ _ _ _ _ _ _ (by omega), field_toNat, wA_low]
  omega
@[simp] theorem fASc_wA : fASc (wA op g d a b c fn sz o sc) = sc := by
  apply BitVec.eq_of_toNat_eq
  have h_c := c.isLt; have h_fn := fn.isLt; have h_sz := sz.isLt; have h_o := o.isLt; have h_sc := sc.isLt
  rw [fASc, wA, low_wPre _ _ _ _ _ _ _ _ (by omega), field_toNat, wA_low]
  omega
@[simp] theorem fALow_wA : fALow (wA op g d a b c fn sz o sc) = 0 := by
  apply BitVec.eq_of_toNat_eq
  have h_c := c.isLt; have h_fn := fn.isLt; have h_sz := sz.isLt; have h_o := o.isLt; have h_sc := sc.isLt
  rw [fALow, wA, low_wPre _ _ _ _ _ _ _ _ (by omega), field_toNat, wA_low]
  simp only [BitVec.ofNat_eq_ofNat, BitVec.toNat_zero]; omega

/-! ### Format X -/

theorem wX_low : ((0 : BitVec 6) ++ ring ++ flags ++ fid ++ imm16 : BitVec 34).toNat = ring.toNat * 2 ^ 26 + flags.toNat * 2 ^ 20 + fid.toNat * 2 ^ 16 + imm16.toNat := by
  show ((0 : BitVec 6) ++ ring ++ flags ++ fid ++ imm16).toNat = _
  rw [append_toNat, append_toNat, append_toNat, append_toNat]
  simp only [BitVec.ofNat_eq_ofNat, BitVec.toNat_zero]; omega

@[simp] theorem fOp_wX : fOp (wX op g a b ring flags fid imm16) = op := fOp_wPre _ _ _ _ _ _
@[simp] theorem fGuard_wX : fGuard (wX op g a b ring flags fid imm16) = g := fGuard_wPre _ _ _ _ _ _
@[simp] theorem fD_wX : fD (wX op g a b ring flags fid imm16) = 0 := fD_wPre _ _ _ _ _ _
@[simp] theorem fA_wX : fA (wX op g a b ring flags fid imm16) = a := fA_wPre _ _ _ _ _ _
@[simp] theorem fB_wX : fB (wX op g a b ring flags fid imm16) = b := fB_wPre _ _ _ _ _ _
@[simp] theorem fC_wX : fC (wX op g a b ring flags fid imm16) = 0 := by
  apply BitVec.eq_of_toNat_eq
  have h_ring := ring.isLt; have h_flags := flags.isLt; have h_fid := fid.isLt; have h_imm16 := imm16.isLt
  rw [fC, wX, low_wPre _ _ _ _ _ _ _ _ (by omega), field_toNat, wX_low]
  simp only [BitVec.ofNat_eq_ofNat, BitVec.toNat_zero]; omega
@[simp] theorem fRing_wX : fRing (wX op g a b ring flags fid imm16) = ring := by
  apply BitVec.eq_of_toNat_eq
  have h_ring := ring.isLt; have h_flags := flags.isLt; have h_fid := fid.isLt; have h_imm16 := imm16.isLt
  rw [fRing, wX, low_wPre _ _ _ _ _ _ _ _ (by omega), field_toNat, wX_low]
  omega
@[simp] theorem fFlags_wX : fFlags (wX op g a b ring flags fid imm16) = flags := by
  apply BitVec.eq_of_toNat_eq
  have h_ring := ring.isLt; have h_flags := flags.isLt; have h_fid := fid.isLt; have h_imm16 := imm16.isLt
  rw [fFlags, wX, low_wPre _ _ _ _ _ _ _ _ (by omega), field_toNat, wX_low]
  omega
@[simp] theorem fRm_wX : fRm (wX op g a b ring flags fid imm16) = fid := by
  apply BitVec.eq_of_toNat_eq
  have h_ring := ring.isLt; have h_flags := flags.isLt; have h_fid := fid.isLt; have h_imm16 := imm16.isLt
  rw [fRm, wX, low_wPre _ _ _ _ _ _ _ _ (by omega), field_toNat, wX_low]
  omega
@[simp] theorem fImm16_wX : fImm16 (wX op g a b ring flags fid imm16) = imm16 := by
  apply BitVec.eq_of_toNat_eq
  have h_ring := ring.isLt; have h_flags := flags.isLt; have h_fid := fid.isLt; have h_imm16 := imm16.isLt
  rw [fImm16, wX, low_wPre _ _ _ _ _ _ _ _ (by omega), field_toNat, wX_low]
  omega

/-! ### Format S -/

theorem wS_low : (sys ++ (0 : BitVec 22) : BitVec 34).toNat = sys.toNat * 2 ^ 22 := by
  show (sys ++ (0 : BitVec 22)).toNat = _
  rw [append_toNat]
  simp only [BitVec.ofNat_eq_ofNat, BitVec.toNat_zero]; omega

@[simp] theorem fOp_wS : fOp (wS op g d a sys) = op := fOp_wPre _ _ _ _ _ _
@[simp] theorem fGuard_wS : fGuard (wS op g d a sys) = g := fGuard_wPre _ _ _ _ _ _
@[simp] theorem fD_wS : fD (wS op g d a sys) = d := fD_wPre _ _ _ _ _ _
@[simp] theorem fA_wS : fA (wS op g d a sys) = a := fA_wPre _ _ _ _ _ _
@[simp] theorem fB_wS : fB (wS op g d a sys) = 0 := fB_wPre _ _ _ _ _ _
@[simp] theorem fSys_wS : fSys (wS op g d a sys) = sys := by
  apply BitVec.eq_of_toNat_eq
  have h_sys := sys.isLt
  rw [fSys, wS, low_wPre _ _ _ _ _ _ _ _ (by omega), field_toNat, wS_low]
  omega
@[simp] theorem fImm22_wS : fImm22 (wS op g d a sys) = 0 := by
  apply BitVec.eq_of_toNat_eq
  have h_sys := sys.isLt
  rw [fImm22, wS, low_wPre _ _ _ _ _ _ _ _ (by omega), field_toNat, wS_low]
  simp only [BitVec.ofNat_eq_ofNat, BitVec.toNat_zero]; omega

/-! ### Words without operands, and with two registers -/

@[simp] theorem low52_encBare : (encBare op g).extractLsb' 0 52 = 0 := by
  apply BitVec.eq_of_toNat_eq
  rw [field_toNat, encBare, wPre_toNat]
  simp only [BitVec.ofNat_eq_ofNat, BitVec.toNat_zero]
  split <;> omega

@[simp] theorem low40_wPre : (wPre op g d a 0 0).extractLsb' 0 40 = 0 := by
  apply BitVec.eq_of_toNat_eq
  rw [field_toNat, wPre_toNat]
  simp only [BitVec.ofNat_eq_ofNat, BitVec.toNat_zero]
  split <;> omega

@[simp] theorem fOp_encBare : fOp (encBare op g) = op := fOp_wPre _ _ _ _ _ _
@[simp] theorem fGuard_encBare : fGuard (encBare op g) = g := fGuard_wPre _ _ _ _ _ _

end

/-! ### Codes -/

@[simp] theorem Cond.ofCode_code (x : Cond) : Cond.ofCode (x.code % 256) = some x := by cases x <;> rfl
@[simp] theorem Cond.ofCode_code6 (x : Cond) : Cond.ofCode (x.code % 64) = some x := by cases x <;> rfl
@[simp] theorem FCond.ofCode_code (x : FCond) : FCond.ofCode (x.code % 256) = some x := by cases x <;> rfl
@[simp] theorem FType.ofCode_code (x : FType) : FType.ofCode (x.code % 16) = some x := by cases x <;> rfl
@[simp] theorem FloatCode.ofCode_code (x : FloatCode) : FloatCode.ofCode (x.code % 16) = some x := by cases x <;> rfl
@[simp] theorem IntCode.ofCode_code (x : IntCode) : IntCode.ofCode (x.code % 16) = some x := by cases x <;> rfl
@[simp] theorem PackedCode.ofCode_code (x : PackedCode) : PackedCode.ofCode (x.code % 16) = some x := by cases x <;> rfl
@[simp] theorem Rm.ofCode_code (x : Rm) : Rm.ofCode (x.code % 16) = some x := by cases x <;> rfl
@[simp] theorem RedOp.ofCode_code (x : RedOp) : RedOp.ofCode (x.code % 16) = some x := by cases x <;> rfl
@[simp] theorem MemSize.ofCode_code (x : MemSize) : MemSize.ofCode (x.code % 8) = some x := by cases x <;> rfl
@[simp] theorem AmoSize.ofCode_code (x : AmoSize) : AmoSize.ofCode (x.code % 8) = some x := by cases x <;> rfl
@[simp] theorem Ord.ofCode_code (x : Ord) : Ord.ofCode (x.code % 8) = some x := by cases x <;> rfl
@[simp] theorem Scope.ofCode_code (x : Scope) : Scope.ofCode (x.code % 8) = some x := by cases x <;> rfl
@[simp] theorem PrefKind.ofCode_code (x : PrefKind) : PrefKind.ofCode (x.code % 8) = some x := by cases x <;> rfl
@[simp] theorem BrHint.ofCode_code (x : BrHint) : BrHint.ofCode (x.code % 4) = some x := by cases x <;> rfl
@[simp] theorem JalrHint.ofCode_code (x : JalrHint) : JalrHint.ofCode (x.code % 4) = some x := by cases x <;> rfl
@[simp] theorem SysReg.ofCode_code (x : SysReg) : SysReg.ofCode (x.code % 4096) = some x := by cases x <;> rfl
@[simp] theorem FloatCode.ofCode_code12 (x : FloatCode) : FloatCode.ofCode (x.code % 4096 % 16) = some x := by cases x <;> rfl
@[simp] theorem FloatCode.code_high (x : FloatCode) : (BitVec.ofNat 12 x.code).extractLsb' 4 8 = 0 := by cases x <;> rfl
@[simp] theorem redType_bit (x : Bool) : redType ((0#3 ++ bit x : BitVec 4)).toNat = some x := by cases x <;> rfl
@[simp] theorem ShflMode.ofCode_code (x : ShflMode) : ShflMode.ofCode x.code = x := by cases x <;> rfl
@[simp] theorem VoteMode.ofCode_code (x : VoteMode) : VoteMode.ofCode x.code = x := by cases x <;> rfl

/-! ### Parts of a field -/

@[simp] theorem part_9_3_at3 (x : BitVec 9) (y : BitVec 3) :
    BitVec.extractLsb' (n := 12) 3 9 (x ++ y) = x := by
  apply BitVec.eq_of_toNat_eq
  have h_x := x.isLt; have h_y := y.isLt
  rw [field_toNat, append_toNat]; omega
@[simp] theorem part_9_3_at0 (x : BitVec 9) (y : BitVec 3) :
    BitVec.extractLsb' (n := 12) 0 3 (x ++ y) = y := by
  apply BitVec.eq_of_toNat_eq
  have h_x := x.isLt; have h_y := y.isLt
  rw [field_toNat, append_toNat]; omega
@[simp] theorem part_6_6_at6 (x : BitVec 6) (y : BitVec 6) :
    BitVec.extractLsb' (n := 12) 6 6 (x ++ y) = x := by
  apply BitVec.eq_of_toNat_eq
  have h_x := x.isLt; have h_y := y.isLt
  rw [field_toNat, append_toNat]; omega
@[simp] theorem part_6_6_at0 (x : BitVec 6) (y : BitVec 6) :
    BitVec.extractLsb' (n := 12) 0 6 (x ++ y) = y := by
  apply BitVec.eq_of_toNat_eq
  have h_x := x.isLt; have h_y := y.isLt
  rw [field_toNat, append_toNat]; omega
@[simp] theorem part_7_1_4_at5 (x : BitVec 7) (y : BitVec 1) (z : BitVec 4) :
    BitVec.extractLsb' (n := 12) 5 7 (x ++ y ++ z) = x := by
  apply BitVec.eq_of_toNat_eq
  have h_x := x.isLt; have h_y := y.isLt; have h_z := z.isLt
  rw [field_toNat, append_toNat, append_toNat]; omega
@[simp] theorem part_7_1_4_at4 (x : BitVec 7) (y : BitVec 1) (z : BitVec 4) :
    BitVec.extractLsb' (n := 12) 4 1 (x ++ y ++ z) = y := by
  apply BitVec.eq_of_toNat_eq
  have h_x := x.isLt; have h_y := y.isLt; have h_z := z.isLt
  rw [field_toNat, append_toNat, append_toNat]; omega
@[simp] theorem part_7_1_4_at0 (x : BitVec 7) (y : BitVec 1) (z : BitVec 4) :
    BitVec.extractLsb' (n := 12) 0 4 (x ++ y ++ z) = z := by
  apply BitVec.eq_of_toNat_eq
  have h_x := x.isLt; have h_y := y.isLt; have h_z := z.isLt
  rw [field_toNat, append_toNat, append_toNat]; omega
@[simp] theorem part_5_3_4_at7 (x : BitVec 5) (y : BitVec 3) (z : BitVec 4) :
    BitVec.extractLsb' (n := 12) 7 5 (x ++ y ++ z) = x := by
  apply BitVec.eq_of_toNat_eq
  have h_x := x.isLt; have h_y := y.isLt; have h_z := z.isLt
  rw [field_toNat, append_toNat, append_toNat]; omega
@[simp] theorem part_5_3_4_at4 (x : BitVec 5) (y : BitVec 3) (z : BitVec 4) :
    BitVec.extractLsb' (n := 12) 4 3 (x ++ y ++ z) = y := by
  apply BitVec.eq_of_toNat_eq
  have h_x := x.isLt; have h_y := y.isLt; have h_z := z.isLt
  rw [field_toNat, append_toNat, append_toNat]; omega
@[simp] theorem part_5_3_4_at0 (x : BitVec 5) (y : BitVec 3) (z : BitVec 4) :
    BitVec.extractLsb' (n := 12) 0 4 (x ++ y ++ z) = z := by
  apply BitVec.eq_of_toNat_eq
  have h_x := x.isLt; have h_y := y.isLt; have h_z := z.isLt
  rw [field_toNat, append_toNat, append_toNat]; omega
@[simp] theorem part_10_2_at2 (x : BitVec 10) (y : BitVec 2) :
    BitVec.extractLsb' (n := 12) 2 10 (x ++ y) = x := by
  apply BitVec.eq_of_toNat_eq
  have h_x := x.isLt; have h_y := y.isLt
  rw [field_toNat, append_toNat]; omega
@[simp] theorem part_10_2_at0 (x : BitVec 10) (y : BitVec 2) :
    BitVec.extractLsb' (n := 12) 0 2 (x ++ y) = y := by
  apply BitVec.eq_of_toNat_eq
  have h_x := x.isLt; have h_y := y.isLt
  rw [field_toNat, append_toNat]; omega
@[simp] theorem part_7_3_2_at5 (x : BitVec 7) (y : BitVec 3) (z : BitVec 2) :
    BitVec.extractLsb' (n := 12) 5 7 (x ++ y ++ z) = x := by
  apply BitVec.eq_of_toNat_eq
  have h_x := x.isLt; have h_y := y.isLt; have h_z := z.isLt
  rw [field_toNat, append_toNat, append_toNat]; omega
@[simp] theorem part_7_3_2_at2 (x : BitVec 7) (y : BitVec 3) (z : BitVec 2) :
    BitVec.extractLsb' (n := 12) 2 3 (x ++ y ++ z) = y := by
  apply BitVec.eq_of_toNat_eq
  have h_x := x.isLt; have h_y := y.isLt; have h_z := z.isLt
  rw [field_toNat, append_toNat, append_toNat]; omega
@[simp] theorem part_7_3_2_at0 (x : BitVec 7) (y : BitVec 3) (z : BitVec 2) :
    BitVec.extractLsb' (n := 12) 0 2 (x ++ y ++ z) = z := by
  apply BitVec.eq_of_toNat_eq
  have h_x := x.isLt; have h_y := y.isLt; have h_z := z.isLt
  rw [field_toNat, append_toNat, append_toNat]; omega
@[simp] theorem part_8_4_at4 (x : BitVec 8) (y : BitVec 4) :
    BitVec.extractLsb' (n := 12) 4 8 (x ++ y) = x := by
  apply BitVec.eq_of_toNat_eq
  have h_x := x.isLt; have h_y := y.isLt
  rw [field_toNat, append_toNat]; omega
@[simp] theorem part_8_4_at0 (x : BitVec 8) (y : BitVec 4) :
    BitVec.extractLsb' (n := 12) 0 4 (x ++ y) = y := by
  apply BitVec.eq_of_toNat_eq
  have h_x := x.isLt; have h_y := y.isLt
  rw [field_toNat, append_toNat]; omega
@[simp] theorem part_8_2_2_at4 (x : BitVec 8) (y : BitVec 2) (z : BitVec 2) :
    BitVec.extractLsb' (n := 12) 4 8 (x ++ y ++ z) = x := by
  apply BitVec.eq_of_toNat_eq
  have h_x := x.isLt; have h_y := y.isLt; have h_z := z.isLt
  rw [field_toNat, append_toNat, append_toNat]; omega
@[simp] theorem part_8_2_2_at2 (x : BitVec 8) (y : BitVec 2) (z : BitVec 2) :
    BitVec.extractLsb' (n := 12) 2 2 (x ++ y ++ z) = y := by
  apply BitVec.eq_of_toNat_eq
  have h_x := x.isLt; have h_y := y.isLt; have h_z := z.isLt
  rw [field_toNat, append_toNat, append_toNat]; omega
@[simp] theorem part_8_2_2_at0 (x : BitVec 8) (y : BitVec 2) (z : BitVec 2) :
    BitVec.extractLsb' (n := 12) 0 2 (x ++ y ++ z) = z := by
  apply BitVec.eq_of_toNat_eq
  have h_x := x.isLt; have h_y := y.isLt; have h_z := z.isLt
  rw [field_toNat, append_toNat, append_toNat]; omega
@[simp] theorem part_10_1_1_at2 (x : BitVec 10) (y : BitVec 1) (z : BitVec 1) :
    BitVec.extractLsb' (n := 12) 2 10 (x ++ y ++ z) = x := by
  apply BitVec.eq_of_toNat_eq
  have h_x := x.isLt; have h_y := y.isLt; have h_z := z.isLt
  rw [field_toNat, append_toNat, append_toNat]; omega
@[simp] theorem part_10_1_1_at1 (x : BitVec 10) (y : BitVec 1) (z : BitVec 1) :
    BitVec.extractLsb' (n := 12) 1 1 (x ++ y ++ z) = y := by
  apply BitVec.eq_of_toNat_eq
  have h_x := x.isLt; have h_y := y.isLt; have h_z := z.isLt
  rw [field_toNat, append_toNat, append_toNat]; omega
@[simp] theorem part_10_1_1_at0 (x : BitVec 10) (y : BitVec 1) (z : BitVec 1) :
    BitVec.extractLsb' (n := 12) 0 1 (x ++ y ++ z) = z := by
  apply BitVec.eq_of_toNat_eq
  have h_x := x.isLt; have h_y := y.isLt; have h_z := z.isLt
  rw [field_toNat, append_toNat, append_toNat]; omega
@[simp] theorem part_4_8_at8 (x : BitVec 4) (y : BitVec 8) :
    BitVec.extractLsb' (n := 12) 8 4 (x ++ y) = x := by
  apply BitVec.eq_of_toNat_eq
  have h_x := x.isLt; have h_y := y.isLt
  rw [field_toNat, append_toNat]; omega
@[simp] theorem part_4_8_at0 (x : BitVec 4) (y : BitVec 8) :
    BitVec.extractLsb' (n := 12) 0 8 (x ++ y) = y := by
  apply BitVec.eq_of_toNat_eq
  have h_x := x.isLt; have h_y := y.isLt
  rw [field_toNat, append_toNat]; omega
@[simp] theorem part_26_6_at6 (x : BitVec 26) (y : BitVec 6) :
    BitVec.extractLsb' (n := 32) 6 26 (x ++ y) = x := by
  apply BitVec.eq_of_toNat_eq
  have h_x := x.isLt; have h_y := y.isLt
  rw [field_toNat, append_toNat]; omega
@[simp] theorem part_26_6_at0 (x : BitVec 26) (y : BitVec 6) :
    BitVec.extractLsb' (n := 32) 0 6 (x ++ y) = y := by
  apply BitVec.eq_of_toNat_eq
  have h_x := x.isLt; have h_y := y.isLt
  rw [field_toNat, append_toNat]; omega
@[simp] theorem part_12_4_4_6_6_at20 (x : BitVec 12) (y : BitVec 4) (z : BitVec 4) (u : BitVec 6) (v : BitVec 6) :
    BitVec.extractLsb' (n := 32) 20 12 (x ++ y ++ z ++ u ++ v) = x := by
  apply BitVec.eq_of_toNat_eq
  have h_x := x.isLt; have h_y := y.isLt; have h_z := z.isLt; have h_u := u.isLt; have h_v := v.isLt
  rw [field_toNat, append_toNat, append_toNat, append_toNat, append_toNat]; omega
@[simp] theorem part_12_4_4_6_6_at16 (x : BitVec 12) (y : BitVec 4) (z : BitVec 4) (u : BitVec 6) (v : BitVec 6) :
    BitVec.extractLsb' (n := 32) 16 4 (x ++ y ++ z ++ u ++ v) = y := by
  apply BitVec.eq_of_toNat_eq
  have h_x := x.isLt; have h_y := y.isLt; have h_z := z.isLt; have h_u := u.isLt; have h_v := v.isLt
  rw [field_toNat, append_toNat, append_toNat, append_toNat, append_toNat]; omega
@[simp] theorem part_12_4_4_6_6_at12 (x : BitVec 12) (y : BitVec 4) (z : BitVec 4) (u : BitVec 6) (v : BitVec 6) :
    BitVec.extractLsb' (n := 32) 12 4 (x ++ y ++ z ++ u ++ v) = z := by
  apply BitVec.eq_of_toNat_eq
  have h_x := x.isLt; have h_y := y.isLt; have h_z := z.isLt; have h_u := u.isLt; have h_v := v.isLt
  rw [field_toNat, append_toNat, append_toNat, append_toNat, append_toNat]; omega
@[simp] theorem part_12_4_4_6_6_at6 (x : BitVec 12) (y : BitVec 4) (z : BitVec 4) (u : BitVec 6) (v : BitVec 6) :
    BitVec.extractLsb' (n := 32) 6 6 (x ++ y ++ z ++ u ++ v) = u := by
  apply BitVec.eq_of_toNat_eq
  have h_x := x.isLt; have h_y := y.isLt; have h_z := z.isLt; have h_u := u.isLt; have h_v := v.isLt
  rw [field_toNat, append_toNat, append_toNat, append_toNat, append_toNat]; omega
@[simp] theorem part_12_4_4_6_6_at0 (x : BitVec 12) (y : BitVec 4) (z : BitVec 4) (u : BitVec 6) (v : BitVec 6) :
    BitVec.extractLsb' (n := 32) 0 6 (x ++ y ++ z ++ u ++ v) = v := by
  apply BitVec.eq_of_toNat_eq
  have h_x := x.isLt; have h_y := y.isLt; have h_z := z.isLt; have h_u := u.isLt; have h_v := v.isLt
  rw [field_toNat, append_toNat, append_toNat, append_toNat, append_toNat]; omega
@[simp] theorem part_28_4_at4 (x : BitVec 28) (y : BitVec 4) :
    BitVec.extractLsb' (n := 32) 4 28 (x ++ y) = x := by
  apply BitVec.eq_of_toNat_eq
  have h_x := x.isLt; have h_y := y.isLt
  rw [field_toNat, append_toNat]; omega
@[simp] theorem part_28_4_at0 (x : BitVec 28) (y : BitVec 4) :
    BitVec.extractLsb' (n := 32) 0 4 (x ++ y) = y := by
  apply BitVec.eq_of_toNat_eq
  have h_x := x.isLt; have h_y := y.isLt
  rw [field_toNat, append_toNat]; omega
@[simp] theorem part_27_1_4_at5 (x : BitVec 27) (y : BitVec 1) (z : BitVec 4) :
    BitVec.extractLsb' (n := 32) 5 27 (x ++ y ++ z) = x := by
  apply BitVec.eq_of_toNat_eq
  have h_x := x.isLt; have h_y := y.isLt; have h_z := z.isLt
  rw [field_toNat, append_toNat, append_toNat]; omega
@[simp] theorem part_27_1_4_at4 (x : BitVec 27) (y : BitVec 1) (z : BitVec 4) :
    BitVec.extractLsb' (n := 32) 4 1 (x ++ y ++ z) = y := by
  apply BitVec.eq_of_toNat_eq
  have h_x := x.isLt; have h_y := y.isLt; have h_z := z.isLt
  rw [field_toNat, append_toNat, append_toNat]; omega
@[simp] theorem part_27_1_4_at0 (x : BitVec 27) (y : BitVec 1) (z : BitVec 4) :
    BitVec.extractLsb' (n := 32) 0 4 (x ++ y ++ z) = z := by
  apply BitVec.eq_of_toNat_eq
  have h_x := x.isLt; have h_y := y.isLt; have h_z := z.isLt
  rw [field_toNat, append_toNat, append_toNat]; omega
@[simp] theorem part_26_3_3_at6 (x : BitVec 26) (y : BitVec 3) (z : BitVec 3) :
    BitVec.extractLsb' (n := 32) 6 26 (x ++ y ++ z) = x := by
  apply BitVec.eq_of_toNat_eq
  have h_x := x.isLt; have h_y := y.isLt; have h_z := z.isLt
  rw [field_toNat, append_toNat, append_toNat]; omega
@[simp] theorem part_26_3_3_at3 (x : BitVec 26) (y : BitVec 3) (z : BitVec 3) :
    BitVec.extractLsb' (n := 32) 3 3 (x ++ y ++ z) = y := by
  apply BitVec.eq_of_toNat_eq
  have h_x := x.isLt; have h_y := y.isLt; have h_z := z.isLt
  rw [field_toNat, append_toNat, append_toNat]; omega
@[simp] theorem part_26_3_3_at0 (x : BitVec 26) (y : BitVec 3) (z : BitVec 3) :
    BitVec.extractLsb' (n := 32) 0 3 (x ++ y ++ z) = z := by
  apply BitVec.eq_of_toNat_eq
  have h_x := x.isLt; have h_y := y.isLt; have h_z := z.isLt
  rw [field_toNat, append_toNat, append_toNat]; omega
@[simp] theorem part_18_6_3_5_at14 (x : BitVec 18) (y : BitVec 6) (z : BitVec 3) (u : BitVec 5) :
    BitVec.extractLsb' (n := 32) 14 18 (x ++ y ++ z ++ u) = x := by
  apply BitVec.eq_of_toNat_eq
  have h_x := x.isLt; have h_y := y.isLt; have h_z := z.isLt; have h_u := u.isLt
  rw [field_toNat, append_toNat, append_toNat, append_toNat]; omega
@[simp] theorem part_18_6_3_5_at8 (x : BitVec 18) (y : BitVec 6) (z : BitVec 3) (u : BitVec 5) :
    BitVec.extractLsb' (n := 32) 8 6 (x ++ y ++ z ++ u) = y := by
  apply BitVec.eq_of_toNat_eq
  have h_x := x.isLt; have h_y := y.isLt; have h_z := z.isLt; have h_u := u.isLt
  rw [field_toNat, append_toNat, append_toNat, append_toNat]; omega
@[simp] theorem part_18_6_3_5_at5 (x : BitVec 18) (y : BitVec 6) (z : BitVec 3) (u : BitVec 5) :
    BitVec.extractLsb' (n := 32) 5 3 (x ++ y ++ z ++ u) = z := by
  apply BitVec.eq_of_toNat_eq
  have h_x := x.isLt; have h_y := y.isLt; have h_z := z.isLt; have h_u := u.isLt
  rw [field_toNat, append_toNat, append_toNat, append_toNat]; omega
@[simp] theorem part_18_6_3_5_at0 (x : BitVec 18) (y : BitVec 6) (z : BitVec 3) (u : BitVec 5) :
    BitVec.extractLsb' (n := 32) 0 5 (x ++ y ++ z ++ u) = u := by
  apply BitVec.eq_of_toNat_eq
  have h_x := x.isLt; have h_y := y.isLt; have h_z := z.isLt; have h_u := u.isLt
  rw [field_toNat, append_toNat, append_toNat, append_toNat]; omega
@[simp] theorem part_12_20_at20 (x : BitVec 12) (y : BitVec 20) :
    BitVec.extractLsb' (n := 32) 20 12 (x ++ y) = x := by
  apply BitVec.eq_of_toNat_eq
  have h_x := x.isLt; have h_y := y.isLt
  rw [field_toNat, append_toNat]; omega
@[simp] theorem part_12_20_at0 (x : BitVec 12) (y : BitVec 20) :
    BitVec.extractLsb' (n := 32) 0 20 (x ++ y) = y := by
  apply BitVec.eq_of_toNat_eq
  have h_x := x.isLt; have h_y := y.isLt
  rw [field_toNat, append_toNat]; omega
@[simp] theorem part_16_16_at16 (x : BitVec 16) (y : BitVec 16) :
    BitVec.extractLsb' (n := 32) 16 16 (x ++ y) = x := by
  apply BitVec.eq_of_toNat_eq
  have h_x := x.isLt; have h_y := y.isLt
  rw [field_toNat, append_toNat]; omega
@[simp] theorem part_16_16_at0 (x : BitVec 16) (y : BitVec 16) :
    BitVec.extractLsb' (n := 32) 0 16 (x ++ y) = y := by
  apply BitVec.eq_of_toNat_eq
  have h_x := x.isLt; have h_y := y.isLt
  rw [field_toNat, append_toNat]; omega
@[simp] theorem part_8_4_4_at8 (x : BitVec 8) (y : BitVec 4) (z : BitVec 4) :
    BitVec.extractLsb' (n := 16) 8 8 (x ++ y ++ z) = x := by
  apply BitVec.eq_of_toNat_eq
  have h_x := x.isLt; have h_y := y.isLt; have h_z := z.isLt
  rw [field_toNat, append_toNat, append_toNat]; omega
@[simp] theorem part_8_4_4_at4 (x : BitVec 8) (y : BitVec 4) (z : BitVec 4) :
    BitVec.extractLsb' (n := 16) 4 4 (x ++ y ++ z) = y := by
  apply BitVec.eq_of_toNat_eq
  have h_x := x.isLt; have h_y := y.isLt; have h_z := z.isLt
  rw [field_toNat, append_toNat, append_toNat]; omega
@[simp] theorem part_8_4_4_at0 (x : BitVec 8) (y : BitVec 4) (z : BitVec 4) :
    BitVec.extractLsb' (n := 16) 0 4 (x ++ y ++ z) = z := by
  apply BitVec.eq_of_toNat_eq
  have h_x := x.isLt; have h_y := y.isLt; have h_z := z.isLt
  rw [field_toNat, append_toNat, append_toNat]; omega
@[simp] theorem part_3_1_1_1_at3 (x : BitVec 3) (y : BitVec 1) (z : BitVec 1) (u : BitVec 1) :
    BitVec.extractLsb' (n := 6) 3 3 (x ++ y ++ z ++ u) = x := by
  apply BitVec.eq_of_toNat_eq
  have h_x := x.isLt; have h_y := y.isLt; have h_z := z.isLt; have h_u := u.isLt
  rw [field_toNat, append_toNat, append_toNat, append_toNat]; omega
@[simp] theorem part_3_1_1_1_at2 (x : BitVec 3) (y : BitVec 1) (z : BitVec 1) (u : BitVec 1) :
    BitVec.extractLsb' (n := 6) 2 1 (x ++ y ++ z ++ u) = y := by
  apply BitVec.eq_of_toNat_eq
  have h_x := x.isLt; have h_y := y.isLt; have h_z := z.isLt; have h_u := u.isLt
  rw [field_toNat, append_toNat, append_toNat, append_toNat]; omega
@[simp] theorem part_3_1_1_1_at1 (x : BitVec 3) (y : BitVec 1) (z : BitVec 1) (u : BitVec 1) :
    BitVec.extractLsb' (n := 6) 1 1 (x ++ y ++ z ++ u) = z := by
  apply BitVec.eq_of_toNat_eq
  have h_x := x.isLt; have h_y := y.isLt; have h_z := z.isLt; have h_u := u.isLt
  rw [field_toNat, append_toNat, append_toNat, append_toNat]; omega
@[simp] theorem part_3_1_1_1_at0 (x : BitVec 3) (y : BitVec 1) (z : BitVec 1) (u : BitVec 1) :
    BitVec.extractLsb' (n := 6) 0 1 (x ++ y ++ z ++ u) = u := by
  apply BitVec.eq_of_toNat_eq
  have h_x := x.isLt; have h_y := y.isLt; have h_z := z.isLt; have h_u := u.isLt
  rw [field_toNat, append_toNat, append_toNat, append_toNat]; omega
@[simp] theorem part_4_1_1_1_1_1_3_at8 (x : BitVec 4) (y : BitVec 1) (z : BitVec 1) (u : BitVec 1) (v : BitVec 1) (p : BitVec 1) (q : BitVec 3) :
    BitVec.extractLsb' (n := 12) 8 4 (x ++ y ++ z ++ u ++ v ++ p ++ q) = x := by
  apply BitVec.eq_of_toNat_eq
  have h_x := x.isLt; have h_y := y.isLt; have h_z := z.isLt; have h_u := u.isLt; have h_v := v.isLt; have h_p := p.isLt; have h_q := q.isLt
  rw [field_toNat, append_toNat, append_toNat, append_toNat, append_toNat, append_toNat, append_toNat]; omega
@[simp] theorem part_4_1_1_1_1_1_3_at7 (x : BitVec 4) (y : BitVec 1) (z : BitVec 1) (u : BitVec 1) (v : BitVec 1) (p : BitVec 1) (q : BitVec 3) :
    BitVec.extractLsb' (n := 12) 7 1 (x ++ y ++ z ++ u ++ v ++ p ++ q) = y := by
  apply BitVec.eq_of_toNat_eq
  have h_x := x.isLt; have h_y := y.isLt; have h_z := z.isLt; have h_u := u.isLt; have h_v := v.isLt; have h_p := p.isLt; have h_q := q.isLt
  rw [field_toNat, append_toNat, append_toNat, append_toNat, append_toNat, append_toNat, append_toNat]; omega
@[simp] theorem part_4_1_1_1_1_1_3_at6 (x : BitVec 4) (y : BitVec 1) (z : BitVec 1) (u : BitVec 1) (v : BitVec 1) (p : BitVec 1) (q : BitVec 3) :
    BitVec.extractLsb' (n := 12) 6 1 (x ++ y ++ z ++ u ++ v ++ p ++ q) = z := by
  apply BitVec.eq_of_toNat_eq
  have h_x := x.isLt; have h_y := y.isLt; have h_z := z.isLt; have h_u := u.isLt; have h_v := v.isLt; have h_p := p.isLt; have h_q := q.isLt
  rw [field_toNat, append_toNat, append_toNat, append_toNat, append_toNat, append_toNat, append_toNat]; omega
@[simp] theorem part_4_1_1_1_1_1_3_at5 (x : BitVec 4) (y : BitVec 1) (z : BitVec 1) (u : BitVec 1) (v : BitVec 1) (p : BitVec 1) (q : BitVec 3) :
    BitVec.extractLsb' (n := 12) 5 1 (x ++ y ++ z ++ u ++ v ++ p ++ q) = u := by
  apply BitVec.eq_of_toNat_eq
  have h_x := x.isLt; have h_y := y.isLt; have h_z := z.isLt; have h_u := u.isLt; have h_v := v.isLt; have h_p := p.isLt; have h_q := q.isLt
  rw [field_toNat, append_toNat, append_toNat, append_toNat, append_toNat, append_toNat, append_toNat]; omega
@[simp] theorem part_4_1_1_1_1_1_3_at4 (x : BitVec 4) (y : BitVec 1) (z : BitVec 1) (u : BitVec 1) (v : BitVec 1) (p : BitVec 1) (q : BitVec 3) :
    BitVec.extractLsb' (n := 12) 4 1 (x ++ y ++ z ++ u ++ v ++ p ++ q) = v := by
  apply BitVec.eq_of_toNat_eq
  have h_x := x.isLt; have h_y := y.isLt; have h_z := z.isLt; have h_u := u.isLt; have h_v := v.isLt; have h_p := p.isLt; have h_q := q.isLt
  rw [field_toNat, append_toNat, append_toNat, append_toNat, append_toNat, append_toNat, append_toNat]; omega
@[simp] theorem part_4_1_1_1_1_1_3_at3 (x : BitVec 4) (y : BitVec 1) (z : BitVec 1) (u : BitVec 1) (v : BitVec 1) (p : BitVec 1) (q : BitVec 3) :
    BitVec.extractLsb' (n := 12) 3 1 (x ++ y ++ z ++ u ++ v ++ p ++ q) = p := by
  apply BitVec.eq_of_toNat_eq
  have h_x := x.isLt; have h_y := y.isLt; have h_z := z.isLt; have h_u := u.isLt; have h_v := v.isLt; have h_p := p.isLt; have h_q := q.isLt
  rw [field_toNat, append_toNat, append_toNat, append_toNat, append_toNat, append_toNat, append_toNat]; omega
@[simp] theorem part_4_1_1_1_1_1_3_at0 (x : BitVec 4) (y : BitVec 1) (z : BitVec 1) (u : BitVec 1) (v : BitVec 1) (p : BitVec 1) (q : BitVec 3) :
    BitVec.extractLsb' (n := 12) 0 3 (x ++ y ++ z ++ u ++ v ++ p ++ q) = q := by
  apply BitVec.eq_of_toNat_eq
  have h_x := x.isLt; have h_y := y.isLt; have h_z := z.isLt; have h_u := u.isLt; have h_v := v.isLt; have h_p := p.isLt; have h_q := q.isLt
  rw [field_toNat, append_toNat, append_toNat, append_toNat, append_toNat, append_toNat, append_toNat]; omega
@[simp] theorem part_6_1_2_3_at6 (x : BitVec 6) (y : BitVec 1) (z : BitVec 2) (u : BitVec 3) :
    BitVec.extractLsb' (n := 12) 6 6 (x ++ y ++ z ++ u) = x := by
  apply BitVec.eq_of_toNat_eq
  have h_x := x.isLt; have h_y := y.isLt; have h_z := z.isLt; have h_u := u.isLt
  rw [field_toNat, append_toNat, append_toNat, append_toNat]; omega
@[simp] theorem part_6_1_2_3_at5 (x : BitVec 6) (y : BitVec 1) (z : BitVec 2) (u : BitVec 3) :
    BitVec.extractLsb' (n := 12) 5 1 (x ++ y ++ z ++ u) = y := by
  apply BitVec.eq_of_toNat_eq
  have h_x := x.isLt; have h_y := y.isLt; have h_z := z.isLt; have h_u := u.isLt
  rw [field_toNat, append_toNat, append_toNat, append_toNat]; omega
@[simp] theorem part_6_1_2_3_at3 (x : BitVec 6) (y : BitVec 1) (z : BitVec 2) (u : BitVec 3) :
    BitVec.extractLsb' (n := 12) 3 2 (x ++ y ++ z ++ u) = z := by
  apply BitVec.eq_of_toNat_eq
  have h_x := x.isLt; have h_y := y.isLt; have h_z := z.isLt; have h_u := u.isLt
  rw [field_toNat, append_toNat, append_toNat, append_toNat]; omega
@[simp] theorem part_6_1_2_3_at0 (x : BitVec 6) (y : BitVec 1) (z : BitVec 2) (u : BitVec 3) :
    BitVec.extractLsb' (n := 12) 0 3 (x ++ y ++ z ++ u) = u := by
  apply BitVec.eq_of_toNat_eq
  have h_x := x.isLt; have h_y := y.isLt; have h_z := z.isLt; have h_u := u.isLt
  rw [field_toNat, append_toNat, append_toNat, append_toNat]; omega
@[simp] theorem part_4_2_at2 (x : BitVec 4) (y : BitVec 2) :
    BitVec.extractLsb' (n := 6) 2 4 (x ++ y) = x := by
  apply BitVec.eq_of_toNat_eq
  have h_x := x.isLt; have h_y := y.isLt
  rw [field_toNat, append_toNat]; omega
@[simp] theorem part_4_2_at0 (x : BitVec 4) (y : BitVec 2) :
    BitVec.extractLsb' (n := 6) 0 2 (x ++ y) = y := by
  apply BitVec.eq_of_toNat_eq
  have h_x := x.isLt; have h_y := y.isLt
  rw [field_toNat, append_toNat]; omega
@[simp] theorem part_1_1_at1 (x : BitVec 1) (y : BitVec 1) :
    BitVec.extractLsb' (n := 2) 1 1 (x ++ y) = x := by
  apply BitVec.eq_of_toNat_eq
  have h_x := x.isLt; have h_y := y.isLt
  rw [field_toNat, append_toNat]; omega
@[simp] theorem part_1_1_at0 (x : BitVec 1) (y : BitVec 1) :
    BitVec.extractLsb' (n := 2) 0 1 (x ++ y) = y := by
  apply BitVec.eq_of_toNat_eq
  have h_x := x.isLt; have h_y := y.isLt
  rw [field_toNat, append_toNat]; omega

@[simp] theorem predReg_low (p : Pred) : (predReg p).extractLsb' 0 3 = p := by
  apply BitVec.eq_of_toNat_eq
  have h := p.isLt
  rw [field_toNat, predReg, append_toNat]
  simp only [BitVec.ofNat_eq_ofNat, BitVec.toNat_zero]; omega
@[simp] theorem predReg_high (p : Pred) : (predReg p).extractLsb' 3 3 = 0 := by
  apply BitVec.eq_of_toNat_eq
  have h := p.isLt
  rw [field_toNat, predReg, append_toNat]
  simp only [BitVec.ofNat_eq_ofNat, BitVec.toNat_zero]; omega

/-- A reserved guard of a built word is one of its guard. -/
theorem guardReserved_iff (w : BitVec 64) : guardReserved w = !(fGuard w).wf := by
  simp only [guardReserved, fGuard, Guard.wf, Bool.not_not]

end Sys2Proof
end

