-- ==== Sys2Proof/Laws/Formed.lean ====
section
/-!
SUPPORT. The memory's canonical form carried through the answers of the machine's operations: the predicates, and how
folds and matches keep them. A lemma named X_formed says that operation X keeps the form.
-/
namespace Sys2Proof.Machine

/-- Writing a line keeps the canonical form. -/
theorem Memory.wf_putLine (m : Memory) (l : Nat) (d : Line) (mask : BitVec 128) (h : Memory.wf m = true) :
    Memory.wf (m.putLine l d mask) = true := by
  unfold Memory.putLine
  generalize List.range 128 = ks
  induction ks generalizing m with
  | nil => exact h
  | cons k ks ih =>
    simp only [List.foldl_cons]
    split
    · exact ih _ (Memory.wf_put _ _ _ h)
    · exact ih _ h

/-- The memory's canonical form, of the memory system. -/
def MemSys.Formed (m : MemSys) : Prop := Memory.wf m.bytes = true

/-- The memory's canonical form, of the state. -/
def State.Formed (s : State) : Prop := s.mem.Formed

theorem formed_iff (s : State) : State.Formed s ↔ s.memWf = true := Iff.rfl

/-- The same of a state that may be absent. -/
def OptFormed : Option State → Prop
  | some s => State.Formed s
  | none => True

/-- The same of what one thread or crew did. -/
def Res.Formed : Res → Prop
  | .go s _ | .failed s _ _ _ => State.Formed s
  | .wait | .trap .. => True

/-- The same of a try at a circular buffer. -/
def CbTry.Formed : CbTry → Prop
  | .done s | .spoiled s _ => State.Formed s
  | .bad _ | .waits => True

/-- The same of a step's answer. -/
def OutFormed : Host.Outcome State Fault Refusal → Prop
  | .next s => State.Formed s
  | .fault _ | .refused _ => True

theorem formed_mem {s : State} (h : State.Formed s) : s.mem.Formed := h

theorem formed_bytes {m : MemSys} (h : m.Formed) : Memory.wf m.bytes = true := h

theorem formed_fst {β : Type} {x : State × β} {s : State} {b : β} (e : x = (s, b)) (h : State.Formed x.1)
    : State.Formed s := by rw [e] at h; exact h

theorem formed_some {o : Option State} {s : State} (e : o = some s) (h : OptFormed o) : State.Formed s := by rw [e] at h; exact h

theorem formed_snd {β : Type} {x : β × State} {s : State} {b : β} (e : x = (b, s)) (h : State.Formed x.2)
    : State.Formed s := by rw [e] at h; exact h

theorem resFormed_go {s : State} {f : Flow} (h : State.Formed s) : Res.Formed (.go s f) := h

theorem resFormed_failed {s : State} {c u : Nat} {v : Word} (h : State.Formed s) : Res.Formed (.failed s c u v) := h

theorem outFormed_next {s : State} (h : State.Formed s) : OutFormed (.next s) := h

theorem cbFormed_spoiled {s : State} {a : Nat} (h : State.Formed s) : CbTry.Formed (.spoiled s a) := h

theorem cbFormed_done {s : State} (h : State.Formed s) : CbTry.Formed (.done s) := h

theorem optFormed_some {s : State} (h : State.Formed s) : OptFormed (some s) := h

theorem optFormed_map {α : Type} {o : Option α} {f : α → State} (h : ∀ a, State.Formed (f a))
    : OptFormed (o.map f) := by cases o <;> simp [OptFormed, h]

theorem foldl_formed {α : Type} {f : State → α → State} {s : State} (l : List α) (hs : State.Formed s)
    (hf : ∀ s a, State.Formed s → State.Formed (f s a)) :
    State.Formed (l.foldl f s) := by
  induction l generalizing s with
  | nil => exact hs
  | cons a l ih => exact ih (hf s a hs)

theorem foldl_formed_fst {α β : Type} {f : State × β → α → State × β} {p : State × β} (l : List α) (hs : State.Formed p.1)
    (hf : ∀ p a, State.Formed p.1 → State.Formed (f p a).1) : State.Formed (l.foldl f p).1 := by
  induction l generalizing p with
  | nil => exact hs
  | cons a l ih => exact ih (hf p a hs)

theorem foldr_formed {α : Type} {f : α → State → State} {s : State} (l : List α) (hs : State.Formed s)
    (hf : ∀ a s, State.Formed s → State.Formed (f a s)) :
    State.Formed (l.foldr f s) := by
  induction l with
  | nil => exact hs
  | cons a l ih => exact hf a _ ih

theorem foldl_formed_mem {α : Type} {f : MemSys → α → MemSys} {m : MemSys} (l : List α) (hs : m.Formed)
    (hf : ∀ m a, m.Formed → (f m a).Formed) : (l.foldl f m).Formed := by
  induction l generalizing m with
  | nil => exact hs
  | cons a l ih => exact ih (hf m a hs)

theorem resFormed_ite {c : Prop} [Decidable c] {a b : Res} (ha : Res.Formed a) (hb : Res.Formed b)
    : Res.Formed (if c then a else b) := by split <;> assumption

theorem optFormed_none_ite {c : Prop} [Decidable c] {o : Option State} (h : OptFormed o) : OptFormed (if c then none else o) := by
  split
  · trivial
  · exact h

/-- The same of what a chain entry did. -/
def EntryRes.Formed : EntryRes → Prop
  | .go s _ | .block s _ | .fail s _ _ _ _ => State.Formed s
  | .skip => True

theorem entryFormed_go {r : EntryRes} {s : State} {c : Chain} (e : r = .go s c) (h : EntryRes.Formed r)
    : State.Formed s := by rw [e] at h; exact h

theorem entryFormed_fail {r : EntryRes} {s : State} {a b c d : Nat} (e : r = .fail s a b c d) (h : EntryRes.Formed r)
    : State.Formed s := by rw [e] at h; exact h

theorem entryFormed_block {r : EntryRes} {s : State} {z : Nat} (e : r = .block s z) (h : EntryRes.Formed r)
    : State.Formed s := by rw [e] at h; exact h

theorem entryFormed_mkFail {s : State} {a b c d : Nat} (h : State.Formed s) : EntryRes.Formed (.fail s a b c d) := h

theorem entryFormed_mkBlock {s : State} {z : Nat} (h : State.Formed s) : EntryRes.Formed (.block s z) := h

theorem entryFormed_mkGo {s : State} {c : Chain} (h : State.Formed s) : EntryRes.Formed (.go s c) := h

theorem foldl_formed_move {α : Type} {f : Move → α → Move} {m : Move} (l : List α) (hs : State.Formed m.s)
    (hf : ∀ m a, State.Formed m.s → State.Formed (f m a).s) :
    State.Formed (l.foldl f m).s := by
  induction l generalizing m with
  | nil => exact hs
  | cons a l ih => exact ih (hf m a hs)

theorem foldl_formed_opt {α : Type} {f : Option State → α → Option State} {o : Option State} (l : List α) (hs : OptFormed o)
    (hf : ∀ o a, OptFormed o → OptFormed (f o a)) : OptFormed (l.foldl f o) := by
  induction l generalizing o with
  | nil => exact hs
  | cons a l ih => exact ih (hf o a hs)

theorem optFormed_getD {o : Option State} {s : State} (ho : OptFormed o) (h : State.Formed s)
    : State.Formed (o.getD s) := by cases o <;> assumption

theorem optFormed_map_of {o : Option State} {f : State → State} (ho : OptFormed o)
    (h : ∀ s, State.Formed s → State.Formed (f s)) : OptFormed (o.map f) := by
  cases o with
  | none => trivial
  | some s => exact h s ho
end Sys2Proof.Machine
end

