-- ==== Sys2Proof/Laws/FormedMemory.lean ====
section
/-!
SUPPORT. Coherence, translation and physical access: what they answer keeps the memory's canonical form.
-/
namespace Sys2Proof.Machine

theorem State.viewError_formed (s : State) (pa : Nat) (hw : State.Formed s) : State.Formed (State.viewError s pa) := by
  unfold State.viewError
  try dsimp only
  repeat' (first | with_reducible exact hw | with_reducible apply formed_mem | (change MemSys.Formed _; dsimp only))

theorem State.setCore_formed (s : State) (n : Nat) (c : Core) (hw : State.Formed s) : State.Formed (State.setCore s n c) := by
  unfold State.setCore
  try dsimp only
  repeat' (first | with_reducible exact hw | with_reducible apply formed_mem | (change MemSys.Formed _; dsimp only))

theorem State.setHart_formed (s : State) (n : Nat) (h : Hart) (hw : State.Formed s) : State.Formed (State.setHart s n h) := by
  unfold State.setHart
  try dsimp only
  repeat' (first | with_reducible exact hw | with_reducible apply formed_mem | (change MemSys.Formed _; dsimp only))

theorem State.setDie_formed (s : State) (n : Nat) (d : Die) (hw : State.Formed s) : State.Formed (State.setDie s n d) := by
  unfold State.setDie
  try dsimp only
  repeat' (first | with_reducible exact hw | with_reducible apply formed_mem | (change MemSys.Formed _; dsimp only))

theorem State.setStk_formed (s : State) (n : Nat) (d : Stack) (hw : State.Formed s) : State.Formed (State.setStk s n d) := by
  unfold State.setStk
  try dsimp only
  repeat' (first | with_reducible exact hw | with_reducible apply formed_mem | (change MemSys.Formed _; dsimp only))

theorem State.setNet_formed (s : State) (n : Nat) (d : NetEngine) (hw : State.Formed s) : State.Formed (State.setNet s n d) := by
  unfold State.setNet
  try dsimp only
  repeat' (first | with_reducible exact hw | with_reducible apply formed_mem | (change MemSys.Formed _; dsimp only))

theorem State.setPort_formed (s : State) (n : Nat) (d : Port) (hw : State.Formed s) : State.Formed (State.setPort s n d) := by
  unfold State.setPort
  try dsimp only
  repeat' (first | with_reducible exact hw | with_reducible apply formed_mem | (change MemSys.Formed _; dsimp only))

theorem State.setThread_formed (s : State) (k : Nat) (t : Thread) (hw : State.Formed s)
    : State.Formed (State.setThread s k t) := by
  unfold State.setThread
  try dsimp only
  repeat' (first | with_reducible exact hw | with_reducible apply formed_mem | (change MemSys.Formed _; dsimp only))

theorem State.modThread_formed (s : State) (k : Nat) (f : Thread → Thread) (hw : State.Formed s)
    : State.Formed (State.modThread s k f) := by
  unfold State.modThread
  try dsimp only
  repeat' (first | with_reducible exact hw | with_reducible apply State.setThread_formed)

theorem State.modCore_formed (s : State) (n : Nat) (f : Core → Core) (hw : State.Formed s)
    : State.Formed (State.modCore s n f) := by
  unfold State.modCore
  try dsimp only
  repeat' (first | with_reducible exact hw | with_reducible apply State.setCore_formed)

theorem State.modHart_formed (s : State) (n : Nat) (f : Hart → Hart) (hw : State.Formed s)
    : State.Formed (State.modHart s n f) := by
  unfold State.modHart
  try dsimp only
  repeat' (first | with_reducible exact hw | with_reducible apply State.setHart_formed)

theorem State.modDie_formed (s : State) (n : Nat) (f : Die → Die) (hw : State.Formed s) : State.Formed (State.modDie s n f) := by
  unfold State.modDie
  try dsimp only
  repeat' (first | with_reducible exact hw | with_reducible apply State.setDie_formed)

theorem State.modCrew_formed (s : State) (c : Nat) (f : Crew → Crew) (hw : State.Formed s)
    : State.Formed (State.modCrew s c f) := by
  unfold State.modCrew
  try dsimp only
  repeat' (first | with_reducible exact hw | with_reducible apply formed_mem | (change MemSys.Formed _; dsimp only))

theorem State.modGang_formed (s : State) (c : Nat) (f : Gang → Gang) (hw : State.Formed s)
    : State.Formed (State.modGang s c f) := by
  unfold State.modGang
  try dsimp only
  repeat' (first | with_reducible exact hw | with_reducible apply formed_mem | (change MemSys.Formed _; dsimp only))

theorem State.putLoam_formed (s : State) (core : Nat) (b : Bool) (off : Nat) (bs : List Byte) (hw : State.Formed s)
    : State.Formed (State.putLoam s core b off bs) := by
  unfold State.putLoam
  try dsimp only
  repeat' (first | with_reducible exact hw | with_reducible apply State.modCore_formed)

theorem State.countParity_formed (s : State) (core : Nat) (hw : State.Formed s) : State.Formed (State.countParity s core) := by
  unfold State.countParity
  try dsimp only
  repeat' (first | with_reducible exact hw | with_reducible apply State.modCore_formed)

theorem State.countSpec_formed (s : State) (c : Crew) (off n : Nat) (hw : State.Formed s)
    : State.Formed (State.countSpec s c off n) := by
  unfold State.countSpec
  try dsimp only
  repeat' (first | with_reducible exact hw | with_reducible apply State.countParity_formed | with_reducible apply foldl_formed
                 | (intro _))

theorem State.putSpecWord_formed (s : State) (c : Crew) (off : Nat) (w : Word) (hw : State.Formed s)
    : State.Formed (State.putSpecWord s c off w) := by
  unfold State.putSpecWord
  try dsimp only
  repeat' (first | with_reducible exact hw | with_reducible apply State.putLoam_formed)

theorem State.putRing_formed (s : State) (c : Crew) (k : Nat) (cfg w : Word) (hw : State.Formed s)
    : State.Formed (State.putRing s c k cfg w) := by
  unfold State.putRing
  try dsimp only
  repeat' (first | with_reducible exact hw | with_reducible apply State.modCore_formed
                 | with_reducible apply State.putSpecWord_formed)

theorem State.putRegBytes_formed (s : State) (k n sub : Nat) (bs : List Byte) (hw : State.Formed s)
    : State.Formed (State.putRegBytes s k n sub bs) := by
  unfold State.putRegBytes
  try dsimp only
  repeat' (first | with_reducible exact hw | with_reducible apply State.modThread_formed)

theorem State.writeSpot_formed (s : State) (core : Nat) (sp : LoamSpot) (off : Nat) (bs : List Byte) (hw : State.Formed s)
    : State.Formed (State.writeSpot s core sp off bs) := by
  unfold State.writeSpot
  try dsimp only
  repeat' (first | with_reducible exact hw | with_reducible apply State.putLoam_formed
                 | with_reducible apply State.putRegBytes_formed | split)

theorem State.engineLoam_formed (s : State) (core off n : Nat) (sp : LoamSpot) (hw : State.Formed s)
    : State.Formed (State.engineLoam s core off n sp).1 := by
  unfold State.engineLoam
  try dsimp only
  repeat' (first | with_reducible exact hw | with_reducible apply State.countParity_formed | with_reducible apply foldl_formed
                 | (intro _))

theorem State.setTag_formed (s : State) (core : Nat) (b : Bool) (off : Nat) (t : Nat × Bool) (hw : State.Formed s)
    : State.Formed (State.setTag s core b off t) := by
  unfold State.setTag
  try dsimp only
  repeat' (first | with_reducible exact hw | with_reducible apply State.modCore_formed)

theorem MemSys.dropCopy_formed (m : MemSys) (agent line : Nat) (hw : m.Formed) : (MemSys.dropCopy m agent line).Formed := by
  unfold MemSys.dropCopy
  try dsimp only
  repeat' (first | with_reducible exact hw | with_reducible apply formed_bytes | (change Memory.wf _ = true; dsimp only))

theorem MemSys.putCopy_formed (m : MemSys) (c : Copy) (hw : m.Formed) : (MemSys.putCopy m c).Formed := by
  unfold MemSys.putCopy
  try dsimp only
  repeat' (first | with_reducible exact hw | with_reducible apply formed_bytes | (change Memory.wf _ = true; dsimp only))

theorem MemSys.writeLine_formed (m : MemSys) (line : Nat) (d : Line) (mask : BitVec 128) (key : Nat) (hw : m.Formed)
    : (MemSys.writeLine m line d mask key).Formed := by
  unfold MemSys.writeLine
  try dsimp only
  repeat' (first | with_reducible exact hw | split | with_reducible apply formed_bytes
                 | (change Memory.wf _ = true; dsimp only) | with_reducible apply Memory.wf_putLine)

theorem MemSys.writeBack_formed (m : MemSys) (c : Copy) (hw : m.Formed) : (MemSys.writeBack m c).Formed := by
  unfold MemSys.writeBack
  try dsimp only
  repeat' (first | with_reducible exact hw | with_reducible apply MemSys.writeLine_formed | split)

theorem MemSys.putEntry_formed (m : MemSys) (e : DirEntry) (hw : m.Formed) : (MemSys.putEntry m e).Formed := by
  unfold MemSys.putEntry
  try dsimp only
  repeat' (first | with_reducible exact hw | split | with_reducible apply formed_bytes | (change Memory.wf _ = true; dsimp only))

theorem MemSys.dropEntry_formed (m : MemSys) (line : Nat) (hw : m.Formed) : (MemSys.dropEntry m line).Formed := by
  unfold MemSys.dropEntry
  try dsimp only
  repeat' (first | with_reducible exact hw | with_reducible apply formed_bytes | (change Memory.wf _ = true; dsimp only))

theorem MemSys.reshaped_formed (m : MemSys) (x : Msg) (hw : m.Formed) : (MemSys.reshaped m x).Formed := by
  unfold MemSys.reshaped
  try dsimp only
  repeat' (first | with_reducible exact hw | with_reducible apply formed_bytes | (change Memory.wf _ = true; dsimp only))

theorem MemSys.touch_formed (m : MemSys) (line : Nat) (hw : m.Formed) : (MemSys.touch m line).Formed := by
  unfold MemSys.touch
  try dsimp only
  repeat' (first | with_reducible exact hw | split | with_reducible apply formed_bytes | (change Memory.wf _ = true; dsimp only))

theorem State.post_formed (s : State) (m : Msg) (hw : State.Formed s) : State.Formed (State.post s m) := by
  unfold State.post
  try dsimp only
  repeat' (first | with_reducible exact hw | with_reducible apply formed_mem | with_reducible apply formed_bytes
                 | (change MemSys.Formed _; dsimp only) | (change Memory.wf _ = true; dsimp only))

theorem State.postAll_formed (s : State) (ms : List Msg) (hw : State.Formed s) : State.Formed (State.postAll s ms) := by
  unfold State.postAll
  try dsimp only
  repeat' (first | with_reducible exact hw | with_reducible apply State.post_formed | with_reducible apply foldl_formed)

theorem State.unpost_formed (s : State) (id : Nat) (hw : State.Formed s) : State.Formed (State.unpost s id) := by
  unfold State.unpost
  try dsimp only
  repeat' (first | with_reducible exact hw | with_reducible apply formed_mem | with_reducible apply formed_bytes
                 | (change MemSys.Formed _; dsimp only) | (change Memory.wf _ = true; dsimp only))

theorem State.withMem_formed (s : State) (m : MemSys) (hw : m.Formed) : State.Formed (State.withMem s m) := hw

theorem State.grant_formed (s : State) (m : Msg) (st : Option Moesi) (own : Bool) (hw : State.Formed s)
    : State.Formed (State.grant s m st own) := by
  unfold State.grant
  try dsimp only
  repeat' (first | with_reducible exact hw | with_reducible apply State.post_formed)

theorem State.staleLine_formed (s : State) (core line : Nat) (hw : State.Formed s)
    : State.Formed (State.staleLine s core line) := by
  unfold State.staleLine
  try dsimp only
  repeat' (first | with_reducible exact hw | with_reducible apply formed_mem | (change MemSys.Formed _; dsimp only))

theorem State.staleEverywhere_formed (s : State) (p : Handle → Bool) (hw : State.Formed s)
    : State.Formed (State.staleEverywhere s p) := by
  unfold State.staleEverywhere
  try dsimp only
  repeat' (first | with_reducible exact hw | with_reducible apply formed_mem | (change MemSys.Formed _; dsimp only))

theorem MemSys.inBuffers_formed (m : MemSys) (f : Nat → Nat → Nat → BitVec 128 → BitVec 128) (hw : m.Formed)
    : (MemSys.inBuffers m f).Formed := by
  unfold MemSys.inBuffers
  try dsimp only
  repeat' (first | with_reducible exact hw | with_reducible apply formed_bytes | (change Memory.wf _ = true; dsimp only))

theorem State.surrender_formed (s : State) (row : Nat) (hw : State.Formed s) : State.Formed (State.surrender s row).1 := by
  unfold State.surrender
  try dsimp only
  repeat' (first | with_reducible exact hw | with_reducible apply State.withMem_formed
                 | with_reducible apply State.staleEverywhere_formed | with_reducible apply MemSys.inBuffers_formed | split
                 | with_reducible apply formed_mem | with_reducible apply formed_bytes | (change Memory.wf _ = true; dsimp only))

theorem MemSys.carry_formed (m : MemSys) (line off : Nat) (b : Byte) (hw : m.Formed) : (MemSys.carry m line off b).Formed := by
  unfold MemSys.carry
  try dsimp only
  repeat' (first | with_reducible exact hw | with_reducible apply formed_bytes | (change Memory.wf _ = true; dsimp only))

theorem State.carryViews_formed (s : State) (line : Nat) (d : Line) (mask : BitVec 128) (hw : State.Formed s)
    : State.Formed (State.carryViews s line d mask) := by
  unfold State.carryViews
  try dsimp only
  repeat' (first | with_reducible exact hw | with_reducible apply State.withMem_formed | with_reducible apply formed_mem
                 | with_reducible apply formed_bytes | (change Memory.wf _ = true; dsimp only))

theorem State.strike_formed (s : State) (line : Nat) (d : Line) (mask : BitVec 128) (self : Nat) (hw : State.Formed s)
    : State.Formed (State.strike s line d mask self).1 := by
  unfold State.strike
  try dsimp only
  repeat' (first | with_reducible exact hw | with_reducible apply State.withMem_formed
                 | with_reducible apply State.staleEverywhere_formed | with_reducible apply MemSys.inBuffers_formed
                 | with_reducible apply State.carryViews_formed | split | with_reducible apply formed_mem
                 | with_reducible apply formed_bytes | (change Memory.wf _ = true; dsimp only))

theorem State.storeHome_formed (fuel : Nat) : ∀ (s : State) (line : Nat) (d : Line) (mask : BitVec 128)
    (key vset self : Nat), State.Formed s →
    State.Formed (State.storeHome fuel s line d mask key vset self) := by
  induction fuel with
  | zero => intro s _ _ _ _ _ _ hw; exact hw
  | succ n ih =>
    intro s line d mask key vset self hw
    unfold State.storeHome
    split
    · exact hw
    · split
      · extract_lets put r
        have hr : State.Formed r.1 := by
          refine foldl_formed_fst _ hw fun q i h => ?_
          simp only [put]
          split
          · exact h
          · split
            · exact ih _ _ _ _ _ _ _ (foldl_formed _ (State.surrender_formed _ _ h) fun s c h => ih _ _ _ _ _ _ _ h) |> fun h2 =>
                MemSys.carry_formed _ _ _ _ h2
            · exact h
        clear_value r
        split
        · exact State.viewError_formed _ _ hr
        · exact hr
      · exact foldl_formed _ (State.strike_formed _ _ _ _ _ (MemSys.writeLine_formed _ _ _ _ _ hw)) fun s c h => ih _ _ _ _ _ _ _ h
theorem State.homeStore_formed (s : State) (line : Nat) (d : Line) (mask : BitVec 128) (key vset : Nat) (hw : State.Formed s) :
    State.Formed (State.homeStore s line d mask key vset) := State.storeHome_formed _ _ _ _ _ _ _ _ hw

theorem State.flushCopy_formed (s : State) (c : Copy) (hw : State.Formed s) : State.Formed (State.flushCopy s c) := by
  unfold State.flushCopy
  try dsimp only
  repeat' (first | with_reducible exact hw | with_reducible apply State.withMem_formed
                 | with_reducible apply State.homeStore_formed | with_reducible apply formed_mem
                 | with_reducible apply formed_bytes | (change Memory.wf _ = true; dsimp only))

theorem State.gatherViews_formed (s : State) (line : Nat) (mask : BitVec 128) (key vset : Nat) (hw : State.Formed s)
    : State.Formed (State.gatherViews s line mask key vset) := by
  unfold State.gatherViews
  try dsimp only
  repeat' (first | with_reducible exact hw | with_reducible assumption | with_reducible apply State.surrender_formed
                 | with_reducible apply State.homeStore_formed | with_reducible apply State.flushCopy_formed
                 | with_reducible apply foldl_formed | (intro _) | split)

theorem State.recallFor_formed (s : State) (e : DirEntry) (m : Msg) (region : Option (Nat × Nat)) (hw : State.Formed s)
    : State.Formed (State.recallFor s e m region) := by
  unfold State.recallFor
  try dsimp only
  repeat' (first | with_reducible exact hw | with_reducible apply State.postAll_formed
                 | with_reducible apply State.withMem_formed | split | with_reducible apply formed_mem
                 | with_reducible apply formed_bytes | (change Memory.wf _ = true; dsimp only))

theorem State.startEviction_formed (s : State) (v : DirEntry) (hw : State.Formed s) : State.Formed (State.startEviction s v) := by
  unfold State.startEviction
  try dsimp only
  repeat' (first | with_reducible exact hw | with_reducible apply State.recallFor_formed)

theorem State.nextEviction_formed (s : State) (line base cls : Nat) (hw : State.Formed s)
    : State.Formed (State.nextEviction s line base cls) := by
  unfold State.nextEviction
  try dsimp only
  repeat' (first | with_reducible exact hw | with_reducible apply State.withMem_formed
                 | with_reducible apply State.recallFor_formed | split | with_reducible apply formed_mem
                 | with_reducible apply formed_bytes | (change Memory.wf _ = true; dsimp only))

theorem State.performHome_formed (s : State) (m : Msg) (hw : State.Formed s) : State.Formed (State.performHome s m) := by
  unfold State.performHome
  try dsimp only
  repeat' (first | with_reducible exact hw | with_reducible apply State.post_formed
                 | with_reducible apply State.homeStore_formed | with_reducible apply State.gatherViews_formed | split)

theorem State.forwardShared_formed (s : State) (m : Msg) (o : Nat) (hw : State.Formed s)
    : State.Formed (State.forwardShared s m o) := by
  unfold State.forwardShared
  try dsimp only
  repeat' (first | with_reducible exact hw | with_reducible apply State.post_formed | with_reducible apply State.withMem_formed
                 | with_reducible apply formed_mem | with_reducible apply formed_bytes | (change Memory.wf _ = true; dsimp only))

theorem State.serveFrom_formed (s : State) (e : DirEntry) (m : Msg) (hw : State.Formed s)
    : State.Formed (State.serveFrom s e m) := by
  unfold State.serveFrom
  try dsimp only
  repeat' (first | with_reducible exact hw | with_reducible apply MemSys.putEntry_formed
                 | with_reducible apply State.postAll_formed | with_reducible apply State.withMem_formed
                 | with_reducible apply State.grant_formed | with_reducible apply State.recallFor_formed
                 | with_reducible apply State.forwardShared_formed | split | with_reducible apply formed_mem
                 | with_reducible apply formed_bytes | (change Memory.wf _ = true; dsimp only))

theorem State.homeHandle_formed (s0 : State) (m : Msg) (hw : State.Formed s0) : State.Formed (State.homeHandle s0 m) := by
  unfold State.homeHandle
  try dsimp only
  repeat' (first | with_reducible exact hw | with_reducible apply MemSys.reshaped_formed
                 | with_reducible apply MemSys.touch_formed | with_reducible apply State.withMem_formed
                 | with_reducible apply State.grant_formed | with_reducible apply State.performHome_formed
                 | with_reducible apply State.serveFrom_formed | split | with_reducible apply formed_mem)

theorem State.homeRequest_formed (s : State) (m : Msg) (hw : State.Formed s) : State.Formed (State.homeRequest s m) := by
  unfold State.homeRequest
  try dsimp only
  repeat' (first | with_reducible exact hw | with_reducible apply State.post_formed | with_reducible apply State.withMem_formed
                 | with_reducible apply State.homeHandle_formed | split | with_reducible apply formed_mem
                 | with_reducible apply formed_bytes | (change Memory.wf _ = true; dsimp only))

theorem State.finishTxn_formed (s : State) (line : Nat) (hw : State.Formed s) : State.Formed (State.finishTxn s line) := by
  unfold State.finishTxn
  try dsimp only
  repeat' (first | with_reducible exact hw | with_reducible apply MemSys.putEntry_formed
                 | with_reducible apply MemSys.dropEntry_formed | with_reducible apply State.withMem_formed
                 | with_reducible apply State.grant_formed | with_reducible apply State.nextEviction_formed
                 | with_reducible apply State.performHome_formed | split | with_reducible apply formed_mem
                 | with_reducible apply formed_bytes | (change Memory.wf _ = true; dsimp only))

theorem State.shareAfterForward_formed (s : State) (t : Txn) (line : Nat) (clear wasE : Bool) (hw : State.Formed s)
    : State.Formed (State.shareAfterForward s t line clear wasE) := by
  unfold State.shareAfterForward
  try dsimp only
  repeat' (first | with_reducible exact hw | with_reducible apply MemSys.putEntry_formed
                 | with_reducible apply State.withMem_formed | split | with_reducible apply formed_mem)

theorem State.ownerAnswered_formed (s : State) (line : Nat) (t : Txn) (sent clear wasE : Bool) (hw : State.Formed s)
    : State.Formed (State.ownerAnswered s line t sent clear wasE) := by
  unfold State.ownerAnswered
  try dsimp only
  repeat' (first | with_reducible exact hw | with_reducible apply State.withMem_formed
                 | with_reducible apply State.grant_formed | with_reducible apply State.finishTxn_formed
                 | with_reducible apply State.shareAfterForward_formed | split | with_reducible apply formed_mem
                 | with_reducible apply formed_bytes | (change Memory.wf _ = true; dsimp only))

theorem State.takeFwdDone_formed (s : State) (m : Msg) (hw : State.Formed s) : State.Formed (State.takeFwdDone s m) := by
  unfold State.takeFwdDone
  try dsimp only
  repeat' (first | with_reducible exact hw | with_reducible apply State.ownerAnswered_formed | split)

theorem State.takeNoData_formed (s : State) (m : Msg) (hw : State.Formed s) : State.Formed (State.takeNoData s m) := by
  unfold State.takeNoData
  try dsimp only
  repeat' (first | with_reducible exact hw | with_reducible apply State.ownerAnswered_formed | split)

theorem State.takeWbPending_formed (s : State) (m : Msg) (hw : State.Formed s) : State.Formed (State.takeWbPending s m) := by
  unfold State.takeWbPending
  try dsimp only
  repeat' (first | with_reducible exact hw | with_reducible apply State.withMem_formed | split
                 | with_reducible apply formed_mem | with_reducible apply formed_bytes | (change Memory.wf _ = true; dsimp only))

theorem State.takeAck_formed (s : State) (m : Msg) (hw : State.Formed s) : State.Formed (State.takeAck s m) := by
  unfold State.takeAck
  try dsimp only
  repeat' (first | with_reducible exact hw | with_reducible apply State.withMem_formed
                 | with_reducible apply State.finishTxn_formed | split | with_reducible apply formed_mem
                 | with_reducible apply formed_bytes | (change Memory.wf _ = true; dsimp only))

theorem State.takeData_formed (s : State) (m : Msg) (hw : State.Formed s) : State.Formed (State.takeData s m) := by
  unfold State.takeData
  try dsimp only
  repeat' (first | with_reducible exact hw | with_reducible apply State.withMem_formed
                 | with_reducible apply State.homeStore_formed | with_reducible apply formed_mem
                 | with_reducible apply formed_bytes | (change Memory.wf _ = true; dsimp only))

theorem State.putDone_formed (s : State) (m : Msg) (e : DirEntry) (hw : State.Formed s) : State.Formed (State.putDone s m e) := by
  unfold State.putDone
  try dsimp only
  repeat' (first | with_reducible exact hw | with_reducible apply MemSys.putEntry_formed
                 | with_reducible apply State.withMem_formed | with_reducible apply State.takeData_formed | split
                 | with_reducible apply formed_mem)

theorem State.putEntryDone_formed (s : State) (m : Msg) (hw : State.Formed s) : State.Formed (State.putEntryDone s m) := by
  unfold State.putEntryDone
  try dsimp only
  repeat' (first | with_reducible exact hw | with_reducible apply State.putDone_formed | split)

theorem State.takePut_formed (s : State) (m : Msg) (hw : State.Formed s) : State.Formed (State.takePut s m) := by
  unfold State.takePut
  try dsimp only
  repeat' (first | with_reducible exact hw | with_reducible apply State.post_formed
                 | with_reducible apply State.ownerAnswered_formed | with_reducible apply State.takeData_formed
                 | with_reducible apply State.putEntryDone_formed | split)

theorem State.takePutAck_formed (s : State) (m : Msg) (hw : State.Formed s) : State.Formed (State.takePutAck s m) := by
  unfold State.takePutAck
  try dsimp only
  repeat' (first | with_reducible exact hw | with_reducible apply State.withMem_formed | with_reducible apply formed_mem
                 | with_reducible apply formed_bytes | (change Memory.wf _ = true; dsimp only))

theorem State.noCopy_formed (s : State) (m : Msg) (hw : State.Formed s) : State.Formed (State.noCopy s m) := by
  unfold State.noCopy
  try dsimp only
  repeat' (first | with_reducible exact hw | with_reducible apply State.post_formed)

theorem State.sendPut_formed (s : State) (c : Copy) (retain : Bool) (hw : State.Formed s)
    : State.Formed (State.sendPut s c retain) := by
  unfold State.sendPut
  try dsimp only
  repeat' (first | with_reducible exact hw | with_reducible apply State.post_formed | with_reducible apply State.withMem_formed
                 | with_reducible apply formed_mem | with_reducible apply formed_bytes | (change Memory.wf _ = true; dsimp only))

theorem State.takeFwdS_formed (s : State) (m : Msg) (hw : State.Formed s) : State.Formed (State.takeFwdS s m) := by
  unfold State.takeFwdS
  try dsimp only
  repeat' (first | with_reducible exact hw | with_reducible apply MemSys.putCopy_formed
                 | with_reducible apply State.post_formed | with_reducible apply State.withMem_formed
                 | with_reducible apply State.noCopy_formed | with_reducible apply State.sendPut_formed | split
                 | with_reducible apply formed_mem)

theorem State.takeFwdM_formed (s : State) (m : Msg) (hw : State.Formed s) : State.Formed (State.takeFwdM s m) := by
  unfold State.takeFwdM
  try dsimp only
  repeat' (first | with_reducible exact hw | with_reducible apply MemSys.dropCopy_formed
                 | with_reducible apply State.post_formed | with_reducible apply State.withMem_formed
                 | with_reducible apply State.staleLine_formed | with_reducible apply State.noCopy_formed
                 | with_reducible apply State.sendPut_formed | split | with_reducible apply formed_mem)

theorem State.takeInv_formed (s : State) (m : Msg) (hw : State.Formed s) : State.Formed (State.takeInv s m) := by
  unfold State.takeInv
  try dsimp only
  repeat' (first | with_reducible exact hw | with_reducible apply MemSys.dropCopy_formed
                 | with_reducible apply State.post_formed | with_reducible apply State.withMem_formed
                 | with_reducible apply State.staleLine_formed | split | with_reducible apply formed_mem)

theorem State.takeGrant_formed (s : State) (m : Msg) (hw : State.Formed s) : State.Formed (State.takeGrant s m) := by
  unfold State.takeGrant
  try dsimp only
  repeat' (first | with_reducible exact hw | with_reducible apply MemSys.putCopy_formed
                 | with_reducible apply State.unpost_formed | with_reducible apply State.withMem_formed
                 | with_reducible apply State.staleLine_formed | split | with_reducible apply formed_mem)

theorem State.takeMsg_formed (s : State) (id : Nat) (hw : State.Formed s) : State.Formed (State.takeMsg s id) := by
  unfold State.takeMsg
  try dsimp only
  repeat' (first | with_reducible exact hw | with_reducible apply State.post_formed | with_reducible apply State.unpost_formed
                 | with_reducible apply State.homeRequest_formed | with_reducible apply State.takeFwdDone_formed
                 | with_reducible apply State.takeNoData_formed | with_reducible apply State.takeWbPending_formed
                 | with_reducible apply State.takeAck_formed | with_reducible apply State.takePut_formed
                 | with_reducible apply State.takePutAck_formed | with_reducible apply State.takeFwdS_formed
                 | with_reducible apply State.takeFwdM_formed | with_reducible apply State.takeInv_formed
                 | with_reducible apply State.takeGrant_formed | split)

theorem State.startQueued_formed (s : State) (x : Msg) (hw : State.Formed s) : State.Formed (State.startQueued s x) := by
  unfold State.startQueued
  try dsimp only
  repeat' (first | with_reducible exact hw | with_reducible apply State.withMem_formed
                 | with_reducible apply State.startEviction_formed | with_reducible apply State.homeHandle_formed | split
                 | with_reducible apply formed_mem | with_reducible apply formed_bytes | (change Memory.wf _ = true; dsimp only))

theorem State.dequeue_formed (s : State) (line : Nat) (hw : State.Formed s) : State.Formed (State.dequeue s line) := by
  unfold State.dequeue
  try dsimp only
  repeat' (first | with_reducible exact hw | with_reducible apply State.startQueued_formed | split)

theorem State.settle_formed (stop : MemSys → Bool) (line first n : Nat) (s : State) (hw : State.Formed s) :
    State.Formed (State.settle stop line first n s) := by
  induction n generalizing s with
  | zero => exact hw
  | succ n ih =>
    unfold State.settle
    repeat' (first | with_reducible exact hw | with_reducible apply ih | with_reducible apply State.takeMsg_formed
                   | with_reducible apply State.startQueued_formed | split)

theorem State.settleRest_formed (s : State) (line first : Nat) (hw : State.Formed s)
    : State.Formed (State.settleRest s line first) := by
  unfold State.settleRest
  try dsimp only
  repeat' (first | with_reducible exact hw | with_reducible apply State.settle_formed)

theorem State.request_formed (s : State) (m : Msg) (hw : State.Formed s)
    : State.Formed (State.request s m) := State.settleRest_formed _ _ _ (State.post_formed s m hw)

theorem State.obtain_formed (s : State) (m : Msg) (p : Copy → Bool) (hw : State.Formed s)
    : State.Formed (State.obtain s m p) := by
  unfold State.obtain
  try dsimp only
  repeat' (first | with_reducible exact hw | with_reducible apply State.post_formed | with_reducible apply State.settle_formed)

theorem State.writeBackCopy_formed (s : State) (c : Copy) (hw : State.Formed s) : State.Formed (State.writeBackCopy s c) := by
  unfold State.writeBackCopy
  try dsimp only
  repeat' (first | with_reducible exact hw | with_reducible apply State.homeStore_formed | split)

theorem State.giveUp_formed (s : State) (c : Copy) (retain : Bool) (hw : State.Formed s)
    : State.Formed (State.giveUp s c retain) := by
  unfold State.giveUp
  try dsimp only
  repeat' (first | with_reducible exact hw | with_reducible apply MemSys.dropCopy_formed
                 | with_reducible apply MemSys.putCopy_formed | with_reducible apply State.withMem_formed
                 | with_reducible apply State.sendPut_formed | with_reducible apply State.writeBackCopy_formed | split
                 | with_reducible apply formed_mem)

theorem State.putLine_formed (s : State) (agent line : Nat) (retain : Bool) (hw : State.Formed s)
    : State.Formed (State.putLine s agent line retain) := by
  unfold State.putLine
  try dsimp only
  repeat' (first | with_reducible exact hw | with_reducible apply State.settleRest_formed
                 | with_reducible apply State.giveUp_formed | split)

theorem State.dropLine_formed (s : State) (agent line : Nat) (hw : State.Formed s)
    : State.Formed (State.dropLine s agent line) := by
  unfold State.dropLine
  try dsimp only
  repeat' (first | with_reducible exact hw | with_reducible apply State.putLine_formed)

theorem State.makeWay_formed (s : State) (agent : Nat) (hw : State.Formed s) : State.Formed (State.makeWay s agent) := by
  unfold State.makeWay
  try dsimp only
  repeat' (first | with_reducible exact hw | with_reducible apply State.putLine_formed | split)

theorem State.afterPut_formed (s : State) (agent line : Nat) (hw : State.Formed s)
    : State.Formed (State.afterPut s agent line) := by
  unfold State.afterPut
  try dsimp only
  repeat' (first | with_reducible exact hw | with_reducible apply State.settleRest_formed | split)

theorem State.forRead_formed (s : State) (agent line asid key vset : Nat) (tracked : Bool) (hw : State.Formed s)
    : State.Formed (State.forRead s agent line asid key vset tracked) := by
  unfold State.forRead
  try dsimp only
  repeat' (first | with_reducible exact hw | with_reducible apply MemSys.putCopy_formed
                 | with_reducible apply State.withMem_formed | with_reducible apply State.obtain_formed
                 | with_reducible apply State.makeWay_formed | with_reducible apply State.afterPut_formed | split
                 | with_reducible apply formed_mem)

theorem State.forWrite_formed (s : State) (agent line asid key vset : Nat) (tracked : Bool) (hw : State.Formed s)
    : State.Formed (State.forWrite s agent line asid key vset tracked) := by
  unfold State.forWrite
  try dsimp only
  repeat' (first | with_reducible exact hw | with_reducible apply MemSys.putCopy_formed
                 | with_reducible apply State.withMem_formed | with_reducible apply State.obtain_formed
                 | with_reducible apply State.makeWay_formed | with_reducible apply State.afterPut_formed | split
                 | with_reducible apply formed_mem)

theorem State.writeCopy_formed (s : State) (agent line off : Nat) (bs : List Byte) (mask : BitVec 128) (key vset : Nat)
    (hw : State.Formed s) : State.Formed (State.writeCopy s agent line off bs mask key vset) := by
  unfold State.writeCopy
  try dsimp only
  repeat' (first | with_reducible exact hw | with_reducible apply MemSys.putCopy_formed
                 | with_reducible apply State.withMem_formed | with_reducible apply State.staleLine_formed
                 | with_reducible apply State.request_formed | split | with_reducible apply formed_mem)

theorem State.readCopy_formed (s : State) (agent line asid key vset : Nat) (tracked : Bool) (hw : State.Formed s)
    : State.Formed (State.readCopy s agent line asid key vset tracked).1 := by
  unfold State.readCopy
  try dsimp only
  repeat' (first | with_reducible exact hw | with_reducible apply State.settleRest_formed
                 | with_reducible apply State.forRead_formed)

theorem State.storeCopy_formed (s : State) (agent line asid key vset : Nat) (tracked : Bool) (off : Nat) (bs : List Byte)
    (mask : BitVec 128) (hw : State.Formed s) : State.Formed (State.storeCopy s agent line asid key vset tracked off bs mask) := by
  unfold State.storeCopy
  try dsimp only
  repeat' (first | with_reducible exact hw | with_reducible apply State.settleRest_formed
                 | with_reducible apply State.forWrite_formed | with_reducible apply State.writeCopy_formed)

theorem State.homeWrite_formed (s : State) (agent line off : Nat) (bs : List Byte) (key vset : Nat) (hw : State.Formed s)
    : State.Formed (State.homeWrite s agent line off bs key vset) := by
  unfold State.homeWrite
  try dsimp only
  repeat' (first | with_reducible exact hw | with_reducible apply State.request_formed)

theorem State.recallLine_formed (s : State) (agent line : Nat) (hw : State.Formed s)
    : State.Formed (State.recallLine s agent line) := by
  unfold State.recallLine
  try dsimp only
  repeat' (first | with_reducible exact hw | with_reducible apply State.request_formed)

theorem State.readHome_formed (s : State) (agent line key vset : Nat) (hw : State.Formed s)
    : State.Formed (State.readHome s agent line key vset) := by
  unfold State.readHome
  try dsimp only
  repeat' (first | with_reducible exact hw | with_reducible apply State.request_formed | split)

theorem State.crossViews_formed (s : State) (agent : Nat) (hw : State.Formed s) : State.Formed (State.crossViews s agent) := by
  unfold State.crossViews
  try dsimp only
  repeat' (first | with_reducible exact hw | with_reducible assumption | with_reducible apply State.withMem_formed
                 | with_reducible apply MemSys.inBuffers_formed | with_reducible apply State.homeStore_formed
                 | with_reducible apply State.flushCopy_formed | with_reducible apply State.putLine_formed
                 | with_reducible apply foldl_formed | (intro _) | split | with_reducible apply formed_mem
                 | with_reducible apply formed_bytes | (change Memory.wf _ = true; dsimp only))

theorem State.siltExpand_formed (s : State) (pa : Nat) (counts : Bool) (hw : State.Formed s)
    : OptFormed (State.siltExpand s pa counts) := by
  unfold State.siltExpand
  try dsimp only
  repeat' (first | with_reducible exact hw | with_reducible apply State.setStk_formed | with_reducible apply optFormed_some
                 | split | trivial)

theorem State.siltTouch_formed (s : State) (pa : Nat) (hw : State.Formed s) : State.Formed (State.siltTouch s pa) := by
  unfold State.siltTouch
  try dsimp only
  repeat' (first | with_reducible exact hw | with_reducible apply State.siltExpand_formed | with_reducible apply optFormed_getD)

theorem MemSys.fillTlb_formed (m : MemSys) (t : TlbEntry) (hw : m.Formed) : (MemSys.fillTlb m t).Formed := by
  unfold MemSys.fillTlb
  try dsimp only
  repeat' (first | with_reducible exact hw | split | with_reducible apply formed_bytes | (change Memory.wf _ = true; dsimp only))

theorem State.fillPath_formed (s : State) (path : List TlbUnit) (t : TlbEntry) (hw : State.Formed s)
    : State.Formed (State.fillPath s path t) := by
  unfold State.fillPath
  try dsimp only
  repeat' (first | with_reducible exact hw | with_reducible apply State.withMem_formed
                 | with_reducible apply MemSys.fillTlb_formed | with_reducible apply foldl_formed_mem | (intro _)
                 | with_reducible apply formed_mem)

theorem State.cacheWalk_formed (s : State) (agent asid root va : Nat) (read : List (Nat × Nat)) (hw : State.Formed s)
    : State.Formed (State.cacheWalk s agent asid root va read) := by
  unfold State.cacheWalk
  try dsimp only
  repeat' (first | with_reducible exact hw | with_reducible apply State.withMem_formed | split
                 | with_reducible apply formed_mem | with_reducible apply formed_bytes | (change Memory.wf _ = true; dsimp only))

theorem foldlM_siltExpand_wf (l : List (Nat × Nat)) (s : State) (hw : State.Formed s) :
    OptFormed (l.foldlM (fun (s : State) e => s.siltExpand e.2 false) s) := by
  induction l generalizing s with
  | nil => exact hw
  | cons a l ih =>
    have h := State.siltExpand_formed s a.2 false hw
    rw [List.foldlM_cons]
    cases e : s.siltExpand a.2 false with
    | none => trivial
    | some s1 => rw [e] at h; exact ih s1 h
theorem State.findLeaf_formed (s : State) (w : Who) (va : Nat) (acc : AccKind) (hw : State.Formed s)
    : State.Formed (State.findLeaf s w va acc).1 := by
  unfold State.findLeaf
  extract_lets asid path look root st r
  clear_value r
  split
  · exact State.fillPath_formed _ _ _ hw
  · split
    · exact hw
    · next e =>
      have h := formed_some e (foldlM_siltExpand_wf _ _ hw)
      have h1 := foldl_formed r.2 h (f := fun (s : State) e => let f := (s.forward e.2 0).1; s.readHome hwAgent (lineOf f) 0 0)
        fun s e h => State.readHome_formed _ _ _ _ _ h
      dsimp only
      split
      · exact h1
      · exact State.fillPath_formed _ _ _ (State.cacheWalk_formed _ _ _ _ _ _ h1)

theorem State.dropLeaf_formed (s : State) (w : Who) (va : Nat) (hw : State.Formed s) : State.Formed (State.dropLeaf s w va) := by
  unfold State.dropLeaf
  try dsimp only
  repeat' (first | with_reducible exact hw | with_reducible apply State.withMem_formed | with_reducible apply formed_mem
                 | with_reducible apply formed_bytes | (change Memory.wf _ = true; dsimp only))

theorem State.setLeafBit_formed (s0 : State) (agent leaf word bit : Nat) (hw : State.Formed s0)
    : State.Formed (State.setLeafBit s0 agent leaf word bit) := by
  unfold State.setLeafBit
  try dsimp only
  repeat' (first | with_reducible exact hw | with_reducible apply State.withMem_formed
                 | with_reducible apply State.homeWrite_formed | with_reducible apply State.siltTouch_formed | split
                 | with_reducible apply formed_mem | with_reducible apply formed_bytes | (change Memory.wf _ = true; dsimp only))

theorem State.markSourcePage_formed (s : State) (w : Who) (va : Nat) (hw : State.Formed s)
    : State.Formed (State.markSourcePage s w va) := by
  unfold State.markSourcePage
  try dsimp only
  repeat' (first | with_reducible exact hw | with_reducible apply State.findLeaf_formed
                 | with_reducible apply State.dropLeaf_formed | with_reducible apply State.setLeafBit_formed
                 | (with_reducible apply formed_fst; with_reducible assumption) | split)

theorem State.useLeaf_formed (s : State) (w : Who) (va : Nat) (acc : AccKind) (entry : Nat) (w0 w1 : Word)
    (hw : State.Formed s) : State.Formed (State.useLeaf s w va acc entry w0 w1).1 := by
  unfold State.useLeaf
  try dsimp only
  repeat' (first | with_reducible exact hw | with_reducible apply State.siltExpand_formed
                 | with_reducible apply State.setLeafBit_formed | (with_reducible apply formed_some; with_reducible assumption)
                 | with_reducible apply optFormed_some | split)

theorem State.translate_formed (s : State) (w : Who) (va : Nat) (acc : AccKind) (hw : State.Formed s)
    : State.Formed (State.translate s w va acc).1 := by
  unfold State.translate
  try dsimp only
  repeat' (first | with_reducible exact hw | with_reducible apply State.findLeaf_formed
                 | with_reducible apply State.dropLeaf_formed | with_reducible apply State.useLeaf_formed
                 | (with_reducible apply formed_fst; with_reducible assumption) | split)

theorem State.usePage_formed (s : State) (p : Page) (hw : State.Formed s) : State.Formed (State.usePage s p).1 := by
  unfold State.usePage
  try dsimp only
  repeat' (first | with_reducible exact hw | with_reducible apply State.siltExpand_formed
                 | (with_reducible apply formed_some; with_reducible assumption) | split)

theorem State.resolve_formed (s : State) (w : Who) (va : Nat) (acc : AccKind) (hw : State.Formed s)
    : State.Formed (State.resolve s w va acc).1 := by
  unfold State.resolve
  try dsimp only
  repeat' (first | with_reducible exact hw | with_reducible apply State.translate_formed
                 | with_reducible apply State.usePage_formed | split)

theorem State.pokeBytes_formed (s : State) (agent a : Nat) (bs : List Byte) (key : Nat) (hw : State.Formed s)
    : State.Formed (State.pokeBytes s agent a bs key) := by
  unfold State.pokeBytes
  try dsimp only
  repeat' (first | with_reducible exact hw | with_reducible apply State.homeWrite_formed
                 | with_reducible apply foldl_formed_fst | (intro _))

theorem State.hwPut_formed (s : State) (a : Nat) (bs : List Byte) (hw : State.Formed s) : State.Formed (State.hwPut s a bs) := by
  unfold State.hwPut
  try dsimp only
  repeat' (first | with_reducible exact hw | with_reducible apply State.siltTouch_formed
                 | with_reducible apply State.pokeBytes_formed)

theorem State.hwPutWord_formed (s : State) (a : Nat) (w : Word) (hw : State.Formed s) : State.Formed (State.hwPutWord s a w) := by
  unfold State.hwPutWord
  try dsimp only
  repeat' (first | with_reducible exact hw | with_reducible apply State.hwPut_formed)

theorem State.notePast_formed (s : State) (old : List (Nat × Byte)) (hw : State.Formed s)
    : State.Formed (State.notePast s old) := by
  unfold State.notePast
  try dsimp only
  repeat' (first | with_reducible exact hw | with_reducible apply State.withMem_formed | split
                 | with_reducible apply formed_mem | with_reducible apply formed_bytes | (change Memory.wf _ = true; dsimp only))

theorem State.answered_formed (s : State) (agent : Nat) (hw : State.Formed s) : State.Formed (State.answered s agent) := by
  unfold State.answered
  try dsimp only
  repeat' (first | with_reducible exact hw | with_reducible apply State.withMem_formed | with_reducible apply formed_mem
                 | with_reducible apply formed_bytes | (change Memory.wf _ = true; dsimp only))

theorem State.countTimeout_formed (s : State) (hw : State.Formed s) : State.Formed (State.countTimeout s) := by
  unfold State.countTimeout
  try dsimp only
  repeat' (first | with_reducible exact hw | with_reducible apply formed_mem | (change MemSys.Formed _; dsimp only))

theorem State.readPage_formed (s : State) (agent asid : Nat) (p : Page) (pa n : Nat) (hw : State.Formed s)
    : State.Formed (State.readPage s agent asid p pa n).1 := by
  unfold State.readPage
  try dsimp only
  repeat' (first | with_reducible exact hw | with_reducible apply State.readCopy_formed | split)

theorem State.writeReplicas_formed (s : State) (p : Page) (off : Nat) (bs : List Byte) (hw : State.Formed s)
    : State.Formed (State.writeReplicas s p off bs) := by
  unfold State.writeReplicas
  try dsimp only
  repeat' (first | with_reducible exact hw | with_reducible assumption | with_reducible apply State.withMem_formed
                 | with_reducible apply State.pokeBytes_formed | with_reducible apply foldl_formed | (intro _) | split
                 | with_reducible apply formed_mem | with_reducible apply formed_bytes
                 | (change Memory.wf _ = true; dsimp only) | with_reducible apply Memory.wf_puts)

theorem State.storeLocal_formed (s0 : State) (agent asid : Nat) (p : Page) (pa : Nat) (bs : List Byte) (hw : State.Formed s0)
    : State.Formed (State.storeLocal s0 agent asid p pa bs) := by
  unfold State.storeLocal
  try dsimp only
  repeat' (first | with_reducible exact hw | with_reducible apply State.viewError_formed
                 | with_reducible apply State.storeCopy_formed | split)

theorem State.writePage_formed (s0 : State) (agent asid : Nat) (p : Page) (pa : Nat) (bs : List Byte) (hw : State.Formed s0)
    : State.Formed (State.writePage s0 agent asid p pa bs) := by
  unfold State.writePage
  try dsimp only
  repeat' (first | with_reducible exact hw | with_reducible apply State.withMem_formed
                 | with_reducible apply State.notePast_formed | with_reducible apply State.writeReplicas_formed
                 | with_reducible apply State.storeLocal_formed | split | with_reducible apply formed_mem
                 | with_reducible apply formed_bytes | (change Memory.wf _ = true; dsimp only)
                 | with_reducible apply Memory.wf_puts)

theorem State.atomicAt_formed (s : State) (key size : Nat) (i : Instr) (b c : Word) (hw : State.Formed s)
    : State.Formed (State.atomicAt s key size i b c).1 := by
  unfold State.atomicAt
  try dsimp only
  repeat' (first | with_reducible exact hw | with_reducible apply State.withMem_formed | with_reducible apply formed_mem
                 | with_reducible apply formed_bytes | (change Memory.wf _ = true; dsimp only)
                 | with_reducible apply Memory.wf_puts)

theorem State.atomicLine_formed (s0 : State) (agent : Nat) (p : Page) (pa size : Nat) (i : Instr) (b c : Word)
    (hw : State.Formed s0) : State.Formed (State.atomicLine s0 agent p pa size i b c).1 := by
  unfold State.atomicLine
  try dsimp only
  repeat' (first | with_reducible exact hw | with_reducible apply State.unpost_formed
                 | with_reducible apply State.gatherViews_formed | with_reducible apply State.performHome_formed
                 | with_reducible apply State.request_formed | with_reducible apply State.putLine_formed | split)

theorem State.atomicPage_formed (s0 : State) (agent : Nat) (p : Page) (pa size : Nat) (i : Instr) (b c : Word)
    (hw : State.Formed s0) : State.Formed (State.atomicPage s0 agent p pa size i b c).1 := by
  unfold State.atomicPage
  try dsimp only
  repeat' (first | with_reducible exact hw | with_reducible apply State.notePast_formed
                 | with_reducible apply State.writeReplicas_formed | with_reducible apply State.atomicAt_formed
                 | with_reducible apply State.atomicLine_formed | split)

theorem State.engineLine_formed (s : State) (agent : Nat) (p : Page) (pa n : Nat) (hw : State.Formed s)
    : State.Formed (State.engineLine s agent p pa n).1 := by
  unfold State.engineLine
  try dsimp only
  repeat' (first | with_reducible exact hw | with_reducible apply State.request_formed | split)

theorem State.engineRead_formed (s : State) (agent : Nat) (p : Page) (pa n : Nat) (hw : State.Formed s)
    : State.Formed (State.engineRead s agent p pa n).1 := by
  unfold State.engineRead
  try dsimp only
  repeat' (first | with_reducible exact hw | with_reducible assumption | with_reducible apply State.answered_formed
                 | with_reducible apply State.engineLine_formed | (with_reducible apply formed_fst; with_reducible assumption)
                 | with_reducible apply foldl_formed_fst | (intro _) | split)

theorem State.engineStore_formed (s0 : State) (agent : Nat) (p : Page) (pa : Nat) (bs : List Byte) (hw : State.Formed s0)
    : State.Formed (State.engineStore s0 agent p pa bs) := by
  unfold State.engineStore
  try dsimp only
  repeat' (first | with_reducible exact hw | with_reducible apply State.viewError_formed
                 | with_reducible apply State.homeStore_formed | with_reducible apply State.request_formed | split)

theorem State.engineWrite_formed (s0 : State) (agent : Nat) (p : Page) (pa : Nat) (bs : List Byte) (hw : State.Formed s0)
    : State.Formed (State.engineWrite s0 agent p pa bs) := by
  unfold State.engineWrite
  try dsimp only
  repeat' (first | with_reducible exact hw | with_reducible apply State.withMem_formed
                 | with_reducible apply State.notePast_formed | with_reducible apply State.answered_formed
                 | with_reducible apply State.countTimeout_formed | with_reducible apply State.writeReplicas_formed
                 | with_reducible apply State.engineStore_formed | with_reducible apply foldl_formed_fst | (intro _) | split
                 | with_reducible apply formed_mem | with_reducible apply formed_bytes
                 | (change Memory.wf _ = true; dsimp only) | with_reducible apply Memory.wf_puts)

theorem MemSys.fillIcache_formed (m : MemSys) (l : ILine) (hw : m.Formed) : (MemSys.fillIcache m l).Formed := by
  unfold MemSys.fillIcache
  try dsimp only
  repeat' (first | with_reducible exact hw | split | with_reducible apply formed_bytes | (change Memory.wf _ = true; dsimp only))

theorem State.fetchLine_formed (s : State) (core pa key : Nat) (hw : State.Formed s)
    : State.Formed (State.fetchLine s core pa key).1 := by
  unfold State.fetchLine
  try dsimp only
  repeat' (first | with_reducible exact hw | with_reducible apply State.withMem_formed
                 | with_reducible apply MemSys.fillIcache_formed | split | with_reducible apply formed_mem)

theorem State.fetch_formed (s : State) (w : Who) (pc : Nat) (hw : State.Formed s) : State.Formed (State.fetch s w pc).1 := by
  unfold State.fetch
  try dsimp only
  repeat' (first | with_reducible exact hw | with_reducible apply State.resolve_formed
                 | with_reducible apply State.fetchLine_formed | (with_reducible apply formed_fst; with_reducible assumption)
                 | split)

end Sys2Proof.Machine
end

