-- ==== Sys2Proof/Laws/FormedIssue.lean ====
section
/-!
SUPPORT. The issue rules, traps, crews and parked threads: what they answer keeps the memory's canonical form.
-/
namespace Sys2Proof.Machine

theorem State.raiseFlags_formed (s : State) (k : Nat) (f : BitVec 6) (hw : State.Formed s)
    : State.Formed (State.raiseFlags s k f) := by
  unfold State.raiseFlags
  try dsimp only
  repeat' (first | with_reducible exact hw | with_reducible apply State.modThread_formed)

theorem State.writeReg_formed (s : State) (k : Nat) (r : Reg) (v : Word) (hw : State.Formed s)
    : State.Formed (State.writeReg s k r v) := by
  unfold State.writeReg
  try dsimp only
  repeat' (first | with_reducible exact hw | with_reducible apply State.modThread_formed | split)

theorem State.leaveBundle_formed (s : State) (k : Nat) (hw : State.Formed s) : State.Formed (State.leaveBundle s k) := by
  unfold State.leaveBundle
  try dsimp only
  repeat' (first | with_reducible exact hw | with_reducible apply State.modCore_formed | split)

theorem State.parkThread_formed (s : State) (k : Nat) (p : Park) (i : Instr) (hw : State.Formed s)
    : State.Formed (State.parkThread s k p i) := by
  unfold State.parkThread
  try dsimp only
  repeat' (first | with_reducible exact hw | with_reducible apply State.modThread_formed | with_reducible apply formed_mem
                 | (change MemSys.Formed _; dsimp only))

theorem State.goTo_formed (s : State) (k : Nat) (pc : Word) (hw : State.Formed s) : State.Formed (State.goTo s k pc) := by
  unfold State.goTo
  try dsimp only
  repeat' (first | with_reducible exact hw | with_reducible apply State.modThread_formed)

theorem State.putFrame_formed (s : State) (a : Nat) (ws : List Word) (hw : State.Formed s)
    : State.Formed (State.putFrame s a ws) := by
  unfold State.putFrame
  try dsimp only
  repeat' (first | with_reducible exact hw | with_reducible apply State.hwPut_formed)

theorem State.escRecord_formed (s : State) (frame : Nat) (cause value tid : Word) (hw : State.Formed s)
    : State.Formed (State.escRecord s frame cause value tid) := by
  unfold State.escRecord
  try dsimp only
  repeat' (first | with_reducible exact hw | with_reducible apply State.hwPut_formed | with_reducible apply formed_mem
                 | (change MemSys.Formed _; dsimp only))

theorem State.dropEscalated_formed (s : State) (k : Nat) (hw : State.Formed s) : State.Formed (State.dropEscalated s k) := by
  unfold State.dropEscalated
  try dsimp only
  repeat' (first | with_reducible exact hw | with_reducible apply formed_mem | (change MemSys.Formed _; dsimp only))

theorem State.modCounted_formed (s : State) (key : Nat) (f : Thread → Thread) (hw : State.Formed s)
    : State.Formed (State.modCounted s key f) := by
  unfold State.modCounted
  try dsimp only
  repeat' (first | with_reducible exact hw | with_reducible apply State.modThread_formed | split
                 | with_reducible apply formed_mem | (change MemSys.Formed _; dsimp only))

theorem State.keepCounters_formed (s : State) (n : Nat) (hw : State.Formed s) : State.Formed (State.keepCounters s n) := by
  unfold State.keepCounters
  try dsimp only
  repeat' (first | with_reducible exact hw | with_reducible apply State.modThread_formed | split
                 | with_reducible apply formed_mem | (change MemSys.Formed _; dsimp only))

theorem State.vacate_formed (s : State) (n : Nat) (hw : State.Formed s) : State.Formed (State.vacate s n) := by
  unfold State.vacate
  try dsimp only
  repeat' (first | with_reducible exact hw | with_reducible apply formed_mem | (change MemSys.Formed _; dsimp only))

theorem State.idleHart_formed (s : State) (n : Nat) (hw : State.Formed s) : State.Formed (State.idleHart s n) := by
  unfold State.idleHart
  try dsimp only
  repeat' (first | with_reducible exact hw | with_reducible apply State.modHart_formed
                 | with_reducible apply State.keepCounters_formed | with_reducible apply State.vacate_formed)

theorem State.loadHart_formed (s : State) (n a : Nat) (hw : State.Formed s) : State.Formed (State.loadHart s n a) := by
  unfold State.loadHart
  try dsimp only
  repeat' (first | with_reducible exact hw | with_reducible apply State.setThread_formed
                 | with_reducible apply State.modHart_formed | with_reducible apply State.keepCounters_formed
                 | with_reducible apply formed_mem | (change MemSys.Formed _; dsimp only))

theorem State.loadSup_formed (s : State) (n : Nat) (hw : State.Formed s) : State.Formed (State.loadSup s n) := by
  unfold State.loadSup
  try dsimp only
  repeat' (first | with_reducible exact hw | with_reducible apply State.idleHart_formed
                 | with_reducible apply State.loadHart_formed | split)

theorem State.escalateHart_formed (s : State) (n : Nat) (cause value : Word) (hw : State.Formed s)
    : State.Formed (State.escalateHart s n cause value) := by
  unfold State.escalateHart
  try dsimp only
  repeat' (first | with_reducible exact hw | with_reducible apply State.putFrame_formed
                 | with_reducible apply State.escRecord_formed | with_reducible apply State.loadSup_formed | split)

theorem State.scrub_formed (s : State) (k : Nat) (hw : State.Formed s) : State.Formed (State.scrub s k) := by
  unfold State.scrub
  try dsimp only
  repeat' (first | with_reducible exact hw | with_reducible apply State.modThread_formed
                 | with_reducible apply State.countParity_formed | with_reducible apply foldl_formed | (intro _))

theorem State.escalateLane_formed (s : State) (k : Nat) (cause value : Word) (hw : State.Formed s)
    : State.Formed (State.escalateLane s k cause value) := by
  unfold State.escalateLane
  try dsimp only
  repeat' (first | with_reducible exact hw | with_reducible apply State.modThread_formed
                 | with_reducible apply State.modDie_formed | with_reducible apply State.putFrame_formed
                 | with_reducible apply State.escRecord_formed | with_reducible apply State.scrub_formed | split)

theorem State.escalate_formed (s : State) (k : Nat) (cause value ret : Word) (hw : State.Formed s)
    : State.Formed (State.escalate s k cause value ret) := by
  unfold State.escalate
  try dsimp only
  repeat' (first | with_reducible exact hw | with_reducible apply State.modThread_formed
                 | with_reducible apply State.leaveBundle_formed | with_reducible apply State.escalateHart_formed
                 | with_reducible apply State.escalateLane_formed | split)

theorem State.stopCrew_formed (s : State) (c : Nat) (hw : State.Formed s) : State.Formed (State.stopCrew s c) := by
  unfold State.stopCrew
  try dsimp only
  repeat' (first | with_reducible exact hw | with_reducible apply State.leaveBundle_formed | with_reducible apply foldl_formed)

theorem State.pageFault_formed (s : State) (k : Nat) (cause va : Word) (hw : State.Formed s)
    : State.Formed (State.pageFault s k cause va) := by
  unfold State.pageFault
  try dsimp only
  repeat' (first | with_reducible exact hw | with_reducible apply State.modThread_formed
                 | with_reducible apply State.modCrew_formed | with_reducible apply State.stopCrew_formed)

theorem State.takeTrap_formed (s : State) (k cause sub : Nat) (value ret : Word) (hw : State.Formed s)
    : State.Formed (State.takeTrap s k cause sub value ret) := by
  unfold State.takeTrap
  try dsimp only
  repeat' (first | with_reducible exact hw | with_reducible apply State.setThread_formed
                 | with_reducible apply State.modThread_formed | with_reducible apply State.leaveBundle_formed
                 | with_reducible apply State.escalate_formed | with_reducible apply State.pageFault_formed | split)

theorem State.takeHeldTrap_formed (s : State) (k : Nat) (h : Thread) (hw : State.Formed s)
    : State.Formed (State.takeHeldTrap s k h) := by
  unfold State.takeHeldTrap
  try dsimp only
  repeat' (first | with_reducible exact hw | with_reducible apply State.takeTrap_formed | split)

theorem State.fit_formed_res {s : State} {k : Nat} {i : Instr} {kind : Kind} {regs : List Nat} {r : Res}
    (e : s.fit k i kind regs = some r) : Res.Formed r := by
  unfold State.fit at e
  repeat' (first | (cases e; first | done | trivial) | split at e)
  obtain ⟨_, _, e⟩ := Option.map_eq_some_iff.mp e
  cases e; trivial
theorem State.badRead_formed_res {s : State} {k : Nat} {i : Instr} {r : Res} (e : s.badRead k i = some r) (hw : State.Formed s)
    : Res.Formed r := by
  obtain ⟨_, _, e⟩ := Option.map_eq_some_iff.mp e
  cases e; exact State.countParity_formed _ _ hw
theorem State.check_formed {s : State} {k : Nat} {i : Instr} {kind : Kind} {regs : List Nat} {r : Res}
    (e : s.check k i kind regs = some r) (hw : State.Formed s) : Res.Formed r := by
  unfold State.check at e
  cases h : s.fit k i kind regs with
  | some x => rw [h] at e; cases e; exact State.fit_formed_res h
  | none => rw [h] at e; exact State.badRead_formed_res e hw

theorem State.holdSpec_formed (s : State) (k : Nat) (hw : State.Formed s) : State.Formed (State.holdSpec s k) := by
  unfold State.holdSpec
  try dsimp only
  repeat' (first | with_reducible exact hw | with_reducible apply State.modThread_formed)

theorem State.holdTrap_formed (s : State) (k cause sub : Nat) (value ret : Word) (hw : State.Formed s)
    : State.Formed (State.holdTrap s k cause sub value ret) := by
  unfold State.holdTrap
  try dsimp only
  repeat' (first | with_reducible exact hw | with_reducible apply State.modThread_formed
                 | with_reducible apply State.leaveBundle_formed)

theorem State.raise_formed (s : State) (k cause sub : Nat) (value ret : Word) (hw : State.Formed s)
    : State.Formed (State.raise s k cause sub value ret) := by
  unfold State.raise
  try dsimp only
  repeat' (first | with_reducible exact hw | with_reducible apply State.takeTrap_formed
                 | with_reducible apply State.holdTrap_formed | split)

theorem State.applyRes_formed (s : State) (k : Nat) (r : Res) (hw : State.Formed s) (hr : Res.Formed r)
    : State.Formed (s.applyRes k r).1 := by
  unfold State.applyRes
  dsimp only
  repeat' (first | exact hr | with_reducible exact hw | with_reducible exact hr | with_reducible apply State.raise_formed
                 | with_reducible apply State.holdSpec_formed | with_reducible apply State.leaveBundle_formed
                 | with_reducible apply State.modThread_formed | split)

theorem State.guardedPart_formed (s : State) (k : Nat) (g : Guard) (chk : Option Res) (sp : SpecRule)
    (body : Nat → State → Res) (hw : State.Formed s) (hc : ∀ r, chk = some r → Res.Formed r) (hb : ∀ k s, State.Formed s → Res.Formed (body k s)) :
    Res.Formed (s.guardedPart k g chk sp body) := by
  unfold State.guardedPart
  split
  · exact hw
  · split
    · exact hc _ rfl
    · split
      · exact State.holdSpec_formed _ _ hw
      · exact hb _ _ hw

theorem State.threadPart_formed (s : State) (k : Nat) (g : Guard) (i : Instr) (kind : Kind) (regs : List Nat) (sp : SpecRule)
    (body : Nat → State → Res) (hw : State.Formed s) (hb : ∀ k s, State.Formed s → Res.Formed (body k s)) : Res.Formed (s.threadPart k g i kind regs sp body) :=
  State.guardedPart_formed _ _ _ _ _ _ hw (fun _ e => State.check_formed e hw) hb

theorem runThreads_formed {f : State → Nat → Res} (hf : ∀ s k, State.Formed s → Res.Formed (f s k)) :
    ∀ {ks : List Nat} {s s' : State} {kept l : List Nat}, runThreads f ks s kept = some (s', l) → State.Formed s → State.Formed s'
  | [], s, s', kept, l, e, hw => by cases e; exact hw
  | k :: ks, s, s', kept, l, e, hw => by
    unfold runThreads at e
    split at e
    · cases e
    · exact runThreads_formed hf e (State.applyRes_formed _ _ _ hw (hf _ _ hw))

theorem State.splitBundle_formed (s : State) (kept : List Nat) (hw : State.Formed s)
    : State.Formed (State.splitBundle s kept) := by
  unfold State.splitBundle
  try dsimp only
  repeat' (first | with_reducible exact hw | with_reducible assumption | with_reducible apply State.leaveBundle_formed
                 | with_reducible apply foldl_formed | (intro _) | split)

theorem Res_alone_wf {s : State} {r : Res} (hw : State.Formed s) (hr : Res.Formed r)
                                                                                                                                      : Res.Formed (r.alone s) := by cases r <;> first | exact hr | exact hw
theorem State.issueApart_formed (s : State) (f : State → Nat → Res) (hw : State.Formed s)
    (hf : ∀ s k, State.Formed s → Res.Formed (f s k)) :
    State.Formed (s.issueApart f) := by
  unfold State.issueApart
  split
  · exact hw
  · split
    · exact hw
    · next e => exact State.splitBundle_formed _ _ (runThreads_formed (fun s k h => Res_alone_wf h (hf s k h)) e hw)

theorem State.issue_formed (s : State) (i : Instr) (g : Guard) (regs : List Nat) (kind : Kind) (sp : SpecRule)
    (body : Nat → State → Res)
    (hw : State.Formed s) (hb : ∀ k s, State.Formed s → Res.Formed (body k s)) : State.Formed (s.issue i g regs kind sp body) := by
  have hf : ∀ s k, State.Formed s → Res.Formed (s.threadPart k g i kind regs sp body) := fun s k h => State.threadPart_formed s k g i kind regs sp body h hb
  unfold State.issue
  dsimp only
  split
  · exact State.issueApart_formed _ _ hw hf
  · next e => exact State.splitBundle_formed _ _ (runThreads_formed hf e hw)

theorem perThread_formed (s : State) (i : Instr) (g : Guard) (regs : List Nat) (kind : Kind) (sp : SpecRule)
    (body : Nat → State → Res)
    (hw : State.Formed s) (hb : ∀ k s, State.Formed s → Res.Formed (body k s)) : OutFormed (perThread s i g regs kind sp body) := State.issue_formed s i g regs kind sp body hw hb

theorem State.applyGroup_formed (s : State) (grp : List Nat) (r : Res) (hw : State.Formed s) (hr : Res.Formed r)
    : State.Formed (s.applyGroup grp r).1 := by
  unfold State.applyGroup
  split
  · exact foldl_formed_fst _ hr fun p a h => State.applyRes_formed _ _ _ h h
  · exact hw
  · exact foldl_formed_fst _ hw fun p a h => State.applyRes_formed _ _ _ h trivial
  · exact foldl_formed_fst _ hr fun p a h => State.applyRes_formed _ _ _ h trivial

theorem runGroups_formed {f : List Nat → State → Res} (hf : ∀ k s, State.Formed s → Res.Formed (f k s)) :
    ∀ {ks : List (List Nat)} {s s' : State} {kept l : List Nat}, runGroups f ks s kept = some (s', l) → State.Formed s → State.Formed s'
  | [], s, s', kept, l, e, hw => by cases e; exact hw
  | k :: ks, s, s', kept, l, e, hw => by
    unfold runGroups at e
    split at e
    · cases e
    · exact runGroups_formed hf e (State.applyGroup_formed _ _ _ hw (hf _ _ hw))

theorem crewPart_formed (i : Instr) (body : List Nat → State → Res) (hb : ∀ k s, State.Formed s → Res.Formed (body k s))
    (grp : List Nat) (s : State)
    (hw : State.Formed s) : Res.Formed (crewPart i body grp s) := by
  unfold crewPart
  split
  · next e => exact State.badRead_formed_res e hw
  · exact hb _ _ hw

theorem runCrews_formed {f : List Nat → State → Res} (hf : ∀ k s, State.Formed s → Res.Formed (f k s))
    {ks : List (List Nat)} {s s' : State} {l : List Nat}
    (e : runCrews f ks s = some (s', l)) (hw : State.Formed s) : State.Formed s' := by
  unfold runCrews at e
  split at e
  · next e1 => cases e; exact runGroups_formed hf e1 hw
  · split at e
    · cases e
    · exact runGroups_formed (f := fun g s => (f g s).alone s) (fun g s h => Res_alone_wf h (hf g s h)) e hw
theorem State.issueCrews_formed (s : State) (i : Instr) (g : Guard) (regs : List Nat) (kind : Kind) (sp : SpecRule)
    (body : List Nat → State → Res) (hw : State.Formed s) (hb : ∀ k s, State.Formed s → Res.Formed (body k s)) :
    State.Formed (s.issueCrews i g regs kind sp body) := by
  unfold State.issueCrews
  dsimp only
  split
  · exact hw
  · next e =>
    have h1 := runThreads_formed (fun s k h => State.guardedPart_formed s k g (s.fit k i kind regs) sp (fun _ s => .go s .stay) h
      (fun _ e => State.fit_formed_res e) (fun _ _ h => h)) e hw
    split
    · exact hw
    · next e2 => exact State.splitBundle_formed _ _ (runCrews_formed (crewPart_formed i body hb) e2 h1)

theorem perCrew_formed (s : State) (i : Instr) (g : Guard) (regs : List Nat) (kind : Kind) (sp : SpecRule)
    (body : List Nat → State → Res)
    (hw : State.Formed s) (hb : ∀ k s, State.Formed s → Res.Formed (body k s)) : OutFormed (perCrew s i g regs kind sp body) :=
  State.issueCrews_formed s i g regs kind sp body hw hb

theorem State.draw_formed (s : State) (hw : State.Formed s) : State.Formed (State.draw s).2 := by
  unfold State.draw
  try dsimp only
  repeat' (first | with_reducible exact hw | with_reducible apply formed_mem | (change MemSys.Formed _; dsimp only))

theorem State.edgeAll_formed (s : State) (bit : Nat) (hw : State.Formed s) : State.Formed (State.edgeAll s bit) := by
  unfold State.edgeAll
  try dsimp only
  repeat' (first | with_reducible exact hw | with_reducible apply State.modHart_formed | with_reducible apply foldl_formed
                 | (intro _))

theorem State.netEvent_formed (s : State) (net bit : Nat) (hw : State.Formed s) : State.Formed (State.netEvent s net bit) := by
  unfold State.netEvent
  try dsimp only
  repeat' (first | with_reducible exact hw | with_reducible apply State.setNet_formed | with_reducible apply State.edgeAll_formed)

theorem State.pkgEvent_formed (s : State) (bit : Nat) (hw : State.Formed s) : State.Formed (State.pkgEvent s bit) := by
  unfold State.pkgEvent
  try dsimp only
  repeat' (first | with_reducible exact hw | with_reducible apply State.edgeAll_formed | with_reducible apply formed_mem
                 | (change MemSys.Formed _; dsimp only))

theorem State.enterBoundary_formed (s : State) (hw : State.Formed s) : State.Formed (State.enterBoundary s) := by
  unfold State.enterBoundary
  try dsimp only
  repeat' (first | with_reducible exact hw | with_reducible apply State.putFrame_formed
                 | with_reducible apply State.loadHart_formed | split)

theorem State.tick_formed (s : State) (hw : State.Formed s) : State.Formed (State.tick s) := by
  unfold State.tick
  try dsimp only
  repeat' (first | with_reducible exact hw | with_reducible apply formed_mem | (change MemSys.Formed _; dsimp only))

theorem State.noteIssue_formed (s0 s : State) (w : BitVec 64) (hw : State.Formed s) : State.Formed (s0.noteIssue s w) := by
  unfold State.noteIssue
  repeat' (first | with_reducible exact hw | with_reducible exact State.modCore_formed _ _ _ hw | split)

theorem State.fetchFault_formed (s : State) (ks : List Nat) (cause sub : Nat) (hw : State.Formed s)
    : State.Formed (State.fetchFault s ks cause sub) := by
  unfold State.fetchFault
  try dsimp only
  repeat' (first | with_reducible exact hw | with_reducible apply State.raise_formed | with_reducible apply foldl_formed
                 | (intro _))

theorem State.illegalWord_formed (s : State) (w : BitVec 64) (hw : State.Formed s) : State.Formed (s.illegalWord w) := by
  unfold State.illegalWord
  dsimp only
  split
  · exact hw
  · next e =>
    refine State.splitBundle_formed _ _ (runThreads_formed (fun s k h => ?_) e hw)
    split
    · trivial
    · exact h

theorem State.unpark_formed (s : State) (k : Nat) (hw : State.Formed s) : State.Formed (State.unpark s k) := by
  unfold State.unpark
  try dsimp only
  repeat' (first | with_reducible exact hw | with_reducible apply State.modThread_formed)

theorem State.evalJoin_formed (s : State) (c : Nat) (n : BitVec 3) (hw : State.Formed s)
    : State.Formed (State.evalJoin s c n) := by
  unfold State.evalJoin
  try dsimp only
  repeat' (first | with_reducible exact hw | with_reducible apply State.modCrew_formed
                 | with_reducible apply State.unpark_formed | with_reducible apply foldl_formed | split)

theorem State.evalJoins_formed (s : State) (c : Nat) (hw : State.Formed s) : State.Formed (State.evalJoins s c) := by
  unfold State.evalJoins
  try dsimp only
  repeat' (first | with_reducible exact hw | with_reducible apply State.evalJoin_formed | with_reducible apply foldl_formed
                 | (intro _))

theorem State.failSet_formed (s : State) (c : Nat) (a : ArrivalSet) (hw : State.Formed s)
    : State.Formed (State.failSet s c a) := by
  unfold State.failSet
  try dsimp only
  repeat' (first | with_reducible exact hw | with_reducible assumption | with_reducible apply State.modThread_formed
                 | with_reducible apply State.modCrew_formed | with_reducible apply State.raise_formed
                 | with_reducible apply foldl_formed | (intro _))

theorem State.failSets_formed (s : State) (c lane : Nat) (hw : State.Formed s) : State.Formed (State.failSets s c lane) := by
  unfold State.failSets
  try dsimp only
  repeat' (first | with_reducible exact hw | with_reducible apply State.failSet_formed | with_reducible apply foldl_formed
                 | (intro _) | split)

theorem State.gbarCheck_formed (s : State) (seq : Nat) (hw : State.Formed s) : State.Formed (State.gbarCheck s seq) := by
  unfold State.gbarCheck
  try dsimp only
  repeat' (first | with_reducible exact hw | with_reducible apply State.modGang_formed | split)

theorem State.withdraw_formed (s : State) (k : Nat) (hw : State.Formed s) : State.Formed (State.withdraw s k) := by
  unfold State.withdraw
  try dsimp only
  repeat' (first | with_reducible exact hw | with_reducible apply State.modThread_formed
                 | with_reducible apply State.modCrew_formed | with_reducible apply State.modGang_formed | split)

theorem State.touchCtx_formed (s : State) (w : Who) (va : Nat) (hw : State.Formed s) : State.Formed (State.touchCtx s w va) := by
  unfold State.touchCtx
  try dsimp only
  repeat' (first | with_reducible exact hw | with_reducible apply State.resolve_formed)

theorem State.ctxPut_formed (s : State) (w : Who) (va : Nat) (bs : List Byte) (hw : State.Formed s)
    : State.Formed (State.ctxPut s w va bs) := by
  unfold State.ctxPut
  try dsimp only
  repeat' (first | with_reducible exact hw | with_reducible assumption | with_reducible apply State.resolve_formed
                 | with_reducible apply State.engineWrite_formed | (with_reducible apply formed_fst; with_reducible assumption)
                 | with_reducible apply foldl_formed_fst | (intro _) | split)

theorem State.ctxPutWord_formed (s : State) (w : Who) (va : Nat) (v : Word) (hw : State.Formed s)
    : State.Formed (State.ctxPutWord s w va v) := by
  unfold State.ctxPutWord
  try dsimp only
  repeat' (first | with_reducible exact hw | with_reducible apply State.ctxPut_formed)

theorem State.putKused_formed (s : State) (c : Ctx) (block : Word) (n : Nat) (hw : State.Formed s)
    : State.Formed (State.putKused s c block n) := by
  unfold State.putKused
  try dsimp only
  repeat' (first | with_reducible exact hw | with_reducible apply State.ctxPutWord_formed)

theorem State.chargeKaolin_formed (s : State) (c : Ctx) (d : Nat) (leaf : Word) (hw : State.Formed s)
    : OptFormed (State.chargeKaolin s c d leaf) := by
  unfold State.chargeKaolin
  try dsimp only
  repeat' (first | with_reducible exact hw | with_reducible apply State.putKused_formed | with_reducible apply optFormed_some
                 | with_reducible apply foldl_formed | (intro _) | split | trivial)

theorem State.returnKaolin_formed (s : State) (c : Ctx) (d : Nat) (leaf : Word) (hw : State.Formed s)
    : State.Formed (State.returnKaolin s c d leaf) := by
  unfold State.returnKaolin
  try dsimp only
  repeat' (first | with_reducible exact hw | with_reducible apply State.putKused_formed | with_reducible apply foldl_formed
                 | (intro _) | split)

theorem State.putRegionWord_formed (s : State) (c : Ctx) (b : Word) (off : Nat) (v : Word) (hw : State.Formed s)
    : State.Formed (State.putRegionWord s c b off v) := by
  unfold State.putRegionWord
  try dsimp only
  repeat' (first | with_reducible exact hw | with_reducible apply State.ctxPutWord_formed | split
                 | with_reducible apply formed_mem | (change MemSys.Formed _; dsimp only))

theorem State.writeBackBlock_formed (s : State) (r : RegionBlock) (hw : State.Formed s)
    : State.Formed (State.writeBackBlock s r) := by
  unfold State.writeBackBlock
  try dsimp only
  repeat' (first | with_reducible exact hw | with_reducible apply State.ctxPutWord_formed | with_reducible apply foldl_formed
                 | (intro _))

theorem State.writeBackPath_formed (s : State) (c : Ctx) (d : Nat) (leaf : Word) (hw : State.Formed s)
    : State.Formed (State.writeBackPath s c d leaf) := by
  unfold State.writeBackPath
  try dsimp only
  repeat' (first | with_reducible exact hw | with_reducible apply State.writeBackBlock_formed
                 | with_reducible apply foldl_formed | split)

theorem State.writeBackAll_formed (s : State) (hw : State.Formed s) : State.Formed (State.writeBackAll s) := by
  unfold State.writeBackAll
  try dsimp only
  repeat' (first | with_reducible exact hw | with_reducible apply State.writeBackBlock_formed | with_reducible apply foldl_formed)

theorem State.putDeficit_formed (s : State) (c : Ctx) (b : Word) (v : Int) (hw : State.Formed s)
    : State.Formed (State.putDeficit s c b v) := by
  unfold State.putDeficit
  try dsimp only
  repeat' (first | with_reducible exact hw | with_reducible apply State.putRegionWord_formed)

theorem State.postCharge_formed (s : State) (c : Ctx) (d : Nat) (leaf : Word) (n : Nat) (hw : State.Formed s)
    : State.Formed (State.postCharge s c d leaf n) := by
  unfold State.postCharge
  try dsimp only
  repeat' (first | with_reducible exact hw | with_reducible assumption | with_reducible apply State.putRegionWord_formed
                 | with_reducible apply State.putDeficit_formed | with_reducible apply foldl_formed | (intro _) | split)

theorem State.accrue_formed (s : State) (core : Nat) (hw : State.Formed s) : State.Formed (State.accrue s core) := by
  unfold State.accrue
  try dsimp only
  repeat' (first | with_reducible exact hw | with_reducible apply State.modCore_formed)

theorem State.postOne_formed (s : State) (core : Nat) (x : Charge) (hw : State.Formed s)
    : State.Formed (State.postOne s core x) := by
  unfold State.postOne
  try dsimp only
  repeat' (first | with_reducible exact hw | with_reducible apply State.modCore_formed
                 | with_reducible apply State.postCharge_formed)

theorem State.postCharges_formed (s : State) (core : Nat) (p : Charge → Bool) (hw : State.Formed s)
    : State.Formed (State.postCharges s core p) := by
  unfold State.postCharges
  try dsimp only
  repeat' (first | with_reducible exact hw | with_reducible apply State.accrue_formed
                 | with_reducible apply State.postOne_formed | with_reducible apply foldl_formed | (intro _))

theorem State.postLeaving_formed (s : State) (core asid : Nat) (region : Word) (hw : State.Formed s)
    : State.Formed (State.postLeaving s core asid region) := by
  unfold State.postLeaving
  try dsimp only
  repeat' (first | with_reducible exact hw | with_reducible apply State.postCharges_formed | split)

theorem State.chargeLoam_formed (s : State) (c : Ctx) (d : Nat) (leaf : Word) (n : Int) (hw : State.Formed s)
    : State.Formed (State.chargeLoam s c d leaf n) := by
  unfold State.chargeLoam
  try dsimp only
  repeat' (first | with_reducible exact hw | with_reducible apply State.putRegionWord_formed
                 | with_reducible apply foldl_formed | (intro _) | split)

theorem State.recount_formed (s : State) (c : Ctx) (d : Nat) (leaf : Word) (hw : State.Formed s)
    : State.Formed (State.recount s c d leaf) := by
  unfold State.recount
  try dsimp only
  repeat' (first | with_reducible exact hw | with_reducible apply State.putRegionWord_formed
                 | with_reducible apply foldl_formed | (intro _) | split)

theorem State.leaveRings_formed (s : State) (c : Ctx) (d : Nat) (leaf : Word) (hw : State.Formed s)
    : State.Formed (State.leaveRings s c d leaf) := by
  unfold State.leaveRings
  try dsimp only
  repeat' (first | with_reducible exact hw | with_reducible apply State.putDeficit_formed | with_reducible apply foldl_formed
                 | (intro _) | split)

theorem State.freeCrewHandles_formed (s : State) (c : Nat) (hw : State.Formed s) : State.Formed (State.freeCrewHandles s c) := by
  unfold State.freeCrewHandles
  try dsimp only
  repeat' (first | with_reducible exact hw | with_reducible assumption | with_reducible apply State.modCore_formed
                 | with_reducible apply State.returnKaolin_formed | with_reducible apply foldl_formed | (intro _))

theorem State.releaseCrew_formed (s : State) (c : Nat) (hw : State.Formed s) : State.Formed (State.releaseCrew s c) := by
  unfold State.releaseCrew
  try dsimp only
  repeat' (first | with_reducible exact hw | with_reducible apply State.modDie_formed
                 | with_reducible apply State.writeBackPath_formed | with_reducible apply State.accrue_formed
                 | with_reducible apply State.postLeaving_formed | with_reducible apply State.chargeLoam_formed
                 | with_reducible apply State.recount_formed | with_reducible apply State.leaveRings_formed
                 | with_reducible apply State.freeCrewHandles_formed | split | with_reducible apply formed_mem
                 | (change MemSys.Formed _; dsimp only))

theorem State.reapCrew_formed (s : State) (c : Nat) (hw : State.Formed s) : State.Formed (State.reapCrew s c) := by
  unfold State.reapCrew
  try dsimp only
  repeat' (first | with_reducible exact hw | with_reducible apply State.releaseCrew_formed | split)

theorem State.patchExit_formed (s : State) (f lane : Nat) (last : Bool) (hw : State.Formed s)
    : State.Formed (State.patchExit s f lane last) := by
  unfold State.patchExit
  try dsimp only
  repeat' (first | with_reducible exact hw | with_reducible assumption | with_reducible apply State.hwPutWord_formed
                 | with_reducible apply foldl_formed | (intro _) | split)

theorem State.endThread_formed (s : State) (k : Nat) (hw : State.Formed s) : State.Formed (State.endThread s k) := by
  unfold State.endThread
  try dsimp only
  repeat' (first | with_reducible exact hw | with_reducible apply State.modCrew_formed
                 | with_reducible apply State.modGang_formed | with_reducible apply State.leaveBundle_formed
                 | with_reducible apply State.dropEscalated_formed | with_reducible apply State.failSets_formed
                 | with_reducible apply State.patchExit_formed | split | with_reducible apply formed_mem
                 | (change MemSys.Formed _; dsimp only))

theorem State.afterExits_formed (s : State) (cs seqs : List Nat) (hw : State.Formed s)
    : State.Formed (State.afterExits s cs seqs) := by
  unfold State.afterExits
  try dsimp only
  repeat' (first | with_reducible exact hw | with_reducible apply State.evalJoins_formed
                 | with_reducible apply State.gbarCheck_formed | with_reducible apply State.reapCrew_formed
                 | with_reducible apply foldl_formed)

theorem State.completeSet_formed (s : State) (c : Nat) (g : Guard) (d : Reg) (members : List Nat) (res : XResult)
    (hw : State.Formed s) : State.Formed (State.completeSet s c g d members res) := by
  unfold State.completeSet
  try dsimp only
  repeat' (first | with_reducible exact hw | with_reducible assumption | with_reducible apply State.modCrew_formed
                 | with_reducible apply State.raiseFlags_formed | with_reducible apply State.writeReg_formed
                 | with_reducible apply State.leaveBundle_formed | with_reducible apply State.unpark_formed
                 | with_reducible apply foldl_formed | (intro _) | split)

set_option maxRecDepth 4000 in
theorem State.arrive_formed (s : State) (k : Nat) (i : Instr) (g : Guard) (d c : Reg) (res : XResult) (hw : State.Formed s)
    : Res.Formed (State.arrive s k i g d c res) := by
  unfold State.arrive
  try dsimp only
  repeat' (first | with_reducible exact hw | with_reducible apply State.modCrew_formed
                 | with_reducible apply State.leaveBundle_formed | with_reducible apply State.parkThread_formed
                 | with_reducible apply State.takeTrap_formed | with_reducible apply State.holdSpec_formed
                 | with_reducible apply State.failSet_formed | with_reducible apply State.completeSet_formed
                 | with_reducible apply resFormed_go | split)

theorem xlane_formed (s : State) (i : Instr) (g : Guard) (regs : List Reg) (d c : Reg) (res : XResult) (hw : State.Formed s) :
    OutFormed (xlane s i g regs d c res) := by
  unfold xlane
  dsimp only
  split
  · exact hw
  · next e =>
    refine State.splitBundle_formed _ _ (runThreads_formed (fun s k h => ?_) e hw)
    repeat' (first | with_reducible exact h | with_reducible exact State.arrive_formed _ _ _ _ _ _ _ h
                   | with_reducible apply State.holdSpec_formed | with_reducible apply resFormed_go
                   | exact State.check_formed (by assumption) h | split)

theorem joinInstr_formed (s : State) (i : Instr) (g : Guard) (body : Nat → State → Res)
    (hw : State.Formed s) (hb : ∀ k s, State.Formed s → Res.Formed (body k s)) : OutFormed (joinInstr s i g body) :=
  foldl_formed _ (State.issue_formed s i g _ _ _ body hw hb) fun s a h => State.evalJoins_formed s a h

theorem State.modJoin_formed (s : State) (k : Nat) (n : BitVec 3) (f : Join → Join) (hw : State.Formed s)
    : State.Formed (State.modJoin s k n f) := by
  unfold State.modJoin
  try dsimp only
  repeat' (first | with_reducible exact hw | with_reducible apply State.modCrew_formed)

theorem State.patchSaved_formed (s : State) (k : Nat) (hw : State.Formed s) : State.Formed (State.patchSaved s k) := by
  unfold State.patchSaved
  try dsimp only
  repeat' (first | with_reducible exact hw | with_reducible apply State.hwPutWord_formed | split)

theorem State.shmap_formed (s : State) (k : Nat) (d a t : Reg) (count : Nat) (hw : State.Formed s)
    : Res.Formed (State.shmap s k d a t count) := by
  unfold State.shmap
  try dsimp only
  repeat' (first | with_reducible exact hw | with_reducible apply State.modCrew_formed | with_reducible apply resFormed_go
                 | split | trivial)

theorem State.putFull_formed (s : State) (k n : Nat) (v : Bool) (hw : State.Formed s) : State.Formed (State.putFull s k n v) := by
  unfold State.putFull
  try dsimp only
  repeat' (first | with_reducible exact hw | with_reducible apply State.modCrew_formed)

theorem State.parkShared_formed (s : State) (k : Nat) (i : Instr) (hw : State.Formed s)
    : State.Formed (State.parkShared s k i) := by
  unfold State.parkShared
  try dsimp only
  repeat' (first | with_reducible exact hw | with_reducible apply State.modThread_formed)

theorem State.setfTry_formed (s : State) (k : Nat) (d a : Reg) (hw : State.Formed s) : OptFormed (State.setfTry s k d a) := by
  unfold State.setfTry
  try dsimp only
  repeat' (first | with_reducible exact hw | with_reducible apply State.writeReg_formed
                 | with_reducible apply State.putFull_formed | with_reducible apply optFormed_some | split | trivial)

theorem State.takefTry_formed (s : State) (k : Nat) (d a : Reg) (hw : State.Formed s) : OptFormed (State.takefTry s k d a) := by
  unfold State.takefTry
  try dsimp only
  repeat' (first | with_reducible exact hw | with_reducible apply State.writeReg_formed
                 | with_reducible apply State.putFull_formed | with_reducible apply optFormed_some | split | trivial)

theorem State.putCbCtr_formed (s : State) (c : Crew) (k : Nat) (w : Word) (hw : State.Formed s)
    : State.Formed (State.putCbCtr s c k w) := by
  unfold State.putCbCtr
  try dsimp only
  repeat' (first | with_reducible exact hw | with_reducible apply State.modCore_formed
                 | with_reducible apply State.putSpecWord_formed)

theorem State.cbUse_formed (s : State) (grp : List Nat) (k : Nat) (f : Crew → Word → Word → CbTry) (hw : State.Formed s)
    (hf : ∀ c x y, CbTry.Formed (f c x y)) :
    CbTry.Formed (s.cbUse grp k f) := by
  unfold State.cbUse
  repeat' (first | trivial | with_reducible exact hf _ _ _ | split)

theorem State.cbwaitTry_formed (s : State) (grp : List Nat) (prod : Bool) (d : Reg) (k : Nat) (hw : State.Formed s)
    : CbTry.Formed (State.cbwaitTry s grp prod d k) := by
  unfold State.cbwaitTry
  try dsimp only
  repeat' (first | with_reducible exact hw | with_reducible apply State.writeReg_formed
                 | with_reducible apply State.cbUse_formed | with_reducible apply cbFormed_done
                 | with_reducible apply foldl_formed | (intro _) | split | trivial)

theorem State.cbpushTry_formed (s : State) (grp : List Nat) (k : Nat) (hw : State.Formed s)
    : CbTry.Formed (State.cbpushTry s grp k) := by
  unfold State.cbpushTry
  try dsimp only
  repeat' (first | with_reducible exact hw | with_reducible apply State.putCbCtr_formed
                 | with_reducible apply State.cbUse_formed | with_reducible apply cbFormed_done | (intro _) | split | trivial)

theorem State.cbpopTry_formed (s : State) (grp : List Nat) (k : Nat) (hw : State.Formed s)
    : CbTry.Formed (State.cbpopTry s grp k) := by
  unfold State.cbpopTry
  try dsimp only
  repeat' (first | with_reducible exact hw | with_reducible apply State.putCbCtr_formed
                 | with_reducible apply State.cbUse_formed | with_reducible apply cbFormed_done | (intro _) | split | trivial)

theorem State.parkGroup_formed (s : State) (grp : List Nat) (p : Park) (i : Instr) (hw : State.Formed s)
    : State.Formed (State.parkGroup s grp p i) := by
  unfold State.parkGroup
  try dsimp only
  repeat' (first | with_reducible exact hw | with_reducible apply State.modThread_formed | with_reducible apply foldl_formed
                 | (intro _) | with_reducible apply formed_mem | (change MemSys.Formed _; dsimp only))

theorem cbInstr_formed (s : State) (i : Instr) (g : Guard) (regs : List Nat) (rel : Bool) (f : List Nat → State → CbTry)
    (hw : State.Formed s) (hf : ∀ k s, State.Formed s → CbTry.Formed (f k s)) : OutFormed (cbInstr s i g regs rel f) := by
  unfold cbInstr
  apply perCrew_formed _ _ _ _ _ _ _ hw
  intro grp s h
  split
  · trivial
  · have := hf grp s h
    split
    · trivial
    · next e => rw [e] at this; exact this
    · exact State.parkGroup_formed _ _ _ _ h
    · next e => rw [e] at this; exact this

theorem State.resetWatchdog_formed (s : State) (k : Nat) (hw : State.Formed s) : State.Formed (State.resetWatchdog s k) := by
  unfold State.resetWatchdog
  try dsimp only
  repeat' (first | with_reducible exact hw | with_reducible apply State.modCrew_formed | split)

theorem State.youngest_formed (s : State) (k : Nat) (hw : State.Formed s) : State.Formed (State.youngest s k) := by
  unfold State.youngest
  try dsimp only
  repeat' (first | with_reducible exact hw | with_reducible apply State.modThread_formed | with_reducible apply formed_mem
                 | (change MemSys.Formed _; dsimp only))

theorem State.exitFrame_formed (s : State) (n : Nat) (hw : State.Formed s) : State.Formed (State.exitFrame s n) := by
  unfold State.exitFrame
  try dsimp only
  repeat' (first | with_reducible exact hw | with_reducible apply State.putFrame_formed | split)

theorem State.exitHart_formed (s : State) (n : Nat) (hw : State.Formed s) : State.Formed (State.exitHart s n) := by
  unfold State.exitHart
  try dsimp only
  repeat' (first | with_reducible exact hw | with_reducible apply State.escRecord_formed
                 | with_reducible apply State.vacate_formed | with_reducible apply State.loadSup_formed
                 | with_reducible apply State.exitFrame_formed)

theorem State.exitThread_formed (s : State) (k : Nat) (hw : State.Formed s) : Res.Formed (State.exitThread s k) := by
  unfold State.exitThread
  try dsimp only
  repeat' (first | with_reducible exact hw | with_reducible apply State.vacate_formed
                 | with_reducible apply State.loadSup_formed | with_reducible apply State.endThread_formed
                 | with_reducible apply State.afterExits_formed | with_reducible apply State.exitFrame_formed
                 | with_reducible apply State.exitHart_formed | with_reducible apply resFormed_go | split | trivial)

theorem State.send_formed (s : State) (a : Access) (hw : State.Formed s) : State.Formed (State.send s a) := by
  unfold State.send
  try dsimp only
  repeat' (first | with_reducible exact hw | with_reducible apply State.modThread_formed | split
                 | with_reducible apply formed_mem | with_reducible apply formed_bytes | (change MemSys.Formed _; dsimp only)
                 | (change Memory.wf _ = true; dsimp only))

theorem State.putCheckpoint_formed (s : State) (k : Nat) (hw : State.Formed s) : State.Formed (State.putCheckpoint s k) := by
  unfold State.putCheckpoint
  try dsimp only
  repeat' (first | with_reducible exact hw | with_reducible apply State.putLoam_formed
                 | with_reducible apply State.countParity_formed | with_reducible apply foldl_formed | (intro _) | split)

theorem State.restoreCheckpoint_formed (s : State) (k : Nat) (hw : State.Formed s)
    : State.Formed (State.restoreCheckpoint s k) := by
  unfold State.restoreCheckpoint
  try dsimp only
  repeat' (first | with_reducible exact hw | with_reducible apply State.modThread_formed
                 | with_reducible apply State.engineLoam_formed | with_reducible apply State.writeReg_formed
                 | with_reducible apply foldl_formed | (intro _) | split)

theorem State.writeRequest_formed (s : State) (w : Who) (slot : Nat) (e : Nat × Word × Word) (k num : Nat) (ns : Bool)
    (n : BitVec 12) (hw : State.Formed s) : State.Formed (State.writeRequest s w slot e k num ns n) := by
  unfold State.writeRequest
  try dsimp only
  repeat' (first | with_reducible exact hw | with_reducible apply State.hwPutWord_formed
                 | with_reducible apply State.ctxPut_formed | with_reducible apply State.ctxPutWord_formed)

theorem State.scall_formed (s : State) (k : Nat) (n : BitVec 12) (ns : Bool) (pred : Word → Word) (hw : State.Formed s)
    : Res.Formed (State.scall s k n ns pred) := by
  unfold State.scall
  try dsimp only
  repeat' (first | with_reducible exact hw | with_reducible apply State.modThread_formed
                 | with_reducible apply State.resolve_formed | with_reducible apply State.writeReg_formed
                 | with_reducible apply State.edgeAll_formed | with_reducible apply State.putCheckpoint_formed
                 | with_reducible apply State.writeRequest_formed
                 | (with_reducible apply formed_fst; with_reducible assumption) | with_reducible apply resFormed_go | split
                 | with_reducible apply formed_mem | (change MemSys.Formed _; dsimp only) | trivial)

theorem State.settleSpecLoads_formed (s : State) (k : Nat) (squashed : Bool) (hw : State.Formed s)
    : State.Formed (State.settleSpecLoads s k squashed) := by
  unfold State.settleSpecLoads
  try dsimp only
  repeat' (first | with_reducible exact hw | with_reducible apply formed_mem | with_reducible apply formed_bytes
                 | (change MemSys.Formed _; dsimp only) | (change Memory.wf _ = true; dsimp only))

theorem State.commitBuffer_formed (s : State) (k : Nat) (hw : State.Formed s) : State.Formed (State.commitBuffer s k) := by
  unfold State.commitBuffer
  try dsimp only
  repeat' (first | with_reducible exact hw | with_reducible apply State.send_formed | with_reducible apply foldl_formed
                 | (intro _))

theorem State.withdrawIfParked_formed (s : State) (k : Nat) (hw : State.Formed s)
    : State.Formed (State.withdrawIfParked s k) := by
  unfold State.withdrawIfParked
  try dsimp only
  repeat' (first | with_reducible exact hw | with_reducible apply State.withdraw_formed | split)

theorem State.squash_formed (s : State) (k : Nat) (hw : State.Formed s) : State.Formed (State.squash s k) := by
  unfold State.squash
  try dsimp only
  repeat' (first | with_reducible exact hw | with_reducible apply State.modThread_formed
                 | with_reducible apply State.leaveBundle_formed | with_reducible apply State.restoreCheckpoint_formed
                 | with_reducible apply State.settleSpecLoads_formed | with_reducible apply State.withdrawIfParked_formed)

theorem State.reply_formed (s : State) (num : Nat) (v : Word) (hw : State.Formed s) : State.Formed (State.reply s num v) := by
  unfold State.reply
  try dsimp only
  repeat' (first | with_reducible exact hw | with_reducible apply State.modThread_formed
                 | with_reducible apply State.modCore_formed | with_reducible apply State.writeReg_formed
                 | with_reducible apply State.takeTrap_formed | with_reducible apply State.settleSpecLoads_formed
                 | with_reducible apply State.commitBuffer_formed | with_reducible apply State.squash_formed | split)

end Sys2Proof.Machine
end

