-- ==== Sys2Proof/Laws/FormedTile.lean ====
section
/-!
SUPPORT. Tile records, residencies, rings, engines and the network: what they answer keeps the memory's canonical form.
-/
namespace Sys2Proof.Machine

theorem State.place_formed (s : State) (w : Who) (va n : Nat) (acc : AccKind) (hw : State.Formed s)
    : State.Formed (State.place s w va n acc).1 := by
  unfold State.place
  try dsimp only
  repeat' (first | with_reducible exact hw | with_reducible apply State.resolve_formed
                 | (with_reducible apply formed_fst; with_reducible assumption) | split)

theorem State.readLoam_formed (s : State) (k core : Nat) (sp : LoamSpot) (off n : Nat) (hw : State.Formed s)
    : State.Formed (State.readLoam s k core sp off n).1 := by
  unfold State.readLoam
  try dsimp only
  repeat' (first | with_reducible exact hw | with_reducible apply formed_mem | (change MemSys.Formed _; dsimp only))

theorem State.engineGet_formed (s : State) (w : Who) (va n : Nat) (hw : State.Formed s)
    : State.Formed (State.engineGet s w va n).1 := by
  unfold State.engineGet
  try dsimp only
  repeat' (first | with_reducible exact hw | with_reducible apply State.engineLoam_formed
                 | with_reducible apply State.answered_formed | with_reducible apply State.engineRead_formed
                 | with_reducible apply State.place_formed | (with_reducible apply formed_fst; with_reducible assumption) | split)

theorem State.enginePut_formed (s : State) (w : Who) (agent va : Nat) (bs : List Byte) (hw : State.Formed s)
    : State.Formed (State.enginePut s w agent va bs).1 := by
  unfold State.enginePut
  try dsimp only
  repeat' (first | with_reducible exact hw | with_reducible apply State.writeSpot_formed
                 | with_reducible apply State.answered_formed | with_reducible apply State.engineWrite_formed
                 | with_reducible apply State.place_formed | (with_reducible apply formed_fst; with_reducible assumption) | split)

theorem State.loadNow_formed (s : State) (k va n : Nat) (hw : State.Formed s) : State.Formed (State.loadNow s k va n).1 := by
  unfold State.loadNow
  try dsimp only
  repeat' (first | with_reducible exact hw | with_reducible apply State.countParity_formed
                 | with_reducible apply State.answered_formed | with_reducible apply State.readPage_formed
                 | with_reducible apply State.place_formed | with_reducible apply State.readLoam_formed
                 | (with_reducible apply formed_fst; with_reducible assumption) | split)

theorem State.pagesOf_formed (s : State) (w : Who) (acc : AccKind) (l : List Nat) (hw : State.Formed s)
    : State.Formed (s.pagesOf w acc l).1 := by
  induction l generalizing s with
  | nil => exact hw
  | cons a as ih =>
    have h1 := State.resolve_formed s w a acc hw
    unfold State.pagesOf
    repeat' (first | (with_reducible apply formed_fst; with_reducible assumption) | with_reducible exact h1
                   | with_reducible apply ih | split)

theorem State.checkRecAttr_formed (s : State) (w : Who) (t : TileRec) (acc : AccKind) (cmpScaled : Bool) (hw : State.Formed s)
    : State.Formed (State.checkRecAttr s w t acc cmpScaled).1 := by
  unfold State.checkRecAttr
  try dsimp only
  repeat' (first | with_reducible exact hw | with_reducible apply State.pagesOf_formed
                 | (with_reducible apply formed_fst; with_reducible assumption) | split)

theorem State.translateRec_formed (s : State) (w : Who) (t : TileRec) (f : Nat × Bool) (acc : AccKind) (hw : State.Formed s)
    : State.Formed (State.translateRec s w t f acc).1 := by
  unfold State.translateRec
  try dsimp only
  repeat' (first | with_reducible exact hw | with_reducible apply State.pagesOf_formed
                 | (with_reducible apply formed_fst; with_reducible assumption) | split)

theorem State.checkRecLate_formed (s : State) (w : Who) (t : TileRec) (acc : AccKind) (hw : State.Formed s)
    : State.Formed (State.checkRecLate s w t acc).1 := by
  unfold State.checkRecLate
  try dsimp only
  repeat' (first | with_reducible exact hw | with_reducible apply State.checkRecAttr_formed)

theorem State.tileRow_formed (s : State) (w : Who) (t : TileRec) (r : Nat) (hw : State.Formed s)
    : State.Formed (State.tileRow s w t r).1 := by
  unfold State.tileRow
  try dsimp only
  repeat' (first | with_reducible exact hw | with_reducible assumption | with_reducible apply State.engineGet_formed
                 | with_reducible apply foldl_formed_fst | (intro _) | split)

theorem State.tileScales_formed (s : State) (w : Who) (t : TileRec) (fmt r : Nat) (hw : State.Formed s)
    : State.Formed (State.tileScales s w t fmt r).1 := by
  unfold State.tileScales
  try dsimp only
  repeat' (first | with_reducible exact hw | with_reducible apply State.engineGet_formed)

theorem State.putHandle_formed (s : State) (core i : Nat) (h : Handle) (hw : State.Formed s)
    : State.Formed (State.putHandle s core i h) := by
  unfold State.putHandle
  try dsimp only
  repeat' (first | with_reducible exact hw | with_reducible apply State.modCore_formed)

theorem State.writeAll_formed (s : State) (grp : List Nat) (d : Reg) (v : Word) (hw : State.Formed s)
    : State.Formed (State.writeAll s grp d v) := by
  unfold State.writeAll
  try dsimp only
  repeat' (first | with_reducible exact hw | with_reducible apply State.writeReg_formed | with_reducible apply foldl_formed
                 | (intro _))

theorem State.kalloc_formed (s : State) (grp : List Nat) (word : Word) (crew ar : Bool) (d a : Reg) (hw : State.Formed s)
    : Res.Formed (State.kalloc s grp word crew ar d a) := by
  unfold State.kalloc
  try dsimp only
  repeat' (first | with_reducible exact hw | with_reducible apply State.chargeKaolin_formed
                 | with_reducible apply State.putHandle_formed | with_reducible apply State.writeAll_formed
                 | (with_reducible apply formed_some; with_reducible assumption) | with_reducible apply resFormed_go | split
                 | trivial)

theorem State.raiseTile_formed (s : State) (ks : List Nat) (hw : State.Formed s) : State.Formed (State.raiseTile s ks) := by
  unfold State.raiseTile
  try dsimp only
  repeat' (first | with_reducible exact hw | with_reducible apply State.modThread_formed | with_reducible apply foldl_formed
                 | (intro _))

theorem State.lowerTile_formed (s : State) (ks : List Nat) (hw : State.Formed s) : State.Formed (State.lowerTile s ks) := by
  unfold State.lowerTile
  try dsimp only
  repeat' (first | with_reducible exact hw | with_reducible apply State.modCounted_formed | with_reducible apply foldl_formed
                 | (intro _))

theorem State.enqueue_formed (s : State) (core : Nat) (c : Cmd) (hw : State.Formed s)
    : State.Formed (State.enqueue s core c) := by
  unfold State.enqueue
  try dsimp only
  repeat' (first | with_reducible exact hw | with_reducible apply State.modCore_formed)

theorem RecErr.trap_formed (e : RecErr) (a : Word) : Res.Formed (e.trap a) := by cases e <;> trivial

theorem State.markSource_formed (s : State) (w : Who) (t : TileRec) (f : Nat × Bool) (hw : State.Formed s)
    : State.Formed (State.markSource s w t f) := by
  unfold State.markSource
  try dsimp only
  repeat' (first | with_reducible exact hw | with_reducible assumption | with_reducible apply State.markSourcePage_formed
                 | with_reducible apply foldl_formed | (intro _) | split)

theorem State.acceptFill_formed (s : State) (w : Who) (core i : Nat) (h : Handle) (slot : Nat) (t : TileRec) (f : Nat × Bool)
    (src : List Word) (c : Cmd) (hw : State.Formed s) : State.Formed (State.acceptFill s w core i h slot t f src c) := by
  unfold State.acceptFill
  try dsimp only
  repeat' (first | with_reducible exact hw | with_reducible apply State.putHandle_formed
                 | with_reducible apply State.enqueue_formed | with_reducible apply State.markSource_formed)

theorem State.kfill_formed (s : State) (grp : List Nat) (d a b : Reg) (hw : State.Formed s)
    : Res.Formed (State.kfill s grp d a b) := by
  unfold State.kfill
  try dsimp only
  repeat' (first | with_reducible exact hw | with_reducible apply State.loadNow_formed
                 | with_reducible apply State.checkRecAttr_formed | with_reducible apply State.translateRec_formed
                 | with_reducible apply State.writeAll_formed | with_reducible apply State.raiseTile_formed
                 | with_reducible apply RecErr.trap_formed | with_reducible apply State.acceptFill_formed
                 | (with_reducible apply formed_fst; with_reducible assumption) | with_reducible apply resFormed_go
                 | with_reducible apply resFormed_failed | split | trivial)

theorem State.kgetLine_formed (s : State) (w : Who) (core va : Nat) (hw : State.Formed s)
    : State.Formed (State.kgetLine s w core va).1 := by
  unfold State.kgetLine
  try dsimp only
  repeat' (first | with_reducible exact hw | with_reducible apply State.request_formed
                 | with_reducible apply State.resolve_formed | (with_reducible apply formed_fst; with_reducible assumption)
                 | split)

theorem State.kgetRange_formed (s : State) (w : Who) (core va n : Nat) (hw : State.Formed s)
    : State.Formed (State.kgetRange s w core va n).1 := by
  unfold State.kgetRange
  try dsimp only
  repeat' (first | with_reducible exact hw | with_reducible apply State.kgetLine_formed | with_reducible apply foldl_formed_fst
                 | (intro _))

theorem State.fillRead_formed (s : State) (core i : Nat) (hw : State.Formed s) : State.Formed (State.fillRead s core i) := by
  unfold State.fillRead
  try dsimp only
  repeat' (first | with_reducible exact hw | with_reducible assumption | with_reducible apply State.modCore_formed
                 | with_reducible apply State.tileRow_formed | with_reducible apply State.tileScales_formed
                 | with_reducible apply State.putHandle_formed | with_reducible apply State.kgetRange_formed
                 | with_reducible apply foldl_formed_fst | (intro _) | split)

theorem State.fillDone_formed (s : State) (core : Nat) (c : Cmd) (hw : State.Formed s)
    : State.Formed (State.fillDone s core c) := by
  unfold State.fillDone
  try dsimp only
  repeat' (first | with_reducible exact hw | with_reducible apply State.putHandle_formed
                 | with_reducible apply State.lowerTile_formed | split)

theorem handleInstr_formed (s : State) (k : Nat) (a : Reg) (f : Nat → Nat → Handle → Res) (hf : ∀ c i h, Res.Formed (f c i h)) :
    Res.Formed (handleInstr s k a f) := by
  unfold handleInstr
  dsimp only
  split
  · trivial
  · exact hf _ _ _

theorem State.markCb_formed (s : State) (k slot : Nat) (hw : State.Formed s) : State.Formed (State.markCb s k slot) := by
  unfold State.markCb
  try dsimp only
  repeat' (first | with_reducible exact hw | with_reducible apply State.modCrew_formed | split)

theorem State.cbkld_formed (s : State) (grp : List Nat) (d a b : Reg) (slot : Nat) (hw : State.Formed s)
    : Res.Formed (State.cbkld s grp d a b slot) := by
  unfold State.cbkld
  try dsimp only
  repeat' (first | with_reducible exact hw | with_reducible apply State.modCore_formed
                 | with_reducible apply State.loadNow_formed | with_reducible apply State.writeAll_formed
                 | with_reducible apply State.markCb_formed | (with_reducible apply formed_fst; with_reducible assumption)
                 | with_reducible apply resFormed_go | with_reducible apply resFormed_failed | split | trivial)

theorem State.putRingCtr_formed (s : State) (c : Crew) (k : Nat) (w : Word) (hw : State.Formed s)
    : State.Formed (State.putRingCtr s c k w) := by
  unfold State.putRingCtr
  try dsimp only
  repeat' (first | with_reducible exact hw | with_reducible apply State.putRing_formed)

theorem State.closeHead_formed (s : State) (c : Crew) (k : Nat) (hw : State.Formed s) : State.Formed (State.closeHead s c k) := by
  unfold State.closeHead
  try dsimp only
  repeat' (first | with_reducible exact hw | with_reducible apply State.putRingCtr_formed)

theorem State.releaseTail_formed (s : State) (c : Crew) (k : Nat) (hw : State.Formed s)
    : State.Formed (State.releaseTail s c k) := by
  unfold State.releaseTail
  try dsimp only
  repeat' (first | with_reducible exact hw | with_reducible apply State.putRingCtr_formed)

theorem State.radvCfg_formed (s : State) (grp : List Nat) (d : Reg) (ring : Nat) (ln : Nat) (hw : State.Formed s)
    : Res.Formed (State.radvCfg s grp d ring ln) := by
  unfold State.radvCfg
  try dsimp only
  repeat' (first | with_reducible exact hw | with_reducible apply State.modCore_formed
                 | with_reducible apply State.putRing_formed | with_reducible apply State.chargeLoam_formed
                 | with_reducible apply State.writeAll_formed | with_reducible apply resFormed_go | split | trivial)

theorem State.onRing_formed (s : State) (grp : List Nat) (ring : BitVec 2) (f : Crew → Word → Word → Res) (hw : State.Formed s)
    (hf : ∀ c x y, Res.Formed (f c x y)) : Res.Formed (s.onRing grp ring f) := by
  unfold State.onRing
  dsimp only
  repeat' (first | trivial | exact hf _ _ _ | exact State.countParity_formed _ _ hw | split)

theorem State.operand_formed (s : State) (k : Nat) (addr : Word) (rows : Nat) (hw : State.Formed s) :
    State.Formed (s.operand k addr rows).1 ∧ ∀ r, (s.operand k addr rows).2 = .inr r → Res.Formed r := by
  unfold State.operand
  dsimp only
  repeat' (first | (refine ⟨hw, ?_⟩; intro _ e; cases e; first | done | trivial) | split)
  · next e0 =>
    exact ⟨formed_fst e0 (State.checkRecAttr_formed _ _ _ _ _ hw), fun r e => by cases e; exact RecErr.trap_formed _ addr⟩
  · next e0 _ => exact ⟨formed_fst e0 (State.checkRecAttr_formed _ _ _ _ _ hw), fun _ e => by cases e; trivial⟩
  · next e0 _ => exact ⟨formed_fst e0 (State.checkRecAttr_formed _ _ _ _ _ hw), fun _ e => by cases e⟩
theorem State.operand_formed_fst {s s' : State} {k : Nat} {addr : Word} {rows : Nat} {x : TileRec × Option (Nat × Bool) ⊕ Res}
    (e : s.operand k addr rows = (s', x)) (hw : State.Formed s) : State.Formed s' := by
  have := (State.operand_formed s k addr rows hw).1; rw [e] at this; exact this
theorem State.operand_formed_res {s s1 : State} {k : Nat} {addr : Word} {rows : Nat} {r : Res}
    (e : s.operand k addr rows = (s1, .inr r)) (hw : State.Formed s) : Res.Formed r :=
  (State.operand_formed s k addr rows hw).2 r (by rw [e])

theorem formatTrap_formed {fa fb : Nat} {a b : Option (Nat × Bool)} {va vb : Word} {r : Res} (e : formatTrap fa fb a b va vb = some r) :
    Res.Formed r := by
  unfold formatTrap at e
  dsimp only at e
  repeat' (first | (cases e; done) | (cases e; trivial) | split at e)

theorem State.refill_formed (s : State) (core i : Nat) (h : Handle) (sup : Bool) (hw : State.Formed s)
    : OptFormed (State.refill s core i h sup) := by
  unfold State.refill
  try dsimp only
  repeat' (first | with_reducible exact hw | with_reducible apply State.putHandle_formed
                 | with_reducible apply State.enqueue_formed | with_reducible apply optFormed_map | (intro _))

theorem State.residency_formed {s : State} {k : Nat} {hv : Word} {full : Bool} {r : Res} (e : s.residency k hv full = .inr r)
    (hw : State.Formed s) :
    Res.Formed r := by
  unfold State.residency at e
  repeat' (first | (cases e; done) | (cases e; trivial) | split at e)
  all_goals
    next e0 _ _ _ e1 =>
    cases e
    exact formed_some e1 (State.refill_formed _ _ _ _ _ (formed_fst e0 (State.translateRec_formed _ _ _ _ _ hw)))

theorem State.recordBytes_formed (s : State) (w : Who) (bank : Bool) (a : Word) (hw : State.Formed s)
    : State.Formed (State.recordBytes s w bank a).1 := by
  unfold State.recordBytes
  try dsimp only
  repeat' (first | with_reducible exact hw | with_reducible apply State.engineLoam_formed)

theorem State.noteSlots_formed (s : State) (core crew : Nat) (hw : State.Formed s)
    : State.Formed (State.noteSlots s core crew) := by
  unfold State.noteSlots
  try dsimp only
  repeat' (first | with_reducible exact hw | with_reducible apply State.modCore_formed | split)

theorem State.acceptMma_formed (s : State) (grp : List Nat) (c : Cmd) (hw : State.Formed s)
    : Res.Formed (State.acceptMma s grp c) := by
  unfold State.acceptMma
  try dsimp only
  repeat' (first | with_reducible exact hw | with_reducible apply State.raiseTile_formed
                 | with_reducible apply State.enqueue_formed | with_reducible apply State.noteSlots_formed
                 | with_reducible apply resFormed_go | split | trivial)

theorem State.mmaRest_formed (s : State) (grp : List Nat) (word : Word) (m : MmaFields) (va vb : Word) (ta : TileRec)
    (fA : Option (Nat × Bool)) (b : OperandB) (fB : Option (Nat × Bool)) (hw : State.Formed s) :
    Res.Formed (s.mmaRest grp word m va vb ta fA b fB) := by
  unfold State.mmaRest
  extract_lets k w core cbB
  clear_value cbB core w
  split
  · next e => exact formatTrap_formed e
  · refine resFormed_ite trivial (resFormed_ite trivial ?_)
    split
    · trivial
    · next e =>
      have h1 := formed_fst e (State.translateRec_formed _ _ _ _ _ hw)
      extract_lets r
      have hr : State.Formed r.1 := by
        simp only [r]
        split
        · exact State.translateRec_formed _ _ _ _ _ h1
        · exact h1
      clear_value r
      split
      · trivial
      · extract_lets s3 early c
        clear_value early c
        have h3 : State.Formed s3 := by
          simp only [s3]
          split
          · exact State.markCb_formed _ _ _ (State.markCb_formed _ _ _ hr)
          · exact hr
        exact State.acceptMma_formed _ _ _ h3

theorem State.mmaT_formed (s : State) (grp : List Nat) (word : Word) (m : MmaFields) (a b : Reg) (hw : State.Formed s) :
    Res.Formed (s.mmaT grp word m a b) := by
  unfold State.mmaT
  refine State.onRing_formed _ _ _ _ hw fun _ _ _ => ?_
  dsimp only
  split
  · next e => exact State.operand_formed_res e hw
  · next e =>
    have h1 := State.operand_formed_fst e hw
    split
    · next e => exact State.operand_formed_res e h1
    · next e => exact State.mmaRest_formed _ _ _ _ _ _ _ _ _ _ (State.operand_formed_fst e h1)

theorem State.mmaK_formed (s : State) (grp : List Nat) (word : Word) (m : MmaFields) (a b : Reg) (hw : State.Formed s) :
    Res.Formed (s.mmaK grp word m a b) := by
  unfold State.mmaK
  refine State.onRing_formed _ _ _ _ hw fun _ _ _ => ?_
  dsimp only
  split
  · next e => exact State.operand_formed_res e hw
  · next e =>
    have h1 := State.operand_formed_fst e hw
    split
    · next e => exact State.residency_formed e h1
    · exact State.mmaRest_formed _ _ _ _ _ _ _ _ _ _ h1

theorem State.dequeueCmd_formed (s : State) (core : Nat) (c : Cmd) (hw : State.Formed s)
    : State.Formed (State.dequeueCmd s core c) := by
  unfold State.dequeueCmd
  try dsimp only
  repeat' (first | with_reducible exact hw | with_reducible apply State.modCore_formed)

theorem State.setCurrent_formed (s : State) (core : Nat) (c : Option Cmd) (hw : State.Formed s)
    : State.Formed (State.setCurrent s core c) := by
  unfold State.setCurrent
  try dsimp only
  repeat' (first | with_reducible exact hw | with_reducible apply State.modCore_formed)

theorem State.setFill_formed (s : State) (core : Nat) (c : Option Cmd) (hw : State.Formed s)
    : State.Formed (State.setFill s core c) := by
  unfold State.setFill
  try dsimp only
  repeat' (first | with_reducible exact hw | with_reducible apply State.modCore_formed)

theorem State.operandVals_formed (s : State) (w : Who) (cb : List (BitVec 16)) (t : TileRec) (f : Nat × Bool) (rows : List Nat)
    (early : List (List Byte)) (hw : State.Formed s) : State.Formed (State.operandVals s w cb t f rows early).1 := by
  unfold State.operandVals
  try dsimp only
  repeat' (first | with_reducible exact hw | with_reducible assumption | with_reducible apply State.tileRow_formed
                 | with_reducible apply State.tileScales_formed | with_reducible apply foldl_formed_fst | (intro _) | split
                 | with_reducible apply formed_mem | (change MemSys.Formed _; dsimp only))

theorem State.mmaRow_formed (s : State) (cr : Crew) (slot : Nat) (z int8 : Bool) (level : Nat) (soft : Option Nat) (base : Nat)
    (early : List Byte) (as : List FVal) (cols : List (List FVal)) (row : Nat) (hw : State.Formed s) : State.Formed (State.mmaRow s cr slot z int8 level soft base early as cols row) := by
  unfold State.mmaRow
  try dsimp only
  repeat' (first | with_reducible exact hw | with_reducible apply State.modCore_formed
                 | with_reducible apply State.putLoam_formed | with_reducible apply State.engineLoam_formed | split)

theorem State.completeMma_formed (s : State) (core : Nat) (c : Cmd) (cr : Crew) (hw : State.Formed s)
    : State.Formed (State.completeMma s core c cr) := by
  unfold State.completeMma
  try dsimp only
  repeat' (first | with_reducible exact hw | with_reducible apply State.modCore_formed
                 | with_reducible apply State.countSpec_formed | with_reducible apply State.lowerTile_formed
                 | with_reducible apply State.closeHead_formed | with_reducible apply State.recordBytes_formed
                 | with_reducible apply State.noteSlots_formed | with_reducible apply State.operandVals_formed
                 | with_reducible apply State.mmaRow_formed | with_reducible apply foldl_formed | (intro _) | split
                 | with_reducible apply formed_mem | (change MemSys.Formed _; dsimp only))

theorem State.areaGet_formed (s : State) (c : Chain) (off n : Nat) (hw : State.Formed s)
    : State.Formed (State.areaGet s c off n).1 := by
  unfold State.areaGet
  try dsimp only
  repeat' (first | with_reducible exact hw | with_reducible apply State.engineGet_formed
                 | (with_reducible apply formed_fst; with_reducible assumption) | split)

theorem State.areaPut_formed (s : State) (c : Chain) (off : Nat) (bs : List Byte) (hw : State.Formed s)
    : State.Formed (State.areaPut s c off bs) := by
  unfold State.areaPut
  try dsimp only
  repeat' (first | with_reducible exact hw | with_reducible apply State.enginePut_formed | split)

theorem State.writeHeader_formed (s : State) (c : Chain) (hw : State.Formed s) : State.Formed (State.writeHeader s c) := by
  unfold State.writeHeader
  try dsimp only
  repeat' (first | with_reducible exact hw | with_reducible apply State.areaPut_formed)

theorem State.putChain_formed (s : State) (id : Nat) (c : Chain) (hw : State.Formed s)
    : State.Formed (State.putChain s id c) := by
  unfold State.putChain
  try dsimp only
  repeat' (first | with_reducible exact hw | with_reducible apply formed_mem | (change MemSys.Formed _; dsimp only))

theorem State.failEntry_formed (s : State) (id : Nat) (c : Chain) (cause fault done zsub : Nat) (hw : State.Formed s)
    : State.Formed (State.failEntry s id c cause fault done zsub) := by
  unfold State.failEntry
  try dsimp only
  repeat' (first | with_reducible exact hw | with_reducible apply State.putChain_formed)

theorem runEntry_formed (s : State) (id ty : Nat) (body : State → Chain → Word × Word × Word × Word → EntryRes)
    (hw : State.Formed s)
    (hb : ∀ s c ws, State.Formed s → EntryRes.Formed (body s c ws)) : OutFormed (runEntry s id ty body) := by
  unfold runEntry
  dsimp only
  apply outFormed_next
  split
  · exact hw
  · next c0 _ =>
    split
    · exact hw
    · generalize hs1 : (if (c0.state == 0) = true then _ else s) = s1
      have h1 : State.Formed s1 := by
        rw [← hs1]; split
        · exact State.areaPut_formed _ _ _ _ hw
        · exact hw
      split
      · exact State.failEntry_formed _ _ _ _ _ _ _ h1
      · split
        · next e => exact State.failEntry_formed _ _ _ _ _ _ _ (formed_fst e (State.areaGet_formed _ _ _ _ h1))
        · next e =>
          have h2 := formed_fst e (State.areaGet_formed _ _ _ _ h1)
          split
          · exact State.failEntry_formed _ _ _ _ _ _ _ h2
          · split
            · exact hw
            · split
              · next e => exact State.putChain_formed _ _ _ (entryFormed_go e (hb _ _ _ h2))
              · next e => exact State.putChain_formed _ _ _ (entryFormed_block e (hb _ _ _ h2))
              · next e => exact State.failEntry_formed _ _ _ _ _ _ _ (entryFormed_fail e (hb _ _ _ h2))
              · exact hw

theorem State.engo_formed (s : State) (grp : List Nat) (engine ld : Nat) (sc : Scope) (a : Reg) (hw : State.Formed s)
    : Res.Formed (State.engo s grp engine ld sc a) := by
  unfold State.engo
  try dsimp only
  repeat' (first | with_reducible exact hw | with_reducible apply State.modThread_formed | with_reducible apply resFormed_go
                 | with_reducible apply foldl_formed | (intro _) | split | with_reducible apply formed_mem
                 | (change MemSys.Formed _; dsimp only) | trivial)

theorem State.countChain_formed (s : State) (c : Chain) (off : Nat) (hw : State.Formed s)
    : State.Formed (State.countChain s c off).1 := by
  unfold State.countChain
  try dsimp only
  repeat' (first | with_reducible exact hw | with_reducible apply State.countSpec_formed | split)

theorem State.recordAt_formed (s : State) (c : Chain) (off : Nat) (hw : State.Formed s)
    : State.Formed (State.recordAt s c off).1 := by
  unfold State.recordAt
  try dsimp only
  repeat' (first | with_reducible exact hw | with_reducible apply State.areaGet_formed
                 | (with_reducible apply formed_fst; with_reducible assumption) | split)

theorem State.tagAt_formed (s : State) (w : Who) (va : Nat) (f : Nat × Bool) (hw : State.Formed s)
    : State.Formed (State.tagAt s w va f) := by
  unfold State.tagAt
  try dsimp only
  repeat' (first | with_reducible exact hw | with_reducible apply State.setTag_formed | with_reducible apply State.place_formed
                 | (with_reducible apply formed_fst; with_reducible assumption) | split)

theorem Move.granule_formed (m : Move) (w : Who) (src dst : TileRec) (f : Nat × Bool) (r r' g : Nat) (hw : State.Formed m.s) :
    State.Formed (m.granule w src dst f r r' g).s := by
  unfold Move.granule
  dsimp only
  have h1 := State.engineGet_formed m.s w (src.byteAddr r (16 * g)) 16 hw
  repeat' (first | with_reducible exact hw | with_reducible exact h1
                 | (with_reducible apply formed_fst; with_reducible assumption) | with_reducible apply State.enginePut_formed
                 | with_reducible apply State.tagAt_formed | split)

theorem State.readRun_formed (s : State) (w : Who) (src : TileRec) (r : Nat) (gs : List Nat) (hw : State.Formed s)
    : State.Formed (State.readRun s w src r gs).1 := by
  unfold State.readRun
  try dsimp only
  repeat' (first | with_reducible exact hw | with_reducible apply State.engineGet_formed
                 | with_reducible apply foldl_formed_fst | (intro _))

theorem Move.run_formed (m : Move) (w : Who) (src dst : TileRec) (f : Nat × Bool) (r r' : Nat) (gs : List Nat)
    (hw : State.Formed m.s) :
    State.Formed (m.run w src dst f r r' gs).s := by
  unfold Move.run
  dsimp only
  have he := foldl_formed_move gs hw (f := fun m g => m.granule w src dst f r r' g) fun m g h => Move.granule_formed _ _ _ _ _ _ _ _ h
  split
  · exact he
  · split
    · exact he
    · split
      · exact he
      · next e => exact formed_fst e (State.enginePut_formed _ _ _ _ _ (State.readRun_formed _ _ _ _ _ hw))

theorem Move.row_formed (m : Move) (w : Who) (src dst : TileRec) (f : Nat × Bool) (r r' : Nat) (hw : State.Formed m.s) :
    State.Formed (m.row w src dst f r r').s := by
  unfold Move.row
  exact foldl_formed_move _ hw fun m g h => Move.run_formed _ _ _ _ _ _ _ _ h

theorem State.tableIndex_formed (s : State) (c : Chain) (tab k : Nat) (hw : State.Formed s)
    : State.Formed (State.tableIndex s c tab k).1 := by
  unfold State.tableIndex
  try dsimp only
  repeat' (first | with_reducible exact hw | with_reducible apply State.areaGet_formed
                 | (with_reducible apply formed_fst; with_reducible assumption) | split)

theorem moveRows_formed (c : Chain) (w : Who) (ty tab : Nat) (src dst : TileRec) (f : Nat × Bool) (count : Nat) (m : Move)
    (hw : State.Formed m.s) :
    State.Formed (moveRows c w ty tab src dst f count m).s := by
  unfold moveRows
  refine foldl_formed_move _ hw fun m g h => ?_
  dsimp only
  repeat' (first | with_reducible exact h | with_reducible apply Move.row_formed
                 | (with_reducible apply formed_fst; with_reducible assumption) | with_reducible apply State.tableIndex_formed
                 | split)

theorem copyEntry_formed (s : State) (chain ty : Nat) (hw : State.Formed s) : OutFormed (copyEntry s chain ty) := by
  unfold copyEntry
  try dsimp only
  repeat' (first | with_reducible exact hw | with_reducible assumption | with_reducible apply State.putCbCtr_formed
                 | with_reducible apply State.checkRecLate_formed | with_reducible apply runEntry_formed
                 | with_reducible apply State.countChain_formed | with_reducible apply State.recordAt_formed
                 | with_reducible apply moveRows_formed | (with_reducible apply formed_fst; with_reducible assumption)
                 | with_reducible apply entryFormed_mkFail | with_reducible apply entryFormed_mkBlock
                 | with_reducible apply entryFormed_mkGo | (intro _) | split)

theorem State.loamWords_formed (s : State) (core off n : Nat) (sp : LoamSpot) (hw : State.Formed s)
    : State.Formed (State.loamWords s core off n sp).1 := by
  unfold State.loamWords
  try dsimp only
  repeat' (first | with_reducible exact hw | with_reducible apply State.engineLoam_formed
                 | with_reducible apply foldl_formed_fst | (intro _))

theorem onTile_formed (s : State) (c : Chain) (f : List (BitVec 32) → EntryRes) (hw : State.Formed s)
    (hf : ∀ w, EntryRes.Formed (f w)) : EntryRes.Formed (onTile s c f) := by
  unfold onTile
  split
  · exact hf _
  · exact hw

theorem State.areaElems_formed (s : State) (c : Chain) (off n size : Nat) (hw : State.Formed s)
    : State.Formed (State.areaElems s c off n size).1 := by
  unfold State.areaElems
  try dsimp only
  repeat' (first | with_reducible exact hw | with_reducible apply State.areaGet_formed
                 | (with_reducible apply formed_fst; with_reducible assumption) | split)

theorem vecEntry_formed (s : State) (chain ty : Nat) (op : Nat → Nat → FpResult) (hw : State.Formed s)
    : OutFormed (vecEntry s chain ty op) := by
  unfold vecEntry
  try dsimp only
  repeat' (first | with_reducible exact hw | with_reducible assumption | with_reducible apply runEntry_formed
                 | with_reducible apply onTile_formed | with_reducible apply State.areaElems_formed
                 | (with_reducible apply formed_fst; with_reducible assumption) | with_reducible apply entryFormed_mkFail
                 | with_reducible apply entryFormed_mkGo | (intro _) | split)

theorem Move.put_formed (m : Move) (w : Who) (loam : Bool) (f : Nat × Bool) (va : Nat) (bs : List Byte) (hw : State.Formed m.s) :
    State.Formed (m.put w loam f va bs).s := by
  unfold Move.put
  repeat' (first | with_reducible exact hw | (with_reducible apply formed_fst; with_reducible assumption)
                 | with_reducible apply State.enginePut_formed | with_reducible apply State.tagAt_formed | split)

theorem Move.putRun_formed (m : Move) (w : Who) (t : TileRec) (f : Nat × Bool) (r : Nat) (row : List Byte) (gs : List Nat)
    (hw : State.Formed m.s) :
    State.Formed (m.putRun w t f r row gs).s := by
  unfold Move.putRun
  dsimp only
  have he := foldl_formed_move gs hw (f := fun (m : Move) g => m.put w (t.space != 0) f (t.byteAddr r (16 * g))
    ((row.drop (16 * g)).take 16)) fun m g h => Move.put_formed _ _ _ _ _ _ h
  split
  · exact he
  · split
    · exact he
    · exact Move.put_formed _ _ _ _ _ _ hw

theorem Move.putRow_formed (m : Move) (w : Who) (t : TileRec) (f : Nat × Bool) (r : Nat) (row : List Byte)
    (hw : State.Formed m.s) :
    State.Formed (m.putRow w t f r row).s := by
  unfold Move.putRow
  exact foldl_formed_move _ hw fun m g h => Move.putRun_formed _ _ _ _ _ _ _ h

theorem storeRow_formed (w : Who) (t : TileRec) (f : Nat × Bool) (row scales : List Byte) (r : Nat) (m : Move)
    (hw : State.Formed m.s) :
    State.Formed (storeRow w t f row scales r m).s := by
  unfold storeRow
  dsimp only
  have h := Move.putRow_formed m w t f r row hw
  split
  · exact Move.put_formed _ _ _ _ _ _ h
  · exact h

theorem State.cachePath_formed (s : State) (c : Ctx) (d : Nat) (leaf : Word) (hw : State.Formed s)
    : State.Formed (State.cachePath s c d leaf) := by
  unfold State.cachePath
  try dsimp only
  repeat' (first | with_reducible exact hw | with_reducible assumption | with_reducible apply State.modDie_formed
                 | with_reducible apply State.touchCtx_formed | with_reducible apply State.writeBackBlock_formed
                 | with_reducible apply foldl_formed | (intro _) | split)

theorem State.resetDeficit_formed (s : State) (d : Nat) (b : Word) (hw : State.Formed s)
    : State.Formed (State.resetDeficit s d b) := by
  unfold State.resetDeficit
  try dsimp only
  repeat' (first | with_reducible exact hw | with_reducible apply State.putDeficit_formed | split)

theorem State.refreshRing_formed (s : State) (d : Nat) (hw : State.Formed s) : State.Formed (State.refreshRing s d) := by
  unfold State.refreshRing
  try dsimp only
  repeat' (first | with_reducible exact hw | with_reducible apply State.modDie_formed
                 | with_reducible apply State.cachePath_formed | with_reducible apply State.resetDeficit_formed
                 | with_reducible apply foldl_formed | (intro _))

theorem State.sendPacket_formed (s : State) (p : Packet) (hw : State.Formed s) : State.Formed (State.sendPacket s p) := by
  unfold State.sendPacket
  try dsimp only
  repeat' (first | with_reducible exact hw | with_reducible apply formed_mem | (change MemSys.Formed _; dsimp only))

theorem State.payloadRows_formed (s : State) (w : Who) (t : TileRec) (hw : State.Formed s)
    : State.Formed (State.payloadRows s w t).1 := by
  unfold State.payloadRows
  try dsimp only
  repeat' (first | with_reducible exact hw | with_reducible assumption | with_reducible apply State.tileRow_formed
                 | with_reducible apply foldl_formed_fst | (intro _) | split)

theorem netEntry_formed (s : State) (chain ty : Nat) (acc : AccKind)
    (f : State → Chain → TileRec → Word × Word × Word × Word → Nat → EntryRes) (hw : State.Formed s)
    (hf : ∀ s c t ws z, State.Formed s → EntryRes.Formed (f s c t ws z)) : OutFormed (netEntry s chain ty acc f) := by
  unfold netEntry
  apply runEntry_formed _ _ _ _ hw
  intro s c ws h
  dsimp only
  repeat' (first | with_reducible exact h | trivial | with_reducible apply hf | with_reducible apply entryFormed_mkFail
                 | with_reducible apply State.recordAt_formed | with_reducible apply State.checkRecLate_formed
                 | (with_reducible apply formed_fst; with_reducible assumption) | split)

theorem State.setPacket_formed (s : State) (id : Nat) (p : Packet) (hw : State.Formed s)
    : State.Formed (State.setPacket s id p) := by
  unfold State.setPacket
  try dsimp only
  repeat' (first | with_reducible exact hw | with_reducible apply formed_mem | (change MemSys.Formed _; dsimp only))

theorem State.acknowledge_formed (s : State) (pkt : Nat) (hw : State.Formed s) : State.Formed (State.acknowledge s pkt) := by
  unfold State.acknowledge
  try dsimp only
  repeat' (first | with_reducible exact hw | with_reducible apply State.setPacket_formed | split)

theorem State.failPacket_formed (s : State) (pkt cause : Nat) (hw : State.Formed s)
    : State.Formed (State.failPacket s pkt cause) := by
  unfold State.failPacket
  try dsimp only
  repeat' (first | with_reducible exact hw | with_reducible apply State.putChain_formed | split
                 | with_reducible apply formed_mem | (change MemSys.Formed _; dsimp only))

theorem State.answer_formed (s : State) (o : Output) (hw : State.Formed s) : State.Formed (State.answer s o) := by
  unfold State.answer
  try dsimp only
  repeat' (first | with_reducible exact hw | with_reducible apply formed_mem | (change MemSys.Formed _; dsimp only))

theorem State.dropNoTarget_formed (s : State) (net : Nat) (hw : State.Formed s) : State.Formed (State.dropNoTarget s net) := by
  unfold State.dropNoTarget
  try dsimp only
  repeat' (first | with_reducible exact hw | with_reducible apply State.setNet_formed
                 | with_reducible apply State.netEvent_formed | with_reducible apply State.answer_formed)

theorem State.peerPages_formed (s : State) (c : Ctx) (acc : AccKind) (va n : Nat) (hw : State.Formed s)
    : OptFormed (State.peerPages s c acc va n) := by
  unfold State.peerPages
  try dsimp only
  repeat' (first | with_reducible exact hw | with_reducible apply State.pagesOf_formed
                 | (with_reducible apply formed_fst; with_reducible assumption) | with_reducible apply optFormed_some | split
                 | trivial)

theorem State.peerPut_formed (s : State) (c : Ctx) (va : Nat) (bs : List Byte) (hw : State.Formed s)
    : State.Formed (State.peerPut s c va bs) := by
  unfold State.peerPut
  try dsimp only
  repeat' (first | with_reducible exact hw | with_reducible apply State.enginePut_formed
                 | with_reducible apply foldl_formed_fst | (intro _))

theorem State.placeGot_formed (s : State) (pkt : Nat) (data : List Byte) (hw : State.Formed s)
    : State.Formed (s.placeGot pkt data) := by
  unfold State.placeGot
  split
  · exact hw
  · split
    · exact hw
    · dsimp only
      split
      · exact State.failPacket_formed _ _ _ (Move.putRow_formed _ _ _ _ _ _ hw)
      · exact State.acknowledge_formed _ _ (Move.putRow_formed _ _ _ _ _ _ hw)

theorem State.contextBytes_formed (s : State) (w : Who) (va n : Nat) (hw : State.Formed s)
    : State.Formed (State.contextBytes s w va n).1 := by
  unfold State.contextBytes
  try dsimp only
  repeat' (first | with_reducible exact hw | with_reducible apply State.engineGet_formed
                 | with_reducible apply foldl_formed_fst | (intro _))

theorem State.enqueueTask_formed (s : State) (net asid : Nat) (slot : Word) (hw : State.Formed s)
    : State.Formed (State.enqueueTask s net asid slot) := by
  unfold State.enqueueTask
  try dsimp only
  repeat' (first | with_reducible exact hw | with_reducible apply State.modDie_formed
                 | with_reducible apply State.refreshRing_formed)

theorem State.resumeTasks_formed (s : State) (net asid : Nat) (hw : State.Formed s)
    : State.Formed (State.resumeTasks s net asid) := by
  unfold State.resumeTasks
  try dsimp only
  repeat' (first | with_reducible exact hw | with_reducible apply State.setNet_formed
                 | with_reducible apply State.enqueueTask_formed | with_reducible apply foldl_formed | (intro _))

theorem State.forgetTasks_formed (s : State) (net asid : Nat) (hw : State.Formed s)
    : State.Formed (State.forgetTasks s net asid) := by
  unfold State.forgetTasks
  try dsimp only
  repeat' (first | with_reducible exact hw | with_reducible apply State.setNet_formed)

theorem State.putMessage_formed (s : State) (c : Ctx) (slot hidx : Nat) (tag : Word) (sender : BitVec 128) (payload : List Byte)
    (hw : State.Formed s) : State.Formed (State.putMessage s c slot hidx tag sender payload) := by
  unfold State.putMessage
  try dsimp only
  repeat' (first | with_reducible exact hw | with_reducible apply State.ctxPut_formed
                 | with_reducible apply State.ctxPutWord_formed)

theorem State.arriveMessage_formed (s : State) (net asid hidx : Nat) (tag : Word) (sender : BitVec 128) (payload : List Byte)
    (hw : State.Formed s) : State.Formed (State.arriveMessage s net asid hidx tag sender payload) := by
  unfold State.arriveMessage
  try dsimp only
  repeat' (first | with_reducible exact hw | with_reducible apply State.setNet_formed
                 | with_reducible apply State.answer_formed | with_reducible apply State.dropNoTarget_formed
                 | with_reducible apply State.enqueueTask_formed | with_reducible apply State.resumeTasks_formed
                 | with_reducible apply State.forgetTasks_formed | with_reducible apply State.putMessage_formed | split
                 | with_reducible apply formed_mem | (change MemSys.Formed _; dsimp only))

end Sys2Proof.Machine
end

