-- ==== Sys2Proof/Laws/FormedSched.lean ====
section
/-!
SUPPORT. Frames, gangs, system registers, scheduling, migration and control words: what they answer keeps the memory's canonical form.
-/
namespace Sys2Proof.Machine

theorem State.stopChains_formed (s : State) (c : Nat) (hw : State.Formed s) : State.Formed (State.stopChains s c) := by
  unfold State.stopChains
  try dsimp only
  repeat' (first | with_reducible exact hw | with_reducible assumption | with_reducible apply State.writeHeader_formed
                 | with_reducible apply State.putChain_formed | with_reducible apply foldl_formed | (intro _) | split)

theorem State.resumeChains_formed (s : State) (c : Nat) (hw : State.Formed s) : State.Formed (State.resumeChains s c) := by
  unfold State.resumeChains
  try dsimp only
  repeat' (first | with_reducible exact hw | with_reducible assumption | with_reducible apply State.putChain_formed
                 | with_reducible apply foldl_formed | (intro _) | split)

theorem State.saveCommands_formed (s : State) (c : Nat) (hw : State.Formed s) : State.Formed (State.saveCommands s c) := by
  unfold State.saveCommands
  try dsimp only
  repeat' (first | with_reducible exact hw | with_reducible apply State.modCore_formed
                 | with_reducible apply State.modCrew_formed | split)

theorem State.dropCmd_formed (s : State) (x : Cmd) (cause sub : Nat) (value : Word) (hw : State.Formed s)
    : State.Formed (State.dropCmd s x cause sub value) := by
  unfold State.dropCmd
  try dsimp only
  repeat' (first | with_reducible exact hw | with_reducible assumption | with_reducible apply State.modThread_formed
                 | with_reducible apply State.takeTrap_formed | with_reducible apply State.withdrawIfParked_formed
                 | with_reducible apply State.lowerTile_formed | with_reducible apply foldl_formed | (intro _) | split)

theorem State.requeue_formed (s : State) (core : Nat) (x : Cmd) (hw : State.Formed s)
    : State.Formed (State.requeue s core x) := by
  unfold State.requeue
  try dsimp only
  repeat' (first | with_reducible exact hw | with_reducible apply State.enqueue_formed)

theorem State.reenterOperand_formed (s : State) (k : Nat) (addr : Word) (rows : Nat) (hw : State.Formed s) :
    State.Formed (s.reenterOperand k addr rows).1 := by
  unfold State.reenterOperand
  split
  · next e => exact State.operand_formed_fst e hw
  · next e =>
    have h := State.operand_formed_fst e hw
    split
    · next e => exact formed_fst e (State.translateRec_formed _ _ _ _ _ h)
    · next e => exact formed_fst e (State.translateRec_formed _ _ _ _ _ h)
theorem State.reenterOperand_formed_res {s s1 : State} {k : Nat} {addr : Word} {rows : Nat} {r : Res}
    (e : s.reenterOperand k addr rows = (s1, some r)) (hw : State.Formed s) : Res.Formed r := by
  unfold State.reenterOperand at e
  repeat' (first | (cases e; trivial) | (cases e; done) | split at e)
  next e0 => cases e; exact State.operand_formed_res e0 hw

theorem State.settleCmd_formed (s : State) (core : Nat) (x : Cmd) (r : Res) (hw : State.Formed s) (hr : Res.Formed r)
    : State.Formed (s.settleCmd core x r) := by
  cases r with
  | wait => exact State.requeue_formed _ _ _ hw
  | trap => exact State.dropCmd_formed _ _ _ _ _ hw
  | go => exact State.requeue_formed _ _ _ hr
  | failed => exact State.dropCmd_formed _ _ _ _ _ hr

theorem State.reenterFill_formed (s : State) (core asid : Nat) (x : Cmd) (hw : State.Formed s)
    : State.Formed (State.reenterFill s core asid x) := by
  unfold State.reenterFill
  try dsimp only
  repeat' (first | with_reducible exact hw | with_reducible apply State.putHandle_formed
                 | with_reducible apply State.lowerTile_formed | with_reducible apply State.dropCmd_formed
                 | with_reducible apply State.requeue_formed | split)

theorem State.reenterCmd_formed (s : State) (core : Nat) (x : Cmd) (hw : State.Formed s)
    : State.Formed (s.reenterCmd core x) := by
  unfold State.reenterCmd
  dsimp only
  split
  · exact State.reenterFill_formed _ _ _ _ hw
  · split
    · exact State.requeue_formed _ _ _ hw
    split
    · next e => exact State.settleCmd_formed _ _ _ _ (formed_fst e (State.reenterOperand_formed _ _ _ _ hw)) (State.reenterOperand_formed_res e hw)
    · next e =>
      have h1 := formed_fst e (State.reenterOperand_formed _ _ _ _ hw)
      split
      · split
        · exact State.requeue_formed _ _ _ h1
        · next e => exact State.settleCmd_formed _ _ _ _ h1 (State.residency_formed e h1)
      · split
        · next e => exact State.settleCmd_formed _ _ _ _ (formed_fst e (State.reenterOperand_formed _ _ _ _ h1)) (State.reenterOperand_formed_res e h1)
        · next e => exact State.requeue_formed _ _ _ (formed_fst e (State.reenterOperand_formed _ _ _ _ h1))

theorem State.reenter_formed (s : State) (c : Nat) (hw : State.Formed s) : State.Formed (State.reenter s c) := by
  unfold State.reenter
  try dsimp only
  repeat' (first | with_reducible exact hw | with_reducible apply State.modCrew_formed
                 | with_reducible apply State.reenterCmd_formed | with_reducible apply foldl_formed | (intro _) | split)

theorem State.leachBytes_formed (s : State) (core : Nat) (b : Bool) (off n : Nat) (hw : State.Formed s)
    : State.Formed (State.leachBytes s core b off n).1 := by
  unfold State.leachBytes
  try dsimp only
  repeat' (first | with_reducible exact hw | with_reducible apply State.countParity_formed | with_reducible apply foldl_formed
                 | (intro _))

theorem State.crewLoam_formed (s : State) (cr : Crew) (hw : State.Formed s) : State.Formed (State.crewLoam s cr).1 := by
  unfold State.crewLoam
  try dsimp only
  repeat' (first | with_reducible exact hw | with_reducible apply State.leachBytes_formed
                 | with_reducible apply foldl_formed_fst | (intro _))

theorem State.haltCrew_formed (s : State) (c : Nat) (now : Bool) (hw : State.Formed s)
    : State.Formed (State.haltCrew s c now) := by
  unfold State.haltCrew
  try dsimp only
  repeat' (first | with_reducible exact hw | with_reducible assumption | with_reducible apply State.modThread_formed
                 | with_reducible apply State.leaveBundle_formed | with_reducible apply State.squash_formed
                 | with_reducible apply State.stopChains_formed | with_reducible apply State.saveCommands_formed
                 | with_reducible apply foldl_formed | (intro _) | split)

theorem State.writeCrew_formed (s : State) (c frame : Nat) (hw : State.Formed s) : State.Formed (State.writeCrew s c frame) := by
  unfold State.writeCrew
  try dsimp only
  repeat' (first | with_reducible exact hw | with_reducible apply State.modCrew_formed
                 | with_reducible apply State.hwPut_formed | with_reducible apply State.scrub_formed
                 | with_reducible apply State.writeBackPath_formed | with_reducible apply State.accrue_formed
                 | with_reducible apply State.postLeaving_formed | with_reducible apply State.chargeLoam_formed
                 | with_reducible apply State.recount_formed | with_reducible apply State.crewLoam_formed
                 | with_reducible apply foldl_formed | split)

theorem State.switchInCtx_formed (s : State) (core asid : Nat) (hw : State.Formed s)
    : State.Formed (State.switchInCtx s core asid) := by
  unfold State.switchInCtx
  try dsimp only
  repeat' (first | with_reducible exact hw | with_reducible apply State.modCore_formed | split)

theorem State.forgetLoam_formed (s : State) (core : Nat) (b : Bool) (a n : Nat) (hw : State.Formed s)
    : State.Formed (State.forgetLoam s core b a n) := by
  unfold State.forgetLoam
  try dsimp only
  repeat' (first | with_reducible exact hw | with_reducible apply State.modCore_formed)

theorem State.loadCrewLoam_formed (s : State) (cr : Crew) (f : Nat) (counts bases : List Nat) (hw : State.Formed s)
    : State.Formed (State.loadCrewLoam s cr f counts bases) := by
  unfold State.loadCrewLoam
  try dsimp only
  repeat' (first | with_reducible exact hw | with_reducible assumption | with_reducible apply State.putLoam_formed
                 | with_reducible apply State.putRing_formed | with_reducible apply State.forgetLoam_formed
                 | with_reducible apply foldl_formed_fst | (intro _) | split)

theorem State.freshPartition_formed (s : State) (core part : Nat) (hw : State.Formed s)
    : State.Formed (State.freshPartition s core part) := by
  unfold State.freshPartition
  try dsimp only
  repeat' (first | with_reducible exact hw | with_reducible apply State.modCore_formed | split)

theorem State.loadCrew_formed (s : State) (c f : Nat) (fit : Fit) (old : Crew) (hw : State.Formed s)
    : State.Formed (State.loadCrew s c f fit old) := by
  unfold State.loadCrew
  try dsimp only
  repeat' (first | with_reducible exact hw | with_reducible assumption | with_reducible apply State.setThread_formed
                 | with_reducible apply State.modCore_formed | with_reducible apply State.switchInCtx_formed
                 | with_reducible apply State.loadCrewLoam_formed | with_reducible apply State.freshPartition_formed
                 | with_reducible apply foldl_formed | (intro _) | split | with_reducible apply formed_mem
                 | (change MemSys.Formed _; dsimp only))

theorem State.rewriteFrame_formed (s : State) (f : Nat) (fit : Fit) (hw : State.Formed s)
    : State.Formed (State.rewriteFrame s f fit) := by
  unfold State.rewriteFrame
  try dsimp only
  repeat' (first | with_reducible exact hw | with_reducible assumption | with_reducible apply State.hwPutWord_formed
                 | with_reducible apply foldl_formed | (intro _) | split)

theorem State.readCrew_formed (s : State) (c f : Nat) (fit : Fit) (old : Crew) (hw : State.Formed s)
    : State.Formed (State.readCrew s c f fit old) := by
  unfold State.readCrew
  try dsimp only
  repeat' (first | with_reducible exact hw | with_reducible apply State.writeBackPath_formed
                 | with_reducible apply State.accrue_formed | with_reducible apply State.chargeLoam_formed
                 | with_reducible apply State.recount_formed | with_reducible apply State.loadCrew_formed
                 | with_reducible apply State.rewriteFrame_formed | split)

theorem State.settleCrew_formed (s : State) (c : Nat) (hw : State.Formed s) : State.Formed (State.settleCrew s c) := by
  unfold State.settleCrew
  try dsimp only
  repeat' (first | with_reducible exact hw | with_reducible assumption | with_reducible apply State.unpark_formed
                 | with_reducible apply State.evalJoins_formed | with_reducible apply State.failSet_formed
                 | with_reducible apply foldl_formed | (intro _) | split)

theorem State.rejoinLane_formed (s : State) (k f : Nat) (hw : State.Formed s) : State.Formed (State.rejoinLane s k f) := by
  unfold State.rejoinLane
  try dsimp only
  repeat' (first | with_reducible exact hw | with_reducible apply State.setThread_formed
                 | with_reducible apply State.dropEscalated_formed | with_reducible apply State.takeHeldTrap_formed)

theorem State.makeReturns_formed (s : State) (c : Nat) (hw : State.Formed s) : State.Formed (State.makeReturns s c) := by
  unfold State.makeReturns
  try dsimp only
  repeat' (first | with_reducible exact hw | with_reducible assumption | with_reducible apply State.modDie_formed
                 | with_reducible apply State.rejoinLane_formed | with_reducible apply foldl_formed | (intro _) | split)

theorem State.startCrew_formed (s : State) (c : Nat) (hw : State.Formed s) : State.Formed (State.startCrew s c) := by
  unfold State.startCrew
  try dsimp only
  repeat' (first | with_reducible exact hw | with_reducible apply State.modThread_formed
                 | with_reducible apply State.modCrew_formed | with_reducible apply State.resumeChains_formed
                 | with_reducible apply State.reenter_formed | with_reducible apply State.settleCrew_formed
                 | with_reducible apply State.makeReturns_formed | with_reducible apply foldl_formed | (intro _))

theorem State.stage_formed (s : State) (w : Who) (cr : Crew) (e : Nat × Nat × Nat) (hw : State.Formed s)
    : State.Formed (State.stage s w cr e) := by
  unfold State.stage
  try dsimp only
  repeat' (first | with_reducible exact hw | with_reducible assumption | with_reducible apply State.putLoam_formed
                 | with_reducible apply State.engineGet_formed | with_reducible apply foldl_formed_fst | (intro _) | split)

theorem State.createCrew_formed (s : State) (cr : Crew) (room : Room) (word : Word) (shadow : Bool)
    (mk : Nat → Nat → Nat → Thread) (hw : State.Formed s) : State.Formed (State.createCrew s cr room word shadow mk) := by
  unfold State.createCrew
  try dsimp only
  repeat' (first | with_reducible exact hw | with_reducible apply State.setThread_formed
                 | with_reducible apply State.modCore_formed | with_reducible apply State.writeBackPath_formed
                 | with_reducible apply State.accrue_formed | with_reducible apply State.chargeLoam_formed
                 | with_reducible apply State.recount_formed | with_reducible apply State.switchInCtx_formed
                 | with_reducible apply State.forgetLoam_formed | with_reducible apply State.freshPartition_formed
                 | with_reducible apply foldl_formed | (intro _) | with_reducible apply formed_mem
                 | (change MemSys.Formed _; dsimp only))

theorem State.placeShare_formed (s : State) (ctx : Ctx) (g : Gang) (seq core gci : Nat) (frames : List Nat)
    (mk : Nat → Nat → Nat → Nat → Thread) (hw : State.Formed s) : State.Formed (State.placeShare s ctx g seq core gci frames mk) := by
  unfold State.placeShare
  try dsimp only
  repeat' (first | with_reducible exact hw | with_reducible assumption | with_reducible apply State.stage_formed
                 | with_reducible apply State.createCrew_formed | with_reducible apply foldl_formed | (intro _) | split)

theorem State.placeGang_formed (s : State) (ctx : Ctx) (g : Gang) (seq d : Nat) (cores frames : List Nat) (die : Die)
    (mk : Nat → Nat → Nat → Nat → Nat → Thread) (hw : State.Formed s) : State.Formed (State.placeGang s ctx g seq d cores frames die mk) := by
  unfold State.placeGang
  try dsimp only
  repeat' (first | with_reducible exact hw | with_reducible apply State.setDie_formed
                 | with_reducible apply State.cachePath_formed | with_reducible apply State.placeShare_formed
                 | with_reducible apply foldl_formed | (intro _) | with_reducible apply formed_mem
                 | (change MemSys.Formed _; dsimp only))

theorem State.leaveCaller_formed (s : State) (n frame : Nat) (hw : State.Formed s)
    : State.Formed (State.leaveCaller s n frame) := by
  unfold State.leaveCaller
  try dsimp only
  repeat' (first | with_reducible exact hw | with_reducible apply State.escRecord_formed
                 | with_reducible apply State.loadSup_formed)

theorem State.countMalformed_formed (s : State) (d : Nat) (hw : State.Formed s) : State.Formed (State.countMalformed s d) := by
  unfold State.countMalformed
  try dsimp only
  repeat' (first | with_reducible exact hw | with_reducible apply State.modDie_formed
                 | with_reducible apply State.answered_formed)

theorem State.launchWait_formed (s : State) (gs : AMap Gang) (n a : Nat) (frame : List Word) (h : State.Formed s) :
    State.Formed ((({ (s.modDie 0 fun x => x.take a 1024).putFrame a frame with gangs := gs } : State).refreshRing 0).leaveCaller n a) :=
  State.leaveCaller_formed _ _ _ (State.refreshRing_formed _ _
    (show State.Formed ((s.modDie 0 fun x => x.take a 1024).putFrame a frame) from State.putFrame_formed _ _ _ (State.modDie_formed _ _ _ h)))
theorem State.launch_formed (s : State) (n : Nat) (d : Reg) (ga : Word) (hw : State.Formed s) : Res.Formed (s.launch n d ga) := by
  unfold State.launch
  extract_lets status
  have hst : ∀ {s : State} (v : Word), State.Formed s → Res.Formed (status s v) := fun v h => State.writeReg_formed _ _ _ _ h
  clear_value status
  refine resFormed_ite trivial ?_
  have h0 := State.loadNow_formed s n (va57 ga) 128 hw
  generalize s.loadNow n (va57 ga) 128 = x at h0 ⊢
  obtain ⟨s1, bs | e⟩ := x
  on_goal 2 => exact h0
  dsimp -zeta only
  replace h0 : State.Formed s1 := h0
  extract_lets g ctx s2 wh ws es seq gang nx s3 frame mk
  have h2 : State.Formed s2 := State.cachePath_formed _ _ _ _ h0
  have h3 : State.Formed s3 := h2
  clear_value mk frame s3 nx gang seq
  clear_value es ws wh s2 ctx g
  refine resFormed_ite trivial (resFormed_ite (hst _ h0) (resFormed_ite (hst _ (State.countMalformed_formed _ _ h2)) (resFormed_ite (hst _ h2) (resFormed_ite (hst _ h2) ?_))))
  split
  · split
    · exact h2
    · exact h2
  · refine resFormed_ite (hst _ h2) (resFormed_ite (hst _ h2) (resFormed_ite (hst _ h2) (resFormed_ite trivial ?_)))
    split
    · split
      · exact State.leaveCaller_formed _ _ _ (State.putFrame_formed _ _ _ (State.placeGang_formed _ _ _ _ _ _ _ _ _ h3))
      · trivial
    · split
      · trivial
      · exact State.launchWait_formed _ _ _ _ _ h3

theorem State.dropContexts_formed (s : State) (d : Nat) (hw : State.Formed s) : State.Formed (State.dropContexts s d) := by
  unfold State.dropContexts
  try dsimp only
  repeat' (first | with_reducible exact hw | with_reducible apply State.modDie_formed)

theorem State.resumeWords_formed (s : State) (g : Gang) (hw : State.Formed s) : State.Formed (State.resumeWords s g) := by
  unfold State.resumeWords
  try dsimp only
  repeat' (first | with_reducible exact hw | with_reducible apply State.hwPutWord_formed | split)

theorem State.holdLane_formed (s : State) (k : Nat) (hw : State.Formed s) : State.Formed (State.holdLane s k) := by
  unfold State.holdLane
  try dsimp only
  repeat' (first | with_reducible exact hw | with_reducible apply State.modThread_formed)

theorem State.freeHart_formed (s : State) (hw : State.Formed s) : State.Formed (State.freeHart s).1 := by
  unfold State.freeHart
  try dsimp only
  repeat' (first | with_reducible exact hw | with_reducible apply State.draw_formed | split)

theorem State.moveToLat_formed (s : State) (k : Nat) (d : Reg) (hw : State.Formed s) : Res.Formed (State.moveToLat s k d) := by
  unfold State.moveToLat
  try dsimp only
  repeat' (first | with_reducible exact hw | with_reducible apply State.setThread_formed
                 | with_reducible apply State.modHart_formed | with_reducible apply State.modDie_formed
                 | with_reducible apply State.putFrame_formed | with_reducible apply State.escRecord_formed
                 | with_reducible apply State.scrub_formed | with_reducible apply State.holdLane_formed
                 | with_reducible apply State.freeHart_formed | (with_reducible apply formed_fst; with_reducible assumption)
                 | with_reducible apply resFormed_go | split | trivial)

theorem State.returnToLane_formed (s : State) (n : Nat) (d : Reg) (hw : State.Formed s)
    : Res.Formed (State.returnToLane s n d) := by
  unfold State.returnToLane
  try dsimp only
  repeat' (first | with_reducible exact hw | with_reducible apply State.setThread_formed
                 | with_reducible apply State.writeReg_formed | with_reducible apply State.dropEscalated_formed
                 | with_reducible apply State.vacate_formed | with_reducible apply State.loadSup_formed
                 | with_reducible apply State.takeHeldTrap_formed | with_reducible apply resFormed_go | split | trivial)

theorem State.placeTask_formed {s : State} {t : Task} {c : Ctx} {inst : Nat} {o : Option State} (e : s.placeTask t c inst = o)
    (hw : State.Formed s) : OptFormed o := by
  subst e
  unfold State.placeTask
  extract_lets hd desc size seq slot s0 word tag len mk nx s1
  have h0 : State.Formed s0 := State.touchCtx_formed _ _ _ hw
  have h1 : State.Formed s1 := h0
  clear_value s1 mk nx len tag word s0 slot seq size desc hd
  with_reducible apply optFormed_none_ite
  split
  · trivial
  · split
    · trivial
    · extract_lets gang s2 r s3
      have h2 : State.Formed s2 := State.placeGang_formed s1 c gang seq _ _ _ _ mk h1
      have h3 : State.Formed s3 := by
        clear_value s2
        simp only [s3]
        split
        · exact State.putLoam_formed _ _ _ _ _ (State.contextBytes_formed _ _ _ _ h2)
        · exact h2
      clear_value s3
      exact State.ctxPutWord_formed _ _ _ _ h3

theorem State.placeWaiting_formed (s : State) (seq : Nat) (hw : State.Formed s) : State.Formed (State.placeWaiting s seq) := by
  unfold State.placeWaiting
  try dsimp only
  repeat' (first | with_reducible exact hw | with_reducible apply State.modDie_formed
                 | with_reducible apply State.putFrame_formed | with_reducible apply State.refreshRing_formed
                 | with_reducible apply State.placeGang_formed | split)

theorem State.taskPlan_formed {s : State} {t : Task} {o : Option State} (e : s.taskPlan t = o) (hw : State.Formed s)
    : OptFormed o := by
  subst e
  unfold State.taskPlan
  split
  · trivial
  · next c _ =>
    extract_lets busy limit inst s0
    have h0 : State.Formed s0 := State.modDie_formed _ _ _ (State.cachePath_formed _ _ _ _ hw)
    clear_value s0 inst busy limit
    with_reducible apply optFormed_none_ite
    generalize e : s0.placeTask t c inst = o
    exact optFormed_map_of (State.placeTask_formed e h0) fun s h => State.refreshRing_formed _ _ h

theorem State.restoreCrew_formed (s : State) (c : Nat) (hw : State.Formed s) : State.Formed (State.restoreCrew s c) := by
  unfold State.restoreCrew
  try dsimp only
  repeat' (first | with_reducible exact hw | with_reducible apply State.cachePath_formed
                 | with_reducible apply State.refreshRing_formed | with_reducible apply State.readCrew_formed
                 | with_reducible apply State.startCrew_formed | split)

theorem State.serve_formed (s : State) (d : Nat) (e : Word × Ctx) (alone : Bool) (hw : State.Formed s)
    : State.Formed (State.serve s d e alone).1 := by
  unfold State.serve
  try dsimp only
  repeat' (first | with_reducible exact hw | with_reducible apply State.modDie_formed
                 | with_reducible apply State.putDeficit_formed | split)

theorem serveBelow_formed (d : Nat) (m : List (Word × Ctx)) (n : Nat) (p : Word) (q : Service) (hw : State.Formed q.state) :
    State.Formed (serveBelow d m n p q).state := by
  induction n generalizing p q with
  | zero => exact hw
  | succ n ih =>
    unfold serveBelow
    generalize q.state.below d m p = l
    induction l generalizing q with
    | nil => exact hw
    | cons e l il =>
      rw [List.foldl_cons]
      apply il
      split
      · exact hw
      · extract_lets alone r
        have hr : State.Formed r.1 := by
          simp only [r]
          split
          · exact hw
          · exact State.serve_formed _ _ _ _ hw
        clear_value r
        split
        · exact hr
        · exact ih _ _ hr

theorem State.tickDie_formed (s : State) (d : Nat) (hw : State.Formed s) : State.Formed (s.tickDie d) := by
  unfold State.tickDie
  extract_lets x n charged s1 old late s2 freeCores lent r
  have h1 : State.Formed s1 := State.refreshRing_formed _ _ (foldl_formed _ hw fun s c h => State.postCharges_formed _ _ _ h)
  have h2 : State.Formed s2 := State.modDie_formed _ _ _ h1
  clear_value s2 freeCores lent
  have h3 : State.Formed r.state := serveBelow_formed _ _ _ _ _ h2
  clear_value r old n late s1 charged
  split
  · exact hw
  · exact State.modDie_formed _ _ _ h3

theorem State.without_formed (s : State) (gone : Nat → Nat → Bool) (settled : Nat → Bool) (hw : State.Formed s)
    : State.Formed (State.without s gone settled) := by
  unfold State.without
  try dsimp only
  repeat' (first | with_reducible exact hw | with_reducible apply formed_mem | (change MemSys.Formed _; dsimp only))

theorem State.writeCtx_formed (s : State) (k : Nat) (f : Ctx → Ctx) (hw : State.Formed s)
    : State.Formed (State.writeCtx s k f) := by
  unfold State.writeCtx
  try dsimp only
  repeat' (first | with_reducible exact hw | with_reducible apply State.modCore_formed
                 | with_reducible apply State.modHart_formed | with_reducible apply State.modDie_formed | split)

theorem State.writeHorizon_formed (s : State) (k : Nat) (f : CoreCounters → CoreCounters) (hw : State.Formed s)
    : State.Formed (State.writeHorizon s k f) := by
  unfold State.writeHorizon
  try dsimp only
  repeat' (first | with_reducible exact hw | with_reducible apply State.modCore_formed | split)

theorem State.modTrap_formed (s : State) (k : Nat) (f : TrapRegs → TrapRegs) (hw : State.Formed s)
    : State.Formed (State.modTrap s k f) := by
  unfold State.modTrap
  try dsimp only
  repeat' (first | with_reducible exact hw | with_reducible apply State.modThread_formed)

theorem State.modFp_formed (s : State) (k : Nat) (f : FpRegs → FpRegs) (hw : State.Formed s)
    : State.Formed (State.modFp s k f) := by
  unfold State.modFp
  try dsimp only
  repeat' (first | with_reducible exact hw | with_reducible apply State.modThread_formed)

theorem State.sysWrite_formed (s : State) (k : Nat) (r : SysReg) (v : Word) (hw : State.Formed s)
    : State.Formed (State.sysWrite s k r v) := by
  unfold State.sysWrite
  try dsimp only
  repeat' (first | with_reducible exact hw | with_reducible apply State.writeCtx_formed
                 | with_reducible apply State.writeHorizon_formed | with_reducible apply State.modTrap_formed
                 | with_reducible apply State.modFp_formed | split)

theorem MemSys.invalidate_formed (m : MemSys) (n : InvName) (hw : m.Formed) : (MemSys.invalidate m n).Formed := by
  unfold MemSys.invalidate
  try dsimp only
  repeat' (first | with_reducible exact hw | split | with_reducible apply formed_bytes | (change Memory.wf _ = true; dsimp only))

theorem State.tlbinv_formed (s : State) (k : Nat) (n : InvName) (hw : State.Formed s) : Res.Formed (State.tlbinv s k n) := by
  unfold State.tlbinv
  try dsimp only
  repeat' (first | with_reducible exact hw | with_reducible apply State.withMem_formed
                 | with_reducible apply MemSys.invalidate_formed | with_reducible apply resFormed_go | split
                 | with_reducible apply formed_mem | trivial)

theorem State.flushCache_formed (s : State) (agent : Nat) (hw : State.Formed s) : State.Formed (State.flushCache s agent) := by
  unfold State.flushCache
  try dsimp only
  repeat' (first | with_reducible exact hw | with_reducible apply State.putLine_formed | with_reducible apply foldl_formed
                 | (intro _))

theorem State.cbRetry_formed (s : State) (grp : List Nat) (i : Instr) (hw : State.Formed s) : CbTry.Formed (s.cbRetry grp i) := by
  unfold State.cbRetry
  repeat' (first | trivial | with_reducible exact State.cbwaitTry_formed _ _ _ _ _ hw
                 | with_reducible exact State.cbpopTry_formed _ _ _ hw | with_reducible exact State.cbpushTry_formed _ _ _ hw
                 | split)

theorem State.doze_formed (s : State) (core : Nat) (hw : State.Formed s) : State.Formed (State.doze s core) := by
  unfold State.doze
  try dsimp only
  repeat' (first | with_reducible exact hw | with_reducible apply State.modCore_formed
                 | with_reducible apply State.flushCache_formed | split)

theorem State.trapParked_formed (s : State) (k cause : Nat) (value : Word) (hw : State.Formed s)
    : State.Formed (State.trapParked s k cause value) := by
  unfold State.trapParked
  try dsimp only
  repeat' (first | with_reducible exact hw | with_reducible apply State.modThread_formed
                 | with_reducible apply State.raise_formed)

theorem State.retrySubset_formed (s : State) (grp : List Nat) (hw : State.Formed s) : State.Formed (s.retrySubset grp) := by
  unfold State.retrySubset
  split
  · exact hw
  · next i _ =>
    extract_lets bad ks s1
    have h1 : State.Formed s1 := foldl_formed _ hw fun s a h => State.trapParked_formed _ _ _ _ h
    clear_value s1 ks bad
    have h := State.cbRetry_formed s1 ks i h1
    split
    · exact h1
    · split
      · exact foldl_formed _ h1 fun s a h => State.trapParked_formed _ _ _ _ h
      · next e => rw [e] at h; exact foldl_formed _ h fun s a h => State.trapParked_formed _ _ _ _ h
      · exact h1
      · next e => rw [e] at h; exact foldl_formed _ h fun s a h => State.unpark_formed _ _ h

theorem State.retryShared_formed (s : State) (k : Nat) (hw : State.Formed s) : State.Formed (s.retryShared k) := by
  unfold State.retryShared
  extract_lets go
  have hg : ∀ (i : Instr) (d a n : Reg) (r : Option State), OptFormed r → State.Formed (go i d a n r) := by
    intro i d a n r hr
    simp only [go]
    split
    · exact State.trapParked_formed _ _ _ _ hw
    · next e => exact State.trapParked_formed _ _ _ _ (State.check_formed e hw)
    · split
      · exact State.trapParked_formed _ _ _ _ hw
      · split
        · exact State.unpark_formed _ _ hr
        · exact hw
  clear_value go
  split
  · exact hg _ _ _ _ _ (State.setfTry_formed _ _ _ _ hw)
  · exact hg _ _ _ _ _ (State.takefTry_formed _ _ _ _ hw)
  · exact hw

theorem State.retryFull_formed (s : State) (ks : List Nat) (hw : State.Formed s) : State.Formed (State.retryFull s ks) := by
  unfold State.retryFull
  try dsimp only
  repeat' (first | with_reducible exact hw | with_reducible assumption | with_reducible apply State.retryShared_formed
                 | with_reducible apply foldl_formed_fst | (intro _) | split)

theorem State.retryCounters_formed (s : State) (k : Nat) (hw : State.Formed s) : State.Formed (State.retryCounters s k) := by
  unfold State.retryCounters
  try dsimp only
  repeat' (first | with_reducible exact hw | with_reducible apply State.modThread_formed
                 | with_reducible apply State.unpark_formed | with_reducible apply State.trapParked_formed | split)

theorem State.retryAll_formed (s : State) (core : Nat) (hw : State.Formed s) : State.Formed (State.retryAll s core) := by
  unfold State.retryAll
  try dsimp only
  repeat' (first | with_reducible exact hw | with_reducible apply State.retrySubset_formed
                 | with_reducible apply State.retryFull_formed | with_reducible apply State.retryCounters_formed
                 | with_reducible apply foldl_formed)

theorem State.watch_formed (s : State) (core : Nat) (e : Nat × Crew) (hw : State.Formed s)
    : State.Formed (State.watch s core e) := by
  unfold State.watch
  try dsimp only
  repeat' (first | with_reducible exact hw | with_reducible apply State.modCrew_formed)

theorem State.watchAll_formed (s : State) (core : Nat) (hw : State.Formed s) : State.Formed (State.watchAll s core) := by
  unfold State.watchAll
  try dsimp only
  repeat' (first | with_reducible exact hw | with_reducible apply State.modThread_formed
                 | with_reducible apply State.watch_formed | with_reducible apply foldl_formed | (intro _))

theorem State.takeSignal_formed (s : State) (k : Nat) (hw : State.Formed s) : State.Formed (State.takeSignal s k) := by
  unfold State.takeSignal
  try dsimp only
  repeat' (first | with_reducible exact hw | with_reducible apply State.modThread_formed
                 | with_reducible apply State.takeTrap_formed | with_reducible apply State.withdraw_formed | split)

theorem State.bark_formed (s : State) (k : Nat) (hw : State.Formed s) : State.Formed (State.bark s k) := by
  unfold State.bark
  try dsimp only
  repeat' (first | with_reducible exact hw | with_reducible apply State.modThread_formed
                 | with_reducible apply State.takeTrap_formed | with_reducible apply State.raise_formed | split)

theorem State.faultRecord_formed (s : State) (d frame : Nat) (va cause : Word) (mask : Nat) (seq core : Nat)
    (hw : State.Formed s) : State.Formed (State.faultRecord s d frame va cause mask seq core) := by
  unfold State.faultRecord
  try dsimp only
  repeat' (first | with_reducible exact hw | with_reducible apply State.modDie_formed | with_reducible apply State.hwPut_formed)

theorem State.clearFaulted_formed (s : State) (asid : Nat) (region : Word) (hw : State.Formed s)
    : State.Formed (State.clearFaulted s asid region) := by
  unfold State.clearFaulted
  try dsimp only
  repeat' (first | with_reducible exact hw | with_reducible assumption | with_reducible apply State.modCrew_formed
                 | with_reducible apply State.refreshRing_formed | with_reducible apply State.startCrew_formed
                 | with_reducible apply foldl_formed | (intro _) | split)

theorem State.raiseFaultWord_formed (s : State) (c : Ctx) (region : Word) (hw : State.Formed s)
    : State.Formed (State.raiseFaultWord s c region) := by
  unfold State.raiseFaultWord
  try dsimp only
  repeat' (first | with_reducible exact hw | with_reducible apply State.ctxPutWord_formed
                 | with_reducible apply State.clearFaulted_formed | split)

theorem State.clearFaults_formed (s : State) (c : Nat) (hw : State.Formed s) : State.Formed (State.clearFaults s c) := by
  unfold State.clearFaults
  try dsimp only
  repeat' (first | with_reducible exact hw | with_reducible apply State.modThread_formed | with_reducible apply foldl_formed
                 | (intro _))

theorem State.dropResidencies_formed (s : State) (core asid : Nat) (hw : State.Formed s)
    : State.Formed (State.dropResidencies s core asid) := by
  unfold State.dropResidencies
  try dsimp only
  repeat' (first | with_reducible exact hw | with_reducible assumption | with_reducible apply State.modCore_formed
                 | with_reducible apply State.reapCrew_formed | with_reducible apply State.lowerTile_formed
                 | with_reducible apply foldl_formed | (intro _))

theorem State.flushAsid_formed (s : State) (core asid : Nat) (hw : State.Formed s)
    : State.Formed (State.flushAsid s core asid) := by
  unfold State.flushAsid
  try dsimp only
  repeat' (first | with_reducible exact hw | with_reducible apply State.putLine_formed | with_reducible apply foldl_formed
                 | (intro _))

theorem State.saveFlush_formed (s : State) (core : Nat) (cr : Crew) (hw : State.Formed s)
    : State.Formed (State.saveFlush s core cr) := by
  unfold State.saveFlush
  try dsimp only
  repeat' (first | with_reducible exact hw | with_reducible apply State.flushAsid_formed | split)

theorem State.writeOne_formed (s : State) (core : Nat) (e : Nat × Crew) (hw : State.Formed s)
    : State.Formed (State.writeOne s core e) := by
  unfold State.writeOne
  try dsimp only
  repeat' (first | with_reducible exact hw | with_reducible apply State.writeCrew_formed
                 | with_reducible apply State.saveFlush_formed)

theorem State.fillFrom_formed (s : State) (core out : Nat) (hw : State.Formed s) : State.Formed (s.fillFrom core out) := by
  unfold State.fillFrom
  exact foldl_formed _ hw fun s a h => State.restoreCrew_formed _ _ h

theorem State.putMigration_formed (s : State) (d : Nat) (g : Migration) (hw : State.Formed s)
    : State.Formed (State.putMigration s d g) := by
  unfold State.putMigration
  try dsimp only
  repeat' (first | with_reducible exact hw | with_reducible apply State.modDie_formed
                 | with_reducible apply State.hwPutWord_formed)

theorem State.sweep_formed (s : State) (g : Migration) (hw : State.Formed s) : State.Formed (State.sweep s g) := by
  unfold State.sweep
  try dsimp only
  repeat' (first | with_reducible exact hw | with_reducible apply State.putLine_formed | with_reducible apply foldl_formed
                 | (intro _))

theorem State.endCopy_formed (s : State) (d : Nat) (g : Migration) (hw : State.Formed s)
    : State.Formed (State.endCopy s d g) := by
  unfold State.endCopy
  try dsimp only
  repeat' (first | with_reducible exact hw | with_reducible apply State.hwPutWord_formed
                 | with_reducible apply State.putMigration_formed | split)

theorem State.startMigration_formed (s : State) (d : Nat) (v : Word) (hw : State.Formed s)
    : State.Formed (State.startMigration s d v) := by
  unfold State.startMigration
  try dsimp only
  repeat' (first | with_reducible exact hw | with_reducible apply State.putMigration_formed
                 | with_reducible apply State.sweep_formed | with_reducible apply State.endCopy_formed | split)

theorem State.copyLine_formed (s : State) (g : Migration) (hw : State.Formed s) : State.Formed (State.copyLine s g).1 := by
  unfold State.copyLine
  try dsimp only
  repeat' (first | with_reducible exact hw | with_reducible apply MemSys.writeLine_formed
                 | with_reducible apply State.withMem_formed | with_reducible apply State.recallLine_formed
                 | with_reducible apply State.siltTouch_formed | split | with_reducible apply formed_mem
                 | with_reducible apply formed_bytes | (change Memory.wf _ = true; dsimp only))

theorem State.releaseMigration_formed (s : State) (d : Nat) (v : Word) (hw : State.Formed s)
    : State.Formed (State.releaseMigration s d v) := by
  unfold State.releaseMigration
  try dsimp only
  repeat' (first | with_reducible exact hw | with_reducible apply State.putMigration_formed
                 | with_reducible apply State.sweep_formed | split)

theorem State.cleanRange_formed (s : State) (a n : Nat) (hw : State.Formed s) : State.Formed (State.cleanRange s a n) := by
  unfold State.cleanRange
  try dsimp only
  repeat' (first | with_reducible exact hw | with_reducible apply State.putLine_formed | with_reducible apply foldl_formed
                 | (intro _))

theorem State.htLoad_formed (s : State) (by' n : Nat) (v : Word) (hw : State.Formed s)
    : State.Formed (State.htLoad s by' n v) := by
  unfold State.htLoad
  try dsimp only
  repeat' (first | with_reducible exact hw | with_reducible apply State.modHart_formed
                 | with_reducible apply State.loadHart_formed | split)

theorem State.setSoft_formed (s : State) (n : Nat) (v : Word) (hw : State.Formed s) : State.Formed (State.setSoft s n v) := by
  unfold State.setSoft
  try dsimp only
  repeat' (first | with_reducible exact hw | with_reducible apply State.modHart_formed | split)

theorem State.clearPending_formed (s : State) (n : Nat) (v : Word) (hw : State.Formed s)
    : State.Formed (State.clearPending s n v) := by
  unfold State.clearPending
  try dsimp only
  repeat' (first | with_reducible exact hw | with_reducible apply State.modHart_formed)

theorem State.writeQctl_formed (s : State) (v : Word) (hw : State.Formed s) : State.Formed (State.writeQctl s v) := by
  unfold State.writeQctl
  try dsimp only
  repeat' (first | with_reducible exact hw | split | with_reducible apply formed_mem | (change MemSys.Formed _; dsimp only))

theorem State.sendSignal_formed (s : State) (d : Nat) (v : Word) (hw : State.Formed s)
    : State.Formed (State.sendSignal s d v) := by
  unfold State.sendSignal
  try dsimp only
  repeat' (first | with_reducible exact hw | with_reducible apply State.modThread_formed
                 | with_reducible apply State.modDie_formed | split)

theorem State.returnThread_formed (s : State) (d : Nat) (v : Word) (hw : State.Formed s)
    : State.Formed (State.returnThread s d v) := by
  unfold State.returnThread
  try dsimp only
  repeat' (first | with_reducible exact hw | with_reducible apply State.modDie_formed
                 | with_reducible apply State.rejoinLane_formed | split)

theorem State.invalidateBlock_formed (s : State) (d : Nat) (r : RegionBlock) (held : Bool) (hw : State.Formed s)
    : State.Formed (State.invalidateBlock s d r held) := by
  unfold State.invalidateBlock
  try dsimp only
  repeat' (first | with_reducible exact hw | with_reducible apply State.modDie_formed
                 | with_reducible apply State.touchCtx_formed | with_reducible apply State.writeBackBlock_formed
                 | with_reducible apply State.postCharges_formed | with_reducible apply State.countMalformed_formed
                 | with_reducible apply foldl_formed | (intro _) | split)

theorem State.flushLeft_formed (s0 s : State) (d : Nat) (hw : State.Formed s) : State.Formed (s0.flushLeft s d) := by
  unfold State.flushLeft
  refine foldl_formed _ hw fun s a h => ?_
  dsimp only
  split
  · exact State.flushAsid_formed _ _ _ h
  · exact h

theorem State.invalidateRegions_formed (s : State) (d : Nat) (v : Word) (hw : State.Formed s)
    : State.Formed (State.invalidateRegions s d v) := by
  unfold State.invalidateRegions
  try dsimp only
  repeat' (first | with_reducible exact hw | with_reducible apply State.modDie_formed
                 | with_reducible apply State.invalidateBlock_formed | with_reducible apply State.flushLeft_formed
                 | with_reducible apply foldl_formed | (intro _))

theorem State.writeHart_formed (s : State) (by' n off : Nat) (v : Word) (hw : State.Formed s)
    : State.Formed (State.writeHart s by' n off v) := by
  unfold State.writeHart
  try dsimp only
  repeat' (first | with_reducible exact hw | with_reducible apply State.modHart_formed
                 | with_reducible apply State.htLoad_formed | with_reducible apply State.setSoft_formed
                 | with_reducible apply State.clearPending_formed | split)

theorem State.writePkg_formed (s : State) (by' off : Nat) (v : Word) (hw : State.Formed s)
    : State.Formed (State.writePkg s by' off v) := by
  unfold State.writePkg
  try dsimp only
  repeat' (first | with_reducible exact hw | with_reducible apply State.modHart_formed
                 | with_reducible apply State.edgeAll_formed | with_reducible apply State.writeQctl_formed
                 | with_reducible apply State.writeHart_formed | split | with_reducible apply formed_mem
                 | (change MemSys.Formed _; dsimp only))

theorem State.writeDie_formed (s : State) (d off : Nat) (v : Word) (hw : State.Formed s)
    : State.Formed (State.writeDie s d off v) := by
  unfold State.writeDie
  try dsimp only
  repeat' (first | with_reducible exact hw | with_reducible apply State.modDie_formed
                 | with_reducible apply State.startMigration_formed | with_reducible apply State.releaseMigration_formed
                 | with_reducible apply State.sendSignal_formed | with_reducible apply State.returnThread_formed
                 | with_reducible apply State.invalidateRegions_formed | split)

theorem State.writeStack_formed (s : State) (n off : Nat) (v : Word) (hw : State.Formed s)
    : State.Formed (State.writeStack s n off v) := by
  unfold State.writeStack
  try dsimp only
  repeat' (first | with_reducible exact hw | with_reducible apply State.setStk_formed | split)

theorem State.writeNet_formed (s : State) (n off : Nat) (v : Word) (hw : State.Formed s)
    : State.Formed (State.writeNet s n off v) := by
  unfold State.writeNet
  try dsimp only
  repeat' (first | with_reducible exact hw | with_reducible apply State.setNet_formed | split)

theorem State.writePort_formed (s : State) (n off : Nat) (v : Word) (hw : State.Formed s)
    : State.Formed (State.writePort s n off v) := by
  unfold State.writePort
  try dsimp only
  repeat' (first | with_reducible exact hw | with_reducible apply State.setPort_formed | split)

theorem State.ctlWrite_formed (s : State) (by' off : Nat) (v : Word) (hw : State.Formed s)
    : State.Formed (State.ctlWrite s by' off v) := by
  unfold State.ctlWrite
  try dsimp only
  repeat' (first | with_reducible exact hw | with_reducible apply State.writePkg_formed
                 | with_reducible apply State.writeDie_formed | with_reducible apply State.writeStack_formed
                 | with_reducible apply State.writeNet_formed | with_reducible apply State.writePort_formed | split)

theorem State.ctlStore_formed (s : State) (by' pa : Nat) (bs : List Byte) (hw : State.Formed s)
    : State.Formed (State.ctlStore s by' pa bs) := by
  unfold State.ctlStore
  try dsimp only
  repeat' (first | with_reducible exact hw | with_reducible apply State.reply_formed
                 | with_reducible apply State.ctlWrite_formed | split)

end Sys2Proof.Machine
end

