-- ==== Sys2Proof/Laws/FormedRest.lean ====
section
/-!
SUPPORT. Loads and stores, fences, register operations, home agents and the package: what they answer keeps the memory's canonical form.
-/
namespace Sys2Proof.Machine

theorem State.noteLoam_formed (s : State) (core off : Nat) (sp : LoamSpot) (n : Nat) (hw : State.Formed s)
    : State.Formed (State.noteLoam s core off sp n) := by
  unfold State.noteLoam
  try dsimp only
  repeat' (first | with_reducible exact hw | with_reducible apply State.notePast_formed)

theorem State.readTarget_formed (s : State) (k : Nat) (t : Target) (n : Nat) (hw : State.Formed s)
    : State.Formed (State.readTarget s k t n).1 := by
  unfold State.readTarget
  try dsimp only
  repeat' (first | with_reducible exact hw | with_reducible apply State.countParity_formed
                 | with_reducible apply State.siltTouch_formed | with_reducible apply State.readPage_formed
                 | with_reducible apply State.readLoam_formed | split)

theorem State.writeTarget_formed (s : State) (k : Nat) (t : Target) (bs : List Byte) (hw : State.Formed s)
    : State.Formed (State.writeTarget s k t bs) := by
  unfold State.writeTarget
  try dsimp only
  repeat' (first | with_reducible exact hw | with_reducible apply State.writeSpot_formed
                 | with_reducible apply State.siltTouch_formed | with_reducible apply State.countTimeout_formed
                 | with_reducible apply State.writePage_formed | with_reducible apply State.ctlStore_formed
                 | with_reducible apply State.noteLoam_formed | split)

theorem State.atomicTarget_formed (s : State) (k : Nat) (t : Target) (size : Nat) (i : Instr) (b c : Word)
    (hw : State.Formed s) : State.Formed (State.atomicTarget s k t size i b c).1 := by
  unfold State.atomicTarget
  try dsimp only
  repeat' (first | with_reducible exact hw | with_reducible apply State.countParity_formed
                 | with_reducible apply State.writeSpot_formed | with_reducible apply State.siltTouch_formed
                 | with_reducible apply State.atomicPage_formed | with_reducible apply State.readLoam_formed
                 | with_reducible apply State.noteLoam_formed | split)

theorem State.promise_formed (s : State) (k : Nat) (t : Target) (n : Nat) (hw : State.Formed s)
    : State.Formed (State.promise s k t n) := by
  unfold State.promise
  try dsimp only
  repeat' (first | with_reducible exact hw | with_reducible apply State.modThread_formed
                 | with_reducible apply State.modGang_formed | split)

theorem State.promised_formed (s : State) (k : Nat) (t : Target) (bs : List Byte) (hw : State.Formed s)
    : State.Formed (State.promised s k t bs).1 := by
  unfold State.promised
  try dsimp only
  repeat' (first | with_reducible exact hw | split | with_reducible apply formed_mem | (change MemSys.Formed _; dsimp only))

theorem State.writeRegs_formed (s : State) (k : Nat) (ws : List (Nat × Word)) (hw : State.Formed s)
    : State.Formed (State.writeRegs s k ws) := by
  unfold State.writeRegs
  try dsimp only
  repeat' (first | with_reducible exact hw | with_reducible apply State.writeReg_formed | with_reducible apply foldl_formed
                 | (intro _))

theorem State.writeCheckpoint_formed (s : State) (k : Nat) (ws : List (Nat × Word)) (hw : State.Formed s)
    : State.Formed (State.writeCheckpoint s k ws) := by
  unfold State.writeCheckpoint
  try dsimp only
  repeat' (first | with_reducible exact hw | with_reducible assumption | with_reducible apply State.putLoam_formed
                 | with_reducible apply foldl_formed | (intro _) | split)

theorem State.target_formed (s : State) (k addr n : Nat) (acc : AccKind) (hw : State.Formed s)
    : State.Formed (State.target s k addr n acc).1 := by
  unfold State.target
  try dsimp only
  repeat' (first | with_reducible exact hw | with_reducible apply State.resolve_formed
                 | (with_reducible apply formed_fst; with_reducible assumption) | split)

theorem State.sendPromote_formed (s : State) (k : Nat) (o : Ord) (t : Target) (hw : State.Formed s)
    : State.Formed (State.sendPromote s k o t) := by
  unfold State.sendPromote
  try dsimp only
  repeat' (first | with_reducible exact hw | with_reducible apply State.post_formed | split)

theorem State.finish_formed (s : State) (id : Nat) (a : Access) (hw : State.Formed s) : State.Formed (State.finish s id a) := by
  unfold State.finish
  try dsimp only
  repeat' (first | with_reducible exact hw | with_reducible apply State.modThread_formed | with_reducible apply formed_mem
                 | with_reducible apply formed_bytes | (change MemSys.Formed _; dsimp only)
                 | (change Memory.wf _ = true; dsimp only))

theorem State.lateTrap_formed (s : State) (a : Access) (cause sub : Nat) (hw : State.Formed s)
    : State.Formed (State.lateTrap s a cause sub) := by
  unfold State.lateTrap
  try dsimp only
  repeat' (first | with_reducible exact hw | with_reducible apply State.modThread_formed
                 | with_reducible apply State.modCrew_formed | with_reducible apply State.raise_formed
                 | with_reducible apply State.withdrawIfParked_formed)

theorem State.deliver_formed (s : State) (a : Access) (ws : List (Nat × Word)) (hw : State.Formed s)
    : State.Formed (State.deliver s a ws) := by
  unfold State.deliver
  try dsimp only
  repeat' (first | with_reducible exact hw | with_reducible apply State.writeRegs_formed
                 | with_reducible apply State.writeCheckpoint_formed | split)

theorem State.spoiled_formed (s : State) (a : Access) (ws : List (Nat × Word)) (hw : State.Formed s)
    : State.Formed (State.spoiled s a ws) := by
  unfold State.spoiled
  try dsimp only
  repeat' (first | with_reducible exact hw | with_reducible apply State.lateTrap_formed
                 | with_reducible apply State.deliver_formed | split)

theorem State.performLoad_formed (s : State) (id : Nat) (a : Access) (size : Nat) (sx : Bool) (d : Nat) (hw : State.Formed s)
    : State.Formed (State.performLoad s id a size sx d) := by
  unfold State.performLoad
  try dsimp only
  repeat' (first | with_reducible exact hw | with_reducible apply State.readTarget_formed
                 | with_reducible apply State.promised_formed | with_reducible apply State.finish_formed
                 | with_reducible apply State.deliver_formed | with_reducible apply State.spoiled_formed
                 | (with_reducible apply formed_fst; with_reducible assumption) | split)

theorem State.performCacheOp_formed (s : State) (k : Nat) (t : Target) (sc : Scope) (drop : Bool) (hw : State.Formed s)
    : State.Formed (State.performCacheOp s k t sc drop) := by
  unfold State.performCacheOp
  try dsimp only
  repeat' (first | with_reducible exact hw | with_reducible apply State.putLine_formed
                 | with_reducible apply State.dropLine_formed | split)

theorem State.performStore_formed (s : State) (id : Nat) (a : Access) (hw : State.Formed s)
    : State.Formed (State.performStore s id a) := by
  unfold State.performStore
  try dsimp only
  repeat' (first | with_reducible exact hw | with_reducible apply State.writeTarget_formed
                 | with_reducible apply State.finish_formed | with_reducible apply State.performCacheOp_formed | split)

theorem State.performAtomic_formed (s : State) (id : Nat) (a : Access) (i : Instr) (size d : Nat) (b c : Word)
    (hw : State.Formed s) : State.Formed (State.performAtomic s id a i size d b c) := by
  unfold State.performAtomic
  try dsimp only
  repeat' (first | with_reducible exact hw | with_reducible apply State.atomicTarget_formed
                 | with_reducible apply State.finish_formed | with_reducible apply State.deliver_formed
                 | with_reducible apply State.spoiled_formed | (with_reducible apply formed_fst; with_reducible assumption)
                 | split)

theorem State.returnSector_formed (s : State) (id : Nat) (a : Access) (hw : State.Formed s)
    : State.Formed (State.returnSector s id a) := by
  unfold State.returnSector
  try dsimp only
  repeat' (first | with_reducible exact hw | with_reducible assumption | with_reducible apply State.performLoad_formed
                 | with_reducible apply foldl_formed | (intro _) | split)

theorem State.performRequest_formed (s : State) (id : Nat) (a : Access) (hw : State.Formed s)
    : State.Formed (State.performRequest s id a) := by
  unfold State.performRequest
  try dsimp only
  repeat' (first | with_reducible exact hw | with_reducible apply State.writeTarget_formed
                 | with_reducible apply State.finish_formed | with_reducible apply State.performStore_formed
                 | with_reducible apply foldl_formed | (intro _) | split)

theorem State.loadLat_formed (s : State) (k addr size : Nat) (sx : Bool) (d : Nat) (t : Target) (hw : State.Formed s)
    : Res.Formed (State.loadLat s k addr size sx d t) := by
  unfold State.loadLat
  try dsimp only
  repeat' (first | with_reducible exact hw | with_reducible apply State.answered_formed
                 | with_reducible apply State.readTarget_formed | with_reducible apply State.promised_formed
                 | with_reducible apply State.writeRegs_formed | (with_reducible apply formed_fst; with_reducible assumption)
                 | with_reducible apply resFormed_go | with_reducible apply resFormed_failed | split)

theorem State.ld_formed (s : State) (k : Nat) (sz : MemSize) (sx : Bool) (o : Ord) (sc : Scope) (d a : Reg) (off : BitVec 24)
    (hw : State.Formed s) : Res.Formed (State.ld s k sz sx o sc d a off) := by
  unfold State.ld
  try dsimp only
  repeat' (first | with_reducible exact hw | with_reducible apply State.send_formed
                 | with_reducible apply State.readTarget_formed | with_reducible apply State.promise_formed
                 | with_reducible apply State.target_formed | with_reducible apply State.sendPromote_formed
                 | with_reducible apply State.loadLat_formed | (with_reducible apply formed_fst; with_reducible assumption)
                 | with_reducible apply resFormed_go | with_reducible apply resFormed_failed | split | trivial)

theorem State.bufferStore_formed (s : State) (k : Nat) (b : BufferedStore) (hw : State.Formed s)
    : Res.Formed (State.bufferStore s k b) := by
  unfold State.bufferStore
  try dsimp only
  repeat' (first | with_reducible exact hw | with_reducible apply State.modThread_formed
                 | with_reducible apply State.holdSpec_formed | with_reducible apply resFormed_go | split)

theorem State.storeLat_formed (s : State) (k : Nat) (t : Target) (data : List Byte) (hw : State.Formed s)
    : Res.Formed (State.storeLat s k t data) := by
  unfold State.storeLat
  try dsimp only
  repeat' (first | with_reducible exact hw | with_reducible apply State.answered_formed
                 | with_reducible apply State.countTimeout_formed | with_reducible apply State.writeTarget_formed
                 | with_reducible apply resFormed_go | split)

theorem State.st_formed (s : State) (k : Nat) (sz : MemSize) (o : Ord) (sc : Scope) (d a : Reg) (off : BitVec 24)
    (hw : State.Formed s) : Res.Formed (State.st s k sz o sc d a off) := by
  unfold State.st
  try dsimp only
  repeat' (first | with_reducible exact hw | with_reducible apply State.send_formed | with_reducible apply State.target_formed
                 | with_reducible apply State.bufferStore_formed | with_reducible apply State.storeLat_formed
                 | (with_reducible apply formed_fst; with_reducible assumption) | with_reducible apply resFormed_go | split
                 | trivial)

theorem State.amo_formed (s : State) (k : Nat) (i : Instr) (size : Nat) (o : Ord) (sc : Scope) (d a : Reg) (b c : Word)
    (hw : State.Formed s) : Res.Formed (State.amo s k i size o sc d a b c) := by
  unfold State.amo
  try dsimp only
  repeat' (first | with_reducible exact hw | with_reducible apply State.answered_formed
                 | with_reducible apply State.writeReg_formed | with_reducible apply State.send_formed
                 | with_reducible apply State.readTarget_formed | with_reducible apply State.atomicTarget_formed
                 | with_reducible apply State.target_formed | with_reducible apply State.sendPromote_formed
                 | (with_reducible apply formed_fst; with_reducible assumption) | with_reducible apply resFormed_go
                 | with_reducible apply resFormed_failed | split | trivial)

theorem State.amoInstr_formed (s : State) (i : Instr) (g : Guard) (sz : AmoSize) (o : Ord) (sc : Scope) (d a b : Reg)
    (hw : State.Formed s) : OutFormed (State.amoInstr s i g sz o sc d a b) := by
  unfold State.amoInstr
  try dsimp only
  repeat' (first | with_reducible exact hw | with_reducible apply perThread_formed | with_reducible apply State.amo_formed
                 | (intro _))

theorem State.pref_formed (s : State) (k : Nat) (kind : PrefKind) (addr : Nat) (hw : State.Formed s)
    : State.Formed (State.pref s k kind addr) := by
  unfold State.pref
  try dsimp only
  repeat' (first | with_reducible exact hw | with_reducible apply State.settleRest_formed
                 | with_reducible apply State.forWrite_formed | with_reducible apply State.readCopy_formed | split)

theorem State.cacheOp_formed (s : State) (k addr : Nat) (sc : Scope) (drop : Bool) (hw : State.Formed s)
    : Res.Formed (State.cacheOp s k addr sc drop) := by
  unfold State.cacheOp
  try dsimp only
  repeat' (first | with_reducible exact hw | with_reducible apply State.resolve_formed | with_reducible apply State.send_formed
                 | with_reducible apply State.performCacheOp_formed
                 | (with_reducible apply formed_fst; with_reducible assumption) | with_reducible apply resFormed_go | split
                 | trivial)

theorem State.icinvPage_formed (s : State) (w : Who) (va : Nat) (hw : State.Formed s)
    : State.Formed (State.icinvPage s w va).1 := by
  unfold State.icinvPage
  try dsimp only
  repeat' (first | with_reducible exact hw | with_reducible apply State.findLeaf_formed
                 | with_reducible apply State.useLeaf_formed | with_reducible apply State.resolve_formed
                 | (with_reducible apply formed_fst; with_reducible assumption) | split)

theorem State.icinv_formed (s : State) (k addr : Nat) (sc : Scope) (hw : State.Formed s)
    : Res.Formed (State.icinv s k addr sc) := by
  unfold State.icinv
  try dsimp only
  repeat' (first | with_reducible exact hw | with_reducible apply State.withMem_formed
                 | with_reducible apply State.icinvPage_formed | (with_reducible apply formed_fst; with_reducible assumption)
                 | with_reducible apply resFormed_go | split | with_reducible apply formed_mem
                 | with_reducible apply formed_bytes | (change Memory.wf _ = true; dsimp only) | trivial)

theorem alu2_formed (s : State) (i : Instr) (g : Guard) (d a b : Reg) (f : Word → Word → Word) (hw : State.Formed s)
    : OutFormed (alu2 s i g d a b f) := by
  unfold alu2
  try dsimp only
  repeat' (first | with_reducible exact hw | with_reducible assumption | with_reducible apply State.writeReg_formed
                 | with_reducible apply perThread_formed | with_reducible apply resFormed_go | (intro _))

theorem alu1_formed (s : State) (i : Instr) (g : Guard) (d a : Reg) (f : Word → Word) (hw : State.Formed s)
    : OutFormed (alu1 s i g d a f) := by
  unfold alu1
  try dsimp only
  repeat' (first | with_reducible exact hw | with_reducible assumption | with_reducible apply State.writeReg_formed
                 | with_reducible apply perThread_formed | with_reducible apply resFormed_go | (intro _))

theorem divide_formed (s : State) (i : Instr) (g : Guard) (d a b : Reg) (f : Word → Word → Word) (hw : State.Formed s)
    : OutFormed (divide s i g d a b f) := by
  unfold divide
  try dsimp only
  repeat' (first | with_reducible exact hw | with_reducible assumption | with_reducible apply State.raiseFlags_formed
                 | with_reducible apply State.writeReg_formed | with_reducible apply perThread_formed
                 | with_reducible apply resFormed_go | (intro _) | split)

theorem State.writePred_formed (s : State) (k : Nat) (d : Pred) (v : Bool) (hw : State.Formed s)
    : State.Formed (State.writePred s k d v) := by
  unfold State.writePred
  try dsimp only
  repeat' (first | with_reducible exact hw | with_reducible apply State.modThread_formed)

theorem State.fpResult_formed (s : State) (k : Nat) (d : Reg) (r : FpResult) (hw : State.Formed s)
    : State.Formed (State.fpResult s k d r) := by
  unfold State.fpResult
  try dsimp only
  repeat' (first | with_reducible exact hw | with_reducible apply State.raiseFlags_formed
                 | with_reducible apply State.writeReg_formed)

theorem fp2_formed (s : State) (i : Instr) (g : Guard) (t : FType) (rm : Rm) (d a b : Reg)
    (f : Fmt → Mode → Nat → Nat → FpResult) (hw : State.Formed s) : OutFormed (fp2 s i g t rm d a b f) := by
  unfold fp2
  try dsimp only
  repeat' (first | with_reducible exact hw | with_reducible assumption | with_reducible apply perThread_formed
                 | with_reducible apply State.fpResult_formed | with_reducible apply resFormed_go | (intro _))

theorem fp1_formed (s : State) (i : Instr) (g : Guard) (t : FType) (rm : Rm) (d a : Reg) (f : Fmt → Mode → Nat → FpResult)
    (hw : State.Formed s) : OutFormed (fp1 s i g t rm d a f) := by
  unfold fp1
  try dsimp only
  repeat' (first | with_reducible exact hw | with_reducible assumption | with_reducible apply perThread_formed
                 | with_reducible apply State.fpResult_formed | with_reducible apply resFormed_go | (intro _))

theorem State.takeKind_formed (s : State) (k : MsgKind) (id : Nat) (hw : State.Formed s)
    : State.Formed (State.takeKind s k id) := by
  unfold State.takeKind
  try dsimp only
  repeat' (first | with_reducible exact hw | with_reducible apply State.takeMsg_formed | split)

theorem State.evict_formed (s : State) (k : MsgKind) (agent line : Nat) (hw : State.Formed s)
    : State.Formed (State.evict s k agent line) := by
  unfold State.evict
  try dsimp only
  repeat' (first | with_reducible exact hw | with_reducible apply State.giveUp_formed | split)

theorem State.putRow_formed (s : State) (k : MsgKind) (arrive : Bool) (agent line : Nat) (hw : State.Formed s)
    : State.Formed (State.putRow s k arrive agent line) := by
  unfold State.putRow
  try dsimp only
  repeat' (first | with_reducible exact hw | with_reducible apply State.takeMsg_formed
                 | with_reducible apply State.evict_formed | split)

theorem State.mergePair_formed (s : State) (a : DirEntry) (hw : State.Formed s) : State.Formed (State.mergePair s a) := by
  unfold State.mergePair
  try dsimp only
  repeat' (first | with_reducible exact hw | with_reducible apply State.withMem_formed
                 | with_reducible apply State.startEviction_formed | with_reducible apply State.settleRest_formed | split
                 | with_reducible apply formed_mem | with_reducible apply formed_bytes | (change Memory.wf _ = true; dsimp only))

theorem State.mergeAll_formed (s : State) (hw : State.Formed s) : State.Formed (State.mergeAll s) := by
  unfold State.mergeAll
  try dsimp only
  repeat' (first | with_reducible exact hw | with_reducible apply State.mergePair_formed | with_reducible apply foldl_formed)

theorem State.verifyStage_formed (s : State) (n : Nat) (hw : State.Formed s) : State.Formed (State.verifyStage s n) := by
  unfold State.verifyStage
  try dsimp only
  repeat' (first | with_reducible exact hw | split | with_reducible apply formed_mem | (change MemSys.Formed _; dsimp only))

theorem State.lose_formed (s : State) (hw : State.Formed s) : State.Formed (State.lose s) := by
  unfold State.lose
  try dsimp only
  repeat' (first | with_reducible exact hw | with_reducible apply formed_mem | with_reducible apply formed_bytes
                 | (change MemSys.Formed _; dsimp only) | (change Memory.wf _ = true; dsimp only))

theorem State.portDown_formed (s : State) (n : Nat) (hw : State.Formed s) : State.Formed (State.portDown s n) := by
  unfold State.portDown
  try dsimp only
  repeat' (first | with_reducible exact hw | with_reducible apply State.setPort_formed
                 | with_reducible apply State.pkgEvent_formed | with_reducible apply State.lose_formed | split)

theorem State.setLink_formed (s : State) (l : Link) (p : Port) (hw : State.Formed s) : State.Formed (State.setLink s l p) := by
  unfold State.setLink
  try dsimp only
  repeat' (first | with_reducible exact hw | with_reducible apply State.setPort_formed | split
                 | with_reducible apply formed_mem | (change MemSys.Formed _; dsimp only))

theorem State.resend_formed (s : State) (l : Link) (hw : State.Formed s) : State.Formed (State.resend s l) := by
  unfold State.resend
  try dsimp only
  repeat' (first | with_reducible exact hw | with_reducible apply State.setLink_formed | split
                 | with_reducible apply formed_mem | (change MemSys.Formed _; dsimp only))

theorem State.replay_formed (s : State) (l : Link) (hw : State.Formed s) : State.Formed (State.replay s l) := by
  unfold State.replay
  try dsimp only
  repeat' (first | with_reducible exact hw | with_reducible apply State.portDown_formed
                 | with_reducible apply State.setLink_formed | split | with_reducible apply formed_mem
                 | (change MemSys.Formed _; dsimp only))

theorem State.sendFlit_formed (s : State) (l : Link) (f : Flit) (hw : State.Formed s) : State.Formed (State.sendFlit s l f) := by
  unfold State.sendFlit
  try dsimp only
  repeat' (first | with_reducible exact hw | with_reducible apply State.setLink_formed | split
                 | with_reducible apply formed_mem | (change MemSys.Formed _; dsimp only))

theorem State.askRetry_formed (s : State) (l : Link) (hw : State.Formed s) : State.Formed (State.askRetry s l) := by
  unfold State.askRetry
  try dsimp only
  repeat' (first | with_reducible exact hw | with_reducible apply State.setLink_formed | split
                 | with_reducible apply formed_mem | (change MemSys.Formed _; dsimp only))

theorem State.receive_formed (s : State) (l : Link) (f : Flit) (hw : State.Formed s) : State.Formed (State.receive s l f) := by
  unfold State.receive
  try dsimp only
  repeat' (first | with_reducible exact hw | with_reducible apply State.setLink_formed
                 | with_reducible apply State.replay_formed | with_reducible apply State.askRetry_formed | split)

theorem State.arriveFlit_formed (s : State) (l : Link) (f : Flit) (hw : State.Formed s)
    : State.Formed (State.arriveFlit s l f) := by
  unfold State.arriveFlit
  try dsimp only
  repeat' (first | with_reducible exact hw | with_reducible apply State.setLink_formed
                 | with_reducible apply State.receive_formed | split)

theorem State.railsToF0_formed (s : State) (d : Nat) (hw : State.Formed s) : State.Formed (State.railsToF0 s d) := by
  unfold State.railsToF0
  try dsimp only
  repeat' (first | with_reducible exact hw | with_reducible apply formed_mem | (change MemSys.Formed _; dsimp only))

theorem State.endCommand_formed (s : State) (result : Nat) (hw : State.Formed s) : State.Formed (State.endCommand s result) := by
  unfold State.endCommand
  try dsimp only
  repeat' (first | with_reducible exact hw | with_reducible apply State.pkgEvent_formed | with_reducible apply formed_mem
                 | (change MemSys.Formed _; dsimp only))

theorem State.stopAllChains_formed (s : State) (hw : State.Formed s) : State.Formed (State.stopAllChains s) := by
  unfold State.stopAllChains
  try dsimp only
  repeat' (first | with_reducible exact hw | with_reducible assumption | with_reducible apply State.writeHeader_formed
                 | with_reducible apply State.putChain_formed | with_reducible apply foldl_formed | (intro _) | split)

theorem State.abandonPrefill_formed (s : State) (e : Nat × Crew) (hw : State.Formed s)
    : State.Formed (State.abandonPrefill s e) := by
  unfold State.abandonPrefill
  try dsimp only
  repeat' (first | with_reducible exact hw | with_reducible apply State.modCrew_formed
                 | with_reducible apply State.chargeLoam_formed | with_reducible apply State.recount_formed
                 | with_reducible apply State.refreshRing_formed | split)

theorem State.flushAll_formed (s : State) (hw : State.Formed s) : State.Formed (State.flushAll s) := by
  unfold State.flushAll
  try dsimp only
  repeat' (first | with_reducible exact hw | with_reducible apply State.flushCache_formed | with_reducible apply foldl_formed)

theorem State.freeBytes_formed (s : State) (n : Nat) (hw : State.Formed s) : State.Formed (State.freeBytes s n).2 := by
  unfold State.freeBytes
  try dsimp only
  repeat' (first | with_reducible exact hw | with_reducible apply formed_mem | (change MemSys.Formed _; dsimp only))

theorem State.withoutFills_formed (s : State) (hw : State.Formed s) : State.Formed (State.withoutFills s) := by
  unfold State.withoutFills
  try dsimp only
  repeat' (first | with_reducible exact hw | with_reducible assumption | with_reducible apply State.lowerTile_formed
                 | with_reducible apply foldl_formed | (intro _))

theorem State.restoreContexts_formed (s : State) (hw : State.Formed s) : State.Formed (State.restoreContexts s) := by
  unfold State.restoreContexts
  try dsimp only
  repeat' (first | with_reducible exact hw | with_reducible apply State.modDie_formed | with_reducible apply foldl_formed
                 | (intro _))

theorem State.putGang_formed (s : State) (ws : List Word) (frame : List Word) (waiting : Bool) (hw : State.Formed s)
    : State.Formed (State.putGang s ws frame waiting) := by
  unfold State.putGang
  try dsimp only
  repeat' (first | with_reducible exact hw | with_reducible apply State.putFrame_formed | split
                 | with_reducible apply formed_mem | (change MemSys.Formed _; dsimp only))

theorem State.restoreDie_formed (s : State) (d : Nat) (x : DieImage) (hw : State.Formed s)
    : State.Formed (State.restoreDie s d x) := by
  unfold State.restoreDie
  try dsimp only
  repeat' (first | with_reducible exact hw | with_reducible apply State.modDie_formed
                 | with_reducible apply State.putGang_formed | with_reducible apply foldl_formed | (intro _))

theorem State.namePcs_formed (s : State) (c : Nat) (hw : State.Formed s) : State.Formed (State.namePcs s c) := by
  unfold State.namePcs
  try dsimp only
  repeat' (first | with_reducible exact hw | with_reducible apply State.modCrew_formed | with_reducible apply formed_mem
                 | (change MemSys.Formed _; dsimp only))

theorem State.installCrew_formed (s : State) (f : Nat) (room frame : Nat) (faulted : Bool) (hw : State.Formed s)
    : State.Formed (State.installCrew s f room frame faulted) := by
  unfold State.installCrew
  try dsimp only
  repeat' (first | with_reducible exact hw | with_reducible apply State.modCrew_formed
                 | with_reducible apply State.loadCrew_formed | split | with_reducible apply formed_mem
                 | (change MemSys.Formed _; dsimp only))

theorem State.installChain_formed (s : State) (c : Nat) (w0 w1 : Word) (hw : State.Formed s)
    : State.Formed (State.installChain s c w0 w1) := by
  unfold State.installChain
  try dsimp only
  repeat' (first | with_reducible exact hw | split | with_reducible apply formed_mem | (change MemSys.Formed _; dsimp only))

theorem State.finishCrew_formed (s : State) (c f : Nat) (hw : State.Formed s) : State.Formed (State.finishCrew s c f) := by
  unfold State.finishCrew
  try dsimp only
  repeat' (first | with_reducible exact hw | with_reducible apply State.modCrew_formed
                 | with_reducible apply State.modGang_formed | with_reducible apply State.installChain_formed
                 | with_reducible apply foldl_formed | (intro _) | split)

theorem State.restoreCore_formed (s : State) (p : Placed) (rooms : List (List Word)) (hw : State.Formed s)
    : State.Formed (State.restoreCore s p rooms).1 := by
  unfold State.restoreCore
  try dsimp only
  repeat' (first | with_reducible exact hw | with_reducible apply State.modCore_formed
                 | with_reducible apply State.installCrew_formed | with_reducible apply foldl_formed_fst | (intro _))

theorem State.restoreHandles_formed (s : State) (p : Placed) (hw : State.Formed s) : State.Formed (State.restoreHandles s p) := by
  unfold State.restoreHandles
  try dsimp only
  repeat' (first | with_reducible exact hw | with_reducible apply State.modCore_formed)

theorem State.installSaved_formed (s : State) (f : Nat) (faulted : Bool) (hw : State.Formed s)
    : State.Formed (State.installSaved s f faulted) := by
  unfold State.installSaved
  try dsimp only
  repeat' (first | with_reducible exact hw | with_reducible assumption | with_reducible apply State.setThread_formed
                 | with_reducible apply foldl_formed | (intro _) | split | with_reducible apply formed_mem
                 | (change MemSys.Formed _; dsimp only))

theorem State.restoreSaved_formed (s : State) (x : DieImage) (hw : State.Formed s) : State.Formed (State.restoreSaved s x) := by
  unfold State.restoreSaved
  try dsimp only
  repeat' (first | with_reducible exact hw | with_reducible apply State.installSaved_formed | with_reducible apply foldl_formed
                 | (intro _))

theorem State.finishCrews_formed (s : State) (frames : List (Nat × Nat)) (hw : State.Formed s)
    : State.Formed (State.finishCrews s frames) := by
  unfold State.finishCrews
  try dsimp only
  repeat' (first | with_reducible exact hw | with_reducible assumption | with_reducible apply State.namePcs_formed
                 | with_reducible apply State.finishCrew_formed | with_reducible apply foldl_formed | (intro _))

theorem State.restoreThreads_formed (s : State) (d : Nat) (x : DieImage) (hw : State.Formed s)
    : State.Formed (State.restoreThreads s d x) := by
  unfold State.restoreThreads
  try dsimp only
  repeat' (first | with_reducible exact hw | with_reducible assumption | with_reducible apply State.modThread_formed
                 | with_reducible apply State.modDie_formed | with_reducible apply State.putChain_formed
                 | with_reducible apply foldl_formed | (intro _))

theorem State.restoreLink_formed (s : State) (l : Link) (p : Placed) (hw : State.Formed s)
    : State.Formed (State.restoreLink s l p) := by
  unfold State.restoreLink
  try dsimp only
  repeat' (first | with_reducible exact hw | with_reducible apply State.setLink_formed)

theorem State.absentWith_formed (s : State) (tid : Word) (f : Thread → Thread) (hw : State.Formed s)
    : State.Formed (State.absentWith s tid f) := by
  unfold State.absentWith
  try dsimp only
  repeat' (first | with_reducible exact hw | with_reducible apply formed_mem | (change MemSys.Formed _; dsimp only))

theorem State.restoreNet_formed (s : State) (p : Placed) (hw : State.Formed s) : State.Formed (State.restoreNet s p) := by
  unfold State.restoreNet
  try dsimp only
  repeat' (first | with_reducible exact hw | with_reducible assumption | with_reducible apply State.setNet_formed
                 | with_reducible apply State.absentWith_formed | with_reducible apply foldl_formed | (intro _)
                 | with_reducible apply formed_mem | (change MemSys.Formed _; dsimp only))

theorem State.restoreMemory_formed (s : State) (p : Placed) (hw : State.Formed s) : State.Formed (State.restoreMemory s p) := by
  unfold State.restoreMemory
  try dsimp only
  repeat' (first | with_reducible exact hw | with_reducible apply State.pokeBytes_formed | with_reducible apply foldl_formed
                 | (intro _))

theorem State.restoreHarts_formed (s : State) (p : Placed) (hw : State.Formed s) : State.Formed (State.restoreHarts s p) := by
  unfold State.restoreHarts
  try dsimp only
  repeat' (first | with_reducible exact hw | with_reducible assumption | with_reducible apply State.loadHart_formed
                 | with_reducible apply foldl_formed | (intro _) | split)

theorem State.install_formed (s : State) (hw : State.Formed s) : State.Formed (State.install s) := by
  unfold State.install
  try dsimp only
  repeat' (first | with_reducible exact hw | with_reducible apply State.idleHart_formed
                 | with_reducible apply State.refreshRing_formed | with_reducible apply State.dropContexts_formed
                 | with_reducible apply State.restoreContexts_formed | with_reducible apply State.restoreDie_formed
                 | with_reducible apply State.restoreCore_formed | with_reducible apply State.restoreHandles_formed
                 | with_reducible apply State.restoreSaved_formed | with_reducible apply State.finishCrews_formed
                 | with_reducible apply State.restoreThreads_formed | with_reducible apply State.restoreLink_formed
                 | with_reducible apply State.restoreNet_formed | with_reducible apply State.restoreMemory_formed
                 | with_reducible apply State.restoreHarts_formed | with_reducible apply foldl_formed
                 | with_reducible apply foldl_formed_fst | (intro _) | with_reducible apply formed_mem
                 | (change MemSys.Formed _; dsimp only))

theorem State.deliverKept_formed (s : State) (l : Link) (hw : State.Formed s) : State.Formed (State.deliverKept s l) := by
  unfold State.deliverKept
  try dsimp only
  repeat' (first | with_reducible exact hw | with_reducible apply State.setLink_formed
                 | with_reducible apply State.resend_formed | with_reducible apply State.receive_formed
                 | with_reducible apply foldl_formed | (intro _))

theorem State.goOn_formed (s : State) (e : Nat × Crew) (hw : State.Formed s) : State.Formed (State.goOn s e) := by
  unfold State.goOn
  try dsimp only
  repeat' (first | with_reducible exact hw | with_reducible apply State.resumeChains_formed
                 | with_reducible apply State.reenter_formed | split)

theorem State.resumeHartChains_formed (s : State) (hw : State.Formed s) : State.Formed (State.resumeHartChains s) := by
  unfold State.resumeHartChains
  try dsimp only
  repeat' (first | with_reducible exact hw | with_reducible assumption | with_reducible apply State.putChain_formed
                 | with_reducible apply foldl_formed | (intro _) | split)

theorem State.hostLoad_formed (s : State) (x n : Nat) (hw : State.Formed s) : State.Formed (State.hostLoad s x n) := by
  unfold State.hostLoad
  try dsimp only
  repeat' (first | with_reducible exact hw | with_reducible apply State.siltTouch_formed
                 | with_reducible apply State.readPage_formed | split | with_reducible apply formed_mem
                 | (change MemSys.Formed _; dsimp only))

theorem State.hostStore_formed (s : State) (x : Nat) (bs : List Byte) (hw : State.Formed s)
    : State.Formed (State.hostStore s x bs) := by
  unfold State.hostStore
  try dsimp only
  repeat' (first | with_reducible exact hw | with_reducible apply State.siltTouch_formed
                 | with_reducible apply State.writePage_formed | split)

theorem State.hostControl_formed (s : State) (x n : Nat) (hw : State.Formed s) : State.Formed (State.hostControl s x n) := by
  unfold State.hostControl
  try dsimp only
  repeat' (first | with_reducible exact hw | split | with_reducible apply formed_mem | (change MemSys.Formed _; dsimp only))

theorem State.peerLoad_formed (s : State) (pa key n : Nat) (hw : State.Formed s) : State.Formed (State.peerLoad s pa key n) := by
  unfold State.peerLoad
  try dsimp only
  repeat' (first | with_reducible exact hw | with_reducible apply State.siltTouch_formed
                 | with_reducible apply State.engineLine_formed | split | with_reducible apply formed_mem
                 | (change MemSys.Formed _; dsimp only))

theorem State.peerStore_formed (s : State) (pa key : Nat) (bs : List Byte) (hw : State.Formed s)
    : State.Formed (State.peerStore s pa key bs) := by
  unfold State.peerStore
  try dsimp only
  repeat' (first | with_reducible exact hw | with_reducible apply State.siltTouch_formed
                 | with_reducible apply State.engineWrite_formed | split)

theorem State.peerAtomic_formed (s : State) (pa key : Nat) (act : AtomicAct) (hw : State.Formed s)
    : State.Formed (State.peerAtomic s pa key act) := by
  unfold State.peerAtomic
  try dsimp only
  repeat' (first | with_reducible exact hw | with_reducible apply State.siltTouch_formed
                 | with_reducible apply State.atomicPage_formed | split | with_reducible apply formed_mem
                 | (change MemSys.Formed _; dsimp only))

theorem State.abortCrew_formed (s : State) (c : Nat) (hw : State.Formed s) : State.Formed (State.abortCrew s c) := by
  unfold State.abortCrew
  try dsimp only
  repeat' (first | with_reducible exact hw | with_reducible apply State.loadSup_formed
                 | with_reducible apply State.netEvent_formed | with_reducible apply State.releaseCrew_formed
                 | with_reducible apply State.endThread_formed | with_reducible apply State.writeHeader_formed
                 | with_reducible apply foldl_formed | (intro _) | with_reducible apply formed_mem
                 | (change MemSys.Formed _; dsimp only))

theorem State.tearDown_formed (s : State) (seq : Nat) (hw : State.Formed s) : State.Formed (State.tearDown s seq) := by
  unfold State.tearDown
  try dsimp only
  repeat' (first | with_reducible exact hw | with_reducible apply State.modGang_formed
                 | with_reducible apply State.refreshRing_formed | with_reducible apply State.abortCrew_formed
                 | with_reducible apply foldl_formed | (intro _) | split)

theorem State.upsetLoam_formed (s : State) (core : Nat) (bank : Bool) (off : Nat) (hw : State.Formed s)
    : State.Formed (State.upsetLoam s core bank off) := by
  unfold State.upsetLoam
  try dsimp only
  repeat' (first | with_reducible exact hw | with_reducible apply State.modThread_formed
                 | with_reducible apply State.modCore_formed | split)

theorem State.outside_formed (s : State) (o : Outside) (hw : State.Formed s) : State.Formed (s.outside o) := by
  cases o <;> unfold State.outside
  all_goals dsimp only
  all_goals repeat' (first | with_reducible exact hw | with_reducible apply State.upsetLoam_formed
                           | with_reducible apply State.hostControl_formed | with_reducible apply State.peerLoad_formed
                           | with_reducible apply State.peerStore_formed | with_reducible apply State.peerAtomic_formed
                           | with_reducible apply State.verifyStage_formed | with_reducible apply State.modCore_formed
                           | with_reducible apply State.modThread_formed | with_reducible apply State.setStk_formed
                           | with_reducible apply State.hostLoad_formed | with_reducible apply State.hostStore_formed
                           | with_reducible apply State.putLine_formed | with_reducible apply State.tearDown_formed
                           | with_reducible apply State.sendFlit_formed | with_reducible apply State.arriveFlit_formed
                           | with_reducible apply State.withMem_formed | split | exact hw)

end Sys2Proof.Machine
end

