-- ==== Sys2Proof/Tests/Slice0.lean ====
section
/-!
SUPPORT. Tests: decoding of words written out by hand, ill-formed terms, witnesses of the statements, and worked examples. Words are written out from the field layouts of chapter 9 and are the manual's own where an entry gives one;
expected results are the manual's worked examples or hand calculations from its rules. Each `witness_` theorem shows a state
and operands that meet the hypotheses of the statement it names, clause by clause.
-/
namespace Sys2Proof.Tests
open Sys2Proof.Machine
set_option Elab.async false

def on : Guard := ⟨0, false⟩

/-- What a step's next state shows. -/
def after {α : Type} (o : Host.Outcome State Fault Refusal) (f : State → α) : Option α :=
  match o with
  | .next s => some (f s)
  | _ => none

def decodes (l : List (BitVec 64 × Instr)) : Bool := l.all fun e => (decode e.1).toOption == some e.2

def withRegs (rs : List (Nat × Word)) (t : Thread) : Thread :=
  { t with regs := rs.foldl (fun v e => v.setIfInBounds e.1 e.2) t.regs }

/-- The thread of hardware thread 0 as reset leaves it, with some registers. -/
def lat (rs : List (Nat × Word)) : State := State.reset.modThread 0 (withRegs rs)

def lane (l : Nat) : Thread :=
  { Thread.zero with
    pc := 0x1000, ids := ⟨BitVec.ofNat 64 l, BitVec.ofNat 32 l, 1, 2, l, 0, 0⟩, trap := { TrapRegs.zero with sup := true }
    regcnt := 32, loambase := l * 4096 }

def gang2 : Gang :=
  { desc := ⟨0x1000, 0, 0, 0, 0, 0⟩, count := 2, asid := 0, cores := [0], live := 2, arrived := [], closing := [], caller := 0,
    callerDie := 0, callerTid := 0, gd := 3, callerHart := 0, fid := 0, sup := true, waiting := false, task := none, status := 0,
    ctx := [0, 0, 0, 0, 0, 0], start := 0, invs := [] }

def crew0 : Crew :=
  { core := 0, part := 0, slot := 0, cidx := 0, gci := 0, size := 2, lsg := 2, region := 0, asid := 0, seq := 1,
    base := 32 * 16384, bank := false, place := .resident, joins := Vector.replicate 8 ⟨0, 0⟩, sets := [], maps := [], full := [],
    cbSlots := 0, watchdog := 0, saved := [], frame := 0, faulted := false, spent := [] }

/-- A core with 32 granules of register windows for each partition lane, 64 of scratch and 32 of rings. -/
def core0 : Core := { Core.zero with partWord := 0x20_20_40_20, ctxs := [(0, Ctx.zero)] }

/-- Two lanes of a crew on core 0; the lanes `ms` form the bundle that issues. -/
def simt (ms : List Nat) : State :=
  { State.reset with
    threads := [(0, Thread.boot), (256, lane 0), (257, lane 1)]
    crews := [(0, crew0)], gangs := [(1, gang2)]
    cores := [(0, { core0 with bundles := [⟨0, 0, ms.map (laneKey 0)⟩] })], cur := .bundle 0 0 0 }

def simtWith (f : Thread → Thread) : State := (simt [0]).modThread 256 f
/-- A thread past its service call, with a predicted value. -/
def speculating : State :=
  (simt [0]).modThread 256 fun t => { t with spec := ⟨.speculating, 5, 3, 0xFF8, []⟩ }

/-! ### Words -/

/-- Words from the fields of R253. -/
theorem test_words_int : decodes [
    (0x0101_0518_0010_0000, .add on 4 5 6),
    (0x0101_0518_0020_0000, .sub on 4 5 6),
    (0x0101_0518_0030_0000, .addw on 4 5 6),
    (0x0101_0518_0040_0000, .subw on 4 5 6),
    (0x0101_0518_0050_0000, .and on 4 5 6),
    (0x0101_0518_0060_0000, .or on 4 5 6),
    (0x0101_0518_0070_0000, .xor on 4 5 6),
    (0x0101_0518_0080_0000, .shl on 4 5 6),
    (0x0101_0518_0090_0000, .shr on 4 5 6),
    (0x0101_0518_00A0_0000, .sra on 4 5 6),
    (0x0101_0518_00B0_0000, .min on 4 5 6),
    (0x0101_0518_00C0_0000, .max on 4 5 6),
    (0x0101_0518_00D0_0000, .minu on 4 5 6),
    (0x0101_0518_00E0_0000, .maxu on 4 5 6),
    (0x0101_0518_00F0_0000, .slt on 4 5 6),
    (0x0101_0518_0100_0000, .sltu on 4 5 6),
    (0x0100_420C_0110_0004, .sel on 1 2 3 4),
    (0x0101_9768_0120_0003, .lea on 6 23 26 3),
    (0x0101_4500_0130_001F, .sext on 5 5 31),
    (0x0100_C400_0140_001F, .zext on 3 4 31),
    (0x0100_C400_0150_0000, .clz on 3 4),
    (0x0100_C400_0160_0000, .popc on 3 4),
    (0x010F_FE00_0170_0000, .brev on 63 62),
    (0x0101_C800_0180_01CC, .bfx on 7 8 12 7),
    (0x01B1_C824_0190_00C8, .bfi ⟨5, true⟩ 7 8 9 8 3),
    (0x0202_4A2C_0010_0000, .mul on 9 10 11),
    (0x0202_4A2C_0020_0000, .mulh on 9 10 11),
    (0x0202_4A2C_0030_0000, .mulhu on 9 10 11),
    (0x0202_4A2C_0040_0000, .div on 9 10 11),
    (0x0202_4A2C_0050_0000, .divu on 9 10 11),
    (0x0202_4A2C_0060_0000, .rem on 9 10 11),
    (0x0202_4A2C_0070_0000, .remu on 9 10 11)] = true := by decide +kernel

/-- Words from the fields of R254. -/
theorem test_words_imm : decodes [
    (0x1003_4D00_FFFF_FFFF, .addi on 13 13 0xFFFFFFFF),
    (0x1101_9A00_0000_0003, .andi on 6 26 3),
    (0x1201_0400_0000_0001, .ori on 4 4 1),
    (0x1301_4600_FFFF_FFFF, .xori on 5 6 0xFFFFFFFF),
    (0x1400_C100_0000_0002, .shli on 3 1 2),
    (0x1500_C100_0000_003F, .shri on 3 1 63),
    (0x1602_4900_0000_003F, .srai on 9 9 63),
    (0x1701_0500_FFFF_FFFD, .slti on 4 5 0xFFFFFFFD),
    (0x1805_0000_0010_0000, .movi on 20 0x100000),
    (0x1902_4000_0000_1234, .movhi on 9 0x1234)] = true := by decide +kernel

/-- Words from the fields of R255. -/
theorem test_words_pred : decodes [
    (0x2000_5A14_0050_0000, .pcmp on .ltu 1 26 5),
    (0x2100_8514_FFFF_FFFF, .pcmpi on .ltu 2 5 0xFFFFFFFF),
    (0x2200_C108_0000_00C0, .plop on 3 1 2 0 0xC0),
    (0x2300_C414_0030_0000, .fcmp on .lt .s 3 4 5)] = true := by decide +kernel

/-- Words from the fields of R256, R257. -/
theorem test_words_fp : decodes [
    (0x3000_420C_0011_0000, .fadd on .s .rne 1 2 3),
    (0x3000_420C_0021_0000, .fsub on .s .rne 1 2 3),
    (0x3000_420C_0031_0000, .fmul on .s .rne 1 2 3),
    (0x3000_420C_0071_0000, .fdiv on .s .rne 1 2 3),
    (0x3001_0518_7042_1000, .ffma on .d .rtz 4 5 6 7),
    (0x3000_8310_0050_1000, .fmin on .d 2 3 4),
    (0x3000_8310_0060_3000, .fmax on .bf 2 3 4),
    (0x3002_0900_0084_2000, .fsqrt on .h .rup 8 9),
    (0x3002_0900_0094_2000, .frcp on .h .rup 8 9),
    (0x3002_0900_00A4_2000, .frsq on .h .rup 8 9),
    (0x3002_0900_00B4_2000, .fexp2 on .h .rup 8 9),
    (0x3002_0900_00C4_2000, .flog2 on .h .rup 8 9),
    (0x3002_8B00_00D0_0000, .fclass on .s 10 11),
    (0x4001_8700_0011_4000, .fcvt on .e4m3 .s .rne 6 7),
    (0x4000_C400_0022_0004, .icvt on false .s .s32 .rtz 3 4),
    (0x4001_4600_0020_1017, .icvt on true .d .n64 .dyn 5 6),
    (0x4001_8700_0031_4010, .pcvt on .p8e4m3 .p2s .rne 1 6 7),
    (0x4100_420C_4011_2000, .pfma on .p4h .rne 1 2 3 4),
    (0x4101_461C_5020_4000, .pdot on .p8e4m3 .dyn 5 6 7 5)] = true := by decide +kernel

/-- Words from the fields of R258. -/
theorem test_words_lane : decodes [
    (0x5001_4620_7010_0003, .shfl on .xor 5 6 8 7),
    (0x5002_4000_7020_000A, .vote on .ballot 2 9 0 7),
    (0x5002_4400_7020_0003, .vote on .uni 0 9 4 7),
    (0x5001_4600_7031_0008, .redb on .fadd false .rne 5 6 7),
    (0x5001_4600_7041_0018, .scanb on true .fadd false .rne 5 6 7)] = true := by decide +kernel

/-- Words from the fields of R259, R260, R264. -/
theorem test_words_mem : decodes [
    (0x6001_0500_C9FF_FFFE, .ld on .h true .acq .co 4 5 0xFFFFFE),
    (0x6001_8702_3400_0020, .ld on .q false .inv .dv 6 7 32),
    (0x6102_4601_9400_0008, .st on .d .rel .dv 9 6 8),
    (0x6400_1400_8000_0100, .pref on .st 20 256),
    (0x6200_560C_0016_A000, .amoAdd on .d .rel .dv 1 22 3),
    (0x6200_560C_0026_A000, .amoAnd on .d .rel .dv 1 22 3),
    (0x6200_560C_0036_A000, .amoOr on .d .rel .dv 1 22 3),
    (0x6200_560C_0046_A000, .amoXor on .d .rel .dv 1 22 3),
    (0x6200_560C_0056_A000, .amoMin on .d .rel .dv 1 22 3),
    (0x6200_560C_0066_A000, .amoMax on .d .rel .dv 1 22 3),
    (0x6200_560C_0076_A000, .amoMinu on .d .rel .dv 1 22 3),
    (0x6200_560C_0086_A000, .amoMaxu on .d .rel .dv 1 22 3),
    (0x6200_560C_0096_A000, .amoSwap on .d .rel .dv 1 22 3),
    (0x6200_560C_00A5_2800, .amoFadd on .racq .sy 1 22 3),
    (0x6301_5418_7006_E000, .cas on .d .ar .dv 5 20 6 7),
    (0x7000_0000_0700_0000, .fence on ⟨false, false, false, true, true, .dv⟩),
    (0x7000_0000_2140_0000, .fence on ⟨true, false, false, false, false, .sy⟩),
    (0x7100_0000_0000_0000, .tfence on),
    (0x7200_0000_0000_0000, .opfence on),
    (0x7300_0000_0000_0000, .ifence on),
    (0x7400_0600_0500_0000, .cwb on .sy 6 0),
    (0x7500_0600_0100_0040, .cinv on .co 6 64),
    (0x7600_0600_0100_0080, .icinv on .co 6 128)] = true := by decide +kernel

/-- Words from the fields of R261, R262. -/
theorem test_words_flow : decodes [
    (0x8030_0001_FFFF_FFFD, .br ⟨1, true⟩ .t 0xFFFFFFFD),
    (0x8103_C001_0000_1FFF, .jal on true 15 0x1FFF),
    (0x8203_C904_0000_0010, .jalr on .call 15 9 16),
    (0x8200_0F08_0000_0000, .jalr on .ret 0 15 0),
    (0x8300_0000_0010_0007, .joinEnr on 7),
    (0x8300_0000_0020_0007, .joinWait on 7),
    (0x8300_0000_0030_0007, .joinStrike on 7),
    (0x8300_0000_0040_0007, .joinRst on 7),
    (0x8400_0000_0000_0000, .yield on),
    (0x8400_0000_0000_0001, .yieldH on),
    (0x8500_0000_0000_0000, .exit on),
    (0x8630_0000_0000_0000, .bkoff ⟨1, true⟩),
    (0x8700_0000_0000_0000, .nop on),
    (0x9000_0000_0003_FFC2, .waitc on 2 63 15 3),
    (0x9102_4000_0000_0003, .cbwait on 9 3),
    (0x9102_4000_0000_0013, .cbwaitProd on 9 3),
    (0x9200_0000_0000_0003, .cbpop on 3),
    (0x9300_0000_0000_0003, .cbpush on 3)] = true := by decide +kernel

/-- Words from the fields of R262, R71, R76. -/
theorem test_words_crew : decodes [
    (0xA000_C400_0010_0000, .migrateTosimt on 3 4),
    (0xA000_C000_0020_0000, .migrateTolat on 3),
    (0xA100_0000_0000_0000, .gbar on),
    (0xA200_0000_0000_0010, .grow on 2),
    (0xA300_0000_0000_0030, .shrink on 6),
    (0xA40A_0500_0000_0208, .shmap on 40 5 2 8),
    (0xA502_0300_0000_0000, .setf on 8 3),
    (0xA601_0800_0000_0000, .takef on 4 8),
    (0xA700_0000_00C0_0000, .scall on 12),
    (0xA700_0008_00CF_FFFF, .scallOv on 12 0xFFFFF),
    (0xA700_0004_00C0_0000, .scallNs on 12),
    (0xA860_0000_0000_000F, .fidset ⟨3, false⟩ 15)] = true := by decide +kernel

/-- Words from the fields of R218, R225, R238, R263. -/
theorem test_words_unit : decodes [
    (0xB000_0824_0C42_0043, .mmaT on ⟨3, true, false, 2, 3, 4⟩ 8 9),
    (0xB000_0740_003F_0000, .mmaK on ⟨0, false, true, 15, 0, 0⟩ 7 16),
    (0xB100_0000_0010_0001, .radv on 1),
    (0xB101_C000_0020_000A, .radvCfg on 7 2 2),
    (0xB102_0000_0030_0000, .radvTail on 8 0),
    (0xB100_0000_0040_0000, .radvRel on 0),
    (0xB100_0000_0050_0003, .radvFree on 3),
    (0xB202_4500_0000_0003, .kalloc on true true 9 5),
    (0xB301_9048_0000_0000, .kfill on 6 16 18),
    (0xB400_1000_0000_0000, .kpin on 16),
    (0xB400_1000_0000_0001, .kpinOff on 16),
    (0xB500_1100_0000_0000, .krev on 17),
    (0xB607_1000_0000_0000, .kstat on 28 16),
    (0xB701_8414_0000_0005, .cbkld on 6 4 5 5),
    (0xC000_0900_00C0_0000, .engoCopy on .di 9),
    (0xC000_0900_0240_0000, .engoEpi on .co 9),
    (0xC000_0900_0D40_0000, .engoNet on true .sy 9),
    (0xC101_4900_0000_0000, .engq on 5 9)] = true := by decide +kernel

/-- Words from the fields of R264, R162, R252. -/
theorem test_words_sys : decodes [
    (0xD005_4000_0140_0000, .sysrd on .crew 21),
    (0xD100_0400_0440_0000, .syswr on .tvec 4),
    (0xD200_0000_0000_0000, .eret on),
    (0xD300_0000_0000_0007, .trap on 7),
    (0xD400_0000_0000_0003, .bkpt on 3),
    (0xD500_0518_0010_0004, .tlbinvPg on 5 6 4),
    (0xD500_0018_0020_0000, .tlbinvAs on 6),
    (0xD500_0000_0030_0000, .tlbinvAll on),
    (0xD500_0500_0040_0006, .tlbinvPga on 5 6),
    (0xD600_0000_0000_0000, .sleep on),
    (0xFF00_4000_0000_0000, .reservedMajorOpcode 0xFF00400000000000)] = true := by decide +kernel
/-! ### Terms that are no instruction, one for each check of WellFormed -/

theorem test_ill_guard : WellFormed (.add ⟨0, true⟩ 1 2 3) = false := by decide
theorem test_ill_bfx_field : WellFormed (.bfx on 1 2 60 4) = false ∧ WellFormed (.bfx on 1 2 60 3) = true := by decide
theorem test_ill_bfi_field : WellFormed (.bfi on 1 2 3 63 1) = false := by decide
theorem test_ill_pcvt_rounding : WellFormed (.pcvt on .p8s8 .p4s16 .rne 0 1 2) = false := by decide
theorem test_ill_pcvt_part : WellFormed (.pcvt on .p8e4m3 .p2s .rne 4 1 2) = false := by decide
theorem test_ill_pfma_code : WellFormed (.pfma on .p8e4m3 .rne 1 2 3 4) = false := by decide
theorem test_ill_pfma_rounding : WellFormed (.pfma on .p8s8 .rne 1 2 3 4) = false := by decide
theorem test_ill_pdot_code : WellFormed (.pdot on .p2s .rne 1 2 3 4) = false := by decide
theorem test_ill_pdot_rounding : WellFormed (.pdot on .p8n8 .rtz 1 2 3 4) = false := by decide
theorem test_ill_vote_source : WellFormed (.vote on .all 1 2 3 4) = false ∧ WellFormed (.vote on .uni 1 2 3 4) = false := by decide
theorem test_ill_redb_fields : WellFormed (.redb on .add true .dyn 1 2 3) = false ∧ WellFormed (.redb on .add false .rne 1 2 3) = false := by
  decide
theorem test_ill_scanb_fields : WellFormed (.scanb on true .xor true .dyn 1 2 3) = false := by decide
theorem test_ill_ld_extension : WellFormed (.ld on .d true .plain .cw 1 2 0) = false := by decide
theorem test_ill_ld_order : WellFormed (.ld on .d false .rel .cw 1 2 0) = false := by decide
theorem test_ill_ld_pair : WellFormed (.ld on .q false .plain .cw 63 2 0) = false ∧ WellFormed (.ld on .q false .plain .cw 62 2 0) = true := by
  decide
theorem test_ill_st_order : WellFormed (.st on .d .acq .cw 1 2 0) = false := by decide
theorem test_ill_st_pair : WellFormed (.st on .q .plain .cw 63 2 0) = false := by decide
theorem test_ill_amo_order : WellFormed (.amoAdd on .d .inv .cw 1 2 3) = false ∧ WellFormed (.amoFadd on .inv .cw 1 2 3) = false
    ∧ WellFormed (.cas on .w .inv .cw 1 2 3 4) = false := by decide
theorem test_ill_fence_kinds : WellFormed (.fence on ⟨false, false, false, false, false, .sy⟩) = false
    ∧ WellFormed (.fence on ⟨true, false, false, false, false, .dv⟩) = false := by decide
theorem test_ill_grow_count : WellFormed (.grow on 0) = false ∧ WellFormed (.shrink on 7) = false := by decide
theorem test_ill_shmap_count : WellFormed (.shmap on 1 2 3 17) = false ∧ WellFormed (.shmap on 1 2 3 16) = true := by decide
theorem test_ill_mma_fields : WellFormed (.mmaT on ⟨0, false, false, 4, 0, 0⟩ 1 2) = false
    ∧ WellFormed (.mmaT on ⟨0, false, false, 15, 8, 0⟩ 1 2) = false ∧ WellFormed (.mmaK on ⟨0, false, false, 3, 0, 8⟩ 1 2) = false := by decide
theorem test_ill_syswr_read_only : WellFormed (.syswr on .cyc 1) = false := by decide
theorem test_ill_tlbinv_size : WellFormed (.tlbinvPg on 1 2 0) = false ∧ WellFormed (.tlbinvPga on 1 0) = false := by decide
theorem test_ill_reserved_word : WellFormed (.reservedMajorOpcode 0x0100000000100000) = false
    ∧ WellFormed (.reservedMajorOpcode 0x0010000000000000) = false := by decide
theorem test_ill_row_without_word : WellFormed (.gets 0) = false := by decide

/-- The decoder refuses the words of the same terms: BFX of pos 60 and len 5, LD of a q at d = 63, FENCE without a kind, a reserved guard. -/
theorem test_ill_words : (decode 0x0100_4200_0180_013C).toOption = none ∧ (decode 0x600F_C002_0000_0000).toOption = none
    ∧ (decode 0x7000_0000_0000_0000).toOption = none ∧ (decode 0x0110_CC34_0010_0000).toOption = none := by decide +kernel
/-! ### Witnesses: encoding, the step, reset, registers -/

theorem witness_DecodeEncode : WellFormed (.bfi ⟨5, true⟩ 63 62 61 0 63) = true := by decide
theorem witness_EncodeDecode : (decode 0x8700_0000_0000_0000).toOption = some (.nop on) := by decide +kernel
theorem witness_ReservedWords : guardReserved 0x0010_0000_0000_0000 = true
    ∧ (guardReserved 0xFF00_0000_0000_0001 = false ∧ majorAssigned 0xFF = false)
    ∧ (simt [0]).issuing = [256] ∧ ((simt [0]).thread 256).guard (fGuard 0xFF00_0000_0000_0001) = true
    ∧ ((simt [0]).thread 256).spec.mode = .normal := by decide +kernel

/-- The first step after reset runs the word stored where it fetches: movi g20, 0x10_0000 (R427). -/
theorem test_first_step : after (step (State.reset.withFetchWord 64 0x1805000000100000)) (fun s => (s.readReg 0 20, (s.thread 0).pc))
    = some (0x100000, Config.entryPc + 8) := by decide +kernel

def fetched : State := { (simt [0]) with mem := { MemSys.zero with bytes := Memory.puts [] 0x1000 (wordBytes 0x8700_0000_0000_0000) } }
def stepped (s0 : State) : Bool :=
  let b := s0.tick.enterBoundary
  b.boundary == none && b.ready b.issuing && s0.cur.exists' && !s0.halted
    && decide ((b.fetch (b.who (b.issuing.headD 0)) (b.thread (b.issuing.headD 0)).pc.toNat).2 = .word 0x8700_0000_0000_0000)
theorem witness_StepRunsDecoded : fetched.agenda = [] ∧ stepped fetched = true := by decide +kernel
theorem witness_StepRunsDecoded_agenda :
    let s := { fetched with agenda := [Turn.issue (.bundle 0 0 0), .event (.regroup 0)], cur := .hart 0 }
    s.agenda = .issue (.bundle 0 0 0) :: [.event (.regroup 0)] ∧ stepped { s with cur := .bundle 0 0 0 } = true := by decide +kernel
theorem witness_StepRunsDecoded_event : { fetched with agenda := [.event (.regroup 0)] }.agenda = [Turn.event (.regroup 0)] := rfl
theorem witness_Fetch : ((simt [0]).who 256).sup = true ∧ ((simt [0]).who 256).ctx.pgroot = 0
    ∧ (simt [0]).forward (2 ^ 40 - 8) 0 = (2 ^ 40 - 8, 0) ∧ ((simt [0]).stk 15).compressed = [] ∧ fld ((simt [0]).stk 15).cold 31 0 = 0
    ∧ (simt [0]).mem.icache.find? (fun l => l.core == 0 && l.line == (2 ^ 40 - 8) / 128) = none
    ∧ (simt [0]).mem.poisoned ((2 ^ 40 - 8) / 128) 0 = false := by decide +kernel
theorem witness_Fetch_fault :
    let s := ((simt [0]).modThread 256 fun t => { t with trap := { t.trap with sup := false } }).tick.enterBoundary
    s.boundary = none ∧ s.ready s.issuing = true ∧ (match (s.fetch (s.who 256) 0x1000).2 with
      | .fault c sub => c == cPAGE_PERM && sub == 2
      | _ => false) = true := by decide +kernel
theorem witness_Fetch_illegal : (match decode 0x8700_0000_0000_0001 with
    | .error _ => true
    | .ok _ => false) = true := by decide +kernel
theorem witness_StepAnswers : { State.reset with cur := .hart 256 }.turnsExist = false := by decide +kernel
theorem witness_StepKeepsMemory : State.reset.memWf = true ∧ (after (step State.reset) fun _ => ()) = some () := by decide +kernel

theorem witness_Registers : (lat []).crewAt 0 = none ∧ (∃ c, (simt [0]).crewAt 256 = some c ∧ c.maps = []) :=
  ⟨by decide +kernel, crew0, by decide +kernel, by decide +kernel⟩
/-- A crew that maps its g40 to g47 onto g2 to g9 of the crew of key 1. -/
def mapped : State :=
  { (simt [0]) with
    threads := (simt [0]).threads ++ [(288, { lane 0 with ids := { (lane 0).ids with cidx := 1 } })]
    crews := [(0, { crew0 with maps := [⟨1, 1, 40, 2, 8⟩] }), (1, { crew0 with cidx := 1, slot := 1, base := 36 * 16384 })] }
theorem witness_Registers_mapped : ∃ c m, mapped.crewAt 256 = some c ∧ c.mapping 47 = some m
    ∧ (mapped.threads.find (laneKey m.target (laneOf 256))).isSome = true ∧ m.t + (47 - m.d) < 64 ∧ m.t + (47 - m.d) ≠ 0 :=
  ⟨_, ⟨1, 1, 40, 2, 8⟩, rfl, by decide +kernel⟩

theorem witness_IntegerForms : (∃ f, intForm (.add on 1 2 3) = some f ∧ (simt [0, 1]).admits f.g anyCore .runs (f.regs.map (·.toNat)))
    ∧ (∃ f, Machine.immForm (.addi on 31 2 3) = some f ∧ (simt [0, 1]).admits f.g anyCore .runs (f.regs.map (·.toNat)))
    ∧ ∃ f, divForm (.div on 0 2 3) = some f ∧ (lat []).admits f.g anyCore .runs (f.regs.map (·.toNat)) :=
  ⟨⟨_, rfl, by unfold State.admits State.passes; decide +kernel⟩, ⟨_, rfl, by unfold State.admits State.passes; decide +kernel⟩,
    ⟨_, rfl, by unfold State.admits State.passes; decide +kernel⟩⟩
theorem witness_FloatForms : (∃ f, floatForm (.ffma on .d .dyn 1 2 3 4) = some f ∧ (simt [0, 1]).admits f.g anyCore .runs (f.regs.map (·.toNat)))
    ∧ (∃ f, convForm (.fcvt on .e4m3 .s .rne 1 2) = some f ∧ (simt [0, 1]).admits f.g anyCore .runs (f.regs.map (·.toNat)))
    ∧ ∃ f, packedForm (.pdot on .p4h .rne 1 2 3 4) = some f ∧ (lat []).admits f.g anyCore .runs (f.regs.map (·.toNat)) :=
  ⟨⟨_, rfl, by unfold State.admits State.passes; decide +kernel⟩, ⟨_, rfl, by unfold State.admits State.passes; decide +kernel⟩,
    ⟨_, rfl, by unfold State.admits State.passes; decide +kernel⟩⟩
theorem witness_PredicateForms : ∃ f, predForm (.pcmp ⟨0, false⟩ .lt 0 1 2) = some f
    ∧ (simt [0, 1]).admits f.g anyCore .runs (f.regs.map (·.toNat)) := ⟨_, rfl, by unfold State.admits State.passes; decide +kernel⟩
theorem witness_FloatResults : (fmtOf .s).decode 0x7FA00000 = .nan true ∧ (fmtOf .s).decode 0xFFC00000 = .nan false
    ∧ ((fmtOf .d).decode 0x7FF8000000000000).isNan = true ∧ ((fmtOf .d).decode 0x8000000000000000).isNan = false
    ∧ (∃ n m e, (fmtOf .h).decode 0x8001 = .fin n m e) := by
  refine ⟨by decide +kernel, by decide +kernel, by decide +kernel, by decide +kernel, _, _, _, by rfl⟩
theorem witness_RegisterFormsFrame : (∃ f, regForm (.add on 1 2 3) = some f ∧ (simt [0, 1]).admits f.g anyCore .runs (f.regs.map (·.toNat)))
    ∧ (after (exec (.add on 1 2 3) (simt [0, 1])) fun _ => ()) = some () :=
  ⟨⟨_, rfl, by unfold State.admits State.passes; decide +kernel⟩, by decide +kernel⟩

/-! ### Witnesses: checks, traps and returns -/

/-- Hardware thread 0 with its trap registers and status changed. -/
def latWith (f : Thread → Thread) : State := (lat []).modThread 0 f
def user (t : Thread) : Thread := { t with trap := { t.trap with sup := false } }
def handled (t : Thread) : Thread := { t with trap := { t.trap with tvec := 0x4001 } }
def inHandler (t : Thread) : Thread := { t with trap := { t.trap with ta := true, tepc := 0x2000 } }

theorem witness_IllegalOnLatency : simtInstr (.opfence on) = some on ∧ isLat 0 = true ∧ (lat []).issuing = [0]
    ∧ ((lat []).thread 0).guard on = true ∧ ((lat []).thread 0).spec.mode = .normal := by decide +kernel
theorem witness_PrivilegedInUserMode : supInstr (.tlbinvAll on) = some on ∧ supInstr (.syswr on .pgroot 1) = some on
    ∧ (latWith user).issuing = [0] ∧ (latWith user).cur = .hart 0 ∧ ((latWith user).thread 0).guard on = true
    ∧ ((latWith user).thread 0).trap.sup = false ∧ ((latWith user).thread 0).spec.mode = .normal := by decide +kernel
theorem witness_RegisterBound : (∃ f, regForm (.add on 1 32 33) = some f ∧ (simt [0]).issuing = [256]
      ∧ ((simt [0]).thread 256).guard f.g = true ∧ f.regs.find? (fun r => (simt [0]).regBad 256 r.toNat) = some 32)
    ∧ let s := latWith fun t => { t with regcnt := 32 }
      s.crewAt 0 = none ∧ s.regBad 0 31 = false ∧ s.regBad 0 32 = true :=
  ⟨⟨_, rfl, by decide +kernel⟩, by decide +kernel⟩
/-- The second word of g31 has bad parity. -/
def badWord : State := simtWith fun t => { t with parity := 1#128 <<< 63 }
theorem witness_RegisterBound_parity : ∃ f, regForm (.add on 1 2 31) = some f ∧ badWord.issuing = [256]
    ∧ (badWord.thread 256).guard f.g = true ∧ (badWord.thread 256).spec.mode = .normal
    ∧ f.regs.find? (fun r => badWord.regBad 256 r.toNat) = none
    ∧ (readsOf (.add on 1 2 31)).find? (fun r => badWord.parityBad 256 r.toNat) = some 31 := ⟨_, rfl, by decide +kernel⟩
theorem witness_GuardedOff : plainInstr (.ld ⟨1, false⟩ .q false .plain .cw 63 1 0) = some ⟨1, false⟩ ∧ (simt [0]).issuing = [256]
    ∧ ((simt [0]).thread 256).guard ⟨1, false⟩ = false := by decide +kernel
theorem witness_TrapEntry : ((latWith handled).thread 0).trap.ta = false ∧ bitAt ((latWith handled).thread 0).trap.tvec 0 = true
    ∧ cTRAP ∉ [cPAGE_NP, cPAGE_PERM, cSCALL, cINTR, cENGINE] := by decide +kernel
theorem witness_TrapHandedOver : cILLEGAL ∉ [cPAGE_NP, cPAGE_PERM, cSCALL, cINTR] ∧ isLat 0 = true ∧ isLat 256 = false
    ∧ ((latWith inHandler).thread 0).trap.ta = true ∧ ((lat []).thread 0).trap.ta = false
    ∧ bitAt ((lat []).thread 0).trap.tvec 0 = false ∧ (speculating.thread 256).spec.mode ≠ .normal := by decide +kernel
/-- An escalation queue of one record that is full. -/
def queueFull (s : State) : State := { s with pkg := { s.pkg with escHead := 1 } }
def pendingEsc (t : Thread) : Thread := { t with st := { t.st with pending := .esc 0x11 7 } }
theorem witness_LatencyEscalation : (queueFull (lat [])).escFull = true ∧ (lat []).escFull = false
    ∧ fld ((lat []).hart 0).htsup 51 10 = 0 ∧ ((latWith pendingEsc).thread 0).st.pending = .esc 0x11 7
    ∧ ((latWith pendingEsc).threads.find 0).isSome = true ∧ (latWith pendingEsc).pkg.qsd = false
    ∧ (latWith pendingEsc).escFull = false := by decide +kernel
/-- Lane 0 pending, its die with a save area of one page. -/
def lanePending : State :=
  { simtWith pendingEsc with dies := [(0, { Die.zero with savebase := 0x100000, savelen := 0x1000 })] }
theorem witness_LatencyEscalation_lane : (lanePending.thread 256).st.pending = .esc 0x11 7 ∧ (lanePending.threads.find 256).isSome = true
    ∧ lanePending.pkg.qsd = false ∧ lanePending.escFull = false ∧ lanePending.crewAt 256 = some crew0 ∧ crew0.place = .resident
    ∧ lanePending.pendingOf 256 = [] ∧ (lanePending.die (lanePending.dieOf 256)).findRoom 1024 1024 = some 0x100000 := by decide +kernel
theorem witness_ReturnFromTrap : (latWith inHandler).executes 0 on anyCore .runs [] ∧ ((latWith inHandler).thread 0).trap.ta = true
    ∧ (lat []).executes 0 on anyCore .runs [] ∧ ((lat []).thread 0).trap.ta = false
    ∧ ((lat []).thread 0).spec.mode ≠ .speculating := by unfold State.executes State.passes; decide +kernel
theorem witness_TrapInstructions : (simt [0]).executes 256 on anyCore .holds [] ∧ (simt [0]).executes 256 on anyCore .runs []
    ∧ ((simt [0]).thread 256).spec.mode ≠ .speculating := by unfold State.executes State.passes; decide +kernel
/-! ### Witnesses: loads, stores and atomics -/

def dreg : Reg := 8
/-- The last sixteen bytes of host memory, and an address that is no multiple of its size. -/
def hostTop : State := lat [(1, 0x1FFFFFFFFFFF0), (2, 0x1000000000001)]
/-- No unit answers the next access of latency core 0. -/
def unanswering : State := { hostTop with mem := { hostTop.mem with mute := [hostTop.agentOf 0] } }
theorem witness_HostLoadStore : isLat 0 = true ∧ hostTop.untranslated 0
    ∧ (hostTop.readReg 0 1 + (0 : BitVec 24).signExtend 64).toNat % 2 ^ 57 = 2 ^ 49 - 16 ∧ inHost (2 ^ 49 - 16) (memBytes .q)
    ∧ inHost (2 ^ 48) 1 ∧ (2 ^ 49 - 16) % memBytes .q = 0 ∧ hostTop.executes 0 on anyCore .runs (memRegs .q 62 1)
    ∧ hostTop.mem.dir = [] ∧ hostTop.mem.past = [] ∧ hostTop.silent (hostTop.agentOf 0) = false ∧ unanswering.silent (unanswering.agentOf 0) = true
    ∧ unanswering.executes 0 on anyCore .runs (memRegs .q 62 1) ∧ hostTop.mem.copies = [] := by
  unfold State.untranslated inHost State.executes State.passes; decide +kernel
theorem witness_MisalignedAccess : (hostTop.thread 0).spec.mode ≠ .speculating
    ∧ hostTop.executes 0 on anyCore .runs (memRegs .w dreg 2) ∧ hostTop.effAddr 0 2 0 % memBytes .w ≠ 0
    ∧ hostTop.executes 0 on anyCore .holds [2, 3, 1]
    ∧ (hostTop.readReg 0 2).toNat % 2 ^ 57 % 8 ≠ 0 ∧ (hostTop.readReg 0 2).toNat % 2 ^ 57 % amoBytes .w ≠ 0 := by
  unfold State.executes State.passes; decide +kernel
/-- Lane 0 of a crew with an address in g1. -/
def simtAt (v : Word) : State := (simt [0]).modThread 256 (withRegs [(1, v)])
theorem witness_LoadStoreIssue : (simtAt 0x80000000).executes 256 on anyCore .runs (memRegs .d dreg 1)
    ∧ (simtAt 0x80000000).effAddr 256 1 8 % memBytes .d = 0 ∧ ((simtAt 0x80000000).target 256 0x80000008 8 .load).2.isLeft = true
    ∧ ((simtAt 0x80000000).target 256 0x80000008 8 .store).2.isLeft = true
    ∧ (match (simtAt 0x80000000).target 256 0x80000008 8 .load with
      | (s1, .inl t) => (s1.readTarget 256 t 8).2.isSome && (s1.thread 256).oc.ld < 63 && (s1.thread 256).oc.st < 63
      | _ => false) = true
    ∧ (match hostTop.target 0 (2 ^ 49 - 16) 16 .load with
      | (s1, .inl t) => !s1.silent (s1.agentOf 0) && (s1.readTarget 0 t 16).2.isSome
      | _ => false) = true
    ∧ (hostTop.target 0 (2 ^ 49 - 16) 16 .store).2.isLeft = true := by unfold State.executes State.passes; decide +kernel
/-- A buffer of seven words, to which a store past the service call adds the eighth. -/
def buffering : State := (simtAt 0x80000000).modThread 256 fun t => { t with spec := ⟨.speculating, 5, 3, 0xFF8,
  (List.range 7).map fun n => ⟨BitVec.ofNat 64 (0x90000000 + 8 * n), .phys (0x90000000 + 8 * n) 0 true 0 none false 0,
    List.replicate 8 0, false, .cw, 0x1000⟩⟩ }
theorem witness_LoadStoreIssue_buffer : buffering.executes 256 on anyCore .runs (memRegs .d dreg 1)
    ∧ (match buffering.target 256 0x80000008 8 .store with
      | (s1, .inl t) => (s1.thread 256).spec.mode == .speculating
          && decide (bufferEntries ((s1.thread 256).spec.buf ++ [⟨0x80000008, t, buffering.storeData 256 .d dreg, false, .cw, 0x1000⟩]) = 8)
      | _ => false) = true := by unfold State.executes State.passes; decide +kernel
theorem witness_AmoForm : amoForm (.amoMin on .w .ar .sy 4 1 5) = some (on, 4, .ar, .sy, 4, 1, 5)
    ∧ amoForm (.amoAdd on .d .rel .dv 1 2 3) = some (on, 8, .rel, .dv, 1, 2, 3) := ⟨rfl, rfl⟩
theorem witness_HostAtomics : hostTop.executes 0 on anyCore .holds [1, 5, 4] ∧ hostTop.executes 0 on anyCore .holds [1, 5, 6, 4]
    ∧ inHost ((hostTop.readReg 0 1).toNat % 2 ^ 57) 8 ∧ (hostTop.readReg 0 1).toNat % 2 ^ 57 % 8 = 0 ∧ hostTop.untranslated 0
    ∧ hostTop.mem.dir = [] ∧ hostTop.silent (hostTop.agentOf 0) = false ∧ hostTop.mem.copies = [] := by
  unfold State.executes State.passes State.untranslated inHost; decide +kernel
theorem witness_AtomicIssue : (simtAt 0x80000000).executes 256 on anyCore .holds [1, 5, 4]
    ∧ (match (simtAt 0x80000000).target 256 0x80000000 4 (.atomic (simpleAtomic (.amoMin on .w .ar .sy 4 1 5))) with
      | (s1, .inl t) => (s1.readTarget 256 t 4).2.isSome && (s1.thread 256).oc.ld < 63
      | _ => false) = true := by unfold State.executes State.passes; decide +kernel
/-- One access of lane 0 in flight, of each kind. -/
def flying (k : AccessKind) : State :=
  let s := simtAt 0x80000000
  s.send (s.access 256 0x80000000 (.phys 0x80000000 0 true 0 none false 0) k .plain .cw)
def flyer (k : AccessKind) : Option Access := (flying k).mem.inflight.find 0
def flies (k : AccessKind) : Bool :=
  match flyer k with
  | some a => a.kind == k && (flying k).mayPerform 0 a && (flying k).coalesced 0 a == [(0, a)] && (wholeLine [(0, a)]).isNone
  | none => false
theorem witness_AccessReturns_load : flies (.load 8 false 4) = true ∧ (match flyer (.load 8 false 4) with
    | some a =>
      let s := (flying (.load 8 false 4)).finish 0 a
      (s.readTarget 256 a.target 8).2.isSome && !s.targetGone 256 a.target 8 && !a.drop && decide ((s.thread 256).issued ≤ a.count + 1)
    | none => false) = true := by decide +kernel
theorem witness_AccessReturns_atomic : flies (.atomic (.amoSwap on .d .plain .cw 4 1 5) 8 4 7 0) = true
    ∧ (match flyer (.atomic (.amoSwap on .d .plain .cw 4 1 5) 8 4 7 0) with
    | some a =>
      let s := (flying (.atomic (.amoSwap on .d .plain .cw 4 1 5) 8 4 7 0)).finish 0 a
      !s.targetGone 256 a.target 8 && (s.atomicTarget 256 a.target 8 (.amoSwap on .d .plain .cw 4 1 5) 7 0).2.isSome
    | none => false) = true := by decide +kernel
theorem witness_AccessReturns_store : flies (.store [1, 2]) = true ∧ flies .cwb = true ∧ flies .cinv = true
    ∧ (flyer (.store [1, 2])).all (fun a => !a.rel) = true := by decide +kernel
/-- One access of lane 0 to the last eight bytes of host memory. -/
def hostFlying (k : AccessKind) : State :=
  let s := simtAt 0
  s.send (s.access 256 0x1FFFFFFFFFFF8 (hostTarget 0x1FFFFFFFFFFF8) k .plain .cw)
theorem witness_AccessReturns_host : inHost 0x1FFFFFFFFFFF8 8 ∧ ∀ k ∈ [AccessKind.load 8 false 4, .atomic (.amoSwap on .d .plain .cw 4 1 5) 8 4 7 0,
      .store [1, 2, 3, 4, 5, 6, 7, 8]],
    let s := hostFlying k
    (s.mem.inflight.map (·.1)) = [0] ∧ s.mem.inflight.all (fun e => e.2.kind == k && !e.2.drop && e.2.overlay.isEmpty
        && e.2.target == hostTarget 0x1FFFFFFFFFFF8 && e.2.thread == 256) = true
    ∧ s.mem.msgs = [] ∧ s.mem.past = [] ∧ s.mem.copies = [] ∧ (s.thread 256).spec.mode = .normal := by
  unfold inHost; decide +kernel

/-! ### Witnesses: fences, cache operations, translation -/

theorem witness_Fences : (simt [0]).executes 256 on anyCore .holds [] ∧ ((simt [0]).pendingOf 256).map (fun e => e.2.kind) = []
    ∧ (flying (.store [1])).executes 256 on anyCore .holds [] ∧ ((flying (.store [1])).pendingOf 256).map (fun e => e.2.kind) = [.store [1]]
    ∧ (simt [0]).executes 256 on simtOnly .holds [] ∧ (simt [0]).loamStores (crewOf 256) = false := by
  unfold State.executes State.passes; decide +kernel
/-- A store of lane 0 to its crew's scratch in flight. -/
def loamStore : State :=
  let s := simt [0]
  s.send (s.access 256 0x80000 (.loam 0 (32 * 16384) none) (.store [1]) .plain .cw)
theorem witness_Fences_opfence : loamStore.executes 256 on simtOnly .holds [] ∧ loamStore.loamStores (crewOf 256) = true := by
  unfold State.executes State.passes; decide +kernel
def pageAt : State × Resolved → Bool
  | (_, .page _) => true
  | _ => false
theorem witness_CacheOperations : (simtAt 0x80000000).executes 256 on anyCore .holds [1]
    ∧ pageAt ((simtAt 0x80000000).resolve ((simtAt 0x80000000).who 256) ((simtAt 0x80000000).effAddr 256 1 0) .load) = true
    ∧ pageAt ((simtAt 0x80000000).icinvPage ((simtAt 0x80000000).who 256) ((simtAt 0x80000000).effAddr 256 1 0)) = true
    ∧ ((simtAt 0x80000000).thread 256).oc.st < 63 ∧ hostTop.executes 0 on anyCore .holds [1]
    ∧ pageAt (hostTop.resolve (hostTop.who 0) (hostTop.effAddr 0 1 0) .load) = true := by unfold State.executes State.passes; decide +kernel
/-- Lane 0 as a user thread, whose addresses below 4 MiB are the window and which no page answers elsewhere. -/
def simtUser (v : Word) : State := (simtAt v).modThread 256 user
theorem witness_CacheOperations_window : (simtUser 0x80000).executes 256 on anyCore .holds [1]
    ∧ (match (simtUser 0x80000).resolve ((simtUser 0x80000).who 256) ((simtUser 0x80000).effAddr 256 1 0) .load with
      | (_, .window _) => true
      | _ => false) = true := by unfold State.executes State.passes; decide +kernel
theorem witness_CacheOperations_pref : (simtUser 0x80000000).executes 256 on anyCore .runs [1]
    ∧ (simtUser 0x80000000).prefPage 256 ((simtUser 0x80000000).effAddr 256 1 0) .load = none := by
  unfold State.executes State.passes; decide +kernel
def invNames : List InvName := [⟨some 5, some (0x1000, 1)⟩, ⟨some 5, none⟩, ⟨none, none⟩, ⟨none, some (0x1000, 7)⟩]
theorem witness_TlbInvalidate : (simtAt 0x1000).executes 256 on privileged .holds [1, 2]
    ∧ (∀ n ∈ invNames, (simtAt 0x1000).storesPending 256 = false ∧ (simtAt 0x1000).heldStores n = false
      ∧ (simtAt 0x1000).mem.inflight.all (fun e => !n.usedBy e.2) = true)
    ∧ (flying (.store [1])).executes 256 on privileged .holds [1, 2] ∧ (flying (.store [1])).storesPending 256 = true := by
  unfold State.executes State.passes; decide +kernel

/-! ### Witnesses: control flow, waiting, ending -/

theorem witness_ControlFlow : (simt [0]).executes 256 on anyCore .runs [] ∧ (simt [0]).executes 256 on anyCore .runs [8]
    ∧ (simtAt 0x2000).executes 256 on anyCore .runs [1, 8]
    ∧ (BitVec.ofInt 64 ((((simtAt 0x2000).readReg 256 1).toInt + immInt 0xFFFFFFF8) % 2 ^ 57)).toNat % 8 = 0
    ∧ (BitVec.ofInt 64 ((((simtAt 0x2000).readReg 256 1).toInt + immInt 4) % 2 ^ 57)).toNat % 8 ≠ 0
    ∧ ((simtAt 0x2000).thread 256).spec.mode ≠ .speculating := by unfold State.executes State.passes; decide +kernel
/-- Lane 1 has p1 set: a branch under p1 sends it elsewhere than lane 0. -/
def diverging : State := (simt [0, 1]).modThread 257 fun t => { t with preds := 3 }
theorem witness_ControlFlow_bundle : diverging.admits ⟨1, false⟩ anyCore .runs [] ∧ diverging.cur = .bundle 0 0 0
    ∧ (∀ k ∈ diverging.issuing, isLat k = false ∧ diverging.coreOf k = 0)
    ∧ after (exec (.br ⟨1, false⟩ .none 4) diverging) (fun t => [(t.thread 256).pc, (t.thread 257).pc]) = some [0x1008, 0x1020]
    ∧ after (exec (.br ⟨1, false⟩ .none 4) diverging) (fun t => (t.core 0).bundles.map (·.members)) = some [[256]] := by
  unfold State.admits State.passes; decide +kernel
def backing : State := simtWith fun t => { t with st := { t.st with held := true, lowered := true, level := 6 } }
def counting : State := simtWith fun t => { t with oc := ⟨1, 0, 0, 0⟩ }
theorem witness_Waiting : (simt [0]).executes 256 on anyCore .holds [] ∧ (simt [0]).issuing = [256]
    ∧ ((simt [0]).thread 256).guard on = true ∧ ((simt [0]).thread 256).guard ⟨1, false⟩ = false
    ∧ (backing.thread 256).st.held = true ∧ (backing.thread 256).st.lowered = true
    ∧ (simt [0]).executes 256 on anyCore .runs [] ∧ ((simt [0]).thread 256).dueFailure = none
    ∧ (let oc := ((simt [0]).thread 256).oc; oc.ld ≤ 0 ∧ oc.st ≤ 0 ∧ oc.cp ≤ 0 ∧ oc.tile ≤ 0)
    ∧ counting.executes 256 on anyCore .runs [] ∧ (counting.thread 256).dueFailure = none ∧ ¬(counting.thread 256).oc.ld ≤ 0
    ∧ backing.executes 256 on anyCore .runs [] := by unfold State.executes State.passes; decide +kernel
theorem witness_Exits : (simt [0]).executes 256 on anyCore .holds [] ∧ ((simt [0]).thread 256).oc.ld = 0
    ∧ ((simt [0]).thread 256).oc.st = 0 ∧ ((simt [0]).thread 256).dueFailure = none ∧ counting.executes 256 on anyCore .holds [] ∧ (counting.thread 256).oc.ld ≠ 0
    ∧ (lat []).executes 0 on anyCore .holds [] ∧ ((lat []).thread 0).dueFailure = none
    ∧ (lat []).heldLane ((lat []).thread 0) = none ∧ (lat []).escFull = false := by unfold State.executes State.passes; decide +kernel
theorem witness_Exits_end : isLat 256 = false ∧ (simt [0]).crewAt 256 = some crew0 ∧ 256 = laneKey (crewOf 256) (laneOf 256)
    ∧ (simt [0]).gangs.find ((simt [0]).thread 256).ids.seq = some gang2 ∧ (∀ a ∈ crew0.sets, a.members.getLsbD (laneOf 256) = false)
    ∧ 257 ≠ 256 := by decide +kernel

/-! ### Witnesses: crews and gangs -/

/-- Both lanes enrolled in join register 2, lane 1 parked on it. -/
def joining : State :=
  ((simt [0]).modJoin 256 2 fun _ => ⟨3, 2⟩).modThread 257 fun t => { t with st := { t.st with park := .join 2 } }
theorem witness_Joins : joining.executes 256 on simtOnly .holds [] ∧ (joining.joinAt 256 2).e.getLsbD (laneOf 256) = true
    ∧ (joining.joinAt 256 3).e.getLsbD (laneOf 256) = false ∧ joining.waiters (crewOf 256) 3 = [] ∧ joining.waiters (crewOf 256) 2 ≠ [] := by
  unfold State.executes State.passes; decide +kernel
def joined : State := joining.modJoin 256 2 fun _ => ⟨2, 2⟩
theorem witness_JoinRelease : (joined.crews.find 0).isSome = true ∧ (joined.crewAt 256).all (fun c => c.place.onCore
      && (c.join 2).e != 0 && (c.join 2).v == (c.join 2).e) = true
    ∧ (joined.threads.find (laneKey 0 1)).isSome = true ∧ (joined.thread (laneKey 0 1)).st.park = .join 2
    ∧ (joined.thread 256).st.park ≠ .join 2 ∧ (joining.crewAt 256).all (fun c => (c.join 2).v != (c.join 2).e) = true := by decide +kernel
/-- R35 by its own example: the waiting thread goes on behind its JOIN.WAIT and V becomes zero. -/
theorem test_join_release : ((joined.evalJoin 0 2).thread 257).pc = 0x1008 ∧ ((joined.evalJoin 0 2).joinAt 256 2) = ⟨2, 0⟩ := by decide +kernel
/-- The gang with lanes that have arrived, and a core whose close notice is due. -/
def barrier (arrived closing : List Nat) (park : Park) : State :=
  { (simtWith fun t => { t with st := { t.st with park := park } }) with
    gangs := [(1, { gang2 with arrived := arrived, closing := closing })] }
theorem witness_GangBarrier : (simt [0]).executes 256 on simtOnly .holds []
    ∧ (barrier [0, 1] [] .none).gangs.find 1 = some { gang2 with arrived := [0, 1] } ∧ [0, 1].length = gang2.live
    ∧ (barrier [1] [] .none).gangs.find 1 = some { gang2 with arrived := [1] } ∧ [1].length ≠ gang2.live
    ∧ (barrier [] [0] .gbar).gangs.find 1 = some { gang2 with closing := [0] }
    ∧ (∀ e ∈ (barrier [] [0] .gbar).crews, e.2.place = .resident)
    ∧ (barrier [] [0] .gbar).gbarReleased 1 { gang2 with closing := [0] } 0 = [256] := by
  unfold State.executes State.passes; decide +kernel

/-! ### Witnesses: cross-lane instructions, shared registers, allotments, buffers -/

/-- Two lanes whose mask register g4 names both; lane 1 has a 7 in g2; the set at the PC has some arrivals. -/
def crossing (sets : List ArrivalSet) (mask : Word) : State :=
  let s := ((simt [0]).modThread 256 (withRegs [(2, 5), (3, 1), (4, mask)])).modThread 257
    fun t => withRegs [(2, 7), (3, 0), (4, mask)] { t with st := { t.st with park := .xlane } }
  s.modCrew 0 fun c => { c with sets := sets }
def shfl : Instr := .shfl on .idx 1 2 3 4
theorem witness_CrossLane : (crossForm shfl).isSome = true ∧ (crossing [] 3).issuing = [256]
    ∧ (crossing [] 3).passes 256 simtOnly .holds [2, 3, 4, 1] ∧ ((crossing [] 3).crewAt 256).isSome = true
    ∧ (((crossing [] 2).readReg 256 4).setWidth 32).getLsbD (laneOf 256) = false
    ∧ ((crossing [] 3).crewAt 256).all (fun c => (c.sets.find? fun a => a.pc == 0x1000).isNone) = true
    ∧ (((crossing [] 3).readReg 256 4).setWidth 32).getLsbD (laneOf 256) = true
    ∧ (((crossing [] 3).readReg 256 4).setWidth 32) ≠ 1#32 <<< laneOf 256
    ∧ (∀ j, j < 32 → (3#32).getLsbD j = true → ((crossing [] 3).threads.find (laneKey (crewOf 256) j)).isSome = true)
    ∧ ((crossing [⟨0x1000, 3, 2⟩] 3).crewAt 256).all (fun c => (c.sets.find? fun a => a.pc == 0x1000) == some ⟨0x1000, 3, 2⟩ && c.maps == [])
      = true ∧ 2#32 ||| 1#32 <<< laneOf 256 = 3 := by unfold State.passes; decide +kernel
/-- A set waits whose mask names lane 1 alone; and the members' registers are below their allotments. -/
theorem witness_CrossLane_differing : ((crossing [⟨0x1000, 2, 2⟩] 3).crewAt 256).all (fun c =>
      (c.sets.find? fun a => a.pc == 0x1000) == some ⟨0x1000, 2, 2⟩) = true ∧ (3 : BitVec 32) ≠ 2
    ∧ (crossing [⟨0x1000, 2, 2⟩] 3).passes 256 simtOnly .holds [2, 3, 4, 1]
    ∧ (∀ j ∈ [0, 1], ∀ n ∈ [2, 3, 4, 1], (crossing [⟨0x1000, 3, 2⟩] 3).regBad (laneKey 0 j) n = false) := by
  unfold State.passes; decide +kernel
/-- R451: SHFL.IDX gives lane 0 the 7 of lane 1, and lane 1 the 5 of lane 0. -/
theorem test_shfl : after (exec shfl (crossing [⟨0x1000, 3, 2⟩] 3)) (fun t => [t.readReg 256 1, t.readReg 257 1, (t.thread 257).pc])
    = some [7, 5, 0x1008] := by decide +kernel
/-- A thread that maps its g40 to g47 on another crew's g2, whose g4 is full. -/
def sharing : State := (mapped.putFull 256 42 true).modThread 256 fun t => { t with regcnt := 64 }
theorem witness_SharedRegisters : sharing.executes 256 on simtOnly .holds [42, 40] ∧ sharing.sharedReg 256 40 = true
    ∧ sharing.physFull 256 40 = false ∧ sharing.sharedReg 256 42 = true ∧ sharing.physFull 256 42 = true
    ∧ sharing.executes 256 on simtOnly .holds [1, 48] ∧ sharing.sharedReg 256 48 = false ∧ sharing.sharedReg 256 1 = false
    ∧ (sharing.crewAt (sharing.physReg 256 40).1).isSome = true ∧ (sharing.physReg 256 40).2 < 64 := by
  unfold State.executes State.passes; decide +kernel
/-- SHMAP from lane 0 onto crew slot 1: g1 names partition 0, slot 1. -/
def mapping : State := (sharing.modCrew 0 fun c => { c with maps := [] }).modThread 256 (withRegs [(1, 1)])
theorem witness_SharedRegisters_map : mapping.executes 256 on simtOnly .holds [1] ∧ (mapping.readReg 256 1).toNat < 64
    ∧ mapping.crewInSlot 0 0 (fld (mapping.readReg 256 1) 5 4) (fld (mapping.readReg 256 1) 3 0) = some 1 ∧ 1 ≠ crewOf 256
    ∧ (mapping.crewAt 256).all (fun c => c.core == 0 && c.asid == 0 && c.maps == []) = true ∧ 40 + 8 ≤ (mapping.thread 256).regcnt
    ∧ (mapping.crews.find 1).isSome = true := by unfold State.executes State.passes; decide +kernel
def growing : State := simtWith fun t =>
  { t with st := { t.st with park := .grow, again := some (.grow on 2) } }
theorem witness_Allotments_grant : (growing.crewAt 256).isSome = true ∧ growing.halted = false ∧ (growing.thread 256).st.park = .grow
    ∧ (growing.thread 256).st.live = true ∧ (growing.thread 256).st.again = some (.grow on 2) ∧ growing.firstInSlice 256 = true
    ∧ (let sl := (growing.core 0).slice 0 (laneOf 256); (growing.thread 256).loambase + 8 * (32 + 16) ≤ sl.1 + sl.2)
    ∧ (∀ u ∈ growing.windowsIn 0 0 (laneOf 256) false, u.1 ≠ (growing.thread 256).loambase →
        (growing.thread 256).loambase + 8 * (32 + 16) ≤ u.1 ∨ u.1 + u.2 ≤ (growing.thread 256).loambase) := by decide +kernel
theorem test_grow_grant : after (exec (.growGrant 256) growing) (fun t => ((t.thread 256).regcnt, (t.thread 256).pc)) = some (48, 0x1008) := by
  decide +kernel
def small (n : Nat) : State := simtWith fun t => { t with regcnt := n }
theorem witness_Allotments : (small 32).executes 256 on anyCore .holds [] ∧ 32 + 8 * (4 : BitVec 3).toNat ≤ 64
    ∧ 8 * (32 + 8 * (4 : BitVec 3).toNat) ≤ ((small 32).core 0).regg * 128 ∧ 64 < 40 + 8 * (4 : BitVec 3).toNat
    ∧ (small 40).executes 256 on anyCore .holds [] ∧ ((small 40).thread 256).spec.mode ≠ .speculating
    ∧ 16 + 8 * (2 : BitVec 3).toNat ≤ 32 ∧ ((small 32).crewAt 256).any (fun c => c.maps.any fun m => decide (32 - 16 < m.d + m.count)) = false
    ∧ ((small 32).thread 256).oc.ld = 0 ∧ counting.executes 256 on anyCore .holds [] ∧ (counting.thread 256).oc.ld ≠ 0
    ∧ (lat []).executes 0 on anyCore .holds [] ∧ 16 + 8 * (2 : BitVec 3).toNat ≤ ((lat []).thread 0).regcnt
    ∧ 32 < 16 + 8 * (3 : BitVec 3).toNat := by unfold State.executes State.passes; decide +kernel
/-- A crew whose circular buffer 3 has four slots of 128 bytes at 0x100 of its scratch, with some counters. -/
def buffer (counters : Word) : State :=
  ((simt [0]).putSpecWord crew0 0x7E60 0x8200008000000100).putSpecWord crew0 0x7E68 counters
def cfgValid (s : State) : Bool := (s.crewAt 256).all fun c => cbValid c (s.cbCfg c 3)
theorem witness_CircularBuffers : ((simt [0]).crewAt 256).isSome = true ∧ (buffer 0x0003_0000_0001_0003).executes 256 on simtOnly .holds [8]
    ∧ (buffer 0x0003_0000_0001_0003).executes 256 on simtOnly .holds []
    ∧ cfgValid (buffer 0x0003_0000_0001_0003) = true ∧ cfgValid (buffer 0) = true ∧ cfgValid (simt [0]) = false
    ∧ ((buffer 0).crewAt 256).all (fun c => (((buffer 0).core 0).bank c.bank).cbs.find (c.specBase + 0x7E60) == none) = true
    ∧ (buffer 0x0003_0000_0001_0003).loamPending 256 = false ∧ loamStore.loamPending 256 = true
    ∧ ((buffer 0x0003_0000_0001_0003).crewAt 256).all (fun c => (buffer 0x0003_0000_0001_0003).cbCtr c 3 == 0x0003_0000_0001_0003) = true
    ∧ ((buffer 0).crewAt 256).all (fun c => (buffer 0).cbCtr c 3 == 0) = true := by unfold State.executes State.passes; decide +kernel
/-- The first word of the descriptor has bad parity. -/
def badBuffer : State := (buffer 0).modCore 0 fun c => { c with badParity := [(false, crew0.specBase + 0x7E60)] }
theorem witness_CircularBuffers_parity : ((badBuffer.crewAt 256).map fun c => badBuffer.specBad c 0x7E60 16) = some [crew0.specBase + 0x7E60]
    ∧ badBuffer.executes 256 on simtOnly .holds [8] ∧ badBuffer.executes 256 on simtOnly .holds [] ∧ badBuffer.loamPending 256 = false
    ∧ (badBuffer.thread 256).spec.mode = .normal := by unfold State.executes State.passes; decide +kernel
/-- R374, R376: with RIDX 3, CBWAIT gives slot 3, and CBPOP takes RIDX round to 0 and moves the slot to FREE. -/
theorem test_cbwait : after (exec (.cbwait on 8 3) (buffer 0x0003_0000_0001_0003)) (fun t => t.readReg 256 8) = some 0x80280 := by
  decide +kernel
theorem test_cbpop : after (exec (.cbpop on 3) (buffer 0x0003_0000_0001_0003)) (fun t => t.specWord crew0 0x7E68)
    = some 0x0000_0000_0000_0004 := by decide +kernel

/-! ### Witnesses: services, migration, gangs, system registers -/

/-- Memory with some words. -/
def words (ws : List (Nat × Word)) (s : State) : State :=
  { s with mem := { s.mem with bytes := ws.foldl (fun m e => m.puts e.1 (wordsBytes [e.2])) s.mem.bytes } }
/-- A valid entry of the service table for ASID 0: slots at 0x8000, two of them. -/
def serving : State := words [(0x6000, 0x8000000000008001)] { (simt [0]) with pkg := { Pkg.zero with svctab := 0x6000 } }
theorem witness_ServiceCalls : (lat []).executes 0 on anyCore .holds [] ∧ (lat []).escFull = false
    ∧ (simt [0]).executes 256 on anyCore .holds [] ∧ bitAt ((simt [0]).svcEntry ((simt [0]).ctxOf 256).asid).2.1 63 = false
    ∧ serving.executes 256 on anyCore .holds [] ∧ bitAt (serving.svcEntry (serving.ctxOf 256).asid).2.1 63 = true
    ∧ (match serving.resolve (serving.who 256) 0x8000 .store with
      | (s1, .page p) => !bitAt (s1.peekWord p.pa) 63 && (s1.pendingOf 256).isEmpty && (s1.readReg 256 11).toNat % 8 == 0
      | _ => false) = true := by unfold State.executes State.passes; decide +kernel
theorem witness_ServiceCalls_reply : speculating.caller (5 : BitVec 48).toNat = some 256 ∧ (3 : Word) = (speculating.thread 256).spec.predicted
    ∧ (4 : Word) ≠ (speculating.thread 256).spec.predicted ∧ (speculating.thread 256).spec.mode ≠ .normal := by decide +kernel
/-- The same thread holding a trap in W until the reply comes. -/
def trapHeld : State := speculating.modThread 256 fun t =>
  { t with spec := { t.spec with mode := .waiting }, st := { t.st with pending := .trap cILLEGAL 0 7 0x1000 } }
def replied (s : State) : State :=
  (((s.modCore (s.coreOf 256) fun c => c.predict 0xFF8 3).commitBuffer 256).settleSpecLoads 256 false).modThread 256 fun t => { t with spec := .idle }
theorem witness_ServiceCalls_trap : trapHeld.caller (5 : BitVec 48).toNat = some 256 ∧ (3 : Word) = (trapHeld.thread 256).spec.predicted
    ∧ ((replied trapHeld).thread 256).st.pending = .trap cILLEGAL 0 7 0x1000 ∧ ((replied speculating).thread 256).st.pending = .none := by
  decide +kernel
theorem witness_WrongSideMigrate : (simtAt 0x100).executes 256 on anyCore .holds [1, 8] ∧ (simtAt 0x100).readReg 256 1 ≠ 0
    ∧ (lat []).executes 0 on anyCore .holds [8] ∧ ((lat []).thread 0).st.away = false := by unfold State.executes State.passes; decide +kernel
/-- A gang descriptor at the start of host memory for two threads of 16 registers, its region at 0x3000, the tids registered at
0x5000, and a save area of `len` bytes. -/
def launchIn (len : Word) : State :=
  let s := words [(2 ^ 48, 0x2000), (2 ^ 48 + 8, 0x00000F0000900002), (2 ^ 48 + 16, 0x3000), (2 ^ 48 + 32, 0x4000), (0x3020, 0xFFFF0180),
    (0x5000, 0x8000000000000000), (0x5010, 2)] (lat [(1, 2 ^ 48)])
  { s with pkg := { s.pkg with tidreg := 0x5000 }, dies := [(0, { Die.zero with savebase := 0x100000, savelen := len })] }
def launching : State := launchIn 0x400000
def pair : GangDesc := ⟨0x2000, 0xF0000900002, 0x3000, 0, 0x4000, 0⟩
/-- The region's path cached. -/
def checking (s : State) : State := s.cachePath Ctx.zero 0 0x3000
/-- The state in which a die is chosen. -/
def choosing (s : State) : State := { checking s with nxt := { (checking s).nxt with gang := (s.nxt.gang + 1) % 2 ^ 48 } }
theorem witness_GangLife_executes : launching.executes 0 on anyCore .holds [1, 8] ∧ (launchIn 0x1000).executes 0 on anyCore .holds [1, 8]
    ∧ (lat []).executes 0 on anyCore .holds [1, 8] ∧ (lat []).readReg 0 1 = 0 ∧ ((lat []).thread 0).st.away = false := by
  unfold State.executes State.passes; decide +kernel
theorem witness_GangLife_descriptor : inHost (2 ^ 48) 128 ∧ launching.readReg 0 1 = 2 ^ 48 ∧ va57 (2 ^ 48) = 2 ^ 48
    ∧ (launching.thread 0).st.away = false ∧ launching.untranslated 0 ∧ launching.ctxOf 0 = Ctx.zero
    ∧ launching.silent (launching.agentOf 0) = false ∧ launching.mem.past = [] := by
  unfold State.untranslated inHost; decide +kernel
/-- The checks of R43 and R278, up to the choice of a die. -/
theorem witness_GangLife_checks :
    (let bs := launching.mem.bytes.bytes (2 ^ 48) 128;
      (⟨wordOf bs 0, wordOf bs 8, wordOf bs 16, wordOf bs 24, wordOf bs 32, wordOf bs 40⟩ : GangDesc) = pair)
    ∧ pair.fid = 15 ∧ pair.bad = false ∧ pair.wsn = 0 ∧ (checking launching).pathBad Ctx.zero 0 0x3000 = false
    ∧ (checking launching).capsAdmit Ctx.zero 0 0x3000 (fun _ => pair.cores) (pair.crews * (pair.lsg + 2)) = true
    ∧ (checking launching).tidsRegistered 0 0 2 = true ∧ (checking launching).escFull = false
    ∧ (partitionWord (pair.share 0).length pair.lsg pair.regs ((checking launching).shadowOf Ctx.zero 0 0x3000)).isSome = true := by
  decide +kernel
/-- With room for the frames the gang is placed; with room for the caller's only it waits. -/
theorem witness_GangLife_dies : (match (choosing launching).pickDie Ctx.zero pair true with
      | some (d, cores) => ((choosing launching).reserveGang Ctx.zero pair d cores true).isSome
      | none => false) = true
    ∧ ((choosing (launchIn 0x1000)).pickDie Ctx.zero pair true).isNone = true
    ∧ (((choosing (launchIn 0x1000)).die 0).findRoom 1024 1024).isSome = true := by decide +kernel
/-- Hardware thread 0 runs the AWAY thread of lane 0. -/
def awayThread (t : Thread) : Thread := { t with st := { t.st with away := true } }
def awayFromLane : State :=
  let s := (simt [0]).modThread 256 fun t => awayThread { t with st := { t.st with live := false } }
  { s.modThread 0 fun t => awayThread { t with ids := (lane 0).ids } with cur := .hart 0 }
theorem witness_GangLife_return : awayFromLane.executes 0 on anyCore .holds [1, 8] ∧ (awayFromLane.thread 0).st.away = true
    ∧ awayFromLane.readReg 0 1 = 0 ∧ awayFromLane.heldLane (awayFromLane.thread 0) = some 256
    ∧ (awayFromLane.crewAt 256).all (fun c => c.place == .resident) = true ∧ (awayFromLane.crewAt 256).isSome = true := by
  unfold State.executes State.passes; decide +kernel
theorem witness_GangLife_toLat : (simt [0]).executes 256 on anyCore .holds [8] ∧ ((simt [0]).thread 256).dueFailure = none
    ∧ ((simt [0]).thread 256).oc = ⟨0, 0, 0, 0⟩ ∧ ((simt [0]).thread 256).parity = 0 ∧ 255 < Config.harts ∧ ((simt [0]).hart 255).run = false := by
  unfold State.executes State.passes; decide +kernel
theorem witness_Exits_away : awayFromLane.executes 0 on anyCore .holds [] ∧ (awayFromLane.thread 0).dueFailure = none
    ∧ (awayFromLane.thread 0).oc.ld = 0 ∧ (awayFromLane.thread 0).oc.st = 0 ∧ awayFromLane.heldLane (awayFromLane.thread 0) = some 256
    ∧ (awayFromLane.thread 0).st.away = true := by unfold State.executes State.passes; decide +kernel
/-- The gang of `launching`, waiting, its caller frame at 0x100000. -/
def waitingGang (f : Gang → Gang) : State :=
  { launching with gangs := [(1, f { gang2 with desc := pair, waiting := true, caller := 0x100000, live := 0 })] }
theorem witness_GangLife_placement : ((waitingGang id).gangs.find 1).any (fun x => x.waiting && ((waitingGang id).gangPlan x).isSome) = true
    ∧ (waitingGang id).halted = false ∧ (waitingGang id).turnOf 0 (.gang 1) = true := by decide +kernel
def ended (g : Gang) : Gang := { g with waiting := false }
def allBusy (s : State) : State := { s with harts := [(0, { Hart.zero with run := true }), (1, { Hart.zero with run := true })] }
theorem witness_GangLife_fanIn : ((waitingGang ended).gangs.find 1).any (fun x => !x.waiting && x.live == 0 && x.task == none) = true
    ∧ (∀ e ∈ (waitingGang ended).crews, e.2.seq ≠ 1) ∧ (waitingGang ended).idleOn (0 / 2) = some 1
    ∧ ((waitingGang fun g => { ended g with task := some (0, 0, 0) }).gangs.find 1).any (fun x => x.task.isSome && x.live == 0) = true
    ∧ (allBusy (waitingGang ended)).idleOn (0 / 2) = none ∧ (allBusy (waitingGang ended)).escFull = false := by decide +kernel
/-- Context 0 of network engine 0: running, one handler, one endpoint, its receive ring in the region at 0x3000; a task of
handler 0 waits, its message at 0x8000. -/
def networked : State :=
  let s := words [(0x7000, 0x4001000100000000), (0x7008, 0x7100), (0x7010, 0x7200), (0x7018, 0x3000), (0x7110, 0x1000000), (0x7200, 0x2000),
    (0x7208, 0x100900002), (0x7218, 4), (0x8000, 0x8000000000000008), (0x3030, 0x9000), (0x3038, 2)] launching
  { s with
    nets := [(0, { NetEngine.zero with ctxbase := 0x7000 })]
    dies := [(0, { Die.zero with savebase := 0x100000, savelen := 0x400000, contexts := [(0, Ctx.zero)], tasks := [⟨0, 0, 0x8000, 0⟩] })] }
/-- The task is off the list, and the region's blocks are cached. -/
def tasking : State := (networked.cachePath Ctx.zero 0 (networked.netRegion 0 0)).modDie 0 fun y => { y with tasks := y.tasks.erase ⟨0, 0, 0x8000, 0⟩ }
theorem witness_GangLife_task : (networked.die 0).tasks[0]? = some ⟨0, 0, 0x8000, 0⟩ ∧ networked.ctxByAsid 0 = some Ctx.zero
    ∧ networked.halted = false ∧ networked.pathBad Ctx.zero 0 (networked.netRegion 0 0) = false
    ∧ networked.turnOf 0 (.task ⟨0, 0, 0x8000, 0⟩) = true ∧ 0 < networked.netHcnt 0 0
    ∧ (networked.instances 0 0 0).length < fld (networked.handlerWord 0 0 0 3) 15 0
    ∧ ((List.range ((networked.instances 0 0 0).length + 1)).find? fun i => !(networked.instances 0 0 0).contains i) = some 0
    ∧ (let hw := fun i => tasking.handlerWord 0 0 0 i
      let desc : GangDesc := ⟨hw 0, hw 1, tasking.netRegion 0 0, hw 2, 0, 0⟩
      desc.bad = false ∧ desc.count = desc.csz ∧ desc.lsg ≠ 0 ∧ desc.wsn = 0
        ∧ tasking.capsAdmit Ctx.zero 0 desc.region (fun _ => 1) (desc.lsg + 2) = true
        ∧ (match tasking.pickDie Ctx.zero desc false with
          | some (di, cores) => (tasking.reserveGang Ctx.zero desc di cores false).isSome
          | none => false) = true) := by decide +kernel
def dozing : State := (simt [0]).modThread 257 fun t => { t with st := { t.st with sleeping := true } }
def sleeping : State := ((simt [0]).modCore 0 fun c => { c with asleep := true, bundles := [] })
theorem witness_SystemRegisters : (lat []).executes 0 on anyCore .runs [8] ∧ (lat []).executes 0 on { anyCore with priv := supRegister .pgroot } .holds [8]
    ∧ SysReg.pgroot.readOnly = false ∧ SysReg.cyc.readOnly = true ∧ (lat []).executes 0 on anyCore .holds []
    ∧ storedBits .tvec = some 0x01FFFFFFFFFFFFF9 ∧ ((lat []).threads.find 0).isSome = true ∧ isLat 0 = true ∧ SysReg.tvec ∉ [SysReg.hzc0]
    ∧ storedBits .hzc1 = some 0x0000FFFFFFFFFFFF ∧ ((simt [0]).crewAt 256).isSome = true ∧ isLat 256 = false := by
  unfold State.executes State.passes; decide +kernel
/-- The other threads of the core: lane 1 sleeps already, or runs. -/
theorem witness_SystemRegisters_sleep : (lat []).executes 0 on privileged .holds [] ∧ (lat []).cur = .hart 0
    ∧ (simt [0]).executes 256 on privileged .holds [] ∧ (simt [0]).cur = .bundle 0 0 0
    ∧ (((simt [0]).modThread 256 fun t => { t with st := { t.st with sleeping := true } }).leaveBundle 256).mayDoze 0 = false
    ∧ dozing.executes 256 on privileged .holds []
    ∧ ((dozing.modThread 256 fun t => { t with st := { t.st with sleeping := true } }).leaveBundle 256).mayDoze 0 = true
    ∧ sleeping.mayWake 0 = true ∧ (sleeping.core 0).badParity = [] ∧ sleeping.threads.all (fun e => e.2.parity == 0) = true := by unfold State.executes State.passes; decide +kernel

/-! ### Witnesses: matrix engine and residencies -/

/-- The gang's region is at 0x3000, with caps of 384 cores, 65535 granules and 4 residencies. -/
def regioned (s : State) : State :=
  words [(0x3020, 0xFFFF0180), (0x3028, 4)] { s with gangs := [(1, { gang2 with desc := { gang2.desc with region := 0x3000 } })] }
/-- Ring 0 of the crew: two slots from 0x180000, with a counter word; g1 and g2 name INT8 records of 32 and 128 rows. -/
def ringed (ctr : Word) : State :=
  let s := (regioned (simt [0])).putRing crew0 0 0x8000000100180000 ctr
  (s.putLoam 0 false 0x80000 (wordsBytes [0x80400, 0x80_00000080, 0x510020, 0, 0x82000, 0x80_00000080, 0x510080, 0])).modThread 256
    (withRegs [(1, 0x80000), (2, 0x80020)])
def mma : MmaFields := ⟨0, false, false, 15, 0, 0⟩
theorem witness_MatrixCommands_mma : (ringed 0).crewAt 256 = some crew0 ∧ ringValid ((ringed 0).ringCfg crew0 0) = true
    ∧ (ringed 0).executes 256 on simtOnly .holds [1, 2] ∧ (ringed 0).queueFull 0 = false ∧ ((ringed 0).thread 256).oc.tile < 15
    ∧ (ringed 0).ordersPending 256 = false ∧ ringValid ((ringed 0).ringCfg crew0 1) = false
    ∧ ((ringed 0).modThread 256 (withRegs [(1, 0x8001F)])).executes 256 on simtOnly .holds [1, 2] ∧ (0x8001F : Word).toNat % 32 ≠ 0 := by
  unfold State.executes State.passes; decide +kernel
theorem witness_MatrixCommands_parity :
    let s := (ringed 0).modCore 0 fun c => { c with badParity := [(false, crew0.specBase + 0x7D00)] }
    s.specBad crew0 0x7D00 16 = [crew0.specBase + 0x7D00] ∧ s.executes 256 on simtOnly .holds [1, 2] ∧ (s.thread 256).spec.mode = .normal
    ∧ (ringed 0).specBad crew0 0x7D00 16 = [] := by unfold State.executes State.passes; decide +kernel
theorem witness_MatrixCommands_operands : (ringed 0).ownOperand 256 crew0 0x80000 32 ∧ (ringed 0).ownOperand 256 crew0 0x80020 128
    ∧ namesFormat 0 5 ∧ namesFormat 5 5 ∧ ((ringed 0).ownRecord 256 crew0 0x80000).fmt = 5 ∧ pairAllowed 5 5 = true := by
  unfold State.ownOperand namesFormat; decide +kernel
/-- A valid INT8 residency of the context on core 0, index 0, generation 1, slot 0. -/
def resident (st : ResState) : Handle :=
  { Handle.zero with alloc := true, gen := 1, slot := some 0, fmt := 5, state := st, region := 0x3000 }
def residentState (st : ResState) : State := ((ringed 0).putHandle 0 0 (resident st)).modThread 256 (withRegs [(2, 0x100)])
theorem witness_MatrixCommands_mmaK : (residentState .valid).executes 256 on simtOnly .holds [1, 2]
    ∧ (residentState .valid).findHandle ((residentState .valid).ctxOf 256).asid 0x100 = some (0, 0, resident .valid)
    ∧ fmtAllowed (resident .valid).fmt (resident .valid).scaled = true ∧ pairAllowed 5 (resident .valid).fmt = true := by
  unfold State.executes State.passes; decide +kernel
theorem witness_MatrixCommands_ring : (ringed 0x100).executes 256 on simtOnly .holds [8] ∧ (ringed 0x100).executes 256 on simtOnly .holds []
    ∧ (ringed 0x100).crewAt 256 = some crew0
    ∧ bitAt ((ringed 0x100).ringCfg crew0 0) 63 = true ∧ fld ((ringed 0x100).ringCtr crew0 0) 11 8 = 1
    ∧ fld ((ringed 0).ringCtr crew0 0) 11 8 = 0 ∧ bitAt ((ringed 0x100).ringCfg crew0 3) 63 = false
    ∧ findRun (96 * 16384) (32 * 16384) (2 * 16384) 16384 ((ringed 0x100).ringRuns 0 false) = some 0x188000
    ∧ (ringed 0x100).loamPending 256 = false := by unfold State.executes State.passes; decide +kernel
theorem witness_MatrixCommands_room :
    (ringed 0).capsAdmit ((ringed 0).ctxOf 256) ((ringed 0).dieOf 256) ((ringed 0).regionOf 256) (fun _ => 0) 2 = true
    ∧ (let e := ((ringed 0).core 0).engines; e.queue.length < 8 ∧ e.queue.any (fun x => x.usesRing 0 0) = false
      ∧ e.current.any (fun x => x.usesRing 0 0) = false) := by decide +kernel
/-- RADV.TAIL gives the window address of the closed tail slot (R225). -/
theorem test_radv_tail : after (exec (.radvTail on 8 0) (ringed 0x1100)) (fun t => t.readReg 256 8) = some 0x184000 := by decide +kernel
def mmaCmd : Cmd := Cmd.new (encode (.mmaT on mma 1 2)) 0 1 0 0x80000 0x80020 0x1000 true
def radvCmd : Cmd := Cmd.new (encode (.radv on 0)) 0 1 0 0 0 0x1000 true
def fillCmd : Cmd := Cmd.new (encode (.kfill ⟨0, false⟩ 8 1 2)) 0 1 0 0 0x100 0x1000 true
def queued (q : List Cmd) (current fill : Option Cmd) : State :=
  (residentState .filling).modCore 0 fun c => { c with engines := { c.engines with queue := q, current := current, fill := fill } }
theorem witness_MatrixCommands_start : (queued [mmaCmd] none none).nextCmd 0 = some mmaCmd ∧ mmaCmd.isMma = true
    ∧ (queued [mmaCmd] none none).runLevel 0 mmaCmd = ((queued [mmaCmd] none none).core 0).engines.railLevel
    ∧ (queued [radvCmd] none none).nextCmd 0 = some radvCmd ∧ radvCmd.isRadv = true
    ∧ ((queued [radvCmd] none none).crews.find radvCmd.crew).isSome = true
    ∧ ((queued [] (some mmaCmd) none).core 0).engines.current = some mmaCmd ∧ ((queued [] (some mmaCmd) none).crews.find mmaCmd.crew).isSome = true
    ∧ (queued [fillCmd] none none).nextCmd 0 = some fillCmd ∧ fillCmd.isFill = true
    ∧ ((queued [] none (some fillCmd)).core 0).engines.fill = some fillCmd
    ∧ (((queued [] none (some fillCmd)).core 0).handle (fld fillCmd.b 7 0)).alloc = true
    ∧ (((queued [] none (some fillCmd)).core 0).handle (fld fillCmd.b 7 0)).state = .filling := by decide +kernel
theorem witness_Residencies_handle : (residentState .valid).findHandle ((residentState .valid).ctxOf 256).asid 0x100 = some (0, 0, resident .valid)
    ∧ (residentState .valid).readReg 256 2 = 0x100
    ∧ (residentState .valid).executes 256 on anyCore .holds [2] ∧ (residentState .valid).executes 256 on anyCore .runs [2, 8]
    ∧ (resident .valid).state ≠ .filling ∧ ((residentState .valid).core 0).usesHandle 0 = false
    ∧ (residentState .filling).findHandle ((residentState .filling).ctxOf 256).asid 0x100 = some (0, 0, resident .filling)
    ∧ (residentState .valid).findHandle 0 ((residentState .valid).readReg 256 1) = none
    ∧ (residentState .valid).executes 256 on anyCore .holds [1] := by unfold State.executes State.passes; decide +kernel
/-- KSTAT: slot 0, format 5, state 3 (R241). -/
theorem test_kstat : after (exec (.kstat on 8 2) (residentState .valid)) (fun t => t.readReg 256 8) = some 0xA00003 := by decide +kernel
def allocating : State := (regioned (simt [0])).modThread 256 (withRegs [(1, 2)])
theorem witness_Residencies_alloc : allocating.executes 256 on anyCore .holds [1, 8] ∧ (allocating.readReg 256 1).toNat < 384 ∧ isLat 256 = false
    ∧ allocating.regionOf 256 = 0x3000 ∧ allocating.regionPath (hwWho Ctx.zero) 0 0x3000 = some [0x3000] ∧ allocating.ctxOf 256 = Ctx.zero
    ∧ (∀ e ∈ effectiveAlong (allocating.cachedWord (hwWho Ctx.zero) 0) 9 (allocating.kcapField (hwWho Ctx.zero) 0) [0x3000],
      allocating.kused Ctx.zero e.1 + 1 ≤ e.2)
    ∧ (allocating.core 2).freeIndex = some 0 ∧ (allocating.core 2).freeSlot = some 0 := by unfold State.executes State.passes; decide +kernel
theorem test_kalloc : after (exec (.kalloc on false true 8 1) allocating) (fun t => (t.readReg 256 8, ((t.core 2).handle 0).ar))
    = some (0x20100, true) := by decide +kernel
/-- Every slot of core 2 taken. -/
def fullCore : State := (List.range 64).foldl (fun s n => s.putHandle 2 n { resident .valid with slot := some n }) allocating
theorem witness_Residencies_full : fullCore.executes 256 on anyCore .holds [1, 8] ∧ (fullCore.core 2).freeSlot = none
    ∧ fullCore.regionPath (hwWho Ctx.zero) 0 0x3000 = some [0x3000]
    ∧ (∀ e ∈ effectiveAlong (fullCore.cachedWord (hwWho Ctx.zero) 0) 9 (fullCore.kcapField (hwWho Ctx.zero) 0) [0x3000],
      fullCore.kused Ctx.zero e.1 + 1 ≤ e.2) := by
  unfold State.executes State.passes; decide +kernel
/-- A user thread with an INT8 heap from 16 GiB onto physical 0, its source record at the start of its crew's window. -/
def heapCtx : Ctx := { Ctx.zero with hbase := 0x400000000, hlimit := 0x800000000, hoff := 0xFFFFFFFC00000000, hattr := 0x940F }
def sourceBytes : List Byte := wordsBytes [0x400010000, 0x80_00000080, 0x500080, 0]
def filling : State :=
  let s := ((residentState .empty).putLoam 0 false 0x80000 sourceBytes).modCore 0 fun c => { c with ctxs := [(0, heapCtx)] }
  s.modThread 256 fun t => user (withRegs [(1, 0x100), (2, 0x80000)] t)
/-- A store of its own to the record in flight. -/
theorem witness_Residencies_pending : filling.ownPending 256 0x80000 32 = false
    ∧ (let s := filling.send (filling.access 256 0x80000 (.loam 0 (32 * 16384) none) (.store [1]) .plain .cw)
      s.ownPending 256 0x80000 32 = true ∧ s.executes 256 on anyCore .holds [1, 2, 8] ∧ (s.readReg 256 2).toNat % 32 = 0) := by
  unfold State.executes State.passes; decide +kernel
theorem filling_reads : filling.reads 256 0x80000 32 { filling with free := filling.free + 32 } sourceBytes :=
  .inr ⟨crew0, by unfold State.ownWindow State.untranslated; decide +kernel, rfl, by decide +kernel⟩
theorem witness_Residencies_fill : filling.executes 256 on anyCore .holds [1, 2, 8] ∧ filling.readReg 256 2 = 0x80000
    ∧ (let t := tileOfBytes sourceBytes
      t.space = 0 ∧ t.rows = 128 ∧ t.rowlen = 128 ∧ t.shapeBad = false ∧ t.view = 0 ∧ t.scaled = false ∧ t.fmt = 5
      ∧ t.base = 0x400010000 ∧ t.range.2 = 0x400014000 ∧ offSpan heapCtx t.range = true)
    ∧ ((filling.who 256).ctx = heapCtx ∧ (filling.who 256).sup = false ∧ bitAt heapCtx.hattr 0 = true ∧ filling.stks = []
    ∧ bitAt heapCtx.hattr 14 = false ∧ fld heapCtx.hattr 13 10 = 5 ∧ fmtAllowed 5 false = true)
    ∧ filling.findHandle heapCtx.asid 0x100 = some (0, 0, resident .empty) ∧ (filling.core 0).engines.queue.length < 8
    ∧ (filling.thread 256).oc.tile < 15 := by unfold State.executes State.passes; decide +kernel
theorem witness_Residencies_heap : ∀ r, 0x400010000 ≤ r → r < 0x400014000 → inHeap heapCtx r = true := by
  intro r h1 h2
  have ha : bitAt heapCtx.hattr 15 = true := by decide
  have hb : fld heapCtx.hbase 56 34 = 1 := by decide
  have hl : fld heapCtx.hlimit 56 34 = 2 := by decide
  simp only [inHeap, ha, hb, hl, Bool.true_and, Bool.and_eq_true, decide_eq_true_eq]; omega
/-- A codebook source in host memory. -/
def booking : State := simtAt (2 ^ 48)
theorem witness_Residencies_codebook : booking.executes 256 on anyCore .holds [1, 2, 8] ∧ (booking.readReg 256 2).toNat < 384
    ∧ booking.readReg 256 1 = 2 ^ 48 ∧ va57 (2 ^ 48) = 2 ^ 48 ∧ ((2 ^ 48 : Word)).toNat % 32 = 0
    ∧ (booking.core 0).engines.codebooks.find 7 = none := by unfold State.executes State.passes; decide +kernel
theorem booking_reads : booking.reads 256 (2 ^ 48) 32 booking (booking.mem.bytes.bytes (2 ^ 48) 32) :=
  .inl ⟨by unfold State.untranslated; decide +kernel, by unfold inHost; decide, by decide +kernel, rfl, rfl⟩

/-! ### Witnesses: chains and the network -/

/-- The type of the entry that a chain runs next, when `atEntry` holds of it. -/
def entryOf (s : State) (id : Nat) : Option (Nat × Chain × State × (Word × Word × Word × Word)) :=
  match s.chains.find id with
  | none => none
  | some c0 =>
    let s1 := if c0.state = 0 then s.areaPut c0 (s.headerOff c0) (List.replicate 24 0) else s
    match s1.areaGet c0 (s.headerOff c0 + 32 + 32 * c0.idx) 32 with
    | (_, .inr _) => none
    | (s', .inl (bs, z)) =>
      let w0 := wordOf bs 0
      if (c0.state == 0 || c0.state == 1) && s.chainTurn id c0 && decide (c0.idx < 65536) && typeAllowed c0.engine (fld w0 7 0)
          && !entryReserved (fld w0 7 0) w0 (wordOf bs 8) (wordOf bs 16) (wordOf bs 24)
      then some (fld w0 7 0, { c0 with state := 1, zsub := c0.zsub + z }, s', (w0, wordOf bs 8, wordOf bs 16, wordOf bs 24)) else none
theorem atEntry_of_entryOf (s : State) (id ty : Nat) (c : Chain) (s' : State) (ws : Word × Word × Word × Word)
    (h : entryOf s id = some (ty, c, s', ws)) : s.atEntry id ty c s' ws := by
  unfold entryOf at h
  split at h
  · cases h
  · rename_i c0 hc
    simp only at h
    split at h
    · cases h
    · rename_i s2 bs z hg
      split at h
      · rename_i hb
        simp only [Bool.and_eq_true, Bool.or_eq_true, decide_eq_true_eq, Bool.not_eq_true', beq_iff_eq] at hb
        simp only [Option.some.injEq, Prod.mk.injEq] at h
        obtain ⟨rfl, rfl, rfl, rfl⟩ := h
        exact ⟨c0, z, bs, _, hc, hb.1.1.1.1, hb.1.1.1.2, rfl, hb.1.1.2, rfl, hg, rfl, rfl, hb.1.2, hb.2⟩
      · cases h

def record (base rowlen rows w2 : Nat) : List Word :=
  [BitVec.ofNat 64 base, BitVec.ofNat 64 (rowlen * 2 ^ 32 + rowlen), BitVec.ofNat 64 (w2 + rows), 0]
def chainOf (engine idx : Nat) (tiles : Tiles) : Chain :=
  ⟨engine, if engine = 2 then 384 else 0, 0x80000, some 0, [256], 0, false, Ctx.zero, .cw, 1, idx, 0, 0, 0, 0, 0, tiles⟩
/-- A chain of the crew at 0x80000 with its entry `idx`; records of two rows of 16 bytes at offsets 0x400 and 0x420, of the stored
tile at 0x440, the table 0, 1 at 0x600; circular buffer 3 with four free slots; ring 0 with a counter word. -/
def chainAt (engine idx : Nat) (tiles : Tiles) (ctr : Word) (ws : List Word) : State :=
  let s := (((ringed ctr).putSpecWord crew0 0x7E60 0x8200008000000100).putSpecWord crew0 0x7E68 4).putLoam 0 false
    (0x80020 + 32 * idx) (wordsBytes ws)
  let s := s.putLoam 0 false 0x80400 (wordsBytes (record 0x81000 16 2 0x10000 ++ record 0x82000 16 2 0x10000 ++ record 0x82000 128 32 0x310000))
  let s := s.putLoam 0 false 0x80600 (wordsBytes [0x100000000])
  { s with chains := [(0, chainOf engine idx tiles)], nets := [(0, { NetEngine.zero with ctxbase := 0x7000 })] }
def tileless : Tiles := Tiles.none
def tiled : Tiles := ⟨true, List.replicate 4096 0x3F800000, none, [], []⟩
/-- An entry of a crew's chain as the statements for chains in a crew's scratch take it: engine, IDX, ring counters, words. -/
def plainAt (tiles : Tiles) (e : Nat × Nat × Word × List Word) : Prop :=
  let s := chainAt e.1 e.2.1 tiles e.2.2.1 e.2.2.2
  let c := chainOf e.1 e.2.1 tiles
  let w := fun i => e.2.2.2.getD i 0
  s.crewChain 0 c crew0 ∧ s.entryIs c crew0 (fld (w 0) 7 0) (w 0) (w 1) (w 2) (w 3)
/-- All of it but that the chain is there, which holds by its making. -/
def plainRest (tiles : Tiles) (e : Nat × Nat × Word × List Word) : Prop :=
  let s := chainAt e.1 e.2.1 tiles e.2.2.1 e.2.2.2
  let c := chainOf e.1 e.2.1 tiles
  let w := fun i => e.2.2.2.getD i 0
  let ctx := (s.core crew0.core).ctxOf crew0.asid
  (c.state = 1 ∧ s.chainTurn 0 c = true ∧ c.crew.bind s.crews.find = some crew0
    ∧ (c.sup = false ∨ ctx.pgroot ≠ 0) ∧ (s.core crew0.core).badParity = [] ∧ crew0.base + (crew0.lsg + 2) * 16384 ≤ 2 ^ 22
    ∧ ctx.loamva.toNat % 2 ^ 57 + 2 ^ 26 ≤ 2 ^ 57 ∧ s.chainBase c ≤ va57 c.addr)
  ∧ s.entryIs c crew0 (fld (w 0) 7 0) (w 0) (w 1) (w 2) (w 3)
theorem plainAt_of_rest (tiles : Tiles) (e : Nat × Nat × Word × List Word) (h : plainRest tiles e) : plainAt tiles e := ⟨⟨rfl, h.1⟩, h.2⟩
/-- END; LOOP back one entry, with and without a count left; IF on the last word of scratch and on buffer 3; SIGNAL the same;
COPY, GATHER, SCATTER; TAKE of a closed slot with release, RELEASE; the three sends. -/
theorem witness_ChainEntries_plain : ∀ e ∈ [((0 : Nat), (0 : Nat), (0 : Word), [(1 : Word), 0, 0, 0]), (0, 1, 0, [0x10005, 3, 0, 0]),
    (0, 1, 0, [0x10105, 3, 0, 0]), (0, 0, 0, [0x106, 0x7FF8, 7, 0]), (0, 0, 0, [0x606, 0, 7, 0]), (0, 0, 0, [0x107, 0x7FF8, 7, 0]),
    (0, 0, 0, [0x607, 4, 0, 0]), (0, 0, 0, [0x002, 0x400, 0x420, 0]), (0, 0, 0, [0x003, 0x400, 0x420, 0x600]),
    (0, 0, 0, [0x004, 0x400, 0x420, 0x600]), (1, 0, 0x100, [0x410, 0, 0, 0]), (1, 0, 0x100, [0x011, 0, 0, 0]),
    (2, 0, 0, [0x120, 0x400, 0x70, 0]), (2, 0, 0, [0x021, 0x400, 0x10, 0]), (2, 0, 0, [0x022, 0x420, 0x10, 0])], plainAt tileless e := by
  refine fun e h => plainAt_of_rest _ _ ?_
  revert e; unfold plainRest State.entryIs; decide +kernel
/-- SCALE, BIAS, the kinds 0, 1 and 3 of ACT with the operand at the last place of scratch, CVT, STORE. -/
theorem witness_ChainEntries_plainTile : tiled.taken = true ∧ ∀ e ∈ [((1 : Nat), (0 : Nat), (0 : Word), [(0x012 : Word), 0x7E00, 0, 0]),
    (1, 0, 0, [0x013, 0x7E00, 0, 0]), (1, 0, 0, [0x014, 0, 0, 0]), (1, 0, 0, [0x114, 0, 0, 0]), (1, 0, 0, [0x314, 0x7E00, 0, 0]),
    (1, 0, 0, [0x1115, 0, 0, 0]), (1, 0, 0, [0x5715, 0, 0, 0])], plainAt tiled e := by
  refine ⟨rfl, fun e h => plainAt_of_rest _ _ ?_⟩
  revert e; unfold plainRest State.entryIs; decide +kernel
def chained (engine : Nat) : State := chainAt engine 0 tileless 0 [1, 0, 0, 0]
def recAt (off : Nat) : TileRec := tileOfBytes ((chained 0).scratch crew0 off 32)
/-- The tiles that they move, apart from each other and from the table; a buffer with room for four slots more. -/
theorem witness_ChainEntries_tiles : (chained 0).tileAt (chainOf 0 0 tileless) crew0 0x400 (recAt 0x400)
    ∧ (chained 0).tileAt (chainOf 0 0 tileless) crew0 0x420 (recAt 0x420)
    ∧ (recAt 0x400).rowlen = (recAt 0x420).rowlen ∧ (recAt 0x400).rows = (recAt 0x420).rows ∧ (recAt 0x400).range.2 ≤ (recAt 0x420).range.1
    ∧ (chained 0).windowAddr crew0 0x600 + 4 * 2 ≤ (recAt 0x420).range.1
    ∧ (List.range 2).map (fun j => bytesToNat ((chained 0).scratch crew0 (0x600 + 4 * j) 4)) = [0, 1] ∧ 1 < (recAt 0x420).rows := by
  unfold State.tileAt; decide +kernel
theorem witness_ChainEntries_buffer : cbValid crew0 ((chained 0).cbCfg crew0 3) = true
    ∧ fld ((chained 0).cbCtr crew0 3) 15 0 + fld ((chained 0).cbCtr crew0 3) 31 16 + 0 ≤ 2 ^ fld ((chained 0).cbCfg crew0 3) 58 56
    ∧ fld (((chained 0).putSpecWord crew0 0x7E68 0).cbCtr crew0 3) 15 0 + fld (((chained 0).putSpecWord crew0 0x7E68 0).cbCtr crew0 3) 31 16 + 4
      = 2 ^ fld ((chained 0).cbCfg crew0 3) 58 56 := by decide +kernel
def enters (s : State) (ty : Nat) (p : State → Chain → Word × Word × Word × Word → Bool) : Bool :=
  match entryOf s 0 with
  | some (t, c, s1, ws) => t == ty && p s1 c ws
  | none => false
def anyEntry : State → Chain → Word × Word × Word × Word → Bool := fun _ _ _ => true

theorem witness_ChainEntries_flow : enters (chainAt 0 0 tileless 0 [1, 0, 0, 0]) 0x01 anyEntry = true
    ∧ enters (chainAt 0 1 tileless 0 [0x10005, 3, 0, 0]) 0x05 (fun _ c (w0, w1, _, _) => decide (fld w0 31 16 ≤ c.idx) && fld w1 31 0 == 3) = true
    ∧ enters (chainAt 0 1 tileless 0 [0x10105, 3, 0, 0]) 0x05 (fun _ _ (w0, _, w2, _) => bitAt w0 8 && fld w2 31 0 == 0) = true
    ∧ enters (chainAt 0 0 tileless 0 [0x106, 0x500, 7, 0]) 0x06 (fun s c _ => (s.areaGet c 0x500 8).2.isLeft) = true
    ∧ enters (chainAt 0 0 tileless 0 [0x606, 0, 7, 0]) 0x06 (fun s c _ => (s.chainBuffer c 3).isSome) = true
    ∧ enters (chainAt 0 0 tileless 0 [0x107, 0x500, 7, 0]) 0x07 (fun s c _ => (s.areaGet c 0x500 8).2.isLeft) = true
    ∧ enters (((chainAt 0 0 tileless 0 [0x607, 2, 0, 0]).putSpecWord crew0 0x7E68 1)) 0x07 (fun s c _ => match s.chainBuffer c 3 with
      | some (_, cfg, ctr) => decide (fld ctr 15 0 + fld ctr 31 16 + 2 ≤ 2 ^ fld cfg 58 56)
      | none => false) = true := by decide +kernel
/-- COPY, with and without a buffer slot; GATHER by the table at 0x600 (zeros). -/
def copies (buf : Bool) (ty : Nat) : State → Chain → Word × Word × Word × Word → Bool := fun s1 c (w0, w1, w2, w3) =>
  match s1.recordAt c (fld w1 21 0) with
  | (s2, .inl (src, z1)) => match s2.recordAt c (fld w2 21 0) with
    | (s3, .inl (d0, z2)) =>
      let b := if buf then s1.chainBuffer c (fld w0 12 9) else none
      let dst := match b with
        | some b => { d0 with base := s3.windowAddr b.1 (fld b.2.1 23 0 + fld b.2.2 47 32 * fld b.2.1 55 32) }
        | none => d0
      bitAt w0 8 == buf && b.isSome == buf && fld w3 21 0 % 4 == 0 && src.rowlen == dst.rowlen && src.rows == dst.rows
        && b.all (fun b => fld b.2.2 15 0 != 0 && decide (dst.range.2 - dst.range.1 ≤ fld b.2.1 55 32))
        && (match s3.checkRecLate (s1.chainWho c) src .load with
          | (s4, f, none) => match s4.checkRecLate (s1.chainWho c) dst .store with
            | (s5, _, none) => (moveRows c (s1.chainWho c) ty (fld w3 21 0) src dst f 2 ⟨s5, 0, z1 + z2, [], none⟩).bad.isNone
            | _ => false
          | _ => false)
    | _ => false
  | _ => false
theorem witness_ChainEntries_copy : enters (chainAt 0 0 tileless 0 [0x002, 0x400, 0x420, 0]) 0x02 (copies false 2) = true
    ∧ enters (chainAt 0 0 tileless 0 [0x702, 0x400, 0x420, 0]) 0x02 (copies true 2) = true
    ∧ enters (chainAt 0 0 tileless 0 [0x703, 0x400, 0x420, 0x600]) 0x03 (copies true 3) = true
    ∧ enters (chainAt 0 0 tileless 0 [0x004, 0x400, 0x420, 0x600]) 0x04 (copies false 4) = true
    ∧ enters ((chainAt 0 0 tileless 0 [0x702, 0x400, 0x420, 0]).putSpecWord crew0 0x7E68 0x40000) 0x02 (fun s c _ =>
      (s.chainBuffer c 3).any fun b => fld b.2.2 15 0 == 0) = true := by decide +kernel
def ringIs (closed : Bool) : State → Chain → Word × Word × Word × Word → Bool := fun s c _ => match s.chainRing c 0 with
  | some (_, _, ctr) => (fld ctr 11 8 != 0) == closed
  | none => false
theorem witness_ChainEntries_ring : enters (chainAt 1 0 tileless 0x100 [0x410, 0, 0, 0]) 0x10 (ringIs true) = true
    ∧ enters (chainAt 1 0 tileless 0 [0x010, 0, 0, 0]) 0x10 (ringIs false) = true
    ∧ enters (chainAt 1 0 tileless 0x100 [0x011, 0, 0, 0]) 0x11 (ringIs true) = true := by decide +kernel
def nanOf (w : Nat) : Bool := ((fmtOf .s).decode w).isNan
theorem witness_ChainEntries_tile :
    enters (chainAt 1 0 tiled 0 [0x012, 0x1000, 0, 0]) 0x12 (fun s c _ => c.tiles.taken && (s.areaElems c 0x1000 128 4).2.isLeft) = true
    ∧ enters (chainAt 1 0 tiled 0 [0x013, 0x1000, 0, 0]) 0x13 (fun s c _ => c.tiles.taken && (s.areaElems c 0x1000 128 4).2.isLeft) = true
    ∧ enters (chainAt 1 0 tiled 0 [0x014, 0, 0, 0]) 0x14 (fun _ c (w0, _, _, _) => c.tiles.taken && fld w0 9 8 == 0) = true
    ∧ enters (chainAt 1 0 tiled 0 [0x114, 0, 0, 0]) 0x14 (fun _ c (w0, _, _, _) => c.tiles.taken && fld w0 9 8 == 1) = true
    ∧ enters (chainAt 1 0 tiled 0 [0x214, 0, 0x3F80000000000000, 0]) 0x14 (fun _ c (_, _, w2, _) => c.tiles.taken && !nanOf (fld w2 31 0)
      && !nanOf (fld w2 63 32) && !((fmtOf .s).decode (fld w2 63 32)).lt ((fmtOf .s).decode (fld w2 31 0))) = true
    ∧ enters (chainAt 1 0 tiled 0 [0x314, 0x1000, 0, 0]) 0x14 (fun s c (_, _, w2, _) => c.tiles.taken && !nanOf (fld w2 31 0)
      && (s.areaElems c 0x1000 256 2).2.isLeft) = true
    ∧ enters (chainAt 1 0 tiled 0 [0x1115, 0, 0, 0]) 0x15 (fun _ c (w0, _, _, _) => c.tiles.taken && fld w0 14 12 == 1 && fld w0 11 8 == 1
      && !bitAt w0 15) = true
    ∧ enters (chainAt 1 0 tiled 0 [0x9315, 0, 0, 0]) 0x15 (fun _ c (w0, _, _, _) => c.tiles.taken && fld w0 11 8 == 3) = true := by decide +kernel
/-- Codebook slot 2 of core 0 holds 1.0 sixteen times. -/
def booked : State := (chainAt 1 0 tiled 0 [0x029615, 0, 0, 0]).modCore 0 fun c =>
  { c with engines := { c.engines with codebooks := [(2, ⟨List.replicate 16 0x3F80, true, 0⟩)] } }
theorem witness_ChainEntries_cb4 : enters booked 0x15 (fun s c (w0, _, _, _) => c.tiles.taken && fld w0 11 8 == 6 && bitAt w0 15
    && (s.chainBook c (fld w0 21 16)).isSome && c.crew == some 0) = true := by decide +kernel
/-- A tile of zeros, converted to E4M3. -/
def converted : Tiles := { tiled with out := some (3, false), o := List.replicate 4096 0 }
theorem witness_ChainEntries_plainStore : plainAt converted (1, 0, 0, [0x016, 0x440, 0, 0]) :=
  plainAt_of_rest _ _ (by unfold plainRest State.entryIs; decide +kernel)
theorem witness_ChainEntries_storedTile : (chained 1).tileAt (chainOf 1 0 converted) crew0 0x440 (recAt 0x440)
    ∧ (recAt 0x440).rows = 32 ∧ (recAt 0x440).rowlen = rowBytesOf 3 ∧ (recAt 0x440).fmt = 3 ∧ converted.o.length = 32 * (recAt 0x440).rowlen := by
  unfold State.tileAt; decide +kernel
theorem witness_ChainEntries_store : enters (chainAt 1 0 converted 0 [0x016, 0x440, 0, 0]) 0x16
    (fun s c _ => c.tiles.taken && (match s.recordAt c 0x440 with
      | (s2, .inl (t, z)) => (s2.storeBad (s2.chainWho c) t 3 false).isNone
        && ((List.range 32).foldl (fun (m : Move) r => storeRow (s2.chainWho c) t (3, false)
            ((c.tiles.o.drop (t.rowlen * r)).take t.rowlen) [] r m) ⟨s2, 0, z, [], none⟩).bad.isNone
      | _ => false)) = true := by decide +kernel
/-- A header of lane 0's crew at 0x80000, which g1 names; and one of hardware thread 0. -/
theorem witness_ChainLife_start : (ringed 0).executes 256 on simtOnly .holds [1] ∧ (ringed 0).executes 256 on anyCore .holds [1]
    ∧ (ringed 0).readReg 256 1 = 0x80000 ∧ ((ringed 0).thread 256).oc.cp < 15 ∧ (ringed 0).pendingOf 256 = []
    ∧ (ringed 0).inOwnScratch ((ringed 0).who 256) (0x80000, 0x80020) = true ∧ ((ringed 0).chainsOf (crewOf 256)).length < 16 := by
  unfold State.executes State.passes; decide +kernel
/-- A header of hardware thread 0 in host memory. -/
def hostHeader : State := lat [(1, 2 ^ 48)]
theorem witness_ChainLife_lat : hostHeader.executes 0 on anyCore .holds [1] ∧ hostHeader.executes 0 on anyCore .runs [1, 8]
    ∧ hostHeader.pendingOf 0 = [] ∧ hostHeader.chains = [] ∧ (hostHeader.readReg 0 1).toNat % 32 = 0 ∧ va57 (hostHeader.readReg 0 1) = 2 ^ 48 := by
  unfold State.executes State.passes; decide +kernel
theorem hostHeader_reads : hostHeader.reads 0 (2 ^ 48) 8 hostHeader (hostHeader.mem.bytes.bytes (2 ^ 48) 8) :=
  .inl ⟨by unfold State.untranslated; decide +kernel, by unfold inHost; decide, by decide +kernel, rfl, rfl⟩
def inState (st : Nat) : State :=
  let s := chainAt 1 0 tileless 0x100 [0x010, 0, 0, 0]
  { s with chains := s.chains.map fun (e : Nat × Chain) => (e.1, { e.2 with state := st }) }
theorem witness_ChainLife : (inState 3).chains.find 0 ≠ none ∧ ((inState 3).chains.find 0).any (fun c => (inState 3).crewPresent c) = true ∧ (∀ e ∈ (inState 3).packets, e.2.chain ≠ 0)
    ∧ ((inState 3).chains.find 0).any (fun c => c.state == 3 && c.crew == some 0) = true
    ∧ ((inState 2).chains.find 0).any (fun c => c.state == 2 && (inState 2).chainTurn 0 c && (inState 2).unblocked c) = true
    ∧ ((inState 5).chains.find 0).any (fun c => c.state == 5 && (inState 5).chainTurn 0 c) = true
    ∧ ((inState 2).chains.find 0).any (fun c => !(((inState 2).putRing crew0 0 0x8000000100180000 0).unblocked c)) = true
    ∧ (inState 1).executes 256 on anyCore .runs [1, 8] ∧ (inState 1).inOwnScratch ((inState 1).who 256) (0x80000, 0x80008) = true
    ∧ ((inState 1).chains.find? fun e => e.2.addr == low57 0x80000 && (e.2.counting == [256] || e.2.crew == some (crewOf 256))
      ).isSome = true := by
  unfold State.executes State.passes; decide +kernel
/-- The tables of context 0 with a chain of network engine 0. -/
def sending (ws : List Word) : State :=
  words [(0x7000, 0x4001000100000000), (0x7008, 0x7100), (0x7010, 0x7200), (0x7018, 0x3000), (0x7110, 0x1000000)] (chainAt 2 0 tileless 0 ws)
def sends (acc : AccKind) : State → Chain → Word × Word × Word × Word → Bool := fun s1 c (w0, w1, w2, _) =>
  decide (fld w0 31 16 < s1.netEcnt 0 c.asid) && s1.endpointValid 0 c.asid (fld w0 31 16) && fld w2 3 0 == 0
    && (!bitAt w0 8 || s1.allAcked 0) && (match s1.recordAt c (fld w1 21 0) with
      | (s2, .inl (t, _)) => match s2.checkRecLate (s2.chainWho c) t acc with
        | (s3, _, none) => decide (t.rows * t.rowlen ≤ 4064) && decide (fld w0 39 32 < s3.netHcnt 0 c.asid)
          && (s3.payloadRows (s3.chainWho c) t).2.2.2.isNone && (s3.areaGet c (fld w1 21 0) 32).2.isLeft
        | _ => false
      | _ => false)
theorem witness_NetworkRows_entries : enters (sending [0x120, 0x400, 0x70, 0]) 0x20 (sends .load) = true
    ∧ enters (sending [0x021, 0x400, 0x10, 0]) 0x21 (sends .load) = true ∧ enters (sending [0x022, 0x420, 0x10, 0]) 0x22 (sends .store) = true := by
  decide +kernel
theorem witness_NetworkRows_plain : ∀ ws ∈ [[(0x120 : Word), 0x400, 0x70, 0], [0x021, 0x400, 0x10, 0], [0x022, 0x400, 0x10, 0]],
    (sending ws).crewChain 0 (chainOf 2 0 tileless) crew0
    ∧ (sending ws).entryIs (chainOf 2 0 tileless) crew0 (fld (ws.getD 0 0) 7 0) (ws.getD 0 0) (ws.getD 1 0) (ws.getD 2 0) 0 := by
  unfold State.crewChain State.entryIs; decide +kernel
theorem witness_NetworkRows_target : (sending [0x120, 0x400, 0x70, 0]).tileAt (chainOf 2 0 tileless) crew0 0x400
      ⟨0x81000, 16, 16, 0, 0, false, 0, 0, 1, 2, 0⟩ ∧ 2 * 16 ≤ 4064 := by unfold State.tileAt; decide +kernel
theorem witness_NetworkRows_peer : (sending [0x120, 0x400, 0x70, 0]).allAcked 0 = true
    ∧ 0 < (sending [0x120, 0x400, 0x70, 0]).netEcnt 0 0 ∧ (sending [0x120, 0x400, 0x70, 0]).endpointValid 0 0 0 = true
    ∧ 0 < (sending [0x120, 0x400, 0x70, 0]).netHcnt 0 0 ∧ fld (0x10 : Word) 3 0 = 0 := by decide +kernel
def packet (kind : Nat) : Packet := ⟨0, 0, 0, kind, false, 0, 0, 32, [], 0, 0, false, true⟩
def sentState (kind : Nat) (i : List Input) : State := { (sending [0x120, 0x400, 0x70, 0]) with packets := [(5, packet kind)], inputs := i }
theorem witness_NetworkRows_answers : (sentState 0x20 []).packets.find 5 = some (packet 0x20) ∧ (packet 0x20).acked = false
    ∧ (sentState 0x20 []).inputs = [] ∧ (sentState 0x21 [.refusal 5 0x23]).inputs = [.refusal 5 0x23]
    ∧ ((sentState 0x20 []).chains.find 0).isSome = true := by decide +kernel
/-- Row 1 of a get of the chain's own, its record the one at 0x400. -/
def getting : Packet := { packet 0x22 with hidx := 1, data := wordsBytes (record 0x81000 16 2 0x10000) }
def got : State :=
  { (sending [0x022, 0x400, 0x10, 0]) with packets := [(5, getting)], inputs := [.got 5 (List.replicate 16 1)] }
theorem witness_NetworkRows_got : got.halted = false ∧ got.packets.find 5 = some getting ∧ getting.kind = 0x22 ∧ getting.acked = false
    ∧ (tileOfBytes getting.data).space = 1 ∧ (tileOfBytes getting.data).shapeBad = false
    ∧ got.inOwnScratch (got.chainWho (chainOf 2 0 tileless)) (tileOfBytes getting.data).range = true
    ∧ getting.hidx < (tileOfBytes getting.data).rows ∧ (tileOfBytes getting.data).rowlen = 16 := by decide +kernel
theorem got_crewChain : got.crewChain 0 (chainOf 2 0 tileless) crew0 := by unfold State.crewChain; decide +kernel
/-- The networked package with something from a peer at hand, its context in a state. -/
def arriving (st : Word) (i : Input) : State := words [(0x7000, st * 2 ^ 62 + 0x1000100000000)] { networked with inputs := [i] }
theorem witness_NetworkRows_arrivals : (arriving 1 (.put 0 0 0x400001000 [1])).halted = false
    ∧ (arriving 3 (.put 0 0 0x400001000 [1])).netState 0 0 = 3 ∧ (arriving 1 (.put 0 0 0x400001000 [1])).netState 0 0 = 1
    ∧ (arriving 2 (.put 0 0 0x400001000 [1])).netState 0 0 = 2
    ∧ (match (arriving 1 (.activeMessage 0 0 0 7 0 [1])).receiveRing Ctx.zero 0 0 with
      | some (base, n) => base == 0x9000 && n == 4 && (arriving 1 (.activeMessage 0 0 0 7 0 [1])).ctxWord (hwWho Ctx.zero) 0x9000 == some 0
        && (words [(0x9000, 0x8000000000000000)] (arriving 1 (.activeMessage 0 0 0 7 0 [1]))).ctxWord (hwWho Ctx.zero) 0x9000
          == some 0x8000000000000000
      | none => false) = true := by decide +kernel
/-- The context's heap answers a peer. -/
def heapDie (s : State) : State := s.modDie 0 fun d => { d with contexts := [(0, heapCtx)] }
theorem witness_NetworkRows_pages : (heapDie (arriving 1 (.put 0 0 0x400001000 [1]))).ctxByAsid 0 = some heapCtx
    ∧ ((heapDie (arriving 1 (.put 0 0 0x400001000 [1]))).peerPages heapCtx .store 0x400001000 1).isSome = true
    ∧ ((heapDie (arriving 1 (.getRequest 0 0 0x400001000 16))).peerPages heapCtx .load 0x400001000 16).isSome = true := by decide +kernel

/-! ### Witnesses: the scheduler -/

theorem witness_RegroupBundles : ((simt [0]).core 0).asleep = false ∧ (simt [0]).halted = false := by decide +kernel
/-- A regroup forms one bundle of both lanes, which stand at one PC. -/
theorem test_regroup : after (exec (.regroup 0) (simt [])) (fun t => (t.core 0).bundles.map (·.members)) = some [[256, 257]] := by decide +kernel
def signalled (park : Park) (sleeping : Bool) : State :=
  simtWith fun t => { t with signals := [7, 8], st := { t.st with park := park, sleeping := sleeping } }
def hartWith (h : Hart) (f : Thread → Thread) : State := { (lat []).modThread 0 f with harts := [(0, h)] }
/-- IPEND bit 3 set and enabled. -/
def due (run : Bool) : Hart := { Hart.zero with run := run, htsup := 0x400, ipend := 8, ien := 0xFF }
def asleep (t : Thread) : Thread := { t with st := { t.st with sleeping := true } }
theorem witness_AsynchronousTraps : ((signalled .none true).threads.find 256).isSome = true ∧ (signalled .none true).signalDue 256 = true
    ∧ (signalled .none false).signalDue 256 = true ∧ (signalled .gbar false).signalDue 256 = true
    ∧ (signalled .none true).halted = false ∧ ((signalled .none true).core ((signalled .none true).coreOf 256)).asleep = false
    ∧ (hartWith (due false) id).interruptDue 0 = true ∧ (hartWith (due true) user).interruptDue 0 = true
    ∧ ((hartWith (due true) user).thread 0).trap.sup = false ∧ (hartWith (due true) asleep).interruptDue 0 = true
    ∧ ((hartWith (due true) asleep).thread 0).trap.sup = true ∧ (hartWith (due true) user).halted = false
    ∧ ((simt [0]).crews.find 0).any (fun c => c.place == .resident && decide (c.watchdog < 2 ^ 24)) = true
    ∧ 2 ^ 24 ≤ ({ crew0 with watchdog := 2 ^ 24 }).watchdog := by decide +kernel
/-- A lane that may take WATCHDOG, an AWAY one that runs on hardware thread 0, and one that stands in no hardware thread. -/
theorem witness_AsynchronousTraps_bark : ((simt [0]).thread 256).st.away = false ∧ ((simt [0]).thread 256).st.live = true
    ∧ (awayFromLane.thread 256).st.away = true ∧ awayFromLane.awayHart 256 = some 0 ∧ (awayFromLane.thread 0).ready = true
    ∧ (simtWith awayThread).awayHart 256 = none ∧ ((simtWith awayThread).thread 256).st.away = true := by decide +kernel
def placed (p : CrewPlace) (f : Crew → Crew) : State :=
  let s := simt [0]
  { s with crews := [(0, f { crew0 with place := p, frame := 0x100000 })], dies := [(0, { Die.zero with savebase := 0x100000, savelen := 0x400000, frames := [(0x100000, 0x80000)] })] }
def faulted (c : Crew) : Crew := { c with faulted := true }
def noRoom (c : Crew) : Crew := { c with frame := 0 }
theorem witness_SchedulerRows_fault : ((placed .stopping id).crews.find 0).any (fun c => c.place == .stopping && (placed .stopping id).frameRoom c) = true
    ∧ ((placed .stopping noRoom).crews.find 0).any (fun c => c.place == .stopping && !(placed .stopping noRoom).frameRoom c) = true
    ∧ (placed .stopping id).crewDrained 0 = true ∧ (placed .stopping noRoom).crewDrained 0 = true ∧ (placed .stopping id).faultQueueFull (0 / 48) = false
    ∧ ((placed .parkedFault faulted).crews.filter fun e => e.2.faulted && e.2.asid == 0 && e.2.region == 0).length = 1
    ∧ (placed .parkedFault faulted).ctxWord (hwWho ((placed .parkedFault faulted).dieCtx 0 0)) (va57 0 + 0x50) = some 0 := by decide +kernel
theorem witness_SchedulerRows_restore :
    let s := placed (.saved 0x100000) id
    let cr := { crew0 with place := .saved 0x100000, frame := 0x100000 }
    s.crews.find 0 = some cr ∧ (s.core 0).switch = none ∧ s.halted = false ∧ s.turnOf 0 (.context 0 0) = true
    ∧ s.pathAdmits Ctx.zero 0 cr 0x100000 = true ∧ (s.crewFit 0 0x100000 (s.core 0).actb false).isSome = true := by decide +kernel
/-- A second crew, of context 5 and the region at 0x3000 with priority 3, saved at 0x200000; the region stands in die 0's ring. -/
def prefilling : State :=
  let s := (words [(0x3008, 3), (0x3020, 0xFFFF0180)] (simt [0])).modCore 0 fun c => { c with partWord := 0x100_20_40_20_20 }
  { s with crews := (0, crew0) :: [(1, { crew0 with asid := 5, region := 0x3000, place := .saved 0x200000, frame := 0x200000 })]
           dies := [(0, { Die.zero with ring := [0x3000] })] }
/-- The running crew fills the core's scratch. -/
def contended : State := prefilling.modCrew 0 fun c => { c with lsg := 62 }
theorem witness_SchedulerRows_preempt : contended.runningCrews 0 0 = [0] ∧ (contended.core 0).switch = none ∧ contended.halted = false
    ∧ contended.cause (0, 0) = some (0, ⟨.context 0 5, 0x3000, Ctx.zero⟩) ∧ (simt [0]).runningCrews 0 5 = [] ∧ (simt [0]).halted = false := by
  decide +kernel
/-- A core with a shadow bank, a crew in it. -/
def incoming : State := (placed .shadow fun c => { c with bank := true }).modCore 0 fun c => { c with partWord := 0x100_20_40_20_20 }
/-- A core that changes over to context 5. -/
def draining : State := (placed .spilling id).modCore 0 fun c => { c with switch := some ⟨0, 5, 0⟩ }
theorem witness_SchedulerRows_switch : (incoming.core 0).shadow = true ∧ incoming.incoming 0 = [0] ∧ incoming.halted = false
    ∧ incoming.pkg.qsd = false ∧ (incoming.core 0).engines.current = none
    ∧ (∀ e ∈ incoming.spilling 0 (incoming.core 0).actb, incoming.speechless e.1 = true)
    ∧ (∀ e ∈ incoming.crewsOn 0, e.2.bank = (incoming.core 0).actb → e.2.place = .spilling ∨ incoming.laneKeys e.1 = [])
    ∧ (draining.core 0).switch = some ⟨0, 5, 0⟩ ∧ draining.incoming 0 = []
    ∧ (∀ e ∈ draining.crewsOn 0, e.2.asid = 0 → e.2.place ≠ .stopping)
    ∧ (∀ e ∈ draining.spilling 0 (draining.core 0).actb, draining.unsettled e = false) := by decide +kernel
theorem witness_SchedulerRows_prefill : (prefilling.core 0).shadow = true ∧ prefilling.halted = false ∧ (prefilling.prefillCrews 0 5).map (·.1) = [1]
    ∧ prefilling.crewsOn 0 ≠ [] ∧ (∀ x ∈ prefilling.crewsOn 0, x.2.bank = (prefilling.core 0).actb)
    ∧ (prefilling.prefillCrews 0 5).all (fun e => prefilling.pathAdmits Ctx.zero 0 e.2 0x200000) = true
    ∧ (prefilling.crewFit 1 0x200000 (!(prefilling.core 0).actb) true).isSome = true := by decide +kernel

/-! ### Witnesses: coherence -/

def line0 : Nat := 0x4000
def copyOf (agent : Nat) (st : Moesi) : Copy := ⟨agent, line0, st, true, 0, 7, 0, 0, 0⟩
def coherent (ms : List Msg) (copies : List Copy) (dir : List DirEntry) : State :=
  { State.reset with mem := { MemSys.zero with msgs := ms.zipIdx.map (fun e => (e.2, e.1)), copies := copies, dir := dir }, nxt := { Next.initial with msg := 9 } }
def msgOf (k : MsgKind) : Msg := Msg.plain k line0 3 (homeOf line0) 3
def ownedBy (a : Nat) : DirEntry := ⟨line0, 9, .hx, false, false, false, some a, 0, [], 0⟩
theorem witness_DirectoryRows_kinds : ∀ k ∈ [MsgKind.gets, .getm, .upg, .kget, .rdonce, .wr, .atomic, .putack, .fwds, .fwdm, .fwddone, .nodata,
    .wbpending, .inv, .ack, .grant, .retry, .promote], (coherent [msgOf k] [] []).mem.msgs.find 0 = some (msgOf k) ∧ (msgOf k).kind = k := by decide +kernel
/-- At a home without entries; and an atomic on the last eight bytes of its line. -/
theorem witness_DirectoryRows_home : (coherent [msgOf .gets] [] []).mem.txns = [] ∧ (coherent [msgOf .gets] [] []).mem.queued = []
    ∧ (coherent [msgOf .gets] [] []).mem.dir = [] ∧ (coherent [msgOf .gets] [] []).mem.copies = []
    ∧ (msgOf .wr).act = none ∧ (coherent [msgOf .wr] [] []).mem.poisoned line0 (msgOf .wr).key = false ∧ aliasLine line0 = false
    ∧ (let m := { msgOf .atomic with act := some ⟨.amoAdd on .d .plain .cw 1 2 3, 8, 120, 5, 0⟩ }
      m.kind = .atomic ∧ m.act.any (fun a => a.size == 8 && a.off + a.size == 128) = true
        ∧ (coherent [m] [] []).mem.poisoned line0 m.key = false) := by decide +kernel
/-- What the owner, core 7, is sent. -/
def sentTo (k : MsgKind) : Msg := { msgOf k with src := homeOf line0, dst := 7, again := some .gets }
theorem witness_DirectoryRows_owner : ∀ e ∈ [(sentTo .fwds, copyOf 7 .m), (sentTo .fwdm, copyOf 7 .o), (sentTo .inv, copyOf 7 .s)],
    (coherent [e.1] [e.2] []).mem.awaitsGrant 7 line0 = false ∧ (coherent [e.1] [e.2] []).mem.findCopy 7 line0 = some e.2
    ∧ e.2.tracked = true ∧ e.1.again = some .gets ∧ e.1.flag = false ∧ (coherent [e.1] [e.2] []).mem.behind 0 e.1 = false
    ∧ (coherent [e.1] [e.2] []).mem.putInFlight 7 line0 = false := by decide +kernel
/-- A GetS at a home that knows its line: shared by none, and owned. -/
theorem witness_DirectoryRows_entries : ∀ e ∈ [({ ownedBy 7 with cls := 0, owner := none, hst := .hs } : DirEntry), { ownedBy 7 with cls := 0 }],
    let s := coherent [msgOf .gets] [] [e]
    s.mem.dir = [e] ∧ e.base = line0 ∧ e.cls = 0 ∧ e.coarse = false ∧ e.ptrs = [] ∧ s.mem.txns = [] ∧ s.mem.queued = [] := by decide +kernel
theorem test_gets : [none, some 7].map (fun o => after (exec (.gets 0) (coherent [msgOf .gets] [] [{ ownedBy 7 with cls := 0, owner := o }]))
      fun t => (t.mem.msgs.map fun e => (e.2.kind, e.2.dst, e.2.st))) = [some [(.grant, 3, some .s)], some [(.fwds, 7, none)]] := by decide +kernel
/-- R183: a line that no entry covers is granted E. -/
theorem test_gets_fresh : after (exec (.gets 0) (coherent [msgOf .gets] [] []))
    (fun t => t.mem.msgs.map fun e => (e.2.kind, e.2.dst, e.2.st)) = some [(.grant, 3, some .e)]
    ∧ after (exec (.gets 0) (coherent [msgOf .gets] [] [])) (fun t => t.mem.dir.map fun e => (e.base, e.cls, e.owner))
    = some [(line0, 9, some 3)] := by decide +kernel
theorem witness_DirectoryRows_epoch : ∀ a ∈ [ownedBy 7], ∀ b ∈ [ownedBy 7], (coherent [] [] [ownedBy 7]).mem.mergeable a b = false := by decide +kernel
/-- The home's transaction for a GetS of core 3 that the owner, core 7, is to serve; and for a GetM that awaits one acknowledgement. -/
def txnOf (k : MsgKind) (acks : Nat) (owner : Option Nat) : Txn := ⟨.hf, msgOf k, acks, owner, false, none⟩
def busy (ms : List Msg) (x : Txn) : State := let s := coherent ms [] []; { s with mem := { s.mem with txns := [(line0, x)] } }
theorem witness_DirectoryRows_answers : (∀ k ∈ [MsgKind.fwddone, .nodata, .wbpending],
      (busy [{ msgOf k with src := 7 }] (txnOf .gets 0 (some 7))).mem.txns.find line0 = some (txnOf .gets 0 (some 7)))
    ∧ (txnOf .gets 0 (some 7)).req.line = line0 ∧ (txnOf .gets 0 (some 7)).req.req = (msgOf .nodata).req
    ∧ (busy [msgOf .ack] (txnOf .getm 1 none)).mem.txns.find line0 = some (txnOf .getm 1 none) ∧ (txnOf .getm 1 none).req.kind = .getm := by
  decide +kernel
theorem witness_DirectoryRows_grant : { msgOf .grant with st := some .e }.st = some .e ∧ (msgOf .grant).flag = false
    ∧ (msgOf .retry).again.getD .gets = .gets := by decide
def lineOwned : DirEntry := { ownedBy 3 with cls := 0 }
theorem witness_DirectoryRows_puts : ∀ e ∈ [(3, Moesi.m, MsgKind.putm), (3, .o, .puto), (3, .e, .pute), (400, .s, .puts)],
    let s := coherent [{ msgOf e.2.2 with src := e.1 }] [] [lineOwned]
    (s.mem.msgs.find? fun x => x.2.kind == e.2.2 && x.2.src == e.1 && x.2.line == line0).map (·.1) = some 0
    ∧ s.mem.txns.find line0 = none ∧ s.mem.dir = [lineOwned] ∧ lineOwned.base = line0 ∧ lineOwned.cls = 0 ∧ lineOwned.coarse = false
    ∧ s.mem.poisoned line0 0 = false ∧ lineOwned.owner = some 3
    ∧ (let u := coherent [] [copyOf e.1 e.2.1] []
      u.mem.findCopy e.1 line0 = some (copyOf e.1 e.2.1) ∧ (copyOf e.1 e.2.1).tracked = true ∧ e.2.1 = putState e.2.2
        ∧ (e.2.1 ≠ .s ∨ 384 ≤ e.1)) := by decide +kernel
theorem witness_DirectoryRows_silent : (coherent [] [copyOf 7 .s] []).mem.findCopy 7 line0 = some (copyOf 7 .s) ∧ putState .puts = .s := by decide +kernel
/-- A queued request of a line without a transaction, and of one with. -/
def queueing (x : AMap Txn) : State := { coherent [] [] [] with mem := { MemSys.zero with queued := [msgOf .gets], txns := x } }
theorem witness_DirectoryRows_queue : (queueing []).canStart (msgOf .gets) = true
    ∧ (queueing [(line0, txnOf .getm 1 none)]).canStart (msgOf .gets) = false
    ∧ (queueing []).mem.queued.find? (fun m => m.line == line0) = some (msgOf .gets) := by decide +kernel

/-! ### Witnesses: control space and the package -/

/-- A migration descriptor at 0x1000 of 4 KiB from 0x10000 to 0x20000; at 0x1040 one whose ranges overlap. -/
def migrating : State := words [(0x1000, 0x10000), (0x1008, 0x20000), (0x1010, 0x1000), (0x1040, 0x10000), (0x1048, 0x10000), (0x1050, 0x1000)] (lat [])
def moving (st : Nat) : State := migrating.modDie 0 fun d => { d with migration := some ⟨0x1000, 0x10000, 0x20000, 0x1000, 0, 0, false, 0, 0, 3, 0, st⟩ }
theorem witness_ControlStores_migration : (migrating.die 0).migration = none
    ∧ migrationBad (fun off => migrating.hwWord (0x1000 + off)) 0x1000 = false ∧ migrationBad (fun off => migrating.hwWord (0x1040 + off)) 0x1000 = true
    ∧ ((moving 0).die 0).migration.any (fun g => g.state == 0) = true ∧ ((moving 1).die 0).migration.any (fun g => g.state == 1
      && g.desc == fld (0x1000 : Word) 51 6 * 64) = true ∧ (moving 0).halted = false
    ∧ (moving 0).siltReady (128 * (0x10000 / 128 + 3)) = true ∧ (moving 0).siltReady (128 * (0x20000 / 128 + 3)) = true := by decide +kernel
/-- Unit 0 of stack 0 is eligible in the map at 0x1000, or compressed with two frames in the pool. -/
def silt (compressed : Bool) : State :=
  { words [(0x1000, 1)] (lat []) with
    stks := [(0, { Stack.zero with siltmap := 0x1000, cold := 5, poollen := 2, compressed := if compressed then [0] else [] })]
    dies := [(0, { Die.zero with cyc := 11000 })] }
theorem witness_ControlStores_silt : ((silt false).stk 0).compressed.contains 0 = false ∧ (silt false).siltEligible 0 0 = true
    ∧ (silt false).inViewset 0 0 = false ∧ (silt false).halted = false ∧ ((silt true).stk 0).compressed.contains 0 = true
    ∧ ((silt true).stk 0).expanded.length < fld ((silt true).stk 0).poollen 31 0 := by decide +kernel
/-- Lane 0 escalated to the frame at 0x2000; the tid of lane 1 in SIGTID. -/
def escalated : State :=
  let s := words [(0x2208, 0x80000000), (0x2268, 32)] (simtWith awayThread)
  { s with dies := [(0, { Die.zero with escalated := [(0x2000, 256)], sigtid := 1 })] }
theorem witness_ControlStores_threads : (escalated.die 0).escalated.find? (fun e => word e.1 == 0x2000) = some (0x2000, 256)
    ∧ bitAt (hdr (escalated.frameAt 0x2000) 0x208) 31 = true ∧ fld (hdr (escalated.frameAt 0x2000) 0x268) 6 0 = (escalated.thread 256).regcnt
    ∧ (escalated.crewAt 256).any (fun c => c.place == .resident) = true
    ∧ (escalated.threads.find? fun e => decide (256 ≤ e.1) && e.2.ids.tid == (escalated.die 0).sigtid && !e.2.st.away
        && e.2.st.pending.stays && (match escalated.crewAt e.1 with
          | some c => c.core / 48 == 0 && c.place == .resident
          | none => false)).map (·.1) = some 257 := by decide +kernel
theorem witness_ControlStores_busy : escalated.sigBusy 0 = false ∧ (escalated.modThread 257 fun t => { t with signals := [7] }).sigBusy 0 = true
    ∧ (escalated.die 0).regions = [] := by decide +kernel
theorem witness_ControlStores_registers : escalated.frameValid (fld (0x2000 : Word) 51 10 * 1024) = true
    ∧ escalated.frameValid (fld (0x3000 : Word) 51 10 * 1024) = false ∧ (escalated.hart 1).run = false
    ∧ bitAt (8 : Word) 3 = true ∧ bitAt (1 : Word) 3 = false
    ∧ isCounter (ctlPlace 0x10040) = true ∧ isCounter (ctlPlace 0x20000) = false ∧ ownRow (ctlPlace 0x20000) = false
    ∧ ctlPlace 0x20000 = some (.die 0, 0) ∧ ctlPlace 0x10030 = some (.pkg, 0x030) ∧ isCounter (ctlPlace 0x10030) = false
    ∧ ownRow (ctlPlace 0x10030) = false := by decide +kernel
def given (i : Input) : State := { State.reset with inputs := [i] }
def flit0 : Flit := ⟨1, 0, 0, 0, 0, 0⟩
/-- The checksum of the flit is right or wrong as the CRC function, which the spec does not give, has it: each case has a flit. -/
theorem witness_PackageRows : ((given (.flit 3 flit0)).port 3).up = true ∧ (given (.flit 3 flit0)).halted = false
    ∧ ((given (.flit 3 flit0)).port 3).retry = [] ∧ flit0.kind.toNat < 4 ∧ flit0.seq = ((given (.flit 3 flit0)).port 3).last + 1
    ∧ (given (.linkTimeout 3)).inputs = [.linkTimeout 3] ∧ (given (.portUp 3)).inputs = [.portUp 3] ∧ (given (.spdm 1)).inputs = [.spdm 1]
    ∧ (given (.temperature 2 96)).inputs = [.temperature 2 96] ∧ ((given (.temperature 2 96)).die 2).hot = false
    ∧ (given (.power 2 3000)).inputs = [.power 2 3000] ∧ (given (.activates 2 9)).inputs = [.activates 2 9] := by decide +kernel
theorem ne_succ (x : BitVec 128) : x ≠ x + 1 := by simp
theorem witness_PackageRows_flits : (∃ f : Flit, f.good = true ∧ f.kind.toNat < 4 ∧ f.seq = 1) ∧ ∃ f : Flit, f.good = false :=
  ⟨⟨{ flit0 with crc := Config.crc128 flit0.bytes }, beq_self_eq_true _, by decide, rfl⟩,
    { flit0 with crc := Config.crc128 flit0.bytes + 1 }, beq_eq_false_iff_ne.2 (ne_succ _)⟩
theorem witness_PackageRows_reset : (Config.firmwareAccepted = true ∨ Config.firmwareAccepted = false) ∧ State.reset.memWf = true :=
  ⟨by cases Config.firmwareAccepted <;> simp, by decide⟩
def commanded (cmd : Nat) (qsd : Bool) (len list : Word) : State :=
  { State.reset with pkg := { Pkg.zero with qbusy := true, qcmd := cmd, qsd := qsd, qlen := len, qlist := list } }
theorem witness_QuiesceCommands : { State.reset with pkg := { Pkg.zero with qsd := true } }.agenda = [] ∧ State.reset.cur.exists' = true
    ∧ (commanded 1 false 0 0).pkg.qcmd = 1 ∧ (commanded 1 false 0 0).drained = true
    ∧ ({ flying (.store [1]) with pkg := (commanded 1 false 0 0).pkg }).drained = false
    ∧ (commanded 2 false 0 0).pkg.qsd = false ∧ (commanded 2 true 0 1).pageListBad = true ∧ (commanded 2 true 0 0).pageListBad = false
    ∧ (commanded 3 true 0 0).crews = [] ∧ (commanded 3 true 0 0).gangs = [] ∧ (commanded 3 true 0 0).imageCheck ≠ 0
    ∧ ({ simt [0] with pkg := (commanded 3 true 0 0).pkg }).crews ≠ [] ∧ (commanded 4 true 0 0).pkg.qsd = true := by decide +kernel
/-- An image without sections at 0x10000: the header and its SHA-512 digest, computed outside. -/
def imaged : State :=
  let s := words [(0x10000, 0x10000015A5A4155), (0x10008, 0x5431385A5A59), (0x10010, 0x140), (0x10030, 0x100), (0x10038, 0x100),
    (0x10100, 0xDADBFBCF06F82BE),
    (0x10108, 0x1714C1E556F4DF50),
    (0x10110, 0xCD43FD1E3678E708),
    (0x10118, 0xDF0F3327E7B59909),
    (0x10120, 0x98BDA576DACF2AFB),
    (0x10128, 0x90C12612BD0CE89B),
    (0x10130, 0xA933056C5A8C520B),
    (0x10138, 0x469C05A673E40A90)] (commanded 3 true 0x140 0)
  { s with pkg := { s.pkg with qbuf := 0x10000 } }
theorem witness_QuiesceCommands_restore : imaged.pkg.qsd = true ∧ imaged.pkg.qcmd = 3 ∧ imaged.crews = [] ∧ imaged.gangs = []
    ∧ imaged.imageCheck = 0 := by decide +kernel
theorem length_flatMap_le {α β : Type} (f : α → List β) (n : Nat) (h : ∀ a, (f a).length ≤ n) (l : List α) :
    (l.flatMap f).length ≤ n * l.length := by
  induction l with
  | nil => simp
  | cons a l ih => simp only [List.flatMap_cons, List.length_append, List.length_cons]; have := h a; nlinarith
theorem length_shaBlocks (bs : List (List Byte)) (h : List Word) : (bs.foldl shaBlock h).length ≤ h.length := by
  induction bs generalizing h with
  | nil => simp
  | cons b bs ih => exact (ih _).trans (by simp [shaBlock])
theorem length_sha512 (bs : List Byte) : (sha512 bs).length ≤ 64 := by
  refine (length_flatMap_le bigBytes 8 (fun w => by simp [bigBytes, natBytes]) _).trans ?_
  exact Nat.mul_le_mul_left 8 (length_shaBlocks _ _)
/-- The signed bytes of an image. -/
def signedOf (s : State) : List Byte :=
  let l := layOut 4096 s.sections
  padBytes 4096 (s.imageHeader s.sections l.1.length) ++ l.1 ++ (s.sections.zip l.2).flatMap fun e => wordsBytes (sectionWords e.1 e.2)
theorem witness_QuiesceCommands_image : (commanded 2 true 0xFFFFFFFFFFFFFFFF 0).withoutFills.image.length ≤ (0xFFFFFFFFFFFFFFFF : Word).toNat
    ∧ (0 : Word).toNat < (commanded 2 true 0 0).withoutFills.image.length := by
  have hw : ∀ len, (commanded 2 true len 0).withoutFills = commanded 2 true len 0 := fun _ => rfl
  rw [hw, hw]
  constructor
  · have hs : (signedOf (commanded 2 true 0xFFFFFFFFFFFFFFFF 0)).length ≤ 100000 := by decide +kernel
    have h := length_sha512 (signedOf (commanded 2 true 0xFFFFFFFFFFFFFFFF 0))
    have hi : (commanded 2 true 0xFFFFFFFFFFFFFFFF 0).image = signedOf (commanded 2 true 0xFFFFFFFFFFFFFFFF 0)
      ++ sha512 (signedOf (commanded 2 true 0xFFFFFFFFFFFFFFFF 0))
      ++ (padBytes 132 (Config.sign (sha512 (signedOf (commanded 2 true 0xFFFFFFFFFFFFFFFF 0))))).take 132
      ++ natBytes 8 Config.deviceKeyId.toNat := rfl
    rw [hi]
    simp only [List.length_append, List.length_take, natBytes, List.length_map, List.length_range] at *
    have : (0xFFFFFFFFFFFFFFFF : Word).toNat = 18446744073709551615 := by decide
    omega
  · simp [State.image, natBytes]

/-! ### Worked examples of the manual -/

/-- The result in g1 and the flags of an instruction on hardware thread 0. -/
def gives (i : Instr) (rs : List (Nat × Word)) : Option (Word × BitVec 6) :=
  after (exec i (lat rs)) fun s => (s.readReg 0 1, (s.thread 0).fp.fflags)
/-- R365: `bfi gd, ga, gb, 8, 4` and `bfx gd, ga, 60, 4`; CLZ of 1. -/
theorem test_bfi : gives (.bfi on 1 2 3 8 3) [(2, 0x123456789ABCDEF0), (3, 0xFF)] = some (0x123456789ABCDFF0, 0) := by decide +kernel
theorem test_bfx : gives (.bfx on 1 2 60 3) [(2, 0x123456789ABCDEF0)] = some (1, 0) := by decide +kernel
theorem test_clz : gives (.clz on 1 2) [(2, 1)] = some (63, 0) := by decide +kernel
/-- R428: all ones times 2. -/
theorem test_mul : [gives (.mul on 1 2 3) [(2, 0xFFFFFFFFFFFFFFFF), (3, 2)], gives (.mulh on 1 2 3) [(2, 0xFFFFFFFFFFFFFFFF), (3, 2)],
    gives (.mulhu on 1 2 3) [(2, 0xFFFFFFFFFFFFFFFF), (3, 2)]] = [some (0xFFFFFFFFFFFFFFFE, 0), some (0xFFFFFFFFFFFFFFFF, 0), some (1, 0)] := by
  decide +kernel
/-- R421. -/
theorem test_min : [gives (.min on 1 2 3) [(2, 0xFFFFFFFFFFFFFFFF), (3, 1)], gives (.minu on 1 2 3) [(2, 0xFFFFFFFFFFFFFFFF), (3, 1)]]
    = [some (0xFFFFFFFFFFFFFFFF, 0), some (1, 0)] := by decide +kernel
/-- R445: −7 by 2; R100: a zero divisor sets IX, and −2^63 by −1 gives −2^63. -/
theorem test_rem : [gives (.rem on 1 2 3) [(2, 0xFFFFFFFFFFFFFFF9), (3, 2)], gives (.remu on 1 2 3) [(2, 0xFFFFFFFFFFFFFFF9), (3, 2)]]
    = [some (0xFFFFFFFFFFFFFFFF, 0), some (1, 0)] := by decide +kernel
theorem test_div : [gives (.div on 1 2 3) [(2, 0x8000000000000000), (3, 0xFFFFFFFFFFFFFFFF)], gives (.div on 1 2 3) [(2, 7)],
    gives (.rem on 1 2 3) [(2, 7)]] = [some (0x8000000000000000, 0), some (0, flagIX), some (7, flagIX)] := by decide +kernel
/-- R455: ZEXT and SEXT of 0xFFFF_FFFF_8000_0001; R459: shifts by 63 and by 64. -/
theorem test_extend : [gives (.zext on 1 2 31) [(2, 0xFFFFFFFF80000001)], gives (.sext on 1 2 7) [(2, 0xFFFFFFFF80000001)]]
    = [some (0x80000001, 0), some (1, 0)] := by decide +kernel
theorem test_shift : [gives (.sra on 1 2 3) [(2, 0x8000000000000000), (3, 63)], gives (.shr on 1 2 3) [(2, 0x8000000000000000), (3, 63)],
    gives (.shl on 1 2 3) [(2, 5), (3, 64)]] = [some (0xFFFFFFFFFFFFFFFF, 0), some (1, 0), some (5, 0)] := by decide +kernel
/-- "One rounding or two": (1 + 2^−12)² − 1. -/
theorem test_ffma : gives (.ffma on .s .rne 1 2 3 4) [(2, 0x3F800800), (3, 0x3F800800), (4, 0xBF800000)] = some (0x3A000400, 0) := by
  decide +kernel
theorem test_fmul : gives (.fmul on .s .rne 1 2 3) [(2, 0x3F800800), (3, 0x3F800800)] = some (0x3F801000, flagNX) := by decide +kernel
/-- R391's table: −∞ and −0. -/
theorem test_fclass : [gives (.fclass on .s 1 2) [(2, 0xFF800000)], gives (.fclass on .s 1 2) [(2, 0x80000000)]] = [some (1, 0), some (8, 0)] := by
  decide +kernel
/-- R393's table: −3.5 to a signed word. -/
theorem test_icvt : [gives (.icvt on false .s .s32 .rne 1 2) [(2, 0xC0600000)], gives (.icvt on false .s .s32 .rtz 1 2) [(2, 0xC0600000)]]
    = [some (0xFFFFFFFC, flagNX), some (0xFFFFFFFD, flagNX)] := by decide +kernel
/-- R434: 300.0 and −0.5 into lanes 2 and 3 of eight E4M3 lanes. -/
theorem test_pcvt : gives (.pcvt on .p8e4m3 .p2s .rne 1 1 2) [(1, 0x1111111111111111), (2, 0xBF00000043960000)]
    = some (0x11111111B0791111, flagNX) := by decide +kernel
/-- R436: 2^24 + 1 + 1. -/
theorem test_pdot : gives (.pdot on .p4h .rne 1 2 3 4) [(2, 0x3C003C00), (3, 0x3C003C00), (4, 0x4B800000)] = some (0x4B800001, 0) := by
  decide +kernel
/-- R367: 1.0 + 2^−24 stays 1.0. -/
theorem test_amo_fadd : atomicNew (.amoFadd on .plain .cw 1 2 3) 32 0x3F800000 0x33800000 0 = 0x3F800000 := by decide +kernel
/-- "Widths and extension", on host memory. -/
def hostWords : State := words [(2 ^ 48, 0x876543211234FF80)] (lat [(2, 2 ^ 48)])
theorem test_ld : [after (exec (.ld on .b false .plain .cw 1 2 0) hostWords) (fun s => s.readReg 0 1),
    after (exec (.ld on .b true .plain .cw 1 2 0) hostWords) (fun s => s.readReg 0 1),
    after (exec (.ld on .h false .plain .cw 1 2 0) hostWords) (fun s => s.readReg 0 1)]
    = [some 0x80, some 0xFFFFFFFFFFFFFF80, some 0xFF80] := by decide +kernel
theorem test_ld_word : [after (exec (.ld on .w true .plain .cw 1 2 0) hostWords) (fun s => s.readReg 0 1),
    after (exec (.ld on .w true .plain .cw 1 2 4) hostWords) (fun s => s.readReg 0 1)] = [some 0x1234FF80, some 0xFFFFFFFF87654321] := by
  decide +kernel
/-- "Two partition words". -/
theorem test_partition_words : partitionWord 32 1 32 false = some 0x40406020 ∧ partitionWord 16 1 32 true = some 0x10020203020 := by decide +kernel
/-- "One element in three views": row 70, column 100 of 512 rows of 4 KiB at 2^34. -/
theorem test_views : viewByte 1 0x400000000 4096 512 2 0x1908C = some (some 0x4000460C8)
    ∧ viewByte 2 0x400000000 4096 512 2 0x41988 = some (some 0x4000460C8) := by decide +kernel
/-- "One BF16 block": the register, and the accumulator from 1.0. -/
def block0 : Block := blockOf false ([(0x4040, 0x4020), (0xBFA0, 0x3F00), (0x2B80, 0x3F40), (0xA680, 0x3F80)].map fun e =>
  exactMul ((fmtOf .bf).decode e.1) ((fmtOf .bf).decode e.2))
theorem test_block : block0 = .sum (-46) 0x1B8000000002F ∧ accAdd 0x3F800000 (block0.value 0) = 0x40FC0000 := by decide +kernel
/-- "A walk to a 32 MiB page". -/
def walking : State := words [(0x100050, 0x200001), (0x2048D0, 0x302001), (0x302340, 0x742000B19), (0x302348, 0x0C002400)] (lat [])
theorem test_walk : (walking.walkFrom 0x512346879ABC 4 0 0x100000).1 = .leaf 0x302340 2 0x742000B19 0x0C002400 := by decide +kernel
theorem test_walk_page : (match walking.resolve ⟨0, { Ctx.zero with pgroot := 0x100000, loamva := 0x40000000000 }, false, false, 0, 0⟩ 0x512346879ABC .load with
    | (s, .page p) => p.pa == 0x742879ABC && p.key == 3 && p.fmt == 1 && p.trk && s.peekWord 0x302340 == 0x742000B59
    | _ => false) = true := by decide +kernel

end Sys2Proof.Tests
end

section
/-!
PROOFS. Rows of the package as a whole: release of reset, Herpin ports, attestation, temperature and power.
-/
namespace Sys2Proof.Machine

/-! ### Tables whose entries are filtered or changed in place -/

/-- A filter that looks at the numbers alone keeps or drops each number as a whole. -/
theorem AMap.find_filter_key {β : Type} (m : AMap β) (p : Nat → Bool) (k : Nat) :
    AMap.find (m.filter fun e => p e.1) k = if p k then m.find k else none := by
  induction m with
  | nil => simp
  | cons e m ih =>
    by_cases hk : e.1 = k
    · subst hk
      by_cases hp : p e.1 <;> simp [AMap.find_cons, hp, ih]
    · by_cases hp : p e.1 <;> simp [AMap.find_cons, hp, hk, ih]

/-- A change of the values that leaves the numbers is a change of what each number holds. -/
theorem AMap.find_map_key {β : Type} (m : AMap β) (g : Nat × β → Nat × β) (hg : ∀ e, (g e).1 = e.1) (k : Nat) :
    AMap.find (m.map g) k = (m.find k).map fun v => (g (k, v)).2 := by
  induction m with
  | nil => rfl
  | cons e m ih =>
    rw [List.map_cons, AMap.find_cons, AMap.find_cons, hg, ih]
    split
    · next h => subst h; rfl
    · rfl

/-! ### Package events -/

/-- An edge interrupt reaches the hardware threads and nothing else. -/
theorem State.edgeAll_eq (s : State) (bit : Nat) : ∃ hs, s.edgeAll bit = { s with harts := hs } := by
  unfold State.edgeAll
  generalize List.range Config.harts = l
  induction l generalizing s with
  | nil => exact ⟨s.harts, rfl⟩
  | cons n l ih => exact ih (s.modHart n _)

/-- A package event sets its bit and reaches the hardware threads, and nothing else. -/
theorem State.pkgEvent_eq (s : State) (bit : Nat) : ∃ hs, s.pkgEvent bit
    = { s with pkg := { s.pkg with pkgevt := s.pkg.pkgevt ||| (1#3 <<< bit) }, harts := hs } :=
  State.edgeAll_eq _ 6

@[simp] theorem State.pkgEvent_pkgevt (s : State) (bit : Nat) :
    (s.pkgEvent bit).pkg.pkgevt = s.pkg.pkgevt ||| (1#3 <<< bit) := by
  obtain ⟨_, h⟩ := s.pkgEvent_eq bit; rw [h]

@[simp] theorem State.pkgEvent_mem (s : State) (bit : Nat) : (s.pkgEvent bit).mem = s.mem := by
  obtain ⟨_, h⟩ := s.pkgEvent_eq bit; rw [h]

@[simp] theorem State.pkgEvent_get_port (s : State) (bit n : Nat) : (s.pkgEvent bit).port n = s.port n := by
  obtain ⟨_, h⟩ := s.pkgEvent_eq bit; rw [h]; rfl

@[simp] theorem State.pkgEvent_get_die (s : State) (bit d : Nat) : (s.pkgEvent bit).die d = s.die d := by
  obtain ⟨_, h⟩ := s.pkgEvent_eq bit; rw [h]; rfl

@[simp] theorem State.pkgEvent_get_core (s : State) (bit n : Nat) : (s.pkgEvent bit).core n = s.core n := by
  obtain ⟨_, h⟩ := s.pkgEvent_eq bit; rw [h]; rfl

/-- The bit of the event stands after it. -/
theorem State.pkgEvent_bit (s : State) {bit : Nat} (h : bit < 3) : (s.pkgEvent bit).pkg.pkgevt.getLsbD bit = true := by
  simp [h]

/-! ### Release of reset -/

theorem exec_resetRelease_accepted (s : State) (h : Config.firmwareAccepted = true) :
    exec .resetRelease s = .next { State.reset with
      mem := { MemSys.zero with bytes := outside s.mem.bytes, lost := s.mem.lost },
      inputs := s.inputs, outputs := s.outputs, agenda := s.agenda, free := s.free } :=
  congrArg Host.Outcome.next (if_pos h)

theorem exec_resetRelease_refused (s : State) (h : Config.firmwareAccepted = false) :
    exec .resetRelease s = .next { s with
      pkg := { s.pkg with inReset := true }, outputs := s.outputs ++ [.bootFailure Config.bootReport] } :=
  congrArg Host.Outcome.next (if_neg (by simp [h]))

/-- The stacks read zero after a release, and what lies above them reads as before (R151, R301). -/
theorem byte_outside (m : Memory) (a : Nat) : (outside m).byte a = if Config.hostBase ≤ a then m.byte a else 0 := by
  unfold Memory.byte AMap.get outside
  rw [AMap.find_filter_key m (fun k => decide (Config.hostBase ≤ k))]
  by_cases h : Config.hostBase ≤ a <;> simp [h]

/-! ### Flits -/

@[simp] theorem State.setLink_get_self (s : State) (l : Link) (p : Port) : (s.setLink l p).link l = p := by
  cases l with
  | herpin n => exact State.setPort_get_self s n p
  | ucie d => exact AMap.get_set_self _ _ _ _

@[simp] theorem State.setLink_setLink (s : State) (l : Link) (p q : Port) : (s.setLink l p).setLink l q = s.setLink l q := by
  cases l <;> simp [State.setLink, State.setPort]

@[simp] theorem Port.acked_last (p : Port) (a : BitVec 16) : (p.acked a).last = p.last := by
  unfold Port.acked; split <;> rfl

@[simp] theorem Port.acked_delivered (p : Port) (a : BitVec 16) : (p.acked a).delivered = p.delivered := by
  unfold Port.acked; split <;> rfl

/-- A sound flit with the next number is delivered (R332). -/
theorem State.receive_next (s : State) (l : Link) (f : Flit) (hg : f.good = true) (hk : f.kind.toNat < 4)
    (hseq : f.seq = (s.link l).last + 1) :
    s.receive l f = s.setLink l
      { (s.link l).acked f.ack with last := f.seq, delivered := (s.link l).delivered ++ [f] } := by
  have h4 : f.kind ≠ 4 := fun h => by rw [h] at hk; exact absurd hk (by decide)
  simp only [State.receive, hg, h4, hk, hseq, Bool.not_true, Bool.false_eq_true, if_true, if_false,
    State.setLink_get_self, State.setLink_setLink, Port.acked_last, Port.acked_delivered]

/-- A damaged flit is asked for again, and nothing in it counts (R332). -/
theorem State.receive_damaged (s : State) (l : Link) (f : Flit) (hg : f.good = false) : s.receive l f = s.askRetry l := by
  simp [State.receive, hg]

@[simp] theorem State.askRetry_mem (s : State) (l : Link) : (s.askRetry l).mem = s.mem := State.setLink_mem _ _ _

/-- A retry request changes the port in its count alone. -/
theorem State.askRetry_get_self (s : State) (l : Link) :
    (s.askRetry l).link l = { s.link l with retryReqs := (s.link l).retryReqs + 1 } := by
  cases l <;> exact AMap.get_set_self _ _ _ _

/-- A flit that comes over a Herpin port which is up, to a package that is not quiesced, is in front of the receiver. -/
theorem exec_herpinFlit (s : State) {n : Nat} {f : Flit} {rest : List Input} (hn : n < 32)
    (hup : (s.port n).up = true) (hh : s.halted = false) (hin : s.inputs = .flit n f :: rest) :
    exec .herpinFlit s = .next ({ s with inputs := rest }.receive (.herpin n) f) := by
  have hup' : ({ s with inputs := rest }.link (.herpin n)).up = true := hup
  have hh' : { s with inputs := rest }.halted = false := hh
  have hn' : n < Config.herpinPorts := hn
  change execHerpinFlit s = _
  simp [execHerpinFlit, hin, hn', State.arriveFlit, hup', hh']

/-! ### Ports that go down and come up -/

theorem satInc48_eq_min (n : Nat) : satInc48 n = min (n + 1) (2 ^ 48 - 1) := by
  unfold satInc48; split <;> omega

@[simp] theorem State.lose_pkg (s : State) : s.lose.pkg = s.pkg := rfl
@[simp] theorem State.lose_bytes (s : State) : s.lose.mem.bytes = s.mem.bytes := rfl
@[simp] theorem State.lose_get_port (s : State) (n : Nat) : s.lose.port n = s.port n := rfl

/-- A port that was up goes down, is counted and raises the package event (R332). -/
theorem State.portDown_of_up (s : State) (n : Nat) (h : (s.port n).up = true) :
    s.portDown n = (s.setPort n { s.port n with
      up := false, fails := 0, downcnt := min ((s.port n).downcnt + 1) (2 ^ 48 - 1) }).lose.pkgEvent 2 := by
  simp only [State.portDown, h, satInc48_eq_min]
  rfl

theorem State.portDown_get_self (s : State) (n : Nat) (h : (s.port n).up = true) :
    (s.portDown n).port n = { s.port n with
      up := false, fails := 0, downcnt := min ((s.port n).downcnt + 1) (2 ^ 48 - 1) } := by
  rw [s.portDown_of_up n h, State.pkgEvent_get_port, State.lose_get_port, State.setPort_get_self]

theorem State.portDown_bytes (s : State) (n : Nat) (h : (s.port n).up = true) :
    (s.portDown n).mem.bytes = s.mem.bytes := by
  rw [s.portDown_of_up n h, State.pkgEvent_mem, State.lose_bytes, State.setPort_mem]

theorem State.portDown_event (s : State) (n : Nat) (h : (s.port n).up = true) :
    (s.portDown n).pkg.pkgevt.getLsbD 2 = true := by
  rw [s.portDown_of_up n h, State.pkgEvent_bit _ (by decide)]

theorem exec_linkTimeout (s : State) {n : Nat} {rest : List Input} (hn : n < 32)
    (hin : s.inputs = .linkTimeout n :: rest) :
    exec .linkTimeout s = .next ({ s with inputs := rest }.portDown n).lose := by
  have hn' : n < Config.herpinPorts := hn
  change execLinkTimeout s = _
  simp [execLinkTimeout, hin, hn']

theorem exec_herpinPortUp (s : State) {n : Nat} {rest : List Input} (hn : n < 32)
    (hin : s.inputs = .portUp n :: rest) :
    exec .herpinPortUp s = .next
      ({ s with inputs := (lostOf rest).2, mem := { s.mem with lost := (lostOf rest).1 } }.setPort n
        { s.port n with up := true, fails := 0 }) := by
  have hn' : n < Config.herpinPorts := hn
  change execHerpinPortUp s = _
  simp only [execHerpinPortUp, hin, hn', if_true]
  rfl

/-! ### Attestation, temperature, power -/

theorem exec_spdmRequest (s : State) {n : Nat} {rest : List Input} (hin : s.inputs = .spdm n :: rest) :
    exec .spdmRequest s = .next { s with
      inputs := rest, outputs := s.outputs ++ [.spdm (Config.spdmAnswer n s.pkg.measured Config.deviceKeyId)] } := by
  change execSpdmRequest s = _
  simp only [execSpdmRequest, hin]

/-- What a temperature report does to a die of the part: above 95 °C, below 90 °C, and between (R109). -/
theorem exec_temperatureLimit (s : State) {d c : Nat} {rest : List Input} (hd : d < 8)
    (hin : s.inputs = .temperature d c :: rest) :
    exec .temperatureLimit s = .next (
      let s1 := { s with inputs := rest }
      if 95 < c ∧ (s.die d).hot = false then ((s1.modDie d fun x => { x with hot := true }).railsToF0 d).pkgEvent 1
      else if c < 90 then s1.modDie d fun x => { x with hot := false }
      else s1) := by
  have hd' : ¬Config.simtDies ≤ d := Nat.not_le.2 hd
  change execTemperatureLimit s = _
  simp only [execTemperatureLimit, hin, hd', if_false]
  rfl

@[simp] theorem State.railsToF0_get_die (s : State) (d j : Nat) : (s.railsToF0 d).die j = s.die j := rfl

/-- The rails of every core of the die stand at F0, of a core that no table lists too (R109). -/
theorem State.railsToF0_railLevel (s : State) {d n : Nat} (h : n / Config.coresPerDie = d) :
    ((s.railsToF0 d).core n).engines.railLevel = 0 := by
  unfold State.core AMap.get State.railsToF0
  rw [AMap.find_map_key _ _ (fun e => by split <;> rfl)]
  cases s.cores.find n with
  | none => rfl
  | some c => simp [h]

theorem exec_powerThrottle_power (s : State) {d n : Nat} {rest : List Input} (hd : d < 8)
    (hin : s.inputs = .power d n :: rest) :
    exec .powerThrottle s = .next ({ s with inputs := rest }.modDie d fun x => { x with mhz := min n 3300 }) := by
  have hd' : d < Config.simtDies := hd
  change execPowerThrottle s = _
  simp only [execPowerThrottle, hin, hd', if_true]

theorem exec_powerThrottle_activates (s : State) {d n : Nat} {rest : List Input} (hd : d < 16)
    (hin : s.inputs = .activates d n :: rest) :
    exec .powerThrottle s = .next
      ({ s with inputs := rest }.setStk d { s.stk d with actlim := BitVec.ofNat 64 (n % 65536) }) := by
  have hd' : d < Config.hbmStacks := hd
  change execPowerThrottle s = _
  simp only [execPowerThrottle, hin, hd', if_true]
  rfl

/-! ### The statement -/

/-- Settles O59: each row is the equation of its `exec_` lemma, read off part by part. The registers that a release leaves
at zero are log 3's, the boot verdict and the SPDM answer are opaque (log 11), and what the power budget leaves is an input
(log 37). -/
theorem packageRows : Obligations.PackageRows := by
  unfold Obligations.PackageRows
  refine ⟨fun s => ⟨fun hok => ?accepted, exec_resetRelease_refused s⟩,
    fun s n f rest hn hup hh hin _ => ⟨fun hg hk hseq => ?delivered, fun hg => ?damaged⟩,
    fun s n rest hn => ⟨fun hin hup => ?down, fun hin => ?up⟩,
    fun s n rest => exec_spdmRequest s,
    fun s d c rest hd hin => ⟨fun hc hhot => ?hot, fun hc => ?cool, fun hlow hhigh => ?between⟩,
    fun s d n rest => ⟨fun hd hin => ?clock, fun hd hin => ?activates⟩⟩
  case accepted =>
    refine ⟨_, exec_resetRelease_accepted s hok, rfl, rfl, rfl, rfl, fun a ha => ?_, fun _ a ha => ?_⟩
    · exact (byte_outside _ a).trans (if_neg (Nat.not_le.2 ha))
    · exact (byte_outside _ a).trans (if_pos ha)
  case delivered =>
    refine ⟨_, exec_herpinFlit s hn hup hh hin, ?_⟩
    rw [State.receive_next { s with inputs := rest } (.herpin n) f hg hk hseq]
    have hport := State.setLink_get_self { s with inputs := rest } (.herpin n)
    exact ⟨congrArg Port.last (hport _), congrArg Port.delivered (hport _), State.setLink_mem _ _ _, State.setLink_inputs _ _ _⟩
  case damaged =>
    refine ⟨_, exec_herpinFlit s hn hup hh hin, ?_⟩
    rw [State.receive_damaged _ _ f hg]
    have hport := State.askRetry_get_self { s with inputs := rest } (.herpin n)
    exact ⟨(congrArg Port.last hport).trans rfl, (congrArg Port.delivered hport).trans rfl, rfl, State.askRetry_mem _ _⟩
  case down =>
    refine ⟨_, exec_linkTimeout s hn hin, ?_⟩
    have hport := State.portDown_get_self { s with inputs := rest } n hup
    exact ⟨congrArg Port.up hport, congrArg Port.downcnt hport, State.portDown_event { s with inputs := rest } n hup,
      State.portDown_bytes { s with inputs := rest } n hup⟩
  case up =>
    exact ⟨_, exec_herpinPortUp s hn hin, by simp, by simp⟩
  case hot =>
    refine ⟨_, (exec_temperatureLimit s hd hin).trans (congrArg _ (if_pos ⟨hc, hhot⟩)), by simp,
      State.pkgEvent_bit _ (by decide), fun m hm => ?_⟩
    rw [State.pkgEvent_get_core]
    exact State.railsToF0_railLevel _ hm
  case cool =>
    have hno : ¬(95 < c ∧ (s.die d).hot = false) := fun h => by omega
    exact ⟨_, (exec_temperatureLimit s hd hin).trans (congrArg _ ((if_neg hno).trans (if_pos hc))), by simp⟩
  case between =>
    have hno : ¬(95 < c ∧ (s.die d).hot = false) := fun h => by omega
    exact (exec_temperatureLimit s hd hin).trans (congrArg _ ((if_neg hno).trans (if_neg (Nat.not_lt.2 hlow))))
  case clock => exact ⟨_, exec_powerThrottle_power s hd hin, by simp, rfl⟩
  case activates => exact ⟨_, exec_powerThrottle_activates s hd hin, by simp, rfl⟩

end Sys2Proof.Machine
end

section
/-!
PROOFS. Waiting and yielding, joins, and migrations on the wrong side.
-/
namespace Sys2Proof.Machine

variable {s : State} {k : Nat} {g : Guard}

/-! ### A trap that a lone thread raises, past a service call or not -/

/-- A trap at the instruction of the one thread that issues, taken or held in W as its speculation has it. -/
theorem perThread_raise {i : Instr} {kind : Kind} {sp : SpecRule} {regs : List Nat} {body : Nat → State → Res}
    (h : s.executes k g kind sp regs) {c sub : Nat} {v : Word} {after : Bool} (hb : body k s = .trap c sub v after) :
    perThread s i g regs kind sp body
      = .next (s.raise k c sub v (if after then nextPc (s.thread k).pc else (s.thread k).pc)) := by
  rw [issue_one h _ hb (by simp)]
  simp [State.applyRes, State.splitBundle_nil]

/-! ### Migrations on the wrong side -/

/-- Settles O46: either form writes the status and goes on. -/
theorem wrongSideMigrate : Obligations.WrongSideMigrate := by
  intro s k g d a
  refine ⟨fun hl h ha => perThread_next h ?_, fun hl h _ => perThread_next h ?_⟩
  · simp only [if_neg ha]
    simp [hl]
  · simp [hl]

/-! ### Yielding, back-off, waiting for counters -/

/-- BKOFF of the one thread that issues (R61, R369). -/
theorem exec_bkoff_held (h1 : s.issuing = [k]) (hg : (s.thread k).guard g = true) :
    exec (.bkoff g) s = .next ((s.modThread k fun t =>
      { t with pc := nextPc t.pc, issued := t.issued + 1, st := { t.st with level := min (t.st.level + 1) 6, held := true } }
      ).leaveBundle k) := by
  show execBkoff g s = _
  simp [execBkoff, h1, runThreads, hg, State.applyRes, State.splitBundle_nil, Thread.goTo]

theorem exec_bkoff_cleared (h1 : s.issuing = [k]) (hg : (s.thread k).guard g = false) :
    exec (.bkoff g) s = .next ((s.modThread k fun t => { t with st := { t.st with level := 0 } }).goTo k
      (nextPc (s.thread k).pc)) := by
  show execBkoff g s = _
  simp [execBkoff, h1, runThreads, hg, State.applyRes, State.splitBundle_one]

theorem Counters.within_iff (c : Counters) (ld st cp tile : Nat) :
    c.within ld st cp tile = true ↔ c.ld ≤ ld ∧ c.st ≤ st ∧ c.cp ≤ cp ∧ c.tile ≤ tile := by
  simp [Counters.within, and_assoc]

/-- Settles O36: each instruction by the rule for a thread that issues alone, each expiry by its guard. -/
theorem waiting : Obligations.Waiting := by
  intro s k g
  refine ⟨fun h => ⟨perThread_next h rfl, perThread_next h rfl⟩, exec_bkoff_held, exec_bkoff_cleared,
    fun hh => congrArg _ (if_pos hh), fun hl => congrArg _ (if_pos hl), fun ld st cp tile h hdue => ?_⟩
  have hdue' : ((s.modThread k Thread.retrying).thread k).dueFailure = none := by
    rw [State.modThread_get_self]; exact hdue
  have hoc : ((s.modThread k Thread.retrying).thread k).oc = (s.thread k).oc := by
    rw [State.modThread_get_self]; rfl
  constructor
  · intro hw
    refine perThread_next h ?_
    simp only [hdue', hoc, (Counters.within_iff ..).2 hw, if_true]
  · intro hw
    refine perThread_hold h ?_
    simp only [hdue', hoc, mt (Counters.within_iff ..).1 hw, if_false, Bool.false_eq_true]

/-! ### Joins -/

section join
variable {i : Instr} {body : Nat → State → Res} {s' : State}

theorem crewsOf_one (hk : isLat k = false) : crewsOf [k] = [crewOf k] := by simp [crewsOf, hk]

/-- A JOIN of the one thread that issues: its part, then the release condition of its crew. -/
theorem joinInstr_one (h : s.executes k g simtOnly .holds []) {t : State}
    (hp : perThread s i g [] simtOnly .holds body = .next t) : joinInstr s i g body = .next (t.evalJoins (crewOf k)) := by
  have ht : s.issue i g [] simtOnly .holds body = t := by simpa [perThread] using hp
  simp [joinInstr, h.1, crewsOf_one h.onSimt, ht]

end join

/-- Settles O38: each form by the rule for a JOIN that issues alone. -/
theorem joins : Obligations.Joins := by
  intro s k g n h
  refine ⟨joinInstr_one h (perThread_next h rfl), fun he => joinInstr_one h (perThread_hold h ?_),
    fun he => joinInstr_one h (perThread_raise h (after := false) ?_), joinInstr_one h (perThread_next h rfl),
    fun hw => joinInstr_one h (perThread_next h ?_), fun hw => joinInstr_one h (perThread_raise h (after := false) ?_)⟩
  · simp [he, laneBit]
  · simp [he]
  · simp [hw]
  · simp [hw]

end Sys2Proof.Machine
end

section
/-!
PROOFS. The release of a join register, and the gang barrier.
-/
namespace Sys2Proof.Machine

/-! ### One change made to each of some threads -/

/-- The same change to each of some threads touches the threads alone. -/
theorem State.foldl_modThread_eq (f : Thread → Thread) (ks : List Nat) (s : State) :
    ∃ ts, ks.foldl (fun s k => s.modThread k f) s = { s with threads := ts } := by
  induction ks generalizing s with
  | nil => exact ⟨s.threads, rfl⟩
  | cons k ks ih => exact ih (s.modThread k f)

theorem State.foldl_modThread_get_of_notMem (f : Thread → Thread) {ks : List Nat} {j : Nat} (hj : j ∉ ks) (s : State) :
    (ks.foldl (fun s k => s.modThread k f) s).thread j = s.thread j := by
  induction ks generalizing s with
  | nil => rfl
  | cons k ks ih =>
    rw [List.foldl_cons, ih (List.not_mem_of_not_mem_cons hj), State.modThread_get_ne _ _ _ (List.ne_of_not_mem_cons hj)]

/-- Each thread named once is changed once. -/
theorem State.foldl_modThread_get (f : Thread → Thread) {ks : List Nat} (hn : ks.Nodup) {j : Nat} (hj : j ∈ ks) (s : State) :
    (ks.foldl (fun s k => s.modThread k f) s).thread j = f (s.thread j) := by
  induction ks generalizing s with
  | nil => cases hj
  | cons k ks ih =>
    obtain ⟨hk, hn⟩ := List.nodup_cons.1 hn
    rw [List.foldl_cons]
    by_cases e : j = k
    · subst e
      rw [State.foldl_modThread_get_of_notMem f hk, State.modThread_get_self]
    · rw [ih hn ((List.mem_cons.1 hj).resolve_left e), State.modThread_get_ne _ _ _ e]

/-- What the change brings about for any thread holds of every thread named, however often. -/
theorem State.foldl_modThread_mem {f : Thread → Thread} {P : Thread → Prop} (hf : ∀ t, P (f t)) {ks : List Nat} {j : Nat}
    (hj : j ∈ ks) (s : State) : P ((ks.foldl (fun s k => s.modThread k f) s).thread j) := by
  induction ks generalizing s with
  | nil => cases hj
  | cons k ks ih =>
    rw [List.foldl_cons]
    by_cases hks : j ∈ ks
    · exact ih hks _
    · obtain rfl := (List.mem_cons.1 hj).resolve_right hks
      rw [State.foldl_modThread_get_of_notMem f hks, State.modThread_get_self]
      exact hf _

/-- Threads that become ready leave everything else. -/
theorem State.foldl_unpark_eq (ks : List Nat) (s : State) : ∃ ts, ks.foldl State.unpark s = { s with threads := ts } :=
  State.foldl_modThread_eq Thread.unparked ks s

/-! ### The lanes of a crew -/

theorem laneKey_injective (c : Nat) : Function.Injective (laneKey c) := fun _ _ h => Nat.add_left_cancel h

theorem State.laneKeys_nodup (s : State) (c : Nat) : (s.laneKeys c).Nodup :=
  ((List.nodup_range (n := 32)).map (laneKey_injective c)).filter _

theorem State.mem_laneKeys {s : State} {c k : Nat} :
    k ∈ s.laneKeys c ↔ (∃ l < 32, laneKey c l = k) ∧ (s.threads.find k).isSome = true := by
  simp [State.laneKeys]

theorem State.mem_waiters {s : State} {c k : Nat} {n : BitVec 3} :
    k ∈ s.waiters c n ↔ k ∈ s.laneKeys c ∧ (s.thread k).st.park = .join n := by
  simp [State.waiters]

/-! ### Join registers -/

theorem Join.released_iff (j : Join) : j.released = true ↔ j.e ≠ 0 ∧ j.v = j.e := by
  simp [Join.released]

@[simp] theorem Crew.join_setJoin_self (c : Crew) (n : BitVec 3) (j : Join) : (c.setJoin n j).join n = j := by
  simp [Crew.setJoin, Crew.join]

theorem Crew.join_setJoin_ne (c : Crew) {n m : BitVec 3} (h : m ≠ n) (j : Join) : (c.setJoin n j).join m = c.join m := by
  have : n.toNat ≠ m.toNat := fun e => h (BitVec.eq_of_toNat_eq e).symm
  simp [Crew.setJoin, Crew.join, this]

section evalJoin
variable {s : State} {c : Nat} {cr : Crew} {n : BitVec 3}

theorem State.evalJoin_unreleased (hc : s.crews.find c = some cr) (h : (cr.join n).released = false) : s.evalJoin c n = s := by
  simp [State.evalJoin, hc, h]

theorem State.evalJoin_released (hc : s.crews.find c = some cr) (ho : cr.place.onCore = true)
    (h : (cr.join n).released = true) :
    s.evalJoin c n = ((s.waiters c n).foldl State.unpark s).modCrew c fun cr => cr.setJoin n { cr.join n with v := 0 } := by
  simp [State.evalJoin, hc, h, ho]

end evalJoin

/-- Settles O39: a register whose condition holds unparks its waiters, each once, and clears V. -/
theorem joinRelease : Obligations.JoinRelease := by
  rintro s t c cr n hc ho rfl
  refine ⟨fun h => State.evalJoin_unreleased hc (Bool.eq_false_iff.2 (mt (Join.released_iff _).1 h)), fun he hv => ?_⟩
  rw [State.evalJoin_released hc ho ((Join.released_iff _).2 ⟨he, hv⟩)]
  refine ⟨⟨cr.setJoin n { cr.join n with v := 0 }, ?crew, by simp, by simp, fun m hm => Crew.join_setJoin_ne _ hm _⟩,
    fun l hl hp hw => ?waiter, fun k hk => ?other⟩
  case crew =>
    obtain ⟨ts, hts⟩ := State.foldl_unpark_eq (s.waiters c n) s
    rw [hts, State.modCrew_find, if_pos rfl, hc]
    rfl
  case waiter =>
    have hmem : laneKey c l ∈ s.waiters c n := State.mem_waiters.2 ⟨State.mem_laneKeys.2 ⟨⟨l, hl, rfl⟩, hp⟩, hw⟩
    have hget := State.foldl_modThread_get Thread.unparked ((s.laneKeys_nodup c).filter _) hmem s
    exact ⟨(congrArg (·.st.park) hget).trans rfl, (congrArg (·.pc) hget).trans rfl⟩
  case other =>
    exact State.foldl_modThread_get_of_notMem _ (fun h => hk (State.mem_waiters.1 h).2) s

/-! ### The gang barrier -/

section barrier
variable {s : State} {k : Nat} {g : Guard}

/-- GBAR of the one thread that issues: its part, then the barrier of its gang. -/
theorem exec_gbar_one {t : State} (h1 : s.issuing = [k])
    (hp : perThread s (.gbar g) g [] simtOnly .holds (fun k s =>
      let ix := (s.thread k).ids.gang.toNat
      let arrive := fun (x : Gang) => { x with arrived := if x.arrived.contains ix then x.arrived else ix :: x.arrived }
      .go ((s.modGang (s.thread k).ids.seq arrive).parkThread k .gbar (.gbar g)) .hold) = .next t) :
    exec (.gbar g) s = .next (t.gbarCheck (s.thread k).ids.seq) := by
  obtain rfl := Host.Outcome.next.inj hp
  show execGbar g s = _
  simp [execGbar, h1]

theorem State.gbarCheck_complete {seq : Nat} {x : Gang} (hx : s.gangs.find seq = some x) (h : x.arrived ≠ [])
    (hl : x.arrived.length = x.live) :
    s.gbarCheck seq = s.modGang seq fun g => { g with arrived := [], closing := g.cores } := by
  have hpos : 0 < x.live := hl ▸ List.length_pos_iff.2 h
  simp [State.gbarCheck, hx, hl, hpos]

theorem State.gbarCheck_incomplete {seq : Nat} {x : Gang} (hx : s.gangs.find seq = some x) (hl : x.arrived.length ≠ x.live) :
    s.gbarCheck seq = s := by
  simp [State.gbarCheck, hx, hl]

theorem AMap.mem_of_find {β : Type} {m : AMap β} {k : Nat} {v : β} (h : m.find k = some v) : (k, v) ∈ m := by
  induction m with
  | nil => cases h
  | cons e m ih =>
    rw [AMap.find_cons] at h
    split at h
    · next he => cases h; subst he; exact List.mem_cons_self
    · exact List.mem_cons_of_mem _ (ih h)

/-- No crew stands in a frame of the save area. -/
def State.noneSaved (s : State) : Prop := ∀ e ∈ s.crews, ∀ f, e.2.place ≠ .saved f

theorem State.patchSaved_eq (h : s.noneSaved) (k : Nat) : s.patchSaved k = s := by
  unfold State.patchSaved
  split
  · next cr hcr =>
    have hmem : (crewOf k, cr) ∈ s.crews := by
      unfold State.crewAt at hcr
      split at hcr
      · cases hcr
      · exact AMap.mem_of_find hcr
    split
    · next f hf => exact absurd hf (h _ hmem f)
    · rfl
  · rfl

theorem State.foldl_unpark_patchSaved (ks : List Nat) (h : s.noneSaved) :
    ks.foldl (fun s k => (s.unpark k).patchSaved k) s = ks.foldl State.unpark s := by
  induction ks generalizing s with
  | nil => rfl
  | cons k ks ih =>
    have hu : (s.unpark k).noneSaved := h
    rw [List.foldl_cons, List.foldl_cons, State.patchSaved_eq hu, ih hu]

/-- The close notice where no crew is saved: the threads that it names go on, and it is off the list (R399, R400). -/
theorem exec_gbarClose {seq core : Nat} {x : Gang} (hx : s.gangs.find seq = some x) (hc : core ∈ x.closing)
    (hs : s.noneSaved) :
    exec (.gbarClose seq core) s = .next (((s.gbarReleased seq x core).foldl State.unpark s).modGang seq fun g =>
      { g with closing := x.closing.filter (· != core) }) := by
  show execGbarClose seq core s = _
  simp [execGbarClose, hx, hc, State.foldl_unpark_patchSaved _ hs]

end barrier

/-- Settles O40: the arrival by the rule for a thread that parks, the barrier by its count, the close notice by what it
releases. -/
theorem gangBarrier : Obligations.GangBarrier := by
  refine ⟨fun s k g h => exec_gbar_one h.1 (perThread_hold h rfl), fun s seq x hx => ⟨fun ha hl => ?_, State.gbarCheck_incomplete hx⟩,
    fun s seq core x hx hc _ hs => ⟨_, exec_gbarClose hx hc hs, fun k hk => ?_, fun k hk => ?_, ?_⟩⟩
  · refine ⟨{ x with arrived := [], closing := x.cores }, ?_, rfl, rfl⟩
    rw [State.gbarCheck_complete hx ha hl, State.modGang_find, if_pos rfl, hx]
    rfl
  · exact State.foldl_modThread_mem (P := fun t => t.st.park = .none) (fun _ => rfl) hk s
  · exact State.foldl_modThread_get_of_notMem _ hk s
  · obtain ⟨ts, hts⟩ := State.foldl_unpark_eq (s.gbarReleased seq x core) s
    exact ⟨{ x with closing := x.closing.filter (· != core) }, by rw [hts, State.modGang_find, if_pos rfl, hx]; rfl, rfl⟩

end Sys2Proof.Machine
end

section
/-!
PROOFS. Signals, interrupts, the timer and the watchdog.
-/
namespace Sys2Proof.Machine

variable {s : State} {k : Nat}

/-! ### SIGNAL (R63, R298) -/

/-- A signalled thread at the point where it takes the trap: awake, behind its SLEEP, without the value taken. -/
def Thread.signalled (t : Thread) : Thread :=
  let wake := if t.st.sleeping then { t with pc := nextPc t.pc, st := { t.st with sleeping := false } } else t
  { wake with signals := wake.signals.drop 1, st := { wake.st with held := false },
              trap := { wake.trap with sigp := decide (1 < wake.signals.length) } }

theorem Thread.signalled_pc (t : Thread) : t.signalled.pc = if t.st.sleeping then nextPc t.pc else t.pc := by
  cases h : t.st.sleeping <;> simp [Thread.signalled, h]

@[simp] theorem Thread.signalled_signals (t : Thread) : t.signalled.signals = t.signals.drop 1 := by
  cases h : t.st.sleeping <;> simp [Thread.signalled, h]

@[simp] theorem Thread.signalled_park (t : Thread) : t.signalled.st.park = t.st.park := by
  cases h : t.st.sleeping <;> simp [Thread.signalled, h]

@[simp] theorem Thread.signalled_sleeping (t : Thread) : t.signalled.st.sleeping = false := by
  cases h : t.st.sleeping <;> simp [Thread.signalled, h]

@[simp] theorem Thread.signalled_regs (t : Thread) : t.signalled.regs = t.regs := by
  cases h : t.st.sleeping <;> simp [Thread.signalled, h]

@[simp] theorem Thread.signalled_sigp (t : Thread) : t.signalled.trap.sigp = decide (1 < t.signals.length) := by
  cases h : t.st.sleeping <;> simp [Thread.signalled, h]

/-- A thread whose wait is over, whether it goes on or tries again, differs from the one that waited in PC, count of
instructions and wait alone. -/
def Thread.Unwaited (t u : Thread) : Prop :=
  u.signals = t.signals ∧ u.st.park = .none ∧ u.regs = t.regs

theorem Thread.unwaited_unparked (t : Thread) : t.Unwaited t.unparked := ⟨rfl, rfl, rfl⟩
theorem Thread.unwaited_retrying (t : Thread) : t.Unwaited t.retrying := ⟨rfl, rfl, rfl⟩

/-- A withdrawal takes the arrival out of the crew or the gang, and the thread out of its wait (R36, R40, R400). -/
theorem State.withdraw_eq (s : State) (k : Nat) : ∃ (s1 : State) (closed : Bool),
    s.withdraw k = s1.modThread k (fun t => if closed then t.unparked else t.retrying)
      ∧ s1.threads = s.threads ∧ s1.mem = s.mem := by
  refine ⟨_, _, rfl, ?_, ?_⟩ <;> split <;> rfl

/-- A withdrawn arrival leaves the thread out of its wait and memory as it was. -/
theorem State.withdraw_spec (s : State) (k : Nat) :
    (s.thread k).Unwaited ((s.withdraw k).thread k) ∧ (s.withdraw k).mem = s.mem := by
  obtain ⟨s1, closed, heq, hts, hmem⟩ := State.withdraw_eq s k
  have ht : s1.thread k = s.thread k := by simp [State.thread, hts]
  rw [heq, State.modThread_get_self, ht]
  refine ⟨?_, hmem⟩
  cases closed
  · exact Thread.unwaited_retrying _
  · exact Thread.unwaited_unparked _

/-- The state in which a signal is taken. -/
theorem State.takeSignal_eq (s : State) (k : Nat) :
    s.takeSignal k =
      (let u := (if (s.thread k).st.park = .none then s else s.withdraw k).modThread k Thread.signalled
       u.takeTrap k cSIGNAL 0 ((s.thread k).signals.headD 0) (u.thread k).pc) := rfl

/-- What stands at the thread when its signal is taken (R63, R298). -/
theorem State.takeSignal_spec (s : State) (k : Nat) :
    ∃ u : State, s.takeSignal k = u.takeTrap k cSIGNAL 0 ((s.thread k).signals.headD 0) (u.thread k).pc
      ∧ (u.thread k).signals = (s.thread k).signals.drop 1 ∧ (u.thread k).st.park = .none ∧ (u.thread k).st.sleeping = false
      ∧ (u.thread k).regs = (s.thread k).regs ∧ u.mem = s.mem
      ∧ (u.thread k).trap.sigp = decide (1 < (s.thread k).signals.length)
      ∧ ((s.thread k).st.park = .none →
        (u.thread k).pc = if (s.thread k).st.sleeping then nextPc (s.thread k).pc else (s.thread k).pc) := by
  refine ⟨_, State.takeSignal_eq s k, ?_⟩
  by_cases hp : (s.thread k).st.park = .none
  · simp only [if_pos hp, State.modThread_get_self]
    simp [hp, Thread.signalled_pc]
  · obtain ⟨⟨hsig, hpark, hregs⟩, hmem⟩ := State.withdraw_spec s k
    simp only [if_neg hp, State.modThread_get_self]
    simp [hp, hsig, hpark, hregs, hmem]

/-! ### INTR (R302) -/

section intr
variable {n : Nat}

/-- The interrupt of a running supervisor thread is due only while it sleeps. -/
theorem State.interruptDue_sleeping (h : s.interruptDue n = true) (hr : (s.hart n).run = true)
    (hsup : (s.thread n).trap.sup = true) : (s.thread n).st.sleeping = true := by
  simp only [State.interruptDue, hr, hsup, if_true, Bool.and_eq_true] at h
  simpa using h.2.1

theorem exec_intr (hd : s.interruptDue n = true) (hh : s.halted = false) :
    exec (.intr n) s = .next (if (s.hart n).run = false then s.loadSup n
      else if (s.thread n).trap.sup = true then
        s.modThread n fun t => { t with pc := nextPc t.pc, st := { t.st with sleeping := false } }
      else s.takeTrap n cINTR 0 (s.ipend n &&& (s.hart n).ien) (s.thread n).pc) := by
  show execIntr n s = _
  cases hr : (s.hart n).run
  · simp [execIntr, hd, hh, hr]
  · cases hsup : (s.thread n).trap.sup
    · simp [execIntr, hd, hh, hr, hsup, State.enabledInts]
    · simp [execIntr, hd, hh, hr, hsup, State.interruptDue_sleeping hd hr hsup]

end intr

/-! ### WATCHDOG (R60) -/

theorem State.bark_lane (h : (s.thread k).st.away = false) :
    s.bark k = if (s.thread k).st.live = true ∧ (s.thread k).st.park = .none ∧ (s.thread k).st.pending = .none
        ∧ (s.thread k).st.sleeping = false
      then s.raise k cWATCHDOG 0 0 (s.thread k).pc else s := by
  simp [State.bark, h, and_assoc]

theorem State.bark_hart {n : Nat} (h : (s.thread k).st.away = true) (hn : s.awayHart k = some n) :
    s.bark k = if (s.thread n).ready = true then s.takeTrap n cWATCHDOG 0 0 (s.thread n).pc else s := by
  simp [State.bark, h, hn]

theorem State.bark_held (h : (s.thread k).st.away = true) (hn : s.awayHart k = none) (hp : (s.thread k).st.pending = .none) :
    s.bark k = s.modThread k fun t => { t with st := { t.st with pending := .trap cWATCHDOG 0 0 t.pc } } := by
  simp [State.bark, h, hn, hp]

section watchdog
variable {c : Nat} {cr : Crew} (hc : s.crews.find c = some cr) (hh : s.halted = false)
include hc hh

theorem exec_watchdog_due (hp : cr.place = .resident) (hw : 2 ^ 24 ≤ cr.watchdog) :
    exec (.watchdog c) s
      = .next (((s.laneKeys c).foldl State.bark s).modCrew c fun x => { x with watchdog := 0 }) := by
  have hw' : ¬ cr.watchdog < 2 ^ 24 := Nat.not_lt.2 hw
  show execWatchdog c s = _
  simp only [execWatchdog, hc, hp, hh, hw', decide_false]
  rfl

theorem exec_watchdog_early (hw : cr.watchdog < 2 ^ 24) : exec (.watchdog c) s = .next s := by
  show execWatchdog c s = _
  simp only [execWatchdog, hc, hh, hw, decide_true, Bool.or_true, if_true]

end watchdog

/-- Settles O55: a signal by the state in which it is taken, an interrupt by the thread that it meets, the watchdog by where
each thread of the crew stands. -/
theorem asynchronousTraps : Obligations.AsynchronousTraps := by
  refine ⟨fun s k hpres hdue hh hawake => ?signal, fun s n hd hh => ?intr, fun s hh => ?timer,
    fun s c cr hc hp hh => ⟨fun hw => ⟨exec_watchdog_due hc hh hp hw, fun s k => ?bark⟩, exec_watchdog_early hc hh⟩⟩
  case signal =>
    obtain ⟨u, hu, hspec⟩ := State.takeSignal_spec s k
    refine ⟨u, ?_, hspec⟩
    show execSignalDelivery k s = _
    simp [execSignalDelivery, hpres, hdue, hh, hawake, hu]
  case intr =>
    have h := exec_intr hd hh
    exact ⟨fun hr => by simp [h, hr], fun hr hsup => by simp [h, hr, hsup], fun hr hsup => by simp [h, hr, hsup]⟩
  case timer =>
    show execTimerCompare s = _
    simp [execTimerCompare, hh, Config.harts]
  case bark =>
    exact ⟨State.bark_lane, fun n h hn => State.bark_hart h hn, State.bark_held⟩

end Sys2Proof.Machine
end

section
/-!
PROOFS. Writes to memory leave threads, crews, gangs and the number of the next gang as they are.
-/
namespace Sys2Proof.Machine

/-- The threads on the cores, the crews, the gangs and the number of the next gang. -/
def State.work (s : State) : AMap Thread × AMap Crew × AMap Gang × Nat := (s.threads, s.crews, s.gangs, s.nxt.gang)

theorem State.work_eq_iff {s t : State} :
    s.work = t.work ↔ s.threads = t.threads ∧ s.crews = t.crews ∧ s.gangs = t.gangs ∧ s.nxt.gang = t.nxt.gang := by
  simp [State.work]

@[simp] theorem State.work_ite (c : Prop) [Decidable c] (s t : State) : (if c then s else t).work = if c then s.work else t.work :=
  apply_ite State.work c s t

/-- What every operation of a fold keeps, the fold keeps. -/
theorem foldl_keeps {α β γ : Type} {P : α → γ} {f : α → β → α} (h : ∀ s x, P (f s x) = P s) (l : List β) (s : α) :
    P (l.foldl f s) = P s := by
  induction l generalizing s with
  | nil => rfl
  | cons x l ih => rw [List.foldl_cons, ih, h]

section traffic
variable (s : State)

/-! ### The messages and the copies -/

@[simp] theorem State.post_work (m : Msg) : (s.post m).work = s.work := rfl
@[simp] theorem State.postAll_work (ms : List Msg) : (s.postAll ms).work = s.work := foldl_keeps (P := State.work) State.post_work ms s
@[simp] theorem State.unpost_work (id : Nat) : (s.unpost id).work = s.work := rfl
@[simp] theorem State.withMem_work (m : MemSys) : (s.withMem m).work = s.work := rfl
@[simp] theorem State.grant_work (m : Msg) (st : Option Moesi) (own : Bool) : (s.grant m st own).work = s.work := rfl
@[simp] theorem State.staleLine_work (core line : Nat) : (s.staleLine core line).work = s.work := rfl
@[simp] theorem State.staleEverywhere_work (p : Handle → Bool) : (s.staleEverywhere p).work = s.work := rfl
@[simp] theorem State.viewError_work (pa : Nat) : (s.viewError pa).work = s.work := rfl

/-! ### Stores at a home -/

@[simp] theorem State.surrender_work (row : Nat) : (s.surrender row).1.work = s.work := by
  unfold State.surrender; dsimp only; split <;> rfl

@[simp] theorem State.carryViews_work (line : Nat) (d : Line) (mask : BitVec 128) : (s.carryViews line d mask).work = s.work := rfl

@[simp] theorem State.strike_work (line : Nat) (d : Line) (mask : BitVec 128) (self : Nat) :
    (s.strike line d mask self).1.work = s.work := rfl

@[simp] theorem State.storeHome_work (fuel : Nat) (line : Nat) (d : Line) (mask : BitVec 128) (key vset self : Nat) :
    (State.storeHome fuel s line d mask key vset self).work = s.work := by
  induction fuel generalizing s line d mask key vset self with
  | zero => rfl
  | succ fuel ih =>
    unfold State.storeHome
    have hall : ∀ (l : List Copy) (s : State) (key vset self : Copy → Nat),
        (l.foldl (fun s c => State.storeHome fuel s c.line c.data c.dirty (key c) (vset c) (self c)) s).work = s.work :=
      fun l s key vset self => foldl_keeps (P := State.work) (fun s c => ih s _ _ _ _ _ _) l s
    split
    · rfl
    · split
      · extract_lets put r
        have hput : ∀ (q : State × Bool) (i : Nat), (put q i).1.work = q.1.work := by
          intro q i
          simp only [put]
          split
          · rfl
          · split
            · simp [ih, hall]
            · rfl
        have hr : r.1.work = s.work := foldl_keeps (P := fun q : State × Bool => q.1.work) hput _ _
        split <;> simp [hr]
      · simp [hall]

@[simp] theorem State.homeStore_work (line : Nat) (d : Line) (mask : BitVec 128) (key vset : Nat) :
    (s.homeStore line d mask key vset).work = s.work := State.storeHome_work s _ _ _ _ _ _ _

@[simp] theorem State.flushCopy_work (c : Copy) : (s.flushCopy c).work = s.work := by simp [State.flushCopy]

@[simp] theorem State.gatherViews_work (line : Nat) (mask : BitVec 128) (key vset : Nat) :
    (s.gatherViews line mask key vset).work = s.work := by
  refine foldl_keeps (P := State.work) (fun s b => ?_) _ s
  refine (foldl_keeps (P := State.work) State.flushCopy_work _ _).trans ?_
  split
  · rfl
  · exact (foldl_keeps (P := State.work) (fun s c => State.homeStore_work s _ _ _ _ _) _ _).trans (State.surrender_work s _)

/-! ### The home -/

@[simp] theorem State.recallFor_work (e : DirEntry) (m : Msg) (region : Option (Nat × Nat)) :
    (s.recallFor e m region).work = s.work := by simp [State.recallFor]

@[simp] theorem State.startEviction_work (v : DirEntry) : (s.startEviction v).work = s.work := by simp [State.startEviction]

@[simp] theorem State.nextEviction_work (line base cls : Nat) : (s.nextEviction line base cls).work = s.work := by
  unfold State.nextEviction; split
  · rfl
  · split <;> simp

@[simp] theorem State.performHome_work (m : Msg) : (s.performHome m).work = s.work := by
  unfold State.performHome; split <;> simp

@[simp] theorem State.forwardShared_work (m : Msg) (o : Nat) : (s.forwardShared m o).work = s.work := rfl

@[simp] theorem State.serveFrom_work (e : DirEntry) (m : Msg) : (s.serveFrom e m).work = s.work := by
  unfold State.serveFrom; dsimp only; split
  case h_1 | h_2 | h_3 => split <;> simp
  all_goals simp

@[simp] theorem State.homeHandle_work (m : Msg) : (s.homeHandle m).work = s.work := by
  unfold State.homeHandle; dsimp only; split
  · simp
  · split <;> simp

@[simp] theorem State.homeRequest_work (m : Msg) : (s.homeRequest m).work = s.work := by
  unfold State.homeRequest; split
  · simp
  · split <;> simp

@[simp] theorem State.finishTxn_work (line : Nat) : (s.finishTxn line).work = s.work := by
  unfold State.finishTxn; split
  · rfl
  · split
    · rfl
    · dsimp only; split
      iterate 4 simp
      · split <;> simp
      · simp

@[simp] theorem State.shareAfterForward_work (t : Txn) (line : Nat) (clear wasE : Bool) :
    (s.shareAfterForward t line clear wasE).work = s.work := by
  unfold State.shareAfterForward; split <;> simp

@[simp] theorem State.ownerAnswered_work (line : Nat) (t : Txn) (sent clear wasE : Bool) :
    (s.ownerAnswered line t sent clear wasE).work = s.work := by
  unfold State.ownerAnswered; dsimp only; split
  iterate 3 (split <;> simp)
  · simp

@[simp] theorem State.takeFwdDone_work (m : Msg) : (s.takeFwdDone m).work = s.work := by
  unfold State.takeFwdDone; split <;> simp

@[simp] theorem State.takeNoData_work (m : Msg) : (s.takeNoData m).work = s.work := by
  unfold State.takeNoData; split <;> simp

@[simp] theorem State.takeWbPending_work (m : Msg) : (s.takeWbPending m).work = s.work := by
  unfold State.takeWbPending; split <;> simp

@[simp] theorem State.takeAck_work (m : Msg) : (s.takeAck m).work = s.work := by
  unfold State.takeAck; split <;> simp

@[simp] theorem State.takeData_work (m : Msg) : (s.takeData m).work = s.work := by simp [State.takeData]

@[simp] theorem State.putDone_work (m : Msg) (e : DirEntry) : (s.putDone m e).work = s.work := by
  unfold State.putDone; dsimp only; split
  · split <;> simp
  · split
    · rw [State.withMem_work]; split <;> simp
    · rfl

@[simp] theorem State.putEntryDone_work (m : Msg) : (s.putEntryDone m).work = s.work := by
  unfold State.putEntryDone; split <;> simp

@[simp] theorem State.takePut_work (m : Msg) : (s.takePut m).work = s.work := by
  unfold State.takePut; dsimp only; split
  · split
    · rw [State.post_work, State.ownerAnswered_work]; split <;> simp
    · simp
  · simp

/-! ### The agents -/

@[simp] theorem State.takePutAck_work (m : Msg) : (s.takePutAck m).work = s.work := rfl
@[simp] theorem State.noCopy_work (m : Msg) : (s.noCopy m).work = s.work := rfl
@[simp] theorem State.sendPut_work (c : Copy) (retain : Bool) : (s.sendPut c retain).work = s.work := rfl

@[simp] theorem State.takeFwdS_work (m : Msg) : (s.takeFwdS m).work = s.work := by
  unfold State.takeFwdS; split
  · simp
  · split
    · simp
    · dsimp only; split <;> simp

@[simp] theorem State.takeFwdM_work (m : Msg) : (s.takeFwdM m).work = s.work := by
  unfold State.takeFwdM; dsimp only; split
  · rw [State.noCopy_work]; split <;> simp
  · split
    · simp
    · split
      · split <;> simp
      · simp

@[simp] theorem State.takeInv_work (m : Msg) : (s.takeInv m).work = s.work := by
  simp [State.takeInv]

@[simp] theorem State.takeGrant_work (m : Msg) : (s.takeGrant m).work = s.work := by
  unfold State.takeGrant; split
  · rfl
  · next st hst =>
    have h1 : (if st = .m then s.staleLine m.dst m.line else s).work = s.work := by split <;> rfl
    dsimp only
    split
    · exact h1
    · split
      · exact h1
      · split <;> exact h1

@[simp] theorem State.takeMsg_work (id : Nat) : (s.takeMsg id).work = s.work := by
  unfold State.takeMsg; split
  · rfl
  · split
    · rfl
    · dsimp only; split <;> simp

/-! ### Messages run to their end -/

@[simp] theorem State.startQueued_work (x : Msg) : (s.startQueued x).work = s.work := by
  unfold State.startQueued; split
  · simp
  · split <;> simp

@[simp] theorem State.settle_work (stop : MemSys → Bool) (line first fuel : Nat) : (s.settle stop line first fuel).work = s.work := by
  induction fuel generalizing s with
  | zero => rfl
  | succ fuel ih =>
    unfold State.settle; split
    · rfl
    · split
      · simp [ih]
      · split
        · simp [ih]
        · split <;> simp [ih]

@[simp] theorem State.request_work (m : Msg) : (s.request m).work = s.work :=
  (State.settle_work (s.post m) _ _ _ settleFuel).trans rfl

/-! ### Writes of hardware at physical addresses -/

@[simp] theorem State.homeWrite_work (agent line off : Nat) (bs : List Byte) (key vset : Nat) :
    (s.homeWrite agent line off bs key vset).work = s.work := State.request_work s _

@[simp] theorem State.pokeBytes_work (agent a : Nat) (bs : List Byte) (key : Nat) : (s.pokeBytes agent a bs key).work = s.work :=
  foldl_keeps (P := fun p : State × List Byte => p.1.work) (fun _ _ => State.homeWrite_work ..) _ (s, bs)

@[simp] theorem State.siltTouch_work (pa : Nat) : (s.siltTouch pa).work = s.work := by
  unfold State.siltTouch State.siltExpand; split
  · rfl
  · dsimp only; split
    · split <;> rfl
    · split <;> rfl

@[simp] theorem State.hwPut_work (a : Nat) (bs : List Byte) : (s.hwPut a bs).work = s.work := by simp [State.hwPut]
@[simp] theorem State.hwPutWord_work (a : Nat) (w : Word) : (s.hwPutWord a w).work = s.work := State.hwPut_work s a _

end traffic

end Sys2Proof.Machine
end

section
/-!
PROOFS. The end of threads (R62, R384, R385).
-/
namespace Sys2Proof.Machine

variable {s : State} {k : Nat} {g : Guard}

/-! ### EXIT of the one thread that issues -/

/-- What EXIT asks of one thread: its counters first, then its end. -/
def exitBody (k : Nat) (s : State) : Res :=
  match (s.thread k).dueFailure with
  | some a => .trap cENGINE 0 a false
  | none => if (s.thread k).oc.ld ≠ 0 ∨ (s.thread k).oc.st ≠ 0 then .wait else s.exitThread k

/-- EXIT of the one thread that issues: its part, then what follows for its crew and its gang. -/
theorem exec_exit_one {t : State} (h1 : s.issuing = [k]) (hp : perThread s (.exit g) g [] anyCore .holds exitBody = .next t) :
    exec (.exit g) s = .next (t.afterExits (crewsOf [k]) [(s.thread k).ids.seq]) := by
  obtain rfl := Host.Outcome.next.inj hp
  show execExit g s = _
  simp only [execExit, h1]
  rfl

section body
variable (hdue : (s.thread k).dueFailure = none)
include hdue

theorem exitBody_waits (ho : (s.thread k).oc.ld ≠ 0 ∨ (s.thread k).oc.st ≠ 0) : exitBody k s = .wait := by
  simp [exitBody, hdue, ho]

theorem exitBody_ends (hld : (s.thread k).oc.ld = 0) (hst : (s.thread k).oc.st = 0) : exitBody k s = s.exitThread k := by
  simp [exitBody, hdue, hld, hst]

end body

theorem State.exitThread_lane (h : isLat k = false) : s.exitThread k = .go (s.endThread k) .gone := by
  simp [State.exitThread, h]

/-- A latency thread that is in no gang (R385). -/
theorem State.exitThread_hart (h : isLat k = true) (hno : s.heldLane (s.thread k) = none ∨ (s.thread k).st.away = false)
    (hf : s.escFull = false) : s.exitThread k = .go (s.exitHart k) .gone := by
  cases hl : s.heldLane (s.thread k) with
  | none => simp [State.exitThread, h, hl, hf]
  | some l =>
    have haway : (s.thread k).st.away = false := hno.resolve_left (by simp [hl])
    simp [State.exitThread, h, hl, hf, haway]

/-- An AWAY thread ends with its held lane (R385). -/
theorem State.exitThread_away {l : Nat} (h : isLat k = true) (hl : s.heldLane (s.thread k) = some l)
    (haway : (s.thread k).st.away = true) :
    s.exitThread k
      = .go (((((s.exitFrame k).endThread l).afterExits [crewOf l] [(s.thread l).ids.seq]).vacate k).loadSup k) .gone := by
  simp [State.exitThread, h, hl, haway]

theorem State.leaveBundle_lat (h : isLat k = true) (s : State) : s.leaveBundle k = s := by simp [State.leaveBundle, h]

theorem crewsOf_lat (h : isLat k = true) : crewsOf [k] = [] := by simp [crewsOf, h]

/-! ### What the end of a thread leaves -/

@[simp] theorem State.patchExit_work (s : State) (f lane : Nat) (last : Bool) : (s.patchExit f lane last).work = s.work := by
  unfold State.patchExit
  extract_lets put clear s1 s2 s3
  have hput : ∀ (s : State) (a hi lo v : Nat), (put s a hi lo v).work = s.work := fun s a hi lo v => by simp [put]
  have hclear : ∀ (s : State) (a : Nat), (clear s a).work = s.work := fun s a => by simp [clear, hput]
  have h2 : s2.work = s.work :=
    (foldl_keeps (P := State.work) (fun _ _ => hclear ..) _ _).trans (by simp [s1, hput, hclear])
  have h3 : s3.work = s.work :=
    (foldl_keeps (P := State.work) (fun _ _ => by simp [hput]) _ _).trans h2
  split <;> simp [h3]

theorem State.failSets_unnamed {c l : Nat} {cr : Crew} (hc : s.crews.find c = some cr)
    (h : ∀ a ∈ cr.sets, a.members.getLsbD l = false) : s.failSets c l = s := by
  have hnone : (cr.sets.filter fun a => a.members.getLsbD l) = [] := by simpa using h
  simp [State.failSets, hc, hnone]

/-- The crew of a thread that ends: its lane in no join register and its arrivals withdrawn. -/
def Crew.struck (cr : Crew) (l : Nat) (t : Thread) : Crew :=
  { cr with
    joins := cr.joins.map fun j => j.clear l
    sets := (cr.sets.map fun a => { a with arrived := a.arrived &&& ~~~laneBit l }).filter fun a => a.arrived != 0
    spent := if cr.place.onCore then (l, t.loambase, 8 * t.regcnt) :: cr.spent else [] }

theorem Crew.struck_unnamed {cr : Crew} {l : Nat} (t : Thread) (h : ∀ a ∈ cr.sets, a.members.getLsbD l = false) :
    ∀ a ∈ (cr.struck l t).sets, a.members.getLsbD l = false := by
  intro a ha
  obtain ⟨b, hb, rfl⟩ := List.mem_map.1 (List.mem_of_mem_filter ha)
  exact h b hb

theorem Crew.struck_join (cr : Crew) (l : Nat) (t : Thread) (n : BitVec 3) : (cr.struck l t).join n = (cr.join n).clear l := by
  simp [Crew.join, Crew.struck]

/-- The gang of a thread that ends: one live thread less, no arrival of it (R62). -/
def Gang.without (x : Gang) (t : Thread) : Gang :=
  { x with live := x.live - 1, arrived := x.arrived.filter (· != t.ids.gang.toNat) }

/-- The threads, crews and gangs after the end of a thread that no arrival set waits for. -/
theorem State.endThread_spec {c : Crew} (hlane : isLat k = false) (hc : s.crewAt k = some c)
    (hsets : ∀ a ∈ c.sets, a.members.getLsbD (laneOf k) = false) :
    (s.endThread k).threads = s.threads.del k
      ∧ (∃ c', (s.endThread k).crews.find (crewOf k) = some c' ∧ ∀ n, c'.join n = (c.join n).clear (laneOf k))
      ∧ (s.endThread k).gangs = s.gangs.update (s.thread k).ids.seq fun x => x.without (s.thread k) := by
  have hcrew : s.crews.find (crewOf k) = some c := by simpa [State.crewAt, hlane] using hc
  unfold State.endThread
  extract_lets cr l t s0 drop strike s1 s2 s3 s4
  have h0 : s0.work = s.work := by simp only [s0, State.leaveBundle]; split <;> rfl
  obtain ⟨hts0, hcs0, hgs0, -⟩ := State.work_eq_iff.1 h0
  have hfind : s1.crews.find cr = some (c.struck l t) := by
    rw [State.modCrew_find, if_pos rfl, hcs0, hcrew]
    rfl
  have h2 : s2.work = s1.work := by
    simp only [s2]
    split
    · exact State.patchExit_work ..
    · rw [State.failSets_unnamed hfind (Crew.struck_unnamed t hsets)]
  obtain ⟨hts2, hcs2, hgs2, -⟩ := State.work_eq_iff.1 h2
  have h3 : s3.threads = s2.threads ∧ s3.gangs = s2.gangs
      ∧ ∃ c', s3.crews.find cr = some c' ∧ c'.joins = (c.struck l t).joins := by
    simp only [s3]
    split
    · refine ⟨rfl, rfl, { c.struck l t with maps := [] }, ?_, rfl⟩
      rw [State.modCrew_find, if_pos rfl, hcs2, hfind]
      rfl
    · exact ⟨rfl, rfl, _, hcs2 ▸ hfind, rfl⟩
  obtain ⟨hts3, hgs3, c', hc', hj⟩ := h3
  refine ⟨?threads, ⟨c', hc', fun n => ?join⟩, ?gangs⟩
  case threads => exact congrArg (AMap.del · k) (hts3.trans (hts2.trans hts0))
  case join =>
    rw [← Crew.struck_join c l t]
    simp only [Crew.join, hj]
  case gangs => exact congrArg (AMap.update · t.ids.seq fun x => x.without t) (hgs3.trans (hgs2.trans hgs0))

theorem laneBit_getLsbD {l m : Nat} : (laneBit l).getLsbD m = decide (m < 32 ∧ m = l) := by
  by_cases hm : m < 32
  · by_cases hl : m < l
    · simp [laneBit, hm, hl, Nat.ne_of_lt hl]
    · rw [Bool.eq_iff_iff]
      simp [laneBit, hm, hl]
      omega
  · simp [laneBit, hm]

theorem Join.clear_getLsbD (j : Join) {l m : Nat} (hm : m ≠ l) : (j.clear l).e.getLsbD m = j.e.getLsbD m := by
  have hbit : (laneBit l).getLsbD m = false := by simp [laneBit_getLsbD, hm]
  by_cases h : m < 32
  · rw [BitVec.getLsbD_eq_getElem h] at hbit
    simp [Join.clear, h, hbit]
  · simp [Join.clear, BitVec.getLsbD_of_ge _ _ (Nat.not_lt.1 h)]

theorem Join.clear_self (j : Join) (l : Nat) : (j.clear l).e.getLsbD l = false ∧ (j.clear l).v.getLsbD l = false := by
  simp [Join.clear, laneBit]

/-- Settles O37: EXIT by what it finds at the thread, the end of a thread by what it leaves of threads, crews and gangs. -/
theorem exits : Obligations.Exits := by
  refine ⟨fun s k g h hdue => ⟨fun ho => ?waits, fun hld hst hlane => ?lane, fun hld hst hlat hno hf => ?hart,
    fun l hld hst hlat hl haway => ?away⟩, ?ends⟩
  case waits => exact exec_exit_one h.1 (perThread_wait h (exitBody_waits hdue ho))
  case lane =>
    exact exec_exit_one h.1 (perThread_gone h ((exitBody_ends hdue hld hst).trans (State.exitThread_lane hlane)))
  case hart =>
    have hb := (exitBody_ends hdue hld hst).trans (State.exitThread_hart hlat hno hf)
    rw [exec_exit_one h.1 (perThread_gone h hb), State.leaveBundle_lat hlat, crewsOf_lat hlat]
  case away =>
    have hb := (exitBody_ends hdue hld hst).trans (State.exitThread_away hlat hl haway)
    rw [exec_exit_one h.1 (perThread_gone h hb), State.leaveBundle_lat hlat, crewsOf_lat hlat]
  case ends =>
    rintro s t k c x hlane hc - hx hsets rfl
    obtain ⟨hts, ⟨c', hc', hj⟩, hgs⟩ := State.endThread_spec hlane hc hsets
    refine ⟨?_, ⟨c', hc', fun n => ?_, fun n l hl => ?_⟩, ⟨x.without (s.thread k), ?_, rfl, ?_⟩, fun j hne => ?_⟩
    · rw [hts, AMap.find_del_self]
    · rw [hj]; exact Join.clear_self _ _
    · rw [hj, Join.clear_getLsbD _ hl]
    · rw [hgs, AMap.find_update, if_pos rfl, hx]; rfl
    · simp [Gang.without]
    · rw [hts, AMap.find_del_ne _ _ hne]

end Sys2Proof.Machine
end

section
/-!
PROOFS. Service calls, their replies and the time-out (R50, R52, R447 to R450).
-/
namespace Sys2Proof.Machine

variable {s : State} {k : Nat} {n : BitVec 12} {ns : Bool} {pred : Word → Word}

/-! ### What one thread's call does -/

theorem State.scall_lat (h : isLat k = true) (hf : s.escFull = false) :
    s.scall k n ns pred = .trap cSCALL 0 (n.setWidth 64) true := by
  simp [State.scall, h, hf]

theorem State.scall_invalid (h : isLat k = false) (hv : bitAt (s.svcEntry (s.ctxOf k).asid).2.1 63 = false) :
    s.scall k n ns pred = .trap cSCALL 0 (n.setWidth 64) true := by
  have hw : (s.who k).ctx = s.ctxOf k := rfl
  simp [State.scall, h, hw, hv]

/-- The address of the request slot that an entry of the service table names (R448). -/
def slotAddr (e : Nat × Word × Word) : Nat := fld e.2.1 56 12 * 4096 + 128 * fld e.2.2 15 0

/-- The next request takes its number (R52). -/
def State.takeRequest (s : State) : State := { s with nxt := { s.nxt with request := (s.nxt.request + 1) % 2 ^ 48 } }

/-- A request is written, and the thread goes on speculating with `v` in g10 (R50). -/
def State.speculate (s : State) (w : Who) (e : Nat × Word × Word) (k : Nat) (n : BitVec 12) (v : Word) : State :=
  ((((s.takeRequest.putCheckpoint k).writeRequest w (slotAddr e) e k s.nxt.request false n).edgeAll 7).modThread k fun t =>
    { t with spec := ⟨.speculating, s.nxt.request, v, (s.thread k).pc, []⟩, st := { t.st with reissue := false } }).writeReg k 10 v

section valid
variable {s1 : State} {p : Page} (h : isLat k = false) (hv : bitAt (s.svcEntry (s.ctxOf k).asid).2.1 63 = true)
  (hr : s.resolve (s.who k) (slotAddr (s.svcEntry (s.ctxOf k).asid)) .store = (s1, .page p))
  (hfree : bitAt (s1.peekWord p.pa) 63 = false) (hp : s1.pendingOf k = [])
include h hv hr hfree hp

theorem State.scall_speculates :
    s.scall k n false pred = .go (s1.speculate (s.who k) (s.svcEntry (s.ctxOf k).asid) k n
      (pred ((s1.core (s1.coreOf k)).predicted (s1.thread k).pc))) .next := by
  have hw : (s.who k).ctx = s.ctxOf k := rfl
  rw [slotAddr] at hr
  simp [State.scall, h, hw, hv, hr, hfree, hp]
  rfl

theorem State.scall_unanswered (ha : (s1.readReg k 11).toNat % 8 = 0) :
    s.scall k n true pred = .go ((s1.takeRequest.writeRequest (s.who k) (slotAddr (s.svcEntry (s.ctxOf k).asid))
      (s.svcEntry (s.ctxOf k).asid) k s1.nxt.request true n).edgeAll 7) .next := by
  have hw : (s.who k).ctx = s.ctxOf k := rfl
  rw [slotAddr] at hr
  have ha' : (s1.readReg k 11#6).toNat % 8 = 0 := ha
  simp [State.scall, h, hw, hv, hr, hfree, hp, ha']
  rfl

end valid

/-! ### Replies and the time-out -/

/-- A reply goes by the lower 48 bits of the word that carries it (R449). -/
theorem exec_reply_append (s : State) (hi : BitVec 16) (num : BitVec 48) (v : Word) :
    exec (.reply (hi ++ num) v) s = exec (.scallReply num v) s := by
  have hnum : fld (hi ++ num) 47 0 = num.toNat := by
    have hlow : (hi ++ num).setWidth 48 = num := by rw [BitVec.setWidth_append]; simp
    simpa [fld] using congrArg BitVec.toNat hlow
  show Host.Outcome.next (s.reply (fld (hi ++ num) 47 0) v) = .next (s.reply num.toNat v)
  rw [hnum]

section reply
variable {num : Nat} {v : Word}

/-- The speculation of a thread whose prediction was right ends: its stores go out, its loads are like any other (R50). -/
def State.confirm (s : State) (k : Nat) (v : Word) : State :=
  (((s.modCore (s.coreOf k) fun c => c.predict (s.thread k).spec.pc v).commitBuffer k).settleSpecLoads k false).modThread k
    fun t => { t with spec := .idle }

theorem State.reply_right (hc : s.caller num = some k) (hv : v = (s.thread k).spec.predicted) :
    s.reply num v = match ((s.confirm k v).thread k).st.pending with
      | .trap c sub x r =>
        ((s.confirm k v).modThread k fun t => { t with st := { t.st with pending := .none } }).takeTrap k c sub x r
      | _ => s.confirm k v := by
  subst hv
  simp only [State.reply, hc, if_true]
  rfl

theorem State.reply_wrong (hc : s.caller num = some k) (hv : v ≠ (s.thread k).spec.predicted) :
    s.reply num v = (((s.modCore (s.coreOf k) fun c => c.predict (s.thread k).spec.pc v).squash k).modThread k fun t =>
      { t with pc := nextPc (s.thread k).spec.pc, st := { t.st with reissue := false } }).writeReg k 10 v := by
  simp only [State.reply, hc, if_neg hv]

end reply

theorem State.squash_spec (s : State) (k : Nat) :
    ((s.squash k).thread k).pc = (s.thread k).spec.pc ∧ ((s.squash k).thread k).spec.mode = .normal
      ∧ ((s.squash k).thread k).st.reissue = true := by
  unfold State.squash
  dsimp only
  rw [State.modThread_get_self]
  exact ⟨rfl, rfl, rfl⟩

/-- Settles O45: a call by what its thread finds, a reply by whether it equals the prediction, a time-out by the squash. -/
theorem serviceCalls : Obligations.ServiceCalls := by
  refine ⟨fun s k g n v h => ⟨fun hl hf => ?lat, fun hl hv => ?invalid, ?valid⟩, fun s num hi v k hc => ?reply,
    fun s k hm => ⟨s.squash k, congrArg Host.Outcome.next (if_neg hm), rfl,
      State.squash_spec s k⟩⟩
  case lat =>
    have hb : ∀ ns pred, s.scall k n ns pred = .trap cSCALL 0 (n.setWidth 64) true := fun _ _ => State.scall_lat hl hf
    exact ⟨perThread_raise h (after := true) (hb _ _), perThread_raise h (after := true) (hb _ _),
      perThread_raise h (after := true) (hb _ _)⟩
  case invalid =>
    have hb : ∀ ns pred, s.scall k n ns pred = .trap cSCALL 0 (n.setWidth 64) true := fun _ _ => State.scall_invalid hl hv
    exact ⟨perThread_raise h (after := true) (hb _ _), perThread_raise h (after := true) (hb _ _),
      perThread_raise h (after := true) (hb _ _)⟩
  case valid =>
    rintro e s1 p hl rfl hv slot hr hfree hp next past
    exact ⟨perThread_next h (State.scall_speculates hl hv hr hfree hp), perThread_next h (State.scall_speculates hl hv hr hfree hp),
      fun ha => perThread_next h (State.scall_unanswered hl hv hr hfree hp ha)⟩
  case reply =>
    have hsc : ∀ t, s.reply num.toNat v = t → exec (.scallReply num v) s = .next t := fun t ht => congrArg _ ht
    intro s1 commits restores
    refine ⟨fun hv hp => ?_, fun c sub x r hv hp => hsc _ ?_, fun hv => ?_⟩
    · have ht : s.reply num.toNat v = commits := by
        rw [State.reply_right hc hv]
        split
        · next hq => exact absurd hq (hp _ _ _ _)
        · rfl
      exact ⟨hsc _ ht, (exec_reply_append s hi num v).trans (hsc _ ht)⟩
    · have hp' : ((s.confirm k v).thread k).st.pending = .trap c sub x r := hp
      rw [State.reply_right hc hv, hp']
      rfl
    · have ht : s.reply num.toNat v = restores := State.reply_wrong hc hv
      exact ⟨hsc _ ht, (exec_reply_append s hi num v).trans (hsc _ ht)⟩

end Sys2Proof.Machine
end

section
/-!
PROOFS. A regroup forms legal bundles (R31, R32).
-/
namespace Sys2Proof.Machine

/-! ### Sorting -/

theorem insertBy_perm (f : Nat → Nat) (k : Nat) (l : List Nat) : (insertBy f k l).Perm (k :: l) := by
  induction l with
  | nil => exact .refl _
  | cons x xs ih =>
    unfold insertBy
    split
    · exact .refl _
    · exact (ih.cons x).trans (.swap k x xs)

theorem sortBy_perm (f : Nat → Nat) (ks : List Nat) : (sortBy f ks).Perm ks := by
  have h : ∀ (ks l : List Nat), (ks.foldl (fun l k => insertBy f k l) l).Perm (ks ++ l) := by
    intro ks
    induction ks with
    | nil => exact fun l => .refl _
    | cons k ks ih => exact fun l => (ih _).trans (((insertBy_perm f k l).append_left ks).trans List.perm_middle)
  simpa [sortBy] using h ks []

@[simp] theorem mem_sortBy {f : Nat → Nat} {ks : List Nat} {k : Nat} : k ∈ sortBy f ks ↔ k ∈ ks := (sortBy_perm f ks).mem_iff

/-! ### Runs of equal PC and context -/

/-- What the members of a bundle share (R31). -/
def State.runKey (s : State) (k : Nat) : Word × Nat := ((s.thread k).pc, ((s.crewAt k).map (·.asid)).getD 0)

/-- A run takes its threads from the table, and each has the key of its first. -/
theorem State.runs_spec (s : State) (ks : List Nat) :
    ∀ r ∈ s.runs ks, ∀ k ∈ r, k ∈ ks ∧ r.head?.map s.runKey = some (s.runKey k) := by
  unfold State.runs
  refine List.foldlRecOn ks _ (motive := fun rs : List (List Nat) =>
    ∀ r ∈ rs, ∀ k ∈ r, k ∈ ks ∧ r.head?.map s.runKey = some (s.runKey k)) (by simp) fun rs hrs x hx => ?_
  have hnew : ∀ k ∈ [x], k ∈ ks ∧ [x].head?.map s.runKey = some (s.runKey k) := by
    intro k hk
    obtain rfl := List.mem_singleton.1 hk
    exact ⟨hx, rfl⟩
  split
  · next r hr =>
    have hmem : r ∈ rs := List.mem_of_getLast? hr
    split
    · next hkey =>
      intro r' hr' k hk
      rcases List.mem_append.1 hr' with h | h
      · exact hrs r' (List.mem_of_mem_dropLast h) k hk
      · obtain rfl := List.mem_singleton.1 h
        have hhead : (r ++ [x]).head? = r.head? := by
          cases r with
          | nil => simp at hkey
          | cons => rfl
        rw [hhead]
        rcases List.mem_append.1 hk with h | h
        · exact hrs r hmem k h
        · obtain rfl := List.mem_singleton.1 h
          exact ⟨hx, hkey⟩
    · intro r' hr' k hk
      rcases List.mem_append.1 hr' with h | h
      · exact hrs r' h k hk
      · obtain rfl := List.mem_singleton.1 h
        exact hnew k hk
  · intro r' hr' k hk
    obtain rfl := List.mem_singleton.1 hr'
    exact hnew k hk

/-! ### The bundles of one run -/

/-- A layer takes its threads from the run, each on a lane of its own. -/
theorem layers_spec (fuel : Nat) (ks : List Nat) : ∀ l ∈ layers fuel ks, (∀ k ∈ l, k ∈ ks) ∧ (l.map laneOf).Nodup := by
  induction fuel generalizing ks with
  | zero => simp [layers]
  | succ fuel ih =>
    unfold layers
    split
    · simp
    · extract_lets first
      have hfirst : (∀ k ∈ first, k ∈ ks) ∧ (first.map laneOf).Nodup := by
        refine List.foldlRecOn ks _ (motive := fun l : List Nat => (∀ k ∈ l, k ∈ ks) ∧ (l.map laneOf).Nodup) (by simp)
          fun l hl x hx => ?_
        obtain ⟨hsub, hnd⟩ := hl
        split
        · exact ⟨hsub, hnd⟩
        · next hlane =>
          have hfresh : ∀ j ∈ l, laneOf j ≠ laneOf x := by simpa using hlane
          refine ⟨fun k hk => ?_, ?_⟩
          · rcases List.mem_append.1 hk with h | h
            · exact hsub k h
            · exact List.mem_singleton.1 h ▸ hx
          · rw [List.map_append, List.nodup_append]
            refine ⟨hnd, List.nodup_singleton _, fun a ha b hb => ?_⟩
            obtain ⟨j, hj, rfl⟩ := List.mem_map.1 ha
            have hb : b = laneOf x := by simpa using hb
            rw [hb]
            exact hfresh j hj
      intro l hl
      rcases List.mem_cons.1 hl with rfl | hl
      · exact ⟨fun k hk => hfirst.1 k (mem_sortBy.1 hk), (((sortBy_perm laneOf first).map laneOf).nodup_iff).2 hfirst.2⟩
      · obtain ⟨hsub, hnd⟩ := ih _ l hl
        exact ⟨fun k hk => List.mem_of_mem_filter (hsub k hk), hnd⟩

/-! ### The bundles of a partition and of a core -/

/-- The threads that a regroup takes for a partition are ready ones of its crews. -/
theorem State.mem_pcTable {s : State} {core part k : Nat} (h : k ∈ s.pcTable core part) :
    (s.thread k).ready = true ∧ ∃ c, s.crewAt k = some c ∧ c.part = part := by
  simp only [State.pcTable, mem_sortBy, List.mem_filter, Bool.and_eq_true, Option.any_eq_true, beq_iff_eq] at h
  exact h.2

/-- What R31 and R32 ask of the members of a bundle of a partition. -/
structure State.LegalBundle (s : State) (part : Nat) (b : Bundle) : Prop where
  ready : ∀ k ∈ b.members, (s.thread k).ready = true ∧ ∃ c, s.crewAt k = some c ∧ c.part = part
  together : ∀ j ∈ b.members, ∀ k ∈ b.members, (s.thread j).pc = (s.thread k).pc
    ∧ (s.crewAt j).map (·.asid) = (s.crewAt k).map (·.asid)
  lanes : (b.members.map laneOf).Nodup

/-- The lists of members from which the bundles of a partition are made. -/
def State.bundleGroups (s : State) (core part : Nat) : List (List Nat) :=
  ((s.runs (s.pcTable core part)).flatMap (layers 64)).take 16

theorem State.formBundles_eq (s : State) (core part : Nat) : s.formBundles core part
    = (s.bundleGroups core part).zipIdx.map fun e => ⟨part, ((s.core core).regroups + 1) * 16 + e.2, e.1⟩ := rfl

theorem State.mem_formBundles {s : State} {core part : Nat} {b : Bundle} :
    b ∈ s.formBundles core part ↔ ∃ (i : Nat) (hi : i < (s.bundleGroups core part).length),
      b = ⟨part, ((s.core core).regroups + 1) * 16 + i, (s.bundleGroups core part)[i]⟩ := by
  simp only [State.formBundles_eq, List.mem_map, Prod.exists]
  constructor
  · rintro ⟨l, i, hmem, rfl⟩
    obtain ⟨hi, hl⟩ := List.getElem?_eq_some_iff.1 (List.mem_zipIdx_iff_getElem?.1 hmem)
    exact ⟨i, hi, congrArg (Bundle.mk part _) hl.symm⟩
  · rintro ⟨i, hi, rfl⟩
    exact ⟨_, i, List.mem_zipIdx_iff_getElem?.2 (List.getElem?_eq_getElem hi), rfl⟩

theorem State.bundleGroups_length (s : State) (core part : Nat) : (s.bundleGroups core part).length ≤ 16 :=
  List.length_take_le 16 _

theorem State.legalBundle_of_mem {s : State} {core part : Nat} {b : Bundle} (hb : b ∈ s.formBundles core part) :
    s.LegalBundle part b := by
  obtain ⟨i, hi, rfl⟩ := State.mem_formBundles.1 hb
  obtain ⟨r, hr, hl⟩ := List.mem_flatMap.1 (List.mem_of_mem_take (List.getElem_mem hi))
  obtain ⟨hsub, hnd⟩ := layers_spec 64 r _ hl
  have htab : ∀ k ∈ (s.bundleGroups core part)[i], (s.thread k).ready = true ∧ ∃ c, s.crewAt k = some c ∧ c.part = part :=
    fun k hk => State.mem_pcTable (s.runs_spec _ r hr k (hsub k hk)).1
  refine ⟨htab, fun j hj k hk => ?_, hnd⟩
  have hkey : s.runKey j = s.runKey k :=
    Option.some.inj ((s.runs_spec _ r hr j (hsub j hj)).2.symm.trans (s.runs_spec _ r hr k (hsub k hk)).2)
  obtain ⟨-, cj, hcj, -⟩ := htab j hj
  obtain ⟨-, ck, hck, -⟩ := htab k hk
  obtain ⟨hpc, hasid⟩ := Prod.mk.inj hkey
  exact ⟨hpc, by simpa [hcj, hck] using hasid⟩

/-- No two bundles of a partition have one index. -/
theorem State.formBundles_stamp {s : State} {core part : Nat} {b x : Bundle} (hb : b ∈ s.formBundles core part)
    (hx : x ∈ s.formBundles core part) (h : x.stamp % 16 = b.stamp % 16) : x = b := by
  have hlen := s.bundleGroups_length core part
  obtain ⟨i, hi, rfl⟩ := State.mem_formBundles.1 hb
  obtain ⟨j, hj, rfl⟩ := State.mem_formBundles.1 hx
  obtain rfl : j = i := by
    simp only at h
    omega
  rfl

theorem State.formBundles_part {s : State} {core part : Nat} {b : Bundle} (hb : b ∈ s.formBundles core part) : b.part = part := by
  obtain ⟨i, hi, rfl⟩ := State.mem_formBundles.1 hb
  rfl

/-- The bundles that a regroup forms for a core. -/
def State.regrouped (s : State) (core : Nat) : List Bundle := (List.range 4).flatMap (s.formBundles core)

theorem State.mem_regrouped {s : State} {core : Nat} {b : Bundle} :
    b ∈ s.regrouped core ↔ b.part < 4 ∧ b ∈ s.formBundles core b.part := by
  simp only [State.regrouped, List.mem_flatMap, List.mem_range]
  constructor
  · rintro ⟨p, hp, hb⟩
    obtain rfl := State.formBundles_part hb
    exact ⟨hp, hb⟩
  · exact fun h => ⟨_, h⟩

/-- A filter that one of some lists passes whole, and the others not at all. -/
theorem filter_flatMap_of_owner {α : Type} {f : Nat → List α} {own : α → Nat} (h : ∀ p, ∀ x ∈ f p, own x = p) {ps : List Nat}
    (hn : ps.Nodup) (q : Nat) : ((ps.flatMap f).filter fun x => own x == q) = if q ∈ ps then f q else [] := by
  induction ps with
  | nil => rfl
  | cons p ps ih =>
    obtain ⟨hp, hn⟩ := List.nodup_cons.1 hn
    rw [List.flatMap_cons, List.filter_append, ih hn]
    by_cases hq : q = p
    · subst hq
      rw [List.filter_eq_self.2 fun x hx => by simp [h _ x hx]]
      simp [hp]
    · rw [List.filter_eq_nil_iff.2 fun x hx => by simpa [h _ x hx] using Ne.symm hq]
      simp [hq]

theorem State.regrouped_length (s : State) (core part : Nat) :
    ((s.regrouped core).filter fun x => x.part == part).length ≤ 16 := by
  rw [State.regrouped, filter_flatMap_of_owner (fun p x hx => State.formBundles_part hx) List.nodup_range]
  split
  · rw [State.formBundles_eq, List.length_map, List.length_zipIdx]
    exact s.bundleGroups_length core part
  · exact Nat.zero_le _

/-! ### The regroup -/

theorem State.doze_bundles (s : State) (core : Nat) : ((s.doze core).core core).bundles = [] ∨ s.doze core = s := by
  unfold State.doze
  split
  · exact .inl (by rw [State.modCore_get_self])
  · exact .inr rfl

/-- After a regroup a core has the bundles formed, or, asleep, none; threads and crews stand as when they were formed. -/
theorem exec_regroup_bundles {s : State} {core : Nat} (ha : (s.core core).asleep = false) (hh : s.halted = false) :
    ∃ s1 t : State, exec (.regroup core) s = .next t ∧
      ((t.core core).bundles = [] ∨
        (t.core core).bundles = s1.regrouped core ∧ t.threads = s1.threads ∧ t.crews = s1.crews) := by
  have hex : exec (.regroup core) s = execRegroup core s := rfl
  simp only [hex, execRegroup, ha, hh, Bool.or_self, Bool.false_eq_true, if_false]
  generalize (s.watchAll core).retryAll core = s1
  refine ⟨s1, _, rfl, (State.doze_bundles _ core).imp_right fun h => ?_⟩
  rw [h, State.modCore_get_self]
  exact ⟨rfl, rfl, rfl⟩

/-- Settles O54: by the rule of formation, run by run and layer by layer. -/
theorem regroupBundles : Obligations.RegroupBundles := by
  intro s core ha hh
  obtain ⟨s1, t, hex, hbs⟩ := exec_regroup_bundles ha hh
  refine ⟨t, hex, fun b hb => ?_⟩
  rcases hbs with hnone | ⟨hbs, hts, hcs⟩
  · exact absurd (hnone ▸ hb) (by simp)
  · rw [hbs] at hb ⊢
    obtain ⟨hpart, hform⟩ := State.mem_regrouped.1 hb
    have hthread : t.thread = s1.thread := by funext k; simp [State.thread, hts]
    have hcrew : t.crewAt = s1.crewAt := by funext k; simp [State.crewAt, hcs]
    obtain ⟨hready, htogether, hlanes⟩ := State.legalBundle_of_mem hform
    rw [hthread, hcrew]
    refine ⟨hpart, hready, htogether, hlanes, s1.regrouped_length core _, fun x hx hp hst => ?_⟩
    exact State.formBundles_stamp hform (hp ▸ (State.mem_regrouped.1 hx).2) hst

end Sys2Proof.Machine
end

section
/-!
PROOFS. How the register forms issue, and threads whose guard is false (R30, R248).
-/
namespace Sys2Proof.Machine

/-! ### The register forms -/

/-- What a register form may write for a thread: its destination register, its predicate, its flags. -/
inductive State.FormWrites (s : State) (k : Nat) (dest : Option Reg) (pdest : Option Pred) : State → Prop
  | reg {d : Reg} (h : dest = some d) (v : Word) : State.FormWrites s k dest pdest (s.writeReg k d v)
  | pred {q : Pred} (h : pdest = some q) (v : Bool) : State.FormWrites s k dest pdest (s.modThread k fun t => t.setPred q v)
  | flags {t : State} (h : State.FormWrites s k dest pdest t) (fl : BitVec 6) : State.FormWrites s k dest pdest (t.raiseFlags k fl)

/-- The instruction acts on each executing thread by itself, and what it does to one is `eff`. -/
structure FormIssues (i : Instr) (f : RegForm) (eff : Nat → State → State) : Prop where
  exec_eq : ∀ s, exec i s = perThread s i f.g (f.regs.map (·.toNat)) anyCore .runs fun k s => .go (eff k s) .next
  writes : ∀ (k : Nat) (s : State), s.FormWrites k f.dest f.pdest (eff k s)

section families
variable {i : Instr} {f : RegForm} {g : Guard} {d : Reg} {regs : List Reg}

theorem writes_issues {val v : State → Nat → Word} (h : writes g regs d val = some f)
    (hex : ∀ s, exec i s = perThread s i g ((regs ++ [d]).map (·.toNat)) anyCore .runs fun k s =>
      .go (s.writeReg k d (v s k)) .next) : ∃ eff, FormIssues i f eff := by
  obtain rfl := Option.some.inj h
  exact ⟨_, hex, fun k s => .reg rfl _⟩

theorem givesFp_issues {val r : State → Nat → FpResult} (h : givesFp g regs d val = some f)
    (hex : ∀ s, exec i s = perThread s i g ((regs ++ [d]).map (·.toNat)) anyCore .runs fun k s =>
      .go (s.fpResult k d (r s k)) .next) : ∃ eff, FormIssues i f eff := by
  obtain rfl := Option.some.inj h
  exact ⟨_, hex, fun k s => .flags (.reg rfl _) _⟩

theorem intForm_issues (h : intForm i = some f) : ∃ eff, FormIssues i f eff := by
  unfold intForm at h
  split at h
  case h_29 => cases h
  all_goals exact writes_issues h fun _ => rfl

theorem immForm_issues (h : immForm i = some f) : ∃ eff, FormIssues i f eff := by
  unfold immForm at h
  split at h
  case h_11 => cases h
  all_goals exact writes_issues h fun _ => rfl

theorem divForm_issues (h : divForm i = some f) : ∃ eff, FormIssues i f eff := by
  have hw : ∀ (s : State) (k : Nat) (d : Reg) (v y : Word), s.FormWrites k (some d) none
      (if y = 0 then (s.writeReg k d v).raiseFlags k flagIX else s.writeReg k d v) := by
    intro s k d v y
    split
    · exact .flags (.reg rfl v) flagIX
    · exact .reg rfl v
  unfold divForm at h
  split at h
  case h_5 => cases h
  all_goals
    obtain rfl := Option.some.inj h
    exact ⟨_, fun _ => rfl, fun k s => hw ..⟩

theorem floatForm_issues (h : floatForm i = some f) : ∃ eff, FormIssues i f eff := by
  unfold floatForm at h
  split at h
  case h_14 => cases h
  all_goals exact givesFp_issues h fun _ => rfl

theorem convForm_issues (h : convForm i = some f) : ∃ eff, FormIssues i f eff := by
  unfold convForm at h
  split at h
  case h_4 => cases h
  all_goals exact givesFp_issues h fun _ => rfl

theorem packedForm_issues (h : packedForm i = some f) : ∃ eff, FormIssues i f eff := by
  unfold packedForm at h
  split at h
  case h_4 => cases h
  all_goals
    obtain rfl := Option.some.inj h
    exact ⟨_, fun _ => rfl, fun k s => .flags (.reg rfl _) _⟩

theorem predForm_issues (h : predForm i = some f) : ∃ eff, FormIssues i f eff := by
  unfold predForm at h
  split at h
  case h_5 => cases h
  case h_4 =>
    obtain rfl := Option.some.inj h
    exact ⟨_, fun _ => rfl, fun k s => .flags (.pred rfl _) _⟩
  all_goals
    obtain rfl := Option.some.inj h
    exact ⟨_, fun _ => rfl, fun k s => .pred rfl _⟩

/-- Every register form acts on each executing thread by itself. -/
theorem regForm_issues (h : regForm i = some f) : ∃ eff, FormIssues i f eff := by
  simp only [regForm, Option.or_eq_some_iff] at h
  rcases h with h | ⟨-, h | ⟨-, h | ⟨-, h | ⟨-, h | ⟨-, h | ⟨-, h⟩⟩⟩⟩⟩⟩
  · exact intForm_issues h
  · exact immForm_issues h
  · exact divForm_issues h
  · exact floatForm_issues h
  · exact convForm_issues h
  · exact packedForm_issues h
  · exact predForm_issues h

end families

end Sys2Proof.Machine
end

section
/-!
PROOFS. Threads whose guard is false (R30, R248).
-/
namespace Sys2Proof.Machine

variable {s : State} {k : Nat} {i : Instr} {g : Guard} {kind : Kind} {sp : SpecRule} {regs : List Nat}

theorem State.guardedPart_skip {chk : Option Res} {body : Nat → State → Res} (hg : (s.thread k).guard g = false) :
    s.guardedPart k g chk sp body = .go s .next := by
  simp [State.guardedPart, hg]

/-- Of an instruction that acts once per crew, a thread whose guard is false only goes on. -/
theorem perCrew_off {body : List Nat → State → Res} (h1 : s.issuing = [k]) (hg : (s.thread k).guard g = false) :
    perCrew s i g regs kind sp body = .next (s.advance k) := by
  simp [perCrew, State.issueCrews, h1, runThreads, State.guardedPart_skip hg, hg, State.applyRes, groups, runCrews, runGroups,
    State.splitBundle_one, State.advance, State.goTo]

theorem regForm_off (h : (regForm i).map (·.g) = some g) (h1 : s.issuing = [k]) (hg : (s.thread k).guard g = false) :
    exec i s = .next (s.advance k) := by
  obtain ⟨f, hf, rfl⟩ := Option.map_eq_some_iff.1 h
  obtain ⟨eff, hform⟩ := regForm_issues hf
  rw [hform.exec_eq]
  exact perThread_off h1 hg

/-- Settles O20: every plain instruction acts on each thread by itself, or once per crew. -/
theorem guardedOff : Obligations.GuardedOff := by
  intro i g s k h h1 hg
  cases i with
  | shmap | mmaT | mmaK | radv | radvCfg | radvTail | radvRel | radvFree | kalloc | kfill | kpin | kpinOff | krev | cbkld
  | engoCopy | engoEpi | engoNet | cbwait | cbwaitProd | cbpop | cbpush =>
    obtain rfl := Option.some.inj h
    exact perCrew_off h1 hg
  | ld | st | pref | cas | amoAdd | amoAnd | amoOr | amoXor | amoMin | amoMax | amoMinu | amoMaxu | amoSwap | amoFadd
  | fence | tfence | opfence | ifence | cwb | cinv | icinv | br | jal | jalr | yield | yieldH | nop | waitc
  | migrateTosimt | migrateTolat | grow | shrink | setf | takef | scall | scallOv | scallNs | fidset | kstat | engq
  | sysrd | syswr | eret | trap | bkpt | tlbinvPg | tlbinvAs | tlbinvAll | tlbinvPga =>
    obtain rfl := Option.some.inj h
    exact perThread_off h1 hg
  | _ => exact regForm_off h h1 hg

end Sys2Proof.Machine
end

section
/-!
PROOFS. What a register form leaves unchanged (R30, R248, R33).
-/
namespace Sys2Proof.Machine

/-! ### One thread -/

/-- What no register form changes of a thread; flags are only added. -/
structure Thread.Kept (t u : Thread) : Prop where
  trap : u.trap = t.trap
  oc : u.oc = t.oc
  st : u.st = t.st
  ids : u.ids = t.ids
  regcnt : u.regcnt = t.regcnt
  loambase : u.loambase = t.loambase
  spec : u.spec = t.spec
  frm : u.fp.frm = t.fp.frm
  ftrapen : u.fp.ftrapen = t.fp.ftrapen
  fid : u.fp.fid = t.fp.fid
  fflags : u.fp.fflags &&& t.fp.fflags = t.fp.fflags

theorem Thread.Kept.of_fp {t u : Thread} (htrap : u.trap = t.trap) (hoc : u.oc = t.oc) (hst : u.st = t.st) (hids : u.ids = t.ids)
    (hregcnt : u.regcnt = t.regcnt) (hloam : u.loambase = t.loambase) (hspec : u.spec = t.spec) (hfp : u.fp = t.fp) :
    t.Kept u :=
  ⟨htrap, hoc, hst, hids, hregcnt, hloam, hspec, by rw [hfp], by rw [hfp], by rw [hfp], by rw [hfp, BitVec.and_self]⟩

theorem Thread.Kept.refl (t : Thread) : t.Kept t := .of_fp rfl rfl rfl rfl rfl rfl rfl rfl

theorem Thread.Kept.trans {t u v : Thread} (h : t.Kept u) (h' : u.Kept v) : t.Kept v where
  trap := h'.trap.trans h.trap
  oc := h'.oc.trans h.oc
  st := h'.st.trans h.st
  ids := h'.ids.trans h.ids
  regcnt := h'.regcnt.trans h.regcnt
  loambase := h'.loambase.trans h.loambase
  spec := h'.spec.trans h.spec
  frm := h'.frm.trans h.frm
  ftrapen := h'.ftrapen.trans h.ftrapen
  fid := h'.fid.trans h.fid
  fflags := by rw [← h.fflags, ← BitVec.and_assoc, h'.fflags]

/-- A register written: both words of it, and nothing else of the thread. -/
theorem Thread.setReg_eq (t : Thread) (n : Nat) (v : Word) :
    ∃ rs par, t.setReg n v = { t with regs := rs, parity := par } ∧ ∀ m, m ≠ n → (t.setReg n v).reg m = t.reg m := by
  unfold Thread.setReg
  split
  · split
    · exact ⟨t.regs, t.parity, rfl, fun _ _ => rfl⟩
    · refine ⟨_, _, rfl, fun m hm => ?_⟩
      simp only [Thread.reg, Vector.getElem_set_ne _ _ (Ne.symm hm)]
  · exact ⟨t.regs, t.parity, rfl, fun _ _ => rfl⟩

theorem Thread.setPred_eq (t : Thread) (p : Pred) (v : Bool) :
    ∃ ps, t.setPred p v = { t with preds := ps } ∧ ∀ q, q ≠ p → (t.setPred p v).pred q = t.pred q := by
  unfold Thread.setPred
  split
  · exact ⟨t.preds, rfl, fun _ _ => rfl⟩
  · refine ⟨_, rfl, fun q hq => ?_⟩
    have hlt : q.toNat < 8 := q.isLt
    have hbit : (1#8 <<< p.toNat).getLsbD q.toNat = false := by
      have hne : q.toNat ≠ p.toNat := fun e => hq (BitVec.eq_of_toNat_eq e)
      by_cases h : q.toNat < p.toNat
      · simp [h]
      · simp [h]
        omega
    cases v
    · simp only [Thread.pred, Bool.false_eq_true, if_false, BitVec.getLsbD_and, BitVec.getLsbD_not, hbit, hlt, decide_true,
        Bool.not_false, Bool.and_true]
    · simp only [Thread.pred, if_true, BitVec.getLsbD_or, hbit, Bool.or_false]

/-! ### What the lanes of a bundle leave -/

/-- The lanes `ks` of a bundle have taken a form that writes `dest` or `pdest` where the guard holds. -/
structure State.LanesKept (g : Guard) (dest : Option Reg) (pdest : Option Pred) (ks : List Nat) (s t : State) : Prop where
  rest : ∃ ts, t = { s with threads := ts }
  kept : ∀ k, (s.thread k).Kept (t.thread k)
  pc_other : ∀ k, k ∉ ks → (t.thread k).pc = (s.thread k).pc
  pc_lane : ∀ k ∈ ks, (t.thread k).pc = nextPc (s.thread k).pc
  own : ∀ k, ¬(k ∈ ks ∧ (s.thread k).guard g = true) → (t.thread k).preds = (s.thread k).preds ∧ (t.thread k).fp = (s.thread k).fp
  pred : ∀ k q, pdest ≠ some q → (t.thread k).pred q = (s.thread k).pred q
  reg : ∀ k n, (∀ j ∈ ks, (s.thread j).guard g = true → ∀ d, dest = some d → d ≠ 0 → (k, n) ≠ s.physReg j d.toNat) →
    (t.thread k).reg n = (s.thread k).reg n

/-- What one thread's writes leave: all of that but its PC. -/
structure State.WritesKept (dest : Option Reg) (pdest : Option Pred) (k : Nat) (s t : State) : Prop where
  rest : ∃ ts, t = { s with threads := ts }
  kept : ∀ j, (s.thread j).Kept (t.thread j)
  pc : ∀ j, (t.thread j).pc = (s.thread j).pc
  own : ∀ j, j ≠ k → (t.thread j).preds = (s.thread j).preds ∧ (t.thread j).fp = (s.thread j).fp
  pred : ∀ j q, pdest ≠ some q → (t.thread j).pred q = (s.thread j).pred q
  reg : ∀ j n, (∀ d, dest = some d → d ≠ 0 → (j, n) ≠ s.physReg k d.toNat) → (t.thread j).reg n = (s.thread j).reg n

section writes
variable {g : Guard} {dest : Option Reg} {pdest : Option Pred} {k : Nat} {s t : State}

theorem State.WritesKept.refl : s.WritesKept dest pdest k s :=
  ⟨⟨s.threads, rfl⟩, fun _ => .refl _, fun _ => rfl, fun _ _ => ⟨rfl, rfl⟩, fun _ _ _ => rfl, fun _ _ _ => rfl⟩

/-- What relates a thread to itself, and thread `p` to what it is changed to, relates each thread to what it then is. -/
theorem State.modThread_relates {P : Thread → Thread → Prop} (hrefl : ∀ t, P t t) {p : Nat} {f : Thread → Thread}
    (hp : P (s.thread p) (f (s.thread p))) (j : Nat) : P (s.thread j) ((s.modThread p f).thread j) := by
  by_cases e : j = p
  · rw [e, State.modThread_get_self]; exact hp
  · rw [State.modThread_get_ne _ _ _ e]; exact hrefl _

theorem State.modThread_writesKept {p : Nat} {f : Thread → Thread} (hkept : (s.thread p).Kept (f (s.thread p)))
    (hpc : (f (s.thread p)).pc = (s.thread p).pc)
    (hown : p ≠ k → (f (s.thread p)).preds = (s.thread p).preds ∧ (f (s.thread p)).fp = (s.thread p).fp)
    (hpred : ∀ q, pdest ≠ some q → (f (s.thread p)).pred q = (s.thread p).pred q)
    (hreg : ∀ n, (∀ d, dest = some d → d ≠ 0 → (p, n) ≠ s.physReg k d.toNat) → (f (s.thread p)).reg n = (s.thread p).reg n) :
    State.WritesKept dest pdest k s (s.modThread p f) where
  rest := ⟨_, rfl⟩
  kept := State.modThread_relates Thread.Kept.refl hkept
  pc := State.modThread_relates (P := fun t u => u.pc = t.pc) (fun _ => rfl) hpc
  own j hj := by
    by_cases e : j = p
    · subst e; rw [State.modThread_get_self]; exact hown hj
    · rw [State.modThread_get_ne _ _ _ e]; exact ⟨rfl, rfl⟩
  pred j q hq := State.modThread_relates (P := fun t u => u.pred q = t.pred q) (fun _ => rfl) (hpred q hq) j
  reg j n hn := by
    by_cases e : j = p
    · subst e; rw [State.modThread_get_self]; exact hreg n hn
    · rw [State.modThread_get_ne _ _ _ e]

theorem State.writeReg_kept {d : Reg} (hd : dest = some d) (v : Word) : State.WritesKept dest pdest k s (s.writeReg k d v) := by
  unfold State.writeReg
  split
  · exact .refl
  · next hd0 =>
    obtain ⟨rs, par, heq, hreg⟩ := (s.thread (s.physReg k d.toNat).1).setReg_eq (s.physReg k d.toNat).2 v
    refine State.modThread_writesKept (heq ▸ .of_fp rfl rfl rfl rfl rfl rfl rfl rfl) (heq ▸ rfl) (fun _ => heq ▸ ⟨rfl, rfl⟩)
      (fun _ _ => heq ▸ rfl) fun n hn => hreg n fun e => hn d hd hd0 (Prod.ext rfl e)

theorem State.setPred_kept {q : Pred} (hq : pdest = some q) (v : Bool) :
    State.WritesKept dest pdest k s (s.modThread k fun t => t.setPred q v) := by
  obtain ⟨ps, heq, hpred⟩ := (s.thread k).setPred_eq q v
  exact State.modThread_writesKept (heq ▸ .of_fp rfl rfl rfl rfl rfl rfl rfl rfl) (heq ▸ rfl) (fun h => absurd rfl h)
    (fun r hr => hpred r fun e => hr (e ▸ hq)) fun _ _ => heq ▸ rfl

theorem State.raiseFlags_kept (fl : BitVec 6) : State.WritesKept dest pdest k s (s.raiseFlags k fl) := by
  refine State.modThread_writesKept ⟨rfl, rfl, rfl, rfl, rfl, rfl, rfl, rfl, rfl, rfl, ?_⟩ rfl (fun h => absurd rfl h)
    (fun _ _ => rfl) fun _ _ => rfl
  show ((s.thread k).fp.fflags ||| fl) &&& (s.thread k).fp.fflags = (s.thread k).fp.fflags
  ext j hj
  simp only [BitVec.getElem_and, BitVec.getElem_or]
  cases (s.thread k).fp.fflags[j] <;> simp

theorem State.WritesKept.trans {u : State} (h : State.WritesKept dest pdest k s t) (h' : State.WritesKept dest pdest k t u)
    (hphys : ∀ n, t.physReg k n = s.physReg k n) : State.WritesKept dest pdest k s u where
  rest := by
    obtain ⟨ts, rfl⟩ := h.rest
    obtain ⟨us, rfl⟩ := h'.rest
    exact ⟨us, rfl⟩
  kept j := (h.kept j).trans (h'.kept j)
  pc j := (h'.pc j).trans (h.pc j)
  own j hj := ⟨(h'.own j hj).1.trans (h.own j hj).1, (h'.own j hj).2.trans (h.own j hj).2⟩
  pred j q hq := (h'.pred j q hq).trans (h.pred j q hq)
  reg j n hn := (h'.reg j n fun d hd hd0 => hphys _ ▸ hn d hd hd0).trans (h.reg j n hn)

/-- The writes of a form leave the checks of the other lanes, and all that a form leaves. -/
theorem State.FormWrites.kept (hk : (s.threads.find k).isSome = true) (h : s.FormWrites k dest pdest t) :
    LaneEffect k s t ∧ State.WritesKept dest pdest k s t := by
  induction h with
  | reg hd v => exact ⟨laneEffect_writeReg hk _ v, State.writeReg_kept hd v⟩
  | pred hq v => exact ⟨laneEffect_setPred hk _ v, State.setPred_kept hq v⟩
  | flags _ fl ih =>
    obtain ⟨heff, hkept⟩ := ih
    exact ⟨heff.trans (laneEffect_raiseFlags (heff.present hk) fl),
      hkept.trans (State.raiseFlags_kept fl) fun n => heff.1.physReg k n⟩

/-! ### The lanes one after another -/

theorem State.goTo_get_self (s : State) (k : Nat) (pc : Word) : (s.goTo k pc).thread k = (s.thread k).goTo pc :=
  State.modThread_get_self ..
theorem State.goTo_get_ne (s : State) (k : Nat) (pc : Word) {j : Nat} (h : j ≠ k) : (s.goTo k pc).thread j = s.thread j :=
  State.modThread_get_ne _ _ _ h

/-- What relates a thread to one that differs in PC and count of instructions alone. -/
theorem State.goTo_relates {P : Thread → Prop} {pc : Word} (hgo : ∀ t, P t → P (t.goTo pc)) {j : Nat} (h : P (s.thread j)) :
    P ((s.goTo k pc).thread j) := by
  by_cases e : j = k
  · subst e; rw [State.goTo_get_self]; exact hgo _ h
  · rw [State.goTo_get_ne _ _ _ e]; exact h

/-- One lane of the bundle. -/
theorem State.laneStep_kept {eff : Nat → State → State} (hw : State.FormWrites s k dest pdest (eff k s))
    (hk : (s.threads.find k).isSome = true) : State.LanesKept g dest pdest [k] s (laneStep g eff s k) := by
  have hkept : State.WritesKept dest pdest k s (if (s.thread k).guard g then eff k s else s) := by
    split
    · exact (hw.kept hk).2
    · exact .refl
  have hoff : (s.thread k).guard g ≠ true → (if (s.thread k).guard g then eff k s else s) = s := fun h => if_neg h
  unfold laneStep
  generalize (if (s.thread k).guard g then eff k s else s) = t at hkept hoff ⊢
  obtain ⟨ts, hts⟩ := hkept.rest
  refine ⟨⟨_, by rw [hts]; rfl⟩, fun j => ?kept, fun j hj => ?other, fun j hj => ?lane, fun j hj => ?own, fun j q hq => ?pred,
    fun j n hn => ?reg⟩
  case kept => exact State.goTo_relates (fun u h => h.trans (.of_fp rfl rfl rfl rfl rfl rfl rfl rfl)) (hkept.kept j)
  case other =>
    rw [State.goTo_get_ne _ _ _ (by simpa using hj)]
    exact hkept.pc j
  case lane =>
    obtain rfl := List.mem_singleton.1 hj
    rw [State.goTo_get_self]
    rfl
  case own =>
    refine State.goTo_relates (P := fun u => u.preds = (s.thread j).preds ∧ u.fp = (s.thread j).fp) (fun _ h => h) ?_
    by_cases e : j = k
    · subst e
      rw [hoff fun h => hj ⟨List.mem_singleton.2 rfl, h⟩]
      exact ⟨rfl, rfl⟩
    · exact hkept.own j e
  case pred =>
    exact State.goTo_relates (P := fun u => u.pred q = (s.thread j).pred q) (fun _ h => h) (hkept.pred j q hq)
  case reg =>
    refine State.goTo_relates (P := fun u => u.reg n = (s.thread j).reg n) (fun _ h => h) ?_
    by_cases h : (s.thread k).guard g = true
    · exact hkept.reg j n fun d hd hd0 => hn k (List.mem_singleton.2 rfl) h d hd hd0
    · rw [hoff h]

/-- A lane, and then the others. -/
theorem State.LanesKept.cons {ks : List Nat} {u : State} (h : State.LanesKept g dest pdest [k] s t)
    (h' : State.LanesKept g dest pdest ks t u) (hk : k ∉ ks) (hphys : ∀ j n, t.physReg j n = s.physReg j n) :
    State.LanesKept g dest pdest (k :: ks) s u := by
  have hguard : ∀ j, j ≠ k → (t.thread j).guard g = (s.thread j).guard g := fun j hj =>
    guard_of_preds (h.own j fun e => hj (List.mem_singleton.1 e.1)).1 g
  have hne : ∀ j ∈ ks, j ≠ k := fun j hj e => hk (e ▸ hj)
  refine ⟨?rest, fun j => (h.kept j).trans (h'.kept j), fun j hj => ?other, fun j hj => ?lane, fun j hj => ?own,
    fun j q hq => (h'.pred j q hq).trans (h.pred j q hq), fun j n hn => ?reg⟩
  case rest =>
    obtain ⟨ts, rfl⟩ := h.rest
    obtain ⟨us, rfl⟩ := h'.rest
    exact ⟨us, rfl⟩
  case other =>
    have hjk : j ∉ [k] := by simpa using List.ne_of_not_mem_cons hj
    exact (h'.pc_other j (List.not_mem_of_not_mem_cons hj)).trans (h.pc_other j hjk)
  case lane =>
    rcases List.mem_cons.1 hj with rfl | hj
    · rw [h'.pc_other j hk, h.pc_lane j (List.mem_singleton.2 rfl)]
    · rw [h'.pc_lane j hj, h.pc_other j (by simpa using hne j hj)]
  case own =>
    have hfirst := h.own j fun e => hj ⟨List.mem_cons.2 (.inl (List.mem_singleton.1 e.1)), e.2⟩
    have hrest := h'.own j fun e => hj ⟨List.mem_cons_of_mem _ e.1, hguard j (hne j e.1) ▸ e.2⟩
    exact ⟨hrest.1.trans hfirst.1, hrest.2.trans hfirst.2⟩
  case reg =>
    refine (h'.reg j n fun i hi hg d hd hd0 => ?_).trans (h.reg j n fun i hi hg d hd hd0 => ?_)
    · rw [hphys]
      exact hn i (List.mem_cons_of_mem _ hi) (hguard i (hne i hi) ▸ hg) d hd hd0
    · exact hn i (List.mem_cons.2 (.inl (List.mem_singleton.1 hi))) hg d hd hd0

theorem State.lanes_kept {eff : Nat → State → State} (hw : ∀ k s, State.FormWrites s k dest pdest (eff k s)) :
    ∀ (ks : List Nat) (s : State), ks.Nodup → (∀ k ∈ ks, (s.threads.find k).isSome = true) →
      State.LanesKept g dest pdest ks s (ks.foldl (laneStep g eff) s) := by
  intro ks
  induction ks with
  | nil =>
    intro s _ _
    exact ⟨⟨_, rfl⟩, fun _ => .refl _, fun _ _ => rfl, by simp, fun _ _ => ⟨rfl, rfl⟩, fun _ _ _ => rfl, fun _ _ _ => rfl⟩
  | cons k ks ih =>
    intro s hn hk
    obtain ⟨hks, hn⟩ := List.nodup_cons.1 hn
    have hstep : LaneEffect k s (laneStep g eff s k) :=
      laneEffect_laneStep (fun k s hk => ((hw k s).kept hk).1) (hk k List.mem_cons_self)
    exact (State.laneStep_kept (hw k s) (hk k List.mem_cons_self)).cons
      (ih _ hn fun j hj => hstep.present (hk j (List.mem_cons_of_mem _ hj))) hks fun j n => hstep.1.physReg j n

end writes

/-! ### The bundle -/

/-- A bundle that parts changes in membership alone. -/
theorem State.splitBundle_kept (s : State) (ks : List Nat) : ∃ cs, s.splitBundle ks = { s with cores := cs } ∧
    ∀ n, ∃ bs, (s.splitBundle ks).core n = { s.core n with bundles := bs } := by
  unfold State.splitBundle
  dsimp only
  refine List.foldlRecOn ks _ (motive := fun t : State => ∃ cs, t = { s with cores := cs } ∧
    ∀ n, ∃ bs, t.core n = { s.core n with bundles := bs }) ⟨s.cores, rfl, fun n => ⟨_, rfl⟩⟩ fun t ht k _ => ?_
  obtain ⟨cs, rfl, hcores⟩ := ht
  split
  · exact ⟨cs, rfl, hcores⟩
  · unfold State.leaveBundle
    split
    · exact ⟨cs, rfl, hcores⟩
    · refine ⟨_, rfl, fun n => ?_⟩
      obtain ⟨bs, hbs⟩ := hcores n
      generalize ({ s with cores := cs } : State) = t at hbs ⊢
      by_cases e : n = t.coreOf k
      · subst e
        rw [State.modCore_get_self, Core.leave, hbs]
        exact ⟨_, rfl⟩
      · rw [State.modCore_get_ne _ _ _ e]
        exact ⟨bs, hbs⟩

/-- The lanes one after another, then the membership of the bundle. -/
theorem State.laneByLane_kept {i : Instr} {f : RegForm} {s : State} {eff : Nat → State → State} (hform : FormIssues i f eff)
    (hadm : s.admits f.g anyCore .runs (f.regs.map (·.toNat))) :
    State.LanesKept f.g f.dest f.pdest s.issuing s { s.laneByLane f.g eff with cores := s.cores }
      ∧ ∀ n, ∃ bs, (s.laneByLane f.g eff).core n = { s.core n with bundles := bs } := by
  have hkept := State.lanes_kept (g := f.g) hform.writes s.issuing s hadm.1 fun k hk => (hadm.2 k hk).1
  obtain ⟨cs, hsplit, hcores⟩ := State.splitBundle_kept (s.issuing.foldl (laneStep f.g eff) s) s.issuing
  have hrun : s.laneByLane f.g eff = (s.issuing.foldl (laneStep f.g eff) s).splitBundle s.issuing := rfl
  obtain ⟨ts, hts⟩ := hkept.rest
  rw [hrun]
  constructor
  · rw [hsplit]
    have hsame : ({ s.issuing.foldl (laneStep f.g eff) s with cores := s.cores } : State) = s.issuing.foldl (laneStep f.g eff) s := by
      rw [hts]
    exact hsame ▸ hkept
  · intro n
    obtain ⟨bs, hbs⟩ := hcores n
    have hn : (s.issuing.foldl (laneStep f.g eff) s).core n = s.core n := by rw [hts]; rfl
    exact ⟨bs, hn ▸ hbs⟩

/-- A bundle that completes a register form. -/
theorem exec_form {i : Instr} {f : RegForm} {s : State} {eff : Nat → State → State} (hform : FormIssues i f eff)
    (hadm : s.admits f.g anyCore .runs (f.regs.map (·.toNat))) : exec i s = .next (s.laneByLane f.g eff) := by
  rw [hform.exec_eq]
  exact perThread_lanes hadm (fun _ _ _ => rfl) fun k s hk => ((hform.writes k s).kept hk).1

/-- Settles O16: by what the lanes leave and what the bundle's membership changes. -/
theorem registerFormsFrame : Obligations.RegisterFormsFrame := by
  intro i f s t hf hadm hex
  obtain ⟨eff, hform⟩ := regForm_issues hf
  obtain rfl : s.laneByLane f.g eff = t := Host.Outcome.next.inj ((exec_form hform hadm).symm.trans hex)
  obtain ⟨hkept, hcores⟩ := State.laneByLane_kept hform hadm
  generalize s.laneByLane f.g eff = t at hkept hcores ⊢
  obtain ⟨⟨ts, hts⟩, hthread, hpcOther, hpcLane, hown, hpred, hreg⟩ := hkept
  obtain ⟨cs, rfl⟩ : ∃ cs, t = { s with threads := ts, cores := cs } :=
    ⟨t.cores, congrArg (fun u : State => { u with cores := t.cores }) hts⟩
  refine ⟨rfl, rfl, rfl, rfl, rfl, rfl, rfl, rfl, rfl, rfl, rfl, rfl, rfl, rfl, rfl, rfl, rfl, rfl, rfl, rfl, fun n => ?cores,
    fun k => ?kept, hpcOther, hpcLane, hown, fun k => (hthread k).fflags, hpred, hreg⟩
  case cores =>
    obtain ⟨bs, hbs⟩ := hcores n
    rw [hbs]
    exact ⟨rfl, rfl, rfl, rfl, rfl⟩
  case kept =>
    have h := hthread k
    exact ⟨h.trap, h.oc, h.st, h.ids, h.regcnt, h.loambase, h.spec, h.frm, h.ftrapen, h.fid⟩

end Sys2Proof.Machine
end

section
/-!
PROOFS. The values of the cross-lane instructions (R258, R444, R451, R452, R456, R457, R475).
-/
namespace Sys2Proof.Machine

/-! ### A word from a function of its bit positions -/

/-- The number whose bits below `n` are those of `f`. -/
def natOfBits (f : Nat → Bool) (n : Nat) : Nat := (List.range n).foldl (fun m j => m + if f j then 2 ^ j else 0) 0

theorem natOfBits_succ (f : Nat → Bool) (n : Nat) : natOfBits f (n + 1) = natOfBits f n + if f n then 2 ^ n else 0 := by
  simp [natOfBits, List.range_succ]

theorem natOfBits_lt (f : Nat → Bool) (n : Nat) : natOfBits f n < 2 ^ n := by
  induction n with
  | zero => simp [natOfBits]
  | succ n ih => rw [natOfBits_succ, Nat.pow_succ]; split <;> omega

theorem natOfBits_testBit (f : Nat → Bool) (n j : Nat) : (natOfBits f n).testBit j = (decide (j < n) && f j) := by
  induction n with
  | zero => simp [natOfBits]
  | succ n ih =>
    have hlt := natOfBits_lt f n
    rw [natOfBits_succ]
    rcases Nat.lt_trichotomy j n with hj | rfl | hj
    · have hkeep : (natOfBits f n + if f n then 2 ^ n else 0).testBit j = (natOfBits f n).testBit j := by
        split
        · rw [Nat.add_comm, Nat.testBit_two_pow_add_gt hj]
        · rw [Nat.add_zero]
      simp [hkeep, ih, hj, Nat.lt_succ_of_lt hj]
    · cases hf : f j
      · simp [Nat.testBit_lt_two_pow hlt]
      · simp [Nat.add_comm _ (2 ^ j), Nat.testBit_two_pow_add_eq, Nat.testBit_lt_two_pow hlt]
    · have hout : natOfBits f (n + 1) < 2 ^ j :=
        Nat.lt_of_lt_of_le (natOfBits_lt f (n + 1)) (Nat.pow_le_pow_right (by decide) hj)
      rw [← natOfBits_succ, Nat.testBit_lt_two_pow hout]
      simp [Nat.not_lt.2 hj]

theorem wordOfBits_getLsbD (f : Nat → Bool) (j : Nat) : (wordOfBits f).getLsbD j = (decide (j < 64) && f j) := by
  have h : wordOfBits f = BitVec.ofNat 64 (natOfBits f 64) := rfl
  rw [h, BitVec.getLsbD_ofNat, natOfBits_testBit]
  cases decide (j < 64) <;> rfl

/-- A word is the word of its bits. -/
theorem eq_wordOfBits {w : Word} {f : Nat → Bool} (h : ∀ j < 64, w.getLsbD j = f j) : w = wordOfBits f := by
  ext j hj
  rw [← BitVec.getLsbD_eq_getElem, ← BitVec.getLsbD_eq_getElem, wordOfBits_getLsbD, h j hj]
  simp [hj]

/-- A sum of powers of different positions is the word of those positions. -/
theorem sum_two_pow_eq_wordOfBits {ls : List Nat} (hn : ls.Nodup) (hlt : ∀ l ∈ ls, l < 64) :
    BitVec.ofNat 64 ((ls.map (2 ^ ·)).sum) = wordOfBits fun j => ls.contains j := by
  have hsum : (ls.map (2 ^ ·)).sum = natOfBits (fun j => ls.contains j) 64 := by
    have hbits : ∀ n, natOfBits (fun j => ls.contains j) n = ∑ j ∈ Finset.range n, if ls.contains j then 2 ^ j else 0 := by
      intro n
      induction n with
      | zero => rfl
      | succ n ih => rw [natOfBits_succ, Finset.sum_range_succ, ih]
    rw [hbits, ← List.sum_toFinset _ hn, ← Finset.sum_filter]
    refine Finset.sum_congr (Finset.ext fun j => ?_) fun _ _ => rfl
    simp only [List.mem_toFinset, Finset.mem_filter, Finset.mem_range, List.contains_iff_mem]
    exact ⟨fun h => ⟨hlt j h, h⟩, fun h => h.2⟩
  rw [hsum]
  rfl

/-! ### Reductions -/

section reduce
variable (vs : List Word) (v : Word)

theorem foldl_add_eq (n : Nat) : vs.foldl (redStep .add) (BitVec.ofNat 64 n) = BitVec.ofNat 64 ((vs.map (·.toNat)).foldl (· + ·) n) := by
  induction vs generalizing n with
  | nil => rfl
  | cons w vs ih =>
    have hstep : redStep .add (BitVec.ofNat 64 n) w = BitVec.ofNat 64 (n + w.toNat) := by simp [redStep, BitVec.ofNat_add]
    rw [List.foldl_cons, hstep, ih, List.map_cons, List.foldl_cons]

/-- A measure of words that each step of a reduction maps to a step. -/
theorem foldl_redStep_measure {β : Type} {op : RedOp} {P : Word → β} {f : β → β → β}
    (h : ∀ x y, P (redStep op x y) = f (P x) (P y)) : P (vs.foldl (redStep op) v) = (vs.map P).foldl f (P v) := by
  induction vs generalizing v with
  | nil => rfl
  | cons w vs ih => rw [List.foldl_cons, ih, h, List.map_cons, List.foldl_cons]

theorem redStep_min_toInt (x y : Word) : (redStep .min x y).toInt = min x.toInt y.toInt := by
  by_cases h : x.toInt < y.toInt
  · simp [redStep, BitVec.slt, h, min_eq_left h.le]
  · simp [redStep, BitVec.slt, h, min_eq_right (not_lt.1 h)]

theorem redStep_max_toInt (x y : Word) : (redStep .max x y).toInt = max x.toInt y.toInt := by
  by_cases h : x.toInt < y.toInt
  · simp [redStep, BitVec.slt, h, max_eq_right h.le]
  · simp [redStep, BitVec.slt, h, max_eq_left (not_lt.1 h)]

theorem redStep_minu_toNat (x y : Word) : (redStep .minu x y).toNat = min x.toNat y.toNat := by
  by_cases h : x.toNat < y.toNat
  · simp [redStep, BitVec.ult, h, min_eq_left h.le]
  · simp [redStep, BitVec.ult, h, min_eq_right (not_lt.1 h)]

theorem redStep_maxu_toNat (x y : Word) : (redStep .maxu x y).toNat = max x.toNat y.toNat := by
  by_cases h : x.toNat < y.toNat
  · simp [redStep, BitVec.ult, h, max_eq_right h.le]
  · simp [redStep, BitVec.ult, h, max_eq_left (not_lt.1 h)]

theorem foldl_and_getLsbD (j : Nat) : (vs.foldl (redStep .and) v).getLsbD j = (v.getLsbD j && vs.all fun w => w.getLsbD j) := by
  induction vs generalizing v with
  | nil => simp
  | cons w vs ih => simp [ih, redStep, Bool.and_assoc]

theorem foldl_or_getLsbD (j : Nat) : (vs.foldl (redStep .or) v).getLsbD j = (v.getLsbD j || vs.any fun w => w.getLsbD j) := by
  induction vs generalizing v with
  | nil => simp
  | cons w vs ih => simp [ih, redStep, Bool.or_assoc]

theorem foldl_xor_getLsbD (j : Nat) :
    (vs.foldl (redStep .xor) v).getLsbD j = (v.getLsbD j ^^ (vs.countP (fun w => w.getLsbD j) % 2 == 1)) := by
  induction vs generalizing v with
  | nil => simp
  | cons w vs ih =>
    rw [List.foldl_cons, ih, List.countP_cons]
    have hodd : ∀ n : Nat, ((n + 1) % 2 == 1) = !(n % 2 == 1) := fun n => by
      rcases Nat.mod_two_eq_zero_or_one n with h | h <;> simp [Nat.add_mod, h]
    cases hw : w.getLsbD j
    · simp [redStep, hw]
    · simp only [redStep, BitVec.getLsbD_xor, hw, if_true, hodd]
      cases v.getLsbD j <;> simp

end reduce

theorem eq_ofInt {w : Word} {n : Int} (h : w.toInt = n) : w = BitVec.ofInt 64 n := by rw [← h, BitVec.ofInt_toInt]
theorem eq_ofNat {w : Word} {n : Nat} (h : w.toNat = n) : w = BitVec.ofNat 64 n := by rw [← h, BitVec.ofNat_toNat, BitVec.setWidth_eq]

/-- The reduction of R444 is the operation over the values, however it is taken. -/
theorem redOver_eq_reduceTo (op : RedOp) (dbl : Bool) (mode : Mode) (vs : List Word) :
    redOver op dbl mode vs = reduceTo op dbl mode vs := by
  cases vs with
  | nil => cases op <;> rfl
  | cons v vs =>
    have hlo : -(2 ^ 63) ≤ v.toInt := BitVec.le_toInt v
    have hhi : v.toInt ≤ 2 ^ 63 - 1 := BitVec.toInt_le
    have hnat : v.toNat ≤ 2 ^ 64 - 1 := Nat.le_pred_of_lt v.isLt
    cases op with
    | fadd => rfl
    | add =>
      have h := foldl_add_eq vs v.toNat
      rw [BitVec.ofNat_toNat, BitVec.setWidth_eq] at h
      simp [redOver, reduceTo, h]
    | min =>
      refine Prod.ext (eq_ofInt ((foldl_redStep_measure vs v redStep_min_toInt).trans ?_)) rfl
      rw [List.map_cons, List.foldl_cons, min_eq_right hhi]
    | max =>
      refine Prod.ext (eq_ofInt ((foldl_redStep_measure vs v redStep_max_toInt).trans ?_)) rfl
      rw [List.map_cons, List.foldl_cons, max_eq_right hlo]
    | minu =>
      refine Prod.ext (eq_ofNat ((foldl_redStep_measure vs v redStep_minu_toNat).trans ?_)) rfl
      rw [List.map_cons, List.foldl_cons, min_eq_right hnat]
    | maxu =>
      refine Prod.ext (eq_ofNat ((foldl_redStep_measure vs v redStep_maxu_toNat).trans ?_)) rfl
      rw [List.map_cons, List.foldl_cons, max_eq_right (Nat.zero_le _)]
    | and =>
      refine Prod.ext (eq_wordOfBits fun j _ => (foldl_and_getLsbD vs v j).trans ?_) rfl
      rw [List.all_cons]
    | or =>
      refine Prod.ext (eq_wordOfBits fun j _ => (foldl_or_getLsbD vs v j).trans ?_) rfl
      rw [List.any_cons]
    | xor =>
      refine Prod.ext (eq_wordOfBits fun j _ => (foldl_xor_getLsbD vs v j).trans ?_) rfl
      rw [List.countP_cons, Nat.add_mod]
      rcases Nat.mod_two_eq_zero_or_one (vs.countP fun w => w.getLsbD j) with h | h <;> cases v.getLsbD j <;> simp [h]

end Sys2Proof.Machine
end

section
/-!
PROOFS. What the members of a cross-lane instruction receive.
-/
namespace Sys2Proof.Machine

/-- What the values of a cross-lane instruction read of its members is the same in both states, and its members stand on lanes
of their own. -/
structure MembersAgree (regs : List Reg) (s s1 : State) (members : List Nat) : Prop where
  nodup : members.Nodup
  lanes : ∀ x ∈ members, ∀ y ∈ members, laneOf x = laneOf y → x = y
  contribution : ∀ x ∈ members, ∀ r ∈ regs, s1.contribution x r = s.readReg x r
  readReg : ∀ x ∈ members, ∀ r ∈ regs, s1.readReg x r = s.readReg x r
  preds : ∀ x ∈ members, (s1.thread x).preds = (s.thread x).preds
  frm : ∀ x ∈ members, (s1.thread x).fp.frm = (s.thread x).fp.frm

/-- The instruction is the cross-lane one of its form, and its members receive the form's values. -/
structure CrossIssues (i : Instr) (f : CrossForm) (res : XResult) : Prop where
  exec_eq : ∀ s, exec i s = xlane s i f.g f.regs f.d f.mask res
  mask_mem : f.mask ∈ f.regs
  value : ∀ {s s1 : State} {members : List Nat}, MembersAgree f.regs s s1 members → ∀ k ∈ members,
    res s1 members k = f.value s members k

theorem laneOf_lt (x : Nat) : laneOf x < 32 := Nat.mod_lt _ (by decide)

section values
variable {regs : List Reg} {s s1 : State} {members : List Nat} (h : MembersAgree regs s s1 members) {k : Nat} (hk : k ∈ members)
include h

theorem MembersAgree.pred {x : Nat} (hx : x ∈ members) (p : Pred) : (s1.thread x).pred p = (s.thread x).pred p := by
  simp [Thread.pred, h.preds x hx]

/-- The mode of a collective is that of its lowest member. -/
theorem MembersAgree.mode (hk : k ∈ members) (rm : Rm) : redMode s1 members rm = modeOf s (members.headD 0) rm := by
  have hhead : members.headD 0 ∈ members := by
    cases members with
    | nil => cases hk
    | cons x xs => exact List.mem_cons_self
  cases rm
  case dyn => exact congrArg Mode.ofFrm (h.frm _ hhead)
  all_goals rfl

theorem MembersAgree.contributions {a : Reg} (ha : a ∈ regs) {xs : List Nat} (hxs : ∀ x ∈ xs, x ∈ members) :
    (xs.map fun x => s1.contribution x a) = xs.map fun x => s.readReg x a :=
  List.map_congr_left fun x hx => h.contribution x (hxs x hx) a ha

include hk

theorem shflResult_eq {m : ShflMode} {a b : Reg} (ha : a ∈ regs) (hb : b ∈ regs) :
    shflResult m a b s1 members k = (s.readReg ((members.find? fun j => match m with
        | .idx => laneOf j == (s.readReg k b).toNat % 32
        | .up => laneOf j + (s.readReg k b).toNat % 32 == laneOf k
        | .down => laneOf j == laneOf k + (s.readReg k b).toNat % 32
        | .xor => laneOf j == laneOf k ^^^ (s.readReg k b).toNat % 32).getD k) a, 0) := by
  have hsrc : ∀ p : Nat → Bool, (members.find? p).getD k ∈ members := by
    intro p
    cases hf : members.find? p with
    | none => exact hk
    | some x => exact List.mem_of_find?_eq_some hf
  unfold shflResult
  dsimp only
  rw [h.readReg k hk b hb]
  generalize (s.readReg k b).toNat % 32 = n
  cases m with
  | idx | xor => exact congrArg (·, _) (h.contribution _ (hsrc _) a ha)
  | up =>
    by_cases hn : n ≤ laneOf k
    · have hp : ∀ x, (laneOf x == laneOf k - n) = (laneOf x + n == laneOf k) := fun x => by
        rw [Bool.eq_iff_iff, beq_iff_eq, beq_iff_eq]; omega
      simp only [if_pos hn, hp]
      exact congrArg (·, _) (h.contribution _ (hsrc _) a ha)
    · have hnone : members.find? (fun x => laneOf x + n == laneOf k) = none :=
        List.find?_eq_none.2 fun x _ => by rw [beq_iff_eq]; omega
      simp only [if_neg hn, hnone]
      exact congrArg (·, _) (h.contribution k hk a ha)
  | down =>
    by_cases hn : laneOf k + n < 32
    · simp only [if_pos hn]
      exact congrArg (·, _) (h.contribution _ (hsrc _) a ha)
    · have hnone : members.find? (fun x => laneOf x == laneOf k + n) = none :=
        List.find?_eq_none.2 fun x _ => by have := laneOf_lt x; rw [beq_iff_eq]; omega
      simp only [if_neg hn, hnone]
      exact congrArg (·, _) (h.contribution k hk a ha)

omit hk in
/-- The ballot is the word of the lanes on which the predicate holds. -/
theorem ballot_eq (p : Nat → Bool) :
    BitVec.ofNat 64 ((members.filter p).foldl (fun n x => n + 2 ^ laneOf x) 0)
      = wordOfBits fun j => members.any fun x => laneOf x == j && p x := by
  have hsum : (members.filter p).foldl (fun n x => n + 2 ^ laneOf x) 0 = (((members.filter p).map laneOf).map (2 ^ ·)).sum := by
    rw [List.sum_eq_foldl, List.map_map, List.foldl_map]
    rfl
  have hnd : ((members.filter p).map laneOf).Nodup :=
    (h.nodup.filter p).map_on fun x hx y hy e => h.lanes x (List.mem_of_mem_filter hx) y (List.mem_of_mem_filter hy) e
  rw [hsum, sum_two_pow_eq_wordOfBits hnd fun l hl => ?lt]
  case lt =>
    obtain ⟨x, -, rfl⟩ := List.mem_map.1 hl
    exact Nat.lt_trans (laneOf_lt x) (by decide)
  congr 1
  funext j
  rw [Bool.eq_iff_iff]
  simp only [List.contains_iff_mem, List.mem_map, List.mem_filter, List.any_eq_true, Bool.and_eq_true, beq_iff_eq]
  exact ⟨fun ⟨x, ⟨hx, hp⟩, e⟩ => ⟨x, hx, e, hp⟩, fun ⟨x, hx, e, hp⟩ => ⟨x, ⟨hx, hp⟩, e⟩⟩

theorem voteResult_eq {m : VoteMode} {ps : Pred} {a : Reg} (ha : a ∈ regs) :
    voteResult m ps a s1 members k = (match m with
        | .all => if ∀ x ∈ members, (s.thread x).pred ps = true then 1 else 0
        | .any => if ∃ x ∈ members, (s.thread x).pred ps = true then 1 else 0
        | .ballot => wordOfBits fun j => members.any fun x => laneOf x == j && (s.thread x).pred ps
        | .uni => if ∀ x ∈ members, s.readReg x a = s.readReg k a then 1 else 0, 0) := by
  unfold voteResult
  refine congrArg (·, _) ?_
  cases m with
  | all =>
    refine if_congr ?_ rfl rfl
    rw [List.all_eq_true]
    exact forall₂_congr fun x hx => by rw [h.pred hx]
  | any =>
    refine if_congr ?_ rfl rfl
    rw [List.any_eq_true]
    exact exists_congr fun x => and_congr_right fun hx => by rw [h.pred hx]
  | ballot =>
    have hp : members.filter (fun x => (s1.thread x).pred ps) = members.filter fun x => (s.thread x).pred ps :=
      List.filter_congr fun x hx => h.pred hx ps
    dsimp only
    rw [hp]
    exact ballot_eq h _
  | uni =>
    refine if_congr ?_ rfl rfl
    rw [List.all_eq_true]
    exact forall₂_congr fun x hx => by rw [beq_iff_eq, h.contribution x hx a ha, h.contribution k hk a ha]

theorem redbResult_eq {op : RedOp} {dbl : Bool} {rm : Rm} {a : Reg} (ha : a ∈ regs) :
    redbResult op dbl rm a s1 members k
      = reduceTo op dbl (modeOf s (members.headD 0) rm) (members.map fun x => s.readReg x a) := by
  rw [redbResult, redOver_eq_reduceTo, h.mode hk, h.contributions ha fun _ hx => hx]

theorem scanbResult_eq {exc : Bool} {op : RedOp} {dbl : Bool} {rm : Rm} {a : Reg} (ha : a ∈ regs) :
    scanbResult exc op dbl rm a s1 members k = reduceTo op dbl (modeOf s (members.headD 0) rm)
      ((members.filter fun x => decide (laneOf x < laneOf k) || (laneOf x == laneOf k && !exc)).map fun x => s.readReg x a) := by
  have hpart : members.filter (fun x => decide (laneOf x < laneOf k) || (!exc && x == k))
      = members.filter fun x => decide (laneOf x < laneOf k) || (laneOf x == laneOf k && !exc) := by
    refine List.filter_congr fun x hx => ?_
    have heq : (x == k) = (laneOf x == laneOf k) := by
      rw [Bool.eq_iff_iff, beq_iff_eq, beq_iff_eq]
      exact ⟨fun e => e ▸ rfl, h.lanes x hx k hk⟩
    rw [heq, Bool.and_comm (!exc)]
  rw [scanbResult, redOver_eq_reduceTo, h.mode hk, hpart, h.contributions ha fun _ hx => List.mem_of_mem_filter hx]

end values

/-- Every cross-lane form issues so. -/
theorem crossForm_issues {i : Instr} {f : CrossForm} (hf : crossForm i = some f) : ∃ res, CrossIssues i f res := by
  unfold crossForm at hf
  split at hf
  case h_1 =>
    obtain rfl := Option.some.inj hf
    exact ⟨_, fun _ => rfl, by simp, fun h k hk => shflResult_eq h hk (by simp) (by simp)⟩
  case h_2 =>
    obtain rfl := Option.some.inj hf
    exact ⟨_, fun _ => rfl, by simp, fun h k hk => voteResult_eq h hk (by simp)⟩
  case h_3 =>
    obtain rfl := Option.some.inj hf
    exact ⟨_, fun _ => rfl, by simp, fun h k hk => redbResult_eq h hk (by simp)⟩
  case h_4 =>
    obtain rfl := Option.some.inj hf
    exact ⟨_, fun _ => rfl, by simp, fun h k hk => scanbResult_eq h hk (by simp)⟩
  case h_5 => cases hf

end Sys2Proof.Machine
end

section
/-!
PROOFS. Arrival and completion of the cross-lane instructions (R37 to R40).
-/
namespace Sys2Proof.Machine

variable {s : State} {k : Nat} {i : Instr} {g : Guard} {regs : List Reg} {d c : Reg} {res : XResult}

/-! ### The one thread that issues arrives -/

/-- One thread arrives, whatever its guard (R38). -/
theorem xlane_gone {t : State} (h1 : s.issuing = [k]) (hp : s.passes k simtOnly .holds (regs.map (·.toNat))) (hc : c ∈ regs)
    (ha : s.arrive k i g d c res = .go t .gone) : xlane s i g regs d c res = .next (t.leaveBundle k) := by
  have hbad : s.regBad k c.toNat = false := hp.2.2.1 _ (List.mem_map_of_mem hc)
  have hmode : ((s.thread k).spec.mode == .speculating) = false := by simpa using hp.2.2.2.2 rfl
  have hlane : isLat k = false := by
    have hkind := hp.1
    cases e : isLat k <;> simp_all [simtOnly]
  simp only [xlane, h1, runThreads, State.check_none hp, hmode, hlane, hbad, ha, State.applyRes, Bool.or_self, ite_self,
    Bool.false_eq_true, if_false, List.nil_append, State.splitBundle_nil]

section arrive
variable {cr : Crew} {m : BitVec 32} (hcr : s.crews.find (crewOf k) = some cr) (hm : (s.readReg k c).setWidth 32 = m)
include hcr hm

/-- A thread that neither its mask nor the waiting set names raises JOIN (R39). -/
theorem State.arrive_unnamed (hl : m.getLsbD (laneOf k) = false)
    (hw : ∀ a, (cr.sets.find? fun a => a.pc == (s.thread k).pc) = some a → a.members.getLsbD (laneOf k) = false)
    (hg : (s.thread k).guard g = true) :
    s.arrive k i g d c res = .go (s.takeTrap k cJOIN 0 (m.setWidth 64) (s.thread k).pc) .gone := by
  have hany : ((cr.sets.find? fun a => a.pc == (s.thread k).pc).any fun a => a.members.getLsbD (laneOf k)) = false := by
    cases hf : cr.sets.find? fun a => a.pc == (s.thread k).pc with
    | none => rfl
    | some a => exact hw a hf
  simp [State.arrive, hcr, hm, hl, hany, hg]

section named
variable (hmode : (s.thread k).spec.mode ≠ .speculating)
include hmode

/-- A mask that differs from the waiting set's fails the set and the thread (R39). -/
theorem State.arrive_mismatch {a : ArrivalSet} (hl : m.getLsbD (laneOf k) = true ∨ a.members.getLsbD (laneOf k) = true)
    (hw : (cr.sets.find? fun a => a.pc == (s.thread k).pc) = some a) (hne : m ≠ a.members) :
    s.arrive k i g d c res
      = .go ((s.failSet (crewOf k) a).takeTrap k cJOIN 0 (m.setWidth 64) (s.thread k).pc) .gone := by
  have hname : (!m.getLsbD (laneOf k) && !a.members.getLsbD (laneOf k)) = false := by
    rcases hl with h | h <;> simp [h]
  simp [State.arrive, hcr, hm, hw, hname, hmode, hne.symm]

/-- The set of a thread's instruction once it has arrived. -/
def arrivedSet (old : Option ArrivalSet) (pc : Word) (m : BitVec 32) (l : Nat) : ArrivalSet :=
  match old with
  | some a => { a with arrived := a.arrived ||| laneBit l }
  | none => ⟨pc, m, laneBit l⟩

/-- The thread parked, and its set with its crew (R37). -/
def State.withArrival (s : State) (k : Nat) (i : Instr) (a : ArrivalSet) : State :=
  ((s.leaveBundle k).parkThread k .xlane i).modCrew (crewOf k) fun x =>
    { x with sets := a :: x.sets.filter fun b => b.pc != (s.thread k).pc }

/-- A named thread with the mask of its set, all of whose members are there. -/
theorem State.arrive_named {a : ArrivalSet} (hl : m.getLsbD (laneOf k) = true)
    (hpres : ∀ j, j < 32 → m.getLsbD j = true → (s.threads.find (laneKey (crewOf k) j)).isSome = true)
    (ha : arrivedSet (cr.sets.find? fun a => a.pc == (s.thread k).pc) (s.thread k).pc m (laneOf k) = a) (hmem : a.members = m) :
    s.arrive k i g d c res = if a.arrived = m then
        .go ((s.withArrival k i a).completeSet (crewOf k) g d ((lanesOf m).map (laneKey (crewOf k))) res) .gone
      else .go (s.withArrival k i a) .gone := by
  have habs : ((lanesOf m).any fun j => (s.threads.find (laneKey (crewOf k) j)).isNone) = false := by
    rw [List.any_eq_false]
    intro j hj
    have hj : j < 32 ∧ m.getLsbD j = true := by simpa [lanesOf] using hj
    have := hpres j hj.1 hj.2
    cases hf : s.threads.find (laneKey (crewOf k) j) <;> simp_all
  have hmode' : ((s.thread k).spec.mode == .speculating) = false := by simpa using hmode
  subst ha
  cases hw : cr.sets.find? fun a => a.pc == (s.thread k).pc with
  | none =>
    simp only [State.arrive, hcr, hm, hl, hmode', hw, habs, Bool.not_true, Bool.false_and, Bool.false_eq_true, if_false,
      ne_eq, not_true_eq_false, or_self]
    rfl
  | some b =>
    have hb : b.members = m := by simpa [hw, arrivedSet] using hmem
    simp only [State.arrive, hcr, hm, hl, hmode', hw, hb, habs, Bool.not_true, Bool.false_and, Bool.false_eq_true, if_false,
      ne_eq, not_true_eq_false, or_self]
    rw [← hb]
    rfl

end named
end arrive

end Sys2Proof.Machine
end

section
/-!
PROOFS. The completion of a cross-lane set (R37, R38).
-/
namespace Sys2Proof.Machine

/-! ### Lanes of a crew without mappings -/

theorem crewOf_laneKey {c l : Nat} (hl : l < 32) : crewOf (laneKey c l) = c := by simp only [crewOf, laneKey]; omega
theorem laneOf_laneKey {c l : Nat} (hl : l < 32) : laneOf (laneKey c l) = l := by simp only [laneOf, laneKey]; omega
theorem isLat_laneKey (c l : Nat) : isLat (laneKey c l) = false := by unfold isLat laneKey; exact decide_eq_false (by omega)

/-- The crew stands and maps no registers. -/
def State.Unmapped (s : State) (c : Nat) : Prop := ∃ cr, s.crews.find c = some cr ∧ cr.maps = []

theorem State.Unmapped.physReg {s : State} {c x : Nat} (h : s.Unmapped c) (hlat : isLat x = false) (hx : crewOf x = c) (n : Nat) :
    s.physReg x n = (x, n) := by
  obtain ⟨cr, hcr, hmaps⟩ := h
  simp [State.physReg, State.crewAt, hlat, hx, hcr, Crew.mapping, hmaps]

@[simp] theorem State.leaveBundle_thread (s : State) (k j : Nat) : (s.leaveBundle k).thread j = s.thread j := by
  unfold State.leaveBundle; split <;> rfl
@[simp] theorem State.leaveBundle_threads (s : State) (k : Nat) : (s.leaveBundle k).threads = s.threads := by
  unfold State.leaveBundle; split <;> rfl
@[simp] theorem State.leaveBundle_crews (s : State) (k : Nat) : (s.leaveBundle k).crews = s.crews := by
  unfold State.leaveBundle; split <;> rfl
@[simp] theorem State.leaveBundle_mem (s : State) (k : Nat) : (s.leaveBundle k).mem = s.mem := by
  unfold State.leaveBundle; split <;> rfl

/-! ### A member takes its result -/

/-- A register that stands in the thread's own window, written. -/
theorem State.writeReg_own {s : State} {x : Nat} {d : Reg} (hphys : s.physReg x d.toNat = (x, d.toNat)) (v : Word) :
    (s.writeReg x d v).mem = s.mem ∧ (s.writeReg x d v).crews = s.crews
      ∧ (s.writeReg x d v).thread x = (s.thread x).setReg d.toNat v ∧ ∀ y, y ≠ x → (s.writeReg x d v).thread y = s.thread y := by
  unfold State.writeReg
  split
  · next h0 =>
    subst h0
    exact ⟨rfl, rfl, by simp [Thread.setReg], fun _ _ => rfl⟩
  · rw [hphys]
    exact ⟨rfl, rfl, State.modThread_get_self .., fun y hy => State.modThread_get_ne _ _ _ hy⟩

/-- A member with its result: a guarded-off one keeps its registers and flags (R38). -/
def Thread.received (t : Thread) (on : Bool) (d : Reg) (v : Word × BitVec 6) : Thread :=
  (if on then (t.setReg d.toNat v.1).raise v.2 else t).unparked

/-- One member's part of a completion. -/
def State.giveResult (s : State) (on : Bool) (d : Reg) (e : Nat × (Word × BitVec 6)) : State :=
  ((if on then (s.writeReg e.1 d e.2.1).raiseFlags e.1 e.2.2 else s).leaveBundle e.1).unpark e.1

theorem State.giveResult_spec {s : State} {c : Nat} (hu : s.Unmapped c) (on : Bool) (d : Reg) {e : Nat × (Word × BitVec 6)}
    (hlat : isLat e.1 = false) (he : crewOf e.1 = c) :
    (s.giveResult on d e).mem = s.mem ∧ (s.giveResult on d e).crews = s.crews
      ∧ (s.giveResult on d e).thread e.1 = (s.thread e.1).received on d e.2
      ∧ ∀ y, y ≠ e.1 → (s.giveResult on d e).thread y = s.thread y := by
  obtain ⟨hmem, hcrews, hself, hne⟩ := State.writeReg_own (hu.physReg hlat he d.toNat) e.2.1
  unfold State.giveResult State.unpark Thread.received
  refine ⟨?_, ?_, ?_, fun y hy => ?_⟩
  · cases on
    · simp
    · simp [State.raiseFlags, hmem]
  · cases on
    · simp
    · simp [State.raiseFlags, hcrews]
  · rw [State.modThread_get_self, State.leaveBundle_thread]
    cases on
    · rfl
    · simp only [if_true, State.raiseFlags, State.modThread_get_self, hself]
  · rw [State.modThread_get_ne _ _ _ hy, State.leaveBundle_thread]
    cases on
    · rfl
    · simp only [if_true, State.raiseFlags, State.modThread_get_ne _ _ _ hy, hne y hy]

/-- The members one after another, each once. -/
theorem State.foldl_giveResult {c : Nat} (on : Nat → Bool) (d : Reg) :
    ∀ (es : List (Nat × (Word × BitVec 6))) (s : State), s.Unmapped c → (es.map (·.1)).Nodup →
      (∀ e ∈ es, isLat e.1 = false ∧ crewOf e.1 = c) →
      let t := es.foldl (fun s e => s.giveResult (on e.1) d e) s
      t.mem = s.mem ∧ (∀ e ∈ es, t.thread e.1 = (s.thread e.1).received (on e.1) d e.2)
        ∧ ∀ y, y ∉ es.map (·.1) → t.thread y = s.thread y := by
  intro es
  induction es with
  | nil => exact fun s _ _ _ => ⟨rfl, by simp, fun _ _ => rfl⟩
  | cons e es ih =>
    intro s hu hn hes
    obtain ⟨he, hn⟩ := List.nodup_cons.1 hn
    obtain ⟨hlat, hcrew⟩ := hes e List.mem_cons_self
    obtain ⟨hmem, hcrews, hself, hne⟩ := State.giveResult_spec hu (on e.1) d hlat hcrew
    have hu' : (s.giveResult (on e.1) d e).Unmapped c := by
      obtain ⟨cr, hcr, hmaps⟩ := hu
      exact ⟨cr, by rw [hcrews]; exact hcr, hmaps⟩
    obtain ⟨hmem', hin, hout⟩ := ih _ hu' hn fun e' he' => hes e' (List.mem_cons_of_mem _ he')
    refine ⟨hmem'.trans hmem, fun e' he' => ?_, fun y hy => ?_⟩
    · rcases List.mem_cons.1 he' with rfl | he'
      · exact (hout _ he).trans hself
      · have hkey : e'.1 ≠ e.1 := fun h => he (List.mem_map.2 ⟨e', he', h⟩)
        rw [← hne _ hkey]
        exact hin e' he'
    · rw [List.map_cons] at hy
      exact (hout y (List.not_mem_of_not_mem_cons hy)).trans (hne y (List.ne_of_not_mem_cons hy))

/-- A completed set: every member with its result, nobody else touched, and memory as it was. -/
theorem State.completeSet_spec {s : State} {c : Nat} {members : List Nat} (hu : s.Unmapped c) (hn : members.Nodup)
    (hmem : ∀ x ∈ members, isLat x = false ∧ crewOf x = c) (g : Guard) (d : Reg) (res : XResult) :
    (s.completeSet c g d members res).mem = s.mem
      ∧ ∀ x ∈ members, (s.completeSet c g d members res).thread x
        = (s.thread x).received ((s.thread x).guard g) d (res s members x) := by
  have hu' : (s.modCrew c fun cr => cr.dropSet (s.thread (members.headD 0)).pc).Unmapped c := by
    obtain ⟨cr, hcr, hmaps⟩ := hu
    exact ⟨cr.dropSet _, by rw [State.modCrew_find, if_pos rfl, hcr]; rfl, hmaps⟩
  have hfst : ((members.map fun k => (k, res s members k)).map (·.1)) = members := by
    rw [List.map_map]
    exact List.map_id members
  obtain ⟨hkeep, hin, -⟩ := State.foldl_giveResult (fun x => (s.thread x).guard g) d (members.map fun k => (k, res s members k)) _ hu'
    (by rwa [hfst]) fun e he => hmem e.1 (by rw [← hfst]; exact List.mem_map_of_mem he)
  exact ⟨hkeep, fun x hx => hin (x, res s members x) (List.mem_map.2 ⟨x, hx, rfl⟩)⟩

/-! ### What a member has received -/

section received
variable (t : Thread) (on : Bool) (d : Reg) (v : Word × BitVec 6)

theorem Thread.setReg_reg_self {n : Nat} (h : n < 64) (h0 : n ≠ 0) (w : Word) : (t.setReg n w).reg n = w := by
  simp [Thread.setReg, Thread.reg, h, h0]

theorem Thread.received_pc : (t.received on d v).pc = nextPc t.pc ∧ (t.received on d v).st.park = .none := by
  cases on
  · exact ⟨rfl, rfl⟩
  · obtain ⟨rs, par, heq, -⟩ := t.setReg_eq d.toNat v.1
    simp only [Thread.received, if_true, heq]
    exact ⟨rfl, rfl⟩

theorem Thread.received_on (hd : d ≠ 0) : (t.received true d v).reg d.toNat = v.1 := by
  have h0 : d.toNat ≠ 0 := fun e => hd (BitVec.eq_of_toNat_eq e)
  exact t.setReg_reg_self d.isLt h0 v.1

theorem Thread.received_fflags : (t.received true d v).fp.fflags = t.fp.fflags ||| v.2 := by
  obtain ⟨rs, par, heq, -⟩ := t.setReg_eq d.toNat v.1
  simp only [Thread.received, if_true, heq]
  rfl

theorem Thread.received_off : (t.received false d v).regs = t.regs ∧ (t.received false d v).fp = t.fp := ⟨rfl, rfl⟩

theorem Thread.received_reg_ne {q : Nat} (hq : q ≠ d.toNat) : (t.received on d v).reg q = t.reg q := by
  cases on
  · rfl
  · obtain ⟨-, -, -, hreg⟩ := t.setReg_eq d.toNat v.1
    exact hreg q hq

end received

/-! ### The last arrival -/

section last
variable {s : State} {k : Nat} (i : Instr) (a : ArrivalSet)

/-- A thread that parks keeps its PC, registers, allotment, predicates and flags. -/
theorem State.withArrival_thread (s : State) (k x : Nat) :
    ∃ st, (s.withArrival k i a).thread x = { s.thread x with st := st } := by
  have hpark : (s.withArrival k i a).thread x = ((s.leaveBundle k).modThread k fun t =>
      { t with st := { t.st with park := .xlane, again := some i, stamp := (s.leaveBundle k).nxt.age } }).thread x := rfl
  rw [hpark]
  by_cases e : x = k
  · subst e
    rw [State.modThread_get_self, State.leaveBundle_thread]
    exact ⟨_, rfl⟩
  · rw [State.modThread_get_ne _ _ _ e, State.leaveBundle_thread]
    exact ⟨_, rfl⟩

theorem State.withArrival_mem (s : State) (k : Nat) : (s.withArrival k i a).mem = s.mem := State.leaveBundle_mem s k

theorem State.withArrival_unmapped {c : Crew} (hc : s.crews.find (crewOf k) = some c) (hmaps : c.maps = []) :
    (s.withArrival k i a).Unmapped (crewOf k) := by
  have hcrews : ((s.leaveBundle k).parkThread k .xlane i).crews = s.crews := State.leaveBundle_crews s k
  unfold State.withArrival State.Unmapped
  rw [State.modCrew_find, if_pos rfl, hcrews, hc]
  exact ⟨_, rfl, hmaps⟩

/-- The members of a set read after the last arrival what they read before it. -/
theorem State.withArrival_agree {c : Crew} (hc : s.crews.find (crewOf k) = some c) (hmaps : c.maps = []) {ls : List Nat}
    (hn : ls.Nodup) (hlt : ∀ l ∈ ls, l < 32) {regs : List Reg}
    (hreg : ∀ l ∈ ls, ∀ r ∈ regs, s.regBad (laneKey (crewOf k) l) r.toNat = false) :
    MembersAgree regs s (s.withArrival k i a) (ls.map (laneKey (crewOf k))) := by
  have hs : s.Unmapped (crewOf k) := ⟨c, hc, hmaps⟩
  have hs1 := State.withArrival_unmapped i a hc hmaps
  have hmem : ∀ {x}, x ∈ ls.map (laneKey (crewOf k)) →
      isLat x = false ∧ crewOf x = crewOf k ∧ ∃ l ∈ ls, laneKey (crewOf k) l = x := by
    intro x hx
    obtain ⟨l, hl, rfl⟩ := List.mem_map.1 hx
    exact ⟨isLat_laneKey _ _, crewOf_laneKey (hlt l hl), l, hl, rfl⟩
  have hread : ∀ x ∈ ls.map (laneKey (crewOf k)), ∀ r : Reg, (s.withArrival k i a).readReg x r = s.readReg x r := by
    intro x hx r
    obtain ⟨hlat, hcrew, -⟩ := hmem hx
    obtain ⟨st, hst⟩ := State.withArrival_thread i a s k x
    simp only [State.readReg, hs.physReg hlat hcrew, hs1.physReg hlat hcrew, hst]
    rfl
  refine ⟨hn.map (laneKey_injective _), fun x hx y hy e => ?lanes, fun x hx r hr => ?contribution, fun x hx r _ => hread x hx r,
    fun x hx => ?preds, fun x hx => ?frm⟩
  case lanes =>
    obtain ⟨-, -, l, hl, rfl⟩ := hmem hx
    obtain ⟨-, -, m, hm, rfl⟩ := hmem hy
    rw [laneOf_laneKey (hlt l hl), laneOf_laneKey (hlt m hm)] at e
    rw [e]
  case contribution =>
    obtain ⟨hlat, hcrew, l, hl, hlk⟩ := hmem hx
    have hbad : s.regBad x r.toNat = false := hlk ▸ hreg l hl r hr
    obtain ⟨st, hst⟩ := State.withArrival_thread i a s k x
    have hbad1 : (s.withArrival k i a).regBad x r.toNat = s.regBad x r.toNat := by
      simp only [State.regBad, hs.physReg hlat hcrew, hs1.physReg hlat hcrew, hst]
    rw [State.contribution, hbad1, hbad, if_neg (by decide), hread x hx]
  case preds =>
    obtain ⟨st, hst⟩ := State.withArrival_thread i a s k x
    rw [hst]
  case frm =>
    obtain ⟨st, hst⟩ := State.withArrival_thread i a s k x
    rw [hst]

end last

end Sys2Proof.Machine
end

section
/-!
PROOFS. The cross-lane instructions (R37 to R40).
-/
namespace Sys2Proof.Machine

theorem mem_lanesOf {m : BitVec 32} {l : Nat} : l ∈ lanesOf m ↔ l < 32 ∧ m.getLsbD l = true := by
  simp [lanesOf]

theorem lanesOf_nodup (m : BitVec 32) : (lanesOf m).Nodup := List.nodup_range.filter _

/-- The last member has arrived, or the only one. -/
theorem arrivedSet_complete {old : Option ArrivalSet} {pc : Word} {m : BitVec 32} {l : Nat}
    (h : (old = none ∧ m = laneBit l) ∨ ∃ a, old = some a ∧ m = a.members ∧ a.arrived ||| laneBit l = m) :
    (arrivedSet old pc m l).members = m ∧ (arrivedSet old pc m l).arrived = m := by
  rcases h with ⟨rfl, rfl⟩ | ⟨a, rfl, hm, ha⟩
  · exact ⟨rfl, rfl⟩
  · exact ⟨hm.symm, ha⟩

/-- A member that parked and has its result. -/
theorem Thread.received_spec {t u : Thread} {g : Guard} {d : Reg} {v : Word × BitVec 6} {st : ThreadStatus}
    (h : u = ({ t with st := st } : Thread).received (t.guard g) d v) :
    u.pc = nextPc t.pc ∧ u.st.park = .none ∧ (t.guard g = true → d ≠ 0 → u.reg d.toNat = v.1)
      ∧ (t.guard g = true → u.fp.fflags = t.fp.fflags ||| v.2) ∧ (t.guard g = false → u.regs = t.regs ∧ u.fp = t.fp)
      ∧ ∀ q, q ≠ d.toNat → u.reg q = t.reg q := by
  subst h
  refine ⟨(Thread.received_pc ..).1, (Thread.received_pc ..).2, fun hg hd => ?_, fun hg => ?_, fun hg => ?_, fun q hq => ?_⟩
  · rw [hg]; exact Thread.received_on _ _ _ hd
  · rw [hg]; exact Thread.received_fflags ..
  · rw [hg]; exact Thread.received_off ..
  · exact Thread.received_reg_ne _ _ _ _ hq

/-- Settles O41: each arrival by what its mask and the waiting set name, the completion member by member. -/
theorem crossLane : Obligations.CrossLane := by
  intro i f s k c hf h1 hp hc m l pc present waiting
  obtain ⟨res, hi⟩ := crossForm_issues hf
  have hlane : isLat k = false := by
    cases e : isLat k
    · rfl
    · simp [State.crewAt, e] at hc
  have hcrew : s.crews.find (crewOf k) = some c := by simpa [State.crewAt, hlane] using hc
  have hmode : (s.thread k).spec.mode ≠ .speculating := hp.2.2.2.2 rfl
  have hgone : ∀ t, s.arrive k i f.g f.d f.mask res = .go t .gone → exec i s = .next (t.leaveBundle k) := fun t ht =>
    (hi.exec_eq s).trans (xlane_gone h1 hp hi.mask_mem ht)
  refine ⟨fun hl hw hg => hgone _ (State.arrive_unnamed hcrew rfl hl hw hg),
    fun a hl hw hne => hgone _ (State.arrive_mismatch hcrew rfl hmode hl hw hne), fun hl hpres hw hne => ?first,
    fun hl hpres hlast hk hl32 hmaps hbad => ?last⟩
  case first =>
    have ha : arrivedSet waiting pc m l = ⟨pc, m, laneBit l⟩ := by rw [hw]; rfl
    exact hgone _ ((State.arrive_named hcrew rfl hmode hl hpres ha rfl).trans (if_neg (Ne.symm hne)))
  case last =>
    obtain ⟨hmem, harr⟩ := arrivedSet_complete (pc := pc) hlast
    have hlanes : ∀ j ∈ lanesOf m, j < 32 := fun j hj => (mem_lanesOf.1 hj).1
    have hagree := State.withArrival_agree (k := k) i (arrivedSet waiting pc m l) hcrew hmaps (lanesOf_nodup m) hlanes
      (regs := f.regs) fun j hj r hr => hbad j (hlanes j hj) (mem_lanesOf.1 hj).2 r hr
    obtain ⟨hkeep, hthread⟩ := State.completeSet_spec (State.withArrival_unmapped i (arrivedSet waiting pc m l) hcrew hmaps)
      hagree.nodup (fun x hx => by
        obtain ⟨j, hj, rfl⟩ := List.mem_map.1 hx
        exact ⟨isLat_laneKey _ _, crewOf_laneKey (hlanes j hj)⟩) f.g f.d res
    refine ⟨_, hgone _ ((State.arrive_named hcrew rfl hmode hl hpres rfl hmem).trans (if_pos harr)), ?_, fun j hj hmj => ?_⟩
    · rw [State.leaveBundle_mem, hkeep, State.withArrival_mem]
    · have hx : laneKey (crewOf k) j ∈ (lanesOf m).map (laneKey (crewOf k)) := List.mem_map_of_mem (mem_lanesOf.2 ⟨hj, hmj⟩)
      obtain ⟨st, hst⟩ := State.withArrival_thread i (arrivedSet waiting pc m l) s k (laneKey (crewOf k) j)
      refine Thread.received_spec (st := st) ?_
      rw [State.leaveBundle_thread, hthread _ hx, hi.value hagree _ hx, hst]
      rfl

end Sys2Proof.Machine
end

section
/-!
PROOFS. The scheduler's reads and writes at the addresses of a context leave threads, crews, gangs and the number of the next
gang as they are.
-/
namespace Sys2Proof.Machine

/-- The state that an operation answers beside a value keeps what the operation keeps. -/
theorem work_of_fst {α : Type} {p : State × α} {s t : State} {a : α} (hp : p.1.work = s.work) (h : p = (t, a)) :
    t.work = s.work := by subst h; exact hp

section traffic
variable (s : State)

/-! ### Translation -/

theorem State.siltExpand_work {s t : State} {pa : Nat} {counts : Bool} (h : s.siltExpand pa counts = some t) :
    t.work = s.work := by
  unfold State.siltExpand at h
  dsimp only at h
  split at h
  · cases h; rfl
  · split at h
    · cases h; rw [State.work_ite]; exact ite_self _
    · split at h
      · cases h
      · cases h; rfl

theorem siltExpand_all_work {s t : State} {es : List (Nat × Nat)}
    (h : es.foldlM (fun (s : State) e => s.siltExpand e.2 false) s = some t) : t.work = s.work := by
  induction es generalizing s with
  | nil => cases h; rfl
  | cons e es ih =>
    obtain ⟨u, hu, ht⟩ := Option.bind_eq_some_iff.1 ((List.foldlM_cons ..).symm.trans h)
    exact (ih ht).trans (State.siltExpand_work hu)

@[simp] theorem State.readHome_work (agent line key vset : Nat) : (s.readHome agent line key vset).work = s.work := by
  unfold State.readHome; split <;> simp

@[simp] theorem State.fillPath_work (path : List TlbUnit) (t : TlbEntry) : (s.fillPath path t).work = s.work := rfl

@[simp] theorem State.cacheWalk_work (agent asid root va : Nat) (read : List (Nat × Nat)) :
    (s.cacheWalk agent asid root va read).work = s.work := by
  unfold State.cacheWalk; dsimp only; split <;> simp

@[simp] theorem State.findLeaf_work (w : Who) (va : Nat) (acc : AccKind) : (s.findLeaf w va acc).1.work = s.work := by
  unfold State.findLeaf; dsimp only; split
  · simp
  · split
    · rfl
    · next s0 h0 =>
      have hread : ∀ (es : List (Nat × Nat)), (es.foldl (fun (s : State) e => s.readHome hwAgent
          (lineOf (s.forward e.2 0).1) 0 0) s0).work = s.work := fun es =>
        (foldl_keeps (P := State.work) (fun _ _ => State.readHome_work ..) _ _).trans (siltExpand_all_work h0)
      split <;> simp [hread]

@[simp] theorem State.dropLeaf_work (w : Who) (va : Nat) : (s.dropLeaf w va).work = s.work := rfl

@[simp] theorem State.setLeafBit_work (agent leaf word bit : Nat) : (s.setLeafBit agent leaf word bit).work = s.work := by
  unfold State.setLeafBit; dsimp only; rw [State.withMem_work]; split <;> simp

@[simp] theorem State.useLeaf_work (w : Who) (va : Nat) (acc : AccKind) (e : Nat) (w0 w1 : Word) :
    (s.useLeaf w va acc e w0 w1).1.work = s.work := by
  unfold State.useLeaf; extract_lets; split
  · rfl
  · split
    · rfl
    · split
      · rfl
      · next s1 h1 =>
        have h1 : s1.work = s.work := by
          split at h1
          · exact State.siltExpand_work h1
          · cases h1; rfl
        split
        · exact h1
        · rw [State.work_ite, State.setLeafBit_work, State.work_ite, State.setLeafBit_work]
          simp [h1]

@[simp] theorem State.translate_work (w : Who) (va : Nat) (acc : AccKind) : (s.translate w va acc).1.work = s.work := by
  have hfind := State.findLeaf_work s w va acc
  unfold State.translate; split
  · rfl
  · split
    · next h => exact work_of_fst hfind h
    · next s1 e l w0 w1 h =>
      have h1 : s1.work = s.work := work_of_fst hfind h
      have hagain : ((s1.dropLeaf w va).findLeaf w va acc).1.work = s.work := by simp [h1]
      split
      · split
        · next h2 => exact work_of_fst hagain h2
        · next h2 => exact (State.useLeaf_work ..).trans (work_of_fst hagain h2)
      · exact (State.useLeaf_work ..).trans h1

@[simp] theorem State.usePage_work (p : Page) : (s.usePage p).1.work = s.work := by
  unfold State.usePage; split
  · next h => exact State.siltExpand_work h
  · rfl

@[simp] theorem State.resolve_work (w : Who) (va : Nat) (acc : AccKind) : (s.resolve w va acc).1.work = s.work := by
  unfold State.resolve; split
  · split <;> simp
  · split
    · rfl
    · split
      · split <;> simp
      · simp

@[simp] theorem State.touchCtx_work (w : Who) (va : Nat) : (s.touchCtx w va).work = s.work := State.resolve_work s _ _ _

/-! ### Writes through a page -/

@[simp] theorem State.notePast_work (old : List (Nat × Byte)) : (s.notePast old).work = s.work := by
  unfold State.notePast; split
  · rfl
  · split <;> rfl

@[simp] theorem State.writeReplicas_work (p : Page) (off : Nat) (bs : List Byte) : (s.writeReplicas p off bs).work = s.work := by
  unfold State.writeReplicas; split
  · rfl
  · exact foldl_keeps (P := State.work) (fun s m => by split <;> simp) _ _

@[simp] theorem State.engineStore_work (agent : Nat) (p : Page) (pa : Nat) (bs : List Byte) :
    (s.engineStore agent p pa bs).work = s.work := by
  unfold State.engineStore; dsimp only; split <;> simp

@[simp] theorem State.engineWrite_work (agent : Nat) (p : Page) (pa : Nat) (bs : List Byte) :
    (s.engineWrite agent p pa bs).work = s.work := by
  unfold State.engineWrite; split
  · rfl
  · dsimp only; split
    · simp
    · split
      · simp
      · split
        case h_1 | h_2 =>
          exact (foldl_keeps (P := fun q : State × List Byte => q.1.work) (fun _ _ => State.engineStore_work ..) _ _).trans
            (State.notePast_work ..)
        all_goals simp

@[simp] theorem State.ctxPut_work (w : Who) (va : Nat) (bs : List Byte) : (s.ctxPut w va bs).work = s.work := by
  refine foldl_keeps (P := fun q : State × List Byte => q.1.work) (fun q e => ?_) _ (s, bs)
  dsimp only; split
  · next h => exact (State.engineWrite_work ..).trans (work_of_fst (State.resolve_work ..) h)
  · rfl

/-! ### The region cache -/

@[simp] theorem State.writeBackBlock_work (r : RegionBlock) : (s.writeBackBlock r).work = s.work :=
  foldl_keeps (P := State.work) (fun s _ => State.ctxPut_work s _ _ _) _ s

@[simp] theorem State.cachePath_work (c : Ctx) (d : Nat) (leaf : Word) : (s.cachePath c d leaf).work = s.work := by
  unfold State.cachePath; split
  · rfl
  · refine foldl_keeps (P := State.work) (fun s b => ?_) _ _
    split
    · rfl
    · exact (foldl_keeps (P := State.work) State.writeBackBlock_work _ _).trans (State.touchCtx_work s _ _)

end traffic

end Sys2Proof.Machine
end

section
/-!
PROOFS. The launch of a gang (R43, R278) and the return of an AWAY thread to its lane (R49).
-/
namespace Sys2Proof.Machine

variable {s : State} {k : Nat} {g : Guard}

/-! ### Untranslated loads of host memory (R301, R326) -/

theorem physKind_host {va n : Nat} (h : inHost va n) (hn : 0 < n) : physKind va = .host := by
  obtain ⟨hlo, hhi⟩ := h
  have hv : va / 2 ^ 50 % 4 = 0 := by omega
  have hbm : ¬va < Config.hbmBytes := by simp only [Config.hbmBytes]; omega
  have hhost : Config.hostBase ≤ va ∧ va < Config.ctlBase := by simp only [Config.hostBase, Config.ctlBase]; omega
  simp only [physKind, hv, hbm, hhost]
  rfl

theorem State.resolve_host {va n : Nat} (hu : s.untranslated k) (h : inHost va n) (hn : 0 < n) (acc : AccKind) :
    s.resolve (s.who k) va acc = (s, .page (flatPage va)) := by
  have hva : va < 2 ^ 52 := by have := h.2; omega
  have hpage : s.usePage (flatPage va) = (s, .page (flatPage va)) := by
    simp [State.usePage, flatPage, State.siltExpand, physKind_host h hn]
  rw [State.resolve, if_pos (by simp [State.who, hu.1, hu.2]), if_pos hva, hpage]

theorem State.loadNow_host {va n : Nat} (hu : s.untranslated k) (h : inHost va n) (hn : 0 < n)
    (hm : s.silent (s.agentOf k) = false) : s.loadNow k va n = (s, .inl (s.mem.bytes.bytes va n)) := by
  have hread : s.readPage (s.agentOf k) (s.ctxOf k).asid (flatPage va) (flatPage va).pa n
      = (s, some (s.mem.bytes.bytes va n)) := by
    simp [State.readPage, flatPage, physKind_host h hn]
  simp [State.loadNow, State.place, State.resolve_host hu h hn, hm, hread]

/-! ### The launch -/

/-- What a launch from context `ctx` does once its descriptor has passed every check: the gang is placed, or waits. -/
def State.launchGang (s : State) (ctx : Ctx) (n : Nat) (d : Reg) (g : GangDesc) : Res :=
  let gang := s.newGang n g d
  let s1 := { s with nxt := { s.nxt with gang := (s.nxt.gang + 1) % 2 ^ 48 } }
  match s1.pickDie ctx g true with
  | some (di, cores) =>
    match s1.reserveGang ctx g di cores true with
    | some (die, frames, a) =>
      .go (((s1.placeGang ctx { gang with caller := a } s.nxt.gang di cores frames die
        fun cidx gci lane base age => gangThread (s.thread n) gang s.nxt.gang cidx gci lane base age).putFrame a
          (s.callerWords n)).leaveCaller n a) .gone
    | none => .wait
  | none =>
    match (s1.die 0).findRoom 1024 1024 with
    | none => .wait
    | some a =>
      let s2 := (s1.modDie 0 fun x => x.take a 1024).putFrame a (s.callerWords n)
      .go ((State.refreshRing { s2 with gangs := s2.gangs.set s.nxt.gang { gang with caller := a, waiting := true } } 0).leaveCaller
        n a) .gone

section launch
variable {d : Reg} {gd : GangDesc}

theorem State.launch_checked {ga : Word} {bs : List Byte} (hal : ga.toNat % 128 = 0)
    (hload : s.loadNow k (va57 ga) 128 = (s, .inl bs))
    (hgd : gd = ⟨wordOf bs 0, wordOf bs 8, wordOf bs 16, wordOf bs 24, wordOf bs 32, wordOf bs 40⟩)
    (hfid : ¬(4 ≤ gd.fid ∧ gd.fid ≤ 14)) (hbad : gd.bad = false) (hws : gd.wsn = 0)
    {s2 : State} (hs2 : s.cachePath (s.ctxOf k) 0 gd.region = s2)
    (hpath : s2.pathBad (s.ctxOf k) 0 gd.region = false)
    (hcaps : s2.capsAdmit (s.ctxOf k) 0 gd.region (fun _ => gd.cores) (gd.crews * (gd.lsg + 2)) = true)
    (htids : s2.tidsRegistered (s.ctxOf k).asid gd.tidBase.toNat gd.count = true) (hesc : s2.escFull = false)
    (hroom : (partitionWord (gd.share 0).length gd.lsg gd.regs (s2.shadowOf (s.ctxOf k) 0 gd.region)).isSome = true
      ∨ ∃ di < 8, (s2.pickCores (s.ctxOf k) gd di).isSome = true) :
    s.launch k d ga = s2.launchGang (s.ctxOf k) k d gd := by
  have hentries : ∀ w, s2.wsEntries w gd = [] := fun w => by simp [State.wsEntries, hws]
  have hfits : ((partitionWord (gd.share 0).length gd.lsg gd.regs (s2.shadowOf (s.ctxOf k) 0 gd.region)).isNone
      && (List.range Config.simtDies).all fun di => (s2.pickCores (s.ctxOf k) gd di).isNone) = false := by
    rcases hroom with h | ⟨di, hdi, h⟩
    · simp [Option.isNone_eq_false_iff.2 h]
    · rw [Bool.and_eq_false_iff]
      refine .inr (List.all_eq_false.2 ⟨di, List.mem_range.2 hdi, ?_⟩)
      simp [Option.isNone_eq_false_iff.2 h]
  subst hgd
  simp only [State.launch, hal, ne_eq, not_true_eq_false, if_false, hload, hfid, hbad, hs2, hpath, hcaps, htids, hentries,
    hfits, hesc, Bool.false_eq_true, Bool.not_true, List.findIdx?_nil, List.filterMap_nil, List.any_nil]
  rfl

section outcome
variable {ctx : Ctx} {s1 : State} (hs1 : { s with nxt := { s.nxt with gang := (s.nxt.gang + 1) % 2 ^ 48 } } = s1)
include hs1

/-- A die takes the gang. -/
theorem State.launchGang_placed {di room : Nat} {cores frames : List Nat} {die : Die}
    (hdie : s1.pickDie ctx gd true = some (di, cores))
    (hroom : s1.reserveGang ctx gd di cores true = some (die, frames, room)) :
    s.launchGang ctx k d gd = .go (((s1.placeGang ctx { s.newGang k gd d with caller := room } s.nxt.gang di cores frames die
      fun cidx gci lane base age => gangThread (s.thread k) (s.newGang k gd d) s.nxt.gang cidx gci lane base age).putFrame room
        (s.callerWords k)).leaveCaller k room) .gone := by
  simp only [State.launchGang, hs1, hdie, hroom]

/-- No die takes the gang, which waits with its caller's frame saved. -/
theorem State.launchGang_waiting {room : Nat} (hdie : s1.pickDie ctx gd true = none)
    (hroom : (s1.die 0).findRoom 1024 1024 = some room) :
    let kept := (s1.modDie 0 fun y => y.take room 1024).putFrame room (s.callerWords k)
    s.launchGang ctx k d gd = .go ((State.refreshRing { kept with
      gangs := kept.gangs.set s.nxt.gang { s.newGang k gd d with caller := room, waiting := true } } 0).leaveCaller k room) .gone := by
  simp only [State.launchGang, hs1, hdie, hroom]

end outcome
end launch

/-! ### MIGRATE.TOSIMT on a latency core -/

/-- What MIGRATE.TOSIMT does for one thread. -/
def migrateTosimtBody (d a : Reg) (k : Nat) (s : State) : Res :=
  let ga := s.readReg k a
  let away := (s.thread k).st.away
  if ga = 0 then if isLat k && away then s.returnToLane k d else .go (s.writeReg k d 5) .next
  else if !isLat k || away then .go (s.writeReg k d 6) .next
  else s.launch k d ga

theorem exec_migrateTosimt (d a : Reg) :
    exec (.migrateTosimt g d a) s = perThread s (.migrateTosimt g d a) g [a.toNat, d.toNat] anyCore .holds (migrateTosimtBody d a) :=
  rfl

section body
variable {d a : Reg}

theorem migrateTosimtBody_launch (hlat : isLat k = true) (haway : (s.thread k).st.away = false) (ha : s.readReg k a ≠ 0) :
    migrateTosimtBody d a k s = s.launch k d (s.readReg k a) := by
  simp only [migrateTosimtBody, if_neg ha, hlat, haway]
  rfl

theorem migrateTosimtBody_no_lane (haway : (s.thread k).st.away = false) (ha : s.readReg k a = 0) :
    migrateTosimtBody d a k s = .go (s.writeReg k d 5) .next := by
  simp [migrateTosimtBody, haway, ha]

theorem migrateTosimtBody_return (hlat : isLat k = true) (haway : (s.thread k).st.away = true) (ha : s.readReg k a = 0) :
    migrateTosimtBody d a k s = s.returnToLane k d := by
  simp [migrateTosimtBody, hlat, haway, ha]

/-- MIGRATE.TOSIMT of a caller that leaves its hardware thread. -/
theorem exec_migrateTosimt_gone {t : State} (h : s.executes k g anyCore .holds [a.toNat, d.toNat]) (hlat : isLat k = true)
    (hb : migrateTosimtBody d a k s = .go t .gone) : exec (.migrateTosimt g d a) s = .next t := by
  rw [exec_migrateTosimt, perThread_gone h hb, State.leaveBundle_lat hlat]

end body

/-! ### The return to the lane -/

/-- A thread whose gd is set to zero. -/
theorem Thread.setReg_zero_spec (t : Thread) (d : Reg) :
    (t.setReg d.toNat 0).pc = t.pc ∧ (t.setReg d.toNat 0).regcnt = t.regcnt ∧ (t.setReg d.toNat 0).preds = t.preds
      ∧ (t.setReg d.toNat 0).st = t.st ∧ (d ≠ 0 → (t.setReg d.toNat 0).reg d.toNat = 0)
      ∧ ∀ r, r ≠ d.toNat → (t.setReg d.toNat 0).reg r = t.reg r := by
  obtain ⟨rs, par, heq, hreg⟩ := t.setReg_eq d.toNat 0
  exact ⟨by rw [heq], by rw [heq], by rw [heq], by rw [heq],
    fun hd => t.setReg_reg_self d.isLt (fun h => hd (BitVec.eq_of_toNat_eq h)) 0, hreg⟩

/-- The thread of hardware thread `n` as it stands in its held lane `l` again (R49), gd still as it was. -/
def State.backInLane (s : State) (n l : Nat) : Thread :=
  { s.thread n with
    regs := Vector.ofFn fun r : Fin 64 => if r.val < (s.thread l).regcnt then (s.thread n).regs[r] else 0
    pc := nextPc (s.thread n).pc, regcnt := (s.thread l).regcnt, loambase := (s.thread l).loambase, ids := (s.thread l).ids
    st := { ThreadStatus.ready with age := (s.thread l).st.age } }

theorem State.returnToLane_eq {l : Nat} {c : Crew} {d : Reg} (hl : s.heldLane (s.thread k) = some l)
    (hc : s.crewAt l = some c) (hp : c.place = .resident) :
    s.returnToLane k d = .go (((((s.setThread l ((s.backInLane k l).setReg d.toNat 0)).dropEscalated l).takeHeldTrap l
      (s.thread l)).vacate k).loadSup k) .gone := by
  have hres : (!(s.crewAt l).any fun c => c.place == .resident) = false := by simp [hc, hp]
  simp only [State.returnToLane, hl, hres]
  rfl

theorem State.backInLane_reg (s : State) (n l : Nat) {r : Nat} (hr : r < 64) :
    (s.backInLane n l).reg r = if r < (s.thread l).regcnt then (s.thread n).reg r else 0 := by
  simp [Thread.reg, State.backInLane, hr]

theorem State.backInLane_spec (s : State) (n l : Nat) (d : Reg) :
    let back := (s.backInLane n l).setReg d.toNat 0
    back.pc = nextPc (s.thread n).pc ∧ back.regcnt = (s.thread l).regcnt ∧ back.preds = (s.thread n).preds
      ∧ (d ≠ 0 → back.reg d.toNat = 0) ∧ back.st.live = true ∧ back.st.away = false
      ∧ ∀ r, r < 64 → r ≠ d.toNat → back.reg r = if r < (s.thread l).regcnt then (s.thread n).reg r else 0 := by
  obtain ⟨hpc, hcnt, hpreds, hst, hzero, hreg⟩ := (s.backInLane n l).setReg_zero_spec d
  exact ⟨hpc, hcnt.trans (by rw [State.backInLane]), hpreds.trans (by rw [State.backInLane]), hzero,
    congrArg ThreadStatus.live hst, congrArg ThreadStatus.away hst, fun r hr hne => (hreg r hne).trans (s.backInLane_reg n l hr)⟩

end Sys2Proof.Machine
end

section
/-!
PROOFS. Migration to a latency core (R49, R424), fan-in, and the placement of gangs and handler tasks (R47, R48, R278, R342).
-/
namespace Sys2Proof.Machine

variable {s : State} {k : Nat} {g : Guard}

/-! ### A thread without bad parity is copied as it stands (R84) -/

theorem Thread.scrubbed_reg {t : Thread} (hp : t.parity = 0) {r : Nat} (hr : r < 64) : t.scrubbed.reg r = t.reg r := by
  have hall : t.regs[r] &&& 0xFFFFFFFFFFFFFFFF#64 = t.regs[r] := BitVec.and_allOnes
  simp [Thread.scrubbed, Thread.reg, hr, hp, hall]

theorem Thread.scrubbed_pc (t : Thread) : t.scrubbed.pc = t.pc := by simp only [Thread.scrubbed]

theorem State.scrub_good (hp : (s.thread k).parity = 0) : s.scrub k = s.modThread k Thread.scrubbed := by
  simp [State.scrub, hp]

/-! ### MIGRATE.TOLAT -/

/-- The hardware thread picked is one of the idle ones (log 6). -/
theorem State.freeHart_idle (h : ∃ m < Config.harts, (s.hart m).run = false) :
    ∃ n, s.freeHart = (s.draw.2, some n) ∧ n < Config.harts ∧ (s.hart n).run = false := by
  obtain ⟨m, hm, hrun⟩ := h
  have hmem : m ∈ (List.range Config.harts).filter fun n => !(s.hart n).run := by simp [hm, hrun]
  have hlt := Nat.mod_lt s.draw.1.toNat (List.length_pos_of_mem hmem)
  have hpick := List.mem_filter.1 (List.getElem_mem hlt)
  exact ⟨_, (if_neg fun he => List.ne_nil_of_mem hmem (List.isEmpty_iff.1 he)).trans
    (congrArg (Prod.mk _) (List.getElem?_eq_getElem hlt)), List.mem_range.1 hpick.1, by simpa using hpick.2⟩

/-- The thread that arrives on the hardware thread. -/
def Thread.onHart (t : Thread) (d : Reg) : Thread := { t.arrived d with regcnt := 64 }

theorem Thread.onHart_spec (t : Thread) (d : Reg) :
    (t.onHart d).pc = nextPc t.pc ∧ (t.onHart d).regcnt = 64 ∧ (t.onHart d).st.away = true
      ∧ (d ≠ 0 → (t.onHart d).reg d.toNat = 0) ∧ ∀ r, r ≠ d.toNat → (t.onHart d).reg r = t.reg r := by
  obtain ⟨hpc, -, -, hst, hzero, hreg⟩ :=
    Thread.setReg_zero_spec { t with pc := nextPc t.pc, st := { t.st with away := true, park := .none } } d
  exact ⟨hpc, rfl, congrArg ThreadStatus.away hst, hzero, hreg⟩

theorem State.moveToLat_idle {n : Nat} {d : Reg} (hdue : (s.thread k).dueFailure = none) (hoc : (s.thread k).oc = .zero)
    (hp : (s.thread k).parity = 0)
    (hn : (s.modThread k Thread.scrubbed).freeHart = ((s.modThread k Thread.scrubbed).draw.2, some n)) :
    s.moveToLat k d = .go ((((s.modThread k Thread.scrubbed).draw.2.holdLane k).setThread n
      ((s.thread k).scrubbed.onHart d)).modHart n fun h => { h with run := true, load := none, yielded := false }) .gone := by
  simp only [State.moveToLat, hdue, hoc, State.scrub_good hp, hn, State.modThread_get_self]
  rfl

theorem exec_migrateTolat_gone {d : Reg} {t : State} (h : s.executes k g anyCore .holds [d.toNat]) (hlane : isLat k = false)
    (hb : s.moveToLat k d = .go t .gone) : exec (.migrateTolat g d) s = .next (t.leaveBundle k) := by
  refine perThread_gone h ?_
  simp [hlane, hb]

@[simp] theorem State.leaveBundle_hart (s : State) (k n : Nat) : (s.leaveBundle k).hart n = s.hart n := by
  unfold State.leaveBundle; split <;> rfl

/-- MIGRATE.TOLAT of a quiet thread: it runs on an idle hardware thread, its lane held. -/
theorem exec_migrateTolat_idle {d : Reg} (h : s.executes k g anyCore .holds [d.toNat]) (hlane : isLat k = false)
    (hdue : (s.thread k).dueFailure = none) (hoc : (s.thread k).oc = .zero) (hp : (s.thread k).parity = 0)
    (hidle : ∃ m < Config.harts, (s.hart m).run = false) :
    ∃ t n, exec (.migrateTolat g d) s = .next t ∧ n < Config.harts ∧ (s.hart n).run = false ∧ (t.hart n).run = true
      ∧ t.thread n = (s.thread k).scrubbed.onHart d ∧ (t.thread k).st.away = true ∧ (t.thread k).st.live = false
      ∧ t.mem = s.mem := by
  obtain ⟨n, hfree, hn, hrun⟩ := State.freeHart_idle (s := s.modThread k Thread.scrubbed) hidle
  have hkn : k ≠ n := by
    rintro rfl
    simp only [isLat, decide_eq_false_iff_not] at hlane
    exact hlane hn
  refine ⟨_, n, exec_migrateTolat_gone h hlane (State.moveToLat_idle hdue hoc hp hfree), hn, hrun, ?_, ?_, ?_, ?_, ?_⟩
  · simp
  · simp
  · simp [State.setThread_get_ne _ _ _ hkn, State.holdLane]
  · simp [State.setThread_get_ne _ _ _ hkn, State.holdLane]
  · simp [State.holdLane, State.draw]

/-! ### Fan-in -/

/-- The gang is gone, and with it its context where no crew holds it any more. -/
def State.gangGone (s : State) (seq : Nat) (x : Gang) : State :=
  ({ s with gangs := s.gangs.del seq }).dropContexts x.callerDie

/-- The completion word written and the caller's frame ready to run. -/
def State.completed (s : State) (seq : Nat) (x : Gang) : State :=
  (s.ctxPutWord (hwWho (ctxOfWords x.ctx)) (va57 x.desc.completion) (BitVec.ofNat 64 (x.status * 2 ^ 48 + seq))).resumeWords x

section fanIn
variable {seq : Nat} {x : Gang}

/-- What fan-in does to a gang whose threads have exited and whose crews are released. -/
theorem exec_fanIn_done (hx : s.gangs.find seq = some x) (hw : x.waiting = false) (hl : x.live = 0)
    (hc : ∀ e ∈ s.crews, e.2.seq ≠ seq) :
    exec (.fanIn seq) s = .next (if x.task.isSome then s.gangGone seq x
      else match s.idleOn (x.callerHart / 2) with
        | none => if s.escFull then s else ((s.completed seq x).escRecord x.caller (causeWord 0 1) 0 x.callerTid).gangGone seq x
        | some h => ((s.completed seq x).loadHart h x.caller).gangGone seq x) := by
  have hnone : (s.crews.any fun e => e.2.seq == seq) = false := by simpa using hc
  show execFanIn seq s = _
  simp only [execFanIn, hx, hw, hl, hnone]
  rfl

end fanIn

/-! ### Placement -/

theorem State.placeWaiting_placed {seq di room : Nat} {x : Gang} {cores frames : List Nat} {die : Die}
    (hx : s.gangs.find seq = some x) (hp : s.gangPlan x = some (di, cores, die, frames, room)) :
    s.placeWaiting seq = ((((s.modDie 0 fun y => y.free x.caller).placeGang (ctxOfWords x.ctx) { x with caller := room } seq di
      cores frames die fun cidx gci lane base age =>
        gangThread (threadOfFrame (s.frameAt x.caller)) x seq cidx gci lane base age).putFrame room
          (s.frameAt x.caller)).refreshRing 0) := by
  simp only [State.placeWaiting, hx, hp]

theorem exec_gangPlacement_turn {seq : Nat} {x : Gang} (hx : s.gangs.find seq = some x) (hw : x.waiting = true)
    (hh : s.halted = false) (ht : s.turnOf 0 (.gang seq) = true) :
    exec (.gangPlacement seq) s = .next (s.placeWaiting seq) := by
  show execGangPlacement seq s = _
  simp [execGangPlacement, hx, hw, hh, ht]

theorem exec_handlerTaskPlacement_turn {n : Nat} {x : Task} {c : Ctx} (hx : (s.die 0).tasks[n]? = some x)
    (hc : s.ctxByAsid x.asid = some c) (hh : s.halted = false) (hp : s.pathBad c 0 (s.netRegion x.net x.asid) = false)
    (ht : s.turnOf 0 (.task x) = true) : exec (.handlerTaskPlacement n) s = .next ((s.taskPlan x).getD s) := by
  show execHandlerTaskPlacement n s = _
  simp [execHandlerTaskPlacement, hx, hc, hh, hp, ht]

/-- A task whose handler exists and runs seldom enough takes the lowest number that no running one has. -/
theorem State.taskPlan_admitted {x : Task} {c : Ctx} {inst : Nat} (hc : s.ctxByAsid x.asid = some c)
    (hp : s.pathBad c 0 (s.netRegion x.net x.asid) = false) (hidx : x.hidx < s.netHcnt x.net x.asid)
    (hlim : (s.instances x.net x.asid x.hidx).length < fld (s.handlerWord x.net x.asid x.hidx 3) 15 0)
    (hi : (List.range ((s.instances x.net x.asid x.hidx).length + 1)).find?
      (fun i => !(s.instances x.net x.asid x.hidx).contains i) = some inst) :
    s.taskPlan x = (((s.cachePath c 0 (s.netRegion x.net x.asid)).modDie 0 fun y => { y with tasks := y.tasks.erase x }).placeTask
      x c inst).map fun t => t.refreshRing 0 := by
  simp only [State.taskPlan, hc, hp, Nat.not_le.2 hidx, Nat.not_le.2 hlim, hi]
  rfl

/-- The gang that a handler's words describe for a task. -/
def State.taskDesc (s : State) (x : Task) : GangDesc :=
  let hw := fun i => s.handlerWord x.net x.asid x.hidx i
  ⟨hw 0, hw 1, s.netRegion x.net x.asid, hw 2, 0, 0⟩

theorem State.placeTask_isSome {x : Task} {c : Ctx} {inst : Nat} {desc : GangDesc} (hd : s.taskDesc x = desc)
    (hbad : desc.bad = false) (hcount : desc.count = desc.csz) (hlsg : desc.lsg ≠ 0) (hws : desc.wsn = 0)
    (hcaps : s.capsAdmit c 0 desc.region (fun _ => 1) (desc.lsg + 2) = true)
    (hdie : ∃ di cores, s.pickDie c desc false = some (di, cores) ∧ (s.reserveGang c desc di cores false).isSome = true) :
    ∃ t, s.placeTask x c inst = some t := by
  obtain ⟨di, cores, hpick, hroom⟩ := hdie
  obtain ⟨⟨die, frames, room⟩, hroom⟩ := Option.isSome_iff_exists.1 hroom
  subst hd
  have hok : ((s.taskDesc x).bad || (s.taskDesc x).count != (s.taskDesc x).csz || (s.taskDesc x).lsg == 0
      || (s.taskDesc x).wsn != 0 || !s.capsAdmit c 0 (s.taskDesc x).region (fun _ => 1) ((s.taskDesc x).lsg + 2)) = false := by
    simp [hbad, hcount, hlsg, hws, hcaps]
  unfold State.placeTask
  unfold State.taskDesc at hok hpick hroom
  simp only [hok, hpick, hroom]
  exact ⟨_, rfl⟩

end Sys2Proof.Machine
end

section
/-!
PROOFS. The life of a gang (R43, R47 to R49, R278, R342, R424).
-/
namespace Sys2Proof.Machine

theorem va57_zero : va57 0 = 0 := rfl

/-- Settles O47: MIGRATE by what its operand and its thread are, each row of placement and fan-in by its conditions. -/
theorem gangLife : Obligations.GangLife := by
  refine ⟨fun s k g d a h hlat => ⟨?launch, fun ha haway => ?noLane, fun l c ha haway hl hc hp => ?back⟩,
    fun s k g d h hlane hdue hoc hp hidle => ?tolat,
    fun s seq di room x cores frames die hx hw hh ht hplan => ?placement,
    fun s seq x hx hw hl hc => ⟨fun ht => ?faninTask, fun i ht hi => ?faninLoaded, fun ht hi hesc => ?faninQueued⟩,
    fun s n x c hx hc hh hp ht hidx hlim inst hi hbad hcount hlsg hws hcaps hdie => ?task⟩
  case launch =>
    intro va bs gd haway hu hmute _ hva hin hal hbs hgd hfid hbad hws ctx s2 seq x s3 words hpath hcaps htids hesc hroom
    have ha : s.readReg k a ≠ 0 := by
      intro ha
      rw [ha, va57_zero] at hva
      have := hin.1
      omega
    have hload : s.loadNow k (va57 (s.readReg k a)) 128 = (s, .inl bs) := by
      rw [← hva, hbs]
      exact State.loadNow_host hu hin (by decide) hmute
    have hseq : s2.nxt.gang = seq := (State.work_eq_iff.1 (State.cachePath_work s ctx 0 gd.region)).2.2.2
    have hs3 : { s2 with nxt := { s2.nxt with gang := (s2.nxt.gang + 1) % 2 ^ 48 } } = s3 := by rw [hseq]
    have hbody := (migrateTosimtBody_launch (d := d) hlat haway ha).trans
      (State.launch_checked hal hload hgd hfid hbad hws rfl hpath hcaps htids hesc hroom)
    refine ⟨fun di cores die frames room hdie hres => ?_, fun room hdie hres => ?_⟩
    · rw [← hseq]
      exact exec_migrateTosimt_gone h hlat (hbody.trans (State.launchGang_placed hs3 hdie hres))
    · rw [← hseq]
      exact exec_migrateTosimt_gone h hlat (hbody.trans (State.launchGang_waiting hs3 hdie hres))
  case noLane => exact perThread_next h (migrateTosimtBody_no_lane haway ha)
  case back =>
    exact ⟨_, exec_migrateTosimt_gone h hlat
      ((migrateTosimtBody_return hlat haway ha).trans (State.returnToLane_eq hl hc hp)), s.backInLane_spec k l d⟩
  case tolat =>
    obtain ⟨t, n, hex, hn, hrun, hrun', hthread, haway, hlive, hmem⟩ := exec_migrateTolat_idle h hlane hdue hoc hp hidle
    obtain ⟨hpc, hcnt, hon, hzero, hreg⟩ := (s.thread k).scrubbed.onHart_spec d
    refine ⟨t, n, hex, hn, hrun, hrun', ?_⟩
    rw [hthread]
    exact ⟨hpc.trans (by rw [Thread.scrubbed_pc]), hzero,
      fun r hr hne => (hreg r hne).trans (Thread.scrubbed_reg hp hr), hcnt, hon, haway, hlive, hmem⟩
  case placement =>
    intro words
    rw [exec_gangPlacement_turn hx hw hh ht, State.placeWaiting_placed hx hplan]
  case faninTask =>
    rw [exec_fanIn_done hx hw hl hc, if_pos ht]
    rfl
  case faninLoaded =>
    rw [exec_fanIn_done hx hw hl hc, ht, hi]
    rfl
  case faninQueued =>
    rw [exec_fanIn_done hx hw hl hc, ht, hi, hesc]
    rfl
  case task =>
    obtain ⟨t, hplaced⟩ := State.placeTask_isSome (inst := inst) rfl hbad hcount hlsg hws hcaps hdie
    refine ⟨t, hplaced, ?_⟩
    rw [exec_handlerTaskPlacement_turn hx hc hh hp ht, State.taskPlan_admitted hc hp hidx hlim hi]
    exact congrArg (fun o => Host.Outcome.next ((o.map fun t : State => t.refreshRing 0).getD s)) hplaced

end Sys2Proof.Machine
end

section
/-!
PROOFS. Shared registers (R76 to R80): the full/empty bits, SETF and TAKEF, and the mappings that SHMAP makes and removes.
-/
namespace Sys2Proof.Machine

/-! ### Full/empty bits (R79) -/

@[simp] theorem Crew.setFull_maps (c : Crew) (l n : Nat) (v : Bool) : (c.setFull l n v).maps = c.maps := rfl

/-- A table that lists no zero word, written: the word stands where it was put. -/
theorem AMap.get_set_or_del (m : AMap (BitVec 64)) (l j : Nat) (w : BitVec 64) :
    AMap.get (if w = 0 then m.del l else m.set l w) j 0 = if j = l then w else m.get j 0 := by
  by_cases hj : j = l
  · subst hj
    rw [if_pos rfl]
    split
    · next hzero => rw [AMap.get_del_self, hzero]
    · exact AMap.get_set_self ..
  · rw [if_neg hj]
    split
    · exact AMap.get_del_ne _ _ _ hj
    · exact AMap.get_set_ne _ _ _ _ hj

/-- The bits of a lane after a write to register `n` of lane `l`. -/
theorem Crew.fullBit_setFull (c : Crew) (l n j m : Nat) (v : Bool) :
    (c.setFull l n v).fullBit j m = (if j = l then
      (if v then c.full.get l 0 ||| (1#64 <<< n) else c.full.get l 0 &&& ~~~(1#64 <<< n)) else c.full.get j 0).getLsbD m :=
  congrArg (BitVec.getLsbD · m) (AMap.get_set_or_del ..)

theorem Crew.fullBit_setFull_self (c : Crew) (l : Nat) {n : Nat} (h : n < 64) (v : Bool) :
    (c.setFull l n v).fullBit l n = v := by
  rw [Crew.fullBit_setFull, if_pos rfl]
  cases v <;> simp [h]

/-- Emptying a register fills none. -/
theorem Crew.fullBit_setFull_false (c : Crew) (l n : Nat) {j m : Nat} (h : c.fullBit j m = false) :
    (c.setFull l n false).fullBit j m = false := by
  rw [Crew.fullBit_setFull]
  unfold Crew.fullBit at h
  split
  · next hj => subst hj; simp only [Bool.false_eq_true, if_false, BitVec.getLsbD_and, h, Bool.false_and]
  · exact h

/-- The registers `t` to `t + count − 1` of every lane emptied (R460). -/
def Crew.emptied (t count : Nat) (c : Crew) : Crew :=
  (List.range 32).foldl (fun c l => (List.range count).foldl (fun c r => c.setFull l (t + r) false) c) c

/-- What one step of a fold brings about and every step keeps holds at the end. -/
theorem foldl_of_mem {α β : Type} {f : β → α → β} {P : β → Prop} {as : List α} {a : α} (ha : a ∈ as) (hself : ∀ b, P (f b a))
    (hkeep : ∀ b a', P b → P (f b a')) (b : β) : P (as.foldl f b) := by
  obtain ⟨before, behind, rfl⟩ := List.append_of_mem ha
  rw [List.foldl_append, List.foldl_cons]
  exact List.foldlRecOn behind f (hself _) fun b hb a' _ => hkeep b a' hb

theorem Crew.emptied_fullBit (c : Crew) {t count l n : Nat} (hl : l < 32) (hlo : t ≤ n) (hhi : n < t + count) (hn : n < 64) :
    (c.emptied t count).fullBit l n = false := by
  have hkeep (l' : Nat) (c : Crew) (r : Nat) (h : c.fullBit l n = false) : (c.setFull l' (t + r) false).fullBit l n = false :=
    c.fullBit_setFull_false l' (t + r) h
  refine foldl_of_mem (P := fun c : Crew => c.fullBit l n = false) (List.mem_range.2 hl) (fun c => ?_) (fun c l' h => ?_) c
  · refine foldl_of_mem (P := fun c : Crew => c.fullBit l n = false) (a := n - t) (List.mem_range.2 (by omega)) (fun c => ?_)
      (hkeep l) c
    rw [Nat.add_sub_cancel' hlo]
    exact c.fullBit_setFull_self l hn false
  · exact List.foldlRecOn (motive := fun c : Crew => c.fullBit l n = false) _ _ h fun c h r _ => hkeep l' c r h

/-! ### The bit behind a register number -/

theorem State.crewAt_modCrew (s : State) (c : Nat) (f : Crew → Crew) (k : Nat) :
    (s.modCrew c f).crewAt k = if crewOf k = c then (s.crewAt k).map f else s.crewAt k := by
  unfold State.crewAt
  rw [State.modCrew_find]
  split
  · simp
  · split
    · next hc => rw [hc]
    · rfl

/-- A change of crews that leaves the mappings leaves what each register number names. -/
theorem State.physReg_modCrew (s : State) (c : Nat) {f : Crew → Crew} (hf : ∀ x, (f x).maps = x.maps) (k n : Nat) :
    (s.modCrew c f).physReg k n = s.physReg k n := by
  unfold State.physReg
  rw [State.crewAt_modCrew]
  cases s.crewAt k with
  | none => simp
  | some x =>
    have hm : (f x).mapping n = x.mapping n := by simp only [Crew.mapping, hf]
    by_cases hk : crewOf k = c
    · rw [if_pos hk, Option.map_some]
      dsimp only
      rw [hm]
      rfl
    · rw [if_neg hk]
      rfl

theorem State.putFull_physFull (s : State) {k n : Nat} (v : Bool) (hcrew : (s.crewAt (s.physReg k n).1).isSome = true)
    (hn : (s.physReg k n).2 < 64) : (s.putFull k n v).physFull k n = v := by
  obtain ⟨c, hc⟩ := Option.isSome_iff_exists.1 hcrew
  unfold State.putFull State.physFull
  dsimp only
  rw [State.physReg_modCrew _ _ fun x => x.setFull_maps _ _ _, State.crewAt_modCrew, if_pos rfl, hc]
  exact c.fullBit_setFull_self _ hn v

/-! ### SETF and TAKEF (R79, R80) -/

theorem State.setfTry_empty {s : State} {k : Nat} {d : Reg} (h : s.physFull k d.toNat = false) (a : Reg) :
    s.setfTry k d a = some ((s.writeReg k d (s.readReg k a)).putFull k d.toNat true) := by
  simp [State.setfTry, h]

theorem State.setfTry_full {s : State} {k : Nat} {d : Reg} (h : s.physFull k d.toNat = true) (a : Reg) :
    s.setfTry k d a = none := by
  simp [State.setfTry, h]

theorem State.takefTry_full {s : State} {k : Nat} {a : Reg} (h : s.physFull k a.toNat = true) (d : Reg) :
    s.takefTry k d a = some ((s.writeReg k d (s.readReg k a)).putFull k a.toNat false) := by
  simp [State.takefTry, h]

theorem State.takefTry_empty {s : State} {k : Nat} {a : Reg} (h : s.physFull k a.toNat = false) (d : Reg) :
    s.takefTry k d a = none := by
  simp [State.takefTry, h]

section setf
variable {s s' : State} {k : Nat} {g : Guard} {d a : Reg} (h : s.executes k g simtOnly .holds [a.toNat, d.toNat])
include h

theorem exec_setf_done (hs : s.sharedReg k d.toNat = true) (ht : s.setfTry k d a = some s') :
    exec (.setf g d a) s = .next (s'.goTo k (nextPc (s.thread k).pc)) :=
  perThread_next h (by simp [hs, ht])

theorem exec_setf_parks (hs : s.sharedReg k d.toNat = true) (ht : s.setfTry k d a = none) :
    exec (.setf g d a) s = .next ((s.parkShared k (.setf g d a)).leaveBundle k) :=
  perThread_hold h (by simp [hs, ht])

theorem exec_setf_unshared (hs : s.sharedReg k d.toNat = false) :
    exec (.setf g d a) s = .next (s.raise k cILLEGAL 0 (d.setWidth 64) (s.thread k).pc) :=
  perThread_raise h (after := false) (by simp [hs])

theorem exec_takef_done (hs : s.sharedReg k a.toNat = true) (ht : s.takefTry k d a = some s') :
    exec (.takef g d a) s = .next (s'.goTo k (nextPc (s.thread k).pc)) :=
  perThread_next h (by simp [hs, ht])

theorem exec_takef_parks (hs : s.sharedReg k a.toNat = true) (ht : s.takefTry k d a = none) :
    exec (.takef g d a) s = .next ((s.parkShared k (.takef g d a)).leaveBundle k) :=
  perThread_hold h (by simp [hs, ht])

theorem exec_takef_unshared (hs : s.sharedReg k a.toNat = false) :
    exec (.takef g d a) s = .next (s.raise k cILLEGAL 0 (a.setWidth 64) (s.thread k).pc) :=
  perThread_raise h (after := false) (by simp [hs])

end setf

/-! ### SHMAP (R76, R460) -/

/-- The mappings of a crew that lie apart from a range of registers. -/
def Crew.mapsApart (c : Crew) (d count : Nat) : List ShMap :=
  c.maps.filter fun m => decide (m.d + m.count ≤ d) || decide (d + count ≤ m.d)

/-- Beside mappings that lie apart from it, a new mapping covers its own range. -/
theorem Crew.mapping_new {c x : Crew} {m : ShMap} (hx : x.maps = c.mapsApart m.d m.count ++ [m]) {q : Nat} (hlo : m.d ≤ q)
    (hhi : q < m.d + m.count) : x.mapping q = some m := by
  have hapart : (c.mapsApart m.d m.count).find? (fun y => decide (y.d ≤ q) && decide (q < y.d + y.count)) = none := by
    refine List.find?_eq_none.2 fun y hy => ?_
    obtain ⟨-, hy⟩ := List.mem_filter.1 hy
    simp only [Bool.or_eq_true, decide_eq_true_eq] at hy
    simp only [Bool.and_eq_true, decide_eq_true_eq]
    omega
  rw [Crew.mapping, hx, List.find?_append, hapart]
  simp [hlo, hhi]

section shmap
variable {s : State} {k : Nat} {d a : Reg} {c : Crew} {tk : Nat}

/-- SHMAP names another crew of its context on its core. -/
structure State.ShmapTarget (s : State) (k : Nat) (a : Reg) (c : Crew) (tk : Nat) : Prop where
  crew : s.crewAt k = some c
  word : (s.readReg k a).toNat < 64
  slot : s.crewInSlot c.core c.asid (fld (s.readReg k a) 5 4) (fld (s.readReg k a) 3 0) = some tk
  other : tk ≠ crewOf k

/-- With count 0 the mapping that covers `d` goes. -/
theorem State.shmap_removes (h : s.ShmapTarget k a c tk) (t : Reg) :
    s.shmap k d a t 0 = .go (s.modCrew (crewOf k) fun x => { x with
      maps := x.maps.filter fun m => !(decide (m.d ≤ d.toNat) && decide (d.toNat < m.d + m.count)) }) .next := by
  have hw : (s.readReg k a).toNat / 64 = 0 := Nat.div_eq_of_lt h.word
  simp only [State.shmap, h.crew, hw, h.slot, if_true, if_neg h.other]

/-- The state after SHMAP has mapped a range. -/
def State.mapped (s : State) (k tk : Nat) (c : Crew) (m : ShMap) : State :=
  (s.modCrew (crewOf k) fun x => { x with maps := c.mapsApart m.d m.count ++ [m] }).modCrew tk (Crew.emptied m.t m.count)

/-- With a count the range is mapped, if the limits of R76 hold. -/
theorem State.shmap_maps (h : s.ShmapTarget k a c tk) {t : Reg} {n : Nat} (hn : n ≠ 0) (hd : d ≠ 0) (ht : t ≠ 0)
    (hd64 : d.toNat + n ≤ 64) (ht64 : t.toNat + n ≤ 64) (hcnt : d.toNat + n ≤ (s.thread k).regcnt)
    (hroom : (c.mapsApart d.toNat n).length < 2) :
    ∃ tc, s.shmap k d a t n = .go (s.mapped k tk c ⟨tk, tc, d.toNat, t.toNat, n⟩) .next := by
  have hw : (s.readReg k a).toNat / 64 = 0 := Nat.div_eq_of_lt h.word
  have hlim : ¬(d.toNat = 0 ∨ t.toNat = 0 ∨ 64 < d.toNat + n ∨ 64 < t.toNat + n) := by
    rintro (h0 | h0 | h0 | h0)
    · exact hd (BitVec.eq_of_toNat_eq h0)
    · exact ht (BitVec.eq_of_toNat_eq h0)
    · omega
    · omega
  have hkeep : ¬2 ≤ (c.maps.filter fun m => decide (m.d + m.count ≤ d.toNat) || decide (d.toNat + n ≤ m.d)).length :=
    Nat.not_le.2 hroom
  refine ⟨(s.crews.find tk).map (·.cidx) |>.getD 0, ?_⟩
  simp only [State.shmap, h.crew, hw, h.slot, if_true, if_neg h.other, if_neg hn, if_neg hlim,
    if_neg hkeep, if_neg (Nat.not_lt.2 hcnt)]
  rfl

/-- The executing crew maps the range. -/
theorem State.mapped_own (h : s.ShmapTarget k a c tk) (m : ShMap) :
    ∃ x, (s.mapped k tk c m).crews.find (crewOf k) = some x ∧ ∀ q, m.d ≤ q → q < m.d + m.count → x.mapping q = some m := by
  have hc : s.crews.find (crewOf k) = some c := by
    have hcrew := h.crew
    unfold State.crewAt at hcrew
    split at hcrew
    · cases hcrew
    · exact hcrew
  refine ⟨{ c with maps := c.mapsApart m.d m.count ++ [m] }, ?_, fun q => Crew.mapping_new rfl⟩
  rw [State.mapped, State.modCrew_find, if_neg (Ne.symm h.other), State.modCrew_find, if_pos rfl, hc]
  rfl

/-- The target crew's registers of the range are empty. -/
theorem State.mapped_target (h : s.ShmapTarget k a c tk) {m : ShMap} (hm : m.t + m.count ≤ 64) {x : Crew}
    (hx : s.crews.find tk = some x) :
    ∃ y, (s.mapped k tk c m).crews.find tk = some y ∧ ∀ l n, l < 32 → m.t ≤ n → n < m.t + m.count → y.fullBit l n = false := by
  refine ⟨x.emptied m.t m.count, ?_, fun l n hl hlo hhi => x.emptied_fullBit hl hlo hhi (by omega)⟩
  rw [State.mapped, State.modCrew_find, if_pos rfl, State.modCrew_find, if_neg h.other, hx]
  rfl

end shmap

/-- Settles O42: SETF and TAKEF by one try of each, the bits by the physical register, SHMAP by the mapping that it removes
or makes. -/
theorem sharedRegisters : Obligations.SharedRegisters := by
  intro s k g d a
  refine ⟨fun h => ⟨fun hs hf => exec_setf_done h hs (State.setfTry_empty hf a),
      fun hs hf => exec_setf_parks h hs (State.setfTry_full hf a), exec_setf_unshared h,
      fun hs hf => exec_takef_done h hs (State.takefTry_full hf d),
      fun hs hf => exec_takef_parks h hs (State.takefTry_empty hf d), exec_takef_unshared h⟩,
    fun n v => s.putFull_physFull v, fun t c tk h hc hw hslot hne => ?_⟩
  have htarget : s.ShmapTarget k a c tk := ⟨hc, hw, hslot, hne⟩
  refine ⟨perCrew_next h (State.shmap_removes htarget t), fun count hcount _ hd ht hd64 ht64 hcnt hroom => ?_⟩
  have hn : count.toNat ≠ 0 := fun h0 => hcount (BitVec.eq_of_toNat_eq h0)
  obtain ⟨tc, hmap⟩ := State.shmap_maps htarget hn hd ht hd64 ht64 hcnt hroom
  obtain ⟨x, hx, hcover⟩ := State.mapped_own htarget ⟨tk, tc, d.toNat, t.toNat, count.toNat⟩
  refine ⟨_, perCrew_next h hmap, ⟨x, hx, fun q hlo hhi => ⟨_, hcover q hlo hhi, rfl, rfl⟩⟩,
    fun y hy => State.mapped_target htarget ht64 hy, rfl, ?_⟩
  rw [State.advance, State.goTo_get_self]
  rfl

end Sys2Proof.Machine
end

section
/-!
PROOFS. Allotments (R71, R72): GROW, the grant of its request in place, and SHRINK.
-/
namespace Sys2Proof.Machine

/-! ### Registers of a window of another size -/

/-- The first `n` registers of a thread, with zeros above them. -/
def Thread.firstRegs (t : Thread) (n : Nat) : Vector Word 64 := Vector.ofFn fun r : Fin 64 => if r.val < n then t.regs[r] else 0

theorem Thread.reg_of_firstRegs {t u : Thread} {n : Nat} (h : u.regs = t.firstRegs n) {r : Nat} (hr : r < 64) :
    u.reg r = if r < n then t.reg r else 0 := by
  simp [Thread.reg, hr, h, Thread.firstRegs]

/-! ### GROW (R71) -/

section grow
variable {s : State} {k : Nat} {g : Guard} {n8 : BitVec 3} (h : s.executes k g anyCore .holds [])
include h

theorem exec_grow_parks (h64 : (s.thread k).regcnt + 8 * n8.toNat ≤ 64)
    (hslice : 8 * ((s.thread k).regcnt + 8 * n8.toNat) ≤ (s.core (s.coreOf k)).regg * 128) :
    exec (.grow g n8) s = .next ((s.parkThread k .grow (.grow g n8)).leaveBundle k) := by
  have hfit : (decide (64 < (s.thread k).regcnt + 8 * n8.toNat)
      || decide ((s.core (s.coreOf k)).regg * 128 < ((s.thread k).regcnt + 8 * n8.toNat) * 8)) = false := by
    rw [decide_eq_false (by omega), decide_eq_false (by omega)]
    rfl
  exact perThread_hold h (by simp only [hfit, Bool.false_eq_true, if_false])

theorem exec_grow_beyond (hbig : 64 < (s.thread k).regcnt + 8 * n8.toNat
      ∨ (s.core (s.coreOf k)).regg * 128 < 8 * ((s.thread k).regcnt + 8 * n8.toNat)) :
    exec (.grow g n8) s
      = .next (s.raise k cREG_ALLOT 0 (BitVec.ofNat 64 ((s.thread k).regcnt + 8 * n8.toNat)) (s.thread k).pc) := by
  have hover : (decide (64 < (s.thread k).regcnt + 8 * n8.toNat)
      || decide ((s.core (s.coreOf k)).regg * 128 < ((s.thread k).regcnt + 8 * n8.toNat) * 8)) = true := by
    rw [Bool.or_eq_true, decide_eq_true_eq, decide_eq_true_eq]
    omega
  exact perThread_raise h (after := false) (by simp only [hover, if_true])

end grow

/-! ### The grant in place (R71, R402) -/

/-- A thread whose window has grown at its place, past its GROW. -/
def Thread.grown (t : Thread) (new : Nat) : Thread := { t with regs := t.firstRegs t.regcnt, regcnt := new }.unparked

theorem Thread.grown_regs (t : Thread) (new : Nat) : (t.grown new).regs = t.firstRegs t.regcnt := rfl

theorem Thread.grown_spec (t : Thread) (new : Nat) :
    (t.grown new).regcnt = new ∧ (t.grown new).loambase = t.loambase ∧ (t.grown new).st.park = .none
      ∧ (t.grown new).pc = nextPc t.pc
      ∧ ∀ r, r < 64 → (t.grown new).reg r = if r < t.regcnt then t.reg r else 0 :=
  ⟨rfl, by simp only [Thread.grown, Thread.unparked], rfl, rfl, fun _ => Thread.reg_of_firstRegs (t.grown_regs new)⟩

/-- The words of the grown window have good parity. -/
def State.grantInPlace (s : State) (k new : Nat) (c : Crew) : State :=
  (s.modThread k (·.grown new)).modCore c.core fun x => x.goodParity c.bank (s.thread k).loambase (8 * new)

theorem State.grantInPlace_get_self (s : State) (k new : Nat) (c : Crew) :
    (s.grantInPlace k new c).thread k = (s.thread k).grown new := by
  rw [State.grantInPlace, State.modCore_get_thread, State.modThread_get_self]

theorem State.grantInPlace_get_ne (s : State) {k j : Nat} (h : j ≠ k) (new : Nat) (c : Crew) :
    (s.grantInPlace k new c).thread j = s.thread j := by
  rw [State.grantInPlace, State.modCore_get_thread, State.modThread_get_ne _ _ _ h]

/-- Nothing of the slice's other windows stands in the way of a window of `new` registers at the thread's place. -/
def State.RoomInPlace (s : State) (k new : Nat) (c : Crew) : Prop :=
  let base := (s.thread k).loambase
  let sl := (s.core c.core).slice c.part (laneOf k)
  base + 8 * new ≤ sl.1 + sl.2
    ∧ ∀ u ∈ s.windowsIn c.core c.part (laneOf k) c.bank, u.1 ≠ base → base + 8 * new ≤ u.1 ∨ u.1 + u.2 ≤ base

theorem exec_growGrant_inPlace {s : State} {k : Nat} {c : Crew} (hc : s.crewAt k = some c) (hh : s.halted = false)
    (hp : (s.thread k).st.park = .grow) (hl : (s.thread k).st.live = true) (hf : s.firstInSlice k = true)
    (hroom : s.RoomInPlace k (growWanted (s.thread k)) c) :
    exec (.growGrant k) s = .next (s.grantInPlace k (growWanted (s.thread k)) c) := by
  obtain ⟨hend, hothers⟩ := hroom
  show execGrowGrant k s = _
  unfold execGrowGrant
  rw [hc]
  dsimp only
  rw [if_neg (by simp [hh, hp, hl, hf]), if_pos]
  · rfl
  · simp only [Bool.and_eq_true, decide_eq_true_eq, List.all_eq_true, List.mem_filter, bne_iff_ne, Bool.or_eq_true]
    exact ⟨hend, fun u hu => hothers u hu.1 hu.2⟩

/-! ### SHRINK (R71, R72, R461) -/

/-- A mapped range of the thread's crew would lose a register. -/
def State.coversShrunk (s : State) (k n : Nat) : Bool :=
  (s.ownCrew k).any fun c => c.maps.any fun m => decide ((s.thread k).regcnt - n < m.d + m.count)

/-- A thread that has given back `n` registers. -/
def Thread.shrunk (n : Nat) (t : Thread) : Thread :=
  { t with regs := t.firstRegs (t.regcnt - n), regcnt := t.regcnt - n
           parity := t.parity &&& BitVec.ofNat 128 (2 ^ (2 * (t.regcnt - n)) - 1) }

theorem Thread.shrunk_goTo_regs (t : Thread) (n : Nat) (pc : Word) :
    ((t.shrunk n).goTo pc).regs = t.firstRegs (t.regcnt - n) := rfl

/-- The thread goes on with the registers that it kept. -/
theorem Thread.shrunk_goTo_reg (t : Thread) (n : Nat) (pc : Word) {r : Nat} (hr : r < 64) :
    ((t.shrunk n).goTo pc).reg r = if r < t.regcnt - n then t.reg r else 0 :=
  Thread.reg_of_firstRegs (t.shrunk_goTo_regs n pc) hr

section shrink
variable {s : State} {k : Nat} {g : Guard} {n8 : BitVec 3} (h : s.executes k g anyCore .holds [])
include h

theorem exec_shrink_beyond (hbad : (s.thread k).regcnt < 16 + 8 * n8.toNat ∨ s.coversShrunk k (8 * n8.toNat) = true) :
    exec (.shrink g n8) s = .next (s.raise k cREG_ALLOT 0
      (BitVec.ofInt 64 ((s.thread k).regcnt - (8 * n8.toNat : Nat) : Int)) (s.thread k).pc) :=
  perThread_raise h (after := false) (if_pos hbad)

section fits
variable (hfits : ¬((s.thread k).regcnt < 16 + 8 * n8.toNat ∨ s.coversShrunk k (8 * n8.toNat) = true))
include hfits

theorem exec_shrink_lat (hlat : isLat k = true) : exec (.shrink g n8) s = .next (s.advance k) :=
  perThread_next h ((if_neg hfits).trans (if_pos hlat))

theorem exec_shrink_waits (hlat : isLat k = false) (hld : (s.thread k).oc.ld ≠ 0) :
    exec (.shrink g n8) s = .next ((s.parkThread k .counters (.shrink g n8)).leaveBundle k) :=
  perThread_hold h (((if_neg hfits).trans (if_neg (Bool.eq_false_iff.1 hlat))).trans (if_pos hld))

theorem exec_shrink_done (hlat : isLat k = false) (hld : (s.thread k).oc.ld = 0) :
    exec (.shrink g n8) s = .next ((s.modThread k (Thread.shrunk (8 * n8.toNat))).goTo k (nextPc (s.thread k).pc)) := by
  refine perThread_next h (((if_neg hfits).trans (if_neg (Bool.eq_false_iff.1 hlat))).trans ((if_neg (not_not.2 hld)).trans ?_))
  -- the model takes the new registers from the thread as it issues, which is the thread that is changed
  unfold State.modThread
  rfl

end fits
end shrink

/-- Settles O43: GROW by its two limits, the grant by the room at its place, SHRINK by its limit, the mapped ranges and the
thread's loads. -/
theorem allotments : Obligations.Allotments := by
  refine ⟨?grant, ?instructions⟩
  case grant =>
    intro s k g n8 c hc hh hp hl hagain hf new base sl hend hothers
    have hwanted : growWanted (s.thread k) = new := by simp [growWanted, hagain, new]
    have hex := exec_growGrant_inPlace hc hh hp hl hf (hwanted ▸ ⟨hend, hothers⟩)
    rw [hwanted] at hex
    refine ⟨_, hex, ?_⟩
    obtain ⟨hcnt, hbase, hpark, hpc, hreg⟩ := (s.thread k).grown_spec new
    rw [State.grantInPlace_get_self]
    exact ⟨hcnt, hbase, hpark, hpc, hreg, rfl, fun j hj => s.grantInPlace_get_ne hj new c⟩
  case instructions =>
    intro s k g n8 h new n slice covered
    refine ⟨exec_grow_parks h, exec_grow_beyond h, fun hbig hcov => ?_, exec_shrink_beyond h⟩
    have hfits : ¬((s.thread k).regcnt < 16 + n ∨ s.coversShrunk k n = true) := not_or.2 ⟨Nat.not_lt.2 hbig, hcov⟩
    refine ⟨exec_shrink_lat h hfits, exec_shrink_waits h hfits, fun hlat hld => ⟨_, exec_shrink_done h hfits hlat hld, ?_⟩⟩
    rw [State.goTo_get_self, State.modThread_get_self]
    exact ⟨rfl, rfl, fun _ => (s.thread k).shrunk_goTo_reg n _, rfl,
      fun j hj => (State.goTo_get_ne _ _ _ hj).trans (State.modThread_get_ne _ _ _ hj)⟩

end Sys2Proof.Machine
end

section
/-!
PROOFS. What the functions of the integer instructions compute (R100, R253, R254, R362 to R364).
-/
namespace Sys2Proof.Machine

section values
variable (x y : Word)

/-! ### Arithmetic on numbers -/

theorem word_sub_eq : x - y = BitVec.ofInt 64 (x.toInt - y.toInt) := BitVec.eq_of_toInt_eq (by simp)

theorem wordAddW_eq : wordAddW x y = (BitVec.ofNat 32 (x.toNat + y.toNat)).signExtend 64 := by
  unfold wordAddW
  congr 1
  exact BitVec.eq_of_toNat_eq (by simp)

theorem wordSubW_eq : wordSubW x y = (BitVec.ofInt 32 (x.toInt - y.toInt)).signExtend 64 := by
  unfold wordSubW
  congr 1
  refine BitVec.eq_of_toNat_eq ?_
  simp only [BitVec.toNat_setWidth, BitVec.toNat_sub, BitVec.toNat_ofInt, BitVec.toInt_eq_toNat_cond]
  split <;> split <;> omega

theorem word_mul_eq : x * y = BitVec.ofNat 64 (x.toNat * y.toNat) := BitVec.eq_of_toNat_eq (by simp)

theorem wordLea_eq (sh : BitVec 3) : wordLea sh x y = BitVec.ofNat 64 (x.toNat + y.toNat * 2 ^ sh.toNat) :=
  BitVec.eq_of_toNat_eq (by simp [wordLea, Nat.shiftLeft_eq])

/-! ### Shifts -/

theorem wordShl_eq : wordShl x y = BitVec.ofNat 64 (x.toNat * 2 ^ (y.toNat % 64)) :=
  BitVec.eq_of_toNat_eq (by simp [wordShl, Nat.shiftLeft_eq])

theorem wordShr_eq : wordShr x y = BitVec.ofNat 64 (x.toNat / 2 ^ (y.toNat % 64)) :=
  eq_ofNat (by simp [wordShr, Nat.shiftRight_eq_div_pow])

theorem wordSra_eq : wordSra x y = BitVec.ofInt 64 (x.toInt / 2 ^ (y.toNat % 64)) :=
  eq_ofInt (by simp [wordSra, BitVec.toInt_sshiftRight, Int.shiftRight_eq_div_pow])

/-- A shift amount of six bits is itself as a word (R364). -/
theorem shiftAmount_mod (n : BitVec 6) : (n.setWidth 64).toNat % 64 = n.toNat := by
  rw [BitVec.toNat_setWidth]; omega

theorem wordShl_imm_eq (n : BitVec 6) : wordShl x (n.setWidth 64) = BitVec.ofNat 64 (x.toNat * 2 ^ n.toNat) := by
  rw [wordShl_eq, shiftAmount_mod]

theorem wordShr_imm_eq (n : BitVec 6) : wordShr x (n.setWidth 64) = BitVec.ofNat 64 (x.toNat / 2 ^ n.toNat) := by
  rw [wordShr_eq, shiftAmount_mod]

theorem wordSra_imm_eq (n : BitVec 6) : wordSra x (n.setWidth 64) = BitVec.ofInt 64 (x.toInt / 2 ^ n.toNat) := by
  rw [wordSra_eq, shiftAmount_mod]

/-! ### Comparisons, minimum and maximum -/

theorem wordMin_eq : wordMin x y = BitVec.ofInt 64 (min x.toInt y.toInt) := eq_ofInt (redStep_min_toInt x y)
theorem wordMax_eq : wordMax x y = BitVec.ofInt 64 (max x.toInt y.toInt) := eq_ofInt (redStep_max_toInt x y)
theorem wordMinu_eq : wordMinu x y = BitVec.ofNat 64 (min x.toNat y.toNat) := eq_ofNat (redStep_minu_toNat x y)
theorem wordMaxu_eq : wordMaxu x y = BitVec.ofNat 64 (max x.toNat y.toNat) := eq_ofNat (redStep_maxu_toNat x y)

theorem wordSlt_eq : wordSlt x y = if x.toInt < y.toInt then 1 else 0 := by
  simp [wordSlt, BitVec.slt_iff_toInt_lt]

theorem wordSltu_eq : wordSltu x y = if x.toNat < y.toNat then 1 else 0 := by
  simp [wordSltu, BitVec.ult_iff_toNat_lt]

/-! ### Logic, bit fields and counts -/

theorem word_and_eq : x &&& y = wordOfBits fun j => x.getLsbD j && y.getLsbD j := eq_wordOfBits fun _ _ => BitVec.getLsbD_and
theorem word_or_eq : x ||| y = wordOfBits fun j => x.getLsbD j || y.getLsbD j := eq_wordOfBits fun _ _ => BitVec.getLsbD_or
theorem word_xor_eq : x ^^^ y = wordOfBits fun j => x.getLsbD j != y.getLsbD j := eq_wordOfBits fun _ _ => BitVec.getLsbD_xor

theorem wordSext_eq (n : BitVec 6) : wordSext n x = (BitVec.ofNat (n.toNat + 1) x.toNat).signExtend 64 := by
  have hcut : (BitVec.ofNat (n.toNat + 1) x.toNat).toNat = x.toNat % 2 ^ (n.toNat + 1) := BitVec.toNat_ofNat ..
  have hpow : (2 : Nat) ^ (n.toNat + 1) = 2 * 2 ^ n.toNat := Nat.pow_succ'
  rw [BitVec.signExtend, BitVec.toInt_eq_toNat_cond, hcut, wordSext, sextNat, if_neg (Nat.succ_ne_zero _), Nat.add_sub_cancel]
  split
  · rw [if_neg (by omega)]; push_cast; rfl
  · rw [if_pos (by omega), BitVec.ofInt_natCast]

theorem wordZext_eq (n : BitVec 6) : wordZext n x = (BitVec.ofNat (n.toNat + 1) x.toNat).setWidth 64 :=
  BitVec.eq_of_toNat_eq (by simp [wordZext])

theorem wordBfx_eq (pos len : BitVec 6) :
    wordBfx pos len x = (BitVec.ofNat (len.toNat + 1) (x.toNat / 2 ^ pos.toNat)).setWidth 64 :=
  BitVec.eq_of_toNat_eq (by simp [wordBfx])

theorem wordBfi_eq (pos len : BitVec 6) : wordBfi pos len x y = wordOfBits fun j =>
    if pos.toNat ≤ j ∧ j < pos.toNat + len.toNat + 1 then y.getLsbD (j - pos.toNat) else x.getLsbD j := by
  refine eq_wordOfBits fun j hj => ?_
  have hmask : (BitVec.ofNat 64 ((2 ^ (len.toNat + 1) - 1) * 2 ^ pos.toNat)).getLsbD j
      = decide (pos.toNat ≤ j ∧ j < pos.toNat + len.toNat + 1) := by
    rw [BitVec.getLsbD_ofNat, Nat.testBit_mul_two_pow, Nat.testBit_two_pow_sub_one, Bool.eq_iff_iff]
    simp only [Bool.and_eq_true, decide_eq_true_eq]
    omega
  simp only [wordBfi, BitVec.getLsbD_or, BitVec.getLsbD_and, BitVec.getLsbD_not, BitVec.getLsbD_shiftLeft, hmask, hj, decide_true,
    Bool.true_and]
  by_cases h : pos.toNat ≤ j ∧ j < pos.toNat + len.toNat + 1
  · rw [decide_eq_true h, if_pos h]
    simp [h.1]
  · rw [decide_eq_false h, if_neg h]
    simp

theorem wordBrev_eq : wordBrev x = wordOfBits fun j => x.getLsbD (63 - j) :=
  eq_wordOfBits fun j hj => by
    rw [wordBrev, BitVec.getLsbD_reverse, BitVec.getMsbD, decide_eq_true hj, Bool.true_and, Nat.sub_right_comm]

/-- A count of one bits adds them up in order. -/
theorem foldl_bits_eq_countP (v : Nat) (ks : List Nat) (n : Nat) :
    ks.foldl (fun s k => s + v / 2 ^ k % 2) n = n + ks.countP fun k => v.testBit k := by
  induction ks generalizing n with
  | nil => rfl
  | cons k ks ih =>
    rw [List.foldl_cons, ih, List.countP_cons, ← Nat.toNat_testBit]
    cases v.testBit k <;> simp [Nat.add_comm, Nat.add_left_comm]

theorem wordPopc_eq : wordPopc x = BitVec.ofNat 64 ((List.range 64).countP fun j => x.getLsbD j) := by
  rw [wordPopc, popcount, foldl_bits_eq_countP, Nat.zero_add]
  rfl

/-- The run that a predicate holds from 0 on ends at the first number where it fails. -/
theorem length_takeWhile_range {p : Nat → Bool} {n m : Nat} (hm : m ≤ n) (hbelow : ∀ j < m, p j = true)
    (hat : m < n → p m = false) : ((List.range n).takeWhile p).length = m := by
  obtain ⟨r, rfl⟩ := Nat.exists_eq_add_of_le hm
  rw [List.range_add, List.takeWhile_append_of_pos fun j hj => hbelow j (List.mem_range.1 hj)]
  cases r with
  | zero => simp
  | succ r => simp [List.range_succ_eq_map, hat (by omega)]

theorem wordClz_eq : wordClz x = BitVec.ofNat 64 ((List.range 64).takeWhile fun j => !x.getLsbD (63 - j)).length := by
  unfold wordClz
  split
  next h =>
    subst h
    rw [length_takeWhile_range (m := 64) (Nat.le_refl _) (fun _ _ => by simp) fun h => absurd h (by decide)]
    rfl
  next h =>
    have hne : x.toNat ≠ 0 := fun e => h (BitVec.eq_of_toNat_eq e)
    have htop : x.toNat.log2 < 64 := (Nat.log2_lt hne).2 x.isLt
    rw [length_takeWhile_range (m := 63 - x.toNat.log2) (by omega)]
    · intro j hj
      have habove : x.toNat < 2 ^ (63 - j) := (Nat.log2_lt hne).1 (by omega)
      simp [BitVec.getLsbD, Nat.testBit_lt_two_pow habove]
    · intro _
      have hbit : 63 - (63 - x.toNat.log2) = x.toNat.log2 := by omega
      simp [BitVec.getLsbD, hbit, Nat.testBit_log2 hne]

/-! ### Immediates (R250) -/

theorem imm64_toInt (imm : BitVec 32) : (imm64 imm).toInt = immInt imm := by
  rw [imm64, BitVec.toInt_signExtend_of_le (by decide), BitVec.toInt_eq_toNat_cond, immInt]
  exact if_congr (by omega) rfl rfl

theorem imm64_eq (imm : BitVec 32) : imm64 imm = BitVec.ofInt 64 (immInt imm) := eq_ofInt (imm64_toInt imm)

theorem imm64_getLsbD (imm : BitVec 32) {j : Nat} (hj : j < 64) : (imm64 imm).getLsbD j = imm.getLsbD (min j 31) := by
  rw [imm64, BitVec.getLsbD_signExtend, BitVec.msb_eq_getLsbD_last]
  by_cases h : j < 32
  · simp [hj, h, min_eq_left (Nat.le_of_lt_succ h)]
  · simp [hj, h, min_eq_right (show 31 ≤ j by omega)]

theorem word_addImm_eq (imm : BitVec 32) : x + imm64 imm = BitVec.ofInt 64 (x.toInt + immInt imm) := by
  rw [BitVec.ofInt_add, BitVec.ofInt_toInt, ← imm64_eq]

theorem word_andImm_eq (imm : BitVec 32) : x &&& imm64 imm = wordOfBits fun j => x.getLsbD j && imm.getLsbD (min j 31) :=
  eq_wordOfBits fun _ hj => by rw [BitVec.getLsbD_and, imm64_getLsbD imm hj]

theorem word_orImm_eq (imm : BitVec 32) : x ||| imm64 imm = wordOfBits fun j => x.getLsbD j || imm.getLsbD (min j 31) :=
  eq_wordOfBits fun _ hj => by rw [BitVec.getLsbD_or, imm64_getLsbD imm hj]

theorem word_xorImm_eq (imm : BitVec 32) : x ^^^ imm64 imm = wordOfBits fun j => x.getLsbD j != imm.getLsbD (min j 31) :=
  eq_wordOfBits fun _ hj => by rw [BitVec.getLsbD_xor, imm64_getLsbD imm hj]

theorem wordSlt_imm_eq (imm : BitVec 32) : wordSlt x (imm64 imm) = if x.toInt < immInt imm then 1 else 0 := by
  rw [wordSlt_eq, imm64_toInt]

theorem wordMovhi_eq (imm : BitVec 32) : wordMovhi imm x = BitVec.ofNat 64 (imm.toNat * 2 ^ 32 + x.toNat % 2 ^ 32) := by
  refine eq_ofNat ?_
  rw [wordMovhi, BitVec.toNat_append, BitVec.toNat_setWidth, Nat.shiftLeft_eq, Nat.mul_comm,
    Nat.two_pow_add_eq_or_of_lt (Nat.mod_lt _ (by decide))]

/-! ### Division (R100) -/

variable {x y}

/-- The remainder is what the quotient leaves of the dividend. -/
theorem wordRem_of_ne (h : y ≠ 0) : wordRem x y = BitVec.ofInt 64 (x.toInt - y.toInt * x.toInt.tdiv y.toInt) := by
  rw [wordRem, if_neg h, Int.tmod_def]

end values

end Sys2Proof.Machine
end

section
/-!
PROOFS. The integer register forms do to each executing thread what their tables say (R100, R253, R254).
-/
namespace Sys2Proof.Machine

section integer
variable {i : Instr} {f : RegForm} {g : Guard} {d a b : Reg} {regs : List Reg}

/-- A form that writes `v`, the value that its table gives. -/
theorem writes_completes {val v : State → Nat → Word} (h : writes g regs d val = some f)
    (hex : ∀ s, exec i s = perThread s i g ((regs ++ [d]).map (·.toNat)) anyCore .runs fun k s =>
      .go (s.writeReg k d (v s k)) .next) (hv : ∀ s k, v s k = val s k) : FormIssues i f f.eff := by
  obtain rfl : v = val := funext₂ hv
  obtain rfl := Option.some.inj h
  exact ⟨hex, fun k s => .reg rfl _⟩

theorem alu2_completes {F val : Word → Word → Word} (hF : ∀ x y, F x y = val x y)
    (hex : ∀ s, exec i s = alu2 s i g d a b F)
    (h : writes g [a, b] d (fun s k => val (s.readReg k a) (s.readReg k b)) = some f) : FormIssues i f f.eff :=
  writes_completes h hex fun _ _ => hF _ _

theorem alu1_completes {F val : Word → Word} (hF : ∀ x, F x = val x) (hex : ∀ s, exec i s = alu1 s i g d a F)
    (h : writes g [a] d (fun s k => val (s.readReg k a)) = some f) : FormIssues i f f.eff :=
  writes_completes h hex fun _ _ => hF _

/-- The form of a division: what it writes for a zero divisor, with IX, and for another one. -/
def divides (g : Guard) (d a b : Reg) (zero : Word → Word) (val : Word → Word → Word) : RegForm :=
  ⟨g, [a, b, d], some d, none, fun k s =>
    if s.readReg k b = 0 then (s.writeReg k d (zero (s.readReg k a))).raiseFlags k flagIX
    else s.writeReg k d (val (s.readReg k a) (s.readReg k b))⟩

theorem divide_completes {F val : Word → Word → Word} {zero : Word → Word} (hzero : ∀ x, F x 0 = zero x)
    (hval : ∀ x y, y ≠ 0 → F x y = val x y) (hex : ∀ s, exec i s = divide s i g d a b F)
    (h : some (divides g d a b zero val) = some f) : FormIssues i f f.eff := by
  obtain rfl := Option.some.inj h
  have heff : ∀ k s, (divides g d a b zero val).eff k s = if s.readReg k b = 0
      then (s.writeReg k d (F (s.readReg k a) (s.readReg k b))).raiseFlags k flagIX
      else s.writeReg k d (F (s.readReg k a) (s.readReg k b)) := by
    intro k s
    by_cases hy : s.readReg k b = 0
    · exact (if_pos hy).trans (by rw [if_pos hy, hy, hzero])
    · exact (if_neg hy).trans (by rw [if_neg hy, hval _ _ hy])
  refine ⟨fun s => ?exec_eq, fun k s => ?writes⟩
  case exec_eq =>
    rw [hex]
    simp only [heff]
    rfl
  case writes =>
    rw [heff]
    split
    · exact .flags (.reg rfl _) _
    · exact .reg rfl _

theorem intForm_completes (h : intForm i = some f) : FormIssues i f f.eff := by
  cases i with
  | add => exact alu2_completes BitVec.add_def (fun _ => rfl) h
  | sub => exact alu2_completes word_sub_eq (fun _ => rfl) h
  | addw => exact alu2_completes wordAddW_eq (fun _ => rfl) h
  | subw => exact alu2_completes wordSubW_eq (fun _ => rfl) h
  | and => exact alu2_completes word_and_eq (fun _ => rfl) h
  | or => exact alu2_completes word_or_eq (fun _ => rfl) h
  | xor => exact alu2_completes word_xor_eq (fun _ => rfl) h
  | shl => exact alu2_completes wordShl_eq (fun _ => rfl) h
  | shr => exact alu2_completes wordShr_eq (fun _ => rfl) h
  | sra => exact alu2_completes wordSra_eq (fun _ => rfl) h
  | min => exact alu2_completes wordMin_eq (fun _ => rfl) h
  | max => exact alu2_completes wordMax_eq (fun _ => rfl) h
  | minu => exact alu2_completes wordMinu_eq (fun _ => rfl) h
  | maxu => exact alu2_completes wordMaxu_eq (fun _ => rfl) h
  | slt => exact alu2_completes wordSlt_eq (fun _ => rfl) h
  | sltu => exact alu2_completes wordSltu_eq (fun _ => rfl) h
  | sel g d a b n => exact writes_completes h (fun _ => rfl) fun s k => (apply_ite (s.readReg k) _ a b).symm
  | lea _ _ _ _ sh => exact alu2_completes (wordLea_eq · · sh) (fun _ => rfl) h
  | sext _ _ _ n => exact alu1_completes (wordSext_eq · n) (fun _ => rfl) h
  | zext _ _ _ n => exact alu1_completes (wordZext_eq · n) (fun _ => rfl) h
  | clz => exact alu1_completes wordClz_eq (fun _ => rfl) h
  | popc => exact alu1_completes wordPopc_eq (fun _ => rfl) h
  | brev => exact alu1_completes wordBrev_eq (fun _ => rfl) h
  | bfx _ _ _ pos len => exact alu1_completes (wordBfx_eq · pos len) (fun _ => rfl) h
  | bfi _ _ _ _ pos len => exact alu2_completes (wordBfi_eq · · pos len) (fun _ => rfl) h
  | mul => exact alu2_completes word_mul_eq (fun _ => rfl) h
  | mulh => exact alu2_completes (fun _ _ => rfl) (fun _ => rfl) h
  | mulhu => exact alu2_completes (fun _ _ => rfl) (fun _ => rfl) h
  | _ => cases h

theorem immForm_completes (h : immForm i = some f) : FormIssues i f f.eff := by
  cases i with
  | addi _ _ _ imm => exact alu1_completes (word_addImm_eq · imm) (fun _ => rfl) h
  | andi _ _ _ imm => exact alu1_completes (word_andImm_eq · imm) (fun _ => rfl) h
  | ori _ _ _ imm => exact alu1_completes (word_orImm_eq · imm) (fun _ => rfl) h
  | xori _ _ _ imm => exact alu1_completes (word_xorImm_eq · imm) (fun _ => rfl) h
  | shli _ _ _ n => exact alu1_completes (wordShl_imm_eq · n) (fun _ => rfl) h
  | shri _ _ _ n => exact alu1_completes (wordShr_imm_eq · n) (fun _ => rfl) h
  | srai _ _ _ n => exact alu1_completes (wordSra_imm_eq · n) (fun _ => rfl) h
  | slti _ _ _ imm => exact alu1_completes (wordSlt_imm_eq · imm) (fun _ => rfl) h
  | movi _ _ imm => exact writes_completes h (fun _ => rfl) fun _ _ => imm64_eq imm
  | movhi _ _ imm => exact writes_completes h (fun _ => rfl) fun _ _ => wordMovhi_eq _ imm
  | _ => cases h

theorem divForm_completes (h : divForm i = some f) : FormIssues i f f.eff := by
  cases i with
  | div => exact divide_completes (F := wordDiv) (fun _ => rfl) (fun _ _ hy => if_neg hy) (fun _ => rfl) h
  | divu => exact divide_completes (F := wordDivu) (fun _ => rfl) (fun _ _ hy => if_neg hy) (fun _ => rfl) h
  | rem => exact divide_completes (F := wordRem) (fun _ => rfl) (fun _ _ => wordRem_of_ne) (fun _ => rfl) h
  | remu => exact divide_completes (F := wordRemu) (fun _ => rfl) (fun _ _ hy => if_neg hy) (fun _ => rfl) h
  | _ => cases h

end integer

/-- Settles O12: each form's function is the one of its table, and a bundle completes a form lane by lane. -/
theorem integerForms : Obligations.IntegerForms := by
  intro i f s hf hadm
  have hform : FormIssues i f f.eff := by
    rcases hf with hf | hf | hf
    · exact intForm_completes hf
    · exact immForm_completes hf
    · exact divForm_completes hf
  exact exec_form hform hadm

end Sys2Proof.Machine
end

section
/-!
PROOFS. The floating-point, conversion and packed forms do to each executing thread what their tables say (R256, R257, R387
to R394, R398, R433 to R436).
-/
namespace Sys2Proof.Machine

/-- The mode of an instruction is that of its rm field (R91). -/
theorem State.mode_eq_modeOf : State.mode = modeOf := by
  funext s k rm
  cases rm <;> rfl

section float
variable {i : Instr} {f : RegForm} {g : Guard} {d a b : Reg} {regs : List Reg} {t : FType} {rm : Rm}

/-- A form that leaves the result `r`, the one that its table gives, and its flags. -/
theorem givesFp_completes {val r : State → Nat → FpResult} (h : givesFp g regs d val = some f)
    (hex : ∀ s, exec i s = perThread s i g ((regs ++ [d]).map (·.toNat)) anyCore .runs fun k s =>
      .go (s.fpResult k d (r s k)) .next) (hr : ∀ s k, r s k = val s k) : FormIssues i f f.eff := by
  obtain rfl : r = val := funext₂ hr
  obtain rfl := Option.some.inj h
  exact ⟨hex, fun k s => .flags (.reg rfl _) _⟩

theorem fp2_completes {F : Fmt → Mode → Nat → Nat → FpResult} (hex : ∀ s, exec i s = fp2 s i g t rm d a b F)
    (h : givesFp g [a, b] d (fun s k => F (fmtOf (codeOf t)) (modeOf s k rm) (s.readReg k a).toNat (s.readReg k b).toNat)
      = some f) : FormIssues i f f.eff :=
  givesFp_completes h hex fun s k => by rw [State.mode_eq_modeOf]

theorem fp1_completes {F : Fmt → Mode → Nat → FpResult} (hex : ∀ s, exec i s = fp1 s i g t rm d a F)
    (h : givesFp g [a] d (fun s k => F (fmtOf (codeOf t)) (modeOf s k rm) (s.readReg k a).toNat) = some f) :
    FormIssues i f f.eff :=
  givesFp_completes h hex fun s k => by rw [State.mode_eq_modeOf]

theorem floatForm_completes (h : floatForm i = some f) : FormIssues i f f.eff := by
  cases i with
  | fadd | fsub | fmul | fdiv => exact fp2_completes (fun _ => rfl) h
  | fsqrt | frcp | frsq | fexp2 | flog2 => exact fp1_completes (fun _ => rfl) h
  | ffma => exact givesFp_completes h (fun _ => rfl) fun s k => by rw [State.mode_eq_modeOf]
  -- these three round nothing, so that no mode enters their result
  | fmin | fmax | fclass => exact givesFp_completes h (fun _ => rfl) fun _ _ => rfl
  | _ => cases h

theorem convForm_completes (h : convForm i = some f) : FormIssues i f f.eff := by
  cases i with
  | fcvt => exact givesFp_completes h (fun _ => rfl) fun s k => by rw [State.mode_eq_modeOf]
  | icvt _ toFloat =>
    -- the table has a row for each direction
    cases toFloat with
    | true | false => exact givesFp_completes h (fun _ => rfl) fun s k => by rw [State.mode_eq_modeOf]; rfl
  | _ => cases h

/-- The form of a packed instruction: a word and the flags of its lanes. -/
def givesPacked (g : Guard) (regs : List Reg) (d : Reg) (val : State → Nat → Word × BitVec 6) : RegForm :=
  ⟨g, regs ++ [d], some d, none, fun k s => (s.writeReg k d (val s k).1).raiseFlags k (val s k).2⟩

theorem givesPacked_completes {val : State → Nat → Word × BitVec 6} (h : some (givesPacked g regs d val) = some f)
    (hex : ∀ s, exec i s = perThread s i g ((regs ++ [d]).map (·.toNat)) anyCore .runs fun k s =>
      .go ((givesPacked g regs d val).eff k s) .next) : FormIssues i f f.eff := by
  obtain rfl := Option.some.inj h
  exact ⟨hex, fun k s => .flags (.reg rfl _) _⟩

theorem packedForm_completes (h : packedForm i = some f) : FormIssues i f f.eff := by
  cases i with
  | pcvt | pfma | pdot =>
    refine givesPacked_completes h fun s => ?_
    rw [← State.mode_eq_modeOf]
    rfl
  | _ => cases h

end float

/-- Settles O13: each form leaves the result of its table on the mode of its rm field, and a bundle completes a form lane by
lane. -/
theorem floatForms : Obligations.FloatForms := by
  intro i f s hf hadm
  have hform : FormIssues i f f.eff := by
    rcases hf with hf | hf | hf
    · exact floatForm_completes hf
    · exact convForm_completes hf
    · exact packedForm_completes hf
  exact exec_form hform hadm

end Sys2Proof.Machine
end

section
/-!
SUPPORT. The memory's canonical form carried through the arms of exec that do more than one shared operation. A lemma named
execX_formed says that instruction or event X keeps the form.
-/
namespace Sys2Proof.Machine

theorem formed_ite {c : Prop} [Decidable c] {t u : State} (ht : t.Formed) (hu : u.Formed) : (if c then t else u).Formed := by
  split <;> assumption

theorem outFormed_ite {c : Prop} [Decidable c] {a b : Host.Outcome State Fault Refusal} (ha : OutFormed a) (hb : OutFormed b) :
    OutFormed (if c then a else b) := by split <;> assumption

theorem entryFormed_ite {c : Prop} [Decidable c] {a b : EntryRes} (ha : a.Formed) (hb : b.Formed) :
    EntryRes.Formed (if c then a else b) := by split <;> assumption

section rows
variable {s : State} (hw : s.Formed)
include hw

/-! ### Instructions of a thread -/

theorem execJoinWait_formed (g : Guard) (n : Pred) : OutFormed (execJoinWait g n s) :=
  joinInstr_formed _ _ _ _ hw fun _ _ h =>
    resFormed_ite trivial (State.parkThread_formed _ _ _ _ (State.modJoin_formed _ _ _ _ h))

theorem execGbar_formed (g : Guard) : OutFormed (execGbar g s) :=
  foldl_formed _
    (State.issue_formed _ _ _ _ _ _ _ hw fun _ _ h => State.parkThread_formed _ _ _ _ (State.modGang_formed _ _ _ h))
    fun _ _ h => State.gbarCheck_formed _ _ h

theorem execGbarClose_formed (seq core : Nat) : OutFormed (execGbarClose seq core s) := by
  unfold execGbarClose
  split
  · exact hw
  · refine outFormed_ite ?_ hw
    exact State.modGang_formed _ _ _ (foldl_formed _ hw fun _ _ h => State.patchSaved_formed _ _ (State.unpark_formed _ _ h))

theorem execGrowGrant_formed (k : Nat) : OutFormed (execGrowGrant k s) := by
  unfold execGrowGrant
  split
  · exact hw
  · refine outFormed_ite hw (outFormed_ite ?_ (outFormed_ite hw ?_))
    · exact State.modCore_formed _ _ _ (State.modThread_formed _ _ _ hw)
    · split
      · exact State.modCore_formed _ _ _ (State.modThread_formed _ _ _ hw)
      · exact hw

theorem execShrink_formed (g : Guard) (n8 : BitVec 3) : OutFormed (execShrink g n8 s) :=
  perThread_formed _ _ _ _ _ _ _ hw fun _ _ h => resFormed_ite trivial (resFormed_ite h
    (resFormed_ite (State.parkThread_formed _ _ _ _ h) (State.modThread_formed _ _ _ h)))

theorem execSetf_formed (g : Guard) (d a : Reg) : OutFormed (execSetf g d a s) := by
  refine perThread_formed _ _ _ _ _ _ _ hw fun k s h => resFormed_ite trivial ?_
  split
  · next e => exact formed_some e (State.setfTry_formed _ _ _ _ h)
  · exact State.parkShared_formed _ _ _ h

theorem execTakef_formed (g : Guard) (d a : Reg) : OutFormed (execTakef g d a s) := by
  refine perThread_formed _ _ _ _ _ _ _ hw fun k s h => resFormed_ite trivial ?_
  split
  · next e => exact formed_some e (State.takefTry_formed _ _ _ _ h)
  · exact State.parkShared_formed _ _ _ h

theorem execYield_formed (g : Guard) : OutFormed (execYield g s) :=
  perThread_formed _ _ _ _ _ _ _ hw fun _ _ h =>
    formed_ite (State.modHart_formed _ _ _ h) (State.resetWatchdog_formed _ _ (State.youngest_formed _ _ h))

theorem execBkoff_formed (g : Guard) : OutFormed (execBkoff g s) := by
  unfold execBkoff
  dsimp only
  split
  · exact hw
  · next e =>
    refine State.splitBundle_formed _ _ (runThreads_formed (fun s k h => ?_) e hw)
    exact resFormed_ite (State.modThread_formed _ _ _ h) (State.modThread_formed _ _ _ h)

theorem execWaitc_formed (g : Guard) (ld st : BitVec 6) (cp tile : BitVec 4) : OutFormed (execWaitc g ld st cp tile s) := by
  refine perThread_formed _ _ _ _ _ _ _ hw fun k s h => ?_
  have h' := State.modThread_formed s k Thread.retrying h
  dsimp only
  split
  · exact h'
  · exact resFormed_ite h' (State.parkThread_formed _ _ _ _ h')

theorem execExit_formed (g : Guard) : OutFormed (execExit g s) := by
  refine State.afterExits_formed _ _ _ (State.issue_formed _ _ _ _ _ _ _ hw fun k s h => ?_)
  split
  · trivial
  · exact resFormed_ite trivial (State.exitThread_formed _ _ h)

theorem execKrev_formed (g : Guard) (a : Reg) : OutFormed (execKrev g a s) :=
  perCrew_formed _ _ _ _ _ _ _ hw fun _ _ h => handleInstr_formed _ _ _ _ fun _ _ _ =>
    resFormed_ite trivial (State.returnKaolin_formed _ _ _ _ (State.putHandle_formed _ _ _ _ h))

theorem execKstat_formed (g : Guard) (d a : Reg) : OutFormed (execKstat g d a s) := by
  refine perThread_formed _ _ _ _ _ _ _ hw fun k s h => ?_
  split <;> exact State.writeReg_formed _ _ _ _ h

theorem execRadv_formed (g : Guard) (ring : BitVec 2) : OutFormed (execRadv g ring s) :=
  perCrew_formed _ _ _ _ _ _ _ hw fun _ _ h => State.onRing_formed _ _ _ _ h fun _ _ _ =>
    resFormed_ite trivial (State.enqueue_formed _ _ _ h)

theorem execRadvTail_formed (g : Guard) (d : Reg) (ring : BitVec 2) : OutFormed (execRadvTail g d ring s) :=
  perCrew_formed _ _ _ _ _ _ _ hw fun _ _ h => State.onRing_formed _ _ _ _ h fun _ _ _ => State.writeAll_formed _ _ _ _ h

theorem execRadvRel_formed (g : Guard) (ring : BitVec 2) : OutFormed (execRadvRel g ring s) :=
  perCrew_formed _ _ _ _ _ _ _ hw fun _ _ h => resFormed_ite trivial (State.onRing_formed _ _ _ _ h fun _ _ _ =>
    formed_ite h (State.releaseTail_formed _ _ _ h))

theorem execRadvFree_formed (g : Guard) (ring : BitVec 2) : OutFormed (execRadvFree g ring s) :=
  perCrew_formed _ _ _ _ _ _ _ hw fun _ _ h => State.onRing_formed _ _ _ _ h fun _ _ _ =>
    resFormed_ite trivial (State.chargeLoam_formed _ _ _ _ _ (State.putRing_formed _ _ _ _ _ h))

theorem execEngq_formed (g : Guard) (d a : Reg) : OutFormed (execEngq g d a s) := by
  refine perThread_formed _ _ _ _ _ _ _ hw fun k s h => resFormed_ite trivial (resFormed_ite trivial ?_)
  split
  · exact State.writeReg_formed _ _ _ _ h
  · split
    · next e => exact State.writeReg_formed _ _ _ _ (formed_fst e (State.loadNow_formed _ _ _ _ h))
    · next e => exact formed_fst e (State.loadNow_formed _ _ _ _ h)

theorem execMigrateTosimt_formed (g : Guard) (d a : Reg) : OutFormed (execMigrateTosimt g d a s) :=
  perThread_formed _ _ _ _ _ _ _ hw fun _ _ h =>
    resFormed_ite (resFormed_ite (State.returnToLane_formed _ _ _ h) (State.writeReg_formed _ _ _ _ h))
      (resFormed_ite (State.writeReg_formed _ _ _ _ h) (State.launch_formed _ _ _ _ h))

theorem execSleep_formed (g : Guard) : OutFormed (execSleep g s) := by
  have h : (s.issue (.sleep g) g [] privileged .holds fun k s =>
      .go (s.modThread k fun t => { t with st := { t.st with sleeping := true } }) .hold).Formed :=
    State.issue_formed _ _ _ _ _ _ _ hw fun _ _ h => State.modThread_formed _ _ _ h
  unfold execSleep
  dsimp only
  split
  · exact h
  · exact State.doze_formed _ _ h

/-! ### The matrix engine -/

theorem execMmaStart_formed (core : Nat) : OutFormed (execMmaStart core s) := by
  refine outFormed_next ?_
  split
  · exact formed_ite (State.setCurrent_formed _ _ _ (State.dequeueCmd_formed _ _ _ hw)) hw
  · exact hw

theorem execHorizonRailSwitch_formed (core : Nat) : OutFormed (execHorizonRailSwitch core s) := by
  refine outFormed_next ?_
  split
  · exact formed_ite (State.modCore_formed _ _ _ hw) hw
  · exact hw

theorem execRadvCloseStart_formed (core : Nat) : OutFormed (execRadvCloseStart core s) := by
  refine outFormed_next ?_
  split
  · split
    · exact formed_ite (State.reapCrew_formed _ _ (State.noteSlots_formed _ _ _ (State.closeHead_formed _ _ _
        (State.countSpec_formed _ _ _ _ (State.dequeueCmd_formed _ _ _ hw))))) hw
    · exact hw
  · exact hw

theorem execFillStart_formed (core : Nat) : OutFormed (execFillStart core s) := by
  refine outFormed_next ?_
  split
  · exact formed_ite (State.fillRead_formed _ _ _ (State.setFill_formed _ _ _ (State.dequeueCmd_formed _ _ _ hw))) hw
  · exact hw

theorem execFillCompletion_formed (core : Nat) : OutFormed (execFillCompletion core s) := by
  refine outFormed_next ?_
  split
  · exact State.reapCrew_formed _ _ (State.setFill_formed _ _ _ (State.fillDone_formed _ _ _ hw))
  · exact hw

theorem execMmaCompletion_formed (core : Nat) : OutFormed (execMmaCompletion core s) := by
  refine outFormed_next ?_
  split
  · exact hw
  · split
    · exact State.setCurrent_formed _ _ _ hw
    · exact State.reapCrew_formed _ _ (State.setCurrent_formed _ _ _ (State.completeMma_formed _ _ _ _ hw))

/-! ### Chains and packets -/

theorem execLoop_formed (chain : Nat) : OutFormed (execLoop chain s) :=
  runEntry_formed _ _ _ _ hw fun _ _ _ h => entryFormed_ite h
    (entryFormed_ite (State.areaPut_formed _ _ _ _ (State.areaPut_formed _ _ _ _ h))
      (State.areaPut_formed _ _ _ _ (State.areaPut_formed _ _ _ _ h)))

theorem execIfEntry_formed (chain : Nat) : OutFormed (execIfEntry chain s) := by
  refine runEntry_formed _ _ _ _ hw fun s c ws h => entryFormed_ite (entryFormed_ite h ?_) ?_
  · split <;> next e => exact formed_fst e (State.areaGet_formed _ _ _ _ h)
  · dsimp only
    split <;> exact State.countChain_formed _ _ _ h

theorem execSignal_formed (chain : Nat) : OutFormed (execSignal chain s) := by
  refine runEntry_formed _ _ _ _ hw fun s c ws h =>
    entryFormed_ite trivial (entryFormed_ite (entryFormed_ite h ?_) (entryFormed_ite h ?_))
  · split
    · next e => exact formed_fst e (State.areaGet_formed _ _ _ _ h)
    · next e => exact State.areaPut_formed _ _ _ _ (formed_fst e (State.areaGet_formed _ _ _ _ h))
  · have hq := fun off => State.countChain_formed s c off h
    dsimp only
    split
    · exact hq _
    · exact entryFormed_ite (hq _) (State.putCbCtr_formed _ _ _ _ (hq _))

theorem execTake_formed (chain : Nat) : OutFormed (execTake chain s) := by
  refine runEntry_formed _ _ _ _ hw fun s c ws h => ?_
  have hq := fun off => State.countChain_formed s c off h
  dsimp only
  split
  · exact h
  · have hr := fun k off n sp => State.loamWords_formed (s.countChain c (0x7D00 + 32 * fld ws.1 9 8)).1 k off n sp (hq _)
    exact entryFormed_ite (hq _) (formed_ite (State.releaseTail_formed _ _ _ (hr _ _ _ _)) (hr _ _ _ _))

theorem execRelease_formed (chain : Nat) : OutFormed (execRelease chain s) := by
  refine runEntry_formed _ _ _ _ hw fun s c ws h => ?_
  have hq := fun off => State.countChain_formed s c off h
  dsimp only
  split
  · exact h
  · exact entryFormed_ite (hq _) (State.releaseTail_formed _ _ _ (hq _))

theorem execAct_formed (chain : Nat) : OutFormed (execAct chain s) := by
  refine runEntry_formed _ _ _ _ hw fun s c ws h => onTile_formed _ _ _ h fun w => ?_
  dsimp only
  split
  · exact h
  · exact h
  · exact entryFormed_ite h h
  · refine entryFormed_ite h ?_
    split <;> next e => exact formed_fst e (State.areaElems_formed _ _ _ _ _ h)

theorem execCvt_formed (chain : Nat) : OutFormed (execCvt chain s) := by
  refine runEntry_formed _ _ _ _ hw fun s c ws h => onTile_formed _ _ _ h fun w => entryFormed_ite h (entryFormed_ite ?_ h)
  split
  · exact h
  · refine entryFormed_mkGo ?_
    split
    · exact State.modCrew_formed _ _ _ h
    · exact h

theorem execStore_formed (chain : Nat) : OutFormed (execStore chain s) := by
  refine runEntry_formed _ _ _ _ hw fun s c ws h => onTile_formed _ _ _ h fun w => ?_
  dsimp only
  split
  · next e => exact formed_fst e (State.recordAt_formed _ _ _ h)
  · next e =>
    have h1 := formed_fst e (State.recordAt_formed _ _ _ h)
    split
    · exact h1
    · split <;> exact foldl_formed_move _ h1 fun m r hm => storeRow_formed _ _ _ _ _ _ _ hm

theorem execNsend_formed (chain : Nat) : OutFormed (execNsend chain s) := by
  refine netEntry_formed _ _ _ _ _ hw fun s c t ws z h => entryFormed_ite h (entryFormed_ite h ?_)
  split
  · next e => exact formed_fst e (State.payloadRows_formed _ _ _ h)
  · next e => exact State.sendPacket_formed _ _ (formed_fst e (State.payloadRows_formed _ _ _ h))

theorem execNput_formed (chain : Nat) : OutFormed (execNput chain s) := by
  refine netEntry_formed _ _ _ _ _ hw fun s c t ws z h => ?_
  dsimp only
  split
  · next e => exact formed_fst e (State.payloadRows_formed _ _ _ h)
  · next e =>
    exact foldl_formed _ (formed_fst e (State.payloadRows_formed _ _ _ h)) fun _ _ h => State.sendPacket_formed _ _ h

theorem execNget_formed (chain : Nat) : OutFormed (execNget chain s) := by
  refine netEntry_formed _ _ _ _ _ hw fun s c t ws z h => ?_
  dsimp only
  split
  · next e => exact formed_fst e (State.areaGet_formed _ _ _ _ h)
  · next e => exact foldl_formed _ (formed_fst e (State.areaGet_formed _ _ _ _ h)) fun _ _ h => State.sendPacket_formed _ _ h

theorem execChainUnblock_formed (chain : Nat) : OutFormed (execChainUnblock chain s) := by
  refine outFormed_next ?_
  split
  · exact formed_ite (State.putChain_formed _ _ _ hw) hw
  · exact hw

theorem execChainEnd_formed (chain : Nat) : OutFormed (execChainEnd chain s) := by
  refine outFormed_next ?_
  split
  · exact hw
  · extract_lets orphan c s1 drop s2 ended s3
    have h2 : s2.Formed := foldl_formed _ (State.writeHeader_formed _ _ hw) fun _ _ h => State.modCounted_formed _ _ _ h
    have h3 : s3.Formed := formed_ite (State.netEvent_formed _ _ _ h2) h2
    refine formed_ite hw ?_
    split
    · exact State.reapCrew_formed _ _ h3
    · exact h3

theorem execPacketAck_formed (pkt : Nat) : OutFormed (execPacketAck pkt s) := by
  refine outFormed_next ?_
  split
  · exact formed_ite hw (State.acknowledge_formed _ _ hw)
  · exact hw

theorem execPacketNack_formed (pkt : Nat) : OutFormed (execPacketNack pkt s) := by
  refine outFormed_next ?_
  split
  · exact hw
  · refine formed_ite hw ?_
    split
    · exact formed_ite (State.failPacket_formed _ _ _ hw) hw
    · exact formed_ite hw hw

theorem execTransportTimeout_formed (pkt : Nat) : OutFormed (execTransportTimeout pkt s) := by
  refine outFormed_next ?_
  split
  · exact formed_ite hw (State.failPacket_formed _ _ _ hw)
  · exact hw

theorem execTransportRetransmission_formed (pkt : Nat) : OutFormed (execTransportRetransmission pkt s) := by
  refine outFormed_next ?_
  split
  · exact formed_ite hw hw
  · exact hw

omit hw in
/-- A peer's access that reaches its pages. -/
theorem peerPages_formed {asid n : Nat} {acc : AccKind} {va : Nat} {c : Ctx} {s1 : State}
    (e : ((s.ctxByAsid asid).bind fun c => (s.peerPages c acc va n).map fun s1 => (c, s1)) = some (c, s1)) (hw : s.Formed) :
    s1.Formed := by
  obtain ⟨c', -, e⟩ := Option.bind_eq_some_iff.mp e
  obtain ⟨s', e, he⟩ := Option.map_eq_some_iff.mp e
  cases he
  exact formed_some e (State.peerPages_formed _ _ _ _ _ hw)

theorem execPacketPlacement_formed : OutFormed (execPacketPlacement s) := by
  refine outFormed_next ?_
  split
  · refine formed_ite hw (formed_ite (State.dropNoTarget_formed _ _ hw) ?_)
    split
    · exact State.answer_formed _ _ hw
    · next e => exact State.answer_formed _ _ (State.peerPut_formed _ _ _ _ (peerPages_formed e hw))
  · dsimp only
    split
    · exact formed_ite hw (State.placeGot_formed _ _ _ hw)
    · exact hw
  · exact hw

theorem execNgetRequest_formed : OutFormed (execNgetRequest s) := by
  refine outFormed_next ?_
  split
  · refine formed_ite hw (formed_ite (State.dropNoTarget_formed _ _ hw) ?_)
    split
    · exact State.answer_formed _ _ hw
    · next e => exact State.answer_formed _ _ (State.contextBytes_formed _ _ _ _ (peerPages_formed e hw))
  · exact hw

theorem execActiveMessageArrival_formed : OutFormed (execActiveMessageArrival s) := by
  refine outFormed_next ?_
  split
  · exact formed_ite hw (State.arriveMessage_formed _ _ _ _ _ _ _ hw)
  · exact hw

theorem execSuspendedContextResume_formed (net asid : Nat) : OutFormed (execSuspendedContextResume net asid s) := by
  refine outFormed_next ?_
  split
  · exact State.resumeTasks_formed _ _ _ hw
  · exact hw
  · exact State.forgetTasks_formed _ _ _ hw

/-! ### Gangs, tasks and the schedulers -/

theorem execFanIn_formed (seq : Nat) : OutFormed (execFanIn seq s) := by
  refine outFormed_next ?_
  split
  · exact hw
  · extract_lets gone
    have hg : ∀ {t : State}, t.Formed → (gone t).Formed := fun h => State.dropContexts_formed _ _ h
    clear_value gone
    have h1 := fun w va v => State.ctxPutWord_formed s w va v hw
    refine formed_ite hw (formed_ite (hg hw) ?_)
    split
    · exact formed_ite hw (hg (State.escRecord_formed _ _ _ _ _ (State.resumeWords_formed _ _ (h1 _ _ _))))
    · exact hg (State.loadHart_formed _ _ _ (State.resumeWords_formed _ _ (h1 _ _ _)))

theorem execGangPlacement_formed (seq : Nat) : OutFormed (execGangPlacement seq s) := by
  refine outFormed_next ?_
  split
  · exact hw
  · exact formed_ite hw (State.placeWaiting_formed _ _ hw)

theorem execHandlerTaskPlacement_formed (task : Nat) : OutFormed (execHandlerTaskPlacement task s) := by
  refine outFormed_next ?_
  split
  · exact hw
  · exact formed_ite hw (formed_ite (State.countMalformed_formed _ _ hw)
      (formed_ite (optFormed_getD (State.taskPlan_formed rfl hw) hw) hw))

theorem execCrewRestore_formed (crew : Nat) : OutFormed (execCrewRestore crew s) := by
  refine outFormed_next ?_
  split
  · exact hw
  · exact formed_ite hw (formed_ite (State.countMalformed_formed _ _ hw) (formed_ite (State.restoreCrew_formed _ _ hw) hw))

theorem execRegroup_formed (core : Nat) : OutFormed (execRegroup core s) :=
  formed_ite hw (State.doze_formed _ _ (State.modCore_formed _ _ _ (State.retryAll_formed _ _ (State.watchAll_formed _ _ hw))))

theorem execIntr_formed (hart : Nat) : OutFormed (execIntr hart s) :=
  formed_ite hw (formed_ite (State.loadSup_formed _ _ hw) (formed_ite (State.modThread_formed _ _ _ hw)
    (State.takeTrap_formed _ _ _ _ _ _ hw)))

theorem execWatchdog_formed (crew : Nat) : OutFormed (execWatchdog crew s) := by
  refine outFormed_next ?_
  split
  · exact hw
  · exact formed_ite hw (State.modCrew_formed _ _ _ (foldl_formed _ hw fun _ _ h => State.bark_formed _ _ h))

theorem execEscalation_formed (k : Nat) : OutFormed (execEscalation k s) := by
  refine outFormed_next ?_
  split
  · refine formed_ite hw (formed_ite (formed_ite hw ?_) (formed_ite ?_ hw))
    · exact State.escalateHart_formed _ _ _ _ (State.modThread_formed _ _ _ hw)
    · exact State.escalateLane_formed _ _ _ _ hw
  · exact hw

theorem execPageFaultSave_formed (crew : Nat) : OutFormed (execPageFaultSave crew s) := by
  refine outFormed_next ?_
  split
  · exact hw
  · have h1 := State.clearFaults_formed _ crew (State.haltCrew_formed s crew true hw)
    refine formed_ite hw (State.leaveRings_formed _ _ _ _ (State.modCrew_formed _ _ _ (State.raiseFaultWord_formed _ _ _
      (State.faultRecord_formed _ _ _ _ _ _ _ _ ?_))))
    exact formed_ite (State.writeCrew_formed _ _ _ h1) (State.modCrew_formed _ _ _ h1)

theorem execPreemption_formed (core asid : Nat) : OutFormed (execPreemption core asid s) := by
  refine formed_ite hw ?_
  split
  · exact hw
  · refine State.modCore_formed _ _ _ (foldl_formed _ ?_ fun _ _ h => State.modCrew_formed _ _ _ (State.haltCrew_formed _ _ _ h))
    exact State.dropResidencies_formed _ _ _ (State.accrue_formed _ _ hw)

theorem execShadowSwitch_formed (core : Nat) : OutFormed (execShadowSwitch core s) := by
  refine formed_ite hw (foldl_formed _ (foldl_formed _ ?_ fun _ _ h => State.switchInCtx_formed _ _ _ h)
    fun _ _ h => State.startCrew_formed _ _ h)
  exact State.modCore_formed _ _ _ (State.accrue_formed _ _ hw)

theorem writeOnes_formed (core : Nat) (es : List (Nat × Crew)) : (es.foldl (fun s e => s.writeOne core e) s).Formed :=
  foldl_formed _ hw fun _ _ h => State.writeOne_formed _ _ _ h

theorem execDrainingSwitch_formed (core : Nat) : OutFormed (execDrainingSwitch core s) := by
  refine outFormed_next ?_
  split
  · exact hw
  · exact formed_ite hw (State.refreshRing_formed _ _ (State.fillFrom_formed _ _ _
      (State.modCore_formed _ _ _ (State.accrue_formed _ _ (writeOnes_formed hw _ _)))))

theorem execLeachPrefill_formed (core asid : Nat) : OutFormed (execLeachPrefill core asid s) := by
  refine formed_ite hw (formed_ite (State.countMalformed_formed _ _ hw) ?_)
  refine optFormed_getD (optFormed_map_of (foldl_formed_opt _ hw fun o e ho => ?_) fun _ h => State.refreshRing_formed _ _ h) hw
  cases o with
  | none => trivial
  | some s =>
    dsimp only [Option.bind_some]
    split
    · split
      · exact optFormed_map fun _ => State.readCrew_formed _ _ _ _ _ (State.cachePath_formed _ _ _ _ ho)
      · trivial
    · trivial

theorem countParities_formed {α : Type} (core : Nat) (l : List α) : (l.foldl (fun s _ => s.countParity core) s).Formed :=
  foldl_formed _ hw fun _ _ h => State.countParity_formed _ _ h

theorem execCoreWake_formed (core : Nat) : OutFormed (execCoreWake core s) := by
  refine formed_ite hw (foldl_formed _ ?_ fun _ _ h => State.pageFault_formed _ _ _ _ (State.modThread_formed _ _ _ h))
  refine formed_ite ?_ (State.draw_formed _ ?_)
  all_goals exact countParities_formed (countParities_formed (State.modCore_formed _ _ _ hw) _ _) _ _

/-! ### Memory rows -/

theorem execMigrationLineCopy_formed (die : Nat) : OutFormed (execMigrationLineCopy die s) := by
  refine outFormed_next ?_
  split
  · exact hw
  · exact formed_ite hw (State.endCopy_formed _ _ _ (State.copyLine_formed _ _ hw))

theorem execLoadSectorReturn_formed (id : Nat) : OutFormed (execLoadSectorReturn id s) := by
  refine outFormed_next ?_
  split
  · exact hw
  · split
    · exact State.returnSector_formed _ _ _ hw
    · exact hw

theorem execAtomicReply_formed (id : Nat) : OutFormed (execAtomicReply id s) := by
  refine outFormed_next ?_
  split
  · exact hw
  · split
    · exact formed_ite (State.performAtomic_formed _ _ _ _ _ _ _ _ hw) hw
    · exact hw

theorem execStorePerformed_formed (id : Nat) : OutFormed (execStorePerformed id s) := by
  refine outFormed_next ?_
  split
  · exact hw
  · split
    · exact State.performRequest_formed _ _ _ hw
    · exact State.performRequest_formed _ _ _ hw
    · exact State.performRequest_formed _ _ _ hw
    · exact hw

theorem execMemoryTimeout_formed (access : Nat) : OutFormed (execMemoryTimeout access s) := by
  refine outFormed_next ?_
  split
  · exact hw
  · next a _ =>
    have hf := State.finish_formed s access a hw
    have late := fun c sub => State.lateTrap_formed (s.finish access a) a c sub hf
    dsimp only
    split
    · exact formed_ite hf (formed_ite (late _ _) (late _ _))
    · exact formed_ite hf (formed_ite (late _ _) (late _ _))
    · exact State.countTimeout_formed _ hf
    · exact hf
    · exact hf

theorem execPromote_formed (m : Nat) : OutFormed (execPromote m s) := by
  refine outFormed_next ?_
  split
  · exact formed_ite (State.unpost_formed _ _ hw) hw
  · exact hw

/-! ### The package -/

theorem execResetRelease_formed : OutFormed (execResetRelease s) :=
  formed_ite (Memory.wf_filter _ _ hw) hw

theorem execHerpinFlit_formed : OutFormed (execHerpinFlit s) := by
  refine outFormed_next ?_
  split
  · exact formed_ite (State.arriveFlit_formed _ _ _ hw) hw
  · exact hw

theorem execLinkTimeout_formed : OutFormed (execLinkTimeout s) := by
  refine outFormed_next ?_
  split
  · exact State.lose_formed _ (formed_ite (State.portDown_formed _ _ hw) hw)
  · exact hw

theorem execHerpinPortUp_formed : OutFormed (execHerpinPortUp s) := by
  refine outFormed_next ?_
  split
  · exact formed_ite (State.setPort_formed _ _ _ hw) hw
  · exact hw

theorem execTemperatureLimit_formed : OutFormed (execTemperatureLimit s) := by
  refine outFormed_next ?_
  split
  · exact formed_ite hw (formed_ite (State.pkgEvent_formed _ _ (State.railsToF0_formed _ _ (State.modDie_formed _ _ _ hw)))
      (formed_ite (State.modDie_formed _ _ _ hw) hw))
  · exact hw

theorem execPowerThrottle_formed : OutFormed (execPowerThrottle s) := by
  refine outFormed_next ?_
  split
  · exact formed_ite (State.modDie_formed _ _ _ hw) hw
  · exact formed_ite (State.setStk_formed _ _ _ hw) hw
  · exact hw

theorem execQuiesce_formed : OutFormed (execQuiesce s) := by
  refine formed_ite hw (foldl_formed _ (State.stopAllChains_formed _ ?_) fun _ _ h => State.abandonPrefill_formed _ _ h)
  exact foldl_formed _ hw fun _ _ h => State.squash_formed _ _ h

theorem execQuiesceComplete_formed : OutFormed (execQuiesceComplete s) := by
  refine formed_ite (State.endCommand_formed _ _ (State.flushAll_formed _ (State.writeBackAll_formed _ ?_))) hw
  exact foldl_formed _ hw fun _ _ h => State.postCharges_formed _ _ _ h

theorem execImage_formed : OutFormed (execImage s) :=
  formed_ite hw (formed_ite (State.endCommand_formed _ _ hw) (formed_ite (State.endCommand_formed _ _ hw)
    (formed_ite (State.endCommand_formed _ _ (State.hwPut_formed _ _ _ (State.freeBytes_formed _ _ hw)))
      (State.endCommand_formed _ _ (State.hwPut_formed _ _ _ hw)))))

theorem execRestore_formed : OutFormed (execRestore s) :=
  formed_ite hw (formed_ite (State.endCommand_formed _ _ hw) (formed_ite (State.endCommand_formed _ _ hw)
    (formed_ite (State.endCommand_formed _ _ (State.install_formed _ hw)) (State.endCommand_formed _ _ hw))))

theorem execResume_formed : OutFormed (execResume s) := by
  refine formed_ite hw (formed_ite (State.endCommand_formed _ _ hw) (State.resumeHartChains_formed _
    (foldl_formed _ (foldl_formed _ ?_ fun _ _ h => State.deliverKept_formed _ _ h) fun _ _ h => State.goOn_formed _ _ h)))
  exact State.endCommand_formed _ _ hw

end rows

end Sys2Proof.Machine
end

section
/-!
SUPPORT. Every instruction, every event and every step keep the canonical form of storage (R151, log 4).
-/
namespace Sys2Proof.Machine

section steps
variable {s : State} (hw : s.Formed)
include hw

theorem exec_formed (i : Instr) : OutFormed (exec i s) := by
  unfold exec
  cases i
  all_goals dsimp only
  -- registers
  case add | sub | addw | subw | and | or | xor | shl | shr | sra | min | max | minu | maxu | slt | sltu | lea | bfi | mul
    | mulh | mulhu => exact alu2_formed _ _ _ _ _ _ _ hw
  case sext | zext | clz | popc | brev | bfx | addi | andi | ori | xori | shli | shri | srai | slti =>
    exact alu1_formed _ _ _ _ _ _ hw
  case div | divu | rem | remu => exact divide_formed _ _ _ _ _ _ _ hw
  case fadd | fsub | fmul | fdiv | fmin | fmax => exact fp2_formed _ _ _ _ _ _ _ _ _ hw
  case fsqrt | frcp | frsq | fexp2 | flog2 | fclass => exact fp1_formed _ _ _ _ _ _ _ _ hw
  case sel | movi | movhi | jal | sysrd =>
    exact perThread_formed _ _ _ _ _ _ _ hw fun _ _ h => State.writeReg_formed _ _ _ _ h
  case ffma | fcvt | icvt | pdot => exact perThread_formed _ _ _ _ _ _ _ hw fun _ _ h => State.fpResult_formed _ _ _ _ h
  case pcvt | pfma =>
    exact perThread_formed _ _ _ _ _ _ _ hw fun _ _ h => State.raiseFlags_formed _ _ _ (State.writeReg_formed _ _ _ _ h)
  case pcmp | pcmpi | plop => exact perThread_formed _ _ _ _ _ _ _ hw fun _ _ h => State.writePred_formed _ _ _ _ h
  case fcmp => exact perThread_formed _ _ _ _ _ _ _ hw fun _ _ h => State.raiseFlags_formed _ _ _ (State.writePred_formed _ _ _ _ h)
  case shfl | vote | redb | scanb => exact xlane_formed _ _ _ _ _ _ _ hw
  -- memory
  case ld => exact perThread_formed _ _ _ _ _ _ _ hw fun _ _ h => State.ld_formed _ _ _ _ _ _ _ _ _ h
  case st => exact perThread_formed _ _ _ _ _ _ _ hw fun _ _ h => State.st_formed _ _ _ _ _ _ _ _ h
  case amoAdd | amoAnd | amoOr | amoXor | amoMin | amoMax | amoMinu | amoMaxu | amoSwap | amoFadd =>
    exact State.amoInstr_formed _ _ _ _ _ _ _ _ _ hw
  case cas => exact perThread_formed _ _ _ _ _ _ _ hw fun _ _ h => State.amo_formed _ _ _ _ _ _ _ _ _ _ h
  case pref => exact perThread_formed _ _ _ _ _ _ _ hw fun _ _ h => State.pref_formed _ _ _ _ h
  case fence =>
    exact perThread_formed _ _ _ _ _ _ _ hw fun _ _ h => resFormed_ite (formed_ite (State.crossViews_formed _ _ h) h) trivial
  case opfence => exact perThread_formed _ _ _ _ _ _ _ hw fun _ _ h => resFormed_ite trivial h
  case tfence => exact perThread_formed _ _ _ _ _ _ _ hw fun _ _ h => resFormed_ite h trivial
  case ifence | nop | br => exact perThread_formed _ _ _ _ _ _ _ hw fun _ _ h => h
  case cwb | cinv => exact perThread_formed _ _ _ _ _ _ _ hw fun _ _ h => State.cacheOp_formed _ _ _ _ _ h
  case icinv => exact perThread_formed _ _ _ _ _ _ _ hw fun _ _ h => State.icinv_formed _ _ _ _ h
  case tlbinvPg | tlbinvAs | tlbinvAll | tlbinvPga => exact perThread_formed _ _ _ _ _ _ _ hw fun _ _ h => State.tlbinv_formed _ _ _ h
  -- threads, joins, crews
  case jalr => exact perThread_formed _ _ _ _ _ _ _ hw fun _ _ h => resFormed_ite trivial (State.writeReg_formed _ _ _ _ h)
  case joinEnr => exact joinInstr_formed _ _ _ _ hw fun _ _ h => State.modJoin_formed _ _ _ _ h
  case joinWait => exact execJoinWait_formed hw _ _
  case joinStrike =>
    exact joinInstr_formed _ _ _ _ hw fun _ _ h => State.failSets_formed _ _ _ (State.modJoin_formed _ _ _ _ h)
  case joinRst => exact joinInstr_formed _ _ _ _ hw fun _ _ h => resFormed_ite trivial (State.modJoin_formed _ _ _ _ h)
  case yield => exact execYield_formed hw _
  case yieldH =>
    exact perThread_formed _ _ _ _ _ _ _ hw fun _ _ h => State.resetWatchdog_formed _ _ (State.modThread_formed _ _ _ h)
  case exit => exact execExit_formed hw _
  case bkoff => exact execBkoff_formed hw _
  case bkoffHoldExpiry | yieldHExpiry => exact formed_ite (State.modThread_formed _ _ _ hw) hw
  case waitc => exact execWaitc_formed hw _ _ _ _ _
  case cbwait | cbwaitProd => exact cbInstr_formed _ _ _ _ _ _ hw fun _ _ h => State.cbwaitTry_formed _ _ _ _ _ h
  case cbpop => exact cbInstr_formed _ _ _ _ _ _ hw fun _ _ h => State.cbpopTry_formed _ _ _ h
  case cbpush => exact cbInstr_formed _ _ _ _ _ _ hw fun _ _ h => State.cbpushTry_formed _ _ _ h
  case gbar => exact execGbar_formed hw _
  case gbarClose => exact execGbarClose_formed hw _ _
  case grow => exact perThread_formed _ _ _ _ _ _ _ hw fun _ _ h => resFormed_ite trivial (State.parkThread_formed _ _ _ _ h)
  case growGrant => exact execGrowGrant_formed hw _
  case shrink => exact execShrink_formed hw _ _
  case shmap => exact perCrew_formed _ _ _ _ _ _ _ hw fun _ _ h => State.shmap_formed _ _ _ _ _ _ h
  case setf => exact execSetf_formed hw _ _ _
  case takef => exact execTakef_formed hw _ _ _
  case regroup => exact execRegroup_formed hw _
  case watchdog => exact execWatchdog_formed hw _
  -- services, traps, system registers
  case scall | scallOv | scallNs => exact perThread_formed _ _ _ _ _ _ _ hw fun _ _ h => State.scall_formed _ _ _ _ _ h
  case scallReply | reply => exact State.reply_formed _ _ _ hw
  case serviceTimeout => exact formed_ite hw (State.squash_formed _ _ hw)
  case fidset => exact perThread_formed _ _ _ _ _ _ _ hw fun _ _ h => State.modFp_formed _ _ _ h
  case syswr => exact perThread_formed _ _ _ _ _ _ _ hw fun _ _ h => resFormed_ite trivial (State.sysWrite_formed _ _ _ _ h)
  case eret => exact perThread_formed _ _ _ _ _ _ _ hw fun _ _ h => resFormed_ite trivial (State.setThread_formed _ _ _ h)
  case trap | bkpt => exact perThread_formed _ _ _ _ _ _ _ hw fun _ _ _ => trivial
  case sleep => exact execSleep_formed hw _
  case escalation => exact execEscalation_formed hw _
  case signalDelivery => exact formed_ite (State.takeSignal_formed _ _ hw) hw
  case intr => exact execIntr_formed hw _
  case timerCompare => exact formed_ite hw (foldl_formed _ hw fun _ _ h => State.loadSup_formed _ _ h)
  case reservedMajorOpcode => exact formed_ite hw (State.illegalWord_formed _ _ hw)
  -- the matrix engine and Kaolin
  case mmaT => exact perCrew_formed _ _ _ _ _ _ _ hw fun _ _ h => State.mmaT_formed _ _ _ _ _ _ h
  case mmaK => exact perCrew_formed _ _ _ _ _ _ _ hw fun _ _ h => State.mmaK_formed _ _ _ _ _ _ h
  case mmaStart => exact execMmaStart_formed hw _
  case mmaCompletion => exact execMmaCompletion_formed hw _
  case horizonRailSwitch => exact execHorizonRailSwitch_formed hw _
  case radv => exact execRadv_formed hw _ _
  case radvCloseStart => exact execRadvCloseStart_formed hw _
  case radvCfg => exact perCrew_formed _ _ _ _ _ _ _ hw fun _ _ h => State.radvCfg_formed _ _ _ _ _ h
  case radvTail => exact execRadvTail_formed hw _ _ _
  case radvRel => exact execRadvRel_formed hw _ _
  case radvFree => exact execRadvFree_formed hw _ _
  case kalloc => exact perCrew_formed _ _ _ _ _ _ _ hw fun _ _ h => State.kalloc_formed _ _ _ _ _ _ _ h
  case kfill => exact perCrew_formed _ _ _ _ _ _ _ hw fun _ _ h => State.kfill_formed _ _ _ _ _ h
  case fillStart => exact execFillStart_formed hw _
  case fillCompletion => exact execFillCompletion_formed hw _
  case kpin | kpinOff =>
    exact perCrew_formed _ _ _ _ _ _ _ hw fun _ _ h => handleInstr_formed _ _ _ _ fun _ _ _ => State.putHandle_formed _ _ _ _ h
  case krev => exact execKrev_formed hw _ _
  case kstat => exact execKstat_formed hw _ _ _
  case cbkld => exact perCrew_formed _ _ _ _ _ _ _ hw fun _ _ h => State.cbkld_formed _ _ _ _ _ _ h
  -- chains, packets, messages
  case engoCopy | engoEpi | engoNet => exact perCrew_formed _ _ _ _ _ _ _ hw fun _ _ h => State.engo_formed _ _ _ _ _ _ h
  case engq => exact execEngq_formed hw _ _ _
  case copy | gather | scatter => exact copyEntry_formed _ _ _ hw
  case loop => exact execLoop_formed hw _
  case ifEntry => exact execIfEntry_formed hw _
  case signal => exact execSignal_formed hw _
  case endEntry => exact runEntry_formed _ _ _ _ hw fun _ _ _ h => h
  case take => exact execTake_formed hw _
  case release => exact execRelease_formed hw _
  case scale | bias => exact vecEntry_formed _ _ _ _ hw
  case act => exact execAct_formed hw _
  case cvt => exact execCvt_formed hw _
  case store => exact execStore_formed hw _
  case nsend => exact execNsend_formed hw _
  case nput => exact execNput_formed hw _
  case nget => exact execNget_formed hw _
  case chainUnblock => exact execChainUnblock_formed hw _
  case chainEnd => exact execChainEnd_formed hw _
  case packetAck => exact execPacketAck_formed hw _
  case packetNack => exact execPacketNack_formed hw _
  case transportTimeout => exact execTransportTimeout_formed hw _
  case transportRetransmission => exact execTransportRetransmission_formed hw _
  case packetPlacement => exact execPacketPlacement_formed hw
  case ngetRequest => exact execNgetRequest_formed hw
  case activeMessageArrival => exact execActiveMessageArrival_formed hw
  case suspendedContextResume => exact execSuspendedContextResume_formed hw _ _
  -- gangs, schedulers, the leach engine
  case migrateTosimt => exact execMigrateTosimt_formed hw _ _ _
  case migrateTolat =>
    exact perThread_formed _ _ _ _ _ _ _ hw fun _ _ h =>
      resFormed_ite (State.writeReg_formed _ _ _ _ h) (State.moveToLat_formed _ _ _ h)
  case fanIn => exact execFanIn_formed hw _
  case gangPlacement => exact execGangPlacement_formed hw _
  case handlerTaskPlacement => exact execHandlerTaskPlacement_formed hw _
  case preemption => exact execPreemption_formed hw _ _
  case shadowSwitch => exact execShadowSwitch_formed hw _
  case drainingSwitch => exact execDrainingSwitch_formed hw _
  case leachSpill => exact State.refreshRing_formed _ _ (writeOnes_formed hw _ _)
  case leachPrefill => exact execLeachPrefill_formed hw _ _
  case pageFaultSave => exact execPageFaultSave_formed hw _
  case faultWordClear => exact formed_ite (State.clearFaulted_formed _ _ _ hw) hw
  case crewRestore => exact execCrewRestore_formed hw _
  case asidFlush => exact State.flushAsid_formed _ _ _ hw
  case coreWake => exact execCoreWake_formed hw _
  case schedulingTick => exact formed_ite hw (foldl_formed _ hw fun _ _ h => State.tickDie_formed _ _ h)
  -- returns of accesses, the directory
  case loadSectorReturn => exact execLoadSectorReturn_formed hw _
  case atomicReply => exact execAtomicReply_formed hw _
  case storePerformed => exact execStorePerformed_formed hw _
  case memoryTimeout => exact execMemoryTimeout_formed hw _
  case promote => exact execPromote_formed hw _
  case gets | getm | upg | kget | rdonce | wr | homeAtomic | putack | fwds | fwdm | fwddone | nodata | wbpending
    | invalidation | acknowledgement | grant | retry => exact State.takeKind_formed _ _ _ hw
  case putm | puto | pute | puts => exact State.putRow_formed _ _ _ _ _ hw
  case queuedRequestDequeue => exact State.dequeue_formed _ _ hw
  case quietEpoch => exact State.mergeAll_formed _ hw
  -- control space, the package
  case migstart => exact formed_ite (State.startMigration_formed _ _ _ hw) hw
  case migrationLineCopy => exact execMigrationLineCopy_formed hw _
  case migrel => exact State.releaseMigration_formed _ _ _ hw
  case siltCompress => exact formed_ite hw (State.setStk_formed _ _ _ (State.cleanRange_formed _ _ _ hw))
  case siltExpansion => exact formed_ite hw (State.setStk_formed _ _ _ hw)
  case rcinv => exact formed_ite (State.invalidateRegions_formed _ _ _ hw) hw
  case returnStore => exact State.returnThread_formed _ _ _ hw
  case sigctl => exact formed_ite (State.sendSignal_formed _ _ _ hw) hw
  case htload => exact formed_ite (State.htLoad_formed _ _ _ _ hw) hw
  case iset => exact formed_ite (State.setSoft_formed _ _ _ hw) hw
  case hostdb => exact State.writePkg_formed _ _ _ _ hw
  case counterClear => exact formed_ite (State.ctlWrite_formed _ _ _ _ hw) hw
  case controlRegisterWrite => exact formed_ite hw (State.ctlWrite_formed _ _ _ _ hw)
  case resetRelease => exact execResetRelease_formed hw
  case herpinFlit => exact execHerpinFlit_formed hw
  case linkTimeout => exact execLinkTimeout_formed hw
  case herpinPortUp => exact execHerpinPortUp_formed hw
  case spdmRequest =>
    refine outFormed_next ?_
    split <;> exact hw
  case temperatureLimit => exact execTemperatureLimit_formed hw
  case powerThrottle => exact execPowerThrottle_formed hw
  case quiesce => exact execQuiesce_formed hw
  case quiesceComplete => exact execQuiesceComplete_formed hw
  case image => exact execImage_formed hw
  case restore => exact execRestore_formed hw
  case resume => exact execResume_formed hw

theorem issueStep_formed : OutFormed (issueStep s) := by
  unfold issueStep
  refine outFormed_ite hw ?_
  dsimp only
  split
  · next e => exact State.fetchFault_formed _ _ _ _ (formed_fst e (State.fetch_formed _ _ _ hw))
  · next s1 w e =>
    have h1 : s1.Formed := formed_fst e (State.fetch_formed _ _ _ hw)
    split
    · next i _ =>
      have hx := exec_formed h1 i
      split
      · next e2 => rw [e2] at hx; exact State.noteIssue_formed _ _ _ hx
      · exact hx
    · exact State.illegalWord_formed _ _ h1

theorem stepIssuer_formed : OutFormed (step.stepIssuer s) := by
  have hb := State.enterBoundary_formed s hw
  refine outFormed_ite hw ?_
  dsimp only
  split
  · exact exec_formed hb _
  · exact issueStep_formed hb

theorem step_formed : OutFormed (step s) := by
  have ht := State.tick_formed s hw
  unfold step
  dsimp only
  split
  · exact outFormed_ite ht (exec_formed (by exact ht) _)
  · exact State.outside_formed _ _ ht
  · exact outFormed_ite (stepIssuer_formed (by exact ht)) trivial
  · exact outFormed_ite (stepIssuer_formed ht) trivial

end steps

/-- Settles O9: at reset no byte of storage is listed. -/
theorem resetMemory : Obligations.ResetMemory := Memory.wf_nil

/-- Settles O10: every instruction and event keeps the form, and so does what a step does around it. -/
theorem stepKeepsMemory : Obligations.StepKeepsMemory := by
  intro s t hs e
  have h := step_formed ((formed_iff s).2 hs)
  rw [e] at h
  exact (formed_iff t).1 h

end Sys2Proof.Machine
end

section
/-!
PROOFS. Misaligned accesses, and loads and stores of untranslated host memory and of any resolved target.
-/
namespace Sys2Proof.Machine

variable {s : State} {k : Nat} {g : Guard}

/-! ### Traps of the one thread that issues, taken or held in W -/

section raise
variable {i : Instr} {kind : Kind} {sp : SpecRule} {regs : List Nat} {body : Nat → State → Res} {c sub : Nat} {v : Word}

theorem perThread_raise_at (h : s.executes k g kind sp regs) (hb : body k s = .trap c sub v false) :
    perThread s i g regs kind sp body = .next (s.raise k c sub v (s.thread k).pc) := by
  rw [perThread_raise h hb]; simp

/-- A trap at the instruction, after a change of state that stays. -/
theorem perThread_raise_failed (h : s.executes k g kind sp regs) {s' : State} (hb : body k s = .failed s' c sub v) :
    perThread s i g regs kind sp body = .next (s'.raise k c sub v (s.thread k).pc) := by
  rw [issue_one h _ hb (by simp)]
  simp [State.applyRes, State.splitBundle_nil]

end raise

/-! ### Misaligned addresses (R123) -/

theorem State.ld_misaligned {sz : MemSize} {a : Reg} {off : BitVec 24} (h : s.effAddr k a off % memBytes sz ≠ 0)
    (sx : Bool) (o : Ord) (sc : Scope) (d : Reg) :
    s.ld k sz sx o sc d a off = .trap cMISALIGN 0 (s.effAddr k a off : Word) false := if_pos h

theorem State.st_misaligned {sz : MemSize} {a : Reg} {off : BitVec 24} (h : s.effAddr k a off % memBytes sz ≠ 0)
    (o : Ord) (sc : Scope) (d : Reg) :
    s.st k sz o sc d a off = .trap cMISALIGN 0 (s.effAddr k a off : Word) false := if_pos h

theorem State.amo_misaligned {a : Reg} {n : Nat} (h : (s.readReg k a).toNat % 2 ^ 57 % n ≠ 0) (i : Instr) (o : Ord) (sc : Scope)
    (d : Reg) (b c : Word) :
    s.amo k i n o sc d a b c = .trap cMISALIGN 0 ((s.readReg k a).toNat % 2 ^ 57 : Nat) false := if_pos h

/-- Every AMO of the table issues as one atomic of its threads. -/
theorem exec_amoForm {i : Instr} {n : Nat} {o : Ord} {sc : Scope} {d a b : Reg} (h : amoForm i = some (g, n, o, sc, d, a, b)) :
    exec i s = perThread s i g [a.toNat, b.toNat, d.toNat] anyCore .holds fun k s =>
      s.amo k i n o sc d a (s.readReg k b) 0 := by
  unfold amoForm at h
  split at h <;> cases h <;> rfl

/-- Settles O27: the check of the address comes before its translation. -/
theorem misalignedAccess : Obligations.MisalignedAccess := by
  intro s k g
  refine ⟨fun sz sx o sc d a off h ha => ⟨?_, ?_⟩, fun i n o sc d a b hi h ha => ?_, fun sz o sc d a b c h ha => ?_⟩
  · exact perThread_raise_at h (State.ld_misaligned ha ..)
  · exact perThread_raise_at h (State.st_misaligned ha ..)
  · rw [exec_amoForm hi]
    exact perThread_raise_at h (State.amo_misaligned ha ..)
  · exact perThread_raise_at h (State.amo_misaligned ha ..)

end Sys2Proof.Machine
end

section
/-!
PROOFS. Bytes and numbers, and loads and stores of untranslated host memory (R116, R128, R301, R326).
-/
namespace Sys2Proof.Machine

variable {s : State} {k : Nat} {g : Guard}

/-! ### The registers that a load writes (R418) -/

theorem sextNat_eq_signExtend {n : Nat} (hn : 0 < n) (v : Nat) : sextNat n v = (BitVec.ofNat n v).signExtend 64 := by
  have h2 : (2 : Nat) ^ n = 2 * 2 ^ (n - 1) := by rw [← Nat.pow_succ']; congr; omega
  simp only [sextNat, hn.ne', if_false, BitVec.signExtend, BitVec.toInt, BitVec.toNat_ofNat]
  by_cases h : 2 ^ (n - 1) ≤ v % 2 ^ n
  · rw [if_pos h, if_neg (by omega)]; norm_cast
  · rw [if_neg h, if_pos (by omega), BitVec.ofInt_natCast]

theorem bytesToNat_natBytes (n v : Nat) : bytesToNat (natBytes n v) = v % 256 ^ n := by
  induction n generalizing v with
  | zero => simp [natBytes, bytesToNat, Nat.mod_one]
  | succ n ih =>
    have hstep : natBytes (n + 1) v = BitVec.ofNat 8 v :: natBytes n (v / 256) := by
      simp [natBytes, List.range_succ_eq_map, Nat.div_div_eq_div_mul, Nat.pow_succ']
    have hmod : v % 256 ^ (n + 1) = v % 256 + 256 * (v / 256 % 256 ^ n) := by rw [Nat.pow_succ', Nat.mod_mul]
    rw [hstep, bytesToNat, ih, BitVec.toNat_ofNat, hmod]

theorem natBytes_length (n v : Nat) : (natBytes n v).length = n := by simp [natBytes]

theorem memBytes_pos (sz : MemSize) : 0 < memBytes sz := by cases sz <;> decide

theorem storeData_length (k : Nat) (sz : MemSize) (d : Reg) : (s.storeData k sz d).length = memBytes sz := by
  cases sz <;> simp [State.storeData, natBytes_length, memBytes]

/-! ### Accesses at a host address -/

theorem State.notePast_eq (s : State) (old : List (Nat × Byte)) :
    ∃ past, s.notePast old = s.withMem { s.mem with past := past } := by
  unfold State.notePast
  split
  · exact ⟨_, rfl⟩
  · split
    · exact ⟨s.mem.past, rfl⟩
    · exact ⟨_, rfl⟩

theorem State.target_host {a n : Nat} (h : inHost a n) (hn : 0 < n) (hu : s.untranslated k) (acc : AccKind) :
    s.target k a n acc = (s, .inl (hostTarget a)) := by
  rw [State.target, State.resolve_host hu h hn]
  rfl

section host
variable {a n : Nat} (h : inHost a n)
include h

/-- No byte at all lies in host memory at its end too. -/
theorem physKind_ofHost : physKind a = .host ∨ (n = 0 ∧ physKind a = .control) := by
  by_cases ha : a = 2 ^ 49
  · obtain ⟨-, hhi⟩ := h
    exact .inr ⟨by omega, by subst ha; decide⟩
  · obtain ⟨hlo, hhi⟩ := h
    exact .inl (physKind_host (n := 1) ⟨hlo, by omega⟩ Nat.one_pos)

theorem State.siltTouch_host (s : State) : s.siltTouch a = s := by
  rcases physKind_ofHost h with hk | ⟨-, hk⟩ <;> simp [State.siltTouch, State.siltExpand, hk]

theorem State.readTarget_host (s : State) (k : Nat) :
    s.readTarget k (hostTarget a) n = (s, some (s.mem.bytes.bytes a n)) := by
  simp only [State.readTarget, hostTarget, flatPage, Page.target, State.siltTouch_host h]
  rcases physKind_ofHost h with hk | ⟨rfl, hk⟩
  · simp [hk, pageOf, State.readPage]
  · simp [hk, State.ctlLoad, Memory.bytes]

/-- What the address held may be noted for promises (R205). -/
theorem State.writeTarget_host (s : State) (k : Nat) {bs : List Byte} (hbs : bs.length = n) :
    ∃ past, s.writeTarget k (hostTarget a) bs = s.withMem { s.mem with bytes := s.mem.bytes.puts a bs, past := past } := by
  subst hbs
  simp only [State.writeTarget, hostTarget, flatPage, Page.target, State.siltTouch_host h]
  rcases physKind_ofHost h with hk | ⟨hlen, hk⟩
  · obtain ⟨past, hp⟩ := s.notePast_eq (s.pageBytes (pageOf a 0 true 0 none false 0) a bs.length)
    have hw : s.writePage (s.agentOf k) (s.ctxOf k).asid (pageOf a 0 true 0 none false 0) a bs
        = s.withMem { s.mem with bytes := s.mem.bytes.puts a bs, past := past } := by
      simp only [State.writePage, pageOf, ne_eq, not_true_eq_false, if_false, hk] at hp ⊢
      rw [hp]
      rfl
    exact ⟨past, by simpa [hk] using hw⟩
  · obtain rfl := List.eq_nil_of_length_eq_zero hlen
    exact ⟨s.mem.past, by simp [hk, State.ctlStore]; rfl⟩

end host

/-! ### LD and ST -/

theorem State.promise_eq (s : State) (k : Nat) (t : Target) (n : Nat) :
    ∃ ts gs, s.promise k t n = { s with threads := ts, gangs := gs } := by
  unfold State.promise
  dsimp only
  split
  · exact ⟨s.threads, _, rfl⟩
  · exact ⟨_, s.gangs, rfl⟩

/-- The state in which a load reads: one with inv has promised its bytes (R205). -/
def State.loading (s : State) (o : Ord) (k : Nat) (t : Target) (n : Nat) : State := if o = .inv then s.promise k t n else s

theorem State.loading_eq (s : State) (o : Ord) (k : Nat) (t : Target) (n : Nat) :
    ∃ ts gs, s.loading o k t n = { s with threads := ts, gangs := gs } := by
  unfold State.loading
  split
  · exact s.promise_eq k t n
  · exact ⟨s.threads, s.gangs, rfl⟩

section resolved
variable {sz : MemSize} {o : Ord} {sc : Scope} {d a : Reg} {off : BitVec 24} {s0 s2 : State} {t : Target} {bs : List Byte}
  (ha : s.effAddr k a off % memBytes sz = 0)
include ha

section load
variable {sx : Bool} (ht : s.target k (s.effAddr k a off) (memBytes sz) .load = (s0, .inl t))
include ht

theorem State.ld_lat (hk : isLat k = true) : s.ld k sz sx o sc d a off
    = (s0.loading o k t (memBytes sz)).loadLat k (s.effAddr k a off) (memBytes sz) sx d.toNat t := by
  simp only [State.ld, ha, ne_eq, not_true_eq_false, if_false, ht, hk, if_true]
  rfl

/-- A SIMT thread's load is sent with what it found. -/
theorem State.ld_simt (hk : isLat k = false) (hr : (s0.loading o k t (memBytes sz)).readTarget k t (memBytes sz) = (s2, some bs))
    (hld : ((s0.loading o k t (memBytes sz)).thread k).oc.ld < 63) :
    s.ld k sz sx o sc d a off
      = .go (((s0.loading o k t (memBytes sz)).sendPromote k o t).send (((s0.loading o k t (memBytes sz)).access k
          (s.effAddr k a off) t (.load (memBytes sz) sx d.toNat) o sc).found bs)) .next := by
  unfold State.loading at hr hld ⊢
  simp only [State.ld, ha, ne_eq, not_true_eq_false, if_false, ht, hk, Bool.false_eq_true, hr, Nat.not_le.2 hld]

end load

section store
variable (ht : s.target k (s.effAddr k a off) (memBytes sz) .store = (s0, .inl t))
include ht

theorem State.st_lat (hk : isLat k = true) : s.st k sz o sc d a off = s0.storeLat k t (s.storeData k sz d) := by
  simp only [State.st, ha, ne_eq, not_true_eq_false, if_false, ht, hk, if_true]

theorem State.st_simt (hk : isLat k = false) (hm : (s0.thread k).spec.mode ≠ .speculating) (hst : (s0.thread k).oc.st < 63) :
    s.st k sz o sc d a off
      = .go (s0.send (s0.access k (s.effAddr k a off) t (.store (s.storeData k sz d)) o sc)) .next := by
  simp only [State.st, ha, ne_eq, not_true_eq_false, if_false, ht, hk, Bool.false_eq_true, beq_iff_eq, hm, Nat.not_le.2 hst]

/-- Past a service call a store goes to the store buffer (R50). -/
theorem State.st_buffered (hk : isLat k = false) (hm : (s0.thread k).spec.mode = .speculating) :
    s.st k sz o sc d a off = s0.bufferStore k
      ⟨word (s.effAddr k a off), t, s.storeData k sz d, Ord.releases o, sc, (s0.thread k).pc⟩ := by
  simp only [State.st, ha, ne_eq, not_true_eq_false, if_false, ht, hk, Bool.false_eq_true, hm, beq_self_eq_true, if_true]

end store
end resolved

theorem State.bufferStore_fits {b : BufferedStore} (h : bufferEntries ((s.thread k).spec.buf ++ [b]) ≤ 8) :
    s.bufferStore k b
      = .go (s.modThread k fun t => { t with spec := { t.spec with buf := t.spec.buf ++ [b] } }) .next :=
  if_neg (Nat.not_lt.2 h)

theorem State.loadLat_read {addr n d : Nat} {sx : Bool} {t : Target} {s2 : State} {bs : List Byte}
    (hm : s.silent (s.agentOf k) = false) (hr : s.readTarget k t n = (s2, some bs)) :
    s.loadLat k addr n sx d t
      = .go ((s2.promised k t bs).1.writeRegs k (loadWrites n sx d (s2.promised k t bs).2)) .next := by
  simp only [State.loadLat, hm, Bool.false_eq_true, if_false, hr]

theorem State.loadLat_silent {addr n d : Nat} {sx : Bool} {t : Target} (hm : s.silent (s.agentOf k) = true) :
    s.loadLat k addr n sx d t = .failed (s.answered (s.agentOf k)) t.unanswered.1 t.unanswered.2 (word addr) := if_pos hm

theorem releases_eq (o : Ord) : Ord.releases o = decide (o = .rel ∨ o = .ar) := by cases o <;> rfl

/-- Settles O28: each branch of LD and ST behind the resolved target. -/
theorem loadStoreIssue : Obligations.LoadStoreIssue := by
  intro s s0 k g sz o sc d a off t h ha
  refine ⟨fun s1 sx s2 bs ht hs1 => ?_, fun ht => ⟨fun hk hm => ?_, fun hk hm hst => ?_, fun b hk hm hb hfit => ?_⟩⟩
  · replace hs1 : s1 = s0.loading o k t (memBytes sz) := hs1
    subst hs1
    refine ⟨fun hk hm hr => perThread_next h ?_, fun hk hr hld => perThread_next h ?_⟩
    · rw [State.ld_lat ha ht hk, State.loadLat_read hm hr]
    · exact State.ld_simt ha ht hk hr hld
  · refine perThread_next h ?_
    rw [State.st_lat ha ht hk, State.storeLat, if_neg (by simp [hm])]
  · exact perThread_next h (State.st_simt ha ht hk hm hst)
  · refine perThread_next h ?_
    rw [State.st_buffered ha ht hk hm, releases_eq, ← State.bufferStore_fits hfit, hb]
    rfl

theorem loadWrites_plain {n d : Nat} {bs : List Byte} (hn : n ∈ [1, 2, 4, 8]) :
    loadWrites n false d bs = [(d, word (bytesToNat bs))] := by
  rw [loadWrites, if_neg (by rintro rfl; simp at hn)]
  rfl

theorem loadWrites_signed {n d : Nat} {bs : List Byte} (hn : n ∈ [1, 2, 4]) :
    loadWrites n true d bs = [(d, (BitVec.ofNat (8 * n) (bytesToNat bs)).signExtend 64)] := by
  rw [loadWrites, if_neg (by rintro rfl; simp at hn), ← sextNat_eq_signExtend (by rcases n with _ | n <;> simp_all)]
  rfl

/-- Settles O26: the address resolves to host memory, which no cache holds. -/
theorem hostLoadStore : Obligations.HostLoadStore := by
  refine ⟨fun s k g sz sc d a off addr hk hu haddr hin hal => ?_, ?_⟩
  · replace haddr : addr = s.effAddr k a off := haddr
    subst haddr
    have hpos := memBytes_pos sz
    have ht := fun acc => State.target_host hin hpos hu acc
    refine ⟨fun sx o h => ?_, fun o h => ⟨fun hm => ?_, fun hm => perThread_next h ?_⟩⟩
    · obtain ⟨ts, gs, hs1⟩ := s.loading_eq o k (hostTarget (s.effAddr k a off)) (memBytes sz)
      have hagent : (s.loading o k (hostTarget (s.effAddr k a off)) (memBytes sz)).agentOf k = s.agentOf k := by
        rw [hs1]; rfl
      have hmem : (s.loading o k (hostTarget (s.effAddr k a off)) (memBytes sz)).mem = s.mem := by rw [hs1]
      refine ⟨fun hm hpast => perThread_next h ?_, fun hm => perThread_raise_failed h ?_⟩
      · rw [State.ld_lat hal (ht _) hk, State.loadLat_read (by rw [hagent, State.silent, hmem]; exact hm)
          (State.readTarget_host hin _ k), State.promised, hmem, hpast]
        rfl
      · rw [State.ld_lat hal (ht _) hk, State.loadLat_silent (by rw [hagent, State.silent, hmem]; exact hm), hagent]
        rfl
    · obtain ⟨past, hw⟩ := State.writeTarget_host hin s k (storeData_length k sz d)
      refine ⟨_, perThread_next h (by rw [State.st_lat hal (ht _) hk, State.storeLat, if_neg (by simp [hm]), hw]), ?_, ?_, ?_⟩
      · have hlen := storeData_length (s := s) k sz d
        calc _ = (s.mem.bytes.puts (s.effAddr k a off) (s.storeData k sz d)).bytes (s.effAddr k a off) (s.storeData k sz d).length := by
              rw [hlen]; rfl
          _ = _ := Memory.bytes_puts_self ..
      · intro x hx
        exact Memory.byte_puts_outside _ _ _ (by rw [storeData_length]; exact hx)
      · exact ⟨rfl, rfl, rfl, rfl⟩
    · rw [State.st_lat hal (ht _) hk, State.storeLat, if_pos hm]
  · refine ⟨fun n d bs _ hn => loadWrites_plain hn, fun n d bs _ hn => loadWrites_signed hn, fun _ _ _ => rfl, fun n v hv => ?_⟩
    rw [bytesToNat_natBytes, Nat.mod_eq_of_lt hv]

end Sys2Proof.Machine
end

section
/-!
PROOFS. Accesses in flight: their issue, their return and their time-out (R126, R296, R366, R418, R465).
-/
namespace Sys2Proof.Machine

variable {s : State} {k id : Nat} {a : Access}

/-! ### Registers that a return writes -/

theorem Thread.setReg_keeps (t : Thread) (n : Nat) (v : Word) : (t.setReg n v).oc = t.oc ∧ (t.setReg n v).spec = t.spec := by
  obtain ⟨rs, par, heq, -⟩ := t.setReg_eq n v
  rw [heq]
  exact ⟨rfl, rfl⟩

theorem State.writeReg_oc (s : State) (k j : Nat) (r : Reg) (v : Word) : ((s.writeReg k r v).thread j).oc = (s.thread j).oc := by
  unfold State.writeReg
  split
  · rfl
  · by_cases hj : j = (s.physReg k r.toNat).1
    · subst hj
      rw [State.modThread_get_self, (Thread.setReg_keeps ..).1]
    · rw [State.modThread_get_ne _ _ _ hj]

theorem State.writeReg_mem (s : State) (k : Nat) (r : Reg) (v : Word) : (s.writeReg k r v).mem = s.mem := by
  unfold State.writeReg
  split <;> rfl

theorem State.writeReg_withMem (s : State) (m : MemSys) (k : Nat) (r : Reg) (v : Word) :
    (s.withMem m).writeReg k r v = (s.writeReg k r v).withMem m := by
  unfold State.writeReg
  split <;> rfl

theorem State.writeRegs_oc (s : State) (k j : Nat) (ws : List (Nat × Word)) :
    ((s.writeRegs k ws).thread j).oc = (s.thread j).oc :=
  foldl_keeps (P := fun s : State => (s.thread j).oc) (fun s _ => s.writeReg_oc k j _ _) ws s

theorem State.writeRegs_mem (s : State) (k : Nat) (ws : List (Nat × Word)) : (s.writeRegs k ws).mem = s.mem :=
  foldl_keeps (P := State.mem) (fun s _ => s.writeReg_mem k _ _) ws s

/-! ### The counter rises and falls (R126) -/

/-- The counters of a thread with one more access of a kind in flight. -/
def Counters.raised (c : Counters) : AccessKind → Counters
  | .load .. | .atomic .. => { c with ld := c.ld + 1 }
  | _ => { c with st := c.st + 1 }

theorem State.send_thread (s : State) (a : Access) :
    (s.send a).thread a.thread = { s.thread a.thread with oc := (s.thread a.thread).oc.raised a.kind } := by
  have h : (s.send a).thread a.thread = _ := AMap.get_set_self ..
  rw [h]
  cases a.kind <;> rfl

theorem Thread.settled_keeps (t : Thread) : t.settled.oc = t.oc ∧ t.settled.spec = t.spec := by
  unfold Thread.settled
  split
  · split <;> exact ⟨rfl, rfl⟩
  · exact ⟨rfl, rfl⟩

theorem State.finish_mem (s : State) (id : Nat) (a : Access) :
    (s.finish id a).mem = { s.mem with inflight := s.mem.inflight.del id } := rfl

theorem State.finish_pkg (s : State) (id : Nat) (a : Access) : (s.finish id a).pkg = s.pkg := rfl

theorem State.finish_mode (s : State) (id : Nat) (a : Access) :
    ((s.finish id a).thread a.thread).spec.mode = (s.thread a.thread).spec.mode := by
  unfold State.finish
  rw [State.modThread_get_self, (Thread.settled_keeps _).2]
  rfl

theorem State.finish_ld (s : State) (id : Nat) (h : (∃ n sx d, a.kind = .load n sx d) ∨ ∃ i n d b c, a.kind = .atomic i n d b c) :
    ((s.finish id a).thread a.thread).oc.ld = (s.thread a.thread).oc.ld - 1 := by
  unfold State.finish
  rw [State.modThread_get_self, (Thread.settled_keeps _).1]
  obtain ⟨n, sx, d, h⟩ | ⟨i, n, d, b, c, h⟩ := h <;> rw [h] <;> rfl

theorem State.finish_st (s : State) (id : Nat) {data : List Byte} (h : a.kind = .store data) :
    ((s.finish id a).thread a.thread).oc.st = (s.thread a.thread).oc.st - 1 := by
  unfold State.finish
  rw [State.modThread_get_self, (Thread.settled_keeps _).1, h]
  rfl

/-! ### The rows of a return -/

theorem State.mayPerform_alone (h : s.mem.inflight = [(id, a)]) (hm : s.mem.msgs = []) {pa n : Nat} (ht : a.target = hostTarget pa)
    (hin : inHost pa n) : s.mayPerform id a = true := by
  have hready : s.siltReady pa = true := by
    rcases physKind_ofHost hin with hk | ⟨-, hk⟩ <;> simp [State.siltReady, State.siltExpand, hk]
  simp [State.mayPerform, State.promoteUnderWay, State.expandable, ht, hostTarget, flatPage, Page.target, hm, h, hready]

theorem State.coalesced_alone (h : s.mem.inflight = [(id, a)]) : s.coalesced id a = [(id, a)] := by
  simp [State.coalesced, h]

theorem AMap.del_alone {β : Type} (id : Nat) (b : β) : AMap.del ([(id, b)] : AMap β) id = [] := by simp [AMap.del]

section returns
variable (hf : s.mem.inflight.find id = some a)
include hf

theorem execLoadSectorReturn_load {size : Nat} {sx : Bool} {d : Nat} (hk : a.kind = .load size sx d) (hp : s.mayPerform id a = true)
    (hc : s.coalesced id a = [(id, a)]) : exec (.loadSectorReturn id) s = .next (s.performLoad id a size sx d) := by
  show execLoadSectorReturn id s = _
  simp only [execLoadSectorReturn, hf, hk, State.returnSector, hc, List.all_cons, hp, List.all_nil, Bool.and_true, Bool.not_true,
    Bool.false_eq_true, if_false, List.foldl_cons, List.foldl_nil]

theorem execAtomicReply_atomic {i : Instr} {size d : Nat} {b c : Word} (hk : a.kind = .atomic i size d b c)
    (hp : s.mayPerform id a = true) : exec (.atomicReply id) s = .next (s.performAtomic id a i size d b c) := by
  show execAtomicReply id s = _
  simp only [execAtomicReply, hf, hk, hp, if_true]

theorem execStorePerformed_alone (hl : ∀ size sx d, a.kind ≠ .load size sx d) (ha : ∀ i size d b c, a.kind ≠ .atomic i size d b c)
    (hp : s.mayPerform id a = true) (hc : s.coalesced id a = [(id, a)])
    (hw : wholeLine [(id, a)] = none ∨ ∃ pa n, a.target = hostTarget pa ∧ inHost pa n) :
    exec (.storePerformed id) s = .next (s.performStore id a) := by
  have hreq : s.performRequest id a = s.performStore id a := by
    simp only [State.performRequest, hc, List.all_cons, hp, List.all_nil, Bool.and_true, Bool.not_true, Bool.false_eq_true, if_false,
      List.foldl_cons, List.foldl_nil]
    split
    · next ht hw' =>
      rcases hw with hw | ⟨pa, n, ht', hin⟩
      · rw [hw] at hw'; cases hw'
      · rw [ht', hostTarget, flatPage, Page.target] at ht
        cases ht
        rw [if_neg]
        rcases physKind_ofHost hin with hk | ⟨-, hk⟩ <;> simp [hk]
    · rfl
  show execStorePerformed id s = _
  simp only [execStorePerformed, hf]
  cases hk : a.kind with
  | load size sx d => exact absurd hk (hl size sx d)
  | atomic i size d b c => exact absurd hk (ha i size d b c)
  | store data => exact congrArg _ hreq
  | cwb => exact congrArg _ hreq
  | cinv => exact congrArg _ hreq

end returns

theorem State.performLoad_found {size : Nat} {sx : Bool} {d : Nat} {s1 : State} {bs : List Byte}
    (hg : (s.finish id a).targetGone a.thread a.target size = false)
    (hr : (s.finish id a).readTarget a.thread a.target size = (s1, some bs)) :
    s.performLoad id a size sx d = (s1.promised a.thread a.target bs).1.deliver a
      (loadWrites size sx d (applyOverlay (s1.promised a.thread a.target bs).2 a.overlay)) := by
  simp only [State.performLoad, hg, Bool.false_eq_true, if_false, hr]

theorem State.performAtomic_found {i : Instr} {size d : Nat} {b c : Word} {s1 : State} {old : Nat}
    (hg : (s.finish id a).targetGone a.thread a.target size = false)
    (hr : (s.finish id a).atomicTarget a.thread a.target size i b c = (s1, some old)) :
    s.performAtomic id a i size d b c = s1.deliver a [(d, word (old % 2 ^ (8 * size)))] := by
  simp only [State.performAtomic, hg, Bool.false_eq_true, if_false, hr]

theorem State.deliver_normal {ws : List (Nat × Word)} (hd : a.drop = false) (hm : (s.thread a.thread).spec.mode = .normal) :
    s.deliver a ws = s.writeRegs a.thread ws := by
  simp [State.deliver, hd, hm]

/-! ### Atomics of host memory -/

theorem toSigned_injOn {n x y : Nat} (hx : x < 2 ^ n) (hy : y < 2 ^ n) (h : toSigned n x = toSigned n y) : x = y := by
  rcases n with _ | n
  · omega
  · have hp : ((2 : Int) ^ (n + 1)) = ((2 ^ (n + 1) : Nat) : Int) := by norm_cast
    simp only [toSigned, Nat.mod_eq_of_lt hx, Nat.mod_eq_of_lt hy, Nat.succ_ne_zero, if_false, hp] at h
    split at h <;> split at h <;> omega

/-- The two orders of a signed comparison agree where the operands are equal. -/
theorem atomicNew_eq_atomicValue (i : Instr) (n old v c : Nat) : atomicNew i n old v c = atomicValue i n old v c := by
  have signed : ∀ x y : Nat, toSigned n x ≤ toSigned n y ↔ ¬toSigned n y < toSigned n x := fun x y => not_lt.symm
  cases i
  case amoMin => simp only [atomicNew, atomicValue, signed, ite_not]
  case amoMax =>
    show (if toSigned n (old % 2 ^ n) ≤ toSigned n (v % 2 ^ n) then v % 2 ^ n else old % 2 ^ n)
      = if toSigned n (old % 2 ^ n) < toSigned n (v % 2 ^ n) then v % 2 ^ n else old % 2 ^ n
    by_cases h : toSigned n (old % 2 ^ n) = toSigned n (v % 2 ^ n)
    · have heq : old % 2 ^ n = v % 2 ^ n :=
        toSigned_injOn (Nat.mod_lt _ (Nat.two_pow_pos n)) (Nat.mod_lt _ (Nat.two_pow_pos n)) h
      rw [heq, ite_self, ite_self]
    · simp only [le_iff_lt_or_eq, h, or_false]
  all_goals rfl

theorem bytesToNat_lt (bs : List Byte) : bytesToNat bs < 256 ^ bs.length := by
  induction bs with
  | nil => simp [bytesToNat]
  | cons b bs ih =>
    have hb := b.isLt
    rw [bytesToNat, List.length_cons, Nat.pow_succ']
    omega

theorem State.atomicTarget_host {pa n : Nat} (h : inHost pa n) (s : State) (k : Nat) (i : Instr) (b c : Word) :
    ∃ m, s.atomicTarget k (hostTarget pa) n i b c = (s.withMem m, some (bytesToNat (s.mem.bytes.bytes pa n)))
      ∧ m.inflight = s.mem.inflight ∧ m.bytes = s.mem.bytes.puts pa
          (natBytes n (atomicValue i (8 * n) (bytesToNat (s.mem.bytes.bytes pa n)) b.toNat c.toNat)) := by
  obtain ⟨past, hp⟩ := s.notePast_eq (s.pageBytes (pageOf pa 0 true 0 none false 0) pa n)
  simp only [pageOf] at hp
  simp only [State.atomicTarget, hostTarget, flatPage, Page.target, State.siltTouch_host h, State.atomicPage, pageOf,
    Option.isNone_none, if_true, ne_eq, not_true_eq_false, if_false, hp]
  rcases physKind_ofHost h with hk | ⟨rfl, hk⟩
  · simp only [hk, State.atomicAt, atomicNew_eq_atomicValue]
    exact ⟨_, rfl, rfl, rfl⟩
  · simp only [hk]
    exact ⟨_, rfl, rfl, rfl⟩

theorem Memory.bytes_puts_natBytes (m : Memory) (a n v : Nat) : (m.puts a (natBytes n v)).bytes a n = natBytes n v := by
  have h := Memory.bytes_puts_self (natBytes n v) m a
  rwa [natBytes_length] at h

/-- Settles O31: the issue, each row of a return, and the rows with one access of host memory in flight. -/
theorem accessReturns : Obligations.AccessReturns := by
  refine ⟨fun s a => ⟨AMap.find_set_self .., rfl, rfl, ?_, ?_⟩, fun s id a hf => ?_⟩
  · rw [State.send_thread]
  · rw [State.send_thread]
    cases a.kind <;> exact ⟨rfl, rfl⟩
  have hgone : ∀ pa n, a.target = hostTarget pa → (s.finish id a).targetGone a.thread a.target n = false := by
    intro pa n ht
    rw [ht]
    rfl
  refine ⟨?_, ?_, ?_, ?_, ?_, ?_, ?_, ?_, ?_⟩
  · intro size sx d s1 bs hk hp hc hg hr
    rw [execLoadSectorReturn_load hf hk hp hc, State.performLoad_found hg hr]
  · intro i size d b c s0 s1 old hk hp hs0 hg hr
    subst hs0
    rw [execAtomicReply_atomic hf hk hp, State.performAtomic_found hg hr]
    rfl
  · exact fun hl ha hp hc hw => execStorePerformed_alone hf hl ha hp hc (.inl hw)
  · intro data hk
    simp only [State.performStore, hk]
  · intro hk
    simp only [State.performStore, hk]
  · intro hk
    simp only [State.performStore, hk]
  · intro data hk
    refine ⟨(s.finish id a).countTimeout, ?_, ?_, rfl, AMap.find_del_self .., s.finish_st id hk⟩
    · show execMemoryTimeout id s = _
      simp only [execMemoryTimeout, hf, hk]
    · exact satInc48_eq_min _
  · intro size sx d hk hd
    refine ⟨fun hlocal => ?_, fun pa key tr v r ro rs ht => ?_⟩
    · show execMemoryTimeout id s = _
      simp only [execMemoryTimeout, hf, hk, hd, Bool.false_eq_true, if_false]
      cases ht : a.target with
      | loam => rfl
      | phys pa key tr v r ro rs =>
        cases r with
        | none => rfl
        | some r => exact absurd ht (hlocal pa key tr v r ro rs)
    · show execMemoryTimeout id s = _
      simp only [execMemoryTimeout, hf, hk, hd, ht, Bool.false_eq_true, if_false, Option.isSome_some, if_true]
  · intro pa n hone hmsgs hpast hd ho hmode ht hin
    have hp := State.mayPerform_alone hone hmsgs ht hin
    have hc := State.coalesced_alone hone
    have hdel : (s.finish id a).mem.inflight = [] := by rw [State.finish_mem, hone]; exact AMap.del_alone ..
    have hmode' : ((s.finish id a).thread a.thread).spec.mode = .normal := (s.finish_mode id a).trans hmode
    refine ⟨fun sx d hk => ?_, fun i d b c hk => ?_, fun data hk hlen _ => ?_⟩
    · refine ⟨_, execLoadSectorReturn_load hf hk hp hc, ?_⟩
      rw [State.performLoad_found (hgone pa n ht) (by rw [ht]; exact State.readTarget_host hin _ _),
        State.promised, show (s.finish id a).mem.past = [] from hpast, State.deliver_normal hd hmode', ho]
      exact ⟨by rw [State.writeRegs_mem, hdel], by rw [State.writeRegs_oc, s.finish_ld id (.inl ⟨_, _, _, hk⟩)],
        by rw [State.writeRegs_mem]; rfl, rfl⟩
    · obtain ⟨m, hat, hm, hbytes⟩ := State.atomicTarget_host hin (s.finish id a) a.thread i b c
      replace hbytes : m.bytes = s.mem.bytes.puts pa
        (natBytes n (atomicValue i (8 * n) (bytesToNat (s.mem.bytes.bytes pa n)) b.toNat c.toNat)) := hbytes
      have hlt : bytesToNat (s.mem.bytes.bytes pa n) < 2 ^ (8 * n) := by
        have h := bytesToNat_lt (s.mem.bytes.bytes pa n)
        rw [show (s.mem.bytes.bytes pa n).length = n by simp [Memory.bytes]] at h
        rwa [Nat.pow_mul]
      refine ⟨_, execAtomicReply_atomic hf hk hp, ?_⟩
      rw [State.performAtomic_found (hgone pa n ht) (by rw [ht]; exact hat),
        State.deliver_normal (s := (s.finish id a).withMem m) hd hmode',
        show (s.finish id a).mem.bytes = s.mem.bytes from rfl, Nat.mod_eq_of_lt hlt, State.writeRegs_mem, State.writeRegs_oc]
      refine ⟨hm.trans hdel, s.finish_ld id (.inr ⟨_, _, _, _, _, hk⟩),
        (congrArg State.threads (State.writeReg_withMem (s.finish id a) m a.thread (BitVec.ofNat 6 d) _)).trans rfl, ?_, fun x hx => ?_⟩
      · show bytesToNat (m.bytes.bytes pa n) = _
        rw [hbytes, Memory.bytes_puts_natBytes, bytesToNat_natBytes]
      · show m.bytes.byte x = _
        rw [hbytes]
        exact Memory.byte_puts_outside _ _ _ (by rw [natBytes_length]; exact hx)
    · obtain ⟨past, hw⟩ := State.writeTarget_host hin s a.thread hlen
      refine ⟨_, execStorePerformed_alone hf (by simp [hk]) (by simp [hk]) hp hc (.inr ⟨pa, n, ht, hin⟩), ?_⟩
      simp only [State.performStore, hk, ht, hw]
      subst hlen
      exact ⟨hdel, State.finish_st _ id hk, Memory.bytes_puts_self .., fun x hx => Memory.byte_puts_outside _ _ _ hx⟩

end Sys2Proof.Machine
end

section
/-!
PROOFS. CBWAIT, CBWAIT.PROD, CBPUSH and CBPOP (R134, R135, R374 to R376).
-/
namespace Sys2Proof.Machine

variable {s : State} {k : Nat} {g : Guard}

/-! ### Traps of a crew's instruction, taken or held in W -/

section raise
variable {i : Instr} {kind : Kind} {sp : SpecRule} {regs : List Nat} {body : List Nat → State → Res} {c sub : Nat} {v : Word}

theorem perCrew_raise_at (h : s.executes k g kind sp regs) (hb : body [k] s = .trap c sub v false) :
    perCrew s i g regs kind sp body = .next (s.raise k c sub v (s.thread k).pc) := by
  simp [perCrew, issueCrews_one h, runGroups, crewPart_run h, hb, State.applyGroup, State.applyRes, State.splitBundle_nil]

/-- A trap at the instruction, after a change of state that stays. -/
theorem perCrew_raise_failed (h : s.executes k g kind sp regs) {s' : State} (hb : body [k] s = .failed s' c sub v) :
    perCrew s i g regs kind sp body = .next (s'.raise k c sub v (s'.thread k).pc) := by
  simp [perCrew, issueCrews_one h, runGroups, crewPart_run h, hb, State.applyGroup, State.applyRes, State.splitBundle_nil]

end raise

theorem State.ctxOf_crew {c : Crew} (hc : s.crewAt k = some c) : s.ctxOf k = (s.core c.core).ctxOf c.asid := by
  have hl : isLat k = false := by
    cases hl : isLat k
    · rfl
    · simp [State.crewAt, hl] at hc
  simp [State.ctxOf, hl, hc]

/-! ### One try of the executing thread -/

section tries
variable {i : Instr} {regs : List Nat} {rel : Bool} {f : List Nat → State → CbTry}
  (h : s.executes k g simtOnly .holds regs)
include h

theorem cbInstr_pending (hp : s.loamPending k = true) : cbInstr s i g regs true f = .next s :=
  perCrew_wait h (by simp [hp])

variable (hp : rel = true → s.loamPending k = false)
include hp

omit h in
theorem cbInstr_body : (rel && [k].any s.loamPending) = false := by
  cases rel
  · rfl
  · simp [hp rfl]

theorem cbInstr_bad {x : Nat} (hf : f [k] s = .bad x) :
    cbInstr s i g regs rel f = .next (s.raise k cLOAM_BOUNDS 0 (BitVec.ofNat 64 x) (s.thread k).pc) :=
  perCrew_raise_at h (by simp only [cbInstr_body hp, hf, Bool.false_eq_true, if_false])

theorem cbInstr_spoiled {s' : State} {x : Nat} (hf : f [k] s = .spoiled s' x) :
    cbInstr s i g regs rel f = .next (s'.raise k cPOISON 0 (BitVec.ofNat 64 x) (s'.thread k).pc) :=
  perCrew_raise_failed h (by simp only [cbInstr_body hp, hf, Bool.false_eq_true, if_false])

theorem cbInstr_waits (hf : f [k] s = .waits) : cbInstr s i g regs rel f = .next ((s.parkGroup [k] .cb i).leaveBundle k) :=
  perCrew_hold h (by simp only [cbInstr_body hp, hf, Bool.false_eq_true, if_false])

theorem cbInstr_done {s' : State} (hf : f [k] s = .done s') : cbInstr s i g regs rel f = .next (s'.advance k) :=
  perCrew_next h (by simp only [cbInstr_body hp, hf, Bool.false_eq_true, if_false])

end tries

/-! ### The descriptor (R84, R134) -/

section descriptor
variable {c : Crew} (hc : s.crewAt k = some c) {n : Nat} {f : Crew → Word → Word → CbTry}
include hc

theorem State.cbUse_spoiled {x : Nat} (hx : (s.specBad c (cbOffset n) 16).head? = some x) :
    s.cbUse [k] n f = .spoiled (s.countParity c.core) (s.windowAddr c (x - c.base)) := by
  obtain ⟨bs, hbs⟩ := List.head?_eq_some_iff.1 hx
  simp only [State.cbUse, List.headD_cons, hc, hbs]

variable (hb : s.specBad c (cbOffset n) 16 = [])
include hb

theorem State.cbUse_bad (hv : cbValid c (s.cbCfg c n) = false) :
    s.cbUse [k] n f = .bad (s.windowAddr c (c.lsg * granule + cbOffset n)) := by
  simp only [State.cbUse, List.headD_cons, hc, hb, hv, Bool.false_eq_true, if_false]

theorem State.cbUse_valid (hv : cbValid c (s.cbCfg c n) = true) : s.cbUse [k] n f = f c (s.cbCfg c n) (s.cbCtr c n) := by
  simp only [State.cbUse, List.headD_cons, hc, hb, hv, if_true]

end descriptor

theorem cbValid_iff (c : Crew) (cfg : Word) : cbValid c cfg = true ↔
    bitAt cfg 63 = true ∧ cbBase cfg + cbSlots cfg * cbSize cfg ≤ c.lsg * 16384 ∧ 128 ≤ cbSize cfg ∧ cbSize cfg % 128 = 0
      ∧ cbBase cfg % 128 = 0 := by
  simp only [cbValid, Bool.and_eq_true, decide_eq_true_iff, beq_iff_eq, and_assoc]
  rfl

theorem State.cbCtr_stored {c : Crew} {n : Nat}
    (h : ((s.core c.core).bank c.bank).cbs.find (c.specBase + cbOffset n) = none
      ∨ ∃ x, ((s.core c.core).bank c.bank).cbs.find (c.specBase + cbOffset n) = some x
        ∧ (s.specWord c (cbOffset n + 8) = x.2 ∨ fld x.2 31 16 = 0 ∧ fld x.2 15 0 = cbSlots x.1)) :
    s.cbCtr c n = s.specWord c (cbOffset n + 8) := by
  obtain hnone | ⟨x, hx, h⟩ := h
  · simp only [State.cbCtr, hnone]
  · simp only [State.cbCtr, hx]
    refine if_pos (h.imp_right fun ⟨hfill, hfree⟩ => .inl ?_)
    simp [State.cbUnused, hfill, hfree]

/-- Settles O44: each form is one try of its thread at the descriptor. -/
theorem circularBuffers : Obligations.CircularBuffers := by
  intro s k g n d c hc cfg w stored left bad free filled widx ridx slots size base valid va counts traps spoils
  have hva : ∀ x, s.windowAddr c x = va x := fun x => by rw [State.windowAddr, ← State.ctxOf_crew hc]
  have hvalid : cbValid c (s.cbCfg c n.toNat) = true ↔ valid := cbValid_iff c _
  have hspoil : ∀ (i : Instr) (regs : List Nat) (rel : Bool) (f : List Nat → State → CbTry)
      (e : Crew → Word → Word → CbTry), exec i s = cbInstr s i g regs rel f → f [k] s = s.cbUse [k] n.toNat e →
      s.executes k g simtOnly .holds regs → (rel = true → s.loamPending k = false) → spoils i := by
    intro i regs rel f e hi hf h hp x hx hn
    rw [hi, cbInstr_spoiled h hp (hf.trans (State.cbUse_spoiled hc hx)), hva, State.raise]
    exact congrArg _ (if_pos (beq_iff_eq.2 hn))
  have htrap : ∀ (i : Instr) (regs : List Nat) (rel : Bool) (f : List Nat → State → CbTry)
      (e : Crew → Word → Word → CbTry), exec i s = cbInstr s i g regs rel f → f [k] s = s.cbUse [k] n.toNat e →
      s.executes k g simtOnly .holds regs → (rel = true → s.loamPending k = false) → bad = [] → ¬valid → traps i := by
    intro i regs rel f e hi hf h hp hb hv
    show exec i s = _
    rw [hi, cbInstr_bad h hp (hf.trans (State.cbUse_bad hc hb (Bool.eq_false_iff.2 fun hcv => hv (hvalid.1 hcv)))), hva]
    rfl
  have noRel : (false = true → s.loamPending k = false) := fun h => absurd h (by simp)
  refine ⟨fun h => State.cbCtr_stored h,
    fun h => ⟨hspoil _ _ false _ _ rfl rfl h noRel, hspoil _ _ false _ _ rfl rfl h noRel⟩,
    fun h hp => ⟨hspoil _ _ true _ _ rfl rfl h fun _ => hp, hspoil _ _ true _ _ rfl rfl h fun _ => hp⟩,
    fun h hb hv => ?_, fun h hp hb hv => ?_,
    fun h hp => ⟨cbInstr_pending h hp, cbInstr_pending h hp⟩,
    fun h hp hb hv => ⟨htrap _ _ true _ _ rfl rfl h (fun _ => hp) hb hv, htrap _ _ true _ _ rfl rfl h (fun _ => hp) hb hv⟩,
    fun h hb hv => ⟨htrap _ _ false _ _ rfl rfl h noRel hb hv, htrap _ _ false _ _ rfl rfl h noRel hb hv⟩⟩
  · have hwait : ∀ prod, s.cbwaitTry [k] prod d n.toNat = _ := fun prod => State.cbUse_valid hc hb (hvalid.2 hv)
    refine ⟨fun hne => ?_, fun h0 => ?_, fun hne => ?_, fun h0 => ?_⟩
    · refine cbInstr_done h noRel ((hwait false).trans ?_)
      rw [← hva]
      exact if_neg hne
    · exact cbInstr_waits h noRel ((hwait false).trans (if_pos h0))
    · refine cbInstr_done h noRel ((hwait true).trans ?_)
      rw [← hva]
      exact if_neg hne
    · exact cbInstr_waits h noRel ((hwait true).trans (if_pos h0))
  · have hpush : s.cbpushTry [k] n.toNat = _ := State.cbUse_valid hc hb (hvalid.2 hv)
    have hpop : s.cbpopTry [k] n.toNat = _ := State.cbUse_valid hc hb (hvalid.2 hv)
    exact ⟨fun hne => cbInstr_done h (fun _ => hp) (hpush.trans (if_neg hne)),
      fun h0 => cbInstr_waits h (fun _ => hp) (hpush.trans (if_pos h0)),
      fun hne => cbInstr_done h (fun _ => hp) (hpop.trans (if_neg hne)),
      fun h0 => cbInstr_waits h (fun _ => hp) (hpop.trans (if_pos h0))⟩

end Sys2Proof.Machine
end

section
/-!
PROOFS. Addresses of a crew's own window (R74, R116), and the life of a chain (R136, R142, R143, R380 to R382).
-/
namespace Sys2Proof.Machine

variable {s : State} {k : Nat} {g : Guard}

/-! ### The own window of a crew -/

/-- An address inside the crew's allocation lies in its bank, for each use. -/
theorem State.place_own {w : Who} {c : Crew} {va n : Nat} (hl : w.lat = false) (hu : w.sup = false ∨ w.ctx.pgroot ≠ 0)
    (hc : s.crews.find w.crew = some c) (hlo : w.ctx.loamva.toNat % 2 ^ 57 ≤ va) (hn : 0 < n)
    (hhi : va - w.ctx.loamva.toNat % 2 ^ 57 + n ≤ 2 ^ 22) (hin : c.inAlloc (va - w.ctx.loamva.toNat % 2 ^ 57) n = true) (acc : AccKind) :
    s.place w va n acc = (s, .loam w.agent (va - w.ctx.loamva.toNat % 2 ^ 57) (.bytes c.bank)) := by
  have hspan : inSpan w.ctx va = true := by
    simp only [inSpan, Bool.and_eq_true, decide_eq_true_eq]
    omega
  have hres : s.resolve w va acc = (s, .window (va - w.ctx.loamva.toNat % 2 ^ 57)) := by
    have hflat : (w.sup && w.ctx.pgroot == 0) = false := by
      rcases hu with hu | hu
      · rw [hu, Bool.false_and]
      · rw [beq_eq_false_iff_ne.2 hu, Bool.and_false]
    simp only [State.resolve, hflat, Bool.false_eq_true, if_false, hspan, if_true]
  have hspot : s.ownSpot w.crew (va - w.ctx.loamva.toNat % 2 ^ 57) n = .bytes c.bank := by
    simp only [State.ownSpot, hc, hin, Bool.true_or, if_true]
  simp only [State.place, hres, State.windowPlace, hl, Bool.false_eq_true, if_false, hspot,
    if_pos (show va - w.ctx.loamva.toNat % 2 ^ 57 < 2 ^ 22 by omega)]

/-- No byte of a range stands in a bad word when no bad word touches the range (R84). -/
theorem State.spotBad_bytes {core : Nat} {b : Bool} {off n : Nat} (h : (s.core core).badIn b off n = false) :
    s.spotBad core (.bytes b) off n = [] := by
  simp only [State.spotBad, List.filter_eq_nil_iff, List.mem_range, Core.badIn, Bool.not_eq_true] at h ⊢
  intro i hi
  rw [List.any_eq_false] at h ⊢
  intro e he
  have hne := h e he
  simp only [Bool.and_eq_true, decide_eq_true_eq, not_and, and_imp, beq_iff_eq] at hne ⊢
  intro hbank hlo hhi
  have := hne hbank (by omega)
  omega

theorem State.loadNow_window {c : Crew} {va n : Nat} (hn : 0 < n) (h : s.ownWindow k c va n) :
    s.loadNow k va n = ({ s with free := s.free + n },
      .inl (s.loamBytes c.core c.bank (va - (s.ctxOf k).loamva.toNat % 2 ^ 57) n)) := by
  obtain ⟨hc, hu, hlo, hhi, hin, hbad, hbusy⟩ := h
  have hl : isLat k = false := by
    cases hl : isLat k
    · rfl
    · simp [State.crewAt, hl] at hc
  have hagent : s.agentOf k = c.core := by simp [State.agentOf, hl, State.coreOf, hc]
  have hfind : s.crews.find (s.who k).crew = some c := by
    simpa [State.who, hl, State.crewAt] using hc
  have hsup : (s.who k).sup = false ∨ (s.who k).ctx.pgroot ≠ 0 := by
    cases hs : (s.thread k).trap.sup
    · exact .inl hs
    · exact .inr fun h0 => hu ⟨hs, h0⟩
  have hplace : s.place (s.who k) va n .load = (s, .loam c.core (va - (s.ctxOf k).loamva.toNat % 2 ^ 57) (.bytes c.bank)) :=
    hagent ▸ State.place_own hl hsup hfind hlo hn hhi hin .load
  simp only [State.loadNow, hplace, State.spotBad_bytes hbad, List.isEmpty_nil, if_true, State.readLoam, hbusy, List.any_nil,
    Bool.and_false, Option.any_some, hc, Bool.false_eq_true, if_false, State.readSpot, List.zipIdx_map_fst]

theorem State.loadNow_reads {va n : Nat} {s1 : State} {bs : List Byte} (hn : 0 < n) (h : s.reads k va n s1 bs) :
    s.loadNow k va n = (s1, .inl bs) := by
  rcases h with ⟨hu, hin, hm, rfl, rfl⟩ | ⟨c, hw, rfl, rfl⟩
  · exact State.loadNow_host hu hin hn hm
  · exact State.loadNow_window hn hw

/-! ### ENGO -/

theorem low57_eq_and (w : Word) : low57 w = w &&& 0x01FFFFFFFFFFFFFF := by
  apply BitVec.eq_of_toNat_eq
  have hand : (w &&& 0x01FFFFFFFFFFFFFF).toNat = w.toNat % 2 ^ 57 := Nat.and_two_pow_sub_one_eq_mod w.toNat 57
  rw [hand, low57, BitVec.toNat_ofNat]
  omega

/-- The chain that ENGO of thread `k` makes. -/
def State.newChain (s : State) (k engine unit : Nat) (sc : Scope) (a : Reg) : Chain :=
  { engine := engine, unit := unit, addr := low57 (s.readReg k a), crew := if isLat k then none else some (crewOf k),
    counting := [s.countKey k], asid := (s.ctxOf k).asid, sup := (s.thread k).trap.sup, ctx := s.ctxOf k, scope := sc, state := 0,
    idx := 0, order := s.nxt.chain, cause := 0, zsub := 0, fault := 0, done := 0, tiles := .none }

/-- The state with a new chain, which thread `k` counts. -/
def State.startChain (s : State) (k : Nat) (c : Chain) : State :=
  let s1 := s.modThread k fun t => { t with oc := { t.oc with cp := t.oc.cp + 1 } }
  { s1 with chains := s1.chains.set s1.nxt.chain c, nxt := { s1.nxt with chain := s1.nxt.chain + 1 } }

theorem State.engo_new {engine ld : Nat} {sc : Scope} {a : Reg} (ha : (s.readReg k a).toNat % 32 = 0) (hcp : (s.thread k).oc.cp < 15)
    (hp : s.pendingOf k = [])
    (hin : isLat k = false → s.inOwnScratch (s.who k) (va57 (s.readReg k a), va57 (s.readReg k a) + 32) = true
      ∧ (s.chainsOf (crewOf k)).length < 16)
    (hlat : isLat k = true → (s.chains.filter fun e => e.2.crew.isNone && e.2.counting == [s.countKey k]).length < 16) :
    s.engo [k] engine ld sc a
      = .go (s.startChain k (s.newChain k engine (if engine = 2 then 384 + ld else s.coreOf k) sc a)) .next := by
  have hscratch : (!isLat k && !s.inOwnScratch (s.who k) (va57 (s.readReg k a), va57 (s.readReg k a) + 32)) = false := by
    cases hl : isLat k
    · simp [(hin hl).1]
    · rfl
  have hmine : (if isLat k then s.chains.filter fun e => e.2.crew.isNone && e.2.counting == [s.countKey k]
      else s.chainsOf (crewOf k)).length < 16 := by
    cases hl : isLat k
    · exact (hin hl).2
    · exact hlat hl
  have hfree : ¬(([k].any fun j => decide (15 ≤ (s.thread j).oc.cp) || !(s.pendingOf j).isEmpty) = true
      ∨ 16 ≤ (if isLat k then s.chains.filter fun e => e.2.crew.isNone && e.2.counting == [s.countKey k]
        else s.chainsOf (crewOf k)).length) := by
    simp [hp, hcp, Nat.not_le.2 hmine]
  simp only [State.engo, List.headD_cons, ha, ne_eq, not_true_eq_false, if_false, hscratch, Bool.false_eq_true, List.map_cons,
    List.map_nil, hfree, List.foldl_cons, List.foldl_nil]
  rfl

theorem State.advance_self (s : State) (k : Nat) : (s.advance k).thread k = (s.thread k).goTo (nextPc (s.thread k).pc) :=
  State.goTo_get_self ..

theorem State.startChain_self (s : State) (k : Nat) (c : Chain) :
    (s.startChain k c).thread k = { s.thread k with oc := { (s.thread k).oc with cp := (s.thread k).oc.cp + 1 } } :=
  AMap.get_set_self ..

/-! ### ENGQ (R382) -/

theorem Chain.shown_status (c : Chain) : c.shown.status = BitVec.ofNat 64 (c.idx % 65536 * 2 ^ 48
    + (if c.state = 3 ∨ c.state = 4 then 0 else c.cause) * 2 ^ 40 + min c.zsub 65535 * 2 ^ 24
    + if c.state = 3 ∨ c.state = 4 then 1 else c.state) := by
  by_cases h : c.state = 3 ∨ c.state = 4
  · simp only [Chain.status, Chain.shown, Bool.or_eq_true, beq_iff_eq, h, if_true]
  · simp only [Chain.status, Chain.shown, Bool.or_eq_true, beq_iff_eq, h, if_false]

/-- Settles O51: each instruction and row of a chain's life, by its one branch. -/
theorem chainLife : Obligations.ChainLife := by
  refine ⟨?_, ?_, ?_, ?_⟩
  · intro s k g sc a ha hcp hp addr makes inside
    have hmakes : ∀ (i : Instr) (kind : Kind) (regs : List Nat) (engine ld : Nat),
        exec i s = perCrew s i g regs kind .holds (fun grp s => s.engo grp engine ld sc a) → s.executes k g kind .holds regs →
        (isLat k = false → inside ∧ (s.chainsOf (crewOf k)).length < 16) →
        (isLat k = true → (s.chains.filter fun e => e.2.crew.isNone && e.2.counting == [s.countKey k]).length < 16) →
        makes i engine (if engine = 2 then 384 + ld else s.coreOf k) := by
      intro i kind regs engine ld hi h hin hlat
      refine ⟨_, _, hi.trans (perCrew_next h (State.engo_new ha hcp hp hin hlat)), rfl, rfl, rfl, rfl, ?_, rfl, rfl, rfl, rfl, rfl,
        rfl, ?_, ?_, rfl⟩
      · exact low57_eq_and _
      · rw [State.advance_self, State.startChain_self]
        rfl
      · rw [State.advance_self, State.startChain_self]
        rfl
    refine ⟨fun h hin hlen => ?_, fun die1 h hin hlat => ?_⟩
    · have hsimt := h.onSimt
      exact ⟨hmakes _ _ _ 0 0 rfl h (fun _ => ⟨hin, hlen⟩) (fun hl => by simp [hsimt] at hl),
        hmakes _ _ _ 1 0 rfl h (fun _ => ⟨hin, hlen⟩) (fun hl => by simp [hsimt] at hl)⟩
    · have := hmakes (.engoNet g die1 sc a) _ _ 2 (boolBit die1) rfl h hin hlat
      cases die1 <;> exact this
  · intro s k g d a h addr mine ha hin
    have halign : ¬(s.readReg k a).toNat % 32 ≠ 0 := not_not_intro ha
    have hscratch : (!isLat k && !s.inOwnScratch (s.who k) (va57 (s.readReg k a), va57 (s.readReg k a) + 8)) = false := by
      cases hl : isLat k
      · rw [show s.inOwnScratch (s.who k) (va57 (s.readReg k a), va57 (s.readReg k a) + 8) = true from hin hl]
        rfl
      · rfl
    refine ⟨fun e he => perThread_next h ?_, fun s1 bs hnone hr => perThread_next h ?_⟩
    · replace he : (s.chains.find? fun e => e.2.addr == low57 (s.readReg k a) && s.ownChain k e.2) = some e := he
      simp only [halign, if_false, hscratch, Bool.false_eq_true, he, Chain.shown_status]
    · replace hnone : (s.chains.find? fun e => e.2.addr == low57 (s.readReg k a) && s.ownChain k e.2) = none := hnone
      simp only [halign, if_false, hscratch, Bool.false_eq_true, hnone,
        show s.loadNow k (va57 (s.readReg k a)) 8 = _ from State.loadNow_reads (by decide) hr]
      rfl
  · intro s id c hf hst hack hpres ends t1 t2 t'
    have hst' : (c.state != 3 && c.state != 4) = false := by rcases hst with h | h <;> simp [h]
    have h2 : (c.state == 2) = false := by rcases hst with h | h <;> simp [h]
    have hall : s.allAcked id = true := by
      simp only [State.allAcked, List.all_eq_true, Bool.or_eq_true, bne_iff_ne]
      exact fun e he => or_iff_not_imp_left.2 fun hne => hack e he (not_not.1 hne)
    have hend : exec (.chainEnd id) s = .next (match c.crew with
        | some k => t'.reapCrew k
        | none => t') := by
      show execChainEnd id s = _
      simp only [execChainEnd, hf, h2, Bool.false_and, Bool.false_eq_true, if_false, hst', hall, hpres, Bool.not_true, Bool.or_false,
        Bool.not_false, Bool.and_true, beq_iff_eq, Bool.and_eq_true]
      rfl
    exact ⟨fun hc => by rw [hend, hc], fun k hc => by rw [hend, hc]⟩
  · intro s id c hf hturn
    have hrow : exec (.chainUnblock id) s = .next (if (c.state == 5 || (c.state == 2 && s.unblocked c)) = true
        then s.putChain id { c with state := 1 } else s) := by
      show execChainUnblock id s = _
      simp only [execChainUnblock, hf, hturn, Bool.true_and]
    exact ⟨fun hgo => by rw [hrow, if_pos (by simpa using hgo)], fun h2 hun => by rw [hrow, if_neg (by simp [h2, hun])]⟩

end Sys2Proof.Machine
end

section
/-!
PROOFS. Writes to memory leave the dies, the hardware threads, the network engines, the ports and the package registers as
they are.
-/
namespace Sys2Proof.Machine

/-- The units beside the cores and the stack controllers. -/
def State.units (s : State) : AMap Die × AMap Hart × AMap NetEngine × AMap Port × Pkg :=
  (s.dies, s.harts, s.nets, s.ports, s.pkg)

@[simp] theorem State.units_ite (c : Prop) [Decidable c] (s t : State) : (if c then s else t).units = if c then s.units else t.units :=
  apply_ite State.units c s t

section traffic
variable (s : State)

/-! ### The messages and the copies -/

@[simp] theorem State.post_units (m : Msg) : (s.post m).units = s.units := rfl
@[simp] theorem State.postAll_units (ms : List Msg) : (s.postAll ms).units = s.units := foldl_keeps (P := State.units) State.post_units ms s
@[simp] theorem State.unpost_units (id : Nat) : (s.unpost id).units = s.units := rfl
@[simp] theorem State.withMem_units (m : MemSys) : (s.withMem m).units = s.units := rfl
@[simp] theorem State.grant_units (m : Msg) (st : Option Moesi) (own : Bool) : (s.grant m st own).units = s.units := rfl
@[simp] theorem State.staleLine_units (core line : Nat) : (s.staleLine core line).units = s.units := rfl
@[simp] theorem State.staleEverywhere_units (p : Handle → Bool) : (s.staleEverywhere p).units = s.units := rfl
@[simp] theorem State.viewError_units (pa : Nat) : (s.viewError pa).units = s.units := rfl

/-! ### Stores at a home -/

@[simp] theorem State.surrender_units (row : Nat) : (s.surrender row).1.units = s.units := by
  unfold State.surrender; dsimp only; split <;> rfl

@[simp] theorem State.carryViews_units (line : Nat) (d : Line) (mask : BitVec 128) : (s.carryViews line d mask).units = s.units := rfl

@[simp] theorem State.strike_units (line : Nat) (d : Line) (mask : BitVec 128) (self : Nat) :
    (s.strike line d mask self).1.units = s.units := rfl

@[simp] theorem State.storeHome_units (fuel : Nat) (line : Nat) (d : Line) (mask : BitVec 128) (key vset self : Nat) :
    (State.storeHome fuel s line d mask key vset self).units = s.units := by
  induction fuel generalizing s line d mask key vset self with
  | zero => rfl
  | succ fuel ih =>
    unfold State.storeHome
    have hall : ∀ (l : List Copy) (s : State) (key vset self : Copy → Nat),
        (l.foldl (fun s c => State.storeHome fuel s c.line c.data c.dirty (key c) (vset c) (self c)) s).units = s.units :=
      fun l s key vset self => foldl_keeps (P := State.units) (fun s c => ih s _ _ _ _ _ _) l s
    split
    · rfl
    · split
      · extract_lets put r
        have hput : ∀ (q : State × Bool) (i : Nat), (put q i).1.units = q.1.units := by
          intro q i
          simp only [put]
          split
          · rfl
          · split
            · simp [ih, hall]
            · rfl
        have hr : r.1.units = s.units := foldl_keeps (P := fun q : State × Bool => q.1.units) hput _ _
        split <;> simp [hr]
      · simp [hall]

@[simp] theorem State.homeStore_units (line : Nat) (d : Line) (mask : BitVec 128) (key vset : Nat) :
    (s.homeStore line d mask key vset).units = s.units := State.storeHome_units s _ _ _ _ _ _ _

@[simp] theorem State.flushCopy_units (c : Copy) : (s.flushCopy c).units = s.units := by simp [State.flushCopy]

@[simp] theorem State.gatherViews_units (line : Nat) (mask : BitVec 128) (key vset : Nat) :
    (s.gatherViews line mask key vset).units = s.units := by
  refine foldl_keeps (P := State.units) (fun s b => ?_) _ s
  refine (foldl_keeps (P := State.units) State.flushCopy_units _ _).trans ?_
  split
  · rfl
  · exact (foldl_keeps (P := State.units) (fun s c => State.homeStore_units s _ _ _ _ _) _ _).trans (State.surrender_units s _)

/-! ### The home -/

@[simp] theorem State.recallFor_units (e : DirEntry) (m : Msg) (region : Option (Nat × Nat)) :
    (s.recallFor e m region).units = s.units := by simp [State.recallFor]

@[simp] theorem State.startEviction_units (v : DirEntry) : (s.startEviction v).units = s.units := by simp [State.startEviction]

@[simp] theorem State.nextEviction_units (line base cls : Nat) : (s.nextEviction line base cls).units = s.units := by
  unfold State.nextEviction; split
  · rfl
  · split <;> simp

@[simp] theorem State.performHome_units (m : Msg) : (s.performHome m).units = s.units := by
  unfold State.performHome; split <;> simp

@[simp] theorem State.forwardShared_units (m : Msg) (o : Nat) : (s.forwardShared m o).units = s.units := rfl

@[simp] theorem State.serveFrom_units (e : DirEntry) (m : Msg) : (s.serveFrom e m).units = s.units := by
  unfold State.serveFrom; dsimp only; split
  case h_1 | h_2 | h_3 => split <;> simp
  all_goals simp

@[simp] theorem State.homeHandle_units (m : Msg) : (s.homeHandle m).units = s.units := by
  unfold State.homeHandle; dsimp only; split
  · simp
  · split <;> simp

@[simp] theorem State.homeRequest_units (m : Msg) : (s.homeRequest m).units = s.units := by
  unfold State.homeRequest; split
  · simp
  · split <;> simp

@[simp] theorem State.finishTxn_units (line : Nat) : (s.finishTxn line).units = s.units := by
  unfold State.finishTxn; split
  · rfl
  · split
    · rfl
    · dsimp only; split
      iterate 4 simp
      · split <;> simp
      · simp

@[simp] theorem State.shareAfterForward_units (t : Txn) (line : Nat) (clear wasE : Bool) :
    (s.shareAfterForward t line clear wasE).units = s.units := by
  unfold State.shareAfterForward; split <;> simp

@[simp] theorem State.ownerAnswered_units (line : Nat) (t : Txn) (sent clear wasE : Bool) :
    (s.ownerAnswered line t sent clear wasE).units = s.units := by
  unfold State.ownerAnswered; dsimp only; split
  iterate 3 (split <;> simp)
  · simp

@[simp] theorem State.takeFwdDone_units (m : Msg) : (s.takeFwdDone m).units = s.units := by
  unfold State.takeFwdDone; split <;> simp

@[simp] theorem State.takeNoData_units (m : Msg) : (s.takeNoData m).units = s.units := by
  unfold State.takeNoData; split <;> simp

@[simp] theorem State.takeWbPending_units (m : Msg) : (s.takeWbPending m).units = s.units := by
  unfold State.takeWbPending; split <;> simp

@[simp] theorem State.takeAck_units (m : Msg) : (s.takeAck m).units = s.units := by
  unfold State.takeAck; split <;> simp

@[simp] theorem State.takeData_units (m : Msg) : (s.takeData m).units = s.units := by simp [State.takeData]

@[simp] theorem State.putDone_units (m : Msg) (e : DirEntry) : (s.putDone m e).units = s.units := by
  unfold State.putDone; dsimp only; split
  · split <;> simp
  · split
    · rw [State.withMem_units]; split <;> simp
    · rfl

@[simp] theorem State.putEntryDone_units (m : Msg) : (s.putEntryDone m).units = s.units := by
  unfold State.putEntryDone; split <;> simp

@[simp] theorem State.takePut_units (m : Msg) : (s.takePut m).units = s.units := by
  unfold State.takePut; dsimp only; split
  · split
    · rw [State.post_units, State.ownerAnswered_units]; split <;> simp
    · simp
  · simp

/-! ### The agents -/

@[simp] theorem State.takePutAck_units (m : Msg) : (s.takePutAck m).units = s.units := rfl
@[simp] theorem State.noCopy_units (m : Msg) : (s.noCopy m).units = s.units := rfl
@[simp] theorem State.sendPut_units (c : Copy) (retain : Bool) : (s.sendPut c retain).units = s.units := rfl

@[simp] theorem State.takeFwdS_units (m : Msg) : (s.takeFwdS m).units = s.units := by
  unfold State.takeFwdS; split
  · simp
  · split
    · simp
    · dsimp only; split <;> simp

@[simp] theorem State.takeFwdM_units (m : Msg) : (s.takeFwdM m).units = s.units := by
  unfold State.takeFwdM; dsimp only; split
  · rw [State.noCopy_units]; split <;> simp
  · split
    · simp
    · split
      · split <;> simp
      · simp

@[simp] theorem State.takeInv_units (m : Msg) : (s.takeInv m).units = s.units := by
  simp [State.takeInv]

@[simp] theorem State.takeGrant_units (m : Msg) : (s.takeGrant m).units = s.units := by
  unfold State.takeGrant; split
  · rfl
  · next st hst =>
    have h1 : (if st = .m then s.staleLine m.dst m.line else s).units = s.units := by split <;> rfl
    dsimp only
    split
    · exact h1
    · split
      · exact h1
      · split <;> exact h1

@[simp] theorem State.takeMsg_units (id : Nat) : (s.takeMsg id).units = s.units := by
  unfold State.takeMsg; split
  · rfl
  · split
    · rfl
    · dsimp only; split <;> simp

/-! ### Messages run to their end -/

@[simp] theorem State.startQueued_units (x : Msg) : (s.startQueued x).units = s.units := by
  unfold State.startQueued; split
  · simp
  · split <;> simp

@[simp] theorem State.settle_units (stop : MemSys → Bool) (line first fuel : Nat) : (s.settle stop line first fuel).units = s.units := by
  induction fuel generalizing s with
  | zero => rfl
  | succ fuel ih =>
    unfold State.settle; split
    · rfl
    · split
      · simp [ih]
      · split
        · simp [ih]
        · split <;> simp [ih]

@[simp] theorem State.request_units (m : Msg) : (s.request m).units = s.units :=
  (State.settle_units (s.post m) _ _ _ settleFuel).trans rfl

/-! ### Writes of hardware at physical addresses -/

@[simp] theorem State.homeWrite_units (agent line off : Nat) (bs : List Byte) (key vset : Nat) :
    (s.homeWrite agent line off bs key vset).units = s.units := State.request_units s _

@[simp] theorem State.pokeBytes_units (agent a : Nat) (bs : List Byte) (key : Nat) : (s.pokeBytes agent a bs key).units = s.units :=
  foldl_keeps (P := fun p : State × List Byte => p.1.units) (fun _ _ => State.homeWrite_units ..) _ (s, bs)

@[simp] theorem State.siltTouch_units (pa : Nat) : (s.siltTouch pa).units = s.units := by
  unfold State.siltTouch State.siltExpand; split
  · rfl
  · dsimp only; split
    · split <;> rfl
    · split <;> rfl

@[simp] theorem State.hwPut_units (a : Nat) (bs : List Byte) : (s.hwPut a bs).units = s.units := by simp [State.hwPut]
@[simp] theorem State.hwPutWord_units (a : Nat) (w : Word) : (s.hwPutWord a w).units = s.units := State.hwPut_units s a _

@[simp] theorem State.writeBackCopy_units (c : Copy) : (s.writeBackCopy c).units = s.units := by
  unfold State.writeBackCopy
  dsimp only
  split <;> simp

@[simp] theorem State.giveUp_units (c : Copy) (retain : Bool) : (s.giveUp c retain).units = s.units := by
  unfold State.giveUp
  split
  · simp
  · split
    · split <;> rfl
    · dsimp only
      split <;> rfl

@[simp] theorem State.putLine_units (agent line : Nat) (retain : Bool) : (s.putLine agent line retain).units = s.units := by
  unfold State.putLine
  split
  · rfl
  · exact (State.settle_units ..).trans (State.giveUp_units ..)

end traffic

end Sys2Proof.Machine
end

section
/-!
PROOFS. Control-space stores that act, and the registers that only hold their bits (R150, R167 to R171, R277, R299, R300,
R302, R326 to R331, R353).
-/
namespace Sys2Proof.Machine

variable {s : State} {d n : Nat} {v : Word}

/-! ### Migration (R169, R170) -/

theorem State.die_of_units {s t : State} (h : s.units = t.units) (d : Nat) : s.die d = t.die d :=
  congrArg (fun ds : AMap Die => ds.get d .zero) (congrArg Prod.fst h)

theorem State.putMigration_die (s : State) (d : Nat) (g : Migration) : ((s.putMigration d g).die d).migration = some g := by
  have h : (s.putMigration d g).die d = (s.modDie d fun x => { x with migration := some g }).die d :=
    State.die_of_units (State.hwPutWord_units ..) d
  rw [h, State.modDie_get_self]

theorem State.endCopy_die (s : State) (d : Nat) (g : Migration) :
    ((s.endCopy d g).die d).migration = some (if 128 * g.lines < g.len then g else { g with state := 1 }) := by
  unfold State.endCopy
  split <;> exact State.putMigration_die ..

/-- The migration that the descriptor of a store to MIGSTART asks for (R169). -/
def State.askedMigration (s : State) (v : Word) : Migration :=
  let a := fld v 51 6 * 64
  let w := fun (off : Nat) => s.hwWord (a + off)
  { desc := a, src := (w 0).toNat, dst := (w 8).toNat, len := fld (w 0x10) 34 0, skey := fld (w 0x10) 53 48, dkey := fld (w 0x10) 61 56,
    sweep := bitAt (w 0x10) 63, leaf := fld (w 0x20) 51 0, w0 := w 0x28, lines := 0, poisoned := 0, state := 0 }

/-- Whether that descriptor is refused. -/
def State.migrationRefused (s : State) (v : Word) : Bool :=
  migrationBad (fun off => s.hwWord (fld v 51 6 * 64 + off)) (fld (s.hwWord (fld v 51 6 * 64 + 0x10)) 34 0)

section descriptor
variable (hm : (s.die d).migration = none)
include hm

theorem State.startMigration_refused (h : s.migrationRefused v = true) :
    s.startMigration d v = s.putMigration d { s.askedMigration v with state := 3 } := by
  unfold State.migrationRefused at h
  simp only [State.startMigration, hm, Bool.false_eq_true, if_false, h, if_true]
  rfl

theorem State.startMigration_taken (h : s.migrationRefused v = false) : s.startMigration d v
    = (if (s.askedMigration v).sweep then s.sweep (s.askedMigration v) else s).endCopy d (s.askedMigration v) := by
  unfold State.migrationRefused at h
  simp only [State.startMigration, hm, Bool.false_eq_true, if_false, h]
  rfl

end descriptor

theorem exec_migstart (hd : d < 8) (v : Word) : exec (.migstart d v) s = .next (s.startMigration d v) :=
  congrArg _ (if_pos (decide_eq_true hd))

/-! ### Silt (R167, R168) -/

theorem State.cleanRange_none (h : s.mem.copies = []) (a n : Nat) : s.cleanRange a n = s := by
  simp [State.cleanRange, h]

/-- A compressed unit takes a free frame. -/
theorem exec_siltExpansion {unit : Nat} (hc : (s.stk (unit / 2 ^ 20)).compressed.contains (unit % 2 ^ 20) = true)
    (hroom : (s.stk (unit / 2 ^ 20)).expanded.length < fld (s.stk (unit / 2 ^ 20)).poollen 31 0) :
    exec (.siltExpansion unit) s = .next (s.setStk (unit / 2 ^ 20) { s.stk (unit / 2 ^ 20) with
      compressed := (s.stk (unit / 2 ^ 20)).compressed.filter (· != unit % 2 ^ 20)
      expanded := (unit % 2 ^ 20) :: (s.stk (unit / 2 ^ 20)).expanded }) := by
  refine congrArg _ (if_neg ?_)
  simp only [unitsPerStack, hc, Bool.not_true, Bool.false_or]
  exact fun h => Nat.not_le.2 hroom (of_decide_eq_true h)

/-! ### Registers that hold their bits -/

theorem keepBits_eq_and (w : Word) (hi lo : Nat) :
    keepBits w hi lo = w &&& BitVec.ofNat 64 ((2 ^ (hi + 1 - lo) - 1) * 2 ^ lo) := by
  apply BitVec.eq_of_getLsbD_eq
  intro i hi'
  simp only [keepBits, word, fld, BitVec.getLsbD_ofNat, hi', decide_true, Bool.true_and, BitVec.getLsbD_and, Nat.testBit_mul_two_pow,
    Nat.testBit_mod_two_pow, Nat.testBit_div_two_pow, Nat.testBit_two_pow_sub_one]
  by_cases hl : lo ≤ i
  · rw [Nat.sub_add_cancel hl, BitVec.getLsbD, Bool.and_comm (w.toNat.testBit i), Bool.and_assoc]
  · simp [hl]

/-! ### RCINV, SIGCTL (R277, R353) -/

theorem State.flushLeft_self (s : State) (d : Nat) : s.flushLeft s d = s := by
  unfold State.flushLeft
  refine List.foldl_fixed' (fun e => if_neg ?_) _
  exact fun ⟨h, hn⟩ => hn h

theorem State.invalidateRegions_none (h : (s.die d).regions = []) :
    s.invalidateRegions d v = s.modDie d fun x => { x with rcAddr := v &&& 0x01FFFFFFFFFFFF00 } := by
  simp only [State.invalidateRegions, h, List.filter_nil, List.foldl_nil, State.flushLeft_self, keepBits_eq_and v]
  rfl

/-! ### Hardware threads (R300, R302) -/

theorem State.keepCounters_frameAt (s : State) (n a : Nat) : (s.keepCounters n).frameAt a = s.frameAt a := by
  unfold State.keepCounters
  dsimp only
  split
  · rfl
  · split <;> rfl

theorem State.arriving_regs (s : State) (t : Thread) : (s.arriving t).regs = t.regs := by
  unfold State.arriving
  split
  · rfl
  · split <;> rfl

theorem State.loadHart_thread (s : State) (n a : Nat) : ((s.loadHart n a).thread n).regcnt = 64
    ∧ ∀ r, 0 < r → r < 64 → ((s.loadHart n a).thread n).reg r = (s.frameAt a).getD r 0 := by
  have h : (s.loadHart n a).thread n = _ := State.setThread_get_self ..
  rw [h]
  refine ⟨rfl, fun r h0 h64 => ?_⟩
  simp only [Thread.reg, h64, dif_pos, State.arriving_regs, State.keepCounters_frameAt]
  simp [threadOfFrame, h0.ne']

theorem State.loadHart_hart (s : State) (n a : Nat) :
    (s.loadHart n a).hart n = { s.hart n with run := true, load := none, yielded := false } := by
  have hkeep : (s.keepCounters n).hart n = s.hart n := by
    unfold State.keepCounters
    dsimp only
    split
    · rfl
    · split <;> rfl
  have h : (s.loadHart n a).hart n = _ := State.modHart_get_self ..
  rw [h, ← hkeep]
  rfl

/-- An edge interrupt stands with every hardware thread. -/
theorem State.edgeAll_pending (s : State) (hn : n < 256) : ((s.edgeAll 4).hart n).ipend.getLsbD 4 = true := by
  have hfold : ∀ (l : List Nat) (s : State), n ∈ l ∨ (s.hart n).ipend.getLsbD 4 = true →
      ((l.foldl (fun s m => s.modHart m fun h => { h with ipend := h.ipend ||| (1#8 <<< 4) }) s).hart n).ipend.getLsbD 4 = true := by
    intro l
    induction l with
    | nil => simp
    | cons m l ih =>
      intro s h
      refine ih _ ?_
      by_cases hm : n = m
      · subst hm
        right
        rw [State.modHart_get_self]
        simp
      · rw [State.modHart_get_ne _ _ _ hm]
        simpa [hm] using h
  exact hfold _ s (.inl (List.mem_range.2 hn))

/-! ### Reading and writing registers (R327) -/

/-- The register that an offset in a unit's block reads as. -/
def State.readUnit (s : State) : CtlUnit × Nat → Word
  | (.pkg, o) => s.readPkg o
  | (.die d, o) => s.readDie d o
  | (.stack n, o) => s.readStack n o
  | (.net n, o) => s.readNet n o
  | (.port n, o) => s.readPort n o

theorem State.ctlRead_place (s : State) {off : Nat} {p : CtlUnit × Nat} (h : ctlPlace off = some p) : s.ctlRead off = s.readUnit p := by
  have hoff : ¬off < 4096 := by
    intro hlt
    rw [ctlPlace, if_pos (show off < blockBytes from by simp only [blockBytes]; omega)] at h
    cases h
  simp only [State.ctlRead, hoff, if_false, h]
  cases p with
  | mk u o => cases u <;> rfl

/-- Settles O58: each store by the branch that it takes. -/
theorem controlStores : Obligations.ControlStores := by
  refine ⟨?migstart, ?copying, ?silt, ?dies, ?harts, ?counters, ?registers⟩
  case migstart =>
    intro s d v hd hm a w len
    refine ⟨_, exec_migstart hd v, ?_⟩
    cases hb : s.migrationRefused v with
    | true =>
      rw [State.startMigration_refused hm hb]
      exact ⟨_, State.putMigration_die .., rfl, rfl, rfl, rfl, rfl, fun _ => rfl, fun h => absurd (hb.symm.trans h) (by simp)⟩
    | false =>
      rw [State.startMigration_taken hm hb]
      refine ⟨_, State.endCopy_die .., ?_⟩
      have hno : ∀ {p : Prop}, migrationBad w len = true → p := fun h => absurd (hb.symm.trans h) (by simp)
      by_cases hlen : len = 0
      · rw [if_neg (show ¬128 * (s.askedMigration v).lines < (s.askedMigration v).len from Nat.not_lt.2 hlen.le)]
        exact ⟨rfl, rfl, rfl, rfl, rfl, hno, fun _ => (if_pos hlen).symm⟩
      · rw [if_pos (show 128 * (s.askedMigration v).lines < (s.askedMigration v).len from Nat.pos_of_ne_zero hlen)]
        exact ⟨rfl, rfl, rfl, rfl, rfl, hno, fun _ => (if_neg hlen).symm⟩
  case copying =>
    intro s d g hm
    refine ⟨fun h0 hh hsrc hdst s1 b hcopy => ?_, fun v h1 hdesc => ⟨s.releaseMigration d v, rfl, ?_⟩⟩
    · show execMigrationLineCopy d s = _
      have hready : (s.siltReady (128 * (lineOf g.src + g.lines)) && s.siltReady (128 * (lineOf g.dst + g.lines))) = true :=
        Bool.and_eq_true_iff.2 ⟨hsrc, hdst⟩
      simp [execMigrationLineCopy, hm, h0, hh, hready, hcopy]
    · have hr : s.releaseMigration d v = (if g.sweep then s.sweep g else s).putMigration d { g with state := 2 } := by
        simp [State.releaseMigration, hm, h1, hdesc]
      rw [hr]
      exact State.putMigration_die ..
  case silt =>
    intro s unit hunit st u
    have hst : st < 16 := by omega
    refine ⟨fun hc he hv hh => ⟨?_, fun hnone => State.cleanRange_none hnone ..⟩, fun hc hroom => ⟨_, exec_siltExpansion hc hroom, ?_⟩⟩
    · show execSiltCompress unit s = _
      have hstay : (decide (Config.hbmStacks ≤ unit / unitsPerStack) || (s.stk (unit / unitsPerStack)).compressed.contains (unit % unitsPerStack)
          || !s.siltEligible (unit / unitsPerStack) (unit % unitsPerStack) || s.inViewset (unit / unitsPerStack) (unit % unitsPerStack)
          || s.halted) = false := by
        rw [show unit / unitsPerStack = st from rfl, show unit % unitsPerStack = u from rfl, hc, he, hv, hh,
          decide_eq_false (show ¬Config.hbmStacks ≤ st from Nat.not_le.2 hst)]
        rfl
      simp only [execSiltCompress, hstay, Bool.false_eq_true, if_false]
      rfl
    · rw [State.setStk_get_self]
      exact ⟨rfl, rfl, rfl, rfl⟩
  case dies =>
    intro s d v hd
    refine ⟨fun hr => ?_, fun f k c hfind hta hreg hc hres => ?_, fun hb => ?_, fun e c hb hfind hc ht => ?_⟩
    · exact (congrArg _ (if_pos hd)).trans (congrArg _ (State.invalidateRegions_none hr))
    · show Host.Outcome.next (s.returnThread d v) = _
      simp only [State.returnThread, hfind, hta, hreg, hc, hres, Bool.not_true, bne_self_eq_false, Bool.or_self, Bool.false_eq_true,
        if_false, Option.any_some, beq_self_eq_true, if_true]
    · refine (congrArg _ (if_pos hd)).trans ?_
      simp only [State.sendSignal, hb, if_true]
    · have hs : s.sendSignal d v = (s.modThread e.1 fun t => { t with
          signals := t.signals ++ [word (fld v 15 0)], trap := { t.trap with sigp := true } }).modDie d
            fun x => { x with sigResult := 0 } := by
        simp only [State.sendSignal, hb, Bool.false_eq_true, if_false]
        split
        · next hnone => exact absurd (hnone.symm.trans hfind) (by simp)
        · next e' he =>
          obtain rfl := Option.some.inj (he.symm.trans hfind)
          rfl
      refine ⟨s.sendSignal d v, congrArg _ (if_pos hd), ?_⟩
      rw [hs, State.modDie_get_thread, State.modThread_get_self, State.modDie_get_self, ht]
      exact ⟨rfl, rfl, rfl⟩
  case harts =>
    intro s by' n v hn f
    have hload : exec (.htload by' n v) s = .next (s.htLoad by' n v) := congrArg _ (if_pos hn)
    have hiset : exec (.iset n v) s = .next (s.setSoft n v) := congrArg _ (if_pos hn)
    refine ⟨fun hf => ⟨_, hload, ?_⟩, fun hf hby => ⟨_, hload, ?_⟩, fun hf hby hrun => ⟨_, hload, ?_⟩, fun hb => ⟨_, hiset, ?_⟩,
      fun hb => ?_, ⟨_, rfl, ?_⟩⟩
    · rw [State.htLoad, show s.frameValid (fld v 51 10 * 1024) = false from hf]
      simp only [Bool.not_false, if_true, State.modHart_get_self]
      exact ⟨trivial, rfl⟩
    · rw [State.htLoad, show s.frameValid (fld v 51 10 * 1024) = true from hf]
      simp only [Bool.not_true, Bool.false_eq_true, if_false, hby, if_true, State.modHart_get_self]
      exact ⟨rfl, trivial, rfl⟩
    · have hl : s.htLoad by' n v = (s.modHart n fun h => { h with rej := false }).loadHart n f := by
        rw [State.htLoad, show s.frameValid (fld v 51 10 * 1024) = true from hf]
        simp only [Bool.not_true, Bool.false_eq_true, if_false, hby, hrun]
        rfl
      obtain ⟨hcnt, hregs⟩ := State.loadHart_thread (s.modHart n fun h => { h with rej := false }) n f
      rw [hl]
      refine ⟨?_, ?_, hcnt, hregs⟩
      · rw [State.loadHart_hart]
      · rw [State.loadHart_hart, State.modHart_get_self]
    · rw [State.setSoft, if_pos hb]
      exact ⟨congrArg Hart.ipend (State.modHart_get_self ..), rfl, fun m hm => State.modHart_get_ne _ _ _ hm⟩
    · rw [hiset, State.setSoft, if_neg (by simp [hb])]
    · obtain ⟨hs, he⟩ := State.edgeAll_eq { s with pkg := { s.pkg with hostdb := v } } 4
      refine ⟨?_, ?_, ?_⟩
      · show (State.edgeAll { s with pkg := { s.pkg with hostdb := v } } 4).pkg.hostdb = v
        rw [he]
      · exact State.edgeAll_pending _ hn
      · show (State.edgeAll { s with pkg := { s.pkg with hostdb := v } } 4).mem = s.mem
        rw [he]
  case counters =>
    intro s off hcount
    refine ⟨s.ctlWrite noThread off 0, congrArg _ (if_pos hcount), ?_⟩
    cases hp : ctlPlace off with
    | none => rw [hp] at hcount; exact absurd hcount (by simp [isCounter])
    | some p =>
      rw [hp] at hcount
      rw [State.ctlRead_place _ hp]
      obtain ⟨u, o⟩ := p
      cases u with
      | pkg =>
        obtain rfl : o = 0x040 := by simpa [isCounter] using hcount
        simp only [State.ctlWrite, hp]
        exact ⟨rfl, rfl⟩
      | die d =>
        obtain rfl : o = 0x030 := by simpa [isCounter] using hcount
        simp only [State.ctlWrite, hp]
        exact ⟨congrArg (fun x : Die => word x.malcnt) (State.modDie_get_self ..), rfl⟩
      | stack n =>
        have ho : o = 0x220 ∨ o = 0x228 ∨ o = 0x230 := by simpa [isCounter, or_assoc] using hcount
        simp only [State.ctlWrite, hp]
        rcases ho with rfl | rfl | rfl
        · exact ⟨congrArg (fun x : Stack => word x.throt) (State.setStk_get_self ..), rfl⟩
        · exact ⟨congrArg (fun x : Stack => word x.verr) (State.setStk_get_self ..), rfl⟩
        · exact ⟨congrArg (fun x : Stack => word x.spol) (State.setStk_get_self ..), rfl⟩
      | net n =>
        obtain rfl : o = 0x010 := by simpa [isCounter] using hcount
        simp only [State.ctlWrite, hp]
        exact ⟨congrArg (fun x : NetEngine => word x.notgt) (State.setNet_get_self ..), rfl⟩
      | port n =>
        obtain rfl : o = 0x008 := by simpa [isCounter] using hcount
        simp only [State.ctlWrite, hp]
        exact ⟨congrArg (fun x : Port => word x.downcnt) (State.setPort_get_self ..), rfl⟩
  case registers =>
    intro s off v hcount hown
    refine ⟨congrArg _ (if_neg (by simp [hcount, hown])), fun d hd hp => ?_, fun hp => ?_⟩
    · rw [State.ctlRead_place _ hp]
      simp only [State.ctlWrite, hp]
      show ((s.modDie d fun x => { x with savebase := keepBits v 51 12 }).die d).savebase = _
      rw [State.modDie_get_self]
      exact keepBits_eq_and v ..
    · rw [State.ctlRead_place _ hp]
      simp only [State.ctlWrite, hp]
      exact keepBits_eq_and v ..

end Sys2Proof.Machine
end

section
/-!
PROOFS. The scratch of a crew as its chains reach it (R74, R84, R136): what they read, and what a store there changes.
-/
namespace Sys2Proof.Machine

variable {s t : State} {c : Chain} {cr : Crew} {off n : Nat}

/-! ### A bank's bytes -/

theorem Memory.bytes_slice (m : Memory) (a : Nat) {n i k : Nat} (h : i + k ≤ n) :
    ((m.bytes a n).drop i).take k = m.bytes (a + i) k := by
  refine List.ext_getElem (by simp [Memory.bytes]; omega) fun j h1 h2 => ?_
  simp [Memory.bytes, Nat.add_assoc]

/-- The bytes of the bank that a crew stands in. -/
def State.bankOf (s : State) (cr : Crew) : Memory := ((s.core cr.core).bank cr.bank).bytes

/-- Two states that differ in the contents of the crew's bank at most, whose core has no bad word. -/
structure State.AsideBank (cr : Crew) (s t : State) : Prop where
  threads : t.threads = s.threads
  crews : t.crews = s.crews
  mem : t.mem = s.mem
  chains : t.chains = s.chains
  ctxs : (t.core cr.core).ctxs = (s.core cr.core).ctxs
  sound : (s.core cr.core).badParity = [] → (t.core cr.core).badParity = []

theorem State.AsideBank.refl : State.AsideBank cr s s := ⟨rfl, rfl, rfl, rfl, rfl, id⟩

theorem State.AsideBank.trans {u : State} (h : State.AsideBank cr s t) (h' : State.AsideBank cr t u) : State.AsideBank cr s u :=
  ⟨h'.threads.trans h.threads, h'.crews.trans h.crews, h'.mem.trans h.mem, h'.chains.trans h.chains, h'.ctxs.trans h.ctxs,
    h'.sound ∘ h.sound⟩

theorem Core.bank_setBank (c : Core) (b : Bool) (k : Bank) : (c.setBank b k).bank b = k := by cases b <;> rfl

theorem State.putLoam_aside (s : State) (cr : Crew) (off : Nat) (bs : List Byte) :
    State.AsideBank cr s (s.putLoam cr.core cr.bank off bs) := by
  refine ⟨rfl, rfl, rfl, rfl, ?_, fun h => ?_⟩ <;> rw [State.putLoam, State.modCore_get_self]
  · cases cr.bank <;> rfl
  · have : ((s.core cr.core).setBank cr.bank
        { (s.core cr.core).bank cr.bank with bytes := ((s.core cr.core).bank cr.bank).bytes.puts off bs }).badParity = [] := by
      cases cr.bank <;> exact h
    simp [Core.goodParity, this]

theorem State.putLoam_bankOf (s : State) (cr : Crew) (off : Nat) (bs : List Byte) :
    (s.putLoam cr.core cr.bank off bs).bankOf cr = (s.bankOf cr).puts off bs := by
  rw [State.bankOf, State.putLoam, State.modCore_get_self]
  show Bank.bytes (Core.bank (Core.setBank ..) _) = _
  rw [Core.bank_setBank]
  rfl

theorem State.setTag_aside (s : State) (cr : Crew) (off : Nat) (f : Nat × Bool) :
    State.AsideBank cr s (s.setTag cr.core cr.bank off f) := by
  refine ⟨rfl, rfl, rfl, rfl, ?_, fun h => ?_⟩ <;> rw [State.setTag, State.modCore_get_self]
  · cases cr.bank <;> rfl
  · cases cr.bank <;> exact h

theorem State.setTag_bankOf (s : State) (cr : Crew) (off : Nat) (f : Nat × Bool) :
    (s.setTag cr.core cr.bank off f).bankOf cr = s.bankOf cr := by
  rw [State.bankOf, State.setTag, State.modCore_get_self]
  rw [Core.bank_setBank]
  rfl

/-! ### A chain whose crew stands in its slot -/

/-- The crew of a chain, for which the window addresses of its scratch hold. -/
structure State.ScratchOf (s : State) (c : Chain) (cr : Crew) : Prop where
  crew : c.crew.bind s.crews.find = some cr
  mapped : c.sup = false ∨ ((s.core cr.core).ctxOf cr.asid).pgroot ≠ 0
  sound : (s.core cr.core).badParity = []
  fits : cr.base + (cr.lsg + 2) * 16384 ≤ 2 ^ 22
  window : ((s.core cr.core).ctxOf cr.asid).loamva.toNat % 2 ^ 57 + 2 ^ 26 ≤ 2 ^ 57

theorem State.AsideBank.scratchOf (h : State.AsideBank cr s t) (hs : s.ScratchOf c cr) : t.ScratchOf c cr := by
  have hctx : (t.core cr.core).ctxOf cr.asid = (s.core cr.core).ctxOf cr.asid := by rw [Core.ctxOf, h.ctxs]; rfl
  exact ⟨by rw [h.crews]; exact hs.crew, by rw [hctx]; exact hs.mapped, h.sound hs.sound, hs.fits, by rw [hctx]; exact hs.window⟩

theorem State.crewChain.scratchOf {id : Nat} (h : s.crewChain id c cr) : s.ScratchOf c cr := by
  obtain ⟨-, -, -, hcrew, hmap, hsound, hfits, hwin, -⟩ := h
  exact ⟨hcrew, hmap, hsound, hfits, hwin⟩

/-- Where the crew's window begins. -/
def State.windowOf (s : State) (cr : Crew) : Nat := ((s.core cr.core).ctxOf cr.asid).loamva.toNat % 2 ^ 57

namespace State.ScratchOf
variable (h : s.ScratchOf c cr)
include h

theorem chainWho_eq : s.chainWho c = ⟨cr.core, (s.core cr.core).ctxOf cr.asid, c.sup, false, c.crew.getD 0, cr.seq⟩ := by
  simp only [State.chainWho, h.crew]

theorem find_crew : s.crews.find (c.crew.getD 0) = some cr := by
  have hc := h.crew
  cases hcrew : c.crew with
  | none => simp [hcrew] at hc
  | some k => simpa [hcrew] using hc

/-- An address whose offset lies in the crew's allocation. -/
theorem place {o : Nat} (hn : 0 < n) (hlo : cr.base ≤ o) (hhi : o + n ≤ cr.base + cr.lsg * 16384) (acc : AccKind) :
    s.place (s.chainWho c) (s.windowOf cr + o) n acc = (s, .loam cr.core o (.bytes cr.bank)) := by
  have hfits := h.fits
  have hsub : s.windowOf cr + o - s.windowOf cr = o := Nat.add_sub_cancel_left ..
  have hp := State.place_own (s := s) (w := s.chainWho c) (c := cr) (va := s.windowOf cr + o) (n := n)
    (by rw [h.chainWho_eq]) (by rw [h.chainWho_eq]; exact h.mapped) (by rw [h.chainWho_eq]; exact h.find_crew)
    (by rw [h.chainWho_eq]; exact Nat.le_add_right ..) hn
    (by rw [h.chainWho_eq]; show s.windowOf cr + o - s.windowOf cr + n ≤ _; omega)
    (by
      rw [h.chainWho_eq]
      show cr.inAlloc (s.windowOf cr + o - s.windowOf cr) n = true
      simp only [hsub, Crew.inAlloc, granule, Bool.and_eq_true, decide_eq_true_iff]
      omega) acc
  rw [hp]
  have hva : s.windowOf cr + o - (s.chainWho c).ctx.loamva.toNat % 2 ^ 57 = o := by rw [h.chainWho_eq]; exact hsub
  rw [hva]
  rw [h.chainWho_eq]

theorem engineLoam_eq (o : Nat) (n : Nat) : s.engineLoam cr.core o n (.bytes cr.bank) = (s, (s.bankOf cr).bytes o n, []) := by
  have hbad : s.spotBad cr.core (.bytes cr.bank) o n = [] :=
    State.spotBad_bytes (by simp [Core.badIn, h.sound])
  simp only [State.engineLoam, hbad, badWordsOf, List.map_nil, List.dedup_nil, List.foldl_nil, List.contains_nil, Bool.false_eq_true,
    if_false, State.readSpot, List.zipIdx_map_fst]
  rfl

theorem engineGet_eq {o : Nat} (hn : 0 < n) (hlo : cr.base ≤ o) (hhi : o + n ≤ cr.base + cr.lsg * 16384) :
    s.engineGet (s.chainWho c) (s.windowOf cr + o) n = (s, (s.bankOf cr).bytes o n, [], none) := by
  simp only [State.engineGet, h.place hn hlo hhi, h.engineLoam_eq]

theorem enginePut_eq {o : Nat} {bs : List Byte} (hn : 0 < bs.length) (hlo : cr.base ≤ o)
    (hhi : o + bs.length ≤ cr.base + cr.lsg * 16384) (agent : Nat) :
    s.enginePut (s.chainWho c) agent (s.windowOf cr + o) bs = (s.putLoam cr.core cr.bank o bs, none) := by
  simp only [State.enginePut, h.place hn hlo hhi, State.writeSpot]

theorem tagAt_eq {o : Nat} (hlo : cr.base ≤ o) (hhi : o + 1 ≤ cr.base + cr.lsg * 16384) (f : Nat × Bool) :
    s.tagAt (s.chainWho c) (s.windowOf cr + o) f = s.setTag cr.core cr.bank o f := by
  simp only [State.tagAt, h.place Nat.one_pos hlo hhi, State.spotBank]

theorem chainBase_eq : s.chainBase c = s.windowOf cr + cr.base := by
  simp only [State.chainBase, h.crew]
  rfl

theorem chainArea_eq : s.chainArea c = cr.lsg * 16384 := by
  simp only [State.chainArea, h.crew]
  rfl

theorem areaGet_eq (hn : 0 < n) (hhi : off + n ≤ cr.lsg * 16384) : s.areaGet c off n = (s, .inl (s.scratch cr off n, 0)) := by
  have hget := h.engineGet_eq (o := cr.base + off) hn (Nat.le_add_right ..) (by omega)
  simp only [State.areaGet, h.chainArea_eq, Nat.not_lt.2 hhi, if_false, h.chainBase_eq, Nat.add_assoc, hget, List.dedup_nil,
    List.length_nil]
  rfl

theorem areaPut_eq {bs : List Byte} (hn : 0 < bs.length) (hhi : off + bs.length ≤ cr.lsg * 16384) :
    s.areaPut c off bs = s.putScratch cr off bs := by
  have hput := h.enginePut_eq (o := cr.base + off) hn (Nat.le_add_right ..) (by omega) hwAgent
  simp only [State.areaPut, h.chainArea_eq, Nat.not_lt.2 hhi, if_false, h.chainBase_eq, Nat.add_assoc, hput]
  rfl

theorem countChain_eq (o : Nat) : s.countChain c o = (s, 0) := by
  have hbad : s.specBad cr o 16 = [] := by simp [State.specBad, Core.badIn, h.sound]
  simp only [State.countChain, h.crew, State.countSpec, hbad, List.foldl_nil, List.length_nil]

theorem chainBuffer_eq {k : Nat} (hv : cbValid cr (s.cbCfg cr k) = true) :
    s.chainBuffer c k = some (cr, s.cbCfg cr k, s.cbCtr cr k) := by
  simp only [State.chainBuffer, h.crew, hv, if_true]

theorem chainRing_eq {k : Nat} (hv : ringValid (s.ringCfg cr k) = true) :
    s.chainRing c k = some (cr, s.ringCfg cr k, s.ringCtr cr k) := by
  simp only [State.chainRing, h.crew, hv, if_true]

theorem recordAt_eq (ha : off % 32 = 0) (hhi : off + 32 ≤ cr.lsg * 16384) :
    s.recordAt c off = (s, .inl (tileOfBytes (s.scratch cr off 32), 0)) := by
  simp only [State.recordAt, ha, ne_eq, not_true_eq_false, if_false, h.areaGet_eq (by decide : 0 < 32) hhi]

theorem tableIndex_eq {tab k : Nat} (hhi : tab + 4 * k + 4 ≤ cr.lsg * 16384) :
    s.tableIndex c tab k = (s, .inl (bytesToNat (s.scratch cr (tab + 4 * k) 4), 0)) := by
  simp only [State.tableIndex, h.areaGet_eq (by decide : 0 < 4) hhi]

theorem areaElems_eq {size : Nat} (hs : 0 < size) (hn : 0 < n) (ha : off % size = 0) (hhi : off + n * size ≤ cr.lsg * 16384) :
    s.areaElems c off n size = (s, .inl (s.scratchElems cr off n size, 0)) := by
  have hslice : ∀ j ∈ List.range n, bytesToNat (((s.scratch cr off (n * size)).drop (size * j)).take size)
      = bytesToNat (s.scratch cr (off + size * j) size) := by
    intro j hj
    have hj' : size * j + size ≤ n * size := by
      rw [← Nat.mul_succ, Nat.mul_comm]
      exact Nat.mul_le_mul_right _ (List.mem_range.1 hj)
    rw [State.scratch, State.loamBytes, Memory.bytes_slice _ _ hj', Nat.add_assoc]
    rfl
  simp only [State.areaElems, ha, ne_eq, not_true_eq_false, if_false, h.areaGet_eq (Nat.mul_pos hn hs) hhi, State.scratchElems,
    List.map_congr_left hslice]

end State.ScratchOf

end Sys2Proof.Machine
end

section
/-!
PROOFS. An entry of a chain, once it is read: what runs, and the entries of all engines (R139, R140, R141).
-/
namespace Sys2Proof.Machine

variable {s s1 : State} {id ty : Nat} {c : Chain} {ws : Word × Word × Word × Word}

/-! ### The entry that is reached runs (R141) -/

/-- What an entry that has run makes of the state; `c0` is its chain as it was read. -/
def EntryRes.after (s : State) (id : Nat) (c0 : Chain) (z : Nat) : EntryRes → State
  | .go s3 c' => s3.putChain id c'
  | .block s3 zs => s3.putChain id { c0 with state := 2, zsub := c0.zsub + zs }
  | .fail s3 cause fault done zs => s3.failEntry id c0 cause fault done (z + zs)
  | .skip => s

theorem State.atEntry.runs (h : s.atEntry id ty c s1 ws) : ∃ c0 z, c0.idx = c.idx ∧
    (∀ body, runEntry s id ty body = .next ((body s1 c ws).after s id c0 z)) ∧ ∀ ty' body, ty' ≠ ty → runEntry s id ty' body = .next s := by
  obtain ⟨c0, z, bs, s0, hf, hst, hturn, rfl, hidx, hs0, hget, rfl, hty, hallow, hres⟩ := h
  have hrun : ((c0.state != 0 && c0.state != 1) || !s.chainTurn id c0) = false := by
    rcases hst with h0 | h0 <;> simp [h0, hturn]
  have hidx' : ¬65535 < c0.idx := by simp only at hidx; omega
  have hs1 : (if c0.state == 0 then s.areaPut { c0 with state := 1 } (s.headerOff { c0 with state := 1 }) (List.replicate 24 0) else s) = s0 := by
    rw [hs0]
    simp only [beq_iff_eq]
    rfl
  have hget' : s0.areaGet { c0 with state := 1 } (s.headerOff { c0 with state := 1 } + 32 + 32 * c0.idx) 32 = (s1, .inl (bs, z)) := by
    rw [← hget]
    rfl
  have hok : (!typeAllowed c0.engine (fld (wordOf bs 0) 7 0)
      || entryReserved (fld (wordOf bs 0) 7 0) (wordOf bs 0) (wordOf bs 8) (wordOf bs 16) (wordOf bs 24)) = false := by
    rw [hty, show typeAllowed c0.engine ty = true from hallow, hres]
    rfl
  replace hty : fld (wordOf bs 0) 7 0 = ty := hty
  refine ⟨{ c0 with state := 1 }, z, rfl, fun body => ?_, fun ty' body hne => ?_⟩
  · simp only [runEntry, hf, hrun, Bool.false_eq_true, if_false, hs1, hidx', hget']
    rw [hok, if_neg Bool.false_ne_true, if_neg (not_not_intro hty)]
    generalize body s1 _ _ = r
    cases r <;> rfl
  · simp only [runEntry, hf, hrun, Bool.false_eq_true, if_false, hs1, hidx', hget']
    rw [hok, if_neg Bool.false_ne_true, if_pos (hty.trans_ne hne.symm)]

/-- The entry goes on with the state and the chain that its body gives. -/
theorem State.atEntry.go (h : s.atEntry id ty c s1 ws) {body : State → Chain → Word × Word × Word × Word → EntryRes} {s2 : State}
    {c' : Chain} (hb : body s1 c ws = .go s2 c') : runEntry s id ty body = .next (s2.putChain id c') := by
  obtain ⟨c0, z, -, hrun, -⟩ := h.runs
  rw [hrun, hb]
  rfl

/-- The entry blocks its chain at the same place. -/
theorem State.atEntry.block (h : s.atEntry id ty c s1 ws) {body : State → Chain → Word × Word × Word × Word → EntryRes} {s2 : State}
    {zs : Nat} (hb : body s1 c ws = .block s2 zs) :
    ∃ c', runEntry s id ty body = .next (s2.putChain id c') ∧ c'.state = 2 ∧ c'.idx = c.idx := by
  obtain ⟨c0, z, hidx, hrun, -⟩ := h.runs
  rw [hrun, hb]
  exact ⟨_, rfl, rfl, hidx⟩

theorem State.atEntry.skip (h : s.atEntry id ty c s1 ws) {ty' : Nat} {body : State → Chain → Word × Word × Word × Word → EntryRes}
    (hb : ty' = ty → body s1 c ws = .skip) : runEntry s id ty' body = .next s := by
  obtain ⟨c0, z, -, hrun, hother⟩ := h.runs
  by_cases hty : ty' = ty
  · subst hty
    rw [hrun, hb rfl]
    rfl
  · exact hother _ _ hty

/-! ### The entries of all engines (R139, R140) -/

section entries
variable {w0 w1 w2 w3 : Word}

theorem execEndEntry_at (h : s.atEntry id 0x01 c s1 ws) : exec (.endEntry id) s = .next (s1.putChain id { c with state := 3 }) :=
  h.go (body := fun s c _ => .go s { c with state := 3 }) rfl

/-- The words that LOOP writes back: armed or not, and what remains. -/
def State.putLoop (s : State) (c : Chain) (w0 w2 : Word) (armed n : Nat) : State :=
  (s.areaPut c (s.headerOff c + 32 + 32 * c.idx) (natBytes 8 (setFld w0 8 8 armed).toNat)).areaPut c
    (s.headerOff c + 32 + 32 * c.idx + 16) (natBytes 8 (setFld w2 31 0 n).toNat)

theorem execLoop_at (h : s.atEntry id 0x05 c s1 (w0, w1, w2, w3)) (h0 : fld w0 31 16 ≠ 0) (hc : fld w0 31 16 ≤ c.idx) :
    let remain := if bitAt w0 8 then fld w2 31 0 else fld w1 31 0
    (0 < remain → exec (.loop id) s = .next ((s1.putLoop c w0 w2 1 (remain - 1)).putChain id { c with idx := c.idx - fld w0 31 16 }))
    ∧ (remain = 0 → exec (.loop id) s = .next ((s1.putLoop c w0 w2 0 0).putChain id { c with idx := c.idx + 1 })) := by
  have hback : ¬(fld w0 31 16 = 0 ∨ c.idx < fld w0 31 16) := by omega
  refine ⟨fun hr => ?_, fun hr => ?_⟩
  · show execLoop id s = _
    refine h.go ?_
    simp only [hback, if_false, hr, if_true]
    rfl
  · show execLoop id s = _
    refine h.go ?_
    simp only [hback, if_false, hr, Nat.lt_irrefl]
    rfl

/-- An IF entry that has compared goes on behind itself where its comparison holds, and skips where it does not. -/
def Chain.branch (c : Chain) (w0 : Word) (z x y : Nat) : Chain :=
  { c with zsub := c.zsub + z, idx := if cmpHolds (fld w0 15 14) x y then c.idx + 1 else c.idx + 1 + fld w0 31 16 }

theorem execIfEntry_word (h : s.atEntry id 0x06 c s1 (w0, w1, w2, w3)) (h8 : bitAt w0 8 = true) (ha : fld w1 21 0 % 8 = 0)
    {s2 : State} {bs : List Byte} {z : Nat} (hget : s1.areaGet c (fld w1 21 0) 8 = (s2, .inl (bs, z))) :
    exec (.ifEntry id) s = .next (s2.putChain id (c.branch w0 z (wordOf bs 0).toNat w2.toNat)) := by
  show execIfEntry id s = _
  refine h.go ?_
  simp only [h8, if_true, ha, ne_eq, not_true_eq_false, if_false, hget]
  rfl

theorem execIfEntry_buffer (h : s.atEntry id 0x06 c s1 (w0, w1, w2, w3)) (h8 : bitAt w0 8 = false) {cr : Crew} {cfg ctr : Word}
    (hbuf : s1.chainBuffer c (fld w0 12 9) = some (cr, cfg, ctr)) :
    exec (.ifEntry id) s = .next ((s1.countChain c (cbOffset (fld w0 12 9))).1.putChain id (c.branch w0
      (s1.countChain c (cbOffset (fld w0 12 9))).2 (if bitAt w0 13 then cbFilled ctr else cbFree ctr) (fld w2 15 0))) := by
  show execIfEntry id s = _
  refine h.go ?_
  simp only [h8, Bool.false_eq_true, if_false, hbuf]
  rfl

theorem execSignal_word (h : s.atEntry id 0x07 c s1 (w0, w1, w2, w3)) (hg : s1.gettingRows id = false) (h8 : bitAt w0 8 = true)
    (ha : fld w1 21 0 % 8 = 0) {s2 : State} {bs : List Byte} {z : Nat} (hget : s1.areaGet c (fld w1 21 0) 8 = (s2, .inl (bs, z))) :
    exec (.signal id) s = .next ((s2.areaPut c (fld w1 21 0) (natBytes 8 (wordOf bs 0 + w2).toNat)).putChain id
      { c with zsub := c.zsub + z, idx := c.idx + 1 }) := by
  show execSignal id s = _
  refine h.go ?_
  simp only [hg, Bool.false_eq_true, if_false, h8, if_true, ha, ne_eq, not_true_eq_false, hget]
  rfl

theorem execSignal_slots (h : s.atEntry id 0x07 c s1 (w0, w1, w2, w3)) (hg : s1.gettingRows id = false) (h8 : bitAt w0 8 = false)
    (h1 : 1 ≤ fld w1 21 0) (h128 : fld w1 21 0 ≤ 128) (hw2 : w2 = 0) {cr : Crew} {cfg ctr : Word}
    (hbuf : s1.chainBuffer c (fld w0 12 9) = some (cr, cfg, ctr)) (hroom : cbFree ctr + cbFilled ctr + fld w1 21 0 ≤ cbSlots cfg) :
    exec (.signal id) s = .next (((s1.countChain c (cbOffset (fld w0 12 9))).1.putCbCtr cr (fld w0 12 9)
      (cbWord (cbRidx ctr) (cbWidx ctr) (cbFilled ctr + fld w1 21 0) (cbFree ctr))).putChain id
        { c with zsub := c.zsub + (s1.countChain c (cbOffset (fld w0 12 9))).2, idx := c.idx + 1 }) := by
  show execSignal id s = _
  refine h.go ?_
  have hn : ¬(fld w1 21 0 = 0 ∨ 128 < fld w1 21 0 ∨ w2 ≠ 0) := by
    rintro (h | h | h)
    · omega
    · omega
    · exact h hw2
  simp only [hg, Bool.false_eq_true, if_false, h8, hn, hbuf, Nat.not_lt.2 hroom]
  rfl

/-! ### Copies (R139) -/

/-- The buffer of a copy, which its entry may name. -/
def State.copyBuffer (s : State) (c : Chain) (w0 : Word) : Option (Crew × Word × Word) :=
  if bitAt w0 8 then s.chainBuffer c (fld w0 12 9) else none

def State.countCopy (s : State) (c : Chain) (w0 : Word) : State × Nat :=
  if bitAt w0 8 then s.countChain c (cbOffset (fld w0 12 9)) else (s, 0)

theorem copyEntry_blocked (h : s.atEntry id ty c s1 (w0, w1, w2, w3)) (hfree : ∃ b, s1.copyBuffer c w0 = some b ∧ cbFree b.2.2 = 0) :
    ∃ c', copyEntry s id ty = .next ((s1.countCopy c w0).1.putChain id c') ∧ c'.state = 2 ∧ c'.idx = c.idx := by
  unfold copyEntry
  refine h.block (zs := (s1.countCopy c w0).2) ?_
  obtain ⟨b, hb, h0⟩ := hfree
  unfold State.copyBuffer at hb
  simp only [hb, Option.isNone_some, Bool.and_false, Bool.false_eq_true, if_false, Option.any_some, h0, beq_self_eq_true, if_true]
  rfl

/-- The destination of a copy: the slot that its buffer gives next, or what its record names. -/
def State.copyTarget (s : State) (buf : Option (Crew × Word × Word)) (d : TileRec) : TileRec :=
  match buf with
  | some b => { d with base := s.windowAddr b.1 (cbBase b.2.1 + cbWidx b.2.2 * cbSize b.2.1) }
  | none => d

/-- The claim of that slot (R135). -/
def State.claimSlot (s : State) (buf : Option (Crew × Word × Word)) (k : Nat) : State :=
  match buf with
  | some b => s.putCbCtr b.1 k (cbWord (cbRidx b.2.2) ((cbWidx b.2.2 + 1) % cbSlots b.2.1) (cbFilled b.2.2) (cbFree b.2.2 - 1))
  | none => s

theorem copyEntry_moves (h : s.atEntry id ty c s1 (w0, w1, w2, w3)) {s2 s3 s4 s5 : State} {src d0 dst : TileRec} {z1 z2 : Nat}
    {f f2 : Nat × Bool} {m : Move} (hbuf : bitAt w0 8 = true → (s1.copyBuffer c w0).isSome = true)
    (htab : ty ≠ 0x02 → fld w3 21 0 % 4 = 0) (hsrc : (s1.countCopy c w0).1.recordAt c (fld w1 21 0) = (s2, .inl (src, z1)))
    (hdst : s2.recordAt c (fld w2 21 0) = (s3, .inl (d0, z2))) (htarget : dst = s3.copyTarget (s1.copyBuffer c w0) d0)
    (hlen : src.rowlen = dst.rowlen) (hrows : ty = 0x02 → src.rows = dst.rows)
    (hslot : ∀ b, s1.copyBuffer c w0 = some b → cbFree b.2.2 ≠ 0 ∧ dst.range.2 - dst.range.1 ≤ cbSize b.2.1)
    (hload : s3.checkRecLate (s1.chainWho c) src .load = (s4, f, none))
    (hstore : s4.checkRecLate (s1.chainWho c) dst .store = (s5, f2, none))
    (hm : m = moveRows c (s1.chainWho c) ty (fld w3 21 0) src dst f (if ty = 0x04 then src.rows else dst.rows)
      ⟨s5.claimSlot (s1.copyBuffer c w0) (fld w0 12 9), 0, (s1.countCopy c w0).2 + z1 + z2, [], none⟩) (hbad : m.bad = none) :
    copyEntry s id ty = .next (m.s.putChain id { c with zsub := c.zsub + m.zsub, idx := c.idx + 1 }) := by
  have htab' : ¬(ty ≠ 0x02 ∧ fld w3 21 0 % 4 ≠ 0) := fun h => h.2 (htab h.1)
  have hshape : ¬(src.rowlen ≠ dst.rowlen ∨ ty = 0x02 ∧ src.rows ≠ dst.rows) := by
    rintro (h | h)
    · exact h hlen
    · exact h.2 (hrows h.1)
  have hnone : (bitAt w0 8 && (s1.copyBuffer c w0).isNone) = false := by
    cases h8 : bitAt w0 8
    · rfl
    · simpa using hbuf h8
  have hfree : ((s1.copyBuffer c w0).any fun b => cbFree b.2.2 == 0) = false := by
    cases hb : s1.copyBuffer c w0 with
    | none => rfl
    | some b => simpa using (hslot b hb).1
  have hfits : ((s1.copyBuffer c w0).any fun b => decide (cbSize b.2.1 < dst.range.2 - dst.range.1)) = false := by
    cases hb : s1.copyBuffer c w0 with
    | none => rfl
    | some b => simpa using (hslot b hb).2
  unfold copyEntry
  refine h.go ?_
  simp only [← State.copyBuffer.eq_def, ← State.countCopy.eq_def, hnone, Bool.false_eq_true, if_false, hfree, htab', hsrc, hdst]
  cases hb : s1.copyBuffer c w0 with
  | none =>
    obtain rfl : dst = d0 := by rw [htarget, hb]; rfl
    replace hm : moveRows c (s1.chainWho c) ty (fld w3 21 0) src dst f (if ty = 0x04 then src.rows else dst.rows)
        ⟨s5, 0, (s1.countCopy c w0).2 + z1 + z2, [], none⟩ = m := by rw [hm, hb]; rfl
    simp only [hshape, if_false, Option.any_none, Bool.false_eq_true, hload, hstore, hm, hbad]
    rfl
  | some b =>
    obtain ⟨cr, cfg, ctr⟩ := b
    have htarget' : ({ d0 with base := s3.windowAddr cr (cbBase cfg + cbWidx ctr * cbSize cfg) } : TileRec) = dst := by
      rw [htarget, hb]; rfl
    replace hm : moveRows c (s1.chainWho c) ty (fld w3 21 0) src dst f (if ty = 0x04 then src.rows else dst.rows)
        ⟨s5.putCbCtr cr (fld w0 12 9) (cbWord (cbRidx ctr) ((cbWidx ctr + 1) % cbSlots cfg) (cbFilled ctr) (cbFree ctr - 1)), 0,
          (s1.countCopy c w0).2 + z1 + z2, [], none⟩ = m := by rw [hm, hb]; rfl
    have hlen' : d0.rowlen = dst.rowlen := by rw [← htarget']
    have hrows' : d0.rows = dst.rows := by rw [← htarget']
    rw [hb] at hfits
    simp only [htarget', hfits, if_false, Bool.false_eq_true, hload, hstore]
    simp only [hlen', hrows', hshape, if_false, hm, hbad]
    rfl

end entries

end Sys2Proof.Machine
end

section
/-!
PROOFS. The entries of the epilogue engine, once they are read (R229 to R233).
-/
namespace Sys2Proof.Machine

variable {s s1 s2 : State} {id ty : Nat} {c : Chain} {w0 w1 w2 w3 : Word}

/-! ### TAKE and RELEASE (R231) -/

section ring
variable {cr : Crew} {cfg ctr : Word} (hring : s1.chainRing c (fld w0 9 8) = some (cr, cfg, ctr))
include hring

theorem execTake_closed (h : s.atEntry id 0x10 c s1 (w0, w1, w2, w3)) (hc : ringClosed ctr ≠ 0) {q : State × Nat}
    (hq : s1.countChain c (0x7D00 + 32 * fld w0 9 8) = q) {r : State × List (BitVec 32) × Nat}
    (hr : q.1.loamWords cr.core (tailOffset cfg ctr) granule (.bytes cr.bank) = r) :
    exec (.take id) s = .next ((if bitAt w0 10 then r.1.releaseTail cr (fld w0 9 8) else r.1).putChain id
      { c with zsub := c.zsub + q.2 + r.2.2, tiles := ⟨true, r.2.1, none, [], []⟩, idx := c.idx + 1 }) := by
  show execTake id s = _
  refine h.go ?_
  simp only [hring, hc, if_false, hq, hr]
  rfl

theorem execTake_open (h : s.atEntry id 0x10 c s1 (w0, w1, w2, w3)) (hc : ringClosed ctr = 0) :
    ∃ c', exec (.take id) s = .next ((s1.countChain c (0x7D00 + 32 * fld w0 9 8)).1.putChain id c') ∧ c'.state = 2 ∧ c'.idx = c.idx := by
  show ∃ c', execTake id s = _ ∧ _
  refine h.block (zs := (s1.countChain c (0x7D00 + 32 * fld w0 9 8)).2) ?_
  simp only [hring, hc, if_true]

theorem execRelease_closed (h : s.atEntry id 0x11 c s1 (w0, w1, w2, w3)) (hc : ringClosed ctr ≠ 0) :
    exec (.release id) s = .next (((s1.countChain c (0x7D00 + 32 * fld w0 9 8)).1.releaseTail cr (fld w0 9 8)).putChain id
      { c with zsub := c.zsub + (s1.countChain c (0x7D00 + 32 * fld w0 9 8)).2, idx := c.idx + 1 }) := by
  show execRelease id s = _
  refine h.go ?_
  simp only [hring, hc, if_false]
  rfl

end ring

/-! ### Entries that work on the tile (R232, R233) -/

section tile
variable (ht : c.tiles.taken = true)
include ht

theorem onTile_taken (f : List (BitVec 32) → EntryRes) : onTile s c f = f c.tiles.w := if_pos ht

/-- The elements of a tile, each changed with the vector element of its column. -/
def Chain.byVector (c : Chain) (op : Nat → Nat → FpResult) (v : List Nat) : List (BitVec 32) :=
  c.tiles.w.zipIdx.map fun e => BitVec.ofNat 32 (op e.1.toNat (v.getD (e.2 % 128) 0)).bits

theorem vecEntry_at (h : s.atEntry id ty c s1 (w0, w1, w2, w3)) {v : List Nat} {z : Nat}
    (hv : s1.areaElems c (fld w1 21 0) 128 4 = (s2, .inl (v, z))) (op : Nat → Nat → FpResult) :
    vecEntry s id ty op = .next (s2.putChain id { c with
      zsub := c.zsub + z, tiles := { c.tiles with w := c.byVector op v }, idx := c.idx + 1 }) := by
  unfold vecEntry
  refine h.go ?_
  simp only [onTile_taken ht, hv]
  rfl

theorem execAct_at (h : s.atEntry id 0x14 c s1 (w0, w1, w2, w3)) :
    (fld w0 9 8 = 0 → exec (.act id) s = .next (s1.putChain id { c with idx := c.idx + 1 }))
    ∧ (fld w0 9 8 = 1 → exec (.act id) s = .next (s1.putChain id
        { c with tiles := { c.tiles with w := c.tiles.w.map relu }, idx := c.idx + 1 }))
    ∧ (fld w0 9 8 = 2 → ((fmtOf .s).decode (fld w2 31 0)).isNan = false → ((fmtOf .s).decode (fld w2 63 32)).isNan = false →
        ((fmtOf .s).decode (fld w2 63 32)).lt ((fmtOf .s).decode (fld w2 31 0)) = false →
        exec (.act id) s = .next (s1.putChain id
          { c with tiles := { c.tiles with w := c.tiles.w.map (clampElem (fld w2 31 0) (fld w2 63 32)) }, idx := c.idx + 1 }))
    ∧ (fld w0 9 8 = 3 → ((fmtOf .s).decode (fld w2 31 0)).isNan = false →
        ∀ s2 tab z, s1.areaElems c (fld w1 21 0) 256 2 = (s2, .inl (tab, z)) → exec (.act id) s = .next (s2.putChain id
          { c with zsub := c.zsub + z, idx := c.idx + 1, tiles := { c.tiles with
            w := c.tiles.w.map (tableElem tab ((fmtOf .s).decode (fld w2 31 0)) (toSigned 8 (fld w3 7 0))) } })) := by
  have hrun : exec (.act id) s = execAct id s := rfl
  rw [hrun]
  unfold execAct
  refine ⟨fun hf => h.go ?_, fun hf => h.go ?_, fun hf hlo hhi hle => h.go ?_, fun hf hlo s2 tab z hget => h.go ?_⟩
  · simp only [onTile_taken ht, hf]
    rfl
  · simp only [onTile_taken ht, hf]
    rfl
  · simp only [onTile_taken ht, hf, hlo, hhi, hle, Bool.or_self, Bool.false_eq_true, if_false]
    rfl
  · simp only [onTile_taken ht, hf, hlo, hget, Bool.false_eq_true, if_false]
    rfl

/-- The chain whose output tile a CVT makes. -/
def Chain.converted (c : Chain) (w0 : Word) (book : List FVal) : Chain :=
  let o := convertTile (fld w0 11 8) (bitAt w0 15) (Mode.ofFrm (BitVec.ofNat 3 (fld w0 14 12))) book c.tiles.w
  { c with tiles := { c.tiles with out := some (fld w0 11 8, bitAt w0 15), o := o.1, scales := o.2 }, idx := c.idx + 1 }

theorem execCvt_plain (h : s.atEntry id 0x15 c s1 (w0, w1, w2, w3)) (h1 : 1 ≤ fld w0 14 12) (h5 : fld w0 14 12 ≤ 5)
    (hf : fld w0 11 8 ∈ [1, 2, 7] ∧ bitAt w0 15 = false ∨ fld w0 11 8 ∈ [3, 4]) :
    exec (.cvt id) s = .next (s1.putChain id (c.converted w0 [])) := by
  have hok : ¬((fld w0 11 8 = 0 ∨ fld w0 11 8 = 5 ∨ 8 ≤ fld w0 11 8) ∨ fld w0 14 12 = 0 ∨ 6 ≤ fld w0 14 12
      ∨ (fld w0 11 8 = 6 ∧ (!bitAt w0 15) = true) ∨ (bitAt w0 15 = true ∧ fld w0 11 8 ≠ 3 ∧ fld w0 11 8 ≠ 4 ∧ fld w0 11 8 ≠ 6)) := by
    simp only [List.mem_cons, List.not_mem_nil, or_false] at hf
    rcases hf with ⟨hf, hs⟩ | hf
    · simp only [hs, Bool.not_false, Bool.false_eq_true, and_true, false_and, or_false]; omega
    · omega
  have h6 : fld w0 11 8 ≠ 6 := by
    simp only [List.mem_cons, List.not_mem_nil, or_false] at hf
    omega
  show execCvt id s = _
  refine h.go ?_
  simp only [onTile_taken ht]
  rw [if_neg hok, if_neg h6]
  rfl

theorem execCvt_book (h : s.atEntry id 0x15 c s1 (w0, w1, w2, w3)) (h1 : 1 ≤ fld w0 14 12) (h5 : fld w0 14 12 ≤ 5)
    (h6 : fld w0 11 8 = 6) (hs : bitAt w0 15 = true) {book : List FVal} {k : Nat} (hbook : s1.chainBook c (fld w0 21 16) = some book)
    (hk : c.crew = some k) : exec (.cvt id) s = .next ((s1.modCrew k fun x =>
      { x with cbSlots := x.cbSlots ||| (1#64 <<< fld w0 21 16) }).putChain id (c.converted w0 book)) := by
  have hok : ¬((fld w0 11 8 = 0 ∨ fld w0 11 8 = 5 ∨ 8 ≤ fld w0 11 8) ∨ fld w0 14 12 = 0 ∨ 6 ≤ fld w0 14 12
      ∨ (fld w0 11 8 = 6 ∧ (!bitAt w0 15) = true) ∨ (bitAt w0 15 = true ∧ fld w0 11 8 ≠ 3 ∧ fld w0 11 8 ≠ 4 ∧ fld w0 11 8 ≠ 6)) := by
    simp only [hs, Bool.not_true, Bool.false_eq_true, and_false, false_or, true_and]
    omega
  show execCvt id s = _
  refine h.go ?_
  simp only [onTile_taken ht]
  rw [if_neg hok, if_pos h6, hbook, hk]
  rfl

theorem execStore_at (h : s.atEntry id 0x16 c s1 (w0, w1, w2, w3)) {t : TileRec} {z : Nat} {m : Move} {f : Nat × Bool}
    (hrec : s1.recordAt c (fld w1 21 0) = (s2, .inl (t, z))) (hf : f = c.tiles.out.getD (7, false))
    (hok : s2.storeBad (s2.chainWho c) t f.1 f.2 = none)
    (hm : m = (List.range 32).foldl (fun (m : Move) r => storeRow (s2.chainWho c) t f
        (((if c.tiles.out.isSome then c.tiles.o else c.tiles.w.flatMap fun x => natBytes 4 x.toNat).drop (t.rowlen * r)).take t.rowlen)
        ((c.tiles.scales.drop (rowBlocks t.rowlen f.1 * r)).take (rowBlocks t.rowlen f.1)) r m) ⟨s2, 0, z, [], none⟩)
    (hbad : m.bad = none) :
    exec (.store id) s = .next (m.s.putChain id { c with zsub := c.zsub + m.zsub, idx := c.idx + 1 }) := by
  subst hf
  show execStore id s = _
  refine h.go ?_
  simp only [onTile_taken ht, hrec, hok, ← hm, hbad]
  rfl

end tile

end Sys2Proof.Machine
end

section
/-!
PROOFS. Tiles in a crew's scratch: where their granules lie, and what a series of writes leaves there (R130, R132, R139).
-/
namespace Sys2Proof.Machine

/-! ### Series of writes -/

/-- Bytes written one after another, each from its address. -/
def Memory.putAll (m : Memory) (jobs : List (Nat × List Byte)) : Memory := jobs.foldl (fun m e => m.puts e.1 e.2) m

theorem Memory.putAll_append (m : Memory) (l l' : List (Nat × List Byte)) : m.putAll (l ++ l') = (m.putAll l).putAll l' :=
  List.foldl_append

/-- Two ranges of bytes share none. -/
def apart (a n b k : Nat) : Prop := a + n ≤ b ∨ b + k ≤ a

theorem Memory.bytes_putAll_apart (m : Memory) {jobs : List (Nat × List Byte)} {a n : Nat}
    (h : ∀ e ∈ jobs, apart a n e.1 e.2.length) : (m.putAll jobs).bytes a n = m.bytes a n := by
  induction jobs generalizing m with
  | nil => rfl
  | cons e l ih =>
    refine (ih (m.puts e.1 e.2) fun e' he' => h e' (List.mem_cons_of_mem _ he')).trans ?_
    exact Memory.bytes_puts_disjoint _ _ _ _ _ (h e List.mem_cons_self)

/-- What is written stands at the end when no other write of the series touches it. -/
theorem Memory.bytes_putAll_mem (m : Memory) {jobs : List (Nat × List Byte)} {e : Nat × List Byte} (he : e ∈ jobs)
    (h : ∀ e' ∈ jobs, e' = e ∨ apart e.1 e.2.length e'.1 e'.2.length) : (m.putAll jobs).bytes e.1 e.2.length = e.2 := by
  induction jobs using List.reverseRecOn generalizing m with
  | nil => cases he
  | append_singleton l e' ih =>
    rw [Memory.putAll_append]
    rcases h e' (by simp) with rfl | hap
    · exact Memory.bytes_puts_self ..
    · by_cases hl : e ∈ l
      · exact (Memory.bytes_puts_disjoint _ _ _ _ _ hap).trans (ih m hl fun x hx => h x (List.mem_append_left _ hx))
      · have heq : e = e' := by simpa [hl] using he
        subst heq
        exact Memory.bytes_puts_self ..

/-! ### Granules (R130) -/

theorem xor_granule {i : Nat} (g k : Nat) (hi : i < 16) : (16 * g + i) ^^^ (16 * k) = 16 * (g ^^^ k) + i := by
  have hmod : ((16 * g + i) ^^^ (16 * k)) % 2 ^ 4 = i := by
    rw [Nat.xor_mod_two_pow]
    have h1 : (16 * g + i) % 2 ^ 4 = i := by omega
    have h2 : 16 * k % 2 ^ 4 = 0 := by omega
    rw [h1, h2, Nat.xor_zero]
  have hdiv : ((16 * g + i) ^^^ (16 * k)) / 2 ^ 4 = g ^^^ k := by
    rw [← Nat.shiftRight_eq_div_pow, Nat.shiftRight_xor_distrib, Nat.shiftRight_eq_div_pow, Nat.shiftRight_eq_div_pow]
    congr 1 <;> omega
  have := Nat.div_add_mod ((16 * g + i) ^^^ (16 * k)) (2 ^ 4)
  omega

theorem xor_lt_of_dvd {g k n G : Nat} (hk : k < 2 ^ n) (hd : 2 ^ n ∣ G) (hg : g < G) : g ^^^ k < G := by
  obtain ⟨q, rfl⟩ := hd
  have hdiv : (g ^^^ k) / 2 ^ n = g / 2 ^ n := by
    rw [← Nat.shiftRight_eq_div_pow, Nat.shiftRight_xor_distrib, Nat.shiftRight_eq_div_pow, Nat.shiftRight_eq_div_pow,
      Nat.div_eq_of_lt hk, Nat.xor_zero]
  have hpos := Nat.two_pow_pos n
  rw [Nat.mul_comm] at hg ⊢
  rw [← Nat.div_lt_iff_lt_mul hpos] at hg ⊢
  rwa [hdiv]

/-- A tile of which every byte lies in the scratch that begins at `lo` and ends before `hi`, rows apart from each other. -/
structure TileRec.Within (t : TileRec) (lo hi : Nat) : Prop where
  first : lo ≤ t.base
  last : t.range.2 ≤ hi
  top : hi ≤ 2 ^ 57
  rows : t.rows ≠ 0
  whole : t.rowlen % (16 * 2 ^ t.span) = 0
  spread : t.rowlen ≤ t.stride
  loam : t.space ≠ 0

/-- Address of a granule of a row. -/
def TileRec.granule (t : TileRec) (r g : Nat) : Nat := t.base + r * t.stride + 16 * (g ^^^ (r % 2 ^ t.span))

namespace TileRec.Within
variable {t : TileRec} {lo hi r g : Nat} (h : t.Within lo hi)
include h

theorem rowlen_eq : 16 * (t.rowlen / 16) = t.rowlen :=
  Nat.mul_div_cancel' ((Dvd.intro _ rfl).trans (Nat.dvd_of_mod_eq_zero h.whole))

theorem span_dvd : 2 ^ t.span ∣ t.rowlen / 16 := by
  obtain ⟨q, hq⟩ := Nat.dvd_of_mod_eq_zero h.whole
  exact ⟨q, by rw [hq, Nat.mul_assoc, Nat.mul_div_cancel_left _ (by decide : 0 < 16)]⟩

theorem slot_lt (hg : g < t.rowlen / 16) : g ^^^ (r % 2 ^ t.span) < t.rowlen / 16 :=
  xor_lt_of_dvd (Nat.mod_lt _ (Nat.two_pow_pos _)) h.span_dvd hg

omit h in
theorem row_le (hr : r < t.rows) : t.base + r * t.stride + t.rowlen ≤ t.range.2 := by
  have : r * t.stride ≤ (t.rows - 1) * t.stride := Nat.mul_le_mul_right _ (by omega)
  simp only [TileRec.range]
  omega

/-- A granule lies in the tile's range. -/
theorem granule_mem (hr : r < t.rows) (hg : g < t.rowlen / 16) : t.range.1 ≤ t.granule r g ∧ t.granule r g + 16 ≤ t.range.2 := by
  have h1 := h.slot_lt (r := r) hg
  have h2 := row_le hr
  have h3 := h.rowlen_eq
  simp only [TileRec.granule]
  exact ⟨by simp only [TileRec.range]; omega, by omega⟩

theorem byteAddr_granule (hr : r < t.rows) (hg : g < t.rowlen / 16) {i : Nat} (hi' : i < 16) :
    t.byteAddr r (16 * g + i) = t.granule r g + i := by
  have h1 := (h.granule_mem hr hg).2
  have h2 := h.last
  have h3 := h.top
  rw [TileRec.byteAddr, xor_granule _ _ hi', ← Nat.add_assoc]
  exact Nat.mod_eq_of_lt (by simp only [TileRec.granule] at h1; omega)

/-- Granules of different rows, and of different places in a row, are apart. -/
theorem granule_apart {r' g' : Nat} (hg : g < t.rowlen / 16) (hg' : g' < t.rowlen / 16)
    (hne : r ≠ r' ∨ g ≠ g') : apart (t.granule r g) 16 (t.granule r' g') 16 := by
  have h1 := h.slot_lt (r := r) hg
  have h2 := h.slot_lt (r := r') hg'
  have h3 := h.rowlen_eq
  have h4 := h.spread
  simp only [apart, TileRec.granule]
  rcases lt_trichotomy r r' with hlt | rfl | hlt
  · have : r * t.stride + t.stride ≤ r' * t.stride := by rw [← Nat.succ_mul]; exact Nat.mul_le_mul_right _ hlt
    omega
  · have hslot : g ^^^ (r % 2 ^ t.span) ≠ g' ^^^ (r % 2 ^ t.span) := by
      intro heq
      have := Nat.xor_left_inj.1 heq
      omega
    omega
  · have : r' * t.stride + t.stride ≤ r * t.stride := by rw [← Nat.succ_mul]; exact Nat.mul_le_mul_right _ hlt
    omega

end TileRec.Within

end Sys2Proof.Machine
end

section
/-!
PROOFS. Rows moved between tiles of one crew's scratch: what a transfer has written at each of its stages (R139, R132).
-/
namespace Sys2Proof.Machine

variable {s t : State} {c : Chain} {cr : Crew} {m : Move} {jobs : List (Nat × List Byte)} {lo hi : Nat}

/-! ### Where a tile's granules stand in the bank -/

/-- A tile in the crew's own scratch. -/
abbrev State.Holds (s : State) (cr : Crew) (t : TileRec) : Prop :=
  t.Within (s.windowOf cr + cr.base) (s.windowOf cr + (cr.base + cr.lsg * 16384))

/-- Offset of a granule of a row in the bank of the crew's core. -/
def State.spotOf (s : State) (cr : Crew) (t : TileRec) (r g : Nat) : Nat := t.granule r g - s.windowOf cr

theorem State.AsideBank.windowOf_eq (h : State.AsideBank cr s t) : t.windowOf cr = s.windowOf cr := by
  rw [State.windowOf, Core.ctxOf, h.ctxs]
  rfl

theorem State.tileAt.holds {off : Nat} {d : TileRec} (h : s.tileAt c cr off d) (hs : s.ScratchOf c cr) : s.Holds cr d := by
  obtain ⟨-, -, -, hspace, hshape, -, hspread, hown⟩ := h
  have hfits := hs.fits
  have hwin : s.windowOf cr + 2 ^ 26 ≤ 2 ^ 57 := hs.window
  simp only [TileRec.shapeBad, Bool.or_eq_false_iff, beq_eq_false_iff_ne, bne_eq_false_iff_eq] at hshape
  obtain ⟨⟨⟨⟨⟨⟨⟨⟨hrows, -⟩, -⟩, -⟩, -⟩, hwhole⟩, -⟩, -⟩, -⟩ := hshape
  rw [hs.chainWho_eq] at hown
  simp only [State.inOwnScratch, hs.find_crew, Crew.inScratch, granule, Bool.and_eq_true, decide_eq_true_iff] at hown
  obtain ⟨h1, h2, h3⟩ := hown
  replace h3 := of_decide_eq_true h3
  simp only [← State.windowOf.eq_def] at h1 h2 h3
  have hrange : d.range.1 = d.base := rfl
  have hle : d.range.1 ≤ d.range.2 := by simp only [TileRec.range]; omega
  exact ⟨by omega, by omega, by omega, hrows, hwhole, hspread, by omega⟩

namespace TileRec.Within
variable {d : TileRec} {r g : Nat} (h : s.Holds cr d)
include h

theorem spot_eq (hr : r < d.rows) (hg : g < d.rowlen / 16) : s.windowOf cr + s.spotOf cr d r g = d.granule r g
    ∧ cr.base ≤ s.spotOf cr d r g ∧ s.spotOf cr d r g + 16 ≤ cr.base + cr.lsg * 16384 := by
  obtain ⟨h1, h2⟩ := h.granule_mem hr hg
  have h3 : s.windowOf cr + cr.base ≤ d.range.1 := h.first
  have h4 := h.last
  simp only [State.spotOf]
  omega

theorem spot_mem (hr : r < d.rows) (hg : g < d.rowlen / 16) : d.range.1 - s.windowOf cr ≤ s.spotOf cr d r g
    ∧ s.spotOf cr d r g + 16 ≤ d.range.2 - s.windowOf cr := by
  have := h.granule_mem hr hg
  have := (h.spot_eq hr hg).1
  omega

/-- The bytes of a row stand in its granules. -/
theorem tileBytes_eq (hr : r < d.rows) : s.tileBytes cr d r
    = (List.range (d.rowlen / 16)).flatMap fun g => (s.bankOf cr).bytes (s.spotOf cr d r g) 16 := by
  have hgranule : ∀ n ≤ d.rowlen / 16, ((List.range (16 * n)).flatMap fun x => s.loamBytes cr.core cr.bank (s.tileOff cr d r x) 1)
      = (List.range n).flatMap fun g => (s.bankOf cr).bytes (s.spotOf cr d r g) 16 := by
    intro n hn
    induction n with
    | zero => rfl
    | succ n ih =>
      have hlast : ∀ i ∈ List.range 16, s.loamBytes cr.core cr.bank (s.tileOff cr d r (16 * n + i)) 1
          = [(s.bankOf cr).byte (s.spotOf cr d r n + i)] := by
        intro i hi'
        have haddr := h.byteAddr_granule hr hn (List.mem_range.1 hi')
        have hspot := (h.spot_eq hr hn).1
        have hoff : s.tileOff cr d r (16 * n + i) = s.spotOf cr d r n + i := by
          show _ - s.windowOf cr = _
          omega
        rw [hoff]
        rfl
      rw [Nat.mul_succ, List.range_add, List.range_succ (n := n), List.flatMap_append, List.flatMap_append, ih (by omega), List.flatMap_map,
        List.flatMap_congr hlast, List.flatMap_singleton]
      rfl
  rw [State.tileBytes, ← hgranule _ le_rfl, h.rowlen_eq]

end TileRec.Within

/-! ### A transfer under way -/

/-- What a transfer inside the scratch has done: `jobs` are its writes, all of them between `lo` and `hi`. -/
structure Move.Wrote (s : State) (cr : Crew) (lo hi : Nat) (jobs : List (Nat × List Byte)) (m : Move) : Prop where
  aside : State.AsideBank cr s m.s
  bank : m.s.bankOf cr = (s.bankOf cr).putAll jobs
  inside : ∀ e ∈ jobs, lo ≤ e.1 ∧ e.1 + e.2.length ≤ hi
  before : m.before = 0
  zeros : m.zeros = []
  bad : m.bad = none

theorem Move.Wrote.start (s : State) (cr : Crew) (lo hi : Nat) : Move.Wrote s cr lo hi [] ⟨s, 0, 0, [], none⟩ :=
  ⟨.refl, rfl, by simp, rfl, rfl, rfl⟩

theorem Move.Wrote.zsub_eq (h : Move.Wrote s cr lo hi jobs m) : m.zsub = 0 := by
  rw [Move.zsub, h.before, h.zeros]
  rfl

/-- A loop each of whose rounds adds its own writes. -/
theorem Move.Wrote.foldl {step : Move → Nat → Move} {job : Nat → List (Nat × List Byte)} {n : Nat}
    (hstep : ∀ k < n, ∀ m jobs, Move.Wrote s cr lo hi jobs m → Move.Wrote s cr lo hi (jobs ++ job k) (step m k))
    (h : Move.Wrote s cr lo hi jobs m) :
    Move.Wrote s cr lo hi (jobs ++ (List.range n).flatMap job) ((List.range n).foldl step m) := by
  induction n with
  | zero => simpa using h
  | succ n ih =>
    rw [List.range_succ, List.foldl_append, List.flatMap_append, List.flatMap_singleton, ← List.append_assoc]
    exact hstep n (Nat.lt_succ_self n) _ _ (ih fun k hk => hstep k (Nat.lt_succ_of_lt hk))

namespace Move.Wrote
variable (h : Move.Wrote s cr lo hi jobs m) (hs : s.ScratchOf c cr)
include h hs

theorem who_eq : m.s.chainWho c = s.chainWho c := by
  rw [(h.aside.scratchOf hs).chainWho_eq, hs.chainWho_eq, Core.ctxOf, h.aside.ctxs]
  rfl

theorem enginePut_eq {o : Nat} {bs : List Byte} (hn : 0 < bs.length) (hlo : cr.base ≤ o) (hhi : o + bs.length ≤ cr.base + cr.lsg * 16384)
    (agent : Nat) : m.s.enginePut (s.chainWho c) agent (s.windowOf cr + o) bs = (m.s.putLoam cr.core cr.bank o bs, none) := by
  rw [← h.who_eq hs, ← h.aside.windowOf_eq]
  exact (h.aside.scratchOf hs).enginePut_eq hn hlo hhi agent

theorem engineGet_eq {o n : Nat} (hn : 0 < n) (hlo : cr.base ≤ o) (hhi : o + n ≤ cr.base + cr.lsg * 16384) :
    m.s.engineGet (s.chainWho c) (s.windowOf cr + o) n = (m.s, ((s.bankOf cr).putAll jobs).bytes o n, [], none) := by
  rw [← h.who_eq hs, ← h.aside.windowOf_eq, (h.aside.scratchOf hs).engineGet_eq hn hlo hhi, h.bank]

/-- A piece written, and its granule tagged. -/
theorem write {o : Nat} {bs : List Byte} (hn : 0 < bs.length) (hlo : cr.base ≤ o) (hhi : o + bs.length ≤ cr.base + cr.lsg * 16384)
    (hin : lo ≤ o ∧ o + bs.length ≤ hi) (f : Nat × Bool) (done : Nat) : Move.Wrote s cr lo hi (jobs ++ [(o, bs)])
      { m with s := (m.s.putLoam cr.core cr.bank o bs).tagAt (s.chainWho c) (s.windowOf cr + o) f, done := done } := by
  have haside := h.aside.trans (m.s.putLoam_aside cr o bs)
  have hscratch := haside.scratchOf hs
  have hwho : (m.s.putLoam cr.core cr.bank o bs).chainWho c = s.chainWho c := by
    rw [hscratch.chainWho_eq, hs.chainWho_eq, Core.ctxOf, haside.ctxs]
    rfl
  have htag : (m.s.putLoam cr.core cr.bank o bs).tagAt (s.chainWho c) (s.windowOf cr + o) f
      = (m.s.putLoam cr.core cr.bank o bs).setTag cr.core cr.bank o f := by
    rw [← hwho, ← haside.windowOf_eq]
    exact hscratch.tagAt_eq hlo (by omega) f
  rw [htag]
  refine ⟨haside.trans (State.setTag_aside ..), ?_, ?_, h.before, h.zeros, h.bad⟩
  · show State.bankOf (State.setTag ..) cr = _
    rw [State.setTag_bankOf, State.putLoam_bankOf, h.bank, Memory.putAll_append]
    rfl
  · intro e he
    rcases List.mem_append.1 he with he | he
    · exact h.inside e he
    · obtain rfl := List.mem_singleton.1 he
      exact hin

end Move.Wrote

/-! ### Granules, runs and rows -/

theorem lineRuns_flatten (addr : Nat → Nat) (n : Nat) : (lineRuns addr n).flatten = List.range n := by
  rw [lineRuns]
  induction List.range n with
  | nil => rfl
  | cons g l ih =>
    rw [List.foldr_cons]
    conv_rhs => rw [← ih]
    generalize List.foldr _ _ l = rs
    rcases rs with _ | ⟨_ | ⟨a, as⟩, rest⟩
    · rfl
    · rfl
    · by_cases hline : lineOf (addr g) = lineOf (addr a)
      · simp only [hline, if_true]
        rfl
      · simp only [hline, if_false]
        rfl

theorem Move.row_eq (m : Move) {src d : TileRec} (hloam : d.space ≠ 0) (w : Who) (f : Nat × Bool) (r r' : Nat) : m.row w src d f r r'
    = (List.range (src.rowlen / 16)).foldl (fun m g => m.granule w src d f r r' g) m := by
  rw [← lineRuns_flatten (fun g => d.byteAddr r' (16 * g)), List.foldl_flatten]
  refine List.foldl_ext _ _ _ fun m gs _ => ?_
  simp [Move.run, hloam]

/-- What a granule of the source writes into the destination. -/
def State.granuleJob (s : State) (cr : Crew) (src d : TileRec) (r r' g : Nat) : List (Nat × List Byte) :=
  [(s.spotOf cr d r' g, (s.bankOf cr).bytes (s.spotOf cr src r g) 16)]

/-- What a row of the source writes into the destination. -/
def State.rowJobs (s : State) (cr : Crew) (src d : TileRec) (r r' : Nat) : List (Nat × List Byte) :=
  (List.range (src.rowlen / 16)).flatMap (s.granuleJob cr src d r r')

/-- A transfer whose writes stand in the tile `d`. -/
abbrev Move.Fills (s : State) (cr : Crew) (d : TileRec) (jobs : List (Nat × List Byte)) (m : Move) : Prop :=
  Move.Wrote s cr (d.range.1 - s.windowOf cr) (d.range.2 - s.windowOf cr) jobs m

section rows
variable {d : TileRec} {r g : Nat} (hs : s.ScratchOf c cr) (hd : s.Holds cr d)
include hs hd

/-- A granule stored, as a chain's engines do it. -/
theorem Move.Wrote.writeGranule (h : m.Fills s cr d jobs) {bs : List Byte} (hlen : bs.length = 16) (hr : r < d.rows)
    (hg : g < d.rowlen / 16) (f : Nat × Bool) (done : Nat) :
    m.s.enginePut (s.chainWho c) hwAgent (d.byteAddr r (16 * g)) bs = (m.s.putLoam cr.core cr.bank (s.spotOf cr d r g) bs, none)
    ∧ Move.Fills s cr d (jobs ++ [(s.spotOf cr d r g, bs)]) { m with
        s := (m.s.putLoam cr.core cr.bank (s.spotOf cr d r g) bs).tagAt (s.chainWho c) (d.byteAddr r (16 * g)) f, done := done } := by
  obtain ⟨haddr, hlo, hhi⟩ := hd.spot_eq hr hg
  have hbyte : d.byteAddr r (16 * g) = s.windowOf cr + s.spotOf cr d r g := by
    rw [haddr]
    exact hd.byteAddr_granule hr hg (by decide : 0 < 16)
  have hin := hd.spot_mem hr hg
  rw [hbyte]
  exact ⟨h.enginePut_eq hs (by omega) hlo (by omega) _, h.write hs (by omega) hlo (by omega) (by omega) f done⟩

section moves
variable {src : TileRec} {r' : Nat} {f : Nat × Bool} (hsrc : s.Holds cr src)
  (hapart : src.range.2 ≤ d.range.1 ∨ d.range.2 ≤ src.range.1)
include hsrc hapart

theorem Move.Wrote.granule (h : m.Fills s cr d jobs) (hr : r < src.rows) (hr' : r' < d.rows) (hg : g < src.rowlen / 16)
    (hlen : src.rowlen = d.rowlen) :
    Move.Fills s cr d (jobs ++ s.granuleJob cr src d r r' g) (m.granule (s.chainWho c) src d f r r' g) := by
  obtain ⟨haddr, hlo, hhi⟩ := hsrc.spot_eq hr hg
  have hread : m.s.engineGet (s.chainWho c) (src.byteAddr r (16 * g)) 16
      = (m.s, (s.bankOf cr).bytes (s.spotOf cr src r g) 16, [], none) := by
    have hbyte : src.byteAddr r (16 * g) = s.windowOf cr + s.spotOf cr src r g := by
      rw [haddr]
      exact hsrc.byteAddr_granule hr hg (by decide : 0 < 16)
    have hsame : ((s.bankOf cr).putAll jobs).bytes (s.spotOf cr src r g) 16 = (s.bankOf cr).bytes (s.spotOf cr src r g) 16 := by
      refine Memory.bytes_putAll_apart _ fun e he => ?_
      have hin := h.inside e he
      have hmem := hsrc.spot_mem hr hg
      simp only [apart]
      omega
    rw [hbyte, h.engineGet_eq hs (by decide) hlo hhi, hsame]
  obtain ⟨hput, hwrote⟩ := h.writeGranule hs hd (bs := (s.bankOf cr).bytes (s.spotOf cr src r g) 16) (by simp [Memory.bytes]) hr'
    (hlen ▸ hg) f (m.done + 16)
  have hloam := hd.loam
  rw [h.bad] at hwrote
  simp only [Move.granule, h.bad, hread, hput, hloam, if_false, List.append_nil]
  exact hwrote

theorem Move.Wrote.row (h : m.Fills s cr d jobs) (hr : r < src.rows) (hr' : r' < d.rows) (hlen : src.rowlen = d.rowlen) :
    Move.Fills s cr d (jobs ++ s.rowJobs cr src d r r') (m.row (s.chainWho c) src d f r r') := by
  rw [Move.row_eq m hd.loam]
  exact h.foldl fun g hg m jobs h => h.granule hs hd hsrc hapart hr hr' hg hlen

end moves
end rows

end Sys2Proof.Machine
end

section
/-!
PROOFS. All rows of a copy, a gather or a scatter inside one crew's scratch, and what its destination then holds (R139).
-/
namespace Sys2Proof.Machine

variable {s : State} {c : Chain} {cr : Crew} {m : Move} {jobs : List (Nat × List Byte)} {d : TileRec}

/-! ### What a finished transfer leaves -/

/-- Row after row written: the rows are those that `dr` numbers, their granules `data` gives. -/
def State.tileJobs (s : State) (cr : Crew) (d : TileRec) (dr : Nat → Nat) (data : Nat → Nat → List Byte) (n : Nat) :
    List (Nat × List Byte) :=
  (List.range n).flatMap fun k => (List.range (d.rowlen / 16)).flatMap fun g => [(s.spotOf cr d (dr k) g, data k g)]

theorem Move.Wrote.tileBytes_eq {dr : Nat → Nat} {data : Nat → Nat → List Byte} {n k : Nat} (hd : s.Holds cr d)
    (h : m.Fills s cr d (s.tileJobs cr d dr data n)) (hlen : ∀ k < n, ∀ g < d.rowlen / 16, (data k g).length = 16)
    (hrows : ∀ k < n, dr k < d.rows) (hinj : ∀ j < n, ∀ k < n, dr j = dr k → j = k) (hk : k < n) :
    m.s.tileBytes cr d (dr k) = (List.range (d.rowlen / 16)).flatMap (data k) := by
  have hwin := h.aside.windowOf_eq
  have hd' : m.s.Holds cr d := by rw [State.Holds, hwin]; exact hd
  rw [hd'.tileBytes_eq (hrows k hk)]
  refine List.flatMap_congr fun g hg => ?_
  replace hg := List.mem_range.1 hg
  have hspot : m.s.spotOf cr d (dr k) g = s.spotOf cr d (dr k) g := by rw [State.spotOf, State.spotOf, hwin]
  have hmem : (s.spotOf cr d (dr k) g, data k g) ∈ s.tileJobs cr d dr data n := by
    simp only [State.tileJobs, List.mem_flatMap, List.mem_range, List.mem_singleton]
    exact ⟨k, hk, g, hg, rfl⟩
  have hput := Memory.bytes_putAll_mem (s.bankOf cr) hmem fun e he => by
    simp only [State.tileJobs, List.mem_flatMap, List.mem_range, List.mem_singleton] at he
    obtain ⟨k', hk', g', hg', rfl⟩ := he
    by_cases hsame : k = k' ∧ g = g'
    · obtain ⟨rfl, rfl⟩ := hsame
      exact .inl rfl
    · right
      have hne : dr k ≠ dr k' ∨ g ≠ g' := by
        by_contra hcon
        simp only [ne_eq, not_or, not_not] at hcon
        exact hsame ⟨hinj _ hk _ hk' hcon.1, hcon.2⟩
      have hap := hd.granule_apart (r := dr k) (r' := dr k') hg hg' hne
      have h1 := (hd.spot_eq (hrows k hk) hg).1
      have h2 := (hd.spot_eq (hrows k' hk') hg').1
      simp only [apart] at hap ⊢
      rw [hlen k hk g hg, hlen k' hk' g' hg']
      omega
  rw [hlen k hk g hg] at hput
  rw [h.bank, hspot, hput]

/-! ### The rows of a copy, a gather and a scatter -/

/-- One round of `moveRows`. -/
def Move.round (c : Chain) (w : Who) (ty tab : Nat) (src dst : TileRec) (f : Nat × Bool) (m : Move) (k : Nat) : Move :=
  match m.bad with
  | some _ => m
  | none =>
    if ty = 0x02 then m.row w src dst f k k
    else match m.s.tableIndex c tab k with
      | (s1, .inr cause) => { m with s := s1, bad := some (cause, tab + 4 * k) }
      | (s1, .inl (ix, z)) =>
        let limit := if ty = 0x03 then src.rows else dst.rows
        let m1 := { m with s := s1, before := m.before + z }
        if limit ≤ ix then { m1 with bad := some (0x07, tab + 4 * k) }
        else if ty = 0x03 then m1.row w src dst f ix k
        else m1.row w src dst f k ix

theorem moveRows_eq (c : Chain) (w : Who) (ty tab : Nat) (src dst : TileRec) (f : Nat × Bool) (n : Nat) (m : Move) :
    moveRows c w ty tab src dst f n m = (List.range n).foldl (Move.round c w ty tab src dst f) m := rfl

section moves
variable {src : TileRec} {f : Nat × Bool} {ty tab n k : Nat}

/-- A transfer whose rounds each move the row that `sr` names to the one that `dr` names. -/
theorem moveRows_fills {sr dr : Nat → Nat} (hs : s.ScratchOf c cr) (hd : s.Holds cr d) (hsrc : s.Holds cr src)
    (hapart : src.range.2 ≤ d.range.1 ∨ d.range.2 ≤ src.range.1) (hlen : src.rowlen = d.rowlen) (hsr : ∀ k < n, sr k < src.rows)
    (hdr : ∀ k < n, dr k < d.rows) (hinj : ∀ j < n, ∀ k < n, dr j = dr k → j = k)
    (hround : ∀ k < n, ∀ m jobs, Move.Fills s cr d jobs m →
      m.round c (s.chainWho c) ty tab src d f k = m.row (s.chainWho c) src d f (sr k) (dr k)) :
    ∃ jobs, Move.Fills s cr d jobs (moveRows c (s.chainWho c) ty tab src d f n ⟨s, 0, 0, [], none⟩)
      ∧ ∀ k < n, (moveRows c (s.chainWho c) ty tab src d f n ⟨s, 0, 0, [], none⟩).s.tileBytes cr d (dr k) = s.tileBytes cr src (sr k) := by
  have hfold := (Move.Wrote.start s cr (d.range.1 - s.windowOf cr) (d.range.2 - s.windowOf cr)).foldl
    (step := Move.round c (s.chainWho c) ty tab src d f) (job := fun k => s.rowJobs cr src d (sr k) (dr k)) (n := n)
    fun k hk m jobs h => by
      rw [hround k hk m jobs h]
      exact h.row hs hd hsrc hapart (hsr k hk) (hdr k hk) hlen
  rw [← moveRows_eq, List.nil_append] at hfold
  have hjobs : ((List.range n).flatMap fun k => s.rowJobs cr src d (sr k) (dr k))
      = s.tileJobs cr d dr (fun k g => (s.bankOf cr).bytes (s.spotOf cr src (sr k) g) 16) n := by
    simp only [State.tileJobs, State.rowJobs, hlen]
    rfl
  refine ⟨_, hfold, fun k hk => ?_⟩
  rw [hjobs] at hfold
  rw [hfold.tileBytes_eq hd (fun _ _ _ _ => by simp [Memory.bytes]) hdr hinj hk, hsrc.tileBytes_eq (hsr k hk), hlen]

theorem Move.Wrote.round_copy (h : m.Fills s cr d jobs) (w : Who) : m.round c w 0x02 tab src d f k = m.row w src d f k k := by
  simp only [Move.round, h.bad, if_true]

/-- An index that stands outside the destination reads as before the transfer. -/
theorem Move.Wrote.tableIndex_eq (h : m.Fills s cr d jobs) (hs : s.ScratchOf c cr) (hk : k < n)
    (hroom : tab + 4 * n ≤ cr.lsg * 16384) (hout : s.windowAddr cr tab + 4 * n ≤ d.range.1 ∨ d.range.2 ≤ s.windowAddr cr tab) :
    m.s.tableIndex c tab k = (m.s, .inl (bytesToNat (s.scratch cr (tab + 4 * k) 4), 0)) := by
  rw [(h.aside.scratchOf hs).tableIndex_eq (by omega)]
  have hsame : (m.s.bankOf cr).bytes (cr.base + (tab + 4 * k)) 4 = (s.bankOf cr).bytes (cr.base + (tab + 4 * k)) 4 := by
    rw [h.bank]
    refine Memory.bytes_putAll_apart _ fun e he => ?_
    have hin := h.inside e he
    have haddr : s.windowAddr cr tab = s.windowOf cr + cr.base + tab := rfl
    simp only [apart]
    omega
  exact congrArg (fun bs => (m.s, Sum.inl (bytesToNat bs, 0))) hsame

theorem Move.Wrote.round_gather {ix : Nat} (h : m.Fills s cr d jobs) (w : Who) (hix : m.s.tableIndex c tab k = (m.s, .inl (ix, 0)))
    (hlt : ix < src.rows) : m.round c w 0x03 tab src d f k = m.row w src d f ix k := by
  simp only [Move.round, h.bad, hix, if_true, Nat.not_le.2 hlt, if_false, Nat.add_zero, show (3 : Nat) ≠ 2 by decide]
  rw [← h.bad]

theorem Move.Wrote.round_scatter {ix : Nat} (h : m.Fills s cr d jobs) (w : Who) (hix : m.s.tableIndex c tab k = (m.s, .inl (ix, 0)))
    (hlt : ix < d.rows) : m.round c w 0x04 tab src d f k = m.row w src d f k ix := by
  simp only [Move.round, h.bad, hix, Nat.not_le.2 hlt, if_false, Nat.add_zero, show (4 : Nat) ≠ 2 by decide,
    show (4 : Nat) ≠ 3 by decide]
  rw [← h.bad]

end moves

end Sys2Proof.Machine
end

section
/-!
PROOFS. Entries of chains whose words, records and tiles stand in the scratch of their crew (R139, R229 to R233).
-/
namespace Sys2Proof.Machine

variable {s : State} {id ty off : Nat} {c : Chain} {cr : Crew} {d : TileRec} {m : Move} {jobs : List (Nat × List Byte)}
  {w0 w1 w2 w3 : Word}

/-! ### Reading an entry and its records -/

theorem State.entryIs.atEntry (h : s.entryIs c cr ty w0 w1 w2 w3) (hc : s.crewChain id c cr) :
    s.atEntry id ty c s (w0, w1, w2, w3) := by
  have hget := hc.scratchOf.areaGet_eq (off := s.headerOff c + 32 + 32 * c.idx) (by decide : 0 < 32)
  obtain ⟨hfind, hst, hturn, -⟩ := hc
  obtain ⟨hidx, hroom, rfl, rfl, rfl, rfl, hty, hallow, hres⟩ := h
  refine ⟨c, 0, _, s, hfind, .inr hst, hturn, ?_, hidx, ?_, hget hroom, rfl, hty, hallow, hres⟩
  · rw [← hst]
    rfl
  · rw [hst]
    rfl

/-- The checks that a tile record in the scratch passes, when it is loaded from and when it is stored to. -/
theorem State.tileAt.checked (h : s.tileAt c cr off d) : s.rangeOk (s.chainWho c) d.space d.range = true ∧ d.shapeBad = false
    ∧ d.scaled = false ∧ d.space ≠ 0 := by
  obtain ⟨-, -, -, hspace, hshape, hscaled, -, hown⟩ := h
  rw [hspace]
  exact ⟨hown, hshape, hscaled, by decide⟩

theorem State.tileAt.checkRecLate_eq (h : s.tileAt c cr off d) (acc : AccKind) :
    s.checkRecLate (s.chainWho c) d acc = (s, s.loamFormat (s.chainWho c) d, none) := by
  obtain ⟨hrange, hshape, hscaled, hspace⟩ := h.checked
  have hfmt : (d.fmt != 0 && d.fmt != (s.loamFormat (s.chainWho c) d).1) = false := by
    unfold State.loamFormat
    split
    · simp
    · next hf => simp [not_not.1 hf]
  simp only [State.checkRecLate, State.checkRecAttr, hshape, Bool.false_eq_true, if_false, hrange, Bool.not_true, hspace, hscaled,
    Bool.false_and, hfmt, Bool.or_false]
  rfl

theorem State.tileAt.storeBad_eq (h : s.tileAt c cr off d) {fmt : Nat} (hrows : d.rows = 32) (hlen : d.rowlen = rowBytesOf fmt)
    (hfmt : d.fmt = 0 ∨ d.fmt = fmt) : s.storeBad (s.chainWho c) d fmt false = none := by
  obtain ⟨hrange, hshape, hscaled, hspace⟩ := h.checked
  have hf : (d.fmt != 0 && d.fmt != fmt) = false := by rcases hfmt with hf | hf <;> simp [hf]
  have h32 : (d.rows != 32) = false := by simp [hrows]
  have hlen' : (d.rowlen != rowBytesOf fmt) = false := by simp [hlen]
  simp only [State.storeBad, hshape, h32, hlen', hrange, hscaled, hf, hspace, Bool.or_self, Bool.not_true, Bool.false_and,
    Bool.false_eq_true, if_false, bne_self_eq_false]

theorem State.tileAt.recordAt_eq (h : s.tileAt c cr off d) (hs : s.ScratchOf c cr) : s.recordAt c off = (s, .inl (d, 0)) := by
  obtain ⟨ha, hroom, rfl, -⟩ := h
  exact hs.recordAt_eq ha hroom

/-! ### Copies -/

/-- A transfer inside the scratch leaves all but the bank, and its chain at the next entry. -/
theorem Move.Wrote.putChain {lo hi : Nat} (h : Move.Wrote s cr lo hi jobs m) :
    (m.s.putChain id { c with zsub := c.zsub + m.zsub, idx := c.idx + 1 }).chains = s.chains.set id { c with idx := c.idx + 1 }
    ∧ m.s.threads = s.threads ∧ m.s.crews = s.crews ∧ m.s.mem = s.mem := by
  refine ⟨?_, h.aside.threads, h.aside.crews, h.aside.mem⟩
  show m.s.chains.set id _ = _
  rw [h.aside.chains, h.zsub_eq]
  rfl

/-- A copy between tiles in the scratch, without a buffer. -/
theorem copyEntry_tiles {src : TileRec} (hc : s.crewChain id c cr) (he : s.entryIs c cr ty w0 w1 w2 w3)
    (hsrc : s.tileAt c cr (fld w1 21 0) src) (hd : s.tileAt c cr (fld w2 21 0) d) (h8 : bitAt w0 8 = false)
    (hlen : src.rowlen = d.rowlen) (hrows : ty = 0x02 → src.rows = d.rows) (htab : ty ≠ 0x02 → fld w3 21 0 % 4 = 0)
    (hm : m = moveRows c (s.chainWho c) ty (fld w3 21 0) src d (s.loamFormat (s.chainWho c) src)
      (if ty = 0x04 then src.rows else d.rows) ⟨s, 0, 0, [], none⟩) (h : m.Fills s cr d jobs) :
    copyEntry s id ty = .next (m.s.putChain id { c with zsub := c.zsub + m.zsub, idx := c.idx + 1 }) := by
  have hbuf : s.copyBuffer c w0 = none := by simp [State.copyBuffer, h8]
  have hcount : s.countCopy c w0 = (s, 0) := by simp [State.countCopy, h8]
  have hs := hc.scratchOf
  refine copyEntry_moves (he.atEntry hc) (s2 := s) (s3 := s) (s4 := s) (s5 := s) (z1 := 0) (z2 := 0) (d0 := d) (by simp [h8]) htab ?_
    (hd.recordAt_eq hs) ?_ hlen hrows ?_ (hsrc.checkRecLate_eq .load) (hd.checkRecLate_eq .store) ?_ h.bad
  · rw [hcount]
    exact hsrc.recordAt_eq hs
  · rw [hbuf]
    rfl
  · simp [hbuf]
  · rw [hm, hbuf, hcount]
    rfl

/-! ### TAKE -/

theorem State.ScratchOf.loamWords_eq (hs : s.ScratchOf c cr) (o n : Nat) : s.loamWords cr.core o (4 * n) (.bytes cr.bank)
    = (s, (List.range n).map fun j => BitVec.ofNat 32 (bytesToNat (s.loamBytes cr.core cr.bank (o + 4 * j) 4)), 0) := by
  rw [State.loamWords, Nat.mul_div_cancel_left _ (by decide : 0 < 4)]
  induction n with
  | zero => rfl
  | succ n ih =>
    rw [List.range_succ, List.foldl_append, ih, List.map_append]
    simp only [List.foldl_cons, List.foldl_nil, hs.engineLoam_eq]
    rfl

/-! ### STORE -/

/-- What a row stored writes. -/
def State.storeJobs (s : State) (cr : Crew) (d : TileRec) (r : Nat) (row : List Byte) : List (Nat × List Byte) :=
  (List.range (d.rowlen / 16)).flatMap fun g => [(s.spotOf cr d r g, (row.drop (16 * g)).take 16)]

theorem Move.putRow_eq (m : Move) (hloam : d.space ≠ 0) (w : Who) (f : Nat × Bool) (r : Nat) (row : List Byte) : m.putRow w d f r row
    = (List.range (d.rowlen / 16)).foldl (fun m g => m.put w true f (d.byteAddr r (16 * g)) ((row.drop (16 * g)).take 16)) m := by
  have hloam' : (d.space != 0) = true := by simpa using hloam
  rw [← lineRuns_flatten (fun g => d.byteAddr r (16 * g)), List.foldl_flatten]
  refine List.foldl_ext _ _ _ fun m gs _ => ?_
  simp only [Move.putRun, hloam', Bool.true_or, if_true]

theorem Move.Wrote.storeRow {r : Nat} {row : List Byte} (h : m.Fills s cr d jobs) (hs : s.ScratchOf c cr) (hd : s.Holds cr d)
    (hr : r < d.rows) (hrow : row.length = d.rowlen) (fmt : Nat) (scales : List Byte) :
    Move.Fills s cr d (jobs ++ s.storeJobs cr d r row) (storeRow (s.chainWho c) d (fmt, false) row scales r m) := by
  show Move.Fills s cr d _ (m.putRow (s.chainWho c) d (fmt, false) r row)
  rw [Move.putRow_eq m hd.loam]
  refine h.foldl fun g hg m jobs h => ?_
  have hlen : ((row.drop (16 * g)).take 16).length = 16 := by
    rw [List.length_take, List.length_drop, hrow]
    omega
  obtain ⟨hput, hwrote⟩ := h.writeGranule hs hd hlen hr hg (fmt, false) (m.done + ((row.drop (16 * g)).take 16).length)
  rw [h.bad] at hwrote
  simp only [Move.put, h.bad, hput, if_true]
  exact hwrote

/-- A list is its pieces of sixteen. -/
theorem flatMap_pieces (l : List Byte) (n : Nat) :
    ((List.range n).flatMap fun g => (l.drop (16 * g)).take 16) = l.take (16 * n) := by
  induction n with
  | zero => simp
  | succ n ih => rw [List.range_succ, List.flatMap_append, ih, List.flatMap_singleton, Nat.mul_succ, List.take_add]

theorem storeRows_fills {bytes : List Byte} (hs : s.ScratchOf c cr) (hd : s.Holds cr d) (hrows : d.rows = 32)
    (hbytes : bytes.length = 32 * d.rowlen) (fmt : Nat) (scales : Nat → List Byte)
    (hm : m = (List.range 32).foldl (fun (m : Move) r => storeRow (s.chainWho c) d (fmt, false)
      ((bytes.drop (d.rowlen * r)).take d.rowlen) (scales r) r m) ⟨s, 0, 0, [], none⟩) :
    ∃ jobs, m.Fills s cr d jobs ∧ ∀ r < 32, m.s.tileBytes cr d r = (bytes.drop (d.rowlen * r)).take d.rowlen := by
  have hrow : ∀ r < 32, ((bytes.drop (d.rowlen * r)).take d.rowlen).length = d.rowlen := by
    intro r hr
    have : d.rowlen * r + d.rowlen ≤ 32 * d.rowlen := by
      rw [← Nat.mul_succ, Nat.mul_comm]
      exact Nat.mul_le_mul_right _ hr
    rw [List.length_take, List.length_drop, hbytes]
    omega
  have hfold := (Move.Wrote.start s cr (d.range.1 - s.windowOf cr) (d.range.2 - s.windowOf cr)).foldl
    (step := fun (m : Move) r => storeRow (s.chainWho c) d (fmt, false) ((bytes.drop (d.rowlen * r)).take d.rowlen) (scales r) r m)
    (job := fun r => s.storeJobs cr d r ((bytes.drop (d.rowlen * r)).take d.rowlen)) (n := 32)
    fun r hr m jobs h => h.storeRow hs hd (hrows ▸ hr) (hrow r hr) fmt (scales r)
  rw [← hm, List.nil_append] at hfold
  have hfills : m.Fills s cr d
      (s.tileJobs cr d id (fun r g => (((bytes.drop (d.rowlen * r)).take d.rowlen).drop (16 * g)).take 16) 32) := hfold
  refine ⟨_, hfills, fun r hr => ?_⟩
  refine (hfills.tileBytes_eq hd (fun r hr g hg => ?_) (fun r hr => hrows ▸ hr) (fun _ _ _ _ => id) hr).trans ?_
  · rw [List.length_take, List.length_drop, hrow r hr]
    omega
  · rw [flatMap_pieces, hd.rowlen_eq]
    exact List.take_of_length_le (hrow r hr).le

end Sys2Proof.Machine
end

section
/-!
PROOFS. O52, the entries of a chain and of an epilogue.
-/
namespace Sys2Proof.Machine

/-- Settles O52: what an entry reads in the scratch is what the general clauses ask for, and the tiles that a transfer fills
hold the source's granules, each written once. -/
theorem chainEntries : Obligations.ChainEntries := by
  refine ⟨?scratch, ?every⟩
  case scratch =>
    intro s chain ty c cr w0 w1 w2 w3 hc he off here room on moves holds branch k ctr word ring cfg rw released w
    have h := he.atEntry hc
    have hs := hc.scratchOf
    have hbranch : ∀ x y : Nat, .next (s.putChain chain (c.branch w0 0 x y)) = branch (holds x y) := by
      intro x y
      have hcmp : cmpHolds (fld w0 15 14) x y = holds x y := rfl
      simp only [Chain.branch, hcmp]
      cases holds x y <;> rfl
    refine ⟨?_, ?_, ?_, ?_, ?_, ?_, ?_, ?_, ?_, ?_⟩
    · rintro rfl
      exact execEndEntry_at h
    · rintro rfl h0 hidx
      have hput : ∀ armed n, s.putLoop c w0 w2 armed n = (s.putScratch cr here (natBytes 8 (setFld w0 8 8 armed).toNat)).putScratch cr
          (here + 16) (natBytes 8 (setFld w2 31 0 n).toNat) := by
        intro armed n
        have hroom : here + 32 ≤ cr.lsg * 16384 := he.2.1
        rw [State.putLoop, hs.areaPut_eq (by simp [natBytes]) (by simp [natBytes]; omega)]
        exact ((State.putLoam_aside ..).scratchOf hs).areaPut_eq (by simp [natBytes]) (by simp [natBytes]; omega)
      obtain ⟨hgo, hend⟩ := execLoop_at h h0 hidx
      exact ⟨fun hr => by rw [hgo hr, hput], fun hr => by rw [hend hr, hput]⟩
    · rintro rfl h8 ha hroom
      exact (execIfEntry_word h h8 ha (hs.areaGet_eq (by decide) hroom)).trans (hbranch _ _)
    · rintro rfl h8 hv
      rw [execIfEntry_buffer h h8 (hs.chainBuffer_eq hv), hs.countChain_eq]
      exact hbranch _ _
    · rintro rfl hg h8 ha hroom
      rw [execSignal_word h hg h8 ha (hs.areaGet_eq (by decide) hroom), hs.areaPut_eq (by simp [natBytes]) (by simpa [natBytes] using hroom)]
      rfl
    · rintro rfl hg h8 h1 h128 hw2 hv hfree
      rw [execSignal_slots h hg h8 h1 h128 hw2 (hs.chainBuffer_eq hv) hfree, hs.countChain_eq]
      rfl
    · intro src dst hsrc hdst hlen h8 hapart
      have hholds := hdst.holds hs
      refine ⟨?_, ?_⟩
      · rintro rfl hrows
        obtain ⟨jobs, hfills, hrow⟩ := moveRows_fills (ty := 0x02) (tab := fld w3 21 0) (n := dst.rows) (sr := id) (dr := id)
          (f := s.loamFormat (s.chainWho c) src) hs hholds (hsrc.holds hs) hapart hlen (fun k hk => hrows ▸ hk) (fun k hk => hk)
          (fun _ _ _ _ => id) fun k hk m jobs h => h.round_copy _
        exact ⟨_, ⟨copyEntry_tiles hc he hsrc hdst h8 hlen (fun _ => hrows) (fun hne => absurd rfl hne) rfl hfills, hfills.putChain⟩,
          fun r hr => hrow r (hrows ▸ hr)⟩
      intro ix hix ha n table hroom hout
      refine ⟨?_, ?_⟩
      · rintro rfl hlt
        obtain ⟨jobs, hfills, hrow⟩ := moveRows_fills (ty := 0x03) (tab := fld w3 21 0) (n := n) (sr := ix) (dr := id)
          (f := s.loamFormat (s.chainWho c) src) hs hholds (hsrc.holds hs) hapart hlen hlt (fun k hk => hk) (fun _ _ _ _ => id)
          fun k hk m jobs h => h.round_gather _ (by rw [hix]; exact h.tableIndex_eq hs hk hroom hout) (hlt k hk)
        exact ⟨_, ⟨copyEntry_tiles hc he hsrc hdst h8 hlen (by simp) (fun _ => ha) rfl hfills, hfills.putChain⟩, hrow⟩
      · rintro rfl hlt hnodup
        have hinj : ∀ j < n, ∀ k < n, ix j = ix k → j = k := fun j hj k hk =>
          List.inj_on_of_nodup_map hnodup (List.mem_range.2 hj) (List.mem_range.2 hk)
        obtain ⟨jobs, hfills, hrow⟩ := moveRows_fills (ty := 0x04) (tab := fld w3 21 0) (n := n) (sr := id) (dr := ix)
          (f := s.loamFormat (s.chainWho c) src) hs hholds (hsrc.holds hs) hapart hlen (fun k hk => hk) hlt hinj
          fun k hk m jobs h => h.round_scatter _ (by rw [hix]; exact h.tableIndex_eq hs hk hroom hout) (hlt k hk)
        exact ⟨_, ⟨copyEntry_tiles hc he hsrc hdst h8 hlen (by simp) (fun _ => ha) rfl hfills, hfills.putChain⟩, hrow⟩
    · rintro rfl hv hcl
      have hwords := hs.loamWords_eq (fld cfg 21 0 + 16384 * fld rw 14 12) 4096
      rw [execTake_closed (hs.chainRing_eq hv) h hcl (hs.countChain_eq _) hwords]
      generalize List.map _ (List.range 4096) = tile
      rfl
    · rintro rfl hv hcl
      rw [execRelease_closed (hs.chainRing_eq hv) h hcl, hs.countChain_eq]
      rfl
    · intro ht elem vec
      refine ⟨?_, ?_, ?_, ?_, ?_, ?_, ?_⟩
      · rintro rfl ha hroom
        exact vecEntry_at ht h (hs.areaElems_eq (by decide) (by decide) ha hroom) _
      · rintro rfl ha hroom
        exact vecEntry_at ht h (hs.areaElems_eq (by decide) (by decide) ha hroom) _
      · rintro rfl
        exact (execAct_at ht h).1
      · rintro rfl
        exact (execAct_at ht h).2.1
      · rintro rfl hf ha hroom hnan
        exact (execAct_at ht h).2.2.2 hf hnan _ _ _ (hs.areaElems_eq (by decide) (by decide) ha hroom)
      · rintro rfl h1 h5 hscl hf o
        have hcvt := execCvt_plain ht h h1 h5 (by simp only [List.mem_cons, List.not_mem_nil, or_false] at hf ⊢; tauto)
        rw [Chain.converted, hscl] at hcvt
        exact hcvt
      · rintro t rfl htile f bytes hf hrows hlen hfmt hbytes
        have hout : (f.1, false) = c.tiles.out.getD (7, false) := Prod.ext rfl hf.symm
        obtain ⟨jobs, hfills, hrow⟩ := storeRows_fills hs (htile.holds hs) hrows hbytes f.1
          (fun r => (c.tiles.scales.drop (rowBlocks t.rowlen f.1 * r)).take (rowBlocks t.rowlen f.1)) rfl
        exact ⟨_, ⟨execStore_at ht h (htile.recordAt_eq hs) hout (htile.storeBad_eq hrows hlen hfmt) rfl hfills.bad, hfills.putChain⟩, hrow⟩
  case every =>
    intro s s1 id ty c w0 w1 w2 w3 h off here on w holds branch
    have hbranch : ∀ (s2 : State) (z x y : Nat),
        .next (s2.putChain id (c.branch w0 z x y)) = branch s2 { c with zsub := c.zsub + z } (holds x y) := by
      intro s2 z x y
      have hcmp : cmpHolds (fld w0 15 14) x y = holds x y := rfl
      simp only [Chain.branch, hcmp]
      cases holds x y <;> rfl
    refine ⟨?_, ?_, ?_, ?_, ?_, ?_, ?_, ?_, ?_, ?_, ?_⟩
    · rintro rfl
      exact execEndEntry_at h
    · rintro rfl h0 hc
      exact execLoop_at h h0 hc
    · rintro rfl h8 ha s2 bs z hget
      exact (execIfEntry_word h h8 ha hget).trans (hbranch _ _ _ _)
    · rintro rfl h8 cr cfg ctr hbuf
      exact (execIfEntry_buffer h h8 hbuf).trans (hbranch _ _ _ _)
    · intro hg
      show execSignal id s = _
      exact h.skip fun _ => by simp only [hg, if_true]
    · rintro rfl hg h8 ha s2 bs z hget
      exact execSignal_word h hg h8 ha hget
    · rintro rfl hg h8 h1 h128 hw2 cr cfg ctr hbuf hroom
      exact execSignal_slots h hg h8 h1 h128 hw2 hbuf hroom
    · intro hty buf i q hbuf
      have hexec : exec i s = copyEntry s id ty := by
        rcases hty with rfl | rfl | rfl <;> rfl
      refine ⟨fun hfree => ?_, ?_⟩
      · rw [hexec]
        exact copyEntry_blocked h hfree
      · intro s2 s3 s4 s5 src d0 dst z1 z2 f f2 m htab hsrc hdst htarget hlen hrows hslot hload hstore hm hbad
        rw [hexec]
        refine copyEntry_moves h hbuf htab hsrc hdst ?_ hlen hrows hslot hload hstore ?_ hbad
        · exact htarget
        · exact hm
    · rintro rfl cr cfg ctr hring
      exact ⟨fun hc => execTake_closed hring h hc rfl rfl, fun hc => execTake_open hring h hc⟩
    · rintro rfl cr cfg ctr hring hc
      exact execRelease_closed hring h hc
    · intro ht
      refine ⟨fun s2 v z hv => ⟨?_, ?_⟩, ?_, ?_, ?_, ?_, ?_, ?_⟩
      · rintro rfl
        exact vecEntry_at ht h hv _
      · rintro rfl
        exact vecEntry_at ht h hv _
      · rintro rfl
        exact (execAct_at ht h).1
      · rintro rfl
        exact (execAct_at ht h).2.1
      · rintro rfl
        exact (execAct_at ht h).2.2.1
      · rintro rfl
        exact (execAct_at ht h).2.2.2
      · rintro rfl h1 h5
        exact ⟨fun hf => execCvt_plain (c := c) ht h h1 h5 hf, fun book k h6 hs hbook hk => execCvt_book (c := c) ht h h1 h5 h6 hs hbook hk⟩
      · rintro rfl s2 t z m hrec
        exact fun hok hm hbad => execStore_at ht h hrec rfl hok hm hbad

end Sys2Proof.Machine
end

section
/-!
PROOFS. TLBINV (R162, R163, R472).
-/
namespace Sys2Proof.Machine

variable {s : State} {k : Nat}

/-- No store of the thread, no access in flight and no store held back past a service call stands in the way of dropping what
is named (R162). -/
def State.invQuiet (s : State) (k : Nat) (n : InvName) : Prop :=
  s.storesPending k = false ∧ s.heldStores n = false ∧ s.mem.inflight.all (fun e => !n.usedBy e.2) = true

theorem State.tlbinv_quiet {n : InvName} (h : s.invQuiet k n) : s.tlbinv k n = .go (s.withMem (s.mem.invalidate n)) .next := by
  obtain ⟨hstores, hheld, hflight⟩ := h
  have hflight' : (s.mem.inflight.any fun e => n.usedBy e.2) = false := by simpa using hflight
  simp [State.tlbinv, hstores, hheld, hflight']

theorem State.tlbinv_busy {n : InvName} (h : ¬s.invQuiet k n) : s.tlbinv k n = .wait := by
  refine if_pos (by_contra fun hb => h ?_)
  simp only [Bool.or_eq_true, not_or, Bool.not_eq_true] at hb
  obtain ⟨⟨hstores, hheld⟩, hflight⟩ := hb
  exact ⟨hstores, hheld, by simpa using hflight⟩

/-- A form of TLBINV goes on without what it names once nothing uses it, and waits until then. -/
theorem perThread_tlbinv {i : Instr} {g : Guard} {kind : Kind} {sp : SpecRule} {regs : List Nat} {name : Nat → State → InvName}
    (h : s.executes k g kind sp regs) :
    (s.invQuiet k (name k s) → perThread s i g regs kind sp (fun k s => s.tlbinv k (name k s))
      = .next ((s.withMem (s.mem.invalidate (name k s))).goTo k (nextPc (s.thread k).pc)))
    ∧ (¬s.invQuiet k (name k s) → perThread s i g regs kind sp (fun k s => s.tlbinv k (name k s)) = .next s) :=
  ⟨fun hq => perThread_next h (State.tlbinv_quiet hq), fun hq => perThread_wait h (State.tlbinv_busy hq)⟩

/-- The ASID of a TLBINV is the low 16 bits of its operand (R472). -/
theorem State.asidArg_eq (s : State) (k : Nat) (b : Reg) : s.asidArg k b = (s.readReg k b).toNat % 65536 := by
  simp [State.asidArg, fld]

/-- Settles O34: the four forms differ in the name that they give to one invalidation. -/
theorem tlbInvalidate : Obligations.TlbInvalidate := by
  intro s k g a b sz page asid
  have hasid : s.asidArg k b = asid := s.asidArg_eq k b
  refine ⟨fun h => ?page, fun h => ?asid, fun h => ?all, fun h => ?pageAll⟩
  case page =>
    rw [← hasid]
    exact perThread_tlbinv (name := fun k s => ⟨some (s.asidArg k b), some (va57 (s.readReg k a), sz.toNat)⟩) h
  case asid =>
    rw [← hasid]
    exact perThread_tlbinv (name := fun k s => ⟨some (s.asidArg k b), none⟩) h
  case all => exact perThread_tlbinv (name := fun _ _ => ⟨none, none⟩) h
  case pageAll => exact perThread_tlbinv (name := fun k s => ⟨none, some (va57 (s.readReg k a), sz.toNat)⟩) h

end Sys2Proof.Machine
end

section
/-!
PROOFS. Pre-emption reads the priority of the incoming region once, before any crew stops (R52, R283, R304; log 46): a header
that the halt of a crew's chain writes may change it.
-/
namespace Sys2Proof.Machine

/-- A context's crews stopped for waiting work, the threads past a service call of each squashed at once as `now` says of the
state in which that crew stops. -/
def State.preempted (s : State) (core asid : Nat) (w : Waiting) (now : State → Bool) : State :=
  ((s.runningCrews core asid).foldl (fun t c => (t.haltCrew c (now t)).modCrew c fun x => { x with place := .spilling })
    ((s.accrue core).dropResidencies core asid)).modCore core fun x =>
      { x with predictor := [], switch := some ⟨asid, w.ctx.asid, w.region⟩ }

/-- The model decides once whether it squashes at once. -/
theorem exec_preemption_claimed {s : State} {core asid d : Nat} {w : Waiting} (hr : s.runningCrews core asid ≠ [])
    (hs : (s.core core).switch = none) (hh : s.halted = false) (hw : s.cause (core, asid) = some (d, w)) :
    exec (.preemption core asid) s = .next (s.preempted core asid w fun _ => s.prioOf w.ctx d w.region == 3) := by
  have hgo : ((s.runningCrews core asid).isEmpty || (s.core core).switch.isSome || s.halted) = false := by simp [hr, hs, hh]
  show execPreemption core asid s = _
  simp only [execPreemption, hgo, hw, Bool.false_eq_true, if_false]
  rfl

/-! ### A chain's header over the block of the incoming region -/

/-- A crew of context 0 on core 0, with thirty granules of scratch from granule `first` of the bank. -/
def runningCrew (slot first : Nat) : Crew :=
  { core := 0, part := 0, slot := slot, cidx := 0, gci := 0, size := 1, lsg := 30, region := 0, asid := 0, seq := 1,
    base := first * granule, bank := false, place := .resident, joins := Vector.replicate 8 ⟨0, 0⟩, sets := [], maps := [],
    full := [], cbSlots := 0, watchdog := 0, saved := [], frame := 0, faulted := false, spent := [] }

/-- A saved crew of context 5, whose region's block stands at 0x80000. -/
def claimingCrew : Crew :=
  { runningCrew 0 32 with asid := 5, region := 0x80000, place := .saved 0x200000, frame := 0x200000 }

/-- The work that this crew is, in the context of its block. -/
def claimingWork : Waiting := ⟨.context 0 5, 0x80000, Ctx.zero⟩

/-- A supervisor's chain of crew 0, which runs. Its context has no page table, so the header at 0x80008 lies in memory (R301),
over the priority of the block at 0x80000. -/
def overlayingChain : Chain :=
  { engine := 0, unit := 0, addr := 0x80008, crew := some 0, counting := [256], asid := 0, sup := true, ctx := Ctx.zero,
    scope := .cw, state := 1, idx := 0, order := 0, cause := 0, zsub := 0, fault := 0, done := 0, tiles := Tiles.none }

/-- Crews 0 and 2 run on core 0, crew 2's one thread past a service call; crew 1 waits for the core, in a region of priority 3
whose caps leave it room. -/
def overlaid : State :=
  let supervisor := { Thread.zero with trap := { TrapRegs.zero with sup := true } }
  { State.reset with
    threads := [(laneKey 0 0, supervisor), (laneKey 2 0, { supervisor with spec := ⟨.speculating, 5, 3, 0xFF8, []⟩ })]
    crews := [(0, runningCrew 0 32), (1, claimingCrew), (2, runningCrew 1 64)]
    cores := [(0, { Core.zero with partWord := 0x20204020, ctxs := [(0, Ctx.zero)] })]
    dies := [(0, { Die.zero with ring := [0x80000] })]
    chains := [(0, overlayingChain)]
    mem := { State.reset.mem with
      bytes := (State.reset.mem.bytes.putWord 0x80008 3).putWord 0x80020 0xFFFF0180 } }

theorem overlaid_claimed : overlaid.runningCrews 0 0 = [0, 2] ∧ (overlaid.core 0).switch = none ∧ overlaid.halted = false
    ∧ overlaid.cause (0, 0) = some (0, claimingWork) := by decide +kernel

/-- Read once, the priority squashes the thread of crew 2. -/
theorem overlaid_squashed : ((overlaid.preempted 0 0 claimingWork fun _ =>
    overlaid.prioOf claimingWork.ctx 0 claimingWork.region == 3).thread (laneKey 2 0)).spec.mode = .normal := by decide +kernel

/-- Read again when crew 2 stops, it leaves that thread waiting for its reply: the halt of crew 0 has stopped its chain, whose
status word 5 stands where the priority word 3 stood. -/
theorem overlaid_unsquashed : ((overlaid.preempted 0 0 claimingWork fun t =>
    t.prioOf claimingWork.ctx 0 claimingWork.region == 3).thread (laneKey 2 0)).spec.mode = .speculating := by decide +kernel

/-- Refutes O56: its clause on pre-emption reads the incoming priority again for each crew, in the state that the crews before it
left; the model reads it once. In `overlaid` the first crew's chain changes it. -/
theorem not_schedulerRows : ¬ Obligations.SchedulerRows := by
  rintro ⟨-, -, -, hpreempt, -⟩
  obtain ⟨hrun, hswitch, hhalted, hcause⟩ := overlaid_claimed
  have hne : overlaid.runningCrews 0 0 ≠ [] := by simp [hrun]
  have hstated : exec (.preemption 0 0) overlaid = .next (overlaid.preempted 0 0 claimingWork fun t =>
      t.prioOf claimingWork.ctx 0 claimingWork.region == 3) := (hpreempt overlaid 0 0 hhalted).1 0 claimingWork hne hswitch hcause
  rw [exec_preemption_claimed hne hswitch hhalted hcause] at hstated
  have hmode := congrArg (fun t : State => (t.thread (laneKey 2 0)).spec.mode) (Host.Outcome.next.inj hstated)
  exact absurd (overlaid_squashed.symm.trans (hmode.trans overlaid_unsquashed)) (by decide)

end Sys2Proof.Machine
end

section
/-!
PROOFS. The bytes of a line: what a line of storage reads, what a masked write leaves, and a number at an offset of a line.
-/
namespace Sys2Proof.Machine

/-- Digit `k` of the number of some bytes is byte `k`. -/
theorem bytesToNat_digit (bs : List Byte) (k : Nat) : bytesToNat bs / 256 ^ k % 256 = (bs.getD k 0).toNat := by
  induction bs generalizing k with
  | nil => simp [bytesToNat]
  | cons b bs ih =>
    have hb := b.isLt
    cases k with
    | zero => simp [bytesToNat]; omega
    | succ k =>
      have htail : (b.toNat + 256 * bytesToNat bs) / 256 = bytesToNat bs := by omega
      rw [bytesToNat, Nat.pow_succ', ← Nat.div_div_eq_div_mul, htail, ih, List.getD_cons_succ]

/-- Byte `k` of a line that holds a number is its digit `k`. -/
theorem lineByte_ofNat (v : Nat) {k : Nat} (hk : k < 128) : lineByte (BitVec.ofNat 1024 v) k = BitVec.ofNat 8 (v / 256 ^ k) := by
  have hpow : 256 ^ k = 2 ^ (8 * k) := by rw [Nat.pow_mul]
  refine BitVec.eq_of_getLsbD_eq fun j hj => ?_
  have hin : j + 8 * k < 1024 := by omega
  simp only [lineByte, BitVec.getLsbD_extractLsb', BitVec.getLsbD_ofNat, hj, hin, hpow, Nat.testBit_div_two_pow, decide_true,
    Bool.true_and, Nat.add_comm]

/-- A line of storage reads byte by byte what storage holds. -/
theorem Memory.lineByte_line (m : Memory) (l : Nat) {k : Nat} (hk : k < 128) : lineByte (m.line l) k = m.byte (128 * l + k) := by
  apply BitVec.eq_of_toNat_eq
  rw [Memory.line, lineOfBytes, lineByte_ofNat _ hk, BitVec.toNat_ofNat, bytesToNat_digit]
  simp [Memory.bytes, hk]

/-- The bytes of a number that a line holds from offset `off` upward. -/
theorem bytesToNat_lineBytes {off n : Nat} (h : off + n ≤ 128) (v : Nat) :
    bytesToNat ((List.range n).map fun k => lineByte (BitVec.ofNat 1024 (v * 2 ^ (8 * off))) (off + k)) = v % 2 ^ (8 * n) := by
  have hpow : ∀ k, 2 ^ (8 * k) = 256 ^ k := fun k => Nat.pow_mul 2 8 k
  rw [hpow, hpow, ← bytesToNat_natBytes, natBytes]
  refine congrArg bytesToNat (List.map_congr_left fun k hk => ?_)
  have hk : k < n := List.mem_range.1 hk
  rw [lineByte_ofNat _ (by omega), Nat.pow_add, ← Nat.div_div_eq_div_mul, Nat.mul_div_cancel _ (by positivity)]

/-- A masked write of the first `n` bytes of a line. -/
theorem Memory.byte_putFirst (m : Memory) (l : Nat) (d : Line) (mask : BitVec 128) (n a : Nat) :
    ((List.range n).foldl (fun m k => if mask.getLsbD k then m.put (128 * l + k) (lineByte d k) else m) m).byte a
      = if 128 * l ≤ a ∧ a < 128 * l + n ∧ mask.getLsbD (a - 128 * l) then lineByte d (a - 128 * l) else m.byte a := by
  induction n with
  | zero => exact (if_neg (by omega)).symm
  | succ n ih =>
    rw [List.range_succ, List.foldl_append, List.foldl_cons, List.foldl_nil]
    by_cases ha : a = 128 * l + n
    · subst ha
      by_cases hm : mask.getLsbD n <;> simp [hm, ih]
    · have hlt : a < 128 * l + (n + 1) ↔ a < 128 * l + n := by omega
      simp only [hlt, ← ih]
      split
      · exact Memory.byte_put_ne _ _ _ ha
      · rfl

theorem Memory.byte_putLine (m : Memory) (l : Nat) (d : Line) (mask : BitVec 128) {k : Nat} (hk : k < 128) :
    (m.putLine l d mask).byte (128 * l + k) = if mask.getLsbD k then lineByte d k else m.byte (128 * l + k) := by
  rw [Memory.putLine, Memory.byte_putFirst]
  simp [hk]

theorem Memory.byte_putLine_outside (m : Memory) (l : Nat) (d : Line) (mask : BitVec 128) {a : Nat} (h : a / 128 ≠ l) :
    (m.putLine l d mask).byte a = m.byte a := by
  rw [Memory.putLine, Memory.byte_putFirst]
  exact if_neg (by omega)

/-- A write of no byte. -/
theorem Memory.putLine_zero (m : Memory) (l : Nat) (d : Line) : m.putLine l d 0 = m := by
  simp [Memory.putLine]

theorem Memory.lineByte_line_putLine (m : Memory) (l : Nat) (d : Line) (mask : BitVec 128) {k : Nat} (hk : k < 128) :
    lineByte ((m.putLine l d mask).line l) k = if mask.getLsbD k then lineByte d k else lineByte (m.line l) k := by
  rw [Memory.lineByte_line _ _ hk, Memory.byte_putLine _ _ _ _ hk, Memory.lineByte_line _ _ hk]

/-- The mask of `n` bytes from offset `off`. -/
theorem getLsbD_byteSpan (off n : Nat) {k : Nat} (hk : k < 128) :
    (BitVec.ofNat 128 ((2 ^ n - 1) * 2 ^ off)).getLsbD k = decide (off ≤ k ∧ k < off + n) := by
  rw [BitVec.getLsbD_ofNat, Nat.testBit_mul_two_pow, Nat.testBit_two_pow_sub_one]
  by_cases h : off ≤ k
  · simp only [hk, h, decide_true, Bool.true_and, true_and, decide_eq_decide]
    omega
  · simp [h]

end Sys2Proof.Machine
end

section
/-!
PROOFS. Messages posted and taken, and the entry of a line: the rules that the rows of the directory use.
-/
namespace Sys2Proof.Machine

variable {s : State}

/-! ### Posted and taken messages -/

@[simp] theorem State.post_find_self (s : State) (g : Msg) : (s.post g).mem.msgs.find s.nxt.msg = some g := AMap.find_set_self ..
theorem State.post_find_lt (s : State) (g : Msg) {j : Nat} (h : j < s.nxt.msg) :
    (s.post g).mem.msgs.find j = s.mem.msgs.find j := AMap.find_set_ne _ _ _ h.ne

/-- Of two messages sent, each stands under its number. -/
theorem State.post_post_find (s : State) (g h : Msg) :
    ((s.post g).post h).mem.msgs.find s.nxt.msg = some g ∧ ((s.post g).post h).mem.msgs.find (s.nxt.msg + 1) = some h :=
  ⟨((s.post g).post_find_lt h (Nat.lt_succ_self _)).trans (s.post_find_self g), (s.post g).post_find_self h⟩

@[simp] theorem State.post_bytes (s : State) (g : Msg) : (s.post g).mem.bytes = s.mem.bytes := rfl
@[simp] theorem State.post_dir (s : State) (g : Msg) : (s.post g).mem.dir = s.mem.dir := rfl
@[simp] theorem State.post_wbufs (s : State) (g : Msg) : (s.post g).mem.wbufs = s.mem.wbufs := rfl
@[simp] theorem State.staleLine_mem (s : State) (core line : Nat) : (s.staleLine core line).mem = s.mem := rfl
@[simp] theorem State.unpost_find_self (s : State) (id : Nat) : (s.unpost id).mem.msgs.find id = none := AMap.find_del_self ..

theorem takeKind_eq {k : MsgKind} {n : Nat} {m : Msg} (hm : s.mem.msgs.find n = some m) (hk : m.kind = k) :
    s.takeKind k n = s.takeMsg n := by
  simp [State.takeKind, hm, hk]

/-! ### Copies -/

theorem MemSys.findCopy_ids {m : MemSys} {agent line : Nat} {c : Copy} (h : m.findCopy agent line = some c) :
    c.agent = agent ∧ c.line = line := by
  simpa using List.find?_some h

@[simp] theorem MemSys.findCopy_dropCopy (m : MemSys) (agent line : Nat) : (m.dropCopy agent line).findCopy agent line = none := by
  refine List.find?_eq_none.2 fun c hc => ?_
  simpa only [Bool.not_eq_true, Bool.not_eq_true'] using (List.mem_filter.1 hc).2

theorem MemSys.findCopy_putCopy (m : MemSys) {c : Copy} {agent line : Nat} (ha : c.agent = agent) (hl : c.line = line) :
    (m.putCopy c).findCopy agent line = some c := by
  simp [MemSys.findCopy, MemSys.putCopy, ha, hl]

theorem MemSys.ownedCopy_eq {m : MemSys} {agent line : Nat} {c : Copy} (h : m.findCopy agent line = some c)
    (ht : c.tracked = true) (hs : c.st ≠ .s) : m.ownedCopy agent line = some c := by
  simp [MemSys.ownedCopy, h, ht, hs]

/-! ### The entry of a line -/

/-- An entry of the line alone. -/
structure DirEntry.Single (e : DirEntry) (line : Nat) : Prop where
  base : e.base = line
  cls : e.cls = 0

theorem DirEntry.Single.covers_iff {e : DirEntry} {line : Nat} (h : e.Single line) (l : Nat) : e.covers l = true ↔ l = line := by
  obtain ⟨rfl, hc⟩ := h
  simp only [DirEntry.covers, hc, Bool.and_eq_true, decide_eq_true_eq]
  omega

theorem DirEntry.Single.entry {m : MemSys} {e : DirEntry} {line : Nat} (h : e.Single line) (hd : m.dir = [e]) :
    m.entry line = some e := by
  simp [MemSys.entry, hd, (h.covers_iff line).2 rfl]

/-- Nothing else lies in the region of a single line. -/
theorem DirEntry.Single.holdsOther {e : DirEntry} {line : Nat} (h : e.Single line) (m : MemSys) (agent : Nat) (p : Moesi → Bool) :
    m.holdsOther e agent line p = false := by
  simp only [MemSys.holdsOther, List.any_eq_false, Bool.and_eq_true, h.covers_iff, bne_iff_ne]
  rintro c - ⟨⟨⟨-, heq⟩, hne⟩, -⟩
  exact hne heq

/-- The owner of a single line leaves its entry. -/
theorem DirEntry.Single.clearOwner {e : DirEntry} {line : Nat} (h : e.Single line) (m : MemSys) :
    m.clearOwner e line = { e with owner := none } := by
  unfold MemSys.clearOwner
  split
  · rw [h.holdsOther]; rfl
  · next hn => rw [← hn]

/-- The new form of the only entry takes its place, or frees it. -/
theorem MemSys.mem_putEntry_alone {m : MemSys} {e e' x : DirEntry} (hd : m.dir = [e]) (hs : e.same e' = true)
    (hx : x ∈ (m.putEntry e').dir) : x = e' := by
  simp only [MemSys.putEntry, hd, List.filter_cons, hs, List.filter_nil] at hx
  split at hx
  · cases hx
  · exact List.mem_singleton.1 hx

/-! ### Room for a request -/

theorem MemSys.overfull_none {m : MemSys} {x : Msg} (h : m.dir.length + (m.reshape x).2.length ≤ 16) : m.overfull x = none :=
  if_pos h

theorem MemSys.withDir_eq {m : MemSys} {d : List DirEntry} (h : d = m.dir) : { m with dir := d } = m := by rw [h]

/-- The only entry of a directory is the most recently used of its set. -/
theorem MemSys.touch_eq {m : MemSys} (h : m.dir.length ≤ 1) (line : Nat) : m.touch line = m := by
  unfold MemSys.touch
  split
  · next e he =>
    have hmem : e ∈ m.dir := List.mem_of_find?_eq_some he
    obtain ⟨x, hx⟩ := List.length_eq_one_iff.1 (h.antisymm (List.length_pos_of_mem hmem))
    obtain rfl : e = x := by simpa [hx] using hmem
    exact MemSys.withDir_eq (by simp [hx])
  · rfl

/-- No entry covers a line of an empty directory: a request allocates its own. -/
theorem MemSys.reshape_empty {m : MemSys} (hd : m.dir = []) (x : Msg) : m.reshape x = (none, (m.newEntry x).toList) := by
  simp [MemSys.reshape, MemSys.entry, hd]

/-- A request keeps an entry of its line alone. -/
theorem MemSys.reshape_single {m : MemSys} {e : DirEntry} {x : Msg} (h : e.Single x.line) (hd : m.dir = [e]) :
    m.reshape x = (none, []) := by
  simp [MemSys.reshape, h.entry hd, DirEntry.conflicts, h.cls]

theorem MemSys.reshaped_empty {m : MemSys} (hd : m.dir = []) (x : Msg) :
    m.reshaped x = { m with dir := (m.newEntry x).toList } := by
  cases hn : m.newEntry x <;> simp [MemSys.reshaped, m.reshape_empty hd, hd, hn]

theorem MemSys.reshaped_single {m : MemSys} {e : DirEntry} {x : Msg} (h : e.Single x.line) (hd : m.dir = [e]) :
    m.reshaped x = m :=
  MemSys.withDir_eq (by simp [MemSys.reshape_single h hd])

/-- The first entry of a directory takes the largest class (R183). -/
theorem MemSys.freshClass_empty {m : MemSys} (hd : m.dir = []) (line : Nat) : m.freshClass line = 9 := by
  simp only [MemSys.freshClass, hd, List.all_nil]
  rfl

theorem MemSys.length_newEntry_le (m : MemSys) (x : Msg) : (m.newEntry x).toList.length ≤ 1 := by
  cases m.newEntry x <;> simp

/-- A home without transactions and queue takes a request at once where the directory has room. -/
theorem State.homeRequest_idle {m : Msg} (ht : s.mem.txns = []) (hq : s.mem.queued = []) (ho : s.mem.overfull m = none) :
    s.homeRequest m = s.homeHandle m := by
  simp [State.homeRequest, State.mustWait, MemSys.transient, MemSys.evicting, ht, hq, ho]

theorem MemSys.overfull_empty {m : MemSys} (hd : m.dir = []) (x : Msg) : m.overfull x = none :=
  MemSys.overfull_none (by
    rw [m.reshape_empty hd, hd]
    exact (Nat.zero_add _).trans_le ((m.length_newEntry_le x).trans (by decide)))

theorem MemSys.overfull_single {m : MemSys} {e : DirEntry} {x : Msg} (h : e.Single x.line) (hd : m.dir = [e]) :
    m.overfull x = none :=
  MemSys.overfull_none (by simp [MemSys.reshape_single h hd, hd])

end Sys2Proof.Machine
end

section
/-!
PROOFS. Stores, atomics and requests performed at a home whose lines no other view covers (R183, R185).
-/
namespace Sys2Proof.Machine

variable {s : State} {m : Msg}

/-! ### Stores at a home -/

/-- No copy is of a line of another view, and so none follows a store at a home. -/
def State.NoAlias (s : State) : Prop := ∀ c ∈ s.mem.copies, aliasLine c.line = false

theorem State.NoAlias.strike (h : s.NoAlias) (line : Nat) (d : Line) (mask : BitVec 128) (self : Nat) :
    (s.strike line d mask self).2 = [] := by
  simp only [State.strike, List.map_eq_nil_iff, List.filter_eq_nil_iff]
  intro c hc
  simp [h c hc]

/-- A store at a home leaves storage but for the bytes that it writes, the directory and the numbers of messages. -/
structure State.Stored (s t : State) (line : Nat) (d : Line) (mask : BitVec 128) : Prop where
  bytes : t.mem.bytes = s.mem.bytes.putLine line d mask
  dir : t.mem.dir = s.mem.dir
  nxt : t.nxt = s.nxt

theorem State.strike_stored (line : Nat) (d : Line) (mask : BitVec 128) (self : Nat) :
    (s.strike line d mask self).1.mem.bytes = s.mem.bytes ∧ (s.strike line d mask self).1.mem.dir = s.mem.dir
      ∧ (s.strike line d mask self).1.nxt = s.nxt := by
  simp [State.strike, State.carryViews, State.staleEverywhere, MemSys.inBuffers, apply_ite MemSys.bytes, apply_ite MemSys.dir]

theorem MemSys.writeLine_sound {m : MemSys} {line key : Nat} (hp : m.poisoned line key = false) (d : Line) (mask : BitVec 128) :
    (m.writeLine line d mask key).bytes = m.bytes.putLine line d mask ∧ (m.writeLine line d mask key).dir = m.dir
      ∧ (m.writeLine line d mask key).copies = m.copies := by
  unfold MemSys.writeLine
  split
  · exact ⟨rfl, rfl, rfl⟩
  · simp [hp]

theorem State.NoAlias.homeStore (h : s.NoAlias) {line key : Nat} (ha : aliasLine line = false)
    (hp : s.mem.poisoned line key = false) (d : Line) (mask : BitVec 128) (vset : Nat) :
    State.Stored s (s.homeStore line d mask key vset) line d mask := by
  have hdepth : s.mem.viewDepth = 2 * (s.mem.copies.length + s.mem.wbufs.length) + 2 + 1 := rfl
  obtain ⟨hbytes, hdir, hcopies⟩ := MemSys.writeLine_sound hp d mask
  have hw : (s.withMem (s.mem.writeLine line d mask key)).NoAlias := fun c hc => h c (hcopies ▸ hc)
  unfold State.homeStore
  rw [hdepth, State.storeHome]
  split
  · next hm => exact ⟨by rw [hm, Memory.putLine_zero], rfl, rfl⟩
  · simp only [ha, Bool.false_eq_true, if_false, hw.strike, List.foldl_nil]
    obtain ⟨sbytes, sdir, snxt⟩ := State.strike_stored (s := s.withMem (s.mem.writeLine line d mask key)) line d mask 0
    exact ⟨sbytes.trans hbytes, sdir.trans hdir, snxt⟩

/-- Nothing is gathered before an atomic. -/
theorem State.NoAlias.gatherViews (h : s.NoAlias) {line : Nat} (ha : aliasLine line = false) (mask : BitVec 128) (key vset : Nat) :
    s.gatherViews line mask key vset = s := by
  simp only [State.gatherViews, ha, Bool.not_false, if_true, List.foldl_cons, List.foldl_nil]
  rw [List.filter_eq_nil_iff.2 fun c hc => by simp [h c hc], List.foldl_nil]

theorem State.storedLine_row {line : Nat} (ha : aliasLine line = false) (vset key : Nat) :
    s.storedLine line vset key = s.mem.bytes.line line := by simp [State.storedLine, ha]

/-! ### Grants -/

theorem State.grant_find (s : State) (m : Msg) (st : Option Moesi) (own : Bool) :
    (s.grant m st own).mem.msgs.find s.nxt.msg = some { Msg.plain .grant m.line (homeOf m.line) m.req m.req with
      data := s.storedLine m.line m.vset m.key, st := st, flag := own, vset := m.vset } := s.post_find_self _

/-- A grant carries what storage holds of its line. -/
theorem State.grant_answer (ha : aliasLine m.line = false) {st : Option Moesi} {own : Bool} :
    ((s.grant m st own).mem.msgs.find s.nxt.msg).map (fun g => (g.kind, g.dst, g.st, g.data))
      = some (.grant, m.req, st, s.mem.bytes.line m.line) := by
  rw [State.grant_find, State.storedLine_row ha]
  rfl

/-! ### Performed at the home -/

/-- A write at its home. -/
theorem State.performHome_write (hm : m.act = none) (h : s.NoAlias) (ha : aliasLine m.line = false)
    (hp : s.mem.poisoned m.line m.key = false) :
    (s.performHome m).mem.bytes = s.mem.bytes.putLine m.line m.data m.mask
      ∧ (s.performHome m).mem.msgs.find s.nxt.msg = some (Msg.plain .grant m.line (homeOf m.line) m.req m.req) := by
  have hst := h.homeStore ha hp m.data m.mask m.vset
  simp only [State.performHome, hm, State.post_bytes, hst.bytes, true_and]
  rw [← hst.nxt, State.post_find_self]

/-- An atomic at its home, and its reply. -/
theorem State.performHome_atomic {a : AtomicAct} (hm : m.act = some a) (h : s.NoAlias) (ha : aliasLine m.line = false)
    (hp : s.mem.poisoned m.line m.key = false) :
    let old := bytesToNat ((List.range a.size).map fun k => lineByte (s.mem.bytes.line m.line) (a.off + k))
    (s.performHome m).mem.bytes = s.mem.bytes.putLine m.line
        (BitVec.ofNat 1024 (atomicNew a.i (8 * a.size) old a.b.toNat a.c.toNat * 2 ^ (8 * a.off)))
        (BitVec.ofNat 128 ((2 ^ a.size - 1) * 2 ^ a.off))
      ∧ (s.performHome m).mem.msgs.find s.nxt.msg = some { Msg.plain .grant m.line (homeOf m.line) m.req m.req with
        data := BitVec.ofNat 1024 old, flag := false } := by
  intro old
  have hst := h.homeStore ha hp (BitVec.ofNat 1024 (atomicNew a.i (8 * a.size) old a.b.toNat a.c.toNat * 2 ^ (8 * a.off)))
    (BitVec.ofNat 128 ((2 ^ a.size - 1) * 2 ^ a.off)) m.vset
  simp only [State.performHome, hm, h.gatherViews ha, State.storedLine_row ha, ha, hp, Bool.false_eq_true, if_false]
  exact ⟨hst.bytes, by rw [← hst.nxt]; exact State.post_find_self ..⟩

/-- The bytes of an atomic take its new value, and no other byte of the line changes (R366). -/
theorem Memory.putLine_atomic (mem : Memory) (line : Nat) {off n : Nat} (h : off + n ≤ 128) (v : Nat) :
    let t := mem.putLine line (BitVec.ofNat 1024 (v * 2 ^ (8 * off))) (BitVec.ofNat 128 ((2 ^ n - 1) * 2 ^ off))
    bytesToNat ((List.range n).map fun k => lineByte (t.line line) (off + k)) = v % 2 ^ (8 * n)
      ∧ ∀ k < 128, k < off ∨ off + n ≤ k → lineByte (t.line line) k = lineByte (mem.line line) k := by
  intro t
  refine ⟨?_, fun k hk hout => ?_⟩
  · rw [← bytesToNat_lineBytes h]
    refine congrArg bytesToNat (List.map_congr_left fun k hk => ?_)
    have hk : k < n := List.mem_range.1 hk
    rw [Memory.lineByte_line_putLine _ _ _ _ (by omega), getLsbD_byteSpan _ _ (by omega)]
    simp [hk]
  · rw [Memory.lineByte_line_putLine _ _ _ _ hk, getLsbD_byteSpan _ _ hk]
    exact if_neg (by simp; omega)

/-! ### Requests at a home without entries -/

/-- The state that a home without entries has when it answers: the request's entry stands alone. -/
def State.allocated (s : State) (m : Msg) : State := s.withMem { s.mem with dir := (s.mem.newEntry m).toList }

/-- What a home without entries grants a request that it does not perform. -/
def firstGrant : MsgKind → Option (Option Moesi)
  | .gets => some (some .e)
  | .getm | .upg => some (some .m)
  | .kget | .rdonce => some none
  | _ => none

theorem MemSys.entry_empty {m : MemSys} (hd : m.dir = []) (line : Nat) : m.entry line = none := by simp [MemSys.entry, hd]

theorem MemSys.touch_reshaped_empty {mem : MemSys} (hd : mem.dir = []) (m : Msg) :
    (mem.reshaped m).touch m.line = { mem with dir := (mem.newEntry m).toList } := by
  rw [MemSys.reshaped_empty hd, MemSys.touch_eq (mem.length_newEntry_le m)]

theorem State.homeHandle_grants {st : Option Moesi} (hd : s.mem.dir = []) (hk : firstGrant m.kind = some st) :
    s.homeHandle m = (s.allocated m).grant m st false := by
  simp only [State.homeHandle, MemSys.entry_empty hd, MemSys.touch_reshaped_empty hd]
  cases hm : m.kind <;> simp only [hm, firstGrant, Option.some.injEq, reduceCtorEq] at hk <;> subst hk <;> rfl

/-- A write or atomic allocates no entry: its home performs it. -/
theorem State.homeHandle_performs (hd : s.mem.dir = []) (hk : m.kind = .wr ∨ m.kind = .atomic) :
    s.homeHandle m = s.performHome m := by
  have hnone : s.mem.newEntry m = none := by rcases hk with hk | hk <;> simp [MemSys.newEntry, hk]
  have hsame : s.withMem ((s.mem.reshaped m).touch m.line) = s := by
    rw [MemSys.touch_reshaped_empty hd, hnone, MemSys.withDir_eq (by simp [hd])]
    rfl
  simp only [State.homeHandle, MemSys.entry_empty hd, hsame]
  rcases hk with hk | hk <;> simp only [hk]

/-- A home that knows the line alone serves a request from its entry. -/
theorem State.homeHandle_single {e : DirEntry} (h : e.Single m.line) (hd : s.mem.dir = [e]) :
    s.homeHandle m = s.serveFrom e m := by
  have hlen : s.mem.dir.length ≤ 1 := by simp [hd]
  simp only [State.homeHandle, MemSys.reshaped_single h hd, MemSys.touch_eq hlen, State.withMem_mem, h.entry hd]
  rfl

end Sys2Proof.Machine
end

section
/-!
PROOFS. The rows of the directory at the home (R175 to R185): a message is taken by its row, and what an idle home answers.
-/
namespace Sys2Proof.Machine

variable {s : State} {n : Nat} {m : Msg}

/-! ### The row of a message -/

/-- The row that takes message `n` of a kind. A promote's own row takes it with no receiver's work (R204; logs 40, 67), and a
Put is named by its agent and line. -/
def kindRow (n : Nat) : MsgKind → Option Instr
  | .gets => some (.gets n) | .getm => some (.getm n) | .upg => some (.upg n) | .kget => some (.kget n)
  | .rdonce => some (.rdonce n) | .wr => some (.wr n) | .atomic => some (.homeAtomic n) | .putack => some (.putack n)
  | .fwds => some (.fwds n) | .fwdm => some (.fwdm n) | .fwddone => some (.fwddone n) | .nodata => some (.nodata n)
  | .wbpending => some (.wbpending n) | .inv => some (.invalidation n) | .ack => some (.acknowledgement n)
  | .grant => some (.grant n) | .retry => some (.retry n)
  | _ => none

theorem exec_kindRow (hm : s.mem.msgs.find n = some m) {k : MsgKind} {i : Instr} (hi : kindRow n k = some i) (hk : m.kind = k) :
    exec i s = .next (s.takeMsg n) := by
  cases k <;> simp only [kindRow, Option.some.injEq, reduceCtorEq] at hi <;> subst hi <;>
    exact congrArg Host.Outcome.next (takeKind_eq hm hk)

theorem exec_kindRow_eq {t : State} (hm : s.mem.msgs.find n = some m) {k : MsgKind} {i : Instr} (hi : kindRow n k = some i)
    (hk : m.kind = k) (ht : s.takeMsg n = t) : exec i s = .next t :=
  (exec_kindRow hm hi hk).trans (congrArg Host.Outcome.next ht)

theorem exec_promote (hm : s.mem.msgs.find n = some m) (hk : m.kind = .promote) : exec (.promote n) s = .next (s.unpost n) := by
  show execPromote n s = _
  simp [execPromote, hm, hk]

/-! ### Requests at an idle home -/

/-- A home without transactions and queue takes up a request for which the directory has room. -/
theorem State.takeMsg_request (hm : s.mem.msgs.find n = some m) (ht : s.mem.txns = []) (hq : s.mem.queued = [])
    (ho : s.mem.overfull m = none) (hk : m.kind ∈ [.gets, .getm, .upg, .kget, .rdonce, .wr, .atomic]) :
    s.takeMsg n = (s.unpost n).homeHandle m := by
  have hreq : s.takeMsg n = (s.unpost n).homeRequest m := by
    simp only [State.takeMsg, hm]
    cases hkind : m.kind <;> simp [hkind, MemSys.takable] at hk ⊢
  rw [hreq, State.homeRequest_idle (by exact ht) (by exact hq) (by exact ho)]

/-- The entry of the first request of a home is its region of 512 lines. -/
theorem MemSys.newEntry_region {mem : MemSys} (hd : mem.dir = []) {e : DirEntry} (he : mem.newEntry m = some e) :
    e.base = m.line / 512 * 512 ∧ e.cls = 9 := by
  simp only [MemSys.newEntry, mem.freshClass_empty hd] at he
  cases hk : m.kind <;> simp only [hk, reduceCtorEq, Option.some.injEq] at he <;> subst he <;> exact ⟨rfl, rfl⟩

/-- What a home without entries grants, and the entry that it allocates for it. -/
theorem exec_firstGrant (hm : s.mem.msgs.find n = some m) (ht : s.mem.txns = []) (hq : s.mem.queued = []) (hd : s.mem.dir = [])
    (ha : aliasLine m.line = false) {k : MsgKind} {i : Instr} {st : Option Moesi} {e : List (Option Nat × List Pointer)}
    (hk : m.kind = k) (hi : kindRow n k = some i) (hst : firstGrant k = some st)
    (he : (s.mem.newEntry m).toList.map (fun e => (e.owner, e.ptrs)) = e) :
    ∃ t, exec i s = .next t
      ∧ (t.mem.msgs.find s.nxt.msg).map (fun g => (g.kind, g.dst, g.st, g.data))
        = some (.grant, m.req, st, s.mem.bytes.line m.line)
      ∧ t.mem.dir.map (fun e => (e.owner, e.ptrs)) = e ∧ (∀ e ∈ t.mem.dir, e.base = m.line / 512 * 512 ∧ e.cls = 9)
      ∧ t.mem.bytes = s.mem.bytes := by
  have hreq : m.kind ∈ [.gets, .getm, .upg, .kget, .rdonce, .wr, .atomic] := by
    rw [hk]; cases k <;> simp [firstGrant] at hst ⊢
  have htake : s.takeMsg n = ((s.unpost n).allocated m).grant m st false := by
    rw [State.takeMsg_request hm ht hq (MemSys.overfull_empty hd m) hreq, State.homeHandle_grants (by exact hd) (by rw [hk, hst])]
  exact ⟨_, exec_kindRow_eq hm hi hk htake, State.grant_answer ha, he,
    fun x hx => MemSys.newEntry_region hd (Option.mem_toList.1 hx), rfl⟩

/-- A write or an atomic is performed by a home without entries. -/
theorem exec_performs (hm : s.mem.msgs.find n = some m) (ht : s.mem.txns = []) (hq : s.mem.queued = []) (hd : s.mem.dir = [])
    {k : MsgKind} {i : Instr} (hk : m.kind = k) (hi : kindRow n k = some i) (hw : k = .wr ∨ k = .atomic) :
    exec i s = .next ((s.unpost n).performHome m) := by
  have hw : m.kind = .wr ∨ m.kind = .atomic := hk ▸ hw
  refine exec_kindRow_eq hm hi hk ?_
  rw [State.takeMsg_request hm ht hq (MemSys.overfull_empty hd m) (by rcases hw with hw | hw <;> simp [hw]),
    State.homeHandle_performs (by exact hd) hw]

theorem exec_wr_empty (hm : s.mem.msgs.find n = some m) (ht : s.mem.txns = []) (hq : s.mem.queued = []) (hd : s.mem.dir = [])
    (h : s.NoAlias) (ha : aliasLine m.line = false) (hk : m.kind = .wr) (hact : m.act = none)
    (hp : s.mem.poisoned m.line m.key = false) : ∃ t, exec (.wr n) s = .next t
      ∧ (∀ k < 128, t.mem.bytes.byte (128 * m.line + k)
        = if m.mask.getLsbD k then lineByte m.data k else s.mem.bytes.byte (128 * m.line + k))
      ∧ (∀ a, a / 128 ≠ m.line → t.mem.bytes.byte a = s.mem.bytes.byte a)
      ∧ (t.mem.msgs.find s.nxt.msg).map (fun g => (g.kind, g.dst)) = some (.grant, m.req) := by
  obtain ⟨hbytes, hgrant⟩ := State.performHome_write (s := s.unpost n) hact h ha hp
  refine ⟨_, exec_performs hm ht hq hd hk rfl (.inl rfl), fun j hj => ?_, fun a hout => ?_, congrArg (Option.map _) hgrant⟩
  · rw [hbytes]
    exact Memory.byte_putLine _ _ _ _ hj
  · rw [hbytes]
    exact Memory.byte_putLine_outside _ _ _ _ hout

theorem exec_homeAtomic_empty (hm : s.mem.msgs.find n = some m) (ht : s.mem.txns = []) (hq : s.mem.queued = [])
    (hd : s.mem.dir = []) (h : s.NoAlias) (ha : aliasLine m.line = false) {a : AtomicAct} (hk : m.kind = .atomic)
    (hact : m.act = some a) (hoff : a.off + a.size ≤ 128) (hp : s.mem.poisoned m.line m.key = false) :
    let stored := s.mem.bytes.line m.line
    let old := bytesToNat ((List.range a.size).map fun k => lineByte stored (a.off + k))
    ∃ t, exec (.homeAtomic n) s = .next t
      ∧ bytesToNat ((List.range a.size).map fun k => lineByte (t.mem.bytes.line m.line) (a.off + k))
        = atomicValue a.i (8 * a.size) old a.b.toNat a.c.toNat % 2 ^ (8 * a.size)
      ∧ (∀ k < 128, k < a.off ∨ a.off + a.size ≤ k → lineByte (t.mem.bytes.line m.line) k = lineByte stored k)
      ∧ (t.mem.msgs.find s.nxt.msg).map (fun g => (g.kind, g.dst, g.data)) = some (.grant, m.req, BitVec.ofNat 1024 old) := by
  intro stored old
  obtain ⟨hbytes, hgrant⟩ := State.performHome_atomic (s := s.unpost n) hact h ha hp
  obtain ⟨hnew, hrest⟩ := Memory.putLine_atomic s.mem.bytes m.line hoff (atomicNew a.i (8 * a.size) old a.b.toNat a.c.toNat)
  refine ⟨_, exec_performs hm ht hq hd hk rfl (.inr rfl), ?_, ?_, congrArg (Option.map _) hgrant⟩
  · rw [hbytes, ← atomicNew_eq_atomicValue]
    exact hnew
  · rw [hbytes]
    exact hrest

/-! ### A GetS of a line that the home knows -/

theorem exec_gets_single {e : DirEntry} (hm : s.mem.msgs.find n = some m) (ht : s.mem.txns = []) (hq : s.mem.queued = [])
    (hd : s.mem.dir = [e]) (he : e.Single m.line) (hk : m.kind = .gets) :
    exec (.gets n) s = .next ((s.unpost n).serveFrom e m) := by
  refine exec_kindRow_eq hm rfl hk ?_
  rw [State.takeMsg_request hm ht hq (MemSys.overfull_single he hd) (by simp [hk]), State.homeHandle_single he (by exact hd)]

/-- The first sharer of a line without an owner is noted, and granted S. -/
theorem State.serveFrom_gets_unowned {e : DirEntry} (hd : s.mem.dir = [e]) (hk : m.kind = .gets) (ho : e.owner = none)
    (hc : e.coarse = false) (hp : e.ptrs = []) :
    s.serveFrom e m
      = (s.withMem { s.mem with dir := [{ e with ptrs := [⟨false, m.req⟩], hst := .hs }] }).grant m (some .s) false := by
  have hadd : e.addSharer ⟨false, m.req⟩ = { e with ptrs := [⟨false, m.req⟩] } := by simp [DirEntry.addSharer, hc, hp]
  simp [State.serveFrom, hk, ho, hadd, DirEntry.settleState, MemSys.putEntry, DirEntry.isEmpty, hd, DirEntry.same]

/-- A line with an owner is forwarded to it, and waits for its answer. -/
theorem State.serveFrom_gets_owned {e : DirEntry} {o : Nat} (hk : m.kind = .gets) (ho : e.owner = some o) :
    s.serveFrom e m = s.forwardShared m o := by
  simp [State.serveFrom, hk, ho]

theorem exec_gets_unowned {e : DirEntry} (hm : s.mem.msgs.find n = some m) (ht : s.mem.txns = []) (hq : s.mem.queued = [])
    (hd : s.mem.dir = [e]) (he : e.Single m.line) (ha : aliasLine m.line = false) (hk : m.kind = .gets) (ho : e.owner = none)
    (hc : e.coarse = false) (hp : e.ptrs = []) : ∃ t, exec (.gets n) s = .next t
      ∧ t.mem.dir.map (fun x => (x.base, x.owner, x.ptrs)) = [(m.line, none, [⟨false, m.req⟩])]
      ∧ (t.mem.msgs.find s.nxt.msg).map (fun g => (g.kind, g.dst, g.st, g.data))
        = some (.grant, m.req, some .s, s.mem.bytes.line m.line)
      ∧ t.mem.bytes = s.mem.bytes := by
  have hexec := exec_gets_single hm ht hq hd he hk
  rw [State.serveFrom_gets_unowned (by exact hd) hk ho hc hp] at hexec
  exact ⟨_, hexec, by simp [State.grant, he.base, ho], State.grant_answer ha, rfl⟩

theorem exec_gets_owned {e : DirEntry} {o : Nat} (hm : s.mem.msgs.find n = some m) (ht : s.mem.txns = []) (hq : s.mem.queued = [])
    (hd : s.mem.dir = [e]) (he : e.Single m.line) (hk : m.kind = .gets) (ho : e.owner = some o) : ∃ t, exec (.gets n) s = .next t
      ∧ t.mem.dir = s.mem.dir ∧ t.mem.bytes = s.mem.bytes
      ∧ (t.mem.txns.find m.line).map (fun x => (x.kind, x.req, x.owner)) = some (.hf, m, some o)
      ∧ (t.mem.msgs.find s.nxt.msg).map (fun g => (g.kind, g.dst, g.line, g.req)) = some (.fwds, o, m.line, m.req) := by
  have hexec := exec_gets_single hm ht hq hd he hk
  rw [State.serveFrom_gets_owned hk ho] at hexec
  exact ⟨_, hexec, rfl, rfl, congrArg (Option.map _) (AMap.find_set_self ..), congrArg (Option.map _) (State.post_find_self ..)⟩

end Sys2Proof.Machine
end

section
/-!
PROOFS. The rows of the directory at the agents and the answers at the home (R178, R185 to R188).
-/
namespace Sys2Proof.Machine

variable {s : State} {n : Nat} {m : Msg}

section agent

/-! ### What an agent does with a message -/

/-- An owner in M that takes a forward of a GetS keeps the line in O (R185). -/
theorem State.takeFwdS_modified {c : Copy} (hc : s.mem.findCopy m.dst m.line = some c) (htr : c.tracked = true) (hst : c.st = .m)
    (hq : m.again = some .gets) (hdst : m.dst < 512) (hf : s.mem.putInFlight m.dst m.line = false) :
    s.takeFwdS m = ((s.withMem (s.mem.putCopy { c with st := .o })).post
      { Msg.plain .grant m.line m.dst m.req m.req with data := c.data, st := some .s, vset := c.vset }).post
        (Msg.plain .fwddone m.line m.dst (homeOf m.line) m.req) := by
  have hown : s.mem.ownedCopy m.dst m.line = some c := MemSys.ownedCopy_eq hc htr (by simp [hst])
  have hhost : c.agent ≠ Config.hostAgent := by
    rw [(MemSys.findCopy_ids hc).1]
    exact hdst.ne
  simp only [State.takeFwdS, hown, hf, hq, hst, hhost]
  rfl

/-- An owner that takes a FwdM gives the line up (R185). -/
theorem State.takeFwdM_owned {c : Copy} (hc : s.mem.findCopy m.dst m.line = some c) (htr : c.tracked = true) (hst : c.st ≠ .s)
    (hr : m.flag = false) (hf : s.mem.putInFlight m.dst m.line = false) :
    s.takeFwdM m = (((s.staleLine m.dst m.line).withMem (s.mem.dropCopy m.dst m.line)).post
      { Msg.plain .data m.line m.dst m.req m.req with data := c.data, mask := c.dirty, key := c.key, vset := c.vset }).post
        (Msg.plain .fwddone m.line m.dst (homeOf m.line) m.req) := by
  have hown : s.mem.ownedCopy m.dst m.line = some c := MemSys.ownedCopy_eq hc htr hst
  simp [State.takeFwdM, hown, hf, hr]

/-- An invalidation drops a shared copy (R186). -/
theorem State.takeInv_shared {c : Copy} (hc : s.mem.findCopy m.dst m.line = some c) (htr : c.tracked = true) (hst : c.st = .s)
    (hf : m.flag = false) : s.takeInv m
      = (s.withMem (s.mem.dropCopy m.dst m.line)).post (Msg.plain .ack m.line m.dst (homeOf m.line) m.req) := by
  simp [State.takeInv, hc, htr, hst, hf]

/-- A grant with the line's data is the agent's new copy. -/
theorem State.takeGrant_data {st : Moesi} (hst : m.st = some st) (hf : m.flag = false) :
    ∃ s1 : State, s1.mem = s.mem ∧ s.takeGrant m
      = s1.withMem (s.mem.putCopy ⟨m.dst, m.line, st, true, 0, m.data, 0, (s.mem.lineMeta m.line).key, m.vset⟩) := by
  have hmem : (if st = .m then s.staleLine m.dst m.line else s).mem = s.mem := by split <;> rfl
  refine ⟨_, hmem, ?_⟩
  simp only [State.takeGrant, hst, hf, hmem]
  rfl

/-! ### The agent's rows -/

variable (hm : s.mem.msgs.find n = some m)
include hm

theorem exec_putack (hk : m.kind = .putack) (hb : s.mem.behind n m = false) : ∃ t, exec (.putack n) s = .next t
    ∧ t.mem.bytes = s.mem.bytes ∧ t.mem.msgs.find n = none
    ∧ t.mem.wbufs = s.mem.wbufs.filter fun c => !(c.agent == m.dst && c.line == m.line) := by
  have htake : s.takeMsg n = (s.unpost n).takePutAck m := by simp [State.takeMsg, hm, hk, MemSys.takable, hb]
  exact ⟨_, exec_kindRow_eq hm rfl hk htake, rfl, s.unpost_find_self n, rfl⟩

theorem exec_fwds_modified {c : Copy} (hk : m.kind = .fwds) (hg : s.mem.awaitsGrant m.dst m.line = false)
    (hb : s.mem.behind n m = false) (hc : s.mem.findCopy m.dst m.line = some c) (htr : c.tracked = true) (hst : c.st = .m)
    (hq : m.again = some .gets) (hdst : m.dst < 512) (hf : s.mem.putInFlight m.dst m.line = false) :
    ∃ t, exec (.fwds n) s = .next t ∧ t.mem.findCopy m.dst m.line = some { c with st := .o } ∧ t.mem.bytes = s.mem.bytes
      ∧ (t.mem.msgs.find s.nxt.msg).map (fun g => (g.kind, g.dst, g.st, g.data)) = some (.grant, m.req, some .s, c.data)
      ∧ (t.mem.msgs.find (s.nxt.msg + 1)).map (fun g => (g.kind, g.dst, g.flag)) = some (.fwddone, homeOf m.line, false) := by
  have htake : s.takeMsg n = (s.unpost n).takeFwdS m := by simp [State.takeMsg, hm, hk, MemSys.takable, hg, hb]
  obtain ⟨hagent, hline⟩ := MemSys.findCopy_ids hc
  obtain ⟨hgrant, hdone⟩ := State.post_post_find ((s.unpost n).withMem ((s.unpost n).mem.putCopy { c with st := .o }))
    { Msg.plain .grant m.line m.dst m.req m.req with data := c.data, st := some .s, vset := c.vset }
    (Msg.plain .fwddone m.line m.dst (homeOf m.line) m.req)
  exact ⟨_, exec_kindRow_eq hm rfl hk (htake.trans (State.takeFwdS_modified (by exact hc) htr hst hq hdst hf)),
    MemSys.findCopy_putCopy _ hagent hline, rfl, congrArg (Option.map _) hgrant, congrArg (Option.map _) hdone⟩

theorem exec_fwdm_owned {c : Copy} (hk : m.kind = .fwdm) (hg : s.mem.awaitsGrant m.dst m.line = false)
    (hb : s.mem.behind n m = false) (hc : s.mem.findCopy m.dst m.line = some c) (htr : c.tracked = true) (hr : m.flag = false)
    (hst : c.st ≠ .s) (hf : s.mem.putInFlight m.dst m.line = false) :
    ∃ t, exec (.fwdm n) s = .next t ∧ t.mem.findCopy m.dst m.line = none ∧ t.mem.bytes = s.mem.bytes
      ∧ (t.mem.msgs.find s.nxt.msg).map (fun g => (g.kind, g.dst, g.data, g.mask)) = some (.data, m.req, c.data, c.dirty)
      ∧ (t.mem.msgs.find (s.nxt.msg + 1)).map (fun g => (g.kind, g.dst)) = some (.fwddone, homeOf m.line) := by
  have htake : s.takeMsg n = (s.unpost n).takeFwdM m := by simp [State.takeMsg, hm, hk, MemSys.takable, hg, hb]
  obtain ⟨hdata, hdone⟩ := State.post_post_find
    (((s.unpost n).staleLine m.dst m.line).withMem ((s.unpost n).mem.dropCopy m.dst m.line))
    { Msg.plain .data m.line m.dst m.req m.req with data := c.data, mask := c.dirty, key := c.key, vset := c.vset }
    (Msg.plain .fwddone m.line m.dst (homeOf m.line) m.req)
  exact ⟨_, exec_kindRow_eq hm rfl hk (htake.trans (State.takeFwdM_owned (by exact hc) htr hst hr hf)),
    MemSys.findCopy_dropCopy .., rfl, congrArg (Option.map _) hdata, congrArg (Option.map _) hdone⟩

theorem exec_inv_shared {c : Copy} (hk : m.kind = .inv) (hg : s.mem.awaitsGrant m.dst m.line = false)
    (hc : s.mem.findCopy m.dst m.line = some c) (htr : c.tracked = true) (hf : m.flag = false) (hst : c.st = .s) :
    ∃ t, exec (.invalidation n) s = .next t ∧ t.mem.findCopy m.dst m.line = none ∧ t.mem.bytes = s.mem.bytes
      ∧ (t.mem.msgs.find s.nxt.msg).map (fun g => (g.kind, g.dst, g.line)) = some (.ack, homeOf m.line, m.line) := by
  have htake : s.takeMsg n = (s.unpost n).takeInv m := by simp [State.takeMsg, hm, hk, MemSys.takable, hg]
  exact ⟨_, exec_kindRow_eq hm rfl hk (htake.trans (State.takeInv_shared (by exact hc) htr hst hf)),
    MemSys.findCopy_dropCopy .., rfl, congrArg (Option.map _) (State.post_find_self ..)⟩

theorem exec_grant_data {st : Moesi} (hk : m.kind = .grant) (hst : m.st = some st) (hf : m.flag = false) :
    ∃ t, exec (.grant n) s = .next t
      ∧ (t.mem.findCopy m.dst m.line).map (fun c => (c.st, c.tracked, c.data, c.dirty)) = some (st, true, m.data, 0)
      ∧ t.mem.bytes = s.mem.bytes := by
  have htake : s.takeMsg n = (s.unpost n).takeGrant m := by simp [State.takeMsg, hm, hk, MemSys.takable]
  obtain ⟨s1, -, hgrant⟩ := State.takeGrant_data (s := s.unpost n) hst hf
  exact ⟨_, exec_kindRow_eq hm rfl hk (htake.trans hgrant), congrArg (Option.map _) (MemSys.findCopy_putCopy _ rfl rfl), rfl⟩

theorem exec_retry (hk : m.kind = .retry) : ∃ t, exec (.retry n) s = .next t ∧ t.mem.bytes = s.mem.bytes
    ∧ (t.mem.msgs.find s.nxt.msg).map (fun g => (g.kind, g.src, g.dst, g.line))
      = some (m.again.getD .gets, m.dst, homeOf m.line, m.line) := by
  have htake : s.takeMsg n = (s.unpost n).post { m with
      kind := m.again.getD .gets, src := m.dst, dst := homeOf m.line, again := none } := by
    simp [State.takeMsg, hm, hk, MemSys.takable]
  exact ⟨_, exec_kindRow_eq hm rfl hk htake, rfl, congrArg (Option.map _) (State.post_find_self ..)⟩

end agent

section home

/-! ### Answers at the home -/

/-- The transaction of a line that awaits an agent's answer to a forward. -/
theorem MemSys.awaiting_eq {mem : MemSys} {line q req : Nat} {x : Txn} (hx : mem.txns.find line = some x) (ho : x.owner = some q)
    (hr : x.req.req = req) : mem.awaiting line q req = some x := by
  simp [MemSys.awaiting, hx, ho, hr]

/-- The requester of a forward is noted in the entry of the line alone. -/
theorem State.shareAfterForward_mem (s : State) (t : Txn) (line : Nat) (clear wasE : Bool) :
    ∃ d, s.shareAfterForward t line clear wasE = s.withMem { s.mem with dir := d } := by
  unfold State.shareAfterForward
  split
  · exact ⟨s.mem.dir, rfl⟩
  · exact ⟨_, rfl⟩

/-- The owner's answer to a forward of a GetS ends the transaction. -/
theorem State.ownerAnswered_gets {line : Nat} {t : Txn} (hk : t.req.kind = .gets) (sent clear wasE : Bool) :
    ∃ d, s.ownerAnswered line t sent clear wasE
      = if sent then s.withMem { s.mem with txns := s.mem.txns.del line, dir := d }
        else (s.withMem { s.mem with txns := s.mem.txns.del line, dir := d }).grant t.req (some .s) false := by
  obtain ⟨d, hd⟩ := State.shareAfterForward_mem (s.withMem { s.mem with txns := s.mem.txns.del line }) t line clear wasE
  refine ⟨d, ?_⟩
  simp only [State.ownerAnswered, hk, hd]
  rfl

/-- The last acknowledgement of a GetM's invalidations ends its transaction with the grant of M (R185). -/
theorem State.takeAck_last {x : Txn} (hx : s.mem.txns.find m.line = some x) (ha : x.acks = 1) (ho : x.owner = none)
    (hk : x.req.kind = .getm) : ∃ s1 : State, s1.nxt = s.nxt ∧ s1.mem.bytes = s.mem.bytes ∧ s1.mem.txns.find m.line = none
      ∧ s.takeAck m = s1.grant x.req (some .m) (x.req.flag || x.sent) := by
  simp only [State.takeAck, hx, State.finishTxn, State.withMem_mem, AMap.find_set_self, ha, ho, hk]
  refine ⟨_, ?_, ?_, ?_, rfl⟩
  · rfl
  · rfl
  · exact AMap.find_del_self ..

/-! ### The rows of the answers -/

variable (hm : s.mem.msgs.find n = some m) {x : Txn} (hx : s.mem.txns.find m.line = some x)
include hm hx

theorem exec_fwddone_gets (hk : m.kind = .fwddone) (ho : x.owner = some m.src) (hr : x.req.req = m.req) (hg : x.req.kind = .gets) :
    ∃ t, exec (.fwddone n) s = .next t ∧ t.mem.txns.find m.line = none ∧ t.mem.bytes = s.mem.bytes := by
  have haw : (s.unpost n).mem.awaiting m.line m.src m.req = some x := MemSys.awaiting_eq hx ho hr
  have htake : s.takeMsg n = (s.unpost n).ownerAnswered m.line x true m.flag m.flag := by
    simp [State.takeMsg, hm, hk, MemSys.takable, State.takeFwdDone, haw]
  obtain ⟨d, hd⟩ := State.ownerAnswered_gets (s := s.unpost n) (line := m.line) hg true m.flag m.flag
  exact ⟨_, exec_kindRow_eq hm rfl hk (htake.trans hd), AMap.find_del_self .., rfl⟩

theorem exec_nodata_gets (hk : m.kind = .nodata) (ho : x.owner = some m.src) (hr : x.req.req = m.req) (hg : x.req.kind = .gets) :
    ∃ t, exec (.nodata n) s = .next t ∧ t.mem.txns.find m.line = none ∧ t.mem.bytes = s.mem.bytes
      ∧ (t.mem.msgs.find s.nxt.msg).map (fun g => (g.kind, g.dst, g.st)) = some (.grant, m.req, some .s) := by
  have haw : (s.unpost n).mem.awaiting m.line m.src m.req = some x := MemSys.awaiting_eq hx ho hr
  have htake : s.takeMsg n = (s.unpost n).ownerAnswered m.line x false true false := by
    simp [State.takeMsg, hm, hk, MemSys.takable, State.takeNoData, haw]
  obtain ⟨d, hd⟩ := State.ownerAnswered_gets (s := s.unpost n) (line := m.line) hg false true false
  exact ⟨_, exec_kindRow_eq hm rfl hk (htake.trans hd), AMap.find_del_self .., rfl,
    hr ▸ congrArg (Option.map _) (State.grant_find ..)⟩

theorem exec_wbpending (hk : m.kind = .wbpending) (ho : x.owner = some m.src) (hr : x.req.req = m.req) :
    ∃ t, exec (.wbpending n) s = .next t ∧ t.mem.txns.find m.line = some { x with kind := .hw }
      ∧ t.mem.bytes = s.mem.bytes := by
  have haw : (s.unpost n).mem.awaiting m.line m.src m.req = some x := MemSys.awaiting_eq hx ho hr
  have htake : s.takeMsg n = (s.unpost n).withMem { (s.unpost n).mem with
      txns := (s.unpost n).mem.txns.set m.line { x with kind := .hw } } := by
    simp [State.takeMsg, hm, hk, MemSys.takable, State.takeWbPending, haw]
  exact ⟨_, exec_kindRow_eq hm rfl hk htake, AMap.find_set_self .., rfl⟩

theorem exec_acknowledgement_last (hk : m.kind = .ack) (ha : x.acks = 1) (ho : x.owner = none) (hg : x.req.kind = .getm) :
    ∃ t, exec (.acknowledgement n) s = .next t ∧ t.mem.txns.find m.line = none ∧ t.mem.bytes = s.mem.bytes
      ∧ (t.mem.msgs.find s.nxt.msg).map (fun g => (g.kind, g.dst, g.st)) = some (.grant, x.req.req, some .m) := by
  have htake : s.takeMsg n = (s.unpost n).takeAck m := by simp [State.takeMsg, hm, hk, MemSys.takable]
  obtain ⟨s1, hnxt, hbytes, htxns, hlast⟩ := State.takeAck_last (s := s.unpost n) hx ha ho hg
  have hfind := s1.grant_find x.req (some .m) (x.req.flag || x.sent)
  rw [hnxt] at hfind
  exact ⟨_, exec_kindRow_eq hm rfl hk (htake.trans hlast), htxns, hbytes, congrArg (Option.map _) hfind⟩

end home

end Sys2Proof.Machine
end

section
/-!
PROOFS. Puts, the queue of a home and the merge epoch (R179, R184, R185, R188).
-/
namespace Sys2Proof.Machine

variable {s : State} {n : Nat} {m : Msg}

/-! ### A Put leaves its agent -/

/-- The four Puts, each with its row. -/
def putRows (agent line : Nat) : List (MsgKind × (Bool → Instr)) :=
  [(.putm, fun b => .putm b agent line), (.puto, fun b => .puto b agent line), (.pute, fun b => .pute b agent line),
    (.puts, fun b => .puts b agent line)]

section row
variable {agent line : Nat} {k : MsgKind} {i : Bool → Instr} (hrow : (k, i) ∈ putRows agent line)
include hrow

theorem putRows_kind : k = .putm ∨ k = .puto ∨ k = .pute ∨ k = .puts := by
  simp only [putRows, List.mem_cons, Prod.mk.injEq, List.not_mem_nil, or_false] at hrow
  tauto

theorem exec_putRow (arrive : Bool) : exec (i arrive) s = .next (s.putRow k arrive agent line) := by
  simp only [putRows, List.mem_cons, Prod.mk.injEq, List.not_mem_nil, or_false] at hrow
  obtain ⟨rfl, rfl⟩ | ⟨rfl, rfl⟩ | ⟨rfl, rfl⟩ | ⟨rfl, rfl⟩ := hrow <;> rfl

theorem exec_putRow_arrives {e : Nat × Msg}
    (hm : s.mem.msgs.find? (fun e => e.2.kind == k && e.2.src == agent && e.2.line == line) = some e) :
    exec (i true) s = .next (s.takeMsg e.1) := by
  rw [exec_putRow hrow]
  simp [State.putRow, State.putMsg, hm]

theorem exec_putRow_leaves {c : Copy} (hc : s.mem.findCopy agent line = some c) (hst : c.st = putState k) :
    exec (i false) s = .next (s.giveUp c false) := by
  rw [exec_putRow hrow]
  simp [State.putRow, State.evict, hc, hst]

theorem putKind_putState : putKind (putState k) = k := by
  rcases putRows_kind hrow with rfl | rfl | rfl | rfl <;> rfl

end row

/-- A Loam cache drops an S copy silently (R175). -/
theorem State.giveUp_silent {c : Copy} (ht : c.tracked = true) (hst : c.st = .s) (ha : c.agent < 384) :
    s.giveUp c false = s.withMem (s.mem.dropCopy c.agent c.line) := by
  simp [State.giveUp, ht, hst, ha]

/-- Any other tracked copy leaves with a Put. -/
theorem State.giveUp_put {c : Copy} (ht : c.tracked = true) (h : c.st ≠ .s ∨ 384 ≤ c.agent) :
    s.giveUp c false = (s.withMem (s.mem.dropCopy c.agent c.line)).sendPut c false := by
  have hloud : (c.st == .s && decide (c.agent < 384)) = false := by
    rcases h with h | h <;> simp [h]
  simp [State.giveUp, ht, hloud]

section leaves
variable {agent line : Nat} {k : MsgKind} {i : Bool → Instr} (hrow : (k, i) ∈ putRows agent line) {c : Copy}
  (hc : s.mem.findCopy agent line = some c) (htr : c.tracked = true) (hst : c.st = putState k)
include hrow hc htr hst

theorem exec_put_silent (hs : c.st = .s) (hag : agent < 384) :
    exec (i false) s = .next (s.withMem (s.mem.dropCopy agent line)) := by
  obtain ⟨rfl, rfl⟩ := MemSys.findCopy_ids hc
  rw [exec_putRow_leaves hrow hc hst, State.giveUp_silent htr hs hag]

theorem exec_put_leaves (hloud : c.st ≠ .s ∨ 384 ≤ agent) : ∃ t, exec (i false) s = .next t
    ∧ t.mem.findCopy agent line = none ∧ ((k = .putm ∨ k = .puto) → t.mem.putInFlight agent line = true)
    ∧ (t.mem.msgs.find s.nxt.msg).map (fun g => (g.kind, g.src, g.line, g.data, g.mask)) = some (k, agent, line, c.data, c.dirty)
    ∧ t.mem.bytes = s.mem.bytes := by
  obtain ⟨rfl, rfl⟩ := MemSys.findCopy_ids hc
  refine ⟨_, (exec_putRow_leaves hrow hc hst).trans (congrArg Host.Outcome.next (State.giveUp_put htr hloud)),
    MemSys.findCopy_dropCopy .., fun hmo => ?_, ?_, rfl⟩
  · have hown : (c.st == .m || c.st == .o) = true := by rcases hmo with rfl | rfl <;> simp [hst, putState]
    simp [State.sendPut, MemSys.putInFlight, hown]
  · refine (congrArg (Option.map _) (State.post_find_self ..)).trans ?_
    rw [hst, putKind_putState hrow]
    rfl

end leaves

/-! ### A Put arrives at the home of its line alone -/

theorem State.takeMsg_put (hm : s.mem.msgs.find n = some m) (hk : m.kind ∈ [.putm, .puto, .pute, .puts]) :
    s.takeMsg n = (s.unpost n).takePut m := by
  simp only [State.takeMsg, hm]
  cases hkind : m.kind <;> simp [hkind, MemSys.takable] at hk ⊢

theorem State.takePut_untransacted (ht : s.mem.txns.find m.line = none) :
    s.takePut m = (s.putEntryDone m).post (Msg.plain .putack m.line (homeOf m.line) m.src m.src) := by
  simp [State.takePut, ht]

/-- What a Put leaves that arrives at the entry of its line alone. -/
structure State.PutLeft (s t : State) (m : Msg) (e : DirEntry) : Prop where
  nxt : t.nxt = s.nxt
  owner : m.kind ≠ .puts → e.owner = some m.src → ∀ x ∈ t.mem.dir, x.owner = none
  sharer : m.kind = .puts → e.coarse = false → ∀ x ∈ t.mem.dir, ∀ p ∈ x.ptrs, p.agent = m.src → p.k = true
  bytes : m.kind = .putm ∨ m.kind = .puto → e.owner = some m.src → t.mem.bytes = s.mem.bytes.putLine m.line m.data m.mask

/-- A PutS takes its agent's pointer out of the entry. -/
theorem State.putDone_puts {e : DirEntry} (he : e.Single m.line) (hd : s.mem.dir = [e]) (hk : m.kind = .puts) :
    State.PutLeft s (s.putDone m e) m e := by
  have hdone : s.putDone m e = if e.coarse then s
      else s.withMem (s.mem.putEntry { e with ptrs := e.ptrs.filter fun p => !(p.agent == m.src && !p.k) }.settleState) := by
    simp [State.putDone, hk, he.holdsOther]
  refine ⟨?_, fun h => absurd hk h, fun _ hc x hx p hp hpa => ?_, fun h => by simp [hk] at h⟩
  · rw [hdone]; split <;> rfl
  · rw [hdone, hc, if_neg Bool.false_ne_true] at hx
    obtain rfl := MemSys.mem_putEntry_alone hd (by simp [DirEntry.same, DirEntry.settleState]) hx
    simpa [hpa] using (List.mem_filter.1 hp).2

/-- A Put of the line's owner takes it out of the entry, and one of an M or O copy writes its bytes. -/
theorem State.putDone_owner {e : DirEntry} (he : e.Single m.line) (hd : s.mem.dir = [e]) (hk : m.kind ∈ [.putm, .puto, .pute])
    (hr : m.flag = false) (h : s.NoAlias) (ha : aliasLine m.line = false) (hp : s.mem.poisoned m.line m.key = false) :
    State.PutLeft s (s.putDone m e) m e := by
  have hst := h.homeStore ha hp m.data m.mask m.vset
  have hputs : m.kind ≠ .puts := by rintro hk'; simp [hk'] at hk
  by_cases ho : e.owner = some m.src
  · have hdone : s.putDone m e = ((if m.kind == .pute then s else s.takeData m).withMem
        ((if m.kind == .pute then s else s.takeData m).mem.putEntry { e with owner := none }.settleState)) := by
      simp [State.putDone, hputs, ho, hr, he.clearOwner]
    have hdir : (if m.kind == .pute then s else s.takeData m).mem.dir = [e] := by
      split
      · exact hd
      · exact hst.dir.trans hd
    refine ⟨?_, fun _ _ x hx => ?_, fun h => absurd h hputs, fun hmo _ => ?_⟩
    · rw [hdone, State.withMem_nxt]
      split
      · rfl
      · exact hst.nxt
    · rw [hdone] at hx
      obtain rfl := MemSys.mem_putEntry_alone hdir (by simp [DirEntry.same, DirEntry.settleState]) hx
      rfl
    · have hne : (m.kind == .pute) = false := by rcases hmo with h | h <;> simp [h]
      rw [hdone, hne]
      exact hst.bytes
  · have hdone : s.putDone m e = s := by simp [State.putDone, hputs, ho]
    rw [hdone]
    exact ⟨rfl, fun _ h => absurd h ho, fun h => absurd h hputs, fun _ h => absurd h ho⟩

/-- The Put of the line's own entry, whatever its kind. -/
theorem State.putDone_left {e : DirEntry} (he : e.Single m.line) (hd : s.mem.dir = [e])
    (hk : m.kind = .putm ∨ m.kind = .puto ∨ m.kind = .pute ∨ m.kind = .puts) (hr : m.flag = false) (h : s.NoAlias)
    (ha : aliasLine m.line = false) (hp : s.mem.poisoned m.line m.key = false) : State.PutLeft s (s.putDone m e) m e := by
  rcases hk with hk | hk | hk | hk
  case inr.inr.inr => exact State.putDone_puts he hd hk
  all_goals exact State.putDone_owner he hd (by simp [hk]) hr h ha hp

theorem exec_put_arrives {agent line : Nat} {k : MsgKind} {i : Bool → Instr} {e : DirEntry} (hrow : (k, i) ∈ putRows agent line)
    (hfind : s.mem.msgs.find? (fun e => e.2.kind == k && e.2.src == agent && e.2.line == line) = some (n, m))
    (hm : s.mem.msgs.find n = some m) (ht : s.mem.txns.find line = none) (hd : s.mem.dir = [e]) (he : e.Single line)
    (hr : m.flag = false) (ha : aliasLine line = false) (h : s.NoAlias) (hp : s.mem.poisoned line m.key = false) :
    ∃ t, exec (i true) s = .next t
      ∧ (t.mem.msgs.find s.nxt.msg).map (fun g => (g.kind, g.dst, g.line)) = some (.putack, agent, line)
      ∧ (k ≠ .puts → e.owner = some agent → ∀ e' ∈ t.mem.dir, e'.owner = none)
      ∧ (k = .puts → e.coarse = false → ∀ e' ∈ t.mem.dir, ∀ p ∈ e'.ptrs, p.agent = agent → p.k = true)
      ∧ ((k = .putm ∨ k = .puto) → e.owner = some agent → ∀ j < 128, t.mem.bytes.byte (128 * line + j)
        = if m.mask.getLsbD j then lineByte m.data j else s.mem.bytes.byte (128 * line + j)) := by
  obtain ⟨⟨rfl, rfl⟩, rfl⟩ : (m.kind = k ∧ m.src = agent) ∧ m.line = line := by simpa using List.find?_some hfind
  have hkind := putRows_kind hrow
  have hleft : State.PutLeft (s.unpost n) ((s.unpost n).putDone m e) m e := State.putDone_left he hd hkind hr h ha hp
  have hentry : (s.unpost n).putEntryDone m = (s.unpost n).putDone m e := by
    simp [State.putEntryDone, he.entry (m := (s.unpost n).mem) hd]
  have htake : s.takeMsg n = ((s.unpost n).putDone m e).post (Msg.plain .putack m.line (homeOf m.line) m.src m.src) := by
    rw [State.takeMsg_put hm (by simpa using hkind), State.takePut_untransacted (by exact ht), hentry]
  have hack := ((s.unpost n).putDone m e).post_find_self (Msg.plain .putack m.line (homeOf m.line) m.src m.src)
  rw [hleft.nxt] at hack
  refine ⟨_, (exec_putRow_arrives hrow hfind).trans (congrArg Host.Outcome.next htake), congrArg (Option.map _) hack, hleft.owner,
    hleft.sharer, fun hmo ho j hj => ?_⟩
  rw [State.post_bytes, hleft.bytes hmo ho]
  exact Memory.byte_putLine _ _ _ _ hj

/-! ### The queue of a home -/

theorem State.dequeue_first {line : Nat} (hq : s.mem.queued.find? (fun x => x.line == line) = some m) :
    s.dequeue line = if s.canStart m then s.startQueued m else s := by
  simp [State.dequeue, hq]

/-- A request that waits at a home without transactions and entries is taken up. -/
theorem State.dequeue_empty (hq : s.mem.queued = [m]) (ht : s.mem.txns = []) (hd : s.mem.dir = []) :
    s.dequeue m.line = (s.withMem { s.mem with queued := [] }).homeHandle m := by
  have hfind : s.mem.queued.find? (fun x => x.line == m.line) = some m := by simp [hq]
  have hroom := MemSys.overfull_empty hd m
  have hstart : s.canStart m = true := by simp [State.canStart, MemSys.transient, MemSys.evicting, ht, hfind, hroom]
  rw [State.dequeue_first hfind, if_pos hstart]
  simp [State.startQueued, hroom, hq]

theorem exec_dequeue_empty (hq : s.mem.queued = [m]) (hk : m.kind = .gets) (ht : s.mem.txns = []) (hd : s.mem.dir = [])
    (ha : aliasLine m.line = false) : ∃ t, exec (.queuedRequestDequeue m.line) s = .next t ∧ t.mem.queued = []
      ∧ t.mem.bytes = s.mem.bytes ∧ (t.mem.msgs.find s.nxt.msg).map (fun g => (g.kind, g.dst, g.st, g.data))
        = some (.grant, m.req, some .e, s.mem.bytes.line m.line) := by
  have hserved : s.dequeue m.line = ((s.withMem { s.mem with queued := [] }).allocated m).grant m (some .e) false := by
    rw [State.dequeue_empty hq ht hd, State.homeHandle_grants (by exact hd) (by rw [hk]; rfl)]
  exact ⟨_, congrArg Host.Outcome.next hserved, rfl, rfl, State.grant_answer ha⟩

/-! ### The merge epoch -/

/-- Without two entries that may merge, nothing merges. -/
theorem State.mergeAll_none (h : ∀ a ∈ s.mem.dir, ∀ b ∈ s.mem.dir, s.mem.mergeable a b = false) : s.mergeAll = s := by
  refine List.foldlRecOn s.mem.dir State.mergePair (motive := fun t => t = s) rfl fun t ht a ha => ?_
  subst ht
  have hnone : t.mem.dir.find? (fun b => t.mem.mergeable a b) = none := List.find?_eq_none.2 fun b hb => by simp [h a ha b hb]
  simp [State.mergePair, hnone]

end Sys2Proof.Machine
end

section
/-!
PROOFS. The rows of the directory (R175 to R190).
-/
namespace Sys2Proof.Machine

/-- Settles O57: each row by the rule of its receiver, on the state that has lost the message. -/
theorem directoryRows : Obligations.DirectoryRows := by
  refine ⟨fun s n m hm => ?kinds, fun s n m hm ha h ht hq => ⟨fun hd => ?empty, fun e hd hbase hcls hk => ?single⟩,
    fun s n m hm => ⟨exec_putack hm, fun hg c hc htr => ?owner, fun x hx _ => ?answers, fun st => exec_grant_data hm,
      exec_retry hm⟩,
    fun s agent line k i hrow => ⟨fun n m hfind => ?arrives, fun c hc htr hst => ?leaves⟩, fun s m hq => ?queue,
    fun s => ⟨rfl, fun h => congrArg Host.Outcome.next (State.mergeAll_none h)⟩⟩
  case kinds =>
    have row : ∀ {k i}, kindRow n k = some i → m.kind = k → exec i s = .next (s.takeMsg n) := exec_kindRow hm
    exact ⟨row rfl, row rfl, row rfl, row rfl, row rfl, row rfl, row rfl, row rfl, row rfl, row rfl, row rfl, row rfl, row rfl,
      row rfl, row rfl, row rfl, row rfl, exec_promote hm⟩
  case empty =>
    refine ⟨fun hk => ?_, fun hk => ?_, fun hk => ?_, fun hk => ?_, fun hk => ?_, exec_wr_empty hm ht hq hd h ha,
      fun a hk hact _ => exec_homeAtomic_empty hm ht hq hd h ha hk hact⟩
    all_goals exact exec_firstGrant hm ht hq hd ha hk rfl rfl (by simp [MemSys.newEntry, hk, DirEntry.owned])
  case single =>
    have he : e.Single m.line := ⟨hbase, hcls⟩
    exact ⟨exec_gets_unowned hm ht hq hd he ha hk, fun o => exec_gets_owned hm ht hq hd he hk⟩
  case owner =>
    exact ⟨fun hk hb hq hst => exec_fwds_modified hm hk hg hb hc htr hst hq, fun hk hb => exec_fwdm_owned hm hk hg hb hc htr,
      fun hk => exec_inv_shared hm hk hg hc htr⟩
  case answers =>
    exact ⟨fun ho hr hg => ⟨fun hk => exec_fwddone_gets hm hx hk ho hr hg, fun hk => exec_nodata_gets hm hx hk ho hr hg,
      fun hk => exec_wbpending hm hx hk ho hr⟩, exec_acknowledgement_last hm hx⟩
  case arrives =>
    exact ⟨exec_putRow_arrives hrow hfind,
      fun e hm ht hd hbase hcls hr ha h => exec_put_arrives hrow hfind hm ht hd ⟨hbase, hcls⟩ hr ha h⟩
  case leaves => exact ⟨exec_put_silent hrow hc htr hst, exec_put_leaves hrow hc htr hst⟩
  case queue =>
    have hfirst : exec (.queuedRequestDequeue m.line) s = .next (if s.canStart m then s.startQueued m else s) :=
      congrArg Host.Outcome.next (State.dequeue_first hq)
    exact ⟨fun hs => hfirst.trans (by rw [if_pos hs]), fun hs => hfirst.trans (by simp [hs]), exec_dequeue_empty⟩

end Sys2Proof.Machine
end

section
/-!
PROOFS. FENCE, OPFENCE and IFENCE (R201, R206, R208, R395, R396, R430).
-/
namespace Sys2Proof.Machine

variable {s : State} {k : Nat} {g : Guard}

/-- Each kind that a FENCE sets names what must be done before it (R201, R206, R396). -/
theorem State.fenceDone_iff {f : FenceSpec} :
    s.fenceDone k f = true ↔
      (f.ld = true → ((s.pendingOf k).map fun e => e.2.kind).any AccessKind.loads = false)
      ∧ ((f.st = true ∨ f.xv = true) → ((s.pendingOf k).map fun e => e.2.kind) = [])
      ∧ (f.io = true → ((s.pendingOf k).map fun e => e.2.kind).any AccessKind.stores = false)
      ∧ (f.en = true → (s.thread k).oc.cp = 0 ∧ (s.thread k).oc.tile = 0) := by
  simp only [State.fenceDone, Bool.and_eq_true, Bool.or_eq_true, Bool.not_eq_true', Bool.or_eq_false_iff, beq_iff_eq,
    List.isEmpty_iff, imp_iff_not_or, not_or, Bool.not_eq_true, and_assoc]

/-- A FENCE goes on once what its kinds name is done, crossing the views for `xv` (R206). -/
theorem exec_fence_done {f : FenceSpec} (h : s.executes k g anyCore .holds []) (hd : s.fenceDone k f = true) :
    exec (.fence g f) s
      = .next ((if f.xv then s.crossViews (s.agentOf k) else s).goTo k (nextPc (s.thread k).pc)) :=
  perThread_next h (if_pos hd)

theorem exec_fence_waits {f : FenceSpec} (h : s.executes k g anyCore .holds []) (hd : ¬s.fenceDone k f = true) :
    exec (.fence g f) s = .next s :=
  perThread_wait h (if_neg hd)

/-- An OPFENCE goes on once no Loam store of its crew is unperformed (R208, R430). -/
theorem exec_opfence_done (h : s.executes k g simtOnly .holds []) (hl : s.loamStores (crewOf k) = false) :
    exec (.opfence g) s = .next (s.advance k) :=
  perThread_next h (if_neg (Bool.eq_false_iff.1 hl))

theorem exec_opfence_waits (h : s.executes k g simtOnly .holds []) (hl : s.loamStores (crewOf k) = true) :
    exec (.opfence g) s = .next s :=
  perThread_wait h (if_pos hl)

theorem exec_ifence (h : s.executes k g anyCore .holds []) : exec (.ifence g) s = .next (s.advance k) :=
  perThread_next h rfl

/-- Settles O32: a FENCE by whether what its kinds name is done, an OPFENCE by its crew's Loam stores. -/
theorem fences : Obligations.Fences := by
  refine ⟨fun g f s k h => ?fence, fun g s k h => ?opfence, fun g s k h => exec_ifence h⟩
  case fence =>
    exact ⟨fun hd => exec_fence_done h (State.fenceDone_iff.2 hd), fun hd => exec_fence_waits h (hd ∘ State.fenceDone_iff.1)⟩
  case opfence => exact ⟨exec_opfence_done h, exec_opfence_waits h⟩

end Sys2Proof.Machine
end

section
/-!
PROOFS. Kaolin residencies: KALLOC, KPIN, KREV, KSTAT, CBKLD, and the rows of a fill (R236 to R243, R373, R410, R411, R413 to R415).
-/
namespace Sys2Proof.Machine

variable {s : State} {k : Nat} {g : Guard}

/-! ### Handles (R236, R413 to R415) -/

section handle
variable {a : Reg} {f : Nat → Nat → Handle → Res} {core n : Nat} {h : Handle}

theorem handleInstr_valid (hf : s.findHandle (s.ctxOf k).asid (s.readReg k a) = some (core, n, h)) :
    handleInstr s k a f = f core n h := by
  simp only [handleInstr, hf]

theorem handleInstr_invalid (hf : s.findHandle (s.ctxOf k).asid (s.readReg k a) = none) :
    handleInstr s k a f = .trap cRES_HANDLE 0 (s.readReg k a) false := by
  simp only [handleInstr, hf]

theorem exec_kpin (he : s.executes k g anyCore .holds [a.toNat])
    (hf : s.findHandle (s.ctxOf k).asid (s.readReg k a) = some (core, n, h)) :
    exec (.kpin g a) s = .next ((s.putHandle core n { h with pin := true }).advance k) :=
  perCrew_next he (handleInstr_valid hf)

theorem exec_kpinOff (he : s.executes k g anyCore .holds [a.toNat])
    (hf : s.findHandle (s.ctxOf k).asid (s.readReg k a) = some (core, n, h)) :
    exec (.kpinOff g a) s = .next ((s.putHandle core n { h with pin := false }).advance k) :=
  perCrew_next he (handleInstr_valid hf)

/-- KREV frees the entry and returns its unit once no fill and no accepted command uses it (R414). -/
theorem exec_krev_frees (he : s.executes k g anyCore .holds [a.toNat])
    (hf : s.findHandle (s.ctxOf k).asid (s.readReg k a) = some (core, n, h)) (hst : h.state ≠ .filling)
    (hu : (s.core core).usesHandle n = false) :
    exec (.krev g a) s
      = .next (((s.putHandle core n h.free).returnKaolin h.ctx (core / Config.coresPerDie) h.region).advance k) :=
  perCrew_next he ((handleInstr_valid hf).trans (if_neg (by simp [hst, hu])))

theorem exec_krev_waits (he : s.executes k g anyCore .holds [a.toNat])
    (hf : s.findHandle (s.ctxOf k).asid (s.readReg k a) = some (core, n, h))
    (hu : h.state = .filling ∨ (s.core core).usesHandle n = true) : exec (.krev g a) s = .next s :=
  perCrew_wait he ((handleInstr_valid hf).trans (if_pos hu))

theorem exec_kstat {d : Reg} (he : s.executes k g anyCore .runs [a.toNat, d.toNat])
    (hf : s.findHandle (s.ctxOf k).asid (s.readReg k a) = some (core, n, h)) :
    exec (.kstat g d a) s = .next ((s.writeReg k d (kstatWord h)).goTo k (nextPc (s.thread k).pc)) :=
  perThread_next he (by simp only [hf])

theorem exec_kstat_invalid {d : Reg} (he : s.executes k g anyCore .runs [a.toNat, d.toNat])
    (hf : s.findHandle (s.ctxOf k).asid (s.readReg k a) = none) :
    exec (.kstat g d a) s = .next ((s.writeReg k d 0).goTo k (nextPc (s.thread k).pc)) :=
  perThread_next he (by simp only [hf])

end handle

/-! ### KALLOC (R239, R410, R411, R482) -/

section alloc
variable {crew ar : Bool} {d a : Reg} {path : List Word}

/-- A unit that every block of the path admits is charged to each of them. -/
theorem State.chargeKaolin_admitted {c : Ctx} {die : Nat} {leaf : Word} (hp : s.regionPath (hwWho c) die leaf = some path)
    (hcap : ∀ e ∈ effectiveAlong (s.cachedWord (hwWho c) die) 9 (s.kcapField (hwWho c) die) path, s.kused c e.1 + 1 ≤ e.2) :
    s.chargeKaolin c die leaf = some (path.foldl (fun s b => s.putKused c b (s.kused c b + 1)) s) := by
  have hany : (effectiveAlong (s.cachedWord (hwWho c) die) 9 (s.kcapField (hwWho c) die) path).any
      (fun e => decide (e.2 < s.kused c e.1 + 1)) = false := by
    simpa using hcap
  simp only [State.chargeKaolin, hp, hany, Bool.false_eq_true, if_false]

/-- The entry that KALLOC makes of the free slot `n`, with generation `gen`. -/
def State.kallocHandle (s : State) (k : Nat) (crew ar : Bool) (gen n : Nat) : Handle :=
  { Handle.zero with
    alloc := true, asid := (s.ctxOf k).asid, gen := gen, slot := some n, crewFlag := crew, ar := ar,
    owner := crewOf k, region := s.regionOf k, ctx := s.ctxOf k }

variable (hcore : (s.readReg k a).toNat < Config.simtCores) (hcrew : crew = true → isLat k = false) (hreg : s.regionOf k ≠ 0)
  {charged : State} (hcharge : s.chargeKaolin (s.ctxOf k) (s.dieOf k) (s.regionOf k) = some charged)
include hcore hcrew hreg hcharge

theorem State.kalloc_room (word : Word) {i n : Nat} (hi : (s.core (s.readReg k a).toNat).freeIndex = some i)
    (hn : (s.core (s.readReg k a).toNat).freeSlot = some n) {gen : Nat}
    (hgen : gen = if ((s.core (s.readReg k a).toNat).handle i).gen = 255 then 1
      else ((s.core (s.readReg k a).toNat).handle i).gen + 1) :
    s.kalloc [k] word crew ar d a
      = .go ((charged.putHandle (s.readReg k a).toNat i (s.kallocHandle k crew ar gen n)).writeReg k d
        (BitVec.ofNat 64 ((s.readReg k a).toNat * 2 ^ 16 + gen * 2 ^ 8 + i))) .next := by
  have hlat : (crew && isLat k) = false := by cases crew <;> simp_all
  subst hgen
  simp only [State.kalloc, List.headD_cons, hlat, Bool.false_eq_true, if_false, Nat.not_le.2 hcore, hreg, hcharge, hi, hn]
  rfl

theorem State.kalloc_full (word : Word) (hfull : (s.core (s.readReg k a).toNat).freeIndex = none
      ∨ (s.core (s.readReg k a).toNat).freeSlot = none) :
    s.kalloc [k] word crew ar d a = .go (s.writeReg k d 0) .next := by
  have hlat : (crew && isLat k) = false := by cases crew <;> simp_all
  simp only [State.kalloc, List.headD_cons, hlat, Bool.false_eq_true, if_false, Nat.not_le.2 hcore, hreg, hcharge]
  split
  · next hi hn => simp [hi, hn] at hfull
  · rfl

end alloc

/-! ### CBKLD (R242, R373) -/

/-- A load that is complete when it retires changes nothing but the count of the free values. -/
theorem State.reads.state_eq {va n : Nat} {s1 : State} {bs : List Byte} (h : s.reads k va n s1 bs) :
    ∃ m, s1 = { s with free := m } := by
  obtain ⟨-, -, -, rfl, -⟩ | ⟨c, -, rfl, -⟩ := h
  · exact ⟨s1.free, rfl⟩
  · exact ⟨_, rfl⟩

theorem State.cbkld_loads {s1 : State} {d a b : Reg} {slot : Nat} {bs : List Byte} (hcore : (s.readReg k b).toNat < Config.simtCores)
    (ha : (s.readReg k a).toNat % 32 = 0) (hp : s.ownPending k (va57 (s.readReg k a)) 32 = false)
    (hr : s.reads k (va57 (s.readReg k a)) 32 s1 bs)
    (hold : ∀ o, (s.core (s.readReg k b).toNat).engines.codebooks.find slot = some o →
      o.valid = false ∨ o.asid = (s.ctxOf k).asid ∨ s.contextOn (s.readReg k b).toNat o.asid = false)
    {keep : Cmd → Cmd} (hkeep : keep = fun x => if x.isMma then
      { x with older := (slot, (((s.core (s.readReg k b).toNat).engines.codebooks.find slot).map (·.entries)).getD []) :: x.older }
      else x) :
    s.cbkld [k] d a b slot = .go (((s1.modCore (s.readReg k b).toNat fun c => { c with engines := { c.engines with
        queue := c.engines.queue.map keep, current := c.engines.current.map keep
        codebooks := c.engines.codebooks.set slot
          ⟨(List.range 16).map fun j => BitVec.ofNat 16 (bytesToNat ((bs.drop (2 * j)).take 2)), true, (s.ctxOf k).asid⟩ } }).markCb
          k slot).writeReg k d 0) .next := by
  have hload := State.loadNow_reads (by decide) hr
  obtain ⟨m, rfl⟩ := hr.state_eq
  have hfree : (((s.core (s.readReg k b).toNat).engines.codebooks.find slot).any fun o =>
      o.valid && o.asid != (s.ctxOf k).asid && s.contextOn (s.readReg k b).toNat o.asid) = false := by
    rw [Option.any_eq_false_iff_get]
    intro ho
    obtain hv | hv | hv := hold _ (Option.some_get ho).symm <;> simp [hv]
  subst hkeep
  simp only [State.cbkld, List.headD_cons, Nat.not_le.2 hcore, if_false, ha, ne_eq, not_true_eq_false, hp, Bool.false_eq_true, hload]
  exact if_neg (Bool.eq_false_iff.1 hfree)

/-! ### The rows of a fill (R237, R240) -/

theorem exec_fillStart {core : Nat} {c : Cmd} (hn : s.nextCmd core = some c) (hf : c.isFill = true) :
    exec (.fillStart core) s = .next (((s.dequeueCmd core c).setFill core (some c)).fillRead core (fld c.b 7 0)) := by
  show execFillStart core s = _
  simp only [execFillStart, hn, hf, if_true]

theorem State.fillDone_eq {core : Nat} {c : Cmd} {h : Handle} (hh : (s.core core).handle (fld c.b 7 0) = h) (ha : h.alloc = true)
    (hst : h.state = .filling) :
    s.fillDone core c = (s.putHandle core (fld c.b 7 0)
      { h with state := if h.touched then .stale else .valid, touched := false }).lowerTile c.threads := by
  simp only [State.fillDone, hh, ha, hst, beq_self_eq_true, Bool.and_self, if_true]

theorem exec_fillCompletion {core : Nat} {c : Cmd} (hc : (s.core core).engines.fill = some c) :
    exec (.fillCompletion core) s = .next (((s.fillDone core c).setFill core none).reapCrew c.crew) := by
  show execFillCompletion core s = _
  simp only [execFillCompletion, hc]

end Sys2Proof.Machine
end
section
/-!
PROOFS. KFILL of a tile in the heap (R117, R131, R132, R240, R412).
-/
namespace Sys2Proof.Machine

variable {s : State} {k : Nat} {g : Guard}

/-! ### The heap while Silt is off (R117, R168) -/

/-- Silt has compressed no unit of any stack, and notes no access. -/
def State.siltOff (s : State) : Prop := ∀ e ∈ s.stks, e.2.compressed = [] ∧ fld e.2.cold 31 0 = 0

theorem State.siltOff.stk (h : s.siltOff) (n : Nat) : (s.stk n).compressed = [] ∧ fld (s.stk n).cold 31 0 = 0 := by
  unfold State.stk AMap.get
  cases hn : s.stks.find n with
  | none => exact ⟨rfl, rfl⟩
  | some x => exact h _ (AMap.mem_of_find hn)

theorem State.siltOff.compressed (h : s.siltOff) (n : Nat) : (s.stk n).compressed = [] := (h.stk n).1
theorem State.siltOff.cold (h : s.siltOff) (n : Nat) : fld (s.stk n).cold 31 0 = 0 := (h.stk n).2

theorem State.siltOff.siltExpand_eq (h : s.siltOff) (pa : Nat) (counts : Bool) : s.siltExpand pa counts = some s := by
  simp only [State.siltExpand, h.compressed, h.cold, List.contains_nil, Bool.not_false, if_true, ite_self]

theorem State.siltOff.usePage_eq (h : s.siltOff) (p : Page) : s.usePage p = (s, .page p) := by
  simp only [State.usePage, h.siltExpand_eq]

/-- Addresses of a record's rows, from the first byte to the last, lie in the readable heap of a context. -/
structure TileRec.InHeap (t : TileRec) (w : Who) : Prop where
  translated : w.sup = true → w.ctx.pgroot ≠ 0
  outside : offSpan w.ctx t.range = true
  readable : bitAt w.ctx.hattr 0 = true
  heap : ∀ va, t.base ≤ va → va < t.range.2 → inHeap w.ctx va = true

variable {t : TileRec} {w : Who}

/-- No address of a range off the window span lies in it (R116, R131). -/
theorem inSpan_of_offSpan {c : Ctx} {r : Nat × Nat} {va : Nat} (h : offSpan c r = true) (hlo : r.1 ≤ va) (hhi : va < r.2) :
    inSpan c va = false := by
  simp only [offSpan, Bool.or_eq_true, decide_eq_true_eq] at h
  simp only [inSpan, Bool.and_eq_false_iff, decide_eq_false_iff_not]
  omega

theorem TileRec.InHeap.resolve_eq (h : t.InHeap w) (hs : s.siltOff) {va : Nat} (hlo : t.base ≤ va) (hhi : va < t.range.2) :
    s.resolve w va .load = (s, .page (heapPage w.ctx va)) := by
  have hflat : (w.sup && w.ctx.pgroot == 0) = false := by
    cases hsup : w.sup
    · rfl
    · rw [beq_eq_false_iff_ne.2 (h.translated hsup), Bool.and_false]
  have hdenied : heapDenied w.ctx .load = none := by simp only [heapDenied, h.readable, if_true]
  simp only [State.resolve, hflat, inSpan_of_offSpan h.outside hlo hhi, h.heap va hlo hhi, hdenied, hs.usePage_eq, if_true,
    Bool.false_eq_true, if_false]

/-! ### The pages of the rows -/

theorem mem_pageStarts {a n x : Nat} (hn : 0 < n) (hx : x ∈ pageStarts a n) : a ≤ x ∧ x < a + n := by
  simp only [pageStarts, List.mem_cons, List.mem_filter, List.mem_map, decide_eq_true_eq] at hx
  obtain rfl | ⟨⟨i, -, rfl⟩, hlt⟩ := hx
  · omega
  · exact ⟨by omega, hlt⟩

theorem TileRec.mem_rowPages {x : Nat} (hlen : 0 < t.rowlen) (hx : x ∈ t.rowPages) : t.base ≤ x ∧ x < t.range.2 := by
  simp only [TileRec.rowPages, List.mem_dedup, List.mem_flatMap, List.mem_range] at hx
  obtain ⟨r, hr, hx⟩ := hx
  have hrow := mem_pageStarts hlen hx
  have hstride : r * t.stride ≤ (t.rows - 1) * t.stride := Nat.mul_le_mul_right _ (by omega)
  simp only [TileRec.range]
  omega

theorem TileRec.rowPages_ne_nil (hrows : 0 < t.rows) : t.rowPages ≠ [] := by
  have hmem : t.base ∈ t.rowPages := by
    simp only [TileRec.rowPages, List.mem_dedup, List.mem_flatMap, List.mem_range]
    exact ⟨0, hrows, by simp [pageStarts]⟩
  exact List.ne_nil_of_mem hmem

theorem TileRec.InHeap.pagesOf_eq (h : t.InHeap w) (hs : s.siltOff) {as : List Nat} (has : ∀ a ∈ as, t.base ≤ a ∧ a < t.range.2) :
    s.pagesOf w .load as = (s, .inl (as.map (heapPage w.ctx))) := by
  induction as with
  | nil => rfl
  | cons a as ih =>
    obtain ⟨ha, has⟩ := List.forall_mem_cons.1 has
    simp only [State.pagesOf, h.resolve_eq hs ha.1 ha.2, ih has, List.map_cons]

/-! ### The record's checks (R131, R132, R240) -/

/-- A record of 128 rows of 128 unscaled bytes in the heap, of the heap's format. -/
structure TileRec.HeapTile (t : TileRec) (w : Who) : Prop extends t.InHeap w where
  space : t.space = 0
  rows : t.rows = 128
  rowlen : t.rowlen = 128
  shape : t.shapeBad = false
  view : t.view = 0
  scaled : t.scaled = false
  unscaled : bitAt w.ctx.hattr 14 = false
  allowed : fmtAllowed (fld w.ctx.hattr 13 10) false = true
  named : t.fmt = 0 ∨ t.fmt = fld w.ctx.hattr 13 10

namespace TileRec.HeapTile

variable (h : t.HeapTile w) (hs : s.siltOff)
include h hs

theorem rowPages_pagesOf : s.pagesOf w .load t.rowPages = (s, .inl (t.rowPages.map (heapPage w.ctx))) :=
  h.pagesOf_eq hs fun _ => TileRec.mem_rowPages (by rw [h.rowlen]; decide)

theorem checkRecAttr_eq : s.checkRecAttr w t .load true = (s, some (fld w.ctx.hattr 13 10, false), none) := by
  have hall : t.rowPages.filter (s.resolves w .load) = t.rowPages := by
    refine List.filter_eq_self.2 fun a ha => ?_
    obtain ⟨hlo, hhi⟩ := TileRec.mem_rowPages (by rw [h.rowlen]; decide) ha
    simp only [State.resolves, h.resolve_eq hs hlo hhi]
  obtain ⟨a, as, has⟩ := List.exists_cons_of_ne_nil (TileRec.rowPages_ne_nil (t := t) (by rw [h.rows]; decide))
  have hpages : s.pagesOf w .load t.rowPages = (s, .inl (heapPage w.ctx a :: as.map (heapPage w.ctx))) := by
    rw [h.rowPages_pagesOf hs, has, List.map_cons]
  have hname : (t.fmt != 0 && t.fmt != fld w.ctx.hattr 13 10) = false := by obtain hf | hf := h.named <;> simp [hf]
  have hrange : s.rangeOk w 0 t.range = true := h.outside
  simp only [State.checkRecAttr, h.shape, h.space, hrange, hall, hpages, h.scaled, heapPage, h.view, h.unscaled,
    hname, Bool.false_eq_true, if_false, if_true, Bool.not_true, Bool.false_and, Bool.and_false, Bool.or_false, bne_self_eq_false]
  simp [heapPage, h.unscaled]

theorem fillFormat_allowed : (s.fillFormat w t).any (fun f => !fmtAllowed f.1 f.2) = false := by
  have hallow := h.allowed
  have hbase : s.resolve w t.base .load = (s, .page (heapPage w.ctx t.base)) :=
    h.resolve_eq hs le_rfl (by simp only [TileRec.range, h.rowlen]; omega)
  unfold State.fillFormat
  split
  · next hf => simp [h.named.resolve_left hf, h.scaled, hallow]
  · simp [hbase, heapPage, h.unscaled, hallow]

theorem translateRec_eq : s.translateRec w t (fld w.ctx.hattr 13 10, false) .load = (s, none) := by
  simp only [State.translateRec, h.space, ne_eq, not_true_eq_false, if_false, Bool.false_eq_true, List.append_nil, h.rowPages_pagesOf hs]

omit hs in
/-- Pages of the heap have no entry to mark. -/
theorem markSource_eq : s.markSource w t (fld w.ctx.hattr 13 10, false) = s := by
  have hheap : ∀ a ∈ t.rowPages, inHeap w.ctx a = true := fun a ha => by
    obtain ⟨hlo, hhi⟩ := TileRec.mem_rowPages (by rw [h.rowlen]; decide) ha
    exact h.heap a hlo hhi
  simp only [State.markSource, Bool.false_eq_true, if_false, List.append_nil]
  refine (List.foldl_ext _ (fun s _ => s) s fun s a ha => if_pos ?_).trans (List.foldl_fixed _)
  rw [hheap a ha, Bool.true_or]

end TileRec.HeapTile

/-! ### KFILL (R240, R412) -/

section fill
variable {d a b : Reg}

theorem exec_kfill_waits (he : s.executes k g anyCore .holds [a.toNat, b.toNat, d.toNat]) (hb : (s.readReg k b).toNat % 32 = 0)
    (hp : s.ownPending k (va57 (s.readReg k b)) 32 = true) : exec (.kfill g d a b) s = .next s := by
  refine perCrew_wait he ?_
  simp only [State.kfill, List.headD_cons, hb, ne_eq, not_true_eq_false, if_false, hp, if_true]

/-- The command of a KFILL of thread `k`. -/
def State.fillCmd (s : State) (k : Nat) (d a b : Reg) : Cmd :=
  if isLat k then Cmd.new (kfillWord d a b) noCrew 0 (s.countKey k + 1) (s.readReg k b) (s.readReg k a) (s.thread k).pc (s.who k).sup
  else Cmd.new (kfillWord d a b) (crewOf k) (rowMask [k]) 0 (s.readReg k b) (s.readReg k a) (s.thread k).pc (s.who k).sup

/-- A record of a tile in the heap is accepted, and its four words stand as the residency's source. -/
theorem State.kfill_accepts {s1 : State} {bs : List Byte} {core n slot : Nat} {h : Handle} (hb : (s.readReg k b).toNat % 32 = 0)
    (hp : s.ownPending k (va57 (s.readReg k b)) 32 = false) (hr : s.reads k (va57 (s.readReg k b)) 32 s1 bs)
    (ht : (tileOfBytes bs).HeapTile (s.who k)) (hs : s.siltOff)
    (hf : s.findHandle (s.who k).ctx.asid (s.readReg k a) = some (core, n, h)) (hst : h.state ≠ .filling)
    (hq : (s.core core).engines.queue.length < 8) (hoc : (s.thread k).oc.tile < 15)
    (hslot : h.slot.or (s.core core).freeSlot = some slot) :
    s.kfill [k] d a b = .go (((((s1.putHandle core n { h with
      state := .filling, slot := some slot, source := (List.range 4).map fun j => wordOf bs (8 * j), ctx := (s.who k).ctx
      fmt := fld (s.who k).ctx.hattr 13 10, scaled := false, cbslot := (tileOfBytes bs).cbslot, lines := [], views := []
      touched := false }).enqueue core (s.fillCmd k d a b)).raiseTile [k]).writeReg k d 0)) .next := by
  have hload := State.loadNow_reads (by decide) hr
  obtain ⟨m, rfl⟩ := hr.state_eq
  replace hs : State.siltOff { s with free := m } := hs
  replace hf : State.findHandle { s with free := m } (s.who k).ctx.asid (s.readReg k a) = some (core, n, h) := hf
  have hshape : ¬((tileOfBytes bs).space ≠ 0 ∨ (tileOfBytes bs).rows ≠ 128 ∨ (tileOfBytes bs).rowlen ≠ 128
      ∨ (State.fillFormat { s with free := m } (s.who k) (tileOfBytes bs)).any (fun f => !fmtAllowed f.1 f.2) = true) := by
    simp [ht.space, ht.rows, ht.rowlen, ht.fillFormat_allowed hs]
  have hroom : ¬(8 ≤ (State.core { s with free := m } core).engines.queue.length
      ∨ [k].any (fun j => decide (15 ≤ (State.thread { s with free := m } j).oc.tile)) = true) := by
    have hq' : ¬8 ≤ (State.core { s with free := m } core).engines.queue.length := Nat.not_le.2 hq
    have hoc' : ¬15 ≤ (State.thread { s with free := m } k).oc.tile := Nat.not_le.2 hoc
    simp [hq', hoc']
  replace hslot : h.slot.or (State.core { s with free := m } core).freeSlot = some slot := hslot
  simp only [State.kfill, List.headD_cons, hb, ne_eq, not_true_eq_false, if_false, hp, Bool.false_eq_true, hload, hshape,
    ht.checkRecAttr_eq hs, Option.any_some, ht.allowed, Bool.not_true, hf, hst, Option.getD_some, ht.translateRec_eq hs, hroom, hslot,
    State.acceptFill, ht.markSource_eq]
  rfl

end fill

/-- Settles O50: each instruction by what its handle, its core and its record are, each row of a fill by its command. -/
theorem residencies : Obligations.Residencies := by
  refine ⟨fun s k g a d core n h hf => ⟨fun he => ?valid, fun he => exec_kstat he hf⟩,
    fun s k g a d hf => ⟨fun he => ?invalid, fun he => exec_kstat_invalid he hf⟩,
    fun s k g crew ar d a path he hcore hcrew hreg hpath hcap => ?alloc,
    fun s s1 k g d a b bs core n h he hb => ?fill,
    fun s s1 k g d a b slot bs he hcore ha hp hr hold => ?book,
    fun s core c => ⟨exec_fillStart, fun hc ha hst => ?done⟩⟩
  case valid =>
    exact ⟨exec_kpin he hf, exec_kpinOff he hf, exec_krev_frees he hf, exec_krev_waits he hf⟩
  case invalid =>
    exact ⟨perCrew_raise_at he (handleInstr_invalid hf), perCrew_raise_at he (handleInstr_invalid hf),
      perCrew_raise_at he (handleInstr_invalid hf)⟩
  case alloc =>
    have hcharge := State.chargeKaolin_admitted hpath hcap
    refine ⟨fun i n hi hn => ⟨s.kallocHandle k crew ar _ n, perCrew_next he (State.kalloc_room hcore hcrew hreg hcharge _ hi hn rfl), ?_⟩,
      fun hfull => perCrew_next he (State.kalloc_full hcore hcrew hreg hcharge _ hfull)⟩
    exact ⟨rfl, rfl, rfl, rfl, rfl, rfl, rfl, rfl, rfl⟩
  case fill =>
    refine ⟨exec_kfill_waits he hb, ?_⟩
    intro hp hr t w word c hspace hrows hlen hshape hview hscaled hout htrans hheap hread hsilt hun hallow hname hf hst hq hoc slot hslot
    have ht : (tileOfBytes bs).HeapTile (s.who k) :=
      { translated := htrans, outside := hout, readable := hread, heap := hheap, space := hspace, rows := hrows, rowlen := hlen,
        shape := hshape, view := hview, scaled := hscaled, unscaled := hun, allowed := hallow, named := hname }
    have hmask : rowMask [k] = 1#32 <<< laneOf k := BitVec.zero_or
    have hcmd : s.fillCmd k d a b = c := by rw [State.fillCmd, hmask]; rfl
    rw [← hcmd]
    exact perCrew_next he (State.kfill_accepts hb hp hr ht hsilt hf hst hq hoc hslot)
  case book => exact perCrew_next he (State.cbkld_loads hcore ha hp hr hold rfl)
  case done => rw [exec_fillCompletion hc, State.fillDone_eq rfl ha hst]

end Sys2Proof.Machine
end

section
/-!
PROOFS. The coherence traffic neither reads nor changes the crews: each operation on a state with other crews is the operation on
the state, with those crews (R175 to R194).
-/
namespace Sys2Proof.Machine

/-- The state with other crews. -/
def State.withCrews (s : State) (cs : AMap Crew) : State := { s with crews := cs }

section traffic
variable (s : State) (cs : AMap Crew)

theorem ite_withCrews {c : Prop} {_ : Decidable c} (s t : State) :
    (if c then s.withCrews cs else t.withCrews cs) = (if c then s else t).withCrews cs :=
  (apply_ite (State.withCrews · cs) _ s t).symm

theorem withCrews_ite {c : Prop} {_ : Decidable c} (s t : State) :
    (if c then s else t).withCrews cs = if c then s.withCrews cs else t.withCrews cs :=
  apply_ite (State.withCrews · cs) _ s t

@[simp] theorem State.withCrews_mem : (s.withCrews cs).mem = s.mem := rfl
@[simp] theorem State.withCrews_nxt : (s.withCrews cs).nxt = s.nxt := rfl
@[simp] theorem State.withCrews_pkg : (s.withCrews cs).pkg = s.pkg := rfl

/-! ### What is read -/

@[simp] theorem State.forwardFrom_withCrews (fuel pa key : Nat) :
    (s.withCrews cs).forwardFrom fuel pa key = s.forwardFrom fuel pa key := by
  induction fuel generalizing pa key with
  | zero => rfl
  | succ fuel ih =>
    unfold State.forwardFrom
    simp only [ih]
    rfl

@[simp] theorem State.forward_withCrews (pa key : Nat) : (s.withCrews cs).forward pa key = s.forward pa key :=
  State.forwardFrom_withCrews s cs 8 pa key

@[simp] theorem State.viewAt_withCrews (vset key pa : Nat) : (s.withCrews cs).viewAt vset key pa = s.viewAt vset key pa := rfl

@[simp] theorem State.viewLine_withCrews (vset key line : Nat) : (s.withCrews cs).viewLine vset key line = s.viewLine vset key line := by
  simp only [State.viewLine, State.viewAt_withCrews, State.forward_withCrews, State.withCrews_mem]

@[simp] theorem State.storedLine_withCrews (line vset key : Nat) :
    (s.withCrews cs).storedLine line vset key = s.storedLine line vset key := by
  simp only [State.storedLine, State.viewLine_withCrews, State.withCrews_mem]

@[simp] theorem State.viewHits_withCrews (vset key aline line : Nat) (mask : BitVec 128) :
    (s.withCrews cs).viewHits vset key aline line mask = s.viewHits vset key aline line mask := by
  simp only [State.viewHits, State.viewAt_withCrews, State.forward_withCrews]

@[simp] theorem State.victim_withCrews (line : Nat) (e : DirEntry) : (s.withCrews cs).victim line e = s.victim line e := rfl
@[simp] theorem State.mustWait_withCrews (m : Msg) : (s.withCrews cs).mustWait m = s.mustWait m := rfl
@[simp] theorem State.canStart_withCrews (m : Msg) : (s.withCrews cs).canStart m = s.canStart m := rfl

/-! ### The messages and the copies -/

@[simp] theorem State.post_withCrews (m : Msg) : (s.withCrews cs).post m = (s.post m).withCrews cs := rfl
@[simp] theorem State.postAll_withCrews (ms : List Msg) : (s.withCrews cs).postAll ms = (s.postAll ms).withCrews cs :=
  List.foldl_hom (State.withCrews · cs) fun _ _ => rfl
@[simp] theorem State.unpost_withCrews (id : Nat) : (s.withCrews cs).unpost id = (s.unpost id).withCrews cs := rfl
@[simp] theorem State.withMem_withCrews (m : MemSys) : (s.withCrews cs).withMem m = (s.withMem m).withCrews cs := rfl
@[simp] theorem State.grant_withCrews (m : Msg) (st : Option Moesi) (own : Bool) :
    (s.withCrews cs).grant m st own = (s.grant m st own).withCrews cs := by
  simp only [State.grant, State.storedLine_withCrews, State.post_withCrews]
@[simp] theorem State.staleLine_withCrews (core line : Nat) : (s.withCrews cs).staleLine core line = (s.staleLine core line).withCrews cs := rfl
@[simp] theorem State.staleEverywhere_withCrews (p : Handle → Bool) :
    (s.withCrews cs).staleEverywhere p = (s.staleEverywhere p).withCrews cs := rfl
@[simp] theorem State.viewError_withCrews (pa : Nat) : (s.withCrews cs).viewError pa = (s.viewError pa).withCrews cs := rfl

/-! ### Stores at a home -/

/-- The answer of an operation on a state with other crews. -/
def withCrewsFst {α : Type} (q : State × α) (cs : AMap Crew) : State × α := (q.1.withCrews cs, q.2)

theorem ite_withCrewsFst {α : Type} {c : Prop} {_ : Decidable c} (q r : State × α) :
    withCrewsFst (if c then q else r) cs = if c then (q.1.withCrews cs, q.2) else (r.1.withCrews cs, r.2) :=
  apply_ite (withCrewsFst · cs) _ q r

@[simp] theorem State.surrender_withCrews (row : Nat) : (s.withCrews cs).surrender row = withCrewsFst (s.surrender row) cs := by
  simp only [State.surrender, State.withCrews_mem, State.withMem_withCrews, State.staleEverywhere_withCrews, ite_withCrewsFst]
  rfl

@[simp] theorem State.carryViews_withCrews (line : Nat) (d : Line) (mask : BitVec 128) :
    (s.withCrews cs).carryViews line d mask = (s.carryViews line d mask).withCrews cs := by
  simp only [State.carryViews, State.viewAt_withCrews, State.forward_withCrews, State.withCrews_mem, State.withMem_withCrews]

@[simp] theorem State.strike_withCrews (line : Nat) (d : Line) (mask : BitVec 128) (self : Nat) :
    (s.withCrews cs).strike line d mask self = withCrewsFst (s.strike line d mask self) cs := by
  simp only [State.strike, State.viewHits_withCrews, State.withCrews_mem, State.withMem_withCrews, State.carryViews_withCrews,
    State.staleEverywhere_withCrews, withCrewsFst]

@[simp] theorem State.storeHome_withCrews (fuel : Nat) (line : Nat) (d : Line) (mask : BitVec 128) (key vset self : Nat) :
    State.storeHome fuel (s.withCrews cs) line d mask key vset self
      = (State.storeHome fuel s line d mask key vset self).withCrews cs := by
  induction fuel generalizing s line d mask key vset self with
  | zero => rfl
  | succ fuel ih =>
    have hall : ∀ (l : List Copy) (s : State) (key vset self : Copy → Nat),
        l.foldl (fun s c => State.storeHome fuel s c.line c.data c.dirty (key c) (vset c) (self c)) (s.withCrews cs)
          = (l.foldl (fun s c => State.storeHome fuel s c.line c.data c.dirty (key c) (vset c) (self c)) s).withCrews cs :=
      fun l s key vset self => List.foldl_hom (State.withCrews · cs) fun s c => ih s ..
    unfold State.storeHome
    split
    · rfl
    · split
      · extract_lets put r r'
        have hput : ∀ (q : State × Bool) (i : Nat), put (withCrewsFst q cs) i = withCrewsFst (put q i) cs := by
          intro q i
          simp only [put, withCrewsFst, State.viewAt_withCrews, State.forward_withCrews, State.surrender_withCrews]
          split
          · rfl
          · split
            · simp [ih, hall]
            · rfl
        have hr : r = withCrewsFst r' cs := List.foldl_hom (withCrewsFst · cs) (init := (s, false)) hput
        rw [hr]
        simp only [withCrewsFst, State.viewError_withCrews]
        exact ite_withCrews cs _ _
      · simp [hall, withCrewsFst]

@[simp] theorem State.homeStore_withCrews (line : Nat) (d : Line) (mask : BitVec 128) (key vset : Nat) :
    (s.withCrews cs).homeStore line d mask key vset = (s.homeStore line d mask key vset).withCrews cs :=
  State.storeHome_withCrews s cs _ _ _ _ _ _ _

@[simp] theorem State.flushCopy_withCrews (c : Copy) : (s.withCrews cs).flushCopy c = (s.flushCopy c).withCrews cs := by
  simp only [State.flushCopy, State.withCrews_mem, State.withMem_withCrews, State.homeStore_withCrews]

@[simp] theorem State.gatherViews_withCrews (line : Nat) (mask : BitVec 128) (key vset : Nat) :
    (s.withCrews cs).gatherViews line mask key vset = (s.gatherViews line mask key vset).withCrews cs := by
  have hstores : ∀ (l : List Copy) (s : State),
      l.foldl (fun s c => s.homeStore c.line c.data c.dirty c.key 0) (s.withCrews cs)
        = (l.foldl (fun s c => s.homeStore c.line c.data c.dirty c.key 0) s).withCrews cs :=
    fun l s => List.foldl_hom (State.withCrews · cs) fun s c => State.homeStore_withCrews s cs ..
  unfold State.gatherViews
  simp only [State.viewAt_withCrews, State.forward_withCrews]
  refine List.foldl_hom (State.withCrews · cs) fun s b => ?_
  simp only [State.surrender_withCrews, withCrewsFst, hstores, ite_withCrews, State.withCrews_mem, State.viewHits_withCrews]
  exact List.foldl_hom (State.withCrews · cs) fun s c => State.flushCopy_withCrews s cs c

/-! ### The home -/

@[simp] theorem State.recallFor_withCrews (e : DirEntry) (m : Msg) (region : Option (Nat × Nat)) :
    (s.withCrews cs).recallFor e m region = (s.recallFor e m region).withCrews cs := by
  simp only [State.recallFor, State.withCrews_mem, State.withMem_withCrews, State.postAll_withCrews]

@[simp] theorem State.startEviction_withCrews (v : DirEntry) :
    (s.withCrews cs).startEviction v = (s.startEviction v).withCrews cs := by
  simp only [State.startEviction, State.recallFor_withCrews]

@[simp] theorem State.nextEviction_withCrews (line base cls : Nat) :
    (s.withCrews cs).nextEviction line base cls = (s.nextEviction line base cls).withCrews cs := by
  simp only [State.nextEviction, State.withCrews_mem, State.recallFor_withCrews, State.withMem_withCrews, ite_withCrews]
  split <;> rfl

@[simp] theorem State.performHome_withCrews (m : Msg) : (s.withCrews cs).performHome m = (s.performHome m).withCrews cs := by
  simp only [State.performHome, State.gatherViews_withCrews, State.storedLine_withCrews, State.viewLine_withCrews, State.withCrews_mem,
    State.homeStore_withCrews, ite_withCrews, State.post_withCrews]
  split <;> rfl

@[simp] theorem State.forwardShared_withCrews (m : Msg) (o : Nat) :
    (s.withCrews cs).forwardShared m o = (s.forwardShared m o).withCrews cs := rfl

@[simp] theorem State.serveFrom_withCrews (e : DirEntry) (m : Msg) :
    (s.withCrews cs).serveFrom e m = (s.serveFrom e m).withCrews cs := by
  simp only [State.serveFrom, State.withCrews_mem, State.withMem_withCrews, State.grant_withCrews, State.forwardShared_withCrews,
    State.postAll_withCrews, State.recallFor_withCrews, ite_withCrews]
  split
  case h_1 | h_2 | h_3 => split <;> rfl
  all_goals rfl

@[simp] theorem State.homeHandle_withCrews (m : Msg) : (s.withCrews cs).homeHandle m = (s.homeHandle m).withCrews cs := by
  simp only [State.homeHandle, State.withCrews_mem, State.withMem_withCrews, State.serveFrom_withCrews, State.grant_withCrews,
    State.performHome_withCrews]
  split
  · rfl
  · split <;> rfl

@[simp] theorem State.homeRequest_withCrews (m : Msg) : (s.withCrews cs).homeRequest m = (s.homeRequest m).withCrews cs := by
  simp only [State.homeRequest, State.mustWait_withCrews, State.homeHandle_withCrews, State.withCrews_mem, State.withMem_withCrews,
    State.post_withCrews, withCrews_ite]
  rfl

@[simp] theorem State.finishTxn_withCrews (line : Nat) : (s.withCrews cs).finishTxn line = (s.finishTxn line).withCrews cs := by
  simp only [State.finishTxn, State.withCrews_mem, State.withMem_withCrews, State.grant_withCrews, State.performHome_withCrews,
    State.nextEviction_withCrews]
  split
  · rfl
  · split
    · rfl
    · split
      iterate 4 rfl
      · split <;> rfl
      · rfl

@[simp] theorem State.shareAfterForward_withCrews (t : Txn) (line : Nat) (clear wasE : Bool) :
    (s.withCrews cs).shareAfterForward t line clear wasE = (s.shareAfterForward t line clear wasE).withCrews cs := by
  simp only [State.shareAfterForward, State.withCrews_mem, State.withMem_withCrews]
  split <;> rfl

@[simp] theorem State.ownerAnswered_withCrews (line : Nat) (t : Txn) (sent clear wasE : Bool) :
    (s.withCrews cs).ownerAnswered line t sent clear wasE = (s.ownerAnswered line t sent clear wasE).withCrews cs := by
  simp only [State.ownerAnswered, State.withCrews_mem, State.withMem_withCrews, State.shareAfterForward_withCrews,
    State.grant_withCrews, State.finishTxn_withCrews, ite_withCrews]
  split <;> rfl

@[simp] theorem State.takeFwdDone_withCrews (m : Msg) : (s.withCrews cs).takeFwdDone m = (s.takeFwdDone m).withCrews cs := by
  simp only [State.takeFwdDone, State.withCrews_mem, State.ownerAnswered_withCrews]
  split <;> rfl

@[simp] theorem State.takeNoData_withCrews (m : Msg) : (s.withCrews cs).takeNoData m = (s.takeNoData m).withCrews cs := by
  simp only [State.takeNoData, State.withCrews_mem, State.ownerAnswered_withCrews]
  split <;> rfl

@[simp] theorem State.takeWbPending_withCrews (m : Msg) : (s.withCrews cs).takeWbPending m = (s.takeWbPending m).withCrews cs := by
  simp only [State.takeWbPending, State.withCrews_mem, State.withMem_withCrews]
  split <;> rfl

@[simp] theorem State.takeAck_withCrews (m : Msg) : (s.withCrews cs).takeAck m = (s.takeAck m).withCrews cs := by
  simp only [State.takeAck, State.withCrews_mem, State.withMem_withCrews, State.finishTxn_withCrews]
  split <;> rfl

@[simp] theorem State.takeData_withCrews (m : Msg) : (s.withCrews cs).takeData m = (s.takeData m).withCrews cs := by
  simp only [State.takeData, State.homeStore_withCrews, State.withCrews_mem, State.withMem_withCrews]

@[simp] theorem State.putDone_withCrews (m : Msg) (e : DirEntry) : (s.withCrews cs).putDone m e = (s.putDone m e).withCrews cs := by
  simp only [State.putDone, State.takeData_withCrews, ite_withCrews, State.withCrews_mem, State.withMem_withCrews]
  simp only [withCrews_ite]
  rfl

@[simp] theorem State.putEntryDone_withCrews (m : Msg) : (s.withCrews cs).putEntryDone m = (s.putEntryDone m).withCrews cs := by
  simp only [State.putEntryDone, State.withCrews_mem, State.putDone_withCrews]
  split <;> rfl

@[simp] theorem State.takePut_withCrews (m : Msg) : (s.withCrews cs).takePut m = (s.takePut m).withCrews cs := by
  simp only [State.takePut, State.withCrews_mem, State.putEntryDone_withCrews, State.takeData_withCrews, ite_withCrews,
    State.ownerAnswered_withCrews, State.post_withCrews]
  split <;> rfl

/-! ### The agents -/

@[simp] theorem State.takePutAck_withCrews (m : Msg) : (s.withCrews cs).takePutAck m = (s.takePutAck m).withCrews cs := rfl
@[simp] theorem State.noCopy_withCrews (m : Msg) : (s.withCrews cs).noCopy m = (s.noCopy m).withCrews cs := rfl
@[simp] theorem State.sendPut_withCrews (c : Copy) (retain : Bool) :
    (s.withCrews cs).sendPut c retain = (s.sendPut c retain).withCrews cs := rfl

@[simp] theorem State.takeFwdS_withCrews (m : Msg) : (s.withCrews cs).takeFwdS m = (s.takeFwdS m).withCrews cs := by
  simp only [State.takeFwdS, State.withCrews_mem, State.withMem_withCrews, State.noCopy_withCrews, State.post_withCrews,
    State.sendPut_withCrews, ite_withCrews]
  split <;> rfl

@[simp] theorem State.takeFwdM_withCrews (m : Msg) : (s.withCrews cs).takeFwdM m = (s.takeFwdM m).withCrews cs := by
  simp only [State.takeFwdM, State.staleLine_withCrews, State.withCrews_mem, State.withMem_withCrews, State.noCopy_withCrews,
    State.post_withCrews, State.sendPut_withCrews, ite_withCrews]
  split
  · exact congrArg (State.noCopy · m) (ite_withCrews cs _ _)
  · rfl

@[simp] theorem State.takeInv_withCrews (m : Msg) : (s.withCrews cs).takeInv m = (s.takeInv m).withCrews cs := by
  simp only [State.takeInv, State.staleLine_withCrews, State.withCrews_mem, State.withMem_withCrews, State.post_withCrews,
    ite_withCrews]

@[simp] theorem State.takeGrant_withCrews (m : Msg) : (s.withCrews cs).takeGrant m = (s.takeGrant m).withCrews cs := by
  simp only [State.takeGrant, State.staleLine_withCrews, State.withCrews_mem, State.withMem_withCrews, State.unpost_withCrews,
    ite_withCrews]
  split
  · rfl
  · split
    · rfl
    · split
      · rfl
      · split <;> rfl

@[simp] theorem State.takeMsg_withCrews (id : Nat) : (s.withCrews cs).takeMsg id = (s.takeMsg id).withCrews cs := by
  simp only [State.takeMsg, State.withCrews_mem, State.unpost_withCrews, State.homeRequest_withCrews, State.takePut_withCrews,
    State.takePutAck_withCrews, State.takeFwdS_withCrews, State.takeFwdM_withCrews, State.takeFwdDone_withCrews,
    State.takeNoData_withCrews, State.takeWbPending_withCrews, State.takeInv_withCrews, State.takeAck_withCrews,
    State.takeGrant_withCrews, State.post_withCrews]
  split
  · rfl
  · split
    · rfl
    · split <;> rfl

/-! ### Messages run to their end -/

@[simp] theorem State.startQueued_withCrews (x : Msg) : (s.withCrews cs).startQueued x = (s.startQueued x).withCrews cs := by
  simp only [State.startQueued, State.withCrews_mem, State.withMem_withCrews, State.homeHandle_withCrews, State.victim_withCrews,
    State.startEviction_withCrews]
  split
  · rfl
  · split <;> rfl

@[simp] theorem State.settle_withCrews (stop : MemSys → Bool) (line first fuel : Nat) :
    (s.withCrews cs).settle stop line first fuel = (s.settle stop line first fuel).withCrews cs := by
  induction fuel generalizing s with
  | zero => rfl
  | succ fuel ih =>
    have hfind : s.mem.queued.find? (s.withCrews cs).canStart = s.mem.queued.find? s.canStart := rfl
    simp only [State.settle, State.withCrews_mem, State.takeMsg_withCrews, hfind, State.startQueued_withCrews, ih]
    split
    · rfl
    · split
      · rfl
      · split
        · rfl
        · split <;> rfl

@[simp] theorem State.request_withCrews (m : Msg) : (s.withCrews cs).request m = (s.request m).withCrews cs :=
  State.settle_withCrews (s.post m) cs (fun _ => false) m.line s.nxt.msg settleFuel

@[simp] theorem State.homeWrite_withCrews (agent line off : Nat) (bs : List Byte) (key vset : Nat) :
    (s.withCrews cs).homeWrite agent line off bs key vset = (s.homeWrite agent line off bs key vset).withCrews cs :=
  State.request_withCrews s cs _

@[simp] theorem State.readHome_withCrews (agent line key vset : Nat) :
    (s.withCrews cs).readHome agent line key vset = (s.readHome agent line key vset).withCrews cs := by
  simp only [State.readHome, State.withCrews_mem, State.request_withCrews, ite_withCrews]

end traffic

end Sys2Proof.Machine
end

section
/-!
PROOFS. Translation reads of the crews no more than the core and the partition of the one whose thread asks (R154, R161): a region's
path and the fidelity cap stay as they are when crews change otherwise (R55, R56, R110).
-/
namespace Sys2Proof.Machine

/-- The crew on whose behalf an address is resolved stands on the same core and in the same partition in another table of crews. -/
def Who.SameSeat (w : Who) (cs cs' : AMap Crew) : Prop :=
  (cs'.find w.crew).map (fun c => (c.core, c.part)) = (cs.find w.crew).map fun c => (c.core, c.part)

section translation
variable (s : State) (cs : AMap Crew) {w : Who}

/-! ### What a walk reads -/

@[simp] theorem State.peekWord_withCrews (pa : Nat) : (s.withCrews cs).peekWord pa = s.peekWord pa := by
  simp only [State.peekWord, State.forward_withCrews, State.withCrews_mem]

@[simp] theorem State.tablePoisoned_withCrews (pa : Nat) : (s.withCrews cs).tablePoisoned pa = s.tablePoisoned pa := by
  simp only [State.tablePoisoned, State.forward_withCrews, State.withCrews_mem]

@[simp] theorem State.walkFrom_withCrews (va fuel l table : Nat) :
    (s.withCrews cs).walkFrom va fuel l table = s.walkFrom va fuel l table := by
  induction fuel generalizing l table with
  | zero => rfl
  | succ fuel ih => simp only [State.walkFrom, State.tablePoisoned_withCrews, State.peekWord_withCrews, ih]

@[simp] theorem State.walkStart_withCrews (agent asid va root : Nat) :
    (s.withCrews cs).walkStart agent asid va root = s.walkStart agent asid va root := rfl

theorem State.tlbPath_withCrews (h : w.SameSeat s.crews cs) (acc : AccKind) : (s.withCrews cs).tlbPath w acc = s.tlbPath w acc := by
  have hcrews : (s.withCrews cs).crews = cs := rfl
  unfold Who.SameSeat at h
  simp only [State.tlbPath, hcrews]
  cases hcs : cs.find w.crew with
  | none =>
    rw [hcs, Option.map_none, eq_comm, Option.map_eq_none_iff] at h
    rw [h]
  | some c' =>
    rw [hcs, Option.map_some, eq_comm, Option.map_eq_some_iff] at h
    obtain ⟨c, hc, heq⟩ := h
    obtain ⟨hcore, hpart⟩ := Prod.mk.inj heq
    simp only [hc, hcore, hpart]

/-! ### Expansions and walks -/

@[simp] theorem State.siltExpand_withCrews (pa : Nat) (counts : Bool) :
    (s.withCrews cs).siltExpand pa counts = (s.siltExpand pa counts).map (State.withCrews · cs) := by
  have hstk : ∀ n, (s.withCrews cs).stk n = s.stk n := fun _ => rfl
  have hdie : ∀ n, (s.withCrews cs).die n = s.die n := fun _ => rfl
  have hset : ∀ n k, (s.withCrews cs).setStk n k = (s.setStk n k).withCrews cs := fun _ _ => rfl
  simp only [State.siltExpand, hstk, hdie, hset]
  split
  · rfl
  · split
    · rw [Option.map_some, ite_withCrews]
    · split <;> rfl

theorem siltExpand_all_withCrews (es : List (Nat × Nat)) :
    es.foldlM (fun (s : State) e => s.siltExpand e.2 false) (s.withCrews cs)
      = (es.foldlM (fun (s : State) e => s.siltExpand e.2 false) s).map (State.withCrews · cs) := by
  induction es generalizing s with
  | nil => rfl
  | cons e es ih =>
    simp only [List.foldlM_cons, State.siltExpand_withCrews]
    cases s.siltExpand e.2 false with
    | none => rfl
    | some t => exact ih t

@[simp] theorem State.siltTouch_withCrews (pa : Nat) : (s.withCrews cs).siltTouch pa = (s.siltTouch pa).withCrews cs := by
  simp only [State.siltTouch, State.siltExpand_withCrews]
  cases s.siltExpand pa false <;> rfl

@[simp] theorem State.fillPath_withCrews (path : List TlbUnit) (t : TlbEntry) :
    (s.withCrews cs).fillPath path t = (s.fillPath path t).withCrews cs := rfl

@[simp] theorem State.cacheWalk_withCrews (agent asid root va : Nat) (read : List (Nat × Nat)) :
    (s.withCrews cs).cacheWalk agent asid root va read = (s.cacheWalk agent asid root va read).withCrews cs := by
  simp only [State.cacheWalk, State.peekWord_withCrews, State.withCrews_mem, State.withMem_withCrews]
  exact ite_withCrews cs _ _

theorem State.findLeaf_withCrews (h : w.SameSeat s.crews cs) (va : Nat) (acc : AccKind) :
    (s.withCrews cs).findLeaf w va acc = withCrewsFst (s.findLeaf w va acc) cs := by
  have hreads : ∀ (es : List (Nat × Nat)) (s : State),
      es.foldl (fun s e => s.readHome hwAgent (lineOf (s.forward e.2 0).1) 0 0) (s.withCrews cs)
        = (es.foldl (fun s e => s.readHome hwAgent (lineOf (s.forward e.2 0).1) 0 0) s).withCrews cs := fun es s =>
    List.foldl_hom (State.withCrews · cs) fun s e => by rw [State.forward_withCrews, State.readHome_withCrews]
  simp only [State.findLeaf, State.tlbPath_withCrews s cs h, State.withCrews_mem, State.fillPath_withCrews, State.walkStart_withCrews,
    State.walkFrom_withCrews, siltExpand_all_withCrews]
  split
  · rfl
  · generalize s.walkFrom va 4 _ _ = r
    cases r.2.foldlM (fun (s : State) (e : Nat × Nat) => s.siltExpand e.2 false) s with
    | none => rfl
    | some s0 =>
      simp only [Option.map_some, hreads, State.cacheWalk_withCrews, State.fillPath_withCrews]
      split <;> rfl

@[simp] theorem State.dropLeaf_withCrews (w : Who) (va : Nat) : (s.withCrews cs).dropLeaf w va = (s.dropLeaf w va).withCrews cs := rfl

@[simp] theorem State.setLeafBit_withCrews (agent leaf word bit : Nat) :
    (s.withCrews cs).setLeafBit agent leaf word bit = (s.setLeafBit agent leaf word bit).withCrews cs := by
  simp only [State.setLeafBit, State.siltTouch_withCrews, State.peekWord_withCrews, State.forward_withCrews,
    State.homeWrite_withCrews]
  rw [show (if bitAt ((s.siltTouch (leaf + 8 * word)).peekWord (leaf + 8 * word)) bit then _ else _ : State) = _ from
    ite_withCrews cs _ _]
  rfl

@[simp] theorem State.replicaSet_withCrews (rset : Nat) : (s.withCrews cs).replicaSet rset = s.replicaSet rset := by
  simp only [State.replicaSet, State.peekWord_withCrews, State.withCrews_pkg]

@[simp] theorem State.servingMember_withCrews (ms : List Member) (l : Nat) :
    (s.withCrews cs).servingMember ms l = s.servingMember ms l := rfl

@[simp] theorem State.useLeaf_withCrews (w : Who) (va : Nat) (acc : AccKind) (e : Nat) (w0 w1 : Word) :
    (s.withCrews cs).useLeaf w va acc e w0 w1 = withCrewsFst (s.useLeaf w va acc e w0 w1) cs := by
  have hsilt : ∀ (b : Bool) (pa : Nat) (counts : Bool), (if b then (s.siltExpand pa counts).map (State.withCrews · cs)
      else some (s.withCrews cs)) = (if b then s.siltExpand pa counts else some s).map (State.withCrews · cs) := fun b _ _ => by
    cases b <;> rfl
  simp -zeta only [State.useLeaf, State.replicaSet_withCrews, State.servingMember_withCrews, State.withCrews_pkg, State.withCrews_mem,
    State.siltExpand_withCrews, hsilt]
  extract_lets rset set' size off base pa lost base' pa' lost'
  rw [show base' = base from rfl, show pa' = pa from rfl, show lost' = lost from rfl]
  split
  · rfl
  · split
    · rfl
    · cases (if base.2.1.isNone then s.siltExpand pa (!bitAt w1 11) else some s) with
      | none => rfl
      | some s1 =>
        simp only [Option.map_some, State.setLeafBit_withCrews, ite_withCrews]
        split <;> rfl

theorem State.translate_withCrews (h : w.SameSeat s.crews cs) (va : Nat) (acc : AccKind) :
    (s.withCrews cs).translate w va acc = withCrewsFst (s.translate w va acc) cs := by
  have hkeep : (s.findLeaf w va acc).1.crews = s.crews := (State.work_eq_iff.1 (State.findLeaf_work s w va acc)).2.1
  simp only [State.translate, State.findLeaf_withCrews s cs h]
  split
  · rfl
  · generalize s.findLeaf w va acc = r at hkeep ⊢
    obtain ⟨s1, walk⟩ := r
    replace h : w.SameSeat (s1.dropLeaf w va).crews cs := by rw [show (s1.dropLeaf w va).crews = s.crews from hkeep]; exact h
    cases walk with
    | fault sub => rfl
    | leaf e l w0 w1 =>
      simp only [withCrewsFst, State.peekWord_withCrews, State.dropLeaf_withCrews, State.findLeaf_withCrews _ cs h,
        State.useLeaf_withCrews]
      split
      · generalize (s1.dropLeaf w va).findLeaf w va acc = r
        obtain ⟨s2, walk⟩ := r
        cases walk with
        | fault sub => rfl
        | leaf => exact State.useLeaf_withCrews s2 cs ..
      · rfl

@[simp] theorem State.usePage_withCrews (p : Page) : (s.withCrews cs).usePage p = withCrewsFst (s.usePage p) cs := by
  simp only [State.usePage, State.siltExpand_withCrews]
  cases s.siltExpand p.pa false <;> rfl

theorem State.resolve_withCrews (h : w.SameSeat s.crews cs) (va : Nat) (acc : AccKind) :
    (s.withCrews cs).resolve w va acc = withCrewsFst (s.resolve w va acc) cs := by
  simp only [State.resolve, State.usePage_withCrews, State.translate_withCrews s cs h]
  split
  · split <;> rfl
  · split
    · rfl
    · split
      · split <;> rfl
      · rfl

/-! ### The region of a thread (R54 to R57, R110) -/

theorem State.regionWord_withCrews (h : w.SameSeat s.crews cs) (block : Word) (off : Nat) :
    (s.withCrews cs).regionWord w block off = s.regionWord w block off := by
  have hsilent : (s.withCrews cs).silent hwAgent = s.silent hwAgent := rfl
  replace h : Who.SameSeat { w with sup := true } s.crews cs := h
  have hword : ∀ a, (s.withCrews cs).hwWord a = s.hwWord a := fun a => State.peekWord_withCrews s cs a
  simp only [State.regionWord, hsilent, State.resolve_withCrews s cs h, State.withCrews_mem, hword, withCrewsFst]
  split
  · rfl
  · generalize s.resolve _ _ _ = r
    obtain ⟨s1, x⟩ := r
    cases x <;> rfl

theorem State.cachedWord_withCrews (h : w.SameSeat s.crews cs) (d : Nat) :
    (s.withCrews cs).cachedWord w d = s.cachedWord w d := by
  have hdie : (s.withCrews cs).die d = s.die d := rfl
  funext block off
  simp only [State.cachedWord, hdie, State.regionWord_withCrews s cs h]

theorem State.fidCap_withCrews (h : w.SameSeat s.crews cs) (d : Nat) (leaf : Word) :
    (s.withCrews cs).fidCap w d leaf = s.fidCap w d leaf := by
  simp only [State.fidCap, State.regionPath, State.cachedWord_withCrews s cs h]

end translation

end Sys2Proof.Machine
end

section
/-!
PROOFS. The issue of an MMA: its ring, its operands, and its place in the queue of its core (R105, R110, R219, R220, R425, R426).
-/
namespace Sys2Proof.Machine

variable {s : State} {k : Nat} {g : Guard} {c : Crew}

/-! ### Codebooks that a crew notes (R310) -/

/-- The crew of a thread after it has noted a codebook slot. -/
theorem State.crewAt_markCb (hc : s.crewAt k = some c) (slot : Nat) :
    (s.markCb k slot).crewAt k = some { c with cbSlots := c.cbSlots ||| (1#64 <<< slot) } := by
  unfold State.crewAt at hc
  split at hc
  · cases hc
  · next hl =>
    simp only [State.markCb, hl, Bool.false_eq_true, if_false, State.crewAt, State.modCrew_find, if_true, hc, Option.map_some]

@[simp] theorem State.markCb_get_thread (s : State) (k slot j : Nat) : (s.markCb k slot).thread j = s.thread j := by
  unfold State.markCb; split <;> rfl
@[simp] theorem State.markCb_get_core (s : State) (k slot j : Nat) : (s.markCb k slot).core j = s.core j := by
  unfold State.markCb; split <;> rfl
@[simp] theorem State.markCb_mem (s : State) (k slot : Nat) : (s.markCb k slot).mem = s.mem := by
  unfold State.markCb; split <;> rfl
@[simp] theorem State.markCb_regionOf (s : State) (k slot j : Nat) : (s.markCb k slot).regionOf j = s.regionOf j := by
  unfold State.markCb; split <;> rfl

theorem State.coreOf_crew (hc : s.crewAt k = some c) : s.coreOf k = c.core := by simp only [State.coreOf, hc]

theorem State.coreOf_markCb (hc : s.crewAt k = some c) (slot : Nat) : (s.markCb k slot).coreOf k = s.coreOf k := by
  rw [State.coreOf_crew (State.crewAt_markCb hc slot), State.coreOf_crew hc]

theorem State.who_markCb (hc : s.crewAt k = some c) (slot : Nat) : (s.markCb k slot).who k = s.who k := by
  have hctx : (s.markCb k slot).ctxOf k = s.ctxOf k := by
    rw [State.ctxOf_crew (State.crewAt_markCb hc slot), State.ctxOf_crew hc, State.markCb_get_core]
  simp only [State.who, State.agentOf, State.coreOf_markCb hc, hctx, State.markCb_get_thread]

/-- A crew that notes a codebook slot stays on its core and in its partition. -/
theorem State.markCb_sameSeat (hc : s.crewAt k = some c) (slot : Nat) :
    ∃ cs, s.markCb k slot = s.withCrews cs ∧ (s.who k).SameSeat s.crews cs := by
  have hl : isLat k = false := by
    cases hl : isLat k
    · rfl
    · simp [State.crewAt, hl] at hc
  have hfind : s.crews.find (crewOf k) = some c := by simpa [State.crewAt, hl] using hc
  refine ⟨_, if_neg (by rw [hl]; decide), ?_⟩
  simp only [Who.SameSeat, State.who, hl, Bool.false_eq_true, if_false, AMap.find_update, if_true, hfind, Option.map_some]

/-- The level of an MMA does not depend on the codebooks that its crew has noted (R110). -/
theorem State.mmaLevel_markCb (hc : s.crewAt k = some c) (slot : Nat) (fid : BitVec 4) :
    (s.markCb k slot).mmaLevel k fid = s.mmaLevel k fid := by
  have hcap : (s.markCb k slot).capOf k = s.capOf k := by
    simp only [State.capOf, State.who_markCb hc, State.dieOf, State.coreOf_markCb hc, State.markCb_regionOf]
    obtain ⟨cs, hcs, hseat⟩ := State.markCb_sameSeat hc slot
    rw [hcs, State.fidCap_withCrews s cs hseat]
  simp only [State.mmaLevel, hcap, State.markCb_get_thread]

/-- The state in which an MMA with A of format `fmt` is accepted: its crew has noted both codebooks of a CB4 pair. -/
def State.notesBooks (s : State) (k fmt a b : Nat) : State := if fmt = 6 then (s.markCb k a).markCb k b else s

section notes
variable (fmt a b : Nat)

@[simp] theorem State.notesBooks_get_thread (j : Nat) : (s.notesBooks k fmt a b).thread j = s.thread j := by
  unfold State.notesBooks; split <;> simp
@[simp] theorem State.notesBooks_get_core (j : Nat) : (s.notesBooks k fmt a b).core j = s.core j := by
  unfold State.notesBooks; split <;> simp
@[simp] theorem State.notesBooks_mem : (s.notesBooks k fmt a b).mem = s.mem := by
  unfold State.notesBooks; split <;> simp

theorem State.coreOf_notesBooks (hc : s.crewAt k = some c) : (s.notesBooks k fmt a b).coreOf k = s.coreOf k := by
  unfold State.notesBooks
  split
  · rw [State.coreOf_markCb (State.crewAt_markCb hc a), State.coreOf_markCb hc]
  · rfl

theorem State.mmaLevel_notesBooks (hc : s.crewAt k = some c) (fid : BitVec 4) :
    (s.notesBooks k fmt a b).mmaLevel k fid = s.mmaLevel k fid := by
  unfold State.notesBooks
  split
  · rw [State.mmaLevel_markCb (State.crewAt_markCb hc a), State.mmaLevel_markCb hc]
  · rfl

end notes

/-! ### A ring (R84, R226) -/

section ring
variable (hc : s.crewAt k = some c) {ring : BitVec 2} {f : Crew → Word → Word → Res}
include hc

theorem State.onRing_spoiled {x : Nat} (hx : (s.specBad c (0x7D00 + 32 * ring.toNat) 16).head? = some x) :
    s.onRing [k] ring f
      = .failed (s.countParity c.core) cPOISON 0 (BitVec.ofNat 64 ((s.ctxOf k).loamva.toNat % 2 ^ 57 + x)) := by
  obtain ⟨xs, hxs⟩ := List.head?_eq_some_iff.1 hx
  simp only [State.onRing, List.headD_cons, hc, hxs]

variable (hb : s.specBad c (0x7D00 + 32 * ring.toNat) 16 = [])
include hb

theorem State.onRing_valid (hv : ringValid (s.ringCfg c ring.toNat) = true) :
    s.onRing [k] ring f = f c (s.ringCfg c ring.toNat) (s.ringCtr c ring.toNat) := by
  simp only [State.onRing, List.headD_cons, hc, hb, hv, if_true]

theorem State.onRing_unconfigured (hv : ringValid (s.ringCfg c ring.toNat) = false) :
    s.onRing [k] ring f = .trap cILLEGAL 0 (ring.setWidth 64) false := by
  simp only [State.onRing, List.headD_cons, hc, hb, hv, Bool.false_eq_true, if_false]

end ring

/-! ### Operands (R105, R131, R216, R219) -/

theorem State.operand_misaligned {va : Word} (h : va.toNat % 32 ≠ 0) (rows : Nat) :
    s.operand k va rows = (s, .inr (.trap cMISALIGN 0 va false)) := if_pos h

theorem State.operand_own (hc : s.crewAt k = some c) {va : Word} {rows : Nat} (h : s.ownOperand k c va rows) :
    s.operand k va rows
      = (s, .inl (s.ownRecord k c va, some ((s.ownRecord k c va).fmt, (s.ownRecord k c va).scaled))) := by
  obtain ⟨halign, hown, hbad, hspace, hshape, hrows, hlen, hrange, hscales, hfmt, -, -⟩ := h
  have hcheck : s.checkRecAttr (s.who k) (s.ownRecord k c va) .load true
      = (s, some ((s.ownRecord k c va).fmt, (s.ownRecord k c va).scaled), none) := by
    have hscale : ((s.ownRecord k c va).scaled && !s.inOwnScratch (s.who k) ((s.ownRecord k c va).scaleRange (s.ownRecord k c va).fmt))
        = false := by
      cases hsc : (s.ownRecord k c va).scaled
      · rfl
      · simp [hscales hsc]
    simp only [State.checkRecAttr, State.loamFormat, State.rangeOk, hspace, hshape, hrange, hscale, hfmt, ne_eq, not_false_eq_true,
      if_true, Bool.false_eq_true, if_false, Bool.not_true, one_ne_zero, bne_self_eq_false, Bool.and_false, Bool.or_false]
  have hw : (s.who k).ctx = s.ctxOf k := rfl
  have htile : tileOfBytes (s.loamBytes c.core c.bank (va57 va - (s.ctxOf k).loamva.toNat % 2 ^ 57) 32) = s.ownRecord k c va := rfl
  simp only [State.operand, hw, halign, ne_eq, not_true_eq_false, if_false, hown, Bool.not_true, Bool.false_eq_true, State.coreOf_crew hc,
    hc, Option.any_some, hbad, htile, hcheck, hrows, hlen, or_self]

theorem formatTrap_none {fa fb : Nat} {a b : Nat × Bool} (ha : fmtAllowed a.1 a.2 = true) (hb : fmtAllowed b.1 b.2 = true)
    (hpair : pairAllowed a.1 b.1 = true) (hna : namesFormat fa a.1) (hnb : namesFormat fb b.1) (va vb : Word) :
    formatTrap fa fb (some a) (some b) va vb = none := by
  have hnamed : ∀ {n f : Nat}, namesFormat n f → (n != 0 && n != f) = false := by
    rintro n f (rfl | rfl) <;> simp
  simp only [formatTrap, Option.any_some, ha, hb, hpair, hnamed hna, hnamed hnb, Bool.not_true, Bool.false_eq_true, if_false]

/-- A valid residency of the thread's own core serves as B (R236, R243). -/
theorem State.residency_valid {hv : Word} {n : Nat} {h : Handle} (hf : s.findHandle (s.ctxOf k).asid hv = some (s.coreOf k, n, h))
    (hst : h.state = .valid) (full : Bool) : s.residency k hv full = .inl (n, h) := by
  simp only [State.residency, hf, ne_eq, not_true_eq_false, if_false, hst]

/-! ### Acceptance (R219, R220) -/

/-- The engine queue has room, the thread's oc.tile too, and none of its accesses is unperformed that comes before an MMA. -/
structure State.MmaRoom (s : State) (k : Nat) : Prop where
  queue : s.queueFull (s.coreOf k) = false
  tile : (s.thread k).oc.tile < 15
  ordered : s.ordersPending k = false

theorem State.MmaRoom.notesBooks (h : s.MmaRoom k) (hc : s.crewAt k = some c) (fmt a b : Nat) : (s.notesBooks k fmt a b).MmaRoom k where
  queue := by
    rw [State.coreOf_notesBooks fmt a b hc, State.queueFull, State.notesBooks_get_core]
    exact h.queue
  tile := by
    rw [State.notesBooks_get_thread]
    exact h.tile
  ordered := by
    rw [State.ordersPending, State.pendingOf, State.notesBooks_mem]
    exact h.ordered

theorem State.acceptMma_room (h : s.MmaRoom k) (x : Cmd) :
    s.acceptMma [k] x = .go (((s.enqueue (s.coreOf k) x).noteSlots (s.coreOf k) x.crew).raiseTile [k]) .next := by
  refine if_neg ?_
  simp [h.queue, h.tile, h.ordered]

/-- The codebook slot of a B operand. -/
def OperandB.cbslot : OperandB → Nat
  | .inl t => t.cbslot
  | .inr h => h.cbslot

/-- The command of an MMA of thread `k`. -/
def State.mmaCmd (s : State) (k : Nat) (word : Word) (m : MmaFields) (va vb : Word) (early : List (List Byte)) : Cmd :=
  { Cmd.new word (crewOf k) (1#32 <<< laneOf k) (s.mmaLevel k m.fid) va vb (s.thread k).pc (s.thread k).trap.sup with early := early }

/-- An MMA with A of format `fmt` on thread `k`'s core is accepted as `word`. -/
def State.mmaAccepted (s : State) (k : Nat) (word : Word) (m : MmaFields) (va vb : Word) (fmt a b : Nat) (early : List (List Byte)) :
    State :=
  (((s.notesBooks k fmt a b).enqueue (s.coreOf k) (s.mmaCmd k word m va vb early)).noteSlots (s.coreOf k) (crewOf k)).raiseTile [k]

/-- Operands of allowed formats, in the scratch or a residency, with their codebooks: the MMA is accepted. -/
theorem State.mmaRest_accepts (hc : s.crewAt k = some c) (hroom : s.MmaRoom k) {m : MmaFields} {va vb : Word} {ta : TileRec}
    {b : OperandB} {fA fB : Nat × Bool} (hformat : formatTrap m.fa.toNat m.fb.toNat (some fA) (some fB) va vb = none)
    (hA : ta.space ≠ 0) (hB : ∀ t, b = .inl t → t.space ≠ 0)
    (hcbA : fA.1 = 6 → s.cbOk (s.coreOf k) (s.ctxOf k).asid ta.cbslot = true)
    (hcbB : fB.1 = 6 → s.cbOk (s.coreOf k) (s.ctxOf k).asid b.cbslot = true) (word : Word) :
    ∃ early, s.mmaRest [k] word m va vb ta (some fA) b (some fB)
      = .go (s.mmaAccepted k word m va vb fA.1 ta.cbslot b.cbslot early) .next := by
  have hbookA : (fA.1 == 6 && !s.cbOk (s.coreOf k) (s.ctxOf k).asid ta.cbslot) = false := by
    by_cases h6 : fA.1 = 6 <;> simp [h6, hcbA]
  have hbookB : (fB.1 == 6 && !s.cbOk (s.coreOf k) (s.ctxOf k).asid b.cbslot) = false := by
    by_cases h6 : fB.1 = 6 <;> simp [h6, hcbB]
  have htrans : ∀ (t : TileRec) (f : Nat × Bool), t.space ≠ 0 → s.translateRec (s.who k) t f .load = (s, none) :=
    fun t f h => if_pos h
  have hmask : rowMask [k] = 1#32 <<< laneOf k := BitVec.zero_or
  have hnotes : (if (fA.1 == 6) = true then (s.markCb k ta.cbslot).markCb k b.cbslot else s) = s.notesBooks k fA.1 ta.cbslot b.cbslot := by
    simp only [State.notesBooks, beq_iff_eq]
  have haccept : ∀ early, (s.notesBooks k fA.1 ta.cbslot b.cbslot).acceptMma [k] { Cmd.new word (crewOf k) (rowMask [k])
      ((s.notesBooks k fA.1 ta.cbslot b.cbslot).mmaLevel k m.fid) va vb ((s.notesBooks k fA.1 ta.cbslot b.cbslot).thread k).pc
      (s.who k).sup with early := early } = .go (s.mmaAccepted k word m va vb fA.1 ta.cbslot b.cbslot early) .next := fun early => by
    rw [State.acceptMma_room (hroom.notesBooks hc _ _ _), State.coreOf_notesBooks _ _ _ hc, State.mmaLevel_notesBooks _ _ _ hc,
      State.notesBooks_get_thread, hmask]
    rfl
  have hctx : (s.who k).ctx = s.ctxOf k := rfl
  cases b with
  | inl t =>
    simp only [OperandB.cbslot] at hbookB hnotes haccept ⊢
    simp only [State.mmaRest, List.headD_cons, hformat, Option.any_some, hctx, hbookA, hbookB, Bool.false_eq_true, if_false,
      htrans ta _ hA, htrans t _ (hB t rfl), hnotes]
    exact ⟨_, haccept _⟩
  | inr h =>
    simp only [OperandB.cbslot] at hbookB hnotes haccept ⊢
    simp only [State.mmaRest, List.headD_cons, hformat, Option.any_some, hctx, hbookA, hbookB, Bool.false_eq_true, if_false,
      htrans ta _ hA, hnotes]
    exact ⟨_, haccept _⟩

section mma
variable (hc : s.crewAt k = some c) {m : MmaFields} {a b : Reg} (word : Word)
include hc

theorem State.mma_spoiled {x : Nat} (hx : (s.specBad c (0x7D00 + 32 * m.ring.toNat) 16).head? = some x) {r : Res}
    (hr : r = .failed (s.countParity c.core) cPOISON 0 (BitVec.ofNat 64 ((s.ctxOf k).loamva.toNat % 2 ^ 57 + x))) :
    s.mmaT [k] word m a b = r ∧ s.mmaK [k] word m a b = r := by
  simp only [State.mmaT, State.mmaK, State.onRing_spoiled hc hx, hr, and_self]

variable (hbad : s.specBad c (0x7D00 + 32 * m.ring.toNat) 16 = [])
include hbad

theorem State.mma_unconfigured (hring : ringValid (s.ringCfg c m.ring.toNat) = false) {r : Res}
    (hr : r = .trap cILLEGAL 0 (m.ring.setWidth 64) false) : s.mmaT [k] word m a b = r ∧ s.mmaK [k] word m a b = r := by
  simp only [State.mmaT, State.mmaK, State.onRing_unconfigured hc hbad hring, hr, and_self]

variable (hring : ringValid (s.ringCfg c m.ring.toNat) = true)
include hring

theorem State.mmaT_accepts (hroom : s.MmaRoom k) (hA : s.ownOperand k c (s.readReg k a) 32) (hB : s.ownOperand k c (s.readReg k b) 128)
    (hpair : pairAllowed (s.ownRecord k c (s.readReg k a)).fmt (s.ownRecord k c (s.readReg k b)).fmt = true)
    (hna : namesFormat m.fa.toNat (s.ownRecord k c (s.readReg k a)).fmt)
    (hnb : namesFormat m.fb.toNat (s.ownRecord k c (s.readReg k b)).fmt) :
    ∃ early, s.mmaT [k] word m a b = .go (s.mmaAccepted k word m (s.readReg k a) (s.readReg k b)
      (s.ownRecord k c (s.readReg k a)).fmt (s.ownRecord k c (s.readReg k a)).cbslot (s.ownRecord k c (s.readReg k b)).cbslot early)
      .next := by
  have hopA := State.operand_own hc hA
  have hopB := State.operand_own hc hB
  obtain ⟨-, -, -, hspaceA, -, -, -, -, -, -, hallowA, hbookA⟩ := hA
  obtain ⟨-, -, -, hspaceB, -, -, -, -, -, -, hallowB, hbookB⟩ := hB
  have hcore := State.coreOf_crew hc
  rw [← hcore] at hbookA hbookB
  generalize s.ownRecord k c (s.readReg k a) = ta at *
  generalize s.ownRecord k c (s.readReg k b) = tb at *
  obtain ⟨early, hrest⟩ := State.mmaRest_accepts hc hroom (ta := ta) (b := .inl tb) (fA := (ta.fmt, ta.scaled)) (fB := (tb.fmt, tb.scaled))
    (formatTrap_none hallowA hallowB hpair hna hnb _ _) (by rw [hspaceA]; decide) (by rintro t ⟨⟩; rw [hspaceB]; decide)
    hbookA hbookB word
  refine ⟨early, ?_⟩
  simp only [State.mmaT, List.headD_cons, State.onRing_valid hc hbad hring, hopA, hopB]
  exact hrest

theorem State.mmaK_accepts (hroom : s.MmaRoom k) (hA : s.ownOperand k c (s.readReg k a) 32) {n : Nat} {h : Handle}
    (hf : s.findHandle (s.ctxOf k).asid (s.readReg k b) = some (c.core, n, h)) (hst : h.state = .valid)
    (hallowB : fmtAllowed h.fmt h.scaled = true) (hpair : pairAllowed (s.ownRecord k c (s.readReg k a)).fmt h.fmt = true)
    (hna : namesFormat m.fa.toNat (s.ownRecord k c (s.readReg k a)).fmt) (hnb : namesFormat m.fb.toNat h.fmt)
    (hbookB : h.fmt = 6 → s.cbOk c.core (s.ctxOf k).asid h.cbslot = true) :
    ∃ early, s.mmaK [k] word m a b = .go (s.mmaAccepted k word m (s.readReg k a) (s.readReg k b)
      (s.ownRecord k c (s.readReg k a)).fmt (s.ownRecord k c (s.readReg k a)).cbslot h.cbslot early) .next := by
  have hopA := State.operand_own hc hA
  obtain ⟨-, -, -, hspaceA, -, -, -, -, -, -, hallowA, hbookA⟩ := hA
  have hcore := State.coreOf_crew hc
  rw [← hcore] at hf hbookB hbookA
  generalize s.ownRecord k c (s.readReg k a) = ta at *
  obtain ⟨early, hrest⟩ := State.mmaRest_accepts hc hroom (ta := ta) (b := .inr h) (fA := (ta.fmt, ta.scaled)) (fB := (h.fmt, h.scaled))
    (formatTrap_none hallowA hallowB hpair hna hnb _ _) (by rw [hspaceA]; decide) (by rintro t ⟨⟩) hbookA hbookB word
  refine ⟨early, ?_⟩
  simp only [State.mmaK, List.headD_cons, State.onRing_valid hc hbad hring, hopA, State.residency_valid hf hst]
  exact hrest

theorem State.mma_misaligned (h : (s.readReg k a).toNat % 32 ≠ 0) {r : Res} (hr : r = .trap cMISALIGN 0 (s.readReg k a) false) :
    s.mmaT [k] word m a b = r ∧ s.mmaK [k] word m a b = r := by
  simp only [State.mmaT, State.mmaK, List.headD_cons, State.onRing_valid hc hbad hring, State.operand_misaligned h, hr, and_self]

end mma

end Sys2Proof.Machine
end

section
/-!
PROOFS. RADV and its forms, the rows that start and end commands, and the issue of MMA (R84, R106, R112, R219, R220, R223 to R228,
R441, R442).
-/
namespace Sys2Proof.Machine

variable {s : State} {k : Nat} {g : Guard} {c : Crew}

/-! ### RADV on a ring (R224 to R228, R441, R442) -/

section radv
variable (hc : s.crewAt k = some c) {d : Reg} {ring : BitVec 2}
include hc

theorem exec_radvCfg_configured {ln : BitVec 2} (he : s.executes k g simtOnly .holds [d.toNat])
    (hv : ringValid (s.ringCfg c ring.toNat) = true) :
    exec (.radvCfg g d ring ln) s = .next ((s.writeReg k d 2).advance k) := by
  refine perCrew_next he ?_
  simp only [State.radvCfg, List.headD_cons, hc, hv, if_true]
  rfl

/-- The ring of `n` slots at `a` that RADV.CFG gives a crew: its bytes zero, its descriptor written, its granules charged. -/
def State.configured (s : State) (k : Nat) (c : Crew) (ring ln a : Nat) : State :=
  (((s.modCore c.core fun x => (x.setBank c.bank { (x.bank c.bank).forget a (2 ^ ln * granule) with
    bytes := (x.bank c.bank).bytes.clear a (2 ^ ln * granule) }).goodParity c.bank a (2 ^ ln * granule)).putRing
      c ring (BitVec.ofNat 64 (2 ^ 63 + ln * 2 ^ 32 + a)) 0).chargeLoam (s.ctxOf k) (s.dieOf k) (s.regionOf k) (2 ^ ln : Nat))

theorem exec_radvCfg_gives {ln : BitVec 2} (he : s.executes k g simtOnly .holds [d.toNat])
    (hv : ringValid (s.ringCfg c ring.toNat) = false) {a : Nat}
    (hrun : findRun (((s.core c.core).regg + (s.core c.core).scrg) * granule) ((s.core c.core).ringg * granule)
      (2 ^ ln.toNat * granule) granule (s.ringRuns c.core c.bank) = some a)
    (hcaps : s.capsAdmit (s.ctxOf k) (s.dieOf k) (s.regionOf k) (fun _ => 0) (2 ^ ln.toNat) = true) :
    exec (.radvCfg g d ring ln) s = .next (((s.configured k c ring.toNat ln.toNat a).writeReg k d 0).advance k) := by
  refine perCrew_next he ?_
  simp only [State.radvCfg, List.headD_cons, hc, hv, hrun, hcaps, Bool.not_true, Bool.false_eq_true, if_false]
  rfl

variable (hbad : s.specBad c (0x7D00 + 32 * ring.toNat) 16 = [])
include hbad

section configured
variable (hv : ringValid (s.ringCfg c ring.toNat) = true)
include hv

theorem exec_radvTail (he : s.executes k g simtOnly .holds [d.toNat]) :
    exec (.radvTail g d ring) s = .next ((s.writeReg k d (if ringClosed (s.ringCtr c ring.toNat) = 0 then 0 else
      BitVec.ofNat 64 ((s.ctxOf k).loamva.toNat % 2 ^ 57
        + tailOffset (s.ringCfg c ring.toNat) (s.ringCtr c ring.toNat)))).advance k) :=
  perCrew_next he (State.onRing_valid hc hbad hv)

theorem exec_radv (he : s.executes k g simtOnly .holds []) (hq : (s.core c.core).engines.queue.length < 8) :
    exec (.radv g ring) s = .next ((s.enqueue c.core (Cmd.new (encode (.radv ⟨0, false⟩ ring)) (crewOf k) (1#32 <<< laneOf k) 0 0 0
      (s.thread k).pc (s.thread k).trap.sup)).advance k) := by
  have hmask : rowMask [k] = 1#32 <<< laneOf k := BitVec.zero_or
  refine perCrew_next he ((State.onRing_valid hc hbad hv).trans ((if_neg (Nat.not_le.2 hq)).trans ?_))
  rw [hmask]
  rfl

theorem exec_radvRel_closed (he : s.executes k g simtOnly .holds []) (hp : s.loamPending k = false)
    (hclosed : ringClosed (s.ringCtr c ring.toNat) ≠ 0) :
    exec (.radvRel g ring) s = .next ((s.releaseTail c ring.toNat).advance k) :=
  perCrew_next he ((if_neg (by simp [hp])).trans
    ((State.onRing_valid hc hbad hv).trans (congrArg (Res.go · .next) (if_neg hclosed))))

theorem exec_radvRel_open (he : s.executes k g simtOnly .holds []) (hp : s.loamPending k = false)
    (hopen : ringClosed (s.ringCtr c ring.toNat) = 0) : exec (.radvRel g ring) s = .next (s.advance k) :=
  perCrew_next he ((if_neg (by simp [hp])).trans
    ((State.onRing_valid hc hbad hv).trans (congrArg (Res.go · .next) (if_pos hopen))))

theorem exec_radvFree (he : s.executes k g simtOnly .holds [])
    (hq : (s.core c.core).engines.queue.any (fun x => x.usesRing (crewOf k) ring.toNat) = false)
    (hcur : (s.core c.core).engines.current.any (fun x => x.usesRing (crewOf k) ring.toNat) = false) :
    exec (.radvFree g ring) s = .next (((s.putRing c ring.toNat 0 0).chargeLoam (s.ctxOf k) (s.dieOf k) (s.regionOf k)
      (-(ringSlots (s.ringCfg c ring.toNat) : Int))).advance k) := by
  refine perCrew_next he ((State.onRing_valid hc hbad hv).trans (if_neg ?_))
  simp [hq, hcur]

end configured

section unconfigured
variable (hv : ringValid (s.ringCfg c ring.toNat) = false)
include hv

theorem exec_radvTail_unconfigured (he : s.executes k g simtOnly .holds [d.toNat]) :
    exec (.radvTail g d ring) s = .next (s.raise k cILLEGAL 0 (ring.setWidth 64) (s.thread k).pc) :=
  perCrew_raise_at he (State.onRing_unconfigured hc hbad hv)

theorem exec_radv_unconfigured (he : s.executes k g simtOnly .holds []) :
    exec (.radv g ring) s = .next (s.raise k cILLEGAL 0 (ring.setWidth 64) (s.thread k).pc) :=
  perCrew_raise_at he (State.onRing_unconfigured hc hbad hv)

theorem exec_radvRel_unconfigured (he : s.executes k g simtOnly .holds []) (hp : s.loamPending k = false) :
    exec (.radvRel g ring) s = .next (s.raise k cILLEGAL 0 (ring.setWidth 64) (s.thread k).pc) :=
  perCrew_raise_at he ((if_neg (by simp [hp])).trans (State.onRing_unconfigured hc hbad hv))

theorem exec_radvFree_unconfigured (he : s.executes k g simtOnly .holds []) :
    exec (.radvFree g ring) s = .next (s.raise k cILLEGAL 0 (ring.setWidth 64) (s.thread k).pc) :=
  perCrew_raise_at he (State.onRing_unconfigured hc hbad hv)

end unconfigured
end radv

/-! ### The rows of the engine (R112, R219, R220, R227) -/

section rows
variable {core : Nat} {x : Cmd}

theorem exec_mmaStart (hn : s.nextCmd core = some x) (hm : x.isMma = true)
    (hl : s.runLevel core x = (s.core core).engines.railLevel) :
    exec (.mmaStart core) s = .next ((s.dequeueCmd core x).setCurrent core (some { x with
      slot := if x.isK then ((s.core core).handle (fld x.b 7 0)).slot else none, ran := s.runLevel core x })) := by
  show execMmaStart core s = _
  simp only [execMmaStart, hn, hm, hl, beq_self_eq_true, Bool.and_self, if_true]

theorem exec_horizonRailSwitch (hn : s.nextCmd core = some x) (hm : x.isMma = true) :
    exec (.horizonRailSwitch core) s
      = .next (s.modCore core fun k => { k with engines := { k.engines with railLevel := s.runLevel core x } }) := by
  show execHorizonRailSwitch core s = _
  simp only [execHorizonRailSwitch, hn, hm, if_true]

theorem exec_mmaCompletion {cr : Crew} (hx : (s.core core).engines.current = some x) (hcr : s.crews.find x.crew = some cr) :
    exec (.mmaCompletion core) s = .next (((s.completeMma core x cr).setCurrent core none).reapCrew x.crew) := by
  show execMmaCompletion core s = _
  simp only [execMmaCompletion, hx, hcr]

/-- A command that leaves the queue leaves the banks and their parity. -/
theorem State.dequeueCmd_loam (s : State) (core : Nat) (x : Cmd) (n : Nat) :
    ((s.dequeueCmd core x).core n).bank = (s.core n).bank ∧ ((s.dequeueCmd core x).core n).badParity = (s.core n).badParity := by
  by_cases h : n = core
  · subst h
    rw [State.dequeueCmd, State.modCore_get_self]
    exact ⟨rfl, rfl⟩
  · rw [State.dequeueCmd, State.modCore_get_ne _ _ _ h]
    exact ⟨rfl, rfl⟩

theorem State.dequeueCmd_specBad (cr : Crew) (off n : Nat) : (s.dequeueCmd core x).specBad cr off n = s.specBad cr off n := by
  simp only [State.specBad, Core.badIn, (State.dequeueCmd_loam s core x _).2]

theorem State.dequeueCmd_ringCfg (cr : Crew) (n : Nat) : (s.dequeueCmd core x).ringCfg cr n = s.ringCfg cr n := by
  simp only [State.ringCfg, (State.dequeueCmd_loam s core x _).1]

theorem State.dequeueCmd_specWord (cr : Crew) (off : Nat) : (s.dequeueCmd core x).specWord cr off = s.specWord cr off := by
  simp only [State.specWord, State.loamBytes, State.dequeueCmd_specBad, (State.dequeueCmd_loam s core x _).1]

theorem State.dequeueCmd_ringCtr (cr : Crew) (n : Nat) : (s.dequeueCmd core x).ringCtr cr n = s.ringCtr cr n := by
  simp only [State.ringCtr, State.dequeueCmd_specWord, State.dequeueCmd_specBad, (State.dequeueCmd_loam s core x _).1]

/-- RADV starts on a ring whose descriptor is sound: it closes the head slot (R227, R442). -/
theorem exec_radvCloseStart {cr : Crew} (hn : s.nextCmd core = some x) (hx : x.isRadv = true) (hcr : s.crews.find x.crew = some cr)
    (hbad : s.specBad cr (0x7D00 + 32 * x.ring) 16 = []) :
    exec (.radvCloseStart core) s = .next ((((s.dequeueCmd core x).putRing cr x.ring (s.ringCfg cr x.ring)
      (ringWord ((ringHead (s.ringCtr cr x.ring) + 1) % ringSlots (s.ringCfg cr x.ring)) (ringTail (s.ringCtr cr x.ring))
        (ringClosed (s.ringCtr cr x.ring) + 1))).noteSlots core x.crew).reapCrew x.crew) := by
  have hcount : (s.dequeueCmd core x).countSpec cr (0x7D00 + 32 * x.ring) 16 = s.dequeueCmd core x := by
    rw [State.countSpec, State.dequeueCmd_specBad, hbad, List.foldl_nil]
  show execRadvCloseStart core s = _
  simp only [execRadvCloseStart, hn, hcr, hx, if_true, hcount, State.closeHead, State.putRingCtr, State.dequeueCmd_ringCfg,
    State.dequeueCmd_ringCtr]

end rows

/-- Settles O49: an MMA by its ring and its operands, RADV by its ring, each row of the engine by its command. -/
theorem matrixCommands : Obligations.MatrixCommands := by
  refine ⟨?mma, ?radv, ?rows⟩
  case mma =>
    intro s k g a b m c hc he va vb ta tb ring bad queued room
    refine ⟨fun hbad hring hroom hA hna => ?_, fun hbad hring hmis => ?_, fun hbad hring => ?_, fun x hx hn => ?_⟩
    · obtain ⟨hq, htile, hord⟩ := hroom
      have hcore := State.coreOf_crew hc
      have hroom : s.MmaRoom k := ⟨hcore ▸ hq, htile, hord⟩
      refine ⟨fun hB hpair hnb => ?_, fun n h hf hst hallow hpair hnb hbook => ?_⟩
      · obtain ⟨early, hacc⟩ := State.mmaT_accepts hc (encode (.mmaT g m a b)) hbad hring hroom hA hB hpair hna hnb
        refine ⟨early, (perCrew_next he hacc).trans ?_⟩
        rw [State.mmaAccepted, hcore]
        rfl
      · obtain ⟨early, hacc⟩ := State.mmaK_accepts hc (encode (.mmaK g m a b)) hbad hring hroom hA hf hst hallow hpair hna hnb hbook
        refine ⟨early, (perCrew_next he hacc).trans ?_⟩
        rw [State.mmaAccepted, hcore]
        rfl
    · exact ⟨perCrew_raise_at he (State.mma_misaligned hc _ hbad hring hmis rfl).1,
        perCrew_raise_at he (State.mma_misaligned hc _ hbad hring hmis rfl).2⟩
    · exact ⟨perCrew_raise_at he (State.mma_unconfigured hc _ hbad hring rfl).1,
        perCrew_raise_at he (State.mma_unconfigured hc _ hbad hring rfl).2⟩
    · intro t
      have hraise : (s.countParity c.core).raise k cPOISON 0 (BitVec.ofNat 64 ((s.ctxOf k).loamva.toNat % 2 ^ 57 + x))
          ((s.countParity c.core).thread k).pc = t := if_pos (beq_iff_eq.2 hn)
      rw [← hraise]
      exact ⟨perCrew_raise_failed he (State.mma_spoiled hc _ hx rfl).1, perCrew_raise_failed he (State.mma_spoiled hc _ hx rfl).2⟩
  case radv =>
    intro s k g d ring ln c hc cfg w e uses bytes good
    refine ⟨exec_radvCfg_configured hc, fun he hv a hrun hcaps => exec_radvCfg_gives hc he hv hrun hcaps,
      fun he hb hv => exec_radvTail hc hb hv he, fun he hb hv => exec_radvTail_unconfigured hc hb hv he,
      fun he hb hv => ⟨exec_radv hc hb hv he, exec_radvRel_closed hc hb hv he,
        exec_radvRel_open hc hb hv he, exec_radvFree hc hb hv he⟩,
      fun he hb hv => ⟨exec_radv_unconfigured hc hb hv he, exec_radvRel_unconfigured hc hb hv he, exec_radvFree_unconfigured hc hb hv he⟩⟩
  case rows =>
    intro s core x
    refine ⟨fun hn hm => ⟨fun hl => ⟨_, exec_mmaStart hn hm hl, ?_, ?_, rfl, rfl⟩,
      _, exec_horizonRailSwitch hn hm, ?_, ?_, rfl, rfl⟩, fun cr hn hx hcr => exec_radvCloseStart hn hx hcr,
      fun cr => exec_mmaCompletion⟩
    · rw [State.setCurrent, State.modCore_get_self]
    · rw [State.setCurrent, State.modCore_get_self, State.dequeueCmd, State.modCore_get_self]
    · rw [State.modCore_get_self]
    · rw [State.modCore_get_self]

end Sys2Proof.Machine
end

section
/-!
PROOFS. The decoder gives back the instruction of every encoding, and accepts no other words (R246 to R268).
-/
namespace Sys2Proof
variable {w : BitVec 64} {g : Guard}

/-! ### The decoder of each major opcode (R252) -/

theorem decodeMajor_int (h : fOp w = 0x01) : decodeMajor w g = decodeInt w g := by rw [decodeMajor, h]; rfl
theorem decodeMajor_muldiv (h : fOp w = 0x02) : decodeMajor w g = decodeMuldiv w g := by rw [decodeMajor, h]; rfl
theorem decodeMajor_addi (h : fOp w = 0x10) : decodeMajor w g = immForm w (.ok (.addi g (fD w) (fA w) (fImm w))) := by
  rw [decodeMajor, h]; rfl
theorem decodeMajor_andi (h : fOp w = 0x11) : decodeMajor w g = immForm w (.ok (.andi g (fD w) (fA w) (fImm w))) := by
  rw [decodeMajor, h]; rfl
theorem decodeMajor_ori (h : fOp w = 0x12) : decodeMajor w g = immForm w (.ok (.ori g (fD w) (fA w) (fImm w))) := by
  rw [decodeMajor, h]; rfl
theorem decodeMajor_xori (h : fOp w = 0x13) : decodeMajor w g = immForm w (.ok (.xori g (fD w) (fA w) (fImm w))) := by
  rw [decodeMajor, h]; rfl
theorem decodeMajor_shli (h : fOp w = 0x14) : decodeMajor w g = shiftForm w fun n => .ok (.shli g (fD w) (fA w) n) := by
  rw [decodeMajor, h]; rfl
theorem decodeMajor_shri (h : fOp w = 0x15) : decodeMajor w g = shiftForm w fun n => .ok (.shri g (fD w) (fA w) n) := by
  rw [decodeMajor, h]; rfl
theorem decodeMajor_srai (h : fOp w = 0x16) : decodeMajor w g = shiftForm w fun n => .ok (.srai g (fD w) (fA w) n) := by
  rw [decodeMajor, h]; rfl
theorem decodeMajor_slti (h : fOp w = 0x17) : decodeMajor w g = immForm w (.ok (.slti g (fD w) (fA w) (fImm w))) := by
  rw [decodeMajor, h]; rfl
theorem decodeMajor_movi (h : fOp w = 0x18) : decodeMajor w g = immForm w (zeros (fA w == 0) (.ok (.movi g (fD w) (fImm w)))) := by
  rw [decodeMajor, h]; rfl
theorem decodeMajor_movhi (h : fOp w = 0x19) : decodeMajor w g = immForm w (zeros (fA w == 0) (.ok (.movhi g (fD w) (fImm w)))) := by
  rw [decodeMajor, h]; rfl
theorem decodeMajor_pcmp (h : fOp w = 0x20) : decodeMajor w g = decodePcmp w g := by rw [decodeMajor, h]; rfl
theorem decodeMajor_pcmpi (h : fOp w = 0x21) : decodeMajor w g = decodePcmpi w g := by rw [decodeMajor, h]; rfl
theorem decodeMajor_plop (h : fOp w = 0x22) : decodeMajor w g = decodePlop w g := by rw [decodeMajor, h]; rfl
theorem decodeMajor_fcmp (h : fOp w = 0x23) : decodeMajor w g = decodeFcmp w g := by rw [decodeMajor, h]; rfl
theorem decodeMajor_fp (h : fOp w = 0x30) : decodeMajor w g = decodeFp w g := by rw [decodeMajor, h]; rfl
theorem decodeMajor_cvt (h : fOp w = 0x40) : decodeMajor w g = decodeCvt w g := by rw [decodeMajor, h]; rfl
theorem decodeMajor_pack (h : fOp w = 0x41) : decodeMajor w g = decodePack w g := by rw [decodeMajor, h]; rfl
theorem decodeMajor_xlane (h : fOp w = 0x50) : decodeMajor w g = decodeXlane w g := by rw [decodeMajor, h]; rfl
theorem decodeMajor_ld (h : fOp w = 0x60) : decodeMajor w g = decodeLd w g := by rw [decodeMajor, h]; rfl
theorem decodeMajor_st (h : fOp w = 0x61) : decodeMajor w g = decodeSt w g := by rw [decodeMajor, h]; rfl
theorem decodeMajor_amo (h : fOp w = 0x62) : decodeMajor w g = decodeAmo w g := by rw [decodeMajor, h]; rfl
theorem decodeMajor_cas (h : fOp w = 0x63) : decodeMajor w g = decodeCas w g := by rw [decodeMajor, h]; rfl
theorem decodeMajor_pref (h : fOp w = 0x64) : decodeMajor w g = decodePref w g := by rw [decodeMajor, h]; rfl
theorem decodeMajor_fence (h : fOp w = 0x70) : decodeMajor w g = decodeFence w g := by rw [decodeMajor, h]; rfl
theorem decodeMajor_tfence (h : fOp w = 0x71) : decodeMajor w g = bare w (.tfence g) := by rw [decodeMajor, h]; rfl
theorem decodeMajor_opfence (h : fOp w = 0x72) : decodeMajor w g = bare w (.opfence g) := by rw [decodeMajor, h]; rfl
theorem decodeMajor_ifence (h : fOp w = 0x73) : decodeMajor w g = bare w (.ifence g) := by rw [decodeMajor, h]; rfl
theorem decodeMajor_cwb (h : fOp w = 0x74) : decodeMajor w g = decodeCacheOp w fun sc => .cwb g sc (fA w) (fOff w) := by
  rw [decodeMajor, h]; rfl
theorem decodeMajor_cinv (h : fOp w = 0x75) : decodeMajor w g = decodeCacheOp w fun sc => .cinv g sc (fA w) (fOff w) := by
  rw [decodeMajor, h]; rfl
theorem decodeMajor_icinv (h : fOp w = 0x76) : decodeMajor w g = decodeCacheOp w fun sc => .icinv g sc (fA w) (fOff w) := by
  rw [decodeMajor, h]; rfl
theorem decodeMajor_br (h : fOp w = 0x80) : decodeMajor w g = decodeBr w g := by rw [decodeMajor, h]; rfl
theorem decodeMajor_jal (h : fOp w = 0x81) : decodeMajor w g = decodeJal w g := by rw [decodeMajor, h]; rfl
theorem decodeMajor_jalr (h : fOp w = 0x82) : decodeMajor w g = decodeJalr w g := by rw [decodeMajor, h]; rfl
theorem decodeMajor_join (h : fOp w = 0x83) : decodeMajor w g = decodeJoin w g := by rw [decodeMajor, h]; rfl
theorem decodeMajor_yield (h : fOp w = 0x84) : decodeMajor w g = decodeYield w g := by rw [decodeMajor, h]; rfl
theorem decodeMajor_exit (h : fOp w = 0x85) : decodeMajor w g = bare w (.exit g) := by rw [decodeMajor, h]; rfl
theorem decodeMajor_bkoff (h : fOp w = 0x86) : decodeMajor w g = bare w (.bkoff g) := by rw [decodeMajor, h]; rfl
theorem decodeMajor_nop (h : fOp w = 0x87) : decodeMajor w g = bare w (.nop g) := by rw [decodeMajor, h]; rfl
theorem decodeMajor_waitc (h : fOp w = 0x90) : decodeMajor w g = decodeWaitc w g := by rw [decodeMajor, h]; rfl
theorem decodeMajor_cbwait (h : fOp w = 0x91) : decodeMajor w g = decodeCbwait w g := by rw [decodeMajor, h]; rfl
theorem decodeMajor_cbpop (h : fOp w = 0x92) : decodeMajor w g = decodeCb w fun k => .cbpop g k := by rw [decodeMajor, h]; rfl
theorem decodeMajor_cbpush (h : fOp w = 0x93) : decodeMajor w g = decodeCb w fun k => .cbpush g k := by rw [decodeMajor, h]; rfl
theorem decodeMajor_migrate (h : fOp w = 0xA0) : decodeMajor w g = decodeMigrate w g := by rw [decodeMajor, h]; rfl
theorem decodeMajor_gbar (h : fOp w = 0xA1) : decodeMajor w g = bare w (.gbar g) := by rw [decodeMajor, h]; rfl
theorem decodeMajor_grow (h : fOp w = 0xA2) : decodeMajor w g = decodeGrow w fun n8 => .grow g n8 := by rw [decodeMajor, h]; rfl
theorem decodeMajor_shrink (h : fOp w = 0xA3) : decodeMajor w g = decodeGrow w fun n8 => .shrink g n8 := by
  rw [decodeMajor, h]; rfl
theorem decodeMajor_shmap (h : fOp w = 0xA4) : decodeMajor w g = decodeShmap w g := by rw [decodeMajor, h]; rfl
theorem decodeMajor_setf (h : fOp w = 0xA5) : decodeMajor w g = decodeSetf w fun d a => .setf g d a := by
  rw [decodeMajor, h]; rfl
theorem decodeMajor_takef (h : fOp w = 0xA6) : decodeMajor w g = decodeSetf w fun d a => .takef g d a := by
  rw [decodeMajor, h]; rfl
theorem decodeMajor_scall (h : fOp w = 0xA7) : decodeMajor w g = decodeScall w g := by rw [decodeMajor, h]; rfl
theorem decodeMajor_fidset (h : fOp w = 0xA8) : decodeMajor w g = decodeFidset w g := by rw [decodeMajor, h]; rfl
theorem decodeMajor_mma (h : fOp w = 0xB0) : decodeMajor w g = decodeMma w g := by rw [decodeMajor, h]; rfl
theorem decodeMajor_radv (h : fOp w = 0xB1) : decodeMajor w g = decodeRadv w g := by rw [decodeMajor, h]; rfl
theorem decodeMajor_kalloc (h : fOp w = 0xB2) : decodeMajor w g = decodeKalloc w g := by rw [decodeMajor, h]; rfl
theorem decodeMajor_kfill (h : fOp w = 0xB3) : decodeMajor w g = kForm w (zeros (fMod w == 0) (.ok (.kfill g (fD w) (fA w) (fB w)))) := by
  rw [decodeMajor, h]; rfl
theorem decodeMajor_kpin (h : fOp w = 0xB4) : decodeMajor w g = decodeKpin w g := by rw [decodeMajor, h]; rfl
theorem decodeMajor_krev (h : fOp w = 0xB5) : decodeMajor w g = kForm w (zeros (fD w == 0 && fB w == 0 && fMod w == 0) (.ok (.krev g (fA w)))) := by
  rw [decodeMajor, h]; rfl
theorem decodeMajor_kstat (h : fOp w = 0xB6) : decodeMajor w g = kForm w (zeros (fB w == 0 && fMod w == 0) (.ok (.kstat g (fD w) (fA w)))) := by
  rw [decodeMajor, h]; rfl
theorem decodeMajor_cbkld (h : fOp w = 0xB7) : decodeMajor w g = decodeCbkld w g := by rw [decodeMajor, h]; rfl
theorem decodeMajor_engo (h : fOp w = 0xC0) : decodeMajor w g = decodeEngo w g := by rw [decodeMajor, h]; rfl
theorem decodeMajor_engq (h : fOp w = 0xC1) : decodeMajor w g = decodeEngq w g := by rw [decodeMajor, h]; rfl
theorem decodeMajor_sysrd (h : fOp w = 0xD0) : decodeMajor w g = decodeSysrd w g := by rw [decodeMajor, h]; rfl
theorem decodeMajor_syswr (h : fOp w = 0xD1) : decodeMajor w g = decodeSyswr w g := by rw [decodeMajor, h]; rfl
theorem decodeMajor_eret (h : fOp w = 0xD2) : decodeMajor w g = bare w (.eret g) := by rw [decodeMajor, h]; rfl
theorem decodeMajor_trap (h : fOp w = 0xD3) : decodeMajor w g = decodeTrap w fun n => .trap g n := by rw [decodeMajor, h]; rfl
theorem decodeMajor_bkpt (h : fOp w = 0xD4) : decodeMajor w g = decodeTrap w fun n => .bkpt g n := by rw [decodeMajor, h]; rfl
theorem decodeMajor_tlbinv (h : fOp w = 0xD5) : decodeMajor w g = decodeTlbinv w g := by rw [decodeMajor, h]; rfl
theorem decodeMajor_sleep (h : fOp w = 0xD6) : decodeMajor w g = bare w (.sleep g) := by rw [decodeMajor, h]; rfl

/-! ### What the decoder's checks answer -/

@[simp] theorem need_true (e : DecodeError) (k : Decoded) : need true e k = k := rfl
@[simp] theorem zeros_true (k : Decoded) : zeros true k = k := rfl
@[simp] theorem code_some {α : Type} (x : α) (k : α → Decoded) : code (some x) k = k x := rfl
@[simp] theorem bit_beq_zero (b : Bool) : (bit b == 0#1) = !b := by cases b <;> rfl
@[simp] theorem pred_predReg (p : Pred) (k : Pred → Decoded) : pred (predReg p) k = k p := by simp [pred]

/-! ### Major opcodes that the map of R252 does not assign -/

theorem decodeMajor_unassigned (h : majorAssigned (w.extractLsb' 56 8) = false) : decodeMajor w g = .ok (.reservedMajorOpcode w) := by
  change majorAssigned (fOp w) = false at h
  unfold decodeMajor
  dsimp only
  split
  case h_71 => rfl
  all_goals
    next hop => simp [majorAssigned, hop] at h

theorem decode_unassigned (h : majorAssigned (w.extractLsb' 56 8) = false) (hg : guardReserved w = false) :
    decode w = .ok (.reservedMajorOpcode w) := by
  rw [decode, hg, decodeMajor_unassigned h]
  rfl

theorem decodeSetf_wPre {op : BitVec 8} {d a : Reg} {k : Reg → Reg → Instr} : decodeSetf (wPre op g d a 0 0) k = .ok (k d a) := by
  rw [decodeSetf, low40_wPre, fD_wPre, fA_wPre]; rfl

/-- The part above a four-bit field, with the bit next to it by itself. -/
theorem zero28_append (k : BitVec 4) : (0#28 ++ k : BitVec 32) = 0#27 ++ 0#1 ++ k := rfl

/-! ### Words of the formats under a guard that is not reserved -/

/-- A word whose guard is no reserved one decodes by its major opcode. -/
theorem decode_of_major {i : Instr} (hg : fGuard w = g) (hwf : g.wf = true) (h : decodeMajor w g = .ok i) : decode w = .ok i := by
  simpa [decode, guardReserved_iff, hg, hwf] using h

section formats
variable {i : Instr} {op fn : BitVec 8} {d a b c : Reg} (hwf : g.wf = true)
include hwf

theorem decode_wR {rm ty : BitVec 4} {m : BitVec 12} (h : decodeMajor (wR op g d a b c fn rm ty m) g = .ok i) :
    decode (wR op g d a b c fn rm ty m) = .ok i := decode_of_major (fGuard_wR ..) hwf h

theorem decode_wI {imm : BitVec 32} (h : decodeMajor (wI op g d a b imm) g = .ok i) : decode (wI op g d a b imm) = .ok i :=
  decode_of_major (fGuard_wI ..) hwf h

theorem decode_wB {hint : BitVec 2} {off : BitVec 32} (h : decodeMajor (wB op g d hint off) g = .ok i) :
    decode (wB op g d hint off) = .ok i := decode_of_major (fGuard_wB ..) hwf h

theorem decode_wM {sz o sc : BitVec 3} {sx : BitVec 1} {off : BitVec 24} (h : decodeMajor (wM op g d a sz sx o sc off) g = .ok i) :
    decode (wM op g d a sz sx o sc off) = .ok i := decode_of_major (fGuard_wM ..) hwf h

theorem decode_wA {sz o sc : BitVec 3} (h : decodeMajor (wA op g d a b c fn sz o sc) g = .ok i) :
    decode (wA op g d a b c fn sz o sc) = .ok i := decode_of_major (fGuard_wA ..) hwf h

theorem decode_wX {ring : BitVec 2} {flags : BitVec 6} {fid : BitVec 4} {imm : BitVec 16}
    (h : decodeMajor (wX op g a b ring flags fid imm) g = .ok i) : decode (wX op g a b ring flags fid imm) = .ok i :=
  decode_of_major (fGuard_wX ..) hwf h

theorem decode_wS {sys : BitVec 12} (h : decodeMajor (wS op g d a sys) g = .ok i) : decode (wS op g d a sys) = .ok i :=
  decode_of_major (fGuard_wS ..) hwf h

theorem decode_wPre {low : BitVec 34} (h : decodeMajor (wPre op g d a b low) g = .ok i) : decode (wPre op g d a b low) = .ok i :=
  decode_of_major (fGuard_wPre ..) hwf h

theorem decode_encBare (h : decodeMajor (encBare op g) g = bare (encBare op g) i) : decode (encBare op g) = .ok i :=
  decode_of_major (fGuard_encBare ..) hwf (h.trans (by simp [bare]))

end formats

/-- R246 to R268: the decoder takes the word of a well-formed instruction back to it; the shared format lemma gives its fields
and `decodeMajor_…` its decoder. -/
theorem decode_encode (i : Instr) (h : WellFormed i = true) : decode (encode i) = .ok i := by
  cases i with
  -- integer forms and immediates
  | add | sub | addw | subw | and | or | xor | shl | shr | sra | min | max | minu | maxu | slt | sltu | clz | popc | brev
  | sel | lea | sext | zext => exact decode_wR h (by simp [decodeMajor_int, decodeInt])
  | bfx | bfi =>
    obtain ⟨hg, hlen⟩ := Bool.and_eq_true_iff.1 h
    exact decode_wR hg (by simp [decodeMajor_int, decodeInt, hlen])
  | mul | mulh | mulhu | div | divu | rem | remu => exact decode_wR h (by simp [decodeMajor_muldiv, decodeMuldiv])
  | addi => exact decode_wI h (by simp [decodeMajor_addi, immForm])
  | andi => exact decode_wI h (by simp [decodeMajor_andi, immForm])
  | ori => exact decode_wI h (by simp [decodeMajor_ori, immForm])
  | xori => exact decode_wI h (by simp [decodeMajor_xori, immForm])
  | shli => exact decode_wI h (by simp [decodeMajor_shli, shiftForm, immForm])
  | shri => exact decode_wI h (by simp [decodeMajor_shri, shiftForm, immForm])
  | srai => exact decode_wI h (by simp [decodeMajor_srai, shiftForm, immForm])
  | slti => exact decode_wI h (by simp [decodeMajor_slti, immForm])
  | movi => exact decode_wI h (by simp [decodeMajor_movi, immForm])
  | movhi => exact decode_wI h (by simp [decodeMajor_movhi, immForm])
  -- predicates, floating point, conversions
  | pcmp => exact decode_wR h (by simp [decodeMajor_pcmp, decodePcmp])
  | pcmpi => exact decode_wI h (by simp [decodeMajor_pcmpi, decodePcmpi])
  | plop => exact decode_wR h (by simp [decodeMajor_plop, decodePlop])
  | fcmp => exact decode_wR h (by simp [decodeMajor_fcmp, decodeFcmp])
  | fadd | fsub | fmul | fdiv | ffma | fmin | fmax | fsqrt | frcp | frsq | fexp2 | flog2 | fclass =>
    exact decode_wR h (by simp [decodeMajor_fp, decodeFp])
  | fcvt | icvt => exact decode_wR h (by simp [decodeMajor_cvt, decodeCvt])
  | pcvt =>
    obtain ⟨hrm, hpart⟩ := Bool.and_eq_true_iff.1 h
    obtain ⟨hg, hrm⟩ := Bool.and_eq_true_iff.1 hrm
    exact decode_wR hg (by simp [decodeMajor_cvt, decodeCvt, hrm, hpart])
  | pfma | pdot =>
    obtain ⟨ht, hrm⟩ := Bool.and_eq_true_iff.1 h
    obtain ⟨hg, ht⟩ := Bool.and_eq_true_iff.1 ht
    exact decode_wR hg (by simp [decodeMajor_pack, decodePack, hrm, ht])
  -- cross-lane
  | shfl => exact decode_wR h (by simp [decodeMajor_xlane, decodeXlane])
  | vote _ m =>
    obtain ⟨hg, hm⟩ := Bool.and_eq_true_iff.1 h
    cases m with
    | uni =>
      obtain rfl := eq_of_beq hm
      exact decode_wR hg (by simp [decodeMajor_xlane, decodeXlane, -BitVec.reduceAppend])
    | all | any | ballot =>
      obtain rfl := eq_of_beq hm
      exact decode_wR hg (by simp [decodeMajor_xlane, decodeXlane])
  | redb | scanb =>
    obtain ⟨hg, hop⟩ := Bool.and_eq_true_iff.1 h
    exact decode_wR hg (by simp [decodeMajor_xlane, decodeXlane, hop])
  -- memory
  | ld =>
    obtain ⟨ho, hd⟩ := Bool.and_eq_true_iff.1 h
    obtain ⟨hsx, ho⟩ := Bool.and_eq_true_iff.1 ho
    obtain ⟨hg, hsx⟩ := Bool.and_eq_true_iff.1 hsx
    exact decode_wM hg (by simp [decodeMajor_ld, decodeLd, hsx, ho, hd])
  | st =>
    obtain ⟨ho, hd⟩ := Bool.and_eq_true_iff.1 h
    obtain ⟨hg, ho⟩ := Bool.and_eq_true_iff.1 ho
    exact decode_wM hg (by simp [decodeMajor_st, decodeSt, ho, hd])
  | amoAdd | amoAnd | amoOr | amoXor | amoMin | amoMax | amoMinu | amoMaxu | amoSwap | amoFadd =>
    obtain ⟨hg, ho⟩ := Bool.and_eq_true_iff.1 h
    exact decode_wA hg (by simp [decodeMajor_amo, decodeAmo, ho])
  | cas =>
    obtain ⟨hg, ho⟩ := Bool.and_eq_true_iff.1 h
    exact decode_wA hg (by simp [decodeMajor_cas, decodeCas, ho])
  | pref => exact decode_wM h (by simp [decodeMajor_pref, decodePref])
  | cwb => exact decode_wM h (by simp [decodeMajor_cwb, decodeCacheOp])
  | cinv => exact decode_wM h (by simp [decodeMajor_cinv, decodeCacheOp])
  | icinv => exact decode_wM h (by simp [decodeMajor_icinv, decodeCacheOp])
  | fence =>
    obtain ⟨hg, hf⟩ := Bool.and_eq_true_iff.1 h
    exact decode_wS hg (by simp [decodeMajor_fence, decodeFence, FenceSpec.code, hf])
  -- control flow, threads and crews
  | br => exact decode_wB h (by simp [decodeMajor_br, decodeBr])
  | jal _ call =>
    cases call with
    | true | false => exact decode_wB h (by simp [decodeMajor_jal, decodeJal, bit])
  | jalr => exact decode_wI h (by simp [decodeMajor_jalr, decodeJalr])
  | joinEnr | joinWait | joinStrike | joinRst => exact decode_wR h (by simp [decodeMajor_join, decodeJoin])
  | yield | yieldH => exact decode_wI h (by simp [decodeMajor_yield, decodeYield, immOnly])
  | waitc => exact decode_wI h (by simp [decodeMajor_waitc, decodeWaitc, immOnly])
  | cbwait | cbwaitProd => exact decode_wI h (by simp [decodeMajor_cbwait, decodeCbwait, zero28_append, -BitVec.reduceAppend])
  | cbpop => exact decode_wI h (by simp [decodeMajor_cbpop, decodeCb, immOnly])
  | cbpush => exact decode_wI h (by simp [decodeMajor_cbpush, decodeCb, immOnly])
  | migrateTosimt | migrateTolat => exact decode_wR h (by simp [decodeMajor_migrate, decodeMigrate])
  | grow | shrink =>
    obtain ⟨hlo, hhi⟩ := Bool.and_eq_true_iff.1 h
    obtain ⟨hg, hlo⟩ := Bool.and_eq_true_iff.1 hlo
    exact decode_wI hg (by simp [decodeMajor_grow, decodeMajor_shrink, decodeGrow, immOnly, hlo, hhi])
  | shmap =>
    obtain ⟨hg, hn⟩ := Bool.and_eq_true_iff.1 h
    exact decode_wI hg (by simp [decodeMajor_shmap, decodeShmap, hn])
  | setf => exact decode_wPre h ((decodeMajor_setf (fOp_wPre ..)).trans decodeSetf_wPre)
  | takef => exact decode_wPre h ((decodeMajor_takef (fOp_wPre ..)).trans decodeSetf_wPre)
  | scall | scallOv | scallNs => exact decode_wI h (by simp [decodeMajor_scall, decodeScall])
  | fidset => exact decode_wI h (by simp [decodeMajor_fidset, decodeFidset, immOnly])
  -- matrix, Kaolin, engines
  | mmaT | mmaK =>
    obtain ⟨hg, hm⟩ := Bool.and_eq_true_iff.1 h
    exact decode_wX hg (by simp [decodeMajor_mma, decodeMma, hm])
  | radv | radvCfg | radvTail | radvRel | radvFree => exact decode_wR h (by simp [decodeMajor_radv, decodeRadv, -BitVec.reduceAppend])
  | kalloc => exact decode_wR h (by simp [decodeMajor_kalloc, decodeKalloc, kForm])
  | kfill => exact decode_wR h (by simp [decodeMajor_kfill, kForm])
  | kpin | kpinOff => exact decode_wR h (by simp [decodeMajor_kpin, decodeKpin, kForm])
  | krev => exact decode_wR h (by simp [decodeMajor_krev, kForm])
  | kstat => exact decode_wR h (by simp [decodeMajor_kstat, kForm])
  | cbkld => exact decode_wR h (by simp [decodeMajor_cbkld, decodeCbkld, kForm])
  | engoCopy | engoEpi | engoNet => exact decode_wS h (by simp [decodeMajor_engo, decodeEngo])
  | engq => exact decode_wS h (by simp [decodeMajor_engq, decodeEngq])
  -- system
  | sysrd => exact decode_wS h (by simp [decodeMajor_sysrd, decodeSysrd])
  | syswr =>
    obtain ⟨hg, hr⟩ := Bool.and_eq_true_iff.1 h
    exact decode_wS hg (by simp [decodeMajor_syswr, decodeSyswr, hr])
  | trap => exact decode_wI h (by simp [decodeMajor_trap, decodeTrap, immOnly])
  | bkpt => exact decode_wI h (by simp [decodeMajor_bkpt, decodeTrap, immOnly])
  | tlbinvPg | tlbinvPga =>
    obtain ⟨hg, hsz⟩ := Bool.and_eq_true_iff.1 h
    exact decode_wR hg (by simp [decodeMajor_tlbinv, decodeTlbinv, show (_ != 0#3) = true from hsz])
  | tlbinvAs | tlbinvAll => exact decode_wR h (by simp [decodeMajor_tlbinv, decodeTlbinv])
  -- instructions without operands
  | tfence => exact decode_encBare h (decodeMajor_tfence (fOp_encBare ..))
  | opfence => exact decode_encBare h (decodeMajor_opfence (fOp_encBare ..))
  | ifence => exact decode_encBare h (decodeMajor_ifence (fOp_encBare ..))
  | exit => exact decode_encBare h (decodeMajor_exit (fOp_encBare ..))
  | bkoff => exact decode_encBare h (decodeMajor_bkoff (fOp_encBare ..))
  | nop => exact decode_encBare h (decodeMajor_nop (fOp_encBare ..))
  | gbar => exact decode_encBare h (decodeMajor_gbar (fOp_encBare ..))
  | eret => exact decode_encBare h (decodeMajor_eret (fOp_encBare ..))
  | sleep => exact decode_encBare h (decodeMajor_sleep (fOp_encBare ..))
  | reservedMajorOpcode w =>
    obtain ⟨hmajor, hg⟩ := Bool.and_eq_true_iff.1 h
    exact decode_unassigned (w := w) (by simpa using hmajor) (by simpa using hg)
  -- the rows without an instruction word are not well-formed
  | _ => cases h

/-! ### Fields put together -/

/-- Two parts of a field that lie next to each other. -/
theorem parts_join {n s t a b : Nat} {x : BitVec n} (h : t = s + b) :
    x.extractLsb' t a ++ x.extractLsb' s b = x.extractLsb' s (a + b) := BitVec.extractLsb'_append_extractLsb'_eq_extractLsb' h

@[simp] theorem bit_beq (x : BitVec 1) : bit (x == 1) = x := by revert x; decide

/-- A field whose upper part is zero. -/
theorem low_part {m n : Nat} {x : BitVec (m + n)} (h : x.extractLsb' n m = 0) : (0 : BitVec m) ++ x.extractLsb' 0 n = x := by
  rw [← h, parts_join (by omega), BitVec.extractLsb'_eq_self]

theorem low_part_toNat {m n : Nat} {x : BitVec (m + n)} (h : x.extractLsb' n m = 0) : (x.extractLsb' 0 n).toNat = x.toNat := by
  conv_rhs => rw [← low_part h, append_toNat]
  simp

/-- A field of two parts. -/
theorem two_parts {m n : Nat} {x : BitVec (m + n)} : x = x.extractLsb' n m ++ x.extractLsb' 0 n := by
  rw [parts_join (by omega), BitVec.extractLsb'_eq_self]

/-- A part of a part that is zero. -/
theorem zero_part {n k start len : Nat} {x : BitVec n} (h : x.extractLsb' 0 k = 0) (hle : start + len ≤ k) :
    x.extractLsb' start len = 0 := by
  rw [← BitVec.extractLsb'_extractLsb'_of_le hle, h]; exact BitVec.extractLsb'_zero

theorem bit1_eq_zero {x : BitVec 1} (h : ¬x = 1) : x = 0 := by revert x; decide

theorem eq_ofNat_of_toNat {n v : Nat} {x : BitVec n} (h : v = x.toNat) : x = BitVec.ofNat n v := by
  rw [h, BitVec.ofNat_toNat, BitVec.setWidth_eq]

/-! ### Words put together from their fields (R250) -/

theorem wPre_fields (w : BitVec 64) : wPre (fOp w) (fGuard w) (fD w) (fA w) (fB w) (w.extractLsb' 0 34) = w := by
  rw [wPre, fOp, fGuard, fD, fA, fB]
  simp only [bit_beq]
  rw [parts_join, parts_join, parts_join, parts_join, parts_join, parts_join, BitVec.extractLsb'_eq_self] <;> rfl

section words
variable {op : BitVec 8} {d a b c : BitVec 6} (hop : fOp w = op)
include hop

theorem wPre_eq {low : BitVec 34} (hd : fD w = d) (ha : fA w = a) (hb : fB w = b) (hlow : w.extractLsb' 0 34 = low) :
    wPre op (fGuard w) d a b low = w := by
  subst hop hd ha hb hlow
  exact wPre_fields w

theorem wR_eq {fn : BitVec 8} {rm ty : BitVec 4} {m : BitVec 12} (hd : fD w = d) (ha : fA w = a) (hb : fB w = b)
    (hc : fC w = c) (hfn : fFn w = fn) (hrm : fRm w = rm) (hty : fTy w = ty) (hm : fMod w = m) :
    wR op (fGuard w) d a b c fn rm ty m = w := by
  subst hc hfn hrm hty hm
  refine wPre_eq hop hd ha hb ?_
  rw [fC, fFn, fRm, fTy, fMod, parts_join, parts_join, parts_join, parts_join] <;> rfl

theorem wI_eq {imm : BitVec 32} (hd : fD w = d) (ha : fA w = a) (hb : fB w = b) (htop : fTop2 w = 0) (himm : fImm w = imm) :
    wI op (fGuard w) d a b imm = w := by
  subst himm
  refine wPre_eq hop hd ha hb ?_
  rw [← htop, fTop2, fImm, parts_join]; rfl

theorem wB_eq {hint : BitVec 2} {off : BitVec 32} (hd : fD w = d) (ha : fA w = 0) (hb : fB w = 0) (htop : fTop2 w = hint)
    (hoff : fImm w = off) : wB op (fGuard w) d hint off = w := by
  subst htop hoff
  refine wPre_eq hop hd ha hb ?_
  rw [fTop2, fImm, parts_join]; rfl

theorem wM_eq {sz o sc : BitVec 3} {sx : BitVec 1} {off : BitVec 24} (hd : fD w = d) (ha : fA w = a) (hb : fB w = 0)
    (hsz : fSz w = sz) (hsx : fSx w = sx) (ho : fOrd w = o) (hsc : fSc w = sc) (hoff : fOff w = off) :
    wM op (fGuard w) d a sz sx o sc off = w := by
  subst hsz hsx ho hsc hoff
  refine wPre_eq hop hd ha hb ?_
  rw [fSz, fSx, fOrd, fSc, fOff, parts_join, parts_join, parts_join, parts_join] <;> rfl

theorem wA_eq {fn : BitVec 8} {sz o sc : BitVec 3} (hd : fD w = d) (ha : fA w = a) (hb : fB w = b) (hc : fC w = c)
    (hfn : fFn w = fn) (hsz : fASz w = sz) (ho : fAOrd w = o) (hsc : fASc w = sc) (hlow : fALow w = 0) :
    wA op (fGuard w) d a b c fn sz o sc = w := by
  subst hc hfn hsz ho hsc
  refine wPre_eq hop hd ha hb ?_
  rw [← hlow, fC, fFn, fASz, fAOrd, fASc, fALow, parts_join, parts_join, parts_join, parts_join, parts_join] <;> rfl

theorem wX_eq {ring : BitVec 2} {flags : BitVec 6} {fid : BitVec 4} {imm : BitVec 16} (hd : fD w = 0) (ha : fA w = a)
    (hb : fB w = b) (hc : fC w = 0) (hring : fRing w = ring) (hflags : fFlags w = flags) (hfid : fRm w = fid)
    (himm : fImm16 w = imm) : wX op (fGuard w) a b ring flags fid imm = w := by
  subst hring hflags hfid himm
  refine wPre_eq hop hd ha hb ?_
  rw [← hc, fC, fRing, fFlags, fRm, fImm16, parts_join, parts_join, parts_join, parts_join] <;> rfl

theorem wS_eq {sys : BitVec 12} (hd : fD w = d) (ha : fA w = a) (hb : fB w = 0) (hsys : fSys w = sys) (hlow : fImm22 w = 0) :
    wS op (fGuard w) d a sys = w := by
  subst hsys
  refine wPre_eq hop hd ha hb ?_
  rw [← hlow, fSys, fImm22, parts_join]; rfl

end words

/-! ### Codes that name a value -/

theorem Cond.code_of_ofCode {n : Nat} {x : Cond} (h : Cond.ofCode n = some x) : x.code = n := by
  unfold Cond.ofCode at h; split at h <;> cases h <;> rfl
theorem FCond.code_of_ofCode {n : Nat} {x : FCond} (h : FCond.ofCode n = some x) : x.code = n := by
  unfold FCond.ofCode at h; split at h <;> cases h <;> rfl
theorem FType.code_of_ofCode {n : Nat} {x : FType} (h : FType.ofCode n = some x) : x.code = n := by
  unfold FType.ofCode at h; split at h <;> cases h <;> rfl
theorem FloatCode.code_of_ofCode {n : Nat} {x : FloatCode} (h : FloatCode.ofCode n = some x) : x.code = n := by
  unfold FloatCode.ofCode at h; split at h <;> cases h <;> rfl
theorem IntCode.code_of_ofCode {n : Nat} {x : IntCode} (h : IntCode.ofCode n = some x) : x.code = n := by
  unfold IntCode.ofCode at h; split at h <;> cases h <;> rfl
theorem PackedCode.code_of_ofCode {n : Nat} {x : PackedCode} (h : PackedCode.ofCode n = some x) : x.code = n := by
  unfold PackedCode.ofCode at h; split at h <;> cases h <;> rfl
theorem Rm.code_of_ofCode {n : Nat} {x : Rm} (h : Rm.ofCode n = some x) : x.code = n := by
  unfold Rm.ofCode at h; split at h <;> cases h <;> rfl
theorem RedOp.code_of_ofCode {n : Nat} {x : RedOp} (h : RedOp.ofCode n = some x) : x.code = n := by
  unfold RedOp.ofCode at h; split at h <;> cases h <;> rfl
theorem MemSize.code_of_ofCode {n : Nat} {x : MemSize} (h : MemSize.ofCode n = some x) : x.code = n := by
  unfold MemSize.ofCode at h; split at h <;> cases h <;> rfl
theorem AmoSize.code_of_ofCode {n : Nat} {x : AmoSize} (h : AmoSize.ofCode n = some x) : x.code = n := by
  unfold AmoSize.ofCode at h; split at h <;> cases h <;> rfl
theorem Ord.code_of_ofCode {n : Nat} {x : Ord} (h : Ord.ofCode n = some x) : x.code = n := by
  unfold Ord.ofCode at h; split at h <;> cases h <;> rfl
theorem Scope.code_of_ofCode {n : Nat} {x : Scope} (h : Scope.ofCode n = some x) : x.code = n := by
  unfold Scope.ofCode at h; split at h <;> cases h <;> rfl
theorem PrefKind.code_of_ofCode {n : Nat} {x : PrefKind} (h : PrefKind.ofCode n = some x) : x.code = n := by
  unfold PrefKind.ofCode at h; split at h <;> cases h <;> rfl
theorem BrHint.code_of_ofCode {n : Nat} {x : BrHint} (h : BrHint.ofCode n = some x) : x.code = n := by
  unfold BrHint.ofCode at h; split at h <;> cases h <;> rfl
theorem JalrHint.code_of_ofCode {n : Nat} {x : JalrHint} (h : JalrHint.ofCode n = some x) : x.code = n := by
  unfold JalrHint.ofCode at h; split at h <;> cases h <;> rfl
theorem SysReg.code_of_ofCode {n : Nat} {x : SysReg} (h : SysReg.ofCode n = some x) : x.code = n := by
  unfold SysReg.ofCode at h; split at h <;> cases h <;> rfl
theorem redType_bit_of_some {n : Nat} {x : Bool} (h : redType n = some x) : (0#3 ++ bit x : BitVec 4).toNat = n := by
  unfold redType at h; split at h <;> cases h <;> rfl
@[simp] theorem ShflMode.code_ofCode (c : BitVec 2) : (ShflMode.ofCode c).code = c := by revert c; decide
@[simp] theorem VoteMode.code_ofCode (c : BitVec 2) : (VoteMode.ofCode c).code = c := by revert c; decide

/-! ### What the decoder's checks accept -/

@[simp] theorem need_eq_ok {c : Bool} {e : DecodeError} {k : Decoded} {i : Instr} : need c e k = .ok i ↔ c = true ∧ k = .ok i := by
  cases c <;> simp [need]

@[simp] theorem zeros_eq_ok {c : Bool} {k : Decoded} {i : Instr} : zeros c k = .ok i ↔ c = true ∧ k = .ok i := need_eq_ok

@[simp] theorem code_eq_ok {α : Type} {o : Option α} {k : α → Decoded} {i : Instr} :
    code o k = .ok i ↔ ∃ x, o = some x ∧ k x = .ok i := by
  cases o <;> simp [code]

@[simp] theorem pred_eq_ok {r : BitVec 6} {k : Pred → Decoded} {i : Instr} :
    pred r k = .ok i ↔ ∃ p, r = predReg p ∧ k p = .ok i := by
  constructor
  · intro h
    obtain ⟨hz, h⟩ := need_eq_ok.1 h
    exact ⟨_, (low_part (m := 3) (n := 3) (eq_of_beq hz)).symm, h⟩
  · rintro ⟨p, rfl, h⟩
    simpa [pred] using h

/-! ### What each decoder accepts -/

/-- `w` is the word of the well-formed instruction `i`. -/
def IsWordOf (w : BitVec 64) (i : Instr) : Prop := WellFormed i = true ∧ encode i = w

section majors
variable {i : Instr} (hwf : (fGuard w).wf = true)
include hwf

theorem decodeInt_sound (hop : fOp w = 0x01) (h : decodeInt w (fGuard w) = .ok i) : IsWordOf w i := by
  simp only [decodeInt, zeros_eq_ok, Bool.and_eq_true, beq_iff_eq] at h
  obtain ⟨⟨⟨hc, hrm⟩, hty⟩, h⟩ := h
  have word {n : Nat} {b : Reg} {m : BitVec 12} (hfn : (fFn w).toNat = n) (hb : fB w = b) (hm : fMod w = m) :
      encInt (BitVec.ofNat 8 n) (fGuard w) (fD w) (fA w) b m = w :=
    wR_eq hop rfl rfl hb hc (eq_ofNat_of_toNat hfn.symm) hrm hty hm
  split at h <;> simp only [zeros_eq_ok, need_eq_ok, Bool.and_eq_true, beq_iff_eq, Except.ok.injEq, reduceCtorEq] at h
  -- SEL and LEA; SEXT and ZEXT; CLZ, POPC and BREV; BFX; BFI
  case h_17 | h_18 =>
    next hfn =>
      obtain ⟨hm, rfl⟩ := h
      exact ⟨hwf, word hfn rfl (low_part (m := 9) hm).symm⟩
  case h_19 | h_20 =>
    next hfn =>
      obtain ⟨⟨hb, hm⟩, rfl⟩ := h
      exact ⟨hwf, word hfn hb (low_part (m := 6) hm).symm⟩
  case h_21 | h_22 | h_23 =>
    next hfn =>
      obtain ⟨⟨hb, hm⟩, rfl⟩ := h
      exact ⟨hwf, word hfn hb hm⟩
  case h_24 =>
    next hfn =>
      obtain ⟨hb, hlen, rfl⟩ := h
      exact ⟨Bool.and_eq_true_iff.2 ⟨hwf, hlen⟩, word hfn hb (two_parts (m := 6) (n := 6))⟩
  case h_25 =>
    next hfn =>
      obtain ⟨hlen, rfl⟩ := h
      exact ⟨Bool.and_eq_true_iff.2 ⟨hwf, hlen⟩, word hfn rfl (two_parts (m := 6) (n := 6))⟩
  all_goals
    next hfn =>
      obtain ⟨hm, rfl⟩ := h
      exact ⟨hwf, word hfn rfl hm⟩

theorem decodeMuldiv_sound (hop : fOp w = 0x02) (h : decodeMuldiv w (fGuard w) = .ok i) : IsWordOf w i := by
  simp only [decodeMuldiv, zeros_eq_ok, Bool.and_eq_true, beq_iff_eq] at h
  obtain ⟨⟨⟨⟨hc, hrm⟩, hty⟩, hm⟩, h⟩ := h
  split at h <;> cases h
  all_goals
    next hfn => exact ⟨hwf, wR_eq hop rfl rfl rfl hc (eq_ofNat_of_toNat hfn.symm) hrm hty hm⟩

/-- A form with an immediate, of the registers d and a. -/
theorem immForm_sound {op : BitVec 8} {a : Reg} {j : Instr} (hop : fOp w = op) (ha : fA w = a) (hj : WellFormed j = (fGuard w).wf)
    (he : encode j = wI op (fGuard w) (fD w) a 0 (fImm w)) (h : immForm w (.ok j) = .ok i) : IsWordOf w i := by
  simp only [immForm, zeros_eq_ok, Bool.and_eq_true, beq_iff_eq] at h
  obtain ⟨⟨hb, htop⟩, h⟩ := h
  cases h
  exact ⟨hj.trans hwf, he.trans (wI_eq hop rfl ha hb htop rfl)⟩

theorem movForm_sound {op : BitVec 8} {j : Instr} (hop : fOp w = op) (hj : WellFormed j = (fGuard w).wf)
    (he : encode j = wI op (fGuard w) (fD w) 0 0 (fImm w)) (h : immForm w (zeros (fA w == 0) (.ok j)) = .ok i) : IsWordOf w i := by
  simp only [immForm, zeros_eq_ok, Bool.and_eq_true, beq_iff_eq] at h
  obtain ⟨⟨hb, htop⟩, ha, h⟩ := h
  cases h
  exact ⟨hj.trans hwf, he.trans (wI_eq hop rfl ha hb htop rfl)⟩

theorem shiftForm_sound {op : BitVec 8} {j : BitVec 6 → Instr} (hop : fOp w = op) (hj : ∀ n, WellFormed (j n) = (fGuard w).wf)
    (he : ∀ n, encode (j n) = wI op (fGuard w) (fD w) (fA w) 0 ((0 : BitVec 26) ++ n))
    (h : (shiftForm w fun n => .ok (j n)) = .ok i) : IsWordOf w i := by
  simp only [shiftForm, immForm, zeros_eq_ok, Bool.and_eq_true, beq_iff_eq] at h
  obtain ⟨⟨hb, htop⟩, himm, h⟩ := h
  cases h
  exact ⟨(hj _).trans hwf, (he _).trans (wI_eq hop rfl rfl hb htop (low_part (m := 26) himm).symm)⟩

theorem decodePcmp_sound (hop : fOp w = 0x20) (h : decodePcmp w (fGuard w) = .ok i) : IsWordOf w i := by
  simp only [decodePcmp, zeros_eq_ok, code_eq_ok, pred_eq_ok, Bool.and_eq_true, beq_iff_eq] at h
  obtain ⟨⟨⟨⟨hc, hrm⟩, hty⟩, hm⟩, cc, hcc, d, hd, h⟩ := h
  cases h
  exact ⟨hwf, wR_eq hop hd rfl rfl hc (eq_ofNat_of_toNat (Cond.code_of_ofCode hcc)) hrm hty hm⟩

theorem decodePcmpi_sound (hop : fOp w = 0x21) (h : decodePcmpi w (fGuard w) = .ok i) : IsWordOf w i := by
  simp only [decodePcmpi, zeros_eq_ok, code_eq_ok, pred_eq_ok, beq_iff_eq] at h
  obtain ⟨htop, cc, hcc, d, hd, h⟩ := h
  cases h
  exact ⟨hwf, wI_eq hop hd rfl (eq_ofNat_of_toNat (Cond.code_of_ofCode hcc)) htop rfl⟩

theorem decodePlop_sound (hop : fOp w = 0x22) (h : decodePlop w (fGuard w) = .ok i) : IsWordOf w i := by
  simp only [decodePlop, zeros_eq_ok, pred_eq_ok, Bool.and_eq_true, beq_iff_eq] at h
  obtain ⟨⟨⟨⟨hfn, hrm⟩, hty⟩, hm⟩, d, hd, a, ha, b, hb, c, hc, h⟩ := h
  cases h
  exact ⟨hwf, wR_eq hop hd ha hb hc hfn hrm hty (low_part (m := 4) hm).symm⟩

theorem decodeFcmp_sound (hop : fOp w = 0x23) (h : decodeFcmp w (fGuard w) = .ok i) : IsWordOf w i := by
  simp only [decodeFcmp, zeros_eq_ok, code_eq_ok, pred_eq_ok, Bool.and_eq_true, beq_iff_eq] at h
  obtain ⟨⟨⟨hc, hrm⟩, hm⟩, cc, hcc, t, ht, d, hd, h⟩ := h
  cases h
  exact ⟨hwf, wR_eq hop hd rfl rfl hc (eq_ofNat_of_toNat (FCond.code_of_ofCode hcc)) hrm
    (eq_ofNat_of_toNat (FloatCode.code_of_ofCode ht)) hm⟩

theorem decodeFp_sound (hop : fOp w = 0x30) (h : decodeFp w (fGuard w) = .ok i) : IsWordOf w i := by
  simp only [decodeFp, zeros_eq_ok, code_eq_ok, beq_iff_eq] at h
  obtain ⟨hm, t, ht, rm, hrm, h⟩ := h
  have word {n : Nat} {b c : Reg} (hfn : (fFn w).toNat = n) (hb : fB w = b) (hc : fC w = c) :
      encFp (BitVec.ofNat 8 n) (fGuard w) t rm (fD w) (fA w) b c = w :=
    wR_eq hop rfl rfl hb hc (eq_ofNat_of_toNat hfn.symm) (eq_ofNat_of_toNat (Rm.code_of_ofCode hrm))
      (eq_ofNat_of_toNat (FType.code_of_ofCode ht)) hm
  split at h <;> simp only [zeros_eq_ok, Bool.and_eq_true, beq_iff_eq, Except.ok.injEq, reduceCtorEq] at h
  -- FFMA; FMIN and FMAX; the forms of one source; FCLASS
  case h_4 =>
    next hfn =>
      cases h
      exact ⟨hwf, word hfn rfl rfl⟩
  case h_5 | h_6 =>
    next hfn =>
      obtain ⟨⟨hc, rfl⟩, rfl⟩ := h
      exact ⟨hwf, word hfn rfl hc⟩
  case h_8 | h_9 | h_10 | h_11 | h_12 =>
    next hfn =>
      obtain ⟨⟨hc, hb⟩, rfl⟩ := h
      exact ⟨hwf, word hfn hb hc⟩
  case h_13 =>
    next hfn =>
      obtain ⟨⟨⟨hc, hb⟩, rfl⟩, rfl⟩ := h
      exact ⟨hwf, word hfn hb hc⟩
  all_goals
    next hfn =>
      obtain ⟨hc, rfl⟩ := h
      exact ⟨hwf, word hfn rfl hc⟩

theorem decodeCvt_sound (hop : fOp w = 0x40) (h : decodeCvt w (fGuard w) = .ok i) : IsWordOf w i := by
  simp only [decodeCvt, zeros_eq_ok, code_eq_ok, Bool.and_eq_true, beq_iff_eq] at h
  obtain ⟨⟨hb, hc⟩, rm, hrm, h⟩ := h
  have word {n ty : Nat} {m : BitVec 12} (hfn : (fFn w).toNat = n) (hty : ty = (fTy w).toNat) (hm : fMod w = m) :
      wR 0x40 (fGuard w) (fD w) (fA w) 0 0 (BitVec.ofNat 8 n) (BitVec.ofNat 4 rm.code) (BitVec.ofNat 4 ty) m = w :=
    wR_eq hop rfl rfl hb hc (eq_ofNat_of_toNat hfn.symm) (eq_ofNat_of_toNat (Rm.code_of_ofCode hrm)) (eq_ofNat_of_toNat hty) hm
  split at h <;> simp only [zeros_eq_ok, need_eq_ok, code_eq_ok, Bool.and_eq_true, beq_iff_eq, Except.ok.injEq, reduceCtorEq] at h
  case h_1 =>
    next hfn =>
      obtain ⟨hm, dst, hdst, src, hsrc, rfl⟩ := h
      refine ⟨hwf, word hfn (FloatCode.code_of_ofCode hdst) (eq_ofNat_of_toNat ?_)⟩
      exact (FloatCode.code_of_ofCode hsrc).trans (low_part_toNat (m := 8) (n := 4) hm)
  case h_2 =>
    next hfn =>
      obtain ⟨hm, f, hf, ic, hic, rfl⟩ := h
      refine ⟨hwf, word hfn (FloatCode.code_of_ofCode hf) ?_⟩
      rw [bit_beq, ← eq_ofNat_of_toNat (IntCode.code_of_ofCode hic), ← hm, parts_join, parts_join, BitVec.extractLsb'_eq_self] <;> rfl
  case h_3 =>
    next hfn =>
      obtain ⟨hm, dst, hdst, src, hsrc, ⟨hrm, hpart⟩, rfl⟩ := h
      refine ⟨by simp [WellFormed, hwf, hrm, hpart], word hfn (PackedCode.code_of_ofCode hdst) ?_⟩
      rw [← eq_ofNat_of_toNat (PackedCode.code_of_ofCode hsrc), ← hm, parts_join, parts_join, BitVec.extractLsb'_eq_self] <;> rfl

theorem decodePack_sound (hop : fOp w = 0x41) (h : decodePack w (fGuard w) = .ok i) : IsWordOf w i := by
  simp only [decodePack, zeros_eq_ok, code_eq_ok, beq_iff_eq] at h
  obtain ⟨hm, rm, hrm, t, ht, h⟩ := h
  split at h <;> simp only [need_eq_ok, Bool.and_eq_true, Except.ok.injEq, reduceCtorEq] at h
  all_goals
    next hfn =>
      obtain ⟨⟨hform, hmode⟩, rfl⟩ := h
      exact ⟨by simp [WellFormed, hwf, hform, hmode], wR_eq hop rfl rfl rfl rfl (eq_ofNat_of_toNat hfn.symm)
        (eq_ofNat_of_toNat (Rm.code_of_ofCode hrm)) (eq_ofNat_of_toNat (PackedCode.code_of_ofCode ht)) hm⟩

theorem decodeXlane_sound (hop : fOp w = 0x50) (h : decodeXlane w (fGuard w) = .ok i) : IsWordOf w i := by
  have word {n : Nat} {b : Reg} {rm ty : BitVec 4} {m : BitVec 12} (hfn : (fFn w).toNat = n) (hb : fB w = b) (hrm : fRm w = rm)
      (hty : fTy w = ty) (hm : fMod w = m) :
      wR 0x50 (fGuard w) (fD w) (fA w) b (fC w) (BitVec.ofNat 8 n) rm ty m = w :=
    wR_eq hop rfl rfl hb rfl (eq_ofNat_of_toNat hfn.symm) hrm hty hm
  unfold decodeXlane at h
  dsimp only at h
  split at h
  case h_1 =>
    next hfn =>
      simp only [zeros_eq_ok, Bool.and_eq_true, beq_iff_eq, Except.ok.injEq] at h
      obtain ⟨⟨⟨hrm, hty⟩, hm⟩, rfl⟩ := h
      refine ⟨hwf, word hfn rfl hrm hty ?_⟩
      rw [ShflMode.code_ofCode, low_part (m := 10) (n := 2) hm]
  case h_2 =>
    next hfn =>
      simp only [zeros_eq_ok, Bool.and_eq_true, beq_iff_eq, Except.ok.injEq] at h
      obtain ⟨⟨⟨⟨⟨hrm, hty⟩, hb⟩, hm⟩, hmode⟩, rfl⟩ := h
      refine ⟨Bool.and_eq_true_iff.2 ⟨hwf, hmode⟩, word hfn hb hrm hty ?_⟩
      rw [VoteMode.code_ofCode, ← hm, parts_join, parts_join, BitVec.extractLsb'_eq_self] <;> rfl
  case h_3 =>
    next hfn =>
      simp only [zeros_eq_ok, need_eq_ok, code_eq_ok, Bool.and_eq_true, beq_iff_eq, Except.ok.injEq] at h
      obtain ⟨⟨hb, hm⟩, op, hred, dbl, hdbl, rm, hrm, hok, rfl⟩ := h
      refine ⟨Bool.and_eq_true_iff.2 ⟨hwf, hok⟩, word hfn hb (eq_ofNat_of_toNat (Rm.code_of_ofCode hrm))
        (BitVec.eq_of_toNat_eq (redType_bit_of_some hdbl).symm) ?_⟩
      rw [← eq_ofNat_of_toNat (RedOp.code_of_ofCode hred), low_part (m := 8) (n := 4) hm]
  case h_4 =>
    next hfn =>
      simp only [zeros_eq_ok, need_eq_ok, code_eq_ok, Bool.and_eq_true, beq_iff_eq, Except.ok.injEq] at h
      obtain ⟨⟨hb, hm⟩, op, hred, dbl, hdbl, rm, hrm, hok, rfl⟩ := h
      refine ⟨Bool.and_eq_true_iff.2 ⟨hwf, hok⟩, word hfn hb (eq_ofNat_of_toNat (Rm.code_of_ofCode hrm))
        (BitVec.eq_of_toNat_eq (redType_bit_of_some hdbl).symm) ?_⟩
      rw [bit_beq, ← eq_ofNat_of_toNat (RedOp.code_of_ofCode hred), ← hm, parts_join, parts_join, BitVec.extractLsb'_eq_self] <;> rfl
  case h_5 => cases h

theorem decodeLd_sound (hop : fOp w = 0x60) (h : decodeLd w (fGuard w) = .ok i) : IsWordOf w i := by
  simp only [decodeLd, zeros_eq_ok, need_eq_ok, code_eq_ok, Bool.and_eq_true, beq_iff_eq] at h
  obtain ⟨hb, sz, hsz, o, ho, sc, hsc, ⟨⟨hsx, hord⟩, hd⟩, h⟩ := h
  cases h
  have hok := Bool.and_eq_true_iff.2 ⟨Bool.and_eq_true_iff.2 ⟨Bool.and_eq_true_iff.2 ⟨hwf, hsx⟩, hord⟩, hd⟩
  exact ⟨hok, wM_eq hop rfl rfl hb (eq_ofNat_of_toNat (MemSize.code_of_ofCode hsz))
    (bit_beq _).symm (eq_ofNat_of_toNat (Ord.code_of_ofCode ho)) (eq_ofNat_of_toNat (Scope.code_of_ofCode hsc)) rfl⟩

theorem decodeSt_sound (hop : fOp w = 0x61) (h : decodeSt w (fGuard w) = .ok i) : IsWordOf w i := by
  simp only [decodeSt, zeros_eq_ok, need_eq_ok, code_eq_ok, Bool.and_eq_true, beq_iff_eq] at h
  obtain ⟨⟨hb, hsx⟩, sz, hsz, o, ho, sc, hsc, ⟨hord, hd⟩, h⟩ := h
  cases h
  exact ⟨by simp [WellFormed, hwf, hord, hd], wM_eq hop rfl rfl hb (eq_ofNat_of_toNat (MemSize.code_of_ofCode hsz))
    hsx (eq_ofNat_of_toNat (Ord.code_of_ofCode ho)) (eq_ofNat_of_toNat (Scope.code_of_ofCode hsc)) rfl⟩

theorem decodePref_sound (hop : fOp w = 0x64) (h : decodePref w (fGuard w) = .ok i) : IsWordOf w i := by
  simp only [decodePref, zeros_eq_ok, code_eq_ok, Bool.and_eq_true, beq_iff_eq] at h
  obtain ⟨⟨⟨⟨⟨hb, hd⟩, hsx⟩, ho⟩, hsc⟩, k, hk, h⟩ := h
  cases h
  exact ⟨hwf, wM_eq hop hd rfl hb (eq_ofNat_of_toNat (PrefKind.code_of_ofCode hk)) hsx ho hsc rfl⟩

theorem decodeAmo_sound (hop : fOp w = 0x62) (h : decodeAmo w (fGuard w) = .ok i) : IsWordOf w i := by
  simp only [decodeAmo, zeros_eq_ok, need_eq_ok, code_eq_ok, Bool.and_eq_true, beq_iff_eq] at h
  obtain ⟨⟨hc, hlow⟩, sz, hsz, o, ho, sc, hsc, hord, h⟩ := h
  have word {n : Nat} (hfn : (fFn w).toNat = n) : encAmo (BitVec.ofNat 8 n) (fGuard w) sz o sc (fD w) (fA w) (fB w) = w :=
    wA_eq hop rfl rfl rfl hc (eq_ofNat_of_toNat hfn.symm) (eq_ofNat_of_toNat (AmoSize.code_of_ofCode hsz))
      (eq_ofNat_of_toNat (Ord.code_of_ofCode ho)) (eq_ofNat_of_toNat (Scope.code_of_ofCode hsc)) hlow
  split at h
  case h_11 => cases h
  case h_10 =>
    next hfn =>
      simp only [need_eq_ok, beq_iff_eq, Except.ok.injEq] at h
      obtain ⟨rfl, rfl⟩ := h
      exact ⟨Bool.and_eq_true_iff.2 ⟨hwf, hord⟩, word hfn⟩
  all_goals
    next hfn =>
      cases h
      exact ⟨Bool.and_eq_true_iff.2 ⟨hwf, hord⟩, word hfn⟩

theorem decodeCas_sound (hop : fOp w = 0x63) (h : decodeCas w (fGuard w) = .ok i) : IsWordOf w i := by
  simp only [decodeCas, zeros_eq_ok, need_eq_ok, code_eq_ok, Bool.and_eq_true, beq_iff_eq] at h
  obtain ⟨⟨hfn, hlow⟩, sz, hsz, o, ho, sc, hsc, hord, h⟩ := h
  cases h
  exact ⟨Bool.and_eq_true_iff.2 ⟨hwf, hord⟩, wA_eq hop rfl rfl rfl rfl hfn (eq_ofNat_of_toNat (AmoSize.code_of_ofCode hsz))
    (eq_ofNat_of_toNat (Ord.code_of_ofCode ho)) (eq_ofNat_of_toNat (Scope.code_of_ofCode hsc)) hlow⟩

theorem decodeFence_sound (hop : fOp w = 0x70) (h : decodeFence w (fGuard w) = .ok i) : IsWordOf w i := by
  simp only [decodeFence, zeros_eq_ok, need_eq_ok, code_eq_ok, Bool.and_eq_true, beq_iff_eq] at h
  obtain ⟨⟨⟨⟨⟨hd, ha⟩, hb⟩, hlow⟩, hsys⟩, sc, hsc, hf, h⟩ := h
  cases h
  refine ⟨Bool.and_eq_true_iff.2 ⟨hwf, hf⟩, wS_eq hop hd ha hb ?_ hlow⟩
  simp only [FenceSpec.code, bit_beq]
  rw [← eq_ofNat_of_toNat (Scope.code_of_ofCode hsc), ← hsys, parts_join, parts_join, parts_join, parts_join, parts_join, parts_join,
    BitVec.extractLsb'_eq_self] <;> rfl

/-- A word without operands. -/
theorem bare_sound {op : BitVec 8} {j : Instr} (hop : fOp w = op) (hj : WellFormed j = (fGuard w).wf)
    (he : encode j = encBare op (fGuard w)) (h : bare w j = .ok i) : IsWordOf w i := by
  obtain ⟨hz, h⟩ := zeros_eq_ok.1 h
  cases h
  have zero (start len : Nat) (hle : start + len ≤ 52) : w.extractLsb' start len = 0 := zero_part (eq_of_beq hz) hle
  exact ⟨hj.trans hwf, he.trans (wPre_eq hop (zero 46 6 (by omega)) (zero 40 6 (by omega)) (zero 34 6 (by omega)) (zero 0 34 (by omega)))⟩

theorem decodeCacheOp_sound {op : BitVec 8} {j : Scope → Instr} (hop : fOp w = op) (hj : ∀ sc, WellFormed (j sc) = (fGuard w).wf)
    (he : ∀ sc, encode (j sc) = encCacheOp op (fGuard w) sc (fA w) (fOff w)) (h : decodeCacheOp w j = .ok i) : IsWordOf w i := by
  simp only [decodeCacheOp, zeros_eq_ok, code_eq_ok, Bool.and_eq_true, beq_iff_eq] at h
  obtain ⟨⟨⟨⟨⟨hd, hb⟩, hsz⟩, hsx⟩, ho⟩, sc, hsc, h⟩ := h
  cases h
  exact ⟨(hj sc).trans hwf, (he sc).trans (wM_eq hop hd rfl hb hsz hsx ho (eq_ofNat_of_toNat (Scope.code_of_ofCode hsc)) rfl)⟩

theorem decodeBr_sound (hop : fOp w = 0x80) (h : decodeBr w (fGuard w) = .ok i) : IsWordOf w i := by
  simp only [decodeBr, zeros_eq_ok, code_eq_ok, Bool.and_eq_true, beq_iff_eq] at h
  obtain ⟨⟨⟨hd, ha⟩, hb⟩, k, hk, h⟩ := h
  cases h
  exact ⟨hwf, wB_eq hop hd ha hb (eq_ofNat_of_toNat (BrHint.code_of_ofCode hk)) rfl⟩

theorem decodeJal_sound (hop : fOp w = 0x81) (h : decodeJal w (fGuard w) = .ok i) : IsWordOf w i := by
  simp only [decodeJal, zeros_eq_ok, need_eq_ok, Bool.and_eq_true, Bool.or_eq_true, beq_iff_eq] at h
  obtain ⟨⟨ha, hb⟩, htop, h⟩ := h
  cases h
  refine ⟨hwf, wB_eq hop rfl ha hb ?_ rfl⟩
  rcases htop with htop | htop <;> rw [htop] <;> rfl

theorem decodeJalr_sound (hop : fOp w = 0x82) (h : decodeJalr w (fGuard w) = .ok i) : IsWordOf w i := by
  simp only [decodeJalr, zeros_eq_ok, code_eq_ok, Bool.and_eq_true, beq_iff_eq] at h
  obtain ⟨⟨htop, hb⟩, k, hk, h⟩ := h
  cases h
  refine ⟨hwf, wI_eq hop rfl rfl ?_ htop rfl⟩
  rw [← eq_ofNat_of_toNat (JalrHint.code_of_ofCode hk), low_part (m := 4) (n := 2) hb]

theorem decodeJoin_sound (hop : fOp w = 0x83) (h : decodeJoin w (fGuard w) = .ok i) : IsWordOf w i := by
  simp only [decodeJoin, zeros_eq_ok, Bool.and_eq_true, beq_iff_eq] at h
  obtain ⟨⟨⟨⟨⟨⟨⟨hd, ha⟩, hb⟩, hc⟩, hrm⟩, hty⟩, hm⟩, h⟩ := h
  split at h <;> cases h
  all_goals
    next hfn => exact ⟨hwf, wR_eq hop hd ha hb hc (eq_ofNat_of_toNat hfn.symm) hrm hty (low_part (m := 9) hm).symm⟩

omit hwf in
/-- A word of an immediate alone. -/
theorem immOnly_word {op : BitVec 8} {k : BitVec 32 → Decoded} (hop : fOp w = op) (h : immOnly w k = .ok i) :
    k (fImm w) = .ok i ∧ ∀ {imm : BitVec 32}, fImm w = imm → wI op (fGuard w) 0 0 0 imm = w := by
  simp only [immOnly, zeros_eq_ok, Bool.and_eq_true, beq_iff_eq] at h
  obtain ⟨⟨⟨⟨hd, ha⟩, hb⟩, htop⟩, h⟩ := h
  exact ⟨h, wI_eq hop hd ha hb htop⟩

theorem decodeYield_sound (hop : fOp w = 0x84) (h : decodeYield w (fGuard w) = .ok i) : IsWordOf w i := by
  obtain ⟨h, word⟩ := immOnly_word hop h
  simp only [zeros_eq_ok, beq_iff_eq, Except.ok.injEq] at h
  obtain ⟨himm, rfl⟩ := h
  have hlow := low_part (m := 31) (n := 1) himm
  split
  next hbit => exact ⟨hwf, word (by rw [← hlow, hbit]; rfl)⟩
  next hbit => exact ⟨hwf, word (by rw [← hlow, bit1_eq_zero hbit]; rfl)⟩

theorem decodeWaitc_sound (hop : fOp w = 0x90) (h : decodeWaitc w (fGuard w) = .ok i) : IsWordOf w i := by
  obtain ⟨h, word⟩ := immOnly_word hop h
  simp only [zeros_eq_ok, beq_iff_eq, Except.ok.injEq] at h
  obtain ⟨himm, rfl⟩ := h
  refine ⟨hwf, word ?_⟩
  rw [← himm, parts_join, parts_join, parts_join, parts_join, BitVec.extractLsb'_eq_self] <;> rfl

theorem decodeCbwait_sound (hop : fOp w = 0x91) (h : decodeCbwait w (fGuard w) = .ok i) : IsWordOf w i := by
  simp only [decodeCbwait, zeros_eq_ok, Bool.and_eq_true, beq_iff_eq, Except.ok.injEq] at h
  obtain ⟨⟨⟨⟨ha, hb⟩, htop⟩, himm⟩, rfl⟩ := h
  have himm : fImm w = (0 : BitVec 27) ++ (fImm w).extractLsb' 4 1 ++ (fImm w).extractLsb' 0 4 := by
    rw [← himm, parts_join, parts_join, BitVec.extractLsb'_eq_self] <;> rfl
  split
  next hbit => exact ⟨hwf, wI_eq hop rfl ha hb htop (himm.trans (by rw [hbit]))⟩
  next hbit => exact ⟨hwf, wI_eq hop rfl ha hb htop (himm.trans (by rw [bit1_eq_zero hbit]; rfl))⟩

theorem decodeCb_sound {op : BitVec 8} {j : BitVec 4 → Instr} (hop : fOp w = op) (hj : ∀ k, WellFormed (j k) = (fGuard w).wf)
    (he : ∀ k, encode (j k) = wI op (fGuard w) 0 0 0 ((0 : BitVec 28) ++ k)) (h : decodeCb w j = .ok i) : IsWordOf w i := by
  obtain ⟨h, word⟩ := immOnly_word hop h
  simp only [zeros_eq_ok, beq_iff_eq, Except.ok.injEq] at h
  obtain ⟨himm, rfl⟩ := h
  exact ⟨(hj _).trans hwf, (he _).trans (word (low_part (m := 28) himm).symm)⟩

theorem decodeFidset_sound (hop : fOp w = 0xA8) (h : decodeFidset w (fGuard w) = .ok i) : IsWordOf w i := by
  obtain ⟨h, word⟩ := immOnly_word hop h
  simp only [zeros_eq_ok, beq_iff_eq, Except.ok.injEq] at h
  obtain ⟨himm, rfl⟩ := h
  exact ⟨hwf, word (low_part (m := 28) himm).symm⟩

theorem decodeTrap_sound {op : BitVec 8} {j : BitVec 16 → Instr} (hop : fOp w = op) (hj : ∀ n, WellFormed (j n) = (fGuard w).wf)
    (he : ∀ n, encode (j n) = wI op (fGuard w) 0 0 0 ((0 : BitVec 16) ++ n)) (h : decodeTrap w j = .ok i) : IsWordOf w i := by
  obtain ⟨h, word⟩ := immOnly_word hop h
  simp only [zeros_eq_ok, beq_iff_eq, Except.ok.injEq] at h
  obtain ⟨himm, rfl⟩ := h
  exact ⟨(hj _).trans hwf, (he _).trans (word (low_part (m := 16) himm).symm)⟩

theorem decodeGrow_sound {op : BitVec 8} {j : BitVec 3 → Instr} (hop : fOp w = op)
    (hj : ∀ n, WellFormed (j n) = ((fGuard w).wf && decide (1 ≤ n.toNat) && decide (n.toNat ≤ 6)))
    (he : ∀ n, encode (j n) = wI op (fGuard w) 0 0 0 ((0 : BitVec 26) ++ n ++ (0 : BitVec 3))) (h : decodeGrow w j = .ok i) :
    IsWordOf w i := by
  obtain ⟨h, word⟩ := immOnly_word hop h
  simp only [need_eq_ok, Bool.and_eq_true, beq_iff_eq, Except.ok.injEq] at h
  obtain ⟨⟨⟨⟨htop, hlow⟩, hlo⟩, hhi⟩, rfl⟩ := h
  refine ⟨(hj _).trans (by rw [hwf, hlo, hhi]; rfl), (he _).trans (word ?_)⟩
  rw [← htop, ← hlow, parts_join, parts_join, BitVec.extractLsb'_eq_self] <;> rfl

theorem decodeMigrate_sound (hop : fOp w = 0xA0) (h : decodeMigrate w (fGuard w) = .ok i) : IsWordOf w i := by
  simp only [decodeMigrate, zeros_eq_ok, Bool.and_eq_true, beq_iff_eq] at h
  obtain ⟨⟨⟨⟨⟨hb, hc⟩, hrm⟩, hty⟩, hm⟩, h⟩ := h
  split at h
  case h_1 =>
    next hfn =>
      cases h
      exact ⟨hwf, wR_eq hop rfl rfl hb hc (eq_ofNat_of_toNat hfn.symm) hrm hty hm⟩
  case h_2 =>
    next hfn =>
      obtain ⟨ha, h⟩ := zeros_eq_ok.1 h
      cases h
      exact ⟨hwf, wR_eq hop rfl (eq_of_beq ha) hb hc (eq_ofNat_of_toNat hfn.symm) hrm hty hm⟩
  case h_3 => cases h

theorem decodeShmap_sound (hop : fOp w = 0xA4) (h : decodeShmap w (fGuard w) = .ok i) : IsWordOf w i := by
  simp only [decodeShmap, zeros_eq_ok, need_eq_ok, Bool.and_eq_true, beq_iff_eq] at h
  obtain ⟨⟨⟨⟨hb, htop⟩, hhigh⟩, hmid⟩, hcount, h⟩ := h
  cases h
  refine ⟨Bool.and_eq_true_iff.2 ⟨hwf, hcount⟩, wI_eq hop rfl rfl hb htop ?_⟩
  rw [← hhigh, ← hmid, parts_join, parts_join, parts_join, BitVec.extractLsb'_eq_self] <;> rfl

theorem decodeSetf_sound {op : BitVec 8} {j : Reg → Reg → Instr} (hop : fOp w = op) (hj : ∀ d a, WellFormed (j d a) = (fGuard w).wf)
    (he : ∀ d a, encode (j d a) = wPre op (fGuard w) d a 0 0) (h : decodeSetf w j = .ok i) : IsWordOf w i := by
  obtain ⟨hz, h⟩ := zeros_eq_ok.1 h
  cases h
  exact ⟨(hj _ _).trans hwf, (he _ _).trans (wPre_eq hop rfl rfl (zero_part (eq_of_beq hz) (by omega)) (zero_part (eq_of_beq hz) (by omega)))⟩

theorem decodeScall_sound (hop : fOp w = 0xA7) (h : decodeScall w (fGuard w) = .ok i) : IsWordOf w i := by
  simp only [decodeScall, zeros_eq_ok, Bool.and_eq_true, beq_iff_eq] at h
  obtain ⟨⟨⟨⟨hd, ha⟩, htop⟩, hb⟩, h⟩ := h
  have hb := low_part (m := 4) (n := 2) hb
  have himm : fImm w = (fImm w).extractLsb' 20 12 ++ (fImm w).extractLsb' 0 20 := two_parts (m := 12) (n := 20)
  split at h
  next hkind =>
    obtain ⟨hv, h⟩ := zeros_eq_ok.1 h
    cases h
    exact ⟨hwf, wI_eq hop hd ha (by rw [← hb, hkind]; rfl) htop (himm.trans (by rw [eq_of_beq hv]))⟩
  next =>
    split at h
    next hkind =>
      obtain ⟨hv, h⟩ := zeros_eq_ok.1 h
      cases h
      exact ⟨hwf, wI_eq hop hd ha (by rw [← hb, hkind]; rfl) htop (himm.trans (by rw [eq_of_beq hv]))⟩
    next =>
      split at h
      next hkind =>
        cases h
        exact ⟨hwf, wI_eq hop hd ha (by rw [← hb, hkind]; rfl) htop himm⟩
      next => cases h

theorem decodeMma_sound (hop : fOp w = 0xB0) (h : decodeMma w (fGuard w) = .ok i) : IsWordOf w i := by
  simp only [decodeMma, zeros_eq_ok, need_eq_ok, Bool.and_eq_true, beq_iff_eq, Except.ok.injEq] at h
  obtain ⟨⟨⟨⟨hd, hc⟩, hflags⟩, himm⟩, hm, rfl⟩ := h
  have hflags : fFlags w = (0 : BitVec 3) ++ (fFlags w).extractLsb' 2 1 ++ (fFlags w).extractLsb' 1 1 ++ (fFlags w).extractLsb' 0 1 := by
    rw [← hflags, parts_join, parts_join, parts_join, BitVec.extractLsb'_eq_self] <;> rfl
  have himm : fImm16 w = (0 : BitVec 8) ++ (fImm16 w).extractLsb' 4 4 ++ (fImm16 w).extractLsb' 0 4 := by
    rw [← himm, parts_join, parts_join, BitVec.extractLsb'_eq_self] <;> rfl
  split
  next hbit =>
    refine ⟨Bool.and_eq_true_iff.2 ⟨hwf, hm⟩, wX_eq hop hd rfl rfl hc rfl ?_ rfl himm⟩
    simp only [bit_beq]
    exact hflags.trans (by rw [hbit]; rfl)
  next hbit =>
    refine ⟨Bool.and_eq_true_iff.2 ⟨hwf, hm⟩, wX_eq hop hd rfl rfl hc rfl ?_ rfl himm⟩
    simp only [bit_beq]
    exact hflags.trans (by rw [bit1_eq_zero hbit]; rfl)

theorem decodeRadv_sound (hop : fOp w = 0xB1) (h : decodeRadv w (fGuard w) = .ok i) : IsWordOf w i := by
  simp only [decodeRadv, zeros_eq_ok, Bool.and_eq_true, beq_iff_eq] at h
  obtain ⟨⟨⟨⟨⟨⟨ha, hb⟩, hc⟩, hrm⟩, hty⟩, hm⟩, h⟩ := h
  have word {n : Nat} {d : Reg} {ln : BitVec 2} (hfn : (fFn w).toNat = n) (hd : fD w = d) (hln : (fMod w).extractLsb' 2 2 = ln) :
      encRadv (BitVec.ofNat 8 n) (fGuard w) d ln ((fMod w).extractLsb' 0 2) = w := by
    refine wR_eq hop hd ha hb hc (eq_ofNat_of_toNat hfn.symm) hrm hty ?_
    rw [← hln, ← hm, parts_join, parts_join, BitVec.extractLsb'_eq_self] <;> rfl
  split at h <;> simp only [zeros_eq_ok, Bool.and_eq_true, beq_iff_eq, Except.ok.injEq, reduceCtorEq] at h
  -- RADV.CFG; RADV.TAIL
  case h_2 =>
    next hfn =>
      cases h
      exact ⟨hwf, word hfn rfl rfl⟩
  case h_3 =>
    next hfn =>
      obtain ⟨hln, rfl⟩ := h
      exact ⟨hwf, word hfn rfl hln⟩
  all_goals
    next hfn =>
      obtain ⟨⟨hd, hln⟩, rfl⟩ := h
      exact ⟨hwf, word hfn hd hln⟩

omit hwf in
/-- A word of the Kaolin form. -/
theorem kForm_word {op : BitVec 8} {k : Decoded} (hop : fOp w = op) (h : kForm w k = .ok i) :
    k = .ok i ∧ ∀ {d a b : Reg} {m : BitVec 12}, fD w = d → fA w = a → fB w = b → fMod w = m →
      wR op (fGuard w) d a b 0 0 0 0 m = w := by
  simp only [kForm, zeros_eq_ok, Bool.and_eq_true, beq_iff_eq] at h
  obtain ⟨⟨⟨⟨hc, hfn⟩, hrm⟩, hty⟩, h⟩ := h
  exact ⟨h, fun hd ha hb hm => wR_eq hop hd ha hb hc hfn hrm hty hm⟩

theorem decodeKalloc_sound (hop : fOp w = 0xB2) (h : decodeKalloc w (fGuard w) = .ok i) : IsWordOf w i := by
  obtain ⟨h, word⟩ := kForm_word hop h
  simp only [zeros_eq_ok, Bool.and_eq_true, beq_iff_eq, Except.ok.injEq] at h
  obtain ⟨⟨hb, hm⟩, rfl⟩ := h
  refine ⟨hwf, word rfl rfl hb ?_⟩
  simp only [bit_beq]
  rw [← hm, parts_join, parts_join, BitVec.extractLsb'_eq_self] <;> rfl

theorem kfill_sound (hop : fOp w = 0xB3)
    (h : kForm w (zeros (fMod w == 0) (.ok (.kfill (fGuard w) (fD w) (fA w) (fB w)))) = .ok i) : IsWordOf w i := by
  obtain ⟨h, word⟩ := kForm_word hop h
  simp only [zeros_eq_ok, beq_iff_eq, Except.ok.injEq] at h
  obtain ⟨hm, rfl⟩ := h
  exact ⟨hwf, word rfl rfl rfl hm⟩

theorem decodeKpin_sound (hop : fOp w = 0xB4) (h : decodeKpin w (fGuard w) = .ok i) : IsWordOf w i := by
  obtain ⟨h, word⟩ := kForm_word hop h
  simp only [zeros_eq_ok, Bool.and_eq_true, beq_iff_eq, Except.ok.injEq] at h
  obtain ⟨⟨⟨hd, hb⟩, hm⟩, rfl⟩ := h
  have hm := low_part (m := 11) (n := 1) hm
  split
  next hbit => exact ⟨hwf, word hd rfl hb (by rw [← hm, hbit]; rfl)⟩
  next hbit => exact ⟨hwf, word hd rfl hb (by rw [← hm, bit1_eq_zero hbit]; rfl)⟩

theorem krev_sound (hop : fOp w = 0xB5)
    (h : kForm w (zeros (fD w == 0 && fB w == 0 && fMod w == 0) (.ok (.krev (fGuard w) (fA w)))) = .ok i) : IsWordOf w i := by
  obtain ⟨h, word⟩ := kForm_word hop h
  simp only [zeros_eq_ok, Bool.and_eq_true, beq_iff_eq, Except.ok.injEq] at h
  obtain ⟨⟨⟨hd, hb⟩, hm⟩, rfl⟩ := h
  exact ⟨hwf, word hd rfl hb hm⟩

theorem kstat_sound (hop : fOp w = 0xB6)
    (h : kForm w (zeros (fB w == 0 && fMod w == 0) (.ok (.kstat (fGuard w) (fD w) (fA w)))) = .ok i) : IsWordOf w i := by
  obtain ⟨h, word⟩ := kForm_word hop h
  simp only [zeros_eq_ok, Bool.and_eq_true, beq_iff_eq, Except.ok.injEq] at h
  obtain ⟨⟨hb, hm⟩, rfl⟩ := h
  exact ⟨hwf, word rfl rfl hb hm⟩

theorem decodeCbkld_sound (hop : fOp w = 0xB7) (h : decodeCbkld w (fGuard w) = .ok i) : IsWordOf w i := by
  obtain ⟨h, word⟩ := kForm_word hop h
  simp only [zeros_eq_ok, beq_iff_eq, Except.ok.injEq] at h
  obtain ⟨hm, rfl⟩ := h
  exact ⟨hwf, word rfl rfl rfl (low_part (m := 6) hm).symm⟩

theorem decodeEngo_sound (hop : fOp w = 0xC0) (h : decodeEngo w (fGuard w) = .ok i) : IsWordOf w i := by
  simp only [decodeEngo, zeros_eq_ok, code_eq_ok, Bool.and_eq_true, beq_iff_eq] at h
  obtain ⟨⟨⟨⟨hd, hb⟩, hlow⟩, hsys⟩, sc, hsc, h⟩ := h
  have word {die : Bool} {e : BitVec 2} (hdie : (fSys w).extractLsb' 5 1 = bit die) (he : (fSys w).extractLsb' 3 2 = e) :
      encodeEngo (fGuard w) die e sc (fA w) = w := by
    refine wS_eq hop hd rfl hb ?_ hlow
    rw [← hdie, ← he, ← hsys, ← eq_ofNat_of_toNat (Scope.code_of_ofCode hsc), parts_join, parts_join, parts_join,
      BitVec.extractLsb'_eq_self] <;> rfl
  split at h
  next he =>
    obtain ⟨hdie, h⟩ := need_eq_ok.1 h
    cases h
    exact ⟨hwf, word (die := false) (eq_of_beq hdie) he⟩
  next =>
    split at h
    next he =>
      obtain ⟨hdie, h⟩ := need_eq_ok.1 h
      cases h
      exact ⟨hwf, word (die := false) (eq_of_beq hdie) he⟩
    next =>
      split at h
      next he =>
        cases h
        exact ⟨hwf, word (bit_beq _).symm he⟩
      next => cases h

theorem decodeEngq_sound (hop : fOp w = 0xC1) (h : decodeEngq w (fGuard w) = .ok i) : IsWordOf w i := by
  simp only [decodeEngq, zeros_eq_ok, Bool.and_eq_true, beq_iff_eq, Except.ok.injEq] at h
  obtain ⟨⟨⟨hb, hsys⟩, hlow⟩, rfl⟩ := h
  exact ⟨hwf, wS_eq hop rfl rfl hb hsys hlow⟩

theorem decodeSysrd_sound (hop : fOp w = 0xD0) (h : decodeSysrd w (fGuard w) = .ok i) : IsWordOf w i := by
  simp only [decodeSysrd, zeros_eq_ok, code_eq_ok, Bool.and_eq_true, beq_iff_eq] at h
  obtain ⟨⟨⟨ha, hb⟩, hlow⟩, r, hr, h⟩ := h
  cases h
  exact ⟨hwf, wS_eq hop rfl ha hb (eq_ofNat_of_toNat (SysReg.code_of_ofCode hr)) hlow⟩

theorem decodeSyswr_sound (hop : fOp w = 0xD1) (h : decodeSyswr w (fGuard w) = .ok i) : IsWordOf w i := by
  simp only [decodeSyswr, zeros_eq_ok, need_eq_ok, code_eq_ok, Bool.and_eq_true, beq_iff_eq] at h
  obtain ⟨⟨⟨hd, hb⟩, hlow⟩, r, hr, hwrite, h⟩ := h
  cases h
  exact ⟨Bool.and_eq_true_iff.2 ⟨hwf, hwrite⟩, wS_eq hop hd rfl hb (eq_ofNat_of_toNat (SysReg.code_of_ofCode hr)) hlow⟩

theorem decodeTlbinv_sound (hop : fOp w = 0xD5) (h : decodeTlbinv w (fGuard w) = .ok i) : IsWordOf w i := by
  simp only [decodeTlbinv, zeros_eq_ok, Bool.and_eq_true, beq_iff_eq] at h
  obtain ⟨⟨⟨⟨⟨hd, hc⟩, hrm⟩, hty⟩, hm⟩, h⟩ := h
  have hm := low_part (m := 9) (n := 3) hm
  have word {n : Nat} {a b : Reg} {sz : BitVec 3} (hfn : (fFn w).toNat = n) (ha : fA w = a) (hb : fB w = b)
      (hsz : (fMod w).extractLsb' 0 3 = sz) : encTlbinv (BitVec.ofNat 8 n) (fGuard w) a b sz = w :=
    wR_eq hop hd ha hb hc (eq_ofNat_of_toNat hfn.symm) hrm hty (by rw [← hsz, hm])
  split at h <;> simp only [zeros_eq_ok, need_eq_ok, Bool.and_eq_true, beq_iff_eq, Except.ok.injEq, reduceCtorEq] at h
  case h_1 =>
    next hfn =>
      obtain ⟨hsz, rfl⟩ := h
      exact ⟨Bool.and_eq_true_iff.2 ⟨hwf, hsz⟩, word hfn rfl rfl rfl⟩
  case h_2 =>
    next hfn =>
      obtain ⟨⟨ha, hsz⟩, rfl⟩ := h
      exact ⟨hwf, word hfn ha rfl hsz⟩
  case h_3 =>
    next hfn =>
      obtain ⟨⟨⟨ha, hb⟩, hsz⟩, rfl⟩ := h
      exact ⟨hwf, word hfn ha hb hsz⟩
  case h_4 =>
    next hfn =>
      obtain ⟨hb, hsz, rfl⟩ := h
      exact ⟨Bool.and_eq_true_iff.2 ⟨hwf, hsz⟩, word hfn rfl hb rfl⟩

/-- Every major opcode's decoder accepts only words of instructions. -/
theorem decodeMajor_sound (h : decodeMajor w (fGuard w) = .ok i) : IsWordOf w i := by
  unfold decodeMajor at h
  dsimp only at h
  have op {n : Nat} (hop : (fOp w).toNat = n) : fOp w = BitVec.ofNat 8 n := eq_ofNat_of_toNat hop.symm
  split at h
  case h_1 => next hop => exact decodeInt_sound hwf (op hop) h
  case h_2 => next hop => exact decodeMuldiv_sound hwf (op hop) h
  case h_3 | h_4 | h_5 | h_6 | h_10 => next hop => exact immForm_sound hwf (op hop) rfl rfl rfl h
  case h_7 | h_8 | h_9 => next hop => exact shiftForm_sound hwf (op hop) (fun _ => rfl) (fun _ => rfl) h
  case h_11 | h_12 => next hop => exact movForm_sound hwf (op hop) rfl rfl h
  case h_13 => next hop => exact decodePcmp_sound hwf (op hop) h
  case h_14 => next hop => exact decodePcmpi_sound hwf (op hop) h
  case h_15 => next hop => exact decodePlop_sound hwf (op hop) h
  case h_16 => next hop => exact decodeFcmp_sound hwf (op hop) h
  case h_17 => next hop => exact decodeFp_sound hwf (op hop) h
  case h_18 => next hop => exact decodeCvt_sound hwf (op hop) h
  case h_19 => next hop => exact decodePack_sound hwf (op hop) h
  case h_20 => next hop => exact decodeXlane_sound hwf (op hop) h
  case h_21 => next hop => exact decodeLd_sound hwf (op hop) h
  case h_22 => next hop => exact decodeSt_sound hwf (op hop) h
  case h_23 => next hop => exact decodeAmo_sound hwf (op hop) h
  case h_24 => next hop => exact decodeCas_sound hwf (op hop) h
  case h_25 => next hop => exact decodePref_sound hwf (op hop) h
  case h_26 => next hop => exact decodeFence_sound hwf (op hop) h
  case h_27 | h_28 | h_29 | h_38 | h_39 | h_40 | h_46 | h_66 | h_70 => next hop => exact bare_sound hwf (op hop) rfl rfl h
  case h_30 | h_31 | h_32 => next hop => exact decodeCacheOp_sound hwf (op hop) (fun _ => rfl) (fun _ => rfl) h
  case h_33 => next hop => exact decodeBr_sound hwf (op hop) h
  case h_34 => next hop => exact decodeJal_sound hwf (op hop) h
  case h_35 => next hop => exact decodeJalr_sound hwf (op hop) h
  case h_36 => next hop => exact decodeJoin_sound hwf (op hop) h
  case h_37 => next hop => exact decodeYield_sound hwf (op hop) h
  case h_41 => next hop => exact decodeWaitc_sound hwf (op hop) h
  case h_42 => next hop => exact decodeCbwait_sound hwf (op hop) h
  case h_43 | h_44 => next hop => exact decodeCb_sound hwf (op hop) (fun _ => rfl) (fun _ => rfl) h
  case h_45 => next hop => exact decodeMigrate_sound hwf (op hop) h
  case h_47 | h_48 => next hop => exact decodeGrow_sound hwf (op hop) (fun _ => rfl) (fun _ => rfl) h
  case h_49 => next hop => exact decodeShmap_sound hwf (op hop) h
  case h_50 | h_51 => next hop => exact decodeSetf_sound hwf (op hop) (fun _ _ => rfl) (fun _ _ => rfl) h
  case h_52 => next hop => exact decodeScall_sound hwf (op hop) h
  case h_53 => next hop => exact decodeFidset_sound hwf (op hop) h
  case h_54 => next hop => exact decodeMma_sound hwf (op hop) h
  case h_55 => next hop => exact decodeRadv_sound hwf (op hop) h
  case h_56 => next hop => exact decodeKalloc_sound hwf (op hop) h
  case h_57 => next hop => exact kfill_sound hwf (op hop) h
  case h_58 => next hop => exact decodeKpin_sound hwf (op hop) h
  case h_59 => next hop => exact krev_sound hwf (op hop) h
  case h_60 => next hop => exact kstat_sound hwf (op hop) h
  case h_61 => next hop => exact decodeCbkld_sound hwf (op hop) h
  case h_62 => next hop => exact decodeEngo_sound hwf (op hop) h
  case h_63 => next hop => exact decodeEngq_sound hwf (op hop) h
  case h_64 => next hop => exact decodeSysrd_sound hwf (op hop) h
  case h_65 => next hop => exact decodeSyswr_sound hwf (op hop) h
  case h_67 | h_68 => next hop => exact decodeTrap_sound hwf (op hop) (fun _ => rfl) (fun _ => rfl) h
  case h_69 => next hop => exact decodeTlbinv_sound hwf (op hop) h
  case h_71 =>
    cases h
    have hmajor : majorAssigned (w.extractLsb' 56 8) = false := by
      change majorAssigned (fOp w) = false
      simp only [majorAssigned, Bool.or_eq_false_iff, Bool.and_eq_false_iff, decide_eq_false_iff_not, beq_eq_false_iff_ne]
      simp only [imp_false] at *
      omega
    exact ⟨by simp [WellFormed, hmajor, guardReserved_iff, hwf], rfl⟩

end majors

/-- R249, R250: a word that the decoder accepts is the word of the well-formed instruction that it gives. -/
theorem isWordOf_of_decode {i : Instr} (h : decode w = .ok i) : IsWordOf w i := by
  obtain ⟨hg, h⟩ := need_eq_ok.1 h
  exact decodeMajor_sound (by simpa [guardReserved_iff] using hg) h

end Sys2Proof
namespace Sys2Proof.Machine

/-- Settles O1, through the fields of each format and the decoder of each major opcode. -/
theorem decodeEncode : Obligations.DecodeEncode := fun i => decode_encode i

/-- Settles O2: each decoder accepts a word only when its fields, put together again, are the word. -/
theorem encodeDecode : Obligations.EncodeDecode := fun _ _ => isWordOf_of_decode

/-- R248, R249: of a lone thread whose guard holds, a word that is no instruction makes an ILLEGAL trap with the word. -/
theorem State.illegalWord_one {s : State} {k : Nat} {w : BitVec 64} (hk : s.issuing = [k])
    (hg : (s.thread k).guard (fGuard w) = true) (hn : (s.thread k).spec.mode = .normal) :
    s.illegalWord w = s.takeTrap k cILLEGAL 0 w (s.thread k).pc := by
  simp [State.illegalWord, hk, runThreads, hg, State.applyRes, State.raise, hn, State.splitBundle_nil]

/-- Settles O4: the decoder looks at the guard first and then at the major opcode, of which the map of R252 leaves some
without an instruction. -/
theorem reservedWords : Obligations.ReservedWords := by
  refine ⟨fun w h => ⟨_, by rw [decode, h]; rfl⟩, fun w hg hmajor => decode_unassigned hmajor hg, decode_unassigned rfl rfl, ?_⟩
  intro s k w hmajor hk hg hn
  change execReservedMajorOpcode w s = _
  rw [execReservedMajorOpcode, hmajor, if_neg Bool.false_ne_true, State.illegalWord_one hk hg hn]

end Sys2Proof.Machine
end

section
/-!
PROOFS. One step: the turn of the agenda, and the fetch, decode and `exec` of an issuer's instruction (R246, R249, R298, R302).
-/
namespace Sys2Proof.Machine
variable {s0 s b s1 t : State} {rest : List Turn} {w : Word}

/-! ### The turn of a step -/

theorem step_event {e : Instr} (h : s0.agenda = .event e :: rest) :
    step s0 = if s0.tick.pkg.inReset && e != .resetRelease then .next { s0.tick with agenda := rest }
      else exec e { s0.tick with agenda := rest } := by
  have ht : s0.tick.agenda = .event e :: rest := h
  simp only [step, ht]

theorem step_outside {o : Outside} (h : s0.agenda = .outside o :: rest) :
    step s0 = .next ({ s0.tick with agenda := rest }.outside o) := by
  have ht : s0.tick.agenda = .outside o :: rest := h
  simp only [step, ht]

theorem step_issue {a : Issuer} (h : s0.agenda = .issue a :: rest) :
    step s0 = if a.exists' then step.stepIssuer { s0.tick with agenda := rest, cur := a } else .fault .noSuchAgent := by
  have ht : s0.tick.agenda = .issue a :: rest := h
  simp only [step, ht]

theorem step_no_turn (h : s0.agenda = []) :
    step s0 = if s0.cur.exists' then step.stepIssuer s0.tick else .fault .noSuchAgent := by
  have ht : s0.tick.agenda = [] := h
  simp only [step, ht]
  rfl

/-- At a boundary where no interrupt and no signal stands, the step of an issuer fetches its instruction. -/
theorem step_eq_issueStep (hturn : (s0.agenda = [] ∧ s = s0.tick) ∨
      ∃ a rest, s0.agenda = .issue a :: rest ∧ s = { s0.tick with agenda := rest, cur := a })
    (hcur : s.cur.exists' = true) (hrun : s.halted = false) (hb : b = s.enterBoundary) (hnone : b.boundary = none) :
    step s0 = issueStep b := by
  have hissuer : step.stepIssuer s = issueStep b := by
    subst hb
    simp only [step.stepIssuer, hrun, Bool.false_eq_true, if_false, hnone]
  rcases hturn with ⟨hag, rfl⟩ | ⟨a, rest, hag, rfl⟩
  · exact (step_no_turn hag).trans ((if_pos hcur).trans hissuer)
  · rw [step_issue hag, if_pos hcur, hissuer]

/-! ### An issuer's instruction -/

theorem issueStep_of_fault {c sub : Nat} (hr : b.ready b.issuing = true)
    (hf : b.fetch (b.who (b.issuing.headD 0)) (b.thread (b.issuing.headD 0)).pc.toNat = (s1, .fault c sub)) :
    issueStep b = .next (s1.fetchFault b.issuing c sub) := by
  simp only [issueStep, hr, hf, Bool.not_true, Bool.false_eq_true, if_false]

section word
variable (hr : b.ready b.issuing = true)
  (hf : b.fetch (b.who (b.issuing.headD 0)) (b.thread (b.issuing.headD 0)).pc.toNat = (s1, .word w))
include hr hf

theorem issueStep_of_ok {i : Instr} (hd : decode w = .ok i) (hx : exec i s1 = .next t) :
    issueStep b = .next (s1.noteIssue t w) := by
  simp only [issueStep, hr, hf, hd, hx, Bool.not_true, Bool.false_eq_true, if_false]

theorem issueStep_of_error {e : DecodeError} (hd : decode w = .error e) : issueStep b = .next (s1.illegalWord w) := by
  simp only [issueStep, hr, hf, hd, Bool.not_true, Bool.false_eq_true, if_false]

end word

/-- Settles O5, by the turns of the agenda. -/
theorem stepRunsDecoded : Obligations.StepRunsDecoded := by
  refine ⟨?_, fun s0 e rest h => ?_, fun s0 o rest h => step_outside h⟩
  · intro s0 s b s1 t w i hturn hcur hrun hb hnone hr hf hd hx
    rw [step_eq_issueStep hturn hcur hrun hb hnone, issueStep_of_ok hr hf hd hx]
  · simpa using step_event h

/-! ### Every step answers -/

theorem xlane_next (s : State) (i : Instr) (g : Guard) (regs : List Reg) (d c : Reg) (res : XResult) :
    ∃ t, xlane s i g regs d c res = .next t := by
  unfold xlane
  dsimp only
  split <;> exact ⟨_, rfl⟩

theorem execBkoff_next (g : Guard) (s : State) : ∃ t, execBkoff g s = .next t := by
  unfold execBkoff
  dsimp only
  split <;> exact ⟨_, rfl⟩

theorem execGbarClose_next (seq core : Nat) (s : State) : ∃ t, execGbarClose seq core s = .next t := by
  unfold execGbarClose
  split
  · exact ⟨_, rfl⟩
  · split <;> exact ⟨_, rfl⟩

theorem execGrowGrant_next (k : Nat) (s : State) : ∃ t, execGrowGrant k s = .next t := by
  unfold execGrowGrant
  split
  · exact ⟨_, rfl⟩
  · dsimp only
    split
    · exact ⟨_, rfl⟩
    split
    · exact ⟨_, rfl⟩
    split
    · exact ⟨_, rfl⟩
    split <;> exact ⟨_, rfl⟩

/-- The definition of an instruction or event is `.next` of a state, but for those that take cases before they answer. -/
theorem exec_next (i : Instr) (s : State) : ∃ t, exec i s = .next t := by
  cases i
  case shfl | vote | redb | scanb => exact xlane_next ..
  case bkoff => exact execBkoff_next ..
  case gbarClose => exact execGbarClose_next ..
  case growGrant => exact execGrowGrant_next ..
  all_goals exact ⟨_, rfl⟩

theorem issueStep_next (s : State) : ∃ t, issueStep s = .next t := by
  unfold issueStep
  dsimp only
  split
  · exact ⟨_, rfl⟩
  split
  · exact ⟨_, rfl⟩
  · next s1 w _ =>
    split
    · next i _ =>
      obtain ⟨t, ht⟩ := exec_next i s1
      exact ⟨_, by rw [ht]⟩
    · exact ⟨_, rfl⟩

theorem stepIssuer_next (s : State) : ∃ t, step.stepIssuer s = .next t := by
  unfold step.stepIssuer
  dsimp only
  split
  · exact ⟨_, rfl⟩
  split
  · exact exec_next ..
  · exact issueStep_next _

/-- Settles O7: only a turn that names no agent of the part keeps a step from an instruction, an event or an act. -/
theorem stepAnswers : Obligations.StepAnswers := by
  refine ⟨exec_next, fun s => ?_⟩
  cases h : s.agenda with
  | nil =>
    rw [step_no_turn h]
    by_cases hcur : s.cur.exists' = true
    · exact .inl (by simpa [hcur] using stepIssuer_next _)
    · exact .inr (by simp [hcur, State.turnsExist])
  | cons x rest =>
    cases x with
    | issue a =>
      rw [step_issue h]
      by_cases ha : a.exists' = true
      · exact .inl (by simpa [ha] using stepIssuer_next _)
      · exact .inr (by simp [ha, State.turnsExist, h])
    | event e =>
      rw [step_event h]
      split
      · exact .inl ⟨_, rfl⟩
      · exact .inl (exec_next ..)
    | outside o => exact .inl ⟨_, step_outside h⟩

end Sys2Proof.Machine
end

section
/-!
PROOFS. The fetch of an instruction: an untranslated fetch from the storage of the package, and the faults of a fetch (R246,
R249, R301, R349).
-/
namespace Sys2Proof.Machine
variable {s : State} {w : Who} {pc : Nat}

/-! ### An untranslated fetch (R246, R301, R349) -/

theorem physKind_hbm {pa : Nat} (h : pa < 2 ^ 40) : physKind pa = .hbm := by
  have hview : pa / 2 ^ 50 % 4 = 0 := by omega
  have hhbm : pa < Config.hbmBytes := h
  simp only [physKind, hview, hhbm, if_true]
  rfl

/-- Without translation a supervisor thread names bytes of storage by their physical address (R301); Silt, off and with
nothing compressed, expands nothing (R168). -/
theorem State.resolve_flat (hsup : w.sup = true) (hroot : w.ctx.pgroot = 0) (hpc : pc < 2 ^ 40)
    (hcompressed : (s.stk (pc / 2 ^ 36)).compressed = []) (hcold : fld (s.stk (pc / 2 ^ 36)).cold 31 0 = 0) (acc : AccKind) :
    s.resolve w pc acc = (s, .page (flatPage pc)) := by
  have hva : pc < 2 ^ 52 := by omega
  have hsilt : s.siltExpand pc false = some s := by
    simp only [State.siltExpand, hcompressed, hcold, List.contains_nil, Bool.not_false, if_true, ite_self]
  have huse : s.usePage (flatPage pc) = (s, .page (flatPage pc)) := by
    simp only [State.usePage, show (flatPage pc).pa = pc from rfl, hsilt]
  simp only [State.resolve, hsup, hroot, beq_self_eq_true, Bool.and_self, if_true, hva, huse]

/-- Which lines stay in the instruction caches when a line enters one (log 13). -/
theorem MemSys.fillIcache_icache (m : MemSys) (l : ILine) :
    (m.fillIcache l).icache = l :: (if 384 ≤ l.core ∧ icacheLines ≤ (m.icache.filter fun x => x.core == l.core).length then
      m.icache.filter fun x => some x != (m.icache.filter fun x => x.core == l.core).getLast? else m.icache) := by
  by_cases hfull : 384 ≤ l.core ∧ icacheLines ≤ (m.icache.filter fun x => x.core == l.core).length
  · simp only [MemSys.fillIcache, if_pos hfull]
  · simp only [MemSys.fillIcache, if_neg hfull]
    exact congrArg _ (List.filter_eq_self.2 fun _ _ => rfl)

/-- The aligned word at `a` is the slice of its line from its offset upward. -/
theorem Memory.word_of_lineSlice (m : Memory) {a : Nat} (ha : a % 8 = 0) :
    BitVec.ofNat 64 (bytesToNat (lineSlice (m.line (a / 128)) (a % 128) 8)) = m.word a := by
  have hbytes : lineSlice (m.line (a / 128)) (a % 128) 8 = m.bytes a 8 :=
    List.map_congr_left fun k hk => by
      have hk : k < 8 := List.mem_range.1 hk
      rw [Memory.lineByte_line _ _ (by omega), show 128 * (a / 128) + (a % 128 + k) = a + k by omega]
  rw [hbytes]
  rfl

/-- A line that no instruction cache of the core holds is read from storage (R349). -/
theorem State.fetchLine_of_miss {core : Nat}
    (hmiss : s.mem.icache.find? (fun l => l.core == core && l.line == pc / 128) = none)
    (hgood : s.mem.poisoned (pc / 128) 0 = false) :
    s.fetchLine core pc 0 = (s.withMem (s.mem.fillIcache ⟨core, pc / 128, s.mem.bytes.line (pc / 128)⟩),
      some (s.mem.bytes.line (pc / 128))) := by
  simp only [State.fetchLine, lineOf, hmiss, hgood, Bool.false_eq_true, if_false]

theorem State.fetch_of_line {s1 : State} {d : Line} (hres : s.resolve w pc .fetch = (s, .page (flatPage pc)))
    (hpc : pc < 2 ^ 40) (hfwd : s.forward pc 0 = (pc, 0)) (hline : s.fetchLine w.agent pc 0 = (s1, some d)) :
    s.fetch w pc = (s1, .word (BitVec.ofNat 64 (bytesToNat (lineSlice d (pc % 128) 8)))) := by
  have hfwd' : s.forward (flatPage pc).pa (flatPage pc).key = (pc, 0) := hfwd
  have hkind : physKind (flatPage pc).pa = .hbm := physKind_hbm hpc
  simp only [State.fetch, hres, hkind, hfwd', hline]

/-- Settles O6: an untranslated fetch misses in the instruction cache and takes the line of storage into it; the step of a
fetch that gives no instruction traps. -/
theorem fetch : Obligations.Fetch := by
  refine ⟨?_, ?_⟩
  · intro s w pc hsup hroot hpc halign hfwd hcompressed hcold hmiss hgood mine kept
    rw [State.fetch_of_line (State.resolve_flat hsup hroot hpc hcompressed hcold .fetch) hpc hfwd
      (State.fetchLine_of_miss hmiss hgood), Memory.word_of_lineSlice _ halign]
    have hkept := MemSys.fillIcache_icache s.mem ⟨w.agent, pc / 128, s.mem.bytes.line (pc / 128)⟩
    exact congrArg (fun c => (s.withMem { s.mem with icache := c }, Fetched.word (s.mem.bytes.word pc))) hkept
  · intro s0 s b s1 hturn hcur hrun hb hnone hr
    have hstep := step_eq_issueStep hturn hcur hrun hb hnone
    exact ⟨fun cause sub hf => hstep.trans (issueStep_of_fault hr hf),
      fun w e hf hd => hstep.trans (issueStep_of_error hr hf hd)⟩

end Sys2Proof.Machine
end

section
/-!
PROOFS. The comparisons and the predicate table do to each executing thread what their tables say (R255, R392, R432, R437).
-/
namespace Sys2Proof.Machine

/-! ### Conditions -/

/-- A condition of two words is that of their signed and unsigned numbers (R432). -/
theorem condHolds_eq (cc : Cond) (x y : Word) : condHolds cc x y = condTrue cc x.toInt y.toInt x.toNat y.toNat := by
  rw [Bool.eq_iff_iff]
  cases cc with
  | eq | ne => simp [condHolds, condTrue, BitVec.toNat_inj]
  | lt | ge | le | gt => simp [condHolds, condTrue, BitVec.slt_eq_decide]
  | ltu | geu | leu | gtu => simp [condHolds, condTrue, BitVec.ult_eq_decide]

theorem imm64_toNat (imm : BitVec 32) : (imm64 imm).toNat = (immInt imm % 2 ^ 64).toNat := by
  rw [imm64_eq, BitVec.toNat_ofInt]; rfl

/-- The position in the table that three predicates name (R437). -/
theorem plopValue_eq (lut : BitVec 8) (x y z : Bool) :
    plopValue lut x y z = lut.getLsbD ((if x then 4 else 0) + (if y then 2 else 0) + if z then 1 else 0) := by
  cases x <;> cases y <;> cases z <;> rfl

/-! ### Flags -/

/-- After a change of the thread, the flags of a comparison are raised by a second change or not at all. -/
theorem State.modThread_raiseFlags_ite (s : State) (k : Nat) (f : Thread → Thread) (c : Prop) [Decidable c] (fl : BitVec 6) :
    (s.modThread k f).raiseFlags k (if c then fl else 0) = if c then (s.modThread k f).raiseFlags k fl else s.modThread k f := by
  split
  · rfl
  · rw [State.raiseFlags, State.modThread_modThread]
    simp [Thread.raise, FpRegs.raise]

/-! ### The forms -/

section predicates
variable {i : Instr} {f : RegForm} {g : Guard} {d : Pred} {regs : List Reg}

/-- A form that leaves the predicate `v`, the one that its table gives. -/
theorem setsPred_completes {val v : State → Nat → Bool}
    (h : some ⟨g, regs, none, some d, fun k s => s.modThread k fun t => t.setPred d (val s k)⟩ = some f)
    (hex : ∀ s, exec i s = perThread s i g (regs.map (·.toNat)) anyCore .runs fun k s => .go (s.writePred k d (v s k)) .next)
    (hv : ∀ s k, v s k = val s k) : FormIssues i f f.eff := by
  obtain rfl : v = val := funext₂ hv
  obtain rfl := Option.some.inj h
  exact ⟨hex, fun k s => .pred rfl _⟩

/-- FCMP: its predicate, and NV when the comparison is invalid (R392). -/
theorem fcmp_completes {cc : FCond} {t : FloatCode} {a b : Reg} (h : predForm (.fcmp g cc t d a b) = some f) :
    FormIssues (.fcmp g cc t d a b) f f.eff := by
  obtain rfl := Option.some.inj h
  refine ⟨fun s => ?exec_eq, fun k s => ?writes⟩
  case exec_eq =>
    change execFcmp g cc t d a b s = _
    simp only [execFcmp, State.writePred, State.modThread_raiseFlags_ite]
    rfl
  case writes =>
    dsimp only
    split
    · exact .flags (.pred rfl _) _
    · exact .pred rfl _

theorem predForm_completes (h : predForm i = some f) : FormIssues i f f.eff := by
  cases i with
  | pcmp => exact setsPred_completes h (fun _ => rfl) fun _ _ => condHolds_eq ..
  | pcmpi => exact setsPred_completes h (fun _ => rfl) fun _ _ => by rw [condHolds_eq, imm64_toInt, imm64_toNat]
  | plop => exact setsPred_completes h (fun _ => rfl) fun _ _ => plopValue_eq ..
  | fcmp => exact fcmp_completes h
  | _ => cases h

end predicates

/-- Settles O14: each form's predicate is the one of its table, and a bundle completes a form lane by lane. -/
theorem predicateForms : Obligations.PredicateForms :=
  fun _ _ _ hf hadm => exec_form (predForm_completes hf) hadm

end Sys2Proof.Machine
end

section
/-!
PROOFS. Checks 1 and 2 of R249: instructions that a latency core excludes (R266, R40), and privileged ones in user mode (R162,
R267).
-/
namespace Sys2Proof.Machine
variable {s : State} {k c : Nat} {v : Word} {i : Instr} {g : Guard} {kind : Kind} {sp : SpecRule} {regs : List Nat}

/-! ### The checks -/

theorem State.fit_latency (hk : isLat k = true) (hlat : kind.lat = false) :
    s.fit k i kind regs = some (.trap cILLEGAL 0 (encode i) false) := by
  simp [State.fit, hk, hlat]

/-- Check 2 comes after check 1, which passes what runs on every core. -/
theorem State.fit_user (hsimt : kind.simt = true) (hlat : kind.lat = true) (hpriv : kind.priv = true)
    (hsup : (s.thread k).trap.sup = false) : s.fit k i kind regs = some (.trap cPRIV 0 (encode i) false) := by
  simp [State.fit, hsimt, hlat, hpriv, hsup]

/-! ### A lone thread that fails a check takes its trap at the instruction -/

section refused
variable (hk : s.issuing = [k]) (hg : (s.thread k).guard g = true) (hn : (s.thread k).spec.mode = .normal)
  (hf : s.fit k i kind regs = some (.trap c 0 v false))
include hk hg hn hf

theorem issue_refused (body : Nat → State → Res) :
    s.issue i g regs kind sp body = s.takeTrap k c 0 v (s.thread k).pc := by
  simp [State.issue, hk, runThreads, State.threadPart, State.guardedPart, hg, State.check, hf, State.applyRes, State.raise, hn,
    State.splitBundle_nil]

theorem perThread_refused (body : Nat → State → Res) :
    perThread s i g regs kind sp body = .next (s.takeTrap k c 0 v (s.thread k).pc) :=
  congrArg _ (issue_refused hk hg hn hf body)

theorem perCrew_refused (body : List Nat → State → Res) :
    perCrew s i g regs kind sp body = .next (s.takeTrap k c 0 v (s.thread k).pc) := by
  simp [perCrew, State.issueCrews, hk, runThreads, State.guardedPart, hg, hf, State.applyRes, State.raise, hn, groups, runCrews,
    runGroups, State.splitBundle_nil]

end refused

/-! ### On a latency core -/

section latency
variable (hlat : isLat k = true) (hk : s.issuing = [k]) (hg : (s.thread k).guard g = true)
  (hn : (s.thread k).spec.mode = .normal)
include hlat hk hg hn

theorem perThread_latency (body : Nat → State → Res) :
    perThread s i g regs simtOnly sp body = .next (s.takeTrap k cILLEGAL 0 (encode i) (s.thread k).pc) :=
  perThread_refused hk hg hn (State.fit_latency hlat rfl) body

theorem perCrew_latency (body : List Nat → State → Res) :
    perCrew s i g regs simtOnly sp body = .next (s.takeTrap k cILLEGAL 0 (encode i) (s.thread k).pc) :=
  perCrew_refused hk hg hn (State.fit_latency hlat rfl) body

theorem xlane_latency (regs : List Reg) (d r : Reg) (res : XResult) :
    xlane s i g regs d r res = .next (s.takeTrap k cILLEGAL 0 (encode i) (s.thread k).pc) := by
  have hfit : s.fit k i simtOnly (regs.map (·.toNat)) = some (.trap cILLEGAL 0 (encode i) false) :=
    State.fit_latency hlat rfl
  simp [xlane, hk, runThreads, hg, State.check, hfit, State.applyRes, State.raise, hn, State.splitBundle_nil]

/-- A latency thread is in no crew whose joins could release. -/
theorem joinInstr_latency (body : Nat → State → Res) :
    joinInstr s i g body = .next (s.takeTrap k cILLEGAL 0 (encode i) (s.thread k).pc) := by
  rw [joinInstr, issue_refused hk hg hn (State.fit_latency hlat rfl) body]
  simp [hk, crewsOf, hlat]

theorem exec_latency (hi : simtInstr i = some g) : exec i s = .next (s.takeTrap k cILLEGAL 0 (encode i) (s.thread k).pc) := by
  cases i with
  | shfl | vote | redb | scanb =>
    cases hi
    exact xlane_latency hlat hk hg hn ..
  | opfence | setf | takef =>
    cases hi
    exact perThread_latency hlat hk hg hn _
  | joinEnr | joinWait | joinStrike | joinRst =>
    cases hi
    exact joinInstr_latency hlat hk hg hn _
  | cbwait | cbwaitProd | cbpop | cbpush | shmap | mmaT | mmaK | radv | radvCfg | radvTail | radvRel | radvFree | engoCopy
  | engoEpi =>
    cases hi
    exact perCrew_latency hlat hk hg hn _
  | _ => cases hi

end latency

/-- Settles O17: each of them issues with the check that fails on a latency core. -/
theorem illegalOnLatency : Obligations.IllegalOnLatency :=
  ⟨fun _ _ _ _ hi hlat hk hg hn => exec_latency hlat hk hg hn hi,
    fun _ _ _ hlat hk hg hn => exec_gbar_one hk (perThread_latency hlat hk hg hn _)⟩

/-! ### In user mode -/

section user
variable (hk : s.issuing = [k]) (hg : (s.thread k).guard g = true) (hsup : (s.thread k).trap.sup = false)
  (hn : (s.thread k).spec.mode = .normal)
include hk hg hsup hn

theorem exec_user (hi : supInstr i = some g) : exec i s = .next (s.takeTrap k cPRIV 0 (encode i) (s.thread k).pc) := by
  cases i with
  | tlbinvPg | tlbinvAs | tlbinvAll | tlbinvPga =>
    cases hi
    exact perThread_refused hk hg hn (State.fit_user rfl rfl rfl hsup) _
  | syswr g' r a =>
    obtain ⟨hr, rfl⟩ : supRegister r = true ∧ g' = g := by simpa [supInstr] using hi
    exact perThread_refused hk hg hn (State.fit_user rfl rfl hr hsup) _
  | _ => cases hi

end user

theorem exec_sleep_user (hcur : s.cur = .hart k) (hg : (s.thread k).guard g = true) (hsup : (s.thread k).trap.sup = false)
    (hn : (s.thread k).spec.mode = .normal) :
    exec (.sleep g) s = .next (s.takeTrap k cPRIV 0 (encode (.sleep g)) (s.thread k).pc) := by
  have hk : s.issuing = [k] := by simp [State.issuing, hcur]
  change execSleep g s = _
  simp only [execSleep, hcur]
  exact congrArg _ (issue_refused hk hg hn (State.fit_user rfl rfl rfl hsup) _)

/-- Settles O18: check 1 passes them on every core, and check 2 refuses them to a thread in user mode. -/
theorem privilegedInUserMode : Obligations.PrivilegedInUserMode :=
  ⟨fun _ _ _ _ hi hk hg hsup hn => exec_user hk hg hsup hn hi,
    fun _ _ _ hcur _ hg hsup hn => exec_sleep_user hcur hg hsup hn⟩

end Sys2Proof.Machine
end

section
/-!
PROOFS. System registers (R267, R268, R397, R469, R470, R481), FIDSET, SLEEP, and the waking of a core (R85, R87, R462).
-/
namespace Sys2Proof.Machine
variable {s : State} {k : Nat} {g : Guard} {r : SysReg} {a : Reg}

/-! ### Bits that a register keeps (R470) -/

theorem keepBits_or_eq_and (w : Word) (hi lo hi' lo' : Nat) :
    keepBits w hi lo ||| keepBits w hi' lo' = w &&& (BitVec.ofNat 64 ((2 ^ (hi + 1 - lo) - 1) * 2 ^ lo)
      ||| BitVec.ofNat 64 ((2 ^ (hi' + 1 - lo') - 1) * 2 ^ lo')) := by
  rw [keepBits_eq_and, keepBits_eq_and, BitVec.and_or_distrib_left]

theorem word_fld_zero_eq_and (w : Word) (hi : Nat) : word (fld w hi 0) = w &&& BitVec.ofNat 64 (2 ^ (hi + 1) - 1) := by
  simpa [keepBits] using keepBits_eq_and w hi 0

theorem setWidth_six_eq_and (v : Word) : (v.setWidth 6).setWidth 64 = v &&& 0x3F := by
  apply BitVec.eq_of_toNat_eq
  have hmask : v.toNat &&& 63 = v.toNat % 64 := Nat.and_two_pow_sub_one_eq_mod v.toNat 6
  simp [hmask]
  omega

/-! ### Where a register stands (R267, R481) -/

theorem State.ctxOf_writeCtx (h : isLat k = true ∨ (s.crewAt k).isSome = true) (f : Ctx → Ctx) :
    (s.writeCtx k f).ctxOf k = f (s.ctxOf k) := by
  cases hl : isLat k with
  | true => simp [State.writeCtx, State.ctxOf, hl]
  | false =>
    obtain ⟨c, hc⟩ := Option.isSome_iff_exists.1 (h.resolve_left (by simp [hl]))
    have hkept : ∀ (n m : Nat) (p : Core → Core) (q : Die → Die), ((s.modCore n p).modDie m q).crewAt k = some c :=
      fun _ _ _ _ => hc
    simp [State.writeCtx, State.ctxOf, hl, hc, hkept, Core.ctxOf]

theorem State.horizon_writeHorizon (hl : isLat k = false) (f : CoreCounters → CoreCounters) (get : CoreCounters → Nat) :
    (s.writeHorizon k f).horizon k get = word (get (f (s.core (s.coreOf k)).counters)) := by
  have hcore : ∀ p : Core → Core, (s.modCore (s.coreOf k) p).coreOf k = s.coreOf k := fun _ => rfl
  simp [State.writeHorizon, State.horizon, hl, hcore]

/-- What a SYSWR has stored is what a SYSRD of the register returns. -/
theorem State.sysRead_sysWrite {r : SysReg} {v m : Word} (hm : storedBits r = some m)
    (hplace : isLat k = true ∨ (s.crewAt k).isSome = true) (hhz : isLat k = true → r ∉ [.hzc0, .hzc1, .hzc2, .hzc3]) :
    (s.sysWrite k r v).sysRead k r = v &&& m := by
  have trap (f : TrapRegs → TrapRegs) (get : TrapRegs → Word) {w : Word} (hw : get (f (s.thread k).trap) = w) :
      get ((s.modTrap k f).thread k).trap = w := by rw [State.modTrap, State.modThread_get_self, hw]
  have fp (f : FpRegs → FpRegs) (get : FpRegs → Word) {w : Word} (hw : get (f (s.thread k).fp) = w) :
      get ((s.modFp k f).thread k).fp = w := by rw [State.modFp, State.modThread_get_self, hw]
  have ctx (f : Ctx → Ctx) (get : Ctx → Word) {w : Word} (hw : get (f (s.ctxOf k)) = w) :
      get ((s.writeCtx k f).ctxOf k) = w := by rw [State.ctxOf_writeCtx hplace, hw]
  have horizon (f : CoreCounters → CoreCounters) (get : CoreCounters → Nat) {w : Word} (hr : isLat k = false)
      (hw : word (get (f (s.core (s.coreOf k)).counters)) = w) : (s.writeHorizon k f).horizon k get = w := by
    rw [State.horizon_writeHorizon hr, hw]
  have simt (hr : r ∈ [.hzc0, .hzc1, .hzc2, .hzc3]) : isLat k = false := Bool.eq_false_iff.2 fun hl => hhz hl hr
  cases r <;> cases hm
  case tvec => exact trap _ (·.tvec) (keepBits_or_eq_and v 56 3 0 0)
  case tepc => exact trap _ (·.tepc) (keepBits_eq_and v 56 3)
  case tcause => exact trap _ (·.tcause) (keepBits_eq_and v 15 0)
  case tval => exact trap _ (·.tval) BitVec.and_allOnes.symm
  case tscratch => exact trap _ (·.tscratch) BitVec.and_allOnes.symm
  case fflags => exact fp _ (·.fflags.setWidth 64) (setWidth_six_eq_and v)
  case ftrapen => exact fp _ (·.ftrapen.setWidth 64) (setWidth_six_eq_and v)
  case hbase => exact ctx _ (·.hbase) (keepBits_eq_and v 56 34)
  case hlimit => exact ctx _ (·.hlimit) (keepBits_eq_and v 56 34)
  case hoff => exact ctx _ (·.hoff) (keepBits_eq_and v 63 34)
  case hattr => exact ctx _ (·.hattr) (keepBits_eq_and v 15 0)
  case pgroot => exact ctx _ (·.pgroot) (keepBits_or_eq_and v 51 17 15 0)
  case hzc0 => exact horizon _ (·.hzc0) (simt (by decide)) (word_fld_zero_eq_and v 47)
  case hzc1 => exact horizon _ (·.hzc1) (simt (by decide)) (word_fld_zero_eq_and v 47)
  case hzc2 => exact horizon _ (·.hzc2) (simt (by decide)) (word_fld_zero_eq_and v 47)
  case hzc3 => exact horizon _ (·.hzc3) (simt (by decide)) (word_fld_zero_eq_and v 47)

/-! ### SYSRD, SYSWR and FIDSET -/

theorem supRegister_readOnly {r : SysReg} (h : r.readOnly = true) : supRegister r = false := by
  cases r with
  | hbase | hlimit | hoff | hattr | pgroot | hzc0 | hzc1 | hzc2 | hzc3 => cases h
  | _ => rfl

theorem exec_syswr (h : s.executes k g { anyCore with priv := supRegister r } .holds [a.toNat]) (hr : r.readOnly = false) :
    exec (.syswr g r a) s = .next ((s.sysWrite k r (s.readReg k a)).goTo k (nextPc (s.thread k).pc)) := by
  change execSyswr g r a s = _
  simp only [execSyswr, hr, Bool.false_eq_true, if_false]
  exact perThread_next h rfl

/-- A register marked RO (R469). -/
theorem exec_syswr_readOnly (h : s.executes k g anyCore .holds []) (hr : r.readOnly = true) :
    exec (.syswr g r a) s = .next (s.raise k cILLEGAL 0 (encode (.syswr g r a)) (s.thread k).pc) := by
  change execSyswr g r a s = _
  simp only [execSyswr, hr, if_true, supRegister_readOnly hr]
  exact perThread_raise_at h rfl

/-- Levels 4 to 14 are reserved (R397). -/
theorem loadFid_toNat (n : BitVec 4) : loadFid n.toNat = if 4 ≤ n.toNat ∧ n.toNat ≤ 14 then 15 else n := by
  simp [loadFid]

theorem exec_fidset (n : BitVec 4) (h : s.executes k g anyCore .holds []) :
    exec (.fidset g n) s = .next ((s.modThread k fun t =>
      { t with fp := { t.fp with fid := if 4 ≤ n.toNat ∧ n.toNat ≤ 14 then 15 else n } }).goTo k (nextPc (s.thread k).pc)) := by
  rw [← loadFid_toNat]
  exact perThread_next h rfl

/-! ### SLEEP and waking (R85, R87, R462) -/

/-- A thread that sleeps, out of its bundle. -/
def State.asleepThread (s : State) (k : Nat) : State :=
  (s.modThread k fun t => { t with st := { t.st with sleeping := true } }).leaveBundle k

theorem issue_sleep (h : s.executes k g privileged .holds []) :
    s.issue (.sleep g) g [] privileged .holds
      (fun k s => .go (s.modThread k fun t => { t with st := { t.st with sleeping := true } }) .hold) = s.asleepThread k :=
  Host.Outcome.next.inj (perThread_hold h rfl)

theorem exec_sleep_hart {n : Nat} (h : s.executes k g privileged .holds []) (hcur : s.cur = .hart n) :
    exec (.sleep g) s = .next (s.asleepThread k) := by
  change execSleep g s = _
  simp only [execSleep, issue_sleep h, hcur]

theorem exec_sleep_bundle {c p ix : Nat} (h : s.executes k g privileged .holds []) (hcur : s.cur = .bundle c p ix) :
    exec (.sleep g) s = .next ((s.asleepThread k).doze c) := by
  change execSleep g s = _
  simp only [execSleep, issue_sleep h, hcur]

/-- A core wakes without a mark when none of its words has bad parity. -/
theorem exec_coreWake {core : Nat} (h : s.mayWake core = true) (hbad : (s.core core).badParity = [])
    (hpar : ∀ k, (s.thread k).parity = 0) :
    exec (.coreWake core) s = .next (s.modCore core fun c => { c with asleep := false }) := by
  change execCoreWake core s = _
  simp [execCoreWake, h, hbad, hpar]

/-- Settles O48: each register is read where it is written, and the other forms are those of a lone thread. -/
theorem systemRegisters : Obligations.SystemRegisters := by
  refine ⟨fun s k g r d a => ⟨fun h => perThread_next h rfl, exec_syswr, exec_syswr_readOnly⟩,
    fun s k r v m hm _ hplace hhz => State.sysRead_sysWrite hm hplace hhz, fun s k g n => exec_fidset n, ?_,
    fun s core => exec_coreWake⟩
  intro s k g h t
  refine ⟨fun n hcur => exec_sleep_hart h hcur, fun c p ix hcur hdoze => ?_, fun c p ix hcur hdoze => ?_⟩
  · rw [exec_sleep_bundle h hcur]
    exact congrArg _ (if_neg (Bool.eq_false_iff.1 hdoze))
  · rw [exec_sleep_bundle h hcur]
    exact congrArg _ (if_pos hdoze)

end Sys2Proof.Machine
end

section
/-!
PROOFS. Reset, the traps that a thread's own handler takes, the traps that are handed over, and the instructions that take or
end a trap (R297, R298, R301, R303).
-/
namespace Sys2Proof.Machine

/-! ### Reset (R301) -/

theorem State.reset_thread_zero : State.reset.thread 0 = Thread.boot := rfl

theorem State.reset_hart (n : Nat) : State.reset.hart n = if n = 0 then { Hart.zero with run := true } else Hart.zero := by
  unfold State.hart AMap.get
  simp only [State.reset, AMap.find_cons, AMap.find_nil, eq_comm (a := 0)]
  split <;> rfl

theorem Thread.boot_reg (n : Nat) : Thread.boot.reg n = 0 := by
  unfold Thread.reg
  split
  · next h =>
    show (Vector.replicate 64 (0 : Word))[n] = 0
    simp
  · rfl

theorem Thread.boot_pred {p : Pred} (h : p ≠ 0) : Thread.boot.pred p = false := by
  revert p
  decide

/-- Settles O8: the one thread of the reset state is the boot thread, and every other table is empty. -/
theorem resetState : Obligations.ResetState := by
  unfold Obligations.ResetState
  simp only [State.reset_thread_zero, State.reset_hart]
  refine ⟨rfl, rfl, rfl, Thread.boot_reg, fun _ => Thread.boot_pred, rfl, rfl, rfl, rfl, fun n hn => ?_, fun n => ?_,
    rfl, rfl, fun _ => ⟨rfl, rfl⟩, fun _ => rfl⟩
  · rw [if_neg hn]
    rfl
  · split <;> exact ⟨rfl, rfl, rfl, rfl, rfl⟩

/-! ### Threads that leave their bundles -/

/-- No bundle of the core holds the thread. -/
def Core.without (c : Core) (k : Nat) : Prop := ∀ b ∈ c.bundles, k ∉ b.members

theorem Core.leave_without (c : Core) (k : Nat) : (c.leave k).without k := by
  intro b hb
  obtain ⟨b', -, rfl⟩ := List.mem_map.1 (List.mem_of_mem_filter hb)
  simp

theorem Core.without.leave {c : Core} {j : Nat} (h : c.without j) (k : Nat) : (c.leave k).without j := by
  intro b hb
  obtain ⟨b', hb', rfl⟩ := List.mem_map.1 (List.mem_of_mem_filter hb)
  exact fun hj => h b' hb' (List.mem_of_mem_filter hj)

@[simp] theorem State.leaveBundle_harts (s : State) (k : Nat) : (s.leaveBundle k).harts = s.harts := by
  unfold State.leaveBundle; split <;> rfl
@[simp] theorem State.leaveBundle_pkg (s : State) (k : Nat) : (s.leaveBundle k).pkg = s.pkg := by
  unfold State.leaveBundle; split <;> rfl
@[simp] theorem State.leaveBundle_gangs (s : State) (k : Nat) : (s.leaveBundle k).gangs = s.gangs := by
  unfold State.leaveBundle; split <;> rfl
@[simp] theorem State.leaveBundle_dies (s : State) (k : Nat) : (s.leaveBundle k).dies = s.dies := by
  unfold State.leaveBundle; split <;> rfl
@[simp] theorem State.leaveBundle_coreOf (s : State) (k j : Nat) : (s.leaveBundle k).coreOf j = s.coreOf j := by
  simp only [State.coreOf, State.crewAt, State.leaveBundle_crews]

theorem State.leaveBundle_without (s : State) {k : Nat} (h : isLat k = false) :
    ((s.leaveBundle k).core (s.coreOf k)).without k := by
  simp only [State.leaveBundle, h, Bool.false_eq_true, if_false, State.modCore_get_self]
  exact Core.leave_without _ k

/-- A thread that stands in no bundle of a core is in none after another thread has left its own. -/
theorem State.leaveBundle_keeps_without {s : State} {n j : Nat} (h : (s.core n).without j) (k : Nat) :
    ((s.leaveBundle k).core n).without j := by
  unfold State.leaveBundle
  split
  · exact h
  · by_cases hn : n = s.coreOf k
    · subst hn
      rw [State.modCore_get_self]
      exact h.leave k
    · rw [State.modCore_get_ne _ _ _ hn]
      exact h

/-- Threads that leave their bundles one after another: what stays of the state. -/
structure State.BundlesLeft (s t : State) : Prop where
  threads : t.threads = s.threads
  crews : t.crews = s.crews
  gangs : t.gangs = s.gangs
  harts : t.harts = s.harts
  mem : t.mem = s.mem
  pkg : t.pkg = s.pkg

theorem State.leaveBundles_left (ks : List Nat) (s : State) : State.BundlesLeft s (ks.foldl State.leaveBundle s) := by
  induction ks generalizing s with
  | nil => exact ⟨rfl, rfl, rfl, rfl, rfl, rfl⟩
  | cons k ks ih =>
    obtain ⟨h1, h2, h3, h4, h5, h6⟩ := ih (s.leaveBundle k)
    exact ⟨h1.trans (by simp), h2.trans (by simp), h3.trans (by simp), h4.trans (by simp), h5.trans (by simp), h6.trans (by simp)⟩

theorem State.leaveBundles_without {ks : List Nat} {k : Nat} (hk : k ∈ ks) (hlane : isLat k = false) (s : State) :
    ((ks.foldl State.leaveBundle s).core (s.coreOf k)).without k := by
  induction ks generalizing s with
  | nil => cases hk
  | cons j ks ih =>
    rw [List.foldl_cons]
    rcases List.mem_cons.1 hk with rfl | hk
    · exact List.foldlRecOn (motive := fun t : State => (t.core (s.coreOf k)).without k) _ _ (s.leaveBundle_without hlane)
        fun t ht j _ => State.leaveBundle_keeps_without ht j
    · simpa using ih hk (s.leaveBundle j)

/-! ### Which way a trap goes (R297, R298) -/

section takeTrap
variable {s : State} {k cause sub : Nat} {value ret : Word}

/-- The thread whose trap is taken: ENGINE has taken the first failure off its list (R143). -/
def State.trapping (s : State) (k cause : Nat) : State := if cause = cENGINE then s.modThread k Thread.popFailure else s

theorem State.trapping_other (h : cause ≠ cENGINE) : s.trapping k cause = s := if_neg h

theorem State.trapping_engine : s.trapping k cENGINE = s.modThread k Thread.popFailure := if_pos rfl

theorem State.takeTrap_called (h : cause = cSCALL ∨ cause = cINTR) :
    s.takeTrap k cause sub value ret = s.escalate k (causeWord cause sub) value ret := by
  have hE : cause ≠ cENGINE := by rcases h with rfl | rfl <;> decide
  have hP : ¬(cause = cPAGE_NP ∨ cause = cPAGE_PERM) := by rcases h with rfl | rfl <;> decide
  simp only [State.takeTrap, hE, hP, h, if_true, if_false]

theorem State.takeTrap_page (h : cause = cPAGE_NP ∨ cause = cPAGE_PERM) : s.takeTrap k cause sub value ret
    = if isLat k then s.escalate k (causeWord cause sub) value ret else s.pageFault k (causeWord cause sub) value := by
  have hE : cause ≠ cENGINE := by rcases h with rfl | rfl <;> decide
  simp only [State.takeTrap, hE, h, if_true, if_false]

variable (hc : cause ∉ [cPAGE_NP, cPAGE_PERM, cSCALL, cINTR])
include hc

/-- The causes that the own handler can take. -/
theorem State.takeTrap_handled : s.takeTrap k cause sub value ret =
    let u := s.trapping k cause
    if (u.thread k).trap.ta then
      (u.modThread k fun t => { t with trap := { t.trap with cause2 := BitVec.ofNat 8 cause, tval2 := value } }).escalate k
        (causeWord cDOUBLE 0) value (u.thread k).pc
    else if !bitAt (u.thread k).trap.tvec 0 then u.escalate k (causeWord cause sub) value ret
    else (u.leaveBundle k).setThread k ((u.thread k).enter (causeWord cause sub) value ret) := by
  simp only [List.mem_cons, List.not_mem_nil, or_false, not_or] at hc
  obtain ⟨h1, h2, h3, h4⟩ := hc
  simp only [State.takeTrap, h1, h2, h3, h4, or_self, if_false]
  rfl

/-- Entry at the own handler. -/
theorem State.takeTrap_own (hta : (s.thread k).trap.ta = false) (hen : bitAt (s.thread k).trap.tvec 0 = true) :
    s.takeTrap k cause sub value ret = ((s.trapping k cause).leaveBundle k).setThread k
      (((s.trapping k cause).thread k).enter (causeWord cause sub) value ret) := by
  have hsame : ((s.trapping k cause).thread k).trap.ta = (s.thread k).trap.ta
      ∧ ((s.trapping k cause).thread k).trap.tvec = (s.thread k).trap.tvec := by
    unfold State.trapping
    split
    · rw [State.modThread_get_self]
      exact ⟨rfl, rfl⟩
    · exact ⟨rfl, rfl⟩
  obtain ⟨hta', hen'⟩ := hsame
  rw [State.takeTrap_handled hc]
  simp only [hta', hta, hen', hen, Bool.false_eq_true, if_false, Bool.not_true]

end takeTrap

/-- Settles O21: the trap enters the thread at its handler, and of the rest it only takes the thread out of its bundle. -/
theorem trapEntry : Obligations.TrapEntry := by
  refine ⟨?engine, ?other⟩
  case engine =>
    rintro s t k sub value ret hta hen rfl
    rw [State.takeTrap_own (by decide) hta hen, State.trapping_engine]
    simp [Thread.enter, Thread.popFailure, causeWord]
  case other =>
    rintro s t k cause sub value ret hc hta hen rfl
    simp only [List.mem_cons, List.not_mem_nil, or_false, not_or] at hc
    obtain ⟨h1, h2, h3, h4, hE⟩ := hc
    rw [State.takeTrap_own (by simp [h1, h2, h3, h4]) hta hen, State.trapping_other hE]
    refine ⟨?_, ?_, ?_, ?_, ?_, ?_, ?_, fun j hj => ?others, ?_, ?_, ?_, ?_, ?_, ?_, fun hlane => s.leaveBundle_without hlane⟩
    case others =>
      rw [State.setThread_get_ne _ _ _ hj]
      simp
    all_goals simp [Thread.enter, causeWord]

/-! ### A page fault on a SIMT core (R164) -/

section pageFault
variable {s : State} {k : Nat} {cause va : Word}

/-- The thread stands with its page fault. -/
def State.pendsFault (s : State) (k : Nat) (cause va : Word) : State :=
  s.modThread k fun t => { t with st := { t.st with pending := .fault cause va } }

theorem State.pageFault_left (s : State) (k : Nat) (cause va : Word) :
    State.BundlesLeft (s.pendsFault k cause va) ((s.pendsFault k cause va).stopCrew (crewOf k)) := State.leaveBundles_left ..

theorem State.pageFault_thread (j : Nat) : (s.pageFault k cause va).thread j = (s.pendsFault k cause va).thread j :=
  congrArg (fun ts : AMap Thread => ts.get j .zero) (State.pageFault_left s k cause va).threads

theorem State.pendsFault_thread (j : Nat) : ((s.pendsFault k cause va).thread j)
    = if j = k then { s.thread k with st := { (s.thread k).st with pending := .fault cause va } } else s.thread j := by
  split
  · next h =>
    subst h
    exact State.modThread_get_self ..
  · next h => exact State.modThread_get_ne _ _ _ h

theorem State.pageFault_without {j : Nat} (hj : j ∈ s.laneKeys (crewOf k)) :
    ((s.pageFault k cause va).core (s.coreOf j)).without j := by
  obtain ⟨⟨l, -, rfl⟩, hsome⟩ := State.mem_laneKeys.1 hj
  have hmem : laneKey (crewOf k) l ∈ (s.pendsFault k cause va).laneKeys (crewOf k) := by
    refine State.mem_laneKeys.2 ⟨(State.mem_laneKeys.1 hj).1, ?_⟩
    show ((AMap.set s.threads k _).find _).isSome = true
    rw [AMap.find_set]
    split
    · rfl
    · exact hsome
  exact State.leaveBundles_without hmem (isLat_laneKey ..) (s.pendsFault k cause va)

theorem State.pageFault_crewAt {c : Crew} (h : s.crewAt k = some c) :
    (s.pageFault k cause va).crewAt k = some { c with place := if c.place.onCore then .stopping else c.place } := by
  have hcrews := (State.pageFault_left s k cause va).crews
  have hsame : ((s.pendsFault k cause va).stopCrew (crewOf k)).crewAt k = s.crewAt k := by
    simp only [State.crewAt, hcrews]
    rfl
  show (State.modCrew ..).crewAt k = _
  rw [State.crewAt_modCrew, if_pos rfl]
  exact (congrArg _ (hsame.trans h)).trans rfl

end pageFault

theorem State.raise_normal {s : State} {k : Nat} (h : (s.thread k).spec.mode = .normal) (cause sub : Nat) (value ret : Word) :
    s.raise k cause sub value ret = s.takeTrap k cause sub value ret := by simp [State.raise, h]

theorem State.raise_held {s : State} {k : Nat} (h : (s.thread k).spec.mode ≠ .normal) (cause sub : Nat) (value ret : Word) :
    s.raise k cause sub value ret = s.holdTrap k cause sub value ret := by simp [State.raise, h]

/-- Settles O22: the trap's cause, TA and tvec.EN name the branch that it takes. -/
theorem trapHandedOver : Obligations.TrapHandedOver := by
  refine ⟨fun s k cause sub value ret => ⟨fun h => State.raise_normal h .., fun h => ⟨_, State.raise_held h .., ?_⟩⟩,
    fun s k cause sub value ret hE => ⟨State.takeTrap_called, fun hp hlat => ?_,
      fun hp hlane => ⟨s.pageFault k (causeWord cause sub) value, ?_, ?_⟩,
      fun hc hta => ?_, fun hc hta hen => ?_⟩⟩
  · simp [State.holdTrap]
  · rw [State.takeTrap_page hp, if_pos hlat]
    rfl
  · rw [State.takeTrap_page hp, hlane]
    rfl
  · obtain ⟨-, -, hgangs, hharts, hmem, hpkg⟩ := State.pageFault_left s k (causeWord cause sub) value
    refine ⟨?_, fun j hj => State.pageFault_without hj, fun c hc => State.pageFault_crewAt hc, fun j => ?_, hmem, hharts, hpkg, hgangs⟩
    · rw [State.pageFault_thread, State.pendsFault_thread, if_pos rfl]
      rfl
    · rw [State.pageFault_thread, State.pendsFault_thread]
      split
      · next h =>
        subst h
        exact ⟨rfl, rfl, rfl, rfl, rfl, fun hj => absurd rfl hj⟩
      · exact ⟨rfl, rfl, rfl, rfl, rfl, fun _ => rfl⟩
  · rw [State.takeTrap_handled hc, State.trapping_other hE]
    simp only [hta, if_true]
    rfl
  · rw [State.takeTrap_handled hc, State.trapping_other hE]
    simp only [hta, hen, Bool.false_eq_true, if_false, Bool.not_false, if_true]
    rfl

/-! ### ERET, TRAP, BKPT and TFENCE -/

section instructions
variable {s : State} {k : Nat} {g : Guard}

theorem exec_eret_returns (h : s.executes k g anyCore .runs []) (hta : (s.thread k).trap.ta = true) :
    exec (.eret g) s = .next ((s.setThread k (s.thread k).returned).goTo k (s.thread k).returned.pc) := by
  refine perThread_jump h ?_
  simp [hta]

theorem exec_eret_illegal (h : s.executes k g anyCore .runs []) (hta : (s.thread k).trap.ta = false) :
    exec (.eret g) s = .next (s.raise k cILLEGAL 0 (encode (.eret g)) (s.thread k).pc) := by
  refine perThread_raise h (after := false) ?_
  simp [hta]

theorem exec_trap {n : BitVec 16} (h : s.executes k g anyCore .holds []) :
    exec (.trap g n) s = .next (s.raise k cTRAP 0 (n.setWidth 64) (nextPc (s.thread k).pc)) :=
  perThread_raise h (after := true) rfl

theorem exec_bkpt {n : BitVec 16} (h : s.executes k g anyCore .runs []) :
    exec (.bkpt g n) s = .next (s.raise k cBKPT 0 (n.setWidth 64) (s.thread k).pc) :=
  perThread_raise h (after := false) rfl

theorem exec_tfence (h : s.executes k g anyCore .holds []) : exec (.tfence g) s
    = .next (if (s.thread k).fp.enabled = 0 then s.advance k
      else s.raise k cARITH 0 ((s.thread k).fp.enabled.setWidth 64) (nextPc (s.thread k).pc)) := by
  split
  · next hv => exact perThread_next h (if_pos hv)
  · next hv => exact perThread_raise h (after := true) (if_neg hv)

end instructions

/-- The state behind an ERET that returns. -/
def State.returned (s : State) (k : Nat) : State := (s.setThread k (s.thread k).returned).goTo k (s.thread k).returned.pc

theorem State.returned_thread (s : State) (k : Nat) :
    (s.returned k).thread k = (s.thread k).returned.goTo (s.thread k).returned.pc := by
  simp [State.returned, State.goTo]

theorem State.returned_thread_ne (s : State) {k j : Nat} (hj : j ≠ k) : (s.returned k).thread j = s.thread j := by
  rw [State.returned, State.goTo, State.modThread_get_ne _ _ _ hj, State.setThread_get_ne _ _ _ hj]

/-- Settles O24: by whether TA is set. -/
theorem returnFromTrap : Obligations.ReturnFromTrap := by
  intro g s k h
  refine ⟨fun hta => ⟨s.returned k, exec_eret_returns h hta, ?_⟩, fun hta => exec_eret_illegal h hta⟩
  rw [State.returned_thread]
  exact ⟨rfl, rfl, rfl, rfl, rfl, rfl, rfl, fun j hj => s.returned_thread_ne hj, rfl, rfl, rfl, rfl, rfl⟩

/-- Settles O25: each of them is one trap of the thread that issues alone, or none. -/
theorem trapInstructions : Obligations.TrapInstructions :=
  ⟨fun _ _ _ _ h => exec_trap h, fun _ _ _ _ h => exec_bkpt h, fun _ _ _ h => exec_tfence h⟩

end Sys2Proof.Machine
end

section
/-!
PROOFS. Escalations: the record, the hardware thread that goes idle, and the lane whose thread stands in the save area (R49,
R299, R300).
-/
namespace Sys2Proof.Machine

variable {s : State} {k : Nat} {cause value : Word}

theorem State.units_eq_iff {s t : State} : s.units = t.units ↔
    s.dies = t.dies ∧ s.harts = t.harts ∧ s.nets = t.nets ∧ s.ports = t.ports ∧ s.pkg = t.pkg := by
  simp [State.units]

/-! ### The escalation queue (R299) -/

@[simp] theorem State.putFrame_work (a : Nat) (ws : List Word) : (s.putFrame a ws).work = s.work := State.hwPut_work s a _
@[simp] theorem State.putFrame_units (a : Nat) (ws : List Word) : (s.putFrame a ws).units = s.units := State.hwPut_units s a _

/-- The head of the queue one further. -/
def State.nextRecord (s : State) : State := { s with pkg := { s.pkg with escHead := (s.pkg.escHead + 1) % 65536 } }

theorem State.escRecord_eq (s : State) (f : Nat) (cause value tid : Word) : ∃ a bs,
    s.escRecord f cause value tid = (s.hwPut a bs).nextRecord := ⟨_, _, rfl⟩

theorem State.nextRecord_units {s t : State} (h : s.units = t.units) : s.nextRecord.units = t.nextRecord.units := by
  obtain ⟨hdies, hharts, hnets, hports, hpkg⟩ := State.units_eq_iff.1 h
  simp only [State.units, State.nextRecord, hdies, hharts, hnets, hports, hpkg]

theorem State.escRecord_work (s : State) (f : Nat) (cause value tid : Word) : (s.escRecord f cause value tid).work = s.work := by
  obtain ⟨a, bs, h⟩ := s.escRecord_eq f cause value tid
  rw [h]
  exact State.hwPut_work s a bs

theorem State.escRecord_units (s : State) (f : Nat) (cause value tid : Word) :
    (s.escRecord f cause value tid).units = s.nextRecord.units := by
  obtain ⟨a, bs, h⟩ := s.escRecord_eq f cause value tid
  rw [h]
  exact State.nextRecord_units (State.hwPut_units s a bs)

/-- A record leaves the threads, the crews and the units, but the head of the queue. -/
theorem State.escRecord_spec (s : State) (f : Nat) (cause value tid : Word) {t : State} (h : t = s.escRecord f cause value tid) :
    (∀ j, t.thread j = s.thread j) ∧ t.crews = s.crews ∧ t.harts = s.harts ∧ (∀ d, t.die d = s.die d)
      ∧ t.pkg.escHead = (s.pkg.escHead + 1) % 65536 := by
  obtain ⟨hthreads, hcrews, -⟩ := State.work_eq_iff.1 (s.escRecord_work f cause value tid)
  obtain ⟨-, hharts, -, -, hpkg⟩ := State.units_eq_iff.1 (s.escRecord_units f cause value tid)
  refine ⟨fun j => ?_, h ▸ hcrews, h ▸ hharts, fun d => ?_, ?_⟩
  · rw [h, State.thread, hthreads]
    rfl
  · rw [h, State.die_of_units (s.escRecord_units f cause value tid)]
    rfl
  · rw [h, hpkg]
    rfl

/-! ### A hardware thread's thread is told by the same key whatever it does (R49) -/

/-- An entry that a predicate rejects, before and after it is written, is not the one that it finds. -/
theorem AMap.find?_set_rejected {β : Type} (m : AMap β) {i : Nat} (v : β) {p : Nat × β → Bool} (h : ∀ b, p (i, b) = false) :
    (AMap.set m i v).find? p = List.find? p m := by
  induction m with
  | nil => simp [AMap.set, h]
  | cons e m ih =>
    unfold AMap.set
    split
    · simp [h]
    · split
      · next hi =>
        have hrej : p e = false := by subst hi; exact h e.2
        simp [h, hrej]
      · simp only [List.find?_cons, ih]

theorem State.heldLane_modThread (hlat : isLat k = true) (f : Thread → Thread) (t : Thread) :
    (s.modThread k f).heldLane t = s.heldLane t := by
  have hk : ¬256 ≤ k := by simpa [isLat] using hlat
  exact congrArg (Option.map _) (AMap.find?_set_rejected _ _ fun b => by simp [hk])

theorem State.countKey_of_threads {s t : State} (h : s.threads = t.threads) (k : Nat) : s.countKey k = t.countKey k := by
  simp only [State.countKey, State.heldLane, State.thread, h]
  rfl

theorem State.countKey_modThread (hlat : isLat k = true) {f : Thread → Thread} (hids : (f (s.thread k)).ids = (s.thread k).ids)
    (haway : (f (s.thread k)).st.away = (s.thread k).st.away) : (s.modThread k f).countKey k = s.countKey k := by
  have hheld : s.heldLane (f (s.thread k)) = s.heldLane (s.thread k) := by simp only [State.heldLane, hids]
  simp only [State.countKey, State.modThread_get_self, haway, State.heldLane_modThread hlat, hheld, tidKey, hids]

/-! ### A hardware thread that goes idle (R300) -/

/-- What a thread keeps beside its frame goes to its held lane, and to no other thread. -/
theorem State.keepCounters_thread (s : State) (n j : Nat) : (s.keepCounters n).thread j
    = if s.countKey n = j ∧ j < 2 ^ 64 then
        { (s.thread j).withHeld (s.thread n).signals (s.thread n).failures with oc := (s.thread n).oc }
      else s.thread j := by
  unfold State.keepCounters
  extract_lets t l
  by_cases hl : l < 2 ^ 64
  · rw [if_pos hl]
    by_cases hj : j = l
    · subst hj
      rw [State.modThread_get_self, if_pos ⟨rfl, hl⟩]
    · rw [State.modThread_get_ne _ _ _ hj, if_neg (by rintro ⟨rfl, -⟩; exact hj rfl)]
  · have hno : ¬(s.countKey n = j ∧ j < 2 ^ 64) := by
      rintro ⟨rfl, h⟩
      exact hl h
    rw [if_neg hl, if_neg hno]
    split <;> rfl

theorem State.keepCounters_pkg (s : State) (n : Nat) : (s.keepCounters n).pkg = s.pkg := by
  unfold State.keepCounters
  dsimp only
  split
  · rfl
  · split <;> rfl

theorem State.idleHart_pkg (s : State) (n : Nat) : (s.idleHart n).pkg = s.pkg := s.keepCounters_pkg n

theorem State.idleHart_run (s : State) (n : Nat) : ((s.idleHart n).hart n).run = false :=
  congrArg Hart.run (State.modHart_get_self (s.keepCounters n) n fun h => { h with run := false, load := none, yielded := false })

theorem State.idleHart_empty (s : State) (n : Nat) : (s.idleHart n).threads.find n = none := AMap.find_del_self ..

theorem State.idleHart_thread (s : State) {n j : Nat} (h : j ≠ n) : (s.idleHart n).thread j = (s.keepCounters n).thread j :=
  AMap.get_del_ne _ _ _ h

theorem State.loadSup_idle {n : Nat} (h : fld (s.hart n).htsup 51 10 = 0) : s.loadSup n = s.idleHart n := by
  simp [State.loadSup, h]

/-! ### The escalation of a latency thread -/

/-- The frame saved and the record queued, before another thread is loaded. -/
def State.frameQueued (s : State) (n : Nat) (cause value : Word) : State :=
  let a := htSaveAddr (s.hart n)
  (if a = 0 then s else s.putFrame a (s.hartFrame n)).escRecord a cause value (s.thread n).ids.tid

theorem State.escalateHart_eq (s : State) (n : Nat) (cause value : Word) :
    s.escalateHart n cause value = (s.frameQueued n cause value).loadSup n := rfl

theorem State.frameQueued_work (s : State) (n : Nat) (cause value : Word) : (s.frameQueued n cause value).work = s.work := by
  rw [State.frameQueued, State.escRecord_work]
  split
  · rfl
  · exact State.putFrame_work ..

theorem State.frameQueued_units (s : State) (n : Nat) (cause value : Word) :
    (s.frameQueued n cause value).units = s.nextRecord.units := by
  rw [State.frameQueued, State.escRecord_units]
  refine State.nextRecord_units ?_
  split
  · rfl
  · exact State.putFrame_units ..

/-- The handing over of a hardware thread's thread, with no supervisor frame to load. -/
theorem State.escalateHart_idle {n : Nat} (h : fld (s.hart n).htsup 51 10 = 0) :
    s.escalateHart n cause value = (s.frameQueued n cause value).idleHart n := by
  obtain ⟨-, hharts, -⟩ := State.units_eq_iff.1 (s.frameQueued_units n cause value)
  rw [State.escalateHart_eq]
  exact State.loadSup_idle (by rw [State.hart, hharts]; exact h)

/-- A thread that escalates, at its return address. -/
def Thread.leaving (ret : Word) (p : Pending) (t : Thread) : Thread := { t with pc := ret, st := { t.st with pending := p } }

section hart
variable {ret : Word} (hlat : isLat k = true)
include hlat

theorem State.escalate_full (h : s.escFull = true) :
    s.escalate k cause value ret = s.modThread k (Thread.leaving ret (.esc cause value)) := by
  have hf : (s.modThread k (Thread.leaving ret (.esc cause value))).escFull = true := h
  simp only [State.escalate, State.leaveBundle_lat hlat, hlat, if_true]
  exact if_pos hf

theorem State.escalate_room (h : s.escFull = false) :
    s.escalate k cause value ret = (s.modThread k (Thread.leaving ret .none)).escalateHart k cause value := by
  have hf : ¬(s.modThread k (Thread.leaving ret (.esc cause value))).escFull = true := ne_of_eq_of_ne h Bool.false_ne_true
  simp only [State.escalate, State.leaveBundle_lat hlat, hlat, if_true]
  refine (if_neg hf).trans ?_
  rw [State.modThread_modThread]
  rfl

/-- What the handing over leaves, once the queue has room and no supervisor frame is there to load. -/
theorem State.escalate_idle (h : s.escFull = false) (hsup : fld (s.hart k).htsup 51 10 = 0) {t : State}
    (ht : t = s.escalate k cause value ret) :
    t.pkg.escHead = (s.pkg.escHead + 1) % 65536 ∧ (t.hart k).run = false ∧ t.threads.find k = none
      ∧ ∀ j, j ≠ k → t.thread j = if s.countKey k = j ∧ j < 2 ^ 64 then
          { (s.thread j).withHeld (s.thread k).signals (s.thread k).failures with oc := (s.thread k).oc } else s.thread j := by
  let u := s.modThread k (Thread.leaving ret .none)
  have hleaves : t = (u.frameQueued k cause value).idleHart k := by
    rw [ht, State.escalate_room hlat h]
    exact State.escalateHart_idle hsup
  obtain ⟨-, -, -, -, hpkg⟩ := State.units_eq_iff.1 (u.frameQueued_units k cause value)
  obtain ⟨hthreads, -⟩ := State.work_eq_iff.1 (u.frameQueued_work k cause value)
  have hthread : ∀ j, (u.frameQueued k cause value).thread j = u.thread j := fun j => by rw [State.thread, hthreads]; rfl
  have hkey : (u.frameQueued k cause value).countKey k = s.countKey k :=
    (State.countKey_of_threads hthreads k).trans (State.countKey_modThread hlat rfl rfl)
  refine ⟨?_, ?_, ?_, fun j hj => ?_⟩
  · rw [hleaves, State.idleHart_pkg, hpkg]
    rfl
  · rw [hleaves, State.idleHart_run]
  · rw [hleaves, State.idleHart_empty]
  · rw [hleaves, State.idleHart_thread _ hj, State.keepCounters_thread, hkey, hthread, hthread, State.modThread_get_self,
      State.modThread_get_ne _ _ _ hj]
    rfl

end hart

/-! ### The row ESCALATION -/

section row
variable (hp : (s.thread k).st.pending = .esc cause value) (hin : (s.threads.find k).isSome = true) (hq : s.pkg.qsd = false)
include hp hin hq

theorem exec_escalation_hart (hf : s.escFull = false) (hlat : isLat k = true) : exec (.escalation k) s
    = .next ((s.modThread k fun t => { t with st := { t.st with pending := .none } }).escalateHart k cause value) := by
  show execEscalation k s = _
  simp [execEscalation, hp, Option.isNone_eq_false_iff.2 hin, hq, hlat, hf]

theorem exec_escalation_lane {c : Crew} (hlane : isLat k = false) (hc : s.crewAt k = some c) (hres : c.place = .resident) :
    exec (.escalation k) s = .next (s.escalateLane k cause value) := by
  show execEscalation k s = _
  simp [execEscalation, hp, Option.isNone_eq_false_iff.2 hin, hq, hlane, hc, hres]

end row

/-! ### The escalation of a SIMT thread -/

/-- A lane that is held for its escalated thread. -/
def Thread.heldAway (t : Thread) : Thread := { t with st := { t.st with away := true, pending := .none, live := false } }

/-- The lane held, its frame in the save area. -/
def State.laneSaved (s : State) (k a : Nat) : State :=
  let u := (s.scrub k).modThread k Thread.heldAway
  (u.putFrame a (u.laneFrame k)).modDie (s.dieOf k) fun x => { (x.take a 1024) with escalated := (a, k) :: x.escalated }

theorem State.escalateLane_saves {a : Nat} (ha : (s.die (s.dieOf k)).findRoom 1024 1024 = some a) (hf : s.escFull = false)
    (hpend : s.pendingOf k = []) :
    s.escalateLane k cause value = (s.laneSaved k a).escRecord a cause value ((s.laneSaved k a).thread k).ids.tid := by
  simp only [State.escalateLane, ha, hf, hpend, List.isEmpty_nil, Bool.not_true, Bool.or_false, Bool.false_eq_true, if_false]
  rfl

/-- A scrub counts the bad words, in the core, and changes the thread. -/
theorem State.scrub_eq (s : State) (k : Nat) : ∃ u : State,
    s.scrub k = u.modThread k Thread.scrubbed ∧ u.work = s.work ∧ u.units = s.units :=
  ⟨_, rfl, foldl_keeps (P := State.work) (f := fun s _ => s.countParity (s.coreOf k)) (fun _ _ => rfl) _ s,
    foldl_keeps (P := State.units) (f := fun s _ => s.countParity (s.coreOf k)) (fun _ _ => rfl) _ s⟩

/-- What the saving of a lane leaves. -/
theorem State.laneSaved_spec (s : State) (k a : Nat) :
    (∀ j, (s.laneSaved k a).thread j = if j = k then (s.thread k).scrubbed.heldAway else s.thread j)
      ∧ (s.laneSaved k a).crews = s.crews ∧ (s.laneSaved k a).harts = s.harts ∧ (s.laneSaved k a).pkg = s.pkg
      ∧ (s.laneSaved k a).die (s.dieOf k)
        = { (s.die (s.dieOf k)).take a 1024 with escalated := (a, k) :: (s.die (s.dieOf k)).escalated } := by
  obtain ⟨v, hv, hwork, hunits⟩ := s.scrub_eq k
  obtain ⟨hthreads, hcrews, -⟩ := State.work_eq_iff.1 hwork
  unfold State.laneSaved
  rw [hv, State.modThread_modThread]
  extract_lets u
  obtain ⟨hthreads', hcrews', -⟩ := State.work_eq_iff.1 (State.putFrame_work (s := u) a (u.laneFrame k))
  obtain ⟨hdies', hharts', -, -, hpkg'⟩ := State.units_eq_iff.1 (State.putFrame_units (s := u) a (u.laneFrame k))
  obtain ⟨hdies, hharts, -, -, hpkg⟩ := State.units_eq_iff.1 hunits
  have hv' : ∀ j, v.thread j = s.thread j := fun j => by rw [State.thread, hthreads]; rfl
  refine ⟨fun j => ?_, ?_, ?_, ?_, ?_⟩
  · have hu : (u.putFrame a (u.laneFrame k)).thread j = u.thread j := by rw [State.thread, hthreads']; rfl
    rw [State.modDie_get_thread, hu]
    split
    · next h =>
      subst h
      rw [State.modThread_get_self, hv']
    · next h => rw [State.modThread_get_ne _ _ _ h, hv']
  · rw [State.modDie_crews, hcrews', State.modThread_crews, hcrews]
  · rw [State.modDie_harts, hharts', State.modThread_harts, hharts]
  · rw [State.modDie_pkg, hpkg', State.modThread_pkg, hpkg]
  · rw [State.modDie_get_self, State.die, hdies', show u.dies = s.dies from hdies]
    rfl

/-- Settles O23: the thread is handed over where the queue has room, and otherwise waits at its return address; the row does
the same for a thread that waited. -/
theorem latencyEscalation : Obligations.LatencyEscalation := by
  refine ⟨fun s t k cause value ret hlat ht => ⟨fun hf => ?full, fun hf hsup => ?idle⟩,
    fun s k cause value hp hin hq hf => ⟨exec_escalation_hart hp hin hq hf, fun c a hlane hc hres hpend ha => ?lane⟩⟩
  case full =>
    rw [ht, State.escalate_full hlat hf, State.modThread_get_self]
    exact ⟨rfl, rfl, rfl, rfl, rfl⟩
  case idle =>
    obtain ⟨hhead, hrun, hempty, hthread⟩ := State.escalate_idle hlat hf hsup ht
    refine ⟨hhead, hrun, hempty, fun l hl hlt hne => ?_, fun j hj hkey => ?_⟩
    · rw [hthread l hne, if_pos ⟨hl, hlt⟩]
    · rw [hthread j hj, if_neg fun h => hkey h.1.symm]
  case lane =>
    obtain ⟨hthread, hcrews, hharts, hpkg, hdie⟩ := s.laneSaved_spec k a
    obtain ⟨hthread', hcrews', hharts', hdie', hhead⟩ := (s.laneSaved k a).escRecord_spec a cause value _ rfl
    refine ⟨_, (exec_escalation_lane hp hin hq hlane hc hres).trans (congrArg _ (State.escalateLane_saves ha hf hpend)), ?_⟩
    generalize (s.laneSaved k a).escRecord a cause value ((s.laneSaved k a).thread k).ids.tid = t at *
    rw [hthread', hthread, if_pos rfl, hdie', hdie, hhead, hpkg]
    refine ⟨rfl, rfl, rfl, rfl, List.mem_cons_self, List.mem_cons_self, hcrews'.trans hcrews, hharts'.trans hharts, fun j hj => ?_⟩
    rw [hthread', hthread, if_neg hj]

end Sys2Proof.Machine
end

section
/-!
PROOFS. The quiesce commands (R312 to R316, R322).
-/
namespace Sys2Proof.Machine

variable {s : State} {n : Nat}

theorem State.command_running (hb : s.pkg.qbusy = true) (hc : s.pkg.qcmd = n) : s.command n = true := by
  simp [State.command, hb, hc]

/-- The end of a command shows in four registers of the package (R312, R328). -/
theorem State.endCommand_pkg (s : State) (result : Nat) : (s.endCommand result).pkg
    = { s.pkg with qbusy := false, qresult := result, pkgevt := s.pkg.pkgevt ||| (1#3 <<< 0) } := by
  obtain ⟨hs, h⟩ := State.pkgEvent_eq { s with pkg := { s.pkg with qbusy := false, qresult := result } } 0
  rw [State.endCommand, h]

/-- A quiesced package issues nothing. -/
theorem step_quiesced (ha : s.agenda = []) (hcur : s.cur.exists' = true) (hq : s.pkg.qsd = true) : step s = .next s.tick := by
  have hhalt : s.tick.halted = true := by
    have hq' : s.tick.pkg.qsd = true := hq
    simp [State.halted, hq']
  rw [step_no_turn ha, if_pos hcur, step.stepIssuer, if_pos hhalt]

/-! ### What each command does while it runs -/

/-- What a QUIESCE brings to storage before the package stands quiesced: the charges, the region blocks, the caches. -/
def State.broughtHome (s : State) : State :=
  ((s.cores.map (·.1)).foldl (fun s c => s.postCharges c fun _ => true) s).writeBackAll.flushAll

/-- QUIESCE once everything that had begun is done. -/
def State.quiesced (s : State) : State :=
  { s.broughtHome with pkg := { s.broughtHome.pkg with qsd := true } }.endCommand 0

/-- IMAGE of a quiesced package whose page list is good: the image where the buffer holds it. -/
def State.writeImage (s : State) : State :=
  if s.pkg.qlen.toNat < s.withoutFills.image.length then
    ((s.freeBytes s.pkg.qlen.toNat).2.hwPut s.imageBase (s.freeBytes s.pkg.qlen.toNat).1).endCommand 2
  else (s.hwPut s.imageBase s.withoutFills.image).endCommand 0

section commands
variable (hb : s.pkg.qbusy = true)
include hb

theorem exec_quiesce (hc : s.pkg.qcmd = 1) : exec .quiesce s
    = .next (let spec := (s.threads.filter fun e => decide (256 ≤ e.1) && e.2.spec.mode != .normal).map (·.1)
      let s1 := (spec.foldl State.squash s).stopAllChains
      s1.crews.foldl State.abandonPrefill s1) := by
  show execQuiesce s = _
  simp only [execQuiesce, State.command_running hb hc, Bool.not_true, Bool.false_eq_true, if_false]

theorem exec_quiesceComplete (hc : s.pkg.qcmd = 1) :
    exec .quiesceComplete s = .next (if s.drained then s.quiesced else s) := by
  show execQuiesceComplete s = _
  simp only [execQuiesceComplete, State.command_running hb hc, Bool.true_and]
  rfl

theorem exec_image (hc : s.pkg.qcmd = 2) : exec .image s
    = .next (if !s.pkg.qsd then s.endCommand 1 else if s.pageListBad then s.endCommand 3 else s.writeImage) := by
  show execImage s = _
  simp only [execImage, State.command_running hb hc, Bool.not_true, Bool.false_eq_true, if_false]
  rfl

theorem exec_restore (hc : s.pkg.qcmd = 3) : exec .restore s
    = .next (if !s.pkg.qsd then s.endCommand 1 else if !s.holdsNothing then s.endCommand 7
      else if s.imageCheck = 0 then s.install.endCommand 0 else s.endCommand s.imageCheck) := by
  show execRestore s = _
  simp only [execRestore, State.command_running hb hc, Bool.not_true, Bool.false_eq_true, if_false]

theorem exec_resume (hc : s.pkg.qcmd = 4) : exec .resume s
    = .next (if !s.pkg.qsd then s.endCommand 1 else
      let s1 := { s with pkg := { s.pkg with qsd := false } }.endCommand 0
      let links := (s1.ports.map fun e => Link.herpin e.1) ++ s1.links.map fun e => Link.ucie e.1
      let s2 := links.foldl State.deliverKept s1
      (s2.crews.foldl State.goOn s2).resumeHartChains) := by
  show execResume s = _
  simp only [execResume, State.command_running hb hc, Bool.not_true, Bool.false_eq_true, if_false]

end commands

/-! ### What the ends show -/

theorem State.quiesced_pkg (s : State) : s.quiesced.pkg.qsd = true ∧ s.quiesced.pkg.qbusy = false ∧ s.quiesced.pkg.qresult = 0
    ∧ s.quiesced.pkg.pkgevt.getLsbD 0 = true := by
  rw [State.quiesced, State.endCommand_pkg]
  exact ⟨rfl, rfl, rfl, by simp⟩

theorem State.writeImage_fits (h : s.withoutFills.image.length ≤ s.pkg.qlen.toNat) :
    s.writeImage = (s.hwPut s.imageBase s.withoutFills.image).endCommand 0 := if_neg (Nat.not_lt.2 h)

theorem State.writeImage_short (h : s.pkg.qlen.toNat < s.withoutFills.image.length) :
    s.writeImage.pkg.qresult = 2 ∧ s.writeImage.pkg.qbusy = false := by
  rw [State.writeImage, if_pos h, State.endCommand_pkg]
  exact ⟨rfl, rfl⟩

theorem State.holdsNothing_iff : s.holdsNothing = true ↔ s.crews = [] ∧ s.gangs = [] := by simp [State.holdsNothing]

/-- Settles O60: each command by whether the package is quiesced, and by what its checks say. -/
theorem quiesceCommands : Obligations.QuiesceCommands := by
  refine ⟨fun s => step_quiesced, fun s hb => ⟨fun hc => ⟨exec_quiesce hb hc, ?quiesced, ?waits⟩, fun hc => ?image,
    fun hc => ?restore, fun hc => ?resume⟩⟩
  case quiesced =>
    intro hd
    exact ⟨_, by rw [exec_quiesceComplete hb hc, if_pos hd], s.quiesced_pkg⟩
  case waits =>
    intro hd
    rw [exec_quiesceComplete hb hc, hd]
    rfl
  case image =>
    have h := exec_image hb hc
    refine ⟨fun hq => h.trans (by simp [hq]), fun hq hl => h.trans (by simp [hq, hl]), fun hq hl hroom => ?_, fun hq hl hroom => ?_⟩
    · simp [h, hq, hl, State.writeImage_fits hroom]
    · exact ⟨s.writeImage, by simp [h, hq, hl], State.writeImage_short hroom⟩
  case restore =>
    have h := exec_restore hb hc
    refine ⟨fun hq => h.trans (by simp [hq]), fun hq hheld => h.trans ?_, fun hq hcrews hgangs => ?_⟩
    · have hnot : s.holdsNothing = false := by
        rw [Bool.eq_false_iff, ne_eq, State.holdsNothing_iff, not_and_or]
        exact hheld
      simp [hq, hnot]
    · rw [State.holdsNothing_iff.2 ⟨hcrews, hgangs⟩, hq] at h
      exact ⟨fun hbad => h.trans (by simp [hbad]), fun hok => h.trans (by simp [hok])⟩
  case resume =>
    have h := exec_resume hb hc
    exact ⟨fun hq => h.trans (by simp [hq]), fun hq => by rw [h, hq]; rfl⟩

end Sys2Proof.Machine
end

section
/-!
PROOFS. Answers to the packets of a chain, and its failed packets (R315, R338, R339, R341).
-/
namespace Sys2Proof.Machine

variable {s : State} {n cause : Nat} {p : Packet} {c : Chain}

/-! ### A failed packet (R339) -/

/-- The packets of the entry that a packet belongs to. -/
def State.entryPackets (s : State) (p : Packet) : AMap Packet :=
  s.packets.filter fun e => e.2.chain == p.chain && e.2.batch == p.batch

/-- Remote addresses of the rows that are not acknowledged. -/
def State.openAddrs (s : State) (p : Packet) : List Nat :=
  ((s.entryPackets p).filter fun e => !e.2.acked).map fun e => e.2.addr.toNat

/-- The lowest of them. -/
def State.lowestOpen (s : State) (p : Packet) : Nat := (s.openAddrs p).foldl min ((s.openAddrs p).headD 0)

theorem foldl_min_headD {l : List Nat} (h : l ≠ []) : l.min? = some (l.foldl min (l.headD 0)) := by
  cases l with
  | nil => exact absurd rfl h
  | cons a l =>
    show some (l.foldl min a) = some (l.foldl min (min a a))
    rw [Nat.min_self]

theorem State.mem_openAddrs {a : Nat} :
    a ∈ s.openAddrs p ↔ ∃ e ∈ s.entryPackets p, e.2.acked = false ∧ e.2.addr.toNat = a := by
  simp [State.openAddrs, and_assoc]

/-- The lowest address not acknowledged, of an entry that has one. -/
theorem State.lowestOpen_spec (hp : s.packets.find n = some p) (ha : p.acked = false) :
    (∃ e ∈ s.entryPackets p, e.2.acked = false ∧ e.2.addr.toNat = s.lowestOpen p)
      ∧ ∀ e ∈ s.entryPackets p, e.2.acked = false → s.lowestOpen p ≤ e.2.addr.toNat := by
  have hmine : (n, p) ∈ s.entryPackets p := List.mem_filter.2 ⟨AMap.mem_of_find hp, by simp⟩
  have hne : s.openAddrs p ≠ [] := List.ne_nil_of_mem (State.mem_openAddrs.2 ⟨_, hmine, ha, rfl⟩)
  obtain ⟨hmem, hle⟩ := List.min?_eq_some_iff.1 (foldl_min_headD hne)
  exact ⟨State.mem_openAddrs.1 hmem, fun e he hack => hle _ (State.mem_openAddrs.2 ⟨e, he, hack, rfl⟩)⟩

/-- The chain of a packet that has failed, at the packet's entry. -/
def State.failedChain (s : State) (p : Packet) (c : Chain) (cause : Nat) : Chain :=
  { c with state := 4, cause := cause, idx := p.entry, fault := BitVec.ofNat 64 (s.lowestOpen p),
           done := ((s.entryPackets p).filter fun e => e.2.acked).foldl (fun n e => n + e.2.len) 0 }

theorem State.failPacket_eq (hp : s.packets.find n = some p) (hc : s.chains.find p.chain = some c) (cause : Nat) :
    s.failPacket n cause = { s.putChain p.chain (s.failedChain p c cause) with
      packets := s.packets.filter fun e => e.2.chain != p.chain || decide (e.2.batch < p.batch) } := by
  have hopen : (((s.entryPackets p).map (·.2)).filter fun e => !e.acked).map (fun e => e.addr.toNat) = s.openAddrs p := by
    rw [List.filter_map, List.map_map]
    rfl
  have hdone : (((s.entryPackets p).map (·.2)).filter (·.acked)).foldl (fun n e => n + e.len) 0 = (s.failedChain p c cause).done := by
    rw [List.filter_map, List.foldl_map]
    rfl
  unfold State.entryPackets at hopen hdone
  simp only [State.failPacket, hp, hc, hopen, hdone]
  rfl

/-! ### The rows -/

section rows
variable (hp : s.packets.find n = some p) (ha : p.acked = false)
include hp

theorem exec_packetAck : exec (.packetAck n) s = .next (if p.kind = 0x22 then s else s.setPacket n { p with acked := true }) := by
  show execPacketAck n s = _
  simp only [execPacketAck, State.acknowledge, hp]

include ha

theorem exec_packetNack_again (hk : p.kind = 0x20) (hin : ∀ k cause rest, s.inputs ≠ .refusal k cause :: rest) :
    exec (.packetNack n) s
      = .next { s with packets := s.packets.set n { p with sent := false }, outputs := s.outputs ++ [.packet n] } := by
  show execPacketNack n s = _
  simp only [execPacketNack, hp, ha, Bool.false_eq_true, if_false]
  exact congrArg _ (if_pos hk)

theorem exec_packetNack_refused {rest : List Input} (hcause : cause = 0x21 ∨ cause = 0x23)
    (hin : s.inputs = .refusal n cause :: rest) :
    exec (.packetNack n) s = .next ({ s with inputs := rest }.failPacket n cause) := by
  show execPacketNack n s = _
  simp only [execPacketNack, hp, ha, hin, hcause, and_self, Bool.false_eq_true, if_false, if_true]

theorem exec_transportTimeout : exec (.transportTimeout n) s = .next (s.failPacket n (if p.sent then 0x20 else 0x22)) := by
  show execTransportTimeout n s = _
  simp only [execTransportTimeout, hp, ha, Bool.false_eq_true, if_false]

theorem exec_transportRetransmission :
    exec (.transportRetransmission n) s = .next { s with outputs := s.outputs ++ [.packet n] } := by
  show execTransportRetransmission n s = _
  simp only [execTransportRetransmission, hp, ha, Bool.false_eq_true, if_false]

end rows

end Sys2Proof.Machine
end

section
/-!
PROOFS. The entries of a network chain: what they check, and the packets that they send (R335 to R338).
-/
namespace Sys2Proof.Machine

variable {s s1 s2 s3 s4 : State} {id ty : Nat} {c c' : Chain} {w0 w1 w2 w3 : Word} {acc : AccKind} {t : TileRec} {z : Nat}

/-! ### What the entries share -/

/-- The entry that stands at `s1` may send: its order, its peer and its record `t` are good, and `s2` is the state with the record
read and checked. -/
structure State.MaySend (s1 : State) (id ty : Nat) (c : Chain) (w0 w1 w2 : Word) (acc : AccKind) (s2 : State) (t : TileRec) (z : Nat) :
    Prop where
  order : bitAt w0 8 = true → s1.allAcked id = true
  peer : fld w0 31 16 < s1.netEcnt (c.unit - 384) c.asid
  valid : s1.endpointValid (c.unit - 384) c.asid (fld w0 31 16) = true
  aligned : ty ≠ 0x20 → fld w2 3 0 = 0
  record : ∃ u f, s1.recordAt c (fld w1 21 0) = (u, .inl (t, z)) ∧ u.checkRecLate (u.chainWho c) t acc = (s2, f, none)

theorem netEntry_sends {f : State → Chain → TileRec → Word × Word × Word × Word → Nat → EntryRes}
    (h : s.atEntry id ty c s1 (w0, w1, w2, w3)) (hm : s1.MaySend id ty c w0 w1 w2 acc s2 t z)
    (hf : f s2 c t (w0, w1, w2, w3) z = .go s3 c') : netEntry s id ty acc f = .next (s3.putChain id c') := by
  obtain ⟨horder, hpeer, hvalid, haligned, u, fm, hrec, hchk⟩ := hm
  have hwait : (bitAt w0 8 && !s1.allAcked id) = false := by
    cases h8 : bitAt w0 8
    · rfl
    · simp [horder h8]
  have hgone : ¬(s1.netEcnt (c.unit - 384) c.asid ≤ fld w0 31 16
      ∨ (!s1.endpointValid (c.unit - 384) c.asid (fld w0 31 16)) = true) := by simp [hvalid, hpeer]
  have hbase : ¬(ty ≠ 0x20 ∧ fld w2 3 0 ≠ 0) := fun hb => hb.2 (haligned hb.1)
  unfold netEntry
  refine h.go ?_
  simp only [hwait, Bool.false_eq_true, if_false, hgone, hbase, hrec, hchk]
  exact hf

/-- An ordered entry waits for the packets of its chain. -/
theorem netEntry_waits {f : State → Chain → TileRec → Word × Word × Word × Word → Nat → EntryRes} {ty' : Nat}
    (h : s.atEntry id ty c s1 (w0, w1, w2, w3)) (h8 : bitAt w0 8 = true) (hack : s1.allAcked id = false) :
    netEntry s id ty' acc f = .next s := by
  refine h.skip fun _ => ?_
  simp only [h8, hack, Bool.not_false, Bool.and_self, if_true]

/-! ### The packets -/

/-- The chain of an entry that has sent its packets. -/
def Chain.sent (c : Chain) (z : Nat) : Chain := { c with idx := c.idx + 1, zsub := c.zsub + z }

/-- The packet of an NSEND. -/
def State.message (s : State) (id : Nat) (c : Chain) (w0 w2 : Word) (data : List Byte) : Packet :=
  ⟨id, c.idx, s.nxt.packet, 0x20, bitAt w0 8, fld w0 31 16, 0, data.length, data, w2, fld w0 39 32, false, true⟩

/-- The packet of an NPUT's row. -/
def State.putPacket (s : State) (id : Nat) (c : Chain) (w0 w2 : Word) (t : TileRec) (r : List Byte × Nat) : Packet :=
  ⟨id, c.idx, s.nxt.packet, 0x21, bitAt w0 8, fld w0 31 16, BitVec.ofNat 64 (fld w2 56 0 + t.rowlen * r.2), t.rowlen, r.1, 0, 0,
    false, true⟩

/-- The packet that asks for an NGET's row. -/
def State.getPacket (s : State) (id : Nat) (c : Chain) (w0 w2 : Word) (t : TileRec) (rec : List Byte) (r : Nat) : Packet :=
  ⟨id, c.idx, s.nxt.packet, 0x22, bitAt w0 8, fld w0 31 16, BitVec.ofNat 64 (fld w2 56 0 + t.rowlen * r), t.rowlen, rec, 0, r,
    false, true⟩

theorem execNsend_sends (h : s.atEntry id 0x20 c s1 (w0, w1, w2, w3)) (hm : s1.MaySend id 0x20 c w0 w1 w2 .load s2 t z)
    (hlen : t.rows * t.rowlen ≤ 4064) (hidx : fld w0 39 32 < s2.netHcnt (c.unit - 384) c.asid) {rows : List (List Byte)} {zs : List Nat}
    (hrows : s2.payloadRows (s2.chainWho c) t = (s3, rows, zs, none)) :
    exec (.nsend id) s = .next ((s3.sendPacket (s3.message id c w0 w2 rows.flatten)).putChain id (c.sent (z + zs.dedup.length))) := by
  show execNsend id s = _
  refine netEntry_sends h hm ?_
  simp only [Nat.not_lt.2 hlen, Nat.not_le.2 hidx, if_false, hrows, Nat.add_assoc]
  rfl

theorem execNput_sends (h : s.atEntry id 0x21 c s1 (w0, w1, w2, w3)) (hm : s1.MaySend id 0x21 c w0 w1 w2 .load s2 t z)
    {rows : List (List Byte)} {zs : List Nat} (hrows : s2.payloadRows (s2.chainWho c) t = (s3, rows, zs, none)) :
    exec (.nput id) s = .next (((rows.zipIdx.map (s3.putPacket id c w0 w2 t)).foldl State.sendPacket s3).putChain id
      (c.sent (z + zs.dedup.length))) := by
  show execNput id s = _
  refine netEntry_sends h hm ?_
  simp only [hrows, Nat.add_assoc]
  rfl

theorem execNget_sends (h : s.atEntry id 0x22 c s1 (w0, w1, w2, w3)) (hm : s1.MaySend id 0x22 c w0 w1 w2 .store s2 t z)
    {bs : List Byte} {z' : Nat} (hget : s2.areaGet c (fld w1 21 0) 32 = (s3, .inl (bs, z'))) :
    exec (.nget id) s = .next ((((List.range t.rows).map (s3.getPacket id c w0 w2 t bs)).foldl State.sendPacket s3).putChain id
      (c.sent z)) := by
  show execNget id s = _
  refine netEntry_sends h hm ?_
  simp only [hget]
  rfl

/-! ### Records and rows in the scratch of a crew -/

/-- One granule of a row that an engine reads. -/
def State.rowStep (w : Who) (t : TileRec) (r : Nat) (q : State × List Byte × List Nat × Option (Nat × Nat × Nat)) (g : Nat) :
    State × List Byte × List Nat × Option (Nat × Nat × Nat) :=
  match q.2.2.2 with
  | some _ => q
  | none =>
    let va := t.byteAddr r (16 * g)
    let x := q.1.engineGet w va 16
    match x.2.2.2 with
    | some f => (x.1, q.2.1, q.2.2.1, some (f.1, f.2, va))
    | none => (x.1, q.2.1 ++ x.2.1, q.2.2.1 ++ x.2.2.1, none)

theorem State.tileRow_fold (s : State) (w : Who) (t : TileRec) (r : Nat) :
    s.tileRow w t r = (List.range (t.rowlen / 16)).foldl (State.rowStep w t r) (s, [], [], none) := rfl

/-- One row of those that an engine reads. -/
def State.payloadStep (w : Who) (t : TileRec) (q : State × List (List Byte) × List Nat × Option (Nat × Nat)) (r : Nat) :
    State × List (List Byte) × List Nat × Option (Nat × Nat) :=
  match q.2.2.2 with
  | some _ => q
  | none =>
    let d := q.1.tileRow w t r
    match d.2.2.2 with
    | some f => (d.1, q.2.1, q.2.2.1 ++ d.2.2.1, some (chainCause f.1, f.2.2))
    | none => (d.1, q.2.1 ++ [d.2.1], q.2.2.1 ++ d.2.2.1, none)

theorem State.payloadRows_fold (s : State) (w : Who) (t : TileRec) :
    s.payloadRows w t = (List.range t.rows).foldl (State.payloadStep w t) (s, [], [], none) := rfl

section scratch
variable {cr : Crew} (hc : s.crewChain id c cr)
include hc

/-- The record of a tile in the scratch is read and checked without a change. -/
theorem State.tileAt.maySend (ht : s.tileAt c cr (fld w1 21 0) t) (horder : bitAt w0 8 = true → s.allAcked id = true)
    (hpeer : fld w0 31 16 < s.netEcnt (c.unit - 384) c.asid) (hvalid : s.endpointValid (c.unit - 384) c.asid (fld w0 31 16) = true)
    (haligned : ty ≠ 0x20 → fld w2 3 0 = 0) (acc : AccKind) : s.MaySend id ty c w0 w1 w2 acc s t 0 :=
  ⟨horder, hpeer, hvalid, haligned, s, _, ht.recordAt_eq hc.scratchOf, ht.checkRecLate_eq acc⟩

omit hc in
/-- A row of a tile in the scratch, read granule by granule. -/
theorem State.ScratchOf.tileRow_eq (hs : s.ScratchOf c cr) (hd : s.Holds cr t) {r : Nat} (hr : r < t.rows) :
    s.tileRow (s.chainWho c) t r = (s, s.tileBytes cr t r, [], none) := by
  have hgranules : ∀ n ≤ t.rowlen / 16, (List.range n).foldl (State.rowStep (s.chainWho c) t r) (s, [], [], none)
      = (s, (List.range n).flatMap fun g => (s.bankOf cr).bytes (s.spotOf cr t r g) 16, [], none) := by
    intro n hn
    induction n with
    | zero => rfl
    | succ n ih =>
      obtain ⟨haddr, hlo, hhi⟩ := hd.spot_eq hr hn
      have hbyte : t.byteAddr r (16 * n) = s.windowOf cr + s.spotOf cr t r n := by
        rw [haddr]
        exact hd.byteAddr_granule hr hn (by decide : 0 < 16)
      rw [List.range_succ, List.foldl_append, ih (by omega), List.flatMap_append, List.flatMap_singleton]
      simp only [List.foldl_cons, List.foldl_nil, State.rowStep, hbyte, hs.engineGet_eq (by decide) hlo hhi, List.append_nil]
  rw [hd.tileBytes_eq hr, State.tileRow_fold]
  exact hgranules _ le_rfl

omit hc in
/-- The rows of a tile in the scratch, as its chain's packets carry them. -/
theorem State.ScratchOf.payloadRows_eq (hs : s.ScratchOf c cr) (hd : s.Holds cr t) :
    s.payloadRows (s.chainWho c) t = (s, (List.range t.rows).map (s.tileBytes cr t), [], none) := by
  have hrows : ∀ n ≤ t.rows, (List.range n).foldl (State.payloadStep (s.chainWho c) t) (s, [], [], none)
      = (s, (List.range n).map (s.tileBytes cr t), [], none) := by
    intro n hn
    induction n with
    | zero => rfl
    | succ n ih =>
      rw [List.range_succ, List.foldl_append, ih (by omega), List.map_append]
      simp only [List.foldl_cons, List.foldl_nil, State.payloadStep, hs.tileRow_eq hd hn, List.append_nil, List.map_cons, List.map_nil]
  rw [State.payloadRows_fold]
  exact hrows _ le_rfl

omit hc in
theorem State.tileBytes_length (s : State) (cr : Crew) (t : TileRec) (r : Nat) : (s.tileBytes cr t r).length = t.rowlen := by
  simp [State.tileBytes, State.loamBytes, Memory.bytes, List.length_flatMap]

omit hc in
theorem State.tileRows_length (s : State) (cr : Crew) (t : TileRec) :
    ((List.range t.rows).map (s.tileBytes cr t)).flatten.length = t.rows * t.rowlen := by
  simp [List.length_flatten, List.map_map, Function.comp_def, State.tileBytes_length]

end scratch

end Sys2Proof.Machine
end

section
/-!
PROOFS. The bytes that answer an NGET, placed in a row of a tile in its crew's scratch (R130, R132, R338).
-/
namespace Sys2Proof.Machine

variable {s : State} {c : Chain} {cr : Crew} {t : TileRec} {r : Nat}

/-! ### One row of a tile by itself -/

/-- The tile of one row that stands where row `r` does. -/
def TileRec.rowAlone (t : TileRec) (r : Nat) : TileRec := { t with base := t.base + r * t.stride, stride := t.rowlen, rows := 1 }

/-- Place in row `r` of the granule at a column (R130). -/
def TileRec.slot (t : TileRec) (r g : Nat) : Nat := g ^^^ (r % 2 ^ t.span)

/-- A column of row `r`, in the tile of that row alone. -/
theorem TileRec.byteAddr_rowAlone (t : TileRec) (r g : Nat) {i : Nat} (hi : i < 16) :
    t.byteAddr r (16 * g + i) = (t.rowAlone r).byteAddr 0 (16 * t.slot r g + i) := by
  simp only [TileRec.byteAddr, TileRec.rowAlone, xor_granule _ _ hi, TileRec.slot, Nat.zero_mul, Nat.zero_mod, Nat.mul_zero, Nat.xor_zero,
    Nat.add_zero]

theorem TileRec.slot_injective (t : TileRec) (r : Nat) : Function.Injective (t.slot r) := fun _ _ h => Nat.xor_left_inj.1 h

theorem State.holds_rowAlone (hs : s.ScratchOf c cr) (hspace : t.space = 1) (hshape : t.shapeBad = false)
    (hown : s.inOwnScratch (s.chainWho c) t.range = true) (hr : r < t.rows) : s.Holds cr (t.rowAlone r) := by
  have hfits := hs.fits
  have hwin : s.windowOf cr + 2 ^ 26 ≤ 2 ^ 57 := hs.window
  have hlast := TileRec.Within.row_le hr
  simp only [TileRec.shapeBad, Bool.or_eq_false_iff, beq_eq_false_iff_ne, bne_eq_false_iff_eq] at hshape
  obtain ⟨⟨⟨⟨-, hwhole⟩, -⟩, -⟩, -⟩ := hshape
  rw [hs.chainWho_eq] at hown
  simp only [State.inOwnScratch, hs.find_crew, Crew.inScratch, granule, Bool.and_eq_true, decide_eq_true_iff] at hown
  obtain ⟨h1, h2, h3⟩ := hown
  replace h3 := of_decide_eq_true h3
  simp only [← State.windowOf.eq_def] at h1 h2 h3
  have hrange : t.range.1 = t.base := rfl
  have hend : (t.rowAlone r).range.2 = t.base + r * t.stride + t.rowlen := by simp [TileRec.range, TileRec.rowAlone]
  refine ⟨?_, ?_, ?_, Nat.one_ne_zero, hwhole, le_rfl, ?_⟩
  · show _ ≤ t.base + r * t.stride
    omega
  · omega
  · omega
  · show t.space ≠ 0
    omega

section row
variable (hd : s.Holds cr (t.rowAlone r))
include hd

theorem TileRec.slot_lt {g : Nat} (hg : g < t.rowlen / 16) : t.slot r g < (t.rowAlone r).rowlen / 16 :=
  TileRec.Within.slot_lt (t := t.rowAlone r) (r := r) hd hg

theorem TileRec.rowlen_granules : 16 * (t.rowlen / 16) = t.rowlen := TileRec.Within.rowlen_eq (t := t.rowAlone r) hd

/-- The bytes of a row stand in its granules, by their slots. -/
theorem State.tileBytes_rowAlone : s.tileBytes cr t r
    = (List.range (t.rowlen / 16)).flatMap fun g => (s.bankOf cr).bytes (s.spotOf cr (t.rowAlone r) 0 (t.slot r g)) 16 := by
  have hgranule : ∀ n ≤ t.rowlen / 16, ((List.range (16 * n)).flatMap fun x => s.loamBytes cr.core cr.bank (s.tileOff cr t r x) 1)
      = (List.range n).flatMap fun g => (s.bankOf cr).bytes (s.spotOf cr (t.rowAlone r) 0 (t.slot r g)) 16 := by
    intro n hn
    induction n with
    | zero => rfl
    | succ n ih =>
      have hslot := TileRec.slot_lt hd hn
      have hlast : ∀ i ∈ List.range 16, s.loamBytes cr.core cr.bank (s.tileOff cr t r (16 * n + i)) 1
          = [(s.bankOf cr).byte (s.spotOf cr (t.rowAlone r) 0 (t.slot r n) + i)] := by
        intro i hi
        have haddr := (t.byteAddr_rowAlone r n (List.mem_range.1 hi)).trans
          (hd.byteAddr_granule Nat.one_pos hslot (List.mem_range.1 hi))
        have hspot := (hd.spot_eq Nat.one_pos hslot).1
        have hoff : s.tileOff cr t r (16 * n + i) = s.spotOf cr (t.rowAlone r) 0 (t.slot r n) + i := by
          show _ - s.windowOf cr = _
          omega
        rw [hoff]
        rfl
      rw [Nat.mul_succ, List.range_add, List.range_succ (n := n), List.flatMap_append, List.flatMap_append, ih (by omega),
        List.flatMap_map, List.flatMap_congr hlast, List.flatMap_singleton]
      rfl
  rw [State.tileBytes, ← hgranule _ le_rfl, TileRec.rowlen_granules hd]

end row

/-! ### A row written -/

/-- A piece of the row, at its slot. -/
def State.rowJob (s : State) (cr : Crew) (t : TileRec) (r : Nat) (row : List Byte) (g : Nat) : Nat × List Byte :=
  (s.spotOf cr (t.rowAlone r) 0 (t.slot r g), (row.drop (16 * g)).take 16)

/-- A transfer of which `jobs` are the writes, all in one row of a tile; it has moved no packet and no input. -/
structure Move.Placed (s : State) (cr : Crew) (d : TileRec) (jobs : List (Nat × List Byte)) (m : Move) : Prop where
  fills : m.Fills s cr d jobs
  packets : m.s.packets = s.packets
  inputs : m.s.inputs = s.inputs

/-- The tag of a granule just stored changes its bank alone. -/
theorem Move.Wrote.tagAt_eq {lo hi o : Nat} {jobs : List (Nat × List Byte)} {m : Move} (h : Move.Wrote s cr lo hi jobs m)
    (hs : s.ScratchOf c cr) (hlo : cr.base ≤ o) (hhi : o + 1 ≤ cr.base + cr.lsg * 16384) (bs : List Byte) (f : Nat × Bool) :
    (m.s.putLoam cr.core cr.bank o bs).tagAt (s.chainWho c) (s.windowOf cr + o) f
      = (m.s.putLoam cr.core cr.bank o bs).setTag cr.core cr.bank o f := by
  have haside := h.aside.trans (m.s.putLoam_aside cr o bs)
  have hwho : (m.s.putLoam cr.core cr.bank o bs).chainWho c = s.chainWho c := by
    rw [(haside.scratchOf hs).chainWho_eq, hs.chainWho_eq, Core.ctxOf, haside.ctxs]
    rfl
  rw [← hwho, ← haside.windowOf_eq]
  exact (haside.scratchOf hs).tagAt_eq hlo hhi f

section put
variable {row : List Byte} (hs : s.ScratchOf c cr) (hd : s.Holds cr (t.rowAlone r)) (hrow : row.length = t.rowlen) (f : Nat × Bool)
include hs hd hrow

theorem Move.Placed.put {m : Move} {jobs : List (Nat × List Byte)} {g : Nat} (h : Move.Placed s cr (t.rowAlone r) jobs m)
    (hg : g < t.rowlen / 16) : Move.Placed s cr (t.rowAlone r) (jobs ++ [s.rowJob cr t r row g])
      (m.put (s.chainWho c) true f (t.byteAddr r (16 * g)) ((row.drop (16 * g)).take 16)) := by
  have hslot := TileRec.slot_lt hd hg
  have hlen : ((row.drop (16 * g)).take 16).length = 16 := by
    rw [List.length_take, List.length_drop, hrow]
    omega
  have haddr := t.byteAddr_rowAlone r g (i := 0) (by decide)
  obtain ⟨hspot, hlo, hhi⟩ := hd.spot_eq Nat.one_pos hslot
  have hbyte : (t.rowAlone r).byteAddr 0 (16 * t.slot r g) = s.windowOf cr + s.spotOf cr (t.rowAlone r) 0 (t.slot r g) := by
    rw [hspot]
    exact hd.byteAddr_granule Nat.one_pos hslot (by decide : 0 < 16)
  obtain ⟨hput, hwrote⟩ := h.fills.writeGranule hs hd hlen Nat.one_pos hslot f (m.done + ((row.drop (16 * g)).take 16).length)
  have htag := h.fills.tagAt_eq hs hlo (by omega) ((row.drop (16 * g)).take 16) f
  have hbad := h.fills.bad
  rw [hbad] at hwrote
  rw [Nat.add_zero, Nat.add_zero] at haddr
  simp only [Move.put, hbad, haddr, hput, if_true]
  refine ⟨hwrote, ?_, ?_⟩
  · rw [hbyte, htag]
    exact h.packets
  · rw [hbyte, htag]
    exact h.inputs

/-- The whole row. -/
theorem Move.putRow_placed : Move.Placed s cr (t.rowAlone r) ((List.range (t.rowlen / 16)).map (s.rowJob cr t r row))
    (Move.putRow ⟨s, 0, 0, [], none⟩ (s.chainWho c) t f r row) := by
  have hfold : ∀ n ≤ t.rowlen / 16, Move.Placed s cr (t.rowAlone r) ((List.range n).map (s.rowJob cr t r row))
      ((List.range n).foldl (fun m g => m.put (s.chainWho c) true f (t.byteAddr r (16 * g)) ((row.drop (16 * g)).take 16))
        ⟨s, 0, 0, [], none⟩) := by
    intro n hn
    induction n with
    | zero => exact ⟨.start .., rfl, rfl⟩
    | succ n ih =>
      rw [List.range_succ, List.foldl_append, List.map_append]
      exact (ih (by omega)).put hs hd hrow f hn
  have hloam : t.space ≠ 0 := hd.loam
  rw [Move.putRow_eq _ hloam]
  exact hfold _ le_rfl

omit hs in
/-- What the row then holds. -/
theorem Move.Placed.tileBytes_eq {m : Move}
    (h : Move.Placed s cr (t.rowAlone r) ((List.range (t.rowlen / 16)).map (s.rowJob cr t r row)) m) :
    m.s.tileBytes cr t r = row := by
  have hwin := h.fills.aside.windowOf_eq
  have hd' : m.s.Holds cr (t.rowAlone r) := by rw [State.Holds, hwin]; exact hd
  have hpiece : ∀ g ∈ List.range (t.rowlen / 16), (m.s.bankOf cr).bytes (m.s.spotOf cr (t.rowAlone r) 0 (t.slot r g)) 16
      = (row.drop (16 * g)).take 16 := by
    intro g hg
    have hlen : ∀ g ∈ List.range (t.rowlen / 16), ((row.drop (16 * g)).take 16).length = 16 := by
      intro g hg
      have := List.mem_range.1 hg
      rw [List.length_take, List.length_drop, hrow]
      omega
    have hspot : m.s.spotOf cr (t.rowAlone r) 0 (t.slot r g) = (s.rowJob cr t r row g).1 := by
      rw [State.spotOf, hwin]
      rfl
    have hput := Memory.bytes_putAll_mem (s.bankOf cr) (List.mem_map_of_mem (f := s.rowJob cr t r row) hg) fun e he => by
      obtain ⟨g', hg', rfl⟩ := List.mem_map.1 he
      by_cases hsame : g = g'
      · subst hsame
        exact .inl rfl
      · right
        have hslot := TileRec.slot_lt hd (List.mem_range.1 hg)
        have hslot' := TileRec.slot_lt hd (List.mem_range.1 hg')
        have hap := hd.granule_apart (r := 0) (r' := 0) hslot hslot' (.inr fun h => hsame (t.slot_injective r h))
        have h1 := (hd.spot_eq Nat.one_pos hslot).1
        have h2 := (hd.spot_eq Nat.one_pos hslot').1
        have hl := hlen g hg
        have hl' := hlen g' hg'
        simp only [apart, State.rowJob] at hap ⊢
        omega
    rw [show (s.rowJob cr t r row g).2.length = 16 from hlen g hg] at hput
    rw [hspot, h.fills.bank]
    exact hput
  rw [State.tileBytes_rowAlone hd', List.flatMap_congr hpiece, flatMap_pieces, TileRec.rowlen_granules hd]
  exact List.take_of_length_le hrow.le

end put

/-! ### The answer to an NGET's packet -/

theorem State.placeGot_placed {pkt : Nat} {p : Packet} {data : List Byte} (hp : s.packets.find pkt = some p)
    (hc : s.chains.find p.chain = some c) (hs : s.ScratchOf c cr) (ht : t = tileOfBytes p.data) (hd : s.Holds cr (t.rowAlone p.hidx))
    (hlen : data.length = t.rowlen) :
    (s.placeGot pkt data).inputs = s.inputs ∧ (s.placeGot pkt data).packets = s.packets.set pkt { p with acked := true }
      ∧ (s.placeGot pkt data).tileBytes cr t p.hidx = data ∧ (s.placeGot pkt data).mem = s.mem := by
  subst ht
  have hplaced := Move.putRow_placed hs hd hlen ((tileOfBytes p.data).fmt, (tileOfBytes p.data).scaled)
  have hbytes := hplaced.tileBytes_eq hd hlen
  obtain ⟨hfills, hpackets, hinputs⟩ := hplaced
  have hfound := (congrArg (fun m : AMap Packet => m.find pkt) hpackets).trans hp
  have hplace : s.placeGot pkt data = (Move.putRow ⟨s, 0, 0, [], none⟩ (s.chainWho c) (tileOfBytes p.data)
      ((tileOfBytes p.data).fmt, (tileOfBytes p.data).scaled) p.hidx data).s.setPacket pkt { p with acked := true } := by
    simp only [State.placeGot, hp, hc, hfills.bad, State.acknowledge, hfound]
  rw [hplace]
  refine ⟨hinputs, ?_, hbytes, hfills.aside.mem⟩
  rw [← hpackets]
  rfl

end Sys2Proof.Machine
end

section
/-!
PROOFS. What arrives at a network engine from a peer, and the tasks of a suspended context (R315, R338 to R341).
-/
namespace Sys2Proof.Machine

variable {s s1 : State} {rest : List Input} {net asid va n : Nat} {c : Ctx} {acc : AccKind}

/-- The context of the message is gone, or is being torn down (R331). -/
def State.ctxGone (s : State) (net asid : Nat) : Prop := s.netState net asid = 0 ∨ s.netState net asid = 3

/-! ### Accesses of a peer to a context (R338, R339) -/

/-- A peer's access to `n` bytes of a context: dropped, refused, or served by `f`. -/
def State.servePeer (s : State) (net asid : Nat) (acc : AccKind) (va n : Nat) (f : Ctx → State → State) : State :=
  if s.halted then s
  else if s.netState net asid = 0 ∨ s.netState net asid = 3 then s.dropNoTarget net
  else match (s.ctxByAsid asid).bind fun c => (s.peerPages c acc va n).map fun s1 => (c, s1) with
    | none => s.answer (.refused net)
    | some (c, s1) => f c s1

theorem exec_packetPlacement_put {addr : Word} {data : List Byte} (hin : s.inputs = .put net asid addr data :: rest) :
    exec .packetPlacement s = .next ({ s with inputs := rest }.servePeer net asid .store (va57 addr) data.length fun c s1 =>
      (s1.peerPut c (va57 addr) data).answer (.ack net)) := by
  show execPacketPlacement s = _
  simp only [execPacketPlacement, hin]
  rfl

theorem exec_ngetRequest {addr : Word} {len : Nat} (hin : s.inputs = .getRequest net asid addr len :: rest) :
    exec .ngetRequest s = .next ({ s with inputs := rest }.servePeer net asid .load (va57 addr) len fun c s1 =>
      let r := s1.contextBytes (peerWho c) (va57 addr) len
      r.1.answer (.bytes net r.2)) := by
  show execNgetRequest s = _
  simp only [execNgetRequest, hin]
  rfl

section served
variable {f : Ctx → State → State} (hh : s.halted = false)
include hh

theorem State.servePeer_gone (hg : s.ctxGone net asid) : s.servePeer net asid acc va n f = s.dropNoTarget net := by
  rw [State.servePeer, if_neg (Bool.eq_false_iff.1 hh)]
  exact if_pos hg

variable (hg : ¬s.ctxGone net asid) (hc : s.ctxByAsid asid = some c)
include hg hc

theorem State.servePeer_refused (hp : s.peerPages c acc va n = none) :
    s.servePeer net asid acc va n f = s.answer (.refused net) := by
  rw [State.servePeer, if_neg (Bool.eq_false_iff.1 hh)]
  refine (if_neg hg).trans ?_
  simp only [hc, hp, Option.bind_some, Option.map_none]

theorem State.servePeer_served (hp : s.peerPages c acc va n = some s1) : s.servePeer net asid acc va n f = f c s1 := by
  rw [State.servePeer, if_neg (Bool.eq_false_iff.1 hh)]
  refine (if_neg hg).trans ?_
  simp only [hc, hp, Option.bind_some, Option.map_some]

end served

/-! ### The answer to an NGET -/

theorem exec_packetPlacement_got {pkt : Nat} {data : List Byte} {p : Packet} {ch : Chain} (hh : s.halted = false)
    (hin : s.inputs = .got pkt data :: rest) (hp : s.packets.find pkt = some p) (hk : p.kind = 0x22) (ha : p.acked = false)
    (hch : s.chains.find p.chain = some ch) (hpres : s.crewPresent ch = true) :
    exec .packetPlacement s = .next ({ s with inputs := rest }.placeGot pkt data) := by
  have hh' : State.halted { s with inputs := rest } = false := hh
  have hpres' : State.crewPresent { s with inputs := rest } ch = true := hpres
  show execPacketPlacement s = _
  simp only [execPacketPlacement, hin, hp, hh', hk, ha, hch, Option.any_some, hpres', bne_self_eq_false, Bool.or_self, Bool.not_true,
    Bool.false_eq_true, if_false]

/-! ### Active messages (R340, R341) -/

section message
variable {hidx : Nat} {tag : Word} {sender : BitVec 128} {payload : List Byte}

theorem exec_activeMessageArrival (hh : s.halted = false) (hin : s.inputs = .activeMessage net asid hidx tag sender payload :: rest) :
    exec .activeMessageArrival s = .next ({ s with inputs := rest }.arriveMessage net asid hidx tag sender payload) := by
  have hh' : State.halted { s with inputs := rest } = false := hh
  show execActiveMessageArrival s = _
  simp only [execActiveMessageArrival, hin, hh', Bool.false_eq_true, if_false]

theorem State.arriveMessage_gone (hg : s.ctxGone net asid) :
    s.arriveMessage net asid hidx tag sender payload = (s.forgetTasks net asid).dropNoTarget net := if_pos hg

/-- The message stands in its slot, and the ring's cursor is behind it. -/
def State.slotFilled (s : State) (c : Ctx) (ring slot next hidx : Nat) (tag : Word) (sender : BitVec 128) (payload : List Byte) : State :=
  let u := s.putMessage c slot hidx tag sender payload
  { u with cursors := u.cursors.set ring next }

/-- Its handler enqueued behind those that waited when STATE is 1, else kept. -/
def State.handled (s : State) (net asid slot st : Nat) : State :=
  if st = 1 then (s.resumeTasks net asid).enqueueTask net asid (BitVec.ofNat 64 slot)
  else s.setNet net { s.net net with suspended := (s.net net).suspended ++ [(asid, BitVec.ofNat 64 slot)] }

/-- A message that finds its ring. -/
theorem State.arriveMessage_ring {base slot : Nat} {w : Word} {ring : Page} (hg : ¬s.ctxGone net asid)
    (hc : s.ctxByAsid asid = some c) (hring : s.receiveRing c net asid = some (base, n))
    (hpage : (s.resolve (hwWho c) base .load).2 = .page ring) (hslot : slot = base + 4096 * (s.cursors.get ring.pa 0 % n))
    (hw : s.ctxWord (hwWho c) slot = some w) : s.arriveMessage net asid hidx tag sender payload
      = if bitAt w 63 || !s.resolves (hwWho c) .store slot then s.answer (.nack net)
        else ((s.slotFilled c ring.pa slot ((s.cursors.get ring.pa 0 % n + 1) % n) hidx tag sender payload).handled net asid slot
          (s.netState net asid)).answer (.ack net) := by
  subst hslot
  rw [State.arriveMessage]
  refine (if_neg hg).trans ?_
  simp only [hc, hring, hpage, hw]
  rfl

end message

/-! ### Tasks of a suspended context -/

theorem State.resumeTasks_eq (s : State) (net asid : Nat) : s.resumeTasks net asid
    = ((s.net net).suspended.filter fun e => e.1 == asid).foldl (fun s e => s.enqueueTask net asid e.2) (s.forgetTasks net asid) := rfl

theorem exec_suspendedContextResume (s : State) (net asid : Nat) : exec (.suspendedContextResume net asid) s
    = .next (if s.netState net asid = 1 then s.resumeTasks net asid else if s.netState net asid = 2 then s
      else s.forgetTasks net asid) := by
  show execSuspendedContextResume net asid s = _
  unfold execSuspendedContextResume
  split
  · next h => rw [if_pos h]
  · next h => rw [if_neg (by omega), if_pos h]
  · next h1 h2 => rw [if_neg h1, if_neg h2]

end Sys2Proof.Machine
end

section
/-!
PROOFS. O53, the rows of the network engines.
-/
namespace Sys2Proof.Machine

variable {s s1 s2 s3 : State} {id ty : Nat} {c : Chain} {w0 w1 w2 w3 : Word} {t : TileRec} {z : Nat}

/-! ### An ordered entry waits -/

section waits
variable (h : s.atEntry id ty c s1 (w0, w1, w2, w3)) (h8 : bitAt w0 8 = true) (hack : s1.allAcked id = false)
include h h8 hack

theorem exec_nsend_waits (hty : ty = 0x20) : exec (.nsend id) s = .next s := by
  subst hty
  show execNsend id s = _
  exact netEntry_waits h h8 hack

theorem exec_nput_waits (hty : ty = 0x21) : exec (.nput id) s = .next s := by
  subst hty
  show execNput id s = _
  exact netEntry_waits h h8 hack

theorem exec_nget_waits (hty : ty = 0x22) : exec (.nget id) s = .next s := by
  subst hty
  show execNget id s = _
  exact netEntry_waits h h8 hack

end waits

/-- Settles O53: each entry by what it sends once its checks pass, each answer by its packet, each arrival by its context. -/
theorem networkRows : Obligations.NetworkRows := by
  refine ⟨?scratch, ?every, ?answers, fun s rest net asid hh => ⟨?put, ?got, ?get, ?message⟩, fun s net asid => ?resume⟩
  case scratch =>
    intro s id ty c cr w0 w1 w2 w3 t hc he ht net peer ord addr on rows horder hpeer hvalid
    have h := he.atEntry hc
    have hs := hc.scratchOf
    have hrows := hs.payloadRows_eq (ht.holds hs)
    have hroom : fld w1 21 0 + 32 ≤ cr.lsg * 16384 := ht.2.1
    refine ⟨?_, ?_, ?_⟩
    · rintro rfl hlen hidx
      have hsend := execNsend_sends h (ht.maySend hc horder hpeer hvalid (fun h => absurd rfl h) .load) hlen hidx hrows
      rw [State.message, State.tileRows_length] at hsend
      exact hsend
    · rintro rfl hbase
      exact execNput_sends h (ht.maySend hc horder hpeer hvalid (fun _ => hbase) .load) hrows
    · rintro rfl hbase
      exact execNget_sends h (ht.maySend hc horder hpeer hvalid (fun _ => hbase) .store) (hs.areaGet_eq (by decide) hroom)
  case every =>
    intro s s1 s2 s3 id ty c w0 w1 w2 w3 t z f h net peer addr on
    refine ⟨fun h8 hack => ⟨exec_nsend_waits h h8 hack, exec_nput_waits h h8 hack, exec_nget_waits h h8 hack⟩,
      fun horder hpeer hvalid hrec => ⟨?_, ?_, ?_⟩⟩
    · rintro rfl hchk hlen hidx s4 rows zs hrows
      exact execNsend_sends h ⟨horder, hpeer, hvalid, fun h => absurd rfl h, _, _, hrec, hchk⟩ hlen hidx hrows
    · rintro rfl hbase hchk s4 rows zs hrows
      exact execNput_sends h ⟨horder, hpeer, hvalid, fun _ => hbase, _, _, hrec, hchk⟩ hrows
    · rintro rfl hbase hchk s4 bs z' hget
      exact execNget_sends h ⟨horder, hpeer, hvalid, fun _ => hbase, _, _, hrec, hchk⟩ hget
  case answers =>
    intro s n p hp ha
    have hack := exec_packetAck hp
    refine ⟨fun hk => hack.trans (congrArg _ (if_neg hk)), fun hk => hack.trans (congrArg _ (if_pos hk)),
      fun hk hin => exec_packetNack_again hp ha hk hin, fun cause rest hcause hin => exec_packetNack_refused hp ha hcause hin,
      exec_transportTimeout hp ha, exec_transportRetransmission hp ha, fun c cause hc => ?_⟩
    obtain ⟨⟨e, he, heack, hlow⟩, hle⟩ := State.lowestOpen_spec hp ha
    have hfault : BitVec.ofNat 64 (s.lowestOpen p) = e.2.addr := by rw [← hlow, BitVec.ofNat_toNat, BitVec.setWidth_eq]
    refine ⟨_, s.failedChain p c cause, State.failPacket_eq hp hc cause, rfl, rfl, rfl, rfl, rfl, rfl, ⟨e, he, heack, hfault⟩,
      fun e' he' hack' => ?_⟩
    show (BitVec.ofNat 64 (s.lowestOpen p)).toNat ≤ _
    rw [hfault, hlow]
    exact hle e' he' hack'
  case put =>
    intro addr data hin
    have hexec := exec_packetPlacement_put hin
    refine ⟨fun hg => hexec.trans (congrArg _ (State.servePeer_gone hh hg)), fun c hg hc => ⟨fun hp => ?_, fun s1 hp => ?_⟩⟩
    · exact hexec.trans (congrArg _ (State.servePeer_refused hh hg hc hp))
    · exact hexec.trans (congrArg _ (State.servePeer_served hh hg hc hp))
  case got =>
    intro pkt data p ch hin hp hk ha hch hpres
    refine ⟨exec_packetPlacement_got hh hin hp hk ha hch hpres, fun cr t hcr hc ht hspace hshape hown hr hlen => ⟨_, rfl, ?_⟩⟩
    have hs := hc.scratchOf
    have hs0 : State.ScratchOf { s with inputs := rest } ch cr := ⟨hs.crew, hs.mapped, hs.sound, hs.fits, hs.window⟩
    have hown0 : State.inOwnScratch { s with inputs := rest } (State.chainWho { s with inputs := rest } ch) t.range = true := hown
    exact State.placeGot_placed (s := { s with inputs := rest }) hp hch hs0 ht (State.holds_rowAlone hs0 hspace hshape hown0 hr) hlen
  case get =>
    intro addr len hin
    have hexec := exec_ngetRequest hin
    refine ⟨fun hg => hexec.trans (congrArg _ (State.servePeer_gone hh hg)), fun c hg hc => ⟨fun hp => ?_, fun s1 hp => ?_⟩⟩
    · exact hexec.trans (congrArg _ (State.servePeer_refused hh hg hc hp))
    · exact hexec.trans (congrArg _ (State.servePeer_served hh hg hc hp))
  case message =>
    intro hidx tag sender payload hin
    have hexec := exec_activeMessageArrival hh hin
    refine ⟨fun hg => hexec.trans (congrArg _ (State.arriveMessage_gone hg)), fun c base n w ring hg hc hring hpage hw => ?_⟩
    have harrive := hexec.trans (congrArg _ (State.arriveMessage_ring hg hc hring hpage rfl hw))
    refine ⟨fun hbusy => harrive.trans (congrArg _ (if_pos ?_)), fun hfree hpage' => harrive.trans (congrArg _ ((if_neg ?_).trans ?_))⟩
    · simpa using hbusy
    · simpa using ⟨hfree, hpage'⟩
    · rfl
  case resume =>
    have hexec := exec_suspendedContextResume s net asid
    refine ⟨fun h1 => ?_, fun h2 => ?_, fun h => ?_⟩
    · rw [hexec, if_pos h1]
      rfl
    · rw [hexec, if_neg (by omega), if_pos h2]
    · rw [hexec, if_neg (by omega), if_neg (by omega)]
      rfl

end Sys2Proof.Machine
end

section
/-!
PROOFS. Registers and predicates: what a read gives after a write, g0, p0 and mapped registers (R77, R251, R360).
-/
namespace Sys2Proof.Machine

variable {s : State} {k : Nat}

theorem Thread.setPred_pred_self (t : Thread) {p : Pred} (hp : p ≠ 0) (v : Bool) : (t.setPred p v).pred p = v := by
  have hlt : p.toNat < 8 := p.isLt
  have hbit : (1#8 <<< p.toNat).getLsbD p.toNat = true := by simp [hlt]
  rw [Thread.setPred, if_neg hp, Thread.pred, beq_false_of_ne hp, Bool.false_or]
  cases v
  · rw [if_neg Bool.false_ne_true, BitVec.getLsbD_and, BitVec.getLsbD_not, hbit, Bool.not_true, Bool.and_false, Bool.and_false]
  · rw [if_pos rfl, BitVec.getLsbD_or, hbit, Bool.or_true]

/-- A register number of a thread that maps none names its own register. -/
theorem State.physReg_unmapped (h : s.crewAt k = none ∨ ∃ c, s.crewAt k = some c ∧ c.maps = []) (n : Nat) :
    s.physReg k n = (k, n) := by
  obtain h | ⟨c, h, hmaps⟩ := h
  · simp only [State.physReg, h]
  · simp only [State.physReg, h, Crew.mapping, hmaps, List.find?_nil]

/-- R77: in a mapped range it names the register of the target crew's thread on the lane. -/
theorem State.physReg_mapped {c : Crew} {m : ShMap} {n : Nat} (hc : s.crewAt k = some c) (hm : c.mapping n = some m)
    (ht : (s.threads.find (laneKey m.target (laneOf k))).isSome = true) :
    s.physReg k n = (laneKey m.target (laneOf k), m.t + (n - m.d)) := by
  simp only [State.physReg, hc, hm, ht, if_true]

theorem State.readReg_of_ne {r : Reg} (h : r ≠ 0) :
    s.readReg k r = (s.thread (s.physReg k r.toNat).1).reg (s.physReg k r.toNat).2 := if_neg h

theorem State.writeReg_of_ne {r : Reg} (h : r ≠ 0) (v : Word) :
    s.writeReg k r v = s.modThread (s.physReg k r.toNat).1 fun t => t.setReg (s.physReg k r.toNat).2 v := if_neg h

/-- A register written changes threads alone. -/
theorem State.writeReg_rest (s : State) (k : Nat) (r : Reg) (v : Word) : ∃ ts, s.writeReg k r v = { s with threads := ts } :=
  (State.writeReg_kept (pdest := none) (dest := some r) rfl v).rest

theorem State.writeReg_crewAt (s : State) (k : Nat) (r : Reg) (v : Word) (j : Nat) :
    (s.writeReg k r v).crewAt j = s.crewAt j := by
  obtain ⟨ts, hts⟩ := s.writeReg_rest k r v
  rw [hts]
  rfl

/-- A read after a write of a thread that maps no register. -/
theorem State.readReg_writeReg (h : s.crewAt k = none ∨ ∃ c, s.crewAt k = some c ∧ c.maps = []) {r : Reg} (hr : r ≠ 0)
    (q : Reg) (v : Word) : (s.writeReg k r v).readReg k q = if q = r then v else s.readReg k q := by
  by_cases hq : q = 0
  · rw [if_neg (by rintro rfl; exact hr hq), hq]
    rfl
  have h' := (s.writeReg_crewAt k r v k).symm ▸ h
  obtain ⟨-, -, hthread, -⟩ := State.writeReg_own (State.physReg_unmapped h r.toNat) v
  rw [State.readReg_of_ne hq, State.readReg_of_ne hq, State.physReg_unmapped h, State.physReg_unmapped h', hthread]
  split
  · next e =>
    subst e
    exact Thread.setReg_reg_self _ q.isLt (fun e => hq (BitVec.eq_of_toNat_eq e)) v
  · next e =>
    obtain ⟨-, -, -, hother⟩ := (s.thread k).setReg_eq r.toNat v
    exact hother _ fun e' => e (BitVec.eq_of_toNat_eq e')

/-- Settles O11: by the physical register that the number names. -/
theorem registers : Obligations.Registers := by
  refine ⟨fun _ _ => rfl, fun _ _ _ => rfl, fun _ => rfl, fun _ _ => rfl, fun t p q v hp => ?pred, fun s k r q v hr h => ?own,
    fun s k c m r v hc hm hr ht hlt hne => ?mapped⟩
  case pred =>
    split
    · next e => rw [e, t.setPred_pred_self hp]
    · next e =>
      obtain ⟨-, -, hother⟩ := t.setPred_eq p v
      exact hother q e
  case own => exact State.readReg_writeReg h hr q v
  case mapped =>
    have hphys := State.physReg_mapped hc hm ht
    constructor
    · rw [State.readReg_of_ne hr, hphys]
    · rw [State.writeReg_of_ne hr, hphys, State.modThread_get_self]
      exact Thread.setReg_reg_self _ hlt hne v

end Sys2Proof.Machine
end

section
/-!
PROOFS. The atomics: a latency thread performs its own, a SIMT thread sends it as one access (R204, R366, R367, R372).
-/
namespace Sys2Proof.Machine

variable {s s1 s2 : State} {k : Nat} {i : Instr} {g : Guard} {n : Nat} {o : Ord} {sc : Scope} {d a b c : Reg} {regs : List Nat}
  {cv : Word} {t : Target}

/-- `i` is an AMO or a CAS of thread `k` with these fields; it names `regs`, and its comparand is `cv`. -/
def State.AtomicForm (s : State) (k : Nat) (i : Instr) (g : Guard) (n : Nat) (o : Ord) (sc : Scope) (d a b c : Reg)
    (regs : List Nat) (cv : Word) : Prop :=
  (amoForm i = some (g, n, o, sc, d, a, b) ∧ regs = [a.toNat, b.toNat, d.toNat] ∧ cv = 0)
    ∨ ∃ sz, n = amoBytes sz ∧ i = .cas g sz o sc d a b c ∧ regs = [a.toNat, b.toNat, c.toNat, d.toNat] ∧ cv = s.readReg k c

theorem amoBytes_pos (sz : AmoSize) : 0 < amoBytes sz := by cases sz <;> decide

theorem amoForm_bytes_pos (h : amoForm i = some (g, n, o, sc, d, a, b)) : 0 < n := by
  unfold amoForm at h
  split at h <;> cases h
  any_goals exact amoBytes_pos _
  exact Nat.succ_pos 3

theorem State.AtomicForm.pos (h : s.AtomicForm k i g n o sc d a b c regs cv) : 0 < n := by
  obtain ⟨hi, -⟩ | ⟨sz, rfl, -⟩ := h
  · exact amoForm_bytes_pos hi
  · exact amoBytes_pos sz

/-- Every form issues as one atomic of its thread. -/
theorem State.AtomicForm.exec_next (h : s.AtomicForm k i g n o sc d a b c regs cv) (he : s.executes k g anyCore .holds regs)
    (hb : s.amo k i n o sc d a (s.readReg k b) cv = .go s1 .next) :
    exec i s = .next (s1.goTo k (nextPc (s.thread k).pc)) := by
  obtain ⟨hi, rfl, rfl⟩ | ⟨sz, rfl, rfl, rfl, rfl⟩ := h
  · rw [exec_amoForm hi]
    exact perThread_next he hb
  · exact perThread_next he hb

section resolved
variable {v cmp : Word} (ha : (s.readReg k a).toNat % 2 ^ 57 % n = 0)
  (ht : s.target k ((s.readReg k a).toNat % 2 ^ 57) n (.atomic (simpleAtomic i)) = (s1, .inl t))
include ha ht

theorem State.amo_lat {old : Nat} (hk : isLat k = true) (hm : s1.silent (s1.agentOf k) = false)
    (hat : s1.atomicTarget k t n i v cmp = (s2, some old)) :
    s.amo k i n o sc d a v cmp = .go (s2.writeReg k d (word (old % 2 ^ (8 * n)))) .next := by
  simp only [State.amo, va57, ha, ne_eq, not_true_eq_false, if_false, ht, hk, if_true, hm, Bool.false_eq_true, hat]

/-- A SIMT thread's atomic is sent with what it found. -/
theorem State.amo_simt {bs : List Byte} (hk : isLat k = false) (hr : s1.readTarget k t n = (s2, some bs))
    (hld : (s1.thread k).oc.ld < 63) :
    s.amo k i n o sc d a v cmp = .go ((s1.sendPromote k o t).send
      ((s1.access k ((s.readReg k a).toNat % 2 ^ 57) t (.atomic i n d.toNat v cmp) o sc).found bs)) .next := by
  simp only [State.amo, va57, ha, ne_eq, not_true_eq_false, if_false, ht, hk, Bool.false_eq_true, hr, Nat.not_le.2 hld]

end resolved

theorem Memory.bytesToNat_bytes_lt (m : Memory) (a n : Nat) : bytesToNat (m.bytes a n) < 2 ^ (8 * n) := by
  have h := bytesToNat_lt (m.bytes a n)
  rwa [show (m.bytes a n).length = n by simp [Memory.bytes], show 256 = 2 ^ 8 from rfl, ← Nat.pow_mul] at h

/-- Settles O29: the address resolves to host memory, where the atomic is performed at once. -/
theorem hostAtomics : Obligations.HostAtomics := by
  intro s k g n o sc d a b c i regs cv hlat hu hm hi he addr hin hal old
  have hform : s.AtomicForm k i g n o sc d a b c regs cv := hi
  obtain ⟨m, hat, -, hbytes⟩ := State.atomicTarget_host hin s k i (s.readReg k b) cv
  have hamo := State.amo_lat (o := o) (sc := sc) (d := d) hal (State.target_host hin hform.pos hu _) hlat hm hat
  rw [Nat.mod_eq_of_lt (Memory.bytesToNat_bytes_lt ..), State.writeReg_withMem] at hamo
  obtain ⟨ts, hts⟩ := s.writeReg_rest k d (word old)
  refine ⟨_, hform.exec_next he hamo, rfl, ?place, fun x hx => ?others, ?rest⟩
  case place =>
    show bytesToNat (m.bytes.bytes addr n) = _
    rw [hbytes, Memory.bytes_puts_natBytes, bytesToNat_natBytes]
  case others =>
    show m.bytes.byte x = _
    rw [hbytes]
    exact Memory.byte_puts_outside _ _ _ (by rwa [natBytes_length])
  case rest =>
    show (s.writeReg k d (word old)).crews = _ ∧ (s.writeReg k d (word old)).pkg = _
    rw [hts]
    exact ⟨rfl, rfl⟩

/-- Settles O30: behind the resolved target the atomic is sent. -/
theorem atomicIssue : Obligations.AtomicIssue := by
  intro s s1 s2 k g n o sc d a b c i regs cv t bs hk hi he addr hal ht hr hld
  have hform : s.AtomicForm k i g n o sc d a b c regs cv := hi
  exact hform.exec_next he (State.amo_simt hal ht hk hr hld)

end Sys2Proof.Machine
end

section
/-!
PROOFS. Cache operations and prefetches (R378, R404, R440).
-/
namespace Sys2Proof.Machine

variable {s s1 : State} {k addr : Nat} {sc : Scope}

theorem State.cacheOp_window {x : Nat} (h : s.resolve (s.who k) addr .load = (s1, .window x)) (drop : Bool) :
    s.cacheOp k addr sc drop = .go s .next := by
  rw [State.cacheOp, h]

section page
variable {p : Page} (h : s.resolve (s.who k) addr .load = (s1, .page p))
include h

theorem State.cacheOp_lat (hk : isLat k = true) (drop : Bool) : s.cacheOp k addr sc drop
    = .go (s1.performCacheOp k { p with pa := p.pa / 128 * 128 }.target sc drop) .next := by
  simp only [State.cacheOp, h, hk, if_true]

theorem State.cacheOp_simt (hk : isLat k = false) (hst : (s1.thread k).oc.st < 63) (drop : Bool) : s.cacheOp k addr sc drop
    = .go (s1.send (s1.access k addr { p with pa := p.pa / 128 * 128 }.target (if drop then .cinv else .cwb) .plain sc)) .next := by
  simp only [State.cacheOp, h, hk, Bool.false_eq_true, if_false, Nat.not_le.2 hst]

end page

/-- The instruction caches without the copies of a line that an ICINV's scope names. -/
def State.withoutLine (s : State) (k : Nat) (sc : Scope) (line : Nat) : State :=
  s.withMem { s.mem with icache := s.mem.icache.filter fun l => !(l.line == line && s.icacheNamed k sc l.core) }

theorem State.icinv_page {p : Page} (h : s.icinvPage (s.who k) addr = (s1, .page p)) :
    s.icinv k addr sc = .go (s1.withoutLine k sc ((s1.forward p.pa p.key).1 / 128)) .next := by
  rw [State.icinv, h]
  rfl

theorem State.mem_withoutLine {line : Nat} {l : ILine} : l ∈ (s.withoutLine k sc line).mem.icache
    ↔ l ∈ s.mem.icache ∧ ¬(l.line = line ∧ s.icacheNamed k sc l.core = true) := by
  simp only [State.withoutLine, State.withMem_mem, List.mem_filter, Bool.not_eq_true', Bool.and_eq_false_iff, beq_eq_false_iff_ne,
    not_and_or, Bool.not_eq_true]

theorem State.pref_nothing {kind : PrefKind} (h : s.prefPage k addr (if kind = .st then .store else .load) = none) :
    s.pref k kind addr = s := by
  rw [State.pref, h]

/-- Settles O33: by what the address resolves to, and the kind of the core. -/
theorem cacheOperations : Obligations.CacheOperations := by
  intro s s1 k g sc a off
  refine ⟨fun he => ⟨fun x hw => ⟨?_, ?_⟩, fun p hp => ⟨fun hk => ⟨?_, ?_⟩, fun hk hst => ⟨?_, ?_⟩⟩, fun p hp => ?icinv⟩,
    fun kind he => ⟨perThread_next he rfl, fun acc hacc hnone => ?pref⟩⟩
  · exact perThread_next he (State.cacheOp_window hw false)
  · exact perThread_next he (State.cacheOp_window hw true)
  · exact perThread_next he (State.cacheOp_lat hp hk false)
  · exact perThread_next he (State.cacheOp_lat hp hk true)
  · exact perThread_next he (State.cacheOp_simt hp hk hst false)
  · exact perThread_next he (State.cacheOp_simt hp hk hst true)
  case icinv =>
    exact ⟨_, perThread_next he (State.icinv_page hp), fun l hl => State.mem_withoutLine.1 hl,
      fun l hl hn => State.mem_withoutLine.2 ⟨hl, hn⟩, rfl, rfl⟩
  case pref =>
    subst hacc
    exact perThread_next he (congrArg (Res.go · .next) (State.pref_nothing hnone))

end Sys2Proof.Machine
end

section
/-!
PROOFS. Control flow: the jumps of a thread alone, and a branch over a bundle (R33, R371, R406, R407, R429).
-/
namespace Sys2Proof.Machine

variable {s s0 : State} {g : Guard} {off : BitVec 32}

/-! ### Targets -/

theorem low57_ofInt (n : Int) : low57 (BitVec.ofInt 64 n) = BitVec.ofInt 64 (n % 2 ^ 57) := by
  refine BitVec.eq_of_toNat_eq ?_
  simp only [low57, BitVec.toNat_ofNat, BitVec.toNat_ofInt]
  omega

theorem branchTarget_eq (pc : Word) (off : BitVec 32) :
    branchTarget pc off = BitVec.ofInt 64 ((pc.toInt + 8 * immInt off) % 2 ^ 57) := by
  have hsum : pc + off.signExtend 64 * 8 = BitVec.ofInt 64 (pc.toInt + 8 * immInt off) := by
    rw [BitVec.ofInt_add, BitVec.ofInt_toInt, BitVec.ofInt_mul, ← imm64_eq, BitVec.mul_comm]
    rfl
  rw [branchTarget, hsum, low57_ofInt]

theorem jalrTarget_eq (x : Word) (imm : BitVec 32) :
    low57 (x + imm64 imm) = BitVec.ofInt 64 ((x.toInt + immInt imm) % 2 ^ 57) := by
  rw [word_addImm_eq, low57_ofInt]

/-! ### A branch over a bundle -/

/-- Where a branch takes a thread. -/
def Thread.afterBr (t : Thread) (g : Guard) (off : BitVec 32) : Word :=
  if t.guard g then branchTarget t.pc off else nextPc t.pc

/-- One lane's part of a branch. -/
def brStep (g : Guard) (off : BitVec 32) (s : State) (k : Nat) : State := s.goTo k ((s.thread k).afterBr g off)

/-- Every lane of a branch goes on and stays with the bundle. -/
theorem runThreads_br {i : Instr} : ∀ (ks : List Nat) (s : State) (kept : List Nat), SameChecks s0 s →
    (∀ j, (s.thread j).preds = (s0.thread j).preds) →
    (∀ k ∈ ks, (s0.threads.find k).isSome = true ∧ ((s0.thread k).guard g = true → s0.passes k anyCore .runs [])) →
    runThreads (fun s k => s.threadPart k g i anyCore [] .runs fun k s => .go s (.jump (branchTarget (s.thread k).pc off))) ks s kept
      = some (ks.foldl (brStep g off) s, kept ++ ks) := by
  intro ks
  induction ks with
  | nil => intro s kept _ _ _; simp [runThreads]
  | cons k ks ih =>
    intro s kept hsame hpreds hks
    obtain ⟨hpresent, hpasses⟩ := hks k List.mem_cons_self
    have hrest := ih (brStep g off s k) (kept ++ [k]) (hsame.trans (sameChecks_goTo (hsame.present hpresent) _))
      (fun j => State.goTo_relates (P := fun t => t.preds = (s0.thread j).preds) (fun _ h => h) (hpreds j))
      fun j hj => hks j (List.mem_cons_of_mem _ hj)
    rw [List.append_assoc, List.singleton_append] at hrest
    cases hg : (s.thread k).guard g with
    | true =>
      have hstep : brStep g off s k = s.goTo k (branchTarget (s.thread k).pc off) := by rw [brStep, Thread.afterBr, hg, if_pos rfl]
      have hpass := hsame.passes (hpasses (guard_of_preds (hpreds k) g ▸ hg))
      rw [hstep] at hrest
      simp only [runThreads, State.threadPart_run hg hpass, State.applyRes, if_true, hrest, List.foldl_cons, hstep]
    | false =>
      have hstep : brStep g off s k = s.goTo k (nextPc (s.thread k).pc) := by
        rw [brStep, Thread.afterBr, hg, if_neg Bool.false_ne_true]
      rw [hstep] at hrest
      simp only [runThreads, State.threadPart_skip hg, State.applyRes, if_true, hrest, List.foldl_cons, hstep]

theorem exec_br (hadm : s.admits g anyCore .runs []) (h : BrHint) :
    exec (.br g h off) s = .next ((s.issuing.foldl (brStep g off) s).splitBundle s.issuing) := by
  show perThread s _ g [] anyCore .runs _ = _
  rw [perThread, State.issue, runThreads_br s.issuing s [] (SameChecks.refl s) (fun _ => rfl) hadm.2]
  rfl

theorem brSteps_crews (ks : List Nat) (s : State) : (ks.foldl (brStep g off) s).crews = s.crews :=
  foldl_keeps (P := State.crews) (f := brStep g off) (fun _ _ => rfl) ks s

theorem brSteps_other {ks : List Nat} {j : Nat} (hj : j ∉ ks) (s : State) :
    (ks.foldl (brStep g off) s).thread j = s.thread j := by
  induction ks generalizing s with
  | nil => rfl
  | cons k ks ih =>
    rw [List.foldl_cons, ih (List.not_mem_of_not_mem_cons hj), brStep, State.goTo_get_ne _ _ _ (List.ne_of_not_mem_cons hj)]

theorem brSteps_lane {ks : List Nat} (hn : ks.Nodup) {j : Nat} (hj : j ∈ ks) (s : State) :
    (ks.foldl (brStep g off) s).thread j = (s.thread j).goTo ((s.thread j).afterBr g off) := by
  induction ks generalizing s with
  | nil => cases hj
  | cons k ks ih =>
    obtain ⟨hk, hn⟩ := List.nodup_cons.1 hn
    rw [List.foldl_cons]
    rcases List.mem_cons.1 hj with rfl | hj
    · rw [brSteps_other hk, brStep, State.goTo_get_self]
    · have hne : j ≠ k := fun e => hk (e ▸ hj)
      rw [ih hn hj, brStep, State.goTo_get_ne _ _ _ hne]

/-! ### The bundle keeps the lowest (R33) -/

/-- A running minimum lies below what it started from and all that it has seen. -/
theorem foldl_min_le {f : Option Nat → Nat → Option Nat} {v : Nat → Nat} (hnone : ∀ k, f none k = some (v k))
    (hsome : ∀ x k, f (some x) k = some (min x (v k))) {ks : List Nat} {b : Option Nat} {low : Nat}
    (h : ks.foldl f b = some low) : (∀ x, b = some x → low ≤ x) ∧ ∀ j ∈ ks, low ≤ v j := by
  induction ks generalizing b with
  | nil => exact ⟨fun x hx => by cases h.symm.trans hx; exact le_rfl, by simp⟩
  | cons k ks ih =>
    obtain ⟨hstart, hseen⟩ := ih h
    cases b with
    | none =>
      exact ⟨nofun, List.forall_mem_cons.2 ⟨hstart _ (hnone k), hseen⟩⟩
    | some x =>
      have hmin := le_min_iff.1 (hstart _ (hsome x k))
      exact ⟨fun y hy => by cases hy; exact hmin.1, List.forall_mem_cons.2 ⟨hmin.2, hseen⟩⟩

/-- A thread that leaves when its turn comes, is in no bundle of its core afterwards. -/
theorem State.leaving_without {k : Nat} {ks : List Nat} {stays : Nat → Prop} [DecidablePred stays] (hk : k ∈ ks) (hgo : ¬stays k)
    (hlane : isLat k = false) (s : State) :
    ((ks.foldl (fun s j => if stays j then s else s.leaveBundle j) s).core (s.coreOf k)).without k := by
  induction ks generalizing s with
  | nil => cases hk
  | cons j ks ih =>
    rw [List.foldl_cons]
    rcases List.mem_cons.1 hk with rfl | hk
    · rw [if_neg hgo]
      refine List.foldlRecOn (motive := fun t : State => (t.core (s.coreOf k)).without k) _ _ (s.leaveBundle_without hlane)
        fun t ht j _ => ?_
      split
      · exact ht
      · exact State.leaveBundle_keeps_without ht j
    · split
      · exact ih hk s
      · simpa using ih hk (s.leaveBundle j)

/-- A thread above another one is in no bundle of its core after the split. -/
theorem State.splitBundle_without {ks : List Nat} {j k : Nat} (hk : k ∈ ks) (hj : j ∈ ks) (hlane : isLat k = false)
    (hlt : (s.thread j).pc.toNat < (s.thread k).pc.toNat) : ((s.splitBundle ks).core (s.coreOf k)).without k := by
  unfold State.splitBundle
  dsimp only
  refine State.leaving_without hk (fun e => ?_) hlane s
  have hlow := (foldl_min_le (v := fun k => (s.thread k).pc.toNat) (fun _ => rfl) (fun _ _ => rfl) (eq_of_beq e).symm).2 j hj
  exact absurd hlow (Nat.not_le.2 hlt)

/-- Settles O35: a lone thread by the flow that its instruction names, a bundle lane by lane and then by its lowest PC. -/
theorem controlFlow : Obligations.ControlFlow := by
  refine ⟨fun s k g => ?alone, fun s g h off t hadm hex => ?bundle⟩
  case alone =>
    dsimp only
    simp only [← branchTarget_eq, ← jalrTarget_eq]
    refine ⟨fun he => ⟨fun h off => perThread_jump he rfl, perThread_next he rfl⟩, fun call d off he => perThread_jump he rfl,
      fun h d a imm he => ⟨fun hal => perThread_jump he ?_, fun hmis => perThread_raise_at he ?_⟩⟩
    · exact if_neg (not_not.2 hal)
    · exact if_pos hmis
  case bundle =>
    obtain rfl := Host.Outcome.next.inj ((exec_br hadm h).symm.trans hex)
    obtain ⟨cs, hsplit, -⟩ := State.splitBundle_kept (s.issuing.foldl (brStep g off) s) s.issuing
    have hthread : ∀ j, ((s.issuing.foldl (brStep g off) s).splitBundle s.issuing).thread j
        = (s.issuing.foldl (brStep g off) s).thread j := fun j => by rw [hsplit]; rfl
    simp only [hthread]
    refine ⟨fun k hk => ?_, fun k hk => brSteps_other hk s, fun c p ix _ hcore k hk ⟨j, hj, hlt⟩ => ?_⟩
    · rw [brSteps_lane hadm.1 hk]
      rfl
    · obtain ⟨hlane, rfl⟩ := hcore k hk
      have hcoreOf : (s.issuing.foldl (brStep g off) s).coreOf k = s.coreOf k := by
        simp only [State.coreOf, State.crewAt, brSteps_crews]
      exact hcoreOf ▸ State.splitBundle_without hk hj hlane hlt

end Sys2Proof.Machine
end

section
/-!
PROOFS. The words of the instruction reference (R371, R420, R456, R473).
-/
namespace Sys2Proof.Machine

/-- The word of a well-formed instruction decodes to it. -/
theorem decode_of_encode {i : Instr} {w : BitVec 64} (hw : encode i = w) (hi : WellFormed i = true) : decode w = .ok i :=
  hw ▸ decode_encode i hi

/-- Settles O3: each word is the encoding of its well-formed instruction. -/
theorem wordsDecode : Obligations.WordsDecode := by
  refine ⟨?_, ?_, ?_, ?_, ?_, ?_, ?_, ?_, ?_, ?_, ?_, ?_, ?_⟩ <;> exact decode_of_encode (by decide) (by decide)

end Sys2Proof.Machine
end
